-- ==== Sys2Proof/Word.lean ====
section
/-!
DEFINITION. The words of the machine and the one table type its sparse state is kept in.
R11: bit 0 is the least significant bit. R50: every register is 64 bits wide.
-/
namespace Sys2Proof

/-- One byte of memory, a packet or a descriptor. -/
abbrev Byte := BitVec 8

/-- One register (R50). -/
abbrev W64 := BitVec 64

/-- A string of bytes, lowest address first. -/
abbrev Bytes := List Byte

/-- A sparse table: (key, value) pairs, keys strictly rising. -/
abbrev Tab (α : Type) := List (Nat × α)

end Sys2Proof
end

