-- ==== Sys2Proof/Syntax.lean ====
section
/-!
DEFINITION. The commands of the block: everything that reaches it from outside or happens in it as one indivisible
step (the table of operations and events), with the operands each carries.
-/
namespace Sys2Proof

/-- Quarter number. -/
abbrev Qn := Fin 4
/-- Stall identifier; bits 15:10 of a valid one are 0 (R26). -/
abbrev StallNo := Fin 1024
/-- Porter channel number (R28). -/
abbrev ChanNo := Fin 256
/-- Function number: PF0 0x000, PF1 0x100, VF n of a PF that number + n. -/
abbrev FuncNo := Fin 512
/-- Precinct number. -/
abbrev PrecNo := Fin 64
/-- Causeway link number. -/
abbrev LinkNo := Fin 16
/-- Hawker core: 0–15 are 4q + core, 16 and 17 the Watch post cores. -/
abbrev CoreNo := Fin 18

/-- Register number of a Hawker instruction (R484). -/
abbrev HReg := BitVec 5

/-- Who makes a register access (requester codes of "Register-space control registers"). -/
inductive Requester where
  /-- A Guildhall core (codes 0–15) or Watch post core (16–17), in kernel or user mode. -/
  | core (n : CoreNo) (kernel : Bool)
  /-- The register aperture of PF0 (18) or PF1 (19). -/
  | pf (p : Fin 2)
  /-- A Porter channel (20). -/
  | porter (c : ChanNo)
  /-- An arrival over a Causeway link, or an upstream request through a root port (21). -/
  | causeway (l : LinkNo)
  /-- A Bell unit acting on its own (22). -/
  | bell (q : Qn)
  /-- A Carter bell message (23). -/
  | carter (q : Qn)
  deriving DecidableEq, Repr

/-- How a manager asks for an image operation: a register write or an IMAGE_OP message. -/
inductive XimSrc where
  /-- A write of `v` to XIM_LOAD_CTRL by `rq`. -/
  | reg (rq : Requester) (v : W64)
  /-- The IMAGE_OP message at the head of function `f`'s Kiosk. -/
  | msg (f : FuncNo)
  deriving DecidableEq, Repr

/-- One access at a memory home. -/
structure HomeAccess where
  /-- Requester: stall identifier, 0x4000 + channel, 0x5000 + link, or 0x8000 + core. -/
  req : Nat
  asid : Nat
  addr : Nat
  len : Nat
  /-- The bytes written, for a write. -/
  data : Option Bytes
  /-- The write carries poison. -/
  poison : Bool
  /-- Byte positions of the line that have gone wrong by nature since the last access. -/
  upset : List Nat
  deriving DecidableEq, Repr

/-- One access to be translated. -/
structure VAccess where
  /-- Requester as coded in a fault record (Table 9.5). -/
  req : Nat
  asid : Nat
  va : Nat
  write : Bool
  deriving DecidableEq, Repr

/-- How a burst of a Porter channel ended, as the far side answers it. -/
inductive BurstEnd where
  /-- Answered; for a read of host or accelerator memory, with its bytes and whether they are poisoned. -/
  | ok (data : Bytes) (poison : Bool)
  /-- Unsupported Request or Completer Abort, or a Causeway error response. -/
  | abort
  /-- A host completion arrives for a tag that has expired (R471). -/
  | late (port : Fin 2) (tag : Nat)
  deriving DecidableEq, Repr

/-- Who waits on a counter. -/
inductive WaitSrc where
  /-- The oldest fetched task of a stall. -/
  | task (stall : Nat)
  /-- The current descriptor of a Porter channel. -/
  | chan (c : Nat)
  /-- Wait 0 or 1 of sync entry `e` of Quarter `q`. -/
  | sync (q e w : Nat)
  /-- The triggered order at the head of a Carter context. -/
  | order (conn : Nat)
  /-- The command at the head of a Ledger queue that uses DB_BELL. -/
  | ledger (queue : Nat)
  deriving DecidableEq, Repr

/-- What has passed its HANG_LIMIT (R315). -/
inductive HangWhat where
  /-- The waiter at a position of a counter's queue. -/
  | waiter (n : Fin 4096) (pos : Nat)
  /-- The present generation of a mask slot or of a device group homed here. -/
  | group (device : Bool) (m : Fin 64)
  /-- The wait or barrier of operation `op` of a function's docket. -/
  | docket (f : FuncNo) (tag : W64) (op : Nat)
  deriving DecidableEq, Repr


/-- A host's answer to a Surveyor's ATS or PRI request (R264). -/
inductive AtsAnswer where
  /-- A translation: the host page and the access it grants. -/
  | translation (host : Nat) (read write : Bool)
  /-- A page response: Success, or any other. -/
  | pri (success : Bool)
  deriving DecidableEq, Repr

/-- A message of the Causeway link protocol (Table 13.1). -/
structure CwMsg where
  type : Nat
  flags : Nat
  length : Nat
  tag : Nat
  status : Nat
  addr : Nat
  data : Bytes
  /-- Every reserved byte and bit of its header is 0. -/
  clean : Bool := true
  deriving DecidableEq, Repr

/-- An upstream memory request through a root port (R349): its address, the bytes written or the length read, and its AT
bit. -/
structure RpRequest where
  addr : Nat
  data : Option Bytes
  len : Nat
  at_ : Bool
  poison : Bool
  deriving DecidableEq, Repr

/-- The answer of a host or an accelerator to a read that a command makes of its memory through a Porter channel: the bytes,
and whether they are poisoned; none for an error or no answer in time. -/
abbrev FarAns := Option (Bytes × Bool)

/-- Connection handle. -/
abbrev ConnNo := Fin 1048576

/-- How a Carter doorbell is rung: a write of CARTER_DB, or a write of a doorbell slot of a function's BAR0. -/
inductive CarterBell where
  | reg (rq : Requester) (q : Qn) (v : W64)
  | slot (f : FuncNo) (n : Nat) (v : W64)
  deriving DecidableEq, Repr

/-- How a Carter operation is asked for: a write of CARTER_OP, or the Kiosk message at the head of function `f`'s Kiosk. -/
inductive CarterSrc where
  | reg (rq : Requester) (q : Qn) (v : W64)
  | msg (f : FuncNo)
  deriving DecidableEq, Repr


/-- What ends a service module: the message at the head of a Kiosk, or an exception of the module itself. -/
inductive ModuleEnd where
  | msg (f : FuncNo)
  | exception (module : BitVec 32) (ecause : BitVec 32)
  deriving DecidableEq, Repr

/-- How a manager's trust or power message comes: at the head of a Kiosk, or its body over an open vendor session of MCTP (R610). -/
inductive MgrSrc where
  | msg (f : FuncNo)
  | mctp (body : Bytes)
  deriving DecidableEq, Repr

/-- How the operating point is asked for: a write of PWR_CTRL, or a PWR_SET message. -/
inductive PwrSrc where
  | reg (rq : Requester) (v : W64)
  | mgr (src : MgrSrc)
  deriving DecidableEq, Repr

/-- Readings the Watch post takes (R583, R581). Units are those of PWR_INPUT, PWR_THERMAL and PWR_TJ; `mean1`, `mean10` and `mean100` are
the mean input power over the last 1, 10 and 100 ms, W. -/
structure Readings where
  voltage : Nat
  current : Nat
  mean1 : Nat
  mean10 : Nat
  mean100 : Nat
  inlet : Nat
  outlet : Nat
  flow : Nat
  /-- Junctions of the Watch post die, of compute dies 0–3 and of base dies 0–3, °C. -/
  watch : Nat
  compute : List Nat
  base : List Nat
  /-- The seal loop reads open. -/
  sealOpen : Bool
  deriving DecidableEq, Repr

/-- An SPDM request (R574), with the bytes that a signed response signs. -/
inductive SpdmReq where
  | version | capabilities | algorithms | digests
  | certificate (off len : BitVec 16)
  | challenge (msg : Bytes)
  /-- Index 0xFF asks for all; 0 for the count. -/
  | measurements (index : BitVec 8) (sign : Bool) (msg : Bytes)
  | keyExchange (msg : Bytes)
  | finish (id : Fin 4) | heartbeat (id : Fin 4) | keyUpdate (id : Fin 4) | endSession (id : Fin 4)
  /-- IDE_KM, inside a session or outside one. -/
  | ideKm (id : Option (Fin 4))
  /-- Any request that the responder does not support. -/
  | other (code : BitVec 8)
  deriving DecidableEq, Repr

/-- A register of a core that JTAG reads or writes. -/
inductive CoreReg where
  | pc
  /-- r0 to r31 of the present window. -/
  | general (r : BitVec 5)
  /-- A control register by its selector (Table 20.6). -/
  | control (sel : BitVec 8)
  deriving DecidableEq, Repr

/-- A JTAG operation at the pins (R578). -/
inductive JtagOp where
  /-- A boundary-scan instruction: BYPASS, SAMPLE, PRELOAD, EXTEST or CLAMP; and RESET_N asserted while it runs. -/
  | bypass | sample | preload | extest | clamp
  | halt (n : CoreNo) | resume (n : CoreNo) | step (n : CoreNo)
  | readReg (n : CoreNo) (r : CoreReg)
  | writeReg (n : CoreNo) (r : CoreReg) (v : W64)
  | readMem (addr : BitVec 57) (len : BitVec 16)
  | writeMem (addr : BitVec 57) (data : Bytes)
  deriving DecidableEq, Repr

/-- How a transfer over a Boulevard ends: received, and its acknowledgement back; received, and the acknowledgement lost; or failing its
CRC (R253, R254). -/
inductive BlvdEnd where
  | acked | ackLost | crcFail
  deriving DecidableEq, Repr

/-- Where a register access goes: an offset of the register space by a requester, a host's access to BAR0, or to the configuration
space of a function. -/
inductive Place where
  | space (rq : Requester) (off : BitVec 32)
  | bar0 (f : FuncNo) (off : BitVec 32)
  | config (f : FuncNo) (off : BitVec 12)
  deriving DecidableEq, Repr

/-- The commands the block takes, one for each row of the table of operations and events. Each carries what comes
from outside the block: addresses, values, frames, readings, and the choices the spec leaves to firmware. -/
inductive Instr where
  /-- ADD (R507). ALU ADD writes rs1 plus rs2 to rd. -/
  | aluAdd (n : CoreNo) (rd rs1 rs2 : HReg)
  /-- SUB (R507). ALU SUB writes rs1 minus rs2 to rd. -/
  | aluSub (n : CoreNo) (rd rs1 rs2 : HReg)
  /-- AND (R507). ALU AND writes the bitwise AND to rd. -/
  | aluAnd (n : CoreNo) (rd rs1 rs2 : HReg)
  /-- OR (R507). ALU OR writes the bitwise OR to rd. -/
  | aluOr (n : CoreNo) (rd rs1 rs2 : HReg)
  /-- XOR (R507). ALU XOR writes the bitwise XOR to rd. -/
  | aluXor (n : CoreNo) (rd rs1 rs2 : HReg)
  /-- SLL (R507). ALU SLL shifts rs1 left by rs2 bits 5:0. -/
  | sll (n : CoreNo) (rd rs1 rs2 : HReg)
  /-- SRL (R507). ALU SRL shifts rs1 right logically by rs2 bits 5:0. -/
  | srl (n : CoreNo) (rd rs1 rs2 : HReg)
  /-- SRA (R507). ALU SRA shifts rs1 right arithmetically by rs2 bits 5:0. -/
  | sra (n : CoreNo) (rd rs1 rs2 : HReg)
  /-- SLT (R507). ALU SLT writes 1 if rs1 is less than rs2, signed. -/
  | slt (n : CoreNo) (rd rs1 rs2 : HReg)
  /-- SLTU (R507). ALU SLTU writes 1 if rs1 is less than rs2, unsigned. -/
  | sltu (n : CoreNo) (rd rs1 rs2 : HReg)
  /-- MUL (R507). ALU MUL writes the low 64 bits of the product. -/
  | mul (n : CoreNo) (rd rs1 rs2 : HReg)
  /-- MULHU (R507). ALU MULHU writes the high 64 bits of the unsigned product. -/
  | mulhu (n : CoreNo) (rd rs1 rs2 : HReg)
  /-- DIVU (R507). ALU DIVU writes the unsigned quotient, all ones on division by 0. -/
  | divu (n : CoreNo) (rd rs1 rs2 : HReg)
  /-- REMU (R507). ALU REMU writes the unsigned remainder, the dividend on division by 0. -/
  | remu (n : CoreNo) (rd rs1 rs2 : HReg)
  /-- DIV (R507). ALU DIV writes the signed quotient with the defined division-by-0 and overflow results. -/
  | div (n : CoreNo) (rd rs1 rs2 : HReg)
  /-- REM (R507). ALU REM writes the signed remainder with the defined division-by-0 and overflow results. -/
  | rem (n : CoreNo) (rd rs1 rs2 : HReg)
  /-- ADDI (R507). ADDI writes rs1 plus the sign-extended immediate. -/
  | addi (n : CoreNo) (rd rs1 : HReg) (imm : BitVec 16)
  /-- ANDI (R507). ANDI writes rs1 AND the zero-extended immediate. -/
  | andi (n : CoreNo) (rd rs1 : HReg) (imm : BitVec 16)
  /-- ORI (R507). ORI writes rs1 OR the zero-extended immediate. -/
  | ori (n : CoreNo) (rd rs1 : HReg) (imm : BitVec 16)
  /-- XORI (R507). XORI writes rs1 XOR the zero-extended immediate. -/
  | xori (n : CoreNo) (rd rs1 : HReg) (imm : BitVec 16)
  /-- SLLI (R507). SLLI shifts rs1 left by an immediate amount. -/
  | slli (n : CoreNo) (rd rs1 : HReg) (sh : BitVec 6)
  /-- SRLI (R507). SRLI shifts rs1 right logically by an immediate amount. -/
  | srli (n : CoreNo) (rd rs1 : HReg) (sh : BitVec 6)
  /-- SRAI (R507). SRAI shifts rs1 right arithmetically by an immediate amount. -/
  | srai (n : CoreNo) (rd rs1 : HReg) (sh : BitVec 6)
  /-- SLTI (R507). SLTI writes 1 if rs1 is less than the sign-extended immediate. -/
  | slti (n : CoreNo) (rd rs1 : HReg) (imm : BitVec 16)
  /-- SHORI (R507). SHORI shifts rs1 left 16 and ORs in the immediate. -/
  | shori (n : CoreNo) (rd rs1 : HReg) (imm : BitVec 16)
  /-- LI (R507). LI writes the sign-extended 21-bit immediate. -/
  | li (n : CoreNo) (rd : HReg) (imm : BitVec 21)
  /-- LD (R502). LD loads 8 bytes, checked by alignment and MPU, raising faults or POISON. -/
  | ld (n : CoreNo) (rd rs1 : HReg) (imm : BitVec 16)
  /-- LW (R502). LW loads 4 bytes zero-extended. -/
  | lw (n : CoreNo) (rd rs1 : HReg) (imm : BitVec 16)
  /-- LWS (R502). LWS loads 4 bytes sign-extended. -/
  | lws (n : CoreNo) (rd rs1 : HReg) (imm : BitVec 16)
  /-- LH (R502). LH loads 2 bytes zero-extended. -/
  | lh (n : CoreNo) (rd rs1 : HReg) (imm : BitVec 16)
  /-- LB (R502). LB loads 1 byte zero-extended. -/
  | lb (n : CoreNo) (rd rs1 : HReg) (imm : BitVec 16)
  /-- ST (R502). ST stores 8 bytes through to its home, or raises STORE_FAULT. -/
  | st (n : CoreNo) (rd rs1 : HReg) (imm : BitVec 16)
  /-- SW (R502). SW stores 4 bytes. -/
  | sw (n : CoreNo) (rd rs1 : HReg) (imm : BitVec 16)
  /-- SH (R502). SH stores 2 bytes. -/
  | sh (n : CoreNo) (rd rs1 : HReg) (imm : BitVec 16)
  /-- SB (R502). SB stores 1 byte. -/
  | sb (n : CoreNo) (rd rs1 : HReg) (imm : BitVec 16)
  /-- AMOADD (R503). AMOADD atomically adds rs2 at its home and returns the old value. -/
  | amoadd (n : CoreNo) (rd rs1 rs2 : HReg)
  /-- AMOSWAP (R503). AMOSWAP atomically writes rs2 at its home and returns the old value. -/
  | amoswap (n : CoreNo) (rd rs1 rs2 : HReg)
  /-- CAS (R503). CAS atomically writes rs2 if the old value equals rd and returns the old value. -/
  | cas (n : CoreNo) (rd rs1 rs2 : HReg)
  /-- BEQ (R507). BEQ branches when rs1 equals rs2. -/
  | beq (n : CoreNo) (rs1 rs2 : HReg) (disp : BitVec 16)
  /-- BNE (R507). BNE branches when rs1 differs from rs2. -/
  | bne (n : CoreNo) (rs1 rs2 : HReg) (disp : BitVec 16)
  /-- BLT (R507). BLT branches when rs1 is less than rs2, signed. -/
  | blt (n : CoreNo) (rs1 rs2 : HReg) (disp : BitVec 16)
  /-- BGE (R507). BGE branches when rs1 is at least rs2, signed. -/
  | bge (n : CoreNo) (rs1 rs2 : HReg) (disp : BitVec 16)
  /-- BLTU (R507). BLTU branches when rs1 is less than rs2, unsigned. -/
  | bltu (n : CoreNo) (rs1 rs2 : HReg) (disp : BitVec 16)
  /-- BGEU (R507). BGEU branches when rs1 is at least rs2, unsigned. -/
  | bgeu (n : CoreNo) (rs1 rs2 : HReg) (disp : BitVec 16)
  /-- CALL (R492). CALL spills if needed, pushes the return address, slides the window forward and jumps. -/
  | call (n : CoreNo) (disp : BitVec 26)
  /-- JMP (R507). JMP jumps by the displacement. -/
  | jmp (n : CoreNo) (disp : BitVec 26)
  /-- CALLR (R492). CALLR calls the address in rs1. -/
  | callr (n : CoreNo) (rs1 : HReg)
  /-- JMPR (R507). JMPR jumps to rs1. -/
  | jmpr (n : CoreNo) (rs1 : HReg)
  /-- RET (R493). RET reads the return address, fills the caller's frame, slides back and jumps, all or nothing. -/
  | ret (n : CoreNo)
  /-- MFC (R497). MFC reads a control register. -/
  | mfc (n : CoreNo) (rd : HReg) (sel : BitVec 8)
  /-- MTC (R490). MTC writes a control register, raising ILLEGAL for bad spill-area settings or reserved bits. -/
  | mtc (n : CoreNo) (rs1 : HReg) (sel : BitVec 8)
  /-- RDPOST (R496). RDPOST returns and empties a post, waiting while it is empty. -/
  | rdpost (n : CoreNo) (rd : HReg) (sel : BitVec 8)
  /-- SEND (R494). SEND delivers rs1 to a peer core's post, waiting while it is full, or raises POST_UNREACHABLE. -/
  | send (n : CoreNo) (rs1 : HReg) (sel : BitVec 8)
  /-- POST_DELIVER (R495). When a post empties, the earliest waiting sender delivers and any waiting RDPOST completes. -/
  | postDeliver (n : CoreNo) (p : Fin 4)
  /-- TRAP (R499). TRAP completes and takes the TRAP exception with its SEL in EADDR. -/
  | trap (n : CoreNo) (sel : BitVec 8)
  /-- ERET (R500). ERET fills the previous frame, slides back, restores PSR and jumps to EPC in one step. -/
  | eret (n : CoreNo)
  /-- DSYNC (R505). DSYNC waits for every earlier store to be acknowledged and invalidates the data cache. -/
  | dsync (n : CoreNo)
  /-- ISYNC (R505). ISYNC invalidates the instruction cache and refetches. -/
  | isync (n : CoreNo)
  /-- WFI (R501). WFI waits until an enabled interrupt line is pending. -/
  | wfi (n : CoreNo)
  /-- WFI_WAKE (R501). A waiting WFI completes when a line enabled in IEN becomes pending. -/
  | wfiWake (n : CoreNo)
  /-- BRK (R499). BRK completes and takes the BREAK exception. -/
  | brk (n : CoreNo)
  /-- FLUSHW (R491). FLUSHW spills every resident frame except the current one. -/
  | flushw (n : CoreNo)
  /-- INTERRUPT_TAKE (R501). Between instructions with IE set, a core takes the lowest-numbered pending enabled line as an exception entry. -/
  | interruptTake (n : CoreNo)
  /-- ILLEGAL (R498). A Hawker core meets an undefined opcode, FUNC or selector, or a nonzero unused field, and takes the ILLEGAL exception with the instruction word in EADDR. -/
  | illegal (n : CoreNo) (w : BitVec 32)
  /-- REGISTER_WRITE (R57). A write to a register that has no row of its own is applied per field access code, through unicast, broadcast or group windows, with bad accesses and refused values counted as stray writes. -/
  | registerWrite (place : Place) (data : Bytes) (silent : List (BitVec 16))
  /-- READ_CLEAR (R614). A read of a register holding RC fields returns the value and clears the RC fields that lie wholly in the half or halves read, at every target. -/
  | readClear (place : Place) (size : Nat) (silent : List (BitVec 16))
  /-- MULTI_TARGET_READ (R59). A read through a broadcast, group, all-units or all-channels window returns the lowest-numbered responding target and updates the reader's REGSP_BCAST_LAST and REGSP_BCAST_DIFF. -/
  | multiTargetRead (rq : Requester) (off : BitVec 32) (size : Nat) (silent : List (BitVec 16))
  /-- GRP_MEMBER_WRITE (R65). A write to REGSP_GRP_MEMBER changes a group slot for accesses that enter the group after it, or is ignored if it names no valid member. -/
  | grpMemberWrite (rq : Requester) (g : Fin 16) (m : Fin 64) (v : W64)
  /-- REGISTER_TIMEOUT (R549). A unit that has not answered a register access within 10 µs is skipped, and the error is recorded once for that unit. -/
  | registerTimeout (off : BitVec 32)
  /-- CONSERVE_CHECK (R66). A write to CONSERVE_CTRL starts a check of each selected conserved quantity, which then stays PENDING. -/
  | conserveCheck (rq : Requester) (v : W64)
  /-- CONSERVE_CHECK_RESULT (R66). Once every instance of a pending quantity reaches a quiescent point, the check reports PASS or FAIL, and a FAIL is reported as an error. -/
  | conserveCheckResult (n : Fin 7) (bad : Option Nat)
  /-- XIM_QUIESCE (R92). OP QUIESCE in XIM_LOAD_CTRL or IMAGE_OP starts quiescing an ACTIVE precinct, or completes at once for an UNUSED one. -/
  | ximQuiesce (src : XimSrc)
  /-- XIM_QUIESCE_DONE (R92). A quiescing precinct reaches QUIESCED when its dockets, channels, queues and stalls have drained. -/
  | ximQuiesceDone (p : PrecNo)
  /-- XIM_QUIESCE_TIMEOUT (R92). A precinct not quiesced within XIM_QUIESCE_LIMIT returns to ACTIVE with NOT_QUIESCED. -/
  | ximQuiesceTimeout (p : PrecNo)
  /-- XIM_LOAD (R83). OP LOAD starts validation of a partial image for a QUIESCED or UNUSED precinct, or is refused while a load is busy or when the image is full. -/
  | ximLoad (src : XimSrc)
  /-- XIM_LOAD_COMMIT (R93). When validation ends, the image is either rejected whole with its status or applied at one commit point, creating, changing or retiring the precinct. -/
  | ximLoadCommit
  /-- XIM_RESUME (R96). OP RESUME makes a QUIESCED precinct ACTIVE and lets firmware re-place its parked dockets, or completes with NOT_QUIESCED for an UNUSED precinct. -/
  | ximResume (src : XimSrc)
  /-- DOCKET_SUBMIT (R166). A DOCKET_SUBMIT message is accepted or refused as busy, and an accepted docket is checked for format, version and certificate, then placed or completed at once with a refusing status. -/
  | docketSubmit (f : FuncNo) (bound : List (Nat × Nat)) (far : List FarAns)
  /-- OPERATION_START (R151). When all waits of a docket operation can be met, it consumes them at once, evaluates its predicate, and either runs or is skipped and signals. -/
  | operationStart (f : FuncNo) (tag : W64) (op : Nat) (placed : List Nat) (far : List FarAns)
  /-- OPERATION_COMPLETE (R153). A running docket operation completes once its outputs are visible at their homes, writing poison on a non-ending failure, and then signals its counter. -/
  | operationComplete (f : FuncNo) (tag : W64) (op : Nat) (members : List (Nat × Bytes × Bool)) (mismatch : Bool) (far : List FarAns)
  /-- DOCKET_COMPLETE (R155). When every operation has completed or been skipped, or an ending status stops the docket, firmware writes the completion record and then posts DOCKET_DONE. -/
  | docketComplete (f : FuncNo) (tag : W64)
  /-- DOCKET_CANCEL (R167). DOCKET_CANCEL ends a running docket with CANCELLED, or is answered NOT_FOUND for a completed or unknown TAG. -/
  | docketCancel (f : FuncNo)
  /-- STALL_RING_TAIL_WRITE (R187). A write of a stall's RING_TAIL adds tasks to its ring, kept but not fetched while the stall is FENCED. -/
  | stallRingTailWrite (rq : Requester) (st : StallNo) (v : W64)
  /-- STALL_TASK_FETCH (R187). An enabled, unhalted, unfenced stall whose HEAD differs from TAIL fetches the descriptor at HEAD and advances HEAD. -/
  | stallTaskFetch (st : StallNo)
  /-- STALL_TASK_COMPLETE (R189). At the end of a task the stall makes its output visible, writes STATUS then DONE, signals its counter and raises its Alley lines. -/
  | stallTaskComplete (st : StallNo)
  /-- SCALES_GEMM_PASS (R173). A GEMM_PASS task whose wait is met consumes the wait and computes its D rectangle exactly, tile by tile and pass by pass, or completes MALFORMED. -/
  | scalesGemmPass (st : StallNo)
  /-- BARROW_POOL (R201). A POOL task whose wait is met gathers indexed table rows and pools each segment exactly into Tally words, rounding once. -/
  | barrowPool (st : StallNo)
  /-- BARROW_SCATTER_ADD (R204). A SCATTER_ADD task whose wait is met checks every index and then issues one exact cell add per position and column. -/
  | barrowScatterAdd (st : StallNo)
  /-- TALLY_CELL_ADD (R135). A scatter-add or TALLY_ADD reaching a Tally cell's home is applied as one atomic read-add-write, or rejected for a misaligned or malformed cell. -/
  | tallyCellAdd (n : Nat)
  /-- SIEVE_SORT (R211). A SORT task whose wait is met writes each row in ascending (rank, index) order with its payload or permutation. -/
  | sieveSort (st : StallNo)
  /-- SIEVE_TOP_K (R211). A TOP_K task whose wait is met writes the first K elements of each row's order, keys and indices. -/
  | sieveTopK (st : StallNo)
  /-- SIEVE_COMPACT (R212). A COMPACT task whose wait is met keeps values whose mask byte is nonzero, in index order, and writes the kept count. -/
  | sieveCompact (st : StallNo)
  /-- SIEVE_DEDUP (R212). A DEDUP task whose wait is met keeps the first occurrence of each rank value, in index order, and writes the kept count. -/
  | sieveDedup (st : StallNo)
  /-- BALER_COMPRESS (R620). A COMPRESS task whose wait is met compresses its source in 64 KiB chunks and writes the result and its length, or INDEX_RANGE with poison. -/
  | balerCompress (st : StallNo)
  /-- BALER_DECOMPRESS (R617). A DECOMPRESS task whose wait is met decodes a well-formed stream, or completes MALFORMED_OPERAND with poisoned outputs. -/
  | balerDecompress (st : StallNo)
  /-- CROSSING_GATE (R221). A GATE task whose wait is met selects K experts per token and computes their weights from exact values under FUNC. -/
  | crossingGate (st : StallNo)
  /-- CROSSING_DISPATCH (R228). A DISPATCH task whose wait is met accepts choices in (k, t) order up to capacity and lays accepted token rows out in slot order. -/
  | crossingDispatch (st : StallNo)
  /-- CROSSING_COMBINE (R235). A COMBINE task whose wait is met sums weighted expert results per token exactly in Tally words and rounds once. -/
  | crossingCombine (st : StallNo)
  /-- TALLY_REDUCE (R330). A REDUCE task whose wait is met adds its memory and stream contributions for one chunk exactly and writes or streams the copies. -/
  | tallyReduce (st : StallNo)
  /-- TALLY_SPARSE_MERGE (R334). A SPARSE_MERGE task whose wait is met adds every wire-vector value whose index lies in its chunk into the bank. -/
  | tallySparseMerge (st : StallNo)
  /-- TALLY_PIECE_ARRIVE (R329). A piece arriving on a Tally input port is added into the bank of the task whose range holds it, held for a later task, or makes the task MALFORMED_OPERAND. -/
  | tallyPieceArrive (st : StallNo) (port : Fin 2)
  /-- CASHBOX_ENCRYPT (R421). An ENCRYPT task whose wait is met encrypts a segment, drawing a generated nonce at FIRST and writing the nonce-and-tag record at LAST. -/
  | cashboxEncrypt (st : StallNo) (mismatch : Bool)
  /-- CASHBOX_DECRYPT (R422). A DECRYPT task whose wait is met either decrypts into a hold buffer and releases only on a verified tag, or needs a prior VERIFY. -/
  | cashboxDecrypt (st : StallNo) (mismatch : Bool)
  /-- CASHBOX_VERIFY (R423). A VERIFY task checks a whole message's tag, releasing nothing, and sets or clears VERIFIED. -/
  | cashboxVerify (st : StallNo) (mismatch : Bool)
  /-- CASHBOX_DIGEST (R421). A DIGEST task computes SHA-256 over its segments and writes the 32-byte digest at LAST. -/
  | cashboxDigest (st : StallNo) (mismatch : Bool)
  /-- CASHBOX_SAVE_WRAPPED (R419). A SAVE_WRAPPED task writes the context in wrapped form, or refuses a POISONED context. -/
  | cashboxSaveWrapped (st : StallNo)
  /-- CASHBOX_RESTORE_WRAPPED (R420). A RESTORE_WRAPPED task replaces a context from a verified wrapped form and reserves a new nonce block, or completes WRAP_INVALID. -/
  | cashboxRestoreWrapped (st : StallNo)
  /-- CASHBOX_CTX_RESET (R427). A CTX_RESET task sets a context to READY and clears its state area and VERIFIED, keeping its nonce block. -/
  | cashboxCtxReset (st : StallNo)
  /-- SQUARE_ACCESS (R245). An access reaching a Square bank is served in its serialised turn, correcting, re-encoding or marking lines as its code gives. -/
  | squareAccess (q : Qn) (a : HomeAccess)
  /-- SQUARE_POOL_GRANT (R246). A requester waiting on the Square buffer pool is granted a buffer once one is free. -/
  | squarePoolGrant (q : Qn) (who : Nat)
  /-- WAREHOUSE_ACCESS (R256). An access reaching a Warehouse controller reads or writes a line through its Reed–Solomon code, correcting, poisoning or counting per die. -/
  | warehouseAccess (w : Fin 12) (a : HomeAccess)
  /-- WAREHOUSE_SCRUB (R258). The patrol scrub reads, checks and writes back each line of the stack once every 24 hours and clears the die counters at the pass end. -/
  | warehouseScrub (w : Fin 12) (line : Nat) (upset : List Nat) (last : Bool)
  /-- SURVEYOR_TRANSLATE (R267). The Surveyor walks or hits its cache for an access, checks the walk, the precinct and the carve, and completes, faults or holds the access. -/
  | surveyorTranslate (q : Qn) (a : VAccess)
  /-- SURVEYOR_ATS_RESPONSE (R264). An ATS translation or PRI page response for a host page is cached and the access retranslated, or it completes with ACCESS_FAULT. -/
  | surveyorAtsResponse (q : Qn) (asid : BitVec 12) (page : Nat) (r : AtsAnswer)
  /-- SURVEYOR_INVAL (R266). A write of SURVEYOR_INVAL starts invalidation of one page, one ASID or every ASID. -/
  | surveyorInval (rq : Requester) (q : Qn) (v : W64)
  /-- SURVEYOR_INVAL_DONE (R266). An invalidation completes when every access that used the old translation has completed, and SURVEYOR_INVAL_DONE.COUNT increments. -/
  | surveyorInvalDone (q : Qn)
  /-- SURVEYOR_RESOLVE_RETRY (R270). SURVEYOR_FAULT_RESOLVE with OUTCOME RETRY makes every access joined to the record walk again and frees the FAULT_ID. -/
  | surveyorResolveRetry (rq : Requester) (q : Qn) (id : Fin 256)
  /-- SURVEYOR_RESOLVE_FAIL (R270). SURVEYOR_FAULT_RESOLVE with OUTCOME FAIL completes every joined access with ACCESS_FAULT and frees the FAULT_ID. -/
  | surveyorResolveFail (rq : Requester) (q : Qn) (id : Fin 256)
  /-- SURVEYOR_FAULT_TIMEOUT (R270). A fault record unresolved for 10 ms completes its accesses with ACCESS_FAULT and closes, keeping its FAULT_ID allocated. -/
  | surveyorFaultTimeout (q : Qn) (id : Fin 256)
  /-- STREET_ROUTE_SETUP (R251). A write of STREET_ROUTE with VALID set puts a route in force if both stalls and ports qualify, or counts a stray write. -/
  | streetRouteSetup (rq : Requester) (q : Qn) (n : Fin 256) (v : W64)
  /-- STREET_ROUTE_TEARDOWN (R252). A write clearing VALID stops the sender at the end of its current flit and starts the route's drain. -/
  | streetRouteTeardown (rq : Requester) (q : Qn) (n : Fin 256) (v : W64)
  /-- STREET_ROUTE_DRAINED (R252). When every flit has been taken and every credit has returned, ACTIVE clears and the ports are free. -/
  | streetRouteDrained (q : Qn) (n : Fin 256)
  /-- STREET_FLIT (R249). A sender with a credit sends one flit, which lands in the receiver's buffer, poisoned if its CRC or parity fails. -/
  | streetFlit (q : Qn) (n : Fin 256) (corrupt : Bool)
  /-- STREET_CREDIT_RETURN (R249). A credit returns to the sender when the receiving stall takes a flit from its buffer. -/
  | streetCreditReturn (q : Qn) (n : Fin 256)
  /-- BLVD_TRANSFER (R253). A Boulevard transfer is received, applied once by sequence number and acknowledged, or replayed on a CRC failure. -/
  | blvdTransfer (src dst : Qn) (replay : Bool) (a : HomeAccess) (end_ : BlvdEnd)
  /-- BLVD_RETRAINED (R255). A Boulevard that retrains successfully enters RELAY_DRAIN and holds new traffic between its Quarters. -/
  | blvdRetrained (q p : Qn)
  /-- BLVD_RELAY_DRAIN_DONE (R255). When every relayed transfer has been acknowledged, the Boulevard goes UP and traffic returns to it. -/
  | blvdRelayDrainDone (q p : Qn)
  /-- PORTER_GO (R292). A write of GO starts a channel from IDLE or HALTED, in chain mode at PORTER_CH_HEAD or in register mode from the shadow set, or arms a swap. -/
  | porterGo (rq : Requester) (c : ChanNo)
  /-- PORTER_ABORT (R292). ABORT stops issue at the next burst boundary, completes the current descriptor ABORTED after its bursts drain, and halts the channel. -/
  | porterAbort (rq : Requester) (c : ChanNo)
  /-- PORTER_RESUME (R292). RESUME from HALTED in chain mode clears DB_PENDING and re-reads the link word at PORTER_CH_CUR. -/
  | porterResume (rq : Requester) (c : ChanNo)
  /-- PORTER_DOORBELL (R293). A write of PORTER_CH_DOORBELL wakes a PARKED channel into a re-read of its link word, or sets DB_PENDING and counts. -/
  | porterDoorbell (rq : Requester) (c : ChanNo)
  /-- PORTER_DESC_FETCH (R293). A channel fetches a descriptor or re-reads a link word, halting on NOT_OWNED or FETCH_FAULT and completing malformed descriptors with MALFORMED. -/
  | porterDescFetch (c : ChanNo)
  /-- PORTER_WAIT_MET (R283). A channel in WAITING resumes RUNNING when its PRED_CTR can meet PRED_VALUE, consuming it. -/
  | porterWaitMet (c : ChanNo)
  /-- PORTER_BURST_GRANT (R276). The Porter engine grants one burst to an eligible channel by priority level and weighted round-robin. -/
  | porterBurstGrant (q : Qn)
  /-- PORTER_BURST_RESPONSE (R288). A response for a burst in flight completes the burst, or records the descriptor's first failure and stops further issue. -/
  | porterBurstResponse (c : ChanNo) (n : Nat) (e : BurstEnd)
  /-- PORTER_DESC_COMPLETE (R286). When every burst and any barrier of a descriptor has returned, the channel writes its status, clears OWN, signals and moves on, parks, swaps, idles or halts. -/
  | porterDescComplete (c : ChanNo)
  /-- BELL_SIGNAL (R302). A SIGNAL reaching a counter's home adds to COUNT, saturating, and releases head waiters in arrival order. -/
  | bellSignal (rq : Requester) (q : Qn) (n : Fin 4096) (amount : BitVec 24)
  /-- BELL_WAIT (R302). A WAIT reaching a counter's home consumes at once when the queue is empty and COUNT suffices, or joins the queue's tail. -/
  | bellWait (src : WaitSrc)
  /-- BELL_TAKE (R300). BELL_CNT_OP TAKE consumes n only if the queue is empty and COUNT is at least n. -/
  | bellTake (rq : Requester) (q : Qn) (n : Fin 4096) (amount : BitVec 24)
  /-- BELL_DEBIT (R305). BELL_CNT_OP DEBIT subtracts n from COUNT without waiting, saturating at 0. -/
  | bellDebit (rq : Requester) (q : Qn) (n : Fin 4096) (amount : BitVec 24)
  /-- BELL_SET (R314). BELL_CNT_OP SET sets COUNT, restarts its books and releases waiters. -/
  | bellSet (rq : Requester) (q : Qn) (n : Fin 4096) (value : BitVec 24)
  /-- BELL_WAKE_ALL (R304). BELL_CNT_OP WAKE_ALL releases every queued waiter without consuming. -/
  | bellWakeAll (rq : Requester) (q : Qn) (n : Fin 4096)
  /-- BELL_ARRIVE (R308). An arrival at a mask slot or device group sets its bit, is held early or dropped, and releases the group when ARRIVED equals EXPECT. -/
  | bellArrive (rq : Requester) (device : Bool) (g : Fin 256) (p : Fin 64)
  /-- BELL_EXPECT_WRITE (R310). A write of EXPECT takes effect only while ARRIVED is 0 and no early arrival is held. -/
  | bellExpectWrite (rq : Requester) (q : Qn) (device : Bool) (m : Fin 64) (v : W64)
  /-- SYNC_ENTRY_ARM (R311). A write of sync entry word 3 with ARMED set starts its waits, or clears ARMED as MALFORMED. -/
  | syncEntryArm (rq : Requester) (q : Qn) (e : Fin 256) (v : W64)
  /-- BELL_HANG (R315). A generation or waiter passing HANG_LIMIT sets HANG, raises the Bell interrupt and may start a snapshot. -/
  | bellHang (q : Qn) (what : HangWhat)
  /-- BELL_SNAP_TAKE (R316). TAKE in BELL_SNAP_CTRL starts a consistent copy of the Bell unit and Alley lines, holding arriving operations. -/
  | bellSnapTake (rq : Requester) (q : Qn)
  /-- BELL_SNAP_DONE (R316). When the snapshot copy completes, BUSY clears, SEQ advances and held operations proceed. -/
  | bellSnapDone (q : Qn)
  /-- ALLEY_RAISE (R298). A participant raises a line, and the line releases when every enabled participant has raised it. -/
  | alleyRaise (rq : Requester) (q : Qn) (l : Fin 16)
  /-- ALLEY_EN_WRITE (R299). A write of ALLEY_EN takes effect only if every bit names a participant of the owner, and cleared bits re-evaluate the line. -/
  | alleyEnWrite (rq : Requester) (q : Qn) (l : Fin 16) (v : W64)
  /-- CW_GRP_CTRL_WRITE (R338). A write of CW_GRP_CTRL changes MODE only while the group is disabled and down, and sets PERST and root-port ENABLE. -/
  | cwGrpCtrlWrite (rq : Requester) (g : Qn) (v : W64)
  /-- CW_LINK_ENABLE (R345). Setting ENABLE in CW_LINK_CTRL lets a link train, and clearing it takes the link DOWN. -/
  | cwLinkEnable (rq : Requester) (l : LinkNo) (v : W64)
  /-- CW_LINK_RETRAIN (R346). RETRAIN trains a link again at ×4 and renegotiates. -/
  | cwLinkRetrain (rq : Requester) (l : LinkNo) (v : W64)
  /-- CW_LINK_TRAINED (R344). A link that trains enters NEGOTIATING and sends its VERSION message. -/
  | cwLinkTrained (l : LinkNo) (width rate : Nat)
  /-- CW_VERSION (R345). Once both VERSION messages have arrived, the link goes UP at the agreed version or enters REFUSED. -/
  | cwVersion (l : LinkNo)
  /-- CW_FLIT (R339). A received Causeway flit delivers its messages once in order, or is replayed on a CRC failure. -/
  | cwFlit (l : LinkNo) (seq : Nat) (crcOk : Bool) (msgs : List CwMsg)
  /-- CW_WRITE (R342). An arriving WRITE is translated under IN_ASID, written, and acknowledged once visible, or answered with an error status. -/
  | cwWrite (l : LinkNo)
  /-- CW_READ (R342). An arriving READ is translated under IN_ASID and answered with READ_DATA messages in address order. -/
  | cwRead (l : LinkNo)
  /-- CW_READ_DATA (R340). Arriving READ_DATA fills a Porter burst's read, or is discarded for an expired tag. -/
  | cwReadData (l : LinkNo)
  /-- CW_ACK (R340). An arriving ACK completes the Porter write burst of its tag. -/
  | cwAck (l : LinkNo)
  /-- CW_BELL (R343). An arriving BELL signals its counter after every earlier WRITE of the direction is acknowledged, or is answered MALFORMED. -/
  | cwBell (l : LinkNo)
  /-- CW_READ_TIMEOUT (R341). A read without its final READ_DATA after 100 µs completes with COMPLETION_TIMEOUT and its tag expires. -/
  | cwReadTimeout (l : LinkNo) (tag : Nat)
  /-- CW_TAG_RELEASE (R341). An expired Causeway tag becomes reusable 200 µs after expiry. -/
  | cwTagRelease (l : LinkNo) (tag : Nat)
  /-- CW_LANE_FAILURE (R346). A lane that fails retraining, or 8 failed replays, starts narrowing an UP link. -/
  | cwLaneFailure (l : LinkNo) (lane : Fin 4)
  /-- CW_NARROWED (R346). Narrowing ends with the link UP at the narrower width and unacknowledged flits resent, or DOWN if no width trains. -/
  | cwNarrowed (l : LinkNo) (trained : Bool)
  /-- CW_LINK_DOWN (R347). A link going DOWN fails its bursts with LINK_DOWN, discards unacknowledged arrivals and advances EPOCH. -/
  | cwLinkDown (l : LinkNo)
  /-- CW_RP_CFG_READ (R348). A read of CW_RP_CFG_DATA issues a configuration read at CW_RP_CFG_ADDR. -/
  | cwRpCfgRead (rq : Requester) (g : Qn) (answer : Option (BitVec 32))
  /-- CW_RP_CFG_WRITE (R348). A write of CW_RP_CFG_DATA issues a configuration write at CW_RP_CFG_ADDR. -/
  | cwRpCfgWrite (rq : Requester) (g : Qn) (v : BitVec 32)
  /-- CW_RP_UPSTREAM_REQUEST (R349). An upstream request through a root port is translated under CW_GRP_RP_ASID, or applied as a bell write in the bell window. -/
  | cwRpUpstreamRequest (g : Qn) (r : RpRequest)
  /-- CW_RP_LINK_DOWN (R350). Surprise removal or link-down of a root port completes its requests with LINK_DOWN and raises the Causeway interrupt. -/
  | cwRpLinkDown (g : Qn)
  /-- ETH_FRAME_RECEIVE (R351). A frame received on a subport is timestamped and passed to the Gatehouse, or dropped and counted at the port. -/
  | ethFrameReceive (q : Qn) (sub : Fin 8) (frame : Bytes) (corrected uncorrectable : Nat)
  /-- GH_LOOKUP (R364). The target Gatehouse looks the frame's flow up, polices it and applies the entry's action, or sends it down the miss path. -/
  | ghLookup (q : Qn) (mismatch : Bool)
  /-- RX_DELIVER (R373). A delivered frame takes the next free buffer of its receive queue, or is dropped, and its completion is written after the bytes are visible. -/
  | rxDeliver (r : Nat) (far : List FarAns)
  /-- ETH_SUBPORT_UP (R352). An enabled subport that trains goes UP. -/
  | ethSubportUp (q : Qn) (sub : Fin 8)
  /-- ETH_SUBPORT_DOWN (R387). A failed lane takes its subport DOWN, ending the frame in transmission with LINK_DOWN. -/
  | ethSubportDown (q : Qn) (sub : Fin 8)
  /-- ETH_BREAKOUT_WRITE (R352). A write of BREAKOUT takes effect only while every subport of the port is disabled. -/
  | ethBreakoutWrite (rq : Requester) (q : Qn) (v : W64)
  /-- ETH_TS_STEP (R354). A write of ETH_TS_ADJ.STEP_NS steps the subport's timestamp counter once. -/
  | ethTsStep (rq : Requester) (q : Qn) (sub : Fin 8) (v : W64)
  /-- GH_INSERT (R367). GH_OP INSERT places or replaces the staged flow entry in its bucket atomically, or completes with TABLE_FULL, OVER_QUOTA or MALFORMED. -/
  | ghInsert (rq : Requester) (q : Qn) (v : W64)
  /-- GH_REMOVE (R367). GH_OP REMOVE empties the matching entry's slot, or completes with NOT_FOUND. -/
  | ghRemove (rq : Requester) (q : Qn) (v : W64)
  /-- GH_POLICER_WRITE (R372). GH_OP policer WRITE sets a policer's configuration and fills its buckets. -/
  | ghPolicerWrite (rq : Requester) (q : Qn) (v : W64)
  /-- GH_POLICER_UPDATE (R372). GH_OP policer UPDATE replaces a policer's configuration and keeps its tokens, capped at the new bursts. -/
  | ghPolicerUpdate (rq : Requester) (q : Qn) (v : W64)
  /-- TB_ENQUEUE (R376). A frame entering a Tollbooth queue is copied into the egress buffer, or dropped as EGRESS_FULL, TAIL_DROP or DE_DROP. -/
  | tbEnqueue (q : Qn)
  /-- TB_SELECT (R381). A subport asking for its next frame runs the selection down the tree by tier and start tag, updating tags and tokens. -/
  | tbSelect (q : Qn) (sub : Fin 8)
  /-- TB_NODE_WAKE (R382). A child that becomes backlogged, or eligible again after SHAPED, takes its start tag from its parent's virtual time. -/
  | tbNodeWake (q : Qn) (level : Fin 4) (index : Nat)
  /-- TB_FRAME_SENT (R386). A frame that has left the port, or been dropped, gets its transmit completion written in ring order. -/
  | tbFrameSent (q : Qn) (sub : Fin 8)
  /-- TB_WRITE (R384). TB_OP WRITE creates or replaces a node's configuration with full tokens and zero tags, or completes NOT_EMPTY. -/
  | tbWrite (rq : Requester) (q : Qn) (v : W64)
  /-- TB_UPDATE (R384). TB_OP UPDATE changes a node's rates, bursts, weight and limits, keeping tokens and tags. -/
  | tbUpdate (rq : Requester) (q : Qn) (v : W64)
  /-- TB_REMOVE (R384). TB_OP REMOVE empties a node that holds no frame and no child, or completes NOT_EMPTY. -/
  | tbRemove (rq : Requester) (q : Qn) (v : W64)
  /-- TB_READ (R384). TB_OP READ copies a whole node record into TB_STAGE. -/
  | tbRead (rq : Requester) (q : Qn) (v : W64)
  /-- TXR_DOORBELL (R462). A doorbell slot write delivers a transmit ring's new producer index. -/
  | txrDoorbell (f : FuncNo) (slot : Nat) (v : W64)
  /-- TX_ENTRY_FETCH (R386). The Tollbooth reads the next transmit entry in ring order and enqueues its frame, or completes it MALFORMED. -/
  | txEntryFetch (r : Nat) (far : List FarAns)
  /-- RXQ_DOORBELL (R462). A doorbell slot write delivers a receive queue's new producer index. -/
  | rxqDoorbell (f : FuncNo) (slot : Nat) (v : W64)
  /-- CARTER_CTX_WRITE (R410). CARTER_OP WRITE configures a FREE context from CARTER_STAGE, making it CONFIGURED. -/
  | carterCtxWrite (rq : Requester) (q : Qn) (v : W64)
  /-- CARTER_CTX_UPDATE (R410). CARTER_OP UPDATE changes INJECT_MBPS, RTO_US, RETRY_LIMIT and DSCP from the next packet. -/
  | carterCtxUpdate (rq : Requester) (q : Qn) (v : W64)
  /-- CARTER_CTX_READ (R410). CARTER_OP READ copies a context record into CARTER_STAGE. -/
  | carterCtxRead (rq : Requester) (q : Qn) (v : W64)
  /-- CARTER_CONNECT (R391). CARTER_OP CONNECT or CONN_CONNECT moves a CONFIGURED context to CONNECTING and starts its HELLOs. -/
  | carterConnect (src : CarterSrc)
  /-- CARTER_RESET (R410). CARTER_OP RESET or CONN_RESET empties an ERROR context's rings and advances its EPOCH, or frees a CONFIGURED one. -/
  | carterReset (src : CarterSrc)
  /-- CARTER_FAIL (R404). CARTER_OP FAIL puts a CONNECTING or READY context in ERROR and flushes its orders. -/
  | carterFail (rq : Requester) (q : Qn) (v : W64)
  /-- CARTER_REGION_WRITE (R405). CARTER_OP REGION_WRITE writes a region record from CARTER_STAGE. -/
  | carterRegionWrite (rq : Requester) (q : Qn) (v : W64)
  /-- CARTER_REGION_INVAL (R405). CARTER_OP REGION_INVAL or REGION_INVAL completes after every access using the region and advances its GEN. -/
  | carterRegionInval (src : CarterSrc)
  /-- CARTER_SQ_DOORBELL (R398). A doorbell delivers a context's new SQ producer index. -/
  | carterSqDoorbell (src : CarterBell)
  /-- CARTER_RQ_DOORBELL (R396). A doorbell delivers a context's new RQ producer index, posting receive entries. -/
  | carterRqDoorbell (src : CarterBell)
  /-- CARTER_CQ_DOORBELL (R398). A doorbell delivers a context's new CQ consumer index, freeing CQ entries. -/
  | carterCqDoorbell (src : CarterBell)
  /-- CARTER_HELLO_TIMER (R391). Every 1 ms a CONNECTING context sends a HELLO. -/
  | carterHelloTimer (n : ConnNo)
  /-- CARTER_CONNECT_TIMEOUT (R391). A context not READY 10 s after CONNECT goes to ERROR with CONNECT_TIMEOUT. -/
  | carterConnectTimeout (n : ConnNo)
  /-- HELLO (R391). A matching HELLO is answered with HELLO_ACK, may make the context READY, or puts a READY context in ERROR on a new epoch. -/
  | hello (q : Qn)
  /-- HELLO_ACK (R391). A HELLO_ACK for the context's own HELLO makes it READY once it also holds the peer's HELLO. -/
  | helloAck (q : Qn)
  /-- HELLO_REFUSE (R392). A HELLO_REFUSE returns the context to CONFIGURED with NO_COMMON_MAJOR. -/
  | helloRefuse (q : Qn)
  /-- CARTER_ORDER_WRITE (R402). A WRITE order at the SQ head is cut into packets and sprayed over paths to the peer's region. -/
  | carterOrderWrite (n : ConnNo) (far : List FarAns)
  /-- CARTER_ORDER_READ (R403). A READ order at the SQ head sends READ_REQ for the peer's bytes. -/
  | carterOrderRead (n : ConnNo) (far : List FarAns)
  /-- CARTER_ORDER_SEND (R396). A SEND order at the SQ head sends its bytes into the peer's next receive entry. -/
  | carterOrderSend (n : ConnNo) (far : List FarAns)
  /-- CARTER_FETCH_ADD (R403). A FETCH_ADD order sends an 8-byte atomic add to the peer and returns the prior value. -/
  | carterFetchAdd (n : ConnNo) (far : List FarAns)
  /-- CARTER_SWAP (R403). A SWAP order sends an 8-byte atomic swap to the peer and returns the prior value. -/
  | carterSwap (n : ConnNo) (far : List FarAns)
  /-- CARTER_CMP_SWAP (R403). A CMP_SWAP order sends an 8-byte compare-and-swap to the peer and returns the prior value. -/
  | carterCmpSwap (n : ConnNo) (far : List FarAns)
  /-- CARTER_TALLY_ADD (R395). A TALLY_ADD order sends values to be added into consecutive Tally cells at the peer. -/
  | carterTallyAdd (n : ConnNo) (far : List FarAns)
  /-- CARTER_ORDER_BELL (R397). A BELL order sends a signal or arrival to the peer, taking effect after every earlier message. -/
  | carterOrderBell (n : ConnNo) (far : List FarAns)
  /-- CARTER_ORDER_NOP (R395). A NOP order completes when every earlier order has completed. -/
  | carterOrderNop (n : ConnNo) (far : List FarAns)
  /-- CARTER_TRIGGER_FIRE (R399). A dormant triggered order at the SQ head fires when its counter wait or RX_DONE condition is met and is then sent. -/
  | carterTriggerFire (n : ConnNo) (far : List FarAns)
  /-- CARTER_RX_WRITE (R403). An arriving WRITE packet passes the sequence, epoch and region checks and is placed at its offset, held if FLAGGED, or streamed as REDUCE pieces. -/
  | carterRxWrite (q : Qn)
  /-- CARTER_RX_READ_REQ (R403). An arriving READ_REQ is checked and answered with READ_RESP packets. -/
  | carterRxReadReq (q : Qn) (far : List FarAns)
  /-- CARTER_RX_READ_RESP (R403). An arriving READ_RESP places its range not yet placed at the requester and drops the rest. -/
  | carterRxReadResp (q : Qn)
  /-- CARTER_RX_SEND (R396). An arriving SEND packet is placed in its receive entry, or NAKed with RETRY_AFTER or REMOTE_LENGTH. -/
  | carterRxSend (q : Qn) (far : List FarAns)
  /-- CARTER_RX_ATOMIC (R403). An arriving ATOMIC is applied once at its home and answered, or a duplicate is answered from the record. -/
  | carterRxAtomic (q : Qn)
  /-- CARTER_RX_ATOMIC_RESP (R398). An arriving ATOMIC_RESP writes the prior value to LOCAL_ADDR and completes the order. -/
  | carterRxAtomicResp (q : Qn)
  /-- CARTER_RX_BELL (R397). An arriving BELL signals its counter or arrives at its device group after every lower MSN completes, or is terminal with REMOTE_MALFORMED. -/
  | carterRxBell (q : Qn)
  /-- CARTER_RX_ACK (R404). An arriving ACK retires acknowledged packets, completes orders by MSN_DONE, retransmits on gaps, or applies a NAK. -/
  | carterRxAck (q : Qn)
  /-- CARTER_RTO (R404). A packet unacknowledged for RTO_US is retransmitted on the next path, or the context enters ERROR with RETRY_EXCEEDED. -/
  | carterRto (n : ConnNo) (psn : Nat)
  /-- CARTER_PATH_RETRY (R402). A DOWN path is tried again 10 ms after it went DOWN. -/
  | carterPathRetry (n : ConnNo) (path : Fin 16)
  /-- CARTER_ACK_TIMER (R403). An ACK is sent 8 µs after the first unacknowledged arrival. -/
  | carterAckTimer (n : ConnNo)
  /-- CARTER_ONDEMAND_WITHDRAW (R406). An on-demand access held 200 µs is withdrawn and the packet and later ones are NAKed with RETRY_AFTER. -/
  | carterOndemandWithdraw (n : ConnNo)
  /-- CARTER_RETRY_AFTER_EXPIRE (R406). After RETRY_US the sender sends again from the NAKed PSN. -/
  | carterRetryAfterExpire (n : ConnNo)
  /-- CARTER_COMPLETION_WRITE (R398). A completion waiting on a full CQ is written when an entry frees, then the order's counter is signalled. -/
  | carterCompletionWrite (n : ConnNo)
  /-- LEDGER_SQ_DOORBELL (R435). A doorbell delivers a queue's new SQ tail. -/
  | ledgerSqDoorbell (f : FuncNo) (slot : Nat) (v : W64)
  /-- LEDGER_CQ_DOORBELL (R435). A doorbell delivers a queue's new CQ head, freeing CQ entries. -/
  | ledgerCqDoorbell (f : FuncNo) (slot : Nat) (v : W64)
  /-- LEDGER_FETCH (R434). The stall fetches the next command of a queue while a tag is free and, for DB_BELL, after its Bell wait. -/
  | ledgerFetch (n : Fin 4096) (far : List FarAns)
  /-- LEDGER_READ (R438). A READ command reads its blocks from the lowest-numbered healthy replica and decrypts them into DATA_ADDR. -/
  | ledgerRead (n : Fin 4096) (idx bad : Nat) (mismatch : Bool)
  /-- LEDGER_WRITE (R441). A WRITE command encrypts its blocks and sends them to every replica, completing once every healthy replica reports durable. -/
  | ledgerWrite (n : Fin 4096) (idx : Nat) (mismatch : Bool) (far : List FarAns)
  /-- LEDGER_FLUSH (R442). FLUSH completes when every earlier write of the same SQ has completed. -/
  | ledgerFlush (n : Fin 4096) (idx : Nat)
  /-- LEDGER_WRITE_ZEROES (R431). WRITE_ZEROES makes its blocks read as zero. -/
  | ledgerWriteZeroes (n : Fin 4096) (idx : Nat)
  /-- LEDGER_DISCARD (R431). DISCARD makes its blocks read as zero and frees backing space. -/
  | ledgerDiscard (n : Fin 4096) (idx : Nat)
  /-- LEDGER_COMPARE_AND_WRITE (R439). COMPARE_AND_WRITE reads, compares and writes its blocks as one step, or completes COMPARE_FAIL. -/
  | ledgerCompareAndWrite (n : Fin 4096) (idx bad : Nat) (mismatch : Bool) (far : List FarAns)
  /-- LEDGER_SANITISE (R443). SANITISE waits for earlier commands, journals its start, sets SANITISING and completes, then destroys the key and overwrites the volume in the background. -/
  | ledgerSanitise (n : Fin 4096) (idx : Nat)
  /-- LEDGER_FORMAT (R444). FORMAT sets BLOCK_LOG2 under FORMATTING and leaves every block reading as zero, keeping the key. -/
  | ledgerFormat (n : Fin 4096) (idx : Nat)
  /-- LEDGER_GET_FEATURES (R437). GET_FEATURES writes the 64 bytes of the named feature to AUX_ADDR. -/
  | ledgerGetFeatures (n : Fin 4096) (idx : Nat)
  /-- LEDGER_SET_FEATURES (R437). SET_FEATURES sets IRQ_COALESCE for the queue, or completes MALFORMED for a feature that cannot be set. -/
  | ledgerSetFeatures (n : Fin 4096) (idx : Nat)
  /-- LEDGER_SET_POWER_STATE (R447). SET_POWER_STATE moves a volume between PS0 and PS3, completing after earlier commands or once backing connections are READY. -/
  | ledgerSetPowerState (n : Fin 4096) (idx : Nat)
  /-- LEDGER_DURABLE (R441). A DURABLE record from a replica counts toward the completion of its write. -/
  | ledgerDurable (n : Fin 4096) (idx r j : Nat)
  /-- LEDGER_REPLICA_TIMEOUT (R451). A replica leaving a record unanswered for 2 s, or whose connection errs, is taken out of service and waiting commands complete. -/
  | ledgerReplicaTimeout (q : Qn) (vol : Fin 4096) (r : Fin 3)
  /-- LEDGER_PIECE_REPAIR (R441). Before a command touching a piece left uncertain runs, the piece is copied from the lowest-numbered healthy replica to the others. -/
  | ledgerPieceRepair (vol : Fin 4096) (k : Nat)
  /-- LEDGER_SANITISE_REGION_DONE (R446). A 1 GiB region of a sanitise or format completes, is journalled, and the last one returns the volume to READY or DEGRADED. -/
  | ledgerSanitiseRegionDone (vol : Fin 4096)
  /-- LEDGER_COMPLETION (R448). A command's completion is written once its data is visible and the CQ has room, counting toward the queue's interrupt. -/
  | ledgerCompletion (n : Fin 4096) (idx : Nat)
  /-- LEDGER_OP_CREATE (R454). LEDGER_OP CREATE makes a FREE queue ACTIVE from LEDGER_STAGE. -/
  | ledgerOpCreate (rq : Requester) (q : Qn) (v : W64)
  /-- LEDGER_OP_DELETE (R454). LEDGER_OP DELETE frees a queue that holds no tag. -/
  | ledgerOpDelete (rq : Requester) (q : Qn) (v : W64)
  /-- LEDGER_OP_QUEUE_RESET (R449). LEDGER_OP QUEUE_RESET stops fetch, aborts outstanding commands and zeroes the indices. -/
  | ledgerOpQueueReset (rq : Requester) (q : Qn) (v : W64)
  /-- LEDGER_OP_PAUSE (R454). LEDGER_OP PAUSE stops fetch at a command boundary. -/
  | ledgerOpPause (rq : Requester) (q : Qn) (v : W64)
  /-- LEDGER_OP_RESUME (R454). LEDGER_OP RESUME restarts fetch on a PAUSED or FROZEN queue. -/
  | ledgerOpResume (rq : Requester) (q : Qn) (v : W64)
  /-- LEDGER_OP_READ (R454). LEDGER_OP READ copies a queue record into LEDGER_STAGE. -/
  | ledgerOpRead (rq : Requester) (q : Qn) (v : W64)
  /-- BAR2_ACCESS (R465). A host access to BAR2 is translated under the instance's ASID, or completes at once with Completer Abort or a dropped write. -/
  | bar2Access (f : FuncNo) (off : BitVec 36) (data : Option Bytes) (len : Nat) (poison : Bool)
  /-- KIOSK_H2D_TAIL_WRITE (R476). A write of H2D_TAIL passing its test hands new H2D messages to firmware. -/
  | kioskH2dTailWrite (f : FuncNo) (v : BitVec 16)
  /-- KIOSK_D2H_HEAD_WRITE (R476). A write of D2H_HEAD passing its test frees D2H slots. -/
  | kioskD2hHeadWrite (f : FuncNo) (v : BitVec 16)
  /-- KIOSK_D2H_POST (R476). A waiting D2H message is written when a slot is free, then D2H_TAIL, then vector 0. -/
  | kioskD2hPost (f : FuncNo)
  /-- KIOSK_BEAT_TICK (R479). Every 100 ms an open Kiosk adds 1 to KIOSK_BEAT.DEVICE. -/
  | kioskBeatTick (f : FuncNo)
  /-- DRIVER_LOST_HEARTBEAT (R479). HOST unchanged for 2 s declares the driver lost. -/
  | driverLostHeartbeat (f : FuncNo)
  /-- DRIVER_HOLD_EXPIRE (R520). After 10 minutes without reattachment, each held docket ends with CANCELLED. -/
  | driverHoldExpire (f : FuncNo)
  /-- KIOSK_OPEN (R478). KIOSK_OPEN negotiates a version, ending any open session first, and reattaches held dockets. -/
  | kioskOpen (f : FuncNo)
  /-- KIOSK_CLOSE (R478). KIOSK_CLOSE ends the session, or is BUSY while dockets are outstanding. -/
  | kioskClose (f : FuncNo)
  /-- COMM_CREATE (R324). COMM_CREATE makes a communicator of the instance and returns its handle. -/
  | commCreate (f : FuncNo) (handle : BitVec 32) (far : List FarAns)
  /-- COMM_DESTROY (R324). COMM_DESTROY removes a communicator. -/
  | commDestroy (f : FuncNo)
  /-- KEY_GENERATE (R412). KEY_GENERATE creates a key of the instance in the key table and returns its handle. -/
  | keyGenerate (f : FuncNo) (n : BitVec 16)
  /-- KEY_IMPORT (R480). KEY_IMPORT unwraps a key under PARENT into the key table, or fails on its tag. -/
  | keyImport (f : FuncNo) (n : BitVec 16) (far : List FarAns)
  /-- KEY_DESTROY (R413). KEY_DESTROY completes after tasks using the key, advances the generation and zeroes the entry. -/
  | keyDestroy (f : FuncNo)
  /-- CTX_CREATE (R80). CTX_CREATE makes a Cashbox context from the precinct's pool. -/
  | ctxCreate (f : FuncNo) (n : BitVec 20)
  /-- CTX_DESTROY (R417). CTX_DESTROY frees a Cashbox context. -/
  | ctxDestroy (f : FuncNo)
  /-- LEDGER_QUEUE_CREATE (R433). LEDGER_QUEUE_CREATE negotiates a queue version and creates the queue with its doorbell slots, or refuses. -/
  | ledgerQueueCreate (f : FuncNo) (n : Fin 4096) (slot : Nat) (k : Qn)
  /-- LEDGER_QUEUE_DELETE (R454). LEDGER_QUEUE_DELETE deletes a queue of the instance. -/
  | ledgerQueueDelete (f : FuncNo)
  /-- LEDGER_QUEUE_RESET (R449). LEDGER_QUEUE_RESET resets a queue of the instance. -/
  | ledgerQueueReset (f : FuncNo)
  /-- RXQ_CREATE (R373). RXQ_CREATE makes a receive queue and binds its doorbell slot. -/
  | rxqCreate (f : FuncNo) (r slot : Nat)
  /-- TXR_CREATE (R386). TXR_CREATE makes a transmit ring bound to a queue and its doorbell slot. -/
  | txrCreate (f : FuncNo) (r slot : Nat)
  /-- RING_DESTROY (R462). RING_DESTROY removes a receive queue or transmit ring. -/
  | ringDestroy (f : FuncNo)
  /-- TOLL_SET (R483). TOLL_SET changes a queue's weight, rates and bursts, or is OVER_QUOTA above TX_CAP_MBPS. -/
  | tollSet (f : FuncNo)
  /-- CONN_CREATE (R393). CONN_CREATE makes a Carter context from the instance's pool and binds its doorbell slots. -/
  | connCreate (f : FuncNo) (n : ConnNo) (slot : Nat) (q : Qn) (far : List FarAns)
  /-- CONN_DESTROY (R410). CONN_DESTROY frees a Carter context of the instance. -/
  | connDestroy (f : FuncNo)
  /-- REGION_REGISTER (R405). REGION_REGISTER records a region and returns its RKEY. -/
  | regionRegister (f : FuncNo) (n : BitVec 20)
  /-- INSTANCE_CREATE (R474). INSTANCE_CREATE binds a function to a precinct with fixed quotas, or refuses with OVER_QUOTA or DENIED. -/
  | instanceCreate (f : FuncNo) (asid : BitVec 12)
  /-- INSTANCE_DESTROY (R474). INSTANCE_DESTROY applies FLR effects, destroys every object of the instance and frees its quotas. -/
  | instanceDestroy (f : FuncNo)
  /-- INSTANCE_SET (R483). INSTANCE_SET changes a live resource from each unit's next decision, or is OVER_QUOTA. -/
  | instanceSet (f : FuncNo) (chans : List ChanNo)
  /-- VOLUME_CREATE (R452). VOLUME_CREATE makes a volume and generates and wraps its XTS key in flash. -/
  | volumeCreate (f : FuncNo) (n : Fin 4096)
  /-- VOLUME_DESTROY (R452). VOLUME_DESTROY erases the volume's wrapped key sector and removes the volume. -/
  | volumeDestroy (f : FuncNo)
  /-- FW_ACTIVATE (R515). FW_ACTIVATE starts a live activation, or is refused as MALFORMED, BUSY or DEFERRED_EMERGENCY. -/
  | fwActivate (f : FuncNo)
  /-- FW_DRAIN_DONE (R514). When fetched commands and consumed messages have completed, the old image writes the handover record and the new kernel starts. -/
  | fwDrainDone (addr : BitVec 57) (secs : List (Nat × Bytes))
  /-- FW_DRAIN_TIMEOUT (R514). A drain exceeding 50 ms resumes fetch and replies BUSY DRAIN_TIMEOUT. -/
  | fwDrainTimeout
  /-- FW_HANDOVER_ADOPT (R518). The new image verifies and adopts the handover record, or rejects it. -/
  | fwHandoverAdopt
  /-- FW_HANDOVER_TIMEOUT (R516). A record not adopted within 20 ms halts the new image and restarts the old one with the record. -/
  | fwHandoverTimeout
  /-- FW_COMMIT_DONE (R513). The flash commit completes, and the new image resumes fetch and replies OK. -/
  | fwCommitDone
  /-- MODULE_LOAD (R511). MODULE_LOAD verifies and loads a service module into its precinct, or refuses it with FAILED. -/
  | moduleLoad (f : FuncNo) (asid : BitVec 12) (far : List FarAns)
  /-- MODULE_UNLOAD (R511). MODULE_UNLOAD removes a loaded service module. -/
  | moduleUnload (src : ModuleEnd)
  /-- KERNEL_PERIOD (R508). Every 1 ms the kernel reschedules each Guildhall core, giving each precinct its HAWKER_SHARE. -/
  | kernelPeriod
  /-- PRECINCT_RESET (R606). PRECINCT_RESET cancels dockets, resets queues, errs contexts, aborts channels, empties rings and clears counters and lines of the precinct. -/
  | precinctReset (f : FuncNo)
  /-- PF_POWER_STATE_WRITE (R467). A write of the PF power state enters or leaves D1 or D3hot, pausing or resuming every function of the port. -/
  | pfPowerStateWrite (p : Fin 2) (v : BitVec 2)
  /-- HQ_PERST_ASSERT (R469). Assertion of Hq_PERST_N resets every function of the port as FLR and powers its SerDes down. -/
  | hqPerstAssert (p : Fin 2)
  /-- HQ_PERST_DEASSERT (R469). Deassertion of Hq_PERST_N releases Hq_WAKE_N and lets the port train again. -/
  | hqPerstDeassert (p : Fin 2)
  /-- FLR (R450). A Function Level Reset aborts and deletes the function's Ledger queues and ends its driver session. -/
  | flr (f : FuncNo)
  /-- BME_CLEAR (R519). Clearing Bus Master Enable declares the function's driver lost. -/
  | bmeClear (f : FuncNo)
  /-- VF_ENABLE_CLEAR (R473). Clearing VF Enable destroys every VF instance of the PF. -/
  | vfEnableClear (p : Fin 2)
  /-- HOST_COMPLETION_TIMEOUT (R470). A host read without completion in time completes its burst with COMPLETION_TIMEOUT and expires its tag. -/
  | hostCompletionTimeout (p : Fin 2) (tag : Nat)
  /-- HOST_TAG_RELEASE (R471). An expired host tag becomes reusable after twice the timeout. -/
  | hostTagRelease (p : Fin 2) (tag : Nat)
  /-- INV_CHECKPOINT (R525). INV_CHECKPOINT checks its set and starts stopping the instance's dockets at a step boundary. -/
  | invCheckpoint (f : FuncNo) (far : List FarAns)
  /-- INV_CUT (R523). After the parking and barriers, firmware marks or copies the set, resumes dockets and posts the CUT event. -/
  | invCut (f : FuncNo) (k : BitVec 32) (tables : List (BitVec 57)) (far : List FarAns)
  /-- INV_SHARD_COPY (R526). The background copy takes the next shard in order, copies it once and clears its C marks. -/
  | invShardCopy (f : FuncNo) (k : BitVec 32) (far : List FarAns)
  /-- INV_COPY_AHEAD (R527). A COPY_ON_WRITE record makes firmware copy the whole shard at high priority, clear C and resolve with RETRY. -/
  | invCopyAhead (q : Qn) (id : Fin 256) (far : List FarAns)
  /-- INV_STAGING_TIMEOUT (R528). A COPY_ON_WRITE record waiting 5 ms for staging ends the checkpoint with STAGING_FULL. -/
  | invStagingTimeout (q : Qn) (id : Fin 256)
  /-- INV_SHARD_DURABLE (R530). An owned shard becomes durable once every Ledger write of its sealed form completes OK. -/
  | invShardDurable (f : FuncNo) (k : BitVec 32) (n : Nat) (other : Option (BitVec 16 × BitVec 48 × BitVec 32)) (lba : Option (BitVec 48)) (failed : Bool)
  /-- INV_MANIFEST_WRITE (R531). After the third barrier each member writes the manifest entries and then the COMPLETE header. -/
  | invManifestWrite (f : FuncNo) (k : BitVec 32) (others : Bytes) (failed : Bool)
  /-- INV_RESTORE (R532). INV_RESTORE reads the manifest and fetches, decrypts, decompresses and checks each shard of its rank. -/
  | invRestore (f : FuncNo) (far : List FarAns) (fetched : List (Option Bytes))
  /-- INV_RESTORE_RESULT (R534). When members have exchanged results, the step is restored, or a fallback step is tried, or the restore ends with its status. -/
  | invRestoreResult (f : FuncNo) (k : BitVec 32) (others : BitVec 8) (fetched : List (Option Bytes))
  /-- WM_COUNTER_WRITE (R541). A kernel write of a counter's COUNT takes effect between two counting updates. -/
  | wmCounterWrite (rq : Requester) (q : Fin 5) (b : Fin 58) (n : Fin 32) (v : W64)
  /-- WM_CHAIN_WRITE (R543). A write of WM_CHAIN setting or clearing a bit zeroes the extension slot. -/
  | wmChainWrite (rq : Requester) (q : Fin 5) (b : Fin 58) (v : W64)
  /-- WM_COUNTER_CARRY (R546). A carry out of bit 47 adds to a chained extension or sets WRAPPED, and an armed slot records a sample and signals WM_SAMPLE_CTR. -/
  | wmCounterCarry (q : Fin 5) (b : Fin 58) (n : Fin 16) (events context asid : Nat) (user : Bool)
  /-- ERROR_REPORT (R547). A detector's finding is classed, recorded in the error ring and flash, and notified by EVENT, AER and interrupt line 6. -/
  | errorReport (det : BitVec 8) (n : Fin 3) (prec : BitVec 8) (unit : BitVec 16) (detail : BitVec 32) (addr : BitVec 57) (asid : BitVec 12)
  /-- ERR_FENCE (R552). ERR_FENCE_CTRL OP FENCE fences a stall or a Quarter. -/
  | errFence (rq : Requester) (v : W64)
  /-- ERR_REJOIN (R553). ERR_FENCE_CTRL OP REJOIN resets and self-tests a fenced stall or Quarter and returns it to service, or refuses. -/
  | errRejoin (rq : Requester) (v : W64) (failing : List (BitVec 16))
  /-- ERR_INJ_ARM (R561). ERR_INJ_CTRL with ARM arms a ONE_SHOT or STICKY injection at a detector and unit, or is ignored. -/
  | errInjArm (rq : Requester) (v : W64)
  /-- ERR_INJ_DISARM (R561). ERR_INJ_CTRL with DISARM disarms the armed injection. -/
  | errInjDisarm (rq : Requester) (v : W64)
  /-- SPDM_REQUEST (R574). An SPDM request over DOE or MCTP is answered, with each signed response taking one identity index. -/
  | spdmRequest (via : Fin 3) (req : SpdmReq) (flashOk : Bool)
  /-- HSS_TREE_READY (R573). The next bottom-level tree finishes building in the background and waiting sign requests proceed. -/
  | hssTreeReady (flashOk : Bool)
  /-- DEBUG_ENABLE (R578). DEBUG_ENABLE is checked and, after presence, raises the debug level. -/
  | debugEnable (src : MgrSrc)
  /-- DEBUG_DISABLE (R578). DEBUG_DISABLE returns the debug level to 0 at once. -/
  | debugDisable (src : MgrSrc)
  /-- OWNER_INSTALL (R568). OWNER_INSTALL is checked and, after presence, writes STAGED, programs the next OWNER_SLOT and writes CURRENT. -/
  | ownerInstall (src : MgrSrc)
  /-- FACTORY_ENABLE (R579). FACTORY_ENABLE is checked and, after presence, enters factory mode until cold boot. -/
  | factoryEnable (src : MgrSrc)
  /-- DECOMMISSION (R580). DECOMMISSION destroys every instance and irreversibly overwrites DEVICE_SECRET. -/
  | decommission (src : MgrSrc)
  /-- ROLLBACK_ADVANCE (R571). ROLLBACK_ADVANCE raises a fused SVN counter within its limit before replying. -/
  | rollbackAdvance (src : MgrSrc)
  /-- CANCEL (R577). CANCEL ends a pending trust command with CANCELLED. -/
  | cancel (src : MgrSrc)
  /-- PRESENCE_ASSERT (R577). PRESENCE_N changing to asserted inside an open window starts the 50 ms hold, or only counts EDGES when nothing is pending. -/
  | presenceAssert
  /-- PRESENCE_HOLD_DONE (R577). PRESENCE_N held 50 ms inside the window executes the pending command and sends its EVENT. -/
  | presenceHoldDone
  /-- PRESENCE_TIMEOUT (R577). The 60 s window expires and the pending command ends with PRESENCE_TIMEOUT. -/
  | presenceTimeout
  /-- SEAL_OPENED (R581). The seal loop read open for 10 consecutive samples programs SEAL_OPENED, logs, notifies, and may decommission. -/
  | sealOpened
  /-- CAP_GOVERNOR_WINDOW (R589). At the end of each 10 ms the mean input is compared with CAP_W and the point stepped down or up, or CAP_UNMET set. -/
  | capGovernorWindow (r : Readings)
  /-- THROTTLE_SET (R590). A junction above 105 °C forces Low and sets THROTTLE. -/
  | throttleSet (r : Readings)
  /-- THROTTLE_CLEAR (R590). THROTTLE clears once every junction has been at or below 100 °C for 1 s. -/
  | throttleClear (r : Readings)
  /-- EMERGENCY_DECLARE (R591). A condition of Table 26.4 met for its sample count orders Low within 50 µs, sets DECLARED and notifies. -/
  | emergencyDeclare (c : Fin 6) (r : Readings)
  /-- ADMISSION_PAUSE (R592). When a declared condition's pause criterion is met, ring stalls start no new task. -/
  | admissionPause (r : Readings)
  /-- EMERGENCY_CLEAR (R594). After every clear condition has held 1 s, admission resumes, DECLARED clears and the point returns to target. -/
  | emergencyClear (r : Readings)
  /-- POINT_SLEW_DONE (R588). A core voltage slew ends and the new point is in force. -/
  | pointSlewDone
  /-- THERMAL_FENCE (R595). A compute die junction reaching 120 °C is fenced by the Watch post. -/
  | thermalFence (q : Qn) (r : Readings)
  /-- EFUSE_OPEN (R584). The eFuse opens on input out of range or overcurrent, removing power from the whole module as a surprise removal. -/
  | efuseOpen
  /-- POWER_ON (R596). P50 within range for 10 ms closes the eFuse, powers the Watch post and starts a cold boot. -/
  | powerOn (romOk flashOk : Bool)
  /-- PWR_SET (R587). PWR_SET or a write of PWR_CTRL sets the target point and CAP_W. -/
  | pwrSet (src : PwrSrc)
  /-- ATTN_REQUEST (R597). ATTN_N held 100 ms requests removal, or cancels a removal in progress. -/
  | attnRequest
  /-- REMOVE_REQUEST (R597). REMOVE_REQUEST OP 1 starts the removal drain, or cancels one in progress. -/
  | removeRequest (src : MgrSrc)
  /-- REMOVE_CANCEL (R597). REMOVE_REQUEST OP 2 cancels a removal and resumes fetch, or is NOT_FOUND. -/
  | removeCancel (src : MgrSrc)
  /-- REMOVE_DRAIN_DONE (R597). When the removal drain completes, READY_N is released and REMOVE reads SAFE. -/
  | removeDrainDone
  /-- REMOVE_DRAIN_TIMEOUT (R597). A removal drain not done in 10 s sets DRAIN_TIMEOUT and keeps READY_N low. -/
  | removeDrainTimeout
  /-- RESET_N_ASSERT (R605). RESET_N asserted for 100 µs holds every die but the Watch post in reset. -/
  | resetNAssert
  /-- RESET_N_DEASSERT (R605). RESET_N deasserting after a qualifying assertion starts a cold boot. -/
  | resetNDeassert (romOk flashOk : Bool)
  /-- COOLANT_READY (R586). Once flow and inlet are within limits, the boot powers the Quarters, trains Warehouses, loads the image and starts the kernel. -/
  | coolantReady (r : Readings) (cores : List CoreNo) (stalls : List StallNo) (failed : List (Fin 12))
  /-- KERNEL_READY (R602). The kernel reports ready and the boot trains links, resumes journalled work and opens the Kiosks. -/
  | kernelReady
  /-- KERNEL_TIMEOUT (R602). No kernel ready report within 5 s restarts the boot from step 3 with the other slot, or fails the boot. -/
  | kernelTimeout
  /-- MCTP_CONTROL (R609). An MCTP control message is answered, and unsupported message types get ERROR_UNSUPPORTED_CMD. -/
  | mctpControl (bus : Fin 3) (type : BitVec 8) (body : Bytes)
  /-- MCTP_VENDOR_OPEN (R610). A vendor-defined message of TYPE 0x0001 opens a vendor session that counts as a manager session. -/
  | mctpVendorOpen (bus : Fin 3) (body : Bytes)
  /-- PLDM_GET_SENSOR_READING (R611). A PLDM type 2 sensor request returns the value of the sensor's register. -/
  | pldmGetSensorReading (bus : Fin 3) (id : BitVec 16)
  /-- PLDM_UPDATE_COMPONENT (R612). A PLDM type 5 component update writes a firmware, image or option component into its inactive slot. -/
  | pldmUpdateComponent (bus : Fin 3) (comp : BitVec 16) (data : Bytes)
  /-- PLDM_VERIFY_COMPLETE (R612). VerifyComplete checks the component's header, signature and SVN or ROM format, keeping the old slot on failure. -/
  | pldmVerifyComplete (bus : Fin 3)
  /-- PLDM_ACTIVATE_FIRMWARE (R613). ActivateFirmware runs a live activation of firmware, defers image and option to cold boot, or starts a cold boot from boot failure. -/
  | pldmActivateFirmware (bus : Fin 3) (romOk flashOk : Bool)
  /-- HOST_LINK_DOWN (R288). The link of host port H0 or H1 goes down by itself, and every Porter burst in flight on it completes with LINK_DOWN. -/
  | hostLinkDown (p : Fin 2)
  /-- HOST_LINK_UP (R456). A host port link trains or retrains at a width and rate, possibly narrower, and carries traffic again, writing a class 1 record for a width change. -/
  | hostLinkUp (p : Fin 2) (width rate : Nat)
  /-- ROOT_PORT_LINK_UP (R350). A Causeway root port link trains or retrains after insertion or link-down, ending the immediate LINK_DOWN completions and raising a hot-plug event. -/
  | rootPortLinkUp (g : Qn) (width rate : Nat)
  /-- IRQ_COALESCE_TIMEOUT (R448). The IRQ_COALESCE time limit of a Ledger queue expires with completions counted but no interrupt sent, and the queue's MSI-X interrupt is sent. -/
  | irqCoalesceTimeout (n : Fin 4096)
  /-- JTAG_ACCESS (R578). A JTAG operation at the pins runs a boundary-scan instruction, or at debug level 1 or 2 halts, steps, reads or writes a core or memory. -/
  | jtagAccess (op : JtagOp)
  /-- REPLICA_RETURN (R451). Firmware finishes copying every piece written while a replica was out, and the replica returns to service, raising HEALTHY. -/
  | replicaReturn (vol : Fin 4096) (r : Fin 3)
  /-- I3C_DYNAMIC_ADDRESS (R609). The I3C bus owner assigns the Watch post a dynamic address, after which SMBus is ignored until the next cold boot. -/
  | i3cDynamicAddress (addr : BitVec 7)
  deriving DecidableEq, Repr

end Sys2Proof
end

