-- ==== Sys2Proof/Decode.lean ====
section
/-!
DEFINITION. The command that a word of the table of operations spells. No row of the table gives bits, so no word spells one. (The Hawker
instruction words of Table 20.5 stand in Machine/HawkerCode.lean.)
-/
namespace Sys2Proof

/-- The command that the word `w` of `nbits` bits spells by the table's bits. -/
def decodeTableWord (_nbits _w : Nat) : Option Instr := none

end Sys2Proof
end

