-- ==== Sys2Proof/Config.lean ====
section
/-!
DEFINITION. What the spec leaves open or fixes by another standard: opaque constants with no body, so that no proof
can see a value of them. A free value is applied to State.fresh, which the step that uses it advances.
-/
namespace Sys2Proof.Config

/-- A byte whose value the spec leaves open (an unspecified or undefined byte); one per value of the counter. -/
opaque freeByte : Nat → BitVec 8

/-- A number whose value the spec leaves open. -/
opaque freeNat : Nat → Nat

/-- A yes or no that the spec leaves open. -/
opaque freeBool : Nat → Bool

/-- Free value: where the scale array of an MX operand of a Scales task begins, which the descriptor does not say (Table 6.5).
`which` is 0 for A, 1 for B and 2 for D; `desc` is the descriptor as a number. -/
opaque scaleBase (which desc : Nat) : Nat

/-- The compressed form of one chunk of at most 64 KiB in the stream format of docket format major 1, and the bytes that a
stream encodes (none where it is not well formed). The spec names the format and does not give it (R617). -/
opaque packChunk (chunk : Bytes) : Bytes
opaque unpack (stream : Bytes) : Option Bytes

/-- Fused at manufacture (Table 25.1): DEVICE_SECRET and DEVICE_ID as numbers, the nonce PREFIX, and OWNER_SLOT[0]. -/
opaque deviceSecret : Nat
opaque deviceId : Nat
opaque noncePrefix : Nat
opaque ownerSlot0 : Bytes

/-- What flash holds at shipment: the owner record, the firmware slots, the image slots and the option image. -/
opaque shipOwner : Bytes
opaque shipFw (slot : Nat) : Bytes
opaque shipImage (slot : Nat) : Bytes
opaque shipOption : Bytes

/-- An HSS signature verifies under a public key (R69, R569: RFC 8554 and SP 800-208, which the spec names and does not give). -/
opaque hssOk (key body sig : Bytes) : Bool

/-- The identity key's signature over a message with a one-time index; `debug` is DEBUG_FULL (Table 25.2). -/
opaque hssSign (debug : Bool) (index : Nat) (msg : Bytes) : Bytes

/-- The public key under which the factory signs (R579). -/
opaque factoryKey : Bytes

/-- SVN and length of the signed bytes of a firmware image whose header is right; the spec gives only the header's MAGIC. -/
opaque fwHeader (image : Bytes) : Option (Nat × Nat)

/-- The kernel of a firmware image supports a version of the kernel service interface (R511), and of the handover record (R518). -/
opaque kapiOk (image : Bytes) (kapi : Nat) : Bool
opaque handoverOk (image : Bytes) (version : Nat) : Bool

/-- Where a firmware image's kernel starts, and the spill area (base, limit, top) it gives core `n` (Table 27.1, step 8). -/
opaque kernelEntry (image : Bytes) : Nat
opaque kernelSpill (image : Bytes) (n : Nat) : Nat × Nat × Nat

/-- What measurement `n` of Table 25.4 hashes, from the bytes the table names. The spec gives no encoding for them. -/
opaque measured (n : Nat) (content : List Bytes) : Bytes

/-- The expansion ROM format of PCI firmware (R466, R612). -/
opaque romOk (image : Bytes) : Bool

/-- The key that a blob of KEY_IMPORT holds under a parent key with AES-256-GCM (R480), none where its tag fails. The spec gives the
blob no layout. -/
opaque unwrapBlob (parent blob : Bytes) : Option Bytes

/-- Free value: which queue of a receive queue group is its group entry of an index (Table 14.5 names the group entries and gives
them no contents). -/
opaque groupEntry (group index : Nat) : Nat

end Sys2Proof.Config
end

