-- ==== Sys2Proof/Machine/Table.lean ====
section
/-!
DEFINITION. Operations on the sparse tables of Word.lean, on bit fields and on byte strings.
-/
namespace Sys2Proof.Machine

/-! ### Tables -/

/-- The value stored at key `k`, if any. -/
def look {α : Type} : Tab α → Nat → Option α
  | [], _ => none
  | (k', v) :: t, k => if k' = k then some v else look t k

/-- The value at key `k`, or `d` where nothing is stored. -/
def lookD {α : Type} (d : α) (t : Tab α) (k : Nat) : α := (look t k).getD d

/-- The table without key `k`. -/
def drop {α : Type} : Tab α → Nat → Tab α
  | [], _ => []
  | (k', v) :: t, k => if k' = k then drop t k else (k', v) :: drop t k

/-- The table with value `v` at key `k`; the keys stay in rising order. -/
def put {α : Type} : Tab α → Nat → α → Tab α
  | [], k, v => [(k, v)]
  | (k', v') :: t, k, v =>
    if k < k' then (k, v) :: (k', v') :: t
    else if k' = k then (k, v) :: t
    else (k', v') :: put t k v

/-- As `put`, but storing the default `d` removes the entry, so that equal contents are equal tables. -/
def putD {α : Type} [DecidableEq α] (d : α) (t : Tab α) (k : Nat) (v : α) : Tab α :=
  if v = d then drop t k else put t k v

/-- The value at key `k` replaced by `f` of it; nothing where nothing is stored. -/
def alter {α : Type} (t : Tab α) (k : Nat) (f : α → α) : Tab α :=
  match look t k with
  | none => t
  | some v => put t k (f v)

/-- The canonical form of a table: keys strictly rising. -/
def TabWf {α : Type} (t : Tab α) : Prop := t.Pairwise (fun a b => a.1 < b.1)

/-- The canonical form of a table with a default: keys strictly rising, the default never stored. -/
def TabWfD {α : Type} (d : α) (t : Tab α) : Prop := TabWf t ∧ ∀ p ∈ t, p.2 ≠ d

/-- A key made of two numbers; `Nat.pair` is injective. -/
abbrev key2 (i j : Nat) : Nat := Nat.pair i j

/-- A key made of three numbers. -/
abbrev key3 (i j k : Nat) : Nat := Nat.pair i (Nat.pair j k)

/-! ### Bit fields of a 64-bit word (R11) -/

/-- Bits `hi` down to `lo` of a register. -/
structure Fld where
  hi : Nat
  lo : Nat
  deriving DecidableEq, Repr

/-- How many bits a field has. -/
def Fld.width (f : Fld) : Nat := f.hi + 1 - f.lo

/-- The bits of a field, as a mask over the 64-bit word. -/
def Fld.mask (f : Fld) : W64 := BitVec.ofNat 64 ((2 ^ f.width - 1) * 2 ^ f.lo)

/-- The number a field of a word holds. -/
def bitsOf (w : W64) (f : Fld) : Nat := w.toNat / 2 ^ f.lo % 2 ^ f.width

/-- The word with a field replaced by the low bits of `v`. -/
def setBits (w : W64) (f : Fld) (v : Nat) : W64 :=
  (w &&& ~~~f.mask) ||| (BitVec.ofNat 64 (v * 2 ^ f.lo) &&& f.mask)

/-- Bits `hi:lo` of a natural number. -/
def nbits (n hi lo : Nat) : Nat := n / 2 ^ lo % 2 ^ (hi + 1 - lo)

/-- Bit `i` of a natural number. -/
def nbit (n i : Nat) : Bool := n / 2 ^ i % 2 = 1

/-- 0 or 1. -/
def b2n (b : Bool) : Nat := if b then 1 else 0

/-! ### Byte strings (R12) -/

/-- The number a little-endian byte string spells (R12). -/
def leNat : Bytes → Nat
  | [] => 0
  | b :: bs => b.toNat + 256 * leNat bs

/-- The `n` bytes of a number, little-endian (R12). -/
def leBytes : Nat → Nat → Bytes
  | 0, _ => []
  | n + 1, v => BitVec.ofNat 8 v :: leBytes n (v / 256)

/-- The number a byte string in network order spells (R12). -/
def beNat (bs : Bytes) : Nat := leNat bs.reverse

/-- The `n` bytes of a number in network order (R12). -/
def beBytes (n v : Nat) : Bytes := (leBytes n v).reverse

/-- `n` bytes of a string from offset `o`; bytes past its end read as 0. -/
def slice (bs : Bytes) (o n : Nat) : Bytes :=
  let t := (bs.drop o).take n
  t ++ List.replicate (n - t.length) 0#8

/-- The little-endian number of `n` bytes at offset `o`. -/
def leAt (bs : Bytes) (o n : Nat) : Nat := leNat (slice bs o n)

/-- The network-order number of `n` bytes at offset `o`. -/
def beAt (bs : Bytes) (o n : Nat) : Nat := beNat (slice bs o n)

/-- The string with the bytes `v` laid over it from offset `o`. -/
def overlay (bs : Bytes) (o : Nat) (v : Bytes) : Bytes :=
  bs.take o ++ v ++ bs.drop (o + v.length)

/-- Every byte of the string is 0. -/
def allZero (bs : Bytes) : Bool := bs.all (· = 0#8)

/-- Some element of the list occurs twice. -/
def hasDup {α : Type} [DecidableEq α] : List α → Bool
  | [] => false
  | x :: xs => xs.contains x || hasDup xs

/-- The number rounded up to a multiple of `m`. -/
def roundUp (n m : Nat) : Nat := (n + m - 1) / m * m

/-- The least `k` with `n ≤ 2 ^ k`, found within `fuel`. -/
def ceilLog2 (n : Nat) : Nat := if n ≤ 1 then 0 else Nat.log2 (n - 1) + 1

end Sys2Proof.Machine
end

