-- ==== Sys2Proof/Machine/Registers.lean ====
section
/-!
DEFINITION. The registers of the 4 GiB register space (Table 1.6, Table 2.1 and the register tables of each
chapter): their names, where they lie, their fields with access codes (Table 0.3) and their reset values.
-/
namespace Sys2Proof.Machine

/-- Access codes of Table 0.3; a bit in no field is RSV (reads 0, writes ignored). -/
inductive Acc where
  | rw | ro | wo | w1c | rc
  deriving DecidableEq, Repr

/-- A register by the spec's own name. `stall…` are the ring-stall registers, laid out alike for every ring
stall (SCALES_…, BARROW_…, SIEVE_…, CROSSING_…, TALLY_…, BALER_…, CASHBOX_…); INFO and ERR also serve LEDGER_INFO. -/
inductive RegName where
  | regspStrayCount
  | regspStrayLast
  | regspBcastLast
  | regspBcastDiff
  | regspGrpMember
  | conserveCtrl
  | conserveStatus
  | conserveWhere
  | ximInforce
  | ximLoadAddr
  | ximLoadCtrl
  | ximLoadStatus
  | ximQuiesceLimit
  | ximPrecState
  | stallInfo
  | stallCtrl
  | stallRingBase
  | stallRingTail
  | stallRingHead
  | stallState
  | stallErr
  | streetRoute
  | blvdState
  | whEccStatus
  | whCtrl
  | surveyorCtxBase
  | surveyorInval
  | surveyorInvalDone
  | surveyorFaultRing
  | surveyorFaultResolve
  | porterChCtrl
  | porterChCfg
  | porterChHead
  | porterChDoorbell
  | porterChState
  | porterChCur
  | porterChLast
  | porterChFailAddr
  | porterChRemain
  | porterChDbCount
  | porterChAct
  | porterChShd
  | porterQIrq
  | bellCntValue
  | bellCntOp
  | bellCntCfg
  | bellCntStatus
  | bellMbExpect
  | bellMbArrived
  | bellMbCtrl
  | bellMbStatus
  | bellDgExpect
  | bellDgArrived
  | bellDgCtrl
  | bellDgStatus
  | bellSync
  | bellSyncErr
  | bellSatLast
  | bellFaultLast
  | bellSnapAddr
  | bellSnapCtrl
  | alleyEn
  | alleyState
  | alleyRaise
  | cwGrpCtrl
  | cwGrpStatus
  | cwGrpRpAsid
  | cwGrpBellBase
  | cwRpCfgAddr
  | cwRpCfgData
  | cwLinkCtrl
  | cwLinkStatus
  | cwLinkErr
  | ethPortCfg
  | ethSubCtrl
  | ethSubStatus
  | ethTsNow
  | ethTsAdj
  | ghSteer
  | ghCarterPort
  | ghMissRate
  | ghStage
  | ghOp
  | tbPortCfg
  | tbStage
  | tbOp
  | carterCtrl
  | carterStage
  | carterOp
  | carterDb
  | carterLocal
  | carterLocalCtl
  | carterErr
  | cashboxNonceId
  | cashboxCheck
  | ledgerCtrl
  | ledgerStage
  | ledgerOp
  | ledgerErr
  | fwState
  | fwFuncState
  | invFuncState
  | wmCnt
  | wmChain
  | wmArm
  | wmSampleRing
  | wmSampleIdx
  | wmSampleCtr
  | errRingBase
  | errRingIdx
  | errSummary
  | errFenceCtrl
  | errFenceStatus
  | errInjCtrl
  | errInjAddr
  | errInjStatus
  | secState
  | secPresence
  | secSvn
  | secSign
  | secDeviceId
  | pwrCtrl
  | pwrStatus
  | pwrInput
  | pwrThermal
  | pwrTj
  | bootStatus
  deriving DecidableEq, Repr

/-- One register: a name and up to two indices (Quarter, stall identifier, channel, link, precinct or function in
`i`; counter, entry, slot, word, subport or line in `j`). -/
structure Reg where
  name : RegName
  i : Nat := 0
  j : Nat := 0
  deriving DecidableEq, Repr

/-- The key a register's value is stored under. -/
def Reg.key (r : Reg) : Nat := key3 r.name.ctorIdx r.i r.j


/-- The names, in order. -/
def RegName.all : List RegName :=
  ([.regspStrayCount, .regspStrayLast, .regspBcastLast, .regspBcastDiff, .regspGrpMember, .conserveCtrl, .conserveStatus, .conserveWhere, .ximInforce, .ximLoadAddr, .ximLoadCtrl, .ximLoadStatus, .ximQuiesceLimit, .ximPrecState, .stallInfo, .stallCtrl, .stallRingBase, .stallRingTail, .stallRingHead, .stallState, .stallErr, .streetRoute, .blvdState, .whEccStatus, .whCtrl, .surveyorCtxBase, .surveyorInval, .surveyorInvalDone, .surveyorFaultRing, .surveyorFaultResolve, .porterChCtrl, .porterChCfg, .porterChHead, .porterChDoorbell, .porterChState, .porterChCur, .porterChLast, .porterChFailAddr, .porterChRemain, .porterChDbCount] : List RegName) ++
  ([.porterChAct, .porterChShd, .porterQIrq, .bellCntValue, .bellCntOp, .bellCntCfg, .bellCntStatus, .bellMbExpect, .bellMbArrived, .bellMbCtrl, .bellMbStatus, .bellDgExpect, .bellDgArrived, .bellDgCtrl, .bellDgStatus, .bellSync, .bellSyncErr, .bellSatLast, .bellFaultLast, .bellSnapAddr, .bellSnapCtrl, .alleyEn, .alleyState, .alleyRaise, .cwGrpCtrl, .cwGrpStatus, .cwGrpRpAsid, .cwGrpBellBase, .cwRpCfgAddr, .cwRpCfgData, .cwLinkCtrl, .cwLinkStatus, .cwLinkErr, .ethPortCfg, .ethSubCtrl, .ethSubStatus, .ethTsNow, .ethTsAdj, .ghSteer, .ghCarterPort] : List RegName) ++
  ([.ghMissRate, .ghStage, .ghOp, .tbPortCfg, .tbStage, .tbOp, .carterCtrl, .carterStage, .carterOp, .carterDb, .carterLocal, .carterLocalCtl, .carterErr, .cashboxNonceId, .cashboxCheck, .ledgerCtrl, .ledgerStage, .ledgerOp, .ledgerErr, .fwState, .fwFuncState, .invFuncState, .wmCnt, .wmChain, .wmArm, .wmSampleRing, .wmSampleIdx, .wmSampleCtr, .errRingBase, .errRingIdx, .errSummary, .errFenceCtrl, .errFenceStatus, .errInjCtrl, .errInjAddr, .errInjStatus, .secState, .secPresence, .secSvn, .secSign] : List RegName) ++
  ([.secDeviceId, .pwrCtrl, .pwrStatus, .pwrInput, .pwrThermal, .pwrTj, .bootStatus] : List RegName)

/-- The register of a key. -/
def Reg.ofKey (k : Nat) : Option Reg :=
  let p := Nat.unpair k
  let q := Nat.unpair p.2
  (RegName.all[p.1]?).map fun n => ⟨n, q.1, q.2⟩

/-! ### Fields, under the names of the spec's register tables -/
namespace F

/-- REGSP_STRAY_COUNT.COUNT. -/
abbrev regspStrayCount_COUNT : Fld := ⟨31, 0⟩
/-- REGSP_STRAY_LAST.REQ. -/
abbrev regspStrayLast_REQ : Fld := ⟨39, 35⟩
/-- REGSP_STRAY_LAST.KIND. -/
abbrev regspStrayLast_KIND : Fld := ⟨34, 33⟩
/-- REGSP_STRAY_LAST.VALID. -/
abbrev regspStrayLast_VALID : Fld := ⟨32, 32⟩
/-- REGSP_STRAY_LAST.OFFSET. -/
abbrev regspStrayLast_OFFSET : Fld := ⟨31, 0⟩
/-- REGSP_BCAST_LAST.RESPONDED. -/
abbrev regspBcastLast_RESPONDED : Fld := ⟨33, 25⟩
/-- REGSP_BCAST_LAST.ADDRESSED. -/
abbrev regspBcastLast_ADDRESSED : Fld := ⟨24, 16⟩
/-- REGSP_BCAST_LAST.FIRST. -/
abbrev regspBcastLast_FIRST : Fld := ⟨7, 2⟩
/-- REGSP_BCAST_LAST.SKIP. -/
abbrev regspBcastLast_SKIP : Fld := ⟨1, 1⟩
/-- REGSP_BCAST_LAST.DIVERGE. -/
abbrev regspBcastLast_DIVERGE : Fld := ⟨0, 0⟩
/-- REGSP_BCAST_DIFF.MASK. -/
abbrev regspBcastDiff_MASK : Fld := ⟨63, 0⟩
/-- REGSP_GRP_MEMBER.VALID. -/
abbrev regspGrpMember_VALID : Fld := ⟨31, 31⟩
/-- REGSP_GRP_MEMBER.PORTER. -/
abbrev regspGrpMember_PORTER : Fld := ⟨16, 16⟩
/-- REGSP_GRP_MEMBER.ID. -/
abbrev regspGrpMember_ID : Fld := ⟨15, 0⟩
/-- CONSERVE_CTRL.CHECK. -/
abbrev conserveCtrl_CHECK : Fld := ⟨6, 0⟩
/-- CONSERVE_STATUS.FAILED. -/
abbrev conserveStatus_FAILED : Fld := ⟨22, 16⟩
/-- CONSERVE_STATUS.RESULT. -/
abbrev conserveStatus_RESULT : Fld := ⟨13, 0⟩
/-- CONSERVE_WHERE.UNIT. -/
abbrev conserveWhere_UNIT : Fld := ⟨31, 16⟩
/-- CONSERVE_WHERE.QTY. -/
abbrev conserveWhere_QTY : Fld := ⟨2, 0⟩
/-- XIM_INFORCE.SVN. -/
abbrev ximInforce_SVN : Fld := ⟨63, 48⟩
/-- XIM_INFORCE.SLOT. -/
abbrev ximInforce_SLOT : Fld := ⟨32, 32⟩
/-- XIM_INFORCE.SEQ. -/
abbrev ximInforce_SEQ : Fld := ⟨31, 0⟩
/-- XIM_LOAD_ADDR.ADDR. -/
abbrev ximLoadAddr_ADDR : Fld := ⟨56, 3⟩
/-- XIM_LOAD_CTRL.LENGTH. -/
abbrev ximLoadCtrl_LENGTH : Fld := ⟨39, 16⟩
/-- XIM_LOAD_CTRL.OP. -/
abbrev ximLoadCtrl_OP : Fld := ⟨9, 8⟩
/-- XIM_LOAD_CTRL.PRECINCT. -/
abbrev ximLoadCtrl_PRECINCT : Fld := ⟨5, 0⟩
/-- XIM_LOAD_STATUS.SECTION. -/
abbrev ximLoadStatus_SECTION : Fld := ⟨47, 32⟩
/-- XIM_LOAD_STATUS.RECORD. -/
abbrev ximLoadStatus_RECORD : Fld := ⟨31, 16⟩
/-- XIM_LOAD_STATUS.STATUS. -/
abbrev ximLoadStatus_STATUS : Fld := ⟨15, 8⟩
/-- XIM_LOAD_STATUS.PRECINCT. -/
abbrev ximLoadStatus_PRECINCT : Fld := ⟨7, 2⟩
/-- XIM_LOAD_STATUS.BUSY. -/
abbrev ximLoadStatus_BUSY : Fld := ⟨0, 0⟩
/-- XIM_QUIESCE_LIMIT.LIMIT_US. -/
abbrev ximQuiesceLimit_LIMIT_US : Fld := ⟨31, 0⟩
/-- XIM_PREC_STATE.STATE. -/
abbrev ximPrecState_STATE : Fld := ⟨2, 0⟩
/-- SCALES_INFO.STALL_ID. -/
abbrev stallInfo_STALL_ID : Fld := ⟨31, 16⟩
/-- SCALES_INFO.ARRAY_COLS. -/
abbrev stallInfo_ARRAY_COLS : Fld := ⟨15, 8⟩
/-- SCALES_INFO.ARRAY_ROWS. -/
abbrev stallInfo_ARRAY_ROWS : Fld := ⟨7, 0⟩
/-- SCALES_CTRL.RING_LOG2. -/
abbrev stallCtrl_RING_LOG2 : Fld := ⟨7, 4⟩
/-- SCALES_CTRL.HALT. -/
abbrev stallCtrl_HALT : Fld := ⟨1, 1⟩
/-- SCALES_CTRL.ENABLE. -/
abbrev stallCtrl_ENABLE : Fld := ⟨0, 0⟩
/-- SCALES_RING_BASE.ADDR. -/
abbrev stallRingBase_ADDR : Fld := ⟨56, 7⟩
/-- SCALES_RING_TAIL.TAIL. -/
abbrev stallRingTail_TAIL : Fld := ⟨11, 0⟩
/-- SCALES_RING_HEAD.HEAD. -/
abbrev stallRingHead_HEAD : Fld := ⟨11, 0⟩
/-- SCALES_STATE.LAST_STATUS. -/
abbrev stallState_LAST_STATUS : Fld := ⟨15, 8⟩
/-- SCALES_STATE.STATE. -/
abbrev stallState_STATE : Fld := ⟨2, 0⟩
/-- SCALES_ERR.TASK. -/
abbrev stallErr_TASK : Fld := ⟨43, 32⟩
/-- SCALES_ERR.PARITY. -/
abbrev stallErr_PARITY : Fld := ⟨4, 4⟩
/-- SCALES_ERR.MALFORMED_TASK. -/
abbrev stallErr_MALFORMED_TASK : Fld := ⟨3, 3⟩
/-- SCALES_ERR.ACCESS. -/
abbrev stallErr_ACCESS : Fld := ⟨2, 2⟩
/-- SCALES_ERR.POISON_IN. -/
abbrev stallErr_POISON_IN : Fld := ⟨1, 1⟩
/-- SCALES_ERR.BAD_OPERAND. -/
abbrev stallErr_BAD_OPERAND : Fld := ⟨0, 0⟩
/-- STREET_ROUTE.VALID. -/
abbrev streetRoute_VALID : Fld := ⟨63, 63⟩
/-- STREET_ROUTE.BORDER. -/
abbrev streetRoute_BORDER : Fld := ⟨62, 62⟩
/-- STREET_ROUTE.ACTIVE. -/
abbrev streetRoute_ACTIVE : Fld := ⟨61, 61⟩
/-- STREET_ROUTE.PRECINCT. -/
abbrev streetRoute_PRECINCT : Fld := ⟨60, 55⟩
/-- STREET_ROUTE.DST_PORT. -/
abbrev streetRoute_DST_PORT : Fld := ⟨43, 40⟩
/-- STREET_ROUTE.DST_STALL. -/
abbrev streetRoute_DST_STALL : Fld := ⟨39, 24⟩
/-- STREET_ROUTE.SRC_PORT. -/
abbrev streetRoute_SRC_PORT : Fld := ⟨19, 16⟩
/-- STREET_ROUTE.SRC_STALL. -/
abbrev streetRoute_SRC_STALL : Fld := ⟨15, 0⟩
/-- BLVD_STATE.REPLAYS. -/
abbrev blvdState_REPLAYS : Fld := ⟨47, 32⟩
/-- BLVD_STATE.CRC_ERRORS. -/
abbrev blvdState_CRC_ERRORS : Fld := ⟨31, 16⟩
/-- BLVD_STATE.PEER. -/
abbrev blvdState_PEER : Fld := ⟨3, 2⟩
/-- BLVD_STATE.STATE. -/
abbrev blvdState_STATE : Fld := ⟨1, 0⟩
/-- WH_ECC_STATUS.STACK_FAILED. -/
abbrev whEccStatus_STACK_FAILED : Fld := ⟨57, 57⟩
/-- WH_ECC_STATUS.DIE_LOST. -/
abbrev whEccStatus_DIE_LOST : Fld := ⟨56, 56⟩
/-- WH_ECC_STATUS.LOST_DIE. -/
abbrev whEccStatus_LOST_DIE : Fld := ⟨52, 48⟩
/-- WH_ECC_STATUS.UE_COUNT. -/
abbrev whEccStatus_UE_COUNT : Fld := ⟨47, 32⟩
/-- WH_ECC_STATUS.CE_COUNT. -/
abbrev whEccStatus_CE_COUNT : Fld := ⟨31, 0⟩
/-- WH_CTRL.RETIRE_THRESHOLD. -/
abbrev whCtrl_RETIRE_THRESHOLD : Fld := ⟨7, 4⟩
/-- WH_CTRL.SCRUB_ENABLE. -/
abbrev whCtrl_SCRUB_ENABLE : Fld := ⟨0, 0⟩
/-- SURVEYOR_CTX_BASE.ADDR. -/
abbrev surveyorCtxBase_ADDR : Fld := ⟨56, 17⟩
/-- SURVEYOR_INVAL.ASID. -/
abbrev surveyorInval_ASID : Fld := ⟨59, 48⟩
/-- SURVEYOR_INVAL.VA. -/
abbrev surveyorInval_VA : Fld := ⟨47, 12⟩
/-- SURVEYOR_INVAL.SCOPE. -/
abbrev surveyorInval_SCOPE : Fld := ⟨1, 0⟩
/-- SURVEYOR_INVAL_DONE.COUNT. -/
abbrev surveyorInvalDone_COUNT : Fld := ⟨31, 0⟩
/-- SURVEYOR_FAULT_RING.ADDR. -/
abbrev surveyorFaultRing_ADDR : Fld := ⟨56, 17⟩
/-- SURVEYOR_FAULT_RING.LOG2. -/
abbrev surveyorFaultRing_LOG2 : Fld := ⟨3, 0⟩
/-- SURVEYOR_FAULT_RESOLVE.OUTCOME. -/
abbrev surveyorFaultResolve_OUTCOME : Fld := ⟨9, 8⟩
/-- SURVEYOR_FAULT_RESOLVE.FAULT_ID. -/
abbrev surveyorFaultResolve_FAULT_ID : Fld := ⟨7, 0⟩
/-- PORTER_CH_CTRL.RESUME. -/
abbrev porterChCtrl_RESUME : Fld := ⟨2, 2⟩
/-- PORTER_CH_CTRL.ABORT. -/
abbrev porterChCtrl_ABORT : Fld := ⟨1, 1⟩
/-- PORTER_CH_CTRL.GO. -/
abbrev porterChCtrl_GO : Fld := ⟨0, 0⟩
/-- PORTER_CH_CFG.CHAIN_ASID. -/
abbrev porterChCfg_CHAIN_ASID : Fld := ⟨43, 32⟩
/-- PORTER_CH_CFG.BURST_LOG2. -/
abbrev porterChCfg_BURST_LOG2 : Fld := ⟨19, 16⟩
/-- PORTER_CH_CFG.WEIGHT. -/
abbrev porterChCfg_WEIGHT : Fld := ⟨15, 8⟩
/-- PORTER_CH_CFG.MODE. -/
abbrev porterChCfg_MODE : Fld := ⟨4, 4⟩
/-- PORTER_CH_CFG.PRIO. -/
abbrev porterChCfg_PRIO : Fld := ⟨2, 0⟩
/-- PORTER_CH_HEAD.ADDR. -/
abbrev porterChHead_ADDR : Fld := ⟨47, 6⟩
/-- PORTER_CH_DOORBELL.RING. -/
abbrev porterChDoorbell_RING : Fld := ⟨63, 0⟩
/-- PORTER_CH_STATE.HALT_CODE. -/
abbrev porterChState_HALT_CODE : Fld := ⟨23, 16⟩
/-- PORTER_CH_STATE.IRQ_PEND. -/
abbrev porterChState_IRQ_PEND : Fld := ⟨9, 9⟩
/-- PORTER_CH_STATE.DB_PENDING. -/
abbrev porterChState_DB_PENDING : Fld := ⟨8, 8⟩
/-- PORTER_CH_STATE.STATE. -/
abbrev porterChState_STATE : Fld := ⟨2, 0⟩
/-- PORTER_CH_CUR.ADDR. -/
abbrev porterChCur_ADDR : Fld := ⟨47, 6⟩
/-- PORTER_CH_LAST.CODE. -/
abbrev porterChLast_CODE : Fld := ⟨7, 0⟩
/-- PORTER_CH_FAIL_ADDR.SIDE. -/
abbrev porterChFailAddr_SIDE : Fld := ⟨63, 63⟩
/-- PORTER_CH_FAIL_ADDR.ADDR. -/
abbrev porterChFailAddr_ADDR : Fld := ⟨47, 0⟩
/-- PORTER_CH_REMAIN.BYTES. -/
abbrev porterChRemain_BYTES : Fld := ⟨31, 0⟩
/-- PORTER_CH_DB_COUNT.COUNT. -/
abbrev porterChDbCount_COUNT : Fld := ⟨31, 0⟩
/-- PORTER_CH_ACT.WORD. -/
abbrev porterChAct_WORD : Fld := ⟨63, 0⟩
/-- PORTER_CH_SHD.WORD. -/
abbrev porterChShd_WORD : Fld := ⟨63, 0⟩
/-- PORTER_Q_IRQ.PEND. -/
abbrev porterQIrq_PEND : Fld := ⟨63, 0⟩
/-- BELL_CNT_VALUE.WAITERS. -/
abbrev bellCntValue_WAITERS : Fld := ⟨39, 24⟩
/-- BELL_CNT_VALUE.COUNT. -/
abbrev bellCntValue_COUNT : Fld := ⟨23, 0⟩
/-- BELL_CNT_OP.OP. -/
abbrev bellCntOp_OP : Fld := ⟨26, 24⟩
/-- BELL_CNT_OP.AMOUNT. -/
abbrev bellCntOp_AMOUNT : Fld := ⟨23, 0⟩
/-- BELL_CNT_CFG.ALIGN_VALUE. -/
abbrev bellCntCfg_ALIGN_VALUE : Fld := ⟨47, 24⟩
/-- BELL_CNT_CFG.ATTACH. -/
abbrev bellCntCfg_ATTACH : Fld := ⟨17, 16⟩
/-- BELL_CNT_CFG.GROUP. -/
abbrev bellCntCfg_GROUP : Fld := ⟨15, 8⟩
/-- BELL_CNT_CFG.PRIV. -/
abbrev bellCntCfg_PRIV : Fld := ⟨0, 0⟩
/-- BELL_CNT_STATUS.DRIFT. -/
abbrev bellCntStatus_DRIFT : Fld := ⟨63, 39⟩
/-- BELL_CNT_STATUS.MISMATCH_OVER. -/
abbrev bellCntStatus_MISMATCH_OVER : Fld := ⟨4, 4⟩
/-- BELL_CNT_STATUS.MISMATCH_UNDER. -/
abbrev bellCntStatus_MISMATCH_UNDER : Fld := ⟨3, 3⟩
/-- BELL_CNT_STATUS.HANG. -/
abbrev bellCntStatus_HANG : Fld := ⟨2, 2⟩
/-- BELL_CNT_STATUS.SAT_LOW. -/
abbrev bellCntStatus_SAT_LOW : Fld := ⟨1, 1⟩
/-- BELL_CNT_STATUS.SAT_HIGH. -/
abbrev bellCntStatus_SAT_HIGH : Fld := ⟨0, 0⟩
/-- BELL_MB_EXPECT.MASK. -/
abbrev bellMbExpect_MASK : Fld := ⟨63, 0⟩
/-- BELL_MB_ARRIVED.MASK. -/
abbrev bellMbArrived_MASK : Fld := ⟨63, 0⟩
/-- BELL_MB_CTRL.REALIGN_N. -/
abbrev bellMbCtrl_REALIGN_N : Fld := ⟨63, 48⟩
/-- BELL_MB_CTRL.HANG_LIMIT_US. -/
abbrev bellMbCtrl_HANG_LIMIT_US : Fld := ⟨47, 16⟩
/-- BELL_MB_CTRL.RELEASE_CTR. -/
abbrev bellMbCtrl_RELEASE_CTR : Fld := ⟨15, 0⟩
/-- BELL_MB_STATUS.RELEASES. -/
abbrev bellMbStatus_RELEASES : Fld := ⟨63, 32⟩
/-- BELL_MB_STATUS.EARLY. -/
abbrev bellMbStatus_EARLY : Fld := ⟨22, 16⟩
/-- BELL_MB_STATUS.OVERRUN. -/
abbrev bellMbStatus_OVERRUN : Fld := ⟨1, 1⟩
/-- BELL_MB_STATUS.HANG. -/
abbrev bellMbStatus_HANG : Fld := ⟨0, 0⟩
/-- BELL_DG_EXPECT.MASK. -/
abbrev bellDgExpect_MASK : Fld := ⟨63, 0⟩
/-- BELL_DG_ARRIVED.MASK. -/
abbrev bellDgArrived_MASK : Fld := ⟨63, 0⟩
/-- BELL_DG_CTRL.REALIGN_N. -/
abbrev bellDgCtrl_REALIGN_N : Fld := ⟨63, 48⟩
/-- BELL_DG_CTRL.HANG_LIMIT_US. -/
abbrev bellDgCtrl_HANG_LIMIT_US : Fld := ⟨47, 16⟩
/-- BELL_DG_CTRL.RELEASE_CTR. -/
abbrev bellDgCtrl_RELEASE_CTR : Fld := ⟨15, 0⟩
/-- BELL_DG_STATUS.RELEASES. -/
abbrev bellDgStatus_RELEASES : Fld := ⟨63, 32⟩
/-- BELL_DG_STATUS.EARLY. -/
abbrev bellDgStatus_EARLY : Fld := ⟨22, 16⟩
/-- BELL_DG_STATUS.OVERRUN. -/
abbrev bellDgStatus_OVERRUN : Fld := ⟨1, 1⟩
/-- BELL_DG_STATUS.HANG. -/
abbrev bellDgStatus_HANG : Fld := ⟨0, 0⟩
/-- BELL_SYNC.WORD. -/
abbrev bellSync_WORD : Fld := ⟨63, 0⟩
/-- BELL_SYNC_ERR.DROPPED. -/
abbrev bellSyncErr_DROPPED : Fld := ⟨9, 9⟩
/-- BELL_SYNC_ERR.MALFORMED. -/
abbrev bellSyncErr_MALFORMED : Fld := ⟨8, 8⟩
/-- BELL_SYNC_ERR.ENTRY. -/
abbrev bellSyncErr_ENTRY : Fld := ⟨7, 0⟩
/-- BELL_SAT_LAST.SOURCE. -/
abbrev bellSatLast_SOURCE : Fld := ⟨63, 48⟩
/-- BELL_SAT_LAST.OP. -/
abbrev bellSatLast_OP : Fld := ⟨47, 45⟩
/-- BELL_SAT_LAST.VALID. -/
abbrev bellSatLast_VALID : Fld := ⟨44, 44⟩
/-- BELL_SAT_LAST.COUNTER. -/
abbrev bellSatLast_COUNTER : Fld := ⟨43, 32⟩
/-- BELL_SAT_LAST.AMOUNT. -/
abbrev bellSatLast_AMOUNT : Fld := ⟨23, 0⟩
/-- BELL_FAULT_LAST.VALUE. -/
abbrev bellFaultLast_VALUE : Fld := ⟨39, 16⟩
/-- BELL_FAULT_LAST.COUNTER. -/
abbrev bellFaultLast_COUNTER : Fld := ⟨15, 4⟩
/-- BELL_FAULT_LAST.VALID. -/
abbrev bellFaultLast_VALID : Fld := ⟨3, 3⟩
/-- BELL_FAULT_LAST.KIND. -/
abbrev bellFaultLast_KIND : Fld := ⟨2, 0⟩
/-- BELL_SNAP_ADDR.ADDR. -/
abbrev bellSnapAddr_ADDR : Fld := ⟨56, 12⟩
/-- BELL_SNAP_CTRL.SEQ. -/
abbrev bellSnapCtrl_SEQ : Fld := ⟨47, 16⟩
/-- BELL_SNAP_CTRL.BUSY. -/
abbrev bellSnapCtrl_BUSY : Fld := ⟨2, 2⟩
/-- BELL_SNAP_CTRL.AUTO_ON_HANG. -/
abbrev bellSnapCtrl_AUTO_ON_HANG : Fld := ⟨1, 1⟩
/-- BELL_SNAP_CTRL.TAKE. -/
abbrev bellSnapCtrl_TAKE : Fld := ⟨0, 0⟩
/-- ALLEY_EN.MASK. -/
abbrev alleyEn_MASK : Fld := ⟨63, 0⟩
/-- ALLEY_STATE.RAISED. -/
abbrev alleyState_RAISED : Fld := ⟨63, 0⟩
/-- ALLEY_RAISE.LINE. -/
abbrev alleyRaise_LINE : Fld := ⟨3, 0⟩
/-- CW_GRP_CTRL.PERST. -/
abbrev cwGrpCtrl_PERST : Fld := ⟨2, 2⟩
/-- CW_GRP_CTRL.ENABLE. -/
abbrev cwGrpCtrl_ENABLE : Fld := ⟨1, 1⟩
/-- CW_GRP_CTRL.MODE. -/
abbrev cwGrpCtrl_MODE : Fld := ⟨0, 0⟩
/-- CW_GRP_STATUS.RATE. -/
abbrev cwGrpStatus_RATE : Fld := ⟨19, 16⟩
/-- CW_GRP_STATUS.WIDTH. -/
abbrev cwGrpStatus_WIDTH : Fld := ⟨15, 8⟩
/-- CW_GRP_STATUS.HP_EVENT. -/
abbrev cwGrpStatus_HP_EVENT : Fld := ⟨2, 2⟩
/-- CW_GRP_STATUS.DLL_ACTIVE. -/
abbrev cwGrpStatus_DLL_ACTIVE : Fld := ⟨1, 1⟩
/-- CW_GRP_STATUS.PRSNT. -/
abbrev cwGrpStatus_PRSNT : Fld := ⟨0, 0⟩
/-- CW_GRP_RP_ASID.ASID. -/
abbrev cwGrpRpAsid_ASID : Fld := ⟨11, 0⟩
/-- CW_GRP_BELL_BASE.ADDR. -/
abbrev cwGrpBellBase_ADDR : Fld := ⟨63, 12⟩
/-- CW_RP_CFG_ADDR.BDF. -/
abbrev cwRpCfgAddr_BDF : Fld := ⟨31, 16⟩
/-- CW_RP_CFG_ADDR.DWORD. -/
abbrev cwRpCfgAddr_DWORD : Fld := ⟨11, 2⟩
/-- CW_RP_CFG_DATA.DATA. -/
abbrev cwRpCfgData_DATA : Fld := ⟨31, 0⟩
/-- CW_LINK_CTRL.IN_ASID. -/
abbrev cwLinkCtrl_IN_ASID : Fld := ⟨43, 32⟩
/-- CW_LINK_CTRL.RETRAIN. -/
abbrev cwLinkCtrl_RETRAIN : Fld := ⟨1, 1⟩
/-- CW_LINK_CTRL.ENABLE. -/
abbrev cwLinkCtrl_ENABLE : Fld := ⟨0, 0⟩
/-- CW_LINK_STATUS.VERSION. -/
abbrev cwLinkStatus_VERSION : Fld := ⟨47, 32⟩
/-- CW_LINK_STATUS.NEG_STATUS. -/
abbrev cwLinkStatus_NEG_STATUS : Fld := ⟨31, 24⟩
/-- CW_LINK_STATUS.EPOCH. -/
abbrev cwLinkStatus_EPOCH : Fld := ⟨23, 16⟩
/-- CW_LINK_STATUS.WIDTH. -/
abbrev cwLinkStatus_WIDTH : Fld := ⟨6, 4⟩
/-- CW_LINK_STATUS.STATE. -/
abbrev cwLinkStatus_STATE : Fld := ⟨2, 0⟩
/-- CW_LINK_ERR.LATE. -/
abbrev cwLinkErr_LATE : Fld := ⟨63, 48⟩
/-- CW_LINK_ERR.REPLAYS. -/
abbrev cwLinkErr_REPLAYS : Fld := ⟨47, 32⟩
/-- CW_LINK_ERR.CRC_ERRORS. -/
abbrev cwLinkErr_CRC_ERRORS : Fld := ⟨31, 16⟩
/-- CW_LINK_ERR.NARROWINGS. -/
abbrev cwLinkErr_NARROWINGS : Fld := ⟨15, 0⟩
/-- ETH_PORT_CFG.BREAKOUT. -/
abbrev ethPortCfg_BREAKOUT : Fld := ⟨17, 16⟩
/-- ETH_PORT_CFG.MAX_FRAME. -/
abbrev ethPortCfg_MAX_FRAME : Fld := ⟨13, 0⟩
/-- ETH_SUB_CTRL.PRECINCT. -/
abbrev ethSubCtrl_PRECINCT : Fld := ⟨13, 8⟩
/-- ETH_SUB_CTRL.ENABLE. -/
abbrev ethSubCtrl_ENABLE : Fld := ⟨0, 0⟩
/-- ETH_SUB_STATUS.UNCORR. -/
abbrev ethSubStatus_UNCORR : Fld := ⟨63, 48⟩
/-- ETH_SUB_STATUS.CORR. -/
abbrev ethSubStatus_CORR : Fld := ⟨47, 16⟩
/-- ETH_SUB_STATUS.STATE. -/
abbrev ethSubStatus_STATE : Fld := ⟨1, 0⟩
/-- ETH_TS_NOW.TIME. -/
abbrev ethTsNow_TIME : Fld := ⟨63, 0⟩
/-- ETH_TS_ADJ.STEP_NS. -/
abbrev ethTsAdj_STEP_NS : Fld := ⟨63, 32⟩
/-- ETH_TS_ADJ.RATE_PPB. -/
abbrev ethTsAdj_RATE_PPB : Fld := ⟨31, 0⟩
/-- GH_STEER.QUARTER. -/
abbrev ghSteer_QUARTER : Fld := ⟨1, 0⟩
/-- GH_CARTER_PORT.PORT. -/
abbrev ghCarterPort_PORT : Fld := ⟨15, 0⟩
/-- GH_MISS_RATE.DROPS. -/
abbrev ghMissRate_DROPS : Fld := ⟨63, 32⟩
/-- GH_MISS_RATE.RATE_KPPS. -/
abbrev ghMissRate_RATE_KPPS : Fld := ⟨14, 0⟩
/-- GH_STAGE.WORD. -/
abbrev ghStage_WORD : Fld := ⟨63, 0⟩
/-- GH_OP.STATUS. -/
abbrev ghOp_STATUS : Fld := ⟨39, 32⟩
/-- GH_OP.BUSY. -/
abbrev ghOp_BUSY : Fld := ⟨31, 31⟩
/-- GH_OP.POLICER. -/
abbrev ghOp_POLICER : Fld := ⟨20, 3⟩
/-- GH_OP.OP. -/
abbrev ghOp_OP : Fld := ⟨2, 0⟩
/-- TB_PORT_CFG.OVERHEAD. -/
abbrev tbPortCfg_OVERHEAD : Fld := ⟨7, 0⟩
/-- TB_STAGE.WORD. -/
abbrev tbStage_WORD : Fld := ⟨63, 0⟩
/-- TB_OP.STATUS. -/
abbrev tbOp_STATUS : Fld := ⟨39, 32⟩
/-- TB_OP.BUSY. -/
abbrev tbOp_BUSY : Fld := ⟨31, 31⟩
/-- TB_OP.LEVEL. -/
abbrev tbOp_LEVEL : Fld := ⟨25, 24⟩
/-- TB_OP.OP. -/
abbrev tbOp_OP : Fld := ⟨22, 20⟩
/-- TB_OP.INDEX. -/
abbrev tbOp_INDEX : Fld := ⟨17, 0⟩
/-- CARTER_CTRL.ENABLE. -/
abbrev carterCtrl_ENABLE : Fld := ⟨0, 0⟩
/-- CARTER_STAGE.WORD. -/
abbrev carterStage_WORD : Fld := ⟨63, 0⟩
/-- CARTER_OP.STATUS. -/
abbrev carterOp_STATUS : Fld := ⟨39, 32⟩
/-- CARTER_OP.BUSY. -/
abbrev carterOp_BUSY : Fld := ⟨31, 31⟩
/-- CARTER_OP.OP. -/
abbrev carterOp_OP : Fld := ⟨23, 20⟩
/-- CARTER_OP.INDEX. -/
abbrev carterOp_INDEX : Fld := ⟨19, 0⟩
/-- CARTER_DB.QUEUE. -/
abbrev carterDb_QUEUE : Fld := ⟨49, 48⟩
/-- CARTER_DB.INDEX. -/
abbrev carterDb_INDEX : Fld := ⟨44, 32⟩
/-- CARTER_DB.CONN. -/
abbrev carterDb_CONN : Fld := ⟨19, 0⟩
/-- CARTER_LOCAL.ADDR. -/
abbrev carterLocal_ADDR : Fld := ⟨63, 0⟩
/-- CARTER_LOCAL.VALID. -/
abbrev carterLocalCtl_VALID : Fld := ⟨0, 0⟩
/-- CARTER_ERR.DISCARDS. -/
abbrev carterErr_DISCARDS : Fld := ⟨63, 32⟩
/-- CARTER_ERR.AUTH_DROPS. -/
abbrev carterErr_AUTH_DROPS : Fld := ⟨31, 24⟩
/-- CARTER_ERR.PARITY. -/
abbrev carterErr_PARITY : Fld := ⟨4, 4⟩
/-- CASHBOX_NONCE_ID.PREFIX. -/
abbrev cashboxNonceId_PREFIX : Fld := ⟨47, 16⟩
/-- CASHBOX_NONCE_ID.BOOT_EPOCH. -/
abbrev cashboxNonceId_BOOT_EPOCH : Fld := ⟨15, 0⟩
/-- CASHBOX_CHECK.LIMIT. -/
abbrev cashboxCheck_LIMIT : Fld := ⟨39, 32⟩
/-- CASHBOX_CHECK.FAULTS. -/
abbrev cashboxCheck_FAULTS : Fld := ⟨31, 0⟩
/-- LEDGER_CTRL.ENABLE. -/
abbrev ledgerCtrl_ENABLE : Fld := ⟨0, 0⟩
/-- LEDGER_STAGE.WORD. -/
abbrev ledgerStage_WORD : Fld := ⟨63, 0⟩
/-- LEDGER_OP.STATUS. -/
abbrev ledgerOp_STATUS : Fld := ⟨39, 32⟩
/-- LEDGER_OP.BUSY. -/
abbrev ledgerOp_BUSY : Fld := ⟨31, 31⟩
/-- LEDGER_OP.OP. -/
abbrev ledgerOp_OP : Fld := ⟨18, 16⟩
/-- LEDGER_OP.QUEUE. -/
abbrev ledgerOp_QUEUE : Fld := ⟨11, 0⟩
/-- LEDGER_ERR.REPLICA_OUT. -/
abbrev ledgerErr_REPLICA_OUT : Fld := ⟨63, 32⟩
/-- LEDGER_ERR.PARITY. -/
abbrev ledgerErr_PARITY : Fld := ⟨4, 4⟩
/-- LEDGER_ERR.CIPHER. -/
abbrev ledgerErr_CIPHER : Fld := ⟨3, 3⟩
/-- LEDGER_ERR.ACCESS. -/
abbrev ledgerErr_ACCESS : Fld := ⟨2, 2⟩
/-- LEDGER_ERR.POISON_IN. -/
abbrev ledgerErr_POISON_IN : Fld := ⟨1, 1⟩
/-- LEDGER_ERR.MEDIUM. -/
abbrev ledgerErr_MEDIUM : Fld := ⟨0, 0⟩
/-- FW_STATE.SVN. -/
abbrev fwState_SVN : Fld := ⟨63, 48⟩
/-- FW_STATE.ACTIVATIONS. -/
abbrev fwState_ACTIVATIONS : Fld := ⟨47, 32⟩
/-- FW_STATE.LAST_STATUS. -/
abbrev fwState_LAST_STATUS : Fld := ⟨31, 24⟩
/-- FW_STATE.LAST_DETAIL. -/
abbrev fwState_LAST_DETAIL : Fld := ⟨23, 16⟩
/-- FW_STATE.COMMITTED. -/
abbrev fwState_COMMITTED : Fld := ⟨5, 5⟩
/-- FW_STATE.RUNNING. -/
abbrev fwState_RUNNING : Fld := ⟨4, 4⟩
/-- FW_STATE.PHASE. -/
abbrev fwState_PHASE : Fld := ⟨2, 0⟩
/-- FW_FUNC_STATE.HOLD_LEFT_S. -/
abbrev fwFuncState_HOLD_LEFT_S : Fld := ⟨63, 32⟩
/-- FW_FUNC_STATE.HELD. -/
abbrev fwFuncState_HELD : Fld := ⟨31, 16⟩
/-- FW_FUNC_STATE.CAUSE. -/
abbrev fwFuncState_CAUSE : Fld := ⟨10, 8⟩
/-- FW_FUNC_STATE.STATE. -/
abbrev fwFuncState_STATE : Fld := ⟨1, 0⟩
/-- INV_FUNC_STATE.SHARDS_LEFT. -/
abbrev invFuncState_SHARDS_LEFT : Fld := ⟨63, 32⟩
/-- INV_FUNC_STATE.LAST_STATUS. -/
abbrev invFuncState_LAST_STATUS : Fld := ⟨31, 24⟩
/-- INV_FUNC_STATE.COPY_AHEAD. -/
abbrev invFuncState_COPY_AHEAD : Fld := ⟨23, 16⟩
/-- INV_FUNC_STATE.PHASE. -/
abbrev invFuncState_PHASE : Fld := ⟨2, 0⟩
/-- WM_CNT.WRAPPED. -/
abbrev wmCnt_WRAPPED : Fld := ⟨48, 48⟩
/-- WM_CNT.COUNT. -/
abbrev wmCnt_COUNT : Fld := ⟨47, 0⟩
/-- WM_CHAIN.CHAIN. -/
abbrev wmChain_CHAIN : Fld := ⟨15, 0⟩
/-- WM_ARM.ARM. -/
abbrev wmArm_ARM : Fld := ⟨15, 0⟩
/-- WM_SAMPLE_RING.ADDR. -/
abbrev wmSampleRing_ADDR : Fld := ⟨56, 12⟩
/-- WM_SAMPLE_RING.LOG2. -/
abbrev wmSampleRing_LOG2 : Fld := ⟨3, 0⟩
/-- WM_SAMPLE_IDX.LOST. -/
abbrev wmSampleIdx_LOST : Fld := ⟨47, 32⟩
/-- WM_SAMPLE_IDX.HEAD. -/
abbrev wmSampleIdx_HEAD : Fld := ⟨31, 16⟩
/-- WM_SAMPLE_IDX.TAIL. -/
abbrev wmSampleIdx_TAIL : Fld := ⟨15, 0⟩
/-- WM_SAMPLE_CTR.COUNTER. -/
abbrev wmSampleCtr_COUNTER : Fld := ⟨15, 0⟩
/-- ERR_RING_BASE.ADDR. -/
abbrev errRingBase_ADDR : Fld := ⟨56, 12⟩
/-- ERR_RING_BASE.LOG2. -/
abbrev errRingBase_LOG2 : Fld := ⟨3, 0⟩
/-- ERR_RING_IDX.LOST. -/
abbrev errRingIdx_LOST : Fld := ⟨47, 32⟩
/-- ERR_RING_IDX.HEAD. -/
abbrev errRingIdx_HEAD : Fld := ⟨31, 16⟩
/-- ERR_RING_IDX.TAIL. -/
abbrev errRingIdx_TAIL : Fld := ⟨15, 0⟩
/-- ERR_SUMMARY.FATAL. -/
abbrev errSummary_FATAL : Fld := ⟨16, 16⟩
/-- ERR_SUMMARY.QFENCED. -/
abbrev errSummary_QFENCED : Fld := ⟨11, 8⟩
/-- ERR_SUMMARY.SEEN. -/
abbrev errSummary_SEEN : Fld := ⟨4, 0⟩
/-- ERR_FENCE_CTRL.OP. -/
abbrev errFenceCtrl_OP : Fld := ⟨17, 16⟩
/-- ERR_FENCE_CTRL.TARGET. -/
abbrev errFenceCtrl_TARGET : Fld := ⟨15, 0⟩
/-- ERR_FENCE_STATUS.STATUS. -/
abbrev errFenceStatus_STATUS : Fld := ⟨39, 32⟩
/-- ERR_FENCE_STATUS.BUSY. -/
abbrev errFenceStatus_BUSY : Fld := ⟨31, 31⟩
/-- ERR_FENCE_STATUS.TARGET. -/
abbrev errFenceStatus_TARGET : Fld := ⟨15, 0⟩
/-- ERR_INJ_CTRL.SYNDROME. -/
abbrev errInjCtrl_SYNDROME : Fld := ⟨47, 40⟩
/-- ERR_INJ_CTRL.DETECTOR. -/
abbrev errInjCtrl_DETECTOR : Fld := ⟨39, 32⟩
/-- ERR_INJ_CTRL.UNIT. -/
abbrev errInjCtrl_UNIT : Fld := ⟨31, 16⟩
/-- ERR_INJ_CTRL.MODE. -/
abbrev errInjCtrl_MODE : Fld := ⟨3, 2⟩
/-- ERR_INJ_CTRL.DISARM. -/
abbrev errInjCtrl_DISARM : Fld := ⟨1, 1⟩
/-- ERR_INJ_CTRL.ARM. -/
abbrev errInjCtrl_ARM : Fld := ⟨0, 0⟩
/-- ERR_INJ_ADDR.ADDR. -/
abbrev errInjAddr_ADDR : Fld := ⟨56, 0⟩
/-- ERR_INJ_STATUS.FIRED. -/
abbrev errInjStatus_FIRED : Fld := ⟨63, 32⟩
/-- ERR_INJ_STATUS.ARMED. -/
abbrev errInjStatus_ARMED : Fld := ⟨0, 0⟩
/-- SEC_STATE.OWNER_SLOT. -/
abbrev secState_OWNER_SLOT : Fld := ⟨35, 32⟩
/-- SEC_STATE.DECOMMISSIONED. -/
abbrev secState_DECOMMISSIONED : Fld := ⟨31, 31⟩
/-- SEC_STATE.SEAL_NOW. -/
abbrev secState_SEAL_NOW : Fld := ⟨30, 30⟩
/-- SEC_STATE.SEAL_OPENED. -/
abbrev secState_SEAL_OPENED : Fld := ⟨29, 29⟩
/-- SEC_STATE.FACTORY. -/
abbrev secState_FACTORY : Fld := ⟨28, 28⟩
/-- SEC_STATE.DEBUG_LEVEL. -/
abbrev secState_DEBUG_LEVEL : Fld := ⟨25, 24⟩
/-- SEC_PRESENCE.EDGES. -/
abbrev secPresence_EDGES : Fld := ⟨63, 48⟩
/-- SEC_PRESENCE.LAST_STATUS. -/
abbrev secPresence_LAST_STATUS : Fld := ⟨47, 40⟩
/-- SEC_PRESENCE.PENDING_CMD. -/
abbrev secPresence_PENDING_CMD : Fld := ⟨31, 24⟩
/-- SEC_PRESENCE.WINDOW_LEFT_S. -/
abbrev secPresence_WINDOW_LEFT_S : Fld := ⟨5, 0⟩
/-- SEC_SVN.MODULE. -/
abbrev secSvn_MODULE : Fld := ⟨23, 16⟩
/-- SEC_SVN.FW. -/
abbrev secSvn_FW : Fld := ⟨15, 8⟩
/-- SEC_SVN.IMAGE. -/
abbrev secSvn_IMAGE : Fld := ⟨7, 0⟩
/-- SEC_SIGN.NEXT. -/
abbrev secSign_NEXT : Fld := ⟨44, 0⟩
/-- SEC_DEVICE_ID.ID. -/
abbrev secDeviceId_ID : Fld := ⟨63, 0⟩
/-- PWR_CTRL.CAP_W. -/
abbrev pwrCtrl_CAP_W : Fld := ⟨26, 16⟩
/-- PWR_CTRL.TARGET. -/
abbrev pwrCtrl_TARGET : Fld := ⟨1, 0⟩
/-- PWR_STATUS.EMERG. -/
abbrev pwrStatus_EMERG : Fld := ⟨29, 24⟩
/-- PWR_STATUS.REMOVE. -/
abbrev pwrStatus_REMOVE : Fld := ⟨18, 16⟩
/-- PWR_STATUS.COOL_WAIT. -/
abbrev pwrStatus_COOL_WAIT : Fld := ⟨7, 7⟩
/-- PWR_STATUS.CAP_UNMET. -/
abbrev pwrStatus_CAP_UNMET : Fld := ⟨6, 6⟩
/-- PWR_STATUS.THROTTLE. -/
abbrev pwrStatus_THROTTLE : Fld := ⟨5, 5⟩
/-- PWR_STATUS.PAUSED. -/
abbrev pwrStatus_PAUSED : Fld := ⟨4, 4⟩
/-- PWR_STATUS.DECLARED. -/
abbrev pwrStatus_DECLARED : Fld := ⟨3, 3⟩
/-- PWR_STATUS.SLEWING. -/
abbrev pwrStatus_SLEWING : Fld := ⟨2, 2⟩
/-- PWR_STATUS.POINT. -/
abbrev pwrStatus_POINT : Fld := ⟨1, 0⟩
/-- PWR_INPUT.POWER_W. -/
abbrev pwrInput_POWER_W : Fld := ⟨63, 48⟩
/-- PWR_INPUT.PEAK_W. -/
abbrev pwrInput_PEAK_W : Fld := ⟨47, 32⟩
/-- PWR_INPUT.CURRENT. -/
abbrev pwrInput_CURRENT : Fld := ⟨31, 16⟩
/-- PWR_INPUT.VOLTAGE. -/
abbrev pwrInput_VOLTAGE : Fld := ⟨15, 0⟩
/-- PWR_THERMAL.TJ_WATCH. -/
abbrev pwrThermal_TJ_WATCH : Fld := ⟨63, 56⟩
/-- PWR_THERMAL.TJ_MAX. -/
abbrev pwrThermal_TJ_MAX : Fld := ⟨55, 48⟩
/-- PWR_THERMAL.FLOW. -/
abbrev pwrThermal_FLOW : Fld := ⟨47, 32⟩
/-- PWR_THERMAL.OUTLET. -/
abbrev pwrThermal_OUTLET : Fld := ⟨31, 16⟩
/-- PWR_THERMAL.INLET. -/
abbrev pwrThermal_INLET : Fld := ⟨15, 0⟩
/-- PWR_TJ.BASE. -/
abbrev pwrTj_BASE : Fld := ⟨63, 32⟩
/-- PWR_TJ.COMPUTE. -/
abbrev pwrTj_COMPUTE : Fld := ⟨31, 0⟩
/-- BOOT_STATUS.FAIL_CODE. -/
abbrev bootStatus_FAIL_CODE : Fld := ⟨47, 40⟩
/-- BOOT_STATUS.WH_FENCED. -/
abbrev bootStatus_WH_FENCED : Fld := ⟨39, 28⟩
/-- BOOT_STATUS.QFENCED. -/
abbrev bootStatus_QFENCED : Fld := ⟨27, 24⟩
/-- BOOT_STATUS.DEGRADED. -/
abbrev bootStatus_DEGRADED : Fld := ⟨17, 17⟩
/-- BOOT_STATUS.FW_FALLBACK. -/
abbrev bootStatus_FW_FALLBACK : Fld := ⟨16, 16⟩
/-- BOOT_STATUS.STAGE. -/
abbrev bootStatus_STAGE : Fld := ⟨3, 0⟩
/-- BARROW_ERR.INDEX and the same bit of SIEVE_ERR, CROSSING_ERR and BALER_ERR. -/
abbrev stallErr_INDEX : Fld := ⟨5, 5⟩
/-- CROSSING_ERR.CAPACITY. -/
abbrev stallErr_CAPACITY : Fld := ⟨6, 6⟩
/-- CASHBOX_ERR.AUTH. -/
abbrev stallErr_AUTH : Fld := ⟨5, 5⟩
/-- CASHBOX_ERR.CHECK. -/
abbrev stallErr_CHECK : Fld := ⟨6, 6⟩

end F

/-- The fields of a register and their access codes, from the spec's register tables. -/
def RegName.fields : RegName → List (Fld × Acc)
  | .regspStrayCount => [(⟨31, 0⟩, .rc)]
  | .regspStrayLast => [(⟨39, 35⟩, .ro), (⟨34, 33⟩, .ro), (⟨32, 32⟩, .w1c), (⟨31, 0⟩, .ro)]
  | .regspBcastLast => [(⟨33, 25⟩, .ro), (⟨24, 16⟩, .ro), (⟨7, 2⟩, .ro), (⟨1, 1⟩, .ro), (⟨0, 0⟩, .ro)]
  | .regspBcastDiff => [(⟨63, 0⟩, .ro)]
  | .regspGrpMember => [(⟨31, 31⟩, .rw), (⟨16, 16⟩, .rw), (⟨15, 0⟩, .rw)]
  | .conserveCtrl => [(⟨6, 0⟩, .wo)]
  | .conserveStatus => [(⟨22, 16⟩, .w1c), (⟨13, 0⟩, .ro)]
  | .conserveWhere => [(⟨31, 16⟩, .ro), (⟨2, 0⟩, .ro)]
  | .ximInforce => [(⟨63, 48⟩, .ro), (⟨32, 32⟩, .ro), (⟨31, 0⟩, .ro)]
  | .ximLoadAddr => [(⟨56, 3⟩, .rw)]
  | .ximLoadCtrl => [(⟨39, 16⟩, .wo), (⟨9, 8⟩, .wo), (⟨5, 0⟩, .wo)]
  | .ximLoadStatus => [(⟨47, 32⟩, .ro), (⟨31, 16⟩, .ro), (⟨15, 8⟩, .ro), (⟨7, 2⟩, .ro), (⟨0, 0⟩, .ro)]
  | .ximQuiesceLimit => [(⟨31, 0⟩, .rw)]
  | .ximPrecState => [(⟨2, 0⟩, .ro)]
  | .stallInfo => [(⟨31, 0⟩, .ro)]
  | .stallCtrl => [(⟨7, 4⟩, .rw), (⟨1, 1⟩, .rw), (⟨0, 0⟩, .rw)]
  | .stallRingBase => [(⟨56, 7⟩, .rw)]
  | .stallRingTail => [(⟨11, 0⟩, .rw)]
  | .stallRingHead => [(⟨11, 0⟩, .ro)]
  | .stallState => [(⟨15, 8⟩, .ro), (⟨2, 0⟩, .ro)]
  | .stallErr => [(⟨43, 32⟩, .ro), (⟨6, 0⟩, .w1c)]
  | .streetRoute => [(⟨63, 63⟩, .rw), (⟨62, 62⟩, .ro), (⟨61, 61⟩, .ro), (⟨60, 55⟩, .rw), (⟨43, 40⟩, .rw), (⟨39, 24⟩, .rw), (⟨19, 16⟩, .rw), (⟨15, 0⟩, .rw)]
  | .blvdState => [(⟨47, 32⟩, .rc), (⟨31, 16⟩, .rc), (⟨3, 2⟩, .ro), (⟨1, 0⟩, .ro)]
  | .whEccStatus => [(⟨57, 57⟩, .ro), (⟨56, 56⟩, .ro), (⟨52, 48⟩, .ro), (⟨47, 32⟩, .rc), (⟨31, 0⟩, .rc)]
  | .whCtrl => [(⟨7, 4⟩, .rw), (⟨0, 0⟩, .rw)]
  | .surveyorCtxBase => [(⟨56, 17⟩, .rw)]
  | .surveyorInval => [(⟨59, 48⟩, .wo), (⟨47, 12⟩, .wo), (⟨1, 0⟩, .wo)]
  | .surveyorInvalDone => [(⟨31, 0⟩, .ro)]
  | .surveyorFaultRing => [(⟨56, 17⟩, .rw), (⟨3, 0⟩, .rw)]
  | .surveyorFaultResolve => [(⟨9, 8⟩, .wo), (⟨7, 0⟩, .wo)]
  | .porterChCtrl => [(⟨2, 2⟩, .wo), (⟨1, 1⟩, .wo), (⟨0, 0⟩, .rw)]
  | .porterChCfg => [(⟨43, 32⟩, .rw), (⟨19, 16⟩, .rw), (⟨15, 8⟩, .rw), (⟨4, 4⟩, .rw), (⟨2, 0⟩, .rw)]
  | .porterChHead => [(⟨47, 6⟩, .rw)]
  | .porterChDoorbell => [(⟨63, 0⟩, .wo)]
  | .porterChState => [(⟨23, 16⟩, .ro), (⟨9, 9⟩, .w1c), (⟨8, 8⟩, .ro), (⟨2, 0⟩, .ro)]
  | .porterChCur => [(⟨47, 6⟩, .ro)]
  | .porterChLast => [(⟨7, 0⟩, .ro)]
  | .porterChFailAddr => [(⟨63, 63⟩, .ro), (⟨47, 0⟩, .ro)]
  | .porterChRemain => [(⟨31, 0⟩, .ro)]
  | .porterChDbCount => [(⟨31, 0⟩, .rc)]
  | .porterChAct => [(⟨63, 0⟩, .ro)]
  | .porterChShd => [(⟨63, 0⟩, .rw)]
  | .porterQIrq => [(⟨63, 0⟩, .ro)]
  | .bellCntValue => [(⟨39, 24⟩, .ro), (⟨23, 0⟩, .ro)]
  | .bellCntOp => [(⟨26, 24⟩, .wo), (⟨23, 0⟩, .wo)]
  | .bellCntCfg => [(⟨47, 24⟩, .rw), (⟨17, 16⟩, .rw), (⟨15, 8⟩, .rw), (⟨0, 0⟩, .ro)]
  | .bellCntStatus => [(⟨63, 39⟩, .ro), (⟨4, 4⟩, .w1c), (⟨3, 3⟩, .w1c), (⟨2, 2⟩, .w1c), (⟨1, 1⟩, .w1c), (⟨0, 0⟩, .w1c)]
  | .bellMbExpect => [(⟨63, 0⟩, .rw)]
  | .bellMbArrived => [(⟨63, 0⟩, .ro)]
  | .bellMbCtrl => [(⟨63, 48⟩, .rw), (⟨47, 16⟩, .rw), (⟨15, 0⟩, .rw)]
  | .bellMbStatus => [(⟨63, 32⟩, .ro), (⟨22, 16⟩, .ro), (⟨1, 1⟩, .w1c), (⟨0, 0⟩, .w1c)]
  | .bellDgExpect => [(⟨63, 0⟩, .rw)]
  | .bellDgArrived => [(⟨63, 0⟩, .ro)]
  | .bellDgCtrl => [(⟨63, 48⟩, .rw), (⟨47, 16⟩, .rw), (⟨15, 0⟩, .rw)]
  | .bellDgStatus => [(⟨63, 32⟩, .ro), (⟨22, 16⟩, .ro), (⟨1, 1⟩, .w1c), (⟨0, 0⟩, .w1c)]
  | .bellSync => [(⟨63, 0⟩, .rw)]
  | .bellSyncErr => [(⟨9, 9⟩, .w1c), (⟨8, 8⟩, .w1c), (⟨7, 0⟩, .ro)]
  | .bellSatLast => [(⟨63, 48⟩, .ro), (⟨47, 45⟩, .ro), (⟨44, 44⟩, .w1c), (⟨43, 32⟩, .ro), (⟨23, 0⟩, .ro)]
  | .bellFaultLast => [(⟨39, 16⟩, .ro), (⟨15, 4⟩, .ro), (⟨3, 3⟩, .w1c), (⟨2, 0⟩, .ro)]
  | .bellSnapAddr => [(⟨56, 12⟩, .rw)]
  | .bellSnapCtrl => [(⟨47, 16⟩, .ro), (⟨2, 2⟩, .ro), (⟨1, 1⟩, .rw), (⟨0, 0⟩, .wo)]
  | .alleyEn => [(⟨63, 0⟩, .rw)]
  | .alleyState => [(⟨63, 0⟩, .ro)]
  | .alleyRaise => [(⟨3, 0⟩, .wo)]
  | .cwGrpCtrl => [(⟨2, 2⟩, .rw), (⟨1, 1⟩, .rw), (⟨0, 0⟩, .rw)]
  | .cwGrpStatus => [(⟨19, 16⟩, .ro), (⟨15, 8⟩, .ro), (⟨2, 2⟩, .w1c), (⟨1, 1⟩, .ro), (⟨0, 0⟩, .ro)]
  | .cwGrpRpAsid => [(⟨11, 0⟩, .rw)]
  | .cwGrpBellBase => [(⟨63, 12⟩, .rw)]
  | .cwRpCfgAddr => [(⟨31, 16⟩, .rw), (⟨11, 2⟩, .rw)]
  | .cwRpCfgData => [(⟨31, 0⟩, .rw)]
  | .cwLinkCtrl => [(⟨43, 32⟩, .rw), (⟨1, 1⟩, .wo), (⟨0, 0⟩, .rw)]
  | .cwLinkStatus => [(⟨47, 32⟩, .ro), (⟨31, 24⟩, .ro), (⟨23, 16⟩, .ro), (⟨6, 4⟩, .ro), (⟨2, 0⟩, .ro)]
  | .cwLinkErr => [(⟨63, 48⟩, .rc), (⟨47, 32⟩, .rc), (⟨31, 16⟩, .rc), (⟨15, 0⟩, .rc)]
  | .ethPortCfg => [(⟨17, 16⟩, .rw), (⟨13, 0⟩, .rw)]
  | .ethSubCtrl => [(⟨13, 8⟩, .rw), (⟨0, 0⟩, .rw)]
  | .ethSubStatus => [(⟨63, 48⟩, .rc), (⟨47, 16⟩, .rc), (⟨1, 0⟩, .ro)]
  | .ethTsNow => [(⟨63, 0⟩, .ro)]
  | .ethTsAdj => [(⟨63, 32⟩, .wo), (⟨31, 0⟩, .rw)]
  | .ghSteer => [(⟨1, 0⟩, .rw)]
  | .ghCarterPort => [(⟨15, 0⟩, .rw)]
  | .ghMissRate => [(⟨63, 32⟩, .rc), (⟨14, 0⟩, .rw)]
  | .ghStage => [(⟨63, 0⟩, .rw)]
  | .ghOp => [(⟨39, 32⟩, .ro), (⟨31, 31⟩, .ro), (⟨20, 3⟩, .wo), (⟨2, 0⟩, .wo)]
  | .tbPortCfg => [(⟨7, 0⟩, .rw)]
  | .tbStage => [(⟨63, 0⟩, .rw)]
  | .tbOp => [(⟨39, 32⟩, .ro), (⟨31, 31⟩, .ro), (⟨25, 24⟩, .wo), (⟨22, 20⟩, .wo), (⟨17, 0⟩, .wo)]
  | .carterCtrl => [(⟨0, 0⟩, .rw)]
  | .carterStage => [(⟨63, 0⟩, .rw)]
  | .carterOp => [(⟨39, 32⟩, .ro), (⟨31, 31⟩, .ro), (⟨23, 20⟩, .wo), (⟨19, 0⟩, .wo)]
  | .carterDb => [(⟨49, 48⟩, .wo), (⟨44, 32⟩, .wo), (⟨19, 0⟩, .wo)]
  | .carterLocal => [(⟨63, 0⟩, .rw)]
  | .carterLocalCtl => [(⟨0, 0⟩, .rw)]
  | .carterErr => [(⟨63, 32⟩, .rc), (⟨31, 24⟩, .rc), (⟨4, 4⟩, .w1c)]
  | .cashboxNonceId => [(⟨47, 16⟩, .ro), (⟨15, 0⟩, .ro)]
  | .cashboxCheck => [(⟨39, 32⟩, .rw), (⟨31, 0⟩, .ro)]
  | .ledgerCtrl => [(⟨0, 0⟩, .rw)]
  | .ledgerStage => [(⟨63, 0⟩, .rw)]
  | .ledgerOp => [(⟨39, 32⟩, .ro), (⟨31, 31⟩, .ro), (⟨18, 16⟩, .wo), (⟨11, 0⟩, .wo)]
  | .ledgerErr => [(⟨63, 32⟩, .rc), (⟨4, 4⟩, .w1c), (⟨3, 3⟩, .w1c), (⟨2, 2⟩, .w1c), (⟨1, 1⟩, .w1c), (⟨0, 0⟩, .w1c)]
  | .fwState => [(⟨63, 48⟩, .ro), (⟨47, 32⟩, .ro), (⟨31, 24⟩, .ro), (⟨23, 16⟩, .ro), (⟨5, 5⟩, .ro), (⟨4, 4⟩, .ro), (⟨2, 0⟩, .ro)]
  | .fwFuncState => [(⟨63, 32⟩, .ro), (⟨31, 16⟩, .ro), (⟨10, 8⟩, .ro), (⟨1, 0⟩, .ro)]
  | .invFuncState => [(⟨63, 32⟩, .ro), (⟨31, 24⟩, .ro), (⟨23, 16⟩, .rc), (⟨2, 0⟩, .ro)]
  | .wmCnt => [(⟨48, 48⟩, .w1c), (⟨47, 0⟩, .rw)]
  | .wmChain => [(⟨15, 0⟩, .rw)]
  | .wmArm => [(⟨15, 0⟩, .rw)]
  | .wmSampleRing => [(⟨56, 12⟩, .rw), (⟨3, 0⟩, .rw)]
  | .wmSampleIdx => [(⟨47, 32⟩, .rc), (⟨31, 16⟩, .ro), (⟨15, 0⟩, .rw)]
  | .wmSampleCtr => [(⟨15, 0⟩, .rw)]
  | .errRingBase => [(⟨56, 12⟩, .rw), (⟨3, 0⟩, .rw)]
  | .errRingIdx => [(⟨47, 32⟩, .rc), (⟨31, 16⟩, .ro), (⟨15, 0⟩, .rw)]
  | .errSummary => [(⟨16, 16⟩, .ro), (⟨11, 8⟩, .ro), (⟨4, 0⟩, .w1c)]
  | .errFenceCtrl => [(⟨17, 16⟩, .wo), (⟨15, 0⟩, .wo)]
  | .errFenceStatus => [(⟨39, 32⟩, .ro), (⟨31, 31⟩, .ro), (⟨15, 0⟩, .ro)]
  | .errInjCtrl => [(⟨47, 40⟩, .wo), (⟨39, 32⟩, .wo), (⟨31, 16⟩, .wo), (⟨3, 2⟩, .wo), (⟨1, 1⟩, .wo), (⟨0, 0⟩, .wo)]
  | .errInjAddr => [(⟨56, 0⟩, .wo)]
  | .errInjStatus => [(⟨63, 32⟩, .rc), (⟨0, 0⟩, .ro)]
  | .secState => [(⟨35, 32⟩, .ro), (⟨31, 31⟩, .ro), (⟨30, 30⟩, .ro), (⟨29, 29⟩, .ro), (⟨28, 28⟩, .ro), (⟨25, 24⟩, .ro)]
  | .secPresence => [(⟨63, 48⟩, .rc), (⟨47, 40⟩, .ro), (⟨31, 24⟩, .ro), (⟨5, 0⟩, .ro)]
  | .secSvn => [(⟨23, 16⟩, .ro), (⟨15, 8⟩, .ro), (⟨7, 0⟩, .ro)]
  | .secSign => [(⟨44, 0⟩, .ro)]
  | .secDeviceId => [(⟨63, 0⟩, .ro)]
  | .pwrCtrl => [(⟨26, 16⟩, .rw), (⟨1, 0⟩, .rw)]
  | .pwrStatus => [(⟨29, 24⟩, .ro), (⟨18, 16⟩, .ro), (⟨7, 7⟩, .ro), (⟨6, 6⟩, .ro), (⟨5, 5⟩, .ro), (⟨4, 4⟩, .ro), (⟨3, 3⟩, .ro), (⟨2, 2⟩, .ro), (⟨1, 0⟩, .ro)]
  | .pwrInput => [(⟨63, 48⟩, .ro), (⟨47, 32⟩, .rc), (⟨31, 16⟩, .ro), (⟨15, 0⟩, .ro)]
  | .pwrThermal => [(⟨63, 56⟩, .ro), (⟨55, 48⟩, .ro), (⟨47, 32⟩, .ro), (⟨31, 16⟩, .ro), (⟨15, 0⟩, .ro)]
  | .pwrTj => [(⟨63, 32⟩, .ro), (⟨31, 0⟩, .ro)]
  | .bootStatus => [(⟨47, 40⟩, .ro), (⟨39, 28⟩, .ro), (⟨27, 24⟩, .ro), (⟨17, 17⟩, .ro), (⟨16, 16⟩, .ro), (⟨3, 0⟩, .ro)]

/-- The kind code of a stall identifier (R26). -/
def stallKind (s : Nat) : Nat := s / 16 % 16

/-- The Quarter of a stall identifier (R26). -/
def stallQ (s : Nat) : Nat := s / 256

/-- The index of a stall within its kind and Quarter (R26). -/
def stallIdx (s : Nat) : Nat := s % 16

/-- Stalls of a kind in each Quarter (Table 1.2). -/
def kindCount : Nat → Nat
  | 0 => 16 | 1 => 8 | 2 => 4 | 3 => 2 | 4 => 4 | 5 => 2 | 6 => 2 | 7 => 1 | 8 => 1 | 9 => 1 | 10 => 1
  | _ => 0

/-- The identifier names a stall (R26, R27). -/
def stallOk (s : Nat) : Bool := decide (s < 1024) && decide (stallIdx s < kindCount (stallKind s))

/-- The identifier of stall `i` of kind `k` in Quarter `q` (R26). -/
def stallId (q k i : Nat) : Nat := q * 256 + k * 16 + i

/-- The stall has a task ring: kinds 0x0 to 0x6 (Scales to Cashbox). -/
def ringKind (k : Nat) : Bool := k ≤ 6

/-- The low half of a stall's INFO register, by kind. -/
def infoLow : Nat → Nat
  | 0 => 0x4040 | 1 => 0x0040 | 2 => 0x0010 | 3 => 0x1000 | 4 => 0x1000 | 5 => 0 | 6 => 0x1000 | 10 => 0x0100
  | _ => 0

/-- The other Quarter that Boulevard port `j` of Quarter `q` leads to: the j-th other one in ascending order. -/
def blvdPeer (q j : Nat) : Nat := if j < q then j else j + 1

/-- The value a register holds at reset, as its register table states it. Where the table says that the cold boot or
an image load sets it, this is the stated value before that (0, but for the registers named here). -/
def Reg.resetNat (r : Reg) : Nat :=
  match r.name with
  | .stallInfo => r.i * 65536 + infoLow (stallKind r.i)
  | .ximQuiesceLimit => 0x186A0
  | .blvdState => blvdPeer r.i r.j * 4
  | .whCtrl => 0x41
  | .porterChCfg => 0xC0100
  | .bellMbCtrl | .bellDgCtrl => 0x1_0000_0000_FFFF
  | .cwGrpCtrl => 4
  | .ethPortCfg => 0x2580
  | .ghSteer => r.i
  | .ghCarterPort => 0xC0A0
  | .ghMissRate => 0x3E8
  | .tbPortCfg => 0x14
  | .cashboxCheck => 0x4_0000_0000
  | .wmSampleCtr => 0xFFFF
  | .pwrCtrl => 0x672_0001
  | .secDeviceId => Config.deviceId % 2 ^ 64
  | .cashboxNonceId => Config.noncePrefix % 2 ^ 32 * 65536
  | _ => 0

/-- The reset value as a register word. -/
def Reg.reset (r : Reg) : W64 := BitVec.ofNat 64 r.resetNat

/-! ### Where registers lie -/

/-- Offset of Quarter block `q` from the start of the register space (Table 1.6). -/
def qBase (q : Nat) : Nat := 0x1000_0000 + q * 0x1000_0000

/-- Offset of the unit window of a stall (Table 2.1). -/
def stallBase (s : Nat) : Nat := qBase (stallQ s) + stallKind s * 0x100_0000 + stallIdx s * 0x10_0000

/-- Offset of the window of Porter channel `c` (Table 2.1). -/
def porterBase (c : Nat) : Nat := qBase (c / 64) + 0xB00_0000 + c % 64 * 0x1_0000

/-- The register at offset `x` of the window of ring stall `s`. -/
def ringRegAt (s x : Nat) : Option Reg :=
  match x with
  | 0x00 => some ⟨.stallInfo, s, 0⟩
  | 0x08 => some ⟨.stallCtrl, s, 0⟩
  | 0x10 => some ⟨.stallRingBase, s, 0⟩
  | 0x18 => some ⟨.stallRingTail, s, 0⟩
  | 0x20 => some ⟨.stallRingHead, s, 0⟩
  | 0x28 => some ⟨.stallState, s, 0⟩
  | 0x30 => some ⟨.stallErr, s, 0⟩
  | 0x38 => if stallKind s = 6 then some ⟨.cashboxNonceId, s, 0⟩ else none
  | 0x40 => if stallKind s = 6 then some ⟨.cashboxCheck, s, 0⟩ else none
  | _ => none

/-- An array of 8-byte registers: `n` registers from `base`, `stride` bytes apart. -/
def arrAt (x base stride n : Nat) : Option Nat :=
  if base ≤ x ∧ (x - base) % stride = 0 ∧ (x - base) / stride < n then some ((x - base) / stride) else none

/-- The register at offset `x` of the window of the Gatehouse of Quarter `q`. GH_MISS_RATE is device-wide: every
Gatehouse's window shows the one register. -/
def gatehouseRegAt (q x : Nat) : Option Reg :=
  if x = 0x1800 then some ⟨.ghCarterPort, q, 0⟩
  else if x = 0x3040 then some ⟨.ghOp, q, 0⟩
  else if let some n := arrAt x 0x1000 8 256 then some ⟨.ghSteer, q, n⟩
  else if let some p := arrAt x 0x2000 8 64 then some ⟨.ghMissRate, p, 0⟩
  else if let some w := arrAt x 0x3000 8 8 then some ⟨.ghStage, q, w⟩
  else none

/-- The register at offset `x` of the window of the Tollbooth of Quarter `q`. -/
def tollboothRegAt (q x : Nat) : Option Reg :=
  if x = 0x100 then some ⟨.tbPortCfg, q, 0⟩
  else if x = 0x280 then some ⟨.tbOp, q, 0⟩
  else if let some w := arrAt x 0x200 8 16 then some ⟨.tbStage, q, w⟩
  else none

/-- The register at offset `x` of the window of the Carter stall of Quarter `q`. -/
def carterRegAt (q x : Nat) : Option Reg :=
  if x = 0x8 then some ⟨.carterCtrl, q, 0⟩
  else if x = 0x30 then some ⟨.carterErr, q, 0⟩
  else if x = 0x200 then some ⟨.carterOp, q, 0⟩
  else if x = 0x208 then some ⟨.carterDb, q, 0⟩
  else if let some w := arrAt x 0x100 8 32 then some ⟨.carterStage, q, w⟩
  else if let some n := arrAt x 0x410 0x18 16 then some ⟨.carterLocalCtl, q, n⟩
  else if let some n := arrAt x 0x400 0x18 16 then some ⟨.carterLocal, q, 2 * n⟩
  else if let some n := arrAt x 0x408 0x18 16 then some ⟨.carterLocal, q, 2 * n + 1⟩
  else none

/-- The register at offset `x` of the window of the Ledger stall of Quarter `q`. -/
def ledgerRegAt (q x : Nat) : Option Reg :=
  if x = 0 then some ⟨.stallInfo, stallId q 10 0, 0⟩
  else if x = 0x8 then some ⟨.ledgerCtrl, q, 0⟩
  else if x = 0x30 then some ⟨.ledgerErr, q, 0⟩
  else if x = 0x200 then some ⟨.ledgerOp, q, 0⟩
  else if let some w := arrAt x 0x100 8 8 then some ⟨.ledgerStage, q, w⟩
  else none

/-- The register at offset `x` of the unit window of stall `s`. -/
def unitRegAt (s x : Nat) : Option Reg :=
  if ringKind (stallKind s) then ringRegAt s x
  else match stallKind s with
  | 7 => gatehouseRegAt (stallQ s) x
  | 8 => tollboothRegAt (stallQ s) x
  | 9 => carterRegAt (stallQ s) x
  | 10 => ledgerRegAt (stallQ s) x
  | _ => none

/-- The register at offset `x` of the window of Porter channel `c`. -/
def porterRegAt (c x : Nat) : Option Reg :=
  match x with
  | 0x00 => some ⟨.porterChCtrl, c, 0⟩
  | 0x08 => some ⟨.porterChCfg, c, 0⟩
  | 0x10 => some ⟨.porterChHead, c, 0⟩
  | 0x18 => some ⟨.porterChDoorbell, c, 0⟩
  | 0x20 => some ⟨.porterChState, c, 0⟩
  | 0x28 => some ⟨.porterChCur, c, 0⟩
  | 0x30 => some ⟨.porterChLast, c, 0⟩
  | 0x38 => some ⟨.porterChFailAddr, c, 0⟩
  | 0x40 => some ⟨.porterChRemain, c, 0⟩
  | 0x48 => some ⟨.porterChDbCount, c, 0⟩
  | x =>
    if let some n := arrAt x 0x100 8 8 then some ⟨.porterChAct, c, n⟩
    else if let some n := arrAt x 0x140 8 8 then some ⟨.porterChShd, c, n⟩
    else none

/-- The register at offset `x` of the Surveyor block of Quarter `q`. -/
def surveyorRegAt (q x : Nat) : Option Reg :=
  match x with
  | 0x00 => some ⟨.surveyorCtxBase, q, 0⟩
  | 0x08 => some ⟨.surveyorInval, q, 0⟩
  | 0x10 => some ⟨.surveyorInvalDone, q, 0⟩
  | 0x18 => some ⟨.surveyorFaultRing, q, 0⟩
  | 0x20 => some ⟨.surveyorFaultResolve, q, 0⟩
  | _ => none

/-- The register at offset `x` of the Bell unit block of Quarter `q`. -/
def bellRegAt (q x : Nat) : Option Reg :=
  if x = 0x3_0000 then some ⟨.bellSatLast, q, 0⟩
  else if x = 0x3_0008 then some ⟨.bellFaultLast, q, 0⟩
  else if x = 0x3_0010 then some ⟨.bellSnapAddr, q, 0⟩
  else if x = 0x3_0018 then some ⟨.bellSnapCtrl, q, 0⟩
  else if x = 0x3_0020 then some ⟨.bellSyncErr, q, 0⟩
  else if let some n := arrAt x 0x0 0x20 4096 then some ⟨.bellCntValue, q, n⟩
  else if let some n := arrAt x 0x8 0x20 4096 then some ⟨.bellCntOp, q, n⟩
  else if let some n := arrAt x 0x10 0x20 4096 then some ⟨.bellCntCfg, q, n⟩
  else if let some n := arrAt x 0x18 0x20 4096 then some ⟨.bellCntStatus, q, n⟩
  else if let some m := arrAt x 0x2_0000 0x20 64 then some ⟨.bellMbExpect, q, m⟩
  else if let some m := arrAt x 0x2_0008 0x20 64 then some ⟨.bellMbArrived, q, m⟩
  else if let some m := arrAt x 0x2_0010 0x20 64 then some ⟨.bellMbCtrl, q, m⟩
  else if let some m := arrAt x 0x2_0018 0x20 64 then some ⟨.bellMbStatus, q, m⟩
  else if let some m := arrAt x 0x2_1000 0x20 64 then some ⟨.bellDgExpect, q, m⟩
  else if let some m := arrAt x 0x2_1008 0x20 64 then some ⟨.bellDgArrived, q, m⟩
  else if let some m := arrAt x 0x2_1010 0x20 64 then some ⟨.bellDgCtrl, q, m⟩
  else if let some m := arrAt x 0x2_1018 0x20 64 then some ⟨.bellDgStatus, q, m⟩
  else if let some w := arrAt x 0x2_4000 8 1024 then some ⟨.bellSync, q, w⟩
  else none

/-- The register at offset `x` of the Alley lines block of Quarter `q`. -/
def alleyRegAt (q x : Nat) : Option Reg :=
  if x = 0x100 then some ⟨.alleyRaise, q, 0⟩
  else if let some l := arrAt x 0x0 0x10 16 then some ⟨.alleyEn, q, l⟩
  else if let some l := arrAt x 0x8 0x10 16 then some ⟨.alleyState, q, l⟩
  else none

/-- The register at offset `x` of the SerDes groups block of Quarter `q`: Ethernet port Eq from 0, Causeway group
CGq from 0x4_0000. -/
def serdesRegAt (q x : Nat) : Option Reg :=
  if x = 0 then some ⟨.ethPortCfg, q, 0⟩
  else if let some s := arrAt x 0x100 0x40 8 then some ⟨.ethSubCtrl, q, s⟩
  else if let some s := arrAt x 0x108 0x40 8 then some ⟨.ethSubStatus, q, s⟩
  else if let some s := arrAt x 0x110 0x40 8 then some ⟨.ethTsNow, q, s⟩
  else if let some s := arrAt x 0x118 0x40 8 then some ⟨.ethTsAdj, q, s⟩
  else if x = 0x4_0000 then some ⟨.cwGrpCtrl, q, 0⟩
  else if x = 0x4_0008 then some ⟨.cwGrpStatus, q, 0⟩
  else if x = 0x4_0010 then some ⟨.cwGrpRpAsid, q, 0⟩
  else if x = 0x4_0018 then some ⟨.cwGrpBellBase, q, 0⟩
  else if x = 0x4_0020 then some ⟨.cwRpCfgAddr, q, 0⟩
  else if x = 0x4_0028 then some ⟨.cwRpCfgData, q, 0⟩
  else if let some l := arrAt x 0x4_0100 0x40 4 then some ⟨.cwLinkCtrl, 4 * q + l, 0⟩
  else if let some l := arrAt x 0x4_0108 0x40 4 then some ⟨.cwLinkStatus, 4 * q + l, 0⟩
  else if let some l := arrAt x 0x4_0110 0x40 4 then some ⟨.cwLinkErr, 4 * q + l, 0⟩
  else none

/-- The Weighmaster block index of a device block: the two Watch post cores follow the 64 blocks of a Quarter; the
first index of their registers is 4. -/
abbrev wmDevice : Nat := 4

/-- Event slots that the counter map defines in block `b` of Quarter `q` (R537, R538, Table 23.2). -/
def wmSlots (q b : Nat) : Nat :=
  if b < 16 then 12 else if b < 24 then 11 else if b < 28 then 9 else if b < 30 then 13
  else if b < 34 then 11 else if b < 36 then 8 else if b < 38 then 12
  else match b with
  | 38 => 16 | 39 => 14 | 40 => 14 | 41 => 10 | 42 => 5 | 43 => 6 | 44 => 5 | 45 => 5 | 46 => 3 | 47 => 12
  | 48 | 49 | 50 | 51 => 10
  | 52 | 53 | 54 => 5
  | 55 => 8 | 56 => 5
  | 57 => if q % 2 = 0 then 5 else 0
  | _ => 0

/-- Slot `n` of block `b` is an event slot of the map, or the extension of one (slot n + 16, R543). -/
def wmSlotOk (q b n : Nat) : Bool :=
  if q = wmDevice then decide (b < 2) && decide (n % 16 < 10) else decide (n % 16 < wmSlots q b)

/-- The register at offset `x` of the Weighmaster region of Quarter `q` (Table 23.1). The map defines blocks 0 to 57,
without block 57 in Q1 and Q3 (R537). -/
def wmRegAt (q x : Nat) : Option Reg :=
  if x = 0x8400 then some ⟨.wmSampleRing, q, 0⟩
  else if x = 0x8408 then some ⟨.wmSampleIdx, q, 0⟩
  else if x = 0x8410 then some ⟨.wmSampleCtr, q, 0⟩
  else if let some n := arrAt x 0 8 (58 * 32) then
    if wmSlotOk q (n / 32) (n % 32) then some ⟨.wmCnt, q, n⟩ else none
  else if let some b := arrAt x 0x8000 8 58 then if wmSlots q b = 0 then none else some ⟨.wmChain, q, b⟩
  else if let some b := arrAt x 0x8200 8 58 then if wmSlots q b = 0 then none else some ⟨.wmArm, q, b⟩
  else none

/-- The register at offset `x` of Quarter block `q` (Table 2.1), the all-units and all-channels windows apart. -/
def quarterRegAt (q x : Nat) : Option Reg :=
  if x < 0xB00_0000 then
    let s := stallId q (x / 0x100_0000) (x / 0x10_0000 % 16)
    if stallOk s then unitRegAt s (x % 0x10_0000) else none
  else if x < 0xB40_0000 then porterRegAt (64 * q + (x - 0xB00_0000) / 0x1_0000) (x % 0x1_0000)
  else if x = 0xB40_0000 then some ⟨.porterQIrq, q, 0⟩
  else match x / 0x10_0000 with
  | 0xC0 => surveyorRegAt q (x % 0x10_0000)
  | 0xC1 => bellRegAt q (x % 0x10_0000)
  | 0xC2 => alleyRegAt q (x % 0x10_0000)
  | 0xC3 => (arrAt (x % 0x10_0000) 0 8 256).map fun n => ⟨.streetRoute, q, n⟩
  | 0xC5 | 0xC6 | 0xC7 =>
    let w := 3 * q + (x / 0x10_0000 - 0xC5)
    match x % 0x10_0000 with
    | 0 => some ⟨.whEccStatus, w, 0⟩
    | 8 => some ⟨.whCtrl, w, 0⟩
    | _ => none
  | 0xC8 => (arrAt (x % 0x10_0000) 0 8 3).map fun j => ⟨.blvdState, q, j⟩
  | 0xC9 => serdesRegAt q (x % 0x10_0000)
  | 0xCD => wmRegAt q (x % 0x10_0000)
  | _ => none

/-- The register at offset `x` of the device-wide block. The banked registers are those of requester `rq`. -/
def deviceRegAt (rq x : Nat) : Option Reg :=
  match x with
  | 0x10_0000 => some ⟨.regspStrayCount, 0, 0⟩
  | 0x10_0008 => some ⟨.regspStrayLast, 0, 0⟩
  | 0x10_0010 => some ⟨.regspBcastLast, rq, 0⟩
  | 0x10_0018 => some ⟨.regspBcastDiff, rq, 0⟩
  | 0x10_0020 => some ⟨.conserveCtrl, 0, 0⟩
  | 0x10_0028 => some ⟨.conserveStatus, 0, 0⟩
  | 0x10_0030 => some ⟨.conserveWhere, 0, 0⟩
  | 0x20_0000 => some ⟨.ximInforce, 0, 0⟩
  | 0x20_0008 => some ⟨.ximLoadAddr, 0, 0⟩
  | 0x20_0010 => some ⟨.ximLoadCtrl, 0, 0⟩
  | 0x20_0018 => some ⟨.ximLoadStatus, 0, 0⟩
  | 0x20_0020 => some ⟨.ximQuiesceLimit, 0, 0⟩
  | 0x30_0000 => some ⟨.fwState, 0, 0⟩
  | 0x60_0000 => some ⟨.errRingBase, 0, 0⟩
  | 0x60_0008 => some ⟨.errRingIdx, 0, 0⟩
  | 0x60_0010 => some ⟨.errSummary, 0, 0⟩
  | 0x60_0018 => some ⟨.errFenceCtrl, 0, 0⟩
  | 0x60_0020 => some ⟨.errFenceStatus, 0, 0⟩
  | 0x60_0040 => some ⟨.errInjCtrl, 0, 0⟩
  | 0x60_0048 => some ⟨.errInjAddr, 0, 0⟩
  | 0x60_0050 => some ⟨.errInjStatus, 0, 0⟩
  | 0x70_0000 => some ⟨.secState, 0, 0⟩
  | 0x70_0008 => some ⟨.secPresence, 0, 0⟩
  | 0x70_0010 => some ⟨.secSvn, 0, 0⟩
  | 0x70_0018 => some ⟨.secSign, 0, 0⟩
  | 0x70_0020 => some ⟨.secDeviceId, 0, 0⟩
  | 0x80_0000 => some ⟨.pwrCtrl, 0, 0⟩
  | 0x80_0008 => some ⟨.pwrStatus, 0, 0⟩
  | 0x80_0010 => some ⟨.pwrInput, 0, 0⟩
  | 0x80_0018 => some ⟨.pwrThermal, 0, 0⟩
  | 0x80_0020 => some ⟨.pwrTj, 0, 0⟩
  | 0x90_0000 => some ⟨.bootStatus, 0, 0⟩
  | x =>
    if let some n := arrAt x 0x10_1000 8 1024 then some ⟨.regspGrpMember, n / 64, n % 64⟩
    else if let some p := arrAt x 0x20_0100 8 64 then some ⟨.ximPrecState, p, 0⟩
    else if let some f := arrAt x 0x30_1000 8 512 then some ⟨.fwFuncState, f, 0⟩
    else if let some f := arrAt x 0x40_1000 8 512 then some ⟨.invFuncState, f, 0⟩
    else if let some n := arrAt x 0x50_0000 8 64 then
      if wmSlotOk wmDevice (n / 32) (n % 32) then some ⟨.wmCnt, wmDevice, n⟩ else none
    else if let some b := arrAt x 0x50_8000 8 2 then some ⟨.wmChain, wmDevice, b⟩
    else none

/-- The register at a unicast offset `x` of the register space (a multiple of 8), as requester `rq` sees it; none
where the offset is undefined (R52, R64). -/
def regAt (rq x : Nat) : Option Reg :=
  if x < 0x1000_0000 then deviceRegAt rq x
  else if x < 0x5000_0000 then quarterRegAt (x / 0x1000_0000 - 1) (x % 0x1000_0000)
  else none

/-- Where a register lies: its offset from the start of the register space. -/
def Reg.offset (r : Reg) : Nat :=
  match r.name with
  | .regspStrayCount => 0x10_0000
  | .regspStrayLast => 0x10_0008
  | .regspBcastLast => 0x10_0010
  | .regspBcastDiff => 0x10_0018
  | .regspGrpMember => 0x10_1000 + r.i * 0x200 + r.j * 8
  | .conserveCtrl => 0x10_0020
  | .conserveStatus => 0x10_0028
  | .conserveWhere => 0x10_0030
  | .ximInforce => 0x20_0000
  | .ximLoadAddr => 0x20_0008
  | .ximLoadCtrl => 0x20_0010
  | .ximLoadStatus => 0x20_0018
  | .ximQuiesceLimit => 0x20_0020
  | .ximPrecState => 0x20_0100 + r.i * 8
  | .stallInfo => stallBase r.i
  | .stallCtrl => stallBase r.i + 0x8
  | .stallRingBase => stallBase r.i + 0x10
  | .stallRingTail => stallBase r.i + 0x18
  | .stallRingHead => stallBase r.i + 0x20
  | .stallState => stallBase r.i + 0x28
  | .stallErr => stallBase r.i + 0x30
  | .cashboxNonceId => stallBase r.i + 0x38
  | .cashboxCheck => stallBase r.i + 0x40
  | .streetRoute => qBase r.i + 0xC30_0000 + r.j * 8
  | .blvdState => qBase r.i + 0xC80_0000 + r.j * 8
  | .whEccStatus => qBase (r.i / 3) + 0xC50_0000 + r.i % 3 * 0x10_0000
  | .whCtrl => qBase (r.i / 3) + 0xC50_0000 + r.i % 3 * 0x10_0000 + 8
  | .surveyorCtxBase => qBase r.i + 0xC00_0000
  | .surveyorInval => qBase r.i + 0xC00_0008
  | .surveyorInvalDone => qBase r.i + 0xC00_0010
  | .surveyorFaultRing => qBase r.i + 0xC00_0018
  | .surveyorFaultResolve => qBase r.i + 0xC00_0020
  | .porterChCtrl => porterBase r.i
  | .porterChCfg => porterBase r.i + 0x08
  | .porterChHead => porterBase r.i + 0x10
  | .porterChDoorbell => porterBase r.i + 0x18
  | .porterChState => porterBase r.i + 0x20
  | .porterChCur => porterBase r.i + 0x28
  | .porterChLast => porterBase r.i + 0x30
  | .porterChFailAddr => porterBase r.i + 0x38
  | .porterChRemain => porterBase r.i + 0x40
  | .porterChDbCount => porterBase r.i + 0x48
  | .porterChAct => porterBase r.i + 0x100 + r.j * 8
  | .porterChShd => porterBase r.i + 0x140 + r.j * 8
  | .porterQIrq => qBase r.i + 0xB40_0000
  | .bellCntValue => qBase r.i + 0xC10_0000 + r.j * 0x20
  | .bellCntOp => qBase r.i + 0xC10_0008 + r.j * 0x20
  | .bellCntCfg => qBase r.i + 0xC10_0010 + r.j * 0x20
  | .bellCntStatus => qBase r.i + 0xC10_0018 + r.j * 0x20
  | .bellMbExpect => qBase r.i + 0xC12_0000 + r.j * 0x20
  | .bellMbArrived => qBase r.i + 0xC12_0008 + r.j * 0x20
  | .bellMbCtrl => qBase r.i + 0xC12_0010 + r.j * 0x20
  | .bellMbStatus => qBase r.i + 0xC12_0018 + r.j * 0x20
  | .bellDgExpect => qBase r.i + 0xC12_1000 + r.j * 0x20
  | .bellDgArrived => qBase r.i + 0xC12_1008 + r.j * 0x20
  | .bellDgCtrl => qBase r.i + 0xC12_1010 + r.j * 0x20
  | .bellDgStatus => qBase r.i + 0xC12_1018 + r.j * 0x20
  | .bellSync => qBase r.i + 0xC12_4000 + r.j * 8
  | .bellSyncErr => qBase r.i + 0xC13_0020
  | .bellSatLast => qBase r.i + 0xC13_0000
  | .bellFaultLast => qBase r.i + 0xC13_0008
  | .bellSnapAddr => qBase r.i + 0xC13_0010
  | .bellSnapCtrl => qBase r.i + 0xC13_0018
  | .alleyEn => qBase r.i + 0xC20_0000 + r.j * 0x10
  | .alleyState => qBase r.i + 0xC20_0008 + r.j * 0x10
  | .alleyRaise => qBase r.i + 0xC20_0100
  | .cwGrpCtrl => qBase r.i + 0xC94_0000
  | .cwGrpStatus => qBase r.i + 0xC94_0008
  | .cwGrpRpAsid => qBase r.i + 0xC94_0010
  | .cwGrpBellBase => qBase r.i + 0xC94_0018
  | .cwRpCfgAddr => qBase r.i + 0xC94_0020
  | .cwRpCfgData => qBase r.i + 0xC94_0028
  | .cwLinkCtrl => qBase (r.i / 4) + 0xC94_0100 + r.i % 4 * 0x40
  | .cwLinkStatus => qBase (r.i / 4) + 0xC94_0108 + r.i % 4 * 0x40
  | .cwLinkErr => qBase (r.i / 4) + 0xC94_0110 + r.i % 4 * 0x40
  | .ethPortCfg => qBase r.i + 0xC90_0000
  | .ethSubCtrl => qBase r.i + 0xC90_0100 + r.j * 0x40
  | .ethSubStatus => qBase r.i + 0xC90_0108 + r.j * 0x40
  | .ethTsNow => qBase r.i + 0xC90_0110 + r.j * 0x40
  | .ethTsAdj => qBase r.i + 0xC90_0118 + r.j * 0x40
  | .ghSteer => stallBase (stallId r.i 7 0) + 0x1000 + r.j * 8
  | .ghCarterPort => stallBase (stallId r.i 7 0) + 0x1800
  | .ghMissRate => stallBase (stallId 0 7 0) + 0x2000 + r.i * 8
  | .ghStage => stallBase (stallId r.i 7 0) + 0x3000 + r.j * 8
  | .ghOp => stallBase (stallId r.i 7 0) + 0x3040
  | .tbPortCfg => stallBase (stallId r.i 8 0) + 0x100
  | .tbStage => stallBase (stallId r.i 8 0) + 0x200 + r.j * 8
  | .tbOp => stallBase (stallId r.i 8 0) + 0x280
  | .carterCtrl => stallBase (stallId r.i 9 0) + 0x8
  | .carterStage => stallBase (stallId r.i 9 0) + 0x100 + r.j * 8
  | .carterOp => stallBase (stallId r.i 9 0) + 0x200
  | .carterDb => stallBase (stallId r.i 9 0) + 0x208
  | .carterLocal => stallBase (stallId r.i 9 0) + 0x400 + r.j / 2 * 0x18 + r.j % 2 * 8
  | .carterLocalCtl => stallBase (stallId r.i 9 0) + 0x410 + r.j * 0x18
  | .carterErr => stallBase (stallId r.i 9 0) + 0x30
  | .ledgerCtrl => stallBase (stallId r.i 10 0) + 0x8
  | .ledgerStage => stallBase (stallId r.i 10 0) + 0x100 + r.j * 8
  | .ledgerOp => stallBase (stallId r.i 10 0) + 0x200
  | .ledgerErr => stallBase (stallId r.i 10 0) + 0x30
  | .fwState => 0x30_0000
  | .fwFuncState => 0x30_1000 + r.i * 8
  | .invFuncState => 0x40_1000 + r.i * 8
  | .wmCnt => if r.i = wmDevice then 0x50_0000 + r.j * 8 else qBase r.i + 0xCD0_0000 + r.j * 8
  | .wmChain => if r.i = wmDevice then 0x50_8000 + r.j * 8 else qBase r.i + 0xCD0_8000 + r.j * 8
  | .wmArm => qBase r.i + 0xCD0_8200 + r.j * 8
  | .wmSampleRing => qBase r.i + 0xCD0_8400
  | .wmSampleIdx => qBase r.i + 0xCD0_8408
  | .wmSampleCtr => qBase r.i + 0xCD0_8410
  | .errRingBase => 0x60_0000
  | .errRingIdx => 0x60_0008
  | .errSummary => 0x60_0010
  | .errFenceCtrl => 0x60_0018
  | .errFenceStatus => 0x60_0020
  | .errInjCtrl => 0x60_0040
  | .errInjAddr => 0x60_0048
  | .errInjStatus => 0x60_0050
  | .secState => 0x70_0000
  | .secPresence => 0x70_0008
  | .secSvn => 0x70_0010
  | .secSign => 0x70_0018
  | .secDeviceId => 0x70_0020
  | .pwrCtrl => 0x80_0000
  | .pwrStatus => 0x80_0008
  | .pwrInput => 0x80_0010
  | .pwrThermal => 0x80_0018
  | .pwrTj => 0x80_0020
  | .bootStatus => 0x90_0000

end Sys2Proof.Machine
end

