-- ==== Sys2Proof/Machine/State.lean ====
section
/-!
DEFINITION. The state of the block: every register (one sparse table over the register space) and every piece of state
the spec gives a unit beyond its registers, as plain data; the queue of waiting commands; and the state after reset.
-/
namespace Sys2Proof.Machine

/-- Nothing in this block raises a fault: every command the spec describes has an effect. -/
inductive Fault where
  /-- Never raised. Kept because the interface needs a type of faults; safe. -/
  | none
  deriving DecidableEq, Repr

/-- Why a command has no meaning. -/
inductive Refusal where
  /-- The command of this mnemonic has no meaning yet; safe. -/
  | notModelled (mnemonic : String)
  deriving DecidableEq, Repr

/-! ### Errors (chapter "Errors, containment and injection") -/

/-- An error record (Table 24.5). -/
structure ErrRec where
  seq : Nat
  cls : Nat
  detector : Nat
  precinct : Nat
  injected : Bool
  lostBefore : Bool
  unit : Nat
  detail : Nat
  addr : Nat
  asid : Nat
  deriving DecidableEq, Repr

/-- The armed injection (R561). -/
structure Injection where
  sticky : Bool
  detector : Nat
  unit : Nat
  syndrome : Nat
  addr : Nat
  deriving DecidableEq, Repr

/-- The Watch post's error reporting beyond its registers. -/
structure ErrSt where
  /-- Number of the next record (from 0 at cold boot). -/
  seq : Nat := 0
  /-- A record has been dropped since the last one written (R558). -/
  lost : Bool := false
  /-- The flash log of error records, newest first. -/
  log : List ErrRec := []
  /-- The armed injection. -/
  inj : Option Injection := none
  /-- Units whose register timeout has been recorded (R549). -/
  timedOut : List Nat := []
  /-- Fences of each stall since cold boot (R553). -/
  fenceCount : Tab Nat := []
  /-- Warehouses fenced because their stack failed (R257). -/
  whFenced : List Nat := []
  /-- Base dies cut off from the others (R35). -/
  cutOff : List Nat := []
  /-- A class 5 error holds the device (R556). -/
  held : Bool := false
  deriving DecidableEq, Repr

/-! ### Memory homes -/

/-- What a memory home holds beside the data: wrong bytes of Square lines, wrong symbols counts per die, poison. -/
structure HomeSt where
  /-- Device memory: Warehouses and Squares at their physical addresses; an unlisted byte reads 0. -/
  mem : Tab Byte := []
  /-- Lines (address / 128) marked poisoned (R550). -/
  poison : Tab Unit := []
  /-- Wrong byte positions (0–127) of a Square line, rising; nothing listed where all are right (R245). -/
  wrong : Tab (List Nat) := []
  /-- Wrong symbols stored in a Warehouse line: (codeword, die), with repetition (R256). -/
  wrongSym : Tab (List (Nat × Nat)) := []
  /-- Corrections per die, keyed by Warehouse and die (R257). -/
  dieCount : Tab Nat := []
  /-- A natural error has counted for a die since the counters were last cleared; keyed by Warehouse and die (R562). -/
  dieNat : Tab Unit := []
  /-- Lines that hold injected wrong bytes (R560). -/
  injLines : Tab Unit := []
  /-- Lost dies in the flash log, by Warehouse (R257). -/
  lostLog : Tab Nat := []
  /-- Corrected errors per 4 KiB page within one scrub pass (R259), keyed by page number. -/
  pageCount : Tab Nat := []
  /-- Next line of the patrol scrub, per Warehouse (R258). -/
  scrubAt : Tab Nat := []
  /-- The retirement lists in flash: physical pages per Warehouse (R259, R557). -/
  retired : Tab (List Nat) := []
  /-- Buffers of each Square's pool in use, and by whom (R246). -/
  poolUsed : Tab (List Nat) := []
  /-- Requesters waiting for a buffer of the pool, in order. -/
  poolWait : Tab (List Nat) := []
  deriving DecidableEq, Repr

/-! ### The Surveyor -/

/-- An open or unresolved fault record (Table 9.5). -/
structure FaultRec where
  page : Nat
  asid : Nat
  kind : Nat
  requester : Nat
  seq : Nat
  pa : Nat
  /-- The record still joins accesses (R267); false once its accesses have resumed or failed. -/
  isOpen : Bool
  /-- Accesses held on the record, in issue order. -/
  joined : List VAccess
  deriving DecidableEq, Repr

/-- What each Surveyor holds beyond its registers. -/
structure SurvSt where
  /-- Cached valid entries (R266), keyed by ASID, level and the virtual address bits that select the entry; the context
  entry of an ASID stands at level 4. -/
  tlb : Tab Nat := []
  /-- Cached ATS translations, keyed by ASID and virtual page: host page address and (read, write) granted (R264). -/
  ats : Tab (Nat × Bool × Bool) := []
  /-- ATS translations asked for, keyed by ASID and virtual page: the host page, the function, the waiting accesses. -/
  atsWait : Tab (List VAccess) := []
  /-- Pages for which a PRI request is out. -/
  pri : Tab Unit := []
  /-- Records not yet resolved, keyed by FAULT_ID. -/
  recs : Tab FaultRec := []
  /-- Accesses waiting for a free FAULT_ID or for a ring (R269). -/
  waiting : List VAccess := []
  /-- Accesses that a FAIL or a timeout has completed with ACCESS_FAULT, until their requester takes the answer. -/
  failed : List VAccess := []
  /-- Number of the next record. -/
  seq : Nat := 0
  /-- Records written to the fault ring. -/
  head : Nat := 0
  /-- An invalidation in progress: (scope, asid, virtual page). -/
  inval : List (Nat × Nat × Nat) := []
  deriving DecidableEq, Repr

/-! ### Streets and Boulevards -/

/-- A flit of a Street route (R248). -/
structure Flit where
  data : Bytes
  last : Bool
  poison : Bool
  deriving DecidableEq, Repr

/-- The Street fabric of the device, keyed by stall identifier and port, or by Quarter and route entry. -/
structure StreetSt where
  /-- Flits a stall has ready to send on an output port, oldest first. -/
  outq : Tab (List Flit) := []
  /-- Flits in the buffers of an input port, oldest first (at most 32, R249). -/
  inq : Tab (List Flit) := []
  /-- Flits the receiving stall has taken from an input port, oldest first. -/
  taken : Tab (List Flit) := []
  /-- Credits of the sender of a route; 32 where nothing is listed (R249). -/
  credits : Tab Nat := []
  deriving DecidableEq, Repr

/-- A transfer of one direction of a Boulevard (R253): its sequence number and the access it carries. -/
structure Transfer where
  seq : Nat
  access : HomeAccess
  deriving DecidableEq, Repr

/-- One direction of a Boulevard, keyed by sending and receiving Quarter. -/
structure BlvdDir where
  /-- Sequence number of the next transfer. -/
  next : Nat := 0
  /-- Transfers not acknowledged, oldest first. -/
  unacked : List Transfer := []
  /-- Sequence numbers below this one have been applied at the receiver. -/
  applied : Nat := 0
  /-- Consecutive failed replays of the oldest transfer. -/
  fails : Nat := 0
  deriving DecidableEq, Repr

/-! ### Bells -/

/-- One waiter entry (R306). -/
structure Waiter where
  src : WaitSrc
  amount : Nat
  /-- The waiter has reported its hang (R315). -/
  hung : Bool := false
  deriving DecidableEq, Repr

/-- An operation on its way to a Bell unit. A counter is named by q × 4096 + n; a group by its mask slot 64 q + m, or
256 + its device group number. `src` is the SOURCE code of BELL_SAT_LAST, `rq` the requester code of a stray write. -/
inductive BellOp where
  | signal (k n src : Nat)
  | wait (k : Nat) (w : Waiter)
  | take (k n src : Nat)
  | debit (k n src : Nat)
  | set (k v src : Nat)
  | wakeAll (k : Nat)
  /-- An arrival of a participant; `entry` is the sync entry 256 q + e it comes from, or 1024 for none. -/
  | arrive (g p entry rq : Nat)
  /-- The head waiters of a counter are looked at again. -/
  | heads (k : Nat)
  deriving DecidableEq, Repr

/-- What the Bell units hold beyond their registers, keyed by counter reference q × 4096 + n. -/
structure BellSt where
  /-- The queue of waiters of a counter, in order of arrival (R302). -/
  queue : Tab (List Waiter) := []
  /-- Waits that found no waiter entry free, in order: counter and waiter (R306). -/
  held : List (Nat × Waiter) := []
  /-- Waits that have been met and whose sources have not yet gone on. -/
  met : List WaitSrc := []
  /-- The books of a counter since they last restarted: amounts signalled and consumed (R314). -/
  books : Tab (Nat × Nat) := []
  /-- Sync entries that have arrived at a group and wait for its release, keyed by group; the participant and
  the entry (1024 = none, an arrival from outside the sync entries). -/
  arrivals : Tab (List (Nat × Nat)) := []
  /-- Early arrivals of a group, as above (R308). -/
  early : Tab (List (Nat × Nat)) := []
  /-- Groups whose present generation has reported its hang. -/
  hungGroups : Tab Unit := []
  /-- The snapshot being taken per Quarter: cause and hang kind and index (R316). -/
  snap : Tab (Nat × Nat × Nat) := []
  /-- Operations held while a snapshot of their unit is being copied, in order of arrival (R316). -/
  deferred : List BellOp := []
  deriving DecidableEq, Repr

/-! ### Stalls with a task ring -/

/-- How far a fetched task has come. -/
inductive TaskPhase where
  /-- Fetched; its wait is not yet met. -/
  | waiting
  /-- Its cell adds are on their way (R204). -/
  | adding
  /-- It has run: its outputs are written and its status is known. -/
  | done
  deriving DecidableEq, Repr

/-- A fetched task (R187, R188). -/
structure Task where
  /-- Ring index of its descriptor. -/
  index : Nat
  desc : Bytes
  phase : TaskPhase := .waiting
  status : Nat := 0
  nan : Bool := false
  overflow : Bool := false
  /-- Status of the first add or piece that failed, or 0 (R205, R329). -/
  addFail : Nat := 0
  deriving DecidableEq, Repr

/-- A scatter-add or TALLY_ADD on its way to a Tally cell's home (R135). -/
structure CellAdd where
  /-- Requesting stall identifier. -/
  req : Nat
  asid : Nat
  /-- Virtual address of the cell. -/
  va : Nat
  /-- The value to add: the bits of its format, and the scale code of an MX element. -/
  fmt : Nat
  bits : Nat
  scale : Nat
  /-- The value comes from poisoned data. -/
  poison : Bool
  deriving DecidableEq, Repr

/-- A piece that a Tally stall has taken for a fetched task, named by its ring index (R329). The stall's two banks hold the
sums of the pieces of its two tasks; the model keeps the pieces, whose order changes no sum (R117). -/
structure HeldPiece where
  stall : Nat
  task : Nat
  data : Bytes
  poison : Bool
  deriving DecidableEq, Repr

/-- What the ring stalls hold beyond their registers. -/
structure StallSt where
  /-- Fetched tasks, oldest first, keyed by stall identifier. -/
  tasks : Tab (List Task) := []
  /-- Cell adds on their way. -/
  adds : List CellAdd := []
  /-- Pieces taken by Tally stalls. -/
  pieces : List HeldPiece := []
  deriving DecidableEq, Repr

/-! ### Porter channels -/

/-- How far a burst in flight has come. -/
inductive BurstPhase where
  /-- A side waits for the Surveyor. -/
  | translate
  /-- The source is being read. -/
  | read
  /-- The bytes wait for free tags of the destination's link. -/
  | write
  /-- The writes are sent and wait for their acknowledgements. -/
  | acks
  deriving DecidableEq, Repr

/-- A burst in flight (R275). -/
structure Burst where
  id : Nat
  phase : BurstPhase := .translate
  /-- Virtual addresses, address spaces and length. -/
  src : Nat
  dst : Nat
  srcAsid : Nat := 0
  dstAsid : Nat := 0
  len : Nat
  /-- Translations of the two sides: TGT, address and Causeway link. -/
  srcTgt : Nat := 0
  srcPa : Nat := 0
  srcLink : Nat := 0
  dstTgt : Nat := 0
  dstPa : Nat := 0
  dstLink : Nat := 0
  /-- The flush read of a barrier (R285). -/
  isFlush : Bool := false
  /-- Bytes read so far, and whether they are poisoned. -/
  data : Bytes := []
  poison : Bool := false
  /-- Causeway tags whose ACK is outstanding. -/
  tags : List Nat := []
  deriving DecidableEq, Repr

/-- What a Porter channel holds beyond its registers. -/
structure Chan where
  /-- Bytes of the current descriptor already cut into bursts. -/
  issued : Nat := 0
  /-- Bursts in flight, oldest first. -/
  flight : List Burst := []
  /-- Number of the next burst. -/
  nextId : Nat := 0
  /-- First failure observed: code, side and address (R288). -/
  fail : Option (Nat × Bool × Nat) := none
  /-- END was set when the link word was last read (R293). -/
  endSeen : Bool := false
  /-- The current descriptor is loaded and not yet complete. -/
  busy : Bool := false
  /-- Skipped by its predicate (R283). -/
  skipped : Bool := false
  /-- Issue has been stopped by ABORT (R292). -/
  aborted : Bool := false
  /-- The flush read of a barrier has returned (R285). -/
  flushed : Bool := false
  /-- The next thing to read: a whole descriptor, or the link word of the one at CUR again. -/
  reread : Bool := false
  /-- The channel waits to fetch the descriptor at this address (chain mode). -/
  fetchAt : Option Nat := none
  /-- The prefetched descriptor: its address, and 0 or the HALT_CODE its fetch ended with (R293). -/
  pre : Option (Nat × Nat) := none
  deriving DecidableEq, Repr

/-- The Porter engines: channels, and where each level's round stands (R276). -/
structure PorterSt where
  chans : Tab Chan := []
  /-- Per Quarter and level: the channel last granted and the grants left to it. -/
  round : Tab (Nat × Nat) := []
  /-- Per Quarter and level: WEIGHTs latched at the start of the round, keyed by Quarter, level and channel (R277). -/
  weights : Tab Nat := []
  /-- Instances' PORTER_WEIGHT per channel owner. -/
  owner : Tab Nat := []
  deriving DecidableEq, Repr

/-! ### Causeway links -/

/-- One Causeway link beyond its registers. -/
structure CwLink where
  /-- Lanes of the trained link; 0 when it is not trained. -/
  width : Nat := 0
  /-- Messages delivered in order and not yet applied (R339, R342). -/
  rxq : List CwMsg := []
  /-- Sequence number of the next flit to be delivered. -/
  nextSeq : Nat := 0
  /-- Consecutive failures of the present flit's CRC: the first, and its replays. -/
  fails : Nat := 0
  /-- Outstanding tags: channel and burst. -/
  tags : Tab (Nat × Nat) := []
  /-- Tags quarantined after expiry (R341). -/
  expired : Tab Unit := []
  deriving DecidableEq, Repr

/-! ### The configuration in force (chapter "The Ximinar structure image") -/

/-- A PRECINCT_MAP record (Table 3.3). -/
structure Precinct where
  id : Nat
  /-- STALL_MASK, 48 entries at index q × 12 + k. -/
  stalls : List Nat
  porter : Nat
  /-- HAWKER_SHARE, 16 entries. -/
  share : List Nat
  /-- BELL_RANGE per Quarter: BASE and COUNT. -/
  bells : List (Nat × Nat)
  deriving DecidableEq, Repr

/-- A carve extent (Table 3.4). -/
structure Extent where
  prec : Nat
  unit : Nat
  base : Nat
  size : Nat
  deriving DecidableEq, Repr

/-- A STREET_BORDER record (Table 3.5). -/
structure Border where
  srcStall : Nat
  srcPort : Nat
  dstStall : Nat
  dstPort : Nat
  deriving DecidableEq, Repr

/-- The SYNC_MAP record (Table 3.6). -/
structure SyncMap where
  /-- 64 owners, at index 16 q + l. -/
  alley : List Nat := []
  /-- 256 owners, at index 64 q + m. -/
  mask : List Nat := []
  /-- 256 owners. -/
  device : List Nat := []
  /-- Per Quarter, the 4096-bit PRIV_MASK. -/
  priv : List Nat := []
  deriving DecidableEq, Repr

/-- A TOLL_TEMPLATE record (Table 3.7). -/
structure Template where
  id : Nat
  prec : Nat
  port : Nat
  cgFirst : Nat
  cgCount : Nat
  aggMax : Nat
  queueMax : Nat
  cir : Nat
  pir : Nat
  cbs : Nat
  pbs : Nat
  weight : Nat
  deriving DecidableEq, Repr

/-- A POOL_LIMITS record (Table 3.8). -/
structure Pool where
  prec : Nat
  flags : Nat
  vf0 : Nat
  vf1 : Nat
  carter : Nat
  ledger : Nat
  cashbox : Nat
  flows : Nat
  deriving DecidableEq, Repr

/-- The sections of the configuration in force. -/
structure XimConf where
  precincts : List Precinct := []
  square : List Extent := []
  warehouse : List Extent := []
  borders : List Border := []
  sync : SyncMap := {}
  templates : List Template := []
  pools : List Pool := []
  testPriv : Bool := false
  /-- COUNTER_DEFAULTS: precinct and CLASS_MASK. -/
  counters : List (Nat × Nat) := []
  deriving DecidableEq, Repr

/-- A load in progress (Table 3.10, steps 4 and 5): target, image address and length, and whether an event of R95 has
ended it. -/
structure XimLoad where
  target : Nat
  addr : Nat
  length : Nat
  /-- The function whose message asked for it. -/
  by_ : Option Nat := none
  aborted : Bool := false
  deriving DecidableEq, Repr

/-- The Ximinar structure beyond its registers. -/
structure XimSt where
  conf : XimConf := {}
  load : Option XimLoad := none
  /-- Precincts being quiesced, each with the function whose message asked for it. -/
  quiesce : List (Nat × Option Nat) := []
  /-- Body of the full image in force, and of every partial image applied since cold boot, newest first (Table 25.4). -/
  body : Bytes := []
  partials : List Bytes := []
  deriving DecidableEq, Repr

/-! ### Firmware, security, boot, power and the sideband -/

/-- What a live activation has reached (Table 21.4): the function whose message asked for it, or PLDM, the slot, the handover
record's address once written, and whether a fence has ended it (R516). -/
structure FwAct where
  by_ : Option Nat
  pldm : Bool := false
  slot : Nat
  record : Nat := 0
  written : Bool := false
  aborted : Bool := false
  deriving DecidableEq, Repr

/-- A loaded service module (R511). -/
structure Module where
  id : Nat
  pf : Nat
  asid : Nat
  prec : Nat
  kapi : Nat
  services : Nat
  entry : Nat
  code : Bytes
  data : Bytes
  body : Bytes
  deriving DecidableEq, Repr

/-- The kernel's own state: the activation in progress, modules in load order, the number of the next module, and the shares of the present
period by core and precinct, with the periods counted (R508). -/
structure FwSt where
  act : Option FwAct := none
  modules : List Module := []
  nextModule : Nat := 1
  shares : Tab Nat := []
  periods : Nat := 0
  deriving DecidableEq, Repr

/-- Flash (Table 27.4). What nothing has written since shipment is not listed, and holds what Config gives. -/
structure Flash where
  current : Option Bytes := none
  staged : Option Bytes := none
  /-- RESERVED (R572), BOOT_EPOCH (R415), the committed slot (R513). -/
  reserved : Nat := 0
  bootEpoch : Nat := 0
  committed : Nat := 0
  fw : Tab Bytes := []
  image : Tab Bytes := []
  option_ : Option Bytes := none
  /-- Seal events and boot records logged. -/
  sealLog : Nat := 0
  bootLog : List Nat := []
  deriving DecidableEq, Repr

/-- Fuses (Table 25.1): the anti-rollback counters, the owner slots programmed after slot 0, and the two latches. The device secret,
the identifier, the prefix and slot 0 are Config's; DECOMMISSION overwrites the secret. -/
structure Fuses where
  svnImage : Nat := 0
  svnFw : Nat := 0
  svnModule : Nat := 0
  slots : List Bytes := []
  sealOpened : Bool := false
  decommissioned : Bool := false
  deriving DecidableEq, Repr

/-- An SPDM session: over DOE of PF0 (0) or PF1 (1), or over MCTP (2); its number, its application secret, and whether FINISH has
come. -/
structure SpdmSession where
  via : Nat
  id : Nat
  secret : Bytes
  up : Bool := false
  deriving DecidableEq, Repr

/-- A pending trust command (R577): CMD, ARG0, the owner record, and the sender (none: MCTP). -/
structure TrustCmd where
  cmd : Nat
  arg : Nat
  record : Bytes
  by_ : Option Nat
  deriving DecidableEq, Repr

/-- A signing request that waits for the next tree (R573): where it came from, and the request. -/
structure SignReq where
  via : Nat
  req : SpdmReq
  deriving DecidableEq, Repr

/-- The root of trust. -/
structure SecSt where
  flash : Flash := {}
  fuses : Fuses := {}
  pending : Option TrustCmd := none
  /-- PRESENCE_N has been asserted inside the window and is being timed. -/
  holding : Bool := false
  /-- The next identity index (SEC_SIGN.NEXT, without its width). -/
  next : Nat := 0
  /-- Bottom-level trees built so far. -/
  built : Nat := 1
  waiting : List SignReq := []
  sessions : List SpdmSession := []
  deriving DecidableEq, Repr

/-- The boot beyond BOOT_STATUS: Quarters whose compute die is unpowered (R25), whether the other firmware slot has been tried (R602),
whether RESET_N holds the dies in reset (R605), and whether the eFuse is open (R584). -/
structure BootSt where
  off : Bool := false
  dark : List Nat := [0, 1, 2, 3]
  retried : Bool := false
  inReset : Bool := false
  deriving DecidableEq, Repr

/-- The operating point: the highest point the cap governor permits, and the 10 ms windows in a row below CAP_W − 100 W (R589). -/
structure PwrSt where
  cap : Nat := 2
  below : Nat := 0
  /-- A removal request held until an activation ends (R598). -/
  removeHeld : Bool := false
  deriving DecidableEq, Repr

/-- A PLDM update in progress (R612): the component and its bytes. -/
structure PldmUpdate where
  comp : Nat
  data : Bytes
  deriving DecidableEq, Repr

/-- The management sideband. -/
structure SideSt where
  eid : Nat := 0
  dynamic : Option Nat := none
  vendor : Bool := false
  /-- The component being updated, and those verified that wait for ActivateFirmware. -/
  update : Option PldmUpdate := none
  ready : List Nat := []
  deriving DecidableEq, Repr

/-! ### Inventory (chapter "Inventory: checkpoint and restore") -/

/-- A shard of a checkpoint (R522). -/
structure Shard where
  range : Nat
  off : Nat
  va : Nat
  len : Nat
  /-- It carries C marks and has not been copied. -/
  marked : Bool := true
  /-- Pages that were copied at the cut, by virtual address: those that lie in hosts and accelerators (R524). -/
  early : Tab Bytes := []
  /-- Its plaintext once copied, its digest, and the Quarter in whose staging area it has room. -/
  data : Option Bytes := none
  staged : Option Nat := none
  digest : Bytes := []
  /-- Its owner, and the place of its stored form: first block and bytes. -/
  owner : Option Nat := none
  lba : Nat := 0
  stored : Nat := 0
  durable : Bool := false
  deriving DecidableEq, Repr

/-- A checkpoint or restore in progress. -/
structure InvOp where
  /-- 1 STOPPING, 2 COPYING, 3 SEALING, 4 RESTORING; and whether the set has been marked (Table 22.1, step 5). -/
  phase : Nat := 1
  cut : Bool := false
  /-- Its sequence number on its communicator (R531). -/
  seq : Nat := 0
  func : Nat
  comm : Nat
  ctx : Nat
  vol : Nat
  step : Nat
  ckpt : Nat := 0
  restore : Bool := false
  policy : Nat := 0
  resultAddr : Nat := 0
  set : List (Nat × Nat)
  shards : List Shard := []
  /-- Restore: the first step tried and its failing entries, the step being tried, and this member's result. -/
  failing : Option (Nat × List Nat) := none
  trying : Nat := 0
  result : Option Nat := none
  deriving DecidableEq, Repr

/-- Inventory: the operations in progress, the next CKPT, sequence numbers by function and communicator, and staging bytes in use per
Quarter. -/
structure InvSt where
  ops : List InvOp := []
  next : Nat := 1
  seqs : Tab Nat := []
  staging : Tab Nat := []
  deriving DecidableEq, Repr

/-! ### Dockets (chapter "Dockets: the abstract work contract") -/

/-- A buffer declaration (Table 5.2). -/
structure DBuf where
  fmt : Nat
  cls : Nat
  rank : Nat
  blocked : Nat
  ready : Nat
  addr : Nat
  dims : List Nat
  bytes : Nat
  deriving DecidableEq, Repr

/-- A counter declaration (Table 5.3). -/
structure DCtr where
  init : Nat
  output : Bool
  ext : Bool
  conn : Nat
  deriving DecidableEq, Repr

/-- A predicate declaration (Table 5.4). -/
structure DPred where
  source : Nat
  cmp : Nat
  ref : Nat
  index : Nat
  value : Nat
  deriving DecidableEq, Repr

/-- An operation record with its parameters (Table 5.5). -/
structure DOp where
  opcode : Nat
  policy : Nat
  flags : Nat
  pred : Nat
  hint : Nat
  wait0 : Nat
  wait1 : Nat
  count0 : Nat
  count1 : Nat
  sig : Nat
  sigCount : Nat
  ins : List Nat
  outs : List Nat
  params : List Nat
  deriving DecidableEq, Repr

/-- A docket as firmware has read it (R137). -/
structure DocketP where
  version : Nat
  certified : Bool
  policy : Nat
  bufs : List DBuf
  ctrs : List DCtr
  preds : List DPred
  ops : List DOp
  cert : Bytes
  deriving DecidableEq, Repr

/-- How far an operation of a docket has come. -/
inductive OpPhase where
  | waiting | running | done | skipped
  deriving DecidableEq, Repr

/-- An outstanding docket. -/
structure Docket where
  func : Nat
  tag : Nat
  addr : Nat
  complAddr : Nat
  prog : DocketP
  phases : List OpPhase
  /-- Values of its counters. -/
  ctrs : List Nat
  /-- Contents of SCRATCH buffers written so far, and whether they are poisoned. -/
  scratch : Tab (Bytes × Bool) := []
  /-- Statuses, not ending, of failed operations: operation number and status (R157). -/
  fails : Tab Nat := []
  /-- The first ending status and the operation that raised it (R158). -/
  ending : Option (Nat × Nat) := none
  /-- Table 5.8 status of a docket that never ran. -/
  refused : Option Nat := none
  /-- NAN and OVERFLOW per buffer (R123). -/
  flags : Tab (Bool × Bool) := []
  fastUsed : Bool := false
  certOk : Bool := false
  /-- An uncorrected error was reported to the precinct during the run (R156). -/
  uncorrected : Bool := false
  /-- Stalls that firmware has placed each operation on, and the Bell counters it has mapped EXTERNAL counters onto. -/
  placed : Tab (List Nat) := []
  bound : Tab Nat := []
  /-- Parked at a step boundary (R154). -/
  parked : Bool := false
  /-- The completion record has been written and DOCKET_DONE is held for a lost driver (R519). -/
  held : Bool := false
  deriving DecidableEq, Repr

/-! ### Cashbox keys and contexts (chapter "Cashbox: cipher and digest") -/

/-- An entry of the key table (R412–R414). -/
structure KeyEnt where
  gen : Nat := 0
  used : Bool := false
  /-- The instance that created it. -/
  owner : Nat := 0
  algo : Nat := 0
  key : Bytes := []
  /-- KEY_NEXT. -/
  next : Nat := 0
  deriving DecidableEq, Repr

/-- The state area of a context: the nonce and MAC of the message in progress, or its SHA-256 state, and its byte counts. The
spec gives the area no layout. -/
structure MsgSt where
  nonce : Bytes := []
  mac : Nat := 0
  sha : List Nat := []
  aad : Nat := 0
  data : Nat := 0
  deriving DecidableEq, Repr

/-- A context record (Table 17.2). -/
structure CashCtx where
  gen : Nat := 0
  algo : Nat := 0
  /-- 0 FREE, 1 READY, 2 MID, 3 POISONED. -/
  state : Nat := 0
  prec : Nat := 0
  verified : Bool := false
  key : Nat := 0
  inst : Nat := 0
  unitLog2 : Nat := 0
  nonceNext : Nat := 0
  /-- Values left in its nonce block (R414). -/
  left : Nat := 0
  tweak : Nat := 0
  vNonce : Bytes := []
  vTag : Bytes := []
  vAad : Nat := 0
  vData : Nat := 0
  msg : MsgSt := {}
  /-- The stall in which it is active (R417). -/
  active : Option Nat := none
  deriving DecidableEq, Repr

/-- Keys by entry, contexts by record, and per instance the salt of its wrapping key and that key's counter. -/
structure CashSt where
  keys : Tab KeyEnt := []
  ctxs : Tab CashCtx := []
  wrap : Tab (Nat × Nat) := []
  deriving DecidableEq, Repr

/-! ### Ethernet, Gatehouses and Tollbooths -/

/-- A frame that a Gatehouse handles: the bytes from the destination address through the FCS, where and when it arrived, and
what parsing and policing found. -/
structure GhFrame where
  port : Nat
  sub : Nat
  data : Bytes
  ts : Nat
  hash : Nat := 0
  /-- 0 green, 1 yellow. -/
  colour : Nat := 0
  /-- 0 no L4 checksum, 1 good, 2 bad. -/
  l4 : Nat := 0
  deriving DecidableEq, Repr

/-- A flow entry (Table 14.4). -/
structure FlowEntry where
  keyType : Nat
  proto : Nat
  vlan : Nat
  key : Bytes
  action : Nat
  prec : Nat
  flags : Nat
  policer : Nat
  arg0 : Nat
  ctx : Nat
  deriving DecidableEq, Repr

/-- A policer (Table 14.7). -/
structure Policer where
  cir : Nat
  pir : Nat
  cbs : Nat
  pbs : Nat
  mode : Nat
  prec : Nat
  tc : Nat
  tp : Nat
  last : Nat
  deriving DecidableEq, Repr

/-- A receive queue (R373), or a transmit ring (R386). Indices count from 0 without wrapping; the doorbell gives the low bits. -/
structure Ring where
  func : Nat
  prec : Nat
  asid : Nat
  tx : Bool
  buf : Nat
  cpl : Nat
  log2 : Nat
  msix : Nat
  /-- The receive queue group, or the Tollbooth queue. -/
  target : Nat
  /-- Entries posted, entries taken, and completions written. -/
  prod : Nat := 0
  cons : Nat := 0
  done : Nat := 0
  /-- Transmit entries that have ended, by entry count: status and egress time. -/
  ended : Tab (Nat × Nat) := []
  deriving DecidableEq, Repr

/-- A frame for a Tollbooth queue: its bytes without the FCS. -/
structure TxFrame where
  data : Bytes
  de : Bool := false
  poison : Bool := false
  /-- The transmit ring and entry it comes from, and its TS_REQ. -/
  ring : Option (Nat × Nat) := none
  tsReq : Bool := false
  /-- The timestamp counter as its transmission began. -/
  ts : Nat := 0
  deriving DecidableEq, Repr

/-- A node of a Tollbooth's tree (Table 15.2). -/
structure TbNode where
  level : Nat
  prec : Nat
  weight : Nat
  parent : Nat
  cir : Nat
  pir : Nat
  cbs : Nat
  pbs : Nat
  qlimit : Nat
  delimit : Nat
  tc : Int
  tp : Int
  last : Nat
  s : Nat := 0
  f : Nat := 0
  frames : Nat := 0
  drops : Nat := 0
  /-- It has taken its start tag since it last became eligible (R382). -/
  awake : Bool := false
  deriving DecidableEq, Repr

/-- The Ethernet ports, Gatehouses and Tollbooths. -/
structure EthSt where
  /-- Frames steered to each target Gatehouse, oldest first. -/
  gh : Tab (List GhFrame) := []
  /-- Frames on their way to receive queues, in order: queue, Quarter of the Gatehouse, and frame. -/
  rx : List (Nat × Nat × GhFrame) := []
  /-- Frames handed to the firmware of a Quarter, with the reason of Table 14.6, since it last paused. -/
  missed : List (Nat × Nat × GhFrame) := []
  /-- The flow table: 8 slots a bucket. -/
  flows : Tab (List (Option FlowEntry)) := []
  policers : Tab Policer := []
  /-- Miss buckets by precinct, 64 for the device: tokens of 1/25000 packet spent, and the tick of the last refill. -/
  missUsed : Tab (Nat × Nat) := []
  /-- Remainders of the timestamp counters' corrections, by port and subport. -/
  tsRem : Tab Int := []
  /-- Receive queues and transmit rings by number. -/
  rings : Tab Ring := []
  /-- Nodes by port, level and index; virtual times by port, level and index (level 0 is the subports). -/
  nodes : Tab TbNode := []
  vtime : Tab Nat := []
  /-- Frames on their way to Tollbooth queues, and frames held by queues (by queue number). -/
  toTb : List (Nat × TxFrame) := []
  queues : Tab (List TxFrame) := []
  /-- The frame a subport is sending, by port and subport. -/
  wire : Tab TxFrame := []
  deriving DecidableEq, Repr

/-! ### Carter (chapter "Carter: remote memory transport") -/

/-- A packet that a sender keeps until it is acknowledged and, for a READ_REQ or a fetching ATOMIC, answered (R404). -/
structure TxPkt where
  psn : Nat
  msn : Nat
  /-- The packet from its base header to its payload, unsealed. -/
  bytes : Bytes
  /-- The path it was last sent on, and the path it was first sent on. -/
  path : Nat
  first : Nat
  /-- Sendings that count toward RETRY_LIMIT. -/
  sent : Nat := 1
  sacked : Bool := false
  deriving DecidableEq, Repr

/-- An order taken from the SQ and not yet completed. -/
structure COrder where
  /-- Its place in the SQ, counted without wrapping, and its 64 bytes. -/
  idx : Nat
  desc : Bytes
  /-- Its message number, if it sends a message. -/
  msn : Option Nat := none
  /-- Dormant: its trigger has not fired; and whether its wait has been delivered (R399). -/
  dormant : Bool := false
  waiting : Bool := false
  /-- Packets not yet sent: offset, payload and poison. -/
  todo : List (Nat × Bytes × Bool) := []
  /-- Bytes of a READ placed so far (offset and length of each range), or of an atomic result. -/
  placed : List (Nat × Nat) := []
  poisoned : Bool := false
  /-- Its status once it has completed, and the bytes moved. -/
  status : Option Nat := none
  moved : Nat := 0
  deriving DecidableEq, Repr

/-- A message arriving at a receiver (R400, R403). -/
structure RxMsg where
  op : Nat
  len : Nat
  /-- Bytes placed; for an atomic, a bell or a read request, whether it has been applied. -/
  placed : Nat := 0
  applied : Bool := false
  /-- It has completed. -/
  finished : Bool := false
  flagged : Bool := false
  /-- It carries REDUCE pieces, and completes when Tally has taken them (R408). -/
  reduce : Bool := false
  /-- The result of a fetching atomic, and whether it is poisoned. -/
  result : Option (Bytes × Bool) := none
  poison : Bool := false
  /-- Held packets: FLAGGED ones, bells, and SENDs whose number is not yet known. -/
  held : List Bytes := []
  /-- The receive entry of a SEND: its number, its address and its length. -/
  entry : Option (Nat × Nat × Nat) := none
  deriving DecidableEq, Repr

/-- A completion that waits for a CQ entry: its index, length and status, receive or order, and an order's SIGNAL. -/
structure CComp where
  idx : Nat
  len : Nat
  status : Nat
  recv : Bool
  sig : Nat := 0xFFFF
  amount : Nat := 0
  deriving DecidableEq, Repr

/-- A connection context (Table 16.12). Its STATE_AREA has no layout in the spec. -/
structure CarterCtx where
  /-- Bytes 0x00–0x7F of the record as staged. -/
  cfg : Bytes := []
  /-- 0 FREE, 1 CONFIGURED, 2 CONNECTING, 3 READY, 4 ERROR. -/
  state : Nat := 0
  epoch : Nat := 0
  errCode : Nat := 0
  /-- The Quarter of its serving stall. -/
  stall : Nat := 0
  /-- The function whose instance made it. -/
  func : Option Nat := none
  /-- The peer's epoch, initial PSN and the agreed version, once its HELLO has come; its HELLO_ACK has come. -/
  peer : Option (Nat × Nat × Nat) := none
  acked : Bool := false
  initPsn : Nat := 0
  sqProd : Nat := 0
  sqCons : Nat := 0
  rqProd : Nat := 0
  cqProd : Nat := 0
  cqCons : Nat := 0
  /-- Ranges of the SQ that firmware posted. -/
  fwOrders : List (Nat × Nat) := []
  nextPsn : Nat := 0
  nextMsn : Nat := 0
  orders : List COrder := []
  unacked : List TxPkt := []
  pathDown : List Nat := []
  /-- Consecutive RTO retransmissions of packets first sent on a path. -/
  pathFails : Tab Nat := []
  /-- A RETRY_AFTER is in force from this PSN, and whether the resending counts toward RETRY_LIMIT. -/
  stalled : Option (Nat × Bool) := none
  /-- Receiver: the next expected PSN, PSNs received beyond it, messages by MSN, the oldest uncompleted MSN, results of
  completed fetching atomics. -/
  cum : Nat := 0
  got : List Nat := []
  msgs : Tab RxMsg := []
  msnDone : Nat := 0
  results : Tab (Bytes × Bool) := []
  rxDone : Nat := 0
  /-- SENDs among the completed messages. -/
  sends : Nat := 0
  /-- Packets received since the last ACK, and CE marks since then. -/
  sinceAck : Nat := 0
  ce : Nat := 0
  /-- Completions waiting for the CQ, in order. -/
  comps : List CComp := []
  /-- Receive completions by entry: length and status, once known; the next to be given. -/
  rxComps : Tab (Nat × Nat) := []
  rxCompNext : Nat := 0
  /-- The flush of its orders and receive entries has been done since it entered ERROR. -/
  flushed : Bool := false
  /-- RoCEv2 receiver: opcode, target, key, length and offset of the message in progress, and the messages begun. -/
  roce : Option (Nat × Nat × Nat × Nat × Nat) := none
  roceMsgs : Nat := 0
  deriving DecidableEq, Repr

/-- A region record (Table 16.9). -/
structure Region where
  base : Nat := 0
  length : Nat := 0
  asid : Nat := 0
  access : Nat := 0
  gen : Nat := 0
  deriving DecidableEq, Repr

/-- The Carter stalls. -/
structure CarterSt where
  ctxs : Tab CarterCtx := []
  regions : Tab Region := []
  /-- Frames for each Carter stall, oldest first. -/
  rx : Tab (List Bytes) := []
  deriving DecidableEq, Repr

/-! ### The Ledger (chapter "Ledger: storage queues and volumes") -/

/-- A command that holds a tag (R434). -/
structure LCmd where
  /-- Its SQ index, counted without wrapping, its place in the order of fetches, and its 64 bytes. -/
  idx : Nat
  seq : Nat
  desc : Bytes
  /-- It has started; a write has sent its records. -/
  started : Bool := false
  /-- Bytes of a started write. -/
  data : Bytes := []
  /-- Records reported durable: replica and record. -/
  acks : List (Nat × Nat) := []
  /-- Status and RESULT, once it has ended. -/
  ended : Option (Nat × Nat) := none
  deriving DecidableEq, Repr

/-- A queue (Table 18.8). -/
structure LQueue where
  /-- 1 ACTIVE, 2 PAUSED, 3 FROZEN; a FREE queue is not listed. -/
  state : Nat := 1
  flags : Nat := 0
  version : Nat := 0x0100
  volume : Nat := 0
  asid : Nat := 0
  sqBase : Nat := 0
  cqBase : Nat := 0
  sqLog : Nat := 4
  cqLog : Nat := 4
  msix : Nat := 0
  dbCtr : Nat := 0xFFFF
  func : Nat := 0
  /-- The precinct, and the Quarter of the serving stall. -/
  prec : Nat := 0
  stall : Nat := 0
  sqHead : Nat := 0
  sqTail : Nat := 0
  cqTail : Nat := 0
  cqHead : Nat := 0
  cmds : List LCmd := []
  /-- IRQ_COALESCE as set (1 at creation), and completions counted since the last interrupt. -/
  coalesce : Nat := 1
  irqs : Nat := 0
  /-- A queue reset is under way, and the function whose message asked for it. -/
  resetting : Bool := false
  resetBy : Option Nat := none
  /-- Its Bell wait has been delivered. -/
  waiting : Bool := false
  deriving DecidableEq, Repr

/-- A replica of a volume: a remote block store. Its blocks are kept as the plaintext they stand for; one not listed reads 0. -/
structure Replica where
  up : Bool := true
  blocks : Tab Bytes := []
  deriving DecidableEq, Repr

/-- A volume. -/
structure Volume where
  owner : Nat
  blocks : Nat
  log2 : Nat
  minHealthy : Nat
  power : Nat := 0
  /-- 0 none, 1 sanitise, 2 format, with the regions done and to do; this is also its record in the flash journal (R446). -/
  op : Nat := 0
  regionsDone : Nat := 0
  regions : Nat := 0
  replicas : List Replica
  /-- Byte ranges that a failed write has left uncertain (R441). -/
  uncertain : List (Nat × Nat) := []
  /-- Its XTS key, which flash holds wrapped (R452). -/
  key : Bytes := []
  store : Nat := 0
  deriving DecidableEq, Repr

/-- The Ledger stalls. -/
structure LedgerSt where
  queues : Tab LQueue := []
  volumes : Tab Volume := []
  /-- Commands fetched so far, and volumes created so far. -/
  seq : Nat := 0
  created : Nat := 0
  deriving DecidableEq, Repr

/-! ### Functions, Kiosks and instances (chapter "Host endpoint ports and tenancy") -/

/-- What a doorbell slot is bound to (R462). -/
inductive Doorbell where
  | ledgerSq (q : Nat)
  | ledgerCq (q : Nat)
  | carterSq (c : Nat)
  | carterRq (c : Nat)
  | carterCq (c : Nat)
  | rxq (r : Nat)
  | txr (r : Nat)
  deriving DecidableEq, Repr

/-- A communicator (R324). -/
structure Comm where
  handle : Nat
  id : Nat
  size : Nat
  rank : Nat
  conns : List Nat
  deriving DecidableEq, Repr

/-- An instance: a function with its precinct, quotas, live resources and dockets. -/
structure Inst where
  prec : Nat
  asid : Nat
  whGib : Nat
  sqMib : Nat
  carterConn : Nat
  ledgerQ : Nat
  cashboxCtx : Nat
  counterMask : Nat
  /-- Live resources by ITEM (Table 19.9); an item not set is not listed. -/
  live : Tab Nat := []
  comms : List Comm := []
  dockets : List Docket := []
  /-- A checkpoint is bringing its dockets to a step boundary (R523). -/
  stopping : Bool := false
  deriving DecidableEq, Repr

/-- An MSI-X vector: message address, data and mask bit. -/
structure Msix where
  addr : Nat := 0
  data : Nat := 0
  masked : Bool := true
  deriving DecidableEq, Repr

/-- One PCI Express function. -/
structure Func where
  /-- H2D and D2H slots, 64 bytes each. -/
  h2d : Tab Bytes := []
  d2h : Tab Bytes := []
  h2dTail : Nat := 0
  h2dHead : Nat := 0
  d2hTail : Nat := 0
  d2hHead : Nat := 0
  /-- D2H messages waiting in the device, in order (R476). -/
  d2hWait : List Bytes := []
  beatDevice : Nat := 0
  beatHost : Nat := 0
  /-- HOST has been written nonzero in this session (R479). -/
  beatSeen : Bool := false
  stray : Nat := 0
  version : Nat := 0
  role : Bool := false
  isOpen : Bool := false
  aperture : Nat := 0
  /-- MSI-X table by vector, pending bits, and MSI-X Enable. -/
  msix : Tab Msix := []
  pba : List Nat := []
  msixEnable : Bool := false
  /-- Bound doorbell slots. -/
  slots : Tab Doorbell := []
  /-- Configuration space that software has written, by byte offset, over the read-only values of Table 19.1. -/
  cfg : Tab Byte := []
  bme : Bool := false
  /-- Power state: 0 D0, 1 D1, 3 D3hot, 4 D3cold (R467, R469). -/
  power : Nat := 0
  pmeEn : Bool := false
  pmeStatus : Bool := false
  /-- VF Enable and NumVFs (PFs only). -/
  vfEnable : Bool := false
  numVfs : Nat := 0
  /-- MSI-X messages held in D1 or D3hot. -/
  heldIrq : List Nat := []
  /-- The driver is lost (R519). -/
  driverLost : Bool := false
  inst : Option Inst := none
  deriving DecidableEq, Repr

/-- A host port: link state, tags (R456, R470, R471), PERST. -/
structure HostPort where
  linkUp : Bool := false
  width : Nat := 0
  rate : Nat := 0
  /-- Hq_PERST_N is asserted. -/
  perst : Bool := true
  /-- Hq_WAKE_N is asserted. -/
  wake : Bool := false
  /-- Tags of reads in flight: tag, channel and burst. -/
  tags : Tab (Nat × Nat) := []
  /-- Tags quarantined after expiry, each with the function that read (R471). -/
  expired : Tab Nat := []
  deriving DecidableEq, Repr

/-- The host endpoint. -/
structure HostSt where
  funcs : Tab Func := []
  ports : Tab HostPort := []
  deriving DecidableEq, Repr

/-! ### Hawker cores (chapter "The Hawker instruction set") -/

/-- One Hawker core: the registers of Tables 20.1 and 20.6, its caches and what it waits for. -/
structure Core where
  pc : Nat := 0
  /-- PSR.CWP, PSR.NFRAMES, PSR.IE and PSR.MODE (kernel). -/
  cwp : Nat := 0
  nframes : Nat := 1
  ie : Bool := false
  kernel : Bool := true
  /-- The windowed file: frame × 16 + register; an unlisted one holds 0. -/
  file : Tab W64 := []
  /-- Frames entered in user mode (R485). -/
  userTag : Tab Unit := []
  /-- s1 to s6, by number. -/
  shared : Tab W64 := []
  /-- s7 of kernel mode, and the user bank (USP). -/
  s7k : W64 := 0
  s7u : W64 := 0
  /-- Full posts and their messages. -/
  posts : Tab W64 := []
  epc : W64 := 0
  epsr : W64 := 0
  ecause : W64 := 0
  eaddr : W64 := 0
  vbase : W64 := 0
  spbU : W64 := 0
  splU : W64 := 0
  sptU : W64 := 0
  spbK : W64 := 0
  splK : W64 := 0
  sptK : W64 := 0
  ien : W64 := 0
  /-- IPEND: lines whose source holds them pending (lines 4 to 7 of a Watch post core: 6 and 7 only). -/
  ipend : Nat := 0
  mpuBase : Tab W64 := []
  mpuLimit : Tab W64 := []
  /-- HALTED by a double fault (R488). -/
  halted : Bool := false
  /-- Bytes held by the data and instruction caches, by address (R505). -/
  dcache : Tab Byte := []
  icache : Tab Byte := []
  /-- A SEND waiting at its target's port: post selector and value (R494). -/
  sendWait : Option (Nat × W64) := none
  /-- An RDPOST waiting on an empty post: destination register and post (R496). -/
  postWait : Option (Nat × Nat) := none
  /-- A WFI waiting (R501). -/
  wfi : Bool := false
  /-- Halted through JTAG, but for one instruction it may still run (R578). -/
  debugHalt : Bool := false
  stepOne : Bool := false
  deriving DecidableEq, Repr

/-! ### What the block sends -/

/-- A message or signal that leaves the block, or the answer to an access. The list of them is the model's own
record; the spec gives the device no such list. -/
inductive Out where
  /-- The answer of a register read. -/
  | regData (rq : Requester) (value : W64)
  /-- The answer of an access at a memory home: its bytes, and whether they are poisoned. -/
  | memData (req : Nat) (data : Bytes) (poison : Bool)
  /-- The end of a home access that moved nothing: an address hole (R38) or a blocked write (R489). -/
  | memFault (req : Nat)
  /-- A translation granted: target (TGT), address and link. -/
  | granted (a : VAccess) (tgt : Nat) (pa : Nat) (link : Nat)
  /-- A translation completed with ACCESS_FAULT. -/
  | denied (a : VAccess)
  /-- A translation held on a fault record or an ATS answer. -/
  | heldAccess (a : VAccess)
  /-- An ATS translation request, and a PRI page request, of a Surveyor. -/
  | atsRequest (q : Nat) (port : Nat) (pasid : Nat) (page : Nat)
  | priRequest (q : Nat) (port : Nat) (pasid : Nat) (page : Nat)
  /-- An MSI-X message of a function. -/
  | msix (f : Nat) (vector : Nat) (addr : Nat) (data : Nat)
  /-- An error logged in a function's AER capability: 1 Corrected Internal, 2 Uncorrectable Internal Advisory
  Non-Fatal, 3 Uncorrectable Internal Non-Fatal, 4 Uncorrectable Internal Fatal, 5 Completer Abort,
  6 Unexpected Completion, 7 Poisoned TLP Received, 8 Unsupported Request. -/
  | aer (f : Nat) (kind : Nat)
  /-- A write to host memory of a function's address, and a read request of it with its tag. -/
  | hostWrite (port : Nat) (addr : Nat) (data : Bytes)
  | hostRead (port : Nat) (addr : Nat) (len : Nat) (tag : Nat)
  /-- The answer of a host access to BAR2 or BAR0. -/
  | hostData (f : Nat) (data : Bytes)
  /-- Completer Abort answered to a host read. -/
  | hostAbort (f : Nat)
  /-- PM_PME of a function. -/
  | pme (f : Nat)
  /-- A message sent on a Causeway link: its type and its bytes. -/
  | causeway (link : Nat) (m : CwMsg)
  /-- A memory request through the root port of a group: a read of a length under a tag, or a write. -/
  | rpRead (group : Nat) (addr : Nat) (len : Nat) (tag : Nat)
  | rpWrite (group : Nat) (addr : Nat) (data : Bytes)
  /-- The answer to an upstream request through a root port: Completion with data, or Unsupported Request. -/
  | rpAnswer (group : Nat) (data : Option Bytes)
  /-- A configuration request through a root port. -/
  | rpConfig (group : Nat) (write : Bool) (bdf : Nat) (dword : Nat) (data : Nat)
  /-- A frame sent on a subport. -/
  | frame (q : Nat) (sub : Nat) (data : Bytes) (stomped : Bool)
  /-- A Carter packet handed to the Tollbooth of a Quarter: local port index, packet bytes. -/
  | packet (q : Nat) (path : Nat) (data : Bytes)
  /-- A reply on the management sideband (MCTP, PLDM, SPDM): its kind and bytes. -/
  | sideband (kind : Nat) (data : Bytes)
  /-- A pin of the module driven to a level. -/
  | pin (name : String) (level : Bool)
  /-- A check that ran and what it said (a JTAG answer, a counter-window read). -/
  | value (what : String) (v : Nat)
  deriving DecidableEq, Repr

/-! ### The whole block -/

structure State where
  /-- Commands waiting, first in first out. -/
  pending : List Instr
  /-- Ticks of the Watch post reference domain (40 ns). -/
  tick : Nat
  /-- How many free values have been used. -/
  fresh : Nat
  /-- What the block has sent, newest first. -/
  out : List Out
  /-- The registers that do not hold their reset value, by Reg.key. -/
  regs : Tab W64
  err : ErrSt
  home : HomeSt
  /-- The Surveyors, by Quarter. -/
  surv : Tab SurvSt
  street : StreetSt
  /-- Directions of Boulevards, by sender × 4 + receiver. -/
  blvd : Tab BlvdDir
  bell : BellSt
  stall : StallSt
  porter : PorterSt
  /-- Causeway links by number. -/
  cw : Tab CwLink
  xim : XimSt
  cash : CashSt
  eth : EthSt
  carter : CarterSt
  ledger : LedgerSt
  host : HostSt
  /-- Hawker cores by number. -/
  cores : Tab Core
  /-- Cores whose SEND waits at its target's port, in the order in which they reached it (R495). -/
  senders : List Nat
  /-- Number of the next sample record, per Quarter (R546). -/
  sampleSeq : Tab Nat
  fw : FwSt
  sec : SecSt
  boot : BootSt
  pwr : PwrSt
  side : SideSt
  inv : InvSt
  deriving DecidableEq, Repr

/-- The machine right after reset: every register at its reset value, no memory written, nothing in progress. -/
def State.reset : State where
  pending := []
  tick := 0
  fresh := 0
  out := []
  regs := []
  err := {}
  home := {}
  surv := []
  street := {}
  blvd := []
  bell := {}
  stall := {}
  porter := {}
  cw := []
  xim := {}
  cash := {}
  eth := {}
  carter := {}
  ledger := {}
  host := {}
  cores := []
  senders := []
  sampleSeq := []
  fw := {}
  sec := {}
  boot := {}
  pwr := {}
  side := {}
  inv := {}

end Sys2Proof.Machine
end

