-- ==== Sys2Proof/Machine/Ops.lean ====
section
/-!
DEFINITION. The named operations over the state: registers and their fields, the answers sent out, free values, the
address map, the bytes of memory, the configuration in force, cores, functions and Kiosk messages.
-/
namespace Sys2Proof.Machine

/-! ### Registers -/

/-- The value a register holds. -/
def State.rd (s : State) (r : Reg) : W64 := lookD r.reset s.regs r.key

/-- The state with a register holding a value. -/
def State.wr (s : State) (r : Reg) (w : W64) : State := { s with regs := putD r.reset s.regs r.key w }

/-- The number a field of a register holds. -/
def State.fget (s : State) (r : Reg) (f : Fld) : Nat := bitsOf (s.rd r) f

/-- The state with a field of a register replaced. -/
def State.fset (s : State) (r : Reg) (f : Fld) (v : Nat) : State := s.wr r (setBits (s.rd r) f v)

/-- A one-bit field is set. -/
def State.fbit (s : State) (r : Reg) (f : Fld) : Bool := s.fget r f = 1

/-- `n` added to a counting field, saturating at its largest value. -/
def State.fsat (s : State) (r : Reg) (f : Fld) (n : Nat) : State :=
  s.fset r f (min (s.fget r f + n) (2 ^ f.width - 1))

/-- 1 added to a counting field, modulo its width. -/
def State.fwrap (s : State) (r : Reg) (f : Fld) (n : Nat) : State :=
  s.fset r f ((s.fget r f + n) % 2 ^ f.width)

/-! ### What is sent, and free values -/

/-- The state after sending `o`. -/
def State.emit (s : State) (o : Out) : State := { s with out := o :: s.out }

/-- The state after using `n` free values; they are those at `s.fresh` and after. -/
def State.useFresh (s : State) (n : Nat) : State := { s with fresh := s.fresh + n }

/-- The `n` free bytes the next step may use. -/
def State.freeBytes (s : State) (n : Nat) : Bytes := (List.range n).map fun i => Config.freeByte (s.fresh + i)

/-! ### Folding over numbers and lists -/

/-- `f` applied for each number below `n`, in rising order. -/
def forNat {σ : Type} (n : Nat) (s : σ) (f : σ → Nat → σ) : σ := (List.range n).foldl f s

/-! ### Requesters -/

/-- The requester code (Register-space control registers). -/
def rqCode : Requester → Nat
  | .core n _ => n.val
  | .pf p => 18 + p.val
  | .porter _ => 20
  | .causeway _ => 21
  | .bell _ => 22
  | .carter _ => 23

/-- A Hawker core in kernel mode (the Guildhalls), or the Watch post. -/
def rqKernel : Requester → Bool
  | .core n k => k || decide (16 ≤ n.val)
  | _ => false

/-- A Guildhall core in kernel mode. -/
def rqGuildhall : Requester → Bool
  | .core n k => k && decide (n.val < 16)
  | _ => false

/-- A PF register aperture. -/
def rqPf : Requester → Bool
  | .pf _ => true
  | _ => false

/-- A stray write of a kind, by a requester code, at an offset (R64, REGSP_STRAY_LAST). -/
def State.strayCode (s : State) (code kind off : Nat) : State :=
  let s := s.fsat ⟨.regspStrayCount, 0, 0⟩ F.regspStrayCount_COUNT 1
  let r : Reg := ⟨.regspStrayLast, 0, 0⟩
  s.wr r (setBits (setBits (setBits (setBits 0 F.regspStrayLast_REQ code) F.regspStrayLast_KIND kind)
    F.regspStrayLast_VALID 1) F.regspStrayLast_OFFSET off)

/-- A write that a register refuses by its own rule: a stray write of KIND 2. -/
def State.refuse (s : State) (rq : Requester) (r : Reg) : State := s.strayCode (rqCode rq) 2 r.offset

/-! ### The address map (Table 1.5) -/

/-- The home of a physical address. -/
inductive Home where
  | square (q off : Nat)
  | warehouse (w off : Nat)
  | register (off : Nat)
  | hole
  deriving DecidableEq, Repr

/-- First address of a Square window (Table 1.5). -/
def squareBase (q : Nat) : Nat := 0x1000_0000_0000 + q * 0x4000_0000

/-- First address of a Warehouse (R36). -/
def whBase (w : Nat) : Nat := w * 0x10_0000_0000

/-- First address of the register space. -/
def regSpace : Nat := 0x2000_0000_0000

/-- The home of address `a` (R36, R37, R38). -/
def homeOf (a : Nat) : Home :=
  if a < 0xC0_0000_0000 then .warehouse (a / 0x10_0000_0000) (a % 0x10_0000_0000)
  else if a < 0x1000_0000_0000 then .hole
  else if a < 0x1001_0000_0000 then
    let x := a - 0x1000_0000_0000
    if x % 0x4000_0000 < 0x1800_0000 then .square (x / 0x4000_0000) (x % 0x4000_0000) else .hole
  else if a < 0x2000_0000_0000 then .hole
  else if a < 0x2001_0000_0000 then .register (a - 0x2000_0000_0000)
  else .hole

/-- The address lies in populated memory. -/
def isMem (a : Nat) : Bool :=
  match homeOf a with
  | .square _ _ | .warehouse _ _ => true
  | _ => false

/-- The Quarter whose base die holds the home of an address. -/
def homeQ (a : Nat) : Nat :=
  match homeOf a with
  | .square q _ => q
  | .warehouse w _ => w / 3
  | .register o => if 0x1000_0000 ≤ o then o / 0x1000_0000 - 1 else 4
  | .hole => 4

/-- The address lies in a system region: the first 128 MiB of a Square, the first 1 GiB of a Warehouse. -/
def inSystem (a : Nat) : Bool :=
  match homeOf a with
  | .square _ o => o < 0x800_0000
  | .warehouse _ o => o < 0x4000_0000
  | _ => false

/-- `n` bytes from `a` all lie in one system region. -/
def rangeInSystem (a n : Nat) : Bool :=
  inSystem a && inSystem (a + n - 1) &&
    (match homeOf a, homeOf (a + n - 1) with
      | .square q _, .square q' _ => q = q'
      | .warehouse w _, .warehouse w' _ => w = w'
      | _, _ => false)

/-! ### The configuration in force -/

/-- A precinct's record. -/
def State.precinct (s : State) (p : Nat) : Option Precinct := s.xim.conf.precincts.find? (fun r => r.id = p)

/-- A precinct record holds a stall. -/
def Precinct.hasStall (r : Precinct) (st : Nat) : Bool :=
  nbit (r.stalls.getD (stallQ st * 12 + stallKind st) 0) (stallIdx st)

/-- A precinct record holds a Porter channel. -/
def Precinct.hasChan (r : Precinct) (c : Nat) : Bool := nbit r.porter c

/-- A precinct record's Bell range holds counter `n` of Quarter `q`. -/
def Precinct.hasBell (r : Precinct) (q n : Nat) : Bool :=
  match r.bells[q]? with
  | some (b, k) => b ≤ n && n < b + k
  | none => false

/-- The precinct that holds a stall (R39). -/
def State.precOfStall (s : State) (st : Nat) : Option Nat :=
  (s.xim.conf.precincts.find? (fun r => r.hasStall st)).map (·.id)

/-- The precinct that holds a Porter channel (R39). -/
def State.precOfChan (s : State) (c : Nat) : Option Nat :=
  (s.xim.conf.precincts.find? (fun r => r.hasChan c)).map (·.id)

/-- The precinct whose BELL_RANGE holds counter `n` of Quarter `q`; none: a firmware counter (R72). -/
def State.precOfBell (s : State) (q n : Nat) : Option Nat :=
  (s.xim.conf.precincts.find? (fun r => r.hasBell q n)).map (·.id)

/-- A precinct number, or 0xFF for firmware. -/
def precOr (p : Option Nat) : Nat := p.getD 0xFF

/-- An extent of a Square carve holds offset `o` of the Square of Quarter `q`. -/
def Extent.holdsSquare (e : Extent) (q o : Nat) : Bool :=
  e.unit = q && decide (e.base * 0x10_0000 ≤ o) && decide (o < (e.base + e.size) * 0x10_0000)

/-- An extent of a Warehouse carve holds offset `o` of Warehouse `w`. -/
def Extent.holdsWarehouse (e : Extent) (w o : Nat) : Bool :=
  e.unit = w && decide (e.base * 0x4000_0000 ≤ o) && decide (o < (e.base + e.size) * 0x4000_0000)

/-- The precinct whose carve holds an address. -/
def State.carveOf (s : State) (a : Nat) : Option Nat :=
  match homeOf a with
  | .square q o => (s.xim.conf.square.find? (fun e => e.holdsSquare q o)).map (·.prec)
  | .warehouse w o => (s.xim.conf.warehouse.find? (fun e => e.holdsWarehouse w o)).map (·.prec)
  | _ => none

/-- The MiB (Square) or GiB (Warehouse) pieces of `n` bytes from `a` all lie in the carves of precinct `p` (R263). -/
def State.carveHolds (s : State) (p a n : Nat) : Bool :=
  let step := 0x10_0000
  let lo := a / step
  let hi := (a + n - 1) / step
  (List.range (hi + 1 - lo)).all fun i => s.carveOf ((lo + i) * step) = some p

/-! ### Fenced units -/

/-- The compute die of Quarter `q` is fenced (ERR_SUMMARY.QFENCED). -/
def State.qFenced (s : State) (q : Nat) : Bool := nbit (s.fget ⟨.errSummary, 0, 0⟩ F.errSummary_QFENCED) q

/-- A stall reads FENCED, or its compute die is fenced. -/
def State.stallFenced (s : State) (st : Nat) : Bool :=
  s.fget ⟨.stallState, st, 0⟩ F.stallState_STATE = 4 || s.qFenced (stallQ st)

/-! ### Bytes of memory -/

/-- The byte at a physical address; one that nothing has written reads 0. -/
def State.byte (s : State) (a : Nat) : Byte := lookD 0#8 s.home.mem a

/-- `n` bytes from a physical address. -/
def State.bytes (s : State) (a n : Nat) : Bytes := (List.range n).map fun i => s.byte (a + i)

/-- The little-endian number of `n` bytes at a physical address (R12). -/
def State.num (s : State) (a n : Nat) : Nat := leNat (s.bytes a n)

/-- One byte of memory written. -/
def State.pokeByte (s : State) (a : Nat) (b : Byte) : State :=
  { s with home := { s.home with mem := putD 0#8 s.home.mem a b } }

/-- Bytes of memory written, lowest address first, with nothing else at the homes changed. -/
def State.poke (s : State) (a : Nat) : Bytes → State
  | [] => s
  | b :: bs => (s.pokeByte a b).poke (a + 1) bs

/-- The line of 128 bytes that holds an address is marked poisoned (R550). -/
def State.poisoned (s : State) (a : Nat) : Bool := (look s.home.poison (a / 128)).isSome

/-- Some line of `n` bytes from `a` is marked poisoned. -/
def State.anyPoison (s : State) (a n : Nat) : Bool :=
  if n = 0 then false
  else (List.range ((a + n - 1) / 128 + 1 - a / 128)).any fun i => (look s.home.poison (a / 128 + i)).isSome

/-- The line that holds `a` marked poisoned. -/
def State.markLine (s : State) (a : Nat) : State :=
  { s with home := { s.home with poison := put s.home.poison (a / 128) () } }

/-- The line that holds `a` with its mark cleared. -/
def State.unmarkLine (s : State) (a : Nat) : State :=
  { s with home := { s.home with poison := drop s.home.poison (a / 128) } }

/-! ### Weighmaster counters (R538, R539, R543) -/

/-- The block of a stall: its Alley participant number (Table 11.1). -/
def participant (st : Nat) : Nat :=
  let i := stallIdx st
  match stallKind st with
  | 0 => i | 1 => 16 + i | 2 => 24 + i | 3 => 28 + i | 4 => 30 + i | 5 => 34 + i | 6 => 36 + i
  | k => 31 + k

/-- Slot `n` of block `b` of Quarter `q` (`wmDevice` for the device blocks), and its extension. -/
def wmReg (q b n : Nat) : Reg := ⟨.wmCnt, q, b * 32 + n⟩

/-- `k` events added to a slot: modulo 2^48, a carry going to the extension when the slot is chained, else setting
WRAPPED. The state, and whether it carried. -/
def State.wmAdd (s : State) (q b n k : Nat) : State × Bool :=
  let r := wmReg q b n
  let c := s.fget r F.wmCnt_COUNT + k
  let s' := s.fset r F.wmCnt_COUNT (c % 2 ^ 48)
  if c < 2 ^ 48 then (s', false)
  else if nbit (s.fget ⟨.wmChain, q, b⟩ F.wmChain_CHAIN) n then
    let x := wmReg q b (n + 16)
    (s'.fset x F.wmCnt_COUNT ((s'.fget x F.wmCnt_COUNT + c / 2 ^ 48) % 2 ^ 48), true)
  else (s'.fset r F.wmCnt_WRAPPED 1, true)

/-- `k` events of a block that cannot be armed (blocks 42–47 and 52–57), counted unless the block lies on a fenced
compute die (R539). -/
def State.count (s : State) (q b n k : Nat) : State :=
  if k = 0 then s
  else if s.qFenced q && decide (b < 47) && decide (b ≠ 45) then s
  else (s.wmAdd q b n k).1

/-- Ports may train: the cold boot has reached step 9 of Table 27.1 (R600, R603). -/
def State.portsTrain (s : State) : Bool :=
  decide (s.fget ⟨.bootStatus, 0, 0⟩ F.bootStatus_STAGE = 8) || decide (s.fget ⟨.bootStatus, 0, 0⟩ F.bootStatus_STAGE = 9)

/-! ### Cores and interrupt lines -/

/-- Core `n`. -/
def State.core (s : State) (n : Nat) : Core := (look s.cores n).getD {}

/-- Core `n` replaced. -/
def State.setCore (s : State) (n : Nat) (c : Core) : State := { s with cores := put s.cores n c }

/-- A number with bit `i` set. -/
def setBit (n i : Nat) : Nat := if nbit n i then n else n + 2 ^ i

/-- A number with bit `i` clear. -/
def clearBit (n i : Nat) : Nat := if nbit n i then n - 2 ^ i else n

/-- An interrupt line raised in one core. -/
def State.raiseCore (s : State) (n line : Nat) : State :=
  s.setCore n { s.core n with ipend := setBit (s.core n).ipend line }

/-- An interrupt line raised in every core of the Guildhall of Quarter `q` (Table 20.3). -/
def State.raiseLine (s : State) (q line : Nat) : State :=
  forNat 4 s fun s i => s.raiseCore (4 * q + i) line

/-! ### Functions, instances and Kiosk messages -/

/-- Function `f`. -/
def State.func (s : State) (f : Nat) : Func := (look s.host.funcs f).getD {}

/-- Function `f` replaced. -/
def State.setFunc (s : State) (f : Nat) (x : Func) : State :=
  { s with host := { s.host with funcs := put s.host.funcs f x } }

/-- The instance of function `f`. -/
def State.inst (s : State) (f : Nat) : Option Inst := (s.func f).inst

/-- The instance of function `f` replaced. -/
def State.setInst (s : State) (f : Nat) (i : Inst) : State := s.setFunc f { s.func f with inst := some i }

/-- The host port of a function (R455). -/
def portOf (f : Nat) : Nat := f / 256

/-- Host port `p`. -/
def State.port (s : State) (p : Nat) : HostPort := (look s.host.ports p).getD {}

/-- Host port `p` replaced. -/
def State.setPort (s : State) (p : Nat) (x : HostPort) : State :=
  { s with host := { s.host with ports := put s.host.ports p x } }

/-- Functions with an instance in precinct `p`. -/
def State.instancesOf (s : State) (p : Nat) : List Nat :=
  (s.host.funcs.filter fun x => match x.2.inst with | some i => i.prec = p | none => false).map (·.1)

/-- A Kiosk message: header and body (R477). -/
def kioskMsg (type seq status detail : Nat) (body : Bytes) : Bytes :=
  leBytes 2 type ++ leBytes 2 seq ++ leBytes 1 status ++ leBytes 1 detail ++ leBytes 2 0 ++ slice body 0 56

/-- A D2H message joins those waiting (R476). -/
def State.postMsg (s : State) (f : Nat) (m : Bytes) : State :=
  s.setFunc f { s.func f with d2hWait := (s.func f).d2hWait ++ [m] }

/-- An EVENT message to a function whose session is open (Table 19.8). -/
def State.postEvent (s : State) (f cls obj code : Nat) : State :=
  if (s.func f).isOpen then
    s.postMsg f (kioskMsg 0x0201 0 0 0 (leBytes 2 cls ++ leBytes 2 0 ++ leBytes 4 obj ++ leBytes 4 code))
  else s

/-- An EVENT to every open instance of a precinct. -/
def State.eventPrec (s : State) (p cls obj code : Nat) : State :=
  (s.instancesOf p).foldl (fun s f => s.postEvent f cls obj code) s

/-- An EVENT to every open manager session: both PFs, and the vendor session over MCTP (R610). -/
def State.eventManagers (s : State) (cls obj code : Nat) : State :=
  let s := [0x000, 0x100].foldl (fun s f => if (s.func f).role then s.postEvent f cls obj code else s) s
  if s.side.vendor then s.emit (.sideband 0x7E (kioskMsg 0x0201 0 0 0 (leBytes 2 cls ++ leBytes 2 0 ++ leBytes 4 obj ++ leBytes 4 code))) else s

/-- Every docket of function `f` changed by `g`. -/
def State.mapDockets (s : State) (f : Nat) (g : Docket → Docket) : State :=
  match s.inst f with
  | none => s
  | some i => s.setInst f { i with dockets := i.dockets.map g }

/-- The docket with its first ending status set (R158); one that never ran keeps its refusal. -/
def Docket.endWith (d : Docket) (status op : Nat) : Docket :=
  if d.refused.isSome then d
  else match d.ending with
    | some _ => d
    | none => { d with ending := some (status, op) }

/-- The FAILED_OP of a docket that no operation of its own ended. -/
abbrev noOp : Nat := 0xFFFF_FFFF

/-- Every docket of a precinct ends with a status. -/
def State.endDocketsOf (s : State) (p status : Nat) : State :=
  (s.instancesOf p).foldl (fun s f => s.mapDockets f (fun d => d.endWith status noOp)) s

/-- The operation of a docket that runs on a stall for which `p` holds, if any. -/
def Docket.opOn (d : Docket) (p : Nat → Bool) : Option Nat :=
  (d.placed.find? fun x => x.2.any p && decide (d.phases.getD x.1 .done = .running)).map (·.1)

/-- Dockets that run on a stall for which `p` holds end with FENCED (R552, R554). -/
def State.endDocketsOn (s : State) (p : Nat → Bool) : State :=
  (s.host.funcs.map (·.1)).foldl
    (fun s f => s.mapDockets f fun d => match d.opOn p with
      | some op => d.endWith 0x0D op
      | none => d) s

/-- The unfinished operation of a docket that uses Carter connection `n`: a MOVE over it, a REDUCE on a communicator with it, or a
wait on an EXTERNAL counter bound to it. -/
def Docket.onConn (i : Inst) (d : Docket) (n : Nat) : Option Nat :=
  let uses (o : DOp) : Bool :=
    (decide (o.opcode = 0x0E) && decide (o.params.getD 2 0 = n)) ||
    (decide (o.opcode = 0x0A) && i.comms.any (fun c => decide (c.handle = o.params.getD 2 0) && c.conns.contains n)) ||
    (d.prog.ctrs.zipIdx.any fun c => c.1.ext && decide (c.1.conn = n) && (decide (o.wait0 = c.2) || decide (o.wait1 = c.2)))
  (d.prog.ops.zipIdx.find? fun x =>
    (match d.phases.getD x.2 .done with | .waiting | .running => true | _ => false) && uses x.1).map (·.2)

/-- Dockets of function `f` that use connection `n` end with REMOTE_FAILED (Table 5.8), unless its driver is lost. -/
def State.endDocketsConn (s : State) (f n : Nat) : State :=
  match s.inst f with
  | none => s
  | some i =>
    if (s.func f).driverLost then s
    else s.mapDockets f fun d => match d.onConn i n with
      | some op => d.endWith 0x0F op
      | none => d

/-- The next state, for a meaning that always completes. -/
abbrev done (s : State) : Host.Outcome State Fault Refusal := .next s

end Sys2Proof.Machine
end

