-- ==== Sys2Proof/Machine/Formats.lean ====
section
/-!
DEFINITION. Number formats, the Tally word, rounding once, MX blocks, the block-sparse tile and the sparse wire format (chapter
"Number formats, exact accumulation and results independent of timing").
-/
namespace Sys2Proof.Machine

/-! ### Exact values -/

/-- An exact value: NaN, an infinity, or n / d × 2^−304 (R114, R119). -/
inductive Ex where
  | nan | pinf | ninf
  | fin (n : Int) (d : Nat)
  deriving DecidableEq, Repr

/-- The weight of 1 in units of 2^−304. -/
abbrev one304 : Nat := 2 ^ 304

/-- m × 2^k as an exact value, for k ≥ −304. -/
def exScaled (m : Int) (k : Int) : Ex := .fin (m * 2 ^ (k + 304).toNat) 1

/-! ### Floating-point formats (Table 4.2) -/

/-- Parameters of a floating-point element; the largest finite value is `top` × 2^(`topE` − `m`). -/
structure FFmt where
  e : Nat
  m : Nat
  bias : Nat
  top : Nat
  topE : Int
  /-- 0: infinities and NaNs as IEEE; 1: E4M3; 2: every encoding finite. -/
  kind : Nat
  nan : Nat
  deriving DecidableEq, Repr

def f32 : FFmt := ⟨8, 23, 127, 2 ^ 24 - 1, 127, 0, 0x7FC0_0000⟩
def f16 : FFmt := ⟨5, 10, 15, 2 ^ 11 - 1, 15, 0, 0x7E00⟩
def bf16 : FFmt := ⟨8, 7, 127, 2 ^ 8 - 1, 127, 0, 0x7FC0⟩
def e4m3 : FFmt := ⟨4, 3, 7, 14, 8, 1, 0x7F⟩
def e5m2 : FFmt := ⟨5, 2, 15, 7, 15, 0, 0x7E⟩
def e3m2 : FFmt := ⟨3, 2, 3, 7, 4, 2, 0⟩
def e2m3 : FFmt := ⟨2, 3, 1, 15, 2, 2, 0⟩
def e2m1 : FFmt := ⟨2, 1, 1, 3, 2, 2, 0⟩

/-- The bits of a floating-point element as an exact value (R99, R100, R102). -/
def FFmt.decode (f : FFmt) (b : Nat) : Ex :=
  let s := nbit b (f.e + f.m)
  let x := nbits b (f.e + f.m - 1) f.m
  let fr := b % 2 ^ f.m
  let ones := 2 ^ f.e - 1
  if f.kind = 0 ∧ x = ones then (if fr ≠ 0 then .nan else if s then .ninf else .pinf)
  else if f.kind = 1 ∧ x = ones ∧ fr = 2 ^ f.m - 1 then .nan
  else
    let mag : Int := if x = 0 then fr else 2 ^ f.m + fr
    let k : Int := (if x = 0 then 1 else (x : Int)) - f.bias - f.m
    exScaled (if s then -mag else mag) k

/-! ### Rounding (R121, Table 4.6) -/

/-- ⌊log2 (n / d)⌋ for positive n and d. -/
def ilog2 (n d : Nat) : Int :=
  let k : Int := (Nat.log2 n : Int) - Nat.log2 d
  if k ≥ 0 then (if d * 2 ^ k.toNat ≤ n then k else k - 1)
  else (if d ≤ n * 2 ^ (-k).toNat then k else k - 1)

/-- n / d rounded to an integer under a mode, for a magnitude of a sign. -/
def roundMag (mode : Nat) (neg : Bool) (n d : Nat) : Nat :=
  let q := n / d
  let r := n % d
  let up : Bool := match mode with
    | 0 => decide (d < 2 * r) || (decide (2 * r = d) && decide (q % 2 = 1))
    | 1 => false
    | 2 => decide (r ≠ 0) && !neg
    | 3 => decide (r ≠ 0) && neg
    | _ => decide (d ≤ 2 * r)
  if up then q + 1 else q

/-- ROUND, OVERFLOW = SATURATE and FAST of a policy byte (Table 4.6). -/
def polRound (p : Nat) : Nat := p % 8
def polSat (p : Nat) : Bool := nbit p 3
def polFast (p : Nat) : Bool := nbit p 4

/-- A policy byte without reserved bits or values. -/
def polOk (p : Nat) : Bool := decide (p < 32) && decide (p % 8 < 5)

/-- An encoded element with the flags of R123: NAN and OVERFLOW. -/
structure Coded where
  bits : Nat
  nan : Bool := false
  ovf : Bool := false
  deriving DecidableEq, Repr

/-- The bits of a finite value m × 2^(x − M) of a sign, m below 2^(M+1). -/
def FFmt.pack (f : FFmt) (neg : Bool) (m : Nat) (x : Int) : Nat :=
  let s := if neg then 2 ^ (f.e + f.m) else 0
  if m < 2 ^ f.m then s + m
  else s + (x + f.bias).toNat * 2 ^ f.m + (m - 2 ^ f.m)

/-- A positive or negative infinity, or the largest finite value, of a format. -/
def FFmt.inf (f : FFmt) (neg : Bool) : Nat :=
  (if neg then 2 ^ (f.e + f.m) else 0) + (2 ^ f.e - 1) * 2 ^ f.m
def FFmt.big (f : FFmt) (neg : Bool) : Nat := f.pack neg f.top f.topE

/-- What stands for a value beyond the largest finite one (Table 4.7). -/
def FFmt.over (f : FFmt) (pol : Nat) (neg : Bool) : Coded :=
  match f.kind with
  | 0 =>
    let toInf := match polRound pol with
      | 0 | 4 => true
      | 1 => false
      | 2 => !neg
      | _ => neg
    ⟨if polSat pol then f.big neg else if toInf then f.inf neg else f.big neg, false, true⟩
  | 1 => if polSat pol then ⟨f.big neg, false, true⟩ else ⟨f.nan, true, true⟩
  | _ => ⟨f.big neg, false, true⟩

/-- A finite magnitude n / d × 2^−304 rounded to a significand and its exponent, without a bound above (R102, R121). -/
def FFmt.round (f : FFmt) (mode : Nat) (neg : Bool) (n d : Nat) : Nat × Int :=
  let x := max (ilog2 n d - 304) (1 - (f.bias : Int))
  let q := roundMag mode neg n (d * 2 ^ (x - f.m + 304).toNat)
  if q = 2 ^ (f.m + 1) then (2 ^ f.m, x + 1) else (q, x)

/-- The rounded magnitude passes the largest finite value. -/
def FFmt.beyond (f : FFmt) (q : Nat) (x : Int) : Bool :=
  decide (f.topE < x) || (decide (x = f.topE) && decide (f.top < q))

/-- An exact value rounded once to a floating-point format (R119–R122, Table 4.7). An exact zero is +0; a negative value that rounds to zero
keeps its sign, as IEEE 754 has it (DEDUCED, R121 and R122). -/
def FFmt.encode (f : FFmt) (pol : Nat) : Ex → Coded
  | .nan => if f.kind = 2 then ⟨0, true, false⟩ else ⟨f.nan, true, false⟩
  | .pinf => match f.kind with
    | 0 => ⟨f.inf false, false, true⟩
    | _ => f.over pol false
  | .ninf => match f.kind with
    | 0 => ⟨f.inf true, false, true⟩
    | 1 => if polSat pol then f.over pol true else ⟨0xFF, true, true⟩
    | _ => f.over pol true
  | .fin n d =>
    if n = 0 then ⟨0, false, false⟩
    else
      let neg := decide (n < 0)
      let (q, x) := f.round (polRound pol) neg n.natAbs d
      if f.beyond q x then f.over pol neg else ⟨f.pack neg q x, false, false⟩

/-- An exact value rounded once to a two's-complement integer of `w` bits (R121, Table 4.7). -/
def encodeInt (w pol : Nat) : Ex → Coded
  | .nan => ⟨0, true, false⟩
  | .pinf => ⟨2 ^ (w - 1) - 1, false, true⟩
  | .ninf => ⟨2 ^ (w - 1), false, true⟩
  | .fin n d =>
    let neg := decide (n < 0)
    let q := roundMag (polRound pol) neg n.natAbs (d * one304)
    if neg then
      if 2 ^ (w - 1) < q then ⟨2 ^ (w - 1), false, true⟩ else ⟨(2 ^ w - q) % 2 ^ w, false, false⟩
    else if 2 ^ (w - 1) ≤ q then ⟨2 ^ (w - 1) - 1, false, true⟩
    else ⟨q, false, false⟩

/-- The signed value of `w` bits. -/
def signed (w b : Nat) : Int := if nbit b (w - 1) then (b : Int) - 2 ^ w else b

/-! ### Formats by code (Table 4.1) -/

/-- The floating-point parameters of a plain format. -/
def plainF : Nat → Option FFmt
  | 1 => some f32 | 2 => some f16 | 3 => some bf16 | 4 => some e4m3 | 5 => some e5m2
  | _ => none

/-- The element of an MX format: its parameters, or none for MXINT8. -/
def mxF : Nat → Option FFmt
  | 0x10 => some e4m3 | 0x11 => some e5m2 | 0x12 => some e3m2 | 0x13 => some e2m3 | 0x14 => some e2m1
  | _ => none

/-- An MX format, and a plain one. -/
def isMx (fmt : Nat) : Bool := decide (0x10 ≤ fmt) && decide (fmt ≤ 0x15)
def isPlain (fmt : Nat) : Bool := decide (1 ≤ fmt) && decide (fmt ≤ 7)
def isInt (fmt : Nat) : Bool := decide (fmt = 6) || decide (fmt = 7)

/-- A format code exists (R98). -/
def fmtOk (fmt : Nat) : Bool := isPlain fmt || isMx fmt || decide (fmt = 0x20) || decide (fmt = 0x30) || decide (fmt = 0x31)

/-- Bits of an element. -/
def elemBits : Nat → Nat
  | 1 => 32 | 2 => 16 | 3 => 16 | 4 => 8 | 5 => 8 | 6 => 8 | 7 => 32
  | 0x10 => 8 | 0x11 => 8 | 0x12 => 6 | 0x13 => 6 | 0x14 => 4 | 0x15 => 8
  | 0x20 => 768
  | _ => 0

/-- The bits of an element as an exact value; an MX element without its scale. -/
def decodeElem (fmt b : Nat) : Ex :=
  match plainF fmt with
  | some f => f.decode b
  | none =>
    match mxF fmt with
    | some f => f.decode b
    | none =>
      if fmt = 0x15 then exScaled (signed 8 b) (-6)
      else exScaled (signed (elemBits fmt) b) 0

/-- An exact value rounded once to a plain format. -/
def encodePlain (fmt pol : Nat) (v : Ex) : Coded :=
  match plainF fmt with
  | some f => f.encode pol v
  | none => encodeInt (elemBits fmt) pol v

/-- A value multiplied by 2^k (R104); k at least −304 where the value needs it. -/
def Ex.scale (v : Ex) (k : Int) : Ex :=
  match v with
  | .fin n d => if 0 ≤ k then .fin (n * 2 ^ k.toNat) d else .fin n (d * 2 ^ (-k).toNat)
  | x => x

/-- A finite value with denominator 1 where its denominator is a power of two that divides it. -/
def Ex.norm : Ex → Ex
  | .fin n d => if (d : Int) ∣ n then .fin (n / d) 1 else .fin n d
  | x => x

/-- An MX element under its E8M0 scale code (R104). -/
def decodeMx (fmt scale b : Nat) : Ex :=
  if scale = 0xFF then .nan else ((decodeElem fmt b).scale ((scale : Int) - 127)).norm

/-- The product of two exact values that are multiples of their formats' units (R116, R118). -/
def Ex.mul : Ex → Ex → Ex
  | .nan, _ | _, .nan => .nan
  | .fin a d, .fin b e => (Ex.fin (a * b) (d * e * one304)).norm
  | .fin a _, y => if a = 0 then .nan else if decide (a < 0) = decide (y = .ninf) then .pinf else .ninf
  | x, .fin b _ => if b = 0 then .nan else if decide (b < 0) = decide (x = .ninf) then .pinf else .ninf
  | x, y => if x = y then .pinf else .ninf

/-- A value divided by a positive integer (R119). -/
def Ex.divNat (v : Ex) (k : Nat) : Ex :=
  match v with
  | .fin n d => .fin n (d * k)
  | x => x

/-! ### The Tally word (R114–R118) -/

/-- T modulo 2^640 and the state bits NAN, PINF, NINF. -/
structure Tw where
  t : Nat := 0
  st : Nat := 0
  deriving DecidableEq, Repr

/-- The range of T. -/
abbrev twMod : Nat := 2 ^ 640

/-- Adding a term (R116, R118). -/
def Tw.add (w : Tw) : Ex → Tw
  | .nan => { w with st := setBit w.st 0 }
  | .pinf => { w with st := setBit w.st 1 }
  | .ninf => { w with st := setBit w.st 2 }
  | .fin n d => { w with t := ((((w.t : Int) + n / d) % (twMod : Int))).toNat }

/-- Adding a whole word: T adds modulo 2^640 and the flags are ORed (R116). -/
def Tw.merge (a b : Tw) : Tw := ⟨(a.t + b.t) % twMod, a.st ||| b.st⟩

/-- The exact value of a word, with NAN and both infinities as NaN (Table 4.7). -/
def Tw.value (w : Tw) : Ex :=
  if nbit w.st 0 || (nbit w.st 1 && nbit w.st 2) then .nan
  else if nbit w.st 1 then .pinf
  else if nbit w.st 2 then .ninf
  else .fin (signed 640 w.t) 1

/-- The sum of terms. -/
def sumEx (vs : List Ex) : Tw := vs.foldl Tw.add {}

/-- The 96 bytes of a cell (R115). -/
def Tw.cell (w : Tw) : Bytes := leBytes 80 w.t ++ leBytes 8 w.st ++ leBytes 8 0

/-- A cell's word; none with a nonzero reserved bit (R136). -/
def Tw.ofCell (b : Bytes) : Option Tw :=
  if leAt b 80 8 < 8 ∧ leAt b 88 8 = 0 then some ⟨leAt b 0 80, leAt b 80 8⟩ else none

/-- NAN of a cell buffer (R123). -/
def Tw.nanFlag (w : Tw) : Bool := nbit w.st 0 || (nbit w.st 1 && nbit w.st 2)

/-! ### Fast accumulation (R131) -/

/-- A value rounded to binary32 and read back. -/
def to32 (v : Ex) : Ex := f32.decode (f32.encode 0 v).bits

/-- Two binary32 values added exactly. -/
def Ex.add (a b : Ex) : Ex := ((({} : Tw).add a).add b).value

/-- The list with `x` at position `k`. -/
def insertAt {α : Type} (x : α) : Nat → List α → List α
  | 0, l => x :: l
  | _ + 1, [] => [x]
  | k + 1, y :: l => y :: insertAt x k l

/-- The terms in an order the device does not specify: each inserted at a free place. -/
def freeOrder {α : Type} (at_ : Nat) : List α → List α
  | [] => []
  | x :: l => insertAt x (Config.freeNat (at_ + l.length) % (l.length + 1)) (freeOrder at_ l)

/-- A fast sum: binary32 additions in a free order, and `last` added at the end (R131). -/
def fastSum (at_ : Nat) (vs : List Ex) (last : List Ex) : Ex :=
  ((freeOrder at_ (vs.map to32)) ++ last).foldl (fun a v => to32 (a.add v)) (.fin 0 1)

/-- Terms accumulated under a policy: the exact Tally value, or a fast sum. -/
def accumulate (pol at_ : Nat) (vs : List Ex) (last : List Ex := []) : Ex :=
  if polFast pol then fastSum at_ vs last else (sumEx (vs ++ last)).value

/-! ### MX output (R124) -/

/-- A value's magnitude compared: the larger of two. -/
def maxAbs : Ex → Nat × Nat → Nat × Nat
  | .fin n d, (a, b) => if a * d < n.natAbs * b then (n.natAbs, d) else (a, b)
  | _, p => p

/-- emax of an element kind (R106). -/
def emaxOf : Nat → Int
  | 0x10 => 8 | 0x11 => 15 | 0x12 => 4 | 0x13 => 2 | 0x14 => 2
  | _ => 0

/-- One element of an MX block at shared exponent X: rounded once, saturating without a flag. The bits, and whether it
saturated. -/
def mxElem (fmt pol : Nat) (x : Int) (v : Ex) : Nat × Bool :=
  let u := v.scale (-x)
  match mxF fmt with
  | some f =>
    match u with
    | .fin n d =>
      if n = 0 then (0, false)
      else
        let neg := decide (n < 0)
        let (q, e) := f.round (polRound pol) neg n.natAbs d
        if f.beyond q e then (f.big neg, true) else (f.pack neg q e, false)
    | _ => (0, false)
  | none =>
    let c := encodeInt 8 pol (u.scale 6)
    (c.bits, c.ovf)

/-- 32 exact values as one MX block: the scale code, the elements, and the flags. -/
def mxBlock (fmt pol : Nat) (vs : List Ex) : Nat × List Nat × Bool × Bool :=
  let zeros := vs.map fun _ => 0
  if vs.any (fun v => match v with | .fin _ _ => false | _ => true) then (0xFF, zeros, true, false)
  else
    let (a, b) := vs.foldl (fun p v => maxAbs v p) (0, 1)
    if a = 0 then (0x7F, zeros, false, false)
    else
      let x := ilog2 a b - 304 - emaxOf fmt
      let x := if x < -127 then -127 else x
      if 127 < x then
        if polSat pol then (0xFE, vs.map (fun v => (mxElem fmt pol 127 v).1), false, true)
        else (0xFF, zeros, false, true)
      else ((x + 127).toNat, vs.map (fun v => (mxElem fmt pol x v).1), false, false)

/-! ### Packed arrays (R105) -/

/-- Element `n` of a packed array. -/
def packedAt (b : Bytes) (w n : Nat) : Nat := leAt b (n * w / 8) 5 / 2 ^ (n * w % 8) % 2 ^ w

/-- A number whose bits are the elements, the first lowest. -/
def packNat (w : Nat) : List Nat → Nat
  | [] => 0
  | x :: xs => x % 2 ^ w + 2 ^ w * packNat w xs

/-- Elements packed with no gaps, padded with zero bits to whole bytes. -/
def packBytes (w : Nat) (xs : List Nat) : Bytes := leBytes ((xs.length * w + 7) / 8) (packNat w xs)

/-- Bytes of `n` packed elements. -/
def packedLen (fmt n : Nat) : Nat := (n * elemBits fmt + 7) / 8

/-- The values of a dense plain array. -/
def plainValues (fmt : Nat) (b : Bytes) (n : Nat) : List Ex :=
  (List.range n).map fun i => decodeElem fmt (packedAt b (elemBits fmt) i)

/-- The value of an element of a dense MX tensor, given the number of its scale. -/
def mxValue (fmt : Nat) (elems scales : Bytes) (i blk : Nat) : Ex :=
  decodeMx fmt (leAt scales blk 1) (packedAt elems (elemBits fmt) i)

/-- Plain values encoded in order, with the flags ORed. -/
def encodeAll (fmt pol : Nat) (vs : List Ex) : Bytes × Bool × Bool :=
  let cs := vs.map (encodePlain fmt pol)
  (packBytes (elemBits fmt) (cs.map (·.bits)), cs.any (·.nan), cs.any (·.ovf))

/-- A list cut into pieces of `k`. `fuel` bounds the pieces. -/
def chunks {α : Type} (k : Nat) : Nat → List α → List (List α)
  | 0, _ => []
  | fuel + 1, l => if l.isEmpty then [] else l.take k :: chunks k fuel (l.drop k)

/-- MX values whose blocks run along the last dimension: elements, scales and flags. -/
def encodeMxRows (fmt pol : Nat) (vs : List Ex) : Bytes × Bytes × Bool × Bool :=
  let bs := (chunks 32 (vs.length / 32 + 1) vs).map (mxBlock fmt pol)
  (packBytes (elemBits fmt) (bs.flatMap fun x => x.2.1), bs.flatMap (fun x => leBytes 1 x.1),
    bs.any (fun x => x.2.2.1), bs.any (fun x => x.2.2.2))

/-! ### The block-sparse tile (R107–R111) -/

/-- A tile: element format, rows, column blocks and the values of each row. -/
structure Tile where
  elem : Nat
  rows : Nat
  colBlocks : Nat
  vals : List (List Ex)
  deriving DecidableEq, Repr

/-- The set bits of a 32-bit mask, rising. -/
def maskBits (m : Nat) : List Nat := (List.range 32).filter fun j => nbit m j

/-- A block read at `o`: its 32 values and the next offset; none when malformed. -/
def tileBlock (b : Bytes) (elem o : Nat) : Option (List Ex × Nat) :=
  let h := leAt b o 8
  let mask := h % 2 ^ 32
  let sc := nbits h 39 32
  let w := elemBits elem
  let cols := maskBits mask
  let p := cols.length
  let len := (p * w + 63) / 64 * 8
  let pay := slice b (o + 8) len
  let scaleOk := if elem = 2 ∨ elem = 3 then decide (0x69 ≤ sc ∧ sc ≤ 0x8E) || decide (sc = 0xFF) else true
  if b.length < o + 8 + len ∨ h / 2 ^ 40 ≠ 0 ∨ !scaleOk ∨ leNat pay / 2 ^ (p * w) ≠ 0 then none
  else
    let val (j : Nat) : Ex :=
      if sc = 0xFF then .nan
      else if nbit mask j then
        let i := (cols.filter fun c => c < j).length
        ((decodeElem elem (packedAt pay w i)).scale ((sc : Int) - 127)).norm
      else .fin 0 1
    some ((List.range 32).map val, o + 8 + len)

/-- `k` blocks of a row. -/
def tileRow (b : Bytes) (elem : Nat) : Nat → Nat → Option (List Ex × Nat)
  | 0, o => some ([], o)
  | k + 1, o =>
    match tileBlock b elem o with
    | none => none
    | some (v, o) => (tileRow b elem k o).map fun x => (v ++ x.1, x.2)

/-- The rows of a tile from row `r`, each at its ROW_OFFSET. -/
def tileRows (b : Bytes) (elem blocks : Nat) : Nat → Nat → Nat → Option (List (List Ex) × Nat)
  | 0, _, o => some ([], o)
  | k + 1, r, o =>
    if leAt b (0x10 + 4 * r) 4 ≠ o then none
    else match tileRow b elem blocks o with
      | none => none
      | some (v, o) => (tileRows b elem blocks k (r + 1) o).map fun x => (v :: x.1, x.2)

/-- A tile read from its bytes; none when it breaks R111. -/
def readTile (b : Bytes) : Option Tile :=
  let elem := leAt b 0 1
  let rows := leAt b 2 2
  let cb := leAt b 4 2
  let first := roundUp (0x10 + 4 * rows) 8
  if b.length < 0x10 ∨ ¬ (elem = 2 ∨ elem = 3 ∨ isMx elem) ∨ leAt b 1 1 ≠ 0 ∨ rows = 0 ∨ 4096 < rows ∨ cb = 0 ∨ 128 < cb ∨
      leAt b 6 2 ≠ 0 ∨ leAt b 0xC 4 ≠ 0 ∨ !allZero (slice b (0x10 + 4 * rows) (first - (0x10 + 4 * rows))) then none
  else match tileRows b elem cb rows 0 first with
    | some (vs, o) => if leAt b 8 4 = o then some ⟨elem, rows, cb, vs⟩ else none
    | none => none

/-! ### The sparse wire format (R112, R113) -/

/-- One varint at the head of a stream of at most 5 bytes: its value and the rest; none when malformed. -/
def varint : Nat → Bytes → Option (Nat × Bytes)
  | _, [] => none
  | k, b :: bs =>
    let v := b.toNat
    if 5 ≤ k ∨ (k = 4 ∧ 0x0F < v) then none
    else if v < 128 then (if v = 0 ∧ 0 < k then none else some (v, bs))
    else (varint (k + 1) bs).map fun x => (v % 128 + 128 * x.1, x.2)

/-- `n` deltas of an index stream as indices; the stream must end with the last. -/
def indices : Nat → Option Nat → Bytes → Option (List Nat)
  | 0, _, bs => if bs.isEmpty then some [] else none
  | n + 1, prev, bs =>
    match varint 0 bs with
    | none => none
    | some (d, rest) =>
      let i := match prev with | none => d | some p => p + d + 1
      (indices n (some i) rest).map (i :: ·)

/-- A wire vector: value format, dense length, indices and the bits of the values. -/
structure Wire where
  fmt : Nat
  length : Nat
  idx : List Nat
  bits : List Nat
  deriving DecidableEq, Repr

/-- A wire vector read from its bytes; none when malformed. -/
def readWire (b : Bytes) : Option Wire :=
  let fmt := leAt b 0 1
  let n := leAt b 4 4
  let len := leAt b 8 4
  let ib := leAt b 12 4
  let vo := roundUp (0x10 + ib) 8
  let w := elemBits fmt / 8
  let vend := roundUp (vo + n * w) 8
  if b.length < 0x10 ∨ !isPlain fmt ∨ !allZero (slice b 1 3) ∨ len = 0 ∨ len < n ∨ b.length < vend ∨
      !allZero (slice b (0x10 + ib) (vo - (0x10 + ib))) ∨ !allZero (slice b (vo + n * w) (vend - (vo + n * w))) then none
  else match indices n none (slice b 0x10 ib) with
    | none => none
    | some is =>
      if is.any (fun i => len ≤ i) then none
      else some ⟨fmt, len, is, (List.range n).map fun i => leAt b (vo + i * w) w⟩

/-- The varint bytes of a number. `fuel` bounds them. -/
def putVarint : Nat → Nat → Bytes
  | 0, _ => []
  | k + 1, v => if v < 128 then leBytes 1 v else BitVec.ofNat 8 (128 + v % 128) :: putVarint k (v / 128)

/-- The deltas of strictly ascending indices. -/
def deltas : Option Nat → List Nat → List Nat
  | _, [] => []
  | none, i :: is => i :: deltas (some i) is
  | some p, i :: is => (i - p - 1) :: deltas (some i) is

/-- The bytes of a wire vector. -/
def Wire.bytes (w : Wire) : Bytes :=
  let ix := (deltas none w.idx).flatMap (putVarint 5)
  let vb := w.bits.flatMap (leBytes (elemBits w.fmt / 8))
  let pad (n : Nat) : Bytes := List.replicate (roundUp n 8 - n) 0#8
  leBytes 1 w.fmt ++ leBytes 3 0 ++ leBytes 4 w.idx.length ++ leBytes 4 w.length ++ leBytes 4 ix.length ++
    ix ++ pad (0x10 + ix.length) ++ vb ++ pad vb.length

end Sys2Proof.Machine
end

