-- ==== Sys2Proof/Machine/Records.lean ====
section
/-!
DEFINITION. Error records and their notification, and injection (chapter "Errors, containment and injection"); Alley lines and the queues
of the Bell counters, as errors and fences use them.
-/
namespace Sys2Proof.Machine

/-! ### Records -/

/-- The 32 bytes of an error record (Table 24.5). -/
def ErrRec.bytes (r : ErrRec) : Bytes :=
  leBytes 4 r.seq ++ leBytes 1 r.cls ++ leBytes 1 r.detector ++ leBytes 1 r.precinct ++
  leBytes 1 (b2n r.injected + 2 * b2n r.lostBefore) ++ leBytes 2 r.unit ++ leBytes 2 0 ++ leBytes 4 r.detail ++
  leBytes 8 r.addr ++ leBytes 4 r.asid ++ leBytes 4 0

/-- A record joins the error ring, or is dropped and counted when the ring is full or absent (R558). -/
def State.ringErr (s : State) (r : ErrRec) : State :=
  let idx : Reg := ⟨.errRingIdx, 0, 0⟩
  let base : Reg := ⟨.errRingBase, 0, 0⟩
  let lg := s.fget base F.errRingBase_LOG2
  let head := s.fget idx F.errRingIdx_HEAD
  let tail := s.fget idx F.errRingIdx_TAIL
  if lg ≠ 0 ∧ (head + 2 ^ 16 - tail) % 2 ^ 16 < 2 ^ lg then
    let a := s.fget base F.errRingBase_ADDR * 4096 + head % 2 ^ lg * 32
    let s := s.poke a r.bytes
    let s := s.fset idx F.errRingIdx_HEAD ((head + 1) % 2 ^ 16)
    { s with err := { s.err with lost := false } }
  else
    let s := s.fsat idx F.errRingIdx_LOST 1
    { s with err := { s.err with lost := true } }

/-- Quarters in which a precinct holds a stall. -/
def Precinct.inQuarter (r : Precinct) (q : Nat) : Bool :=
  (List.range 12).any fun k => decide (r.stalls.getD (q * 12 + k) 0 ≠ 0)

/-- An EVENT and the AER entries of a record's class (Table 24.1, R624). -/
def State.notifyErr (s : State) (r : ErrRec) : State :=
  let code := r.cls + r.detector * 256
  let pfs (k : Nat) (s : State) : State := (s.emit (.aer 0x000 k)).emit (.aer 0x100 k)
  match r.cls with
  | 1 => pfs 1 s
  | 2 =>
    let s := s.eventPrec r.precinct 0x0006 r.seq code
    (s.instancesOf r.precinct).foldl (fun s f => s.emit (.aer f 2)) s
  | 3 =>
    let s := match s.precOfStall r.unit with
      | some p => s.eventPrec p 0x0006 r.seq code
      | none => s
    pfs 1 s
  | 4 =>
    let q := r.unit / 0x100 % 0x80
    let ps := (s.xim.conf.precincts.filter (fun p => p.inQuarter q)).map (·.id)
    let s := ps.foldl (fun s p => s.eventPrec p 0x0006 r.seq code) s
    pfs 3 s
  | _ => pfs 4 s

/-- Every docket of a precinct ends with UNCORRECTED_ERROR, and can no longer be DETERMINATE (R547, R156). -/
def State.uncorrect (s : State) (p : Nat) : State :=
  (s.instancesOf p).foldl
    (fun s f => s.mapDockets f fun d => { d.endWith 0x0C noOp with uncorrected := true }) s

/-- One error record, with every effect of its class but the fences (R547, R558, R624): the ring, the flash log,
ERR_SUMMARY.SEEN, the notification, the dockets that a class 2 error ends, and interrupt line 6. -/
def State.recordErr (s : State) (cls det prec unit detail addr asid : Nat) (inj : Bool) : State :=
  let r : ErrRec := {
    seq := s.err.seq, cls := cls, detector := det, precinct := prec, injected := inj,
    lostBefore := s.err.lost, unit := unit, detail := detail, addr := addr, asid := asid }
  let s := s.ringErr r
  let s := { s with err := { s.err with seq := s.err.seq + 1, log := if 4 ≤ cls then r :: s.err.log else s.err.log } }
  let sum : Reg := ⟨.errSummary, 0, 0⟩
  let s := s.fset sum F.errSummary_SEEN (setBit (s.fget sum F.errSummary_SEEN) (cls - 1))
  let s := s.notifyErr r
  let s := if cls = 2 then s.uncorrect prec else s
  forNat 4 s fun s q => if s.qFenced q then s else s.raiseLine q 6

/-- The UNIT code of a unit of Quarter `q` (Tables 24.5 and 24.6). -/
def qUnit (q code : Nat) : Nat := 0x8000 + q * 0x100 + code

/-- Stall identifiers of a Quarter. -/
def stallsOf (q : Nat) : List Nat := ((List.range 256).map (q * 256 + ·)).filter stallOk

/-! ### Injection -/

/-- An armed injection at a detector and unit, if its address also matches. -/
def State.injAt (s : State) (det unit : Nat) (addrOk : Nat → Bool) : Option Injection :=
  match s.err.inj with
  | some i => if i.detector = det ∧ i.unit = unit ∧ addrOk i.addr then some i else none
  | none => none

/-- The armed injection fires: it counts, and a ONE_SHOT one disarms (R561). -/
def State.injFire (s : State) : State :=
  let st : Reg := ⟨.errInjStatus, 0, 0⟩
  let s := s.fsat st F.errInjStatus_FIRED 1
  match s.err.inj with
  | some i =>
    if i.sticky then s
    else { s with err := { s.err with inj := none } }.fset st F.errInjStatus_ARMED 0
  | none => s

/-- The armed injection is disarmed (R561). -/
def State.injDisarm (s : State) : State :=
  { s with err := { s.err with inj := none } }.fset ⟨.errInjStatus, 0, 0⟩ F.errInjStatus_ARMED 0

/-- A unit code that lies on the compute die of Quarter `q`: a stall, a Guildhall core, the Street fabric, the Surveyor
or the Bell unit (R561). -/
def onCompute (q unit : Nat) : Bool :=
  if unit < 0x400 then stallQ unit = q
  else decide (unit / 0x100 = 0x80 + q) && decide (unit % 0x100 ∈ [0x01, 0x02, 0x03, 0x04, 0x05, 0x06, 0x07])

/-! ### Alley lines and waiters -/

/-- A line releases when every participant of ALLEY_EN has raised it; a release clears every raised bit (R297). -/
def State.alleyEval (s : State) (q l : Nat) : State :=
  let en := s.rd ⟨.alleyEn, q, l⟩
  let st := s.rd ⟨.alleyState, q, l⟩
  if en ≠ 0 ∧ st &&& en = en then (s.wr ⟨.alleyState, q, l⟩ 0).count q 43 5 1 else s

/-- A participant leaves every Alley line of its Quarter (R299). -/
def State.alleyLeave (s : State) (q p : Nat) : State :=
  forNat 16 s fun s l =>
    let en := s.rd ⟨.alleyEn, q, l⟩
    if nbit en.toNat p then (s.wr ⟨.alleyEn, q, l⟩ (BitVec.ofNat 64 (clearBit en.toNat p))).alleyEval q l else s

/-- The counter of a reference: Quarter and number (Table 6.4). -/
def ctrReg (k : Nat) : Reg := ⟨.bellCntValue, k / 4096, k % 4096⟩

/-- A counter's queue replaced, with BELL_CNT_VALUE.WAITERS following it. -/
def State.setQueue (s : State) (k : Nat) (ws : List Waiter) : State :=
  let s := { s with bell := { s.bell with queue := putD [] s.bell.queue k ws } }
  s.fset (ctrReg k) F.bellCntValue_WAITERS ws.length

end Sys2Proof.Machine
end

