-- ==== Sys2Proof/Machine/Bells.lean ====
section
/-!
DEFINITION. Bell counters, barrier groups, sync entries and Alley lines (chapter "Bells and Alley lines").
-/
namespace Sys2Proof.Machine

/-! ### Counters -/

/-- The largest COUNT: 2^24 − 1. -/
abbrev ctrMax : Nat := 0xFF_FFFF

/-- COUNT of counter `k`. -/
def State.count24 (s : State) (k : Nat) : Nat := s.fget (ctrReg k) F.bellCntValue_COUNT

/-- COUNT replaced. -/
def State.setCount (s : State) (k v : Nat) : State := s.fset (ctrReg k) F.bellCntValue_COUNT v

/-- The queue of waiters of a counter. -/
def State.queue (s : State) (k : Nat) : List Waiter := lookD [] s.bell.queue k

/-- The status register of a counter. -/
def ctrStatus (k : Nat) : Reg := ⟨.bellCntStatus, k / 4096, k % 4096⟩

/-- The configuration register of a counter. -/
def ctrCfg (k : Nat) : Reg := ⟨.bellCntCfg, k / 4096, k % 4096⟩

/-- A counter is privileged (BELL_CNT_CFG.PRIV, R72, R78). -/
def State.privileged (s : State) (k : Nat) : Bool := s.fbit (ctrCfg k) F.bellCntCfg_PRIV

/-- The books of a counter changed: amounts added to the signalled and the consumed side (R314). -/
def State.book (s : State) (k sig con : Nat) : State :=
  let b := lookD (0, 0) s.bell.books k
  { s with bell := { s.bell with books := putD (0, 0) s.bell.books k (b.1 + sig, b.2 + con) } }

/-- The books of a counter restart at a value (R314). -/
def State.rebook (s : State) (k v : Nat) : State :=
  { s with bell := { s.bell with books := putD (0, 0) s.bell.books k (v, 0) } }

/-- A fault of a privileged counter (R313): BELL_FAULT_LAST, and a contained error of the precinct that holds it. -/
def State.bellFault (s : State) (k kind : Nat) (inj : Bool) : State :=
  let q := k / 4096
  let r : Reg := ⟨.bellFaultLast, q, 0⟩
  let s := s.wr r (setBits (setBits (setBits (setBits 0 F.bellFaultLast_VALUE (s.count24 k))
    F.bellFaultLast_COUNTER (k % 4096)) F.bellFaultLast_VALID 1) F.bellFaultLast_KIND kind)
  s.recordErr 2 0x0C (precOr (s.precOfBell q (k % 4096))) (qUnit q 0x03) kind 0 0 inj

/-- A saturation (R305): SAT_HIGH or SAT_LOW, BELL_SAT_LAST, and for a privileged counter a fault (R313). -/
def State.saturate (s : State) (k : Nat) (high : Bool) (op amount src : Nat) : State :=
  let q := k / 4096
  let s := s.fset (ctrStatus k) (if high then F.bellCntStatus_SAT_HIGH else F.bellCntStatus_SAT_LOW) 1
  let r : Reg := ⟨.bellSatLast, q, 0⟩
  let s := s.wr r (setBits (setBits (setBits (setBits (setBits 0 F.bellSatLast_SOURCE src)
    F.bellSatLast_OP op) F.bellSatLast_VALID 1) F.bellSatLast_COUNTER (k % 4096)) F.bellSatLast_AMOUNT amount)
  let s := s.count q 43 2 1
  if s.privileged k then s.bellFault k (if high then 1 else 2) false else s

/-- An injected fault of a privileged counter, at an operation that changed its COUNT (Table 24.7, 0x0C). -/
def State.bellInject (s : State) (k : Nat) : State :=
  if s.privileged k then
    match s.injAt 0x0C (qUnit (k / 4096) 0x03) (fun a => a % 4096 = k % 4096) with
    | some i => s.injFire.bellFault k (if i.syndrome = 0 then 1 else 3) true
    | none => s
  else s

/-! ### Sync entries (Table 11.3) -/

/-- The 32 bytes of sync entry `e` (256 q + its number). -/
def State.syncBytes (s : State) (e : Nat) : Bytes :=
  (List.range 4).flatMap fun w => leBytes 8 (s.rd ⟨.bellSync, e / 256, 4 * (e % 256) + w⟩).toNat

/-- Word 3 of a sync entry. -/
def syncWord3 (e : Nat) : Reg := ⟨.bellSync, e / 256, 4 * (e % 256) + 3⟩

/-- The ARMED bit. -/
abbrev syncArmed : Fld := ⟨63, 63⟩

/-- A sync entry is armed. -/
def State.armed (s : State) (e : Nat) : Bool := s.fbit (syncWord3 e) syncArmed

/-- A sync entry is freed. -/
def State.disarm (s : State) (e : Nat) : State := s.fset (syncWord3 e) syncArmed 0

/-- Wait `w` (0 or 1) of a sync entry: counter and count, if it names one. -/
def syncWait (b : Bytes) (w : Nat) : Option (Nat × Nat) :=
  let c := leAt b (2 * w) 2
  if c = 0xFFFF then none else some (c, leAt b (8 + 4 * w) 4)

/-- The SIGNAL of a sync entry, if it names a counter. -/
def syncSignal (b : Bytes) : Option (Nat × Nat) :=
  let c := leAt b 0x10 2
  if c = 0xFFFF then none else some (c, leAt b 0x14 4)

/-- SOURCE code of a Bell unit acting on its own. -/
abbrev srcBell : Nat := 0x8000 + 22

/-- What a sync entry does when its waits are met (R311): its SIGNAL, or its arrival at a group. An entry that only
signals is then free. -/
def State.syncAct (s : State) (e : Nat) : State × List BellOp :=
  let b := s.syncBytes e
  match leAt b 0x18 1 with
  | 0 =>
    (s.disarm e, match syncSignal b with
      | some (c, n) => [.signal c n srcBell]
      | none => [])
  | a => (s, [.arrive (if a = 1 then e / 256 * 64 + leAt b 0x19 1 else 256 + leAt b 0x19 1) (leAt b 0x1A 1) e 22])

/-! ### Waiters (R302, R303, R306) -/

/-- Waiter entries in use in the Bell unit of Quarter `q`. -/
def State.waitersIn (s : State) (q : Nat) : Nat :=
  ((s.bell.queue.filter fun x => x.1 / 4096 = q).map fun x => x.2.length).sum

/-- A part of a two-counter wait can be released from the other queue's side: it is at the head there and its count is
met, or that side has been met already. -/
def State.otherSide (s : State) (e w : Nat) : Option (Option (Nat × Nat)) :=
  match syncWait (s.syncBytes e) (1 - w) with
  | none => some none
  | some (k, n) =>
    if s.bell.met.contains (.sync (e / 256) (e % 256) (1 - w)) then some none
    else match s.queue k with
      | h :: _ => if h.src = .sync (e / 256) (e % 256) (1 - w) ∧ n ≤ s.count24 k then some (some (k, n)) else none
      | [] => none

/-- `n` consumed from COUNT. -/
def State.consume (s : State) (k n : Nat) : State :=
  ((s.setCount k (s.count24 k - n)).book k 0 n).bellInject k

/-- Held waits of a unit in which entries have come free arrive there, in the order in which they were held (R306); one that still finds no
entry is held again. -/
def State.unhold (s : State) (q : Nat) : State × List BellOp :=
  ({ s with bell := { s.bell with held := s.bell.held.filter fun x => decide (x.1 / 4096 ≠ q) } },
    (s.bell.held.filter fun x => decide (x.1 / 4096 = q)).map fun x => .wait x.1 x.2)

/-- One look at the head of a counter's queue (R302, R303): a waiter whose count is met leaves and consumes it, and the
queue is looked at again. -/
def State.headStep (s : State) (k : Nat) : State × List BellOp :=
  match s.queue k with
  | [] => (s, [])
  | w :: ws =>
    if s.count24 k < w.amount then (s, [])
    else match w.src with
      | .sync q e i =>
        let en := q * 256 + e
        match s.otherSide en i with
        | none => (s, [])
        | some other =>
          let s := (s.consume k w.amount).setQueue k ws
          let s := match other with
            | some (k2, n2) => (s.consume k2 n2).setQueue k2 ((s.queue k2).drop 1)
            | none => s
          let s := { s with bell := { s.bell with met := s.bell.met.filter (fun x => decide (x ≠ WaitSrc.sync q e (1 - i))) } }
          let (s, acts) := s.syncAct en
          let (s, more) := s.unhold (k / 4096)
          let (s, more2) := match other with
            | some (k2, _) => s.unhold (k2 / 4096)
            | none => (s, [])
          (s, acts ++ more ++ more2 ++ BellOp.heads k :: (match other with | some (k2, _) => [BellOp.heads k2] | none => []))
      | src =>
        let s := (s.consume k w.amount).setQueue k ws
        let s := { s with bell := { s.bell with met := src :: s.bell.met } }
        let (s, more) := s.unhold (k / 4096)
        (s, more ++ [.heads k])

/-! ### Barrier groups (R308–R314) -/

/-- The register of a group: `mb` for a mask slot, `dg` for a device group. -/
def groupReg (mb dg : RegName) (g : Nat) : Reg :=
  if g < 256 then ⟨mb, g / 64, g % 64⟩ else ⟨dg, (g - 256) / 64, (g - 256) % 64⟩

def grpExpect (g : Nat) : Reg := groupReg .bellMbExpect .bellDgExpect g
def grpArrived (g : Nat) : Reg := groupReg .bellMbArrived .bellDgArrived g
def grpCtrl (g : Nat) : Reg := groupReg .bellMbCtrl .bellDgCtrl g
def grpStatus (g : Nat) : Reg := groupReg .bellMbStatus .bellDgStatus g

/-- The home Quarter of a group. -/
def grpQ (g : Nat) : Nat := if g < 256 then g / 64 else (g - 256) / 64

/-- A counter is attached to a group (BELL_CNT_CFG). A mask slot is one of the counter's own Quarter. -/
def State.attached (s : State) (k g : Nat) : Bool :=
  let grp := s.fget (ctrCfg k) F.bellCntCfg_GROUP
  match s.fget (ctrCfg k) F.bellCntCfg_ATTACH with
  | 1 => decide (g < 256) && decide (g = k / 4096 * 64 + grp)
  | 2 => g = 256 + grp
  | _ => false

/-- The counters attached to a group, in rising order. -/
def State.attachedTo (s : State) (g : Nat) : List Nat := (List.range 16384).filter fun k => s.attached k g

/-- An attached counter at a release to which R309 step 2 applies: an ordinary one is set to ALIGN_VALUE with its
DRIFT recorded (R312), a privileged one keeps its COUNT and reports a mismatch (R313). -/
def State.realign (s : State) (k : Nat) : State :=
  let c := s.count24 k
  let a := s.fget (ctrCfg k) F.bellCntCfg_ALIGN_VALUE
  if s.privileged k then
    if a < c then (s.fset (ctrStatus k) F.bellCntStatus_MISMATCH_OVER 1).bellFault k 3 false
    else if c < a then (s.fset (ctrStatus k) F.bellCntStatus_MISMATCH_UNDER 1).bellFault k 4 false
    else s
  else
    let s := s.fset (ctrStatus k) F.bellCntStatus_DRIFT (c + 2 ^ 25 - a)
    (s.setCount k a).rebook k a

/-- A group whose ARRIVED equals its EXPECT releases (R309). -/
def State.groupRelease (s : State) (g : Nat) : State × List BellOp :=
  let arrived := lookD [] s.bell.arrivals g
  let early := lookD [] s.bell.early g
  let s := s.wr (grpArrived g) 0
  let s := s.fwrap (grpStatus g) F.bellMbStatus_RELEASES 1
  let s := s.count (grpQ g) 43 1 1
  let s := { s with bell := { s.bell with
    arrivals := drop s.bell.arrivals g, hungGroups := drop s.bell.hungGroups g } }
  let n := s.fget (grpStatus g) F.bellMbStatus_RELEASES
  let ks := if n % (s.fget (grpCtrl g) F.bellMbCtrl_REALIGN_N) = 0 then s.attachedTo g else []
  let s := ks.foldl (fun s k => s.realign k) s
  let ents := ((List.range 64).flatMap fun p => arrived.filter fun x => x.1 = p).filter fun x => x.2 < 1024
  let sigs := ents.filterMap fun x => (syncSignal (s.syncBytes x.2)).map fun c => BellOp.signal c.1 c.2 srcBell
  let s := ents.foldl (fun s x => s.disarm x.2) s
  let rc := s.fget (grpCtrl g) F.bellMbCtrl_RELEASE_CTR
  let rel := if rc = 0xFFFF then [] else [BellOp.signal rc 1 srcBell]
  let s := { s with bell := { s.bell with early := drop s.bell.early g } }
  let s := s.fset (grpStatus g) F.bellMbStatus_EARLY 0
  (s, ks.map BellOp.heads ++ sigs ++ rel ++ early.map fun x => BellOp.arrive g x.1 x.2 22)

/-- An arrival that is dropped frees its sync entry without signalling (R311). -/
def State.dropArrival (s : State) (e : Nat) : State :=
  if e < 1024 then
    let r : Reg := ⟨.bellSyncErr, e / 256, 0⟩
    ((s.disarm e).fset r F.bellSyncErr_DROPPED 1).fset r F.bellSyncErr_ENTRY (e % 256)
  else s

/-- An arrival of a participant at a group (R308, R310). -/
def State.arrive (s : State) (g p e rq : Nat) : State × List BellOp :=
  if s.qFenced (grpQ g) then (s.dropArrival e, [])
  else if !nbit (s.rd (grpExpect g)).toNat p then
    ((s.strayCode rq 2 (grpArrived g).offset).dropArrival e, [])
  else if nbit (s.rd (grpArrived g)).toNat p then
    let early := lookD [] s.bell.early g
    if early.any (fun x => x.1 = p) then ((s.fset (grpStatus g) F.bellMbStatus_OVERRUN 1).dropArrival e, [])
    else
      let s := { s with bell := { s.bell with early := put s.bell.early g (early ++ [(p, e)]) } }
      (s.fset (grpStatus g) F.bellMbStatus_EARLY (early.length + 1), [])
  else
    let a := setBit (s.rd (grpArrived g)).toNat p
    let s := s.wr (grpArrived g) (BitVec.ofNat 64 a)
    let s := { s with bell := { s.bell with
      arrivals := put s.bell.arrivals g (lookD [] s.bell.arrivals g ++ [(p, e)]) } }
    if s.rd (grpArrived g) = s.rd (grpExpect g) then s.groupRelease g else (s, [])

/-! ### Operations at a Bell unit (Table 11.2) -/

/-- The Bell unit an operation goes to. -/
def BellOp.unit : BellOp → Nat
  | .signal k _ _ | .wait k _ | .take k _ _ | .debit k _ _ | .set k _ _ | .wakeAll k | .heads k => k / 4096
  | .arrive g _ _ _ => grpQ g

/-- A snapshot of the Bell unit of Quarter `q` is being copied. -/
def State.snapBusy (s : State) (q : Nat) : Bool := s.fbit ⟨.bellSnapCtrl, q, 0⟩ F.bellSnapCtrl_BUSY

/-- A SIGNAL of `n` (R301, R305). -/
def State.doSignal (s : State) (k n src : Nat) : State :=
  let c := s.count24 k
  let v := min (c + n) ctrMax
  let s := ((s.setCount k v).book k (v - c) 0).count (k / 4096) 43 0 1
  let s := s.bellInject k
  if ctrMax < c + n then s.saturate k true 0 n src else s

/-- A DEBIT of `n` (R305). -/
def State.doDebit (s : State) (k n src : Nat) : State :=
  let c := s.count24 k
  let s := ((s.setCount k (c - n)).book k 0 (min c n)).count (k / 4096) 43 0 1
  let s := s.bellInject k
  if c < n then s.saturate k false 1 n src else s

/-- A WAIT (R302, R306): consumes at once where nobody waits and COUNT suffices; else joins the queue's tail, or holds at
its source while no entry is free. A part of a two-counter wait always joins. -/
def State.doWait (s : State) (k : Nat) (w : Waiter) : State × List BellOp :=
  let plain : Bool := match w.src with | .sync _ _ _ => false | _ => true
  if plain && (s.queue k).isEmpty && decide (w.amount ≤ s.count24 k) then
    let s := (s.consume k w.amount).count (k / 4096) 43 0 1
    ({ s with bell := { s.bell with met := w.src :: s.bell.met } }, [])
  else if 1024 ≤ s.waitersIn (k / 4096) then
    ({ s with bell := { s.bell with held := s.bell.held ++ [(k, w)] } }, [])
  else ((s.setQueue k (s.queue k ++ [w])).count (k / 4096) 43 0 1, [.heads k])

/-- One waiter released by a WAKE_ALL: it goes on as if its wait had been met. -/
def State.wakeOne (x : State × List BellOp) (w : Waiter) : State × List BellOp :=
  match w.src with
  | .sync q e i =>
    match x.1.otherSide (q * 256 + e) i with
    | some none =>
      let (s, ops) := x.1.syncAct (q * 256 + e)
      ({ s with bell := { s.bell with met := s.bell.met.filter (fun y => decide (y ≠ WaitSrc.sync q e (1 - i))) } }, x.2 ++ ops)
    | some (some (k2, _)) =>
      ({ x.1 with bell := { x.1.bell with met := w.src :: x.1.bell.met } }, x.2 ++ [.heads k2])
    | none => ({ x.1 with bell := { x.1.bell with met := w.src :: x.1.bell.met } }, x.2)
  | src => ({ x.1 with bell := { x.1.bell with met := src :: x.1.bell.met } }, x.2)

/-- WAKE_ALL (R304): every waiter in the queue goes on as if its wait had been met; nothing is consumed. Held waits take the entries that
come free, behind those released. -/
def State.doWakeAll (s : State) (k : Nat) : State × List BellOp :=
  let ws := s.queue k
  let s := (s.setQueue k []).count (k / 4096) 43 0 1
  if ws.isEmpty then (s, [])
  else
    let (s, ops) := ws.foldl State.wakeOne (s, [])
    let (s, more) := s.unhold (k / 4096)
    (s, ops ++ more)

/-- One operation at its unit: the state after it, and the operations it gives rise to in the same step. -/
def State.bellStep (s : State) (op : BellOp) : State × List BellOp :=
  if s.snapBusy op.unit then ({ s with bell := { s.bell with deferred := s.bell.deferred ++ [op] } }, [])
  else match op with
    | .signal k n src => (s.doSignal k n src, [.heads k])
    | .wait k w => s.doWait k w
    | .take k n _ =>
      if (s.queue k).isEmpty && decide (n ≤ s.count24 k) then ((s.consume k n).count (k / 4096) 43 0 1, [])
      else (s.count (k / 4096) 43 0 1, [])
    | .debit k n src => (s.doDebit k n src, [.heads k])
    | .set k v _ => ((((s.setCount k v).rebook k v).count (k / 4096) 43 0 1).bellInject k, [.heads k])
    | .wakeAll k => s.doWakeAll k
    | .arrive g p e rq => s.arrive g p e rq
    | .heads k => s.headStep k

/-- Operations run in order, those each gives rise to before the next, until none is left. Every release frees a
waiter, a sync entry or an arrival, so `fuel` counts more steps than there can be. -/
def State.bellRun : Nat → List BellOp → State → State
  | 0, _, s => s
  | _ + 1, [], s => s
  | fuel + 1, op :: ops, s =>
    let (s', new) := s.bellStep op
    State.bellRun fuel (new ++ ops) s'

/-- More steps than one operation can give rise to. -/
abbrev bellFuel : Nat := 65536

/-- Operations reaching the Bell units. -/
def State.bells (s : State) (ops : List BellOp) : State := State.bellRun bellFuel ops s

/-- A SIGNAL of a unit of the device to a counter reference (Table 6.4), 0xFFFF for none. -/
def State.signal (s : State) (ref n src : Nat) : State :=
  if ref = 0xFFFF then s else s.bells [.signal ref n src]

/-! ### References and their owners (R300) -/

/-- A counter reference is well formed (Table 6.4): bits 15:14 are 0. -/
def refOk (ref : Nat) : Bool := ref < 0x4000

/-- A counter that precinct `p` (0xFF: firmware) may name (R300). -/
def State.mayName (s : State) (p ref : Nat) : Bool :=
  refOk ref && (match s.precOfBell (ref / 4096) (ref % 4096) with
    | none => true
    | some q => p = q)

/-- A wait or signal field is well formed: none named with count 0, or a counter the precinct may name with a count
from 1 to 2^24 − 1 (R300). -/
def State.refField (s : State) (p ref n : Nat) : Bool :=
  if ref = 0xFFFF then n = 0 else s.mayName p ref && decide (1 ≤ n) && decide (n ≤ ctrMax)

/-- The owner of a group in force (Table 3.6). -/
def State.groupOwner (s : State) (g : Nat) : Nat :=
  if g < 256 then s.xim.conf.sync.mask.getD g 0xFF else s.xim.conf.sync.device.getD (g - 256) 0xFF

/-- A sync entry is well formed (Table 11.3, R300, R311). -/
def State.syncOk (s : State) (e : Nat) : Bool :=
  let b := s.syncBytes e
  let p := leAt b 4 1
  let any := p = 0xFF
  let fld (ref n : Nat) : Bool :=
    if any then (if ref = 0xFFFF then n = 0 else refOk ref && decide (1 ≤ n) && decide (n ≤ ctrMax))
    else s.refField p ref n
  let a := leAt b 0x18 1
  let g := leAt b 0x19 1
  decide (p < 64 ∨ p = 0xFF) && allZero (slice b 5 3) && allZero (slice b 0x12 2) && allZero (slice b 0x1B 4) &&
  decide (leAt b 0x1F 1 % 128 = 0) &&
  fld (leAt b 0 2) (leAt b 8 4) && fld (leAt b 2 2) (leAt b 0xC 4) && fld (leAt b 0x10 2) (leAt b 0x14 4) &&
  decide (leAt b 0 2 = 0xFFFF ∨ leAt b 0 2 ≠ leAt b 2 2) &&
  (match a with
    | 0 => true
    | 1 => decide (g < 64) && decide (leAt b 0x1A 1 < 64) && decide (s.groupOwner (e / 256 * 64 + g) = p)
    | 2 => decide (leAt b 0x1A 1 < 64) && decide (s.groupOwner (256 + g) = p)
    | _ => false)

/-! ### The commands -/

/-- SOURCE code of a requester (BELL_SAT_LAST). -/
def srcOf : Requester → Nat
  | .porter c => 0x4000 + c.val
  | .carter _ => 0xC000
  | rq => 0x8000 + rqCode rq

/-- A counter by Quarter and number. -/
def ctrKey (q : Qn) (n : Fin 4096) : Nat := q.val * 4096 + n.val

/-- The BELL_CNT_OP register of a counter. -/
def ctrOp (k : Nat) : Reg := ⟨.bellCntOp, k / 4096, k % 4096⟩

/-- Who may issue a SIGNAL: kernel cores and the Watch post through BELL_CNT_OP, and the units that signal of their own. -/
def maySignal (rq : Requester) : Bool :=
  rqKernel rq || (match rq with | .porter _ | .causeway _ | .bell _ | .carter _ => true | _ => false)

/-- A write of BELL_CNT_OP by a requester that may not, or with a reserved AMOUNT of 0, is a stray write. -/
def State.bellOpWrite (s : State) (rq : Requester) (k : Nat) (ok : Bool) (op : BellOp) : State :=
  if ok then s.bells [op] else s.refuse rq (ctrOp k)

/-- BELL_SIGNAL (R302): COUNT += n, saturating, then head waiters are released. -/
def execBellSignal (rq : Requester) (q : Qn) (n : Fin 4096) (amount : BitVec 24) (s : State) :
    Host.Outcome State Fault Refusal :=
  let k := ctrKey q n
  done (s.bellOpWrite rq k (maySignal rq && decide (amount ≠ 0)) (.signal k amount.toNat (srcOf rq)))

/-- BELL_TAKE (R300, Table 11.2). -/
def execBellTake (rq : Requester) (q : Qn) (n : Fin 4096) (amount : BitVec 24) (s : State) :
    Host.Outcome State Fault Refusal :=
  let k := ctrKey q n
  done (s.bellOpWrite rq k (rqKernel rq && decide (amount ≠ 0)) (.take k amount.toNat (srcOf rq)))

/-- BELL_DEBIT (R305). -/
def execBellDebit (rq : Requester) (q : Qn) (n : Fin 4096) (amount : BitVec 24) (s : State) :
    Host.Outcome State Fault Refusal :=
  let k := ctrKey q n
  done (s.bellOpWrite rq k (rqKernel rq && decide (amount ≠ 0)) (.debit k amount.toNat (srcOf rq)))

/-- BELL_SET (R314): COUNT = v, the books restart, waiters are released. -/
def execBellSet (rq : Requester) (q : Qn) (n : Fin 4096) (value : BitVec 24) (s : State) :
    Host.Outcome State Fault Refusal :=
  let k := ctrKey q n
  done (s.bellOpWrite rq k (rqKernel rq) (.set k value.toNat (srcOf rq)))

/-- BELL_WAKE_ALL (R304). -/
def execBellWakeAll (rq : Requester) (q : Qn) (n : Fin 4096) (s : State) : Host.Outcome State Fault Refusal :=
  let k := ctrKey q n
  done (s.bellOpWrite rq k (rqKernel rq) (.wakeAll k))

/-- BELL_ARRIVE (R308): an arrival from a Bell unit or a Carter bell message at a mask slot or device group. -/
def execBellArrive (rq : Requester) (device : Bool) (g : Fin 256) (p : Fin 64) (s : State) :
    Host.Outcome State Fault Refusal :=
  done (s.bells [.arrive (if device then 256 + g.val else g.val) p.val 1024 (rqCode rq)])

/-- BELL_EXPECT_WRITE (R310): EXPECT changes only while ARRIVED is 0 and no early arrival is held. -/
def State.expectWrite (s : State) (rq : Requester) (g : Nat) (v : W64) : State :=
  if rqKernel rq && decide (s.rd (grpArrived g) = 0) && (lookD [] s.bell.early g).isEmpty then s.wr (grpExpect g) v
  else s.refuse rq (grpExpect g)

def execBellExpectWrite (rq : Requester) (q : Qn) (device : Bool) (m : Fin 64) (v : W64) (s : State) :
    Host.Outcome State Fault Refusal :=
  done (s.expectWrite rq ((if device then 256 else 0) + q.val * 64 + m.val) v)

/-- A write of word 3 of a sync entry with ARMED set (R311): the entry starts its waits, or clears ARMED as
malformed. -/
def State.syncArm (s : State) (rq : Requester) (e : Nat) (v : W64) : State :=
  if !rqKernel rq || s.armed e then s.refuse rq (syncWord3 e)
  else
    let s := s.wr (syncWord3 e) v
    if s.syncOk e then
      let b := s.syncBytes e
      let ws := [0, 1].filterMap fun w => (syncWait b w).map fun c =>
        BellOp.wait c.1 { src := .sync (e / 256) (e % 256) w, amount := c.2 }
      if ws.isEmpty then
        let (s, ops) := s.syncAct e
        s.bells ops
      else s.bells ws
    else
      let r : Reg := ⟨.bellSyncErr, e / 256, 0⟩
      ((s.disarm e).fset r F.bellSyncErr_MALFORMED 1).fset r F.bellSyncErr_ENTRY (e % 256)

def execSyncEntryArm (rq : Requester) (q : Qn) (e : Fin 256) (v : W64) (s : State) :
    Host.Outcome State Fault Refusal :=
  done (if bitsOf v syncArmed = 1 then s.syncArm rq (q.val * 256 + e.val) v else s)

/-! ### Hangs and snapshots (R315, R316) -/

/-- A snapshot starts: BUSY is set, and the unit holds what reaches it. A start while BUSY is 1 is ignored. -/
def State.snapStart (s : State) (q cause kind idx : Nat) : State :=
  if s.snapBusy q then s
  else
    let s := s.fset ⟨.bellSnapCtrl, q, 0⟩ F.bellSnapCtrl_BUSY 1
    { s with bell := { s.bell with snap := put s.bell.snap q (cause, kind, idx) } }

/-- A hang: the Guildhall Bell interrupt, the count of hangs, and a snapshot if AUTO_ON_HANG is set. -/
def State.hangReport (s : State) (q kind idx : Nat) : State :=
  let s := (s.raiseLine q 1).count q 43 3 1
  if s.fbit ⟨.bellSnapCtrl, q, 0⟩ F.bellSnapCtrl_AUTO_ON_HANG then s.snapStart q 1 kind idx else s

/-- HANG_LIMIT of the group a counter is attached to; 0 for none. -/
def State.hangLimit (s : State) (k : Nat) : Nat :=
  let grp := s.fget (ctrCfg k) F.bellCntCfg_GROUP
  match s.fget (ctrCfg k) F.bellCntCfg_ATTACH with
  | 1 => s.fget (grpCtrl (k / 4096 * 64 + grp)) F.bellMbCtrl_HANG_LIMIT_US
  | 2 => s.fget (grpCtrl (256 + grp)) F.bellMbCtrl_HANG_LIMIT_US
  | _ => 0

/-- BELL_SNAP_TAKE (R316). -/
def execBellSnapTake (rq : Requester) (q : Qn) (s : State) : Host.Outcome State Fault Refusal :=
  done (if rqKernel rq then s.snapStart q.val 0 0 0 else s.refuse rq ⟨.bellSnapCtrl, q.val, 0⟩)

/-- The waiter entries of a unit, in counter order: counter, position and waiter. -/
def State.waiterList (s : State) (q : Nat) : List (Nat × Nat × Waiter) :=
  (s.bell.queue.filter fun x => x.1 / 4096 = q).flatMap fun x =>
    x.2.zipIdx.map fun w => (x.1 % 4096, w.2, w.1)

/-- SOURCE code of a waiter (BELL_SAT_LAST coding). -/
def waitCode : WaitSrc → Nat
  | .task st => st
  | .chan c => 0x4000 + c
  | .sync _ _ _ => srcBell
  | .order c => 0xC000 + c % 0x4000
  | .ledger q => stallId (q % 4) 10 0

/-- The words of a group in a snapshot. -/
def State.groupWords (s : State) (g : Nat) : Bytes :=
  [grpExpect g, grpArrived g, grpCtrl g, grpStatus g].flatMap fun r => leBytes 8 (s.rd r).toNat

/-- The 94,528 bytes of a snapshot (Table 11.5). AGE_US of a waiter is a time the model does not count: free bytes. -/
def State.snapBytes (s : State) (q : Nat) : Bytes :=
  let (cause, kind, idx) := lookD (0, 0, 0) s.bell.snap q
  let seq := s.fget ⟨.bellSnapCtrl, q, 0⟩ F.bellSnapCtrl_SEQ
  let hdr := leBytes 4 0x5041_4E53 ++ leBytes 1 q ++ leBytes 1 cause ++ leBytes 2 0 ++ leBytes 4 seq ++
    leBytes 1 kind ++ leBytes 1 0 ++ leBytes 2 idx ++ List.replicate 48 0#8
  let ctrs := (List.range 4096).flatMap fun n =>
    leBytes 8 (s.rd (ctrReg (q * 4096 + n))).toNat ++ leBytes 8 (s.rd (ctrStatus (q * 4096 + n))).toNat
  let masks := (List.range 64).flatMap fun m => s.groupWords (q * 64 + m)
  let devs := (List.range 64).flatMap fun m => s.groupWords (256 + q * 64 + m)
  let syncs := (List.range 256).flatMap fun e => s.syncBytes (q * 256 + e)
  let ws := s.waiterList q
  let wait := ws.zipIdx.flatMap fun x =>
    let age := (List.range 4).map fun i => Config.freeByte (s.fresh + 4 * x.2 + i)
    leBytes 2 (0x8000 + x.1.1) ++ leBytes 4 x.1.2.2.amount ++ leBytes 2 (waitCode x.1.2.2.src) ++ age ++
      leBytes 2 x.1.2.1 ++ leBytes 2 0
  let waits := slice wait 0 (1024 * 16)
  let alley := (List.range 16).flatMap fun l =>
    leBytes 8 (s.rd ⟨.alleyEn, q, l⟩).toNat ++ leBytes 8 (s.rd ⟨.alleyState, q, l⟩).toNat
  hdr ++ ctrs ++ masks ++ devs ++ syncs ++ waits ++ alley

/-- BELL_SNAP_DONE (R316): the copy is complete; BUSY clears, SEQ advances, and the held operations go on. -/
def execBellSnapDone (q : Qn) (s : State) : Host.Outcome State Fault Refusal :=
  if s.snapBusy q.val then
    let r : Reg := ⟨.bellSnapCtrl, q.val, 0⟩
    let n := (s.waiterList q.val).length
    let s' := s.poke (s.fget ⟨.bellSnapAddr, q.val, 0⟩ F.bellSnapAddr_ADDR * 4096) (s.snapBytes q.val)
    let s' := ((s'.useFresh (4 * n)).fset r F.bellSnapCtrl_BUSY 0).fwrap r F.bellSnapCtrl_SEQ 1
    let ops := s'.bell.deferred.filter fun op => op.unit = q.val
    let s' := { s' with bell := { s'.bell with
      deferred := s'.bell.deferred.filter (fun op => op.unit ≠ q.val), snap := drop s'.bell.snap q.val } }
    done (s'.bells ops)
  else done s

/-! ### Alley lines (R297–R299) -/

/-- A participant raises a line; a second raise in one generation has no effect (R298). -/
def State.alleyRaise (s : State) (q l p : Nat) : State :=
  let r : Reg := ⟨.alleyState, q, l⟩
  (s.wr r (BitVec.ofNat 64 (setBit (s.rd r).toNat p))).alleyEval q l

/-- ALLEY_RAISE (R298): only a Guildhall core of the Quarter raises through the register. -/
def execAlleyRaise (rq : Requester) (q : Qn) (l : Fin 16) (s : State) : Host.Outcome State Fault Refusal :=
  match rq with
  | .core n k =>
    if k && decide (n.val < 16) && decide (n.val / 4 = q.val) then
      done (s.alleyRaise q.val l.val (48 + n.val % 4))
    else done (s.refuse rq ⟨.alleyRaise, q.val, 0⟩)
  | _ => done (s.refuse rq ⟨.alleyRaise, q.val, 0⟩)

/-- The stall of Quarter `q` with participant number `p` (Table 11.1). -/
def stallOfPart (q p : Nat) : Option Nat :=
  if p < 42 then (stallsOf q).find? fun st => participant st = p else none

/-- Every bit of a mask names a Guildhall core, or a stall of the line's owner (for a firmware line, a stall of no
precinct) (R299). -/
def State.alleyMaskOk (s : State) (q l : Nat) (v : W64) : Bool :=
  let owner := s.xim.conf.sync.alley.getD (16 * q + l) 0xFF
  (List.range 64).all fun p =>
    !nbit v.toNat p || (decide (48 ≤ p) && decide (p < 52)) ||
    (match stallOfPart q p with
      | some st => precOr (s.precOfStall st) = owner
      | none => false)

/-- ALLEY_EN_WRITE (R299): the write takes effect whole or not at all, and may release the line. -/
def State.alleyEnWrite (s : State) (rq : Requester) (q l : Nat) (v : W64) : State :=
  if rqKernel rq && s.alleyMaskOk q l v then (s.wr ⟨.alleyEn, q, l⟩ v).alleyEval q l
  else s.refuse rq ⟨.alleyEn, q, l⟩

def execAlleyEnWrite (rq : Requester) (q : Qn) (l : Fin 16) (v : W64) (s : State) :
    Host.Outcome State Fault Refusal :=
  done (s.alleyEnWrite rq q.val l.val v)

end Sys2Proof.Machine
end

