-- ==== Sys2Proof/Machine/LedgerData.lean ====
section
/-!
DEFINITION. Volumes, their replicas and their commands, and what ends a command that has not finished (R432, R438–R441).
-/
namespace Sys2Proof.Machine

/-! ### Commands (Tables 18.2 and 18.3) -/

def lOp (d : Bytes) : Nat := leAt d 0 1
def lFlags (d : Bytes) : Nat := leAt d 1 1
def lCid (d : Bytes) : Nat := leAt d 2 2
def lBlocks (d : Bytes) : Nat := leAt d 4 4
def lLba (d : Bytes) : Nat := leAt d 8 8
def lData (d : Bytes) : Nat := leAt d 0x10 8
def lAux (d : Bytes) : Nat := leAt d 0x18 8
def lArg0 (d : Bytes) : Nat := leAt d 0x20 4
def lArg1 (d : Bytes) : Nat := leAt d 0x24 4

/-- Every command except READ, FLUSH and the feature commands is a write (R438). -/
def lIsWrite (d : Bytes) : Bool := !([1, 3, 9, 10] : List Nat).contains (lOp d)

/-- A command that writes blocks: WRITE, WRITE_ZEROES, DISCARD and COMPARE_AND_WRITE. -/
def lWrites (d : Bytes) : Bool := ([2, 4, 5, 6] : List Nat).contains (lOp d)

/-- Two commands' block ranges share a block. -/
def lOverlap (a b : Bytes) : Bool :=
  let touches (d : Bytes) : Bool := lWrites d || decide (lOp d = 1)
  touches a && touches b && decide (lLba a < lLba b + lBlocks b) && decide (lLba b < lLba a + lBlocks a)

/-! ### Volumes -/

/-- The size below which a write is atomic as a whole (R440). -/
abbrev pieceBytes : Nat := 256 * 1024

def Volume.healthy (v : Volume) : Nat := (v.replicas.filter (·.up)).length

/-- STATE of Table 18.1. -/
def Volume.state (v : Volume) : Nat :=
  if v.healthy = 0 then 5 else if v.op = 1 then 3 else if v.op = 2 then 4 else if v.healthy < v.replicas.length then 2 else 1

/-- The records of a write: byte ranges of the volume, each all old or all new (R440). -/
def records (start n : Nat) : List (Nat × Nat) :=
  if n ≤ pieceBytes then [(start, n)]
  else (List.range ((start + n - 1) / pieceBytes + 1 - start / pieceBytes)).map fun i =>
    let lo := max start ((start / pieceBytes + i) * pieceBytes)
    (lo, min (start + n) ((start / pieceBytes + i + 1) * pieceBytes) - lo)

/-- The byte range of a command. -/
def Volume.range (v : Volume) (d : Bytes) : Nat × Nat := (lLba d * 2 ^ v.log2, lBlocks d * 2 ^ v.log2)

/-- The bytes of a block of a replica. -/
def Replica.block (r : Replica) (size n : Nat) : Bytes := slice ((look r.blocks n).getD []) 0 size

/-- Bytes of a replica, from a block on. -/
def Replica.read (r : Replica) (size lba n : Nat) : Bytes := (List.range n).flatMap fun i => r.block size (lba + i)

/-- A replica with bytes written over blocks; a block of zeros is not listed. -/
def Replica.write (r : Replica) (size lba : Nat) (data : Bytes) : Replica :=
  { r with blocks := (List.range (data.length / size)).foldl (fun t i =>
      let b := slice data (i * size) size
      if allZero b then drop t (lba + i) else put t (lba + i) b) r.blocks }

/-- The lowest-numbered healthy replica. -/
def Volume.first (v : Volume) : Option Replica := v.replicas.find? (·.up)

/-- One record of a write applied to replica `k`: the bytes of `data`, which starts at byte `start`, that lie in the record. -/
def Volume.apply (v : Volume) (k start : Nat) (data : Bytes) (rec_ : Nat × Nat) : Volume :=
  let size := 2 ^ v.log2
  { v with replicas := v.replicas.mapIdx fun i r =>
      if i = k then r.write size (rec_.1 / size) (slice data (rec_.1 - start) rec_.2) else r }

/-! ### Queues -/

def State.lqueue (s : State) (n : Nat) : Option LQueue := look s.ledger.queues n
def State.setLqueue (s : State) (n : Nat) (q : LQueue) : State :=
  { s with ledger := { s.ledger with queues := put s.ledger.queues n q } }
def State.volume (s : State) (n : Nat) : Option Volume := look s.ledger.volumes n
def State.setVolume (s : State) (n : Nat) (v : Volume) : State :=
  { s with ledger := { s.ledger with volumes := put s.ledger.volumes n v } }

def LQueue.admin (q : LQueue) : Bool := nbit q.flags 0
def LQueue.dbBell (q : LQueue) : Bool := nbit q.flags 1

/-- A started write that ends before every replica has reported it: each record that a replica has not reported is there or not, as
a free value says, and the records are left uncertain (R441). -/
def State.leaveUncertain (s : State) (vol : Nat) (c : LCmd) : State :=
  match s.volume vol with
  | none => s
  | some v =>
    if !c.started || !lWrites c.desc then s
    else
      let (start, n) := v.range c.desc
      let rs := records start n
      let cases := (List.range v.replicas.length).flatMap fun k => (List.range rs.length).map fun i => (k, i)
      let v := cases.foldl (fun (v : Volume) x =>
        if !c.acks.contains x && Config.freeBool (s.fresh + x.1 * rs.length + x.2) then v.apply x.1 start c.data (rs.getD x.2 (0, 0)) else v) v
      (s.useFresh cases.length).setVolume vol { v with uncertain := v.uncertain ++ rs }

/-- The commands of a queue that have not ended, ended with a status. -/
def State.endCmds (s : State) (n status : Nat) : State :=
  match s.lqueue n with
  | none => s
  | some q =>
    let s := (q.cmds.filter (·.ended.isNone)).foldl (fun s c => s.leaveUncertain q.volume c) s
    s.setLqueue n { q with cmds := q.cmds.map fun c => if c.ended.isNone then { c with ended := some (status, 0) } else c }

/-- Queues that the Ledger stall of a Quarter serves. -/
def State.servedBy (s : State) (q : Nat) : List Nat := (s.ledger.queues.filter fun x => x.2.stall = q).map (·.1)

/-- A queue reset in progress that a wider reset or a fence overtakes answers nobody (R607): no function has the number 512. LEDGER_OP is no
longer BUSY with it. -/
def State.overtakeReset (s : State) (n : Nat) : State :=
  match s.lqueue n with
  | none => s
  | some q =>
    if !q.resetting then s
    else
      let s := s.setLqueue n { q with resetBy := some 512 }
      if q.resetBy.isSome then s else s.fset ⟨.ledgerOp, q.stall, 0⟩ F.ledgerOp_BUSY 0

/-- The Ledger stall of Quarter `q` is fenced: commands outstanding there end with BACKING_UNAVAILABLE, and each queue moves to the
precinct's Ledger stall with the fewest queues, or is PAUSED. A wait for its doorbell counter that has not been met is over. -/
def State.ledgerFenced (s : State) (q : Nat) : State :=
  (s.servedBy q).foldl (fun s n =>
    let s := (s.endCmds n 0x44).overtakeReset n
    match s.lqueue n with
    | none => s
    | some x =>
      let others := (List.range 4).filter fun k =>
        decide (k ≠ q) && decide (s.precOfStall (stallId k 10 0) = some x.prec) && !s.stallFenced (stallId k 10 0)
      match others.foldl (fun m k => match m with
          | none => some k
          | some j => if (s.servedBy k).length < (s.servedBy j).length then some k else some j) none with
      | some k => s.setLqueue n { x with stall := k, waiting := x.waiting && s.bell.met.contains (.ledger n) }
      | none => s.setLqueue n { x with state := 2, waiting := x.waiting && s.bell.met.contains (.ledger n) }) s

end Sys2Proof.Machine
end

