-- ==== Sys2Proof/Machine/Errors.lean ====
section
/-!
DEFINITION. The fencing of stalls and Quarters, and what else ends work that stalls, channels and links have in hand (chapter "Errors,
containment and injection").
-/
namespace Sys2Proof.Machine

/-! ### Waiters that leave -/

/-- Waiters of a source leave their queues and consume nothing (R306). A waiter that stands at the head then goes on if its count is met,
and held waits take the entries that have come free (DEDUCED). -/
def State.dropWaiters (s : State) (p : WaitSrc → Bool) : State :=
  let ks := (s.bell.queue.filter fun x => x.2.any fun w => p w.src).map (·.1)
  let s := ks.foldl (fun s k => s.setQueue k ((s.queue k).filter fun w => !p w.src)) s
  let s := { s with bell := { s.bell with
    held := s.bell.held.filter fun x => !p x.2.src,
    met := s.bell.met.filter fun x => !p x } }
  let free := (ks.map (· / 4096)).dedup
  let (s, ops) := free.foldl (fun (x : State × List BellOp) q =>
    let (s, ops) := x.1.unhold q
    (s, x.2 ++ ops)) (s, ks.map .heads)
  s.bells ops

/-! ### Streets, as fences use them -/

/-- The fields of a route entry. -/
def State.route (s : State) (q n : Nat) : Nat × Nat × Nat × Nat :=
  let r : Reg := ⟨.streetRoute, q, n⟩
  (s.fget r F.streetRoute_SRC_STALL, s.fget r F.streetRoute_SRC_PORT, s.fget r F.streetRoute_DST_STALL,
    s.fget r F.streetRoute_DST_PORT)

/-- A route ends by a fence (R252): one flit with POISON and END reaches a surviving receiver, the route's other flits
are discarded, and VALID and ACTIVE clear. -/
def State.routeFence (s : State) (q n : Nat) (alive : Nat → Bool) : State :=
  let r : Reg := ⟨.streetRoute, q, n⟩
  let (src, sp, dst, dp) := s.route q n
  let last : List Flit := if alive dst then [⟨[], true, true⟩] else []
  let s := { s with street := { s.street with
    outq := drop s.street.outq (key2 src sp),
    inq := putD [] s.street.inq (key2 dst dp) last,
    credits := drop s.street.credits (key2 q n) } }
  (s.fset r F.streetRoute_VALID 0).fset r F.streetRoute_ACTIVE 0

/-- Every route of Quarter `q` that touches a stall for which `hit` holds ends by a fence. -/
def State.routesFence (s : State) (q : Nat) (hit : Nat → Bool) : State :=
  forNat 256 s fun s n =>
    let (src, _, dst, _) := s.route q n
    if s.fbit ⟨.streetRoute, q, n⟩ F.streetRoute_ACTIVE && (hit src || hit dst) then
      s.routeFence q n (fun d => !hit d)
    else s

/-! ### Porter channels, as fences and links use them -/

/-- Channel `c`'s state beyond its registers. -/
def State.chan (s : State) (c : Nat) : Chan := (look s.porter.chans c).getD {}

/-- Channel `c`'s state replaced. -/
def State.setChan (s : State) (c : Nat) (x : Chan) : State :=
  { s with porter := { s.porter with chans := putD {} s.porter.chans c x } }

/-- The STATE of a channel (Table 10.6). -/
def State.chanState (s : State) (c : Nat) : Nat := s.fget ⟨.porterChState, c, 0⟩ F.porterChState_STATE

/-- The STATE of a channel replaced. -/
def State.setChanState (s : State) (c v : Nat) : State := s.fset ⟨.porterChState, c, 0⟩ F.porterChState_STATE v

/-- The first failure of a channel's descriptor is kept (R288). -/
def Chan.failWith (ch : Chan) (code : Nat) (dstSide : Bool) (addr : Nat) : Chan :=
  match ch.fail with
  | some _ => ch
  | none => { ch with fail := some (code, dstSide, addr) }

/-- A burst in flight ends in a failure (R288). One whose read side failed and whose destination is device memory or a
Causeway link stays in flight to write its bytes poisoned; any other is over. -/
def State.failBurst (s : State) (c id code : Nat) (dstSide : Bool) : State :=
  let ch := s.chan c
  match ch.flight.find? (fun b => b.id = id) with
  | none => s
  | some b =>
    let ch := ch.failWith code dstSide (if dstSide then b.dst else b.src)
    if dstSide || b.isFlush || decide (b.phase = .acks) || decide (b.dstTgt = 1) || decide (b.dstTgt = 2) then
      s.setChan c { ch with flight := ch.flight.filter (fun x => x.id ≠ id) }
    else
      s.setChan c { ch with flight := ch.flight.map fun x =>
        if x.id = id then { x with phase := .write, poison := true, data := [] } else x }

/-- Every burst in flight for which `p` says which side failed ends with a code (R288). -/
def State.failBursts (s : State) (code : Nat) (p : Burst → Option Bool) : State :=
  (s.porter.chans.map (·.1)).foldl
    (fun s c => (s.chan c).flight.foldl
      (fun s b => match p b with
        | some side => s.failBurst c b.id code side
        | none => s) s) s

/-- The side of a burst that goes through host port `h`, if one does (TGT 1 is H0, TGT 2 is H1). -/
def Burst.onHost (h : Nat) (b : Burst) : Option Bool :=
  if b.isFlush then (if b.srcTgt = h + 1 then some true else none)
  else if b.srcTgt = h + 1 ∧ b.phase = .read then some false
  else if b.dstTgt = h + 1 then some true else none

/-- The side of a burst that goes over Causeway link `l`, if one does (TGT 3). -/
def Burst.onLink (l : Nat) (b : Burst) : Option Bool :=
  if b.isFlush then (if b.srcTgt = 3 ∧ b.srcLink = l then some true else none)
  else if b.srcTgt = 3 ∧ b.srcLink = l ∧ b.phase = .read then some false
  else if b.dstTgt = 3 ∧ b.dstLink = l then some true else none

/-! ### Fences -/

/-- CONNECTING and READY contexts go to ERROR with an ERR_CODE (R404); their orders and receive entries are flushed as their
completions are written, and dockets that use them end with REMOTE_FAILED. Their orders wait at no counter any more (R306). -/
def State.connsFail (s : State) (hit : CarterCtx → Bool) (code : Nat) : State :=
  let dies (c : CarterCtx) : Bool := hit c && (decide (c.state = 2) || decide (c.state = 3))
  let fail (x : Nat × CarterCtx) : Nat × CarterCtx :=
    if dies x.2 then (x.1, { x.2 with state := 4, errCode := code, flushed := false }) else x
  let hurt := s.carter.ctxs.filter fun x => dies x.2
  let s := s.dropWaiters fun w => match w with
    | .order n => hurt.any fun x => decide (x.1 = n)
    | _ => false
  let s := { s with carter := { s.carter with ctxs := s.carter.ctxs.map fail } }
  hurt.foldl (fun s x => match x.2.func with
    | some f => s.endDocketsConn f x.1
    | none => s) s

/-- A wait whose source is a stall for which `hit` holds: its oldest task, an order of its Carter, or a queue of its Ledger whose wait has
not been met. -/
def State.waitsOn (s : State) (hit : Nat → Bool) : WaitSrc → Bool
  | .task st => hit st
  | .order n => (match look s.carter.ctxs n with | some c => hit (stallId c.stall 9 0) | none => false)
  | .ledger n => (match s.lqueue n with | some q => hit (stallId q.stall 10 0) && !s.bell.met.contains (.ledger n) | none => false)
  | _ => false

/-- What a fence does to one stall (R552, R195): STATE reads FENCED, its unfinished tasks end without a status, its
waits leave their queues, and it leaves its Alley lines. -/
def State.stopStall (s : State) (st : Nat) : State :=
  let s := s.fset ⟨.stallState, st, 0⟩ F.stallState_STATE 4
  let s := { s with stall := { s.stall with
    tasks := drop s.stall.tasks st,
    adds := s.stall.adds.filter (fun a => a.req ≠ st),
    pieces := s.stall.pieces.filter (fun p => p.stall ≠ st) } }
  let s := s.dropWaiters (s.waitsOn fun x => x = st)
  let s := if stallKind st = 9 then s.connsFail (fun c => c.stall = stallQ st) 0x44 else s
  let s := if stallKind st = 10 then s.ledgerFenced (stallQ st) else s
  s.alleyLeave (stallQ st) (participant st)

/-- A stall is fenced (R552): its fence is counted, its routes end, and dockets running on it end with FENCED. -/
def State.fenceStall (s : State) (st : Nat) : State :=
  if s.fget ⟨.stallState, st, 0⟩ F.stallState_STATE = 4 then s
  else
    let s := { s with err := { s.err with
      fenceCount := put s.err.fenceCount st (lookD 0 s.err.fenceCount st + 1) } }
    let s := s.endDocketsOn (fun x => x = st)
    let s := s.stopStall st
    let s := s.routesFence (stallQ st) (fun x => x = st)
    match s.err.inj with
    | some i => if i.unit = st then s.injDisarm else s
    | none => s

/-- A Porter channel of a fenced compute die (R295). -/
def State.fenceChan (s : State) (c : Nat) : State :=
  let s := s.setChan c {}
  let s := s.dropWaiters (fun w => w = .chan c)
  s.setChanState c 6

/-- A Guildhall core of a fenced compute die stops: it runs nothing and waits for nothing. -/
def State.stopCore (s : State) (n : Nat) : State :=
  s.setCore n { s.core n with halted := true, sendWait := none, postWait := none, wfi := false }

/-- A compute die is fenced (R554): QFENCED reads it, its stalls, cores, Streets and channels stop, dockets running on
it end with FENCED, a load in progress ends with ABORTED (R95), and an injection at one of its units is disarmed (R561). -/
def State.fenceQuarter (s : State) (q : Nat) : State :=
  if s.qFenced q then s
  else
    let s := s.endDocketsOn (fun x => stallQ x = q)
    let s := s.dropWaiters fun w => s.waitsOn (fun x => stallQ x = q) w || (match w with | .chan c => decide (c / 64 = q) | _ => false)
    let s := s.routesFence q (fun x => stallQ x = q)
    let s := (stallsOf q).foldl (fun s st => s.stopStall st) s
    let s := forNat 64 s fun s c => s.fenceChan (64 * q + c)
    let s := forNat 4 s fun s i => s.stopCore (4 * q + i)
    let sum : Reg := ⟨.errSummary, 0, 0⟩
    let s := s.fset sum F.errSummary_QFENCED (setBit (s.fget sum F.errSummary_QFENCED) q)
    let s := match s.xim.load with
      | some l => { s with xim := { s.xim with load := some { l with aborted := true } } }
      | none => s
    let s := match s.fw.act with
      | some a => { s with fw := { s.fw with act := some { a with aborted := true } } }
      | none => s
    match s.err.inj with
    | some i => if onCompute q i.unit then s.injDisarm else s
    | none => s

/-- A minimum service set remains (R47): a Quarter whose compute and base die serve, one of its Warehouses, and a
host port whose base die serves. -/
def State.minService (s : State) : Bool :=
  let base (q : Nat) : Bool := !s.err.cutOff.contains q
  ((List.range 4).any fun q => base q && !s.qFenced q &&
    ((List.range 3).any fun j => !s.err.whFenced.contains (3 * q + j))) && (base 0 || base 2)

/-- A class 5 error (R556): both host links go down, every function stops, and the device is held until a power-on
reset or RESET_N. -/
def State.deviceFatal (s : State) (det prec unit detail addr asid : Nat) (inj : Bool) : State :=
  if s.err.held then s
  else
    let s := s.recordErr 5 det prec unit detail addr asid inj
    let s := s.fset ⟨.errSummary, 0, 0⟩ F.errSummary_FATAL 1
    let s := { s with err := { s.err with held := true } }
    forNat 2 s fun s h =>
      (s.setPort h { s.port h with linkUp := false }).failBursts 0x23 (Burst.onHost h)

/-- The test of R556 after a fence: class 5 when no minimum service set remains. -/
def State.checkService (s : State) : State := if s.minService then s else s.deviceFatal 0x10 0xFF 0 0 0 0 false

/-- An error report with its class's fence (Table 24.1): class 3 fences the stall it names, class 4 the Quarter. -/
def State.report (s : State) (cls det prec unit detail addr asid : Nat) (inj : Bool) : State :=
  match cls with
  | 3 => (s.recordErr 3 det prec unit detail addr asid inj).fenceStall unit
  | 4 => ((s.recordErr 4 det prec unit detail addr asid inj).fenceQuarter (unit / 0x100 % 0x80)).checkService
  | 5 => s.deviceFatal det prec unit detail addr asid inj
  | c => s.recordErr c det prec unit detail addr asid inj

end Sys2Proof.Machine
end

