-- ==== Sys2Proof/Machine/Memory.lean ====
section
/-!
DEFINITION. Accesses at their memory homes: the Square's code groups, the Warehouse's Reed–Solomon lines, poison, spill
areas, and the Surveyor's fault records (chapter "Memory", R244–R246, R256–R259, R269, R550).
-/
namespace Sys2Proof.Machine

/-! ### Fault records (Table 9.5) -/

/-- The Surveyor of Quarter `q`. -/
def State.surveyor (s : State) (q : Nat) : SurvSt := (look s.surv q).getD {}

/-- The Surveyor of Quarter `q` replaced. -/
def State.setSurveyor (s : State) (q : Nat) (x : SurvSt) : State := { s with surv := putD {} s.surv q x }

/-- The 32 bytes of a fault record. -/
def FaultRec.bytes (r : FaultRec) (id : Nat) : Bytes :=
  leBytes 8 (r.page * 4096) ++ leBytes 2 r.asid ++ leBytes 2 r.requester ++ leBytes 1 r.kind ++ leBytes 1 id ++
  leBytes 2 0 ++ leBytes 8 r.pa ++ leBytes 4 r.seq ++ leBytes 4 0

/-- The lowest FAULT_ID not in use. -/
def SurvSt.freeId (x : SurvSt) : Option Nat := (List.range 256).find? fun i => (look x.recs i).isNone

/-- A fault record is posted to the ring and line 0 is raised (R269); none when no ring exists or every FAULT_ID is in
use. -/
def State.postFault (s : State) (q : Nat) (r : FaultRec) : Option State :=
  let ring : Reg := ⟨.surveyorFaultRing, q, 0⟩
  let lg := s.fget ring F.surveyorFaultRing_LOG2
  let x := s.surveyor q
  match x.freeId with
  | none => none
  | some id =>
    if lg = 0 then none
    else
      let r := { r with seq := x.seq }
      let a := s.fget ring F.surveyorFaultRing_ADDR * 2 ^ 17 + x.head % 2 ^ lg * 32
      let s := s.poke a (r.bytes id)
      let s := s.setSurveyor q { x with recs := put x.recs id r, seq := (x.seq + 1) % 2 ^ 32, head := x.head + 1 }
      some ((s.count q 44 1 1).raiseLine q 0)

/-! ### Who an error of a line concerns -/

/-- The precinct whose carve holds an address, or 0xFF. -/
def State.linePrec (s : State) (a : Nat) : Nat := if inSystem a then 0xFF else precOr (s.carveOf a)

/-- An uncorrectable line (R245, R256): marked, and reported as class 2, or class 4 in the system region. -/
def State.uncorrectable (s : State) (det unit a : Nat) (inj : Bool) : State :=
  let s := s.markLine a
  s.report (if inSystem a then 4 else 2) det (s.linePrec a) unit 0 (a / 128 * 128) 0 inj

/-! ### Squares (R245) -/

/-- Wrong byte positions of a Square line. -/
def State.wrongBytes (s : State) (a : Nat) : List Nat := lookD [] s.home.wrong (a / 128)

/-- Wrong byte positions of a line replaced. -/
def State.setWrong (s : State) (a : Nat) (w : List Nat) : State :=
  { s with home := { s.home with wrong := putD [] s.home.wrong (a / 128) w } }

/-- The code group of 32 bytes that a byte position lies in. -/
def grpOf (i : Nat) : Nat := i / 32

/-- A code group of a Square line is read and checked: one wrong byte is corrected and reported, more make the line
uncorrectable. -/
def State.squareGroup (s : State) (q a g : Nat) : State :=
  if s.poisoned a then s
  else
    let inj := (look s.home.injLines (a / 128)).isSome
    let w := s.wrongBytes a
    match (w.filter fun i => grpOf i = g).length with
    | 0 => s
    | 1 =>
      let s := s.setWrong a (w.filter fun i => grpOf i ≠ g)
      (s.count q 45 2 1).recordErr 1 0x01 (s.linePrec a) (qUnit q 0) 1 (a / 128 * 128) 0 inj
    | _ => ((s.setWrong a []).count q 45 3 1).uncorrectable 0x01 (qUnit q 0) a inj

/-- The groups that bytes `lo` to `hi` (exclusive) of a line touch, and those they cover whole. -/
def touched (lo hi : Nat) : List Nat := (List.range 4).filter fun g => lo < 32 * g + 32 ∧ 32 * g < hi
def covered (lo hi : Nat) : List Nat := (List.range 4).filter fun g => lo ≤ 32 * g ∧ 32 * g + 32 ≤ hi

/-- A read of bytes `lo` to `hi` of the Square line at `a`. -/
def State.squareRead (s : State) (q a lo hi : Nat) : State :=
  (touched lo hi).foldl (fun s g => s.squareGroup q a g) (s.count q 45 0 1)

/-- A write of bytes of one Square line: partly covered groups are checked first; covered groups are re-encoded; a full
write without poison clears a mark; poison marks the line; an armed injection stores wrong bytes. -/
def State.squareWrite (s : State) (q a lo hi : Nat) (data : Bytes) (poison : Bool) : State :=
  let s := s.count q 45 0 1
  let cov := covered lo hi
  let s := ((touched lo hi).filter fun g => !cov.contains g).foldl (fun s g => s.squareGroup q a g) s
  let s := s.setWrong a ((s.wrongBytes a).filter fun i => !cov.contains (grpOf i))
  let full := lo = 0 ∧ hi = 128
  let s := if full ∧ !poison then
      { s.unmarkLine a with home := { (s.unmarkLine a).home with injLines := drop s.home.injLines (a / 128) } }
    else s
  let s := s.poke (a / 128 * 128 + lo) data
  let s := if poison then s.markLine a else s
  match s.injAt 0x01 (qUnit q 0) (fun x => x / 128 = a / 128) with
  | some i =>
    let s := s.injFire.setWrong a (if i.syndrome = 1 then [0] else [0, 1])
    { s with home := { s.home with injLines := put s.home.injLines (a / 128) () } }
  | none => s

/-! ### Warehouses (R256–R259) -/

/-- The ECC status register of Warehouse `w`. -/
def whStatus (w : Nat) : Reg := ⟨.whEccStatus, w, 0⟩

/-- The lost die of Warehouse `w`, if one is marked. -/
def State.lostDie (s : State) (w : Nat) : Option Nat :=
  if s.fbit (whStatus w) F.whEccStatus_DIE_LOST then some (s.fget (whStatus w) F.whEccStatus_LOST_DIE) else none

/-- The stack of Warehouse `w` has failed. -/
def State.stackFailed (s : State) (w : Nat) : Bool := s.fbit (whStatus w) F.whEccStatus_STACK_FAILED

/-- The unit code of Warehouse `w`. -/
def whUnit (w : Nat) : Nat := qUnit (w / 3) (0x08 + w % 3)

/-- Wrong symbols that a lost die does not explain, in a codeword. -/
def wrongIn (lost : Option Nat) (syms : List (Nat × Nat)) (cw : Nat) : Nat :=
  (syms.filter fun x => x.1 = cw ∧ some x.2 ≠ lost).length

/-- A line's wrong symbols lie within what its code corrects (R256). -/
def correctable (lost : Option Nat) (syms : List (Nat × Nat)) : Bool :=
  (List.range 4).all fun cw => wrongIn lost syms cw ≤ (if lost.isSome then 1 else 2)

/-- A die whose counter has reached 256 (R257): it is marked lost, or, when another die is lost, the stack fails. -/
def State.dieReached (s : State) (w d : Nat) : State :=
  let st := whStatus w
  match s.lostDie w with
  | none =>
    let nat := (look s.home.dieNat (key2 w d)).isSome
    let s := (s.fset st F.whEccStatus_DIE_LOST 1).fset st F.whEccStatus_LOST_DIE d
    let s := if nat then { s with home := { s.home with lostLog := put s.home.lostLog w d } } else s
    s.recordErr 1 0x02 0xFF (whUnit w) d 0 0 (!nat)
  | some d0 =>
    if d0 = d ∨ s.stackFailed w then s
    else
      let s := s.fset st F.whEccStatus_STACK_FAILED 1
      let s := { s with err := { s.err with whFenced := w :: s.err.whFenced } }
      s.report 4 0x02 0xFF (whUnit w) d 0 0 false

/-- One corrected line counts for each die that the correction changed (R257). -/
def State.countDies (s : State) (w : Nat) (dies : List Nat) (inj : Bool) : State :=
  dies.foldl (fun s d =>
    let c := lookD 0 s.home.dieCount (key2 w d) + 1
    let s := { s with home := { s.home with dieCount := put s.home.dieCount (key2 w d) c } }
    let s := if inj then s else { s with home := { s.home with dieNat := put s.home.dieNat (key2 w d) () } }
    if c = 256 then s.dieReached w d else s) s

/-- A corrected error of a page: at RETIRE_THRESHOLD within one scrub pass a RETIRE record is posted (R259). -/
def State.countPage (s : State) (w a : Nat) : State :=
  let pg := a / 4096
  let c := lookD 0 s.home.pageCount pg + 1
  let s := { s with home := { s.home with pageCount := put s.home.pageCount pg c } }
  if c = s.fget ⟨.whCtrl, w, 0⟩ F.whCtrl_RETIRE_THRESHOLD then
    let r : FaultRec := { page := 0, asid := 0, kind := 5, requester := 0xFFFF, seq := 0, pa := pg * 4096, isOpen := true, joined := [] }
    (s.postFault (w / 3) r).getD s
  else s

/-- The line at `a` of Warehouse `w` is read through its code: `extra` are symbols wrong on the read path only. -/
def State.whCheck (s : State) (w a : Nat) (extra : List (Nat × Nat)) (inj : Bool) : State :=
  if s.poisoned a then s
  else
    let lost := s.lostDie w
    let syms := lookD [] s.home.wrongSym (a / 128) ++ extra
    let live := syms.filter fun x => some x.2 ≠ lost
    if live.isEmpty then s
    else if correctable lost syms then
      let s := (s.fsat (whStatus w) F.whEccStatus_CE_COUNT 1).count (w / 3) (52 + w % 3) 2 1
      let s := s.recordErr 1 0x02 (s.linePrec a) (whUnit w) 0 (a / 128 * 128) 0 inj
      let s := s.countDies w (live.map (·.2)).dedup inj
      s.countPage w a
    else
      let s := (s.fsat (whStatus w) F.whEccStatus_UE_COUNT 1).count (w / 3) (52 + w % 3) 3 1
      s.uncorrectable 0x02 (whUnit w) a inj

/-- The symbols an armed injection corrupts on the read path (Table 24.7, 0x02): the named die's two in every codeword,
and further ones in codeword 0 on the lowest-numbered other dies. -/
def injSyms (syn : Nat) (lost : Option Nat) : List (Nat × Nat) :=
  let d := syn % 32
  let others := (List.range 18).filter fun x => x ≠ d ∧ some x ≠ lost
  (List.range 4).flatMap (fun cw => [(cw, d), (cw, d)]) ++ (others.take (syn / 32)).map fun x => (0, x)

/-- A read of one Warehouse line. -/
def State.whRead (s : State) (w a n : Nat) : State :=
  let s := s.count (w / 3) (52 + w % 3) 0 n
  match s.injAt 0x02 (whUnit w) (fun x => x / 128 = a / 128) with
  | some i => s.injFire.whCheck w a (injSyms i.syndrome (s.lostDie w)) true
  | none => s.whCheck w a [] false

/-- A write of bytes of one Warehouse line: a partial write reads and corrects the line first; the line is then stored
right; a failed stack drops the write. -/
def State.whWrite (s : State) (w a lo hi : Nat) (data : Bytes) (poison : Bool) : State :=
  let s := s.count (w / 3) (52 + w % 3) 1 (hi - lo)
  if s.stackFailed w then s
  else
    let full := lo = 0 ∧ hi = 128
    let s := if full then s else s.whCheck w a [] false
    let s := { s with home := { s.home with wrongSym := drop s.home.wrongSym (a / 128) } }
    let s := if full ∧ !poison then s.unmarkLine a else s
    let s := s.poke (a / 128 * 128 + lo) data
    if poison then s.markLine a else s

/-! ### One access, over as many lines as it touches -/

/-- One line's part of a read at its home: the state after it. -/
def State.lineRead (s : State) (a lo hi : Nat) : State :=
  match homeOf a with
  | .square q _ => s.squareRead q a lo hi
  | .warehouse w _ => s.whRead w a (hi - lo)
  | _ => s

/-- One line's part of a write at its home. -/
def State.lineWrite (s : State) (a lo hi : Nat) (data : Bytes) (poison : Bool) : State :=
  match homeOf a with
  | .square q _ => s.squareWrite q a lo hi data poison
  | .warehouse w _ => s.whWrite w a lo hi data poison
  | _ => s

/-- The lines that `n` bytes from `a` touch: each line's address and its bytes from and to. -/
def lines (a n : Nat) : List (Nat × Nat × Nat) :=
  if n = 0 then []
  else (List.range ((a + n - 1) / 128 + 1 - a / 128)).map fun i =>
    let l := (a / 128 + i) * 128
    (l, a - l, min 128 (a + n - l))

/-- The Quarter a requester code belongs to; 4 for the Watch post. -/
def reqQ (req : Nat) : Nat :=
  if req < 0x400 then stallQ req
  else if 0x4000 ≤ req ∧ req < 0x4100 then (req - 0x4000) / 64
  else if 0x5000 ≤ req ∧ req < 0x5010 then (req - 0x5000) / 4
  else if 0x8000 ≤ req ∧ req < 0x8010 then (req - 0x8000) / 4
  else 4

/-- A range lies in populated memory that a requester reaches: a base die that is cut off is reached only from its own
Quarter (R35, R38). -/
def State.reaches (s : State) (req a n : Nat) : Bool :=
  (lines a n).all fun x => isMem x.1 && (!s.err.cutOff.contains (homeQ x.1) || decide (reqQ req = homeQ x.1))

/-- The data a read of memory returns is poisoned: a marked line, or a failed stack. -/
def State.readPoison (s : State) (a n : Nat) : Bool :=
  s.anyPoison a n || (lines a n).any fun x =>
    match homeOf x.1 with
    | .warehouse w _ => s.stackFailed w
    | _ => false

/-- An address hole (R38): a class 2 error of the precinct that issued the access, or of firmware under ASID 0. -/
def State.hole (s : State) (prec req a asid : Nat) : State :=
  s.recordErr 2 0x11 (if asid = 0 then 0xFF else prec) req 0 a asid false

/-- A read of `n` bytes at a physical address by a requester of a precinct: the state after it, the bytes, and whether
they are poisoned. A read of a hole returns poison. -/
def State.readMem (s : State) (prec req asid a n : Nat) : State × Bytes × Bool :=
  if s.reaches req a n then
    let s := (lines a n).foldl (fun s x => s.lineRead x.1 x.2.1 x.2.2) s
    (s, s.bytes a n, s.readPoison a n)
  else
    match homeOf a with
    | .register o =>
      match regAt 20 (o / 8 * 8) with
      | some r => (s, leBytes n ((s.rd r).toNat / 2 ^ (8 * (o % 8))), false)
      | none => (s, List.replicate n 0#8, false)
    | _ => (s.hole prec req a asid, List.replicate n 0#8, true)

/-- The active spill areas of a core: first and last byte, by mode (R489). An area never set is not active. -/
def Core.spillAreas (c : Core) : List (Nat × Nat) :=
  (if c.spbU = 0 ∧ c.splU = 0 then [] else [(c.spbU.toNat, c.splU.toNat + 127)]) ++
  (if c.spbK = 0 ∧ c.splK = 0 then [] else [(c.spbK.toNat, c.splK.toNat + 127)])

/-- `n` bytes from `a` touch an active spill area of some core (R489). -/
def State.inSpill (s : State) (a n : Nat) : Bool :=
  s.cores.any fun x => x.2.spillAreas.any fun r => decide (a ≤ r.2 ∧ r.1 < a + n)

/-- A write at a physical address by a requester of a precinct other than a spill engine: the state after it, and
whether it completed with a fault (R38, R489). -/
def State.writeMem (s : State) (prec req asid a : Nat) (data : Bytes) (poison : Bool) : State × Bool :=
  let n := data.length
  if s.reaches req a n then
    if s.inSpill a n then (s.recordErr 2 0x11 (if asid = 0 then 0xFF else prec) req 1 a asid false, true)
    else
      ((lines a n).foldl (fun s x => s.lineWrite x.1 x.2.1 x.2.2 (slice data (x.1 + x.2.1 - a) (x.2.2 - x.2.1)) poison) s,
        false)
  else
    match homeOf a with
    | .register o =>
      match regAt 20 (o / 8 * 8) with
      | some r => (s.strayCode 20 2 r.offset, false)
      | none => (s.strayCode 20 0 o, false)
    | _ => (s.hole prec req a asid, true)

/-! ### The commands -/

/-- The precinct of a requester code of a home access: the precinct of its stall or channel, else firmware. -/
def State.reqPrec (s : State) (req : Nat) : Nat :=
  if req < 0x400 then precOr (s.precOfStall req)
  else if 0x4000 ≤ req ∧ req < 0x4100 then precOr (s.precOfChan (req - 0x4000))
  else 0xFF

/-- An access at its home, with its answer (R37). -/
def State.homeAccess (s : State) (a : HomeAccess) : State :=
  let p := s.reqPrec a.req
  match a.data with
  | none =>
    let (s, d, poison) := s.readMem p a.req a.asid a.addr a.len
    s.emit (.memData a.req d poison)
  | some d =>
    let (s, bad) := s.writeMem p a.req a.asid a.addr d a.poison
    if bad then s.emit (.memFault a.req) else s

/-- SQUARE_ACCESS (R245): an access in its serialised turn at the Square of Quarter `q`; the bytes that have gone wrong
by nature are found as the code gives. An access to the unpopulated part is an address hole (R38); one to another
home does not reach this Square. -/
def execSquareAccess (q : Qn) (a : HomeAccess) (s : State) : Host.Outcome State Fault Refusal :=
  match homeOf a.addr with
  | .square q' _ =>
    if q' = q.val then
      done ((s.setWrong a.addr ((List.range 128).filter fun i =>
        a.upset.contains i || (s.wrongBytes a.addr).contains i)).homeAccess a)
    else done s
  | .hole => done (s.homeAccess a)
  | _ => done s

/-- WAREHOUSE_ACCESS (R256): an access at the controller of Warehouse `w`. `upset` names symbols gone wrong by nature, as
18 × codeword + die. -/
def execWarehouseAccess (w : Fin 12) (a : HomeAccess) (s : State) : Host.Outcome State Fault Refusal :=
  match homeOf a.addr with
  | .warehouse w' _ =>
    if w' = w.val then
      let k := a.addr / 128
      let new := lookD [] s.home.wrongSym k ++ a.upset.map fun u => (u / 18 % 4, u % 18)
      done ({ s with home := { s.home with wrongSym := putD [] s.home.wrongSym k new } }.homeAccess a)
    else done s
  | .hole => done (s.homeAccess a)
  | _ => done s

/-- WAREHOUSE_SCRUB (R258): while SCRUB_ENABLE is set, the next line of the pass is read, checked and written back right;
at the end of the pass the die and page counters clear (R257). -/
def execWarehouseScrub (w : Fin 12) (line : Nat) (upset : List Nat) (last : Bool) (s : State) :
    Host.Outcome State Fault Refusal :=
  if !s.fbit ⟨.whCtrl, w.val, 0⟩ F.whCtrl_SCRUB_ENABLE || decide (2 ^ 29 ≤ line) then done s
  else
    let a := whBase w.val + line * 128
    let k := a / 128
    let new := lookD [] s.home.wrongSym k ++ upset.map fun u => (u / 18 % 4, u % 18)
    let s := { s with home := { s.home with wrongSym := putD [] s.home.wrongSym k new } }
    let s := (s.whRead w.val a 0).count (w.val / 3) (52 + w.val % 3) 4 1
    let s := { s with home := { s.home with
      wrongSym := drop s.home.wrongSym k, scrubAt := put s.home.scrubAt w.val (line + 1) } }
    if last then
      done { s with home := { s.home with
        dieCount := s.home.dieCount.filter (fun x => !(List.range 18).any fun d => key2 w.val d = x.1),
        dieNat := s.home.dieNat.filter (fun x => !(List.range 18).any fun d => key2 w.val d = x.1),
        pageCount := s.home.pageCount.filter (fun x => decide (x.1 / 2 ^ 24 ≠ w.val)),
        scrubAt := put s.home.scrubAt w.val 0 } }
    else done s

/-- Buffers in each Square's pool (R246). -/
abbrev poolSize : Nat := 8192

/-- A requester asks for a buffer of a pool: it takes one, or waits (R246). -/
def State.poolAsk (s : State) (q who : Nat) : State :=
  let used := lookD [] s.home.poolUsed q
  let wait := lookD [] s.home.poolWait q
  if used.length < poolSize ∧ (wait.isEmpty ∨ wait.head? = some who) then
    { s with home := { s.home with
      poolUsed := put s.home.poolUsed q (who :: used), poolWait := putD [] s.home.poolWait q (wait.drop 1) } }
  else if wait.contains who then s
  else (({ s with home := { s.home with poolWait := put s.home.poolWait q (wait ++ [who]) } } : State)).count q 45 4 1

/-- A requester gives its buffer back. -/
def State.poolFree (s : State) (q who : Nat) : State :=
  let used := lookD [] s.home.poolUsed q
  { s with home := { s.home with poolUsed := putD [] s.home.poolUsed q (used.erase who) } }

/-- SQUARE_POOL_GRANT (R246): the request and grant handshake of a requester with a Square's buffer pool. -/
def execSquarePoolGrant (q : Qn) (who : Nat) (s : State) : Host.Outcome State Fault Refusal :=
  done (s.poolAsk q.val who)

end Sys2Proof.Machine
end

