-- ==== Sys2Proof/Machine/Surveyor.lean ====
section
/-!
DEFINITION. The Surveyor: page walks and their checks, the entry cache, fault records, ATS and invalidations
(R260–R270).
-/
namespace Sys2Proof.Machine

/-! ### Entries -/

/-- The address bits 56:12 of an entry. -/
def pteAddr (e : Nat) : Nat := nbits e 56 12 * 4096

/-- Reserved bits of a page table entry: 59:57 and 6 (Table 9.4). -/
def pteReserved (e : Nat) : Bool := decide (nbits e 59 57 ≠ 0) || nbit e 6

/-- log2 of the page a leaf maps (R260). -/
def leafShift (e level : Nat) : Nat := if nbit e 7 then 16 else 12 + 9 * level

/-- The walk check of an entry with V set, read at a level (R262). -/
def pteOk (e level : Nat) : Bool :=
  let tgt := e / 2 ^ 60
  !pteReserved e && decide (tgt ≤ 3) && decide (nbits e 11 8 = 0 ∨ tgt = 3) && (!nbit e 7 || decide (level = 0)) &&
  (if nbit e 1 then decide (level ≠ 0) && decide (tgt = 0) && inSystem (pteAddr e)
   else decide (level ≠ 3) && decide (pteAddr e % 2 ^ leafShift e level = 0))

/-- A context entry has a nonzero reserved bit (Table 9.3). -/
def ctxReserved (c : Bytes) : Bool :=
  let root := leAt c 0 8
  decide (nbits root 11 1 ≠ 0) || decide (nbits root 63 57 ≠ 0) || decide (64 ≤ leAt c 8 1) ||
  decide (2 ≤ leAt c 9 1) || decide (leAt c 10 2 ≠ 0) || decide (2 ^ 20 ≤ leAt c 12 4) || !allZero (slice c 16 16)

/-- How a walk ends before the leaf is decided. -/
inductive WalkEnd where
  /-- A leaf, and the level it was found at. -/
  | leaf (e level : Nat)
  /-- An entry with V clear, and its D bit. -/
  | absent (d : Bool)
  /-- ACCESS_FAULT with nothing reported. -/
  | deny
  /-- A failed walk check, with the address of the entry and whether an injection made it. -/
  | bad (addr : Nat) (inj : Bool)
  deriving DecidableEq, Repr

/-- The answer to an access. -/
inductive Tr where
  | ok (tgt pa link : Nat)
  /-- ACCESS_FAULT. -/
  | deny
  /-- Held on a fault record, on an ATS answer, or for a free FAULT_ID. -/
  | held
  deriving DecidableEq, Repr

/-- A cached entry of the Surveyor of Quarter `q`. -/
def State.cached (s : State) (q k : Nat) : Option Nat := look (s.surveyor q).tlb k

/-- An entry cached, or its cached copy dropped. -/
def State.cache (s : State) (q k e : Nat) : State :=
  s.setSurveyor q { s.surveyor q with tlb := put (s.surveyor q).tlb k e }
def State.uncache (s : State) (q k : Nat) : State :=
  s.setSurveyor q { s.surveyor q with tlb := drop (s.surveyor q).tlb k }

/-- `n` bytes of a table read at their home: the state after it, and the bytes unless they are poisoned (R262). -/
def State.tableRead (s : State) (a n : Nat) : State × Option Bytes :=
  let s := (lines a n).foldl (fun s x => s.lineRead x.1 x.2.1 x.2.2) s
  if s.readPoison a n then (s, none) else (s, some (s.bytes a n))

/-- Where the context entry of an ASID stands. -/
def State.ctxAddr (s : State) (q asid : Nat) : Nat :=
  s.fget ⟨.surveyorCtxBase, q, 0⟩ F.surveyorCtxBase_ADDR * 2 ^ 17 + asid * 32

/-- The context entry of an ASID, from the cache or its table. -/
def State.context (s : State) (q asid : Nat) : State × Option Bytes :=
  let k := key3 asid 4 0
  match s.cached q k with
  | some c => (s, some (leBytes 32 c))
  | none =>
    match s.tableRead (s.ctxAddr q asid) 32 with
    | (s, some c) => (if nbit (leNat c) 0 then s.cache q k (leNat c) else s, some c)
    | (s, none) => (s, none)

/-- The entry `idx` of the table of `level` at `table`, from the cache or memory. `first`: no entry with V set has been
read in this walk, so an armed injection fires at this one (Table 24.7, 0x0B). -/
def State.entry (s : State) (q asid level va idx table : Nat) (first : Bool) : State × Option (Nat × Bool) :=
  let k := key3 asid level (va / 2 ^ (21 + 9 * level) * 512 + idx)
  match s.cached q k with
  | some e => (s, some (e, false))
  | none =>
    match s.tableRead (table + idx * 8) 8 with
    | (s, none) => (s, none)
    | (s, some b) =>
      let e := leNat b
      if nbit e 0 then
        match (if first then s.injAt 0x0B (qUnit q 2) (fun _ => true) else none) with
        | some _ => (s.injFire, some (setBit e 6, true))
        | none => (s.cache q k e, some (e, false))
      else (s, some (e, false))

/-- The levels of a walk from a table (R260–R262). -/
def State.walkFrom (q asid va : Nat) : List Nat → Nat → Bool → State → State × WalkEnd
  | [], _, _, s => (s, .deny)
  | level :: rest, table, first, s =>
    let idx := va / 2 ^ (12 + 9 * level) % 512
    let probe : State × Option (Nat × Bool) × Nat :=
      if level = 0 ∧ idx % 16 ≠ 0 then
        match s.entry q asid 0 va (idx / 16 * 16) table first with
        | (s, none) => (s, none, idx / 16 * 16)
        | (s, some (e, j)) =>
          if nbit e 7 then (s, some (e, j), idx / 16 * 16)
          else
            let (s, r) := s.entry q asid level va idx table (first && !nbit e 0)
            (s, r, idx)
      else
        let (s, r) := s.entry q asid level va idx table first
        (s, r, idx)
    match probe with
    | (s, none, _) => (s, .deny)
    | (s, some (e, inj), i) =>
      if !nbit e 0 then (s, .absent (nbit e 5))
      else if !pteOk e level then
        (s.uncache q (key3 asid level (va / 2 ^ (21 + 9 * level) * 512 + i)), .bad (table + i * 8) inj)
      else if nbit e 1 then State.walkFrom q asid va rest (pteAddr e) false s
      else (s, .leaf e level)

/-! ### Holding an access (R267, R269) -/

/-- KIND of a held access at its leaf, or none for one that goes on; `some 0` for one that faults at once (R267). -/
def leafFault (e : Nat) (write : Bool) : Option Nat :=
  let d := nbit e 5
  if !write && !nbit e 2 then some (if d then 1 else 0)
  else if write && !nbit e 3 then some (if d then 3 else 0)
  else if write && nbit e 4 then some 4
  else none

/-- The access joins its open record, or posts one, or waits while none can be posted (R267, R269). -/
def State.holdAccess (s : State) (q kind : Nat) (a : VAccess) : State :=
  let x := s.surveyor q
  let pg := a.va / 4096
  match x.recs.find? (fun r => r.2.isOpen && decide (r.2.page = pg ∧ r.2.asid = a.asid ∧ r.2.kind = kind)) with
  | some (id, r) =>
    if r.joined.contains a then s
    else s.setSurveyor q { x with recs := put x.recs id { r with joined := r.joined ++ [a] } }
  | none =>
    let r : FaultRec :=
      { page := pg, asid := a.asid, kind := kind, requester := a.req, seq := 0, pa := 0, isOpen := true, joined := [a] }
    match s.postFault q r with
    | some s => s
    | none => if x.waiting.contains a then s else s.setSurveyor q { x with waiting := x.waiting ++ [a] }

/-- A failed walk check is reported for the context's precinct, or as firmware's (R262). -/
def State.walkError (s : State) (q asid prec addr : Nat) (inj : Bool) : State :=
  s.recordErr 2 0x0B (if asid = 0 ∨ 64 ≤ prec then 0xFF else prec) (qUnit q 2) 0 addr asid inj

/-- A host page (R264): the access goes on with a cached ATS translation that grants it; otherwise a translation is asked
for, or, where the answer grants too little and D is set, a page. -/
def State.hostLeaf (s : State) (q e : Nat) (ctx : Bytes) (pa : Nat) (a : VAccess) : State × Tr :=
  let x := s.surveyor q
  let k := key2 a.asid (a.va / 4096)
  let tgt := e / 2 ^ 60
  let pasid := if leAt ctx 9 1 = 1 then leAt ctx 12 4 else 2 ^ 20
  let wait (x : SurvSt) : SurvSt :=
    let w := lookD [] x.atsWait k
    if w.contains a then x else { x with atsWait := put x.atsWait k (w ++ [a]) }
  match look x.ats k with
  | some (page, r, w) =>
    if (if a.write then w else r) then (s, .ok tgt (page + a.va % 4096) 0)
    else if !nbit e 5 then (s, .deny)
    else
      let s := if (look x.pri k).isSome then s
        else ((s.setSurveyor q { x with pri := put x.pri k () }).count q 44 4 1).emit
          (.priRequest q (tgt - 1) pasid (pa / 4096 * 4096))
      (s.setSurveyor q (wait (s.surveyor q)), .held)
  | none =>
    let s := if (look x.atsWait k).isSome then s
      else (s.count q 44 3 1).emit (.atsRequest q (tgt - 1) pasid (pa / 4096 * 4096))
    (s.setSurveyor q (wait (s.surveyor q)), .held)

/-- The precinct check of an instance ASID (R263, R188): the context's precinct holds the stall or channel. -/
def State.reqHeld (s : State) (req p : Nat) : Bool := decide (0x5000 ≤ req) || decide (s.reqPrec req = p)

/-- A Porter channel, or a stall that arms one for such pages: Gatehouse, Tollbooth, Carter and Ledger (R265). -/
def armsChannel (req : Nat) : Bool :=
  (decide (0x4000 ≤ req) && decide (req < 0x4100)) || (decide (req < 1024) && decide (7 ≤ stallKind req))

/-- One access decided at its leaf (R263, R265, R267, R268). -/
def State.leafAccess (s : State) (q e level : Nat) (ctx : Bytes) (a : VAccess) : State × Tr :=
  match leafFault e a.write with
  | some 0 => (s, .deny)
  | some kind => (s.holdAccess q kind a, .held)
  | none =>
    let sh := leafShift e level
    let pa := pteAddr e + a.va % 2 ^ sh
    match e / 2 ^ 60 with
    | 0 =>
      if a.asid = 0 ∨ s.carveHolds (leAt ctx 8 1) (pteAddr e) (2 ^ sh) then (s, .ok 0 pa 0) else (s, .deny)
    | tgt =>
      if !armsChannel a.req then (s, .deny)
      else if tgt = 3 then (s, .ok 3 pa (nbits e 11 8))
      else s.hostLeaf q e ctx pa a

/-- The Surveyor of Quarter `q` translates an access (R260–R268). An access that a FAIL or a time limit has completed
takes its ACCESS_FAULT here. -/
def State.translate (s : State) (q : Nat) (a : VAccess) : State × Tr :=
  let x := s.surveyor q
  if x.failed.contains a then (s.setSurveyor q { x with failed := x.failed.erase a }, .deny)
  else if 2 ^ 48 ≤ a.va ∨ 4096 ≤ a.asid then (s, .deny)
  else
    let before := x.tlb
    match s.context q a.asid with
    | (s, none) => (s, .deny)
    | (s, some ctx) =>
      let root := leAt ctx 0 8
      let prec := leAt ctx 8 1
      if !nbit root 0 then (s, .deny)
      else if ctxReserved ctx then ((s.uncache q (key3 a.asid 4 0)).walkError q a.asid prec (s.ctxAddr q a.asid) false, .deny)
      else if a.asid ≠ 0 ∧ !s.reqHeld a.req prec then (s, .deny)
      else if !inSystem (pteAddr root) then (s.walkError q a.asid prec (pteAddr root) false, .deny)
      else
        let (s, w) := State.walkFrom q a.asid a.va [3, 2, 1, 0] (pteAddr root) true s
        let s := match w with
          | .leaf _ _ => if (s.surveyor q).tlb = before then s else s.count q 44 0 1
          | _ => s.count q 44 0 1
        match w with
        | .deny => (s, .deny)
        | .bad addr inj => (s.walkError q a.asid prec addr inj, .deny)
        | .absent d =>
          if d then (s.holdAccess q (if a.write then 2 else 1) a, .held) else (s, .deny)
        | .leaf e level => s.leafAccess q e level ctx a

/-- An access is translated and its requester answered. -/
def State.answer (s : State) (q : Nat) (a : VAccess) : State :=
  match s.translate q a with
  | (s, .ok tgt pa link) => s.emit (.granted a tgt pa link)
  | (s, .deny) => s.emit (.denied a)
  | (s, .held) => s.emit (.heldAccess a)

/-- A held access resumes: it walks again, and one that now faults is completed with ACCESS_FAULT (R270). -/
def State.resume (s : State) (q : Nat) (a : VAccess) : State :=
  match s.translate q a with
  | (s, .ok tgt pa link) => s.emit (.granted a tgt pa link)
  | (s, .deny) =>
    (s.setSurveyor q { s.surveyor q with failed := (s.surveyor q).failed ++ [a] }).emit (.denied a)
  | (s, .held) => s

/-- Accesses resume in their issue order. -/
def State.resumeAll (s : State) (q : Nat) (as : List VAccess) : State := as.foldl (fun s a => s.resume q a) s

/-- Accesses complete with ACCESS_FAULT. -/
def State.failAll (s : State) (q : Nat) (as : List VAccess) : State :=
  as.foldl (fun s a =>
    (s.setSurveyor q { s.surveyor q with failed := (s.surveyor q).failed ++ [a] }).emit (.denied a)) s

/-- Accesses that waited for a record to be posted try again (R269). -/
def State.postWaiting (s : State) (q : Nat) : State :=
  let x := s.surveyor q
  (s.setSurveyor q { x with waiting := [] }).resumeAll q x.waiting

/-- The precinct that the context of an ASID names; 0xFF where no valid context does. -/
def State.asidPrec (s : State) (q asid : Nat) : State × Nat :=
  match s.context q asid with
  | (s, some c) => (s, if nbit (leAt c 0 8) 0 && decide (leAt c 8 1 < 64) then leAt c 8 1 else 0xFF)
  | (s, none) => (s, 0xFF)

/-! ### A range of virtual addresses, as the stalls' tasks use it -/

/-- The 4 KiB pages of `n` bytes from `va`: the page's address, and its part of the range as offset and length. -/
def pages (va n : Nat) : List (Nat × Nat) :=
  if n = 0 then []
  else (List.range ((va + n - 1) / 4096 + 1 - va / 4096)).map fun i =>
    let p := (va / 4096 + i) * 4096
    let lo := max va p
    (lo, min (va + n) (p + 4096) - lo)

/-- How the translation of a whole range ended. -/
inductive Range where
  /-- Device-physical pieces: address and length. -/
  | ok (pieces : List (Nat × Nat))
  | deny
  | held
  deriving DecidableEq, Repr

/-- Pages translated in order until one is denied or held; a page outside device memory is denied. -/
def State.transPages (q req asid : Nat) (write : Bool) : List (Nat × Nat) → State → State × Range
  | [], s => (s, .ok [])
  | (va, n) :: rest, s =>
    match s.translate q ⟨req, asid, va, write⟩ with
    | (s, .deny) => (s, .deny)
    | (s, .held) => (s, .held)
    | (s, .ok (_ + 1) _ _) => (s, .deny)
    | (s, .ok 0 pa _) =>
      match State.transPages q req asid write rest s with
      | (s, .ok ps) => (s, .ok ((pa, n) :: ps))
      | r => r

/-- `n` bytes from `va` translated for a requester of Quarter `q`. A range past 2^48 is denied (R260). -/
def State.transRange (s : State) (q req asid va n : Nat) (write : Bool) : State × Range :=
  if 2 ^ 48 < va + n then (s, .deny) else State.transPages q req asid write (pages va n) s

/-- Bytes read from translated pieces: the state after it, the bytes, and whether any was poisoned. -/
def State.readPieces (s : State) (req asid : Nat) (ps : List (Nat × Nat)) : State × Bytes × Bool :=
  let p := s.reqPrec req
  ps.foldl (fun (x : State × Bytes × Bool) y =>
    let (s, b, bad) := x.1.readMem p req asid y.1 y.2
    (s, x.2.1 ++ b, x.2.2 || bad)) (s, [], false)

/-- Bytes written to translated pieces: the state after it, and whether some write faulted. -/
def State.writePieces (s : State) (req asid : Nat) (ps : List (Nat × Nat)) (data : Bytes) (poison : Bool) :
    State × Bool :=
  let p := s.reqPrec req
  let r := ps.foldl (fun (x : State × Bytes × Bool) y =>
    let (s, bad) := x.1.writeMem p req asid y.1 (slice x.2.1 0 y.2) poison
    (s, x.2.1.drop y.2, x.2.2 || bad)) (s, data, false)
  (r.1, r.2.2)

/-! ### The commands -/

/-- SURVEYOR_TRANSLATE (R267). -/
def execSurveyorTranslate (q : Qn) (a : VAccess) (s : State) : Host.Outcome State Fault Refusal :=
  done (s.answer q.val a)

/-- SURVEYOR_ATS_RESPONSE (R264): a translation is cached and its accesses go on; after a page response of Success they
translate again; after any other they complete with ACCESS_FAULT. An answer nothing waits for changes nothing. -/
def execSurveyorAtsResponse (q : Qn) (asid : BitVec 12) (page : Nat) (r : AtsAnswer) (s : State) :
    Host.Outcome State Fault Refusal :=
  let x := s.surveyor q.val
  let k := key2 asid.toNat page
  match look x.atsWait k with
  | none => done s
  | some as =>
    match r with
    | .translation host rd wr =>
      if (look x.ats k).isSome then done s
      else
        let s := s.setSurveyor q.val { x with atsWait := drop x.atsWait k, ats := put x.ats k (host / 4096 * 4096, rd, wr) }
        done (s.resumeAll q.val as)
    | .pri success =>
      if (look x.pri k).isNone then done s
      else
        let s := s.setSurveyor q.val { x with atsWait := drop x.atsWait k, ats := drop x.ats k, pri := drop x.pri k }
        done (if success then s.resumeAll q.val as else s.failAll q.val as)

/-- A cached entry's key lies in the scope of an invalidation. -/
def invalHits (scope asid vpage key : Nat) : Bool :=
  let (a, lk) := Nat.unpair key
  let (level, idx) := Nat.unpair lk
  match scope with
  | 0 => decide (a = asid) && decide (level < 4) && decide (idx = vpage / 2 ^ (9 * level) ∨
      (level = 0 ∧ idx = vpage / 16 * 16))
  | 1 => a = asid
  | _ => true

/-- SURVEYOR_INVAL (R266): cached translations of the scope are dropped, and the invalidation is in progress until the
accesses that used them have completed. -/
def State.invalidate (s : State) (rq : Requester) (q : Nat) (v : W64) : State :=
  let scope := bitsOf v F.surveyorInval_SCOPE
  let asid := bitsOf v F.surveyorInval_ASID
  let vp := bitsOf v F.surveyorInval_VA
  if !rqKernel rq || decide (scope = 3) then s.refuse rq ⟨.surveyorInval, q, 0⟩
  else
    let x := s.surveyor q
    s.setSurveyor q { x with
      tlb := x.tlb.filter (fun e => !invalHits scope asid vp e.1),
      ats := x.ats.filter (fun e =>
        let (a, p) := Nat.unpair e.1
        !(match scope with | 0 => decide (a = asid ∧ p = vp) | 1 => decide (a = asid) | _ => true)),
      inval := x.inval ++ [(scope, asid, vp)] }

def execSurveyorInval (rq : Requester) (q : Qn) (v : W64) (s : State) : Host.Outcome State Fault Refusal :=
  done (s.invalidate rq q.val v)

/-- A side of a burst uses a translation that an invalidation covers. -/
def invalUses (iv : Nat × Nat × Nat) (asid va len : Nat) : Bool :=
  match iv.1 with
  | 0 => decide (asid = iv.2.1) && decide (va / 4096 ≤ iv.2.2) && decide (iv.2.2 ≤ (va + (len - 1)) / 4096)
  | 1 => decide (asid = iv.2.1)
  | _ => true

/-- SURVEYOR_INVAL_DONE (R266): the oldest invalidation completes once no burst in flight in its Quarter uses an old
translation, and COUNT increments. -/
def execSurveyorInvalDone (q : Qn) (s : State) : Host.Outcome State Fault Refusal :=
  let x := s.surveyor q.val
  match x.inval with
  | [] => done s
  | iv :: rest =>
    let busy := (List.range 64).any fun c => (s.chan (64 * q.val + c)).flight.any fun b =>
      invalUses iv b.srcAsid b.src b.len || invalUses iv b.dstAsid b.dst b.len
    if busy then done s
    else
      let s := s.setSurveyor q.val { x with inval := rest }
      done ((s.fwrap ⟨.surveyorInvalDone, q.val, 0⟩ F.surveyorInvalDone_COUNT 1).count q.val 44 2 1)

/-- A retirement that firmware does not carry out is reported as RETIRE_DEFERRED (R259, R557). -/
def State.retireDeferred (s : State) (pa : Nat) : State :=
  let w := pa / 2 ^ 36
  s.recordErr 1 0x02 0xFF (whUnit w) 1 pa 0 false

/-- A record is freed by a resolve: its accesses walk again (RETRY) or fail (FAIL); for a RETIRE record the page goes on
the retirement list, or is reported as deferred (R259, R270, R557). -/
def State.resolve (s : State) (rq : Requester) (q id : Nat) (retry : Bool) : State :=
  let x := s.surveyor q
  match look x.recs id with
  | none => s.refuse rq ⟨.surveyorFaultResolve, q, 0⟩
  | some r =>
    let s := s.setSurveyor q { x with recs := drop x.recs id }
    let s :=
      if r.kind = 5 then
        let w := r.pa / 2 ^ 36
        let l := lookD [] s.home.retired w
        if retry && decide (l.length < 4096) then
          { s with home := { s.home with retired := put s.home.retired w (l ++ [r.pa]) } }
        else s.retireDeferred r.pa
      else if !r.isOpen then s
      else if retry then s.resumeAll q r.joined
      else s.failAll q r.joined
    s.postWaiting q

/-- SURVEYOR_RESOLVE_RETRY (R270). -/
def execSurveyorResolveRetry (rq : Requester) (q : Qn) (id : Fin 256) (s : State) :
    Host.Outcome State Fault Refusal :=
  done (if rqKernel rq then s.resolve rq q.val id.val true else s.refuse rq ⟨.surveyorFaultResolve, q.val, 0⟩)

/-- SURVEYOR_RESOLVE_FAIL (R270). -/
def execSurveyorResolveFail (rq : Requester) (q : Qn) (id : Fin 256) (s : State) :
    Host.Outcome State Fault Refusal :=
  done (if rqKernel rq then s.resolve rq q.val id.val false else s.refuse rq ⟨.surveyorFaultResolve, q.val, 0⟩)

/-- SURVEYOR_FAULT_TIMEOUT (R270): a record unresolved for 10 ms closes, its accesses complete with ACCESS_FAULT, and its
FAULT_ID stays allocated. A RETIRE record has no accesses and stays. -/
def execSurveyorFaultTimeout (q : Qn) (id : Fin 256) (s : State) : Host.Outcome State Fault Refusal :=
  let x := s.surveyor q.val
  match look x.recs id.val with
  | some r =>
    if r.isOpen && decide (r.kind ≠ 5) then
      let s := s.setSurveyor q.val { x with recs := put x.recs id.val { r with isOpen := false, joined := [] } }
      done (s.failAll q.val r.joined)
    else done s
  | none => done s

end Sys2Proof.Machine
end

