-- ==== Sys2Proof/Machine/Streets.lean ====
section
/-!
DEFINITION. Street routes, their flits and credits (R247–R252), and the streams of bytes that stalls send and take.
-/
namespace Sys2Proof.Machine

/-- Input and output ports of a stall kind (Table 9.1). -/
def streetIn (k : Nat) : Nat := [1, 1, 1, 2, 2, 1, 2, 1, 1, 2, 1].getD k 0
def streetOut (k : Nat) : Nat := [1, 1, 2, 1, 1, 1, 2, 2, 0, 2, 1].getD k 0

/-- The register of route entry `n` of Quarter `q`. -/
def routeReg (q n : Nat) : Reg := ⟨.streetRoute, q, n⟩

/-- A route entry is in force or draining. -/
def State.routeActive (s : State) (q n : Nat) : Bool := s.fbit (routeReg q n) F.streetRoute_ACTIVE

/-- A write that sets VALID may take effect (R251). -/
def State.routeOk (s : State) (q n : Nat) (v : W64) : Bool :=
  let src := bitsOf v F.streetRoute_SRC_STALL
  let dst := bitsOf v F.streetRoute_DST_STALL
  let sp := bitsOf v F.streetRoute_SRC_PORT
  let dp := bitsOf v F.streetRoute_DST_PORT
  let p := bitsOf v F.streetRoute_PRECINCT
  stallOk src && stallOk dst && decide (stallQ src = q) && decide (stallQ dst = q) &&
  decide (s.precOfStall src = some p) && decide (s.precOfStall dst = some p) &&
  decide (sp < streetOut (stallKind src)) && decide (dp < streetIn (stallKind dst)) &&
  !s.fbit (routeReg q n) F.streetRoute_BORDER && !s.routeActive q n &&
  (List.range 256).all fun m =>
    let (src', sp', dst', dp') := s.route q m
    !s.routeActive q m || (decide (¬ (src' = src ∧ sp' = sp)) && decide (¬ (dst' = dst ∧ dp' = dp)))

/-- A route comes into force with 32 credits (R249). -/
def State.routeStart (s : State) (q n : Nat) : State :=
  let s := s.fset (routeReg q n) F.streetRoute_ACTIVE 1
  { s with street := { s.street with credits := drop s.street.credits (key2 q n) } }

/-- A write of STREET_ROUTE with VALID set (R251). -/
def State.routeSetup (s : State) (rq : Requester) (q n : Nat) (v : W64) : State :=
  if rqKernel rq && s.routeOk q n v then
    let keep := setBits (setBits (setBits (setBits (setBits (setBits 0 F.streetRoute_VALID 1)
      F.streetRoute_PRECINCT (bitsOf v F.streetRoute_PRECINCT))
      F.streetRoute_DST_PORT (bitsOf v F.streetRoute_DST_PORT))
      F.streetRoute_DST_STALL (bitsOf v F.streetRoute_DST_STALL))
      F.streetRoute_SRC_PORT (bitsOf v F.streetRoute_SRC_PORT))
      F.streetRoute_SRC_STALL (bitsOf v F.streetRoute_SRC_STALL)
    (s.wr (routeReg q n) keep).routeStart q n
  else s.refuse rq (routeReg q n)

/-- Credits of the sender of a route. -/
def State.routeCredits (s : State) (q n : Nat) : Nat := lookD 32 s.street.credits (key2 q n)

/-- Flits waiting in the buffers of an input port. -/
def State.inFlits (s : State) (st port : Nat) : List Flit := lookD [] s.street.inq (key2 st port)

/-- A draining route whose flits have all been taken and whose credits have all returned ends (R252). -/
def State.routeDrained (s : State) (q n : Nat) : State :=
  let (_, _, dst, dp) := s.route q n
  if s.routeActive q n && !s.fbit (routeReg q n) F.streetRoute_VALID && (s.inFlits dst dp).isEmpty &&
      decide (s.routeCredits q n = 32) then
    s.fset (routeReg q n) F.streetRoute_ACTIVE 0
  else s

/-- A write of STREET_ROUTE that clears VALID (R251, R252): a route in force starts to drain and keeps its fields until
it has; an entry without one takes the fields written. -/
def State.routeTeardown (s : State) (rq : Requester) (q n : Nat) (v : W64) : State :=
  if !rqKernel rq || s.fbit (routeReg q n) F.streetRoute_BORDER then s.refuse rq (routeReg q n)
  else if s.routeActive q n then s.fset (routeReg q n) F.streetRoute_VALID 0
  else
    let keep := setBits (setBits (setBits (setBits (setBits 0
      F.streetRoute_PRECINCT (bitsOf v F.streetRoute_PRECINCT))
      F.streetRoute_DST_PORT (bitsOf v F.streetRoute_DST_PORT))
      F.streetRoute_DST_STALL (bitsOf v F.streetRoute_DST_STALL))
      F.streetRoute_SRC_PORT (bitsOf v F.streetRoute_SRC_PORT))
      F.streetRoute_SRC_STALL (bitsOf v F.streetRoute_SRC_STALL)
    s.wr (routeReg q n) keep

/-- STREET_ROUTE_SETUP (R251): a write of `v` with VALID set. -/
def execStreetRouteSetup (rq : Requester) (q : Qn) (n : Fin 256) (v : W64) (s : State) :
    Host.Outcome State Fault Refusal :=
  done (s.routeSetup rq q.val n.val v)

/-- STREET_ROUTE_TEARDOWN (R252): a write of `v` with VALID clear. -/
def execStreetRouteTeardown (rq : Requester) (q : Qn) (n : Fin 256) (v : W64) (s : State) :
    Host.Outcome State Fault Refusal :=
  done (s.routeTeardown rq q.val n.val v)

/-- STREET_ROUTE_DRAINED (R252). -/
def execStreetRouteDrained (q : Qn) (n : Fin 256) (s : State) : Host.Outcome State Fault Refusal :=
  done (s.routeDrained q.val n.val)

/-- A flit that fails its CRC or control parity is delivered poisoned, a contained error of the route's precinct
(R250). -/
def State.flitError (s : State) (q n src syndrome : Nat) (inj : Bool) : State :=
  (s.count q 46 2 1).recordErr 2 0x03 (s.fget (routeReg q n) F.streetRoute_PRECINCT) src syndrome 0 0 inj

/-- STREET_FLIT (R248): the oldest ready flit of the route's sender crosses, spending a credit. Without a route in force,
a ready flit or a credit nothing crosses; a flit that lacks a credit counts its wait. -/
def execStreetFlit (q : Qn) (n : Fin 256) (corrupt : Bool) (s : State) : Host.Outcome State Fault Refusal :=
  let (src, sp, dst, dp) := s.route q.val n.val
  if !s.routeActive q.val n.val || !s.fbit (routeReg q.val n.val) F.streetRoute_VALID then done s
  else match lookD [] s.street.outq (key2 src sp) with
    | [] => done s
    | f :: fs =>
      let c := s.routeCredits q.val n.val
      if c = 0 then done (s.count q.val 46 1 1)
      else
        let s := s.count q.val 46 0 1
        let hit := s.injAt 0x03 src (fun _ => true)
        let bad := corrupt || hit.isSome
        let s := match hit with
          | some i => s.injFire.flitError q.val n.val src i.syndrome true
          | none => if corrupt then s.flitError q.val n.val src 0 false else s
        let f := { f with poison := f.poison || bad }
        done { s with street := { s.street with
          outq := putD [] s.street.outq (key2 src sp) fs,
          inq := put s.street.inq (key2 dst dp) (s.inFlits dst dp ++ [f]),
          credits := put s.street.credits (key2 q.val n.val) (c - 1) } }

/-- Some flit is of a stream whose END has not come: the stream has begun. -/
def begun (fs : List Flit) : Bool :=
  match fs.getLast? with
  | some f => !f.last
  | none => false

/-- The oldest flit of an input port of a Tally stall begins a piece for a task later than the two it works on; it waits at
its port, and its credit is not returned (R329). -/
def State.pieceLater (s : State) (st port : Nat) : Bool :=
  stallKind st = 4 && !begun (lookD [] s.street.taken (key2 st port)) &&
  match s.inFlits st port with
  | [] => false
  | f :: _ => (lookD [] s.stall.tasks st).all fun t => decide (leAt t.desc 0x48 4 + leAt t.desc 0x4C 4 ≤ leAt f.data 0 4)

/-- STREET_CREDIT_RETURN (R249): the receiving stall takes its oldest flit and its credit goes back. -/
def execStreetCreditReturn (q : Qn) (n : Fin 256) (s : State) : Host.Outcome State Fault Refusal :=
  let (_, _, dst, dp) := s.route q.val n.val
  if !s.routeActive q.val n.val || s.pieceLater dst dp then done s
  else match s.inFlits dst dp with
    | [] => done s
    | f :: fs =>
      let k := key2 dst dp
      done { s with street := { s.street with
        inq := putD [] s.street.inq k fs,
        taken := put s.street.taken k (lookD [] s.street.taken k ++ [f]),
        credits := putD 32 s.street.credits (key2 q.val n.val) (min 32 (s.routeCredits q.val n.val + 1)) } }

/-! ### Streams -/

/-- The flits up to the first END, and those after it; none without an END. -/
def splitStream : List Flit → Option (List Flit × List Flit)
  | [] => none
  | f :: fs => if f.last then some ([f], fs) else (splitStream fs).map fun x => (f :: x.1, x.2)

/-- The oldest whole stream a stall has taken from an input port: its bytes and whether it is poisoned. -/
def State.stream (s : State) (st port : Nat) : Option (Bytes × Bool) :=
  (splitStream (lookD [] s.street.taken (key2 st port))).map fun x =>
    (x.1.flatMap (·.data), x.1.any (·.poison))

/-- The oldest whole stream of an input port consumed. -/
def State.streamTake (s : State) (st port : Nat) : State :=
  let k := key2 st port
  match splitStream (lookD [] s.street.taken k) with
  | some (_, rest) => { s with street := { s.street with taken := putD [] s.street.taken k rest } }
  | none => s

/-- The flits of a stream of bytes: 128 bytes each, END on the last (R248). `fuel` bounds their number. -/
def flitsOf : Nat → Bytes → Bool → List Flit
  | 0, _, _ => []
  | fuel + 1, d, p =>
    if d.length ≤ 128 then [⟨d, true, p⟩] else ⟨d.take 128, false, p⟩ :: flitsOf fuel (d.drop 128) p

/-- A stream ready to send on an output port. -/
def State.streamSend (s : State) (st port : Nat) (data : Bytes) (poison : Bool) : State :=
  let k := key2 st port
  { s with street := { s.street with
    outq := put s.street.outq k (lookD [] s.street.outq k ++ flitsOf (data.length / 128 + 1) data poison) } }

end Sys2Proof.Machine
end

