-- ==== Sys2Proof/Machine/Porter.lean ====
section
/-!
DEFINITION. The Porters: descriptors, arbitration, bursts, completion, register and chain mode (chapter "Porters", R274–R296).
-/
namespace Sys2Proof.Machine

/-! ### Virtual reads and writes -/

/-- How a read of virtual memory ended. -/
inductive VRead where
  | ok (data : Bytes) (poison : Bool)
  | deny
  | held
  deriving DecidableEq, Repr

/-- `n` bytes read at `va` by a requester of Quarter `q`. -/
def State.vread (s : State) (q req asid va n : Nat) : State × VRead :=
  match s.transRange q req asid va n false with
  | (s, .deny) => (s, .deny)
  | (s, .held) => (s, .held)
  | (s, .ok ps) =>
    let (s, d, p) := s.readPieces req asid ps
    (s, .ok d p)

/-- Bytes written at `va` by a requester of Quarter `q`: none while held, else whether it faulted. -/
def State.vwrite (s : State) (q req asid va : Nat) (data : Bytes) (poison : Bool) : State × Option Bool :=
  match s.transRange q req asid va data.length true with
  | (s, .deny) => (s, some true)
  | (s, .held) => (s, none)
  | (s, .ok ps) =>
    let (s, bad) := s.writePieces req asid ps data poison
    (s, some bad)

/-! ### Channel registers -/

/-- Quarter and requester code of a channel. -/
def chQ (c : Nat) : Nat := c / 64
def chReq (c : Nat) : Nat := 0x4000 + c

def chCtrl (c : Nat) : Reg := ⟨.porterChCtrl, c, 0⟩
def chCfg (c : Nat) : Reg := ⟨.porterChCfg, c, 0⟩
def chStateReg (c : Nat) : Reg := ⟨.porterChState, c, 0⟩

/-- The channel runs in chain mode. -/
def State.chainMode (s : State) (c : Nat) : Bool := s.fbit (chCfg c) F.porterChCfg_MODE

/-- GO reads 1. -/
def State.chGo (s : State) (c : Nat) : Bool := s.fbit (chCtrl c) F.porterChCtrl_GO

/-- The 64 bytes of a register set (ACT or SHD). -/
def State.setBytes (s : State) (name : RegName) (c : Nat) : Bytes :=
  (List.range 8).flatMap fun n => leBytes 8 (s.rd ⟨name, c, n⟩).toNat

/-- A register set holding 64 bytes. -/
def State.loadSet (s : State) (name : RegName) (c : Nat) (b : Bytes) : State :=
  forNat 8 s fun s n => s.wr ⟨name, c, n⟩ (BitVec.ofNat 64 (leAt b (8 * n) 8))

/-- The active descriptor's bytes. -/
def State.act (s : State) (c : Nat) : Bytes := s.setBytes .porterChAct c

/-! ### Descriptor fields (Table 10.2) -/

def dSrc (d : Bytes) : Nat := leAt d 0x00 8
def dDst (d : Bytes) : Nat := leAt d 0x08 8
def dLink (d : Bytes) : Nat := leAt d 0x10 8
def dLength (d : Bytes) : Nat := leAt d 0x18 4
def dSrcAsid (d : Bytes) : Nat := leAt d 0x1C 2
def dDstAsid (d : Bytes) : Nat := leAt d 0x1E 2
def dPredCtr (d : Bytes) : Nat := leAt d 0x20 2
def dPredMode (d : Bytes) : Nat := leAt d 0x22 1
def dPredValue (d : Bytes) : Nat := leAt d 0x24 4
def dSigCtr (d : Bytes) : Nat := leAt d 0x28 2
def dFlags (d : Bytes) : Nat := leAt d 0x2A 2
def dSigCount (d : Bytes) : Nat := leAt d 0x2C 4
def dBarrier (d : Bytes) : Bool := nbit (dFlags d) 1
def dCont (d : Bytes) : Bool := nbit (dFlags d) 2
def dIrq (d : Bytes) : Bool := nbit (dFlags d) 3

/-- A nonzero reserved field, or a reserved value, of a descriptor. -/
def dReserved (d : Bytes) : Bool :=
  decide (2 ^ 48 ≤ dSrc d) || decide (2 ^ 48 ≤ dDst d) || decide (nbits (dLink d) 63 48 ≠ 0) ||
  decide (nbits (dLink d) 5 1 ≠ 0) || decide (4096 ≤ dSrcAsid d) || decide (4096 ≤ dDstAsid d) ||
  decide (4 ≤ dPredMode d) || decide (leAt d 0x23 1 ≠ 0) || decide (2 ^ 24 ≤ dPredValue d) ||
  decide (16 ≤ dFlags d) || decide (2 ^ 24 ≤ dSigCount d)

/-- A valid context holds an ASID. -/
def State.asidValid (s : State) (q asid : Nat) : State × Bool :=
  match s.context q asid with
  | (s, some c) => (s, nbit (leAt c 0 8) 0)
  | (s, none) => (s, false)

/-- A descriptor of channel `c` is malformed (R282, R300). -/
def State.dMalformed (s : State) (c : Nat) (d : Bytes) : State × Bool :=
  let p := precOr (s.precOfChan c)
  let mode := dPredMode d
  let (s, a) := s.asidValid (chQ c) (dSrcAsid d)
  let (s, b) := s.asidValid (chQ c) (dDstAsid d)
  let pred := decide (mode ≠ 0) &&
    (decide (dPredCtr d = 0xFFFF) || !s.mayName p (dPredCtr d) || (decide (mode = 1) && decide (dPredValue d = 0)))
  let sig := !s.refField p (dSigCtr d) (dSigCount d)
  (s, dReserved d || !a || !b || pred || sig)

/-! ### Starting a descriptor -/

/-- The wait of a channel goes to its counter's home. -/
def State.chanWait (s : State) (c k n : Nat) : State :=
  s.bells [.wait k { src := .chan c, amount := n }]

/-- A waiting source whose wait has been met takes the answer. -/
def State.takeMet (s : State) (src : WaitSrc) : State × Bool :=
  if s.bell.met.contains src then ({ s with bell := { s.bell with met := s.bell.met.erase src } }, true) else (s, false)

/-- A descriptor whose wait is over issues its bursts; one of LENGTH 0 has none. -/
def State.chanRun (s : State) (c : Nat) : State :=
  s.setChanState c (if dLength (s.act c) = 0 then 3 else 1)

/-- The active set becomes the current descriptor (R279, R282, R283). -/
def State.descStart (s : State) (c : Nat) : State :=
  let d := s.act c
  let ch := s.chan c
  let s := s.setChan c { ch with
    issued := 0, flight := [], fail := none, busy := true, skipped := false, aborted := false, flushed := false,
    endSeen := nbit (dLink d) 0, fetchAt := none, reread := false }
  let s := s.fset ⟨.porterChRemain, c, 0⟩ F.porterChRemain_BYTES (dLength d)
  let (s, bad) := s.dMalformed c d
  if bad then (s.setChan c ((s.chan c).failWith 0x01 false 0)).setChanState c 3
  else match dPredMode d with
    | 1 =>
      let s := s.chanWait c (dPredCtr d) (dPredValue d)
      let (s, ok) := s.takeMet (.chan c)
      if ok then s.chanRun c else s.setChanState c 2
    | 0 => s.chanRun c
    | m =>
      let v := s.count24 (dPredCtr d)
      if (if m = 2 then decide (dPredValue d ≤ v) else decide (v < dPredValue d)) then s.chanRun c
      else (s.setChan c { s.chan c with skipped := true }).setChanState c 3

/-- Register mode: the shadow set is copied into the active set, GO clears, and the transfer starts (R290). -/
def State.swapStart (s : State) (c : Nat) : State :=
  let s := s.loadSet .porterChAct c (s.setBytes .porterChShd c)
  (s.fset (chCtrl c) F.porterChCtrl_GO 0).descStart c

/-- The channel halts with a code: it holds no descriptor, GO and a prefetched descriptor are dropped (R290, R292). -/
def State.chanHalt (s : State) (c code : Nat) : State :=
  let s := s.setChan c {}
  let s := s.fset (chCtrl c) F.porterChCtrl_GO 0
  (s.fset (chStateReg c) F.porterChState_HALT_CODE code).setChanState c 5

/-- PORTER_GO (R290, R292). -/
def State.porterGo (s : State) (rq : Requester) (c : Nat) : State :=
  if !rqKernel rq || (s.precOfChan c).isNone then s.refuse rq (chCtrl c)
  else
    let st := s.chanState c
    let idle := decide (st = 0 ∨ st = 5)
    if s.chainMode c then
      if idle then
        let s := s.fset (chStateReg c) F.porterChState_DB_PENDING 0
        let a := s.fget ⟨.porterChHead, c, 0⟩ F.porterChHead_ADDR * 64
        let s := s.setChan c { fetchAt := some a }
        (s.fset (chCtrl c) F.porterChCtrl_GO 0).setChanState c 1
      else s.refuse rq (chCtrl c)
    else if idle then s.swapStart c
    else if st = 1 ∨ st = 2 ∨ st = 3 then s.fset (chCtrl c) F.porterChCtrl_GO 1
    else s.refuse rq (chCtrl c)

/-- PORTER_RESUME (R292): only a halted channel in chain mode resumes; it re-reads the link word at PORTER_CH_CUR. -/
def State.porterResume (s : State) (rq : Requester) (c : Nat) : State :=
  if rqKernel rq && s.chainMode c && decide (s.chanState c = 5) then
    let s := s.fset (chStateReg c) F.porterChState_DB_PENDING 0
    (s.setChan c { reread := true }).setChanState c 1
  else s.refuse rq (chCtrl c)

/-- PORTER_ABORT (R292): issue stops at the next burst boundary; a wait, or the flush read of a barrier, is given up.
It has a meaning while a descriptor is current. -/
def State.porterAbort (s : State) (rq : Requester) (c : Nat) : State :=
  let ch := s.chan c
  if rqKernel rq && ch.busy && !ch.aborted then
    let s := s.dropWaiters (fun w => w = .chan c)
    let s := s.setChan c { ch with
      aborted := true, pre := none, flight := ch.flight.filter (fun b => !b.isFlush) }
    s.setChanState c 3
  else s.refuse rq (chCtrl c)

/-- PORTER_DOORBELL (R293): a parked channel re-reads its link word; in any other state the doorbell is counted, and kept
pending while a descriptor runs. -/
def State.porterDoorbell (s : State) (rq : Requester) (c : Nat) : State :=
  if !rqKernel rq then s.refuse rq ⟨.porterChDoorbell, c, 0⟩
  else
    let st := s.chanState c
    if st = 4 then s.setChan c { s.chan c with reread := true }
    else
      let s := s.fsat ⟨.porterChDbCount, c, 0⟩ F.porterChDbCount_COUNT 1
      if st = 1 ∨ st = 2 ∨ st = 3 then s.fset (chStateReg c) F.porterChState_DB_PENDING 1 else s

/-! ### Chain mode: fetching (R293) -/

/-- A fetched descriptor in the active set becomes current. -/
def State.chanLoad (s : State) (c a : Nat) (d : Bytes) : State :=
  let s := s.wr ⟨.porterChCur, c, 0⟩ (BitVec.ofNat 64 a)
  (s.loadSet .porterChAct c d).descStart c

/-- The descriptor at `a` is read: none while held, else its bytes, or the HALT_CODE the read ends with. -/
def State.descRead (s : State) (c a : Nat) : State × Option (Except Nat Bytes) :=
  let asid := s.fget (chCfg c) F.porterChCfg_CHAIN_ASID
  match s.vread (chQ c) (chReq c) asid a 64 with
  | (s, .held) => (s, none)
  | (s, .deny) => (s, some (.error 0x31))
  | (s, .ok d p) =>
    if p then (s, some (.error 0x31))
    else if !nbit (dFlags d) 0 then (s, some (.error 0x30))
    else (s, some (.ok d))

/-- PORTER_DESC_FETCH (R293): what the channel has next to read: the descriptor it waits for, the link word again, or,
while a descriptor runs whose END was clear, the next descriptor into the shadow set. -/
def execPorterDescFetch (c : ChanNo) (s : State) : Host.Outcome State Fault Refusal :=
  let c := c.val
  let ch := s.chan c
  if !s.chainMode c || decide (s.chanState c = 6) then done s
  else if ch.busy then
    if ch.endSeen || ch.aborted || ch.pre.isSome then done s
    else
      let a := nbits (dLink (s.act c)) 47 6 * 64
      match s.descRead c a with
      | (s, none) => done s
      | (s, some (.error code)) => done (s.setChan c { s.chan c with pre := some (a, code) })
      | (s, some (.ok d)) =>
        done ((s.loadSet .porterChShd c d).setChan c { s.chan c with pre := some (a, 0) })
  else match ch.fetchAt with
    | some a =>
      match s.descRead c a with
      | (s, none) => done s
      | (s, some (.error code)) => done ((s.wr ⟨.porterChCur, c, 0⟩ (BitVec.ofNat 64 a)).chanHalt c code)
      | (s, some (.ok d)) => done (s.chanLoad c a d)
    | none =>
      if !ch.reread then done s
      else
        let asid := s.fget (chCfg c) F.porterChCfg_CHAIN_ASID
        let cur := s.fget ⟨.porterChCur, c, 0⟩ F.porterChCur_ADDR * 64
        match s.vread (chQ c) (chReq c) asid (cur + 0x10) 8 with
        | (s, .held) => done s
        | (s, .deny) => done (s.chanHalt c 0x31)
        | (s, .ok d p) =>
          if p then done (s.chanHalt c 0x31)
          else if nbit (leNat d) 0 then done ((s.setChan c { endSeen := true }).setChanState c 4)
          else
            done ((s.setChan c { fetchAt := some (nbits (leNat d) 47 6 * 64) }).setChanState c 1)

/-- PORTER_WAIT_MET (R283): a channel whose wait its counter has met goes on. -/
def execPorterWaitMet (c : ChanNo) (s : State) : Host.Outcome State Fault Refusal :=
  if s.chanState c.val = 2 then
    let (s, ok) := s.takeMet (.chan c.val)
    done (if ok then s.chanRun c.val else s)
  else done s

/-! ### Host ports and Causeway links, as bursts use them -/

/-- The function behind the host pages of an ASID at port `h`: the instance with that ASID, else the PF. -/
def State.funcOfAsid (s : State) (h asid : Nat) : Nat :=
  match s.host.funcs.find? (fun x => decide (portOf x.1 = h) &&
      (match x.2.inst with | some i => decide (i.asid = asid) | none => false)) with
  | some x => x.1
  | none => h * 256

/-- The least number below `n` that is no key of either table. -/
def freeTag {α β : Type} (n : Nat) (used : Tab α) (quar : Tab β) : Option Nat :=
  (List.range n).find? fun t => (look used t).isNone && (look quar t).isNone

/-- Why a burst cannot use host port `h` now: link down, blocked, or held in a low power state (R467, R519). -/
inductive HostUse where
  | ok | hold
  | fail (code : Nat)
  deriving DecidableEq, Repr

def State.hostUse (s : State) (h asid : Nat) : HostUse :=
  let f := s.func (s.funcOfAsid h asid)
  if !(s.port h).linkUp then .fail 0x23
  else if !f.bme || f.driverLost then .fail 0x24
  else if (s.func (h * 256)).power = 1 ∨ (s.func (h * 256)).power = 3 then .hold
  else .ok

/-- Root-port mode of the group of link `l`. -/
def State.rpMode (s : State) (l : Nat) : Bool := s.fbit ⟨.cwGrpCtrl, l / 4, 0⟩ F.cwGrpCtrl_MODE

/-- A burst to link `l` can go now (R623, R350). -/
def State.linkUsable (s : State) (l : Nat) : Bool :=
  if s.rpMode l then decide (l % 4 = 0) && s.fbit ⟨.cwGrpStatus, l / 4, 0⟩ F.cwGrpStatus_DLL_ACTIVE
  else decide (s.fget ⟨.cwLinkStatus, l, 0⟩ F.cwLinkStatus_STATE = 3)

/-- Causeway link `l`, and its state replaced. -/
def State.link (s : State) (l : Nat) : CwLink := (look s.cw l).getD {}
def State.setLink (s : State) (l : Nat) (x : CwLink) : State := { s with cw := putD {} s.cw l x }

/-- A message sent on link `l`; its data bytes count at the group. -/
def State.cwSend (s : State) (l : Nat) (m : CwMsg) : State :=
  (s.count (l / 4) 56 0 m.data.length).emit (.causeway l m)

/-- Host port block of the Weighmaster: H0 in Q0, H1 in Q2. -/
def hostQ (h : Nat) : Nat := 2 * h

/-- Bytes cut at the 256-byte boundaries of their target address (Table 13.1). `fuel` bounds the pieces. -/
def cut256 : Nat → Nat → Bytes → List (Nat × Bytes)
  | 0, _, _ => []
  | fuel + 1, a, d =>
    let n := 256 - a % 256
    if d.length ≤ n then (if d.isEmpty then [] else [(a, d)]) else (a, d.take n) :: cut256 fuel (a + n) (d.drop n)

/-! ### A burst in flight -/

/-- A burst of a channel replaced. -/
def State.setBurst (s : State) (c : Nat) (b : Burst) : State :=
  let ch := s.chan c
  s.setChan c { ch with flight := ch.flight.map fun x => if x.id = b.id then b else x }

/-- A burst is over. -/
def State.endBurst (s : State) (c id : Nat) : State :=
  let ch := s.chan c
  s.setChan c { ch with flight := ch.flight.filter (fun x => x.id ≠ id) }

/-- A burst of a channel. -/
def State.burst (s : State) (c id : Nat) : Option Burst := (s.chan c).flight.find? (fun b => b.id = id)

/-- A burst's read goes out: to the home of device memory, a host port, or a Causeway link. It waits for a free tag, or
while the host port holds it. -/
def State.burstRead (s : State) (c : Nat) (b : Burst) : State :=
  let rd := { b with phase := .read }
  match b.srcTgt with
  | 0 => s.setBurst c rd
  | 3 =>
    let l := b.srcLink
    if !s.linkUsable l then s.failBurst c b.id 0x23 b.isFlush
    else match freeTag 4096 (s.link l).tags (s.link l).expired with
      | none => s
      | some t =>
        let s := s.setLink l { s.link l with tags := put (s.link l).tags t (c, b.id) }
        let s := s.setBurst c rd
        if s.rpMode l then s.emit (.rpRead (l / 4) b.srcPa b.len t)
        else s.cwSend l { type := 2, flags := 0, length := b.len, tag := t, status := 0, addr := b.srcPa, data := [] }
  | tgt =>
    let h := tgt - 1
    match s.hostUse h b.srcAsid with
    | .fail code => s.failBurst c b.id code b.isFlush
    | .hold => s
    | .ok =>
      let p := s.port h
      match freeTag 16384 p.tags p.expired with
      | some t =>
        if p.tags.length < 4096 then
          ((s.setPort h { p with tags := put p.tags t (c, b.id) }).setBurst c rd).emit (.hostRead h b.srcPa b.len t)
        else s
      | none => s

/-- Tags for the WRITE messages of a burst, one each, lowest first. -/
def takeTags : List (Nat × Bytes) → CwLink → Nat → Nat → Option (CwLink × List (Nat × Nat × Bytes))
  | [], x, _, _ => some (x, [])
  | (a, d) :: rest, x, c, id =>
    match freeTag 4096 x.tags x.expired with
    | none => none
    | some t =>
      (takeTags rest { x with tags := put x.tags t (c, id) } c id).map fun y => (y.1, (t, a, d) :: y.2)

/-- A burst's bytes go to their destination (R288): a Square or a Warehouse, a host (never poisoned), or a Causeway link. -/
def State.burstWrite (s : State) (c : Nat) (b : Burst) : State :=
  let data := if b.data.length = b.len then b.data else s.freeBytes b.len
  let s := if b.data.length = b.len then s else s.useFresh b.len
  let s := if b.poison then s.setChan c ((s.chan c).failWith 0x06 false b.src) else s
  match b.dstTgt with
  | 0 =>
    let (s, bad) := s.writeMem (s.reqPrec (chReq c)) (chReq c) b.dstAsid b.dstPa data b.poison
    if bad then s.failBurst c b.id 0x05 true else s.endBurst c b.id
  | 3 =>
    let l := b.dstLink
    if !s.linkUsable l then s.failBurst c b.id 0x23 true
    else if s.rpMode l then
      if b.poison then s.endBurst c b.id
      else (s.emit (.rpWrite (l / 4) b.dstPa data)).endBurst c b.id
    else match takeTags (cut256 20 b.dstPa data) (s.link l) c b.id with
      | none => s.setBurst c { b with phase := .write, data := data }
      | some (x, ms) =>
        let s := s.setLink l x
        let s := s.setBurst c { b with phase := .acks, data := [], tags := ms.map (·.1) }
        ms.foldl (fun s m => s.cwSend l
          { type := 1, flags := 2 * b2n b.poison, length := m.2.2.length, tag := m.1, status := 0,
            addr := m.2.1, data := m.2.2 }) s
  | tgt =>
    let h := tgt - 1
    if b.poison then s.endBurst c b.id
    else match s.hostUse h b.dstAsid with
      | .fail code => s.failBurst c b.id code true
      | .hold => s.setBurst c { b with phase := .write, data := data }
      | .ok => ((s.count (hostQ h) 57 0 data.length).emit (.hostWrite h b.dstPa data)).endBurst c b.id

/-- A burst that waits for translation tries both sides (R263, R267, R288). -/
def State.burstTranslate (s : State) (c : Nat) (b : Burst) : State :=
  match s.translate (chQ c) ⟨chReq c, b.srcAsid, b.src, false⟩ with
  | (s, .held) => s
  | (s, r) =>
    match s.translate (chQ c) ⟨chReq c, b.dstAsid, b.dst, true⟩ with
    | (s, .held) => s
    | (s, .deny) =>
      (match r with
        | .deny => s.setChan c ((s.chan c).failWith 0x05 false b.src)
        | _ => s).failBurst c b.id 0x05 true
    | (s, .ok tgt pa link) =>
      let b := { b with dstTgt := tgt, dstPa := pa, dstLink := link }
      match r with
      | .ok tgt pa link =>
        let b := { b with srcTgt := tgt, srcPa := pa, srcLink := link }
        (s.setBurst c b).burstRead c b
      | _ => (s.setBurst c b).failBurst c b.id 0x05 false

/-! ### Arbitration (R276, R277) -/

/-- The current descriptor of a channel has a burst to issue and may issue it. -/
def State.eligible (s : State) (c : Nat) : Bool :=
  let ch := s.chan c
  decide (s.chanState c = 1) && ch.busy && ch.fail.isNone && !ch.aborted &&
  decide (ch.issued < dLength (s.act c)) && decide (ch.flight.length < 8)

/-- PRIO of a channel. -/
def State.prio (s : State) (c : Nat) : Nat := s.fget (chCfg c) F.porterChCfg_PRIO

/-- WEIGHTs of a level latched for its round (R277). -/
def State.latchWeights (s : State) (q level : Nat) : State :=
  forNat 64 s fun s i =>
    let c := 64 * q + i
    { s with porter := { s.porter with
      weights := putD 1 s.porter.weights (key3 q level c) (s.fget (chCfg c) F.porterChCfg_WEIGHT) } }

/-- The latched WEIGHT of a channel. -/
def State.weight (s : State) (q level c : Nat) : Nat := lookD 1 s.porter.weights (key3 q level c)

/-- The channel a level grants next, with the grants then left to it; the round may start anew. -/
def State.pick (s : State) (q level : Nat) (el : List Nat) : State × Option (Nat × Nat) :=
  let next (s : State) (after : Nat) : State × Option (Nat × Nat) :=
    match el.find? (fun c => after ≤ c) with
    | some c => (s, some (c, s.weight q level c - 1))
    | none =>
      let s := s.latchWeights q level
      (s, el.head?.map fun c => (c, s.weight q level c - 1))
  match look s.porter.round (key2 q level) with
  | some (c, left) =>
    if 0 < left ∧ el.contains c then (s, some (c, left - 1)) else next s (c + 1)
  | none => next (s.latchWeights q level) 0

/-- The length of the burst at `issued` bytes of a descriptor (R278). -/
def burstLen (d : Bytes) (issued log : Nat) : Nat :=
  min (min (dLength d - issued) (2 ^ log)) (min (4096 - (dSrc d + issued) % 4096) (4096 - (dDst d + issued) % 4096))

/-- PORTER_BURST_GRANT (R276): the engine of Quarter `q` grants one burst, if a channel is eligible and fewer than 64
bursts are in flight. -/
def execPorterBurstGrant (q : Qn) (s : State) : Host.Outcome State Fault Refusal :=
  let q := q.val
  let chans := (List.range 64).map (64 * q + ·)
  let el := chans.filter fun c => s.eligible c
  if el.isEmpty || s.qFenced q then done s
  else if 64 ≤ (chans.map fun c => (s.chan c).flight.length).sum then done (s.count q 42 4 1)
  else
    let level := (el.map fun c => s.prio c).foldl max 0
    match s.pick q level (el.filter fun c => s.prio c = level) with
    | (s, none) => done s
    | (s, some (c, left)) =>
      let s := { s with porter := { s.porter with round := put s.porter.round (key2 q level) (c, left) } }
      let ch := s.chan c
      let d := s.act c
      let n := burstLen d ch.issued (s.fget (chCfg c) F.porterChCfg_BURST_LOG2)
      let b : Burst := {
        id := ch.nextId, src := dSrc d + ch.issued, dst := dDst d + ch.issued,
        srcAsid := dSrcAsid d, dstAsid := dDstAsid d, len := n }
      let s := s.setChan c { ch with issued := ch.issued + n, nextId := ch.nextId + 1, flight := ch.flight ++ [b] }
      let s := s.fset ⟨.porterChRemain, c, 0⟩ F.porterChRemain_BYTES (dLength d - (ch.issued + n))
      let s := if dLength d ≤ ch.issued + n then s.setChanState c 3 else s
      let s := (s.count q 42 0 n).count q 42 1 1
      done (s.burstTranslate c b)

/-- The data of a burst's read has arrived whole. -/
def State.burstData (s : State) (c : Nat) (b : Burst) (data : Bytes) (poison : Bool) : State :=
  if b.isFlush then (s.endBurst c b.id).setChan c { (s.endBurst c b.id).chan c with flushed := true }
  else
    let b := { b with data := data, poison := poison, phase := .write }
    (s.setBurst c b).burstWrite c b

/-- The tag of a host or root-port read is free again. -/
def State.freeReadTag (s : State) (c : Nat) (b : Burst) : State :=
  if b.srcTgt = 3 then
    let x := s.link b.srcLink
    s.setLink b.srcLink { x with tags := x.tags.filter fun t => t.2 ≠ (c, b.id) }
  else if b.srcTgt = 0 then s
  else
    let p := s.port (b.srcTgt - 1)
    s.setPort (b.srcTgt - 1) { p with tags := p.tags.filter fun t => t.2 ≠ (c, b.id) }

/-- A response of the far side for a burst in its read phase. A burst of device memory reads its home; one of a Causeway
link in link mode is answered by READ_DATA instead (R340). An injection at detector 0x0A discards the response. -/
def State.burstAnswer (s : State) (c : Nat) (b : Burst) (e : BurstEnd) : State :=
  match b.srcTgt with
  | 0 =>
    let (s, d, p) := s.readMem (s.reqPrec (chReq c)) (chReq c) b.srcAsid b.srcPa b.len
    s.burstData c b d p
  | tgt =>
    let unit := if tgt = 3 then qUnit (b.srcLink / 4) 0x0E else qUnit (hostQ (tgt - 1)) 0x18
    if tgt = 3 && !s.rpMode b.srcLink then s
    else if (s.injAt 0x0A unit (fun _ => true)).isSome then s
    else match e with
      | .ok d p =>
        let s := s.freeReadTag c b
        let s := if tgt = 3 then s else s.count (hostQ (tgt - 1)) 57 1 b.len
        s.burstData c b (slice d 0 b.len) p
      | .abort => (s.freeReadTag c b).failBurst c b.id 0x22 b.isFlush
      | .late _ _ => s

/-- PORTER_BURST_RESPONSE (R288, R471): the response of the burst numbered `n` of a channel; `e` is what a host or root
port answers. A burst that still waits for translation or tags tries again. A late completion is discarded and logged. -/
def execPorterBurstResponse (c : ChanNo) (n : Nat) (e : BurstEnd) (s : State) :
    Host.Outcome State Fault Refusal :=
  let c := c.val
  match e with
  | .late h t =>
    match look (s.port h.val).expired t with
    | some f => done ((s.count (hostQ h.val) 57 3 1).emit (.aer f 6))
    | none => done s
  | _ =>
    if s.chanState c = 6 then done s
    else match s.burst c n with
      | none => done s
      | some b =>
        match b.phase with
        | .translate =>
          if b.isFlush then done (s.burstRead c b) else done (s.burstTranslate c b)
        | .read => done (s.burstAnswer c b e)
        | .write => done (s.burstWrite c b)
        | .acks => done s

/-! ### Completion (R284–R289) -/

/-- The code a descriptor completes with, and its FAIL_ADDR. -/
def Chan.result (ch : Chan) : Nat × Nat :=
  match ch.fail with
  | some (code, side, addr) => (code, if code = 1 then 0 else b2n side * 2 ^ 63 + addr)
  | none => if ch.aborted then (0x25, 0) else if ch.skipped then (0x20, 0) else (0, 0)

/-- The descriptor has nothing more to issue and nothing in flight. -/
def State.drained (s : State) (c : Nat) : Bool :=
  let ch := s.chan c
  ch.busy && ch.flight.isEmpty && decide (s.chanState c ≠ 2) && decide (s.chanState c ≠ 6) &&
  (ch.fail.isSome || ch.aborted || ch.skipped || decide (dLength (s.act c) ≤ ch.issued))

/-- The flush read that a barrier still needs: for a last destination in host memory or behind a root port (R285). -/
def State.flushNeeded (s : State) (c : Nat) : State × Option Burst :=
  let ch := s.chan c
  let d := s.act c
  if dBarrier d && ch.fail.isNone && !ch.aborted && !ch.skipped && !ch.flushed && decide (0 < dLength d) then
    let va := dDst d + (dLength d - 1)
    match s.translate (chQ c) ⟨chReq c, dDstAsid d, va, true⟩ with
    | (s, .ok tgt pa link) =>
      if tgt = 1 ∨ tgt = 2 ∨ (tgt = 3 ∧ s.rpMode link) then
        (s, some {
          id := ch.nextId, src := va, dst := va, srcAsid := dDstAsid d, dstAsid := dDstAsid d, len := 0,
          srcTgt := tgt, srcPa := pa, srcLink := link, isFlush := true })
      else (s, none)
    | (s, _) => (s, none)
  else (s, none)

/-- IRQ_PEND and its bit of PORTER_Q_IRQ. -/
def State.setIrqPend (s : State) (c v : Nat) : State :=
  let r : Reg := ⟨.porterQIrq, chQ c, 0⟩
  let p := s.fget r F.porterQIrq_PEND
  (s.fset (chStateReg c) F.porterChState_IRQ_PEND v).fset r F.porterQIrq_PEND
    (if v = 1 then setBit p (c % 64) else clearBit p (c % 64))

/-- What follows a completed descriptor: a halt, the next transfer, IDLE, a re-read, or PARKED (R289, R290, R293). -/
def State.chanNext (s : State) (c code : Nat) (d : Bytes) : State :=
  let failed := code ≠ 0 ∧ code ≠ 0x20
  let ch := s.chan c
  if code = 0x01 ∨ code = 0x25 ∨ (failed ∧ !dCont d) then s.chanHalt c code
  else if !s.chainMode c then
    let s := s.setChan c {}
    if s.chGo c then s.swapStart c else s.setChanState c 0
  else if ch.endSeen then
    if s.fbit (chStateReg c) F.porterChState_DB_PENDING then
      ((s.fset (chStateReg c) F.porterChState_DB_PENDING 0).setChan c { reread := true }).setChanState c 1
    else (s.setChan c { endSeen := true }).setChanState c 4
  else match ch.pre with
    | some (a, 0) => (s.setChan c {}).chanLoad c a (s.setBytes .porterChShd c)
    | some (a, hc) => (s.wr ⟨.porterChCur, c, 0⟩ (BitVec.ofNat 64 a)).chanHalt c hc
    | none => (s.setChan c { fetchAt := some (nbits (dLink d) 47 6 * 64) }).setChanState c 1

/-- The status is written (R286), the counter signalled and the interrupt raised (R287). -/
def State.descDone (s : State) (c : Nat) : State :=
  let ch := s.chan c
  let d := s.act c
  let (code, fa) := ch.result
  let failed := code ≠ 0 ∧ code ≠ 0x20
  let finish (s : State) : State :=
    let s := s.wr ⟨.porterChLast, c, 0⟩ (BitVec.ofNat 64 code)
    let s := if failed then s.wr ⟨.porterChFailAddr, c, 0⟩ (BitVec.ofNat 64 fa) else s
    let s := (s.count (chQ c) 42 2 1).count (chQ c) 42 3 (if failed then 1 else 0)
    let s := if code = 1 then s else s.signal (dSigCtr d) (dSigCount d) (0x4000 + c)
    let s := if dIrq d then (s.setIrqPend c 1).raiseLine (chQ c) 2 else s
    s.chanNext c code d
  if s.chainMode c then
    let asid := s.fget (chCfg c) F.porterChCfg_CHAIN_ASID
    let cur := s.fget ⟨.porterChCur, c, 0⟩ F.porterChCur_ADDR * 64
    let w1 := leBytes 4 code ++ leBytes 4 0 ++ leBytes 8 fa
    let w2 := leBytes 2 (dSigCtr d) ++ leBytes 2 (clearBit (dFlags d) 0) ++ leBytes 4 (dSigCount d)
    match s.vwrite (chQ c) (chReq c) asid (cur + 0x30) w1 false with
    | (s, none) => s
    | (s, some true) => s.chanHalt c 0x31
    | (s, some false) =>
      match s.vwrite (chQ c) (chReq c) asid (cur + 0x28) w2 false with
      | (s, none) => s
      | (s, some true) => s.chanHalt c 0x31
      | (s, some false) => finish s
  else finish s

/-- PORTER_DESC_COMPLETE (R284, R285): a descriptor with nothing left in flight sends the flush read of its barrier, if it
needs one, or completes. -/
def execPorterDescComplete (c : ChanNo) (s : State) : Host.Outcome State Fault Refusal :=
  let c := c.val
  if s.drained c then
    match s.flushNeeded c with
    | (s, some b) =>
      let ch := s.chan c
      let s := s.setChan c { ch with nextId := ch.nextId + 1, flight := [b] }
      done ((s.setChanState c 3).burstRead c b)
    | (s, none) => done (s.descDone c)
  else done s

/-! ### The register commands -/

/-- PORTER_GO (R290, R292). -/
def execPorterGo (rq : Requester) (c : ChanNo) (s : State) : Host.Outcome State Fault Refusal :=
  done (s.porterGo rq c.val)

/-- PORTER_ABORT (R292). -/
def execPorterAbort (rq : Requester) (c : ChanNo) (s : State) : Host.Outcome State Fault Refusal :=
  done (s.porterAbort rq c.val)

/-- PORTER_RESUME (R292). -/
def execPorterResume (rq : Requester) (c : ChanNo) (s : State) : Host.Outcome State Fault Refusal :=
  done (s.porterResume rq c.val)

/-- PORTER_DOORBELL (R293). -/
def execPorterDoorbell (rq : Requester) (c : ChanNo) (s : State) : Host.Outcome State Fault Refusal :=
  done (s.porterDoorbell rq c.val)

end Sys2Proof.Machine
end

