-- ==== Sys2Proof/Machine/Weighmaster.lean ====
section
/-!
DEFINITION. Weighmaster counters: writes, chaining, carries and sampling (chapter "Weighmaster", R537–R546). The blocks that
cannot be armed are counted by `State.count` of Ops.lean.
-/
namespace Sys2Proof.Machine

/-- The CHAIN bits of a block. -/
def State.chained (s : State) (q b n : Nat) : Bool := nbit (s.fget ⟨.wmChain, q, b⟩ F.wmChain_CHAIN) n

/-- A slot of a block is armed. -/
def State.slotArmed (s : State) (q b n : Nat) : Bool := nbit (s.fget ⟨.wmArm, q, b⟩ F.wmArm_ARM) n

/-- Blocks that may be armed: the stalls and the Guildhall cores (R546). -/
def armable (b : Nat) : Bool := decide (b < 42) || (decide (48 ≤ b) && decide (b < 52))

/-- The context of a sample: what R545 gives, the ASID, and user mode of a core. -/
structure SampleCtx where
  context : Nat := 0
  asid : Nat := 0
  user : Bool := false
  deriving DecidableEq, Repr

/-- A sample record (Table 23.5) is written to the Quarter's ring and WM_SAMPLE_CTR is signalled, or it is dropped and
counted (R546). -/
def State.sample (s : State) (q b n : Nat) (c : SampleCtx) : State :=
  let ring : Reg := ⟨.wmSampleRing, q, 0⟩
  let idx : Reg := ⟨.wmSampleIdx, q, 0⟩
  let seq := lookD 0 s.sampleSeq q
  let (s, p) := if c.asid = 0 then (s, 0xFF) else s.asidPrec q c.asid
  let s := { s with sampleSeq := put s.sampleSeq q ((seq + 1) % 2 ^ 32) }
  let lg := s.fget ring F.wmSampleRing_LOG2
  let head := s.fget idx F.wmSampleIdx_HEAD
  let tail := s.fget idx F.wmSampleIdx_TAIL
  if lg ≠ 0 ∧ (head + 2 ^ 16 - tail) % 2 ^ 16 < 2 ^ lg then
    let ext := if s.chained q b n then s.fget (wmReg q b (n + 16)) F.wmCnt_COUNT else 0
    let rec32 := leBytes 4 seq ++ leBytes 1 q ++ leBytes 1 b ++ leBytes 1 n ++
      leBytes 1 (b2n (decide (48 ≤ b)) + 2 * b2n c.user) ++ leBytes 8 c.context ++ leBytes 2 c.asid ++ leBytes 1 p ++
      leBytes 5 0 ++ leBytes 8 ext
    let s := s.poke (s.fget ring F.wmSampleRing_ADDR * 4096 + head % 2 ^ lg * 32) rec32
    let s := s.fset idx F.wmSampleIdx_HEAD ((head + 1) % 2 ^ 16)
    s.signal (s.fget ⟨.wmSampleCtr, q, 0⟩ F.wmSampleCtr_COUNTER) 1 (0x8000 + 4 * q)
  else s.fsat idx F.wmSampleIdx_LOST 1

/-- `k` events of a slot: a carry of an armed slot records a sample (R543, R546). Counters on a fenced compute die stand
still (R539). -/
def State.event (s : State) (q b n k : Nat) (c : SampleCtx) : State :=
  if k = 0 then s
  else if q < 4 ∧ s.qFenced q ∧ (b < 47 ∨ (48 ≤ b ∧ b < 52)) ∧ b ≠ 45 then s
  else
    let (s', carried) := s.wmAdd q b n k
    if carried && armable b && s'.slotArmed q b n then s'.sample q b n c else s'

/-- `k` events of a stall, for a task at a ring index. -/
def State.stallEvent (s : State) (st n k index asid : Nat) : State :=
  s.event (stallQ st) (participant st) n k { context := index, asid := asid }

/-- A write of a counter (R541): COUNT takes the value, and WRAPPED clears where its bit is written 1. An extension of an
unchained slot stays 0 (R543). -/
def State.counterWrite (s : State) (rq : Requester) (q b n : Nat) (v : W64) : State :=
  let r := wmReg q b n
  if !rqKernel rq || !wmSlotOk q b n then s.refuse rq r
  else if 16 ≤ n ∧ !s.chained q b (n - 16) then s
  else
    let s' := s.fset r F.wmCnt_COUNT (bitsOf v F.wmCnt_COUNT)
    if bitsOf v F.wmCnt_WRAPPED = 1 then s'.fset r F.wmCnt_WRAPPED 0 else s'

/-- WM_COUNTER_WRITE (R541). -/
def execWmCounterWrite (rq : Requester) (q : Fin 5) (b : Fin 58) (n : Fin 32) (v : W64) (s : State) :
    Host.Outcome State Fault Refusal :=
  done (s.counterWrite rq q.val b.val n.val v)

/-- A write of WM_CHAIN: each bit that changes sets its extension slot to 0 (R543). -/
def State.chainWrite (s : State) (rq : Requester) (q b : Nat) (v : W64) : State :=
  let r : Reg := ⟨.wmChain, q, b⟩
  if !rqKernel rq then s.refuse rq r
  else
    let old := s.fget r F.wmChain_CHAIN
    let new := bitsOf v F.wmChain_CHAIN
    let s := forNat 16 s fun s n => if nbit old n = nbit new n then s else s.wr (wmReg q b (n + 16)) 0
    s.fset r F.wmChain_CHAIN new

/-- WM_CHAIN_WRITE (R543). A block the map does not define has no WM_CHAIN. -/
def execWmChainWrite (rq : Requester) (q : Fin 5) (b : Fin 58) (v : W64) (s : State) :
    Host.Outcome State Fault Refusal :=
  done (if !wmSlotOk q.val b.val 0 then s.strayCode (rqCode rq) 0 (Reg.offset ⟨.wmChain, q.val, b.val⟩)
    else s.chainWrite rq q.val b.val v)

/-- WM_COUNTER_CARRY (R539, R546): `events` more events of a slot, with the context of the unit at the carry. It is how
events that are counted by the turn reach their counters. A slot that the map does not define counts nothing. -/
def execWmCounterCarry (q : Fin 5) (b : Fin 58) (n : Fin 16) (events context asid : Nat) (user : Bool) (s : State) :
    Host.Outcome State Fault Refusal :=
  if wmSlotOk q.val b.val n.val then
    done (s.event q.val b.val n.val events { context := context, asid := asid % 4096, user := user })
  else done s

end Sys2Proof.Machine
end

