-- ==== Sys2Proof/Machine/Tasks.lean ====
section
/-!
DEFINITION. The task rings of the stalls: fetching, waits, running, status, signals and Alley lines (R187–R195, R298). The fields
that every task descriptor shares stand at the same offsets (Tables 6.5, 7.3, 7.4, 7.9, 8.5, 12.4, 17.5).
-/
namespace Sys2Proof.Machine

/-! ### Ring registers -/

def ringCtrl (st : Nat) : Reg := ⟨.stallCtrl, st, 0⟩
def ringState (st : Nat) : Reg := ⟨.stallState, st, 0⟩
def ringErr' (st : Nat) : Reg := ⟨.stallErr, st, 0⟩

/-- Entries of a stall's ring; 0 while RING_LOG2 is below its range. -/
def State.ringSize (s : State) (st : Nat) : Nat :=
  let lg := s.fget (ringCtrl st) F.stallCtrl_RING_LOG2
  if 4 ≤ lg ∧ lg ≤ 12 then 2 ^ lg else 0

/-- STATE of a ring stall, and it replaced. -/
def State.stallSt (s : State) (st : Nat) : Nat := s.fget (ringState st) F.stallState_STATE
def State.setStallSt (s : State) (st v : Nat) : State := s.fset (ringState st) F.stallState_STATE v

/-- Fetched tasks of a stall, oldest first, and they replaced. -/
def State.tasks (s : State) (st : Nat) : List Task := lookD [] s.stall.tasks st
def State.setTasks (s : State) (st : Nat) (ts : List Task) : State :=
  { s with stall := { s.stall with tasks := putD [] s.stall.tasks st ts } }

/-- Device physical address of the descriptor at a ring index. -/
def State.taskAddr (s : State) (st index : Nat) : Nat :=
  s.fget ⟨.stallRingBase, st, 0⟩ F.stallRingBase_ADDR * 128 + index * 128

/-! ### Shared descriptor fields -/

def tOp (d : Bytes) : Nat := leAt d 0x00 1
def tAsid (d : Bytes) : Nat := leAt d 0x06 2
def tWaitCtr (d : Bytes) : Nat := leAt d 0x08 2
def tSigCtr (d : Bytes) : Nat := leAt d 0x0A 2
def tWaitCount (d : Bytes) : Nat := leAt d 0x0C 4
def tSigCount (d : Bytes) : Nat := leAt d 0x10 4

/-- The bytes `o` to `o + n` of a descriptor are 0. -/
def tZero (d : Bytes) (o n : Nat) : Bool := allZero (slice d o n)

/-- The shared fields are well formed: ASID within 12 bits, the wait and signal fields of R300. -/
def State.tCommonOk (s : State) (st : Nat) (d : Bytes) : Bool :=
  let p := precOr (s.precOfStall st)
  decide (tAsid d < 4096) && s.refField p (tWaitCtr d) (tWaitCount d) && s.refField p (tSigCtr d) (tSigCount d)

/-! ### Fetching (R187) -/

/-- STALL_RING_TAIL_WRITE (R187, R192): TAIL is kept in any STATE. -/
def State.tailWrite (s : State) (rq : Requester) (st : Nat) (v : W64) : State :=
  let r : Reg := ⟨.stallRingTail, st, 0⟩
  if !rqKernel rq then s.refuse rq r
  else s.fset r F.stallRingTail_TAIL (bitsOf v F.stallRingTail_TAIL)

def execStallRingTailWrite (rq : Requester) (st : StallNo) (v : W64) (s : State) :
    Host.Outcome State Fault Refusal :=
  if ringKind (stallKind st.val) && stallOk st.val then done (s.tailWrite rq st.val v)
  else done (s.strayCode (rqCode rq) 0 (Reg.offset ⟨.stallRingTail, st.val, 0⟩))

/-- A stall may fetch: enabled, not halted, not fenced, in a precinct, with a task in its ring and room for one. A stall holds
the task it runs and the next. -/
def State.mayFetch (s : State) (st : Nat) : Bool :=
  let n := s.ringSize st
  ringKind (stallKind st) && stallOk st && s.fbit (ringCtrl st) F.stallCtrl_ENABLE &&
  !s.fbit (ringCtrl st) F.stallCtrl_HALT && !s.stallFenced st && (s.precOfStall st).isSome && decide (n ≠ 0) &&
  decide (s.fget ⟨.stallRingHead, st, 0⟩ F.stallRingHead_HEAD % n ≠ s.fget ⟨.stallRingTail, st, 0⟩ F.stallRingTail_TAIL % n) &&
  decide ((s.tasks st).length < 2)

/-- STALL_TASK_FETCH (R187): the descriptor at HEAD is fetched and HEAD advances. A poisoned descriptor is one whose bytes
are not used: its task ends with POISONED_INPUT. -/
def execStallTaskFetch (st : StallNo) (s : State) : Host.Outcome State Fault Refusal :=
  let st := st.val
  if !s.mayFetch st then done s
  else
    let hd : Reg := ⟨.stallRingHead, st, 0⟩
    let n := s.ringSize st
    let i := s.fget hd F.stallRingHead_HEAD % n
    let (s, d, p) := s.readMem (s.reqPrec st) st 0 (s.taskAddr st i) 128
    let s := s.fset hd F.stallRingHead_HEAD ((i + 1) % n)
    let t : Task := if p then { index := i, desc := List.replicate 128 0#8, phase := .done, status := 0x06 }
      else { index := i, desc := d }
    let s := if (s.tasks st).isEmpty then s.setStallSt st 1 else s
    done (s.setTasks st (s.tasks st ++ [t]))

/-! ### Starting -/

/-- A stall still waits for an Alley line that it has raised (R298). -/
def State.alleyBlocked (s : State) (st : Nat) : Bool :=
  let q := stallQ st
  let p := participant st
  (List.range 16).any fun l =>
    nbit (s.rd ⟨.alleyEn, q, l⟩).toNat p && nbit (s.rd ⟨.alleyState, q, l⟩).toNat p

/-- The oldest task of a stall, if it has not run and no Alley line holds it back. -/
def State.startable (s : State) (st : Nat) : Option Task :=
  match s.tasks st with
  | t :: _ => if t.phase = .waiting ∧ !s.stallFenced st ∧ !s.alleyBlocked st ∧ !s.fbit ⟨.pwrStatus, 0, 0⟩ F.pwrStatus_PAUSED then some t else none
  | [] => none

/-- The oldest task of a stall replaced. -/
def State.setHead (s : State) (st : Nat) (t : Task) : State := s.setTasks st (t :: (s.tasks st).drop 1)

/-- A source already waits somewhere, or has been met. -/
def State.waitsAt (s : State) (src : WaitSrc) : Bool :=
  s.bell.met.contains src || (s.bell.held.any fun x => x.2.src = src) ||
  s.bell.queue.any fun x => x.2.any fun w => w.src = src

/-- The wait of the oldest task reaches its counter's home. -/
def State.taskWait (s : State) (st : Nat) : State :=
  match s.startable st with
  | some t =>
    if tWaitCtr t.desc = 0xFFFF ∨ !s.tCommonOk st t.desc ∨ s.waitsAt (.task st) then s
    else s.bells [.wait (tWaitCtr t.desc) { src := .task st, amount := tWaitCount t.desc }]
  | none => s

/-! ### Running a task -/

/-- Why the body of a task stops. -/
inductive TStop where
  /-- The Surveyor holds an access, or a stream has not arrived: the task has not run. -/
  | held
  /-- The task completes with this status, its outputs poisoned. -/
  | fail (status : Nat)
  deriving DecidableEq, Repr

/-- The body of a task: it reads operands and computes. -/
abbrev TaskM := ExceptT TStop (StateM State)

/-- The result of a body: the bytes of each output range in order, of each output stream, the flags of R123, and the stall's
events by slot. -/
structure Calc where
  outs : List Bytes := []
  streams : List Bytes := []
  nan : Bool := false
  ovf : Bool := false
  events : List (Nat × Nat) := []
  /-- The status of a task whose outputs are written although it fails (R424). -/
  status : Nat := 0
  /-- Cell adds that the task issues, and the status of those that could not be formed (R204, R205). -/
  adds : List CellAdd := []
  addFail : Nat := 0
  deriving DecidableEq, Repr

/-- Bytes `va` to `va + n` of the task's address space; the bytes, and whether they are poisoned. -/
def readV (st asid va n : Nat) : TaskM (Bytes × Bool) := ExceptT.mk fun s =>
  match s.vread (stallQ st) st asid va n with
  | (s, .ok d p) => (.ok (d, p), s)
  | (s, .deny) => (.error (.fail 0x05), s)
  | (s, .held) => (.error .held, s)

/-- As `readV`; poisoned bytes fail the task. -/
def readOk (st asid va n : Nat) : TaskM Bytes := do
  let (d, p) ← readV st asid va n
  if p then throw (.fail 0x06) else pure d

/-- `rows` rows of `n` bytes from `va`, `stride` bytes apart. -/
def readRows (st asid va stride n rows : Nat) : TaskM (List Bytes) :=
  (List.range rows).mapM fun r => readOk st asid (va + r * stride) n

/-- The oldest whole stream of an input port, of at least `n` bytes; a poisoned one fails the task. -/
def readStream (st port n : Nat) : TaskM Bytes := ExceptT.mk fun s =>
  match s.stream st port with
  | none => (.error .held, s)
  | some (d, p) => if p then (.error (.fail 0x06), s) else (.ok (slice d 0 (max n d.length)), s)

/-- The state as the body sees it. -/
def theState : TaskM State := ExceptT.mk fun s => (.ok s, s)

/-- `n` free values used. -/
def takeFresh (n : Nat) : TaskM Nat := ExceptT.mk fun s => (.ok s.fresh, s.useFresh n)

/-- The pieces of each output range: none where a page is denied. `held` when the Surveyor holds one. -/
def State.transOuts (st asid : Nat) : List (Nat × Nat) → State → State × Option (List (Option (List (Nat × Nat))))
  | [], s => (s, some [])
  | (va, n) :: rest, s =>
    match s.transRange (stallQ st) st asid va n true with
    | (s, .held) => (s, none)
    | (s, .deny) =>
      match State.transOuts st asid rest s with
      | (s, some ps) => (s, some (none :: ps))
      | r => r
    | (s, .ok p) =>
      match State.transOuts st asid rest s with
      | (s, some ps) => (s, some (some p :: ps))
      | r => r

/-- Bytes of a range of pieces. -/
def piecesLen (ps : List (Nat × Nat)) : Nat := (ps.map (·.2)).sum

/-- The first `n` bytes of a range of pieces. -/
def piecesTake : List (Nat × Nat) → Nat → List (Nat × Nat)
  | [], _ => []
  | (a, k) :: ps, n => if n = 0 then [] else if n ≤ k then [(a, n)] else (a, k) :: piecesTake ps (n - k)

/-- Output ranges written, in order, each with as many bytes as it has results: the state, and whether some write
faulted. -/
def State.writeOuts (st asid : Nat) : List (List (Nat × Nat) × Bytes) → State → State × Bool
  | [], s => (s, false)
  | (ps, d) :: rest, s =>
    let (s, bad) := s.writePieces st asid (piecesTake ps d.length) d false
    let (s, bad') := State.writeOuts st asid rest s
    (s, bad || bad')

/-- Output ranges written poisoned; their bytes are free values. -/
def State.poisonOuts (st asid : Nat) (ps : List (List (Nat × Nat))) (s : State) : State :=
  ps.foldl (fun s p =>
    let n := piecesLen p
    ((s.useFresh n).writePieces st asid p (s.freeBytes n) true).1) s

/-- What a task's opcode reads and writes: its output ranges, its input and output ports, and its body. -/
structure TaskOp where
  outs : List (Nat × Nat) := []
  /-- Scratch ranges it leaves with unspecified bytes. -/
  scratch : List (Nat × Nat) := []
  inPorts : List Nat := []
  outPorts : List Nat := []
  /-- The statuses with which its memory outputs are written poisoned. -/
  poisons : Nat → Bool := fun _ => true
  body : TaskM Calc

/-- The head task has run: its status and flags are kept for its completion. -/
def State.taskRan (s : State) (st status : Nat) (c : Calc) : State :=
  match s.tasks st with
  | t :: _ =>
    s.setHead st { t with
      phase := .done, status := status, nan := c.nan && decide (status = 0), overflow := c.ovf && decide (status = 0) }
  | [] => s

/-- A task completes MALFORMED and does nothing else (R190, R216, R241, R335, R622). -/
def State.taskMalformed (s : State) (st : Nat) : State := s.taskRan st 0x01 {}

/-- The outputs of a task that failed: every output range and stream poisoned (R194, R157). -/
def State.taskFailed (s : State) (st asid status : Nat) (op : TaskOp) (ps : List (Option (List (Nat × Nat)))) : State :=
  let s := State.poisonOuts st asid (ps.filterMap id) s
  let s := op.outPorts.foldl (fun s p => s.streamSend st p [] true) s
  let s := op.inPorts.foldl (fun s p => s.streamTake st p) s
  s.taskRan st status {}

/-- Ranges with unspecified bytes for each. -/
def State.freeRanges (s : State) : List (Nat × Nat) → State × List ((Nat × Nat) × Bytes)
  | [] => (s, [])
  | x :: xs =>
    let (s', r) := (s.useFresh x.2).freeRanges xs
    (s', (x, s.freeBytes x.2) :: r)

/-- A task that fails: its whole output range is poisoned, unless the Surveyor holds a page of it. -/
def State.failTask (s : State) (st asid status : Nat) (op : TaskOp) : State :=
  match State.transOuts st asid (if op.poisons status then op.outs else []) s with
  | (s, none) => s
  | (s, some ps) => s.taskFailed st asid status op ps

/-- A task whose wait is met runs (R188): its outputs are written whole, or poisoned (R194). Where the Surveyor holds a page of
them, the task has not run. -/
def State.runTask (s : State) (st : Nat) (t : Task) (op : TaskOp) : State :=
  let asid := tAsid t.desc
  let s0 := s
  match (op.body.run).run s with
  | (.error .held, s) => s
  | (.error (.fail status), s) => s.failTask st asid status op
  | (.ok c, s) =>
    let (s, scr) := s.freeRanges op.scratch
    let outs := scr ++ op.outs.zip c.outs
    match State.transOuts st asid (outs.map fun x => (x.1.1, x.2.length)) s with
    | (_, none) => (State.transOuts st asid (outs.map fun x => (x.1.1, x.2.length)) s0).1
    | (s, some ps) =>
      if ps.contains none then s.failTask st asid 0x05 op
      else
        let (s, bad) := State.writeOuts st asid ((ps.filterMap id).zip (outs.map (·.2))) s
        if bad then s.failTask st asid 0x05 op
        else
          let s := (op.outPorts.zip c.streams).foldl (fun s x => s.streamSend st x.1 x.2 false) s
          let s := op.inPorts.foldl (fun s p => s.streamTake st p) s
          let s := c.events.foldl (fun s e => s.stallEvent st e.1 e.2 t.index asid) s
          if c.adds.isEmpty && c.addFail = 0 then s.taskRan st c.status c
          else
            ({ s with stall := { s.stall with adds := s.stall.adds ++ c.adds } }).setHead st
              { t with phase := .adding, addFail := c.addFail }

/-- An injected parity error at the next turn of a task fences the stall (Table 24.7, 0x08): none where none fires. -/
def State.parityInject (s : State) (st : Nat) : Option State :=
  match s.injAt 0x08 st (fun _ => true) with
  | some _ =>
    let s := s.injFire.fset (ringErr' st) F.stallErr_PARITY 1
    some (s.report 3 0x08 (precOr (s.precOfStall st)) st 0 0 0 true)
  | none => none

/-- The oldest task of a stall of a kind runs, if its opcode is `code` and its wait is met. `ok` says that the descriptor is
well formed; `op` gives what it does. A task of any undefined opcode is malformed under every row of its kind. -/
def State.taskStep (s : State) (st kind code codes : Nat) (ok : State → Bytes → Bool) (op : State → Bytes → TaskOp) :
    State :=
  if stallKind st ≠ kind ∨ !stallOk st then s
  else match s.startable st with
    | none => s
    | some t =>
      let d := t.desc
      let c := tOp d
      if c ≠ code ∧ 1 ≤ c ∧ c ≤ codes then s
      else if c ≠ code ∨ !s.tCommonOk st d ∨ !ok s d then (s.setStallSt st 2).taskMalformed st
      else
        match s.parityInject st with
        | some s => s
        | none =>
          if tWaitCtr d = 0xFFFF then (s.setStallSt st 2).runTask st t (op s d)
          else if s.bell.met.contains (.task st) then
            let s' := (s.setStallSt st 2).runTask st t (op s d)
            match s'.tasks st with
            | t' :: _ => if t'.phase = .waiting then s' else (s'.takeMet (.task st)).1
            | [] => s'
          else s

/-! ### Completion (R189) -/

/-- The ERR bit of a status. -/
def errField : Nat → Option Fld
  | 0x01 => some F.stallErr_MALFORMED_TASK
  | 0x02 => some F.stallErr_BAD_OPERAND
  | 0x05 => some F.stallErr_ACCESS
  | 0x06 => some F.stallErr_POISON_IN
  | _ => none

/-- The further ERR bits of a stall kind: INDEX, CAPACITY, and the Cashbox's AUTH and CHECK. -/
def errField' (kind status : Nat) : Option Fld :=
  match errField status with
  | some f => some f
  | none =>
    if (status = 0x51 ∨ status = 0x52) ∧ kind = 6 then some F.stallErr_BAD_OPERAND
    else if status = 0x07 ∧ (kind = 1 ∨ kind = 2 ∨ kind = 3 ∨ kind = 5) then some F.stallErr_INDEX
    else if status = 0x09 ∧ kind = 3 then some F.stallErr_CAPACITY
    else if status = 0x0A ∧ kind = 6 then some F.stallErr_AUTH
    else if status = 0x0B ∧ kind = 6 then some F.stallErr_CHECK
    else none

/-- A stall raises every Alley line that it takes part in (R298). -/
def State.alleyRaiseAll (s : State) (st : Nat) : State :=
  let q := stallQ st
  let p := participant st
  forNat 16 s fun s l => if nbit (s.rd ⟨.alleyEn, q, l⟩).toNat p then s.alleyRaise q l p else s

/-- STALL_TASK_COMPLETE (R189): STATUS is written with DONE clear, then with DONE set; then the counter is signalled, and
the Alley lines raised. -/
def execStallTaskComplete (st : StallNo) (s : State) : Host.Outcome State Fault Refusal :=
  let st := st.val
  match s.tasks st with
  | [] => done s
  | t :: rest =>
    if t.phase ≠ .done ∨ s.stallFenced st then done s
    else
      let word := t.status + b2n t.nan * 2 ^ 16 + b2n t.overflow * 2 ^ 17
      let a := s.taskAddr st t.index + 0x14
      let (s, _) := s.writeMem (s.reqPrec st) st 0 a (leBytes 4 word) false
      let (s, _) := s.writeMem (s.reqPrec st) st 0 a (leBytes 4 (word + 2 ^ 31)) false
      let s := s.fset (ringState st) F.stallState_LAST_STATUS t.status
      let s := if t.status = 0 then s else s.fset (ringErr' st) F.stallErr_TASK t.index
      let s := match errField' (stallKind st) t.status with
        | some f => s.fset (ringErr' st) f 1
        | none => s
      let s := s.stallEvent st 5 1 t.index (tAsid t.desc)
      let s := s.setTasks st rest
      let s := s.signal (if s.refField (s.reqPrec st) (tSigCtr t.desc) (tSigCount t.desc) then tSigCtr t.desc else 0xFFFF)
        (tSigCount t.desc) st
      let s := s.alleyRaiseAll st
      let next := if !rest.isEmpty then 1 else if s.fbit (ringCtrl st) F.stallCtrl_HALT then 3 else 0
      done (if s.stallFenced st then s else s.setStallSt st next)

end Sys2Proof.Machine
end

