-- ==== Sys2Proof/Machine/Scales.lean ====
section
/-!
DEFINITION. The Scales stalls: GEMM_PASS (chapter "Scales", R172–R190).
-/
namespace Sys2Proof.Machine

/-! ### The contract of a product -/

/-- The products of two lists of values, in order. -/
def products (as bs : List Ex) : List Ex := List.zipWith Ex.mul as bs

/-- The exact sum of products and a C cell (R173). -/
def dotTw (as bs : List Ex) (c : Option Tw) : Tw :=
  let w := sumEx (products as bs)
  match c with
  | some c => w.merge c
  | none => w

/-- A product under a policy, before its rounding to D: exact, or fast in the order of K with C last (R173, R186). -/
def dotEx (pol : Nat) (as bs : List Ex) (c : Option Tw) : Ex :=
  if polFast pol then
    ((products as bs).map to32 ++ (match c with | some c => [to32 c.value] | none => [])).foldl
      (fun a v => to32 (a.add v)) (.fin 0 1)
  else (dotTw as bs c).value

/-- Output values in a format, and their flags: plain elements, MX blocks along the list, or Tally cells. The elements and
the scale bytes. -/
def encodeVals (fmt pol : Nat) (vs : List Ex) : Bytes × Bytes × Bool × Bool :=
  if isMx fmt then encodeMxRows fmt pol vs
  else
    let (b, n, o) := encodeAll fmt pol vs
    (b, [], n, o)

/-- Output values as a stream: each MX block follows its scale byte (R185). -/
def streamVals (fmt pol : Nat) (vs : List Ex) : Bytes × Bool × Bool :=
  if isMx fmt then
    let bs := (chunks 32 (vs.length / 32 + 1) vs).map (mxBlock fmt pol)
    (bs.flatMap fun x => leBytes 1 x.1 ++ packBytes (elemBits fmt) x.2.1, bs.any (fun x => x.2.2.1), bs.any (fun x => x.2.2.2))
  else encodeAll fmt pol vs

/-! ### The descriptor (Table 6.5) -/

def gPol (d : Bytes) : Nat := leAt d 1 1
def gA (d : Bytes) : Nat := leAt d 2 1
def gB (d : Bytes) : Nat := leAt d 3 1
def gD (d : Bytes) : Nat := leAt d 4 1
def gAStream (d : Bytes) : Bool := nbit (leAt d 5 1) 0
def gDStream (d : Bytes) : Bool := nbit (leAt d 5 1) 1
def gAddC (d : Bytes) : Bool := nbit (leAt d 5 1) 2
def gM0 (d : Bytes) : Nat := leAt d 0x38 4
def gM (d : Bytes) : Nat := leAt d 0x3C 4
def gN0 (d : Bytes) : Nat := leAt d 0x40 4
def gN (d : Bytes) : Nat := leAt d 0x44 4
def gK0 (d : Bytes) : Nat := leAt d 0x48 4
def gK (d : Bytes) : Nat := leAt d 0x4C 4
def gLda (d : Bytes) : Nat := leAt d 0x50 4
def gLdb (d : Bytes) : Nat := leAt d 0x54 4
def gLdc (d : Bytes) : Nat := leAt d 0x58 4
def gLdd (d : Bytes) : Nat := leAt d 0x5C 4

/-- Element formats of a dense operand (Table 6.1). -/
def gDense (f : Nat) : Bool := (decide (1 ≤ f) && decide (f ≤ 5)) || isMx f

/-- A GEMM_PASS descriptor is well formed (R190). -/
def gemmOk (_ : State) (d : Bytes) : Bool :=
  let a := gA d
  let b := gB d
  let o := gD d
  let blocked := isMx a || isMx b || decide (a = 0x30)
  polOk (gPol d) && (gDense a || decide (a = 0x30)) && gDense b &&
  (decide (1 ≤ o ∧ o ≤ 5) || decide (o = 7) || isMx o || decide (o = 0x20)) && decide (leAt d 5 1 < 8) &&
  !(polFast (gPol d) && decide (o = 0x20)) && decide (1 ≤ gM d) && decide (1 ≤ gN d) && decide (1 ≤ gK d) &&
  (!blocked || (decide (gK0 d % 32 = 0) && decide (gK d % 32 = 0))) &&
  (!isMx a || gAStream d || decide (gLda d % 32 = 0)) &&
  (!isMx o || (decide (gN0 d % 32 = 0) && decide (gN d % 32 = 0) && decide (gLdd d % 32 = 0))) &&
  (!gAStream d || (decide (a ≠ 0x30) && decide (gK d ≤ 4096) && tZero d 0x18 8)) &&
  (!(gAStream d || decide (a = 0x30)) || decide (gLda d = 0)) &&
  (gAddC d || (tZero d 0x28 8 && decide (gLdc d = 0))) &&
  (!gDStream d || (tZero d 0x30 8 && decide (gLdd d = 0))) && tZero d 0x60 32

/-- `n` packed elements of `w` bits read from bit `o` of an array at `va`. -/
def readPacked (st asid va w o n : Nat) : TaskM (List Nat) := do
  let lo := o / 8
  let hi := (o + n * w + 7) / 8
  let b ← readOk st asid (va + lo) (hi - lo)
  pure ((List.range n).map fun i => leAt b ((o % 8 + i * w) / 8) 5 / 2 ^ ((o % 8 + i * w) % 8) % 2 ^ w)

/-- Row `m` of a dense A: K values (R175, R176). -/
def gemmRowA (st : Nat) (d : Bytes) (m : Nat) : TaskM (List Ex) := do
  let f := gA d
  let w := elemBits f
  let xs ← readPacked st (tAsid d) (leAt d 0x18 8) w ((m * gLda d + gK0 d) * w) (gK d)
  if isMx f then
    let sc ← readOk st (tAsid d) (Config.scaleBase 0 (leNat d) + m * (gLda d / 32) + gK0 d / 32) (gK d / 32)
    pure (xs.zipIdx.map fun x => decodeMx f (leAt sc (x.2 / 32) 1) x.1)
  else pure (xs.map (decodeElem f))

/-- Row `k` of B: N values (R174, R175). -/
def gemmRowB (st : Nat) (d : Bytes) (k : Nat) : TaskM (List Ex) := do
  let f := gB d
  let w := elemBits f
  let xs ← readPacked st (tAsid d) (leAt d 0x20 8) w ((k * gLdb d + gN0 d) * w) (gN d)
  if isMx f then
    let sc ← readOk st (tAsid d) (Config.scaleBase 1 (leNat d) + k / 32 * gLdb d + gN0 d) (gN d)
    pure (xs.zipIdx.map fun x => decodeMx f (leAt sc x.2 1) x.1)
  else pure (xs.map (decodeElem f))

/-- The rows of a streamed A (R184): for an MX format each block follows its scale byte. -/
def streamRowsA (d b : Bytes) : List (List Ex) :=
  let f := gA d
  let w := elemBits f
  if isMx f then
    let blk := 1 + 4 * w
    (List.range (gM d)).map fun m => (List.range (gK d)).map fun k =>
      let o := (m * (gK d / 32) + k / 32) * blk
      decodeMx f (leAt b o 1) (packedAt (slice b (o + 1) (4 * w)) w (k % 32))
  else (List.range (gM d)).map fun m => (List.range (gK d)).map fun k => decodeElem f (packedAt b w (m * gK d + k))

/-- Bytes of a streamed A. -/
def streamLenA (d : Bytes) : Nat :=
  if isMx (gA d) then gM d * (gK d / 32) * (1 + 4 * elemBits (gA d)) else packedLen (gA d) (gM d * gK d)

/-- The rows of a tile A; a malformed one, or one without the task's rows and blocks, is a malformed operand (R111). -/
def gemmTile (st : Nat) (d : Bytes) : TaskM (List (List Ex)) := do
  let va := leAt d 0x18 8
  let h ← readOk st (tAsid d) va 16
  let b ← readOk st (tAsid d) va (max 16 (leAt h 8 4))
  match readTile b with
  | none => throw (.fail 0x02)
  | some t =>
    if gM0 d + gM d ≤ t.rows ∧ gK0 d / 32 + gK d / 32 ≤ t.colBlocks then
      pure (((t.vals.drop (gM0 d)).take (gM d)).map fun r => (r.drop (gK0 d)).take (gK d))
    else throw (.fail 0x02)

/-- `n` Tally cells from `va`; a malformed one is a malformed operand (R136). -/
def readCells (st asid va n : Nat) : TaskM (List Tw) := do
  if va % 32 ≠ 0 then throw (.fail 0x02)
  else
    let b ← readOk st asid va (n * 96)
    (List.range n).mapM fun i => match Tw.ofCell (slice b (i * 96) 96) with
      | some c => pure c
      | none => throw (.fail 0x02)

/-- The element addresses of D in stream order (R172, R185): row-major, or tile by tile of 64 × 64. -/
def dOrder (m n : Nat) : List (Nat × Nat) :=
  if n ≤ 64 then (List.range m).flatMap fun r => (List.range n).map fun c => (r, c)
  else (List.range ((m + 63) / 64)).flatMap fun i => (List.range ((n + 63) / 64)).flatMap fun j =>
    (List.range (min 64 (m - 64 * i))).flatMap fun r => (List.range (min 64 (n - 64 * j))).map fun c =>
      (64 * i + r, 64 * j + c)

/-- The output ranges of D: each row's elements, and for an MX D its scale bytes. -/
def gemmOuts (d : Bytes) : List (Nat × Nat) :=
  let f := gD d
  let va := leAt d 0x30 8
  if gDStream d then []
  else
    let row (m : Nat) := (va + ((gM0 d + m) * gLdd d + gN0 d) * elemBits f / 8, packedLen f (gN d))
    let sc (m : Nat) := (Config.scaleBase 2 (leNat d) + (gM0 d + m) * (gLdd d / 32) + gN0 d / 32, gN d / 32)
    (List.range (gM d)).map row ++ (if isMx f then (List.range (gM d)).map sc else [])

/-- GEMM_PASS (R173): the D rectangle, exactly, rounded once. -/
def gemmBody (st : Nat) (d : Bytes) : TaskM Calc := do
  let str ← if gAStream d then readStream st 0 (streamLenA d) else pure []
  let as ← if gAStream d then pure (streamRowsA d str)
    else if gA d = 0x30 then gemmTile st d
    else (List.range (gM d)).mapM fun m => gemmRowA st d (gM0 d + m)
  let bs ← (List.range (gK d)).mapM fun k => gemmRowB st d (gK0 d + k)
  let cs ← (List.range (gM d)).mapM fun m =>
    if gAddC d then readCells st (tAsid d) (leAt d 0x28 8 + ((gM0 d + m) * gLdc d + gN0 d) * 96) (gN d) else pure []
  let col (n : Nat) : List Ex := bs.map fun r => r.getD n (.fin 0 1)
  let f := gD d
  if f = 0x20 then
    let tws := (as.zip cs).map fun x => (List.range (gN d)).map fun n => dotTw x.1 (col n) x.2[n]?
    let ws := if gDStream d then [((dOrder (gM d) (gN d)).map fun p => ((tws.getD p.1 []).getD p.2 {}))] else tws
    let bytes := ws.map fun r => r.flatMap Tw.cell
    pure { outs := if gDStream d then [] else bytes, streams := if gDStream d then bytes else [],
           nan := tws.any fun r => r.any Tw.nanFlag }
  else
    let vals := (as.zip cs).map fun x => (List.range (gN d)).map fun n => dotEx (gPol d) x.1 (col n) x.2[n]?
    if gDStream d then
      let (b, n, o) := streamVals f (gPol d) ((dOrder (gM d) (gN d)).map fun p => (vals.getD p.1 []).getD p.2 (.fin 0 1))
      pure { streams := [b], nan := n, ovf := o }
    else
      let es := vals.map (encodeVals f (gPol d))
      pure { outs := es.map (·.1) ++ (if isMx f then es.map (·.2.1) else []),
             nan := es.any (·.2.2.1), ovf := es.any (·.2.2.2) }

def gemmOp (st : Nat) (_ : State) (d : Bytes) : TaskOp :=
  { outs := gemmOuts d, inPorts := if gAStream d then [0] else [], outPorts := if gDStream d then [0] else [],
    body := gemmBody st d }

/-- SCALES_GEMM_PASS (R173). -/
def execScalesGemmPass (st : StallNo) (s : State) : Host.Outcome State Fault Refusal :=
  done (s.taskStep st.val 0 1 1 gemmOk (gemmOp st.val))

end Sys2Proof.Machine
end

