-- ==== Sys2Proof/Machine/Barrow.lean ====
section
/-!
DEFINITION. The Barrow stalls: pooling and scatter-add (R196–R207, R216–R219), and the add at a Tally cell's home (R135, R136).
-/
namespace Sys2Proof.Machine

/-! ### Kernels -/

/-- The table row of a hashed index (R199). -/
def hashRow (x rows : Nat) : Nat :=
  let m (a b : Nat) : Nat := a * b % 2 ^ 32
  let h := x ^^^ (x / 2 ^ 16)
  let h := m h 0x7FEB352D
  let h := h ^^^ (h / 2 ^ 15)
  let h := m h 0x846CA68B
  let h := h ^^^ (h / 2 ^ 16)
  h * rows / 2 ^ 32

/-- The table row that an index value names; none where it is out of range (R198, R199). -/
def indexRow (hashed : Bool) (rows x : Nat) : Option Nat :=
  if hashed then some (hashRow x rows) else if x < 2 ^ 31 ∧ x < rows then some x else none

/-- The exact sum of a column's values (R201), each under its weight where there are weights. -/
def poolTerms (weights : Option (List Ex)) (vs : List Ex) : List Ex :=
  match weights with
  | some ws => products ws vs
  | none => vs

/-- One pooled element before its rounding: SUM, MEAN or WEIGHTED_SUM of the values of a column (R201). `at_` numbers the
free values of a fast sum. -/
def poolEx (pol mode at_ : Nat) (ws vs : List Ex) : Ex :=
  if vs.isEmpty then .fin 0 1
  else
    let v := accumulate pol at_ (poolTerms (if mode = 2 then some ws else none) vs)
    if mode = 1 then v.divNat vs.length else v

/-- One pooled element as a Tally word. -/
def poolTw (mode : Nat) (ws vs : List Ex) : Tw := sumEx (poolTerms (if mode = 2 then some ws else none) vs)

/-- Column `c` of rows. -/
def column (rows : List (List Ex)) (c : Nat) : List Ex := rows.map fun r => r.getD c (.fin 0 1)

/-! ### The descriptor (Table 7.3) -/

def bSrc (d : Bytes) : Nat := leAt d 2 1
def bDst (d : Bytes) : Nat := leAt d 3 1
def bFlag (d : Bytes) (i : Nat) : Bool := nbit (leAt d 5 1) i
def bMode (d : Bytes) : Nat := leAt d 5 1 / 4 % 4
def bRows (d : Bytes) : Nat := leAt d 0x50 4
def bCol0 (d : Bytes) : Nat := leAt d 0x54 4
def bW (d : Bytes) : Nat := leAt d 0x58 4
def bLdSrc (d : Bytes) : Nat := leAt d 0x5C 4
def bLdDst (d : Bytes) : Nat := leAt d 0x60 4
def bSeg0 (d : Bytes) : Nat := leAt d 0x64 4
def bSegs (d : Bytes) : Nat := leAt d 0x68 4
def bJ0 (d : Bytes) : Nat := leAt d 0x6C 4
def bJ (d : Bytes) : Nat := leAt d 0x70 4

/-- What both kinds of Barrow task share of R216. -/
def barrowOk (d : Bytes) : Bool :=
  let mx := isMx (bSrc d)
  polOk (leAt d 1 1) && (isPlain (bSrc d) || mx) && decide (leAt d 5 1 < 32) && decide (bMode d ≠ 3) &&
  decide (1 ≤ bRows d) && decide (1 ≤ bW d) && decide (bW d * elemBits (bSrc d) ≤ 4096 * 8) && decide (1 ≤ bJ d) &&
  (!mx || (decide (bCol0 d % 32 = 0) && decide (bLdSrc d % 32 = 0))) && (mx || tZero d 0x20 8) && tZero d 0x74 12

/-- A POOL descriptor is well formed (R216). Tables always come from memory (R206), so SRC_STREAM is not set. -/
def poolOk (_ : State) (d : Bytes) : Bool :=
  let o := bDst d
  barrowOk d && (isPlain o || isMx o || decide (o = 0x20)) && !bFlag d 0 && !(decide (bMode d = 1) && decide (o = 0x20)) &&
  (if bMode d = 2 then decide (1 ≤ leAt d 4 1 ∧ leAt d 4 1 ≤ 5) else decide (leAt d 4 1 = 0) && tZero d 0x38 8) &&
  (!isMx o || (decide (bCol0 d % 32 = 0) && decide (bLdDst d % 32 = 0))) && (isMx o || tZero d 0x48 8) &&
  (!bFlag d 1 || (tZero d 0x40 8 && tZero d 0x48 8))

/-- A SCATTER_ADD descriptor is well formed (R216). -/
def scatterOk (_ : State) (d : Bytes) : Bool :=
  barrowOk d && decide (bDst d = 0x20) && !bFlag d 1 && !bFlag d 4 && decide (leAt d 4 1 = 0) &&
  (!bFlag d 0 || (tZero d 0x18 8 && tZero d 0x20 8)) && tZero d 0x30 8 && tZero d 0x38 8 && tZero d 0x48 8 &&
  decide (bSeg0 d = 0) && decide (bSegs d = 0)

/-- `w` values of a row of a table or array: plain elements, or MX elements under their scale bytes. Element (r, c) lies
r × ld + c elements from `va`, its scale r × ld / 32 + c / 32 bytes from `sc`. -/
def readRowV (st asid fmt va sc ld r c w : Nat) : TaskM (List Ex) := do
  let xs ← readPacked st asid va (elemBits fmt) ((r * ld + c) * elemBits fmt) w
  if isMx fmt then
    let b ← readOk st asid (sc + r * ld / 32 + c / 32) ((c % 32 + w + 31) / 32)
    pure (xs.zipIdx.map fun x => decodeMx fmt (leAt b ((c % 32 + x.2) / 32) 1) x.1)
  else pure (xs.map (decodeElem fmt))

/-- The values of a streamed row of `w` columns at offset `o` of a stream, and the offset after it; each MX block follows
its scale byte. -/
def streamRow (fmt w : Nat) (b : Bytes) (o : Nat) : List Ex × Nat :=
  let e := elemBits fmt
  if isMx fmt then
    let val (c : Nat) : Ex :=
      let p := o + c / 32 * (1 + 4 * e)
      decodeMx fmt (leAt b p 1) (packedAt (slice b (p + 1) (4 * e)) e (c % 32))
    ((List.range w).map val, o + w / 32 * (1 + 4 * e) + (if w % 32 = 0 then 0 else 1 + (w % 32 * e + 7) / 8))
  else ((List.range w).map fun c => decodeElem fmt (packedAt (slice b o (packedLen fmt w)) e c), o + packedLen fmt w)

/-- `n` INT32 values from `va`, as 32-bit numbers. -/
def readInts (st asid va n : Nat) : TaskM (List Nat) := do
  let b ← readOk st asid va (4 * n)
  pure ((List.range n).map fun i => leAt b (4 * i) 4)

/-- The output rows of an array written in a format: each row's elements, and for an MX format its scale bytes. -/
def rowOuts (fmt va sc ld c w : Nat) (rows : List Nat) : List (Nat × Nat) :=
  rows.map (fun r => (va + (r * ld + c) * elemBits fmt / 8, packedLen fmt w)) ++
  (if isMx fmt then rows.map fun r => (sc + r * ld / 32 + c / 32, (w + 31) / 32) else [])

/-- Rows of values written to memory or streamed under a policy. -/
def rowsCalc (fmt pol : Nat) (stream : Bool) (rows : List (List Ex)) : Calc :=
  if stream then
    let es := rows.map (streamVals fmt pol)
    { streams := [es.flatMap (·.1)], nan := es.any (·.2.1), ovf := es.any (·.2.2) }
  else
    let es := rows.map (encodeVals fmt pol)
    { outs := es.map (·.1) ++ (if isMx fmt then es.map (·.2.1) else []), nan := es.any (·.2.2.1), ovf := es.any (·.2.2.2) }

/-- Rows of Tally words written to memory or streamed as cells. -/
def cellsCalc (stream : Bool) (rows : List (List Tw)) : Calc :=
  let bs := rows.map fun r => r.flatMap Tw.cell
  { outs := if stream then [] else bs, streams := if stream then [bs.flatMap id] else [],
    nan := rows.any fun r => r.any Tw.nanFlag }

/-- The positions of segment `s` inside a task's range, from its offsets (R200): those from `a` below `b`. -/
def segPositions (a b j0 j : Nat) : List Nat := (List.range j).filter fun i => decide (a ≤ j0 + i) && decide (j0 + i < b)

/-- POOL (R198–R203). -/
def poolBody (st : Nat) (d : Bytes) : TaskM Calc := do
  let a := tAsid d
  let hashed := bFlag d 4
  let xs ← readInts st a (leAt d 0x28 8 + 4 * bJ0 d) (bJ d)
  let os ← readInts st a (leAt d 0x30 8 + 4 * bSeg0 d) (bSegs d + 1)
  let ws ← if bMode d = 2 then
      readRowV st a (leAt d 4 1) (leAt d 0x38 8) 0 0 0 (bJ0 d) (bJ d)
    else pure []
  let names := xs.map (indexRow hashed (bRows d))
  if names.contains none ∨ os.any (fun o => 2 ^ 31 ≤ o) then throw (.fail 0x07)
  else
    let segs := (List.range (bSegs d)).map fun i => segPositions (os.getD i 0) (os.getD (i + 1) 0) (bJ0 d) (bJ d)
    let rows ← segs.mapM fun js => js.mapM fun j =>
      readRowV st a (bSrc d) (leAt d 0x18 8) (leAt d 0x20 8) (bLdSrc d) ((names.getD j none).getD 0) (bCol0 d) (bW d)
    let gathered := (segs.map (·.length)).sum
    let events := [(6, gathered), (7, if hashed then gathered else 0), (8, (segs.filter (·.isEmpty)).length)]
    let wt (js : List Nat) : List Ex := js.map fun j => ws.getD j (.fin 0 1)
    let cols := List.range (bW d)
    let f0 ← takeFresh (if polFast (leAt d 1 1) then gathered * bW d else 0)
    let res := if bDst d = 0x20 then
        cellsCalc (bFlag d 1) ((segs.zip rows).map fun x => cols.map fun c => poolTw (bMode d) (wt x.1) (column x.2 c))
      else
        rowsCalc (bDst d) (leAt d 1 1) (bFlag d 1) ((segs.zip rows).map fun x =>
          cols.map fun c => poolEx (leAt d 1 1) (bMode d) (f0 + c * gathered) (wt x.1) (column x.2 c))
    pure { res with events := events }

def poolOp (st : Nat) (_ : State) (d : Bytes) : TaskOp :=
  { outs := if bFlag d 1 then [] else rowOuts (bDst d) (leAt d 0x40 8) (leAt d 0x48 8) (bLdDst d) (bCol0 d) (bW d)
      ((List.range (bSegs d)).map (bSeg0 d + ·)),
    outPorts := if bFlag d 1 then [0] else [], body := poolBody st d }

/-- BARROW_POOL (R201). -/
def execBarrowPool (st : StallNo) (s : State) : Host.Outcome State Fault Refusal :=
  done (s.taskStep st.val 1 1 2 poolOk (poolOp st.val))

/-! ### Scatter-add -/

/-- The bits and scale code of `w` values of row `r`; a fault or poison of the row is kept apart. -/
def valueRow (st : Nat) (d : Bytes) (j : Nat) : TaskM (Option (List (Nat × Nat) × Bool)) := do
  let e := elemBits (bSrc d)
  let o := ((bJ0 d + j) * bLdSrc d + bCol0 d) * e
  let (b, p) ← readV st (tAsid d) (leAt d 0x18 8 + o / 8) ((bW d * e + 7) / 8)
  let (sc, p') ← if isMx (bSrc d) then
      readV st (tAsid d) (leAt d 0x20 8 + (bJ0 d + j) * bLdSrc d / 32 + bCol0 d / 32) ((bW d + 31) / 32)
    else pure ([], false)
  pure (some ((List.range (bW d)).map fun c => (packedAt b e c, leAt sc (c / 32) 1), p || p'))

/-- As `valueRow`, with a denied row as none. -/
def valueRow? (st : Nat) (d : Bytes) (j : Nat) : TaskM (Option (List (Nat × Nat) × Bool)) :=
  tryCatch (valueRow st d j) fun e => match e with
    | .fail _ => pure none
    | .held => throw .held

/-- The bits and scale codes of a streamed value row. -/
def streamRowBits (fmt w : Nat) (b : Bytes) (j : Nat) : List (Nat × Nat) :=
  let e := elemBits fmt
  let blk := 1 + 4 * e
  let rowLen := if isMx fmt then w / 32 * blk + (if w % 32 = 0 then 0 else 1 + (w % 32 * e + 7) / 8) else packedLen fmt w
  (List.range w).map fun c =>
    if isMx fmt then
      let p := j * rowLen + c / 32 * blk
      (packedAt (slice b (p + 1) (4 * e)) e (c % 32), leAt b p 1)
    else (packedAt (slice b (j * rowLen) rowLen) e c, 0)

/-- SCATTER_ADD (R204): every index is checked, then one add is issued for each position and column. -/
def scatterBody (st : Nat) (d : Bytes) : TaskM Calc := do
  let xs ← readInts st (tAsid d) (leAt d 0x28 8 + 4 * bJ0 d) (bJ d)
  let names := xs.map (indexRow false (bRows d))
  if names.contains none then throw (.fail 0x07)
  else
    let rows ← if bFlag d 0 then do
        let b ← ExceptT.mk fun s => match s.stream st 0 with
          | none => (.error .held, s)
          | some x => (.ok x, s)
        pure ((List.range (bJ d)).map fun j => some (streamRowBits (bSrc d) (bW d) b.1 j, b.2))
      else (List.range (bJ d)).mapM (valueRow? st d)
    let add (j : Nat) (r : List (Nat × Nat) × Bool) : List CellAdd := r.1.zipIdx.map fun x => {
      req := st, asid := tAsid d,
      va := leAt d 0x40 8 + ((names.getD j none).getD 0 * bLdDst d + bCol0 d + x.2) * 96,
      fmt := bSrc d, bits := x.1.1, scale := x.1.2, poison := r.2 }
    let adds := rows.zipIdx.flatMap fun x => match x.1 with
      | some r => add x.2 r
      | none => []
    pure { adds := adds, addFail := if rows.contains none then 0x05 else 0, events := [(9, adds.length)] }

def scatterOp (st : Nat) (_ : State) (d : Bytes) : TaskOp :=
  { inPorts := if bFlag d 0 then [0] else [], body := scatterBody st d }

/-- The adds of a stall have all been applied: its task has run, with its target slice poisoned where one failed (R205). -/
def State.addsDone (s : State) (st : Nat) : State :=
  match s.tasks st with
  | t :: _ =>
    if t.phase = .adding ∧ !s.stall.adds.any (fun a => a.req = st) then
      if t.addFail = 0 then s.taskRan st 0 {}
      else
        let d := t.desc
        let slices := rowOuts 0x20 (leAt d 0x40 8) 0 (bLdDst d) (bCol0 d) (bW d) (List.range (bRows d))
        match State.transOuts st (tAsid d) slices s with
        | (s, some ps) => (State.poisonOuts st (tAsid d) (ps.filterMap id) s).taskRan st t.addFail {}
        | (s, none) => s
    else s
  | [] => s

/-- BARROW_SCATTER_ADD (R204). -/
def execBarrowScatterAdd (st : StallNo) (s : State) : Host.Outcome State Fault Refusal :=
  done ((s.taskStep st.val 1 2 2 scatterOk (scatterOp st.val)).addsDone st.val)

/-- How an add at a cell ended. -/
inductive AddEnd where
  | held
  | ended (status : Nat)
  deriving DecidableEq, Repr

/-- One atomic read-add-write of the Tally cell at `va` (R135): it is rejected, with nothing changed, where the address is
not 32-byte aligned or the cell has a nonzero reserved bit (R136). A poisoned cell stays poisoned (R205). -/
def State.cellAdd (s : State) (q req asid va : Nat) (f : Tw → Tw) : State × AddEnd :=
  if va % 32 ≠ 0 then (s, .ended 0x02)
  else match s.transRange q req asid va 96 true with
    | (s, .held) => (s, .held)
    | (s, .deny) => (s, .ended 0x05)
    | (s, .ok ps) =>
      let (s, b, p) := s.readPieces req asid ps
      if p then (s, .ended 0)
      else match Tw.ofCell b with
        | none => (s, .ended 0x02)
        | some w =>
          let (s, bad) := s.writePieces req asid ps (f w).cell false
          (s, .ended (if bad then 0x05 else 0))

/-- The value of an add. -/
def CellAdd.value (a : CellAdd) : Ex := if isMx a.fmt then decodeMx a.fmt a.scale a.bits else decodeElem a.fmt a.bits

/-- TALLY_CELL_ADD (R135): the add at position `n` of those on their way reaches its cell's home. -/
def execTallyCellAdd (n : Nat) (s : State) : Host.Outcome State Fault Refusal :=
  match s.stall.adds[n]? with
  | none => done ((s.stall.tasks.map (·.1)).foldl (fun s st => s.addsDone st) s)
  | some a =>
    let fin (s : State) (status : Nat) : State :=
      let s := { s with stall := { s.stall with adds := s.stall.adds.eraseIdx n } }
      let s := match s.tasks a.req with
        | t :: _ => if status ≠ 0 ∧ t.addFail = 0 then s.setHead a.req { t with addFail := status } else s
        | [] => s
      s.addsDone a.req
    if a.poison then done (fin s 0x06)
    else match s.cellAdd (stallQ a.req) a.req a.asid a.va (fun w => w.add a.value) with
      | (s, .held) => done s
      | (s, .ended status) => done (fin s status)

end Sys2Proof.Machine
end

