-- ==== Sys2Proof/Machine/Baler.lean ====
section
/-!
DEFINITION. The Baler stalls: compression and decompression (R617–R622). The stream format itself stands in Config.
-/
namespace Sys2Proof.Machine

/-- The compressed form of bytes (R618, R620): 64 KiB chunks compressed on their own, within the bound of R618. -/
def compress (b : Bytes) : Bytes :=
  ((chunks 65536 (b.length / 65536 + 1) b).flatMap Config.packChunk).take
    (b.length + 64 + 8 * ((b.length + 65535) / 65536))

/-- A Baler descriptor is well formed (R622). -/
def balerOk (_ : State) (d : Bytes) : Bool :=
  tZero d 0x01 4 && decide (leAt d 5 1 < 4) && (!nbit (leAt d 5 1) 0 || tZero d 0x18 8) &&
  (!nbit (leAt d 5 1) 1 || tZero d 0x20 8) && decide (leAt d 0x28 8 % 4 = 0) && decide (leAt d 0x30 8 < 2 ^ 31) &&
  decide (1 ≤ leAt d 0x38 8) && decide (leAt d 0x38 8 < 2 ^ 31) && tZero d 0x40 64

/-- A Baler task (R620): its result and then the result's length, or INDEX_RANGE where the result passes DST_CAP. -/
def balerBody (st : Nat) (d : Bytes) (f : Bytes → Option Bytes) : TaskM Calc := do
  let n := leAt d 0x30 8
  let b ← if nbit (leAt d 5 1) 0 then readStream st 0 n else readOk st (tAsid d) (leAt d 0x18 8) n
  match f (slice b 0 n) with
  | none => throw (.fail 0x02)
  | some r =>
    if leAt d 0x38 8 < r.length then throw (.fail 0x07)
    else
      let len := leBytes 4 r.length
      let out := nbit (leAt d 5 1) 1
      pure { outs := if out then [len] else [r, len], streams := if out then [r] else [],
             events := [(6, n), (7, r.length)] }

def balerOp (st : Nat) (f : Bytes → Option Bytes) (_ : State) (d : Bytes) : TaskOp :=
  let out := nbit (leAt d 5 1) 1
  { outs := (if out then [] else [(leAt d 0x20 8, leAt d 0x38 8)]) ++ [(leAt d 0x28 8, 4)],
    inPorts := if nbit (leAt d 5 1) 0 then [0] else [], outPorts := if out then [0] else [], body := balerBody st d f }

/-- BALER_COMPRESS (R620). -/
def execBalerCompress (st : StallNo) (s : State) : Host.Outcome State Fault Refusal :=
  done (s.taskStep st.val 5 1 2 balerOk (balerOp st.val fun b => some (compress b)))

/-- BALER_DECOMPRESS (R617). -/
def execBalerDecompress (st : StallNo) (s : State) : Host.Outcome State Fault Refusal :=
  done (s.taskStep st.val 5 2 2 balerOk (balerOp st.val Config.unpack))

end Sys2Proof.Machine
end

