-- ==== Sys2Proof/Machine/Sieve.lean ====
section
/-!
DEFINITION. The Sieve stalls: sorting, selection and compaction (R208–R216).
-/
namespace Sys2Proof.Machine

/-! ### Kernels -/

/-- An element is a NaN. -/
def isNan (fmt b : Nat) : Bool := decide (decodeElem fmt b = .nan)

/-- The bits with a NaN made canonical (R103, R210). -/
def canonBits (fmt b : Nat) : Nat :=
  if isNan fmt b then (match plainF fmt with | some f => f.nan | none => b) else b

/-- The order o of a key that is not a NaN (R209). -/
def keyOrder (fmt b : Nat) : Nat :=
  let w := elemBits fmt
  if isInt fmt then b ^^^ 2 ^ (w - 1)
  else
    let b := if b = 2 ^ (w - 1) then 0 else b
    if nbit b (w - 1) then 2 ^ w - 1 - b else b + 2 ^ (w - 1)

/-- The 33-bit rank u of a key (R209). -/
def keyRank (fmt order b : Nat) : Nat :=
  if isNan fmt b then 2 ^ 32 else if order = 1 then keyOrder fmt b else 2 ^ elemBits fmt - 1 - keyOrder fmt b

/-- A pair placed among pairs that ascend. -/
def insertPair (x : Nat × Nat) : List (Nat × Nat) → List (Nat × Nat)
  | [] => [x]
  | y :: ys => if x.1 < y.1 ∨ (x.1 = y.1 ∧ x.2 ≤ y.2) then x :: y :: ys else y :: insertPair x ys

/-- Pairs in ascending order. -/
def sortPairs (l : List (Nat × Nat)) : List (Nat × Nat) := l.foldr insertPair []

/-- The positions of a row of keys in the order of R209. -/
def sortOrder (fmt order : Nat) (keys : List Nat) : List Nat :=
  (sortPairs (keys.zipIdx.map fun x => (keyRank fmt order x.1, x.2))).map (·.2)

/-- The positions that COMPACT by mask keeps (R212). -/
def keepMask (mask : List Nat) : List Nat := (mask.zipIdx.filter fun x => decide (x.1 ≠ 0)).map (·.2)

/-- The positions that DEDUP keeps: those whose rank no lower position has (R212). -/
def keepFirst : List Nat → List (Nat × Nat) → List Nat
  | _, [] => []
  | seen, (u, i) :: xs => if seen.contains u then keepFirst seen xs else i :: keepFirst (u :: seen) xs

/-- The positions that DEDUP keeps in a row of keys. -/
def keepDedup (fmt : Nat) (keys : List Nat) : List Nat :=
  keepFirst [] (keys.zipIdx.map fun x => (keyRank fmt 0 x.1, x.2))

/-- A row's elements at positions, canonical. -/
def pick (fmt : Nat) (row : List Nat) (is : List Nat) : List Nat := is.map fun i => canonBits fmt (row.getD i 0)

/-- Kept values in index order, the rest +0. -/
def compacted (fmt : Nat) (row : List Nat) (is : List Nat) : List Nat :=
  pick fmt row is ++ List.replicate (row.length - is.length) 0

/-! ### The descriptor (Table 7.4) -/

def sOrder (d : Bytes) : Nat := leAt d 1 1
def sKey (d : Bytes) : Nat := leAt d 2 1
def sAux (d : Bytes) : Nat := leAt d 3 1
def sIn (d : Bytes) : Bool := nbit (leAt d 4 1) 0
def sOut (d : Bytes) : Bool := nbit (leAt d 4 1) 1
def sRow0 (d : Bytes) : Nat := leAt d 0x40 4
def sRowN (d : Bytes) : Nat := leAt d 0x44 4
def sL (d : Bytes) : Nat := leAt d 0x48 4
def sK (d : Bytes) : Nat := leAt d 0x4C 4

/-- A Sieve descriptor is well formed (R213, R216). -/
def sieveOk (_ : State) (d : Bytes) : Bool :=
  let op := tOp d
  isPlain (sKey d) && decide (leAt d 4 1 < 4) && decide (leAt d 5 1 = 0) &&
  (if op = 1 ∨ op = 2 then decide (sOrder d < 2) else decide (sOrder d = 0)) &&
  (match op with
    | 1 => decide (sAux d = 0) || isPlain (sAux d)
    | 3 => decide (sAux d = 6)
    | _ => decide (sAux d = 0)) &&
  (!sIn d || tZero d 0x18 8) && (decide (op = 3) || (decide (op = 1) && decide (sAux d ≠ 0)) || tZero d 0x20 8) &&
  (!sOut d || (tZero d 0x28 8 && tZero d 0x30 8)) && decide (1 ≤ sRowN d) && decide (1 ≤ sL d) &&
  (if op = 2 then decide (1 ≤ sK d ∧ sK d ≤ min 4096 (sL d)) else decide (sK d = 0)) &&
  (decide (op = 2) || decide (sL d ≤ 65536) || !tZero d 0x38 8) && tZero d 0x50 48

/-- The elements of row `r` of an array of rows of `l`. -/
def readRowBits (st asid fmt va l r : Nat) : TaskM (List Nat) :=
  readPacked st asid va (elemBits fmt) (r * l * elemBits fmt) l

/-- The key rows of a task, from memory or from input port 0. -/
def sieveKeys (st : Nat) (d : Bytes) : TaskM (List (List Nat)) := do
  let w := elemBits (sKey d)
  let str ← if sIn d then readStream st 0 (sRowN d * sL d * w / 8) else pure []
  (List.range (sRowN d)).mapM fun r =>
    if sIn d then pure ((List.range (sL d)).map fun i => packedAt str w (r * sL d + i))
    else readRowBits st (tAsid d) (sKey d) (leAt d 0x18 8) (sL d) (sRow0 d + r)

/-- Merge passes of one row (R214). -/
def mergePasses (l : Nat) : Nat :=
  let runs := (l + 65535) / 65536
  if runs ≤ 1 then 0 else (ceilLog2 runs + 3) / 4

/-- The run area of a sorting task, if its rows need one (R213). -/
def runArea (d : Bytes) : List (Nat × Nat) :=
  if 65536 < sL d ∧ (tOp d = 1 ∨ tOp d = 4) then [(leAt d 0x38 8, 32 * sL d)] else []

/-- The output ranges: `n` keys and `m` further elements of `aw` bits a row. -/
def sieveOuts (d : Bytes) (n m aw : Nat) : List (Nat × Nat) :=
  let w := elemBits (sKey d)
  let rows := (List.range (sRowN d)).map (sRow0 d + ·)
  if sOut d then []
  else rows.map (fun r => (leAt d 0x28 8 + r * n * w / 8, n * w / 8)) ++
    rows.map (fun r => (leAt d 0x30 8 + r * m * aw / 8, m * aw / 8))

/-- The outputs of a task: its key rows and its further rows. -/
def sieveCalc (d : Bytes) (aw : Nat) (keys aux : List (List Nat)) (events : List (Nat × Nat)) : Calc :=
  let ks := keys.map (packBytes (elemBits (sKey d)))
  let as := aux.map (packBytes aw)
  { outs := if sOut d then [] else ks ++ as, streams := if sOut d then [ks.flatMap id, as.flatMap id] else [],
    nan := keys.any (fun r => r.any (isNan (sKey d))), events := events }

/-- Events of a Sieve task: keys taken in, NaN keys, merge passes (Table 7.5). -/
def sieveEvents (d : Bytes) (rows : List (List Nat)) : List (Nat × Nat) :=
  [(6, sRowN d * sL d), (7, (rows.map fun r => (r.filter (isNan (sKey d))).length).sum),
   (8, if tOp d = 1 ∨ tOp d = 4 then sRowN d * mergePasses (sL d) else 0)]

/-- SORT (R211): each row in the order of R209, with its payload or permutation. -/
def sortBody (st : Nat) (d : Bytes) : TaskM Calc := do
  let rows ← sieveKeys st d
  let pay ← (List.range (sRowN d)).mapM fun r =>
    if sAux d = 0 then pure [] else readRowBits st (tAsid d) (sAux d) (leAt d 0x20 8) (sL d) (sRow0 d + r)
  let orders := rows.map (sortOrder (sKey d) (sOrder d))
  let aux := (orders.zip pay).map fun x => if sAux d = 0 then x.1 else pick (sAux d) x.2 x.1
  pure (sieveCalc d (if sAux d = 0 then 32 else elemBits (sAux d))
    ((rows.zip orders).map fun x => pick (sKey d) x.1 x.2) aux (sieveEvents d rows))

/-- TOP_K (R211): the first K elements of each row's order. -/
def topkBody (st : Nat) (d : Bytes) : TaskM Calc := do
  let rows ← sieveKeys st d
  let orders := rows.map fun r => (sortOrder (sKey d) (sOrder d) r).take (sK d)
  pure (sieveCalc d 32 ((rows.zip orders).map fun x => pick (sKey d) x.1 x.2) orders (sieveEvents d rows))

/-- COMPACT and DEDUP (R212): the kept values, and their count. -/
def compactBody (st : Nat) (d : Bytes) (dedup : Bool) : TaskM Calc := do
  let rows ← sieveKeys st d
  let masks ← (List.range (sRowN d)).mapM fun r =>
    if dedup then pure [] else readRowBits st (tAsid d) 6 (leAt d 0x20 8) (sL d) (sRow0 d + r)
  let kept := (rows.zip masks).map fun x => if dedup then keepDedup (sKey d) x.1 else keepMask x.2
  pure (sieveCalc d 32 ((rows.zip kept).map fun x => compacted (sKey d) x.1 x.2) (kept.map fun k => [k.length])
    (sieveEvents d rows))

/-- What a Sieve task does: `n` keys and `m` further elements of `aw` bits a row. -/
def sieveOp (n m aw : Bytes → Nat) (body : Bytes → TaskM Calc) (_ : State) (d : Bytes) : TaskOp :=
  { outs := sieveOuts d (n d) (m d) (aw d), scratch := runArea d, inPorts := if sIn d then [0] else [],
    outPorts := if sOut d then [0, 1] else [], body := body d }

/-- SIEVE_SORT (R211). -/
def execSieveSort (st : StallNo) (s : State) : Host.Outcome State Fault Refusal :=
  done (s.taskStep st.val 2 1 4 sieveOk
    (sieveOp sL sL (fun d => if sAux d = 0 then 32 else elemBits (sAux d)) (sortBody st.val)))

/-- SIEVE_TOP_K (R211). -/
def execSieveTopK (st : StallNo) (s : State) : Host.Outcome State Fault Refusal :=
  done (s.taskStep st.val 2 2 4 sieveOk (sieveOp sK sK (fun _ => 32) (topkBody st.val)))

/-- SIEVE_COMPACT (R212). -/
def execSieveCompact (st : StallNo) (s : State) : Host.Outcome State Fault Refusal :=
  done (s.taskStep st.val 2 3 4 sieveOk (sieveOp sL (fun _ => 1) (fun _ => 32) (fun d => compactBody st.val d false)))

/-- SIEVE_DEDUP (R212). -/
def execSieveDedup (st : StallNo) (s : State) : Host.Outcome State Fault Refusal :=
  done (s.taskStep st.val 2 4 4 sieveOk (sieveOp sL (fun _ => 1) (fun _ => 32) (fun d => compactBody st.val d true)))

end Sys2Proof.Machine
end

