-- ==== Sys2Proof/Machine/Crossing.lean ====
section
/-!
DEFINITION. The Crossing stalls: gating, dispatch and combine (R220–R241).
-/
namespace Sys2Proof.Machine

/-! ### EXP and SIG (R224, R225) -/

/-- T[0] to T[31]: the integers nearest to 2^(30 + i/64). -/
def expLo : List Nat :=
  [1073741824, 1085434106, 1097253708, 1109202018, 1121280436, 1133490379, 1145833280, 1158310587,
   1170923762, 1183674286, 1196563654, 1209593378, 1222764986, 1236080024, 1249540052, 1263146652,
   1276901417, 1290805962, 1304861917, 1319070932, 1333434672, 1347954824, 1362633090, 1377471191,
   1392470869, 1407633882, 1422962010, 1438457051, 1454120821, 1469955159, 1485961921, 1502142985]

/-- T[32] to T[63]. -/
def expHi : List Nat :=
  [1518500250, 1535035634, 1551751076, 1568648537, 1585730000, 1602997467, 1620452965, 1638098541,
   1655936265, 1673968228, 1692196547, 1710623359, 1729250827, 1748081133, 1767116489, 1786359126,
   1805811301, 1825475297, 1845353420, 1865448001, 1885761398, 1906295993, 1927054196, 1948038440,
   1969251188, 1990694927, 2012372174, 2034285470, 2056437387, 2078830522, 2101467502, 2124350982]

/-- EXP of the exact value n / d × 2^−304, at most 0 (R224). -/
def expEx (n : Int) (d : Nat) : Ex :=
  if n + 104 * (one304 : Int) * d < 0 then .fin 0 1
  else
    let dd : Int := -(roundMag 0 true (n.natAbs * 2 ^ 24) (d * one304) : Int)
    let y : Int := dd + (dd * 0x71547653) / (2 ^ 32 : Int)
    let e : Int := y / (2 ^ 24 : Int)
    let f : Nat := (y % (2 ^ 24 : Int)).toNat
    let t := (expLo ++ expHi).getD (f / 2 ^ 18) 0
    let r := f % 2 ^ 18
    let q := 0x38D611B
    let q := 0xF5FDF00 + q * r / 2 ^ 24
    let q := 0x2C5C85FE + q * r / 2 ^ 24
    let q := 0x40000000 + q * r / 2 ^ 24
    exScaled ((t * q / 2 ^ 30 : Nat) : Int) (e - 30)

/-- Two finite values added exactly. -/
def Ex.addQ : Ex → Ex → Ex
  | .fin a b, .fin c d => if b = d then .fin (a + c) b else .fin (a * d + c * b) (b * d)
  | x, _ => x

/-- The exact quotient of two finite values, the second positive (R119). -/
def Ex.quot : Ex → Ex → Ex
  | .fin a b, .fin c d => .fin (a * d * one304) (b * c.natAbs)
  | x, _ => x

/-- 1 as an exact value. -/
def exOne : Ex := .fin one304 1

/-- SIG of a logit (R225). -/
def sigEx : Ex → Ex
  | .nan => .nan
  | .pinf => exOne
  | .ninf => .fin 0 1
  | .fin n d =>
    if 0 ≤ n then exOne.quot (exOne.addQ (expEx (-n) d)) else (expEx n d).quot (exOne.addQ (expEx n d))

/-! ### Gating (R221–R223) -/

/-- The largest finite value of a list, if it has one. -/
def maxFin : List Ex → Option Ex
  | [] => none
  | .fin n d :: vs =>
    match maxFin vs with
    | some (.fin m e) => if m * d ≤ n * e then some (.fin n d) else some (.fin m e)
    | _ => some (.fin n d)
  | _ :: vs => maxFin vs

/-- e_i of R222: EXP(x − m), and 0 for −∞. -/
def expOf (m : Ex) : Ex → Ex
  | .fin n d =>
    match (Ex.fin n d).addQ (match m with | .fin a b => .fin (-a) b | x => x) with
    | .fin k e => expEx k e
    | x => x
  | _ => .fin 0 1

/-- A finite value is 0. -/
def Ex.isZero : Ex → Bool
  | .fin n _ => decide (n = 0)
  | _ => false

/-- The weights of the selected logits before rounding (R222, R223): `sel` the K selected logits, `all` the whole row. -/
def gateWeights (func : Nat) (sel all : List Ex) : List Ex :=
  let nans := sel.map fun _ => Ex.nan
  match func with
  | 0 | 1 =>
    let s := if func = 0 then sel else all
    match maxFin s with
    | none => nans
    | some m =>
      if s.contains .nan || s.contains .pinf then nans
      else
        let sum := (s.map (expOf m)).foldl Ex.addQ (.fin 0 1)
        sel.map fun x => (expOf m x).quot sum
  | 2 => sel.map sigEx
  | _ =>
    let gs := sel.map sigEx
    let sum := gs.foldl Ex.addQ (.fin 0 1)
    if sel.contains .nan || sum.isZero then nans else gs.map fun g => g.quot sum

/-- EXP evaluations of a row: one for each finite logit considered. -/
def gateExps (func : Nat) (sel all : List Ex) : Nat :=
  ((if func = 1 then all else sel).filter fun x => match x with | .fin _ _ => true | _ => false).length

/-! ### Dispatch (R227–R230) -/

/-- A choice: expert, token and rank. -/
structure Choice where
  e : Nat
  t : Nat
  k : Nat
  deriving DecidableEq, Repr

/-- An INT32 that means no choice, no entry or an unused slot. -/
abbrev minus1 : Nat := 0xFFFF_FFFF

/-- DISABLED in a home table. -/
abbrev homeDisabled : Nat := 0xFFFF_FFFE

/-- The choices of a table of T × K experts in ascending (k, t) order. -/
def choicesOf (table : List Nat) (tN kN : Nat) : List Choice :=
  (List.range kN).flatMap fun k => (List.range tN).filterMap fun t =>
    let e := table.getD (t * kN + k) minus1
    if e = minus1 then none else some ⟨e, t, k⟩

/-- A choice as a list entry (R229). -/
def Choice.entry (c : Choice) : Nat := c.t + c.k * 2 ^ 20

/-- The accepted choices of expert `e`, in ascending order of token and then rank (R228, R229). -/
def acceptedOf (cs : List Choice) (e capacity : Nat) : List Choice :=
  let mine := (cs.filter fun c => decide (c.e = e)).take capacity
  ((sortPairs (mine.map fun c => (c.t * 16 + c.k, c.k))).map fun x => ⟨e, x.1 / 16, x.2⟩)

/-- What DISPATCH decides for one expert: its choices, the accepted ones, and those over capacity. -/
structure Demand where
  named : Nat
  accepted : List Choice
  excess : Nat
  disabled : Bool
  deriving DecidableEq, Repr

/-- The demand for expert `e` (R228, R230). -/
def demandOf (cs : List Choice) (homes : List Nat) (e capacity : Nat) : Demand :=
  let n := (cs.filter fun c => decide (c.e = e)).length
  if homes.getD e 0 = homeDisabled then ⟨n, [], 0, true⟩ else ⟨n, acceptedOf cs e capacity, n - capacity, false⟩

/-- A home entry that is neither a home number nor DISABLED (R227). -/
def badHome (h : Nat) : Bool := decide (0xFFFF < h) && decide (h ≠ homeDisabled)

/-! ### Combine (R235) -/

/-- A list entry that breaks R235 for K ranks and, where known, T tokens. -/
def badEntry (tN : Option Nat) (kN x : Nat) : Bool :=
  decide (x ≠ minus1) && (decide (2 ^ 24 ≤ x) || decide (kN ≤ x / 2 ^ 20) ||
    (match tN with | some t => decide (t ≤ x % 2 ^ 20) | none => false))

/-- The entries of token `t`: rank and slot row (R235). -/
def entriesOf (list : List Nat) (t : Nat) : List (Nat × Nat) :=
  list.zipIdx.filterMap fun x => if x.1 ≠ minus1 ∧ x.1 % 2 ^ 20 = t then some (x.1 / 2 ^ 20, x.2) else none

/-! ### The descriptor (Table 8.5) -/

def xIn (d : Bytes) : Nat := leAt d 2 1
def xOut (d : Bytes) : Nat := leAt d 3 1
def xFlag (d : Bytes) (i : Nat) : Bool := nbit (leAt d 5 1) i
def xT0 (d : Bytes) : Nat := leAt d 0x60 4
def xT (d : Bytes) : Nat := leAt d 0x64 4
def xE (d : Bytes) : Nat := leAt d 0x68 2
def xK (d : Bytes) : Nat := leAt d 0x6A 1
def xMode (d : Bytes) : Nat := leAt d 0x6B 1
def xCap (d : Bytes) : Nat := leAt d 0x6C 4
def xE0 (d : Bytes) : Nat := leAt d 0x70 2
def xEN (d : Bytes) : Nat := leAt d 0x72 2
def xCol0 (d : Bytes) : Nat := leAt d 0x74 4
def xW (d : Bytes) : Nat := leAt d 0x78 4
def xLd (d : Bytes) : Nat := leAt d 0x7C 4

/-- Formats 0x01–0x05. -/
def isFloat (f : Nat) : Bool := decide (1 ≤ f) && decide (f ≤ 5)

/-- What the three Crossing tasks share of R241. -/
def crossingOk (d : Bytes) : Bool :=
  polOk (leAt d 1 1) && decide (leAt d 5 1 < 8) && decide (1 ≤ xT d) && decide (1 ≤ xE d ∧ xE d ≤ 4096) &&
  decide (1 ≤ xK d ∧ xK d ≤ 16) && (isMx (xIn d) || tZero d 0x20 8)

/-- Fields of a task on rows of tokens or results: COL0, W, LD and CAPACITY. -/
def crossRowsOk (d : Bytes) (mx : Bool) : Bool :=
  decide (1 ≤ xCap d) && decide (xE d * xCap d ≤ 2 ^ 24) && decide (1 ≤ xW d ∧ xW d ≤ 4096) &&
  (!mx || decide (xCol0 d % 32 = 0)) && !xFlag d 0 && !xFlag d 2

/-- A GATE descriptor is well formed (R220, R241). Logits come on one path only, and GATE streams nothing out. -/
def gateOk (_ : State) (d : Bytes) : Bool :=
  crossingOk d && isFloat (xIn d) && isFloat (xOut d) && decide (leAt d 4 1 = 0) && !xFlag d 1 &&
  !(xFlag d 0 && xFlag d 2) && (!xFlag d 0 || tZero d 0x18 8) && tZero d 0x38 24 && tZero d 0x50 16 &&
  decide (xT0 d + xT d ≤ 2 ^ 20) && decide (xK d ≤ xE d) && decide (xMode d ≤ 3) && tZero d 0x6C 20

/-- A DISPATCH descriptor is well formed (Table 8.2, R241). -/
def dispatchOk (_ : State) (d : Bytes) : Bool :=
  crossingOk d && (isFloat (xIn d) || isMx (xIn d)) && decide (xOut d = xIn d) && decide (leAt d 4 1 = 0) &&
  crossRowsOk d (isMx (xIn d)) && tZero d 0x30 8 && (!xFlag d 1 || (tZero d 0x38 8 && tZero d 0x40 8)) &&
  (isMx (xOut d) || tZero d 0x40 8) && decide (xT0 d = 0) && decide (xMode d ≤ 1) && decide (1 ≤ xEN d) &&
  decide (xE0 d + xEN d ≤ xE d)

/-- A COMBINE descriptor is well formed (R241). -/
def combineOk (_ : State) (d : Bytes) : Bool :=
  crossingOk d && (isFloat (xIn d) || isMx (xIn d)) && (isFloat (xOut d) || isMx (xOut d) || decide (xOut d = 0x20)) &&
  isFloat (leAt d 4 1) && crossRowsOk d (isMx (xIn d) || isMx (xOut d)) &&
  (!xFlag d 1 || (tZero d 0x38 8 && tZero d 0x40 8)) && (isMx (xOut d) || tZero d 0x40 8) && tZero d 0x50 16 &&
  decide (xMode d = 0) && decide (xE0 d = 0) && decide (xEN d = 0)

/-! ### Tasks -/

/-- The selected logits and experts of a SIEVE_FED token. -/
def fedRow (fmt k t : Nat) (keys idx : Bytes) : List Nat × List Nat :=
  ((List.range k).map (fun i => packedAt keys (elemBits fmt) (t * k + i)), (List.range k).map fun i => leAt idx (4 * (t * k + i)) 4)

/-- GATE (R221–R223). -/
def gateBody (st : Nat) (d : Bytes) : TaskM Calc := do
  let f := xIn d
  let w := elemBits f
  let k := xK d
  let fed := xFlag d 2
  let str ← if xFlag d 0 then readStream st 0 (xT d * xE d * w / 8)
    else if fed then readStream st 0 (xT d * k * w / 8) else pure []
  let idx ← if fed then readStream st 1 (xT d * k * 4) else pure []
  let rows ← (List.range (xT d)).mapM fun t =>
    if xFlag d 0 then pure ((List.range (xE d)).map fun e => packedAt str w (t * xE d + e))
    else if fed ∧ xMode d ≠ 1 then pure []
    else readRowBits st (tAsid d) f (leAt d 0x18 8) (xE d) (xT0 d + t)
  let picks := rows.zipIdx.map fun x =>
    if fed then fedRow f k x.2 str idx
    else
      let is := (sortOrder f 0 x.1).take k
      (is.map (fun i => x.1.getD i 0), is)
  let val (bs : List Nat) : List Ex := bs.map (decodeElem f)
  let ws := (picks.zip rows).map fun x => gateWeights (xMode d) (val x.1.1) (val x.2)
  let es := ws.map (encodeAll (xOut d) (leAt d 1 1))
  pure {
    outs := picks.map (fun p => p.2.flatMap (leBytes 4)) ++ es.map (·.1)
    nan := es.any (·.2.1), ovf := es.any (·.2.2)
    events := [(6, ((picks.zip rows).map fun x => gateExps (xMode d) (val x.1.1) (val x.2)).sum),
      (7, (ws.filter fun r => r.contains .nan).length)] }

def gateOp (st : Nat) (_ : State) (d : Bytes) : TaskOp :=
  let rows := (List.range (xT d)).map (xT0 d + ·)
  { outs := rows.map (fun t => (leAt d 0x28 8 + t * xK d * 4, xK d * 4)) ++
      rows.map (fun t => (leAt d 0x30 8 + t * xK d * elemBits (xOut d) / 8, packedLen (xOut d) (xK d))),
    inPorts := if xFlag d 0 then [0] else if xFlag d 2 then [0, 1] else [], body := gateBody st d }

/-- CROSSING_GATE (R221). -/
def execCrossingGate (st : StallNo) (s : State) : Host.Outcome State Fault Refusal :=
  done (s.taskStep st.val 3 1 3 gateOk (gateOp st.val))

/-- The bytes of a token row's slice and of its scales. -/
def tokenRow (st : Nat) (d : Bytes) (t : Nat) : TaskM (Bytes × Bytes) := do
  let f := xIn d
  let e ← readOk st (tAsid d) (leAt d 0x18 8 + (t * xLd d + xCol0 d) * elemBits f / 8) (packedLen f (xW d))
  let s ← if isMx f then
      readOk st (tAsid d) (leAt d 0x20 8 + t * xLd d / 32 + xCol0 d / 32) ((xW d + 31) / 32)
    else pure []
  pure (e, s)

/-- A row as a stream: each MX block follows its scale byte. -/
def rowStream (fmt : Nat) (e s : Bytes) : Bytes :=
  if isMx fmt then
    let n := 4 * elemBits fmt
    s.zipIdx.flatMap fun x => x.1 :: (e.drop (x.2 * n)).take n
  else e

/-- DISPATCH (R227–R230). -/
def dispatchBody (st : Nat) (d : Bytes) : TaskM Calc := do
  let table ← readInts st (tAsid d) (leAt d 0x28 8) (xT d * xK d)
  let homes ← readInts st (tAsid d) (leAt d 0x50 8) (xE d)
  if table.any (fun e => e ≠ minus1 ∧ xE d ≤ e) then throw (.fail 0x07)
  else if homes.any badHome then throw (.fail 0x02)
  else
    let cs := choicesOf table (xT d) (xK d)
    let ds := (List.range (xEN d)).map fun i => demandOf cs homes (xE0 d + i) (xCap d)
    let excess := (ds.map (·.excess)).sum
    if xMode d = 1 ∧ 0 < excess then throw (.fail 0x09)
    else
      let blank : Bytes × Bytes := (slice [] 0 (packedLen (xIn d) (xW d)), if isMx (xIn d) then slice [] 0 ((xW d + 31) / 32) else [])
      let rows ← ds.mapM fun x => (List.range (xCap d)).mapM fun s =>
        match x.accepted[s]? with
        | some c => tokenRow st d c.t
        | none => pure blank
      let flat := rows.flatMap id
      let list := ds.map fun x => ((List.range (xCap d)).map fun s =>
        match x.accepted[s]? with
        | some c => c.entry
        | none => minus1).flatMap (leBytes 4)
      let counts := if tZero d 0x58 8 then [] else [ds.flatMap fun x => leBytes 4 x.named]
      pure {
        outs := list ++ counts ++ (if xFlag d 1 then []
          else flat.map (·.1) ++ (if isMx (xIn d) then flat.map (·.2) else []))
        streams := if xFlag d 1 then [flat.flatMap fun r => rowStream (xIn d) r.1 r.2] else []
        events := [(8, (ds.map (·.named)).sum), (9, (ds.map (·.accepted.length)).sum), (10, excess),
          (11, (ds.map fun x => if x.disabled then x.named else 0).sum)] }

def dispatchOp (st : Nat) (_ : State) (d : Bytes) : TaskOp :=
  let es := (List.range (xEN d)).map (xE0 d + ·)
  { outs := es.map (fun e => (leAt d 0x48 8 + e * xCap d * 4, xCap d * 4)) ++
      (if tZero d 0x58 8 then [] else [(leAt d 0x58 8 + 4 * xE0 d, 4 * xEN d)]) ++
      (if xFlag d 1 then []
       else rowOuts (xOut d) (leAt d 0x38 8) (leAt d 0x40 8) (xLd d) (xCol0 d) (xW d)
         (es.flatMap fun e => (List.range (xCap d)).map fun s => e * xCap d + s)),
    outPorts := if xFlag d 1 then [0] else [], body := dispatchBody st d }

/-- CROSSING_DISPATCH (R228). -/
def execCrossingDispatch (st : StallNo) (s : State) : Host.Outcome State Fault Refusal :=
  done (s.taskStep st.val 3 2 3 dispatchOk (dispatchOp st.val))

/-- COMBINE (R235, R236). The descriptor does not give T, so a task checks the ranks and high bits of the entries. -/
def combineBody (st : Nat) (d : Bytes) : TaskM Calc := do
  let list ← readInts st (tAsid d) (leAt d 0x28 8) (xE d * xCap d)
  if list.any (badEntry none (xK d)) then throw (.fail 0x07)
  else
    let wf := leAt d 4 1
    let used := (List.range (xT d)).map fun t => (xT0 d + t, entriesOf list (xT0 d + t))
    let rows ← used.mapM fun x => x.2.mapM fun p => do
      let ws ← readPacked st (tAsid d) (leAt d 0x30 8) (elemBits wf) ((x.1 * xK d + p.1) * elemBits wf) 1
      let v ← readRowV st (tAsid d) (xIn d) (leAt d 0x18 8) (leAt d 0x20 8) (xLd d) p.2 (xCol0 d) (xW d)
      pure (v.map fun y => (decodeElem wf (ws.getD 0 0)).mul y)
    let adds := (rows.map (·.length)).sum * xW d
    let cols := List.range (xW d)
    let f0 ← takeFresh (if polFast (leAt d 1 1) then adds else 0)
    let res := if xOut d = 0x20 then cellsCalc (xFlag d 1) (rows.map fun r => cols.map fun c => sumEx (column r c))
      else rowsCalc (xOut d) (leAt d 1 1) (xFlag d 1) (rows.map fun r => cols.map fun c =>
        accumulate (leAt d 1 1) (f0 + c * adds) (column r c))
    pure { res with events := [(12, adds)] }

def combineOp (st : Nat) (_ : State) (d : Bytes) : TaskOp :=
  { outs := if xFlag d 1 then []
      else rowOuts (xOut d) (leAt d 0x38 8) (leAt d 0x40 8) (xLd d) (xCol0 d) (xW d) ((List.range (xT d)).map (xT0 d + ·)),
    scratch := [(leAt d 0x48 8, 4 * xT d * xK d)], outPorts := if xFlag d 1 then [0] else [], body := combineBody st d }

/-- CROSSING_COMBINE (R235). -/
def execCrossingCombine (st : StallNo) (s : State) : Host.Outcome State Fault Refusal :=
  done (s.taskStep st.val 3 3 3 combineOk (combineOp st.val))

end Sys2Proof.Machine
end

