-- ==== Sys2Proof/Machine/Causeway.lean ====
section
/-!
DEFINITION. The Causeway ports: link protocol 1.0, link states, narrowing, and root-port mode (chapter "Causeway ports",
R338–R350, R623).
-/
namespace Sys2Proof.Machine

/-! ### Registers and links -/

def linkCtrl (l : Nat) : Reg := ⟨.cwLinkCtrl, l, 0⟩
def linkStatus (l : Nat) : Reg := ⟨.cwLinkStatus, l, 0⟩
def linkErr (l : Nat) : Reg := ⟨.cwLinkErr, l, 0⟩
def grpCtrlReg (g : Nat) : Reg := ⟨.cwGrpCtrl, g, 0⟩
def grpStatusReg (g : Nat) : Reg := ⟨.cwGrpStatus, g, 0⟩

/-- STATE of a link (Table 13.3), and it replaced. WIDTH reads the trained width only while the link is UP. -/
def State.linkState (s : State) (l : Nat) : Nat := s.fget (linkStatus l) F.cwLinkStatus_STATE
def State.setLinkState (s : State) (l v : Nat) : State :=
  let s := s.fset (linkStatus l) F.cwLinkStatus_STATE v
  s.fset (linkStatus l) F.cwLinkStatus_WIDTH (if v = 3 then (s.link l).width else 0)

/-- The UNIT code of a link (Table 24.6). -/
def linkUnit (l : Nat) : Nat := qUnit (l / 4) (0x10 + l % 4)

/-- IN_ASID of a link. -/
def State.inAsid (s : State) (l : Nat) : Nat := s.fget (linkCtrl l) F.cwLinkCtrl_IN_ASID

/-- A late or discarded arrival (CW_LINK_ERR.LATE). -/
def State.cwLate (s : State) (l : Nat) : State := (s.fsat (linkErr l) F.cwLinkErr_LATE 1).count (l / 4) 56 4 1

/-- A link goes DOWN (R347): its bursts complete with LINK_DOWN, arrivals not acknowledged are discarded, EPOCH advances,
and the error is contained in the precinct of IN_ASID. -/
def State.linkDown (s : State) (l : Nat) : State :=
  if s.linkState l = 0 then s
  else
    let s := s.failBursts 0x23 (Burst.onLink l)
    let s := s.setLink l { s.link l with rxq := [], tags := [], fails := 0, width := 0 }
    let s := (s.setLinkState l 0).fwrap (linkStatus l) F.cwLinkStatus_EPOCH 1
    let (s, p) := s.asidPrec (l / 4) (s.inAsid l)
    s.recordErr 2 0x05 p (linkUnit l) 0 0 (s.inAsid l) false

/-- A root port's link goes down (R350): its requests complete with LINK_DOWN and the Causeway interrupt is raised. -/
def State.rpDown (s : State) (g : Nat) : State :=
  let s := s.failBursts 0x23 (Burst.onLink (4 * g))
  let s := s.setLink (4 * g) { s.link (4 * g) with tags := [] }
  let r := grpStatusReg g
  let s := ((s.fset r F.cwGrpStatus_DLL_ACTIVE 0).fset r F.cwGrpStatus_WIDTH 0).fset r F.cwGrpStatus_RATE 0
  (s.fset r F.cwGrpStatus_HP_EVENT 1).raiseLine g 3

/-- A root port's link trains at a width and rate (R350): its LINK_DOWN completions end and a hot-plug event is raised. A width
other than the one before is a class 1 record ("Errors, containment and injection"). -/
def State.rpUp (s : State) (g width rate : Nat) : State :=
  let r := grpStatusReg g
  if s.portsTrain ∧ s.rpMode (4 * g) ∧ s.fbit (grpCtrlReg g) F.cwGrpCtrl_ENABLE ∧ width ∈ [1, 2, 4, 8, 16] ∧ 4 ≤ rate ∧ rate ≤ 7 then
    let old := (s.link (4 * g)).width
    let s := s.setLink (4 * g) { s.link (4 * g) with width := width }
    let s := ((s.fset r F.cwGrpStatus_WIDTH width).fset r F.cwGrpStatus_RATE rate).fset r F.cwGrpStatus_DLL_ACTIVE 1
    let s := ((s.fset r F.cwGrpStatus_PRSNT 1).fset r F.cwGrpStatus_HP_EVENT 1).raiseLine g 3
    if old = 0 ∨ old = width then s else s.recordErr 1 0x05 0xFF (qUnit g 0x0E) 1 0 0 false
  else s

/-! ### Control -/

/-- CW_GRP_CTRL_WRITE (R338). -/
def State.grpCtrlWrite (s : State) (rq : Requester) (g : Nat) (v : W64) : State :=
  let r := grpCtrlReg g
  let mode := bitsOf v F.cwGrpCtrl_MODE
  let down := (List.range 4).all fun j => s.linkState (4 * g + j) = 0
  let still := !s.fbit r F.cwGrpCtrl_ENABLE && down && !s.fbit (grpStatusReg g) F.cwGrpStatus_DLL_ACTIVE
  if !rqKernel rq || (decide (mode ≠ s.fget r F.cwGrpCtrl_MODE) && !still) then s.refuse rq r
  else
    let on := bitsOf v F.cwGrpCtrl_ENABLE
    let s' := s.fset r F.cwGrpCtrl_MODE mode
    let s' := (s'.fset r F.cwGrpCtrl_ENABLE on).fset r F.cwGrpCtrl_PERST (bitsOf v F.cwGrpCtrl_PERST)
    let s' := if s'.rd r = s.rd r then s' else s'.emit (.pin "CG_PERST_N" (decide (bitsOf v F.cwGrpCtrl_PERST = 0)))
    if on = 0 ∧ s.fbit (grpStatusReg g) F.cwGrpStatus_DLL_ACTIVE then s'.rpDown g else s'

def execCwGrpCtrlWrite (rq : Requester) (g : Qn) (v : W64) (s : State) : Host.Outcome State Fault Refusal :=
  done (s.grpCtrlWrite rq g.val v)

/-- A write of CW_LINK_CTRL: IN_ASID and ENABLE take their values; ENABLE lets the link train or takes it down, and
RETRAIN trains it again at ×4 (Table 13.3, R345, R346). -/
def State.linkCtrlWrite (s : State) (rq : Requester) (l : Nat) (v : W64) : State :=
  let r := linkCtrl l
  if !rqKernel rq || s.rpMode l then s.refuse rq r
  else
    let s := (s.fset r F.cwLinkCtrl_IN_ASID (bitsOf v F.cwLinkCtrl_IN_ASID)).fset r F.cwLinkCtrl_ENABLE
      (bitsOf v F.cwLinkCtrl_ENABLE)
    if bitsOf v F.cwLinkCtrl_ENABLE = 0 then s.linkDown l
    else if s.linkState l = 0 ∨ bitsOf v F.cwLinkCtrl_RETRAIN = 1 then s.setLinkState l 1
    else s

/-- CW_LINK_ENABLE (Table 13.3). -/
def execCwLinkEnable (rq : Requester) (l : LinkNo) (v : W64) (s : State) : Host.Outcome State Fault Refusal :=
  done (s.linkCtrlWrite rq l.val (setBits v F.cwLinkCtrl_RETRAIN 0))

/-- CW_LINK_RETRAIN (R346). -/
def execCwLinkRetrain (rq : Requester) (l : LinkNo) (v : W64) (s : State) : Host.Outcome State Fault Refusal :=
  done (s.linkCtrlWrite rq l.val (setBits v F.cwLinkCtrl_RETRAIN 1))

/-- The VERSION message of this device: link protocol 1.0 (R344). -/
def versionMsg : CwMsg :=
  { type := 6, flags := 0, length := 2, tag := 0, status := 0, addr := 0, data := leBytes 2 0x0100 }

/-- CW_LINK_TRAINED (R344, R348): training ends at a width; 0 means that none trains. In root-port mode link 4q stands for
the whole port. -/
def execCwLinkTrained (l : LinkNo) (width rate : Nat) (s : State) : Host.Outcome State Fault Refusal :=
  let l := l.val
  if !s.portsTrain then done s
  else if s.rpMode l then done (if l % 4 = 0 then s.rpUp (l / 4) width rate else s)
  else if s.linkState l ≠ 1 then done s
  else if width ∈ [1, 2, 4] then
    let s := (s.setLink l { s.link l with width := width, fails := 0 }).setLinkState l 2
    done (s.cwSend l versionMsg)
  else done (s.linkDown l)

/-! ### Arriving messages -/

/-- The message next to be applied on a link that is up. -/
def State.cwHead (s : State) (l type : Nat) : Option CwMsg :=
  match (s.link l).rxq with
  | m :: _ => if m.type = type ∧ s.linkState l = 3 then some m else none
  | [] => none

/-- The message at the head has been applied. -/
def State.cwPop (s : State) (l : Nat) : State := s.setLink l { s.link l with rxq := (s.link l).rxq.drop 1 }

/-- An ACK for a tag, with a status. -/
def State.cwAck (s : State) (l tag status : Nat) : State :=
  s.cwSend l { type := 4, flags := 0, length := 0, tag := tag, status := status, addr := 0, data := [] }

/-- The versions of a list of 2-byte entries. -/
def versionList (d : Bytes) : List Nat := (List.range (d.length / 2)).map fun i => leAt d (2 * i) 2

/-- The version this device and a list agree on (R19): major 1, the lower minor; none without a common major. -/
def agreed (vs : List Nat) : Option Nat := if vs.any (fun v => v / 256 = 1) then some 0x0100 else none

/-- CW_VERSION (R345). -/
def execCwVersion (l : LinkNo) (s : State) : Host.Outcome State Fault Refusal :=
  let l := l.val
  match (s.link l).rxq with
  | m :: _ =>
    if m.type = 6 ∧ s.linkState l = 2 then
      let s := s.cwPop l
      let st := linkStatus l
      match agreed (versionList (slice m.data 0 m.length)) with
      | some v =>
        done (((s.fset st F.cwLinkStatus_VERSION v).fset st F.cwLinkStatus_NEG_STATUS 0).setLinkState l 3)
      | none => done ((s.fset st F.cwLinkStatus_NEG_STATUS 0x7F).setLinkState l 5)
    else done s
  | [] => done s

/-- A corrected error of a link: a replay or a narrowing (Table 24.2). -/
def State.linkRecord (s : State) (l detail : Nat) (inj : Bool) : State :=
  s.recordErr 1 0x05 0xFF (linkUnit l) detail 0 0 inj

/-- A link narrows (R346), or goes DOWN from ×1 (Table 13.3). -/
def State.narrow (s : State) (l : Nat) (inj : Bool) : State :=
  if s.linkState l ≠ 3 then s
  else if (s.link l).width ≤ 1 then s.linkDown l
  else
    let s := (s.fsat (linkErr l) F.cwLinkErr_NARROWINGS 1).count (l / 4) 56 3 1
    let s := s.setLink l { s.link l with fails := 0 }
    (s.setLinkState l 4).linkRecord l 1 inj

/-- A flit whose CRC failed: it is counted and replayed; after 8 failed replays the link narrows (R339). -/
def State.flitFailed (s : State) (l : Nat) (inj : Bool) : State :=
  let n := (s.link l).fails + 1
  let s := (s.fsat (linkErr l) F.cwLinkErr_CRC_ERRORS 1).fsat (linkErr l) F.cwLinkErr_REPLAYS 1
  let s := (s.count (l / 4) 56 2 1).linkRecord l 0 inj
  let s := s.setLink l { s.link l with fails := n }
  if 9 ≤ n then s.narrow l inj else s

/-- A message of a reserved TYPE is answered MALFORMED and not applied (Table 13.2). -/
def State.deliver (s : State) (l : Nat) (m : CwMsg) : State :=
  if 1 ≤ m.type ∧ m.type ≤ 6 then s.setLink l { s.link l with rxq := (s.link l).rxq ++ [m] }
  else s.cwAck l m.tag 0x01

/-- CW_FLIT (R339): a flit delivers its messages once and in order, or is replayed. A flit already delivered is
acknowledged and dropped, and one ahead of its turn waits at its sender. -/
def execCwFlit (l : LinkNo) (seq : Nat) (crcOk : Bool) (msgs : List CwMsg) (s : State) :
    Host.Outcome State Fault Refusal :=
  let l := l.val
  if s.linkState l ≠ 2 ∧ s.linkState l ≠ 3 then done s
  else match s.injAt 0x05 (linkUnit l) (fun _ => true) with
    | some i =>
      let s := s.injFire
      done (if i.syndrome % 4 = 1 then s.narrow l true else s.flitFailed l true)
    | none =>
      if !crcOk then done (s.flitFailed l false)
      else if seq ≠ (s.link l).nextSeq then done s
      else
        let s := s.setLink l { s.link l with nextSeq := seq + 1, fails := 0 }
        let s := s.count (l / 4) 56 1 (msgs.map fun m => m.data.length).sum
        done (msgs.foldl (fun s m => s.deliver l m) s)

/-- An access of an arrival is written; the status answered, or none while it is held (R342). -/
def State.arrivalWrite (s : State) (q req asid va : Nat) (d : Bytes) (poison : Bool) : State × Option Nat :=
  if 2 ^ 48 ≤ va then (s, some 0x05)
  else match s.vwrite q req asid va d poison with
    | (s, none) => (s, none)
    | (s, some true) => (s, some 0x05)
    | (s, some false) => (s, some (if poison then 0x06 else 0))

/-- A message's header is well formed (Table 13.1). -/
def cwMsgOk (m : CwMsg) : Bool := m.clean && decide (m.tag < 4096) && decide (m.flags < 4)

/-- CW_WRITE (R342, R340). -/
def execCwWrite (l : LinkNo) (s : State) : Host.Outcome State Fault Refusal :=
  let l := l.val
  match s.cwHead l 1 with
  | none => done s
  | some m =>
    let bad := !cwMsgOk m || nbit m.flags 0 || decide (m.length = 0) || decide (256 < m.length) || decide (m.status ≠ 0) ||
      decide (2 ^ 57 ≤ m.addr) || decide (256 < m.addr % 256 + m.length)
    if bad then done ((s.cwPop l).cwAck l m.tag 0x01)
    else match s.arrivalWrite (l / 4) (0x5000 + l) (s.inAsid l) m.addr (slice m.data 0 m.length) (nbit m.flags 1) with
      | (s, none) => done s
      | (s, some st) => done ((s.cwPop l).cwAck l m.tag st)

/-- The READ_DATA messages of an answer, in ascending address order, LAST on the final one. -/
def readData (tag status : Nat) (poison : Bool) : List (Nat × Bytes) → List CwMsg
  | [] => []
  | [(_, d)] => [{ type := 3, flags := 1 + 2 * b2n poison, length := d.length, tag := tag, status := status, addr := 0,
                   data := d }]
  | (_, d) :: rest =>
    { type := 3, flags := 2 * b2n poison, length := d.length, tag := tag, status := status, addr := 0, data := d } ::
      readData tag status poison rest

/-- A READ answered with an error and no data. -/
def readError (tag status : Nat) : CwMsg :=
  { type := 3, flags := 1, length := 0, tag := tag, status := status, addr := 0, data := [] }

/-- CW_READ (R342, R340). -/
def execCwRead (l : LinkNo) (s : State) : Host.Outcome State Fault Refusal :=
  let l := l.val
  match s.cwHead l 2 with
  | none => done s
  | some m =>
    if !cwMsgOk m || decide (m.flags ≠ 0) || decide (m.length = 0) || decide (4096 < m.length) || decide (m.status ≠ 0) ||
        decide (2 ^ 57 ≤ m.addr) then
      done ((s.cwPop l).cwSend l (readError m.tag 0x01))
    else if 2 ^ 48 ≤ m.addr then done ((s.cwPop l).cwSend l (readError m.tag 0x05))
    else match s.vread (l / 4) (0x5000 + l) (s.inAsid l) m.addr m.length with
      | (s, .held) => done s
      | (s, .deny) => done ((s.cwPop l).cwSend l (readError m.tag 0x05))
      | (s, .ok d p) =>
        done ((readData m.tag (if p then 0x06 else 0) p (cut256 32 m.addr d)).foldl (fun s x => s.cwSend l x) (s.cwPop l))

/-- CW_READ_DATA (R340, R341): data for a burst's read; the last one completes it. An injection at detector 0x0A discards it. Data for a tag that is not outstanding is
discarded and counted late. -/
def execCwReadData (l : LinkNo) (s : State) : Host.Outcome State Fault Refusal :=
  let l := l.val
  match s.cwHead l 3 with
  | none => done s
  | some m =>
    let s := s.cwPop l
    match look (s.link l).tags m.tag with
    | none => done (s.cwLate l)
    | some (c, id) =>
      if (s.injAt 0x0A (linkUnit l) (fun _ => true)).isSome then done s
      else match s.burst c id with
      | none => done (s.cwLate l)
      | some b =>
        let b := { b with data := b.data ++ slice m.data 0 m.length, poison := b.poison || nbit m.flags 1 }
        let s := s.setBurst c b
        let bad := decide (m.status ≠ 0) && !nbit m.flags 1
        let s := if bad then s.setChan c ((s.chan c).failWith 0x22 b.isFlush (if b.isFlush then b.dst else b.src)) else s
        if nbit m.flags 0 then
          let s := s.setLink l { s.link l with tags := drop (s.link l).tags m.tag }
          if bad then done (s.failBurst c id 0x22 b.isFlush)
          else done (s.burstData c b (slice b.data 0 b.len) b.poison)
        else done s

/-- CW_ACK (R340): the acknowledgement of a WRITE; a burst with none outstanding completes. -/
def execCwAck (l : LinkNo) (s : State) : Host.Outcome State Fault Refusal :=
  let l := l.val
  match s.cwHead l 4 with
  | none => done s
  | some m =>
    let s := s.cwPop l
    match look (s.link l).tags m.tag with
    | none => done s
    | some (c, id) =>
      let s := s.setLink l { s.link l with tags := drop (s.link l).tags m.tag }
      match s.burst c id with
      | none => done s
      | some b =>
        if b.phase ≠ .acks then done s
        else
          let s := if m.status ≠ 0 then s.setChan c ((s.chan c).failWith 0x22 true b.dst) else s
          let b := { b with tags := b.tags.erase m.tag }
          done (if b.tags.isEmpty then s.endBurst c id else s.setBurst c b)

/-- A bell write (R343): SIGNAL of its amount, when the counter lies in the BELL_RANGE of the context's precinct. The
state, and whether it was well formed. -/
def State.cwBell (s : State) (q asid addr : Nat) : State × Bool :=
  let ref := nbits addr 15 0
  let n := nbits addr 39 16
  let (s, p) := s.asidPrec q asid
  let owned := refOk ref && decide (s.precOfBell (ref / 4096) (ref % 4096) = some p)
  if owned && decide (n ≠ 0) && decide (addr < 2 ^ 40) then (s.signal ref n (0x8000 + 21), true) else (s, false)

/-- CW_BELL (R343): messages are applied in order, so every earlier WRITE has been acknowledged. -/
def execCwBell (l : LinkNo) (s : State) : Host.Outcome State Fault Refusal :=
  let l := l.val
  match s.cwHead l 5 with
  | none => done s
  | some m =>
    let s := s.cwPop l
    if !cwMsgOk m || decide (m.flags ≠ 0) || decide (m.length ≠ 0) || decide (m.status ≠ 0) then done (s.cwAck l m.tag 0x01)
    else
      let (s, ok) := s.cwBell (l / 4) (s.inAsid l) m.addr
      done (if ok then s else s.cwAck l m.tag 0x01)

/-! ### Timeouts, narrowing and DOWN -/

/-- CW_READ_TIMEOUT (R341, Table 24.2): a read of a tag without its final READ_DATA. -/
def execCwReadTimeout (l : LinkNo) (tag : Nat) (s : State) : Host.Outcome State Fault Refusal :=
  let l := l.val
  match look (s.link l).tags tag with
  | none => done s
  | some (c, id) =>
    match s.burst c id with
    | some b =>
      if b.phase ≠ .read then done s
      else
        let x := s.link l
        let s := s.setLink l { x with tags := drop x.tags tag, expired := put x.expired tag () }
        let inj := (s.injAt 0x0A (linkUnit l) (fun _ => true)).isSome
        let s := if inj then s.injFire else s
        let s := s.recordErr 2 0x0A (precOr (s.precOfChan c)) (linkUnit l) 0 0 b.srcAsid inj
        done (s.failBurst c id 0x21 b.isFlush)
    | none => done s

/-- CW_TAG_RELEASE (R341): an expired tag becomes reusable. -/
def execCwTagRelease (l : LinkNo) (tag : Nat) (s : State) : Host.Outcome State Fault Refusal :=
  done (s.setLink l.val { s.link l.val with expired := drop (s.link l.val).expired tag })

/-- CW_LANE_FAILURE (R346): the half of the lanes without `lane` stays in use. -/
def execCwLaneFailure (l : LinkNo) (_lane : Fin 4) (s : State) : Host.Outcome State Fault Refusal :=
  done (s.narrow l.val false)

/-- CW_NARROWED (R346): the link is UP at half its width, or DOWN when no width trains. -/
def execCwNarrowed (l : LinkNo) (trained : Bool) (s : State) : Host.Outcome State Fault Refusal :=
  let l := l.val
  if s.linkState l ≠ 4 then done s
  else if trained then
    done ((s.setLink l { s.link l with width := (s.link l).width / 2 }).setLinkState l 3)
  else done (s.linkDown l)

/-- CW_LINK_DOWN (R347). -/
def execCwLinkDown (l : LinkNo) (s : State) : Host.Outcome State Fault Refusal :=
  done (if s.rpMode l.val then s else s.linkDown l.val)

/-! ### Root-port mode -/

/-- CW_RP_CFG_READ (R348): a configuration read at CW_RP_CFG_ADDR; all ones when it fails. -/
def execCwRpCfgRead (rq : Requester) (g : Qn) (answer : Option (BitVec 32)) (s : State) :
    Host.Outcome State Fault Refusal :=
  let g := g.val
  let a : Reg := ⟨.cwRpCfgAddr, g, 0⟩
  let v := match answer with | some x => x.toNat | none => 0xFFFF_FFFF
  if s.rpMode (4 * g) then
    let s := s.emit (.rpConfig g false (s.fget a F.cwRpCfgAddr_BDF) (s.fget a F.cwRpCfgAddr_DWORD) 0)
    done (s.emit (.regData rq (BitVec.ofNat 64 v)))
  else done (s.emit (.regData rq 0xFFFF_FFFF))

/-- CW_RP_CFG_WRITE (R348): a configuration write at CW_RP_CFG_ADDR. -/
def execCwRpCfgWrite (rq : Requester) (g : Qn) (v : BitVec 32) (s : State) : Host.Outcome State Fault Refusal :=
  let g := g.val
  let a : Reg := ⟨.cwRpCfgAddr, g, 0⟩
  if !rqKernel rq then done (s.refuse rq ⟨.cwRpCfgData, g, 0⟩)
  else if s.rpMode (4 * g) then
    done (s.emit (.rpConfig g true (s.fget a F.cwRpCfgAddr_BDF) (s.fget a F.cwRpCfgAddr_DWORD) v.toNat))
  else done s

/-- CW_RP_UPSTREAM_REQUEST (R348, R349): a translated request is refused; one in the bell window is a bell write or is
discarded; any other is translated under CW_GRP_RP_ASID. A held request waits. -/
def execCwRpUpstreamRequest (g : Qn) (r : RpRequest) (s : State) : Host.Outcome State Fault Refusal :=
  let g := g.val
  let asid := s.fget ⟨.cwGrpRpAsid, g, 0⟩ F.cwGrpRpAsid_ASID
  let win := s.fget ⟨.cwGrpBellBase, g, 0⟩ F.cwGrpBellBase_ADDR
  let req := 0x5000 + 4 * g
  if !s.rpMode (4 * g) || !s.fbit (grpStatusReg g) F.cwGrpStatus_DLL_ACTIVE then done s
  else if r.at_ then done (s.emit (.rpAnswer g none))
  else if win ≠ 0 ∧ r.addr / 4096 = win then
    match r.data with
    | some d =>
      if d.length = 8 ∧ r.addr % 8 = 0 then
        let (s, ok) := s.cwBell g asid (leNat d)
        done (if ok then s else s.cwLate (4 * g))
      else done (s.cwLate (4 * g))
    | none => done ((s.cwLate (4 * g)).emit (.rpAnswer g none))
  else match r.data with
    | some d =>
      let (s, _) := s.arrivalWrite g req asid r.addr d r.poison
      done s
    | none =>
      if 2 ^ 48 ≤ r.addr then done (s.emit (.rpAnswer g none))
      else match s.vread g req asid r.addr r.len with
        | (s, .held) => done s
        | (s, .deny) => done (s.emit (.rpAnswer g none))
        | (s, .ok d p) => done (s.emit (.rpAnswer g (if p then none else some d)))

/-- CW_RP_LINK_DOWN (R350). -/
def execCwRpLinkDown (g : Qn) (s : State) : Host.Outcome State Fault Refusal :=
  done (if s.rpMode (4 * g.val) && s.fbit (grpStatusReg g.val) F.cwGrpStatus_DLL_ACTIVE then s.rpDown g.val else s)

end Sys2Proof.Machine
end

