-- ==== Sys2Proof/Machine/Crypto.lean ====
section
/-!
DEFINITION. The ciphers, digests and checks that the spec names by their standards: SHA-256 (FIPS 180-4), AES, GCM, XTS (IEEE
1619), ChaCha20-Poly1305 (RFC 8439) and CRC-32C.
-/
namespace Sys2Proof.Machine

/-- 32-bit words. -/
abbrev W32 := BitVec 32

/-- The big-endian 32-bit words of a byte string. -/
def beWord (b : Bytes) (i : Nat) : W32 := BitVec.ofNat 32 (beAt b (4 * i) 4)

/-! ### SHA-256 -/

def shaK0 : List Nat :=
  [0x428a2f98, 0x71374491, 0xb5c0fbcf, 0xe9b5dba5, 0x3956c25b, 0x59f111f1, 0x923f82a4, 0xab1c5ed5,
   0xd807aa98, 0x12835b01, 0x243185be, 0x550c7dc3, 0x72be5d74, 0x80deb1fe, 0x9bdc06a7, 0xc19bf174,
   0xe49b69c1, 0xefbe4786, 0x0fc19dc6, 0x240ca1cc, 0x2de92c6f, 0x4a7484aa, 0x5cb0a9dc, 0x76f988da,
   0x983e5152, 0xa831c66d, 0xb00327c8, 0xbf597fc7, 0xc6e00bf3, 0xd5a79147, 0x06ca6351, 0x14292967]
def shaK1 : List Nat :=
  [0x27b70a85, 0x2e1b2138, 0x4d2c6dfc, 0x53380d13, 0x650a7354, 0x766a0abb, 0x81c2c92e, 0x92722c85,
   0xa2bfe8a1, 0xa81a664b, 0xc24b8b70, 0xc76c51a3, 0xd192e819, 0xd6990624, 0xf40e3585, 0x106aa070,
   0x19a4c116, 0x1e376c08, 0x2748774c, 0x34b0bcb5, 0x391c0cb3, 0x4ed8aa4a, 0x5b9cca4f, 0x682e6ff3,
   0x748f82ee, 0x78a5636f, 0x84c87814, 0x8cc70208, 0x90befffa, 0xa4506ceb, 0xbef9a3f7, 0xc67178f2]

/-- The initial hash value. -/
def shaInit : List W32 :=
  [0x6a09e667, 0xbb67ae85, 0x3c6ef372, 0xa54ff53a, 0x510e527f, 0x9b05688c, 0x1f83d9ab, 0x5be0cd19]

/-- The 64 words of the message schedule, newest first, from `n` more steps. -/
def shaExpand : Nat → List W32 → List W32
  | 0, ws => ws
  | n + 1, ws =>
    let w (i : Nat) : W32 := ws.getD (i - 1) 0
    let s0 := (w 15).rotateRight 7 ^^^ (w 15).rotateRight 18 ^^^ (w 15) >>> 3
    let s1 := (w 2).rotateRight 17 ^^^ (w 2).rotateRight 19 ^^^ (w 2) >>> 10
    shaExpand n ((w 16 + s0 + w 7 + s1) :: ws)

/-- One round with the sum of a round constant and a schedule word. -/
def shaRound (h : List W32) (kw : W32) : List W32 :=
  match h with
  | [a, b, c, d, e, f, g, hh] =>
    let s1 := e.rotateRight 6 ^^^ e.rotateRight 11 ^^^ e.rotateRight 25
    let t1 := hh + s1 + ((e &&& f) ^^^ (~~~e &&& g)) + kw
    let s0 := a.rotateRight 2 ^^^ a.rotateRight 13 ^^^ a.rotateRight 22
    let t2 := s0 + ((a &&& b) ^^^ (a &&& c) ^^^ (b &&& c))
    [t1 + t2, a, b, c, d + t1, e, f, g]
  | x => x

/-- One compression of a 64-byte block. -/
def shaBlock (h : List W32) (blk : Bytes) : List W32 :=
  let ws := (shaExpand 48 ((List.range 16).map (beWord blk)).reverse).reverse
  let kws := List.zipWith (fun k w => BitVec.ofNat 32 k + w) (shaK0 ++ shaK1) ws
  List.zipWith (· + ·) h (kws.foldl shaRound h)

/-- A string cut into blocks of `n` bytes. `fuel` bounds them. -/
def blocksOf (n : Nat) : Nat → Bytes → List Bytes
  | 0, _ => []
  | fuel + 1, b => if b.isEmpty then [] else b.take n :: blocksOf n fuel (b.drop n)

/-- Whole 64-byte blocks taken into a hash state. -/
def shaUpdate (h : List W32) (b : Bytes) : List W32 := (blocksOf 64 (b.length / 64 + 1) b).foldl shaBlock h

/-- The padding after `len` bytes in all, of which `tail` bytes are not yet taken. -/
def shaPad (tail : Bytes) (len : Nat) : Bytes :=
  let z := (64 - (tail.length + 9) % 64) % 64
  tail ++ [0x80#8] ++ List.replicate z 0#8 ++ beBytes 8 (8 * len)

/-- The bytes of a hash state. -/
def shaBytes (h : List W32) : Bytes := h.flatMap fun w => beBytes 4 w.toNat

/-- The digest of a message whose blocks before `tail` are already in `h`. -/
def shaFinal (h : List W32) (tail : Bytes) (len : Nat) : Bytes := shaBytes (shaUpdate h (shaPad tail len))

/-- The SHA-256 digest of a message. -/
def sha256 (b : Bytes) : Bytes := shaFinal shaInit b b.length

/-- HMAC-SHA-256 (PRESUMED: FIPS 198-1). -/
def hmac (key msg : Bytes) : Bytes :=
  let k := slice key 0 64
  let pad (b : Byte) : Bytes := k.map (· ^^^ b)
  sha256 (pad 0x5c#8 ++ sha256 (pad 0x36#8 ++ msg))

/-- One 256-bit block of the SP 800-108 counter-mode KDF (R566; PRESUMED: a 4-byte counter and length, both big-endian). -/
def kdf (secret label context : Bytes) : Bytes :=
  hmac secret (beBytes 4 1 ++ label ++ [0#8] ++ context ++ beBytes 4 256)

/-! ### AES -/

def sbox0 : List Nat :=
  [99, 124, 119, 123, 242, 107, 111, 197, 48, 1, 103, 43, 254, 215, 171, 118,
   202, 130, 201, 125, 250, 89, 71, 240, 173, 212, 162, 175, 156, 164, 114, 192,
   183, 253, 147, 38, 54, 63, 247, 204, 52, 165, 229, 241, 113, 216, 49, 21,
   4, 199, 35, 195, 24, 150, 5, 154, 7, 18, 128, 226, 235, 39, 178, 117]
def sbox1 : List Nat :=
  [9, 131, 44, 26, 27, 110, 90, 160, 82, 59, 214, 179, 41, 227, 47, 132,
   83, 209, 0, 237, 32, 252, 177, 91, 106, 203, 190, 57, 74, 76, 88, 207,
   208, 239, 170, 251, 67, 77, 51, 133, 69, 249, 2, 127, 80, 60, 159, 168,
   81, 163, 64, 143, 146, 157, 56, 245, 188, 182, 218, 33, 16, 255, 243, 210]
def sbox2 : List Nat :=
  [205, 12, 19, 236, 95, 151, 68, 23, 196, 167, 126, 61, 100, 93, 25, 115,
   96, 129, 79, 220, 34, 42, 144, 136, 70, 238, 184, 20, 222, 94, 11, 219,
   224, 50, 58, 10, 73, 6, 36, 92, 194, 211, 172, 98, 145, 149, 228, 121,
   231, 200, 55, 109, 141, 213, 78, 169, 108, 86, 244, 234, 101, 122, 174, 8]
def sbox3 : List Nat :=
  [186, 120, 37, 46, 28, 166, 180, 198, 232, 221, 116, 31, 75, 189, 139, 138,
   112, 62, 181, 102, 72, 3, 246, 14, 97, 53, 87, 185, 134, 193, 29, 158,
   225, 248, 152, 17, 105, 217, 142, 148, 155, 30, 135, 233, 206, 85, 40, 223,
   140, 161, 137, 13, 191, 230, 66, 104, 65, 153, 45, 15, 176, 84, 187, 22]

/-- The S-box, and its inverse. -/
def sbox (x : Byte) : Byte :=
  let t := match x.toNat / 64 with | 0 => sbox0 | 1 => sbox1 | 2 => sbox2 | _ => sbox3
  BitVec.ofNat 8 (t.getD (x.toNat % 64) 0)
def sboxInv (y : Byte) : Byte := BitVec.ofNat 8 ((sbox0 ++ sbox1 ++ sbox2 ++ sbox3).idxOf y.toNat)

/-- Multiplication by x in GF(2^8). -/
def xtime (b : Byte) : Byte := (b <<< 1) ^^^ (if b.msb then 0x1b#8 else 0#8)

/-- The product of a byte and a small constant of `n` bits. -/
def gmul : Nat → Nat → Byte → Byte
  | 0, _, _ => 0#8
  | n + 1, c, b => (if c % 2 = 1 then b else 0#8) ^^^ gmul n (c / 2) (xtime b)

/-- Bytes XORed, as long as the shorter. -/
def xorBytes (a b : Bytes) : Bytes := List.zipWith (· ^^^ ·) a b

/-- The expanded words of a key of `nk` words, newest first, from word `i`, with `n` more. -/
def keyExpand (nk : Nat) : Nat → Nat → Byte → List Bytes → List Bytes
  | 0, _, _, ws => ws
  | n + 1, i, rcon, ws =>
    let t := ws.headD []
    let old := ws.getD (nk - 1) []
    if i % nk = 0 then
      let r := xorBytes ((t.drop 1 ++ t.take 1).map sbox) [rcon, 0#8, 0#8, 0#8]
      keyExpand nk n (i + 1) (xtime rcon) (xorBytes old r :: ws)
    else if nk = 8 ∧ i % 8 = 4 then keyExpand nk n (i + 1) rcon (xorBytes old (t.map sbox) :: ws)
    else keyExpand nk n (i + 1) rcon (xorBytes old t :: ws)

/-- The round keys of a key of 16 or 32 bytes. -/
def roundKeys (key : Bytes) : List Bytes :=
  let nk := key.length / 4
  let ws := (keyExpand nk (4 * (nk + 7) - nk) nk 0x01#8 (blocksOf 4 8 key).reverse).reverse
  (List.range (nk + 7)).map fun r => ((ws.drop (4 * r)).take 4).flatMap id

/-- Bytes permuted by position. -/
def permute (p : Nat → Nat) (b : Bytes) : Bytes := (List.range 16).map fun i => b.getD (p i) 0#8

/-- Columns multiplied by a circulant row. -/
def mixWith (c0 c1 c2 c3 : Nat) (b : Bytes) : Bytes :=
  (List.range 16).map fun i =>
    let x (k : Nat) : Byte := b.getD (4 * (i / 4) + (i + k) % 4) 0#8
    gmul 4 c0 (x 0) ^^^ gmul 4 c1 (x 1) ^^^ gmul 4 c2 (x 2) ^^^ gmul 4 c3 (x 3)

/-- One block encrypted under round keys. -/
def aesRounds (b : Bytes) : List Bytes → Bytes
  | [] => b
  | [k] => xorBytes (permute (fun i => (i + 4 * (i % 4)) % 16) (b.map sbox)) k
  | k :: ks => aesRounds (xorBytes (mixWith 2 3 1 1 (permute (fun i => (i + 4 * (i % 4)) % 16) (b.map sbox))) k) ks

/-- AES of one block. -/
def aesEnc (rk : List Bytes) (b : Bytes) : Bytes := aesRounds (xorBytes b (rk.headD [])) (rk.drop 1)

/-- One block decrypted under reversed round keys. -/
def aesUnrounds (b : Bytes) : List Bytes → Bytes
  | [] => b
  | [k] => xorBytes ((permute (fun i => (i + 12 * (i % 4)) % 16) b).map sboxInv) k
  | k :: ks => aesUnrounds (mixWith 14 11 13 9 (xorBytes ((permute (fun i => (i + 12 * (i % 4)) % 16) b).map sboxInv) k)) ks

/-- Inverse AES of one block. -/
def aesDec (rk : List Bytes) (b : Bytes) : Bytes :=
  let ks := rk.reverse
  aesUnrounds (xorBytes b (ks.headD [])) (ks.drop 1)

/-! ### GCM -/

/-- The product of two blocks as numbers in GF(2^128), bit 127 being the first bit. -/
def ghashMul : Nat → Nat → Nat → Nat → Nat
  | 0, _, _, z => z
  | n + 1, x, v, z =>
    let z := if nbit x n then z ^^^ v else z
    ghashMul n x (if v % 2 = 1 then v / 2 ^^^ 0xE1000000000000000000000000000000 else v / 2) z

/-- GHASH over bytes padded to whole blocks. -/
def ghash (h y : Nat) (b : Bytes) : Nat :=
  (blocksOf 16 (b.length / 16 + 1) b).foldl (fun y x => ghashMul 128 (y ^^^ beNat (slice x 0 16)) h 0) y

/-- The hash key of a block cipher key. -/
def gcmH (rk : List Bytes) : Nat := beNat (aesEnc rk (List.replicate 16 0#8))

/-- Counter block `i` of a nonce. -/
def gcmCtr (nonce : Bytes) (i : Nat) : Bytes := nonce ++ beBytes 4 (i % 2 ^ 32)

/-- Bytes XORed with the key stream of GCM from data block `i`. -/
def gcmCrypt (rk : List Bytes) (nonce : Bytes) (i : Nat) (b : Bytes) : Bytes :=
  (blocksOf 16 (b.length / 16 + 1) b).zipIdx.flatMap fun x => xorBytes x.1 (aesEnc rk (gcmCtr nonce (2 + i + x.2)))

/-- The tag of a GHASH state over AAD and ciphertext of these lengths. -/
def gcmTag (rk : List Bytes) (nonce : Bytes) (y aadLen len : Nat) : Bytes :=
  let y := ghash (gcmH rk) y (beBytes 8 (8 * aadLen) ++ beBytes 8 (8 * len))
  xorBytes (beBytes 16 y) (aesEnc rk (gcmCtr nonce 1))

/-! ### ChaCha20-Poly1305 -/

/-- A quarter round on words `a b c d`. -/
def quarter (s : List W32) (a b c d : Nat) : List W32 :=
  let g (i : Nat) : W32 := s.getD i 0
  let x := g a + g b
  let w := (g d ^^^ x).rotateLeft 16
  let z := g c + w
  let y := (g b ^^^ z).rotateLeft 12
  let x := x + y
  let w := (w ^^^ x).rotateLeft 8
  let z := z + w
  let y := (y ^^^ z).rotateLeft 7
  (((s.set a x).set b y).set c z).set d w

/-- A column round and a diagonal round. -/
def doubleRound (s : List W32) : List W32 :=
  [(0, 4, 8, 12), (1, 5, 9, 13), (2, 6, 10, 14), (3, 7, 11, 15), (0, 5, 10, 15), (1, 6, 11, 12), (2, 7, 8, 13), (3, 4, 9, 14)].foldl
    (fun s q => quarter s q.1 q.2.1 q.2.2.1 q.2.2.2) s

/-- Block `i` of the ChaCha20 key stream. -/
def chachaBlock (key nonce : Bytes) (i : Nat) : Bytes :=
  let w (b : Bytes) (k : Nat) : W32 := BitVec.ofNat 32 (leAt b (4 * k) 4)
  let s : List W32 := [0x61707865, 0x3320646e, 0x79622d32, 0x6b206574] ++ (List.range 8).map (w key) ++
    [BitVec.ofNat 32 i] ++ (List.range 3).map (w nonce)
  (List.zipWith (· + ·) s ((List.range 10).foldl (fun s _ => doubleRound s) s)).flatMap fun x => leBytes 4 x.toNat

/-- Bytes XORed with the key stream from data block `i`. -/
def chachaCrypt (key nonce : Bytes) (i : Nat) (b : Bytes) : Bytes :=
  (blocksOf 64 (b.length / 64 + 1) b).zipIdx.flatMap fun x => xorBytes x.1 (chachaBlock key nonce (1 + i + x.2))

/-- The prime of Poly1305. -/
abbrev polyP : Nat := 2 ^ 130 - 5

/-- The r of a one-time key. -/
def polyR (k : Bytes) : Nat := leAt k 0 16 &&& 0x0ffffffc0ffffffc0ffffffc0fffffff

/-- Poly1305 over bytes padded with zeros to whole blocks. -/
def poly (r acc : Nat) (b : Bytes) : Nat :=
  (blocksOf 16 (b.length / 16 + 1) b).foldl (fun a x => (a + leNat (slice x 0 16) + 2 ^ 128) * r % polyP) acc

/-- The tag of a Poly1305 state over AAD and ciphertext of these lengths. -/
def polyTag (k : Bytes) (acc aadLen len : Nat) : Bytes :=
  let a := poly (polyR k) acc (leBytes 8 aadLen ++ leBytes 8 len)
  leBytes 16 (a + leAt k 16 16)

/-! ### AEAD by algorithm (Table 17.1) -/

/-- An AEAD algorithm: GCM or ChaCha20-Poly1305. -/
def isAead (algo : Nat) : Bool := decide (algo = 1) || decide (algo = 2) || decide (algo = 5)

/-- Bytes of an algorithm's key. -/
def keyBytes : Nat → Nat
  | 1 => 16 | 2 => 32 | 3 => 32 | 4 => 64 | 5 => 32
  | _ => 0

/-- The MAC state after more AAD or ciphertext, each padded to whole blocks. -/
def macUpdate (algo : Nat) (key nonce : Bytes) (y : Nat) (b : Bytes) : Nat :=
  if algo = 5 then poly (polyR (chachaBlock key nonce 0)) y b else ghash (gcmH (roundKeys key)) y b

/-- The tag of a finished MAC state. -/
def macTag (algo : Nat) (key nonce : Bytes) (y aadLen len : Nat) : Bytes :=
  if algo = 5 then polyTag (chachaBlock key nonce 0) y aadLen len else gcmTag (roundKeys key) nonce y aadLen len

/-- Bytes XORed with the key stream from byte `at_` of the message, a multiple of 64. -/
def streamXor (algo : Nat) (key nonce : Bytes) (at_ : Nat) (b : Bytes) : Bytes :=
  if algo = 5 then chachaCrypt key nonce (at_ / 64) b else gcmCrypt (roundKeys key) nonce (at_ / 16) b

/-- A whole message sealed: ciphertext and tag. -/
def aeadSeal (algo : Nat) (key nonce aad data : Bytes) : Bytes × Bytes :=
  let c := streamXor algo key nonce 0 data
  (c, macTag algo key nonce (macUpdate algo key nonce (macUpdate algo key nonce 0 aad) c) aad.length c.length)

/-- A whole message opened; none where its tag fails. -/
def aeadOpen (algo : Nat) (key nonce aad data tag : Bytes) : Option Bytes :=
  if macTag algo key nonce (macUpdate algo key nonce (macUpdate algo key nonce 0 aad) data) aad.length data.length = tag then
    some (streamXor algo key nonce 0 data)
  else none

/-! ### XTS -/

/-- Multiplication of a tweak by x in GF(2^128). -/
def xtsDouble (t : Nat) : Nat := if nbit t 127 then (2 * t) % 2 ^ 128 ^^^ 0x87 else 2 * t

/-- The blocks of a data unit under a tweak. -/
def xtsBlocks (f : Bytes → Bytes) : Nat → List Bytes → Bytes
  | _, [] => []
  | t, b :: bs =>
    let x := leBytes 16 t
    xorBytes (f (xorBytes b x)) x ++ xtsBlocks f (xtsDouble t) bs

/-- Data units of 2^`unit` bytes from number `n`, encrypted or decrypted (IEEE 1619). -/
def xts (dec : Bool) (key : Bytes) (unit n : Nat) (b : Bytes) : Bytes :=
  let k1 := roundKeys (key.take (key.length / 2))
  let k2 := roundKeys (key.drop (key.length / 2))
  (blocksOf (2 ^ unit) (b.length / 2 ^ unit + 1) b).zipIdx.flatMap fun x =>
    let t := leNat (aesEnc k2 (leBytes 16 (n + x.2)))
    xtsBlocks (if dec then aesDec k1 else aesEnc k1) t (blocksOf 16 (x.1.length / 16 + 1) x.1)

/-! ### CRC-32C -/

/-- One byte into a reflected CRC register. -/
def crcBits : Nat → Nat → Nat
  | 0, c => c
  | n + 1, c => crcBits n (if c % 2 = 1 then c / 2 ^^^ 0x82F63B78 else c / 2)

/-- The CRC-32C of bytes. -/
def crc32c (b : Bytes) : Nat := (b.foldl (fun c x => crcBits 8 (c ^^^ x.toNat)) 0xFFFF_FFFF) ^^^ 0xFFFF_FFFF

end Sys2Proof.Machine
end

