-- ==== Sys2Proof/Machine/Cashbox.lean ====
section
/-!
DEFINITION. The Cashbox stalls: keys, nonces, contexts and their tasks (R411–R429).
-/
namespace Sys2Proof.Machine

/-! ### Keys, contexts and nonces -/

/-- Entry `n` of the key table. -/
def State.keyEnt (s : State) (n : Nat) : KeyEnt := lookD {} s.cash.keys n
def State.setKeyEnt (s : State) (n : Nat) (k : KeyEnt) : State :=
  { s with cash := { s.cash with keys := putD {} s.cash.keys n k } }

/-- Context record `n`. -/
def State.ctxRec (s : State) (n : Nat) : CashCtx := lookD {} s.cash.ctxs n
def State.setCtxRec (s : State) (n : Nat) (c : CashCtx) : State :=
  { s with cash := { s.cash with ctxs := putD {} s.cash.ctxs n c } }

/-- The entry that a key handle of an instance names (R412, R413). -/
def State.keyOf (s : State) (inst h : Nat) : Option KeyEnt :=
  let k := s.keyEnt (h % 2 ^ 16)
  if h < 2 ^ 28 ∧ k.used ∧ k.gen = h / 2 ^ 16 ∧ k.owner = inst then some k else none

/-- The record that a context handle names, with its number. -/
def State.ctxOf (s : State) (h : Nat) : Option (Nat × CashCtx) :=
  let n := h % 2 ^ 20
  let c := s.ctxRec n
  if c.state ≠ 0 ∧ c.gen = h / 2 ^ 20 then some (n, c) else none

/-- PREFIX and BOOT_EPOCH of a stall. -/
def State.noncePrefix (s : State) (st : Nat) : Nat := s.fget ⟨.cashboxNonceId, st, 0⟩ F.cashboxNonceId_PREFIX
def State.bootEpoch (s : State) (st : Nat) : Nat := s.fget ⟨.cashboxNonceId, st, 0⟩ F.cashboxNonceId_BOOT_EPOCH

/-- The nonce of a counter value (R415). -/
def State.nonceAt (s : State) (st v : Nat) : Bytes := beBytes 4 (s.noncePrefix st) ++ beBytes 2 (s.bootEpoch st) ++ beBytes 6 v

/-- A context reserves a nonce block (R414); none where KEY_NEXT is used up. -/
def State.reserveBlock (s : State) (n : Nat) : Option State :=
  let c := s.ctxRec n
  let e := c.key % 2 ^ 16
  let k := s.keyEnt e
  if 2 ^ 48 < k.next + 2 ^ 16 then none
  else some ((s.setKeyEnt e { k with next := k.next + 2 ^ 16 }).setCtxRec n { c with nonceNext := k.next, left := 2 ^ 16 })

/-- A context draws a nonce (R414–R416): the nonce, and whether a block was reserved. -/
def State.drawNonce (s : State) (st n : Nat) : Option (State × Bytes × Bool) :=
  if s.bootEpoch st = 0xFFFF then none
  else
    let fresh := decide ((s.ctxRec n).left = 0)
    match (if fresh then s.reserveBlock n else some s) with
    | none => none
    | some s =>
      let c := s.ctxRec n
      some (s.setCtxRec n { c with nonceNext := c.nonceNext + 1, left := c.left - 1 }, s.nonceAt st c.nonceNext, fresh)

/-! ### The descriptor (Table 17.5) -/

def kFlag (d : Bytes) (i : Nat) : Bool := nbit (leAt d 1 1) i
def kFirst (d : Bytes) : Bool := kFlag d 0
def kLast (d : Bytes) : Bool := kFlag d 1
def kIn (d : Bytes) : Bool := kFlag d 2
def kOut (d : Bytes) : Bool := kFlag d 3
def kCtx (d : Bytes) : Nat := leAt d 0x18 4
def kLen (d : Bytes) : Nat := leAt d 0x40 8
def kAad (d : Bytes) : Nat := leAt d 0x48 4

/-- An XTS algorithm. -/
def isXts (algo : Nat) : Bool := decide (algo = 3) || decide (algo = 4)

/-- The largest AEAD message. -/
abbrev aeadMax : Nat := 2 ^ 36 - 32

/-- A Cashbox descriptor is well formed (R429). A handle that names no context is one of no precinct of the stall. -/
def cashOk (st : Nat) (s : State) (d : Bytes) : Bool :=
  let op := tOp d
  decide (leAt d 1 1 < 16) && tZero d 2 4 && tZero d 0x1C 4 && tZero d 0x4C 4 && tZero d 0x60 32 && decide (kLen d ≤ aeadMax) &&
  (!(kIn d || decide (5 ≤ op)) || tZero d 0x20 8) && (!(kIn d || decide (kAad d = 0)) || tZero d 0x28 8) &&
  (!(kOut d || decide (op = 3) || decide (op = 4)) || tZero d 0x30 8) && (kFirst d || decide (kAad d = 0)) &&
  (decide (5 ≤ op) || kLast d || decide (kLen d % 64 = 0)) &&
  match s.ctxOf (kCtx d) with
  | none => false
  | some (_, c) =>
    decide (some c.prec = s.precOfStall st) &&
    (if isXts c.algo && decide (op ≤ 2) then decide (kLen d % 2 ^ c.unitLog2 = 0) else tZero d 0x50 16)

/-! ### Tasks -/

/-- The state changed. -/
def change (f : State → State) : TaskM Unit := ExceptT.mk fun s => (.ok (), f s)

/-- `n` events of a slot, for the task at the head of a stall. -/
def note (st slot n : Nat) (d : Bytes) : TaskM Unit :=
  change fun s => s.stallEvent st slot n ((s.tasks st).headD { index := 0, desc := [] }).index (tAsid d)

/-- Bytes of the message or of its AAD and record, from memory or from a Street port; none of length 0 is read. -/
def cashRead (st : Nat) (d : Bytes) (stream : Bool) (port va o n : Nat) : TaskM Bytes :=
  if n = 0 then pure []
  else if stream then do
    let b ← readStream st port (o + n)
    pure (slice b o n)
  else readOk st (tAsid d) va n

/-- The context of a task, made active in its stall (R417). -/
def takeCtx (st : Nat) (d : Bytes) : TaskM (Nat × CashCtx) := do
  let s ← theState
  match s.ctxOf (kCtx d) with
  | none => throw (.fail 0x01)
  | some (n, c) =>
    if c.active = some st then pure (n, c)
    else
      note st 10 1 d
      let c := { c with active := some st }
      change fun s => s.setCtxRec n c
      pure (n, c)

/-- The context stored. -/
def putCtx (n : Nat) (c : CashCtx) : TaskM Unit := change fun s => s.setCtxRec n c

/-- A compare mismatch (R427): the context is POISONED, the fault is counted and recorded, and at the limit the stall is
fenced. -/
def State.cipherFault (s : State) (st n : Nat) (inj : Bool) : State :=
  let c := s.ctxRec n
  let r : Reg := ⟨.cashboxCheck, st, 0⟩
  let s := (s.setCtxRec n { c with state := 3 }).fsat r F.cashboxCheck_FAULTS 1
  let s := s.recordErr 2 0x0D c.prec st 0 0 0 inj
  if s.fget r F.cashboxCheck_FAULTS = s.fget r F.cashboxCheck_LIMIT then s.report 3 0x0D c.prec st 0 0 0 inj else s

/-- The comparison of R426, which a real mismatch or an injected one fails. -/
def compare (st n : Nat) (d : Bytes) (mismatch : Bool) : TaskM Unit := do
  let s ← theState
  let hit := (s.injAt 0x0D st (fun _ => true)).isSome
  if hit || mismatch then
    note st 8 1 d
    change fun s => (if hit then s.injFire else s).cipherFault st n hit
    throw (.fail 0x0B)
  else pure ()

/-- The checks every message task makes (R413, R421, R427): not POISONED, an algorithm of its kind, FIRST where no message is
in progress, a valid key. The key, or none for SHA-256. -/
def cashChecks (d : Bytes) (c : CashCtx) (algoOk : Bool) : TaskM Bytes := do
  if c.state = 3 then throw (.fail 0x54)
  else if !algoOk then throw (.fail 0x02)
  else if kFirst d = decide (c.state = 2) then throw (.fail 0x02)
  else if c.algo = 6 then pure []
  else
    let s ← theState
    match s.keyOf c.inst c.key with
    | some k => pure k.key
    | none => throw (.fail 0x52)

/-- The state of a message after a segment: MID, or READY after LAST. -/
def nextState (d : Bytes) : Nat := if kLast d then 1 else 2

/-- The nonce-and-tag record (R421). -/
def tagRecord (nonce tag : Bytes) : Bytes := nonce ++ leBytes 4 0 ++ tag

/-- ENCRYPT (R421, R425). -/
def encryptBody (st : Nat) (mismatch : Bool) (d : Bytes) : TaskM Calc := do
  let (n, c) ← takeCtx st d
  let key ← cashChecks d c (c.algo ≠ 6)
  let data ← cashRead st d (kIn d) 0 (leAt d 0x20 8) 0 (kLen d)
  if isXts c.algo then
    compare st n d mismatch
    putCtx n { c with state := nextState d, verified := false }
    note st 6 (kLen d) d
    let r := xts false key c.unitLog2 (leAt d 0x50 16) data
    pure { outs := if kOut d then [] else [r], streams := if kOut d then [r] else [] }
  else
    let aad ← cashRead st d (kIn d) 1 (leAt d 0x28 8) 0 (kAad d)
    if aeadMax < (if kFirst d then 0 else c.msg.data) + kLen d then throw (.fail 0x02)
    let nonce ← if kFirst d then do
        let s ← theState
        match s.drawNonce st n with
        | none => throw (.fail 0x51)
        | some (s', v, block) =>
          change fun _ => s'
          if block then note st 9 1 d
          pure v
      else pure c.msg.nonce
    compare st n d mismatch
    let m : MsgSt := if kFirst d then
        { nonce := nonce, mac := macUpdate c.algo key nonce 0 aad, aad := kAad d } else c.msg
    let r := streamXor c.algo key nonce m.data data
    let m := { m with mac := macUpdate c.algo key nonce m.mac r, data := m.data + kLen d }
    change fun s => s.setCtxRec n { s.ctxRec n with state := nextState d, verified := false, msg := if kLast d then {} else m }
    note st 6 (kLen d + kAad d) d
    let rec32 := if kLast d then [tagRecord nonce (macTag c.algo key nonce m.mac m.aad m.data)] else []
    pure { outs := if kOut d then [] else r :: rec32, streams := if kOut d then r :: rec32 else [] }

/-- The nonce and tag that a DECRYPT or VERIFY is given: from memory, or after the AAD on input port 1. -/
def readRecord (st : Nat) (d : Bytes) : TaskM (Bytes × Bytes) := do
  let b ← cashRead st d (kIn d) 1 (leAt d 0x38 8) (kAad d) 32
  pure (slice b 0 12, slice b 16 16)

/-- The message state that a DECRYPT or VERIFY segment continues. -/
def openMsg (c : CashCtx) (d key nonce aad : Bytes) : MsgSt :=
  if kFirst d then { nonce := nonce, mac := macUpdate c.algo key nonce 0 aad, aad := kAad d } else c.msg

/-- The message state after a segment of ciphertext. -/
def MsgSt.take (m : MsgSt) (algo : Nat) (key data : Bytes) (len : Nat) : MsgSt :=
  { m with mac := macUpdate algo key m.nonce m.mac data, data := m.data + len }

/-- DECRYPT (R422–R425). -/
def decryptBody (st : Nat) (mismatch : Bool) (d : Bytes) : TaskM Calc := do
  let (n, c) ← takeCtx st d
  let key ← cashChecks d c (c.algo ≠ 6)
  let data ← cashRead st d (kIn d) 0 (leAt d 0x20 8) 0 (kLen d)
  let out (r : Bytes) (status : Nat) : Calc :=
    { outs := if kOut d then [] else [r], streams := if kOut d then [r] else [], status := status }
  if isXts c.algo then
    compare st n d mismatch
    putCtx n { c with state := nextState d, verified := c.verified && !kLast d }
    note st 6 (kLen d) d
    pure (out (xts true key c.unitLog2 (leAt d 0x50 16) data) 0)
  else
    let aad ← cashRead st d (kIn d) 1 (leAt d 0x28 8) 0 (kAad d)
    let (nonce, tag) ← if kFirst d then readRecord st d else pure (c.msg.nonce, c.vTag)
    let m0 := openMsg c d key nonce aad
    let total := m0.data + kLen d
    let held := kFirst d && kLast d && decide (kLen d ≤ 65536)
    let verified := c.verified && decide (nonce = c.vNonce) && decide (tag = c.vTag) && decide (m0.aad = c.vAad) &&
      (if kLast d then decide (total = c.vData) else decide (total ≤ c.vData))
    if !held && !verified then
      putCtx n { c with state := if kFirst d then c.state else nextState d, verified := c.verified && !kLast d }
      throw (.fail 0x50)
    else
      compare st n d mismatch
      let m := m0.take c.algo key data (kLen d)
      let good := !kLast d || decide (macTag c.algo key nonce m.mac m.aad m.data = tag)
      putCtx n { c with state := nextState d, verified := c.verified && !kLast d, msg := if kLast d then {} else m }
      note st 6 (kLen d + kAad d) d
      let r := streamXor c.algo key nonce m0.data data
      if good then pure (out r 0)
      else
        note st 7 1 d
        if held then throw (.fail 0x0A) else pure (out r 0x0A)

/-- VERIFY (R423). Its streamed result has 8 bytes that the spec does not define. -/
def verifyBody (st : Nat) (mismatch : Bool) (d : Bytes) : TaskM Calc := do
  let (n, c) ← takeCtx st d
  let key ← cashChecks d c (isAead c.algo)
  let data ← cashRead st d (kIn d) 0 (leAt d 0x20 8) 0 (kLen d)
  let aad ← cashRead st d (kIn d) 1 (leAt d 0x28 8) 0 (kAad d)
  let (rn, tag) ← if kFirst d || kLast d then readRecord st d else pure ([], [])
  let nonce := if kFirst d then rn else c.msg.nonce
  compare st n d mismatch
  let m := (openMsg c d key nonce aad).take c.algo key data (kLen d)
  note st 6 (kLen d + kAad d) d
  let f ← takeFresh (if kOut d then 8 else 0)
  let res : Calc := { streams := if kOut d then [(List.range 8).map fun i => Config.freeByte (f + i)] else [] }
  if !kLast d then
    putCtx n { c with state := 2, msg := m }
    pure res
  else if macTag c.algo key nonce m.mac m.aad m.data = tag then
    putCtx n { c with
      state := 1, verified := true, vNonce := nonce, vTag := tag, vAad := m.aad, vData := m.data, msg := {} }
    pure res
  else
    putCtx n { c with state := 1, verified := false, msg := {} }
    note st 7 1 d
    throw (.fail 0x0A)

/-- DIGEST (R421). -/
def digestBody (st : Nat) (mismatch : Bool) (d : Bytes) : TaskM Calc := do
  let (n, c) ← takeCtx st d
  let _ ← cashChecks d c (c.algo = 6)
  let data ← cashRead st d (kIn d) 0 (leAt d 0x20 8) 0 (kLen d)
  compare st n d mismatch
  let h := if kFirst d then shaInit else c.msg.sha.map (BitVec.ofNat 32)
  let len := (if kFirst d then 0 else c.msg.data) + kLen d
  note st 6 (kLen d) d
  if kLast d then
    let whole := kLen d / 64 * 64
    let dig := shaFinal (shaUpdate h (data.take whole)) (data.drop whole) len
    putCtx n { c with state := 1, msg := {} }
    pure { outs := if kOut d then [] else [dig], streams := if kOut d then [dig] else [] }
  else
    putCtx n { c with state := 2, msg := { sha := (shaUpdate h data).map (·.toNat), data := len } }
    pure {}

/-! ### Wrapped contexts (R419, R420) -/

/-- The 48 bytes of a state area, laid out by the model. -/
def MsgSt.bytes (m : MsgSt) : Bytes :=
  if m.sha.isEmpty then slice m.nonce 0 12 ++ leBytes 17 m.mac ++ leBytes 4 m.aad ++ leBytes 8 m.data ++ leBytes 7 0
  else m.sha.flatMap (leBytes 4) ++ leBytes 8 m.data ++ leBytes 8 0

def MsgSt.of (algo : Nat) (b : Bytes) : MsgSt :=
  if algo = 6 then { sha := (List.range 8).map fun i => leAt b (4 * i) 4, data := leAt b 32 8 }
  else { nonce := slice b 0 12, mac := leAt b 12 17, aad := leAt b 29 4, data := leAt b 33 8 }

/-- The 128 bytes of a context record (Table 17.2). -/
def CashCtx.bytes (c : CashCtx) : Bytes :=
  leBytes 1 c.algo ++ leBytes 1 c.state ++ leBytes 1 c.prec ++ leBytes 1 (b2n c.verified) ++ leBytes 4 c.key ++
  leBytes 2 c.inst ++ leBytes 1 c.unitLog2 ++ leBytes 5 0 ++ leBytes 8 c.nonceNext ++ leBytes 16 c.tweak ++
  slice c.vNonce 0 12 ++ leBytes 4 0 ++ slice c.vTag 0 16 ++ leBytes 4 c.vAad ++ leBytes 4 c.vData ++ c.msg.bytes

/-- A record read back over the context it came from, without its nonce block. -/
def CashCtx.restore (c : CashCtx) (b : Bytes) : CashCtx :=
  { c with
    algo := leAt b 0 1, state := leAt b 1 1, verified := false, key := leAt b 4 4, unitLog2 := leAt b 0x0A 1,
    tweak := leAt b 0x18 16, vNonce := slice b 0x28 12, vTag := slice b 0x38 16, vAad := leAt b 0x48 4,
    vData := leAt b 0x4C 4, msg := if leAt b 1 1 = 2 then MsgSt.of (leAt b 0 1) (slice b 0x50 48) else {} }

/-- DEVICE_SECRET; DECOMMISSION leaves all ones (R580). -/
def State.deviceSecret (s : State) : Bytes :=
  if s.sec.fuses.decommissioned then List.replicate 32 0xFF#8 else leBytes 32 Config.deviceSecret

/-- The wrapping key of an instance (Table 25.2). -/
def State.wrapKey (s : State) (func salt : Nat) : Bytes :=
  kdf s.deviceSecret [0x57#8, 0x52#8, 0x41#8, 0x50#8] (leBytes 2 func ++ leBytes 16 salt)

/-- SAVE_WRAPPED (R419). -/
def saveBody (st : Nat) (d : Bytes) : TaskM Calc := do
  let (_, c) ← takeCtx st d
  let s ← theState
  if c.state = 3 then throw (.fail 0x54)
  else match look s.cash.wrap c.inst with
    | none => throw (.fail 0x52)
    | some (salt, next) =>
      if s.bootEpoch st = 0xFFFF ∨ 2 ^ 48 ≤ next then throw (.fail 0x51)
      else
        let nonce := s.nonceAt st next
        let head := leBytes 4 0x5850_4143 ++ leBytes 2 0x0100 ++ leBytes 2 c.inst ++ leBytes 4 (kCtx d) ++ leBytes 4 0 ++
          nonce ++ leBytes 4 0
        let (body, tag) := aeadSeal 2 (s.wrapKey c.inst salt) nonce head c.bytes
        change fun s => { s with cash := { s.cash with wrap := put s.cash.wrap c.inst (salt, next + 1) } }
        pure { outs := [head ++ body ++ tag] }

/-- RESTORE_WRAPPED (R420). A stall takes the context from any other before it runs, so none holds it active. -/
def restoreBody (st : Nat) (d : Bytes) : TaskM Calc := do
  let (n, c) ← takeCtx st d
  let w ← readOk st (tAsid d) (leAt d 0x38 8) 176
  let s ← theState
  match look s.cash.wrap c.inst with
  | none => throw (.fail 0x53)
  | some (salt, _) =>
    match aeadOpen 2 (s.wrapKey c.inst salt) (slice w 0x10 12) (slice w 0 32) (slice w 0x20 128) (slice w 0xA0 16) with
    | none => throw (.fail 0x53)
    | some body =>
      if leAt w 6 2 ≠ c.inst ∨ leAt w 8 4 ≠ kCtx d ∨ leAt w 0 4 ≠ 0x5850_4143 ∨ leAt w 4 2 ≠ 0x0100 then throw (.fail 0x53)
      else
        let c' := c.restore body
        if !isAead c'.algo then
          putCtx n c'
          pure {}
        else match s.keyOf c'.inst c'.key with
          | none => throw (.fail 0x52)
          | some _ =>
            match (s.setCtxRec n c').reserveBlock n with
            | none => throw (.fail 0x51)
            | some s' =>
              change fun _ => s'
              note st 9 1 d
              pure {}

/-- CTX_RESET (R427). -/
def resetBody (st : Nat) (d : Bytes) : TaskM Calc := do
  let (n, c) ← takeCtx st d
  putCtx n { c with state := 1, verified := false, msg := {} }
  pure {}

/-- What a Cashbox task writes: with `main`, LENGTH result bytes at DST_ADDR, and `tail` bytes at TAG_ADDR. Only an access fault or
poisoned input poisons them (Table 17.6). -/
def cashOp (main : Bool) (tail : Bytes → Nat) (needRec : Bool) (body : Bytes → TaskM Calc) (_ : State) (d : Bytes) : TaskOp :=
  let port1 := kIn d && (decide (kAad d ≠ 0) || (needRec && kFirst d))
  { outs := (if kOut d ∨ !main then [] else [(leAt d 0x30 8, kLen d)]) ++
      (if kOut d ∨ tail d = 0 then [] else [(leAt d 0x38 8, tail d)]),
    inPorts := (if kIn d ∧ kLen d ≠ 0 then [0] else []) ++ (if port1 then [1] else []),
    outPorts := if kOut d then (if main then [0] else []) ++ (if tail d = 0 then [] else [1]) else [],
    poisons := fun s => decide (s = 0x05) || decide (s = 0x06), body := body d }

/-- Bytes of the record that a task writes at LAST. -/
def lastTag (d : Bytes) : Nat := if kLast d then 32 else 0

/-- CASHBOX_ENCRYPT (R421). -/
def execCashboxEncrypt (st : StallNo) (mismatch : Bool) (s : State) : Host.Outcome State Fault Refusal :=
  let isx (d : Bytes) : Bool := match s.ctxOf (kCtx d) with | some (_, c) => isXts c.algo | none => false
  done (s.taskStep st.val 6 1 7 (cashOk st.val)
    (cashOp true (fun d => if isx d then 0 else lastTag d) false (encryptBody st.val mismatch)))

/-- CASHBOX_DECRYPT (R422). -/
def execCashboxDecrypt (st : StallNo) (mismatch : Bool) (s : State) : Host.Outcome State Fault Refusal :=
  done (s.taskStep st.val 6 2 7 (cashOk st.val) (cashOp true (fun _ => 0) true (decryptBody st.val mismatch)))

/-- CASHBOX_VERIFY (R423). -/
def execCashboxVerify (st : StallNo) (mismatch : Bool) (s : State) : Host.Outcome State Fault Refusal :=
  done (s.taskStep st.val 6 3 7 (cashOk st.val)
    (cashOp false (fun d => if kOut d then 8 else 0) true (verifyBody st.val mismatch)))

/-- CASHBOX_DIGEST (R421). -/
def execCashboxDigest (st : StallNo) (mismatch : Bool) (s : State) : Host.Outcome State Fault Refusal :=
  done (s.taskStep st.val 6 4 7 (cashOk st.val) (cashOp false lastTag false (digestBody st.val mismatch)))

/-- CASHBOX_SAVE_WRAPPED (R419). -/
def execCashboxSaveWrapped (st : StallNo) (s : State) : Host.Outcome State Fault Refusal :=
  done (s.taskStep st.val 6 5 7 (cashOk st.val)
    (fun s d => { cashOp false (fun _ => 0) false (saveBody st.val) s d with outs := [(leAt d 0x38 8, 176)] }))

/-- CASHBOX_RESTORE_WRAPPED (R420). -/
def execCashboxRestoreWrapped (st : StallNo) (s : State) : Host.Outcome State Fault Refusal :=
  done (s.taskStep st.val 6 6 7 (cashOk st.val) (cashOp false (fun _ => 0) false (restoreBody st.val)))

/-- CASHBOX_CTX_RESET (R427). -/
def execCashboxCtxReset (st : StallNo) (s : State) : Host.Outcome State Fault Refusal :=
  done (s.taskStep st.val 6 7 7 (cashOk st.val) (cashOp false (fun _ => 0) false (resetBody st.val)))

end Sys2Proof.Machine
end

