-- ==== Sys2Proof/Machine/Engine.lean ====
section
/-!
DEFINITION. What the network and storage stalls share: reads and writes of instance memory, with a Porter channel of the precinct
for host and accelerator pages (R41, R265); MSI-X messages; and doorbell rings.
-/
namespace Sys2Proof.Machine

/-! ### Reads and writes of instance memory -/

/-- Why an access stops. -/
inductive IoStop where
  /-- The Surveyor holds it, or no channel or answer is at hand. -/
  | held
  /-- It cannot be made: a Surveyor fault, or a host or link that does not answer. -/
  | fault
  deriving DecidableEq, Repr

/-- The state, and the answers of far memory that are left. -/
structure IoSt where
  s : State
  far : List FarAns

/-- Accesses of a command, in order. -/
abbrev IoM := ExceptT IoStop (StateM IoSt)

/-- The state as the accesses see it, and it changed. -/
def ioGet : IoM State := ExceptT.mk fun x => (.ok x.s, x)
def ioSet (f : State → State) : IoM Unit := ExceptT.mk fun x => (.ok (), { x with s := f x.s })

/-- The next answer of far memory. -/
def ioFar : IoM (Bytes × Bool) := ExceptT.mk fun x =>
  match x.far with
  | [] => (.error .held, x)
  | none :: r => (.error .fault, { x with far := r })
  | some a :: r => (.ok a, { x with far := r })

/-- Accesses run from a state: the state after them and how they ended. -/
def IoM.at {α : Type} (m : IoM α) (s : State) (far : List FarAns) : State × Except IoStop α :=
  let (r, x) := m.run.run { s := s, far := far }
  (x.s, r)

/-- As `IoM.at`, with the answers that are left. -/
def IoM.atF {α : Type} (m : IoM α) (s : State) (far : List FarAns) : State × List FarAns × Except IoStop α :=
  let (r, x) := m.run.run { s := s, far := far }
  (x.s, x.far, r)

/-- The Porter channel that a unit of Quarter `q` arms for a precinct: the lowest of its own Quarter, else the lowest. -/
def State.armed' (s : State) (p q : Nat) : Option Nat :=
  match s.precinct p with
  | none => none
  | some r =>
    let cs := (List.range 256).filter fun c => r.hasChan c && !s.qFenced (c / 64)
    match cs.find? (fun c => c / 64 = q) with
    | some c => some c
    | none => cs.head?

/-- One page's translation: by the unit itself, or by the armed channel for a host or accelerator page. -/
def ioTranslate (q req asid va : Nat) (write : Bool) : IoM (Nat × Nat × Nat × Nat) := do
  let s ← ioGet
  match s.translate q ⟨req, asid, va, write⟩ with
  | (s', .held) =>
    ioSet fun _ => s'
    throw .held
  | (s', .deny) =>
    ioSet fun _ => s'
    throw .fault
  | (s', .ok tgt pa link) =>
    ioSet fun _ => s'
    if tgt = 0 then pure (0, pa, link, req)
    else
      match s'.armed' (s'.asidPrec q asid).2 q with
      | none => throw .held
      | some c => pure (tgt, pa, link, chReq c)

/-- The host port of a page can be used. -/
def ioHost (h asid : Nat) : IoM Unit := do
  let s ← ioGet
  match s.hostUse h asid with
  | .ok => pure ()
  | .hold => throw .held
  | .fail _ => throw .fault

/-- A Causeway link can be used. -/
def ioLink (l : Nat) : IoM Unit := do
  let s ← ioGet
  if s.linkUsable l then pure () else throw .fault

/-- Bytes of one page. -/
def ioReadPage (q req asid va n : Nat) : IoM (Bytes × Bool) := do
  let (tgt, pa, link, rq) ← ioTranslate q req asid va false
  match tgt with
  | 0 =>
    let s ← ioGet
    let (s, d, p) := s.readMem (s.reqPrec rq) rq asid pa n
    ioSet fun _ => s
    pure (d, p)
  | 3 =>
    ioLink link
    let (d, p) ← ioFar
    pure (slice d 0 n, p)
  | t =>
    ioHost (t - 1) asid
    ioSet fun s => s.emit (.hostRead (t - 1) pa n 0)
    let (d, p) ← ioFar
    ioSet fun s => s.count (hostQ (t - 1)) 57 1 n
    pure (slice d 0 n, p)

/-- The burst number that a unit's own transfer carries in a link's tag table. -/
abbrev unitBurst : Nat := 2 ^ 32

/-- Bytes of one page written; a host is never sent poisoned bytes (R288). -/
def ioWritePage (q req asid va : Nat) (data : Bytes) (poison : Bool) : IoM Unit := do
  let (tgt, pa, link, rq) ← ioTranslate q req asid va true
  match tgt with
  | 0 =>
    let s ← ioGet
    let (s, bad) := s.writeMem (s.reqPrec rq) rq asid pa data poison
    ioSet fun _ => s
    if bad then throw .fault
  | 3 =>
    ioLink link
    ioSet fun s =>
      if s.rpMode link then (if poison then s else s.emit (.rpWrite (link / 4) pa data))
      else (cut256 20 pa data).foldl (fun s x =>
        match freeTag 4096 (s.link link).tags (s.link link).expired with
        | none => s
        | some t =>
          let s := s.setLink link { s.link link with tags := put (s.link link).tags t (rq % 256, unitBurst) }
          s.cwSend link { type := 1, flags := 2 * b2n poison, length := x.2.length, tag := t, status := 0, addr := x.1, data := x.2 }) s
  | t =>
    ioHost (t - 1) asid
    ioSet fun s => if poison then s else (s.count (hostQ (t - 1)) 57 0 data.length).emit (.hostWrite (t - 1) pa data)

/-- `n` bytes of an address space, and whether they are poisoned. -/
def ioRead (q req asid va n : Nat) : IoM (Bytes × Bool) := do
  if 2 ^ 48 < va + n then throw .fault
  let parts ← (pages va n).mapM fun p => ioReadPage q req asid p.1 p.2
  pure (parts.flatMap (·.1), parts.any (·.2))

/-- Bytes of an address space written. -/
def ioWrite (q req asid va : Nat) (data : Bytes) (poison : Bool) : IoM Unit := do
  if 2 ^ 48 < va + data.length then throw .fault
  (pages va data.length).forM fun p => ioWritePage q req asid p.1 ((data.drop (p.1 - va)).take p.2) poison

/-- An access that may fail: none where it faults. -/
def ioTry {α : Type} (m : IoM α) : IoM (Option α) :=
  tryCatch (some <$> m) fun e => match e with
    | .fault => pure none
    | .held => throw .held

/-! ### MSI-X, low power and wake (R467, R468) -/

/-- The PF of a function. -/
def pfOf (f : Nat) : Nat := portOf f * 256

/-- The port's functions are paused in D1 or D3hot. -/
def State.lowPower (s : State) (f : Nat) : Bool :=
  let p := (s.func (pfOf f)).power
  decide (p = 1) || decide (p = 3)

/-- Fetch is paused on every ring: a removal is draining, granted or timed out (R597), or a class 5 error holds the device. -/
def State.removing (s : State) : Bool := decide (s.fget ⟨.pwrStatus, 0, 0⟩ F.pwrStatus_REMOVE ≠ 0) || s.err.held

/-- A live activation has paused fetch on the Kiosks and the Ledger queues (Table 21.4, step 4). -/
def State.fwPaused (s : State) : Bool := decide (2 ≤ s.fget ⟨.fwState, 0, 0⟩ F.fwState_PHASE)

/-- Fetch is paused on the rings of a function: a removal, or a low power state of its port (R467, R597). -/
def State.ringsPaused (s : State) (f : Nat) : Bool := s.removing || s.lowPower f

/-- A wake event of a function (R468, R469). -/
def State.wake (s : State) (f : Nat) : State :=
  let pf := pfOf f
  let x := s.func pf
  if !x.pmeEn then s
  else if s.lowPower f then (s.setFunc pf { x with pmeStatus := true }).emit (.pme pf)
  else if x.power = 4 then s.setPort (portOf f) { s.port (portOf f) with wake := true }
  else s

/-- An MSI-X message of a function: sent, held in a low power state, or kept pending while its vector is masked. A function
without MSI-X Enable or Bus Master Enable sends none. -/
def State.sendMsix (s : State) (f v : Nat) : State :=
  let x := s.func f
  let e := (look x.msix v).getD {}
  if (if f % 256 = 0 then 2048 else 64) ≤ v ∨ !x.msixEnable then s
  else if s.lowPower f then (s.setFunc f { x with heldIrq := x.heldIrq ++ [v] }).wake f
  else if e.masked then s.setFunc f { x with pba := if x.pba.contains v then x.pba else v :: x.pba }
  else if x.bme ∧ (s.port (portOf f)).linkUp then s.emit (.msix f v e.addr e.data)
  else s

/-! ### Doorbell rings -/

/-- A count whose low `lg` bits are a new ring index, at or after the present count. -/
def advanceTo (count lg index : Nat) : Nat := count + (index + 2 ^ lg - count % 2 ^ lg) % 2 ^ lg

/-- Ring `r`. -/
def State.ring (s : State) (r : Nat) : Option Ring := look s.eth.rings r
def State.setRing (s : State) (r : Nat) (x : Ring) : State := { s with eth := { s.eth with rings := put s.eth.rings r x } }

/-- The address of entry `n` of a ring of 16-byte entries at `base`. -/
def ringAt (base lg n : Nat) : Nat := base + n % 2 ^ lg * 16

/-- The PHASE of the entry written as the `n`-th: 1 on the first pass of the ring, inverted on each pass. -/
def phaseOf (lg n : Nat) : Bool := n / 2 ^ lg % 2 = 0

/-- A 16-byte completion: its first 8 bytes, then in a separate write the last 8, which hold PHASE. -/
def ioCompletion (q req asid va : Nat) (b : Bytes) : IoM Unit := do
  ioWrite q req asid va (b.take 8) false
  ioWrite q req asid (va + 8) (b.drop 8) false

/-- A completion written for a ring's next completion entry, and its interrupt. -/
def State.ringComplete (s : State) (q req r : Nat) (x : Ring) (b : Bytes) (far : List FarAns) : State × Bool :=
  match (ioCompletion q req x.asid (ringAt x.cpl x.log2 x.done) b).at s far with
  | (s, .error .held) => (s, false)
  | (s, _) => ((s.setRing r { x with done := x.done + 1 }).sendMsix x.func x.msix, true)

/-- The one stall of a kind in Quarter `q`. -/
def soleStall (q kind : Nat) : Nat := stallId q kind 0

end Sys2Proof.Machine
end

