-- ==== Sys2Proof/Machine/Frames.lean ====
section
/-!
DEFINITION. Ethernet frames: parsing, the canonical key and its hash, checksums, and building datagrams (R356–R360).
-/
namespace Sys2Proof.Machine

/-! ### Checksums -/

/-- The 16-bit ones' complement sum of bytes in network order. -/
def onesSum : Nat → Bytes → Nat
  | acc, [] => acc
  | acc, [a] => acc + a.toNat * 256
  | acc, a :: b :: r => onesSum (acc + a.toNat * 256 + b.toNat) r

/-- A sum folded to 16 bits. -/
def fold16 (n : Nat) : Nat := let n := n % 2 ^ 16 + n / 2 ^ 16; let n := n % 2 ^ 16 + n / 2 ^ 16; n % 2 ^ 16 + n / 2 ^ 16

/-- The Internet checksum of bytes; 0 over a part that holds its own correct checksum. -/
def inetSum (b : Bytes) : Nat := 0xFFFF - fold16 (onesSum 0 b)

/-- The FCS of a frame (IEEE 802.3 CRC-32), as 4 bytes. -/
def fcsOf (b : Bytes) : Bytes :=
  let step (c : Nat) : Nat := if c % 2 = 1 then c / 2 ^^^ 0xEDB88320 else c / 2
  let byte (c : Nat) (x : Byte) : Nat := (List.range 8).foldl (fun c _ => step c) (c ^^^ x.toNat)
  leBytes 4 (b.foldl byte 0xFFFF_FFFF ^^^ 0xFFFF_FFFF)

/-! ### Parsing (R356–R358) -/

/-- What a frame parses as: L2, or L3 and L4 with addresses and ports; where the L4 header and payload begin. -/
structure Parse where
  /-- KEY_TYPE of Table 14.2. -/
  keyType : Nat
  proto : Nat
  vlan : Nat
  dei : Bool
  src : Bytes
  dst : Bytes
  sport : Nat
  dport : Nat
  etype : Nat
  /-- Offset of the L4 header, 0 without one. -/
  l4 : Nat
  /-- Bytes from the L4 header to the end of the datagram. -/
  l4len : Nat
  /-- 0 none, 1 good, 2 bad. -/
  sum : Nat
  /-- Carter or RoCEv2. -/
  carter : Bool := false
  roce : Bool := false
  deriving DecidableEq, Repr

/-- Reasons of Table 14.6. -/
abbrev parseTrunc : Nat := 0x10
abbrev parseLength : Nat := 0x11
abbrev parseCsum : Nat := 0x12
abbrev parseExt : Nat := 0x13

/-- A header that ends at `e` lies within byte 256 and the frame. -/
def fits (n e : Nat) : Bool := decide (e ≤ n) && decide (e ≤ 256)

/-- The pseudo-header of an L4 checksum. -/
def pseudo (src dst : Bytes) (proto len : Nat) : Bytes := src ++ dst ++ beBytes 4 len ++ beBytes 4 proto

/-- The UDP or TCP part of a datagram. -/
def parseL4 (f : Bytes) (carterPort : Nat) (p : Parse) : Except Nat Parse :=
  let o := p.l4
  if p.proto = 17 then
    if !fits f.length (o + 8) then .error parseTrunc
    else
      let dp := beAt f (o + 2) 2
      let cs := beAt f (o + 6) 2
      let sum := if cs = 0 then 0 else if inetSum (pseudo p.src p.dst 17 p.l4len ++ slice f o p.l4len) = 0 then 1 else 2
      let p := { p with sport := beAt f o 2, dport := dp, sum := sum }
      if dp = carterPort then
        if fits f.length (o + 8 + 32) then .ok { p with carter := true } else .error parseTrunc
      else if dp = 4791 then
        if fits f.length (o + 8 + 12) then .ok { p with roce := true } else .error parseTrunc
      else .ok p
  else
    let hl := max 20 (beAt f (o + 12) 1 / 16 * 4)
    if !fits f.length (o + 20) || !fits f.length (o + hl) then .error parseTrunc
    else
      let sum := if inetSum (pseudo p.src p.dst 6 p.l4len ++ slice f o p.l4len) = 0 then 1 else 2
      .ok { p with sport := beAt f o 2, dport := beAt f (o + 2) 2, sum := sum }

/-- IPv4 at offset `o`. -/
def parse4 (f : Bytes) (carterPort o : Nat) (p : Parse) : Except Nat Parse :=
  let ihl := beAt f o 1 % 16
  let tot := beAt f (o + 2) 2
  if !fits f.length (o + 20) then .error parseTrunc
  else if ihl < 5 then .error parseLength
  else if !fits f.length (o + 4 * ihl) then .error parseTrunc
  else if f.length < o + tot then .error parseLength
  else if inetSum (slice f o (4 * ihl)) ≠ 0 then .error parseCsum
  else
    let p := { p with
      keyType := 1, proto := beAt f (o + 9) 1, src := slice f (o + 12) 4, dst := slice f (o + 16) 4,
      l4len := tot - 4 * ihl }
    let frag := beAt f (o + 6) 2 % 0x4000
    if frag ≠ 0 ∨ (p.proto ≠ 6 ∧ p.proto ≠ 17) then .ok p
    else parseL4 f carterPort { p with l4 := o + 4 * ihl }

/-- Extension header types of R356, and those that R358 refuses. -/
def extKnown (t : Nat) : Bool := [0, 43, 44, 60].contains t
def extOther (t : Nat) : Bool := [50, 51, 135, 139, 140, 253, 254].contains t

/-- The upper-layer type and offset after an extension chain, and whether a Fragment header was met. -/
def extChain (f : Bytes) : Nat → Nat → Nat → Except Nat (Nat × Nat × Bool)
  | 0, t, o => if extKnown t || extOther t then .error parseExt else .ok (t, o, false)
  | k + 1, t, o =>
    if extOther t then .error parseExt
    else if !extKnown t then .ok (t, o, false)
    else if !fits f.length (o + 8) then .error parseTrunc
    else if t = 44 then .ok (beAt f o 1, o + 8, true)
    else
      let e := o + 8 + beAt f (o + 1) 1 * 8
      if fits f.length e then extChain f k (beAt f o 1) e else .error parseTrunc

/-- IPv6 at offset `o`. -/
def parse6 (f : Bytes) (carterPort o : Nat) (p : Parse) : Except Nat Parse :=
  let plen := beAt f (o + 4) 2
  if !fits f.length (o + 40) then .error parseTrunc
  else if f.length < o + 40 + plen then .error parseLength
  else match extChain f 8 (beAt f (o + 6) 1) (o + 40) with
    | .error e => .error e
    | .ok (t, e, frag) =>
      let p := { p with
        keyType := 2, proto := t, src := slice f (o + 8) 16, dst := slice f (o + 24) 16, l4len := o + 40 + plen - e }
      if frag ∨ (t ≠ 6 ∧ t ≠ 17) then .ok p else parseL4 f carterPort { p with l4 := e }

/-- The parse of a frame without its FCS (R356–R358), or the reason of its failure. -/
def parseFrame (f : Bytes) (carterPort : Nat) : Except Nat Parse :=
  let t1 := beAt f 12 2
  let tag1 := decide (t1 = 0x8100) || decide (t1 = 0x88A8)
  let t2 := beAt f 16 2
  let tag2 := tag1 && decide (t2 = 0x8100)
  let o := if tag2 then 22 else if tag1 then 18 else 14
  if !fits f.length o then .error parseTrunc
  else
    let tci := beAt f 14 2
    let et := beAt f (o - 2) 2
    let p : Parse := {
      keyType := 3, proto := 0, vlan := if tag1 then tci % 4096 + 4096 else 0, dei := tag1 && nbit tci 12,
      src := slice f 6 6, dst := slice f 0 6, sport := 0, dport := 0, etype := et, l4 := 0, l4len := 0, sum := 0 }
    if et = 0x0800 then parse4 f carterPort o p
    else if et = 0x86DD then parse6 f carterPort o p
    else .ok p

/-! ### The canonical key (R359, R360) -/

/-- ORIENT: the source is the high endpoint. -/
def Parse.orient (p : Parse) : Bool :=
  decide (beNat p.dst < beNat p.src) || (decide (beNat p.dst = beNat p.src) && decide (p.dport < p.sport))

/-- The used bytes of KEY (Table 14.2). -/
def Parse.key (p : Parse) : Bytes :=
  let (la, lp, ha, hp) := if p.orient then (p.dst, p.dport, p.src, p.sport) else (p.src, p.sport, p.dst, p.dport)
  if p.keyType = 3 then la ++ ha ++ beBytes 2 p.etype else la ++ ha ++ beBytes 2 lp ++ beBytes 2 hp

/-- The hash of a frame's canonical key (R360). -/
def Parse.hash (p : Parse) : Nat := crc32c (leBytes 1 p.keyType ++ leBytes 1 p.proto ++ leBytes 2 p.vlan ++ p.key)

/-! ### Building a UDP datagram -/

/-- The parts of a UDP datagram that a stall sends. -/
structure UdpHead where
  v6 : Bool
  dmac : Bytes
  smac : Bytes
  vlan : Nat
  src : Bytes
  dst : Bytes
  sport : Nat
  dport : Nat
  dscp : Nat
  /-- Time to live, and the IPv4 identification. -/
  ttl : Nat
  ident : Nat

/-- The frame of a datagram, without its FCS: DF set, ECN ECT(0), a UDP checksum; padded to the least length. -/
def udpFrame (h : UdpHead) (payload : Bytes) : Bytes :=
  let ulen := 8 + payload.length
  let tag := if nbit h.vlan 12 then beBytes 2 0x8100 ++ beBytes 2 (h.vlan % 4096) else []
  let udp0 := beBytes 2 h.sport ++ beBytes 2 h.dport ++ beBytes 2 ulen
  let cs := inetSum (pseudo h.src h.dst 17 ulen ++ udp0 ++ beBytes 2 0 ++ payload)
  let udp := udp0 ++ beBytes 2 (if cs = 0 then 0xFFFF else cs) ++ payload
  let tos := h.dscp * 4 + 2
  let ip :=
    if h.v6 then
      beBytes 2 0x86DD ++ beBytes 4 (6 * 2 ^ 28 + tos * 2 ^ 20) ++ beBytes 2 ulen ++ beBytes 1 17 ++ beBytes 1 h.ttl ++
        h.src ++ h.dst
    else
      let pre := beBytes 1 0x45 ++ beBytes 1 tos ++ beBytes 2 (20 + ulen) ++ beBytes 2 h.ident ++ beBytes 2 0x4000 ++
        beBytes 1 h.ttl ++ beBytes 1 17
      let addrs := h.src ++ h.dst
      beBytes 2 0x0800 ++ pre ++ beBytes 2 (inetSum (pre ++ beBytes 2 0 ++ addrs)) ++ addrs
  let f := h.dmac ++ h.smac ++ tag ++ ip ++ udp
  f ++ List.replicate (60 - f.length) 0#8

end Sys2Proof.Machine
end

