-- ==== Sys2Proof/Machine/Ethernet.lean ====
section
/-!
DEFINITION. The Ethernet ports and the Gatehouses (R351–R373, R428).
-/
namespace Sys2Proof.Machine

/-! ### Ports and subports -/

def ethPortCfg (q : Nat) : Reg := ⟨.ethPortCfg, q, 0⟩
def ethSubCtrl (q n : Nat) : Reg := ⟨.ethSubCtrl, q, n⟩
def ethSubStatus (q n : Nat) : Reg := ⟨.ethSubStatus, q, n⟩
def ethTsNow (q n : Nat) : Reg := ⟨.ethTsNow, q, n⟩
def ethTsAdj (q n : Nat) : Reg := ⟨.ethTsAdj, q, n⟩
def ghMissRate (p : Nat) : Reg := ⟨.ghMissRate, p, 0⟩

/-- Subports of a port (Table 14.1). -/
def State.subports (s : State) (q : Nat) : Nat := 2 ^ s.fget (ethPortCfg q) F.ethPortCfg_BREAKOUT

/-- STATE of a subport: 0 DOWN, 1 TRAINING, 2 UP. -/
def State.subState (s : State) (q n : Nat) : Nat := s.fget (ethSubStatus q n) F.ethSubStatus_STATE
def State.setSubState (s : State) (q n v : Nat) : State := s.fset (ethSubStatus q n) F.ethSubStatus_STATE v

/-- A subport carries frames: it exists, is UP, and its base die is not cut off. -/
def State.subUp (s : State) (q n : Nat) : Bool :=
  decide (n < s.subports q) && decide (s.subState q n = 2) && !s.err.cutOff.contains q

/-- The timestamp counter of a subport. -/
def State.tsNow (s : State) (q n : Nat) : Nat := (s.rd (ethTsNow q n)).toNat

/-- The precinct of a subport (R353). -/
def State.subPrec (s : State) (q n : Nat) : Nat := s.fget (ethSubCtrl q n) F.ethSubCtrl_PRECINCT

/-- Events of the Ethernet block of a Quarter, and of its Gatehouse. -/
def State.ethCount (s : State) (q slot n : Nat) : State := s.count q 55 slot n
def State.ghEvent (s : State) (q slot : Nat) : State := s.stallEvent (soleStall q 7) slot 1 0 0

/-- A Gatehouse works. -/
def State.ghOk (s : State) (q : Nat) : Bool := !s.stallFenced (soleStall q 7)

/-! ### The miss path (R369) -/

/-- A token bucket of 1024 packets refilled at a rate of kpps, as what is spent of it, in 1/25000 packet. -/
def bucketAt (used : Nat × Nat) (kpps now : Nat) : Nat := used.1 - kpps * (now - used.2)

/-- What is spent of a miss bucket now: precinct `p`, or 64 for the device. -/
def State.missSpent (s : State) (p : Nat) : Nat :=
  let kpps := if p = 64 then 20000 else s.fget (ghMissRate p) F.ghMissRate_RATE_KPPS
  bucketAt (lookD (0, 0) s.eth.missUsed p) kpps s.tick

/-- A miss bucket brought to the present tick with `n` more spent. -/
def State.missSettle (s : State) (p n : Nat) : State :=
  { s with eth := { s.eth with missUsed := put s.eth.missUsed p (s.missSpent p + n, s.tick) } }

/-- A frame takes the miss path in Quarter `q`. While firmware is paused for an activation, 4096 wait (R514). -/
def State.missSend (s : State) (q reason : Nat) (f : GhFrame) : State :=
  let p := s.subPrec f.port f.sub
  let packet := 25000
  let waiting := (s.eth.missed.filter fun x => x.1 = q).length
  if 1024 * packet < s.missSpent p + packet ∨ 1024 * packet < s.missSpent 64 + packet ∨ (s.fwPaused ∧ 4096 ≤ waiting) then
    s.fsat (ghMissRate p) F.ghMissRate_DROPS 1
  else
    let s := (s.missSettle p packet).missSettle 64 packet
    let s := { s with eth := { s.eth with missed := s.eth.missed ++ [(q, reason, f)] } }
    s.ghEvent q (if reason < 0x10 then 8 else 9)

/-! ### Local transport (R363) -/

/-- The Carter stall that serves a connection; the arrival port's own where none does. -/
def State.carterHome (s : State) (q conn : Nat) : Nat :=
  match look s.carter.ctxs conn with
  | some c => if c.state = 0 then q else c.stall
  | none => q

/-- A frame for the Carter stall of Quarter `q`, without its FCS. -/
def State.toCarter (s : State) (q : Nat) (f : Bytes) : State :=
  { s with carter := { s.carter with rx := put s.carter.rx q (lookD [] s.carter.rx q ++ [f]) } }

/-- An address of a context or of CARTER_LOCAL, as 16 bytes. -/
def addr16 (a : Bytes) : Bytes := List.replicate (16 - a.length) 0#8 ++ a

/-- A local address of port `q` (R393). -/
def State.isLocal (s : State) (q : Nat) (a : Bytes) : Bool :=
  (List.range 16).any fun n =>
    s.fbit ⟨.carterLocalCtl, q, n⟩ F.carterLocalCtl_VALID &&
      decide (leBytes 8 (s.rd ⟨.carterLocal, q, 2 * n⟩).toNat ++ leBytes 8 (s.rd ⟨.carterLocal, q, 2 * n + 1⟩).toNat = addr16 a)

/-- The connection that a Carter or RoCEv2 header names. -/
def Parse.conn (p : Parse) (f : Bytes) : Nat :=
  if p.carter then beAt f (p.l4 + 8 + 4) 4 % 2 ^ 20 else beAt f (p.l4 + 8 + 5) 3 % 2 ^ 20

/-! ### Arrival (R351, R354–R362) -/

/-- A MAC control frame of PAUSE or PFC. -/
def isPause (f : Bytes) : Bool :=
  decide (beAt f 12 2 = 0x8808) && (decide (beAt f 14 2 = 1) || decide (beAt f 14 2 = 0x0101))

/-- A frame without its FCS. -/
def GhFrame.body (f : GhFrame) : Bytes := f.data.take (f.data.length - 4)

/-- Quarter `g`'s Gatehouse parses a frame and steers it (R356–R363). -/
def State.ingress (s : State) (g : Nat) (f : GhFrame) : State :=
  match parseFrame f.body (s.fget ⟨.ghCarterPort, g, 0⟩ F.ghCarterPort_PORT) with
  | .error e => s.missSend g e f
  | .ok p =>
    let h := p.hash
    let f := { f with hash := h, l4 := p.sum }
    if (p.carter || p.roce) && s.isLocal f.port p.dst then s.toCarter (s.carterHome f.port (p.conn f.body)) f.body
    else
      let t := s.fget ⟨.ghSteer, g, h % 256⟩ F.ghSteer_QUARTER
      if s.ghOk t then { s with eth := { s.eth with gh := put s.eth.gh t (lookD [] s.eth.gh t ++ [f]) } }
      else s.ghEvent t 12

/-- ETH_FRAME_RECEIVE (R351, R354, R362). -/
def execEthFrameReceive (q : Qn) (sub : Fin 8) (frame : Bytes) (corrected uncorrectable : Nat) (s : State) :
    Host.Outcome State Fault Refusal :=
  let q := q.val
  let st := ethSubStatus q sub.val
  if !s.subUp q sub.val then done s
  else
    let s := (s.fsat st F.ethSubStatus_CORR corrected).fsat st F.ethSubStatus_UNCORR uncorrectable
    let s := (s.ethCount q 5 corrected).ethCount q 6 uncorrectable
    let n := frame.length
    if n < 64 ∨ s.fget (ethPortCfg q) F.ethPortCfg_MAX_FRAME < n ∨ uncorrectable ≠ 0 ∨
        fcsOf (frame.take (n - 4)) ≠ frame.drop (n - 4) then
      done (s.ethCount q 4 1)
    else if isPause frame then done (s.ethCount q 7 1)
    else
      let s := (s.ethCount q 0 1).ethCount q 2 n
      let f : GhFrame := { port := q, sub := sub.val, data := frame, ts := s.tsNow q sub.val }
      if s.ghOk q then done (s.ingress q f)
      else match (List.range 4).find? s.ghOk with
        | some g => done (s.ingress g f)
        | none => done s

/-- ETH_SUBPORT_UP (R352). -/
def execEthSubportUp (q : Qn) (sub : Fin 8) (s : State) : Host.Outcome State Fault Refusal :=
  if s.portsTrain ∧ sub.val < s.subports q.val ∧ s.fbit (ethSubCtrl q.val sub.val) F.ethSubCtrl_ENABLE ∧ ¬ s.err.cutOff.contains q.val then
    done (s.setSubState q.val sub.val 2)
  else done s

/-- ETH_PORT_CFG written (R352). -/
def State.ethPortCfgWrite (s : State) (rq : Requester) (q : Nat) (v : W64) : State :=
  let r := ethPortCfg q
  let mf := bitsOf v F.ethPortCfg_MAX_FRAME
  let bo := bitsOf v F.ethPortCfg_BREAKOUT
  let idle := (List.range 8).all fun n => !s.fbit (ethSubCtrl q n) F.ethSubCtrl_ENABLE
  if !rqKernel rq || decide (mf < 1518) || decide (9600 < mf) || (decide (bo ≠ s.fget r F.ethPortCfg_BREAKOUT) && !idle) then
    s.refuse rq r
  else (s.fset r F.ethPortCfg_MAX_FRAME mf).fset r F.ethPortCfg_BREAKOUT bo

/-- ETH_BREAKOUT_WRITE (R352). -/
def execEthBreakoutWrite (rq : Requester) (q : Qn) (v : W64) (s : State) : Host.Outcome State Fault Refusal :=
  done (s.ethPortCfgWrite rq q.val v)

/-- A 32-bit number as signed. -/
def signed32 (n : Nat) : Int := if n < 2 ^ 31 then n else (n : Int) - 2 ^ 32

/-- ETH_TS_ADJ written (R354). -/
def State.ethTsAdjWrite (s : State) (rq : Requester) (q n : Nat) (v : W64) : State :=
  let r := ethTsAdj q n
  let ppb := signed32 (bitsOf v F.ethTsAdj_RATE_PPB)
  if !rqKernel rq || decide (1000000 < ppb.natAbs) then s.refuse rq r
  else
    let s := s.fset r F.ethTsAdj_RATE_PPB (bitsOf v F.ethTsAdj_RATE_PPB)
    let step := signed32 (bitsOf v F.ethTsAdj_STEP_NS)
    s.wr (ethTsNow q n) (s.rd (ethTsNow q n) + BitVec.ofInt 64 (step * 65536))

/-- ETH_TS_STEP (R354). -/
def execEthTsStep (rq : Requester) (q : Qn) (sub : Fin 8) (v : W64) (s : State) : Host.Outcome State Fault Refusal :=
  done (s.ethTsAdjWrite rq q.val sub.val v)

/-- The timestamp counters advanced by one tick of 40 ns at their corrected rates (R354). A tick is 40 × 2^16 units; the
correction is exact, its remainder kept. -/
def State.tsTick (s : State) : State :=
  forNat 32 s fun s i =>
    let q := i / 8
    let n := i % 8
    let ppb := signed32 (s.fget (ethTsAdj q n) F.ethTsAdj_RATE_PPB)
    let c := ppb * (40 * 65536) + lookD 0 s.eth.tsRem i
    let s := s.wr (ethTsNow q n) (s.rd (ethTsNow q n) + BitVec.ofInt 64 (40 * 65536 + c / 1000000000))
    { s with eth := { s.eth with tsRem := putD 0 s.eth.tsRem i (c % 1000000000) } }

/-! ### The flow table (R364, R366–R368) -/

/-- Used bytes of a KEY (Table 14.2). -/
def keyUsed (t : Nat) : Nat := if t = 1 then 12 else if t = 2 then 36 else 14

/-- The entry that the stage holds (Table 14.4). -/
def FlowEntry.of (b : Bytes) : FlowEntry :=
  { keyType := leAt b 0 1, proto := leAt b 1 1, vlan := leAt b 2 2, key := slice b 4 36, action := leAt b 0x28 1,
    prec := leAt b 0x29 1, flags := leAt b 0x2A 2, policer := leAt b 0x2C 4, arg0 := leAt b 0x30 8, ctx := leAt b 0x38 4 }

def FlowEntry.directed (e : FlowEntry) : Bool := nbit e.flags 0
def FlowEntry.orient (e : FlowEntry) : Bool := nbit e.flags 1
def FlowEntry.decrypt (e : FlowEntry) : Bool := nbit e.flags 2

/-- The bucket of a key. -/
def FlowEntry.bucket (e : FlowEntry) : Nat :=
  crc32c (leBytes 1 e.keyType ++ leBytes 1 e.proto ++ leBytes 2 e.vlan ++ e.key.take (keyUsed e.keyType)) / 1024

/-- Two entries have the same key, DIRECTED and ORIENT (R367). -/
def FlowEntry.same (a b : FlowEntry) : Bool :=
  decide (a.keyType = b.keyType) && decide (a.proto = b.proto) && decide (a.vlan = b.vlan) && decide (a.key = b.key) &&
  decide (a.directed = b.directed) && decide (a.orient = b.orient)

/-- An entry matches a parsed frame (R364). -/
def FlowEntry.hits (e : FlowEntry) (p : Parse) : Bool :=
  decide (e.keyType = p.keyType) && decide (e.proto = p.proto) && decide (e.vlan = p.vlan) &&
  decide (e.key = slice p.key 0 36) && (!e.directed || decide (e.orient = p.orient))

/-- The slots of a bucket. -/
def State.bucket (s : State) (b : Nat) : List (Option FlowEntry) := lookD (List.replicate 8 none) s.eth.flows b
def State.setBucket (s : State) (b : Nat) (l : List (Option FlowEntry)) : State :=
  { s with eth := { s.eth with flows := putD (List.replicate 8 none) s.eth.flows b l } }

/-- The entry that a frame hits: a DIRECTED one before an undirected one. -/
def State.lookup (s : State) (p : Parse) : Option FlowEntry :=
  let es := ((s.bucket (p.hash / 1024)).filterMap id).filter (·.hits p)
  match es.find? (·.directed) with
  | some e => some e
  | none => es.head?

/-- A Tollbooth node: port, level and index. -/
def State.node (s : State) (q level i : Nat) : Option TbNode := look s.eth.nodes (key3 q level i)

/-- A receive queue of a precinct. -/
def State.rxqOf (s : State) (p r : Nat) : Bool :=
  match s.ring r with
  | some x => !x.tx && decide (x.prec = p)
  | none => false

/-- ARG0 and CONTEXT name resources of the entry's precinct (R366), in the forms of Tables 14.4 and 14.5. -/
def State.flowArgs (s : State) (e : FlowEntry) : Bool :=
  (match e.action with
    | 0 | 6 => decide (e.arg0 = 0)
    | 1 => decide (e.arg0 < 2 ^ 20) &&
        (match s.node (e.arg0 / 2 ^ 18) 3 (e.arg0 % 2 ^ 18) with | some n => decide (n.prec = e.prec) | none => false)
    | 2 => decide (e.arg0 < 4096) && s.eth.rings.all fun x => x.2.tx || decide (x.2.target ≠ e.arg0) || decide (x.2.prec = e.prec)
    | 3 | 4 => s.rxqOf e.prec e.arg0
    | 5 =>
      (match look s.carter.ctxs e.arg0 with
        | some c => decide (c.state ≠ 0) && decide (leAt c.cfg 2 1 = e.prec)
        | none => false)
    | _ => false) &&
  (if e.decrypt then
    (match s.ctxOf e.ctx with | some (_, c) => decide (c.prec = e.prec) | none => false) && decide (e.proto = 17) && decide (e.keyType < 3)
  else decide (e.ctx = 0))

/-- The key part of a staged entry holds no reserved value. -/
def flowKeyOk (e : FlowEntry) : Bool :=
  decide (1 ≤ e.keyType) && decide (e.keyType ≤ 3) && decide (e.vlan < 2 ^ 13) && allZero (e.key.drop (keyUsed e.keyType)) &&
  (decide (e.keyType ≠ 3) || decide (e.proto = 0))

/-- A staged entry holds no reserved value (R366, R368, R428). -/
def State.flowOk (s : State) (b : Bytes) : Bool :=
  let e := FlowEntry.of b
  flowKeyOk e && decide (e.action ≤ 6) && decide (e.prec < 64) && decide (e.flags < 8) &&
  (decide (e.policer < 2 ^ 18) || decide (e.policer = 2 ^ 32 - 1)) && decide (leAt b 0x3C 4 = 0) && s.flowArgs e

/-- Entries of a precinct. -/
def State.flowCount (s : State) (p : Nat) : Nat :=
  (s.eth.flows.map fun x => (x.2.filter fun e => e.any (·.prec = p)).length).sum

/-- The precinct's FLOW_ENTRIES pool. -/
def State.flowPool (s : State) (p : Nat) : Nat :=
  match s.xim.conf.pools.find? (fun x => x.prec = p) with
  | some x => x.flows
  | none => 0

/-- The 64 bytes of a Gatehouse's stage. -/
def State.ghStaged (s : State) (q : Nat) : Bytes := (List.range 8).flatMap fun w => leBytes 8 (s.rd ⟨.ghStage, q, w⟩).toNat

/-- GH_OP completes with a status. -/
def State.ghStatus (s : State) (q v : Nat) : State := s.fset ⟨.ghOp, q, 0⟩ F.ghOp_STATUS v

/-- INSERT (R367, R368). -/
def State.flowInsert (s : State) (q : Nat) : State :=
  let b := s.ghStaged q
  let e := FlowEntry.of b
  if !s.flowOk b then s.ghStatus q 1
  else
    let bk := s.bucket e.bucket
    match bk.findIdx? (fun x => x.any (·.same e)) with
    | some i =>
      let s' := s.setBucket e.bucket (bk.set i (some e))
      if s.flowPool e.prec < s'.flowCount e.prec ∧ s.flowCount e.prec < s'.flowCount e.prec then s.ghStatus q 3
      else s'.ghStatus q 0
    | none =>
      match bk.findIdx? (·.isNone) with
      | none => s.ghStatus q 2
      | some i =>
        if s.flowPool e.prec < s.flowCount e.prec + 1 then s.ghStatus q 3
        else (s.setBucket e.bucket (bk.set i (some e))).ghStatus q 0

/-- REMOVE (R367). -/
def State.flowRemove (s : State) (q : Nat) : State :=
  let e := FlowEntry.of (s.ghStaged q)
  if !flowKeyOk e then s.ghStatus q 1
  else
    let bk := s.bucket e.bucket
    match bk.findIdx? (fun x => x.any (·.same e)) with
    | none => s.ghStatus q 4
    | some i => (s.setBucket e.bucket (bk.set i none)).ghStatus q 0

/-! ### Policers (R371, R372) -/

/-- A policer's record; one never written holds zeros. -/
def State.policer (s : State) (n : Nat) : Policer := (look s.eth.policers n).getD ⟨0, 0, 0, 0, 0, 0, 0, 0, 0⟩
def State.setPolicer (s : State) (n : Nat) (p : Policer) : State :=
  { s with eth := { s.eth with policers := put s.eth.policers n p } }

/-- Tokens that a rate adds in a number of ticks, in 2^−16 bytes: RATE × 0.005 bytes a tick. -/
def tokens (rate ticks : Nat) : Nat := rate * ticks * 32768 / 100

/-- A policer with its buckets refilled. -/
def Policer.refill (p : Policer) (now : Nat) : Policer :=
  { p with
    tc := min (p.tc + tokens p.cir (now - p.last)) (p.cbs * 65536)
    tp := min (p.tp + tokens p.pir (now - p.last)) (p.pbs * 65536)
    last := now }

/-- The colour of a frame of `n` bytes, pre-coloured `pre`, and the policer after it: 0 green, 1 yellow, 2 red (R371). -/
def Policer.colour (p : Policer) (now n pre : Nat) : Nat × Policer :=
  let p := p.refill now
  let b := n * 65536
  let pre := if nbit p.mode 0 then pre else 0
  if p.tp < b ∨ pre = 2 then (2, p)
  else if p.tc < b ∨ pre = 1 then (1, { p with tp := p.tp - b })
  else (0, { p with tc := p.tc - b, tp := p.tp - b })

/-- A staged policer (Table 14.7), if it holds no reserved value. -/
def policerOf (b : Bytes) : Option Policer :=
  let cir := leAt b 0 4
  let pir := leAt b 4 4
  let cbs := leAt b 8 4
  let pbs := leAt b 0x0C 4
  if 1 ≤ cir ∧ cir ≤ pir ∧ pir ≤ 1600000 ∧ 64 ≤ cbs ∧ cbs ≤ pbs ∧ pbs ≤ 2 ^ 24 ∧ leAt b 0x10 1 < 8 ∧ leAt b 0x11 1 < 64 ∧
      allZero (slice b 0x12 6) ∧ allZero (slice b 0x30 16) then
    some ⟨cir, pir, cbs, pbs, leAt b 0x10 1, leAt b 0x11 1, cbs * 65536, pbs * 65536, 0⟩
  else none

/-- Policer WRITE and UPDATE (R372). -/
def State.policerWrite (s : State) (q n : Nat) : State :=
  match policerOf (s.ghStaged q) with
  | none => s.ghStatus q 1
  | some p => (s.setPolicer n { p with last := s.tick }).ghStatus q 0

def State.policerUpdate (s : State) (q n : Nat) : State :=
  match policerOf (s.ghStaged q) with
  | none => s.ghStatus q 1
  | some p =>
    let o := s.policer n
    (s.setPolicer n { p with tc := min o.tc p.tc, tp := min o.tp p.tp, last := o.last }).ghStatus q 0

/-- GH_OP written with operation `op` (R367, R372); any other operation of the word is left to its own row. -/
def State.ghOpWrite (s : State) (rq : Requester) (q : Nat) (v : W64) : State :=
  let r : Reg := ⟨.ghOp, q, 0⟩
  let n := bitsOf v F.ghOp_POLICER
  if !rqKernel rq then s.refuse rq r
  else match bitsOf v F.ghOp_OP with
    | 1 => s.flowInsert q
    | 2 => s.flowRemove q
    | 3 => s.policerWrite q n
    | 4 => s.policerUpdate q n
    | _ => s.refuse rq r

/-- The word with OP of a row. -/
def ghOpWord (op : Nat) (v : W64) : W64 := setBits v F.ghOp_OP op

/-- GH_INSERT (R367). -/
def execGhInsert (rq : Requester) (q : Qn) (v : W64) (s : State) : Host.Outcome State Fault Refusal :=
  done (s.ghOpWrite rq q.val (ghOpWord 1 v))

/-- GH_REMOVE (R367). -/
def execGhRemove (rq : Requester) (q : Qn) (v : W64) (s : State) : Host.Outcome State Fault Refusal :=
  done (s.ghOpWrite rq q.val (ghOpWord 2 v))

/-- GH_POLICER_WRITE (R372). -/
def execGhPolicerWrite (rq : Requester) (q : Qn) (v : W64) (s : State) : Host.Outcome State Fault Refusal :=
  done (s.ghOpWrite rq q.val (ghOpWord 3 v))

/-- GH_POLICER_UPDATE (R372). -/
def execGhPolicerUpdate (rq : Requester) (q : Qn) (v : W64) (s : State) : Host.Outcome State Fault Refusal :=
  done (s.ghOpWrite rq q.val (ghOpWord 4 v))

/-! ### Lookup, policing, decryption and action (R364–R366, R371, R372, R428) -/

/-- The Cashbox stall that deciphers for a precinct in Quarter `q`: the lowest of its own Quarter, else the lowest. -/
def State.cashboxFor (s : State) (p q : Nat) : Option Nat :=
  let all := ([q, 0, 1, 2, 3].flatMap fun k => [stallId k 6 0, stallId k 6 1])
  all.find? fun st => decide (s.precOfStall st = some p) && !s.stallFenced st

/-- A frame deciphered (R365, R428): its bytes with the ciphertext replaced by plaintext, or none where its tag fails or the
Cashbox faults. -/
def State.decipher (s : State) (q : Nat) (e : FlowEntry) (p : Parse) (data : Bytes) (mismatch : Bool) : State × Option Bytes :=
  match s.cashboxFor e.prec q, s.ctxOf e.ctx with
  | some st, some (n, c) =>
    let o := p.l4 + 8
    let len := p.l4len - 8
    let nonce := slice data o 12
    let hit := (s.injAt 0x0D st (fun _ => true)).isSome
    let s := if c.active = some st then s else (s.setCtxRec n { c with active := some st }).stallEvent st 10 1 0 0
    match s.keyOf c.inst c.key with
    | none => (s, none)
    | some k =>
      if c.state ≠ 1 ∨ !isAead c.algo ∨ p.l4 = 0 ∨ len < 28 then (s, none)
      else if hit || mismatch then ((if hit then s.injFire else s).cipherFault st n hit |>.stallEvent st 8 1 0 0, none)
      else
        let s := s.setCtxRec n { s.ctxRec n with verified := false }
        let s := s.stallEvent st 6 (len - 28 + 4) 0 0
        match aeadOpen c.algo k.key nonce (slice data p.l4 4) (slice data (o + 12) (len - 28)) (slice data (o + len - 16) 16) with
        | none => (s.stallEvent st 7 1 0 0, none)
        | some t => (s, some (data.take o ++ t ++ data.drop (o + len)))
  | _, _ => (s, none)

/-- A frame sent to a receive queue by the Gatehouse of Quarter `q`; it wakes a port in a low power state (R468). -/
def State.toRxq (s : State) (q r : Nat) (f : GhFrame) : State :=
  let s := { s with eth := { s.eth with rx := s.eth.rx ++ [(r, q, f)] } }
  match s.ring r with
  | some x => if s.lowPower x.func || decide ((s.func (pfOf x.func)).power = 4) then s.wake x.func else s
  | none => s

/-- The receive queue of a group entry. -/
def State.groupQueue (s : State) (g i : Nat) : Option Nat :=
  let qs := (s.eth.rings.filter fun x => !x.2.tx && decide (x.2.target = g)).map (·.1)
  qs[Config.groupEntry g i % qs.length]?

/-- A frame on its way to a Tollbooth queue; one for a fenced Tollbooth is dropped at its source (R374, R388). -/
def State.toTollbooth (s : State) (queue : Nat) (f : TxFrame) : State × Bool :=
  let t := soleStall (queue / 2 ^ 18 % 4) 8
  if s.stallFenced t then (s.stallEvent t 13 1 0 0, false)
  else ({ s with eth := { s.eth with toTb := s.eth.toTb ++ [(queue, f)] } }, true)

/-- The action of an entry applied to a frame that policing and decryption have passed. -/
def State.flowAct (s : State) (q : Nat) (e : FlowEntry) (f : GhFrame) : State :=
  match e.action with
  | 1 => (s.toTollbooth e.arg0 { data := f.body, de := decide (f.colour ≠ 0) }).1
  | 2 =>
    match s.groupQueue e.arg0 (f.hash / 256 % 256) with
    | some r => s.toRxq q r f
    | none => s.ghEvent q 13
  | 3 | 4 => s.toRxq q e.arg0 f
  | 5 => s.toCarter (s.carterHome q e.arg0) f.body
  | 6 => s.missSend q 2 f
  | _ => s

/-- The frame at the head of a target Gatehouse handled. -/
def State.ghHandle (s : State) (q : Nat) (f : GhFrame) (mismatch : Bool) : State :=
  match parseFrame f.body 0x1_0000 with
  | .error e => s.missSend q e f
  | .ok p =>
    match s.lookup p with
    | none => s.missSend q 1 f
    | some e =>
      let (colour, s) :=
        if e.policer = 2 ^ 32 - 1 then (0, s)
        else
          let (c, x) := (s.policer e.policer).colour s.tick f.data.length (b2n p.dei)
          (c, s.setPolicer e.policer x)
      let mode := if e.policer = 2 ^ 32 - 1 then 0 else (s.policer e.policer).mode
      let s := if colour = 2 then s.ghEvent q 10 else if colour = 1 then s.ghEvent q 11 else s
      if (colour = 2 ∧ ¬ nbit mode 2) ∨ (colour = 1 ∧ nbit mode 1) then s
      else if e.decrypt then
        match s.decipher q e p f.data mismatch with
        | (s, none) => s.ghEvent q 15
        | (s, some d) => s.flowAct q e { f with data := d, colour := colour }
      else s.flowAct q e { f with colour := colour }

/-- GH_LOOKUP (R364): the frame at the head of the target Gatehouse of Quarter `q`; with `mismatch`, a Cashbox comparison fails
(R426). -/
def execGhLookup (q : Qn) (mismatch : Bool) (s : State) : Host.Outcome State Fault Refusal :=
  match lookD [] s.eth.gh q.val with
  | [] => done s
  | f :: rest =>
    let s := { s with eth := { s.eth with gh := putD [] s.eth.gh q.val rest } }
    if s.ghOk q.val then done (s.ghHandle q.val f mismatch) else done (s.ghEvent q.val 12)

/-! ### Receive queues (R373) -/

/-- The completion of a frame (Table 14.8). -/
def rxCompletion (f : GhFrame) (phase : Bool) : Bytes :=
  leBytes 8 f.ts ++ leBytes 4 f.hash ++ leBytes 2 f.data.length ++
    leBytes 2 (f.colour + 4 * f.l4 + 16 * f.sub + 2 ^ 15 * b2n phase)

/-- The queue's first frame and the others. -/
def takeRx (r : Nat) : List (Nat × Nat × GhFrame) → Option ((Nat × GhFrame) × List (Nat × Nat × GhFrame))
  | [] => none
  | x :: l =>
    if x.1 = r then some (x.2, l)
    else match takeRx r l with
      | some (y, l') => some (y, x :: l')
      | none => none

/-- A delivery: the buffer read, the frame written if it fits, then its completion. None: the buffer is too small. -/
def rxBody (q : Nat) (x : Ring) (f : GhFrame) : IoM Bool := do
  let req := soleStall q 7
  let (e, _) ← ioRead q req x.asid (ringAt x.buf x.log2 x.cons) 16
  if leAt e 8 4 < f.data.length then pure false
  else
    ioWrite q req x.asid (leAt e 0 8) f.data false
    ioCompletion q req x.asid (ringAt x.cpl x.log2 x.done) (rxCompletion f (phaseOf x.log2 x.done))
    pure true

/-- RX_DELIVER (R373): the first frame on its way to queue `r`. A frame that cannot be placed is dropped, as one that finds no
buffer. -/
def execRxDeliver (r : Nat) (far : List FarAns) (s : State) : Host.Outcome State Fault Refusal :=
  match takeRx r s.eth.rx with
  | none => done s
  | some ((q, f), rest) =>
    let gone (s : State) : State := { s with eth := { s.eth with rx := rest } }
    match s.ring r with
    | none => done (gone s)
    | some x =>
      if x.tx then done (gone s)
      else if s.ringsPaused x.func then done s
      else if x.prod ≤ x.cons ∨ (s.func x.func).driverLost then done ((gone s).ghEvent q 13)
      else match (rxBody q x f).at s far with
        | (s, .error .held) => done s
        | (s, .error .fault) => done ((gone s).ghEvent q 13)
        | (s, .ok false) => done ((gone s).ghEvent q 14)
        | (s, .ok true) => done (((gone s).setRing r { x with cons := x.cons + 1, done := x.done + 1 }).sendMsix x.func x.msix)

/-! ### Doorbells (R462) -/

/-- What a doorbell slot of a function is bound to. -/
def State.slotOf (s : State) (f slot : Nat) : Option Doorbell := look (s.func f).slots slot

/-- A write to a slot bound to nothing: dropped and counted. -/
def State.slotStray (s : State) (f : Nat) : State := s.setFunc f { s.func f with stray := min ((s.func f).stray + 1) (2 ^ 32 - 1) }

/-- A ring's new producer index. -/
def State.ringProd (s : State) (r v : Nat) : State :=
  match s.ring r with
  | none => s
  | some x => s.setRing r { x with prod := advanceTo x.prod x.log2 (v % 2 ^ x.log2) }

/-- RXQ_DOORBELL (R462). -/
def execRxqDoorbell (f : FuncNo) (slot : Nat) (v : W64) (s : State) : Host.Outcome State Fault Refusal :=
  match s.slotOf f.val slot with
  | none => done (s.slotStray f.val)
  | some (.rxq r) => done (s.ringProd r (v.toNat % 2 ^ 16))
  | some _ => done s

end Sys2Proof.Machine
end

