-- ==== Sys2Proof/Machine/Tollbooth.lean ====
section
/-!
DEFINITION. The Tollbooths: queues, shaping, the choice of the next frame, live changes and transmit rings (R374–R388).
-/
namespace Sys2Proof.Machine

/-! ### Nodes (R375, R378, R379) -/

def State.setNode (s : State) (q level i : Nat) (n : TbNode) : State :=
  { s with eth := { s.eth with nodes := put s.eth.nodes (key3 q level i) n } }

/-- The frames a queue of a port holds, oldest first, and their bytes with the FCS. -/
def State.queued (s : State) (q i : Nat) : List TxFrame := lookD [] s.eth.queues (q * 2 ^ 18 + i)
def TxFrame.len (f : TxFrame) : Nat := f.data.length + 4
def State.depth (s : State) (q i : Nat) : Nat := ((s.queued q i).map TxFrame.len).sum

/-- Virtual time of a node; level 0 is the subports. -/
def State.vtime (s : State) (q level i : Nat) : Nat := lookD 0 s.eth.vtime (key3 q level i)

/-- Tokens a signed bucket gains. -/
def refill (t : Int) (rate ticks burst : Nat) : Int := min (t + tokens rate ticks) (burst * 65536 : Nat)

/-- A node with its buckets refilled (R378). -/
def TbNode.at_ (n : TbNode) (now : Nat) : TbNode :=
  { n with
    tc := refill n.tc n.cir (now - n.last) n.cbs
    tp := refill n.tp n.pir (now - n.last) n.pbs
    last := now }

/-- TP is positive; TC is positive. -/
def TbNode.peak (n : TbNode) (now : Nat) : Bool := decide (n.pir = 0) || decide (0 < (n.at_ now).tp)
def TbNode.committed (n : TbNode) (now : Nat) : Bool := decide (n.cir ≠ 0) && decide (0 < (n.at_ now).tc)

/-- The children of a node: index and record, in rising order. -/
def State.children (s : State) (q level i : Nat) : List (Nat × TbNode) :=
  s.eth.nodes.filterMap fun x =>
    let k := Nat.unpair x.1
    let m := Nat.unpair k.2
    if k.1 = q ∧ m.1 = level + 1 ∧ x.2.parent = i then some (m.2, x.2) else none

/-- A node is backlogged: a queue that holds a frame, or a node with an eligible child; `fuel` levels are looked at. -/
def State.backlogged (s : State) : Nat → Nat → Nat → Nat → Bool
  | 0, _, _, _ => false
  | fuel + 1, q, level, i =>
    if level = 3 then !(s.queued q i).isEmpty
    else (s.children q level i).any fun c => c.2.peak s.tick && s.backlogged fuel q (level + 1) c.1

/-- A node is eligible at its parent. -/
def State.nodeEligible (s : State) (q level i : Nat) : Bool :=
  match s.node q level i with
  | some n => n.peak s.tick && s.backlogged 4 q level i
  | none => false

/-- Some queue below a node holds a frame. -/
def State.holdsFrames (s : State) : Nat → Nat → Nat → Nat → Bool
  | 0, _, _, _ => false
  | fuel + 1, q, level, i =>
    if level = 3 then !(s.queued q i).isEmpty
    else (s.children q level i).any fun c => s.holdsFrames fuel q (level + 1) c.1

/-- A node takes its start tag: the latest of its parent's virtual time and its own tags (R382). -/
def State.wakeNode (s : State) (q level i : Nat) (awake : Bool) : State :=
  match s.node q level i with
  | none => s
  | some n =>
    let v := s.vtime q (level - 1) n.parent
    s.setNode q level i { n with s := max v (max n.s n.f), awake := awake }

/-- A node that is eligible and has not taken its start tag takes it, and then its parents do. -/
def State.wakeUp (s : State) : Nat → Nat → Nat → Nat → State
  | 0, _, _, _ => s
  | fuel + 1, q, level, i =>
    match s.node q level i with
    | none => s
    | some n =>
      if !s.nodeEligible q level i then s
      else
        let s := if n.awake then s else s.wakeNode q level i true
        s.wakeUp fuel q (level - 1) n.parent

/-- A node that is no longer eligible will take a start tag again. -/
def State.sleep (s : State) (q level i : Nat) : State :=
  match s.node q level i with
  | none => s
  | some n => if s.nodeEligible q level i then s else s.setNode q level i { n with awake := false }

/-- TB_NODE_WAKE (R382). -/
def execTbNodeWake (q : Qn) (level : Fin 4) (index : Nat) (s : State) : Host.Outcome State Fault Refusal :=
  if level.val = 0 then done s else done (s.wakeUp 3 q.val level.val index)

/-! ### Transmit rings: how entries end (R386) -/

/-- A completion (Table 15.3). -/
def txCompletion (ts status : Nat) (phase : Bool) : Bytes :=
  leBytes 8 ts ++ leBytes 2 status ++ leBytes 2 0 ++ leBytes 4 (2 ^ 31 * b2n phase)

/-- Completions of ended entries written in ring order, as far as they go. -/
def State.txFlush (s : State) (q : Nat) : Nat → Nat → State
  | 0, _ => s
  | fuel + 1, r =>
    match s.ring r with
    | none => s
    | some x =>
      match look x.ended x.done with
      | none => s
      | some (status, ts) =>
        match s.ringComplete q (soleStall q 8) r { x with ended := drop x.ended x.done }
            (txCompletion ts status (phaseOf x.log2 x.done)) [] with
        | (s, true) => s.txFlush q fuel r
        | (s, false) => s

/-- A transmit entry ends with a status. -/
def State.txEnd (s : State) (q : Nat) (e : Option (Nat × Nat)) (status ts : Nat) : State :=
  match e with
  | none => s
  | some (r, n) =>
    match s.ring r with
    | none => s
    | some x => (s.setRing r { x with ended := put x.ended n (status, ts) }).txFlush q 65536 r

/-! ### Queues (R376) -/

/-- Bytes in the egress buffer of a port. -/
def State.egress (s : State) (q : Nat) : Nat :=
  (s.eth.queues.map fun x => if x.1 / 2 ^ 18 = q then (x.2.map TxFrame.len).sum else 0).sum

/-- The event slot of the check that drops a frame. -/
def State.dropCause (s : State) (q i : Nat) (f : TxFrame) : Option Nat :=
  let n := (s.node q 3 i)
  let d := s.depth q i + f.len
  if 16 * 2 ^ 20 < s.egress q + f.len then some 11
  else if (n.map (·.qlimit)).getD 0 * 1024 < d then some 9
  else if f.de ∧ (n.map (·.delimit)).getD 0 * 1024 < d then some 10
  else none

/-- A frame enters a queue, or is dropped. -/
def State.enqueue (s : State) (q i : Nat) (f : TxFrame) : State :=
  match s.dropCause q i f with
  | some slot =>
    let s := match s.node q 3 i with
      | some n => s.setNode q 3 i { n with drops := (n.drops + 1) % 2 ^ 32 }
      | none => s
    (s.stallEvent (soleStall q 8) slot 1 0 0).txEnd q f.ring 0x30 0
  | none =>
    let old := s.queued q i
    let s := { s with eth := { s.eth with queues := put s.eth.queues (q * 2 ^ 18 + i) (old ++ [f]) } }
    if old.isEmpty then (s.wakeNode q 3 i false).wakeUp 3 q 3 i else s

/-- The first frame on its way to a queue of port `q`, and the others. -/
def takeTb (q : Nat) : List (Nat × TxFrame) → Option ((Nat × TxFrame) × List (Nat × TxFrame))
  | [] => none
  | x :: l =>
    if x.1 / 2 ^ 18 % 4 = q then some (x, l)
    else match takeTb q l with
      | some (y, l') => some (y, x :: l')
      | none => none

/-- TB_ENQUEUE (R376): the first frame on its way to port `q`. -/
def execTbEnqueue (q : Qn) (s : State) : Host.Outcome State Fault Refusal :=
  match takeTb q.val s.eth.toTb with
  | none => done s
  | some ((queue, f), rest) =>
    let s := { s with eth := { s.eth with toTb := rest } }
    let t := soleStall q.val 8
    if s.stallFenced t then done ((s.stallEvent t 13 1 0 0).txEnd q.val f.ring 0x30 0)
    else done (s.enqueue q.val (queue % 2 ^ 18) f)

/-! ### Choosing the next frame (R380, R381) -/

/-- The choice at a node: the eligible child of least start tag in the committed tier, else in the excess tier, lower index
first; with its tier. -/
def State.choose (s : State) (q level i : Nat) : Option (Nat × Bool) :=
  let cs := (s.children q level i).filter fun c => s.nodeEligible q (level + 1) c.1
  let least (l : List (Nat × TbNode)) : Option (Nat × TbNode) :=
    l.foldl (fun m c => match m with | none => some c | some b => if c.2.s < b.2.s then some c else m) none
  match least (cs.filter fun c => c.2.committed s.tick) with
  | some c => some (c.1, true)
  | none => (least cs).map fun c => (c.1, false)

/-- The path chosen from a node down to a queue: level, index and tier of each node. -/
def State.path (s : State) (q : Nat) : Nat → Nat → Nat → Option (List (Nat × Nat × Bool))
  | 0, _, _ => some []
  | fuel + 1, level, i =>
    match s.choose q level i with
    | none => none
    | some (c, tier) => (s.path q fuel (level + 1) c).map fun r => (level + 1, c, tier) :: r

/-- Every eligible child below a node takes its start tag. -/
def State.wakeBelow (s : State) (q : Nat) : Nat → Nat → Nat → State
  | 0, _, _ => s
  | fuel + 1, level, i =>
    (s.children q level i).foldl (fun s c =>
      let s := s.wakeBelow q fuel (level + 1) c.1
      match s.node q (level + 1) c.1 with
      | some n => if !n.awake && s.nodeEligible q (level + 1) c.1 then s.wakeNode q (level + 1) c.1 true else s
      | none => s) s

/-- A node chosen for a frame of length `len`: its parent's virtual time, its finish tag and its tokens. -/
def State.chosen (s : State) (q len : Nat) (x : Nat × Nat × Bool) : State :=
  let (level, i, tier) := x
  match s.node q level i with
  | none => s
  | some n =>
    let n := n.at_ s.tick
    let cost : Int := (len * 65536 : Nat)
    let s := { s with eth := { s.eth with vtime := put s.eth.vtime (key3 q (level - 1) n.parent) n.s } }
    s.setNode q level i { n with
      f := n.s + len * 256 / n.weight, frames := (n.frames + 1) % 2 ^ 32
      tp := if n.pir = 0 then n.tp else n.tp - cost, tc := if tier then n.tc - cost else n.tc }

/-- A chosen node that is still backlogged moves its start tag on. -/
def State.advanceTag (s : State) (q : Nat) (x : Nat × Nat × Bool) : State :=
  match s.node q x.1 x.2.1 with
  | none => s
  | some n =>
    let s := if s.backlogged 4 q x.1 x.2.1 then s.setNode q x.1 x.2.1 { n with s := n.f } else s
    s.sleep q x.1 x.2.1

/-- The counted length of a frame (R377). -/
def State.countedLen (s : State) (q : Nat) (f : TxFrame) : Nat :=
  let o := s.fget ⟨.tbPortCfg, q, 0⟩ F.tbPortCfg_OVERHEAD
  if o < 128 then f.len + o else f.len - (256 - o)

/-- A subport takes its next frame. -/
def State.select (s : State) (q sub : Nat) : State :=
  let t := soleStall q 8
  let s := s.wakeBelow q 3 0 sub
  match s.path q 3 0 sub with
  | none => if s.holdsFrames 4 q 0 sub then s.stallEvent t 8 1 0 0 else s
  | some p =>
    let i := match p.getLast? with | some x => x.2.1 | none => 0
    match s.queued q i with
    | [] => s
    | f :: rest =>
      let len := s.countedLen q f
      let s := p.foldl (fun s x => s.chosen q len x) s
      let s := { s with eth := { s.eth with
        queues := putD [] s.eth.queues (q * 2 ^ 18 + i) rest
        wire := put s.eth.wire (key2 q sub) { f with ts := s.tsNow q sub } } }
      let s := p.reverse.foldl (fun s x => s.advanceTag q x) s
      (s.stallEvent t 6 1 0 0).stallEvent t 7 len 0 0

/-- TB_SELECT (R381). -/
def execTbSelect (q : Qn) (sub : Fin 8) (s : State) : Host.Outcome State Fault Refusal :=
  if s.subUp q.val sub.val ∧ (look s.eth.wire (key2 q.val sub.val)).isNone ∧ ¬ s.stallFenced (soleStall q.val 8) then
    done (s.select q.val sub.val)
  else done s

/-! ### Leaving the port (R355, R386–R388) -/

/-- The frame of a subport has left: with a poisoned byte, its FCS is inverted. -/
def State.sent (s : State) (q sub : Nat) (f : TxFrame) : State :=
  let s := { s with eth := { s.eth with wire := drop s.eth.wire (key2 q sub) } }
  let fcs := fcsOf f.data
  let s := s.emit (.frame q sub (f.data ++ if f.poison then fcs.map (~~~ ·) else fcs) f.poison)
  let s := (s.ethCount q 1 1).ethCount q 3 f.len
  let s := if f.poison then s.stallEvent (soleStall q 8) 12 1 0 0 else s
  s.txEnd q f.ring (if f.poison then 0x06 else 0) (if f.tsReq then f.ts else 0)

/-- Completions of the rings of port `q` that could not be written before. -/
def State.txFlushAll (s : State) (q : Nat) : State :=
  (s.eth.rings.filter fun x => x.2.tx && decide (x.2.target / 2 ^ 18 = q)).foldl (fun s x => s.txFlush q 65536 x.1) s

/-- TB_FRAME_SENT (R386). -/
def execTbFrameSent (q : Qn) (sub : Fin 8) (s : State) : Host.Outcome State Fault Refusal :=
  match look s.eth.wire (key2 q.val sub.val) with
  | some f => done (s.sent q.val sub.val f)
  | none => done (s.txFlushAll q.val)

/-- A subport goes DOWN, ending the frame it is sending (R387). -/
def State.subDown (s : State) (q sub : Nat) : State :=
  let s := s.setSubState q sub 0
  match look s.eth.wire (key2 q sub) with
  | none => s
  | some f => ({ s with eth := { s.eth with wire := drop s.eth.wire (key2 q sub) } } : State).txEnd q f.ring 0x31 0

/-- ETH_SUBPORT_DOWN (R387). -/
def execEthSubportDown (q : Qn) (sub : Fin 8) (s : State) : Host.Outcome State Fault Refusal :=
  done (s.subDown q.val sub.val)

/-- A write of ETH_SUB_CTRL: ENABLE lets a subport train, or takes it DOWN. -/
def State.ethSubCtrlWrite (s : State) (rq : Requester) (q n : Nat) (v : W64) : State :=
  let r := ethSubCtrl q n
  if !rqKernel rq then s.refuse rq r
  else
    let on := bitsOf v F.ethSubCtrl_ENABLE
    let s := (s.fset r F.ethSubCtrl_PRECINCT (bitsOf v F.ethSubCtrl_PRECINCT)).fset r F.ethSubCtrl_ENABLE on
    if on = 0 then s.subDown q n else if s.subState q n = 0 ∧ n < s.subports q then s.setSubState q n 1 else s

/-! ### Live changes (R375, R384, R385) -/

/-- The 128 bytes of the stage. -/
def State.tbStaged (s : State) (q : Nat) : Bytes := (List.range 16).flatMap fun w => leBytes 8 (s.rd ⟨.tbStage, q, w⟩).toNat

/-- TB_OP completes with a status. -/
def State.tbStatus (s : State) (q v : Nat) : State := s.fset ⟨.tbOp, q, 0⟩ F.tbOp_STATUS v

/-- Templates of a precinct on a port. -/
def State.templates (s : State) (p q : Nat) : List Template :=
  s.xim.conf.templates.filter fun t => decide (t.prec = p) && decide (t.port = q)

/-- Nodes of a level that a precinct has on a port. -/
def State.nodeCount (s : State) (p q level : Nat) : Nat :=
  (s.eth.nodes.filter fun x =>
    let k := Nat.unpair x.1
    decide (k.1 = q) && decide ((Nat.unpair k.2).1 = level) && decide (x.2.prec = p)).length

/-- The staged node, if it holds no reserved value (Table 15.2). -/
def nodeOf (level : Nat) (b : Bytes) : Option TbNode :=
  let w := leAt b 2 2
  let cir := leAt b 8 4
  let pir := leAt b 0x0C 4
  let cbs := leAt b 0x10 4
  let pbs := leAt b 0x14 4
  let ql := leAt b 0x18 4
  let dl := leAt b 0x1C 4
  let limits := if level = 3 then decide (1 ≤ ql) && decide (ql ≤ 65535) && decide (1 ≤ dl) && decide (dl ≤ ql)
    else decide (ql = 0) && decide (dl = 0)
  let most := if level = 1 then 8 else if level = 2 then 64 else 4096
  if leAt b 0 1 = level ∧ leAt b 1 1 < 64 ∧ 1 ≤ w ∧ leAt b 4 4 < most ∧ cir ≤ 1600000 ∧
      (pir = 0 ∨ (cir ≤ pir ∧ pir ≤ 1600000)) ∧ 64 ≤ cbs ∧ cbs ≤ pbs ∧ pbs ≤ 2 ^ 24 ∧ limits ∧ allZero (slice b 0x20 32) then
    some { level := level, prec := leAt b 1 1, weight := w, parent := leAt b 4 4, cir := cir, pir := pir, cbs := cbs, pbs := pbs,
           qlimit := ql, delimit := dl, tc := (cbs * 65536 : Nat), tp := (pbs * 65536 : Nat), last := 0 }
  else none

/-- R375's parent rule. -/
def State.parentOk (s : State) (q : Nat) (n : TbNode) : Bool :=
  if n.level = 1 then decide (n.parent < s.subports q)
  else match s.node q (n.level - 1) n.parent with
    | some p => decide (p.prec = n.prec)
    | none => false

/-- The precinct's templates allow a node: the class-group range, or one more aggregate or queue (R375). -/
def State.nodeQuota (s : State) (q i : Nat) (n : TbNode) : Bool :=
  let ts := s.templates n.prec q
  let isNew := match s.node q n.level i with | some o => decide (o.prec ≠ n.prec) | none => true
  if n.level = 1 then ts.any fun t => decide (t.cgFirst ≤ i) && decide (i < t.cgFirst + t.cgCount)
  else
    let most := (ts.map fun t => if n.level = 2 then t.aggMax else t.queueMax).sum
    decide (s.nodeCount n.prec q n.level + b2n isNew ≤ most)

/-- A node holds frames or children. -/
def State.nodeBusy (s : State) (q level i : Nat) : Bool :=
  if level = 3 then !(s.queued q i).isEmpty else !(s.children q level i).isEmpty

/-- Nodes of a level. -/
def nodeMax (level : Nat) : Nat := if level = 1 then 64 else if level = 2 then 4096 else 2 ^ 18

/-- WRITE. -/
def State.nodeWrite (s : State) (q level i : Nat) : State :=
  match nodeOf level (s.tbStaged q) with
  | none => s.tbStatus q 1
  | some n =>
    if !s.parentOk q n then s.tbStatus q 1
    else if !s.nodeQuota q i n then s.tbStatus q 3
    else if s.nodeBusy q level i then s.tbStatus q 5
    else (s.setNode q level i { n with last := s.tick }).tbStatus q 0

/-- A node with the rates, bursts, weight and limits of another, its tokens capped. -/
def TbNode.update (o n : TbNode) (now : Nat) : TbNode :=
  let o := o.at_ now
  { o with
    weight := n.weight, cir := n.cir, pir := n.pir, cbs := n.cbs, pbs := n.pbs, qlimit := n.qlimit, delimit := n.delimit
    tc := min o.tc (n.cbs * 65536 : Nat), tp := min o.tp (n.pbs * 65536 : Nat) }

/-- UPDATE. -/
def State.nodeUpdate (s : State) (q level i : Nat) : State :=
  match s.node q level i with
  | none => s.tbStatus q 4
  | some o =>
    match nodeOf level (s.tbStaged q) with
    | none => s.tbStatus q 1
    | some n =>
      if n.prec ≠ o.prec ∨ n.parent ≠ o.parent ∨ !s.parentOk q n then s.tbStatus q 1
      else if !s.nodeQuota q i n then s.tbStatus q 3
      else (s.setNode q level i (o.update n s.tick)).tbStatus q 0

/-- REMOVE. -/
def State.nodeRemove (s : State) (q level i : Nat) : State :=
  if (s.node q level i).isNone then s.tbStatus q 4
  else if s.nodeBusy q level i then s.tbStatus q 5
  else ({ s with eth := { s.eth with nodes := drop s.eth.nodes (key3 q level i) } } : State).tbStatus q 0

/-- The 8 bytes of a signed number. -/
def intBytes (n : Int) : Bytes := leBytes 8 (BitVec.ofInt 64 n).toNat

/-- The record of a node (Table 15.2). -/
def State.nodeBytes (s : State) (q i : Nat) (n : TbNode) : Bytes :=
  let back := s.backlogged 4 q n.level i
  let peak := n.peak s.tick
  let depth := if n.level = 3 then s.depth q i
    else ((s.children q n.level i).filter fun c => s.backlogged 4 q (n.level + 1) c.1).length
  leBytes 1 n.level ++ leBytes 1 n.prec ++ leBytes 2 n.weight ++ leBytes 4 n.parent ++ leBytes 4 n.cir ++ leBytes 4 n.pir ++
  leBytes 4 n.cbs ++ leBytes 4 n.pbs ++ leBytes 4 n.qlimit ++ leBytes 4 n.delimit ++ leBytes 32 0 ++
  intBytes n.tc ++ intBytes n.tp ++ leBytes 8 n.last ++ leBytes 8 n.s ++ leBytes 8 n.f ++ leBytes 4 depth ++
  leBytes 4 n.frames ++ leBytes 4 n.drops ++
  leBytes 4 (b2n back + 2 * b2n (back && peak && !n.committed s.tick) + 4 * b2n (back && !peak)) ++ leBytes 8 0

/-- READ. -/
def State.nodeRead (s : State) (q level i : Nat) : State :=
  match s.node q level i with
  | none => s.tbStatus q 4
  | some n =>
    let n := n.at_ s.tick
    let s := s.setNode q level i n
    let b := s.nodeBytes q i n
    (forNat 16 s fun s w => s.wr ⟨.tbStage, q, w⟩ (BitVec.ofNat 64 (leAt b (8 * w) 8))).tbStatus q 0

/-- TB_OP written (R384, R385). -/
def State.tbOpWrite (s : State) (rq : Requester) (q : Nat) (v : W64) : State :=
  let r : Reg := ⟨.tbOp, q, 0⟩
  let level := bitsOf v F.tbOp_LEVEL
  let i := bitsOf v F.tbOp_INDEX
  if !rqKernel rq || decide (level = 0) then s.refuse rq r
  else
    let op := bitsOf v F.tbOp_OP
    if op = 0 ∨ 4 < op then s.refuse rq r
    else if nodeMax level ≤ i then s.tbStatus q 1
    else match op with
      | 1 => s.nodeWrite q level i
      | 2 => s.nodeUpdate q level i
      | 3 => s.nodeRemove q level i
      | _ => s.nodeRead q level i

/-- The word with OP of a row. -/
def tbOpWord (op : Nat) (v : W64) : W64 := setBits v F.tbOp_OP op

/-- TB_WRITE (R384). -/
def execTbWrite (rq : Requester) (q : Qn) (v : W64) (s : State) : Host.Outcome State Fault Refusal :=
  done (s.tbOpWrite rq q.val (tbOpWord 1 v))

/-- TB_UPDATE (R384). -/
def execTbUpdate (rq : Requester) (q : Qn) (v : W64) (s : State) : Host.Outcome State Fault Refusal :=
  done (s.tbOpWrite rq q.val (tbOpWord 2 v))

/-- TB_REMOVE (R384). -/
def execTbRemove (rq : Requester) (q : Qn) (v : W64) (s : State) : Host.Outcome State Fault Refusal :=
  done (s.tbOpWrite rq q.val (tbOpWord 3 v))

/-- TB_READ (R384). -/
def execTbRead (rq : Requester) (q : Qn) (v : W64) (s : State) : Host.Outcome State Fault Refusal :=
  done (s.tbOpWrite rq q.val (tbOpWord 4 v))

/-! ### Transmit rings (R386, R388) -/

/-- TXR_DOORBELL (R462). -/
def execTxrDoorbell (f : FuncNo) (slot : Nat) (v : W64) (s : State) : Host.Outcome State Fault Refusal :=
  match s.slotOf f.val slot with
  | none => done (s.slotStray f.val)
  | some (.txr r) => done (s.ringProd r (v.toNat % 2 ^ 16))
  | some _ => done s

/-- What reading an entry gives: a frame, or the status it ends with. -/
def txBody (q most : Nat) (x : Ring) : IoM (Except Nat (Bytes × Bool × Bytes)) := do
  let req := soleStall q 8
  match ← ioTry (ioRead q req x.asid (ringAt x.buf x.log2 x.cons) 16) with
  | none => pure (.error 0x05)
  | some (_, true) => pure (.error 0x06)
  | some (e, false) =>
    let n := leAt e 8 2
    if n < 60 ∨ most - 4 < n ∨ 4 ≤ leAt e 0x0A 2 ∨ leAt e 0x0C 4 ≠ 0 then pure (.error 0x01)
    else match ← ioTry (ioRead q req x.asid (leAt e 0 8) n) with
      | none => pure (.error 0x05)
      | some (d, p) => pure (.ok (d, p, e))

/-- TX_ENTRY_FETCH (R386). -/
def execTxEntryFetch (r : Nat) (far : List FarAns) (s : State) : Host.Outcome State Fault Refusal :=
  match s.ring r with
  | none => done s
  | some x =>
    let q := x.target / 2 ^ 18 % 4
    if !x.tx || decide (x.prod ≤ x.cons) || s.stallFenced (soleStall q 8) || s.ringsPaused x.func || (s.func x.func).driverLost then done s
    else match (txBody q (s.fget (ethPortCfg q) F.ethPortCfg_MAX_FRAME) x).at s far with
      | (s, .error _) => done s
      | (s, .ok (.error st)) => done ((s.setRing r { x with cons := x.cons + 1 }).txEnd q (some (r, x.cons)) st 0)
      | (s, .ok (.ok (d, p, e))) =>
        let f : TxFrame := {
          data := d, de := nbit (leAt e 0x0A 2) 1, poison := p, ring := some (r, x.cons), tsReq := nbit (leAt e 0x0A 2) 0 }
        done ((s.setRing r { x with cons := x.cons + 1 }).toTollbooth x.target f).1

end Sys2Proof.Machine
end

