-- ==== Sys2Proof/Machine/CarterBase.lean ====
section
/-!
DEFINITION. What the Carter stalls share: contexts, packets, sealing, sending, completions and ERROR (R389–R410).
-/
namespace Sys2Proof.Machine

/-! ### Contexts (Table 16.12) -/

/-- Context `n`; one never written is FREE. -/
def State.conn (s : State) (n : Nat) : CarterCtx := (look s.carter.ctxs n).getD {}
def State.setConn (s : State) (n : Nat) (c : CarterCtx) : State :=
  { s with carter := { s.carter with ctxs := put s.carter.ctxs n c } }

def CarterCtx.num (c : CarterCtx) (o n : Nat) : Nat := leAt c.cfg o n
def CarterCtx.v6 (c : CarterCtx) : Bool := nbit (c.num 1 1) 0
def CarterCtx.strict (c : CarterCtx) : Bool := nbit (c.num 1 1) 1
def CarterCtx.sealed_ (c : CarterCtx) : Bool := nbit (c.num 1 1) 2
def CarterCtx.isRoce (c : CarterCtx) : Bool := nbit (c.num 1 1) 3
def CarterCtx.prec (c : CarterCtx) : Nat := c.num 2 1
def CarterCtx.port (c : CarterCtx) : Nat := c.num 3 1 / 8
def CarterCtx.paths (c : CarterCtx) : Nat := c.num 6 1
def CarterCtx.payload (c : CarterCtx) : Nat := 2 ^ c.num 7 1
def CarterCtx.peerConn (c : CarterCtx) : Nat := c.num 8 4
def CarterCtx.asid (c : CarterCtx) : Nat := c.num 0x0C 2
def CarterCtx.localIp (c : CarterCtx) : Bytes := slice c.cfg 0x10 16
def CarterCtx.peerIp (c : CarterCtx) : Bytes := slice c.cfg 0x20 16
def CarterCtx.retryLimit (c : CarterCtx) : Nat := c.num 0x3B 1
def CarterCtx.tollQueue (c : CarterCtx) : Nat := c.num 0x3C 4
def CarterCtx.sqBase (c : CarterCtx) : Nat := c.num 0x40 8
def CarterCtx.rqBase (c : CarterCtx) : Nat := c.num 0x48 8
def CarterCtx.cqBase (c : CarterCtx) : Nat := c.num 0x50 8
def CarterCtx.sqLog (c : CarterCtx) : Nat := c.num 0x58 1
def CarterCtx.rqLog (c : CarterCtx) : Nat := c.num 0x59 1
def CarterCtx.cqLog (c : CarterCtx) : Nat := c.num 0x5A 1
def CarterCtx.bellPart (c : CarterCtx) : Nat := c.num 0x5B 1
def CarterCtx.cipher (c : CarterCtx) : Nat := c.num 0x5C 4
def CarterCtx.reduceStall (c : CarterCtx) : Nat := c.num 0x66 2
def CarterCtx.reducePort (c : CarterCtx) : Nat := c.num 0x68 1

/-- The Carter stall that serves a context. -/
def CarterCtx.st (c : CarterCtx) : Nat := soleStall c.stall 9

/-- Sequence numbers count modulo 2^32, or 2^24 for a RoCEv2 context (R403, R409). -/
def CarterCtx.psnMod (c : CarterCtx) : Nat := if c.isRoce then 2 ^ 24 else 2 ^ 32

/-- `a` minus `b` modulo `m`. -/
def modSub (a b m : Nat) : Nat := (a + m - b % m) % m

/-- `a` comes before `b`. -/
def seqBefore (a b m : Nat) : Bool := decide (a ≠ b) && decide (modSub b a m < m / 2)

/-- The stall of Quarter `q` works: enabled and not fenced. -/
def State.carterOn (s : State) (q : Nat) : Bool :=
  s.fbit ⟨.carterCtrl, q, 0⟩ F.carterCtrl_ENABLE && !s.stallFenced (soleStall q 9)

def State.carterEvent (s : State) (q slot n : Nat) : State := s.stallEvent (soleStall q 9) slot n 0 0

/-- A packet discarded and counted. -/
def State.discard (s : State) (q : Nat) : State :=
  (s.fsat ⟨.carterErr, q, 0⟩ F.carterErr_DISCARDS 1).carterEvent q 9 1

/-- An injected parity error of a stall whose register `r` holds PARITY in `f` fences it. -/
def State.unitParity (s : State) (st : Nat) (r : Reg) (f : Fld) : Option State :=
  match s.injAt 0x08 st (fun _ => true) with
  | some _ => some ((s.injFire.fset r f 1).report 3 0x08 (precOr (s.precOfStall st)) st 0 0 0 true)
  | none => none

/-- A precinct takes no new work: it is quiescing, quiesced or loading (R92). -/
def State.precPaused (s : State) (p : Nat) : Bool :=
  let x := s.fget ⟨.ximPrecState, p, 0⟩ F.ximPrecState_STATE
  decide (2 ≤ x)

/-! ### Packets (Tables 16.2 and 16.3) -/

/-- A packet, unsealed. -/
structure Pkt where
  op : Nat
  flags : Nat
  conn : Nat
  epoch : Nat
  ver : Nat
  psn : Nat
  msn : Nat
  mlen : Nat
  off : Nat
  ext : Bytes
  payload : Bytes
  deriving DecidableEq, Repr

def Pkt.flag (p : Pkt) (i : Nat) : Bool := nbit p.flags i
def Pkt.flagged (p : Pkt) : Bool := p.flag 0
def Pkt.reduce (p : Pkt) : Bool := p.flag 1
def Pkt.poison (p : Pkt) : Bool := p.flag 3
def Pkt.raddr (p : Pkt) : Nat := beAt p.ext 0 8
def Pkt.rkey (p : Pkt) : Nat := beAt p.ext 8 4
def Pkt.atop (p : Pkt) : Nat := beAt p.ext 12 1
def Pkt.vfmt (p : Pkt) : Nat := beAt p.ext 13 1

/-- Bytes of the extension of an opcode; none for an opcode not in Table 16.3. -/
def extLen (op : Nat) : Option Nat :=
  match op with
  | 1 | 2 => some 16
  | 3 | 4 | 6 => some 0
  | 5 => some 32
  | 7 => some 8
  | 0x10 | 0x20 | 0x21 | 0x22 => some 24
  | _ => none

/-- The reserved fields of an extension are 0. -/
def extOk (op : Nat) (e : Bytes) : Bool :=
  match op with
  | 1 | 2 => decide (beAt e 12 4 = 0)
  | 5 => decide (beAt e 14 2 = 0) && decide (beAt e 12 1 ≤ 3)
  | 7 => decide (beAt e 2 2 = 0) && decide (beAt e 4 4 / 2 ^ 24 % 128 = 0)
  | 0x10 => decide (beAt e 0x14 4 = 0) && decide (beAt e 0x10 1 ≤ 5)
  | 0x20 | 0x21 | 0x22 => decide (beAt e 0 4 < 2 ^ 20) && decide (beAt e 4 1 ≤ 8) && decide (beAt e 5 3 = 0)
  | _ => true

/-- The bytes of a packet. -/
def Pkt.bytes (p : Pkt) (path : Nat) : Bytes :=
  beBytes 2 p.ver ++ beBytes 1 p.op ++ beBytes 1 p.flags ++ beBytes 4 p.conn ++ beBytes 2 p.epoch ++ beBytes 1 path ++
  beBytes 1 0 ++ beBytes 4 p.psn ++ beBytes 4 p.msn ++ beBytes 4 p.mlen ++ beBytes 4 p.off ++ beBytes 2 p.payload.length ++
  beBytes 2 0 ++ p.ext ++ p.payload

/-- The packet that unsealed bytes spell (R394). -/
def pktOf (b : Bytes) : Option Pkt :=
  let op := beAt b 2 1
  match extLen op with
  | none => none
  | some e =>
    let n := beAt b 0x1C 2
    let p : Pkt := {
      op := op, flags := beAt b 3 1, conn := beAt b 4 4, epoch := beAt b 8 2, ver := beAt b 0 2, psn := beAt b 0x0C 4,
      msn := beAt b 0x10 4, mlen := beAt b 0x14 4, off := beAt b 0x18 4, ext := slice b 32 e, payload := b.drop (32 + e) }
    if b.length = 32 + e + n ∧ p.flags < 64 ∧ p.conn < 2 ^ 20 ∧ beAt b 0x0A 1 < 16 ∧ beAt b 0x0B 1 = 0 ∧ beAt b 0x1E 2 = 0 ∧
        extOk op p.ext ∧ (7 ≤ op ∨ p.off + n ≤ p.mlen) then some p
    else none

/-! ### Sealing (R407) -/

/-- A nonce is drawn and the packet sealed; none where the Cashbox cannot. -/
def State.sealPkt (s : State) (c : CarterCtx) (b : Bytes) : State × Option Bytes :=
  match s.cashboxFor c.prec c.stall, s.ctxOf c.cipher with
  | some st, some (n, k) =>
    match s.keyOf k.inst k.key with
    | none => (s, none)
    | some key =>
      if k.state = 3 ∨ k.algo ≠ 2 then (s, none)
      else match s.drawNonce st n with
        | none => (s, none)
        | some (s, nonce, block) =>
          let s := if block then s.stallEvent st 9 1 0 0 else s
          let e := 32 + (extLen (beAt b 2 1)).getD 0
          let (t, tag) := aeadSeal k.algo key.key nonce (b.take e) (b.drop e)
          (s.stallEvent st 6 b.length 0 0, some (b.take e ++ nonce ++ t ++ tag))
  | _, _ => (s, none)

/-- A sealed packet verified and opened; none where it fails. -/
def State.unseal (s : State) (c : CarterCtx) (b : Bytes) : State × Option Bytes :=
  match s.cashboxFor c.prec c.stall, s.ctxOf c.cipher with
  | some st, some (_, k) =>
    match s.keyOf k.inst k.key with
    | none => (s, none)
    | some key =>
      let e := 32 + (extLen (beAt b 2 1)).getD 0
      if k.state = 3 ∨ k.algo ≠ 2 ∨ b.length < e + 28 then (s, none)
      else
        let body := (b.drop (e + 12)).take (b.length - e - 28)
        match aeadOpen k.algo key.key (slice b e 12) (b.take e) body (slice b (b.length - 16) 16) with
        | none => (s.stallEvent st 7 1 0 0, none)
        | some t => (s.stallEvent st 6 b.length 0 0, some (b.take e ++ t))
  | _, _ => (s, none)

/-! ### RoCEv2 packets (R409) -/

/-- First, middle, last or only, as a RoCEv2 opcode counts them from `base`: 0, 1, 2 and `only`. -/
def roceStep (p : Pkt) (base only : Nat) : Nat :=
  let last := decide (p.mlen ≤ p.off + p.payload.length)
  if p.off = 0 then (if last then only else base) else (if last then base + 2 else base + 1)

/-- The AETH syndrome of an ACK: an ACK, RNR, or a NAK code. -/
def roceSyndrome (nak : Nat) : Nat :=
  match nak with
  | 0 => 0x1F
  | 1 => 0x20
  | 2 => 0x62
  | 6 => 0x60
  | _ => 0x61

/-- A packet as RoCEv2 carries it, without its ICRC: base transport header, RETH or AETH, padded payload. -/
def roceBytes (qp : Nat) (p : Pkt) : Bytes :=
  let reth := beBytes 8 (p.raddr + (if p.op = 2 then p.off else 0)) ++ beBytes 4 p.rkey ++ beBytes 4 (p.mlen - (if p.op = 2 then p.off else 0))
  let (op, ext) : Nat × Bytes := match p.op with
    | 1 => let o := roceStep p 6 0x0A; (o, if p.off = 0 then reth else [])
    | 2 => (0x0C, reth)
    | 3 => let o := roceStep p 0x0D 0x10; (o, if o = 0x0E then [] else beBytes 1 0x1F ++ beBytes 3 p.msn)
    | 4 => (roceStep p 0 4, [])
    | _ => (0x11, beBytes 1 (roceSyndrome (beAt p.ext 0x10 1)) ++ beBytes 3 (beAt p.ext 0x0C 4))
  let pad := (4 - p.payload.length % 4) % 4
  let ack := if p.flag 4 then 0x80 else 0
  beBytes 1 op ++ beBytes 1 (0x40 + pad * 16) ++ beBytes 2 0xFFFF ++ beBytes 1 0 ++ beBytes 3 qp ++ beBytes 1 ack ++
    beBytes 3 p.psn ++ ext ++ p.payload ++ List.replicate pad 0#8

/-- The ICRC over a frame's IP header, UDP header and transport bytes, its changing fields taken as ones. -/
def icrcOf (v6 : Bool) (ip udp body : Bytes) : Bytes :=
  let f (n : Nat) : Bytes := List.replicate n 0xFF#8
  let ip := if v6 then overlay (overlay (overlay ip 0 [BitVec.ofNat 8 (beAt ip 0 1 ||| 0x0F)]) 1 (f 3)) 7 (f 1)
    else overlay (overlay (overlay ip 1 (f 1)) 8 (f 1)) 10 (f 2)
  fcsOf (f 8 ++ ip ++ overlay udp 6 (f 2) ++ overlay body 4 (f 1))

/-! ### Sending -/

/-- A UDP payload of a context handed to its Tollbooth queue. The frame's source MAC address, time to live and identification are
free. -/
def State.sendUdp (s : State) (c : CarterCtx) (path dport : Nat) (roce : Bool) (payload : Bytes) : State :=
  let n := s.fresh
  let cut (a : Bytes) : Bytes := if c.v6 then a else a.drop 12
  let h : UdpHead := {
    v6 := c.v6, dmac := slice c.cfg 0x30 6, smac := s.freeBytes 6, vlan := c.num 0x0E 2, src := cut c.localIp, dst := cut c.peerIp,
    sport := c.num 0x36 2 + path, dport := dport, dscp := c.num 0x3A 1, ttl := Config.freeNat n % 256,
    ident := Config.freeNat (n + 1) % 2 ^ 16 }
  let frame :=
    if roce then
      let f := udpFrame h (payload ++ [0, 0, 0, 0])
      let o := if nbit h.vlan 12 then 18 else 14
      let l := if c.v6 then 40 else 20
      udpFrame h (payload ++ icrcOf c.v6 (slice f o l) (slice f (o + l) 8) payload)
    else udpFrame h payload
  let s := (s.useFresh 6).carterEvent c.stall 6 1
  (s.toTollbooth c.tollQueue { data := frame }).1

/-- A packet sent on a path, sealed where the connection is. -/
def State.sendPkt (s : State) (c : CarterCtx) (path : Nat) (p : Pkt) : State :=
  let s := s.carterEvent c.stall 12 p.payload.length
  if c.isRoce ∧ p.op < 0x20 then s.sendUdp c path 4791 true (roceBytes c.peerConn p)
  else
    let b := p.bytes path
    if c.sealed_ ∧ p.op < 0x20 then
      match s.sealPkt c (overlay b 3 [BitVec.ofNat 8 (p.flags % 64 ||| 4)]) with
      | (s, some b) => s.sendUdp c path (c.num 0x38 2) false b
      | (s, none) => s
    else s.sendUdp c path (c.num 0x38 2) false b

/-- The first path at or after `n`, in order, that is not DOWN. -/
def CarterCtx.pathFrom (c : CarterCtx) (n : Nat) : Nat :=
  let ps := (List.range c.paths).map fun i => (n + i) % c.paths
  (ps.find? fun p => !c.pathDown.contains p).getD (n % c.paths)

/-- A packet of a context with the header fields every packet carries. -/
def CarterCtx.pkt (c : CarterCtx) (op flags psn msn mlen off : Nat) (ext payload : Bytes) : Pkt :=
  let (epoch, ver) := match c.peer with | some (e, _, v) => (e, v) | none => (0, 0)
  { op := op, flags := flags, conn := c.peerConn, epoch := epoch, ver := ver, psn := psn, msn := msn, mlen := mlen, off := off,
    ext := ext, payload := payload }

/-- A packet of the HELLO family. -/
def State.sendHello (s : State) (n op : Nat) : State :=
  let c := s.conn n
  let ext := beBytes 4 n ++ beBytes 1 1 ++ beBytes 3 0 ++ beBytes 2 0x0100 ++ beBytes 14 0
  s.sendPkt c 0 { c.pkt op 0 c.initPsn 0 0 0 ext [] with epoch := c.epoch, ver := 0x0100 }

/-- An ACK (Table 16.7), with a NAK of a PSN. -/
def State.sendAck (s : State) (n nak psn us : Nat) : State :=
  let c := s.conn n
  let sack := ((List.range 64).map fun i => if c.got.contains ((c.cum + 1 + i) % c.psnMod) then 2 ^ i else 0).sum
  let ext := beBytes 4 c.cum ++ beBytes 8 sack ++ beBytes 4 c.msnDone ++ beBytes 1 nak ++ beBytes 1 c.ce ++ beBytes 2 us ++ beBytes 4 0
  let psn := if c.isRoce ∧ nak = 0 then modSub c.cum 1 c.psnMod else psn
  let s := if nak = 1 then s.carterEvent c.stall 11 1 else s
  (s.setConn n { c with sinceAck := 0, ce := 0 }).sendPkt c (c.pathFrom 0) (c.pkt 0x10 0 psn 0 0 0 ext [])

/-! ### Orders (Table 16.4) -/

def oOp (d : Bytes) : Nat := leAt d 0 1
def oFlag (d : Bytes) (i : Nat) : Bool := nbit (leAt d 1 1) i
def oAtop (d : Bytes) : Nat := leAt d 2 1
def oFmt (d : Bytes) : Nat := leAt d 3 1
def oLen (d : Bytes) : Nat := leAt d 4 4
def oLocal (d : Bytes) : Nat := leAt d 8 8
def oRemote (d : Bytes) : Nat := leAt d 0x10 8
def oRkey (d : Bytes) : Nat := leAt d 0x18 4
def oTrig (d : Bytes) : Nat := leAt d 0x1C 1
def oTrigCtr (d : Bytes) : Nat := leAt d 0x1E 2
def oTrigVal (d : Bytes) : Nat := leAt d 0x20 4
def oSig (d : Bytes) : Nat := leAt d 0x24 2
def oSigN (d : Bytes) : Nat := leAt d 0x28 4

/-- An order whose result comes back: a READ or a fetching atomic. -/
def oFetches (d : Bytes) : Bool := decide (oOp d = 2) || (decide (oOp d = 4) && decide (oAtop d ≠ 3))

/-! ### Completions (R398) -/

/-- Order completions taken in SQ order, as far as they go. -/
def takeComps : List COrder → List CComp × List COrder
  | [] => ([], [])
  | o :: r =>
    match o.status with
    | none => ([], o :: r)
    | some st =>
      let (a, b) := takeComps r
      ({ idx := o.idx, len := o.moved, status := st, recv := false, sig := oSig o.desc, amount := oSigN o.desc } :: a, b)

/-- Receive completions taken in RQ order. -/
def takeRecvs : Nat → Nat → Tab (Nat × Nat) → List CComp × Nat × Tab (Nat × Nat)
  | 0, n, t => ([], n, t)
  | fuel + 1, n, t =>
    match look t n with
    | none => ([], n, t)
    | some (len, st) =>
      let (a, m, t) := takeRecvs fuel (n + 1) (drop t n)
      ({ idx := n, len := len, status := st, recv := true } :: a, m, t)

/-- Completions whose turn has come join those that wait for the CQ. -/
def CarterCtx.gather (c : CarterCtx) : CarterCtx :=
  let (a, os) := takeComps c.orders
  let (b, n, t) := takeRecvs (c.rxComps.length + 1) c.rxCompNext c.rxComps
  { c with comps := c.comps ++ a ++ b, orders := os, rxComps := t, rxCompNext := n }

/-- The bytes of a completion (Table 16.6). -/
def CComp.bytes (x : CComp) (lg : Nat) (phase : Bool) : Bytes :=
  leBytes 8 (x.idx % 2 ^ lg) ++ leBytes 4 x.len ++ leBytes 4 (x.status + 256 * b2n x.recv + 2 ^ 31 * b2n phase)

/-- Waiting completions written while the CQ has a free entry; an order's counter is signalled after its own. -/
def State.writeComps (s : State) (n : Nat) : Nat → State
  | 0 => s
  | fuel + 1 =>
    let c := s.conn n
    match c.comps with
    | [] => s
    | x :: rest =>
      if 2 ^ c.cqLog ≤ c.cqProd - c.cqCons then s
      else
        let lg := if x.recv then c.rqLog else c.sqLog
        let b := x.bytes lg (phaseOf c.cqLog c.cqProd)
        match (ioCompletion c.stall c.st c.asid (ringAt c.cqBase c.cqLog c.cqProd) b).at s [] with
        | (s, .error .held) => s
        | (s, _) =>
          let s := s.setConn n { c with comps := rest, cqProd := c.cqProd + 1 }
          (s.signal x.sig x.amount c.st).writeComps n fuel

/-- A context's completions given as far as they go. -/
def State.complete (s : State) (n : Nat) : State :=
  (s.setConn n (s.conn n).gather).writeComps n ((s.conn n).gather.comps.length + 1)

/-! ### ERROR (R404) -/

/-- The status that flushes the orders of a context in ERROR. -/
def CarterCtx.flushStatus (c : CarterCtx) : Nat := if c.errCode = 0x46 then 0x46 else 0x44

/-- Every order taken and every posted receive entry of a context in ERROR ends. The bytes that a flushed message has moved are
free. -/
def State.flushConn (s : State) (n : Nat) : State :=
  let c := s.conn n
  if c.state ≠ 4 ∨ c.flushed then s
  else
    let moved (o : COrder) : Nat := match o.msn with | some _ => Config.freeNat (s.fresh + o.idx) % (oLen o.desc + 1) | none => 0
    let os := c.orders.map fun o => match o.status with
      | some _ => o
      | none => { o with status := some c.flushStatus, moved := moved o, dormant := false, todo := [] }
    let known := (List.range (c.rqProd - c.rxCompNext)).map (c.rxCompNext + ·)
    let rx := known.foldl (fun t i => match look t i with | some _ => t | none => put t i (0, 0x44)) c.rxComps
    let s := (s.useFresh (c.sqProd + 1)).dropWaiters (fun w => w = .order n)
    s.setConn n { c with orders := os, rxComps := rx, unacked := [], stalled := none, flushed := true }

/-- A context enters ERROR with a code; the order of a message number, if given, with a status of its own. -/
def State.connError (s : State) (n code : Nat) (msn : Option Nat) : State :=
  let c := s.conn n
  if c.state ≠ 2 ∧ c.state ≠ 3 then s
  else
    let os := c.orders.map fun o => if msn.isSome ∧ o.msn = msn ∧ o.status.isNone then { o with status := some code } else o
    let s := match c.func with
      | some f => s.endDocketsConn f n
      | none => s
    ((s.setConn n { c with state := 4, errCode := code, orders := os, flushed := false }).flushConn n).complete n

/-! ### Sending messages (R402, R404) -/

/-- The extension of an order's packets. -/
def orderExt (d : Bytes) : Bytes :=
  match oOp d with
  | 1 | 2 => beBytes 8 (oRemote d) ++ beBytes 4 (oRkey d) ++ beBytes 4 0
  | 4 => beBytes 8 (oRemote d) ++ beBytes 4 (oRkey d) ++ beBytes 1 (oAtop d) ++ beBytes 1 (oFmt d) ++ beBytes 2 0 ++
      beBytes 8 (leAt d 0x30 8) ++ beBytes 8 (leAt d 0x38 8)
  | 5 => beBytes 2 (leAt d 0x30 2) ++ beBytes 2 0 ++ beBytes 4 (leAt d 0x32 3 + 2 ^ 31 * b2n (nbit (leAt d 0x37 1) 7))
  | _ => []

/-- The opcode of an order's packets. -/
def orderPkt (d : Bytes) : Nat := match oOp d with | 1 => 1 | 2 => 2 | 3 => 4 | 4 => 5 | _ => 7

/-- PSNs that a packet takes: one, or for a RoCEv2 read one for each packet of its response. -/
def CarterCtx.psnsOf (c : CarterCtx) (d : Bytes) (off : Nat) : Nat :=
  if c.isRoce ∧ oOp d = 2 then max 1 ((oLen d - off + c.payload - 1) / c.payload) else 1

/-- One packet of an order sent as the next PSN. -/
def State.sendNext (s : State) (n : Nat) (o : COrder) (x : Nat × Bytes × Bool) : State :=
  let c := s.conn n
  let d := o.desc
  let (off, data, bad) := x
  let len := if oOp d = 5 then 0 else oLen d
  let last := o.todo.length ≤ 1
  let flags := b2n (oFlag d 0) + 2 * b2n (oFlag d 1) + 8 * b2n bad + 16 * b2n last
  let psn := c.nextPsn
  let p := c.pkt (orderPkt d) flags psn (o.msn.getD 0) len off (orderExt d) data
  let path := c.pathFrom (psn % c.paths)
  let t : TxPkt := { psn := psn, msn := o.msn.getD 0, bytes := p.bytes path, path := path, first := path }
  let c := { c with unacked := c.unacked ++ [t], nextPsn := (psn + c.psnsOf d off) % c.psnMod }
  (s.setConn n c).sendPkt c path p

/-- Packets not yet acknowledged. -/
def CarterCtx.window (c : CarterCtx) : Nat := (c.unacked.filter fun t => !t.sacked).length

/-- The orders' unsent packets sent, within the window of 8192 packets and outside a RETRY_AFTER. -/
def State.sendMore (s : State) (n : Nat) : Nat → State
  | 0 => s
  | fuel + 1 =>
    let c := s.conn n
    if c.state ≠ 3 ∨ c.stalled.isSome ∨ 8192 ≤ c.window then s
    else match c.orders.find? (fun o => !o.todo.isEmpty) with
      | none => s
      | some o =>
        match o.todo with
        | [] => s
        | x :: rest =>
          let s := s.sendNext n o x
          let c := s.conn n
          let os := c.orders.map fun y => if y.idx = o.idx then { y with todo := rest } else y
          (s.setConn n { c with orders := os }).sendMore n fuel

/-- Unsent packets of a context. -/
def CarterCtx.todoCount (c : CarterCtx) : Nat := (c.orders.map fun o => o.todo.length).sum

/-- A packet sent again, with RETX, on the next path in order; one that has been sent RETRY_LIMIT + 1 times puts the context in
ERROR. -/
def State.resend (s : State) (n : Nat) (t : TxPkt) (counts : Bool) : State :=
  let c := s.conn n
  if counts && decide (c.retryLimit + 1 ≤ t.sent) then s.connError n 0x43 (some t.msn)
  else match pktOf t.bytes with
    | none => s
    | some p =>
      let path := c.pathFrom ((t.path + 1) % c.paths)
      let p := { p with flags := p.flags ||| 0x20 }
      let t' := { t with path := path, sent := t.sent + b2n counts, bytes := p.bytes path }
      let c := { c with unacked := c.unacked.map fun u => if u.psn = t.psn then t' else u }
      ((s.setConn n c).carterEvent c.stall 8 1).sendPkt c path p

/-! ### Regions (R405) -/

def State.region (s : State) (i : Nat) : Region := (look s.carter.regions i).getD {}
def State.setRegion (s : State) (i : Nat) (r : Region) : State :=
  { s with carter := { s.carter with regions := put s.carter.regions i r } }

/-- A peer access of `n` bytes passes R405; `bit` is the ACCESS bit it needs. -/
def State.regionOk (s : State) (c : CarterCtx) (rkey va n bit : Nat) : Bool :=
  let r := s.region (rkey % 2 ^ 20)
  nbit r.access 7 && decide (r.gen = rkey / 2 ^ 20) && decide (r.asid = c.asid) && decide (r.base ≤ va) &&
    decide (va + n ≤ r.base + r.length) && nbit r.access bit

/-- The region keeps its pages on demand. -/
def State.onDemand (s : State) (rkey : Nat) : Bool := nbit (s.region (rkey % 2 ^ 20)).access 3

/-- The accesses of a Carter stall to an address space leave the Surveyor's records (R406). -/
def State.withdraw (s : State) (q req asid : Nat) : State :=
  let mine (a : VAccess) : Bool := decide (a.req = req) && decide (a.asid = asid)
  let x := s.surveyor q
  s.setSurveyor q { x with
    recs := x.recs.map fun r => (r.1, { r.2 with joined := r.2.joined.filter (!mine ·) })
    waiting := x.waiting.filter (!mine ·)
    atsWait := x.atsWait.map fun w => (w.1, w.2.filter (!mine ·)) }

end Sys2Proof.Machine
end

