-- ==== Sys2Proof/Machine/Tally.lean ====
section
/-!
DEFINITION. The Tally stalls: exact reduction of chunks and pieces, sparse merging, packed Tally words (R318–R323, R328–R337).
-/
namespace Sys2Proof.Machine

/-! ### Reduction -/

/-- The order of MAX and MIN: −0 below +0 (R320). -/
def orderBits (fmt b : Nat) : Nat :=
  let w := elemBits fmt
  if isInt fmt then b ^^^ 2 ^ (w - 1) else if nbit b (w - 1) then 2 ^ w - 1 - b else b + 2 ^ (w - 1)

/-- MAX (1) or MIN (2) of the bits of terms; a NaN among them gives the canonical NaN (R320). -/
def extreme (op fmt : Nat) : List Nat → Nat
  | [] => 0
  | x :: xs =>
    let r := xs.foldl (fun a b =>
      if isNan fmt a then a
      else if isNan fmt b then b
      else if op = 1 then (if orderBits fmt a < orderBits fmt b then b else a)
      else (if orderBits fmt b < orderBits fmt a then b else a)) x
    canonBits fmt r

/-- The sum of contributions to one element, exact, or fast under a policy (R116, R131). -/
def reduceSum (pol at_ : Nat) (ws : List Tw) : Ex :=
  if polFast pol then fastSum at_ (ws.map Tw.value) [] else (ws.foldl Tw.merge {}).value

/-! ### Packed Tally words (R331) -/

/-- Limb `i` of T. -/
def limb (t i : Nat) : Nat := t / 2 ^ (64 * i) % 2 ^ 64

/-- Limbs `f` to `f + c − 1` hold T: those below are 0, and the sign extension of the last gives those above. -/
def packHolds (t f c : Nat) : Bool :=
  let neg := nbit (limb t (f + c - 1)) 63
  (List.range f).all (fun i => decide (limb t i = 0)) &&
  ((List.range 10).filter (fun i => f + c ≤ i)).all fun i => decide (limb t i = if neg then 2 ^ 64 - 1 else 0)

/-- The shortest packed form of a word. -/
def Tw.pack (w : Tw) : Bytes :=
  if w.t = 0 then [0#8, BitVec.ofNat 8 (w.st % 8)]
  else
    let f := ((List.range 10).find? fun i => decide (limb w.t i ≠ 0)).getD 0
    let c := ((List.range 10).find? fun c => decide (1 ≤ c) && packHolds w.t f c).getD (10 - f)
    leBytes 1 (f + 16 * c) ++ leBytes 1 (w.st % 8) ++ (List.range c).flatMap fun i => leBytes 8 (limb w.t (f + i))

/-- One packed word at the head of a payload, and the rest; none when malformed. -/
def unpackTw (b : Bytes) : Option (Tw × Bytes) :=
  let f := leAt b 0 1 % 16
  let c := leAt b 0 1 / 16
  let st := leAt b 1 1
  if b.length < 2 + 8 * c ∨ 8 ≤ st ∨ 10 < f + c then none
  else
    let v := leNat (slice b 2 (8 * c)) * 2 ^ (64 * f)
    let neg := 0 < c ∧ nbit v (64 * (f + c) - 1)
    some (⟨if neg then v + (twMod - 2 ^ (64 * (f + c))) else v, st⟩, b.drop (2 + 8 * c))

/-- `n` packed words that fill a payload. -/
def unpackAll : Nat → Bytes → Option (List Tw)
  | 0, b => if b.isEmpty then some [] else none
  | n + 1, b =>
    match unpackTw b with
    | none => none
    | some (w, rest) => (unpackAll n rest).map (w :: ·)

/-! ### The descriptor (Table 12.4) -/

def yIn (d : Bytes) : Nat := leAt d 2 1
def yOut (d : Bytes) : Nat := leAt d 3 1
def yOp (d : Bytes) : Nat := leAt d 4 1
def yFlag (d : Bytes) (i : Nat) : Bool := nbit (leAt d 5 1) i
def yElem0 (d : Bytes) : Nat := leAt d 0x48 4
def yElems (d : Bytes) : Nat := leAt d 0x4C 4
def yMem (d : Bytes) : Nat := leAt d 0x50 2
def yCopies (d : Bytes) : Nat := leAt d 0x52 2
def yParts (d : Bytes) : Nat := leAt d 0x54 4

/-- Formats of R318 for a reduction. -/
def tallyFmtOk (d : Bytes) : Bool :=
  let ok (f : Nat) : Bool := isPlain f || isMx f || decide (f = 0x20)
  if tOp d = 2 then decide (yIn d = 0x31) && decide (yOp d = 0) && (isPlain (yOut d) || decide (yOut d = 0x20))
  else if yOp d = 0 then ok (yIn d) && ok (yOut d)
  else isPlain (yIn d) && decide (yIn d = yOut d)

/-- A Tally descriptor is well formed (R335). The pieces of a SPARSE_MERGE can hold packed words only. -/
def tallyOk (_ : State) (d : Bytes) : Bool :=
  let stream := yFlag d 0 || yFlag d 1
  let mx := isMx (yIn d) || isMx (yOut d)
  polOk (leAt d 1 1) && tallyFmtOk d && decide (yOp d < 3) && decide (leAt d 5 1 < 32) &&
  !((yFlag d 3 || yFlag d 4) && decide (yOp d ≠ 0)) && !(yFlag d 3 && !stream) &&
  !(decide (tOp d = 2) && stream && !yFlag d 3) && decide (0 < yMem d + yParts d) && decide (yMem d ≤ 64) &&
  (decide (yMem d ≠ 0) || (tZero d 0x18 8 && tZero d 0x20 8)) && (isMx (yIn d) || tZero d 0x20 8) &&
  (isMx (yOut d) || tZero d 0x38 8) && (!mx || decide (yElem0 d % 32 = 0)) && decide (1 ≤ yElems d ∧ yElems d ≤ 4096) &&
  (if yFlag d 2 then decide (yCopies d = 0) && tZero d 0x30 8 && tZero d 0x38 8
   else decide (1 ≤ yCopies d ∧ yCopies d ≤ 64)) &&
  decide (yParts d ≤ 2 ^ 20) && (stream || decide (yParts d = 0)) && tZero d 0x58 40

/-! ### Pieces (R329) -/

def pElem (b : Bytes) : Nat := leAt b 0 4
def pCount (b : Bytes) : Nat := leAt b 4 4
def pBytes (b : Bytes) : Nat := leAt b 8 4

/-- The pieces taken for a task. -/
def State.piecesOf (s : State) (st index : Nat) : List HeldPiece :=
  s.stall.pieces.filter fun p => decide (p.stall = st) && decide (p.task = index)

/-- Elements that a task's pieces have brought. -/
def State.pieceElems (s : State) (st index : Nat) : Nat := ((s.piecesOf st index).map fun p => pCount p.data).sum

/-- A task has all of its streamed elements (R330). -/
def State.piecesFull (s : State) (st : Nat) (t : Task) : Bool :=
  decide (yElems t.desc * yParts t.desc ≤ s.pieceElems st t.index)

/-- A piece lies whole in a task's range, and begins in it. -/
def pieceIn (d b : Bytes) : Bool :=
  decide (yElem0 d ≤ pElem b) && decide (pElem b + pCount b ≤ yElem0 d + yElems d)
def pieceBegins (d b : Bytes) : Bool := decide (yElem0 d ≤ pElem b) && decide (pElem b < yElem0 d + yElems d)

/-- Elements of a payload as words: plain elements, MX blocks after their scale bytes, Tally cells, or packed words; none
when malformed. -/
def pieceWords (fmt : Nat) (packed : Bool) (n : Nat) (p : Bytes) : Option (List Tw) :=
  if packed then unpackAll n p
  else if fmt = 0x20 then
    if p.length = 96 * n then (List.range n).mapM fun i => Tw.ofCell (slice p (96 * i) 96) else none
  else
    let (vs, len) := streamRow fmt n p 0
    if p.length = len then some (vs.map fun v => ({} : Tw).add v) else none

/-- The bits of a payload's plain elements. -/
def pieceBits (fmt n : Nat) (p : Bytes) : List Nat := (List.range n).map fun i => packedAt p (elemBits fmt) i

/-- A piece's header and payload agree (R329). -/
def pieceOk (b : Bytes) : Bool :=
  decide (16 ≤ b.length) && decide (1 ≤ pCount b) && decide (pCount b ≤ 4096) && decide (b.length = 16 + pBytes b) &&
  tZero b 12 4

/-- A piece's payload fits a task's format. -/
def pieceFits (d b : Bytes) : Bool :=
  pieceOk b && (pieceWords (yIn d) (yFlag d 3) (pCount b) (b.drop 16)).isSome

/-- The current task will complete with MALFORMED_OPERAND. -/
def State.pieceBad (s : State) (st : Nat) : State :=
  match s.tasks st with
  | t :: _ => s.setHead st { t with addFail := if t.addFail = 0 then 0x02 else t.addFail }
  | [] => s

/-- A piece taken for a task. -/
def State.pieceTake (s : State) (st : Nat) (t : Task) (b : Bytes) (p : Bool) : State :=
  let s := { s with stall := { s.stall with pieces := s.stall.pieces ++ [(⟨st, t.index, b, p⟩ : HeldPiece)] } }
  let s := s.stallEvent st 7 1 t.index (tAsid t.desc)
  if yFlag t.desc 3 then s.stallEvent st 8 (pBytes b) t.index (tAsid t.desc) else s

/-- TALLY_PIECE_ARRIVE (R329): the oldest whole stream of an input port is taken for the current task or the next, makes the
current task MALFORMED_OPERAND, or waits for a later task. -/
def execTallyPieceArrive (st : StallNo) (port : Fin 2) (s : State) : Host.Outcome State Fault Refusal :=
  let st := st.val
  if stallKind st ≠ 4 ∨ !stallOk st ∨ s.stallFenced st then done s
  else match s.stream st port.val, (s.tasks st).filter (fun t => t.phase = .waiting) with
    | some (b, p), t :: rest =>
      let ts := t :: rest
      if p then done ((s.streamTake st port.val).pieceTake st t (slice b 0 16) true)
      else if !pieceOk b ∨ pElem b < yElem0 t.desc ∨ ts.any (fun t => pieceBegins t.desc b && !pieceIn t.desc b) then
        done ((s.streamTake st port.val).pieceBad st)
      else match ts.find? (fun t => pieceIn t.desc b && !s.piecesFull st t) with
        | some u =>
          let s := s.streamTake st port.val
          done (if pieceFits u.desc b then s.pieceTake st u b false else s.pieceBad st)
        | none => done s
    | _, _ => done s

/-! ### Tasks -/

/-- Element contributions of memory part `i`, as words. -/
def memPart (st : Nat) (d : Bytes) (i : Nat) : TaskM (List Tw) := do
  let va := leAt d 0x18 8 + i * leAt d 0x28 8
  if yIn d = 0x20 then readCells st (tAsid d) va (yElems d)
  else
    let vs ← readRowV st (tAsid d) (yIn d) va (leAt d 0x20 8 + i * leAt d 0x28 8) 0 0 0 (yElems d)
    pure (vs.map fun v => ({} : Tw).add v)

/-- The bits of memory part `i`. -/
def memBits (st : Nat) (d : Bytes) (i : Nat) : TaskM (List Nat) :=
  readPacked st (tAsid d) (leAt d 0x18 8 + i * leAt d 0x28 8) (elemBits (yIn d)) 0 (yElems d)

/-- A wire vector in memory; a malformed one is a malformed operand (R113). -/
def readWireV (st asid va : Nat) : TaskM Wire := do
  let h ← readOk st asid va 16
  let vo := roundUp (0x10 + leAt h 12 4) 8
  let b ← readOk st asid va (roundUp (vo + leAt h 4 4 * (elemBits (leAt h 0 1) / 8)) 8)
  match readWire b with
  | some w => pure w
  | none => throw (.fail 0x02)

/-- The words of a wire vector inside a chunk: 0 where it holds no index. -/
def wirePart (w : Wire) (e0 n : Nat) : List Tw :=
  (List.range n).map fun i => match (w.idx.zip w.bits).find? (fun x => decide (x.1 = e0 + i)) with
    | some x => ({} : Tw).add (decodeElem w.fmt x.2)
    | none => {}

/-- The pieces of the current task, when all have come. -/
def takePieces (st : Nat) : TaskM (List HeldPiece) := ExceptT.mk fun s =>
  match s.tasks st with
  | t :: _ =>
    if t.addFail ≠ 0 then (.error (.fail t.addFail), s)
    else
      let ps := s.piecesOf st t.index
      if ps.any (·.poison) then (.error (.fail 0x06), s)
      else if s.piecesFull st t then (.ok ps, s) else (.error .held, s)
  | [] => (.error .held, s)

/-- The words that pieces contribute to element `i` of a chunk. -/
def piecesAt (d : Bytes) (ps : List HeldPiece) (i : Nat) : List Tw :=
  ps.filterMap fun p =>
    let o := pElem p.data - yElem0 d
    if o ≤ i ∧ i < o + pCount p.data then
      match pieceWords (yIn d) (yFlag d 3) (pCount p.data) (p.data.drop 16) with
      | some ws => ws[i - o]?
      | none => none
    else none

/-- The bits that pieces contribute to element `i`. -/
def pieceBitsAt (d : Bytes) (ps : List HeldPiece) (i : Nat) : List Nat :=
  ps.filterMap fun p =>
    let o := pElem p.data - yElem0 d
    if o ≤ i ∧ i < o + pCount p.data then (pieceBits (yIn d) (pCount p.data) (p.data.drop 16))[i - o]? else none

/-- A chunk as one piece (R330). -/
def asPiece (d payload : Bytes) : Bytes :=
  leBytes 4 (yElem0 d) ++ leBytes 4 (yElems d) ++ leBytes 4 payload.length ++ leBytes 4 0 ++ payload

/-- The copies of a chunk, or its piece (R330): element bytes, scale bytes, and the chunk as it streams. -/
def tallyCalc (d elems scales str : Bytes) (nan ovf : Bool) (events : List (Nat × Nat)) : Calc :=
  if yFlag d 2 then { streams := [asPiece d str], nan := nan, ovf := ovf, events := events }
  else
    { outs := List.replicate (yCopies d) elems ++ (if isMx (yOut d) && !yFlag d 4 then List.replicate (yCopies d) scales else []),
      nan := nan, ovf := ovf, events := events }

/-- The chunk that exact sums make, in the output format or packed. -/
def sumsCalc (d : Bytes) (f0 : Nat) (words : List (List Tw)) : Calc :=
  let adds := (words.map (·.length)).sum
  if yFlag d 4 then
    let b := words.flatMap fun ws => (ws.foldl Tw.merge {}).pack
    tallyCalc d b [] b false false [(6, adds), (9, b.length)]
  else if yOut d = 0x20 then
    let ts := words.map fun ws => ws.foldl Tw.merge {}
    let b := ts.flatMap Tw.cell
    tallyCalc d b [] b (ts.any Tw.nanFlag) false [(6, adds)]
  else
    let vs := words.zipIdx.map fun x => reduceSum (leAt d 1 1) (f0 + x.2 * adds) x.1
    let (e, sc, n, o) := encodeVals (yOut d) (leAt d 1 1) vs
    let (str, _, _) := streamVals (yOut d) (leAt d 1 1) vs
    tallyCalc d e sc str n o [(6, adds)]

/-- REDUCE (R319, R320, R330). -/
def reduceBody (st : Nat) (d : Bytes) : TaskM Calc := do
  let ps ← takePieces st
  let n := List.range (yElems d)
  if yOp d = 0 then
    let parts ← (List.range (yMem d)).mapM (memPart st d)
    let words := n.map fun i => parts.map (fun p => p.getD i {}) ++ piecesAt d ps i
    let f0 ← takeFresh (if polFast (leAt d 1 1) then (words.map (·.length)).sum * yElems d else 0)
    pure (sumsCalc d f0 words)
  else
    let parts ← (List.range (yMem d)).mapM (memBits st d)
    let bits := n.map fun i => parts.map (fun p => p.getD i 0) ++ pieceBitsAt d ps i
    let out := bits.map (extreme (yOp d) (yIn d))
    let b := packBytes (elemBits (yOut d)) out
    pure (tallyCalc d b [] b (out.any (isNan (yOut d))) false [(6, (bits.map (·.length)).sum)])

/-- SPARSE_MERGE (R322). -/
def mergeBody (st : Nat) (d : Bytes) : TaskM Calc := do
  let ps ← takePieces st
  let ws ← (List.range (yMem d)).mapM fun i => readWireV st (tAsid d) (leAt d 0x18 8 + i * leAt d 0x28 8)
  let parts := ws.map fun w => wirePart w (yElem0 d) (yElems d)
  let words := (List.range (yElems d)).map fun i => parts.map (fun p => p.getD i {}) ++ piecesAt d ps i
  let f0 ← takeFresh (if polFast (leAt d 1 1) then (words.map (·.length)).sum * yElems d else 0)
  pure (sumsCalc d f0 words)

/-- What a Tally task writes. Packed copies have no length of their own; a failed task poisons the least that packed words
take. -/
def tallyOp (body : Bytes → TaskM Calc) (_ : State) (d : Bytes) : TaskOp :=
  let n := yElems d
  let copies := List.range (yCopies d)
  let len := if yFlag d 4 then 2 * n else packedLen (yOut d) n
  { outs := if yFlag d 2 then []
      else copies.map (fun i => (leAt d 0x30 8 + i * leAt d 0x40 8, len)) ++
        (if isMx (yOut d) && !yFlag d 4 then copies.map fun i => (leAt d 0x38 8 + i * leAt d 0x40 8, (n + 31) / 32) else []),
    outPorts := if yFlag d 2 then [0] else [], body := body d }

/-- A task that has run gives back the bank that its pieces filled. -/
def State.bankFree (s : State) (st : Nat) : State :=
  match s.tasks st with
  | t :: _ =>
    if t.phase = .done then
      { s with stall := { s.stall with
        pieces := s.stall.pieces.filter fun p => !(decide (p.stall = st) && decide (p.task = t.index)) } }
    else s
  | [] => s

/-- TALLY_REDUCE (R330). -/
def execTallyReduce (st : StallNo) (s : State) : Host.Outcome State Fault Refusal :=
  done ((s.taskStep st.val 4 1 2 tallyOk (tallyOp (reduceBody st.val))).bankFree st.val)

/-- TALLY_SPARSE_MERGE (R334). -/
def execTallySparseMerge (st : StallNo) (s : State) : Host.Outcome State Fault Refusal :=
  done ((s.taskStep st.val 4 2 2 tallyOk (tallyOp (mergeBody st.val))).bankFree st.val)

end Sys2Proof.Machine
end

