-- ==== Sys2Proof/Machine/Carter.lean ====
section
/-!
DEFINITION. The Carter stalls: operations on contexts and regions, doorbells, orders, and arriving packets (R389–R410).
-/
namespace Sys2Proof.Machine

/-! ### CARTER_OP (R405, R410) -/

/-- The first `n` words of the stage. -/
def State.carterStaged (s : State) (q n : Nat) : Bytes := (List.range n).flatMap fun w => leBytes 8 (s.rd ⟨.carterStage, q, w⟩).toNat

/-- An address field of the address family. -/
def ipOk (v6 : Bool) (a : Bytes) : Bool := v6 || allZero (a.take 12)

/-- Bytes 0x00–0x7F of a context record hold no reserved value (Table 16.12), for the serving stall of Quarter `q`. -/
def State.ctxCfgOk (s : State) (q : Nat) (b : Bytes) : Bool :=
  let c : CarterCtx := { cfg := b }
  let n (o k : Nat) := leAt b o k
  let frame := 14 + (if nbit (n 0x0E 2) 12 then 4 else 0) + (if c.v6 then 40 else 20) + 8 + 32 + 32 + (if c.sealed_ then 28 else 0) +
    c.payload + 4
  decide (n 0 1 = 0) && decide (n 1 1 < 16) && decide (n 2 1 < 64) && decide (n 3 1 < 32) && decide (1 ≤ n 6 1) && decide (n 6 1 ≤ 16) &&
  decide (10 ≤ n 7 1) && decide (n 7 1 ≤ 12) && decide (frame ≤ s.fget (ethPortCfg c.port) F.ethPortCfg_MAX_FRAME) &&
  decide (n 8 4 < 2 ^ 20) && decide (n 0x0C 2 < 4096) && decide (n 0x0E 2 < 2 ^ 13) && ipOk c.v6 c.localIp && ipOk c.v6 c.peerIp &&
  s.isLocal c.port (if c.v6 then c.localIp else c.localIp.drop 12) && decide (n 0x36 2 + n 6 1 ≤ 65536) && decide (n 0x3A 1 < 64) &&
  decide (1 ≤ n 0x3B 1) && decide (n 0x3B 1 ≤ 15) && decide (c.tollQueue < 2 ^ 20) &&
  (match s.node (c.tollQueue / 2 ^ 18) 3 (c.tollQueue % 2 ^ 18) with | some t => decide (t.prec = c.prec) | none => false) &&
  decide (c.sqBase % 64 = 0) && decide (c.rqBase % 64 = 0) && decide (c.cqBase % 64 = 0) && decide (4 ≤ c.sqLog) && decide (c.sqLog ≤ 12) &&
  (decide (c.rqLog = 0) || (decide (4 ≤ c.rqLog) && decide (c.rqLog ≤ 12))) && decide (4 ≤ c.cqLog) && decide (c.cqLog ≤ 13) &&
  (decide (c.bellPart < 64) || decide (c.bellPart = 0xFF)) &&
  (if c.sealed_ then match s.ctxOf c.cipher with | some (_, k) => decide (k.prec = c.prec) && decide (k.algo = 2) | none => false
   else decide (c.cipher = 0)) &&
  decide (n 0x60 4 ≤ 1600000) && decide (8 ≤ n 0x64 2) &&
  (decide (c.reduceStall = 0xFFFF) ||
    (stallOk c.reduceStall && decide (stallKind c.reduceStall = 4) && decide (stallQ c.reduceStall = q) &&
      decide (s.precOfStall c.reduceStall = some c.prec))) &&
  decide (n 0x68 1 ≤ 1) && (!c.strict || decide (n 6 1 = 1)) && (!c.isRoce || (c.strict && !c.sealed_)) && allZero (slice b 0x6A 22) &&
  decide (s.precOfStall (soleStall q 9) = some c.prec)

/-- Contexts of a precinct that are not FREE, and its CARTER_CONN pool. -/
def State.connCount (s : State) (p : Nat) : Nat := (s.carter.ctxs.filter fun x => decide (x.2.state ≠ 0) && decide (x.2.prec = p)).length
def State.connPool (s : State) (p : Nat) : Nat := match s.xim.conf.pools.find? (fun x => x.prec = p) with | some x => x.carter | none => 0

/-- WRITE: the state and a status. -/
def State.connWrite (s : State) (q i : Nat) (b : Bytes) (f : Option Nat) : State × Nat :=
  let c := s.conn i
  let b := overlay (overlay b 4 [0, 0]) 0x69 [0]
  if c.state ≠ 0 then (s, 5)
  else if !s.ctxCfgOk q b then (s, 1)
  else if s.connPool (leAt b 2 1) ≤ s.connCount (leAt b 2 1) then (s, 3)
  else (s.setConn i { cfg := b, state := 1, epoch := c.epoch, stall := q, func := f }, 0)

/-- UPDATE. -/
def State.connUpdate (s : State) (i : Nat) (b : Bytes) : State × Nat :=
  let c := s.conn i
  if c.state = 0 then (s, 5)
  else if 1600000 < leAt b 0x60 4 ∨ leAt b 0x64 2 < 8 ∨ leAt b 0x3B 1 = 0 ∨ 15 < leAt b 0x3B 1 ∨ 64 ≤ leAt b 0x3A 1 then (s, 1)
  else
    let cfg := overlay (overlay (overlay c.cfg 0x3A (slice b 0x3A 2)) 0x60 (slice b 0x60 4)) 0x64 (slice b 0x64 2)
    (s.setConn i { c with cfg := cfg }, 0)

/-- READ: the record in the stage; the 128 bytes of STATE_AREA are free. -/
def State.connRead (s : State) (q i : Nat) : State × Nat :=
  let c := s.conn i
  let b := overlay (overlay (overlay (slice c.cfg 0 128) 0 [BitVec.ofNat 8 c.state]) 4 (leBytes 2 c.epoch)) 0x69 [BitVec.ofNat 8 c.errCode]
  let b := b ++ s.freeBytes 128
  (forNat 32 (s.useFresh 128) fun s w => s.wr ⟨.carterStage, q, w⟩ (BitVec.ofNat 64 (leAt b (8 * w) 8)), 0)

/-- CONNECT (R391): the initial PSN is free. -/
def State.connConnect (s : State) (i : Nat) : State × Nat :=
  let c := s.conn i
  if c.state ≠ 1 then (s, 5)
  else
    let psn := Config.freeNat s.fresh % c.psnMod
    let c := { c with state := 2, errCode := 0, initPsn := psn, nextPsn := psn, peer := none, acked := false }
    (((s.useFresh 1).setConn i c).sendHello i 0x20, 0)

/-- RESET. -/
def State.connReset (s : State) (i : Nat) : State × Nat :=
  let c := s.conn i
  let e := (c.epoch + 1) % 2 ^ 16
  if c.state = 4 then (s.setConn i { cfg := c.cfg, state := 1, epoch := e, stall := c.stall, func := c.func }, 0)
  else if c.state = 1 then (s.setConn i { epoch := e }, 0)
  else (s, 5)

/-- FAIL (R404). -/
def State.connFail (s : State) (i : Nat) : State × Nat :=
  if (s.conn i).state ≠ 2 ∧ (s.conn i).state ≠ 3 then (s, 5) else (s.connError i 0x44 none, 0)

/-- REGION_WRITE (Table 16.9). -/
def State.regionWrite (s : State) (i : Nat) (b : Bytes) : State × Nat :=
  let a := leAt b 0x12 1
  if leAt b 8 8 = 0 ∨ 2 ^ 48 < leAt b 8 8 ∨ 4096 ≤ leAt b 0x10 2 ∨ a / 16 % 8 ≠ 0 ∨ leAt b 0x13 1 ≠ 0 ∨ !allZero (slice b 0x16 10) then (s, 1)
  else (s.setRegion i { base := leAt b 0 8, length := leAt b 8 8, asid := leAt b 0x10 2, access := a, gen := (s.region i).gen }, 0)

/-- REGION_INVAL (R405): no access is left under way between commands. -/
def State.regionInval (s : State) (i : Nat) : State × Nat :=
  let r := s.region i
  if nbit r.access 7 then (s.setRegion i { r with access := clearBit r.access 7, gen := (r.gen + 1) % 4096 }, 0) else (s, 4)

/-- CARTER_OP written (R410). -/
def State.carterOpWrite (s : State) (rq : Requester) (q : Nat) (v : W64) : State :=
  let r : Reg := ⟨.carterOp, q, 0⟩
  let i := bitsOf v F.carterOp_INDEX
  if !rqKernel rq then s.refuse rq r
  else
    let fin (x : State × Nat) : State := x.1.fset r F.carterOp_STATUS x.2
    match bitsOf v F.carterOp_OP with
    | 1 => fin (s.connWrite q i (s.carterStaged q 16) none)
    | 2 => fin (s.connUpdate i (s.carterStaged q 16))
    | 3 => fin (s.connRead q i)
    | 4 => fin (s.connConnect i)
    | 5 => fin (s.connReset i)
    | 6 => fin (s.connFail i)
    | 7 => fin (s.regionWrite i (s.carterStaged q 4))
    | 8 => fin (s.regionInval i)
    | _ => s.refuse rq r

/-- The word with OP of a row. -/
def carterOpWord (op : Nat) (v : W64) : W64 := setBits v F.carterOp_OP op

/-- CARTER_CTX_WRITE (R410). -/
def execCarterCtxWrite (rq : Requester) (q : Qn) (v : W64) (s : State) : Host.Outcome State Fault Refusal :=
  done (s.carterOpWrite rq q.val (carterOpWord 1 v))

/-- CARTER_CTX_UPDATE (R410). -/
def execCarterCtxUpdate (rq : Requester) (q : Qn) (v : W64) (s : State) : Host.Outcome State Fault Refusal :=
  done (s.carterOpWrite rq q.val (carterOpWord 2 v))

/-- CARTER_CTX_READ (R410). -/
def execCarterCtxRead (rq : Requester) (q : Qn) (v : W64) (s : State) : Host.Outcome State Fault Refusal :=
  done (s.carterOpWrite rq q.val (carterOpWord 3 v))

/-- CARTER_FAIL (R404). -/
def execCarterFail (rq : Requester) (q : Qn) (v : W64) (s : State) : Host.Outcome State Fault Refusal :=
  done (s.carterOpWrite rq q.val (carterOpWord 6 v))

/-- CARTER_REGION_WRITE (R405). -/
def execCarterRegionWrite (rq : Requester) (q : Qn) (v : W64) (s : State) : Host.Outcome State Fault Refusal :=
  done (s.carterOpWrite rq q.val (carterOpWord 7 v))

/-! ### Doorbells (R396, R398, R462) -/

/-- New ring indices. Orders that firmware posts are remembered, since only they may set STREAM_IN (R395). -/
def State.sqBell (s : State) (n v : Nat) (fw : Bool) : State :=
  let c := s.conn n
  if c.state = 0 then s
  else
    let p := advanceTo c.sqProd c.sqLog (v % 2 ^ c.sqLog)
    s.setConn n { c with sqProd := p, fwOrders := if fw ∧ c.sqProd < p then c.fwOrders ++ [(c.sqProd, p)] else c.fwOrders }

def State.rqBell (s : State) (n v : Nat) : State :=
  let c := s.conn n
  if c.state = 0 ∨ c.rqLog = 0 then s
  else
    let p := advanceTo c.rqProd c.rqLog (v % 2 ^ c.rqLog)
    if c.state = 4 then ((s.setConn n { c with rqProd := p, flushed := false }).flushConn n).complete n
    else s.setConn n { c with rqProd := p }

def State.cqBell (s : State) (n v : Nat) : State :=
  let c := s.conn n
  if c.state = 0 then s
  else s.setConn n { c with cqCons := min c.cqProd (advanceTo c.cqCons c.cqLog (v % 2 ^ c.cqLog)) }

/-- CARTER_DB written. -/
def State.carterDbWrite (s : State) (rq : Requester) (q : Nat) (v : W64) : State :=
  let r : Reg := ⟨.carterDb, q, 0⟩
  let n := bitsOf v F.carterDb_CONN
  let i := bitsOf v F.carterDb_INDEX
  if !rqKernel rq then s.refuse rq r
  else match bitsOf v F.carterDb_QUEUE with
    | 0 => s.sqBell n i true
    | 1 => s.rqBell n i
    | 2 => s.cqBell n i
    | _ => s.refuse rq r

/-- CARTER_SQ_DOORBELL (R398). -/
def execCarterSqDoorbell (src : CarterBell) (s : State) : Host.Outcome State Fault Refusal :=
  match src with
  | .reg rq q v => done (s.carterDbWrite rq q.val (setBits v F.carterDb_QUEUE 0))
  | .slot f n v =>
    match s.slotOf f.val n with
    | none => done (s.slotStray f.val)
    | some (.carterSq c) => done (s.sqBell c (v.toNat % 2 ^ 16) false)
    | some _ => done s

/-- CARTER_RQ_DOORBELL (R396). -/
def execCarterRqDoorbell (src : CarterBell) (s : State) : Host.Outcome State Fault Refusal :=
  match src with
  | .reg rq q v => done (s.carterDbWrite rq q.val (setBits v F.carterDb_QUEUE 1))
  | .slot f n v =>
    match s.slotOf f.val n with
    | none => done (s.slotStray f.val)
    | some (.carterRq c) => done (s.rqBell c (v.toNat % 2 ^ 16))
    | some _ => done s

/-- CARTER_CQ_DOORBELL (R398). -/
def execCarterCqDoorbell (src : CarterBell) (s : State) : Host.Outcome State Fault Refusal :=
  match src with
  | .reg rq q v => done (s.carterDbWrite rq q.val (setBits v F.carterDb_QUEUE 2))
  | .slot f n v =>
    match s.slotOf f.val n with
    | none => done (s.slotStray f.val)
    | some (.carterCq c) => done (s.cqBell c (v.toNat % 2 ^ 16))
    | some _ => done s

/-! ### Orders (R395, R399, R402, R408, R409) -/

/-- The bytes of a TALLY_ADD value. -/
def tallyValue (fmt : Nat) : Nat := if (1 ≤ fmt ∧ fmt ≤ 7) ∨ fmt = 0x20 then elemBits fmt / 8 else 0

/-- An order is well formed (R395, R409); `fw` says that firmware posted it. -/
def State.orderOk (s : State) (c : CarterCtx) (d : Bytes) (fw : Bool) : Bool :=
  let op := oOp d
  let at_ := oAtop d
  let fetch := decide (op = 4) && decide (at_ ≤ 2)
  let tally := decide (op = 4) && decide (at_ = 3)
  let o1 := leAt d 0x30 8
  decide (1 ≤ op) && decide (op ≤ 6) && decide (leAt d 1 1 < 16) && decide (at_ ≤ (if op = 4 then 3 else 0)) &&
  (if tally then decide (tallyValue (oFmt d) ≠ 0) else decide (oFmt d = 0)) &&
  (!fetch || decide (oLen d = 8)) && (!tally || (decide (oLen d ≤ 4096) && decide (oLen d % max 1 (tallyValue (oFmt d)) = 0))) &&
  decide (leAt d 0x1D 1 = 0) && decide (leAt d 0x26 2 = 0) && decide (leAt d 0x2C 4 = 0) &&
  (match oTrig d with
    | 0 | 2 => decide (oTrigCtr d = 0xFFFF)
    | 1 => s.mayName c.prec (oTrigCtr d) && decide (1 ≤ oTrigVal d) && decide (oTrigVal d ≤ ctrMax)
    | _ => false) &&
  decide (oSigN d ≤ ctrMax) && s.refField c.prec (oSig d) (oSigN d) &&
  (!oFlag d 2 || fw) && (!oFlag d 1 || (decide (op = 1) && decide (oRemote d = 0) && decide (oRkey d = 0))) &&
  (decide (op ≠ 5) || (decide (o1 / 2 ^ 40 % 2 ^ 23 = 0) && (nbit o1 63 || decide (o1 / 2 ^ 16 % 2 ^ 24 ≠ 0)))) &&
  (decide (op = 4 ∧ at_ = 2) || decide (leAt d 0x38 8 = 0)) &&
  (!c.isRoce || (([1, 2, 3, 6] : List Nat).contains op && !oFlag d 0 && !oFlag d 1))

/-- A string cut into parts of at most `n` bytes: offset and part. -/
def cutParts (n : Nat) : Nat → Nat → Bytes → List (Nat × Bytes)
  | 0, _, _ => []
  | fuel + 1, o, b => if b.length ≤ n then [(o, b)] else (o, b.take n) :: cutParts n fuel (o + n) (b.drop n)

/-- A string cut into pieces of R329, each at most `n` bytes; none where it is not such a sequence (R408). -/
def cutPieces (n : Nat) : Nat → Nat → Bytes → Option (List (Nat × Bytes))
  | 0, _, _ => none
  | _ + 1, _, [] => some []
  | fuel + 1, o, b =>
    let k := 16 + pBytes b
    if b.length < 16 ∨ b.length < k ∨ n < k then none
    else (cutPieces n fuel (o + k) (b.drop k)).map fun r => (o, b.take k) :: r

/-- How an order's source is read: its bytes in parts, each with its poison. -/
inductive Source where
  | held
  | fault
  | malformed
  | ok (parts : List (Nat × Bytes × Bool))

/-- Parts of memory read one by one, each with its poison. -/
def ioParts (q req asid va : Nat) : List (Nat × Nat) → IoM (List (Nat × Bytes × Bool))
  | [] => pure []
  | (o, n) :: r => do
    let (b, p) ← ioRead q req asid (va + o) n
    let t ← ioParts q req asid va r
    pure ((o, b, p) :: t)

/-- The source of an order (R402, R408). -/
def State.orderSource (s : State) (c : CarterCtx) (d : Bytes) (far : List FarAns) : State × Source :=
  let op := oOp d
  let n := oLen d
  let parts (b : Bytes) (bad : Bool) : Source :=
    if oFlag d 1 then
      match cutPieces c.payload (b.length + 1) 0 b with
      | some [] => .ok [(0, [], bad)]
      | some l => .ok (l.map fun x => (x.1, x.2, bad))
      | none => .malformed
    else .ok ((cutParts c.payload (b.length + 1) 0 b).map fun x => (x.1, x.2, bad))
  if op = 2 ∨ 5 ≤ op ∨ (op = 4 ∧ oAtop d ≠ 3) ∨ n = 0 then (s, .ok [(0, [], false)])
  else if oFlag d 2 then
    let port := b2n (oFlag d 3)
    match s.stream c.st port with
    | none => (s, .held)
    | some (b, p) => (s.streamTake c.st port, parts (slice b 0 n) p)
  else if oFlag d 1 then
    match (ioRead c.stall c.st c.asid (oLocal d) n).at s far with
    | (s, .error .held) => (s, .held)
    | (s, .error .fault) => (s, .fault)
    | (s, .ok (b, p)) => (s, parts b p)
  else
    let cuts := (List.range ((n + c.payload - 1) / c.payload)).map fun i => (i * c.payload, min c.payload (n - i * c.payload))
    match (ioParts c.stall c.st c.asid (oLocal d) cuts).at s far with
    | (s, .error .held) => (s, .held)
    | (s, .error .fault) => (s, .fault)
    | (s, .ok l) => (s, .ok l)

/-- An order of a context replaced, by its place in the SQ. -/
def CarterCtx.setOrder (c : CarterCtx) (o : COrder) : CarterCtx :=
  { c with orders := c.orders.map fun y => if y.idx = o.idx then o else y }

/-- An order that has been taken is sent (R402). Held: the state after the attempt, which keeps the order. -/
def State.startOrder (s : State) (n : Nat) (o : COrder) (far : List FarAns) : State × Bool :=
  let c := s.conn n
  let d := o.desc
  let fin (s : State) (o : COrder) : State := (s.setConn n ((s.conn n).setOrder o)).complete n
  if oOp d = 6 then (fin s { o with status := some 0 }, true)
  else match s.orderSource c d far with
    | (s, .held) => (s, false)
    | (s, .fault) => (fin s { o with status := some 5 }, true)
    | (s, .malformed) => (fin s { o with status := some 1 }, true)
    | (s, .ok parts) =>
      let c := s.conn n
      let o := { o with msn := some c.nextMsn, todo := parts, poisoned := parts.any (·.2.2) }
      let c := { (c.setOrder o) with nextMsn := (c.nextMsn + 1) % c.psnMod }
      ((s.setConn n c).sendMore n (parts.length + 1), true)

/-- A READY context takes its next order: no order before it is dormant or has packets to send, at most 4096 messages are
uncompleted, and its precinct runs. -/
def State.mayTake (s : State) (c : CarterCtx) : Bool :=
  decide (c.state = 3) && c.stalled.isNone && c.orders.all (fun o => !o.dormant && o.todo.isEmpty) && decide (c.orders.length < 4096) &&
  !s.precPaused c.prec && s.carterOn c.stall && (match c.func with | some f => !s.ringsPaused f | none => !s.removing)

/-- The next order of an SQ, if a row handles its opcode and ATOP: `hit` says so for a defined opcode; an undefined one is
malformed under every row. -/
def State.takeOrder (s : State) (n : Nat) (hit : Bytes → Bool) (far : List FarAns) : State :=
  let c := s.conn n
  let i := c.sqCons
  let va := c.sqBase + i % 2 ^ c.sqLog * 64
  let put (s : State) (o : COrder) : State := s.setConn n { s.conn n with sqCons := i + 1, orders := (s.conn n).orders ++ [o] }
  if c.sqProd ≤ i then s
  else if c.state = 4 then
    let s := s.flushConn n
    match (ioRead c.stall c.st c.asid va 64).at s far with
    | (s, .error .held) => s
    | (s, .error .fault) => (put s { idx := i, desc := overlay (leBytes 64 0) 0x24 [0xFF, 0xFF], status := some c.flushStatus }).complete n
    | (s, .ok (d, _)) => (put s { idx := i, desc := d, status := some c.flushStatus }).complete n
  else if !s.mayTake c then s
  else match s.unitParity c.st ⟨.carterErr, c.stall, 0⟩ F.carterErr_PARITY with
    | some s => s
    | none =>
      match (ioRead c.stall c.st c.asid va 64).atF s far with
      | (s, _, .error .held) => s
      | (s, _, .error .fault) =>
        (put s { idx := i, desc := overlay (leBytes 64 0) 0x24 [0xFF, 0xFF], status := some 5 }).complete n
      | (s', far, .ok (d, bad)) =>
        let known := decide (1 ≤ oOp d) && decide (oOp d ≤ 6) && (decide (oOp d ≠ 4) || decide (oAtop d ≤ 3))
        let sigOk := s'.refField c.prec (oSig d) (oSigN d)
        if known && !hit d then s
        else if bad then (put s' { idx := i, desc := overlay d 0x24 [0xFF, 0xFF], status := some 6 }).complete n
        else if !s'.orderOk c d (c.fwOrders.any fun r => decide (r.1 ≤ i) && decide (i < r.2)) then
          (put s' { idx := i, desc := if sigOk then d else overlay d 0x24 [0xFF, 0xFF], status := some 1 }).complete n
        else if oTrig d ≠ 0 then put s' { idx := i, desc := d, dormant := true }
        else
          let o : COrder := { idx := i, desc := d }
          match (put s' o).startOrder n o far with
          | (s, true) => s
          | (_, false) => (s'.orderSource c d far).1

/-- CARTER_ORDER_WRITE (R402). -/
def execCarterOrderWrite (n : ConnNo) (far : List FarAns) (s : State) : Host.Outcome State Fault Refusal :=
  done (s.takeOrder n.val (fun d => oOp d = 1) far)

/-- CARTER_ORDER_READ (R403). -/
def execCarterOrderRead (n : ConnNo) (far : List FarAns) (s : State) : Host.Outcome State Fault Refusal :=
  done (s.takeOrder n.val (fun d => oOp d = 2) far)

/-- CARTER_ORDER_SEND (R396). -/
def execCarterOrderSend (n : ConnNo) (far : List FarAns) (s : State) : Host.Outcome State Fault Refusal :=
  done (s.takeOrder n.val (fun d => oOp d = 3) far)

/-- CARTER_FETCH_ADD (R403). -/
def execCarterFetchAdd (n : ConnNo) (far : List FarAns) (s : State) : Host.Outcome State Fault Refusal :=
  done (s.takeOrder n.val (fun d => decide (oOp d = 4) && decide (oAtop d = 0)) far)

/-- CARTER_SWAP (R403). -/
def execCarterSwap (n : ConnNo) (far : List FarAns) (s : State) : Host.Outcome State Fault Refusal :=
  done (s.takeOrder n.val (fun d => decide (oOp d = 4) && decide (oAtop d = 1)) far)

/-- CARTER_CMP_SWAP (R403). -/
def execCarterCmpSwap (n : ConnNo) (far : List FarAns) (s : State) : Host.Outcome State Fault Refusal :=
  done (s.takeOrder n.val (fun d => decide (oOp d = 4) && decide (oAtop d = 2)) far)

/-- CARTER_TALLY_ADD (R395). -/
def execCarterTallyAdd (n : ConnNo) (far : List FarAns) (s : State) : Host.Outcome State Fault Refusal :=
  done (s.takeOrder n.val (fun d => decide (oOp d = 4) && decide (oAtop d = 3)) far)

/-- CARTER_ORDER_BELL (R397). -/
def execCarterOrderBell (n : ConnNo) (far : List FarAns) (s : State) : Host.Outcome State Fault Refusal :=
  done (s.takeOrder n.val (fun d => oOp d = 5) far)

/-- CARTER_ORDER_NOP (R395). -/
def execCarterOrderNop (n : ConnNo) (far : List FarAns) (s : State) : Host.Outcome State Fault Refusal :=
  done (s.takeOrder n.val (fun d => oOp d = 6) far)

/-- CARTER_TRIGGER_FIRE (R399). -/
def execCarterTriggerFire (n : ConnNo) (far : List FarAns) (s : State) : Host.Outcome State Fault Refusal :=
  let n := n.val
  let c := s.conn n
  if c.state ≠ 3 ∨ !s.carterOn c.stall then done s
  else match c.orders.find? (·.dormant) with
    | none => done s
    | some o =>
      let fire := if oTrig o.desc = 1 then s.bell.met.contains (.order n)
        else decide (modSub c.rxDone (oTrigVal o.desc) (2 ^ 32) < 2 ^ 31)
      if !fire then done s
      else
        let o := { o with dormant := false, waiting := false }
        match (s.setConn n (c.setOrder o)).startOrder n o far with
        | (s, true) => done (s.takeMet (.order n)).1
        | (_, false) => done (s.orderSource c o.desc far).1

/-! ### Arriving packets -/

/-- A frame that has come to a Carter stall, as far as its UDP header. -/
structure Arrived where
  conn : Nat
  roce : Bool
  /-- The packet's opcode, as Table 16.3 numbers it; 0 for none of them. -/
  op : Nat
  src : Bytes
  badSum : Bool
  ce : Bool
  body : Bytes

/-- The native opcode that a RoCEv2 opcode stands for. -/
def roceOp (o : Nat) : Nat :=
  if [0, 1, 2, 4].contains o then 4 else if [6, 7, 8, 0x0A].contains o then 1 else if o = 0x0C then 2
  else if 0x0D ≤ o ∧ o ≤ 0x10 then 3 else if o = 0x11 then 0x10 else 0

/-- The UDP datagram of a frame. -/
def arrived (f : Bytes) : Option Arrived :=
  match parseFrame f 0x1_0000 with
  | .error _ => none
  | .ok p =>
    if p.proto ≠ 17 ∨ p.l4 = 0 ∨ beAt f (p.l4 + 4) 2 ≠ p.l4len then none
    else
      let b := slice f (p.l4 + 8) (p.l4len - 8)
      let tag1 := decide (beAt f 12 2 = 0x8100) || decide (beAt f 12 2 = 0x88A8)
      let o := if tag1 && decide (beAt f 16 2 = 0x8100) then 22 else if tag1 then 18 else 14
      let tos := if p.keyType = 1 then beAt f (o + 1) 1 else beAt f o 2 / 16 % 256
      let opb := beAt b 2 1
      some {
        conn := p.conn f
        roce := p.roce, op := if p.roce then roceOp (beAt b 0 1) else if (extLen opb).isSome then opb else 0
        src := addr16 p.src, badSum := decide (p.sum = 2), ce := decide (tos % 4 = 3), body := b }

/-- The connection of a frame, for its place in its connection's order. -/
def frameConn (f : Bytes) : Option Nat := (arrived f).map (fun a => if a.roce then a.conn else beAt a.body 4 4 % 2 ^ 20)

/-- The position of the first frame that a row handles: of its opcode, or of none, with no earlier frame of its connection. -/
def pickFrame (hit : Nat → Bool) : List (Option Nat) → Nat → List Bytes → Option Nat
  | _, _, [] => none
  | seen, i, f :: r =>
    let c := frameConn f
    let ok := match arrived f with
      | some a => hit a.op || decide (a.op = 0)
      | none => true
    if ok && !(c.isSome && seen.contains c) then some i else pickFrame hit (c :: seen) (i + 1) r

/-- How the handling of a packet ends. -/
inductive RxEnd where
  | ok
  | nak (code us : Nat)
  | held
  deriving DecidableEq, Repr

/-- A packet placed in memory (R402, R406). `demand` says that a held access waits. -/
def State.place (s : State) (c : CarterCtx) (va : Nat) (data : Bytes) (poison demand : Bool) : State × RxEnd :=
  match (ioWrite c.stall c.st c.asid va data poison).at s [] with
  | (s, .ok _) => (s, .ok)
  | (s, .error .fault) => (s, .nak 2 0)
  | (s, .error .held) => if demand then (s, .held) else (s.withdraw c.stall c.st c.asid, .nak 2 0)

/-- Docket counters mapped onto a Bell counter: the connections they accept (R397). -/
def State.extConns (s : State) (ref : Nat) : List Nat :=
  s.host.funcs.flatMap fun x => match x.2.inst with
    | none => []
    | some i => i.dockets.flatMap fun d => d.bound.filterMap fun b =>
        if b.2 = ref then (d.prog.ctrs[b.1]?).map (·.conn) else none

/-- A connection of the instance whose docket counter is mapped onto a Bell counter. -/
def State.extInst (s : State) (ref : Nat) (c : CarterCtx) : Bool :=
  s.host.funcs.all fun x => match x.2.inst with
    | none => true
    | some i => !(i.dockets.any fun d => d.bound.any fun b => decide (b.2 = ref)) || decide (i.asid = c.asid)

/-- A BELL is one that R397 allows. -/
def State.bellOk (s : State) (n : Nat) (c : CarterCtx) (p : Pkt) : Bool :=
  let target := beAt p.ext 0 2
  let am := beAt p.ext 4 4
  if nbit am 31 then decide (c.bellPart ≠ 0xFF) && decide (s.groupOwner (256 + target % 256) = c.prec)
  else refOk target && decide (am % 2 ^ 24 ≠ 0) && decide (s.precOfBell (target / 4096) (target % 4096) = some c.prec) &&
    (s.extConns target).all (fun k => decide (k = n) || decide (k = 0xFFFF_FFFF)) && s.extInst target c

/-- Checks of a packet before anything of it takes effect (R397, R405, R408). -/
def State.rxCheck (s : State) (n : Nat) (c : CarterCtx) (p : Pkt) : RxEnd :=
  match p.op with
  | 1 => if p.reduce then (if c.reduceStall = 0xFFFF then .nak 3 0 else .ok)
    else if s.regionOk c p.rkey p.raddr p.mlen 1 then .ok else .nak 2 0
  | 2 => if s.regionOk c p.rkey p.raddr p.mlen 0 then .ok else .nak 2 0
  | 5 =>
    if p.atop = 3 then
      let vb := tallyValue p.vfmt
      if vb = 0 ∨ 4096 < p.mlen ∨ p.mlen % vb ≠ 0 ∨ p.payload.length % vb ≠ 0 ∨ p.off % vb ≠ 0 ∨ p.raddr % 32 ≠ 0 then .nak 3 0
      else if s.regionOk c p.rkey p.raddr (p.mlen / vb * 96) 2 then .ok else .nak 2 0
    else if p.mlen ≠ 8 ∨ p.raddr % 8 ≠ 0 ∨ p.vfmt ≠ 0 then .nak 3 0
    else if s.regionOk c p.rkey p.raddr 8 2 then .ok else .nak 2 0
  | 7 => if s.bellOk n c p then .ok else .nak 3 0
  | _ => .ok

/-- The bytes after an 8-byte atomic update. -/
def atomicNew (atop old a b : Nat) : Nat :=
  match atop with
  | 0 => (old + a) % 2 ^ 64
  | 1 => a
  | _ => if old = a then b else old

/-- The response of a fetching atomic. -/
def State.atomicResp (s : State) (c : CarterCtx) (msn : Nat) (r : Bytes × Bool) : State :=
  s.sendPkt c (c.pathFrom 0) (c.pkt 6 (8 * b2n r.2) 0 msn 8 0 [] r.1)

/-- A fetching atomic applied at its home: the prior value in network order. -/
def State.atomicApply (s : State) (c : CarterCtx) (p : Pkt) : State × Except RxEnd (Bytes × Bool) :=
  match s.transRange c.stall c.st c.asid p.raddr 8 true with
  | (s, .deny) => (s, .error (.nak 2 0))
  | (s, .held) => if s.onDemand p.rkey then (s, .error .held) else (s.withdraw c.stall c.st c.asid, .error (.nak 2 0))
  | (s, .ok ps) =>
    let (s, b, bad) := s.readPieces c.st c.asid ps
    let old := leNat b
    let (s, f) := s.writePieces c.st c.asid ps (leBytes 8 (atomicNew p.atop old (beAt p.ext 16 8) (beAt p.ext 24 8))) bad
    if f then (s, .error (.nak 2 0)) else (s, .ok (beBytes 8 old, bad))

/-- The values of a TALLY_ADD packet added to their cells, in order (R135); a poisoned packet poisons them. -/
def State.tallyApply (s : State) (c : CarterCtx) (p : Pkt) : State × RxEnd :=
  let vb := tallyValue p.vfmt
  let k := p.payload.length / max 1 vb
  let first := p.raddr + p.off / max 1 vb * 96
  match s.transRange c.stall c.st c.asid first (k * 96) true with
  | (s, .deny) => (s, .nak 2 0)
  | (s, .held) => if s.onDemand p.rkey then (s, .held) else (s.withdraw c.stall c.st c.asid, .nak 2 0)
  | (s, .ok ps) =>
    if p.poison then
      let (s, b, _) := s.readPieces c.st c.asid ps
      ((s.writePieces c.st c.asid ps b true).1, .ok)
    else
      (List.range k).foldl (fun (x : State × RxEnd) i =>
        if x.2 ≠ .ok then x
        else
          let v := slice p.payload (i * vb) vb
          let f : Option (Tw → Tw) :=
            if p.vfmt = 0x20 then (Tw.ofCell v).map fun w t => t.merge w else some fun t => t.add (decodeElem p.vfmt (leNat v))
          match f with
          | none => (x.1, .nak 3 0)
          | some f =>
            match x.1.cellAdd c.stall c.st c.asid (first + i * 96) f with
            | (s, .ended 0) => (s, .ok)
            | (s, .ended 5) => (s, .nak 2 0)
            | (s, .ended _) => (s, .nak 3 0)
            | (s, .held) => (s, .nak 2 0)) (s, .ok)

/-- The responses of a read request, cut to packets. -/
def State.readResp (s : State) (c : CarterCtx) (p : Pkt) (data : Bytes) (poison : Bool) : State :=
  (cutParts c.payload (data.length + 1) p.off data).foldl (fun s x =>
    let psn := if c.isRoce then (p.psn + (x.1 - p.off) / c.payload) % c.psnMod else 0
    s.sendPkt c (c.pathFrom 0) (c.pkt 3 (8 * b2n poison) psn p.msn p.mlen x.1 [] x.2)) s

/-- A message of a context, new where none is known. -/
def CarterCtx.rxMsg (c : CarterCtx) (p : Pkt) : RxMsg := (look c.msgs p.msn).getD { op := p.op, len := p.mlen, reduce := p.reduce }

def State.setMsg (s : State) (n msn : Nat) (m : RxMsg) : State :=
  s.setConn n { s.conn n with msgs := put (s.conn n).msgs msn m }

/-- Which SEND a message number is: the count of SENDs below it, once every message below it is known (R396). -/
def CarterCtx.sendNo (c : CarterCtx) (msn : Nat) : Option Nat :=
  let below := (List.range (modSub msn c.msnDone c.psnMod)).map fun i => look c.msgs ((c.msnDone + i) % c.psnMod)
  if below.any (·.isNone) then none else some (c.sends + (below.filter fun m => m.any (·.op = 4)).length)

/-- A SEND packet takes its receive entry and is placed; none: its number is not yet known. -/
def State.sendPlace (s : State) (n : Nat) (p : Pkt) (far : List FarAns) : State × Option RxEnd :=
  let c := s.conn n
  let m := c.rxMsg p
  let need := if c.isRoce then p.off + p.payload.length else p.mlen
  let go (s : State) (e : Nat × Nat × Nat) : State × Option RxEnd :=
    if e.2.2 < need then (s, some (.nak 4 0))
    else match s.place c (e.2.1 + p.off) p.payload p.poison true with
    | (s, .ok) => (s.setMsg n p.msn { m with
        entry := some e, placed := m.placed + p.payload.length, applied := true, poison := m.poison || p.poison }, some .ok)
    | (s, r) => (s, some r)
  match m.entry with
  | some e => go s e
  | none =>
    match c.sendNo p.msn with
    | none => (s, none)
    | some k =>
      if c.rqLog = 0 ∨ c.rqProd ≤ k then (s.useFresh 1, some (.nak 1 (Config.freeNat s.fresh % 2 ^ 16)))
      else match (ioRead c.stall c.st c.asid (ringAt c.rqBase c.rqLog k) 16).at s far with
        | (s, .error .held) => (s, some .held)
        | (s, .error .fault) => (s, some (.nak 2 0))
        | (s, .ok (e, _)) => go s (k, leAt e 0 8, leAt e 8 4)

/-- A packet takes effect. -/
def State.perform (s : State) (n : Nat) (p : Pkt) (far : List FarAns) : State × RxEnd :=
  let c := s.conn n
  let m := c.rxMsg p
  let did (s : State) : State := s.setMsg n p.msn { m with placed := m.placed + p.payload.length, applied := true, poison := m.poison || p.poison }
  match p.op with
  | 1 =>
    if p.reduce then (did (s.streamSend c.st 1 p.payload p.poison), .ok)
    else match s.place c (p.raddr + p.off) p.payload p.poison (s.onDemand p.rkey) with
      | (s, .ok) => (did s, .ok)
      | r => r
  | 2 =>
    match (ioRead c.stall c.st c.asid (p.raddr + p.off) (p.mlen - p.off)).at s far with
    | (s, .error .fault) => (s, .nak 2 0)
    | (s, .error .held) => if s.onDemand p.rkey then (s, .held) else (s.withdraw c.stall c.st c.asid, .nak 2 0)
    | (s, .ok (d, bad)) => (if m.finished then s.readResp c p d bad else did (s.readResp c p d bad), .ok)
  | 4 =>
    match s.sendPlace n p far with
    | (s, some r) => (s, r)
    | (s, none) => (s.setMsg n p.msn { m with held := m.held ++ [p.bytes 0] }, .ok)
  | 5 =>
    if p.atop = 3 then
      match s.tallyApply c p with
      | (s, .ok) => (did s, .ok)
      | r => r
    else match s.atomicApply c p with
      | (s, .error r) => (s, r)
      | (s, .ok r) => ((s.setMsg n p.msn { m with applied := true, result := some r }).atomicResp c p.msn r, .ok)
  | _ =>
    let target := beAt p.ext 0 2
    let am := beAt p.ext 4 4
    let s := did s
    if nbit am 31 then (s.bells [.arrive (256 + target % 256) c.bellPart 1024 23], .ok)
    else (s.signal target (am % 2 ^ 24) (0xC000 + n % 2 ^ 14), .ok)

/-- No REDUCE flit of a context is on its way to Tally (R408). -/
def State.reduceDrained (s : State) (c : CarterCtx) : Bool :=
  (lookD [] s.street.outq (key2 c.st 1)).isEmpty && (s.inFlits c.reduceStall c.reducePort).isEmpty &&
  (lookD [] s.street.taken (key2 c.reduceStall c.reducePort)).isEmpty

/-- A message has completed (R400, R408). -/
def State.msgDone (s : State) (c : CarterCtx) (m : RxMsg) : Bool :=
  m.applied && m.held.isEmpty && (!([1, 4].contains m.op || (decide (m.op = 5) && decide (m.result.isNone))) || decide (m.len ≤ m.placed)) &&
  (!m.reduce || s.reduceDrained c)

/-- A message that has just completed counts, and a SEND's receive completion is due. -/
def State.finishMsg (s : State) (n msn : Nat) : State :=
  let c := s.conn n
  match look c.msgs msn with
  | none => s
  | some m =>
    if m.finished || !s.msgDone c m then s
    else
      let rx := match m.entry with
        | some (k, _) => put c.rxComps k (m.len, if m.poison then 6 else 0)
        | none => c.rxComps
      s.setConn n { c with
        msgs := put c.msgs msn { m with finished := true }, rxDone := (c.rxDone + 1) % 2 ^ 32, rxComps := rx
        results := match m.result with | some r => put c.results msn r | none => c.results }

/-- The held packets of a message take effect, in order. -/
def State.performHeld (s : State) (n msn : Nat) : State :=
  match look (s.conn n).msgs msn with
  | none => s
  | some m =>
    let s := s.setMsg n msn { m with held := [] }
    m.held.foldl (fun s b =>
      match pktOf b with
      | none => s
      | some p =>
        match s.perform n p [] with
        | (s, .ok) => s
        | (s, .held) => match look (s.conn n).msgs msn with
          | some m => s.setMsg n msn { m with held := m.held ++ [b] }
          | none => s
        | (s, .nak 1 _) => match look (s.conn n).msgs msn with
          | some m => s.setMsg n msn { m with held := m.held ++ [b] }
          | none => s
        | (s, .nak k us) => s.sendAck n k p.psn us) s

/-- Messages settle: held SENDs whose number is known are placed, held packets at the oldest uncompleted message take effect, and
completed messages leave from the oldest. -/
def State.settle (s : State) (n : Nat) : Nat → State
  | 0 => s
  | fuel + 1 =>
    let ready (s : State) : List Nat := ((s.conn n).msgs.filter fun x =>
      decide (x.2.op = 4) && !x.2.flagged && !x.2.held.isEmpty && ((s.conn n).sendNo x.1).isSome).map (·.1)
    let s := (ready s).foldl (fun s m => s.performHeld n m) s
    let head := (s.conn n).msnDone
    let s := match look (s.conn n).msgs head with
      | some m => if m.held.isEmpty then s else s.performHeld n head
      | none => s
    let s := ((s.conn n).msgs.map (·.1)).foldl (fun s m => s.finishMsg n m) s
    let c := s.conn n
    match look c.msgs head with
    | some m =>
      if m.finished then
        let old := (head + 2 * c.psnMod - 4096) % c.psnMod
        (s.setConn n { c with
          msgs := drop c.msgs head, msnDone := (head + 1) % c.psnMod, sends := c.sends + (if m.op = 4 then 1 else 0)
          results := drop c.results old }).settle n fuel
      else s
    | none => s

/-- CUM moves past every PSN received (R403). -/
def advanceCum : Nat → Nat → Nat → List Nat → Nat × List Nat
  | 0, _, cum, got => (cum, got)
  | fuel + 1, m, cum, got => if got.contains cum then advanceCum fuel m ((cum + 1) % m) (got.erase cum) else (cum, got)

/-- A received PSN is marked; `k` numbers from it. -/
def CarterCtx.markPsn (c : CarterCtx) (psn k : Nat) : CarterCtx :=
  let got := c.got ++ (List.range k).map fun i => (psn + i) % c.psnMod
  let (cum, got) := advanceCum (got.length + 1) c.psnMod c.cum got
  { c with cum := cum, got := got, sinceAck := c.sinceAck + 1 }

/-- An arriving WRITE, READ_REQ, SEND, ATOMIC or BELL (R400–R406): the state, and whether it leaves the stall's queue. -/
def State.rxData (s : State) (n : Nat) (p : Pkt) (far : List FarAns) : State × Bool :=
  let c := s.conn n
  let m := c.psnMod
  let d := modSub p.psn c.cum m
  if c.state = 4 then (s.sendAck n 5 p.psn 0, true)
  else if s.precPaused c.prec then (s.sendAck n 1 p.psn 1000, true)
  else if m / 2 ≤ d ∨ c.got.contains p.psn then
    let s := if p.op = 5 then match look c.results p.msn with
        | some r => s.atomicResp c p.msn r
        | none => match (look c.msgs p.msn).bind (·.result) with
          | some r => s.atomicResp c p.msn r
          | none => s
      else s
    (s.sendAck n 0 0 0, true)
  else if 8192 ≤ d then (s.discard c.stall, true)
  else if c.strict ∧ d ≠ 0 then (if c.isRoce then s.sendAck n 6 c.cum 0 else s.sendAck n 0 0 0, true)
  else
    let past := decide (4096 ≤ modSub p.msn c.msnDone m)
    if past && decide (p.op ≠ 2) then (s.discard c.stall, true)
    else
      let msg := c.rxMsg p
      if msg.op ≠ p.op ∨ msg.len ≠ p.mlen then (s.discard c.stall, true)
      else
        let hold := (p.flagged || decide (p.op = 7)) && decide (p.msn ≠ c.msnDone) && !past
        let (s, r) := match s.rxCheck n c p with
          | .ok =>
            if hold then (s.setMsg n p.msn { msg with flagged := true, held := msg.held ++ [p.bytes 0] }, RxEnd.ok)
            else if past then
              match (ioRead c.stall c.st c.asid (p.raddr + p.off) (p.mlen - p.off)).at s far with
              | (s, .error .held) => (s, .held)
              | (s, .error .fault) => (s, .nak 2 0)
              | (s, .ok (b, bad)) => (s.readResp c p b bad, .ok)
            else s.perform n p far
          | r => (s, r)
        match r with
        | .held => (s, false)
        | .nak code us => (s.sendAck n code p.psn us, true)
        | .ok =>
          let c := s.conn n
          let s := s.setConn n (c.markPsn p.psn (if c.isRoce ∧ p.op = 2 then max 1 ((p.mlen - p.off + c.payload - 1) / c.payload) else 1))
          let s := (s.settle n ((s.conn n).msgs.length + 1)).complete n
          let c' := s.conn n
          if p.flag 4 || !c'.got.isEmpty || decide (c'.msnDone ≠ c.msnDone) || decide (16 ≤ c'.sinceAck) then (s.sendAck n 0 0 0, true)
          else (s, true)

/-- The parts of a range not covered by others. -/
def uncovered (o n : Nat) : List (Nat × Nat) → List (Nat × Nat)
  | [] => if n = 0 then [] else [(o, n)]
  | (a, k) :: r =>
    (uncovered o n r).flatMap fun x =>
      let e := x.1 + x.2
      ((if x.1 < a then [(x.1, min e a - x.1)] else []) ++ (if a + k < e then [(max x.1 (a + k), e - max x.1 (a + k))] else [])).filter (·.2 ≠ 0)

/-- An order ends. -/
def State.endOrder (s : State) (n : Nat) (o : COrder) (status moved : Nat) : State :=
  let c := (s.conn n).setOrder { o with status := some status, moved := moved, todo := [] }
  let c := { c with unacked := c.unacked.filter fun t => !(t.sacked && decide (some t.msn = o.msn)) }
  (s.setConn n c).complete n

/-- An arriving READ_RESP or ATOMIC_RESP (R398, R403). -/
def State.rxResp (s : State) (n : Nat) (p : Pkt) : State × Bool :=
  let c := s.conn n
  let isRead := decide (p.op = 3)
  match c.orders.find? (fun o => o.msn = some p.msn && o.status.isNone && oFetches o.desc && (decide (oOp o.desc = 2) == isRead)) with
  | none => (s, true)
  | some o =>
    let d := o.desc
    if p.mlen ≠ oLen d ∨ (!isRead ∧ p.payload.length ≠ 8) then (s.discard c.stall, true)
    else if isRead then
      let parts := uncovered p.off p.payload.length o.placed
      let body : IoM Unit := parts.forM fun x =>
        ioWrite c.stall c.st c.asid (oLocal d + x.1) (slice p.payload (x.1 - p.off) x.2) p.poison
      match body.at s [] with
      | (s, .error .held) => (s, false)
      | (s, .error .fault) => (s.endOrder n o 5 0, true)
      | (s, .ok _) =>
        let o := { o with placed := o.placed ++ parts, poisoned := o.poisoned || p.poison }
        if (uncovered 0 (oLen d) o.placed).isEmpty then (s.endOrder n o (if o.poisoned then 6 else 0) (oLen d), true)
        else (s.setConn n ((s.conn n).setOrder o), true)
    else
      match (ioWrite c.stall c.st c.asid (oLocal d) (p.payload.reverse) p.poison).at s [] with
      | (s, .error .held) => (s, false)
      | (s, .error .fault) => (s.endOrder n o 5 0, true)
      | (s, .ok _) => (s.endOrder n o (if p.poison then 6 else 0) 8, true)

/-- The order of a packet sends its result back and has not completed. -/
def CarterCtx.awaited (c : CarterCtx) (msn : Nat) : Bool :=
  c.orders.any fun o => decide (o.msn = some msn) && o.status.isNone && oFetches o.desc

/-- An arriving ACK (Table 16.7, R403, R404). -/
def State.rxAck (s : State) (n : Nat) (p : Pkt) : State :=
  let c := s.conn n
  let m := c.psnMod
  let cum := beAt p.ext 0 4
  let sack := beAt p.ext 4 8
  let doneTo := beAt p.ext 0x0C 4
  let nak := beAt p.ext 0x10 1
  let us := beAt p.ext 0x12 2
  if c.state ≠ 3 then s
  else if nak = 5 then s.connError n 0x44 none
  else
    let acked (x : Nat) : Bool := seqBefore x cum m || (decide (1 ≤ modSub x cum m) && decide (modSub x cum m ≤ 64) && nbit sack (modSub x cum m - 1))
    let now := c.unacked.filter fun t => !t.sacked && acked t.psn
    let fails := now.foldl (fun f t => drop f t.first) c.pathFails
    let un := c.unacked.filterMap fun t =>
      if acked t.psn then (if c.awaited t.msn then some { t with sacked := true } else none) else some t
    let os := c.orders.map fun o => match o.msn, o.status with
      | some k, none => if !oFetches o.desc && o.todo.isEmpty && seqBefore k doneTo m then
          { o with status := some (if o.poisoned then 6 else 0), moved := if oOp o.desc = 5 then 0 else oLen o.desc } else o
      | _, _ => o
    let s := (s.setConn n { c with unacked := un, pathFails := fails, orders := os }).complete n
    let high (t : TxPkt) : Nat := (c.unacked.filter fun u => acked u.psn && seqBefore t.psn u.psn m).length
    let s := (un.filter fun t => !t.sacked && decide (t.sent = 1) && decide (3 ≤ high t)).foldl (fun s t => s.resend n t true) s
    let s := match nak with
      | 0 => s
      | 1 => s.setConn n { s.conn n with stalled := some (p.psn, decide (us ≠ 100 ∧ us ≠ 1000)) }
      | 6 => ((s.conn n).unacked.filter fun (t : TxPkt) => !seqBefore t.psn p.psn m).foldl (fun (s : State) t => s.resend n t true) s
      | k =>
        let msn := ((s.conn n).unacked.find? (fun (t : TxPkt) => t.psn = p.psn)).map TxPkt.msn
        s.connError n (0x3E + k) msn
    s.sendMore n ((s.conn n).todoCount + 1)

/-! ### RoCEv2 arrival (R409) -/

/-- A RoCEv2 packet as the packet it stands for; a target in progress is kept in the context. `none` where it is not one of the
subset, or does not follow the packet before it. -/
def CarterCtx.roceDecode (c : CarterCtx) (b : Bytes) : Option (Pkt × CarterCtx) :=
  let o := beAt b 0 1
  let pad := beAt b 1 1 / 16 % 4
  let psn := beAt b 9 3
  let body := b.take (b.length - 4)
  let data (h : Nat) : Bytes := (body.drop h).take (body.length - h - pad)
  let ackReq := 16 * b2n (nbit (beAt b 8 1) 7)
  let ext (va rkey : Nat) : Bytes := beBytes 8 va ++ beBytes 4 rkey ++ beBytes 4 0
  let start (op h len va rkey : Nat) (last : Bool) : Option (Pkt × CarterCtx) :=
    let d := data h
    if len < d.length then none
    else
      let p := c.pkt op ackReq psn (c.roceMsgs % c.psnMod) len 0 (if op = 4 then [] else ext va rkey) d
      some (p, { c with roceMsgs := c.roceMsgs + 1, roce := if last then none else some (op, va, rkey, len, d.length) })
  let go (op : Nat) (last : Bool) : Option (Pkt × CarterCtx) :=
    match c.roce with
    | none => none
    | some (op', va, rkey, len, off) =>
      let d := data 12
      let len := if op = 4 ∧ last then off + d.length else len
      if op' ≠ op ∨ len < off + d.length then none
      else
        let p := c.pkt op ackReq psn ((c.roceMsgs - 1) % c.psnMod) len off (if op = 4 then [] else ext va rkey) d
        some (p, { c with roce := if last then none else some (op, va, rkey, len, off + d.length) })
  match o with
  | 0x06 | 0x0A => start 1 28 (beAt b 24 4) (beAt b 12 8) (beAt b 20 4) (o = 0x0A)
  | 0x07 | 0x08 => go 1 (o = 0x08)
  | 0x00 => start 4 12 (2 ^ 32 - 1) 0 0 false
  | 0x04 => start 4 12 (data 12).length 0 0 true
  | 0x01 | 0x02 => go 4 (o = 0x02)
  | 0x0C => start 2 28 (beAt b 24 4) (beAt b 12 8) (beAt b 20 4) true
  | 0x11 =>
    let syn := beAt b 12 1
    let nak := match syn / 32 % 4 with
      | 0 => 0
      | 1 => 1
      | _ => match syn % 32 with | 0 => 6 | 2 => 2 | _ => 3
    let cum := if nak = 0 then (psn + 1) % c.psnMod else psn
    some (c.pkt 0x10 0 psn 0 0 0
      (beBytes 4 cum ++ beBytes 8 0 ++ beBytes 4 (beAt b 13 3) ++ beBytes 1 nak ++ beBytes 1 0 ++ beBytes 2 0 ++ beBytes 4 0) [], c)
  | _ =>
    if 0x0D ≤ o ∧ o ≤ 0x10 then
      match c.unacked.find? (fun t => match pktOf t.bytes with
          | some q => decide (q.op = 2) && decide (modSub psn t.psn c.psnMod < max 1 ((q.mlen - q.off + c.payload - 1) / c.payload))
          | none => false) with
      | none => none
      | some t =>
        match pktOf t.bytes with
        | none => none
        | some q => some (c.pkt 3 0 0 t.msn q.mlen (q.off + modSub psn t.psn c.psnMod * c.payload) [] (data (if o = 0x0E then 12 else 16)), c)
    else none

/-- A SEND of RoCEv2 has no length before its last packet: its message takes the length then. -/
def State.roceSendLen (s : State) (n : Nat) (p : Pkt) : State :=
  match look (s.conn n).msgs p.msn with
  | some m => if p.op = 4 ∧ m.op = 4 ∧ m.len = 2 ^ 32 - 1 then s.setMsg n p.msn { m with len := p.mlen } else s
  | none => s

/-- An arriving RoCEv2 packet. -/
def State.rxRoce (s : State) (n : Nat) (b : Bytes) (far : List FarAns) : State × Bool :=
  let c := s.conn n
  let psn := beAt b 9 3
  let op := roceOp (beAt b 0 1)
  let data := decide (op = 1) || decide (op = 2) || decide (op = 4)
  if data ∧ c.state = 3 ∧ psn ≠ c.cum then
    (if c.psnMod / 2 ≤ modSub psn c.cum c.psnMod then s.sendAck n 0 0 0 else s.sendAck n 6 c.cum 0, true)
  else match c.roceDecode b with
    | none => if data then (s.sendAck n 3 psn 0, true) else (s.discard c.stall, true)
    | some (p, c') =>
      if p.op = 0x10 then (s.rxAck n p, true)
      else if p.op = 3 then s.rxResp n p
      else
        match ((s.setConn n c').roceSendLen n p).rxData n p far with
        | (s, true) => (s, true)
        | (s, false) => (s.setConn n { s.conn n with roce := c.roce, roceMsgs := c.roceMsgs }, false)

/-! ### The HELLO family (R391, R392) -/

/-- The versions of a HELLO packet. -/
def helloVersions (p : Pkt) : List Nat := (List.range (beAt p.ext 4 1)).map fun i => beAt p.ext (8 + 2 * i) 2

/-- A context becomes READY when it holds the peer's HELLO and a HELLO_ACK. -/
def State.connReady (s : State) (n : Nat) : State :=
  let c := s.conn n
  match c.peer with
  | some (_, psn, _) =>
    if c.state = 2 ∧ c.acked then s.setConn n { c with state := 3, cum := psn % c.psnMod, got := [], msgs := [], msnDone := 0, nextMsn := 0 } else s
  | none => s

/-- A packet of the HELLO family that matches its context. -/
def State.rxHello (s : State) (n : Nat) (p : Pkt) : State :=
  let c := s.conn n
  if beAt p.ext 0 4 ≠ c.peerConn ∨ c.state = 4 then s.discard c.stall
  else
    let refuse (s : State) : State := (s.sendHello n 0x22).setConn n { c with state := 1, errCode := 0x7F }
    match p.op with
    | 0x20 =>
      match c.state, agreed (helloVersions p) with
      | 3, _ =>
        if c.peer.any (fun x => x.1 = p.epoch) then s.sendHello n 0x21 else s.connError n 0x44 none
      | _, none => refuse s
      | _, some v => ((s.setConn n { c with peer := some (p.epoch, p.psn, v) }).sendHello n 0x21).connReady n
    | 0x21 =>
      if c.state = 3 then s
      else match agreed (helloVersions p) with
        | none => refuse s
        | some _ => (s.setConn n { c with acked := true }).connReady n
    | _ => if c.state = 2 then s.setConn n { c with state := 1, errCode := 0x7F } else s

/-! ### The rows of arriving packets -/

/-- A frame at a Carter stall handled (R389, R390, R394, R407): the state, and whether it has left the queue. -/
def State.rxFrame (s : State) (q : Nat) (f : Bytes) (far : List FarAns) : State × Bool :=
  let drop_ (s : State) : State × Bool := (s.discard q, true)
  match arrived f with
  | none => drop_ s
  | some a =>
    let n := if a.roce then a.conn else beAt a.body 4 4 % 2 ^ 20
    let c := s.conn n
    if a.badSum ∨ c.state ≤ 1 ∨ c.stall ≠ q ∨ a.src ≠ c.peerIp ∨ a.op = 0 ∨ (a.roce ≠ (c.isRoce && decide (a.op < 0x20))) then drop_ s
    else
      let c := { c with ce := if a.ce then min 255 (c.ce + 1) else c.ce }
      if a.roce then
        if c.state = 2 then drop_ s else (s.setConn n c).rxRoce n a.body far
      else if 0x20 ≤ a.op then
        match pktOf a.body with
        | some p => if p.ver = 0x0100 then (s.rxHello n p, true) else drop_ s
        | none => drop_ s
      else if beAt a.body 8 2 ≠ c.epoch ∨ (nbit (beAt a.body 3 1) 2 ∧ !c.sealed_) then drop_ s
      else
        let (s, body) := if c.sealed_ then (if nbit (beAt a.body 3 1) 2 then s.unseal c a.body else (s, none)) else (s, some a.body)
        match body with
        | none => ((s.fsat ⟨.carterErr, q, 0⟩ F.carterErr_AUTH_DROPS 1).carterEvent q 10 1, true)
        | some b =>
          match pktOf b with
          | none => drop_ s
          | some p =>
            if c.peer.all (fun x => x.2.2 ≠ p.ver) ∨ c.state = 2 then drop_ s
            else
              let s := s.setConn n c
              if p.op = 0x10 then (s.rxAck n p, true)
              else if p.op = 3 ∨ p.op = 6 then (if c.state = 3 then s.rxResp n p else (s, true))
              else s.rxData n p far

/-- The first frame of Quarter `q`'s Carter stall that a row handles. -/
def State.rxRow (s : State) (q : Nat) (hit : Nat → Bool) (far : List FarAns) : State :=
  let l := lookD [] s.carter.rx q
  if !s.carterOn q then s
  else match pickFrame hit [] 0 l with
    | none => s
    | some i =>
      match s.unitParity (soleStall q 9) ⟨.carterErr, q, 0⟩ F.carterErr_PARITY with
      | some s => s
      | none =>
        let f := l.getD i []
        match s.rxFrame q f far with
        | (s, false) => s
        | (s, true) =>
          let s := (s.carterEvent q 7 1).carterEvent q 13 (f.length - 42)
          { s with carter := { s.carter with rx := putD [] s.carter.rx q (l.eraseIdx i) } }

/-- HELLO (R391). -/
def execHello (q : Qn) (s : State) : Host.Outcome State Fault Refusal := done (s.rxRow q.val (· = 0x20) [])

/-- HELLO_ACK (R391). -/
def execHelloAck (q : Qn) (s : State) : Host.Outcome State Fault Refusal := done (s.rxRow q.val (· = 0x21) [])

/-- HELLO_REFUSE (R392). -/
def execHelloRefuse (q : Qn) (s : State) : Host.Outcome State Fault Refusal := done (s.rxRow q.val (· = 0x22) [])

/-- CARTER_RX_WRITE (R403). -/
def execCarterRxWrite (q : Qn) (s : State) : Host.Outcome State Fault Refusal := done (s.rxRow q.val (· = 1) [])

/-- CARTER_RX_READ_REQ (R403). -/
def execCarterRxReadReq (q : Qn) (far : List FarAns) (s : State) : Host.Outcome State Fault Refusal :=
  done (s.rxRow q.val (· = 2) far)

/-- CARTER_RX_READ_RESP (R403). -/
def execCarterRxReadResp (q : Qn) (s : State) : Host.Outcome State Fault Refusal := done (s.rxRow q.val (· = 3) [])

/-- CARTER_RX_SEND (R396). -/
def execCarterRxSend (q : Qn) (far : List FarAns) (s : State) : Host.Outcome State Fault Refusal := done (s.rxRow q.val (· = 4) far)

/-- CARTER_RX_ATOMIC (R403). -/
def execCarterRxAtomic (q : Qn) (s : State) : Host.Outcome State Fault Refusal := done (s.rxRow q.val (· = 5) [])

/-- CARTER_RX_ATOMIC_RESP (R398). -/
def execCarterRxAtomicResp (q : Qn) (s : State) : Host.Outcome State Fault Refusal := done (s.rxRow q.val (· = 6) [])

/-- CARTER_RX_BELL (R397). -/
def execCarterRxBell (q : Qn) (s : State) : Host.Outcome State Fault Refusal := done (s.rxRow q.val (· = 7) [])

/-- CARTER_RX_ACK (R404). -/
def execCarterRxAck (q : Qn) (s : State) : Host.Outcome State Fault Refusal := done (s.rxRow q.val (· = 0x10) [])

/-! ### Timers -/

/-- CARTER_HELLO_TIMER (R391). -/
def execCarterHelloTimer (n : ConnNo) (s : State) : Host.Outcome State Fault Refusal :=
  let c := s.conn n.val
  if c.state = 2 ∧ s.carterOn c.stall then done (s.sendHello n.val 0x20) else done s

/-- CARTER_CONNECT_TIMEOUT (R391). -/
def execCarterConnectTimeout (n : ConnNo) (s : State) : Host.Outcome State Fault Refusal :=
  if (s.conn n.val).state = 2 then done (s.connError n.val 0x45 none) else done s

/-- CARTER_RTO (R402–R404): RTO_US has passed since the last sending of the packet `psn`. A READ whose request has been received
sends it again, as a new packet, from its first missing byte. -/
def execCarterRto (n : ConnNo) (psn : Nat) (s : State) : Host.Outcome State Fault Refusal :=
  let n := n.val
  let c := s.conn n
  if c.state ≠ 3 ∨ c.stalled.isSome ∨ !s.carterOn c.stall then done s
  else match c.unacked.find? (fun t => t.psn = psn) with
    | none => done s
    | some t =>
      if t.sacked then
        match c.orders.find? (fun o => o.msn = some t.msn && oOp o.desc = 2), pktOf t.bytes with
        | some o, some p =>
          if c.retryLimit + 1 ≤ t.sent then done (s.connError n 0x43 (some t.msn))
          else
            let off := match uncovered 0 (oLen o.desc) o.placed with | x :: _ => x.1 | [] => 0
            let new := c.nextPsn
            let path := c.pathFrom (new % c.paths)
            let p := { p with psn := new, off := off, flags := p.flags ||| 0x20 }
            let t' := { t with psn := new, sacked := false, sent := t.sent + 1, bytes := p.bytes path, path := path, first := path }
            let c := { c with
              unacked := (c.unacked.filter fun u => u.psn ≠ psn) ++ [t'], nextPsn := (new + c.psnsOf o.desc off) % c.psnMod }
            done (((s.setConn n c).carterEvent c.stall 8 1).sendPkt c path p)
        | _, _ => done (s.resend n t true)
      else
        let k := lookD 0 c.pathFails t.first + 1
        let c := { c with pathFails := put c.pathFails t.first k
                          pathDown := if 3 ≤ k ∧ !c.pathDown.contains t.first then t.first :: c.pathDown else c.pathDown }
        if c.isRoce then
          done ((c.unacked.filter fun u => !u.sacked && !seqBefore u.psn psn c.psnMod).foldl (fun s u => s.resend n u true) (s.setConn n c))
        else done ((s.setConn n c).resend n t true)

/-- CARTER_PATH_RETRY (R402). -/
def execCarterPathRetry (n : ConnNo) (path : Fin 16) (s : State) : Host.Outcome State Fault Refusal :=
  let c := s.conn n.val
  done (s.setConn n.val { c with pathDown := c.pathDown.filter (· ≠ path.val), pathFails := drop c.pathFails path.val })

/-- CARTER_ACK_TIMER (R403); a REDUCE message whose pieces Tally has taken completes here at the latest (R408). -/
def execCarterAckTimer (n : ConnNo) (s : State) : Host.Outcome State Fault Refusal :=
  let n := n.val
  let c := s.conn n
  if c.state ≠ 3 ∨ !s.carterOn c.stall then done s
  else
    let s := (s.settle n (c.msgs.length + 1)).complete n
    if (s.conn n).sinceAck ≠ 0 ∨ (s.conn n).msnDone ≠ c.msnDone then done (s.sendAck n 0 0 0) else done s

/-- The frames of a connection, and the others. -/
def splitConn (n : Nat) (l : List Bytes) : List Bytes × List Bytes := l.partition fun f => frameConn f = some n

/-- CARTER_ONDEMAND_WITHDRAW (R406): the held packet at the front of the connection's packets and every later one are answered
RETRY_AFTER and treated as not received. -/
def execCarterOndemandWithdraw (n : ConnNo) (s : State) : Host.Outcome State Fault Refusal :=
  let n := n.val
  let c := s.conn n
  let (mine, rest) := splitConn n (lookD [] s.carter.rx c.stall)
  if c.state ≠ 3 ∨ mine.isEmpty ∨ !s.carterOn c.stall then done s
  else
    let s := s.withdraw c.stall c.st c.asid
    let s := { s with carter := { s.carter with rx := putD [] s.carter.rx c.stall rest } }
    done (mine.foldl (fun s f =>
      match arrived f with
      | some a => s.sendAck n 1 (if a.roce then beAt a.body 9 3 else beAt a.body 0x0C 4) 100
      | none => s) s)

/-- CARTER_RETRY_AFTER_EXPIRE (R406). -/
def execCarterRetryAfterExpire (n : ConnNo) (s : State) : Host.Outcome State Fault Refusal :=
  let n := n.val
  let c := s.conn n
  match c.stalled with
  | none => done s
  | some (psn, counts) =>
    if c.state ≠ 3 ∨ !s.carterOn c.stall then done s
    else
      let s := s.setConn n { c with stalled := none }
      let s := (c.unacked.filter fun t => !t.sacked && !seqBefore t.psn psn c.psnMod).foldl (fun s t => s.resend n t counts) s
      done (s.sendMore n (c.todoCount + 1))

/-- CARTER_COMPLETION_WRITE (R398, R404). -/
def execCarterCompletionWrite (n : ConnNo) (s : State) : Host.Outcome State Fault Refusal :=
  if (s.conn n.val).state = 0 then done s else done ((s.flushConn n.val).complete n.val)

end Sys2Proof.Machine
end

