-- ==== Sys2Proof/Machine/Ledger.lean ====
section
/-!
DEFINITION. The Ledger stalls: queues, commands, volumes and their replicas (R431–R454).
-/
namespace Sys2Proof.Machine

/-- The Ledger stall of Quarter `q` works. -/
def State.ledgerOn (s : State) (q : Nat) : Bool := s.fbit ⟨.ledgerCtrl, q, 0⟩ F.ledgerCtrl_ENABLE && !s.stallFenced (soleStall q 10)
def LQueue.st (q : LQueue) : Nat := soleStall q.stall 10
def State.ledgerEvent (s : State) (q : LQueue) (slot n : Nat) : State := s.stallEvent q.st slot n 0 0

/-! ### Doorbells (R435) -/

/-- LEDGER_SQ_DOORBELL (R435). -/
def execLedgerSqDoorbell (f : FuncNo) (slot : Nat) (v : W64) (s : State) : Host.Outcome State Fault Refusal :=
  match s.slotOf f.val slot with
  | none => done (s.slotStray f.val)
  | some (.ledgerSq n) =>
    match s.lqueue n with
    | some q => done (s.setLqueue n { q with sqTail := advanceTo q.sqTail q.sqLog (v.toNat % 2 ^ 16 % 2 ^ q.sqLog) })
    | none => done s
  | some _ => done s

/-- LEDGER_CQ_DOORBELL (R435). -/
def execLedgerCqDoorbell (f : FuncNo) (slot : Nat) (v : W64) (s : State) : Host.Outcome State Fault Refusal :=
  match s.slotOf f.val slot with
  | none => done (s.slotStray f.val)
  | some (.ledgerCq n) =>
    match s.lqueue n with
    | some q =>
      done (s.setLqueue n { q with cqHead := min q.cqTail (advanceTo q.cqHead q.cqLog (v.toNat % 2 ^ 16 % 2 ^ q.cqLog)) })
    | none => done s
  | some _ => done s

/-! ### Fetch (R434, R435, R447) -/

/-- The volume lets a queue fetch a command (Table 18.5). -/
def State.fetchOk (s : State) (q : LQueue) (d : Bytes) : Bool :=
  match s.volume q.volume with
  | some v => decide (v.power ≠ 3) || (q.admin && (decide (lOp d = 9) || decide (lOp d = 11)))
  | none => true

/-- A queue may fetch: ACTIVE, a tag free, a command waiting, its precinct running. -/
def State.lmayFetch (s : State) (n : Nat) (q : LQueue) : Bool :=
  decide (q.state = 1) && !q.resetting && decide (q.cmds.length < 256) && s.ledgerOn q.stall && !s.precPaused q.prec && !s.ringsPaused q.func && !s.fwPaused &&
  (if q.dbBell then s.bell.met.contains (.ledger n) else decide (q.sqHead < q.sqTail))

/-- LEDGER_FETCH (R434). A command that cannot be read ends with ACCESS_FAULT, and a poisoned one with POISONED_INPUT. -/
def execLedgerFetch (n : Fin 4096) (far : List FarAns) (s : State) : Host.Outcome State Fault Refusal :=
  let n := n.val
  match s.lqueue n with
  | none => done s
  | some q =>
    if !s.lmayFetch n q then done s
    else match s.unitParity q.st ⟨.ledgerErr, q.stall, 0⟩ F.ledgerErr_PARITY with
      | some s => done s
      | none =>
        let va := q.sqBase + q.sqHead % 2 ^ q.sqLog * 64
        let take (s : State) (d : Bytes) (e : Option (Nat × Nat)) : State :=
          let c : LCmd := { idx := q.sqHead, seq := s.ledger.seq, desc := d, ended := e }
          let s := { s with ledger := { s.ledger with seq := s.ledger.seq + 1 } }
          let s := s.setLqueue n { q with sqHead := q.sqHead + 1, cmds := q.cmds ++ [c], waiting := false }
          (s.takeMet (.ledger n)).1
        match (ioRead q.stall q.st q.asid va 64).at s far with
        | (s, .error .held) => done s
        | (s, .error .fault) => done (take s (leBytes 64 0) (some (0x05, 0)))
        | (s', .ok (d, bad)) =>
          if !s.fetchOk q d then done s else done (take s' d (if bad then some (0x06, 0) else none))

/-! ### Checks (R436, R437, R445) -/

/-- A command holds no reserved value and only the fields its opcode uses (R437). -/
def lcmdOk (log2 : Nat) (d : Bytes) : Bool :=
  let op := lOp d
  let uses (b l a x g h : Bool) : Bool :=
    (b || decide (lBlocks d = 0)) && (l || decide (lLba d = 0)) && (a || decide (lData d = 0)) && (x || decide (lAux d = 0)) &&
    (g || decide (lArg0 d = 0)) && (h || decide (lArg1 d = 0))
  let blocks (most : Nat) : Bool := decide (1 ≤ lBlocks d) && decide (lBlocks d * 2 ^ log2 ≤ most)
  decide (lFlags d < 2) && allZero (slice d 0x28 24) && decide (lData d % 64 = 0) &&
  (match op with
    | 1 | 2 => uses true true true false false false && blocks (2 ^ 24)
    | 3 | 7 => uses false false false false false false
    | 4 | 5 => uses true true false false false false && blocks (2 ^ 24)
    | 6 => uses true true true true false false && blocks pieceBytes
    | 8 => uses false false false false true false && decide (lArg0 d ≤ 1)
    | 9 => uses false false false true true false && decide (1 ≤ lArg0 d) && decide (lArg0 d ≤ 3)
    | 10 => uses false false false false true true && decide (lArg0 d = 3) && decide (lArg1 d % 256 ≠ 0) && decide (lArg1 d < 2 ^ 24)
    | 11 => uses false false false false true false && decide (lArg0 d ≤ 3)
    | _ => false)

/-- The status with which a command ends without running, if any. -/
def State.lcheck (s : State) (q : LQueue) (d : Bytes) : Option Nat :=
  match s.volume q.volume with
  | none => some 0x44
  | some v =>
    if !lcmdOk v.log2 d then some 0x01
    else if ([7, 8, 11] : List Nat).contains (lOp d) && !q.admin then some 0x47
    else if v.op ≠ 0 ∧ lOp d ≠ 9 then some 0x42
    else if (lWrites d || decide (lOp d = 1)) && decide (v.blocks < lLba d + lBlocks d) then some 0x40
    else if lIsWrite d && decide (lOp d ≠ 11) && decide (v.healthy < v.minHealthy) then some 0x44
    else if (lOp d = 1 ∧ v.healthy = 0) ∨ v.key = [] then some 0x44
    else none

/-! ### Running a command -/

/-- A command of a queue replaced. -/
def LQueue.setCmd (q : LQueue) (c : LCmd) : LQueue := { q with cmds := q.cmds.map fun x => if x.idx = c.idx then c else x }

/-- A command ends, and its status is noted in LEDGER_ERR. -/
def State.endCmd (s : State) (n : Nat) (c : LCmd) (status result : Nat) : State :=
  match s.lqueue n with
  | none => s
  | some q =>
    let s := s.setLqueue n (q.setCmd { c with ended := some (status, result), data := [] })
    let r : Reg := ⟨.ledgerErr, q.stall, 0⟩
    match status with
    | 0x05 => s.fset r F.ledgerErr_ACCESS 1
    | 0x06 => s.fset r F.ledgerErr_POISON_IN 1
    | 0x0B => s.fset r F.ledgerErr_CIPHER 1
    | 0x45 => s.fset r F.ledgerErr_MEDIUM 1
    | _ => s

/-- A command may run: it has been fetched and has not started; no overlapping command before it in its SQ is unfinished, where
either writes (R438); no other write to its blocks is under way; no piece it touches is uncertain (R441); and its volume is not
in PS2 or PS3 for a queue without ADMIN (R447). -/
def State.lready (s : State) (q : LQueue) (c : LCmd) : Bool :=
  match s.volume q.volume with
  | none => true
  | some v =>
    let before := q.cmds.all fun x => decide (c.idx ≤ x.idx) || x.ended.isSome || !lOverlap x.desc c.desc ||
      !(lWrites x.desc || lWrites c.desc)
    let others := !lWrites c.desc || s.ledger.queues.all fun x => decide (x.2.volume ≠ q.volume) ||
      x.2.cmds.all fun y => !y.started || y.ended.isSome || !lWrites y.desc || !lOverlap y.desc c.desc
    let (a, k) := v.range c.desc
    let sure := !(lWrites c.desc || decide (lOp c.desc = 1)) || v.uncertain.all fun u => decide (u.1 + u.2 ≤ a) || decide (a + k ≤ u.1)
    c.ended.isNone && !c.started && before && others && sure && (q.admin || decide (v.power ≤ 1))

/-- Command `i` of queue `n` runs if its opcode is `op`, or is undefined; `body` does what it does. -/
def State.lrun (s : State) (n i op : Nat) (body : LQueue → Volume → LCmd → State) : State :=
  match s.lqueue n with
  | none => s
  | some q =>
    match q.cmds.find? (fun c => c.idx = i) with
    | none => s
    | some c =>
      let known := decide (1 ≤ lOp c.desc) && decide (lOp c.desc ≤ 11)
      if (known && decide (lOp c.desc ≠ op)) || c.ended.isSome || c.started || !s.ledgerOn q.stall then s
      else match s.lcheck q c.desc, s.volume q.volume with
        | some st, _ => s.endCmd n c st 0
        | none, some v => if s.lready q c then body q v c else s
        | none, none => s

/-- A compare mismatch of a Cashbox stall on the way of a command (R427): counted and recorded there. -/
def State.ledgerCipherFault (s : State) (q : LQueue) : State :=
  match s.cashboxFor q.prec q.stall with
  | none => s
  | some st =>
    let r : Reg := ⟨.cashboxCheck, st, 0⟩
    let s := (s.fsat r F.cashboxCheck_FAULTS 1).recordErr 2 0x0D q.prec st 0 0 0 false
    if s.fget r F.cashboxCheck_FAULTS = s.fget r F.cashboxCheck_LIMIT then s.report 3 0x0D q.prec st 0 0 0 false else s

/-- LEDGER_READ (R438): `bad` healthy replicas fail it before one serves it; with `mismatch`, a Cashbox comparison fails. Bytes of a
read that fails are free. -/
def execLedgerRead (n : Fin 4096) (i bad : Nat) (mismatch : Bool) (s : State) : Host.Outcome State Fault Refusal :=
  let n := n.val
  done (s.lrun n i 1 fun q v c =>
    let size := 2 ^ v.log2
    let len := lBlocks c.desc * size
    let send (s : State) (b : Bytes) (status : Nat) : State :=
      match (ioWrite q.stall q.st q.asid (lData c.desc) b false).at s [] with
      | (s, .error .held) => s
      | (s, .error .fault) => s.endCmd n c 0x05 0
      | (s, .ok _) => (if status = 0 then s.ledgerEvent q 7 len else s).endCmd n c status 0
    match (v.replicas.filter (·.up))[bad]? with
    | none => send (s.useFresh len) (s.freeBytes len) 0x45
    | some r =>
      if mismatch then send ((s.useFresh len).ledgerCipherFault q) (s.freeBytes len) 0x0B
      else send s (r.read size (lLba c.desc) (lBlocks c.desc)) 0)

/-- A write starts: its records go to every replica (R441). -/
def State.startWrite (s : State) (n : Nat) (q : LQueue) (c : LCmd) (data : Bytes) : State :=
  s.setLqueue n (q.setCmd { c with started := true, data := data })

/-- LEDGER_WRITE (R441). -/
def execLedgerWrite (n : Fin 4096) (i : Nat) (mismatch : Bool) (far : List FarAns) (s : State) : Host.Outcome State Fault Refusal :=
  let n := n.val
  done (s.lrun n i 2 fun q v c =>
    match (ioRead q.stall q.st q.asid (lData c.desc) (lBlocks c.desc * 2 ^ v.log2)).at s far with
    | (s, .error .held) => s
    | (s, .error .fault) => s.endCmd n c 0x05 0
    | (s, .ok (_, true)) => s.endCmd n c 0x06 0
    | (s, .ok (b, false)) => if mismatch then (s.ledgerCipherFault q).endCmd n c 0x0B 0 else s.startWrite n q c b)

/-- LEDGER_WRITE_ZEROES (R431). -/
def execLedgerWriteZeroes (n : Fin 4096) (i : Nat) (s : State) : Host.Outcome State Fault Refusal :=
  done (s.lrun n.val i 4 fun q v c => s.startWrite n.val q c (List.replicate (lBlocks c.desc * 2 ^ v.log2) 0#8))

/-- LEDGER_DISCARD (R431). -/
def execLedgerDiscard (n : Fin 4096) (i : Nat) (s : State) : Host.Outcome State Fault Refusal :=
  done (s.lrun n.val i 5 fun q v c => s.startWrite n.val q c (List.replicate (lBlocks c.desc * 2 ^ v.log2) 0#8))

/-- The offset of the first byte in which two strings differ. -/
def firstDiff : Bytes → Bytes → Option Nat
  | a :: as, b :: bs => if a = b then (firstDiff as bs).map (· + 1) else some 0
  | _, _ => none

/-- LEDGER_COMPARE_AND_WRITE (R439). -/
def execLedgerCompareAndWrite (n : Fin 4096) (i bad : Nat) (mismatch : Bool) (far : List FarAns) (s : State) :
    Host.Outcome State Fault Refusal :=
  let n := n.val
  done (s.lrun n i 6 fun q v c =>
    let len := lBlocks c.desc * 2 ^ v.log2
    let body : IoM ((Bytes × Bool) × (Bytes × Bool)) := do
      let a ← ioRead q.stall q.st q.asid (lAux c.desc) len
      let b ← ioRead q.stall q.st q.asid (lData c.desc) len
      pure (a, b)
    match body.at s far with
    | (s, .error .held) => s
    | (s, .error .fault) => s.endCmd n c 0x05 0
    | (s, .ok (a, b)) =>
      if a.2 || b.2 then s.endCmd n c 0x06 0
      else if mismatch then (s.ledgerCipherFault q).endCmd n c 0x0B 0
      else match (v.replicas.filter (·.up))[bad]? with
        | none => s.endCmd n c 0x45 0
        | some r =>
          match firstDiff (r.read (2 ^ v.log2) (lLba c.desc) (lBlocks c.desc)) a.1 with
          | some o => s.endCmd n c 0x41 o
          | none => s.startWrite n q c b.1)

/-- LEDGER_FLUSH (R442). -/
def execLedgerFlush (n : Fin 4096) (i : Nat) (s : State) : Host.Outcome State Fault Refusal :=
  done (s.lrun n.val i 3 fun q _ c =>
    if q.cmds.all (fun x => decide (c.idx ≤ x.idx) || x.ended.isSome || !lIsWrite x.desc) then s.endCmd n.val c 0 0 else s)

/-- Every command of a volume fetched before another has ended. -/
def State.earlierDone (s : State) (vol seq : Nat) : Bool :=
  s.ledger.queues.all fun x => decide (x.2.volume ≠ vol) || x.2.cmds.all fun y => decide (seq ≤ y.seq) || y.ended.isSome

/-- Volumes with a sanitise or format in progress. -/
def State.volumeOps (s : State) : Nat := (s.ledger.volumes.filter fun x => x.2.op ≠ 0).length

/-- Regions of 1 GiB of a volume. -/
def Volume.regionCount (v : Volume) : Nat := (v.blocks * 2 ^ v.log2 + 2 ^ 30 - 1) / 2 ^ 30

/-- LEDGER_SANITISE (R443, R445): a new key, which is free. -/
def execLedgerSanitise (n : Fin 4096) (i : Nat) (s : State) : Host.Outcome State Fault Refusal :=
  let n := n.val
  done (s.lrun n i 7 fun q v c =>
    if !s.earlierDone q.volume c.seq then s
    else if 64 ≤ s.volumeOps then s.endCmd n c 0x46 0
    else
      let v := { v with op := 1, regionsDone := 0, regions := v.regionCount, key := s.freeBytes 64, uncertain := [] }
      ((s.useFresh 64).setVolume q.volume v).endCmd n c 0 0)

/-- LEDGER_FORMAT (R444, R445). -/
def execLedgerFormat (n : Fin 4096) (i : Nat) (s : State) : Host.Outcome State Fault Refusal :=
  let n := n.val
  done (s.lrun n i 8 fun q v c =>
    if !s.earlierDone q.volume c.seq then s
    else if 64 ≤ s.volumeOps then s.endCmd n c 0x46 0
    else
      let lg := if lArg0 c.desc = 0 then 12 else 14
      let v := { v with
        op := 2, regionsDone := 0, regions := v.regionCount, blocks := v.blocks * 2 ^ v.log2 / 2 ^ lg, log2 := lg, uncertain := []
        replicas := v.replicas.map fun r => { r with blocks := [] } }
      (s.setVolume q.volume v).endCmd n c 0 0)

/-- LEDGER_SANITISE_REGION_DONE (R443, R444, R446): one region of a volume is overwritten and journalled; after the last one every
block reads as zero. -/
def execLedgerSanitiseRegionDone (vol : Fin 4096) (s : State) : Host.Outcome State Fault Refusal :=
  match s.volume vol.val with
  | none => done s
  | some v =>
    if v.op = 0 then done s
    else if v.regionsDone + 1 < v.regions then done (s.setVolume vol.val { v with regionsDone := v.regionsDone + 1 })
    else done (s.setVolume vol.val { v with
      op := 0, regionsDone := v.regions, replicas := v.replicas.map fun r => { r with blocks := [] } })

/-- The live IOPS_LIMIT of an instance (Table 19.9, ITEM 4). -/
def State.iopsOf (s : State) (f : Nat) : Nat := match s.inst f with | some i => lookD 0 i.live 4 | none => 0

/-- The 64 bytes of a feature (Tables 18.1 and 18.4). -/
def State.feature (s : State) (q : LQueue) (v : Volume) (n : Nat) : Bytes :=
  slice (match n with
    | 1 => leBytes 8 v.blocks ++ leBytes 1 v.log2 ++ leBytes 1 v.state ++ leBytes 1 v.replicas.length ++ leBytes 1 v.healthy ++
        leBytes 1 v.minHealthy ++ leBytes 1 v.power ++ leBytes 2 0 ++ leBytes 4 (s.iopsOf q.func)
    | 2 => leBytes 1 v.op ++ leBytes 3 0 ++ leBytes 4 v.regionsDone ++ leBytes 4 v.regions
    | _ => leBytes 4 q.coalesce) 0 64

/-- LEDGER_GET_FEATURES (R437). -/
def execLedgerGetFeatures (n : Fin 4096) (i : Nat) (s : State) : Host.Outcome State Fault Refusal :=
  let n := n.val
  done (s.lrun n i 9 fun q v c =>
    match (ioWrite q.stall q.st q.asid (lAux c.desc) (s.feature q v (lArg0 c.desc)) false).at s [] with
    | (s, .error .held) => s
    | (s, .error .fault) => s.endCmd n c 0x05 0
    | (s, .ok _) => s.endCmd n c 0 0)

/-- LEDGER_SET_FEATURES (R437). -/
def execLedgerSetFeatures (n : Fin 4096) (i : Nat) (s : State) : Host.Outcome State Fault Refusal :=
  let n := n.val
  done (s.lrun n i 10 fun q _ c => (s.setLqueue n { q with coalesce := lArg1 c.desc }).endCmd n c 0 0)

/-- LEDGER_SET_POWER_STATE (R447): out of PS2 or PS3, once the backing connections are READY again. -/
def execLedgerSetPowerState (n : Fin 4096) (i : Nat) (s : State) : Host.Outcome State Fault Refusal :=
  let n := n.val
  done (s.lrun n i 11 fun q v c =>
    let p := lArg0 c.desc
    if 2 ≤ p ∧ p ≠ v.power ∧ !s.earlierDone q.volume c.seq then s
    else (s.setVolume q.volume { v with power := p }).endCmd n c 0 0)

/-! ### Replicas (R441, R451) -/

/-- Started writes of a volume that every healthy replica has reported end OK, or with BACKING_UNAVAILABLE where too few replicas
are left. -/
def State.settleWrites (s : State) (vol : Nat) : State :=
  match s.volume vol with
  | none => s
  | some v =>
    s.ledger.queues.foldl (fun s x =>
      if x.2.volume ≠ vol then s
      else x.2.cmds.foldl (fun s c =>
        if !c.started || c.ended.isSome || !lWrites c.desc then s
        else
          let (a, k) := v.range c.desc
          let rs := records a k
          let all := (List.range v.replicas.length).all fun r =>
            !((v.replicas[r]?).any (·.up)) || (List.range rs.length).all fun j => c.acks.contains (r, j)
          if v.healthy < v.minHealthy then (s.leaveUncertain vol c).endCmd x.1 c 0x44 0
          else if all then
            let s := if lOp c.desc = 2 ∨ lOp c.desc = 6 then s.ledgerEvent x.2 8 k else s
            s.endCmd x.1 c 0 0
          else s) s) s

/-- LEDGER_DURABLE (R441): replica `r` reports record `j` of command `i`, which it has applied. -/
def execLedgerDurable (n : Fin 4096) (i r j : Nat) (s : State) : Host.Outcome State Fault Refusal :=
  match s.lqueue n.val with
  | none => done s
  | some q =>
    match q.cmds.find? (fun c => c.idx = i), s.volume q.volume with
    | some c, some v =>
      let (a, k) := v.range c.desc
      let rs := records a k
      if !c.started || c.ended.isSome || !((v.replicas[r]?).any (·.up)) || decide (rs.length ≤ j) || c.acks.contains (r, j) then done s
      else
        let s := s.setVolume q.volume (v.apply r a c.data (rs.getD j (0, 0)))
        let s := s.setLqueue n.val (q.setCmd { c with acks := (r, j) :: c.acks })
        done (s.settleWrites q.volume)
    | _, _ => done s

/-- LEDGER_REPLICA_TIMEOUT (R451): seen by the Ledger stall of Quarter `q`. -/
def execLedgerReplicaTimeout (q : Qn) (vol : Fin 4096) (r : Fin 3) (s : State) : Host.Outcome State Fault Refusal :=
  match s.volume vol.val with
  | none => done s
  | some v =>
    if !((v.replicas[r.val]?).any (·.up)) then done s
    else
      let s := (s.fsat ⟨.ledgerErr, q.val, 0⟩ F.ledgerErr_REPLICA_OUT 1).stallEvent (soleStall q.val 10) 9 1 0 0
      let s := s.setVolume vol.val { v with replicas := v.replicas.mapIdx fun i x => if i = r.val then { x with up := false } else x }
      done (s.settleWrites vol.val)

/-- LEDGER_PIECE_REPAIR (R441): the `k`-th uncertain piece of a volume is copied from the lowest-numbered healthy replica to the
others. -/
def execLedgerPieceRepair (vol : Fin 4096) (k : Nat) (s : State) : Host.Outcome State Fault Refusal :=
  match s.volume vol.val with
  | none => done s
  | some v =>
    match v.uncertain[k]?, v.first with
    | some u, some r =>
      let size := 2 ^ v.log2
      let b := r.read size (u.1 / size) (u.2 / size)
      done (s.setVolume vol.val { v with
        uncertain := v.uncertain.eraseIdx k
        replicas := v.replicas.map fun x => if x.up then x.write size (u.1 / size) b else x })
    | _, _ => done s

/-- REPLICA_RETURN (R451): it holds every piece written while it was out. -/
def execReplicaReturn (vol : Fin 4096) (r : Fin 3) (s : State) : Host.Outcome State Fault Refusal :=
  match s.volume vol.val with
  | none => done s
  | some v =>
    if (v.replicas[r.val]?).all (·.up) then done s
    else done (s.setVolume vol.val { v with replicas := v.replicas.mapIdx fun i x =>
      if i = r.val then { up := true, blocks := match v.first with | some f => f.blocks | none => x.blocks } else x })

/-! ### Completions (R448, R449) -/

/-- A completion counts toward the queue's interrupt. -/
def State.lirq (s : State) (n : Nat) : State :=
  match s.lqueue n with
  | none => s
  | some q =>
    if !nbit q.flags 2 then s
    else if q.coalesce % 256 ≤ q.irqs + 1 then (s.setLqueue n { q with irqs := 0 }).sendMsix q.func q.msix
    else s.setLqueue n { q with irqs := q.irqs + 1 }

/-- A queue reset whose last completion has been written ends (R449). -/
def State.resetEnd (s : State) (n : Nat) : State :=
  match s.lqueue n with
  | none => s
  | some q =>
    if q.resetting && q.cmds.isEmpty then
      let s := s.setLqueue n { q with sqHead := 0, sqTail := 0, cqTail := 0, cqHead := 0, resetting := false, state := if q.state = 2 then 1 else q.state }
      let r : Reg := ⟨.ledgerOp, q.stall, 0⟩
      if q.resetBy.isSome then s else (s.fset r F.ledgerOp_BUSY 0).fset r F.ledgerOp_STATUS 0
    else s

/-- The completion of an ended command written, if the CQ has room. -/
def State.lcomplete (s : State) (n i : Nat) : State :=
  match s.lqueue n with
  | none => s
  | some q =>
    match q.cmds.find? (fun c => c.idx = i) with
    | none => s
    | some c =>
      match c.ended with
      | none => s
      | some (status, result) =>
        if !q.dbBell && decide (2 ^ q.cqLog ≤ q.cqTail - q.cqHead) then s
        else
          let b := leBytes 4 result ++ leBytes 2 (lCid c.desc) ++ leBytes 2 (q.sqHead % 2 ^ q.sqLog) ++ leBytes 2 (c.idx % 2 ^ q.sqLog) ++
            leBytes 1 status ++ leBytes 1 0 ++ leBytes 4 (2 ^ 31 * b2n (phaseOf q.cqLog q.cqTail))
          match (ioCompletion q.stall q.st q.asid (ringAt q.cqBase q.cqLog q.cqTail) b).at s [] with
          | (s, .error .held) => s
          | (s, _) =>
            let s := s.setLqueue n { q with cqTail := q.cqTail + 1, cmds := q.cmds.filter (·.idx ≠ i) }
            let s := s.ledgerEvent q 6 1
            (if nbit (lFlags c.desc) 0 then s else s.lirq n).resetEnd n

/-- LEDGER_COMPLETION (R448). -/
def execLedgerCompletion (n : Fin 4096) (i : Nat) (s : State) : Host.Outcome State Fault Refusal := done (s.lcomplete n.val i)

/-- IRQ_COALESCE_TIMEOUT (R448). -/
def execIrqCoalesceTimeout (n : Fin 4096) (s : State) : Host.Outcome State Fault Refusal :=
  match s.lqueue n.val with
  | none => done s
  | some q => if q.irqs = 0 then done s else done ((s.setLqueue n.val { q with irqs := 0 }).sendMsix q.func q.msix)

/-! ### LEDGER_OP (R449, R454) -/

/-- Queues of a precinct, and its LEDGER_QUEUES pool. -/
def State.lqueueCount (s : State) (p : Nat) : Nat := (s.ledger.queues.filter fun x => x.2.prec = p).length
def State.lqueuePool (s : State) (p : Nat) : Nat := match s.xim.conf.pools.find? (fun x => x.prec = p) with | some x => x.ledger | none => 0

/-- A queue record (Table 18.8) read from its bytes, for the stall of Quarter `k`. -/
def LQueue.of (k p : Nat) (b : Bytes) : LQueue :=
  { flags := leAt b 1 1, version := leAt b 2 2, volume := leAt b 4 2, asid := leAt b 6 2, sqBase := leAt b 8 8, cqBase := leAt b 0x10 8,
    sqLog := leAt b 0x18 1, cqLog := leAt b 0x19 1, msix := leAt b 0x1A 2, dbCtr := leAt b 0x1C 2, func := leAt b 0x1E 2,
    prec := p, stall := k }

/-- A queue's fields hold no reserved value, and only its volume's owner has an ADMIN queue (R436). -/
def State.lqueueOk (s : State) (q : LQueue) : Bool :=
  decide (q.flags < 8) && decide (q.asid < 4096) && decide (q.sqBase % 64 = 0) && decide (q.cqBase % 64 = 0) && decide (4 ≤ q.sqLog) &&
  decide (q.sqLog ≤ 12) && decide (4 ≤ q.cqLog) && decide (q.cqLog ≤ 13) && decide (q.version / 256 = 1) &&
  (if q.dbBell then s.mayName q.prec q.dbCtr else decide (q.dbCtr = 0xFFFF)) &&
  (match s.volume q.volume with | some v => !q.admin || decide (v.owner = q.func) | none => false)

/-- CREATE: the state and a status. -/
def State.lqueueCreate (s : State) (n : Nat) (q : LQueue) : State × Nat :=
  if (s.lqueue n).isSome then (s, 5)
  else if !s.lqueueOk q then (s, 1)
  else if s.lqueuePool q.prec ≤ s.lqueueCount q.prec then (s, 3)
  else (s.setLqueue n q, 0)

/-- DELETE. -/
def State.lqueueDelete (s : State) (n : Nat) : State × Nat :=
  match s.lqueue n with
  | none => (s, 4)
  | some q =>
    if !q.cmds.isEmpty then (s, 5)
    else
      let s := s.dropWaiters (fun w => w = .ledger n)
      ({ s with ledger := { s.ledger with queues := drop s.ledger.queues n } }, 0)

/-- QUEUE_RESET (R449): it ends when the last outstanding command's completion has been written. -/
def State.lqueueReset (s : State) (n : Nat) (by_ : Option Nat) : State × Nat :=
  match s.lqueue n with
  | none => (s, 5)
  | some q =>
    let s := s.setLqueue n { q with resetting := true, resetBy := by_ }
    let s := s.endCmds n 0x43
    let s := (q.cmds.map (·.idx)).foldl (fun s i => s.lcomplete n i) s
    (s.resetEnd n, 0)

/-- PAUSE and RESUME. -/
def State.lqueueState (s : State) (n v : Nat) : State × Nat :=
  match s.lqueue n with
  | none => (s, 5)
  | some q => (s.setLqueue n { q with state := v }, 0)

/-- READ. -/
def State.lqueueRead (s : State) (k n : Nat) : State × Nat :=
  let b := match s.lqueue n with
    | none => leBytes 64 0
    | some q =>
      slice (leBytes 1 q.state ++ leBytes 1 q.flags ++ leBytes 2 q.version ++ leBytes 2 q.volume ++ leBytes 2 q.asid ++ leBytes 8 q.sqBase ++
        leBytes 8 q.cqBase ++ leBytes 1 q.sqLog ++ leBytes 1 q.cqLog ++ leBytes 2 q.msix ++ leBytes 2 q.dbCtr ++ leBytes 2 q.func ++
        leBytes 2 (q.sqHead % 2 ^ q.sqLog) ++ leBytes 2 (q.sqTail % 2 ^ q.sqLog) ++ leBytes 2 (q.cqTail % 2 ^ q.cqLog) ++
        leBytes 2 (q.cqHead % 2 ^ q.cqLog) ++ leBytes 2 q.cmds.length) 0 64
  (forNat 8 s fun s w => s.wr ⟨.ledgerStage, k, w⟩ (BitVec.ofNat 64 (leAt b (8 * w) 8)), 0)

/-- The 64 bytes of the stage. -/
def State.ledgerStaged (s : State) (k : Nat) : Bytes := (List.range 8).flatMap fun w => leBytes 8 (s.rd ⟨.ledgerStage, k, w⟩).toNat

/-- LEDGER_OP written (R454). -/
def State.ledgerOpWrite (s : State) (rq : Requester) (k : Nat) (v : W64) : State :=
  let r : Reg := ⟨.ledgerOp, k, 0⟩
  let n := bitsOf v F.ledgerOp_QUEUE
  if !rqKernel rq || s.fbit r F.ledgerOp_BUSY then s.refuse rq r
  else
    let fin (x : State × Nat) : State := x.1.fset r F.ledgerOp_STATUS x.2
    match bitsOf v F.ledgerOp_OP with
    | 1 =>
      let b := s.ledgerStaged k
      match s.precOfStall (soleStall k 10) with
      | none => fin (s, 1)
      | some p => if leAt b 0 1 ≠ 0 ∨ !allZero (slice b 0x2A 22) then fin (s, 1) else fin (s.lqueueCreate n (LQueue.of k p b))
    | 2 => fin (s.lqueueDelete n)
    | 3 =>
      match s.lqueue n with
      | none => fin (s, 5)
      | some q => if q.stall ≠ k then fin (s, 4) else (s.fset r F.ledgerOp_BUSY 1).lqueueReset n none |>.1
    | 4 => fin (s.lqueueState n 2)
    | 5 => fin (s.lqueueState n 1)
    | 6 => fin (s.lqueueRead k n)
    | _ => s.refuse rq r

/-- The word with OP of a row. -/
def ledgerOpWord (op : Nat) (v : W64) : W64 := setBits v F.ledgerOp_OP op

/-- LEDGER_OP_CREATE (R454). -/
def execLedgerOpCreate (rq : Requester) (q : Qn) (v : W64) (s : State) : Host.Outcome State Fault Refusal :=
  done (s.ledgerOpWrite rq q.val (ledgerOpWord 1 v))

/-- LEDGER_OP_DELETE (R454). -/
def execLedgerOpDelete (rq : Requester) (q : Qn) (v : W64) (s : State) : Host.Outcome State Fault Refusal :=
  done (s.ledgerOpWrite rq q.val (ledgerOpWord 2 v))

/-- LEDGER_OP_QUEUE_RESET (R449). -/
def execLedgerOpQueueReset (rq : Requester) (q : Qn) (v : W64) (s : State) : Host.Outcome State Fault Refusal :=
  done (s.ledgerOpWrite rq q.val (ledgerOpWord 3 v))

/-- LEDGER_OP_PAUSE (R454). -/
def execLedgerOpPause (rq : Requester) (q : Qn) (v : W64) (s : State) : Host.Outcome State Fault Refusal :=
  done (s.ledgerOpWrite rq q.val (ledgerOpWord 4 v))

/-- LEDGER_OP_RESUME (R454). -/
def execLedgerOpResume (rq : Requester) (q : Qn) (v : W64) (s : State) : Host.Outcome State Fault Refusal :=
  done (s.ledgerOpWrite rq q.val (ledgerOpWord 5 v))

/-- LEDGER_OP_READ (R454). -/
def execLedgerOpRead (rq : Requester) (q : Qn) (v : W64) (s : State) : Host.Outcome State Fault Refusal :=
  done (s.ledgerOpWrite rq q.val (ledgerOpWord 6 v))

/-- Every command of a function's queues is aborted without a completion, and the queues are deleted (R450). -/
def State.ledgerFlr (s : State) (f : Nat) : State :=
  let ns := (s.ledger.queues.filter fun x => x.2.func = f).map (·.1)
  let s := s.dropWaiters fun w => match w with
    | .ledger n => ns.contains n
    | _ => false
  ns.foldl (fun s n =>
    let s := (s.endCmds n 0x43).overtakeReset n
    { s with ledger := { s.ledger with queues := drop s.ledger.queues n } }) s

end Sys2Proof.Machine
end

