-- ==== Sys2Proof/Machine/KioskBase.lean ====
section
/-!
DEFINITION. Functions and their Kiosks: the message at the head of a Kiosk and its reply, the loss of a driver, the doorbell
slots, and the end of an instance (chapter "Host endpoint ports and tenancy"; R519, R520).
-/
namespace Sys2Proof.Machine

/-! ### Functions -/

/-- Function `f` is there: a PF, or an enabled VF. -/
def State.funcThere (s : State) (f : Nat) : Bool :=
  decide (f % 256 = 0) || ((s.func (pfOf f)).vfEnable && decide (f % 256 ≤ (s.func (pfOf f)).numVfs))

/-- A host access reaches BAR0 or BAR2 of function `f`: its port's link is up and it decodes (R467). -/
def State.hostReaches (s : State) (f : Nat) : Bool :=
  s.funcThere f && (s.port (portOf f)).linkUp && !s.lowPower f && !s.err.held

/-- A write to BAR0 that is dropped counts as a stray write of the function (R461). -/
def State.bar0Stray (s : State) (f : Nat) : State := s.setFunc f { s.func f with stray := min ((s.func f).stray + 1) (2 ^ 32 - 1) }

/-! ### Messages (R476–R478) -/

/-- Whether fetch is paused on the Kiosk of `f` (R467, R597, Table 21.4). -/
def State.kioskPaused (s : State) (f : Nat) : Bool := s.ringsPaused f || s.fwPaused

/-- What the body of a message row gives: the state, STATUS, DETAIL and reply body; none while the row cannot happen. -/
abbrev Ans := Option (State × Nat × Nat × Bytes)
def State.ok (s : State) (b : Bytes) : Ans := some (s, 0, 0, b)
def State.no (s : State) (status : Nat) : Ans := some (s, status, 0, [])
/-- FAILED with a DETAIL. -/
def State.bad (s : State) (detail : Nat) : Ans := some (s, 8, detail, [])

/-- The message at the head of a Kiosk that firmware may take. -/
def State.headMsg (s : State) (f : Nat) : Option Bytes :=
  let x := s.func f
  if x.h2dHead = x.h2dTail ∨ s.kioskPaused f then none else some (slice ((look x.h2d (x.h2dHead % 16)).getD []) 0 64)

def mType (m : Bytes) : Nat := leAt m 0 2
def mSeq (m : Bytes) : Nat := leAt m 2 2
/-- Body bytes of a message. -/
def mNum (m : Bytes) (o n : Nat) : Nat := leAt m (8 + o) n
/-- The reserved bytes of the header, and every body byte from `o` on, are 0 (R477). -/
def mClean (m : Bytes) (o : Nat) : Bool := decide (leAt m 6 2 = 0) && allZero (slice m (8 + o) (56 - o))
/-- Body bytes `o` to `o + n - 1` are 0. -/
def mZero (m : Bytes) (o n : Nat) : Bool := decide (mNum m o n = 0)

/-- Every TYPE of a host-to-device message, with the sender it needs: 0 any, 1 instance, 2 manager. -/
def msgTypes : List (Nat × Nat) :=
  [(0x0001, 0), (0x0002, 0), (0x0010, 1), (0x0011, 1), (0x0020, 1), (0x0021, 1), (0x0030, 1), (0x0031, 1), (0x0032, 1), (0x0033, 1),
   (0x0034, 1), (0x0040, 1), (0x0041, 1), (0x0042, 1), (0x0050, 1), (0x0051, 1), (0x0052, 1), (0x0053, 1), (0x0060, 1)] ++
  [(0x0061, 1), (0x0062, 1), (0x0063, 1), (0x0064, 1), (0x0065, 1), (0x0070, 1), (0x0071, 1), (0x0100, 2), (0x0101, 2), (0x0102, 2),
   (0x0110, 2), (0x0111, 2), (0x0120, 2), (0x0121, 2), (0x0130, 2), (0x0131, 2), (0x0132, 2), (0x0140, 2), (0x0150, 2), (0x0151, 2)]

/-- The sender a TYPE needs. -/
def msgRole (t : Nat) : Option Nat := (msgTypes.find? fun x => x.1 = t).map (·.2)

/-- The message at the head consumed, and its reply on its way. -/
def State.reply1 (s : State) (f : Nat) (m : Bytes) (status detail : Nat) (body : Bytes) : State :=
  let s := s.setFunc f { s.func f with h2dHead := ((s.func f).h2dHead + 1) % 2 ^ 16 }
  s.postMsg f (kioskMsg (mType m) (mSeq m) status detail body)

/-- Messages of an undefined TYPE at the head answered: MALFORMED, or NOT_OPEN before the session opens (R478). -/
def State.sweepKiosk (s : State) (f : Nat) : Nat → State
  | 0 => s
  | fuel + 1 =>
    match s.headMsg f with
    | some m =>
      if (msgRole (mType m)).isSome then s
      else (s.reply1 f m (if (s.func f).isOpen then 1 else 6) 0 []).sweepKiosk f fuel
    | none => s

/-- The reply of a message. -/
def State.reply (s : State) (f : Nat) (m : Bytes) (status detail : Nat) (body : Bytes) : State :=
  (s.reply1 f m status detail body).sweepKiosk f 16

/-- The message at the head of `f`'s Kiosk, if it is of TYPE `t` and is to be carried out; else the state after the refusal that
R478 or the sender's role gives it. `n` is the length of its body. -/
def State.takeMsg (s : State) (f t n : Nat) : Except State Bytes :=
  match s.headMsg f with
  | none => .error s
  | some m =>
    let x := s.func f
    if mType m ≠ t then .error s
    else if !x.isOpen && decide (t ≠ 1) then .error (s.reply f m 6 0 [])
    else match msgRole t, x.inst with
      | some 2, _ => if !x.role then .error (s.reply f m 5 0 []) else if mClean m n then .ok m else .error (s.reply f m 1 0 [])
      | some 1, none => .error (s.reply f m 7 0 [])
      | some 1, some i => if s.precPaused i.prec then .error s else if mClean m n then .ok m else .error (s.reply f m 1 0 [])
      | _, _ => if mClean m n then .ok m else .error (s.reply f m 1 0 [])

/-- A message row: `body` gives the state, status, DETAIL and reply body. -/
def State.onMsg (s : State) (f t n : Nat) (body : Bytes → State × Nat × Nat × Bytes) : State :=
  match s.takeMsg f t n with
  | .error s => s
  | .ok m =>
    let (s, st, d, b) := body m
    s.reply f m st d b

/-- As `onMsg`, for a message of an instance. -/
def State.onInst (s : State) (f t n : Nat) (body : Inst → Bytes → State × Nat × Nat × Bytes) : State :=
  s.onMsg f t n fun m => match s.inst f with
    | some i => body i m
    | none => (s, 7, 0, [])

/-- A message row whose body may find that the row cannot happen. -/
def State.answerMsg (s : State) (f t n : Nat) (body : Bytes → Ans) : State :=
  match s.takeMsg f t n with
  | .error s => s
  | .ok m =>
    match body m with
    | some (s, st, d, b) => s.reply f m st d b
    | none => s

/-- As `answerMsg`, for a message of an instance. -/
def State.answerInst (s : State) (f t n : Nat) (body : Inst → Bytes → Ans) : State :=
  s.answerMsg f t n fun m => match s.inst f with
    | some i => body i m
    | none => s.no 7

/-- Bytes of an instance's memory that firmware reads: a status of Table 5.8 where they cannot be read or are poisoned; none
while the Surveyor holds the access. -/
def State.fwRead (s : State) (asid va n : Nat) (far : List FarAns) : State × Option (Except Nat Bytes) :=
  let q := ((List.range 4).find? fun q => !s.qFenced q).getD 0
  match (ioTry (ioRead q (0x8000 + 4 * q) asid va n)).at s far with
  | (s, .error _) => (s, none)
  | (s, .ok none) => (s, some (.error 0x05))
  | (s, .ok (some (_, true))) => (s, some (.error 0x06))
  | (s, .ok (some (b, false))) => (s, some (.ok b))

/-! ### Doorbell slots (R462) -/

/-- Slots of a function. -/
def slotCount (f : Nat) : Nat := if f % 256 = 0 then 65536 else 4096

/-- `n` slots from `k` are free. -/
def State.slotsFree (s : State) (f k n : Nat) : Bool :=
  decide (k + n ≤ slotCount f) && (List.range n).all fun i => (look (s.func f).slots (k + i)).isNone

/-- Slots from `k` bound, in order. -/
def State.bindSlots (s : State) (f k : Nat) : List Doorbell → State
  | [] => s
  | d :: ds => (s.setFunc f { s.func f with slots := put (s.func f).slots k d }).bindSlots f (k + 1) ds

/-- Every slot of a function whose binding satisfies `p` freed. -/
def State.freeSlots (s : State) (f : Nat) (p : Doorbell → Bool) : State :=
  s.setFunc f { s.func f with slots := (s.func f).slots.filter fun x => !p x.2 }

/-- A connection's slots. -/
def Doorbell.ofConn (n : Nat) : Doorbell → Bool
  | .carterSq c | .carterRq c | .carterCq c => c = n
  | _ => false

/-- A Ledger queue's slots. -/
def Doorbell.ofQueue (n : Nat) : Doorbell → Bool
  | .ledgerSq c | .ledgerCq c => c = n
  | _ => false

/-- A ring's slot. -/
def Doorbell.ofRing (n : Nat) : Doorbell → Bool
  | .rxq c | .txr c => c = n
  | _ => false

/-! ### Loss of a driver (R519, R520) -/

/-- FW_FUNC_STATE of a function. -/
def fwFunc (f : Nat) : Reg := ⟨.fwFuncState, f, 0⟩

/-- A docket has started: some operation is no longer waiting. -/
def Docket.started (d : Docket) : Bool := d.phases.any fun p => p ≠ .waiting

/-- FW_FUNC_STATE.HELD counts the dockets held or parked. -/
def State.countHeld (s : State) (f : Nat) : State :=
  match s.inst f with
  | some i => s.fset (fwFunc f) F.fwFuncState_HELD
      (if (s.func f).driverLost then (i.dockets.filter fun d => d.held || d.parked).length else 0)
  | none => s.fset (fwFunc f) F.fwFuncState_HELD 0

/-- Operations under way no longer answer a function whose session has ended. -/
def State.dropAsker (s : State) (f : Nat) : State :=
  let keep (x : Option Nat) : Option Nat := if x = some f then none else x
  { s with
    xim := { s.xim with
      quiesce := s.xim.quiesce.map fun x => (x.1, keep x.2)
      load := s.xim.load.map fun l => { l with by_ := keep l.by_ } }
    fw := { s.fw with act := s.fw.act.map fun a => { a with by_ := keep a.by_ } } }

/-- The effects of Table 21.7 on a function's objects. -/
def State.loseObjects (s : State) (f : Nat) (flr : Bool) : State :=
  let s := s.dropAsker f
  let s := s.setFunc f { s.func f with
    isOpen := false, role := false, version := 0, d2hWait := [], beatSeen := false, driverLost := true }
  let s := s.connsFail (fun c => c.func = some f) 0x46
  if flr then s.ledgerFlr f
  else { s with ledger := { s.ledger with
    queues := s.ledger.queues.map fun x => if x.2.func = f then (x.1, { x.2 with state := 2, resetBy := x.2.resetBy.map fun _ => 512 }) else x } }

/-- The driver of `f` is lost (R519), for a CAUSE of FW_FUNC_STATE. A driver that is already lost keeps its cause and hold. -/
def State.driverLoss (s : State) (f cause : Nat) : State :=
  let was := decide (s.fget (fwFunc f) F.fwFuncState_STATE = 2)
  let s := s.loseObjects f (cause = 3)
  let s := if was then s
    else ((s.fset (fwFunc f) F.fwFuncState_STATE 2).fset (fwFunc f) F.fwFuncState_CAUSE cause).fset (fwFunc f) F.fwFuncState_HOLD_LEFT_S 600
  s.countHeld f

/-- The dockets that a lost driver's hold keeps end with CANCELLED: they leave no record (R520). -/
def State.cancelHeld (s : State) (f : Nat) : State :=
  match s.inst f with
  | none => s
  | some i =>
    let i := { i with dockets := i.dockets.filter fun d => !(d.held || d.parked || !d.started) }
    ((s.setInst f i).fset (fwFunc f) F.fwFuncState_HOLD_LEFT_S 0).countHeld f

/-! ### The end of objects and instances (R410, R413, R474) -/

/-- A Carter context freed, whatever its state. -/
def State.connFree (s : State) (n : Nat) : State :=
  let c := s.conn n
  let s := match c.func with
    | some f => s.freeSlots f (Doorbell.ofConn n)
    | none => s
  let s := s.dropWaiters (fun w => w = .order n)
  s.setConn n { epoch := (c.epoch + 1) % 2 ^ 16 }

/-- A Ledger queue and its slots removed. -/
def State.queueFree (s : State) (f n : Nat) : State := s.freeSlots f (Doorbell.ofQueue n)

/-- A receive queue or transmit ring removed. -/
def State.ringFree (s : State) (f r : Nat) : State :=
  (({ s with eth := { s.eth with rings := drop s.eth.rings r } } : State)).freeSlots f (Doorbell.ofRing r)

/-- A Cashbox context freed; its generation advances, so that old handles name nothing. -/
def State.ctxFree (s : State) (n : Nat) : State := s.setCtxRec n { gen := ((s.ctxRec n).gen + 1) % 4096 }

/-- A key destroyed (R413). -/
def State.keyFree (s : State) (n : Nat) : State := s.setKeyEnt n { gen := ((s.keyEnt n).gen + 1) % 4096 }

/-- Every object of the instance of `f`, and the instance. -/
def State.endInstance (s : State) (f : Nat) : State :=
  match s.inst f with
  | none => s
  | some i =>
    let s := s.ledgerFlr f
    let s := ((s.carter.ctxs.filter fun x => decide (x.2.func = some f)).map (·.1)).foldl (fun s n => s.connFree n) s
    let cut (x : Nat × Region) : Nat × Region :=
      if x.2.asid = i.asid && nbit x.2.access 7 then (x.1, { x.2 with access := clearBit x.2.access 7, gen := (x.2.gen + 1) % 4096 }) else x
    let s := { s with carter := { s.carter with regions := s.carter.regions.map cut } }
    let s := ((s.eth.rings.filter fun x => x.2.func = f).map (·.1)).foldl (fun s r => s.ringFree f r) s
    let s := ((s.cash.ctxs.filter fun x => decide (x.2.state ≠ 0) && decide (x.2.inst = f)).map (·.1)).foldl (fun s n => s.ctxFree n) s
    let s := ((s.cash.keys.filter fun x => x.2.used && decide (x.2.owner = f)).map (·.1)).foldl (fun s n => s.keyFree n) s
    let s := { s with cash := { s.cash with wrap := drop s.cash.wrap f } }
    let s := { s with inv := { s.inv with ops := s.inv.ops.filter fun o => decide (o.func ≠ f) } }
    let s := s.setFunc f { s.func f with inst := none, slots := [], driverLost := false }
    s.wr (fwFunc f) 0

/-- What an FLR does to a function: R450, R519, and the function's own registers at reset. -/
def State.flrEffects (s : State) (f : Nat) : State :=
  let lose := (s.inst f).isSome || (s.func f).isOpen
  let s := if lose then s.driverLoss f 3 else s.ledgerFlr f
  let x := s.func f
  s.setFunc f { x with
    h2d := [], d2h := [], h2dTail := 0, h2dHead := 0, d2hTail := 0, d2hHead := 0, beatDevice := 0, beatHost := 0, stray := 0,
    aperture := 0, msix := [], pba := [], msixEnable := false, heldIrq := [], cfg := [], bme := false
    slots := x.slots.filter fun y => match y.2 with | .ledgerSq _ | .ledgerCq _ => false | _ => true }

/-- INSTANCE_DESTROY of a function (R474): what an FLR does by R450 and R519, then the end of its objects. -/
def State.destroyInstance (s : State) (f : Nat) : State := ((s.driverLoss f 3).cancelHeld f).endInstance f

end Sys2Proof.Machine
end

