-- ==== Sys2Proof/Machine/DocketBase.lean ====
section
/-!
DEFINITION. Dockets as bytes: the layout and every check of R137–R150, the certificate (R159–R163), and the completion record
(R155–R158).
-/
namespace Sys2Proof.Machine

/-! ### Parts of a docket (R137) -/

/-- "None" in a 16-bit reference (R139), and an unused optional field (R145). -/
abbrev noRef : Nat := 0xFFFF
abbrev noOpt : Nat := 0xFFFF_FFFF

/-- The product of a list. -/
def product (l : List Nat) : Nat := l.foldl (· * ·) 1

/-- The dimensions in use, and the elements, of a buffer. -/
def DBuf.shape (b : DBuf) : List Nat := b.dims.take b.rank
def DBuf.count (b : DBuf) : Nat := product b.shape

/-- Where the scale array of an MX buffer begins (R140). -/
def DBuf.scaleAt (b : DBuf) : Nat := roundUp (packedLen b.fmt b.count) 64

/-- A buffer declaration (Table 5.2). -/
def bufOf (b : Bytes) (o : Nat) : DBuf :=
  { fmt := leAt b o 1, cls := leAt b (o + 1) 1, rank := leAt b (o + 2) 1, blocked := leAt b (o + 3) 1, ready := leAt b (o + 4) 2,
    addr := leAt b (o + 8) 8, dims := (List.range 4).map fun i => leAt b (o + 0x10 + 4 * i) 4, bytes := leAt b (o + 0x20) 8 }

/-- BYTES is what the layout gives, or a capacity (R140). -/
def DBuf.bytesOk (b : DBuf) : Bool :=
  if b.fmt = 0x30 then
    decide (b.rank = 2) && decide (b.dims.getD 0 0 ≤ 4096) && decide (b.dims.getD 1 0 % 32 = 0) && decide (b.dims.getD 1 0 ≤ 4096)
  else if b.fmt = 0x31 then decide (b.rank = 1)
  else if isMx b.fmt then decide (b.bytes = b.scaleAt + b.count / 32)
  else decide (b.bytes = packedLen b.fmt b.count)

/-- A buffer declaration holds no reserved value. -/
def bufOk (ctrs : List DCtr) (raw : Bytes) (o : Nat) : Bool :=
  let b := bufOf raw o
  fmtOk b.fmt && decide (b.cls ≤ 4) && decide (1 ≤ b.rank ∧ b.rank ≤ 4) && decide (leAt raw (o + 6) 2 = 0) && allZero (slice raw (o + 0x28) 24) &&
  b.shape.all (fun d => decide (1 ≤ d)) && (b.dims.drop b.rank).all (fun d => decide (d = 0)) &&
  (if isMx b.fmt then decide (b.blocked < b.rank) && decide (b.dims.getD b.blocked 0 % 32 = 0) else decide (b.blocked = 0xFF)) &&
  (if b.cls = 4 then (match ctrs[b.ready]? with | some c => c.ext | none => false) else decide (b.ready = noRef)) &&
  decide (b.addr % 64 = 0) && (decide (b.cls ≠ 3) || decide (b.addr = 0)) && b.bytesOk

/-- A counter declaration (Table 5.3), and its check. -/
def dctrOf (b : Bytes) (o : Nat) : DCtr :=
  { init := leAt b o 4, output := nbit (leAt b (o + 4) 2) 0, ext := nbit (leAt b (o + 4) 2) 1, conn := leAt b (o + 8) 4 }
def dctrOk (b : Bytes) (o : Nat) : Bool :=
  decide (leAt b o 4 < 2 ^ 24) && decide (leAt b (o + 4) 2 < 4) && decide (leAt b (o + 6) 2 = 0) && decide (leAt b (o + 0x0C) 4 = 0) &&
  (nbit (leAt b (o + 4) 2) 1 || decide (leAt b (o + 8) 4 = 0))

/-- A predicate declaration (Table 5.4), and its check. -/
def predOf (b : Bytes) (o : Nat) : DPred :=
  { source := leAt b o 1, cmp := leAt b (o + 1) 1, ref := leAt b (o + 2) 2, index := leAt b (o + 4) 4, value := leAt b (o + 8) 4 }
def predOk (bufs : List DBuf) (nctr : Nat) (b : Bytes) (o : Nat) : Bool :=
  let p := predOf b o
  decide (p.cmp ≤ 3) && decide (leAt b (o + 0x0C) 4 = 0) &&
  (match p.source with
    | 0 => decide (p.ref < nctr) && decide (p.index = 0)
    | 1 => match bufs[p.ref]? with
      | some x => decide (x.fmt = 7) && decide (p.index < x.count)
      | none => false
    | _ => false)

/-- An operation record (Table 5.5) with its parameters. -/
def opOf (b : Bytes) (o : Nat) : DOp :=
  { opcode := leAt b o 1, policy := leAt b (o + 1) 1, flags := leAt b (o + 2) 2, pred := leAt b (o + 4) 2, hint := leAt b (o + 6) 2,
    wait0 := leAt b (o + 8) 2, wait1 := leAt b (o + 0x0A) 2, count0 := leAt b (o + 0x0C) 4, count1 := leAt b (o + 0x10) 4,
    sig := leAt b (o + 0x14) 2, sigCount := leAt b (o + 0x18) 4,
    ins := (List.range 4).map fun i => leAt b (o + 0x20 + 2 * i) 2, outs := (List.range 4).map fun i => leAt b (o + 0x28 + 2 * i) 2,
    params := (List.range (leAt b (o + 0x1C) 2)).map fun i => leAt b (o + 64 + 4 * i) 4 }

/-- The operation records between two offsets; none where they do not fill the space, or a reserved byte is not 0. -/
def opsOf (b : Bytes) (stop : Nat) : Nat → Nat → Option (List DOp)
  | 0, o => if o = stop then some [] else none
  | n + 1, o =>
    let k := leAt b (o + 0x1C) 2
    let len := 64 + roundUp (4 * k) 8
    if stop < o + 64 ∨ stop < o + len ∨ leAt b (o + 0x16) 2 ≠ 0 ∨ leAt b (o + 0x1E) 2 ≠ 0 ∨ !allZero (slice b (o + 0x30) 16) ∨
        !allZero (slice b (o + 64 + 4 * k) (len - 64 - 4 * k)) then none
    else (opsOf b stop n (o + len)).map (opOf b o :: ·)

/-! ### Operations -/

def DOp.step (o : DOp) : Bool := nbit o.flags 0
def DOp.negate (o : DOp) : Bool := nbit o.flags 1
def DOp.par (o : DOp) (i : Nat) : Nat := o.params.getD i 0

/-- The policy an operation runs under. -/
def DocketP.polOf (p : DocketP) (o : DOp) : Nat := if nbit o.flags 2 then o.policy else p.policy

/-- Every wait of an operation: WAIT0, WAIT1, and the pairs of a WAIT. -/
def DOp.waits (o : DOp) : List (Nat × Nat) :=
  (if o.wait0 = noRef then [] else [(o.wait0, o.count0)]) ++ (if o.wait1 = noRef then [] else [(o.wait1, o.count1)]) ++
  (if o.opcode = 0x11 then (List.range (o.par 0)).map fun i => (o.par (1 + 2 * i), o.par (2 + 2 * i)) else [])

/-- Parameter fields, and the input and output slots, of each opcode (Table 5.6): 2 needed, 1 optional, 0 unused. -/
def opSlots : Nat → Option (Nat × List Nat × List Nat)
  | 0x01 => some (4, [2, 2, 1, 0], [2, 0, 0, 0])
  | 0x02 => some (2, [2, 2, 2, 1], [2, 0, 0, 0])
  | 0x03 => some (0, [2, 2, 0, 0], [2, 0, 0, 0])
  | 0x04 => some (2, [2, 0, 0, 0], [2, 2, 0, 0])
  | 0x05 => some (1, [2, 1, 0, 0], [2, 2, 0, 0])
  | 0x06 => some (1, [2, 1, 0, 0], [2, 2, 0, 0])
  | 0x07 => some (2, [2, 0, 0, 0], [2, 2, 0, 0])
  | 0x08 => some (2, [2, 2, 2, 0], [2, 2, 1, 0])
  | 0x09 => some (0, [2, 2, 2, 0], [2, 0, 0, 0])
  | 0x0A => some (3, [2, 0, 0, 0], [2, 0, 0, 0])
  | 0x0B => some (1, [2, 0, 0, 0], [2, 2, 0, 0])
  | 0x0C => some (2, [2, 1, 0, 0], [2, 1, 0, 0])
  | 0x0D => some (2, [2, 1, 1, 0], [2, 0, 0, 0])
  | 0x0E => some (7, [2, 0, 0, 0], [1, 0, 0, 0])
  | 0x10 => some (0, [0, 0, 0, 0], [0, 0, 0, 0])
  | 0x11 => some (1, [0, 0, 0, 0], [0, 0, 0, 0])
  | 0x12 => some (2, [0, 0, 0, 0], [0, 0, 0, 0])
  | _ => none

/-- A buffer slot holds what its opcode allows. -/
def slotOk (nbuf need ref : Nat) : Bool :=
  if ref = noRef then decide (need ≠ 2) else decide (need ≠ 0) && decide (ref < nbuf)

/-- A counter reference with its count. -/
def refCountOk (nctr ref n : Nat) : Bool :=
  if ref = noRef then decide (n = 0) else decide (ref < nctr) && decide (1 ≤ n) && decide (n < 2 ^ 24)

def DocketP.inBuf (p : DocketP) (o : DOp) (i : Nat) : Option DBuf := p.bufs[o.ins.getD i noRef]?
def DocketP.outBuf (p : DocketP) (o : DOp) (i : Nat) : Option DBuf := p.bufs[o.outs.getD i noRef]?

/-- A buffer of a format test, rank and dimensions. -/
def DBuf.is (b : DBuf) (fmt : Nat → Bool) (dims : List Nat) : Bool := fmt b.fmt && decide (b.shape = dims)

/-- Formats 0x01–0x05 and 0x10–0x15. -/
def isFloatMx (f : Nat) : Bool := isFloat f || isMx f
/-- INT32, and INT8. -/
def isInt32 (f : Nat) : Bool := decide (f = 7)
def isInt8 (f : Nat) : Bool := decide (f = 6)
def isTally (f : Nat) : Bool := decide (f = 0x20)

/-- An MX buffer is blocked along dimension `d`. -/
def DBuf.along (b : DBuf) (d : Nat) : Bool := !isMx b.fmt || decide (b.blocked = d)

/-- An optional buffer meets a test where it is given. -/
def optOk (b : Option DBuf) (t : DBuf → Bool) : Bool := match b with | some x => t x | none => true

/-- The largest K and N of two-dimensional buffers. -/
def DBuf.d (b : DBuf) (i : Nat) : Nat := b.dims.getD i 0

/-- Shapes of a REDUCE for `n` members (R317, R318). -/
def reduceOk (a b : DBuf) (op kind comm : Nat) (member : Option (Nat × Nat)) : Bool :=
  let fmts := if kind = 6 then decide (a.fmt = 0x31) && (isPlain b.fmt || isTally b.fmt)
    else if kind = 3 ∨ kind = 4 ∨ kind = 5 then (isPlain a.fmt || isMx a.fmt || isTally a.fmt) && decide (a.fmt = b.fmt)
    else if op = 0 then (isPlain a.fmt || isMx a.fmt || isTally a.fmt) && (isPlain b.fmt || isMx b.fmt || isTally b.fmt)
    else isPlain a.fmt && decide (a.fmt = b.fmt)
  let p := if kind = 6 then 1 else a.d 0
  let l := if kind = 6 then a.d 0 else a.d 1
  decide (1 ≤ p ∧ p ≤ 64) && fmts && (decide (kind = 6) || (decide (a.rank = 2) && a.along 1)) &&
  match kind, member with
  | 0, _ => decide (comm = noOpt) && decide (op < 3) && decide (b.rank = 1) && decide (b.d 0 = l) && b.along 0
  | _, none => false
  | k, some (n, _) =>
    decide (b.rank = 2) && decide (1 ≤ b.d 0 ∧ b.d 0 ≤ 64) && b.along 1 &&
    (match k with
      | 1 => decide (op < 3) && decide (b.d 1 = l)
      | 2 => decide (op < 3) && decide (l % n = 0) && decide (b.d 1 = l / n) && (!(isMx a.fmt || isMx b.fmt) || decide (l / n % 32 = 0))
      | 3 => decide (op = 0) && decide (p = 1) && decide (b.d 1 = n * l)
      | 4 => decide (op < n) && decide (p = 1) && decide (b.d 1 = l)
      | 5 => decide (op = 0) && decide (p = 1) && decide (l % n = 0) && decide (b.d 1 = l) && (!isMx a.fmt || decide (l / n % 32 = 0))
      | 6 => decide (op = 0) && decide (b.d 1 = l)
      | _ => false)

/-- Size and rank of a communicator of an instance. -/
def Inst.comm (i : Inst) (h : Nat) : Option Comm := i.comms.find? fun c => c.handle = h

/-- Formats, shapes and parameters of an operation (Table 5.6, R174, R175, R220, R226, R318, R618). -/
def DocketP.shapeOk (p : DocketP) (o : DOp) (inst : Inst) : Bool :=
  let i0 := p.inBuf o 0
  let i1 := p.inBuf o 1
  let i2 := p.inBuf o 2
  let i3 := p.inBuf o 3
  let o0 := p.outBuf o 0
  let o1 := p.outBuf o 1
  let o2 := p.outBuf o 2
  let a := o.par 0
  let b := o.par 1
  match o.opcode, i0, o0 with
  | 0x01, some x, some y =>
    let m := a; let n := b; let k := o.par 2
    x.is (fun f => isFloatMx f || decide (f = 0x30)) [m, k] && (decide (x.fmt = 0x30) || x.along 1) &&
    optOk i1 (fun z => z.is isFloatMx [k, n] && z.along 0) && decide (o.par 3 < 2) &&
    (if o.par 3 = 1 then (match i2 with | some z => z.is isTally [m, n] | none => false) else i2.isNone) &&
    y.is (fun f => isFloatMx f || isInt32 f || isTally f) [m, n] && y.along 1 && !(polFast (p.polOf o) && isTally y.fmt)
  | 0x02, some x, some y =>
    let w := x.d 1
    decide (a ≤ 2) && decide (b ≤ 1) && x.is (fun f => isPlain f || isMx f) [x.d 0, w] && x.along 1 &&
    optOk i1 (fun z => z.is isInt32 [z.d 0]) && optOk i2 (fun z => z.is isInt32 [z.d 0] && decide (2 ≤ z.d 0)) &&
    (if a = 2 then (match i3, i1 with | some z, some j => z.is isFloat [j.d 0] | _, _ => false) else i3.isNone) &&
    y.is (fun f => isPlain f || isMx f || isTally f) [(match i2 with | some z => z.d 0 - 1 | none => 0), w] && y.along 1 &&
    !(decide (a = 1) && isTally y.fmt)
  | 0x03, some x, some y =>
    x.is (fun f => isPlain f || isMx f) [x.d 0, x.d 1] && x.along 1 && optOk i1 (fun z => z.is isInt32 [x.d 0]) &&
    y.is isTally [y.d 0, x.d 1]
  | 0x04, some x, some y =>
    x.is isPlain [x.d 0, x.d 1] && decide (x.d 1 ≤ 2 ^ 20) && decide (1 ≤ a ∧ a ≤ 4096 ∧ a ≤ x.d 1) && decide (b ≤ 1) &&
    y.is (fun f => decide (f = x.fmt)) [x.d 0, a] && optOk o1 (fun z => z.is isInt32 [x.d 0, a])
  | 0x05, some x, some y =>
    x.is isPlain [x.d 0, x.d 1] && decide (a ≤ 1) && y.is (fun f => decide (f = x.fmt)) x.shape &&
    (match i1 with
      | some z => z.is isPlain x.shape && optOk o1 (fun w => w.is (fun f => decide (f = z.fmt)) x.shape)
      | none => optOk o1 (fun w => w.is isInt32 x.shape))
  | 0x06, some x, some y =>
    x.is isPlain [x.d 0] && decide (a ≤ 1) && (if a = 0 then (match i1 with | some z => z.is isInt8 x.shape | none => false) else i1.isNone) &&
    y.is (fun f => decide (f = x.fmt)) x.shape && optOk o1 (fun z => z.is isInt32 [1])
  | 0x07, some x, some y =>
    x.is isFloat [x.d 0, x.d 1] && decide (x.d 0 ≤ 2 ^ 20) && decide (x.d 1 ≤ 4096) && decide (1 ≤ a ∧ a ≤ min 16 (x.d 1)) && decide (b ≤ 3) &&
    y.is isFloat [x.d 0, a] && optOk o1 (fun z => z.is isInt32 [x.d 0, a])
  | 0x08, some x, some y =>
    let t := x.d 0; let k := x.d 1; let e := y.d 0
    match i1, o1 with
    | some r, some s =>
      x.is isInt32 [t, k] && decide (t ≤ 2 ^ 20) && decide (k ≤ 16) && r.is isFloatMx [t, r.d 1] && r.along 1 && optOk i2 (fun z => z.is isInt32 [e]) &&
      decide (1 ≤ a) && decide (b ≤ 1) && decide (e ≤ 4096) && decide (e * a ≤ 2 ^ 24) && y.is isInt32 [e, a] &&
      s.is (fun f => decide (f = r.fmt)) [e * a, r.d 1] && s.along 1 && optOk o2 (fun z => z.is isInt32 [e])
    | _, _ => false
  | 0x09, some x, some y =>
    match i1, i2 with
    | some l, some w =>
      x.is isFloatMx [l.d 0 * l.d 1, x.d 1] && x.along 1 && l.is isInt32 [l.d 0, l.d 1] && w.is isFloat [w.d 0, w.d 1] && decide (w.d 1 ≤ 16) &&
      decide (l.d 0 ≤ 4096) && decide (l.d 0 * l.d 1 ≤ 2 ^ 24) && y.is (fun f => isFloatMx f || isTally f) [w.d 0, x.d 1] && y.along 1
    | _, _ => false
  | 0x0A, some x, some y => reduceOk x y a b (o.par 2) ((inst.comm (o.par 2)).map fun c => (c.size, c.rank))
  | 0x0B, some x, some y =>
    decide (a ≤ 1) && decide (x.bytes < 2 ^ 31) && decide (y.bytes < 2 ^ 31) && optOk o1 (fun z => z.is isInt32 [1])
  | 0x0C, some x, some y => decide (x.bytes ≤ y.bytes) && optOk o1 (fun z => decide (32 ≤ z.bytes))
  | 0x0D, some x, some y => decide (x.bytes ≤ y.bytes) && optOk i2 (fun z => decide (32 ≤ z.bytes))
  | 0x0E, some _, y =>
    if o.par 2 = noOpt then decide (o.par 5 = noOpt) && y.isSome else decide (o.par 5 ≠ noOpt) && y.isNone
  | 0x10, _, _ => true
  | 0x11, _, _ => true
  | 0x12, _, _ => decide (a ≤ 2) && decide (b < if a = 0 then 64 else 256)
  | _, _, _ => false

/-- A record's own fields, slots and shapes (R139, R141, R143, R145). -/
def DocketP.opOk (p : DocketP) (o : DOp) (inst : Inst) : Bool :=
  let nc := p.ctrs.length
  match opSlots o.opcode with
  | none => false
  | some (n, ins, outs) =>
    decide (o.flags < 8) && (if nbit o.flags 2 then polOk o.policy else decide (o.policy = 0)) && (decide (o.pred = noRef) || decide (o.pred < p.preds.length)) &&
    decide (o.hint < 16) && !([4, 5, 6] : List Nat).contains (o.hint % 8) && refCountOk nc o.wait0 o.count0 && refCountOk nc o.wait1 o.count1 &&
    (decide (o.wait0 = noRef) || decide (o.wait0 ≠ o.wait1)) && refCountOk nc o.sig o.sigCount &&
    (match p.ctrs[o.sig]? with | some c => !c.ext | none => true) &&
    (if o.opcode = 0x11 then
      decide (o.par 0 ≤ 8) && decide (o.params.length = 1 + 2 * o.par 0) &&
        (o.waits.all fun w => decide (w.1 < nc) && decide (1 ≤ w.2) && decide (w.2 < 2 ^ 24))
     else decide (o.params.length = n)) &&
    (o.ins.zip ins).all (fun x => slotOk p.bufs.length x.2 x.1) && (o.outs.zip outs).all (fun x => slotOk p.bufs.length x.2 x.1) &&
    o.outs.all (fun r => match p.bufs[r]? with | some b => decide (b.cls ≠ 0) && decide (b.cls ≠ 4) | none => true) &&
    p.shapeOk o inst

/-- Every operation waits only on EXTERNAL counters and on counters that no operation from it on signals (R146). -/
def DocketP.ordered (p : DocketP) : Bool :=
  p.ops.zipIdx.all fun x => x.1.waits.all fun w =>
    (match p.ctrs[w.1]? with | some c => c.ext | none => false) || (p.ops.drop x.2).all fun y => decide (y.sig ≠ w.1)

/-- A docket read from its bytes (R137, R138, R164): the docket, or the status that refuses it. -/
def parseDocket (b : Bytes) (len : Nat) (inst : Inst) : Except Nat DocketP :=
  let n (o k : Nat) := leAt b o k
  let nb := n 0x10 2
  let nc := n 0x12 2
  let np := n 0x14 2
  let no := n 0x16 2
  let c0 := 0x40 + 64 * nb
  let p0 := c0 + 16 * nc
  let o0 := p0 + 16 * np
  let o1 := o0 + n 0x18 4
  let certd := nbit (n 6 2) 0
  let stop := if certd then roundUp o1 8 + n 0x20 4 else o1
  if len < 64 ∨ n 0 4 ≠ 0x4B43_4F44 then .error 0x01
  else if n 4 2 ≠ 0x0100 then .error 0x7F
  else if n 6 2 ≥ 2 ∨ n 8 4 ≠ len ∨ 2 ^ 24 < len ∨ !polOk (n 0x0C 1) ∨ !allZero (slice b 0x0D 3) ∨ !allZero (slice b 0x24 28) ∨ nb = 0 ∨
      4096 < nb ∨ 1024 < nc ∨ 256 < np ∨ no = 0 ∨ stop ≠ len ∨
      (if certd then decide (n 0x1C 4 ≠ roundUp o1 8) || !allZero (slice b o1 (roundUp o1 8 - o1)) else decide (n 0x1C 4 ≠ 0) || decide (n 0x20 4 ≠ 0)) then
    .error 0x01
  else
    let ctrs := (List.range nc).map fun i => dctrOf b (c0 + 16 * i)
    let bufs := (List.range nb).map fun i => bufOf b (0x40 + 64 * i)
    match opsOf b o1 no o0 with
    | none => .error 0x01
    | some ops =>
      let p : DocketP := {
        version := n 4 2, certified := certd, policy := n 0x0C 1, bufs := bufs, ctrs := ctrs,
        preds := (List.range np).map fun i => predOf b (p0 + 16 * i), ops := ops, cert := b.drop (roundUp o1 8) }
      if (List.range nc).all (fun i => dctrOk b (c0 + 16 * i)) && (List.range nb).all (fun i => bufOk ctrs b (0x40 + 64 * i)) &&
          (List.range np).all (fun i => predOk bufs nc b (p0 + 16 * i)) && ops.all (fun o => p.opOk o inst) && p.ordered then .ok p
      else .error 0x01

/-! ### The certificate (R159–R163) -/

/-- Bytes named by an operation: a space (0 the instance's addresses, else a SCRATCH buffer), a start and an end. -/
structure DRange where
  space : Nat
  lo : Nat
  hi : Nat
  deriving DecidableEq, Repr

/-- `n` bytes from offset `o` of buffer `r`. -/
def DocketP.range (p : DocketP) (r o n : Nat) : List DRange :=
  match p.bufs[r]? with
  | none => []
  | some b => if b.cls = 3 then [⟨r + 1, o, o + n⟩] else [⟨0, b.addr + o, b.addr + o + n⟩]

/-- The whole of buffer `r`. -/
def DocketP.whole (p : DocketP) (r : Nat) : List DRange := p.range r 0 (match p.bufs[r]? with | some b => b.bytes | none => 0)

/-- Bytes that an operation reads, its predicate's element among them. -/
def DocketP.reads (p : DocketP) (o : DOp) : List DRange :=
  (if o.opcode = 0x0E then p.range (o.ins.getD 0 noRef) (o.par 0) (o.par 1) else o.ins.flatMap p.whole) ++
  (match p.preds[o.pred]? with
    | some x => if x.source = 1 then p.range x.ref (4 * x.index) 4 else []
    | none => [])

/-- Bytes that an operation writes. -/
def DocketP.writes (p : DocketP) (o : DOp) : List DRange :=
  if o.opcode = 0x0E then p.range (o.outs.getD 0 noRef) 0 (o.par 1) else o.outs.flatMap p.whole

/-- Two lists of ranges share a byte. -/
def rangesMeet (a b : List DRange) : Bool :=
  a.any fun x => b.any fun y => decide (x.space = y.space) && decide (max x.lo y.lo < min x.hi y.hi)

/-- One operation changes, by a wait or a signal, the counter that the other's predicate reads (R159; DEDUCED: a predicate's read of its
counter conflicts with what changes that counter, and nothing else conflicts by counters). -/
def DocketP.counterMeet (p : DocketP) (a b : DOp) : Bool :=
  match p.preds[a.pred]? with
  | some x => decide (x.source = 0) && (decide (b.sig = x.ref) || b.waits.any fun w => decide (w.1 = x.ref))
  | none => false

/-- Two operations conflict (R159). -/
def DocketP.conflict (p : DocketP) (a b : DOp) : Bool :=
  p.counterMeet a b || p.counterMeet b a ||
  if a.opcode = 3 ∧ b.opcode = 3 then rangesMeet (p.writes a) (p.reads b) || rangesMeet (p.reads a) (p.writes b)
  else rangesMeet (p.writes a) (p.reads b) || rangesMeet (p.writes a) (p.writes b) || rangesMeet (p.reads a) (p.writes b)

/-- Conflicting pairs in ascending order. -/
def DocketP.conflicts (p : DocketP) : List (Nat × Nat) :=
  p.ops.zipIdx.flatMap fun x => (p.ops.zipIdx.drop (x.2 + 1)).filterMap fun y => if p.conflict x.1 y.1 then some (x.2, y.2) else none

/-- Amounts signalled into counter `c` by operations other than `x`. -/
def DocketP.othersInto (p : DocketP) (c x : Nat) : Nat :=
  ((p.ops.zipIdx.filter fun y => decide (y.1.sig = c) && decide (y.2 ≠ x)).map fun y => y.1.sigCount).sum

/-- A forcing link from operation `x` to operation `y` (R160). -/
def DocketP.link (p : DocketP) (x y : Nat) : Bool :=
  match p.ops[x]?, p.ops[y]? with
  | some a, some b =>
    (decide (x < y) && (a.step || b.step)) ||
    b.waits.any fun w => decide (a.sig = w.1) && (match p.ctrs[w.1]? with
      | some c => !c.ext && decide (c.init + p.othersInto w.1 x < w.2)
      | none => false)
  | _, _ => false

/-- Consecutive operations of a list are linked. -/
def DocketP.linked (p : DocketP) : List Nat → Bool
  | x :: y :: l => p.link x y && p.linked (y :: l)
  | _ => true

/-- One listed pair holds: a path of links, or one predicate with opposite senses. -/
def DocketP.pairOk (p : DocketP) (path : List Nat) (a b start len : Nat) : Bool :=
  if len = 0xFFFF then
    decide (start = 0) && (match p.ops[a]?, p.ops[b]? with
      | some x, some y => decide (x.pred ≠ noRef) && decide (x.pred = y.pred) && decide (x.negate ≠ y.negate)
      | _, _ => false)
  else (decide (len = 0) || decide (start + len ≤ path.length)) && p.linked (a :: (path.drop start).take len ++ [b])

/-- The layout of a certificate (Table 5.9). -/
def DocketP.certForm (p : DocketP) : Bool :=
  let b := p.cert
  let n := leAt b 0x20 4
  let e := leAt b 0x24 4
  decide (0x30 ≤ b.length) && decide (leAt b 0x28 8 = 0) && decide (b.length = 0x30 + 12 * n + roundUp (2 * e) 8) &&
  (List.range n).all (fun i => decide (leAt b (0x30 + 12 * i + 10) 2 = 0)) && allZero (b.drop (0x30 + 12 * n + 2 * e))

/-- The rules of R161 that no path shows. -/
def DocketP.certRules (p : DocketP) : Bool :=
  (p.ctrs.zipIdx.all fun c => c.1.ext ||
    decide ((p.ops.map fun o => ((o.waits.filter fun w => w.1 = c.2).map (·.2)).sum).sum ≤ c.1.init + p.othersInto c.2 p.ops.length)) &&
  (p.ops.all fun o => ((o.ins ++ match p.preds[o.pred]? with | some x => (if x.source = 1 then [x.ref] else []) | none => []).all fun r => match p.bufs[r]? with
    | some b => decide (b.cls ≠ 4) || decide (o.wait0 = b.ready) || decide (o.wait1 = b.ready)
    | none => true) && !polFast (p.polOf o))

/-- The certificate verifies (R163), for the docket's bytes. -/
def DocketP.certOk (p : DocketP) (raw : Bytes) : Bool :=
  let b := p.cert
  let n := leAt b 0x20 4
  let at_ (i o k : Nat) := leAt b (0x30 + 12 * i + o) k
  let path := (List.range (leAt b 0x24 4)).map fun i => leAt b (0x30 + 12 * n + 2 * i) 2
  decide (slice b 0 32 = sha256 (raw.take (raw.length - b.length))) &&
  decide ((List.range n).map (fun i => (at_ i 0 2, at_ i 2 2)) = p.conflicts) &&
  (List.range n).all (fun i => p.pairOk path (at_ i 0 2) (at_ i 2 2) (at_ i 4 4) (at_ i 8 2)) && p.certRules

/-! ### Placement (R171) -/

/-- The stall kinds that an operation needs (Table 5.10). -/
def DocketP.kinds (p : DocketP) (o : DOp) : List Nat :=
  match o.opcode with
  | 0x01 => [0] | 0x02 => [1] | 0x03 => [1] | 0x04 => [2] | 0x05 => [2] | 0x06 => [2]
  | 0x07 => if (match p.inBuf o 0 with | some b => decide (64 < b.d 1) | none => false) then [3, 2] else [3]
  | 0x08 => [3] | 0x09 => [3] | 0x0A => [4] | 0x0B => [5] | 0x0C => [6] | 0x0D => [6]
  | 0x0E => if o.par 2 = noOpt then [] else [9]
  | _ => []

/-- Stalls of a kind that a precinct holds and that are not fenced. -/
def State.serving (s : State) (p kind : Nat) : List Nat :=
  match s.precinct p with
  | none => []
  | some r => (List.range 4).flatMap fun q => ((List.range 16).map (stallId q kind)).filter fun st => r.hasStall st && !s.stallFenced st

/-- A local MOVE finds a Porter channel of the precinct on a compute die that is not fenced. -/
def State.hasPorter (s : State) (p : Nat) : Bool :=
  match s.precinct p with
  | none => false
  | some r => (List.range 256).any fun c => r.hasChan c && !s.qFenced (c / 64)

/-- Bytes of a docket's SCRATCH buffers. -/
def DocketP.scratchBytes (p : DocketP) : Nat := ((p.bufs.filter fun b => b.cls = 3).map (·.bytes)).sum

/-- A docket can be placed in the instance's precinct. -/
def State.placeable (s : State) (i : Inst) (p : DocketP) : Bool :=
  (p.ops.all fun o => (p.kinds o).all (fun k => !(s.serving i.prec k).isEmpty) &&
    (decide (o.opcode ≠ 0x0E) || decide (o.par 2 ≠ noOpt) || s.hasPorter i.prec)) &&
  decide (p.scratchBytes ≤ i.sqMib * 2 ^ 20 + i.whGib * 2 ^ 30)

/-! ### Completion (R155–R158) -/

/-- The failed operation with the lowest number, and its status. -/
def Docket.firstFail (d : Docket) : Option (Nat × Nat) := d.fails.head?

/-- STATUS and FAILED_OP. -/
def Docket.result (d : Docket) : Nat × Nat :=
  match d.refused with
  | some st => (st, noOp)
  | none => match d.ending with
    | some x => x
    | none => match d.firstFail with
      | some (n, st) => (st, n)
      | none => (0, noOp)

/-- OUT_FLAGS as a number. -/
def Docket.outFlags (d : Docket) : Nat :=
  (d.prog.bufs.zipIdx.map fun x =>
    if x.1.cls = 1 ∨ x.1.cls = 2 then
      match look d.flags x.2 with
      | some (n, o) => (b2n n + 2 * b2n o) * 4 ^ x.2
      | none => 0
    else 0).sum

/-- The value of a docket counter: an EXTERNAL counter's is that of the Bell counter it is mapped onto (R143). -/
def State.dctr (s : State) (d : Docket) (c : Nat) : Nat :=
  match look d.bound c with
  | some k => s.count24 k
  | none => d.ctrs.getD c 0

/-- The completion record (Table 5.7). -/
def State.record (s : State) (d : Docket) : Bytes :=
  let (st, op) := d.result
  let det := d.refused.isNone && d.certOk && !d.fastUsed && !d.uncorrected
  let fin := (d.prog.ctrs.zipIdx.filter (·.1.output)).flatMap fun x => leBytes 4 (s.dctr d x.2)
  leBytes 1 st ++ leBytes 1 (b2n det + 2 * b2n d.fastUsed) ++ leBytes 2 0 ++ leBytes 4 op ++ leBytes 8 d.tag ++
  leBytes ((2 * d.prog.bufs.length + 63) / 64 * 8) d.outFlags ++ slice fin 0 (roundUp fin.length 8)

/-- A docket that will run no further: refused, ended with nothing in flight, or every operation completed or skipped. -/
def Docket.over (d : Docket) : Bool :=
  d.refused.isSome ||
  (if d.ending.isSome then d.phases.all (fun p => p ≠ .running) else d.phases.all fun p => decide (p = .done) || decide (p = .skipped))

/-- The Quarter whose Guildhall serves (R510): the lowest whose compute die is not fenced. -/
def State.fwQuarter (s : State) : Nat := ((List.range 4).find? fun q => !s.qFenced q).getD 0

/-- The record of a docket written at its completion address by firmware, and DOCKET_DONE posted after it (R155). None while the
Surveyor holds the write. -/
def State.finishDocket (s : State) (f : Nat) (i : Inst) (d : Docket) : Option State :=
  let q := s.fwQuarter
  match (ioWrite q (0x8000 + 4 * q) i.asid d.complAddr (s.record d) false).at s [] with
  | (_, .error .held) => none
  | (s, _) => some (s.postMsg f (kioskMsg 0x0200 0 0 0 (leBytes 8 d.tag ++ leBytes 1 d.result.1)))

/-- The first docket of a tag, and the others around it. -/
def splitDocket (p : Docket → Bool) : List Docket → Option (Docket × List Docket)
  | [] => none
  | d :: ds => if p d then some (d, ds) else (splitDocket p ds).map fun x => (x.1, d :: x.2)

end Sys2Proof.Machine
end

