-- ==== Sys2Proof/Machine/KioskMsgs.lean ====
section
/-!
DEFINITION. The Kiosk: its rings and session, and the messages that make and end an instance's objects (chapter "Host endpoint
ports and tenancy"; R19–R21, R324, R412, R413, R417, R433, R449, R454, R405, R410).
-/
namespace Sys2Proof.Machine

/-! ### The rings (R476, R479) -/

/-- H2D_TAIL written: the lowest Guildhall not fenced takes line 5 for it (Table 20.3; DESIGN CHOICE: the spec does not say which). -/
def State.h2dTailWrite (s : State) (f v : Nat) : State :=
  let x := s.func f
  let d := modSub v x.h2dHead (2 ^ 16)
  if 16 < d ∨ d < modSub x.h2dTail x.h2dHead (2 ^ 16) then s.bar0Stray f
  else ((s.setFunc f { x with h2dTail := v }).sweepKiosk f 16).raiseLine (((List.range 4).find? fun q => !s.qFenced q).getD 0) 5

/-- D2H_HEAD written. -/
def State.d2hHeadWrite (s : State) (f v : Nat) : State :=
  let x := s.func f
  if modSub x.d2hTail x.d2hHead (2 ^ 16) < modSub v x.d2hHead (2 ^ 16) then s.bar0Stray f
  else s.setFunc f { x with d2hHead := v }

/-- KIOSK_H2D_TAIL_WRITE (R476). -/
def execKioskH2dTailWrite (f : FuncNo) (v : BitVec 16) (s : State) : Host.Outcome State Fault Refusal :=
  done (if s.hostReaches f.val then s.h2dTailWrite f.val v.toNat else s)

/-- KIOSK_D2H_HEAD_WRITE (R476). -/
def execKioskD2hHeadWrite (f : FuncNo) (v : BitVec 16) (s : State) : Host.Outcome State Fault Refusal :=
  done (if s.hostReaches f.val then s.d2hHeadWrite f.val v.toNat else s)

/-- KIOSK_D2H_POST (R476): the slot, then D2H_TAIL, then vector 0. -/
def execKioskD2hPost (f : FuncNo) (s : State) : Host.Outcome State Fault Refusal :=
  let f := f.val
  let x := s.func f
  match x.d2hWait with
  | [] => done s
  | m :: r =>
    if 16 ≤ modSub x.d2hTail x.d2hHead (2 ^ 16) then done s
    else
      let x := { x with d2h := put x.d2h (x.d2hTail % 16) m, d2hTail := (x.d2hTail + 1) % 2 ^ 16, d2hWait := r }
      done ((s.setFunc f x).sendMsix f 0)

/-- KIOSK_BEAT_TICK (Table 19.6): DEVICE counts while the Kiosk is open. -/
def execKioskBeatTick (f : FuncNo) (s : State) : Host.Outcome State Fault Refusal :=
  let x := s.func f.val
  done (if x.isOpen then s.setFunc f.val { x with beatDevice := (x.beatDevice + 1) % 2 ^ 32 } else s)

/-- DRIVER_LOST_HEARTBEAT (R479): only after the session's first nonzero write of HOST. -/
def execDriverLostHeartbeat (f : FuncNo) (s : State) : Host.Outcome State Fault Refusal :=
  let x := s.func f.val
  done (if x.isOpen && x.beatSeen then s.driverLoss f.val 1 else s)

/-- DRIVER_HOLD_EXPIRE (R520). -/
def execDriverHoldExpire (f : FuncNo) (s : State) : Host.Outcome State Fault Refusal :=
  done (if (s.func f.val).driverLost then s.cancelHeld f.val else s)

/-! ### The session (R474, R478, R520) -/

/-- The held dockets of a reattached function: their records written and DOCKET_DONE posted, in order of completion. One whose
record cannot be written yet is held no longer, and is completed later. -/
def State.releaseHeld (s : State) (f : Nat) : State :=
  match s.inst f with
  | none => s
  | some i => i.dockets.foldl (fun s d =>
      if !d.held then s
      else match s.inst f, s.finishDocket f i d with
        | some j, some s => s.setInst f { j with dockets := j.dockets.filter fun x => !(x.held && decide (x.tag = d.tag)) }
        | _, _ => s.mapDockets f fun x => if x.tag = d.tag then { x with held := false } else x) s

/-- A parked docket that names a connection in ERROR ends with REMOTE_FAILED. -/
def State.releaseParked (s : State) (f : Nat) : State :=
  match s.inst f with
  | none => s
  | some i =>
    let bad := (s.carter.ctxs.filter fun x => decide (x.2.state = 4)).map (·.1)
    s.mapDockets f fun d =>
      if !d.parked then d
      else match bad.find? fun n => (d.onConn i n).isSome with
        | some n => { d with parked := false }.endWith 0x0F ((d.onConn i n).getD noOp)
        | none => { d with parked := false }

/-- Reattachment of a driver (R520). -/
def State.reattach (s : State) (f : Nat) : State :=
  let s := s.setFunc f { s.func f with driverLost := false }
  let s := (s.releaseHeld f).releaseParked f
  ((s.fset (fwFunc f) F.fwFuncState_STATE 1).fset (fwFunc f) F.fwFuncState_HOLD_LEFT_S 0).countHeld f

/-- A session opened at a version. Without Bus Master Enable a lost driver does not reattach. -/
def State.openSession (s : State) (f ver : Nat) (role : Bool) : State :=
  let s := s.setFunc f { s.func f with isOpen := true, role := role, version := ver, beatSeen := false }
  if !(s.func f).driverLost then s.fset (fwFunc f) F.fwFuncState_STATE 1
  else if (s.func f).bme then s.reattach f else s

/-- KIOSK_OPEN (R474, R478). -/
def execKioskOpen (f : FuncNo) (s : State) : Host.Outcome State Fault Refusal :=
  let f := f.val
  done (s.answerMsg f 0x0001 18 fun m =>
    let role := mNum m 0 1
    let count := mNum m 1 1
    if 1 < role ∨ count = 0 ∨ 8 < count ∨ !mZero m (2 + 2 * count) (16 - 2 * count) then s.no 1
    else if role = 1 ∧ f % 256 ≠ 0 then s.no 5
    else if role = 0 ∧ (s.inst f).isNone then s.no 7
    else match agreed (versionList (slice m 10 (2 * count))) with
      | none => s.no 0x7F
      | some v =>
        let s := if (s.func f).isOpen then s.driverLoss f 4 else s
        (s.openSession f v (role = 1)).ok (leBytes 2 v))

/-- KIOSK_CLOSE (R478). -/
def execKioskClose (f : FuncNo) (s : State) : Host.Outcome State Fault Refusal :=
  let f := f.val
  done (s.answerMsg f 0x0002 0 fun _ =>
    if (match s.inst f with | some i => !i.dockets.isEmpty | none => false) then s.no 2
    else ((s.setFunc f { s.func f with isOpen := false, role := false, version := 0, beatSeen := false }).fset (fwFunc f) F.fwFuncState_STATE 0).ok [])

/-! ### Communicators (R324) -/

/-- Connection `n` as function `f` sees it: 0 its own, 3 unknown, 5 another's. -/
def State.connStatus (s : State) (f n : Nat) : Nat :=
  let c := s.conn n
  if c.state = 0 then 3 else if c.func = some f then 0 else 5

/-- COMM_CREATE (R324): `handle` is the handle that firmware gives. -/
def execCommCreate (f : FuncNo) (handle : BitVec 32) (far : List FarAns) (s : State) : Host.Outcome State Fault Refusal :=
  let f := f.val
  let h := handle.toNat
  done (s.answerInst f 0x0020 24 fun i m =>
    let size := mNum m 8 2
    let rank := mNum m 10 2
    if size = 0 ∨ 4096 < size ∨ size ≤ rank ∨ !mZero m 12 4 then s.no 1
    else if 256 ≤ i.comms.length then s.no 4
    else if i.comms.any fun c => c.handle = h then none
    else match s.fwRead i.asid (mNum m 16 8) (4 * size) far with
      | (_, none) => none
      | (s, some (.error st)) => s.bad st
      | (s, some (.ok b)) =>
        let conns := (List.range size).map fun k => leAt b (4 * k) 4
        let others := (conns.zipIdx.filter fun x => x.2 ≠ rank).map (·.1)
        match (others.map fun n => s.connStatus f n).find? (· ≠ 0) with
        | some st => s.no st
        | none =>
          let c : Comm := { handle := h, id := mNum m 0 8, size := size, rank := rank, conns := others }
          (s.setInst f { i with comms := i.comms ++ [c] }).ok (leBytes 4 h))

/-- COMM_DESTROY (R324). -/
def execCommDestroy (f : FuncNo) (s : State) : Host.Outcome State Fault Refusal :=
  let f := f.val
  done (s.answerInst f 0x0021 4 fun i m =>
    let h := mNum m 0 4
    if i.comms.any fun c => c.handle = h then (s.setInst f { i with comms := i.comms.filter fun c => c.handle ≠ h }).ok []
    else s.no 3)

/-! ### Keys and contexts (R412, R413, R417, R480) -/

/-- What is wrong with a key handle for function `f`: 0 nothing, 3 unknown, 5 another instance's. -/
def State.keyStatus (s : State) (f h : Nat) : Nat :=
  let k := s.keyEnt (h % 2 ^ 16)
  if 2 ^ 28 ≤ h ∨ !k.used ∨ k.gen ≠ h / 2 ^ 16 then 3 else if k.owner = f then 0 else 5

/-- A new key in entry `n` of the key table. -/
def State.keyMake (s : State) (f n algo : Nat) (key : Bytes) : Ans :=
  let g := (s.keyEnt n).gen
  (s.setKeyEnt n { gen := g, used := true, owner := f, algo := algo, key := key }).ok (leBytes 4 (g * 2 ^ 16 + n))

/-- The key table is full. -/
def State.keysFull (s : State) : Bool := decide (65536 ≤ (s.cash.keys.filter (·.2.used)).length)

/-- KEY_GENERATE (R412): the key's bytes are free; `n` is the entry that firmware takes. -/
def execKeyGenerate (f : FuncNo) (n : BitVec 16) (s : State) : Host.Outcome State Fault Refusal :=
  let f := f.val
  let n := n.toNat
  done (s.answerInst f 0x0030 1 fun _ m =>
    let algo := mNum m 0 1
    if algo = 0 ∨ 5 < algo then s.no 1
    else if s.keysFull then s.no 4
    else if (s.keyEnt n).used then none
    else (s.useFresh (keyBytes algo)).keyMake f n algo (s.freeBytes (keyBytes algo)))

/-- The application secret of a function's current SPDM session over DOE; only PFs have DOE. -/
def State.spdmSecret (s : State) (f : Nat) : Option Bytes :=
  if f % 256 = 0 then ((s.sec.sessions.find? fun x => decide (x.via = portOf f) && x.up).map (·.secret)) else none

/-- KEY_IMPORT (R480). -/
def execKeyImport (f : FuncNo) (n : BitVec 16) (far : List FarAns) (s : State) : Host.Outcome State Fault Refusal :=
  let f := f.val
  let secret := s.spdmSecret f
  let n := n.toNat
  done (s.answerInst f 0x0031 20 fun i m =>
    let algo := mNum m 0 1
    let p := mNum m 4 4
    let k := s.keyEnt (p % 2 ^ 16)
    if algo = 0 ∨ 5 < algo ∨ !mZero m 1 3 then s.no 1
    else
      let st := if p = 0xFFFF_FFFF then (if secret.isSome then 0 else 3) else s.keyStatus f p
      if st ≠ 0 then s.no st
      else if p ≠ 0xFFFF_FFFF ∧ k.algo ≠ 2 then s.no 1
      else if s.keysFull then s.no 4
      else if (s.keyEnt n).used then none
      else match s.fwRead i.asid (mNum m 8 8) (mNum m 16 4) far with
        | (_, none) => none
        | (s, some (.error st)) => s.bad st
        | (s, some (.ok blob)) =>
          match Config.unwrapBlob (if p = 0xFFFF_FFFF then secret.getD [] else k.key) blob with
          | none => s.bad 0x0A
          | some key => if key.length = keyBytes algo then s.keyMake f n algo key else s.no 1)

/-- KEY_DESTROY (R413). -/
def execKeyDestroy (f : FuncNo) (s : State) : Host.Outcome State Fault Refusal :=
  let f := f.val
  done (s.answerInst f 0x0032 4 fun _ m =>
    let h := mNum m 0 4
    let st := s.keyStatus f h
    if st ≠ 0 then s.no st else (s.keyFree (h % 2 ^ 16)).ok [])

/-- CTX_CREATE (R80, Table 17.2): `n` is the record that firmware takes from the pool. -/
def execCtxCreate (f : FuncNo) (n : BitVec 20) (s : State) : Host.Outcome State Fault Refusal :=
  let f := f.val
  let n := n.toNat
  done (s.answerInst f 0x0033 8 fun i m =>
    let algo := mNum m 0 1
    let u := mNum m 1 1
    let key := mNum m 4 4
    let st := if algo = 6 then 0 else s.keyStatus f key
    if algo = 0 ∨ 6 < algo ∨ !mZero m 2 2 ∨ (if isXts algo then u < 9 ∨ 14 < u else u ≠ 0) then s.no 1
    else if st ≠ 0 then s.no st
    else if algo ≠ 6 ∧ (s.keyEnt (key % 2 ^ 16)).algo ≠ algo then s.no 1
    else if i.cashboxCtx ≤ (s.cash.ctxs.filter fun x => decide (x.2.state ≠ 0) && decide (x.2.inst = f)).length then s.no 4
    else if (s.ctxRec n).state ≠ 0 then none
    else
      let g := (s.ctxRec n).gen
      let c : CashCtx := { gen := g, algo := algo, state := 1, prec := i.prec, key := key, inst := f, unitLog2 := u }
      (s.setCtxRec n c).ok (leBytes 4 (g * 2 ^ 20 + n)))

/-- CTX_DESTROY (R417). -/
def execCtxDestroy (f : FuncNo) (s : State) : Host.Outcome State Fault Refusal :=
  let f := f.val
  done (s.answerInst f 0x0034 4 fun _ m =>
    match s.ctxOf (mNum m 0 4) with
    | none => s.no 3
    | some (n, c) => if c.inst = f then (s.ctxFree n).ok [] else s.no 5)

/-! ### Ledger queues (R433, R436, R449, R454) -/

/-- What is wrong with a queue number for function `f`. -/
def State.queueStatus (s : State) (f n : Nat) : Nat :=
  match s.lqueue n with
  | none => 3
  | some q => if q.func = f then 0 else 5

/-- A status of a unit's OP register as a Kiosk answer. -/
def State.unitAns (x : State × Nat) (body : Bytes) (s0 : State) : Ans :=
  match x.2 with
  | 0 => x.1.ok body
  | 1 => s0.no 1
  | 3 => s0.no 4
  | 4 => s0.no 3
  | n => s0.bad n

/-- A precinct holds a stall of a kind that is not fenced. -/
def State.hasStall (s : State) (p kind : Nat) : Bool := !(s.serving p kind).isEmpty

/-- LEDGER_QUEUE_CREATE (R433, R454): `n`, `slot` and `k` are the queue number, the first doorbell slot and the Quarter of the stall
that firmware takes. -/
def execLedgerQueueCreate (f : FuncNo) (n : Fin 4096) (slot : Nat) (k : Qn) (s : State) : Host.Outcome State Fault Refusal :=
  let f := f.val
  let n := n.val
  let k := k.val
  done (s.answerInst f 0x0040 44 fun i m =>
    let count := mNum m 26 1
    let vol := mNum m 2 2
    if !mZero m 1 1 ∨ !mZero m 27 1 ∨ count = 0 ∨ 8 < count ∨ !mZero m (28 + 2 * count) (16 - 2 * count) then s.no 1
    else match agreed (versionList (slice m 36 (2 * count))) with
      | none => some (s, 0x7F, 0x7F, [])
      | some v =>
        match s.volume vol with
        | none => s.no 3
        | some x =>
          if nbit (mNum m 0 1) 0 ∧ x.owner ≠ f then s.bad 0x47
          else if i.ledgerQ ≤ (s.ledger.queues.filter fun y => y.2.func = f).length then s.no 4
          else if !s.hasStall i.prec 10 then s.bad 0x04
          else if s.precOfStall (soleStall k 10) ≠ some i.prec ∨ s.stallFenced (soleStall k 10) ∨ (s.lqueue n).isSome ∨ !s.slotsFree f slot 2 then none
          else
            let q : LQueue := {
              flags := mNum m 0 1, version := v, volume := vol, asid := i.asid, sqBase := mNum m 4 8, cqBase := mNum m 12 8,
              sqLog := mNum m 20 1, cqLog := mNum m 21 1, msix := mNum m 22 2, dbCtr := mNum m 24 2, func := f, prec := i.prec, stall := k }
            let (s', st) := s.lqueueCreate n q
            State.unitAns (s'.bindSlots f slot [.ledgerSq n, .ledgerCq n], st) (leBytes 2 n ++ leBytes 2 v ++ leBytes 4 slot) s)

/-- LEDGER_QUEUE_DELETE (R454). -/
def execLedgerQueueDelete (f : FuncNo) (s : State) : Host.Outcome State Fault Refusal :=
  let f := f.val
  done (s.answerInst f 0x0041 2 fun _ m =>
    let n := mNum m 0 2
    let st := s.queueStatus f n
    if st ≠ 0 then s.no st
    else
      let (s', st) := s.lqueueDelete n
      State.unitAns (s'.queueFree f n, st) [] s)

/-- LEDGER_QUEUE_RESET (R449): the message is answered when the reset has ended. -/
def execLedgerQueueReset (f : FuncNo) (s : State) : Host.Outcome State Fault Refusal :=
  let f := f.val
  done (match s.takeMsg f 0x0042 2 with
    | .error s => s
    | .ok m =>
      let n := mNum m 0 2
      match s.lqueue n with
      | none => s.reply f m 3 0 []
      | some q =>
        let fin (s : State) : State :=
          match s.lqueue n with
          | some q => if q.resetting then s else (s.setLqueue n { q with resetBy := none }).reply f m 0 0 []
          | none => s.reply f m 3 0 []
        if q.func ≠ f then s.reply f m 5 0 []
        else if q.resetBy = some f then fin s
        else if q.resetting then s.reply f m 2 0 []
        else fin (s.lqueueReset n (some f)).1)

/-! ### Receive queues and transmit rings (R373, R386) -/

/-- A ring's fields as a message gives them. -/
def ringOf (f : Nat) (i : Inst) (tx : Bool) (m : Bytes) : Ring :=
  { func := f, prec := i.prec, asid := i.asid, tx := tx, buf := mNum m 0 8, cpl := mNum m 8 8, log2 := mNum m 16 1, msix := mNum m 18 2,
    target := mNum m 20 4 }

/-- A ring's fields hold no reserved value. The spec gives the ring size no range; 16 bits of index bound it. -/
def Ring.formOk (x : Ring) (m : Bytes) : Bool :=
  mZero m 17 1 && decide (x.log2 ≤ 16) && decide (x.target < (if x.tx then 2 ^ 20 else 4096))

/-- Ring `r` made for a function with its doorbell slot. -/
def State.ringMake (s : State) (f r slot : Nat) (x : Ring) : Ans :=
  if (s.ring r).isSome ∨ 2 ^ 32 ≤ r ∨ !s.slotsFree f slot 1 then none
  else ((s.setRing r x).bindSlots f slot [if x.tx then .txr r else .rxq r]).ok (leBytes 4 r ++ leBytes 4 slot)

/-- RXQ_CREATE (R373): `r` and `slot` are the ring number and doorbell slot that firmware takes. A group whose flows belong to another
precinct is refused. -/
def execRxqCreate (f : FuncNo) (r slot : Nat) (s : State) : Host.Outcome State Fault Refusal :=
  let f := f.val
  done (s.answerInst f 0x0050 24 fun i m =>
    let x := ringOf f i false m
    let foreign := s.eth.flows.any fun b => b.2.any fun e => match e with
      | some e => decide (e.action = 2) && decide (e.arg0 = x.target) && decide (e.prec ≠ i.prec)
      | none => false
    if !x.formOk m then s.no 1
    else if foreign || s.eth.rings.any (fun y => !y.2.tx && decide (y.2.target = x.target) && decide (y.2.prec ≠ i.prec)) then s.no 5
    else s.ringMake f r slot x)

/-- TXR_CREATE (R386). -/
def execTxrCreate (f : FuncNo) (r slot : Nat) (s : State) : Host.Outcome State Fault Refusal :=
  let f := f.val
  done (s.answerInst f 0x0051 24 fun i m =>
    let x := ringOf f i true m
    if !x.formOk m then s.no 1
    else match s.node (x.target / 2 ^ 18) 3 (x.target % 2 ^ 18) with
      | none => s.no 3
      | some n => if n.prec = i.prec then s.ringMake f r slot x else s.no 5)

/-- RING_DESTROY (R462). -/
def execRingDestroy (f : FuncNo) (s : State) : Host.Outcome State Fault Refusal :=
  let f := f.val
  done (s.answerInst f 0x0052 4 fun _ m =>
    let r := mNum m 0 4
    match s.ring r with
    | none => s.no 3
    | some x => if x.func = f then (s.ringFree f r).ok [] else s.no 5)

/-- TOLL_SET (R384, R385, R483): the new weight, rates and bursts of a Tollbooth queue, up to TX_CAP_MBPS. -/
def execTollSet (f : FuncNo) (s : State) : Host.Outcome State Fault Refusal :=
  let f := f.val
  done (s.answerInst f 0x0053 24 fun i m =>
    let k := mNum m 0 4
    let w := mNum m 4 2
    let cir := mNum m 8 4
    let pir := mNum m 12 4
    let cbs := mNum m 16 4
    let pbs := mNum m 20 4
    if !mZero m 6 2 ∨ 2 ^ 20 ≤ k ∨ w = 0 ∨ 1600000 < cir ∨ 1600000 < pir ∨ (pir ≠ 0 ∧ pir < cir) ∨ cbs < 64 ∨ pbs < cbs ∨ 2 ^ 24 < pbs then s.no 1
    else match s.node (k / 2 ^ 18) 3 (k % 2 ^ 18) with
      | none => s.no 3
      | some n =>
        if n.prec ≠ i.prec then s.no 5
        else if (match look i.live 1 with | some cap => decide (pir = 0) || decide (cap < pir) | none => false) then s.no 4
        else
          let n' := n.update { n with weight := w, cir := cir, pir := pir, cbs := cbs, pbs := pbs } s.tick
          (s.setNode (k / 2 ^ 18) 3 (k % 2 ^ 18) n').ok [])

/-! ### Connections and regions (R393, R405, R410) -/

/-- CONN_CREATE (R393): `n`, `slot` and `q` are the context, the first doorbell slot and the Quarter that firmware takes. -/
def execConnCreate (f : FuncNo) (n : ConnNo) (slot : Nat) (q : Qn) (far : List FarAns) (s : State) : Host.Outcome State Fault Refusal :=
  let f := f.val
  let n := n.val
  done (s.answerInst f 0x0060 8 fun i m =>
    if i.carterConn ≤ (s.carter.ctxs.filter fun x => decide (x.2.state ≠ 0) && decide (x.2.func = some f)).length then s.no 4
    else if !s.hasStall i.prec 9 then s.bad 0x04
    else if s.precOfStall (soleStall q.val 9) ≠ some i.prec ∨ s.stallFenced (soleStall q.val 9) ∨ (s.conn n).state ≠ 0 ∨ !s.slotsFree f slot 3 then none
    else match s.fwRead i.asid (mNum m 0 8) 128 far with
      | (_, none) => none
      | (s, some (.error st)) => s.bad st
      | (s, some (.ok b)) =>
        if leAt b 2 1 ≠ i.prec ∨ leAt b 0x0C 2 ≠ i.asid then s.no 5
        else
          let (s', st) := s.connWrite q.val n b (some f)
          State.unitAns (s'.bindSlots f slot [.carterSq n, .carterRq n, .carterCq n], st) (leBytes 4 n ++ leBytes 4 slot) s)

/-- CONN_DESTROY (R410). -/
def execConnDestroy (f : FuncNo) (s : State) : Host.Outcome State Fault Refusal :=
  let f := f.val
  done (s.answerInst f 0x0063 4 fun _ m =>
    let n := mNum m 0 4
    let st := s.connStatus f n
    if st ≠ 0 then s.no st else (s.connFree n).ok [])

/-- A Carter operation on a connection, by CARTER_OP or by a message of TYPE `t`. -/
def State.connOp (s : State) (src : CarterSrc) (op t : Nat) (body : State → Nat → State × Nat) : State :=
  match src with
  | .reg rq q v => s.carterOpWrite rq q.val (carterOpWord op v)
  | .msg f => s.answerInst f.val t 4 fun _ m =>
      let n := mNum m 0 4
      let st := s.connStatus f.val n
      if st ≠ 0 then s.no st else State.unitAns (body s n) [] s

/-- CARTER_CONNECT (R391, R410). -/
def execCarterConnect (src : CarterSrc) (s : State) : Host.Outcome State Fault Refusal := done (s.connOp src 4 0x0061 State.connConnect)

/-- CARTER_RESET (R410). -/
def execCarterReset (src : CarterSrc) (s : State) : Host.Outcome State Fault Refusal := done (s.connOp src 5 0x0062 State.connReset)

/-- CARTER_REGION_INVAL (R405), by CARTER_OP or by REGION_INVAL. -/
def execCarterRegionInval (src : CarterSrc) (s : State) : Host.Outcome State Fault Refusal :=
  match src with
  | .reg rq q v => done (s.carterOpWrite rq q.val (carterOpWord 8 v))
  | .msg f => done (s.answerInst f.val 0x0065 4 fun i m =>
      let k := mNum m 0 4
      let r := s.region (k % 2 ^ 20)
      if !nbit r.access 7 ∨ r.gen ≠ k / 2 ^ 20 then s.no 3
      else if r.asid ≠ i.asid then s.no 5
      else State.unitAns (s.regionInval (k % 2 ^ 20)) [] s)

/-- REGION_REGISTER (R405): `n` is the record that firmware takes; an instance has 4 for each connection of its quota. -/
def execRegionRegister (f : FuncNo) (n : BitVec 20) (s : State) : Host.Outcome State Fault Refusal :=
  let f := f.val
  let n := n.toNat
  done (s.answerInst f 0x0064 17 fun i m =>
    let a := mNum m 16 1
    let r := s.region n
    if 16 ≤ a then s.no 1
    else if 4 * i.carterConn ≤ (s.carter.regions.filter fun x => nbit x.2.access 7 && decide (x.2.asid = i.asid)).length then s.no 4
    else if nbit r.access 7 then none
    else
      let b := leBytes 8 (mNum m 0 8) ++ leBytes 8 (mNum m 8 8) ++ leBytes 2 i.asid ++ leBytes 1 (a + 128) ++ leBytes 13 0
      State.unitAns (s.regionWrite n b) (leBytes 4 (r.gen * 2 ^ 20 + n)) s)

end Sys2Proof.Machine
end

