-- ==== Sys2Proof/Machine/Trust.lean ====
section
/-!
DEFINITION. The root of trust as the loads use it: the owner record in force, signature checks and the anti-rollback counters
(chapter "Security, attestation and physical presence"; R69, R567–R571, R579).
-/
namespace Sys2Proof.Machine

/-- The unit code of the Watch post (Table 24.5: Watch post core 0). -/
abbrev watchUnit : Nat := 0xC000

/-- CURRENT of the owner record (R567). -/
def State.owner (s : State) : Bytes := slice (s.sec.flash.current.getD Config.shipOwner) 0 192

/-- IMAGE_KEY, FW_KEY and MODULE_KEY (Table 25.3). -/
def ownerImageKey (o : Bytes) : Bytes := slice o 0x08 60
def ownerFwKey (o : Bytes) : Bytes := slice o 0x44 60
def ownerModuleKey (o : Bytes) : Bytes := slice o 0x80 60

/-- The parameter sets that R569 accepts, in a serialised HSS public key: 1 to 4 levels; LMS with M32 or M24 and LM-OTS with the same
hash (PRESUMED: the type codes of RFC 8554 and SP 800-208). -/
def hssKeyOk (k : Bytes) : Bool :=
  let levels := beAt k 0 4
  let lms := beAt k 4 4
  let ots := beAt k 8 4
  decide (1 ≤ levels) && decide (levels ≤ 4) &&
  ((decide (5 ≤ lms) && decide (lms ≤ 9) && decide (1 ≤ ots) && decide (ots ≤ 4)) ||
   (decide (10 ≤ lms) && decide (lms ≤ 14) && decide (5 ≤ ots) && decide (ots ≤ 8)))

/-- An owner record is well formed (Table 25.3, R576). -/
def ownerOk (o : Bytes) : Bool :=
  decide (o.length = 192) && decide (leAt o 0 4 = 0x524E574F) && decide (leAt o 4 2 = 0x0100) && decide (leAt o 6 2 < 2) &&
  decide (leAt o 0xBC 4 = 0) && hssKeyOk (ownerImageKey o) && hssKeyOk (ownerFwKey o) && hssKeyOk (ownerModuleKey o)

/-- TAMPER_ZEROISE of the owner record in force. -/
def State.tamperZeroise (s : State) : Bool := nbit (leAt s.owner 6 2) 0

/-- A signature checked under any of the keys given (R69, R569), and whether an injection armed at the detector made it fail
(Table 24.7). -/
def State.sigOk (s : State) (keys : List Bytes) (body sig : Bytes) : State × Bool × Bool :=
  match s.injAt 0x0E watchUnit (fun _ => true) with
  | some _ => (s.injFire, false, true)
  | none => (s, keys.any fun k => Config.hssOk k body sig, false)

/-- The class 1 record of a refused image, firmware or module, with its status in DETAIL (Tables 24.1 and 24.2, detector 0x0E). -/
def State.loadRefused (s : State) (status : Nat) (inj : Bool) : State := s.recordErr 1 0x0E 0xFF watchUnit status 0 0 inj

/-- FACTORY of SEC_STATE. -/
def State.factory (s : State) : Bool := s.fbit ⟨.secState, 0, 0⟩ F.secState_FACTORY

/-- The keys that firmware may be signed with (R579). -/
def State.fwKeys (s : State) : List Bytes := ownerFwKey s.owner :: (if s.factory then [Config.factoryKey] else [])

/-- An SVN against its fused counter (R570, R87): a status of Table 3.9. -/
def svnStatus (svn fused : Nat) : Nat := if 255 < svn then 3 else if svn < fused then 6 else 0

/-- Some instance exists. -/
def State.anyInstance (s : State) : Bool := s.host.funcs.any fun x => x.2.inst.isSome

/-- SEC_STATE follows the fuses (R568, R580, R581). -/
def State.secSync (s : State) : State :=
  let r : Reg := ⟨.secState, 0, 0⟩
  let s := s.fset r F.secState_OWNER_SLOT s.sec.fuses.slots.length
  let s := s.fset r F.secState_DECOMMISSIONED (b2n s.sec.fuses.decommissioned)
  let s := s.fset r F.secState_SEAL_OPENED (b2n s.sec.fuses.sealOpened)
  let v : Reg := ⟨.secSvn, 0, 0⟩
  ((s.fset v F.secSvn_IMAGE s.sec.fuses.svnImage).fset v F.secSvn_FW s.sec.fuses.svnFw).fset v F.secSvn_MODULE s.sec.fuses.svnModule

/-- Flash and fuses replaced. -/
def State.setFlash (s : State) (x : Flash) : State := { s with sec := { s.sec with flash := x } }
def State.setFuses (s : State) (x : Fuses) : State := ({ s with sec := { s.sec with fuses := x } } : State).secSync

/-- A firmware slot, and an image slot, of flash. -/
def State.fwSlot (s : State) (n : Nat) : Bytes := (look s.sec.flash.fw n).getD (Config.shipFw n)
def State.imageSlot (s : State) (n : Nat) : Bytes := (look s.sec.flash.image n).getD (Config.shipImage n)
def State.optionImage (s : State) : Bytes := s.sec.flash.option_.getD Config.shipOption

end Sys2Proof.Machine
end

