-- ==== Sys2Proof/Machine/Tenancy.lean ====
section
/-!
DEFINITION. Managers' messages that make and end instances and volumes, and what hosts and host ports do to functions: power
states, resets, links, BAR2 and completion timeouts (R452, R456, R464–R474, R482, R483).
-/
namespace Sys2Proof.Machine

/-! ### Instances (R474, R482, R483) -/

/-- The sum of a quota over the instances of precinct `p`. -/
def State.quotaSum (s : State) (p : Nat) (g : Inst → Nat) : Nat :=
  ((s.instancesOf p).map fun f => match s.inst f with | some i => g i | none => 0).sum

/-- The fixed quotas of a new instance fit beside those of its precinct's others (R482). -/
def State.quotaOk (s : State) (i : Inst) : Bool :=
  let p := i.prec
  let size (es : List Extent) : Nat := ((es.filter fun e => e.prec = p).map (·.size)).sum
  match s.xim.conf.pools.find? (fun x => x.prec = p) with
  | none => false
  | some x =>
    decide (s.quotaSum p (·.whGib) + i.whGib ≤ size s.xim.conf.warehouse) &&
    decide (s.quotaSum p (·.sqMib) + i.sqMib ≤ size s.xim.conf.square) &&
    decide (s.quotaSum p (·.carterConn) + i.carterConn ≤ x.carter) &&
    decide (s.quotaSum p (·.ledgerQ) + i.ledgerQ ≤ x.ledger) &&
    decide (s.quotaSum p (·.cashboxCtx) + i.cashboxCtx ≤ x.cashbox)

/-- A precinct lets a function bind (Table 3.8). -/
def State.mayBind (s : State) (p g : Nat) : Bool :=
  match s.xim.conf.pools.find? (fun x => x.prec = p) with
  | none => false
  | some x =>
    if g % 256 = 0 then nbit x.flags (portOf g)
    else decide (((s.instancesOf p).filter fun f => decide (portOf f = portOf g) && decide (f % 256 ≠ 0)).length < (if portOf g = 0 then x.vf0 else x.vf1))

/-- CLASS_MASK of a precinct. -/
def State.classMask (s : State) (p : Nat) : Nat := match s.xim.conf.counters.find? (fun x => x.1 = p) with | some x => x.2 | none => 0

/-- INSTANCE_CREATE (R474, R482, R579, R580): `asid` is the address space that firmware gives. The salt of the instance's wrapping key is free. -/
def execInstanceCreate (f : FuncNo) (asid : BitVec 12) (s : State) : Host.Outcome State Fault Refusal :=
  let f := f.val
  let asid := asid.toNat
  done (s.answerMsg f 0x0100 24 fun m =>
    let g := mNum m 0 2
    let p := mNum m 2 1
    if !mZero m 3 1 ∨ !mZero m 14 2 ∨ 512 ≤ g ∨ 64 ≤ p then s.no 1
    else if portOf g ≠ portOf f then s.no 5
    else if s.factory || s.sec.fuses.decommissioned then s.no 5
    else if !s.funcThere g ∨ (s.precinct p).isNone then s.no 3
    else if (s.inst g).isSome ∨ !s.mayBind p g then s.no 5
    else
      let i : Inst := {
        prec := p, asid := asid, whGib := mNum m 4 2, sqMib := mNum m 6 2, carterConn := mNum m 8 4, ledgerQ := mNum m 12 2,
        cashboxCtx := mNum m 16 4, counterMask := mNum m 20 4 }
      if !s.quotaOk i then s.no 4
      else if i.counterMask &&& s.classMask p ≠ i.counterMask then s.no 5
      else if asid = 0 ∨ s.host.funcs.any (fun x => match x.2.inst with | some j => decide (j.asid = asid) | none => false) then none
      else
        let salt := Config.freeNat s.fresh
        let s := s.useFresh 1
        let s := { s with cash := { s.cash with wrap := put s.cash.wrap g (salt, 0) } }
        (s.setInst g i).ok [])

/-- INSTANCE_DESTROY (R474). A PF that destroys its own instance loses its session with it, as by an FLR. -/
def execInstanceDestroy (f : FuncNo) (s : State) : Host.Outcome State Fault Refusal :=
  let f := f.val
  done (s.answerMsg f 0x0101 2 fun m =>
    let g := mNum m 0 2
    if 512 ≤ g then s.no 1
    else if portOf g ≠ portOf f then s.no 5
    else if (s.inst g).isNone then s.no 3
    else (s.destroyInstance g).ok [])

/-- TX_CAP_MBPS lowered below a queue's PIR lowers that PIR (R483). The queues of an instance are those its transmit rings are bound to. -/
def State.capQueues (s : State) (g cap : Nat) : State :=
  (s.eth.rings.filter fun x => x.2.tx && decide (x.2.func = g)).foldl (fun s x =>
    let k := x.2.target
    match s.node (k / 2 ^ 18) 3 (k % 2 ^ 18) with
    | none => s
    | some n =>
      if n.pir = 0 ∨ cap < n.pir then s.setNode (k / 2 ^ 18) 3 (k % 2 ^ 18) (n.update { n with pir := cap, cir := min n.cir cap } s.tick)
      else s) s

/-- INJECT_MBPS of every Carter context of a function. -/
def State.capConns (s : State) (g v : Nat) : State :=
  let cap (x : Nat × CarterCtx) : Nat × CarterCtx :=
    if x.2.func = some g ∧ x.2.state ≠ 0 then (x.1, { x.2 with cfg := overlay x.2.cfg 0x60 (leBytes 4 v) }) else x
  { s with carter := { s.carter with ctxs := s.carter.ctxs.map cap } }

/-- INSTANCE_SET (R483): `chans` are the channels of the precinct that carry the instance's work. -/
def execInstanceSet (f : FuncNo) (chans : List ChanNo) (s : State) : Host.Outcome State Fault Refusal :=
  let f := f.val
  done (s.answerMsg f 0x0102 12 fun m =>
    let g := mNum m 0 2
    let item := mNum m 2 2
    let v := mNum m 4 8
    if 512 ≤ g then s.no 1
    else if portOf g ≠ portOf f then s.no 5
    else match s.inst g with
      | none => s.no 3
      | some i =>
        let put_ (s : State) : State := match s.inst g with | some i => s.setInst g { i with live := put i.live item v } | none => s
        if item = 1 then (if 1600000 < v ∨ v = 0 then s.no 1 else (put_ (s.capQueues g v)).ok [])
        else if item = 2 then
          if v = 0 ∨ 255 < v then s.no 1
          else if chans.any fun c => s.precOfChan c.val ≠ some i.prec then none
          else (put_ (chans.foldl (fun s c => s.fset (chCfg c.val) F.porterChCfg_WEIGHT v) s)).ok []
        else if item = 3 then (if 1600000 < v then s.no 1 else (put_ (s.capConns g v)).ok [])
        else if item = 4 then (if 2 ^ 32 ≤ v then s.no 1 else (put_ s).ok [])
        else if 16 ≤ item ∧ item < 27 then
          let others := ((s.instancesOf i.prec).filter (· ≠ g)).map fun h => match s.inst h with | some j => lookD 0 j.live item | none => 0
          if 256 < others.sum + v then s.no 4 else (put_ s).ok []
        else s.no 1)

/-! ### Volumes (R452, Table 18.1) -/

/-- VOLUME_CREATE (R452): `n` is the volume number that firmware takes; its key is free. -/
def execVolumeCreate (f : FuncNo) (n : Fin 4096) (s : State) : Host.Outcome State Fault Refusal :=
  let f := f.val
  done (s.answerMsg f 0x0110 24 fun m =>
    let owner := mNum m 0 2
    let k := mNum m 2 1
    let least := mNum m 3 1
    let lg := mNum m 4 1
    let blocks := mNum m 8 8
    if 512 ≤ owner ∨ k < 2 ∨ 3 < k ∨ least = 0 ∨ k < least ∨ (lg ≠ 12 ∧ lg ≠ 14) ∨ !mZero m 5 3 ∨ blocks = 0 ∨ 2 ^ 40 < blocks then s.no 1
    else if 4096 ≤ s.ledger.volumes.length then s.no 4
    else if (s.volume n.val).isSome then none
    else
      let v : Volume := {
        owner := owner, blocks := blocks, log2 := lg, minHealthy := least, replicas := List.replicate k {}, key := s.freeBytes 64,
        store := mNum m 16 8 }
      let s := (s.useFresh 64).setVolume n.val v
      ({ s with ledger := { s.ledger with created := (s.ledger.created + 1) % 2 ^ 32 } } : State).ok (leBytes 2 n.val))

/-- VOLUME_DESTROY (R452): refused while a queue names the volume. -/
def execVolumeDestroy (f : FuncNo) (s : State) : Host.Outcome State Fault Refusal :=
  let f := f.val
  done (s.answerMsg f 0x0111 2 fun m =>
    let n := mNum m 0 2
    if (s.volume n).isNone then s.no 3
    else if s.ledger.queues.any fun q => q.2.volume = n then s.no 2
    else ({ s with ledger := { s.ledger with volumes := drop s.ledger.volumes n } } : State).ok [])

/-! ### BAR2 (R464, R465) -/

/-- The requester number of a function at a home; the Surveyor's records never name it. -/
def funcReq (f : Nat) : Nat := 0x7000 + f

/-- The injection armed at host port `p`'s detector of arriving TLPs (Table 24.7). -/
def State.tlpInj (s : State) (p : Nat) : Option Injection := s.injAt 0x07 (qUnit (hostQ p) 0x18) (fun _ => true)

/-- BAR2_ACCESS (R464, R465): a read of `len` bytes, or a write; `poison` is the EP bit of its TLP (R551). A host is never sent poisoned
bytes. -/
def execBar2Access (f : FuncNo) (off : BitVec 36) (data : Option Bytes) (len : Nat) (poison : Bool) (s : State) :
    Host.Outcome State Fault Refusal :=
  let f := f.val
  let p := portOf f
  let va := off.toNat
  let n := match data with | some d => d.length | none => len
  if !s.hostReaches f || decide (n = 0) || decide (4096 < va % 4096 + n) then done s
  else
    let inj := s.tlpInj p
    let s := if inj.isSome then s.injFire else s
    let poison := poison || (match inj with | some i => decide (i.syndrome = 1) | none => false)
    let s := match inj with | some i => if i.syndrome = 0 then s.emit (.aer f 9) else s | none => s
    let s := if poison && data.isSome then s.emit (.aer f 7) else s
    let abort (s : State) : State :=
      let s := (s.count (hostQ p) 57 4 1).emit (.aer f 5)
      if data.isNone then s.emit (.hostAbort f) else s
    match s.inst f with
    | none => done (abort s)
    | some i =>
      match s.translate (hostQ p) ⟨funcReq f, i.asid, va, data.isSome⟩ with
      | (s', .ok 0 pa _) =>
        match data with
        | some d =>
          let (s', bad) := s'.writeMem i.prec (funcReq f) i.asid pa d poison
          done (if bad then abort s' else s')
        | none =>
          let (s', b, bad) := s'.readMem i.prec (funcReq f) i.asid pa n
          done (if bad then abort s' else s'.emit (.hostData f b))
      | _ => done (abort s)

/-! ### Power states and resets (R467–R469, R473, R519) -/

/-- The functions of a port that have any state. -/
def State.funcsOf (s : State) (p : Nat) : List Nat := (s.host.funcs.map (·.1)).filter fun f => portOf f = p

/-- MSI-X messages held by a function are sent (R467). -/
def State.sendHeld (s : State) (f : Nat) : State :=
  let x := s.func f
  x.heldIrq.foldl (fun s v => s.sendMsix f v) (s.setFunc f { x with heldIrq := [] })

/-- A power state written. D2 is not implemented, so its value is ignored. -/
def State.powerWrite (s : State) (p v : Nat) : State :=
  if v = 2 ∨ 3 < v then s
  else
    let f := 256 * p
    let s := s.setFunc f { s.func f with power := v }
    if v = 0 then (s.funcsOf p).foldl (fun s f => s.sendHeld f) s else s

/-- PF_POWER_STATE_WRITE (R467). -/
def execPfPowerStateWrite (p : Fin 2) (v : BitVec 2) (s : State) : Host.Outcome State Fault Refusal :=
  done (if (s.port p.val).linkUp then s.powerWrite p.val v.toNat else s)

/-- What the functions of a host port do under its PERST_N (R469): each is as after an FLR, and the PF is in D3cold. -/
def State.perstEffects (s : State) (p : Nat) : State :=
  let s := (s.setPort p { s.port p with linkUp := false }).failBursts 0x23 (Burst.onHost p)
  let s := (s.funcsOf p).foldl (fun s f => s.flrEffects f) s
  s.setFunc (256 * p) { s.func (256 * p) with power := 4 }

/-- HQ_PERST_ASSERT (R469): every function as after an FLR; the PF is in D3cold until the pin deasserts. -/
def execHqPerstAssert (p : Fin 2) (s : State) : Host.Outcome State Fault Refusal :=
  done ((s.setPort p.val { s.port p.val with perst := true }).perstEffects p.val)

/-- HQ_PERST_DEASSERT (R469). -/
def execHqPerstDeassert (p : Fin 2) (s : State) : Host.Outcome State Fault Refusal :=
  let p := p.val
  let s := s.setPort p { s.port p with perst := false, wake := false }
  done (s.setFunc (256 * p) { s.func (256 * p) with power := 0 })

/-- FLR (R450, R519). -/
def execFlr (f : FuncNo) (s : State) : Host.Outcome State Fault Refusal :=
  done (if s.funcThere f.val then s.flrEffects f.val else s)

/-- Bus Master Enable of a function cleared (R519). -/
def State.bmeClear (s : State) (f : Nat) : State :=
  let s := s.setFunc f { s.func f with bme := false }
  if (s.inst f).isSome || (s.func f).isOpen then s.driverLoss f 2 else s

/-- BME_CLEAR (R519). -/
def execBmeClear (f : FuncNo) (s : State) : Host.Outcome State Fault Refusal := done (s.bmeClear f.val)

/-- VF Enable of a PF cleared (R473). -/
def State.vfClear (s : State) (p : Nat) : State :=
  let s := s.setFunc (256 * p) { s.func (256 * p) with vfEnable := false }
  ((s.funcsOf p).filter fun f => f % 256 ≠ 0).foldl (fun s f => if (s.inst f).isSome then s.destroyInstance f else s) s

/-- VF_ENABLE_CLEAR (R473). -/
def execVfEnableClear (p : Fin 2) (s : State) : Host.Outcome State Fault Refusal := done (s.vfClear p.val)

/-! ### Completion timeouts (R470, R471) -/

/-- HOST_COMPLETION_TIMEOUT (R470, Table 24.2). -/
def execHostCompletionTimeout (p : Fin 2) (tag : Nat) (s : State) : Host.Outcome State Fault Refusal :=
  let p := p.val
  let x := s.port p
  match look x.tags tag with
  | none => done s
  | some (c, id) =>
    match s.burst c id with
    | none => done s
    | some b =>
      let unit := qUnit (hostQ p) 0x18
      let inj := (s.injAt 0x0A unit (fun _ => true)).isSome
      let s := if inj then s.injFire else s
      let f := s.funcOfAsid p b.srcAsid
      let s := s.setPort p { x with tags := drop x.tags tag, expired := put x.expired tag f }
      let s := (s.count (hostQ p) 57 2 1).recordErr 2 0x0A (precOr (s.precOfChan c)) unit 0 0 b.srcAsid inj
      done (s.failBurst c id 0x21 b.isFlush)

/-- HOST_TAG_RELEASE (R471): the quarantine of an expired tag ends. -/
def execHostTagRelease (p : Fin 2) (tag : Nat) (s : State) : Host.Outcome State Fault Refusal :=
  done (s.setPort p.val { s.port p.val with expired := drop (s.port p.val).expired tag })

/-! ### Links (R288, R350, R456) -/

/-- The link of a host port goes down: its bursts complete with LINK_DOWN. -/
def State.hostDown (s : State) (p : Nat) : State :=
  (s.setPort p { s.port p with linkUp := false, tags := [] }).failBursts 0x23 (Burst.onHost p)

/-- HOST_LINK_DOWN (R288). -/
def execHostLinkDown (p : Fin 2) (s : State) : Host.Outcome State Fault Refusal :=
  done (if (s.port p.val).linkUp then s.hostDown p.val else s)

/-- HOST_LINK_UP (R456): a width other than the one before is a class 1 record. -/
def execHostLinkUp (p : Fin 2) (width rate : Nat) (s : State) : Host.Outcome State Fault Refusal :=
  let p := p.val
  let x := s.port p
  if ¬ s.portsTrain ∨ x.perst ∨ s.err.held ∨ s.err.cutOff.contains (hostQ p) ∨ width ∉ [1, 2, 4, 8, 16] ∨ rate < 4 ∨ 7 < rate then done s
  else
    let s := s.setPort p { x with linkUp := true, width := width, rate := rate }
    done (if x.width = 0 ∨ x.width = width then s else s.recordErr 1 0x07 0xFF (qUnit (hostQ p) 0x18) 1 0 0 false)

/-- ROOT_PORT_LINK_UP (R350). -/
def execRootPortLinkUp (g : Qn) (width rate : Nat) (s : State) : Host.Outcome State Fault Refusal := done (s.rpUp g.val width rate)

end Sys2Proof.Machine
end

