-- ==== Sys2Proof/Machine/XimImage.lean ====
section
/-!
DEFINITION. The Ximinar image: its layout, and the checks of its sections in order (chapter "The Ximinar structure image"; R67–R90).
A failure is a status of Table 3.9, the TYPE of the failing section (0 outside the sections) and the index of the failing record.
-/
namespace Sys2Proof.Machine.Xim

/-- STATUS, SECTION and RECORD of a failure. -/
abbrev Fail := Nat × Nat × Nat

/-! ### Layout (Tables 3.1 and 3.2) -/

def kind (b : Bytes) : Nat := leAt b 6 1
def target (b : Bytes) : Nat := leAt b 7 1
def seq (b : Bytes) : Nat := leAt b 8 4
def baseSeq (b : Bytes) : Nat := leAt b 0x0C 4
def svn (b : Bytes) : Nat := leAt b 0x10 2
def count (b : Bytes) : Nat := leAt b 0x12 2
def bodyLen (b : Bytes) : Nat := leAt b 0x14 4
def sigLen (b : Bytes) : Nat := leAt b 0x18 4

/-- The signed bytes and the signature. -/
def body (b : Bytes) : Bytes := b.take (bodyLen b)
def sig (b : Bytes) : Bytes := (b.drop (bodyLen b)).take (sigLen b)

/-- A directory entry. -/
structure Sect where
  type : Nat
  res : Nat
  off : Nat
  len : Nat
  records : Nat
  deriving DecidableEq, Repr

/-- The directory. -/
def sects (b : Bytes) : List Sect :=
  (List.range (count b)).map fun i =>
    let o := 0x40 + 16 * i
    ⟨leAt b o 2, leAt b (o + 2) 2, leAt b (o + 4) 4, leAt b (o + 8) 4, leAt b (o + 12) 4⟩

/-- The record size of a section TYPE. -/
def recSize (t : Nat) : Nat := [0, 176, 8, 8, 8, 2624, 32, 32, 16, 8].getD t 0

/-- The records of the section of a TYPE. -/
def recordsOf (b : Bytes) (t : Nat) : List Bytes :=
  match (sects b).find? (fun x => x.type = t) with
  | none => []
  | some x => (List.range x.records).map fun i => slice b (x.off + i * recSize t) (recSize t)

/-- Sections lie in rising order from `from_`, aligned, apart, and end by `end_` (R68). -/
def ordered (from_ end_ : Nat) : List Sect → Bool
  | [] => decide (from_ ≤ end_)
  | x :: r => decide (from_ ≤ x.off) && decide (x.off % 8 = 0) && decide (x.off + x.len ≤ end_) && ordered (x.off + x.len) end_ r

/-- The bytes between sections, from `from_` to `end_`, are 0. -/
def gapsClean (b : Bytes) (from_ end_ : Nat) : List Sect → Bool
  | [] => allZero (slice b from_ (end_ - from_))
  | x :: r => allZero (slice b from_ (x.off - from_)) && gapsClean b (x.off + x.len) end_ r

/-- The sections of R67, once each. -/
def rightSects (full : Bool) (l : List Sect) : Bool :=
  let want : List Nat := [1, 2, 3, 4, 5, 6, 7] ++ (if full then [8] else []) ++ [9]
  decide (l.length = want.length) && want.all fun t =>
    match l.filter (fun x => x.type = t) with
    | [x] => decide (x.len = x.records * recSize t) && (decide (t ≠ 5 ∧ t ≠ 8) || decide (x.records = 1))
    | _ => false

/-- The header stage of R83: a status. `target` is the operation's precinct, none at cold boot. A full image at run time fails with
FULL_AT_RUNTIME (R94). -/
def headerStage (b : Bytes) (op : Option Nat) : Nat :=
  let l := sects b
  let dirEnd := 0x40 + 16 * count b
  if b.length < 0x40 ∨ leAt b 0 4 ≠ 0x4E4D4958 then 1
  else if op.isSome ∧ kind b = 1 then 0x0C
  else if kind b ≠ (if op.isSome then 2 else 1) ∨ target b ≠ op.getD 0 then 1
  else if b.length ≠ bodyLen b + sigLen b ∨ 0x10_0000 < bodyLen b ∨ bodyLen b < dirEnd ∨
      ¬ ordered dirEnd (bodyLen b) l ∨ ¬ rightSects op.isNone l then 1
  else if ¬ allZero (slice b 0x1C 36) ∨ l.any (fun x => x.res ≠ 0) ∨ ¬ gapsClean b dirEnd (bodyLen b) l then 3
  else 0

/-! ### Records -/

/-- PRECINCT_MAP (Table 3.3). -/
def precinctOf (r : Bytes) : Precinct where
  id := leAt r 0 1
  stalls := (List.range 48).map fun i => leAt r (8 + 2 * i) 2
  porter := leAt r 0x68 32
  share := (List.range 16).map fun i => leAt r (0x88 + i) 1
  bells := (List.range 4).map fun q => (nbits (leAt r (0x98 + 4 * q) 4) 11 0, nbits (leAt r (0x98 + 4 * q) 4) 24 12)

/-- A carve extent (Table 3.4). -/
def extentOf (r : Bytes) : Extent := ⟨leAt r 0 1, leAt r 1 1, leAt r 2 2, leAt r 4 2⟩

/-- STREET_BORDER (Table 3.5). -/
def borderOf (r : Bytes) : Border := ⟨leAt r 0 2, leAt r 2 1, leAt r 4 2, leAt r 6 1⟩

/-- SYNC_MAP (Table 3.6). -/
def syncOf (r : Bytes) : SyncMap where
  alley := (List.range 64).map fun i => leAt r i 1
  mask := (List.range 256).map fun i => leAt r (0x40 + i) 1
  device := (List.range 256).map fun i => leAt r (0x140 + i) 1
  priv := (List.range 4).map fun q => leAt r (0x240 + 512 * q) 512

/-- TOLL_TEMPLATE (Table 3.7). -/
def templateOf (r : Bytes) : Template where
  id := leAt r 0 1
  prec := leAt r 1 1
  port := leAt r 2 1
  cgFirst := leAt r 4 1
  cgCount := leAt r 5 1
  aggMax := leAt r 8 2
  queueMax := leAt r 0x0C 4
  cir := leAt r 0x10 4
  pir := leAt r 0x14 4
  cbs := leAt r 0x18 2
  pbs := leAt r 0x1A 2
  weight := leAt r 0x1C 2

/-- POOL_LIMITS (Table 3.8). -/
def poolOf (r : Bytes) : Pool where
  prec := leAt r 0 1
  flags := leAt r 1 1
  vf0 := leAt r 2 1
  vf1 := leAt r 3 1
  carter := leAt r 4 4
  ledger := leAt r 8 2
  cashbox := leAt r 0x0C 4
  flows := leAt r 0x10 4

/-! ### Relations between records -/

/-- Two precincts hold one stall, Porter channel or Bell counter. -/
def shares (a b : Precinct) : Bool :=
  ((List.range 48).any fun i => decide (a.stalls.getD i 0 &&& b.stalls.getD i 0 ≠ 0)) || decide (a.porter &&& b.porter ≠ 0) ||
  (List.range 4).any fun q =>
    let x := a.bells.getD q (0, 0)
    let y := b.bells.getD q (0, 0)
    decide (0 < x.2) && decide (0 < y.2) && decide (x.1 < y.1 + y.2) && decide (y.1 < x.1 + x.2)

/-- Two extents share a piece. -/
def meet (a b : Extent) : Bool := decide (a.unit = b.unit) && decide (a.base < b.base + b.size) && decide (b.base < a.base + a.size)

/-- Two templates share a class group. -/
def cgMeet (a b : Template) : Bool :=
  decide (a.port = b.port) && decide (a.cgFirst < b.cgFirst + b.cgCount) && decide (b.cgFirst < a.cgFirst + a.cgCount)

/-- Two border routes share a stall port. -/
def portMeet (a b : Border) : Bool :=
  (decide (a.srcStall = b.srcStall) && decide (a.srcPort = b.srcPort)) || (decide (a.dstStall = b.dstStall) && decide (a.dstPort = b.dstPort))

/-- The precinct of a list that holds a stall. -/
def holder (ps : List Precinct) (st : Nat) : Option Nat := (ps.find? fun p => p.hasStall st).map (·.id)

/-- A border route touches a precinct. -/
def touches (ps : List Precinct) (b : Border) (t : Nat) : Bool :=
  decide (holder ps b.srcStall = some t) || decide (holder ps b.dstStall = some t)

/-! ### Sections -/

/-- Fails with a status unless the condition holds. -/
def must (c : Bool) (e : Nat) : Except Nat Unit := if c then .ok () else .error e

/-- The records of a section, checked one by one. -/
def fold {β : Type} (type : Nat) (f : β → Bytes → Except Nat β) : Nat → List Bytes → β → Except Fail β
  | _, [], acc => .ok acc
  | i, r :: rs, acc =>
    match f acc r with
    | .ok acc => fold type f (i + 1) rs acc
    | .error e => .error (e, type, i)

/-- What the sections are checked against: the target of a partial image, and the configuration in force without the target's own
sections (empty for a full image). -/
structure Base where
  target : Option Nat
  conf : XimConf
  inForce : XimConf

/-- A record of a per-precinct section may name precinct `p` (R85). -/
def Base.names (b : Base) (ids : List Nat) (p : Nat) : Bool :=
  ids.contains p && (match b.target with | some t => decide (p = t) | none => true)

/-- PRECINCT_MAP (R70, R71, R86, R90). -/
def precRec (b : Base) (acc : List Precinct) (r : Bytes) : Except Nat (List Precinct) := do
  let p := precinctOf r
  must (decide (p.id < 64) && allZero (slice r 1 7) && allZero (slice r 0xA8 8)) 3
  must (match b.target with | some t => decide (p.id = t) | none => true) 3
  must ((List.range 48).all fun i => decide (p.stalls.getD i 0 < 2 ^ kindCount (i % 12))) 3
  must ((List.range 4).all fun q =>
    let x := p.bells.getD q (0, 0)
    decide (nbits (leAt r (0x98 + 4 * q) 4) 31 25 = 0) && decide (x.1 + x.2 ≤ 4096)) 3
  must (acc.all fun x => x.id ≠ p.id) 3
  must (acc.all fun x => !shares x p) 4
  must (b.conf.precincts.all fun x => !shares x p) 8
  let all := b.conf.precincts ++ acc ++ [p]
  must ((List.range 16).all fun n => decide ((all.map fun x => x.share.getD n 0).sum ≤ 240)) 5
  return acc ++ [p]

/-- SQUARE_CARVE (R74). -/
def squareRec (b : Base) (ids : List Nat) (acc : List Extent) (r : Bytes) : Except Nat (List Extent) := do
  let e := extentOf r
  must (b.names ids e.prec && decide (e.unit < 4) && decide (128 ≤ e.base) && decide (1 ≤ e.size) && decide (e.size ≤ 256) &&
    decide (e.base + e.size ≤ 384) && allZero (slice r 6 2)) 3
  must (acc.all fun x => !meet x e) 4
  must (b.conf.square.all fun x => !meet x e) 8
  return acc ++ [e]

/-- WAREHOUSE_CARVE (R74). -/
def whRec (b : Base) (ids : List Nat) (acc : List Extent) (r : Bytes) : Except Nat (List Extent) := do
  let e := extentOf r
  must (b.names ids e.prec && decide (e.unit < 12) && decide (1 ≤ e.base) && decide (1 ≤ e.size) && decide (e.base + e.size ≤ 64) &&
    allZero (slice r 6 2)) 3
  must (acc.all fun x => !meet x e) 4
  must (b.conf.warehouse.all fun x => !meet x e) 8
  return acc ++ [e]

/-- STREET_BORDER (R75, R90). -/
def borderRec (b : Base) (ps : List Precinct) (acc : List Border) (r : Bytes) : Except Nat (List Border) := do
  let x := borderOf r
  must (allZero (slice r 3 1) && allZero (slice r 7 1) && stallOk x.srcStall && stallOk x.dstStall &&
    decide (stallQ x.srcStall = stallQ x.dstStall) && decide (x.srcPort < streetOut (stallKind x.srcStall)) &&
    decide (x.dstPort < streetIn (stallKind x.dstStall)) && (holder ps x.srcStall).isSome && (holder ps x.dstStall).isSome &&
    decide (holder ps x.srcStall ≠ holder ps x.dstStall)) 3
  must (match b.target with | some t => touches ps x t | none => true) 3
  must (acc.all fun y => !portMeet x y) 4
  must (b.target.isNone || b.inForce.borders.contains x) 8
  return acc ++ [x]

/-- An owner entry of a partial image concerns the target or firmware, or stays as it is (R90). -/
def ownerKept (t old new : Nat) : Bool := decide (old = new) || ((decide (old = t) || decide (old = 0xFF)) && (decide (new = t) || decide (new = 0xFF)))

/-- SYNC_MAP (R77, R78, R90). -/
def syncRec (b : Base) (ids : List Nat) (others : List Precinct) (_ : SyncMap) (r : Bytes) : Except Nat SyncMap := do
  let m := syncOf r
  let owners := m.alley ++ m.mask ++ m.device
  must (owners.all fun o => decide (o = 0xFF) || (decide (o < 64) && ids.contains o)) 3
  match b.target with
  | none => return m
  | some t =>
    let f := b.inForce.sync
    let kept (n : Nat) (old new : List Nat) : Bool := (List.range n).all fun i => ownerKept t (old.getD i 0xFF) (new.getD i 0xFF)
    must (kept 64 f.alley m.alley && kept 256 f.mask m.mask && kept 256 f.device m.device) 8
    must ((List.range 4).all fun q =>
      others.all fun p =>
        let x := p.bells.getD q (0, 0)
        (f.priv.getD q 0) / 2 ^ x.1 % 2 ^ x.2 = (m.priv.getD q 0) / 2 ^ x.1 % 2 ^ x.2) 8
    return m

/-- TOLL_TEMPLATE (R79). -/
def tollRec (b : Base) (ids : List Nat) (ps : List Precinct) (borders : List Border) (acc : List Template) (r : Bytes) :
    Except Nat (List Template) := do
  let t := templateOf r
  let server := holder ps (stallId t.port 8 0)
  let joined := borders.any fun x =>
    (decide (holder ps x.srcStall = some t.prec) && decide (holder ps x.dstStall = server)) ||
    (decide (holder ps x.dstStall = some t.prec) && decide (holder ps x.srcStall = server))
  must (b.names ids t.prec && decide (t.port < 4) && allZero (slice r 3 1) && allZero (slice r 6 2) && allZero (slice r 0x0A 2) &&
    allZero (slice r 0x1E 2) && decide (1 ≤ t.cgCount) && decide (t.cgFirst + t.cgCount ≤ 64) && decide (1 ≤ t.aggMax) &&
    decide (t.aggMax ≤ 4096) && decide (1 ≤ t.queueMax) && decide (t.queueMax ≤ 262144) && decide (t.cir ≤ t.pir) &&
    decide (1 ≤ t.cbs) && decide (t.cbs ≤ t.pbs) && decide (1 ≤ t.weight)) 3
  must (server.isSome && (decide (server = some t.prec) || joined)) 3
  must (acc.all fun x => x.id ≠ t.id) 3
  must (acc.all fun x => !cgMeet x t) 4
  must (b.conf.templates.all fun x => !cgMeet x t) 8
  let all := (b.conf.templates ++ acc ++ [t]).filter fun x => x.port = t.port
  must (decide ((all.map (·.aggMax)).sum ≤ 4096) && decide ((all.map (·.queueMax)).sum ≤ 262144)) 5
  return acc ++ [t]

/-- POOL_LIMITS (R80). -/
def poolRec (b : Base) (ids : List Nat) (acc : List Pool) (r : Bytes) : Except Nat (List Pool) := do
  let p := poolOf r
  must (b.names ids p.prec && decide (p.flags < 4) && decide (p.carter ≤ 2 ^ 20) && decide (p.ledger ≤ 4096) &&
    decide (p.cashbox ≤ 2 ^ 20) && decide (p.flows ≤ 33554432) && allZero (slice r 0x0A 2) && allZero (slice r 0x14 12)) 3
  must (acc.all fun x => x.prec ≠ p.prec) 3
  must (acc.all fun x => decide (x.flags &&& p.flags = 0)) 4
  must (b.conf.pools.all fun x => decide (x.flags &&& p.flags = 0)) 8
  let all := b.conf.pools ++ acc ++ [p]
  let fits (g : Pool → Nat) (most : Nat) : Bool := decide ((all.map g).sum ≤ most)
  must (fits (·.vf0) 255 && fits (·.vf1) 255 && fits (·.carter) (2 ^ 20) && fits (·.ledger) 4096 && fits (·.cashbox) (2 ^ 20) &&
    fits (·.flows) 33554432) 5
  return acc ++ [p]

/-- TEST_PRIV (R81). -/
def testRec (_ : Bool) (r : Bytes) : Except Nat Bool := do
  let on := nbit (leAt r 0 4) 0
  must (decide (leAt r 0 4 < 2) && allZero (slice r 4 4)) 3
  must (decide (leAt r 8 8 = if on then Config.deviceId % 2 ^ 64 else 0)) 0x0B
  return on

/-- COUNTER_DEFAULTS (R82). Classes above 5 are not named by the counter map. -/
def ctrRec (b : Base) (ids : List Nat) (acc : List (Nat × Nat)) (r : Bytes) : Except Nat (List (Nat × Nat)) := do
  let p := leAt r 0 1
  must (b.names ids p && allZero (slice r 1 3) && decide (leAt r 4 4 < 64)) 3
  must (acc.all fun x => x.1 ≠ p) 3
  return acc ++ [(p, leAt r 4 4)]

/-- Every precinct has a POOL_LIMITS record (R80). -/
def pooled (ps : List Precinct) (pools : List Pool) : Bool := ps.all fun p => pools.any fun x => x.prec = p.id

/-- The sections of an image, in the order of Table 3.2: the configuration it puts in force (R83, R86, R90). A partial image that
retires its target carries no PRECINCT_MAP record; `retire` then lets its other records name the target, for the check of R96. -/
def sections (img : Bytes) (b : Base) (retire : Bool) : Except Fail XimConf := do
  let ps ← fold 1 (precRec b) 0 (recordsOf img 1) []
  let all := b.conf.precincts ++ ps
  let ids := all.map (·.id) ++ (if retire then b.target.toList else [])
  let sq ← fold 2 (squareRec b ids) 0 (recordsOf img 2) []
  let wh ← fold 3 (whRec b ids) 0 (recordsOf img 3) []
  let bo ← fold 4 (borderRec b all) 0 (recordsOf img 4) []
  let kept := b.inForce.borders.filter fun x => match b.target with | some t => touches b.inForce.precincts x t | none => false
  if kept.any (fun x => !bo.contains x) ∧ ¬ retire then throw (8, 4, 0)
  let borders := if b.target.isSome then b.inForce.borders else bo
  let sy ← fold 5 (syncRec b ids b.conf.precincts) 0 (recordsOf img 5) {}
  let tt ← fold 6 (tollRec b ids all borders) 0 (recordsOf img 6) []
  let pl ← fold 7 (poolRec b ids) 0 (recordsOf img 7) []
  if !pooled all (b.conf.pools ++ pl) then throw (1, 7, 0)
  let tp ← if b.target.isSome then pure b.inForce.testPriv else fold 8 testRec 0 (recordsOf img 8) false
  let ct ← fold 9 (ctrRec b ids) 0 (recordsOf img 9) []
  return {
    precincts := all, square := b.conf.square ++ sq, warehouse := b.conf.warehouse ++ wh, borders := borders, sync := sy
    templates := b.conf.templates ++ tt, pools := b.conf.pools ++ pl, testPriv := tp, counters := b.conf.counters ++ ct }

/-- A configuration without a precinct's own sections. -/
def without (c : XimConf) (t : Nat) : XimConf :=
  { c with
    precincts := c.precincts.filter (·.id ≠ t), square := c.square.filter (·.prec ≠ t), warehouse := c.warehouse.filter (·.prec ≠ t)
    templates := c.templates.filter (·.prec ≠ t), pools := c.pools.filter (·.prec ≠ t), counters := c.counters.filter (·.1 ≠ t) }

/-- No record of the image names the target, and no owner entry (R96). -/
def retires (img : Bytes) (c : XimConf) (t : Nat) : Bool :=
  ([2, 3, 4, 6, 7, 9] : List Nat).all (fun n => (recordsOf img n).isEmpty) &&
  (c.sync.alley ++ c.sync.mask ++ c.sync.device).all (· ≠ t) && c.borders.all fun x => !touches c.precincts x t

end Sys2Proof.Machine.Xim
end

