-- ==== Sys2Proof/Machine/Ximinar.lean ====
section
/-!
DEFINITION. Loading structure images: the full image of a cold boot, and the partial reload of one precinct (R83–R97, Table 3.10).
-/
namespace Sys2Proof.Machine

/-! ### Validation and what is in use (R83, R88, R91, R96) -/

/-- SEQ of XIM_INFORCE. -/
def State.ximSeq (s : State) : Nat := s.fget ⟨.ximInforce, 0, 0⟩ F.ximInforce_SEQ

/-- An image checked in the order of R83: whether an injection made it fail, and the failure or the configuration. `op` is the target
precinct of a partial reload, none at cold boot. -/
def State.ximValidate (s : State) (img : Bytes) (op : Option Nat) : State × Bool × Except Xim.Fail XimConf :=
  let h := Xim.headerStage img op
  if h ≠ 0 then (s, false, .error (h, 0, 0))
  else if leAt img 5 1 ≠ 1 then (s, false, .error (0x7F, 0, 0))
  else
    match s.sigOk [ownerImageKey s.owner] (Xim.body img) (Xim.sig img) with
    | (s, false, inj) => (s, inj, .error (2, 0, 0))
    | (s, true, _) =>
      let v := svnStatus (Xim.svn img) s.sec.fuses.svnImage
      let stale := match op with
        | none => decide (Xim.baseSeq img ≠ 0)
        | some _ => decide (Xim.baseSeq img ≠ s.ximSeq) || decide (Xim.seq img ≤ s.ximSeq)
      if v ≠ 0 then (s, false, .error (v, 0, 0))
      else if stale then (s, false, .error (7, 0, 0))
      else
        let old := s.xim.conf
        let none_ := (Xim.recordsOf img 1).isEmpty
        match op with
        | none => (s, false, Xim.sections img ⟨none, {}, {}⟩ false)
        | some t =>
          if none_ ∧ (s.precinct t).isNone then (s, false, .error (1, 1, 0))
          else (s, false, Xim.sections img ⟨some t, Xim.without old t, old⟩ none_)

/-- Pages that a page table maps in device memory: physical address and bytes (R91, R260). -/
def State.mapped (s : State) : List Nat → Nat → List (Nat × Nat)
  | [], _ => []
  | level :: rest, table =>
    (List.range 512).flatMap fun i =>
      let e := s.num (table + 8 * i) 8
      let first := s.num (table + i / 16 * 16 * 8) 8
      let covered := decide (level = 0) && decide (i % 16 ≠ 0) && nbit first 0 && nbit first 7
      if !nbit e 0 || !pteOk e level || covered then []
      else if nbit e 1 then s.mapped rest (pteAddr e)
      else if e / 2 ^ 60 = 0 then [(pteAddr e, 2 ^ leafShift e level)] else []

/-- Pages that some Surveyor maps for an ASID. -/
def State.pagesOf (s : State) (asid : Nat) : List (Nat × Nat) :=
  ((List.range 4).map fun q => s.num (s.ctxAddr q asid) 8).dedup.flatMap fun root =>
    if nbit root 0 then s.mapped [3, 2, 1, 0] (pteAddr root) else []

/-- An instance of precinct `t` uses something that the precinct loses when `s'` holds the new configuration (R91). -/
def State.loses (s s' : State) (t : Nat) : Bool :=
  let had (st : Nat) : Bool := decide (s.precOfStall st = some t) && decide (s'.precOfStall st ≠ some t)
  let fs := s.instancesOf t
  let asids := fs.filterMap fun f => (s.inst f).map (·.asid)
  let dockets := fs.flatMap fun f => match s.inst f with | some i => i.dockets | none => []
  let groups (port i : Nat) : Bool := (s'.templates t port).any fun x => decide (x.cgFirst ≤ i) && decide (i < x.cgFirst + x.cgCount)
  (asids.any fun a => (s.pagesOf a).any fun p => !s'.carveHolds t p.1 p.2) ||
  !s'.quotaOk {
    prec := t, asid := 0, whGib := 0, sqMib := 0, carterConn := 0, ledgerQ := 0, cashboxCtx := 0, counterMask := 0 } ||
  (fs.any fun f => decide (f % 256 = 0) && !s'.mayBind t f) ||
  ((List.range 2).any fun p => (s.func (256 * p)).vfEnable &&
    decide ((s.xim.conf.pools.find? (fun x => x.prec = t)).map (fun x => if p = 0 then x.vf0 else x.vf1) ≠
      (s'.xim.conf.pools.find? (fun x => x.prec = t)).map (fun x => if p = 0 then x.vf0 else x.vf1))) ||
  (s.carter.ctxs.any fun x => decide (x.2.state ≠ 0) && decide (x.2.func.any fs.contains) && had (stallId x.2.stall 9 0)) ||
  (s.ledger.queues.any fun x => decide (x.2.prec = t) && (had (stallId x.2.stall 10 0) || (x.2.dbBell && !s'.mayName t x.2.dbCtr))) ||
  (s.cash.ctxs.any fun x => match x.2.active with | some st => had st | none => false) ||
  (s.eth.rings.any fun x => x.2.tx && fs.contains x.2.func && had (stallId (x.2.target / 2 ^ 18) 8 0)) ||
  (s.eth.nodes.any fun x =>
    let k := Nat.unpair x.1
    let l := Nat.unpair k.2
    decide (x.2.prec = t) && decide (l.1 = 1) && !groups k.1 l.2) ||
  (dockets.any fun d => d.bound.any fun b => decide (s'.precOfBell (b.2 / 4096) (b.2 % 4096) ≠ some t)) ||
  (List.range 256).any fun c => decide (s.precOfChan c = some t) && decide (s'.precOfChan c ≠ some t) && (s.chan c).busy

/-- The configuration in force replaced. -/
def State.setConf (s : State) (c : XimConf) : State := { s with xim := { s.xim with conf := c } }

/-- BELL_CNT_CFG.PRIV of the counters of a Quarter, as an image load sets it (R72, R78). -/
def State.privSync (s : State) (q : Nat) : State :=
  let mask := s.xim.conf.sync.priv.getD q 0
  forNat 4096 s fun s n =>
    s.fset ⟨.bellCntCfg, q, n⟩ F.bellCntCfg_PRIV (b2n ((s.precOfBell q n).isNone || nbit mask n))

/-- A partial image whose sections are right, against what its target uses (R91, R96). -/
def State.ximInUse (s : State) (img : Bytes) (t : Nat) (c : XimConf) : Bool :=
  if (s.precinct t).isNone then false
  else if (Xim.recordsOf img 1).isEmpty then !Xim.retires img { c with precincts := s.xim.conf.precincts } t || !(s.instancesOf t).isEmpty
  else s.loses (s.setConf c) t

/-! ### Answers -/

/-- XIM_PREC_STATE of a precinct. -/
def State.precState (s : State) (p : Nat) : Nat := s.fget ⟨.ximPrecState, p, 0⟩ F.ximPrecState_STATE
def State.setPrecState (s : State) (p v : Nat) : State := s.fset ⟨.ximPrecState, p, 0⟩ F.ximPrecState_STATE v

/-- BUSY of XIM_LOAD_STATUS follows what is in progress. -/
def State.ximSync (s : State) : State :=
  s.fset ⟨.ximLoadStatus, 0, 0⟩ F.ximLoadStatus_BUSY (b2n (!s.xim.quiesce.isEmpty || s.xim.load.isSome))

/-- The message at the head of a Kiosk that firmware has in hand answered. -/
def State.answerHead (s : State) (by_ : Option Nat) (type status detail : Nat) (body : Bytes) : State :=
  match by_ with
  | none => s
  | some f =>
    let x := s.func f
    let m := slice ((look x.h2d (x.h2dHead % 16)).getD []) 0 64
    if !x.isOpen || decide (x.h2dHead = x.h2dTail) || decide (mType m ≠ type) then s else s.reply f m status detail body

/-- An image operation ends: XIM_LOAD_STATUS, and the reply of the message that asked for it. -/
def State.ximEnd (s : State) (p : Nat) (r : Xim.Fail) (by_ : Option Nat) : State :=
  let st : Reg := ⟨.ximLoadStatus, 0, 0⟩
  let s := ((s.fset st F.ximLoadStatus_STATUS r.1).fset st F.ximLoadStatus_SECTION r.2.1).fset st F.ximLoadStatus_RECORD r.2.2
  ((s.fset st F.ximLoadStatus_PRECINCT p).ximSync).answerHead by_ 0x0120 (if r.1 = 0 then 0 else 8) r.1 []

/-! ### Quiesce, load and resume (R92, R94, R96) -/

/-- What an image operation that cannot start does: a register write is a stray one, a message is answered BUSY. -/
def State.ximBusy (s : State) (rq : Option Requester) (by_ : Option Nat) : State :=
  match rq with
  | some rq => s.refuse rq ⟨.ximLoadCtrl, 0, 0⟩
  | none => s.answerHead by_ 0x0120 2 0 []

/-- OP 01: QUIESCE (Table 3.10, step 1). -/
def State.ximQuiesce (s : State) (rq : Option Requester) (by_ : Option Nat) (p : Nat) : State :=
  match s.precState p with
  | 0 | 3 => s.ximEnd p (0, 0, 0) by_
  | 1 =>
    let s := { s.setPrecState p 2 with xim := { s.xim with quiesce := s.xim.quiesce ++ [(p, by_)] } }
    (s.fset ⟨.ximLoadStatus, 0, 0⟩ F.ximLoadStatus_PRECINCT p).ximSync
  | _ => s.ximBusy rq by_

/-- OP 10: LOAD (R94). -/
def State.ximLoad (s : State) (rq : Option Requester) (by_ : Option Nat) (p len : Nat) : State :=
  if !s.xim.quiesce.isEmpty || s.xim.load.isSome then s.ximBusy rq by_
  else if s.precState p ≠ 0 ∧ s.precState p ≠ 3 then s.ximEnd p (0x0A, 0, 0) by_
  else
    let l : XimLoad := { target := p, addr := s.fget ⟨.ximLoadAddr, 0, 0⟩ F.ximLoadAddr_ADDR * 8, length := len, by_ := by_ }
    let s := { s.setPrecState p 4 with xim := { s.xim with load := some l } }
    (s.fset ⟨.ximLoadStatus, 0, 0⟩ F.ximLoadStatus_PRECINCT p).ximSync

/-- OP 11: RESUME (R96). -/
def State.ximResume (s : State) (by_ : Option Nat) (p : Nat) : State :=
  if s.precState p = 3 then (s.setPrecState p 1).ximEnd p (0, 0, 0) by_ else s.ximEnd p (0x0A, 0, 0) by_

/-- An image operation by OP code. -/
def State.ximOp (s : State) (rq : Option Requester) (by_ : Option Nat) (op p len : Nat) : State :=
  match op with
  | 1 => s.ximQuiesce rq by_ p
  | 2 => s.ximLoad rq by_ p len
  | 3 => s.ximResume by_ p
  | _ => s

/-- XIM_LOAD_CTRL written. -/
def State.ximCtrlWrite (s : State) (rq : Requester) (v : W64) : State :=
  if rqKernel rq then
    s.ximOp (some rq) none (bitsOf v F.ximLoadCtrl_OP) (bitsOf v F.ximLoadCtrl_PRECINCT) (bitsOf v F.ximLoadCtrl_LENGTH)
  else s.refuse rq ⟨.ximLoadCtrl, 0, 0⟩

/-- The IMAGE_OP message at the head of a Kiosk, if it asks for OP `op`. One whose operation is in progress stays there. -/
def State.ximMsg (s : State) (f op : Nat) : State :=
  match s.takeMsg f 0x0120 16 with
  | .error s => s
  | .ok m =>
    let p := mNum m 1 1
    let len := mNum m 4 4
    let a := mNum m 8 8
    let busy := s.xim.quiesce.any (fun x => x.2 = some f) || (match s.xim.load with | some l => decide (l.by_ = some f) | none => false)
    if busy then s
    else if mNum m 0 1 = 0 ∨ 3 < mNum m 0 1 ∨ 64 ≤ p ∨ ¬ mZero m 2 2 ∨ 2 ^ 24 ≤ len ∨ a % 8 ≠ 0 ∨ 2 ^ 57 ≤ a then s.reply f m 1 0 []
    else if mNum m 0 1 ≠ op then s
    else
      let s := if op = 2 then s.fset ⟨.ximLoadAddr, 0, 0⟩ F.ximLoadAddr_ADDR (a / 8) else s
      s.ximOp none (some f) op p len

/-- An image operation asked for by a register write or a message. -/
def State.ximFrom (s : State) (src : XimSrc) (op : Nat) : State :=
  match src with
  | .reg rq v => if bitsOf v F.ximLoadCtrl_OP = op then s.ximCtrlWrite rq v else s
  | .msg f => s.ximMsg f.val op

/-- XIM_QUIESCE (Table 3.10, step 1). -/
def execXimQuiesce (src : XimSrc) (s : State) : Host.Outcome State Fault Refusal := done (s.ximFrom src 1)

/-- XIM_LOAD (Table 3.10, step 3). -/
def execXimLoad (src : XimSrc) (s : State) : Host.Outcome State Fault Refusal := done (s.ximFrom src 2)

/-- XIM_RESUME (Table 3.10, step 6). -/
def execXimResume (src : XimSrc) (s : State) : Host.Outcome State Fault Refusal := done (s.ximFrom src 3)

/-- Precinct `p` holds no work (R92): its dockets have completed, have parked or have not started; its channels are parked, halted
or idle; its queues' commands in flight have completed; its stalls hold none. -/
def State.quiet (s : State) (p : Nat) : Bool :=
  let fs := s.instancesOf p
  (fs.all fun f => match s.inst f with
    | some i => i.dockets.all fun d => d.parked || d.held || d.phases.all (fun x => decide (x = .waiting))
    | none => true) &&
  ((List.range 256).all fun c => decide (s.precOfChan c ≠ some p) || ([0, 4, 5, 6] : List Nat).contains (s.chanState c)) &&
  (s.ledger.queues.all fun x => decide (x.2.prec ≠ p) || x.2.cmds.isEmpty) &&
  (s.carter.ctxs.all fun x => !x.2.func.any fs.contains || (x.2.unacked.isEmpty && x.2.orders.all (·.dormant))) &&
  (s.stall.tasks.all fun x => decide (s.precOfStall x.1 ≠ some p) || x.2.isEmpty) &&
  (s.stall.pieces.all fun x => decide (s.precOfStall x.stall ≠ some p)) &&
  s.inv.ops.all fun o => !fs.contains o.func

/-- XIM_QUIESCE_DONE (Table 3.10, step 2). -/
def execXimQuiesceDone (p : PrecNo) (s : State) : Host.Outcome State Fault Refusal :=
  match s.xim.quiesce.find? (fun x => x.1 = p.val) with
  | none => done s
  | some (_, by_) =>
    if s.quiet p.val then
      let s := { s.setPrecState p.val 3 with xim := { s.xim with quiesce := s.xim.quiesce.filter fun x => x.1 ≠ p.val } }
      done (s.ximEnd p.val (0, 0, 0) by_)
    else done s

/-- XIM_QUIESCE_TIMEOUT (Table 3.10, step 2): the limit of XIM_QUIESCE_LIMIT has passed. -/
def execXimQuiesceTimeout (p : PrecNo) (s : State) : Host.Outcome State Fault Refusal :=
  match s.xim.quiesce.find? (fun x => x.1 = p.val) with
  | none => done s
  | some (_, by_) =>
    let s := { s.setPrecState p.val 1 with xim := { s.xim with quiesce := s.xim.quiesce.filter fun x => x.1 ≠ p.val } }
    done (s.ximEnd p.val (0x0A, 0, 0) by_)

/-- A configuration put in force (R93): stalls that the target loses go idle. -/
def State.ximApply (s : State) (img : Bytes) (t : Nat) (c : XimConf) : State :=
  let freed := (List.range 1024).filter fun st => stallOk st && decide (s.precOfStall st = some t)
  let s := forNat 4 (s.setConf c) fun s q => s.privSync q
  let s := freed.foldl (fun s st =>
    if s.precOfStall st = some t ∨ s.stallFenced st then s else s.fset ⟨.stallState, st, 0⟩ F.stallState_STATE 0) s
  let s := { s with xim := { s.xim with partials := Xim.body img :: s.xim.partials } }
  (s.fset ⟨.ximInforce, 0, 0⟩ F.ximInforce_SEQ (Xim.seq img)).setPrecState t (if (s.precinct t).isSome then 3 else 0)

/-- XIM_LOAD_COMMIT (Table 3.10, steps 4 and 5; R95): the image is read at its device physical address and checked, and its
sections are put in force at once. -/
def execXimLoadCommit (s : State) : Host.Outcome State Fault Refusal :=
  match s.xim.load with
  | none => done s
  | some l =>
    let back (s : State) (r : Xim.Fail) : State :=
      let s := { s with xim := { s.xim with load := none } }
      (s.setPrecState l.target (if (s.precinct l.target).isSome then 3 else 0)).ximEnd l.target r l.by_
    if l.aborted then done (back s (0x0D, 0, 0))
    else
      let (s, img, bad) := s.readMem 0xFF (0x8000 + 16) 0 l.addr l.length
      let refuse (s : State) (r : Xim.Fail) (inj : Bool) : State := back (s.loadRefused r.1 inj) r
      if bad then done (refuse s (1, 0, 0) false)
      else match s.ximValidate img (some l.target) with
        | (s, inj, .error r) => done (refuse s r inj)
        | (s, _, .ok c) =>
          if s.ximInUse img l.target c then done (refuse s (9, 0, 0) false)
          else
            let s := { s.ximApply img l.target c with xim := { (s.ximApply img l.target c).xim with load := none } }
            done (s.ximEnd l.target (0, 0, 0) l.by_)

/-! ### The full image of a cold boot (R76, R88, R89) -/

/-- A border route in the lowest free entry of its Quarter's route table (R76). -/
def State.borderSetup (s : State) (b : Border) : State :=
  let q := stallQ b.srcStall
  match (List.range 256).find? fun n => !s.routeActive q n with
  | none => s
  | some n =>
    let r := routeReg q n
    let s := ((s.fset r F.streetRoute_SRC_STALL b.srcStall).fset r F.streetRoute_SRC_PORT b.srcPort).fset r F.streetRoute_DST_STALL b.dstStall
    ((((s.fset r F.streetRoute_DST_PORT b.dstPort).fset r F.streetRoute_PRECINCT ((s.precOfStall b.srcStall).getD 0)).fset r
      F.streetRoute_BORDER 1).fset r F.streetRoute_VALID 1).fset r F.streetRoute_ACTIVE 1

/-- The full image of slot `n` put in force. -/
def State.ximBoot (s : State) (n : Nat) (img : Bytes) (c : XimConf) : State :=
  let r : Reg := ⟨.ximInforce, 0, 0⟩
  let s := forNat 4 (s.setConf c) fun s q => s.privSync q
  let s := { s with xim := { s.xim with body := Xim.body img, partials := [] } }
  let s := ((s.fset r F.ximInforce_SEQ (Xim.seq img)).fset r F.ximInforce_SVN (Xim.svn img)).fset r F.ximInforce_SLOT n
  let s := c.precincts.foldl (fun s p => s.setPrecState p.id 1) s
  c.borders.foldl (fun s b => s.borderSetup b) s

/-- The image slots in the order they are tried, the higher SEQ first. -/
def State.ximOrder (s : State) : List Nat := if Xim.seq (s.imageSlot 0) < Xim.seq (s.imageSlot 1) then [1, 0] else [0, 1]

/-- The first slot whose image passes; none where neither does. -/
def State.ximLoadBoot (s : State) : State × Bool :=
  s.ximOrder.foldl (fun x n =>
    if x.2 then x
    else match x.1.ximValidate (x.1.imageSlot n) none with
      | (s, _, .ok c) => (s.ximBoot n (s.imageSlot n) c, true)
      | (s, inj, .error r) =>
        let s := s.loadRefused r.1 inj
        let st : Reg := ⟨.ximLoadStatus, 0, 0⟩
        (((s.fset st F.ximLoadStatus_STATUS r.1).fset st F.ximLoadStatus_SECTION r.2.1).fset st F.ximLoadStatus_RECORD r.2.2, false))
    (s, false)

end Sys2Proof.Machine
end

