-- ==== Sys2Proof/Machine/Live.lean ====
section
/-!
DEFINITION. What power, removal and live activation share: the notification of a power change, the start and cancelling of a
removal, and the end of a live activation (R515, R593, R597, R598).
-/
namespace Sys2Proof.Machine

abbrev pwrStatus : Reg := ⟨.pwrStatus, 0, 0⟩
abbrev fwStateReg : Reg := ⟨.fwState, 0, 0⟩

/-- The running slot. -/
def State.running (s : State) : Nat := s.fget fwStateReg F.fwState_RUNNING

/-- Line 7 in every Guildhall not fenced, and an EVENT to every manager session (R593). CODE is PWR_STATUS bits 31:0 with SLEWING
clear, as Table 26.9 shows it. -/
def State.pwrNotify (s : State) : State :=
  let s := forNat 4 s fun s q => if s.qFenced q then s else s.raiseLine q 7
  s.eventManagers 0x000A 0 ((setBits (s.rd pwrStatus) F.pwrStatus_SLEWING 0).toNat % 2 ^ 32)

/-- PWR_STATUS.REMOVE changed (R593). -/
def State.setRemove (s : State) (v : Nat) : State := (s.fset pwrStatus F.pwrStatus_REMOVE v).pwrNotify

/-- A live activation is in progress. -/
def State.activating (s : State) : Bool := s.fw.act.isSome

/-- A removal cancelled: fetch resumes and READY_N goes low (R597). -/
def State.removeCancel (s : State) : State :=
  (({ s with pwr := { s.pwr with removeHeld := false } } : State).setRemove 0).emit (.pin "READY_N" false)

/-- A removal request of any kind: it starts the drain, is held until a live activation ends (R598), or cancels a removal already
asked for (R597). -/
def State.removeRequest (s : State) : State :=
  if s.fget pwrStatus F.pwrStatus_REMOVE ≠ 0 then s.removeCancel
  else if s.activating then { s with pwr := { s.pwr with removeHeld := !s.pwr.removeHeld } }
  else s.setRemove 1

/-- A live activation ends with a STATUS and DETAIL of Table 21.3: fetch resumes, the manager is answered, and a removal held for it
starts (R598). Over PLDM any outcome but OK maps to ACTIVATION_NOT_REQUIRED (R613). -/
def State.fwEnd (s : State) (status detail : Nat) : State :=
  let s := (s.fset fwStateReg F.fwState_LAST_STATUS status).fset fwStateReg F.fwState_LAST_DETAIL detail
  let s := s.fset fwStateReg F.fwState_PHASE 0
  match s.fw.act with
  | none => s
  | some a =>
    let s := { s with fw := { s.fw with act := none } }
    let s := s.answerHead a.by_ 0x0130 status detail []
    let s := if a.pldm then s.emit (.sideband 1 [BitVec.ofNat 8 (if status = 0 then 0 else 0x8B)]) else s
    let s := [0x000, 0x100].foldl (fun s f => s.sweepKiosk f 16) s
    if s.pwr.removeHeld then ({ s with pwr := { s.pwr with removeHeld := false } } : State).setRemove 1 else s

end Sys2Proof.Machine
end

