-- ==== Sys2Proof/Machine/Firmware.lean ====
section
/-!
DEFINITION. Firmware and live update: activation, the handover record, service modules, the kernel's periods and the precinct reset
(chapter "Firmware and live update"; R508–R518, R606).
-/
namespace Sys2Proof.Machine

/-! ### Firmware images (R513, R601) -/

/-- A firmware image checked: a status of Table 3.9, and whether an injection made it fail. -/
def State.fwCheck (s : State) (img : Bytes) : State × Nat × Bool :=
  match (if leAt img 0 4 = 0x4B57_4148 then Config.fwHeader img else none) with
  | none => (s, 1, false)
  | some (svn, n) =>
    match s.sigOk s.fwKeys (img.take n) (img.drop n) with
    | (s, false, inj) => (s, 2, inj)
    | (s, true, _) => (s, svnStatus svn s.sec.fuses.svnFw, false)

/-- SVN of a firmware image. -/
def fwSvn (img : Bytes) : Nat := match Config.fwHeader img with | some (v, _) => v | none => 0

/-! ### Activation (Tables 21.3 and 21.4) -/

/-- Something in progress keeps an activation from starting (R94, R598, R612). -/
def State.fwBusy (s : State) : Bool :=
  s.activating || !s.xim.quiesce.isEmpty || s.xim.load.isSome || decide (s.fget pwrStatus F.pwrStatus_REMOVE ≠ 0) || !s.inv.ops.isEmpty

/-- Steps 1 to 4: the slot is verified and fetch pauses; or the outcome of an activation that does not start. -/
def State.fwStart (s : State) (by_ : Option Nat) (pldm : Bool) (slot : Nat) : State :=
  let go (s : State) : State := { s with fw := { s.fw with act := some { by_ := by_, pldm := pldm, slot := slot } } }
  if 1 < slot ∨ slot = s.running then (go s).fwEnd 1 0
  else if s.fbit pwrStatus F.pwrStatus_DECLARED then (go s).fwEnd 9 0
  else
    match s.fwCheck (s.fwSlot slot) with
    | (s, 0, _) => ({ go s with eth := { s.eth with missed := [] } } : State).fset fwStateReg F.fwState_PHASE 2
    | (s, st, inj) => (go (s.loadRefused st inj)).fwEnd 8 st

/-- FW_ACTIVATE (R515, Table 21.3). -/
def execFwActivate (f : FuncNo) (s : State) : Host.Outcome State Fault Refusal :=
  let f := f.val
  match s.takeMsg f 0x0130 1 with
  | .error s => done s
  | .ok m =>
    let slot := mNum m 0 1
    let held := s.side.ready.contains 1 || s.side.update.any fun u => decide (u.comp = 1)
    if 1 < slot ∨ slot = s.running ∨ s.fbit pwrStatus F.pwrStatus_DECLARED then done (s.fwStart (some f) false slot)
    else if s.fwBusy || held then
      let s := (s.fset fwStateReg F.fwState_LAST_STATUS 2).fset fwStateReg F.fwState_LAST_DETAIL 2
      done (s.reply f m 2 2 [])
    else done (s.fwStart (some f) false slot)

/-- Every fetched Ledger command has completed (Table 21.4, step 5). -/
def State.fwDrained (s : State) : Bool := s.ledger.queues.all fun x => x.2.cmds.isEmpty

/-- The handover record (Tables 21.5 and 21.6): sections 1 to 9, each with its RECORDS and its body, 8-byte aligned. -/
def handover (svn : Nat) (secs : List (Nat × Bytes)) : Bytes :=
  let dirEnd := 0x30 + 16 * secs.length
  let place : List (Nat × Nat × Bytes) × Nat := secs.foldl (fun x y =>
    (x.1 ++ [(x.2, y.1, y.2)], roundUp (x.2 + y.2.length) 8)) ([], dirEnd)
  let dir := place.1.zipIdx.flatMap fun x =>
    leBytes 2 (x.2 + 1) ++ leBytes 2 0 ++ leBytes 4 x.1.1 ++ leBytes 4 x.1.2.2.length ++ leBytes 4 x.1.2.1
  let bodies := place.1.flatMap fun x => slice x.2.2 0 (roundUp x.2.2.length 8)
  let rest := dir ++ bodies
  leBytes 4 0x444E_4148 ++ leBytes 2 0x0100 ++ leBytes 2 secs.length ++ leBytes 4 (0x30 + rest.length) ++ leBytes 2 svn ++ leBytes 2 0 ++
    sha256 rest ++ rest

/-- A handover record that R518 accepts, but for the bodies of its sections. -/
def handoverOk (b : Bytes) : Bool :=
  let n := leAt b 6 2
  let l : List Xim.Sect := (List.range n).map fun i =>
    let o := 0x30 + 16 * i
    ⟨leAt b o 2, leAt b (o + 2) 2, leAt b (o + 4) 4, leAt b (o + 8) 4, leAt b (o + 12) 4⟩
  decide (leAt b 0 4 = 0x444E_4148) && decide (leAt b 8 4 = b.length) && decide (slice b 0x10 32 = sha256 (b.drop 0x30)) &&
  decide (leAt b 5 1 = 1) && Xim.ordered (0x30 + 16 * n) b.length l && l.all fun x => decide (1 ≤ x.type) && decide (x.type ≤ 9)

/-- FW_DRAIN_DONE (Table 21.4, steps 5 to 7): the old image stops and writes the handover record in the system region. -/
def execFwDrainDone (addr : BitVec 57) (secs : List (Nat × Bytes)) (s : State) : Host.Outcome State Fault Refusal :=
  match s.fw.act with
  | none => done s
  | some a =>
    if a.aborted then done (s.fwEnd 8 0x0D)
    else
      let r := handover (s.fget fwStateReg F.fwState_SVN) secs
      let addr := addr.toNat
      if s.fget fwStateReg F.fwState_PHASE ≠ 2 ∨ ¬ s.fwDrained ∨ secs.length ≠ 9 ∨ addr % 8 ≠ 0 ∨ ¬ rangeInSystem addr r.length then done s
      else
        let q := s.fwQuarter
        let (s, _) := s.writeMem 0xFF (0x8000 + 4 * q) 0 addr r false
        let s := { s with fw := { s.fw with act := some { a with record := addr, written := true } } }
        done (s.fset fwStateReg F.fwState_PHASE 3)

/-- FW_DRAIN_TIMEOUT (Table 21.4, step 5). -/
def execFwDrainTimeout (s : State) : Host.Outcome State Fault Refusal :=
  done (if s.fget fwStateReg F.fwState_PHASE = 2 then s.fwEnd 2 1 else s)

/-- A module leaves; the PF that loaded it has an EVENT (R512). -/
def State.moduleEnd (s : State) (m : Module) (code : Nat) (tell : Bool) : State :=
  let s := { s with fw := { s.fw with modules := s.fw.modules.filter fun x => x.id ≠ m.id } }
  if tell then s.postEvent m.pf 0x0007 m.id code else s

/-- FW_HANDOVER_ADOPT (R516, R518): the new image verifies the record and adopts it, or the old image goes on. -/
def execFwHandoverAdopt (s : State) : Host.Outcome State Fault Refusal :=
  match s.fw.act with
  | none => done s
  | some a =>
    if s.fget fwStateReg F.fwState_PHASE ≠ 3 then done s
    else if a.aborted then done (s.fwEnd 8 0x0D)
    else
      let img := s.fwSlot a.slot
      let req := 0x8000 + 4 * s.fwQuarter
      let (s, h, bad) := s.readMem 0xFF req 0 a.record 0x30
      let (s, b, bad') := s.readMem 0xFF req 0 a.record (leAt h 8 4)
      if bad || bad' || !handoverOk b || !Config.handoverOk img (leAt b 4 2) then done (s.fwEnd 8 0x7F)
      else
        let gone := s.fw.modules.filter fun m => !Config.kapiOk img m.kapi
        let s := gone.foldl (fun s m => s.moduleEnd m 0 true) s
        done (s.fset fwStateReg F.fwState_PHASE 4)

/-- FW_HANDOVER_TIMEOUT (R516). -/
def execFwHandoverTimeout (s : State) : Host.Outcome State Fault Refusal :=
  match s.fw.act with
  | none => done s
  | some a => done (if s.fget fwStateReg F.fwState_PHASE = 3 then s.fwEnd 8 (if a.aborted then 0x0D else 0x7F) else s)

/-- FW_COMMIT_DONE (Table 21.4, steps 9 and 10). -/
def execFwCommitDone (s : State) : Host.Outcome State Fault Refusal :=
  match s.fw.act with
  | none => done s
  | some a =>
    if s.fget fwStateReg F.fwState_PHASE ≠ 4 then done s
    else
      let s := s.setFlash { s.sec.flash with committed := a.slot }
      let s := ((s.fset fwStateReg F.fwState_COMMITTED a.slot).fset fwStateReg F.fwState_RUNNING a.slot).fset fwStateReg F.fwState_SVN
        (fwSvn (s.fwSlot a.slot))
      done ((s.fsat fwStateReg F.fwState_ACTIVATIONS 1).fwEnd 0 0)

/-! ### Service modules (R511, R512) -/

/-- A module image: a status of Table 3.9 but for its signature, SVN and memory (Table 21.2). -/
def moduleStatus (b : Bytes) (kapi : Nat → Bool) : Nat :=
  let code := leAt b 0x0C 4
  let data := leAt b 0x10 4
  let body := leAt b 0x20 4
  if b.length < 64 ∨ leAt b 0 4 ≠ 0x4D43_5653 ∨ body + leAt b 0x24 4 ≠ b.length ∨ code % 4096 ≠ 0 ∨ data % 4096 ≠ 0 ∨
      body ≠ 64 + code + data ∨ leAt b 0x14 4 % 4 ≠ 0 ∨ code ≤ leAt b 0x14 4 then 1
  else if 64 ≤ leAt b 0x0A 1 ∨ leAt b 0x0B 1 ≠ 0 ∨ ¬ allZero (slice b 0x28 24) then 3
  else if leAt b 4 2 ≠ 0x0100 ∨ ¬ kapi (leAt b 6 2) then 0x7F
  else 0

/-- Bytes of a precinct's carves that neither its instances' quotas nor its modules take. -/
def State.moduleRoom (s : State) (p : Nat) : Nat :=
  let size (es : List Extent) : Nat := ((es.filter fun e => e.prec = p).map (·.size)).sum
  let used := ((s.fw.modules.filter fun m => m.prec = p).map fun m => m.code.length + m.data.length).sum
  (size s.xim.conf.square - s.quotaSum p (·.sqMib)) * 2 ^ 20 + (size s.xim.conf.warehouse - s.quotaSum p (·.whGib)) * 2 ^ 30 - used

/-- MODULE_LOAD (R511): `asid` is the address space that the kernel gives the module. -/
def execModuleLoad (f : FuncNo) (asid : BitVec 12) (far : List FarAns) (s : State) : Host.Outcome State Fault Refusal :=
  let f := f.val
  let asid := asid.toNat
  done (s.answerMsg f 0x0131 12 fun m =>
    match s.inst f with
    | none => s.no 7
    | some i =>
      match s.fwRead i.asid (mNum m 0 8) (mNum m 8 4) far with
      | (_, none) => none
      | (s, some (.error _)) => (s.loadRefused 1 false).bad 1
      | (s, some (.ok b)) =>
        let st := moduleStatus b (Config.kapiOk (s.fwSlot s.running))
        if st ≠ 0 then (s.loadRefused st false).bad st
        else
          let n := leAt b 0x20 4
          match s.sigOk [ownerModuleKey s.owner] (b.take n) (b.drop n) with
          | (s, false, inj) => (s.loadRefused 2 inj).bad 2
          | (s, true, _) =>
            let st := svnStatus (leAt b 8 2) s.sec.fuses.svnModule
            let p := leAt b 0x0A 1
            let code := leAt b 0x0C 4
            let data := leAt b 0x10 4
            if st ≠ 0 then (s.loadRefused st false).bad st
            else if (s.precinct p).isNone then (s.loadRefused 3 false).bad 3
            else if s.moduleRoom p < code + data then (s.loadRefused 5 false).bad 5
            else if asid = 0 ∨ s.fw.modules.any (fun x => x.asid = asid) ∨
                s.host.funcs.any (fun x => match x.2.inst with | some j => decide (j.asid = asid) | none => false) then none
            else
              let id := s.fw.nextModule
              let x : Module := {
                id := id, pf := f, asid := asid, prec := p, kapi := leAt b 6 2, services := leAt b 0x18 8, entry := leAt b 0x14 4,
                code := slice b 64 code, data := slice b (64 + code) data, body := b.take n }
              let s := { s with fw := { s.fw with modules := s.fw.modules ++ [x], nextModule := (id + 1) % 2 ^ 32 } }
              s.ok (leBytes 4 id))

/-- MODULE_UNLOAD (R511), or an exception of the module other than TRAP (R512). -/
def execModuleUnload (src : ModuleEnd) (s : State) : Host.Outcome State Fault Refusal :=
  match src with
  | .msg f =>
    done (s.answerMsg f.val 0x0132 4 fun m =>
      match s.fw.modules.find? fun x => x.id = mNum m 0 4 with
      | none => s.no 3
      | some x => (s.moduleEnd x 0 false).ok [])
  | .exception n ecause =>
    match s.fw.modules.find? fun x => x.id = n.toNat with
    | none => done s
    | some x => done (s.moduleEnd x ecause.toNat true)

/-! ### The kernel (R508) -/

/-- The kernel runs. -/
def State.kernelUp (s : State) : Bool := decide (8 ≤ s.fget ⟨.bootStatus, 0, 0⟩ F.bootStatus_STAGE) && decide (s.fget ⟨.bootStatus, 0, 0⟩ F.bootStatus_STAGE ≤ 9)

/-- KERNEL_PERIOD (R508, R510): for each Guildhall core that runs, the 256ths of its next period: each precinct's HAWKER_SHARE, and
what is left for the kernel, under 64. -/
def execKernelPeriod (s : State) : Host.Outcome State Fault Refusal :=
  if !s.kernelUp then done s
  else
    let cores := (List.range 16).filter fun n => !s.qFenced (n / 4)
    let share (n : Nat) : List (Nat × Nat) := s.xim.conf.precincts.map fun p => (p.id, p.share.getD n 0)
    let t : Tab Nat := cores.foldl (fun t n =>
      let l := share n
      let t := l.foldl (fun t x => putD 0 t (key2 n x.1) x.2) t
      put t (key2 n 64) (256 - (l.map (·.2)).sum)) []
    done { s with fw := { s.fw with shares := t, periods := s.fw.periods + 1 } }

/-! ### The precinct reset (R606) -/

/-- Step 4: a channel of the precinct is aborted and returns to IDLE. -/
def State.resetChan (s : State) (c : Nat) : State :=
  if s.chanState c = 6 then s
  else
    let s := s.dropWaiters (fun w => w = .chan c)
    (s.setChan c {}).setChanState c 0

/-- Step 5: the task ring of a stall of the precinct is emptied. -/
def State.resetStall (s : State) (st : Nat) : State :=
  let s := { s with stall := { s.stall with
    tasks := drop s.stall.tasks st
    adds := s.stall.adds.filter (fun a => a.req ≠ st)
    pieces := s.stall.pieces.filter (fun p => p.stall ≠ st) } }
  let s := s.dropWaiters (fun w => w = .task st)
  let s := s.fset ⟨.stallRingHead, st, 0⟩ F.stallRingHead_HEAD (s.fget ⟨.stallRingTail, st, 0⟩ F.stallRingTail_TAIL)
  if s.stallFenced st ∨ s.fget ⟨.stallState, st, 0⟩ F.stallState_STATE = 3 then s else s.fset ⟨.stallState, st, 0⟩ F.stallState_STATE 0

/-- Step 5: a route inside the precinct is torn down. -/
def State.resetRoute (s : State) (p q n : Nat) : State :=
  let r := routeReg q n
  if s.routeActive q n && !s.fbit r F.streetRoute_BORDER && decide (s.fget r F.streetRoute_PRECINCT = p) then
    (s.fset r F.streetRoute_VALID 0).routeDrained q n
  else s

/-- Step 7: an Alley line that the precinct owns. -/
def State.resetLine (s : State) (q l : Nat) : State := (s.wr ⟨.alleyState, q, l⟩ 0).wr ⟨.alleyEn, q, l⟩ 0

/-- The seven steps of R606. -/
def State.precinctReset (s : State) (p : Nat) : State :=
  let s := s.endDocketsOf p 0x10
  let s := (s.ledger.queues.filter fun x => x.2.prec = p).foldl (fun s x => ((s.overtakeReset x.1).lqueueReset x.1 (some 512)).1) s
  let fs := s.instancesOf p
  let s := s.connsFail (fun c => c.func.any fs.contains) 0x44
  let err (x : Nat × CarterCtx) : Nat × CarterCtx :=
    if x.2.state = 1 && x.2.func.any fs.contains then (x.1, { x.2 with state := 4, errCode := 0x44, flushed := false }) else x
  let s := { s with carter := { s.carter with ctxs := s.carter.ctxs.map err } }
  let s := s.dropWaiters fun w => match w with
    | .chan c => decide (s.precOfChan c = some p)
    | .task st => decide (s.precOfStall st = some p)
    | _ => false
  let s := forNat 256 s fun s c => if s.precOfChan c = some p then s.resetChan c else s
  let s := forNat 1024 s fun s st => if stallOk st && decide (s.precOfStall st = some p) && ringKind (stallKind st) then s.resetStall st else s
  let s := forNat 4 s fun s q => forNat 256 s fun s n => s.resetRoute p q n
  let ctrs := match s.precinct p with
    | some r => (List.range 4).flatMap fun q =>
      let b := r.bells.getD q (0, 0)
      (List.range b.2).map fun i => q * 4096 + b.1 + i
    | none => []
  let s := s.bells (ctrs.flatMap fun k => [.wakeAll k, .set k 0 0])
  let s := forNat 4 s fun s q => forNat 16 s fun s l => if s.xim.conf.sync.alley.getD (16 * q + l) 0xFF = p then s.resetLine q l else s
  match s.xim.load with
  | some l => { s with xim := { s.xim with load := some { l with aborted := true } } }
  | none => s

/-- PRECINCT_RESET (R606). -/
def execPrecinctReset (f : FuncNo) (s : State) : Host.Outcome State Fault Refusal :=
  done (s.answerMsg f.val 0x0121 1 fun m =>
    let p := mNum m 0 1
    if 64 ≤ p then s.no 1
    else if (s.precinct p).isNone then s.no 3
    else (s.precinctReset p).ok [])

end Sys2Proof.Machine
end

