-- ==== Sys2Proof/Machine/Security.lean ====
section
/-!
DEFINITION. Trust commands and physical presence, signing and attestation, the debug levels, the tamper seal and decommissioning
(chapter "Security, attestation and physical presence"; R565–R581).
-/
namespace Sys2Proof.Machine

abbrev secState : Reg := ⟨.secState, 0, 0⟩
abbrev secPresence : Reg := ⟨.secPresence, 0, 0⟩

/-- The debug level (R578). -/
def State.debugLevel (s : State) : Nat := s.fget secState F.secState_DEBUG_LEVEL

/-! ### Managers' messages over the Kiosk and over MCTP (R610) -/

/-- A message of a manager: its body, and where the answer goes; none where there is no such message now, with the state after the
refusal it may have had. `t` is the TYPE, `n` the length of its body. -/
def State.mgrBody (s : State) (src : MgrSrc) (t n : Nat) : Except State Bytes :=
  match src with
  | .msg f =>
    match s.takeMsg f.val t n with
    | .error s => .error s
    | .ok m => .ok (slice m 8 56)
  | .mctp b => if s.side.vendor then .ok (slice b 0 56) else .error s

/-- The answer of a manager's message. Over MCTP it carries the message's TYPE, STATUS and DETAIL. -/
def State.mgrAnswer (s : State) (src : MgrSrc) (t status detail : Nat) : State :=
  match src with
  | .msg f => s.answerHead (some f.val) t status detail []
  | .mctp _ => s.emit (.sideband 0x7E (kioskMsg t 0 status detail []))

/-- The function that a message came from; none for MCTP. -/
def mgrBy : MgrSrc → Option Nat
  | .msg f => some f.val
  | .mctp _ => none

/-! ### What the commands do -/

/-- DECOMMISSION (R580): every instance ends, and DEVICE_SECRET is no more. -/
def State.decommission (s : State) : State :=
  let fs := (s.host.funcs.filter fun x => x.2.inst.isSome).map (·.1)
  let s := fs.foldl (fun s f => s.destroyInstance f) s
  s.setFuses { s.sec.fuses with decommissioned := true }

/-- OWNER_INSTALL (R568): STAGED, the next free slot, then CURRENT. -/
def State.ownerInstall (s : State) (o : Bytes) : State :=
  let s := s.setFlash { s.sec.flash with staged := some o }
  let s := s.setFuses { s.sec.fuses with slots := s.sec.fuses.slots ++ [sha256 o] }
  s.setFlash { s.sec.flash with current := some o }

/-- A debug level entered (R578). At level 0 JTAG holds no core any longer; level 2 ends every SPDM session. -/
def State.setDebug (s : State) (level : Nat) : State :=
  let s := s.fset secState F.secState_DEBUG_LEVEL level
  if level = 0 then { s with cores := s.cores.map fun x => (x.1, { x.2 with debugHalt := false, stepOne := false }) }
  else if level = 2 then { s with sec := { s.sec with sessions := [] } } else s

/-- A command that needs presence is carried out (Table 25.5). -/
def State.trustDo (s : State) (c : TrustCmd) : State :=
  match c.cmd with
  | 1 => s.setDebug c.arg
  | 3 => s.ownerInstall c.record
  | 4 => s.fset secState F.secState_FACTORY 1
  | 5 => s.decommission
  | _ => s

/-- ROLLBACK_ADVANCE (R571): a status of Table 25.6. -/
def State.rollback (s : State) (n v : Nat) : State × Nat :=
  let x := s.sec.fuses
  match n with
  | 0 =>
    if v ≤ x.svnImage then (s, 0)
    else if s.fget ⟨.ximInforce, 0, 0⟩ F.ximInforce_SVN < v then (s, 0x74) else (s.setFuses { x with svnImage := v }, 0)
  | 1 =>
    let most := match Config.fwHeader (s.fwSlot s.sec.flash.committed) with | some (v, _) => v | none => 0
    if v ≤ x.svnFw then (s, 0) else if most < v then (s, 0x74) else (s.setFuses { x with svnFw := v }, 0)
  | _ => if v ≤ x.svnModule then (s, 0) else (s.setFuses { x with svnModule := v }, 0)

/-- The pending command ends with a status, which an EVENT carries to its sender (R577). -/
def State.trustEnd (s : State) (status : Nat) : State :=
  match s.sec.pending with
  | none => s
  | some c =>
    let s := { s with sec := { s.sec with pending := none, holding := false } }
    let s := (s.fset secPresence F.secPresence_LAST_STATUS status).fset secPresence F.secPresence_PENDING_CMD 0
    let s := s.fset secPresence F.secPresence_WINDOW_LEFT_S 0
    match c.by_ with
    | some f => s.postEvent f 0x0009 c.cmd status
    | none => s.emit (.sideband 0x7E (kioskMsg 0x0201 0 0 0 (leBytes 2 0x0009 ++ leBytes 2 0 ++ leBytes 4 c.cmd ++ leBytes 4 status)))

/-! ### Trust commands (R576) -/

/-- A command checked whole (R576): its status, and the owner record it reads from device memory. -/
def State.trustCheck (s : State) (cmd arg0 arg1 : Nat) : State × Nat × Bytes :=
  let bad (s : State) : State × Nat × Bytes := (s, 1, [])
  match cmd with
  | 1 => if (arg0 ≠ 1 ∧ arg0 ≠ 2) ∨ arg1 ≠ 0 then bad s else if arg0 = 2 ∧ s.anyInstance then (s, 0x72, []) else (s, 0, [])
  | 3 =>
    if arg0 ≠ 0 then bad s
    else
      let (s, o, p) := s.readMem 0xFF (0x8000 + 16) 0 arg1 192
      if p || !ownerOk o then bad s else if 15 ≤ s.sec.fuses.slots.length then (s, 0x71, []) else (s, 0, o)
  | 4 => if arg0 ≠ 0 ∨ arg1 ≠ 0 then bad s else if s.anyInstance then (s, 0x72, []) else (s, 0, [])
  | 5 => if arg0 ≠ 0x4F52455A ∨ arg1 ≠ 0 then bad s else (s, 0, [])
  | 6 => if 2 < arg0 ∨ 255 < arg1 then bad s else (s, 0, [])
  | _ => if arg0 ≠ 0 ∨ arg1 ≠ 0 then bad s else (s, 0, [])

/-- A command whose check has passed: what it does at once, or the window it opens; and its status. -/
def State.trustStart (s : State) (src : MgrSrc) (cmd arg0 arg1 : Nat) (record : Bytes) : State × Nat :=
  match cmd with
  | 2 => (s.setDebug 0, 0)
  | 6 => s.rollback arg0 arg1
  | 7 => (s.trustEnd 0x77, 0)
  | _ =>
    if s.sec.pending.isSome then (s, 2)
    else
      let s := { s with sec := { s.sec with pending := some ⟨cmd, arg0, record, mgrBy src⟩, holding := false } }
      ((s.fset secPresence F.secPresence_PENDING_CMD cmd).fset secPresence F.secPresence_WINDOW_LEFT_S 60, 0)

/-- A TRUST_CMD message (TYPE 0x0140) with command `cmd`. One with an undefined CMD is answered MALFORMED. -/
def State.trust (s : State) (src : MgrSrc) (cmd : Nat) : State :=
  match s.mgrBody src 0x0140 16 with
  | .error s => s
  | .ok b =>
    let c := leAt b 0 1
    if c = 0 ∨ 7 < c ∨ leAt b 1 3 ≠ 0 then s.mgrAnswer src 0x0140 1 0
    else if c ≠ cmd then s
    else
      let (s, st, o) := s.trustCheck c (leAt b 4 4) (leAt b 8 8)
      let (s, st) := if st = 0 then s.trustStart src c (leAt b 4 4) (leAt b 8 8) o else (s, st)
      if 0x70 ≤ st then s.mgrAnswer src 0x0140 8 st else s.mgrAnswer src 0x0140 st 0

/-- DEBUG_ENABLE (R578). -/
def execDebugEnable (src : MgrSrc) (s : State) : Host.Outcome State Fault Refusal := done (s.trust src 1)

/-- DEBUG_DISABLE (R578). -/
def execDebugDisable (src : MgrSrc) (s : State) : Host.Outcome State Fault Refusal := done (s.trust src 2)

/-- OWNER_INSTALL (R568). -/
def execOwnerInstall (src : MgrSrc) (s : State) : Host.Outcome State Fault Refusal := done (s.trust src 3)

/-- FACTORY_ENABLE (R579). -/
def execFactoryEnable (src : MgrSrc) (s : State) : Host.Outcome State Fault Refusal := done (s.trust src 4)

/-- DECOMMISSION (R580). -/
def execDecommission (src : MgrSrc) (s : State) : Host.Outcome State Fault Refusal := done (s.trust src 5)

/-- ROLLBACK_ADVANCE (R571). -/
def execRollbackAdvance (src : MgrSrc) (s : State) : Host.Outcome State Fault Refusal := done (s.trust src 6)

/-- CANCEL (R577). -/
def execCancel (src : MgrSrc) (s : State) : Host.Outcome State Fault Refusal := done (s.trust src 7)

/-! ### Presence and the seal (R577, R581) -/

/-- PRESENCE_ASSERT (R577): PRESENCE_N changes to asserted. -/
def execPresenceAssert (s : State) : Host.Outcome State Fault Refusal :=
  done (if s.sec.pending.isSome then { s with sec := { s.sec with holding := true } }
    else s.fsat secPresence F.secPresence_EDGES 1)

/-- PRESENCE_HOLD_DONE (R577): it has stayed asserted for 50 ms inside the window. -/
def execPresenceHoldDone (s : State) : Host.Outcome State Fault Refusal :=
  match s.sec.pending with
  | some c => done (if s.sec.holding then (s.trustDo c).trustEnd 0 else s)
  | none => done s

/-- PRESENCE_TIMEOUT (R577). -/
def execPresenceTimeout (s : State) : Host.Outcome State Fault Refusal := done (s.trustEnd 0x70)

/-- SEAL_OPENED (R581). The EVENT's OBJECT and CODE are free: the spec gives none. -/
def execSealOpened (s : State) : Host.Outcome State Fault Refusal :=
  let s := s.setFuses { s.sec.fuses with sealOpened := true }
  let s := s.fset secState F.secState_SEAL_NOW 1
  let s := s.setFlash { s.sec.flash with sealLog := s.sec.flash.sealLog + 1 }
  let s := (s.eventManagers 0x0009 (Config.freeNat s.fresh % 2 ^ 32) (Config.freeNat (s.fresh + 1) % 2 ^ 32)).useFresh 2
  done (if s.tamperZeroise then s.decommission else s)

/-! ### Signing (R572, R573) -/

abbrev secSign : Reg := ⟨.secSign, 0, 0⟩

/-- The outcome of a request to sign: a signature with its index, a wait for the next tree, or a status of Table 25.6. -/
inductive Signed where
  | done (sig : Bytes)
  | wait
  | refused (status : Nat)
  deriving DecidableEq, Repr

/-- One message signed with the next index (R572). `flashOk`: a write of RESERVED that this index needs is programmed. -/
def State.sign (s : State) (msg : Bytes) (flashOk : Bool) : State × Signed :=
  let q := s.sec.next
  if s.sec.fuses.decommissioned then (s, .refused 0x73)
  else if 2 ^ 45 ≤ q then (s, .refused 0x76)
  else if s.sec.built ≤ q / 2 ^ 20 then (s, .wait)
  else if s.sec.flash.reserved ≤ q ∧ ¬ flashOk then (s, .refused 0x75)
  else
    let s := if s.sec.flash.reserved ≤ q then s.setFlash { s.sec.flash with reserved := q + 4096 } else s
    let s := { s with sec := { s.sec with next := q + 1 } }
    (s.fset secSign F.secSign_NEXT (q + 1), .done (Config.hssSign (s.debugLevel = 2) q msg))

/-! ### Attestation (R574, R575) -/

/-- Measurement `n` of Table 25.4. -/
def State.measurement (s : State) (n : Nat) : Bytes :=
  let fw := s.fwSlot s.running
  let x := s.sec.fuses
  Config.measured n (match n with
    | 2 | 3 => [fw]
    | 4 => [s.xim.body]
    | 5 => leBytes 4 s.ximSeq :: s.xim.partials.reverse
    | 6 => s.fw.modules.map (·.body)
    | 7 => [[BitVec.ofNat 8 x.svnImage, BitVec.ofNat 8 x.svnFw, BitVec.ofNat 8 x.svnModule], leBytes 1 x.slots.length]
    | 8 => [leBytes 1 s.debugLevel, leBytes 1 (b2n s.factory), leBytes 1 (b2n x.sealOpened),
        leBytes 1 (s.fget secState F.secState_SEAL_NOW), leBytes 1 (b2n x.decommissioned)]
    | 9 => [s.owner]
    | _ => [])

/-- The measurement summary: every index (R575). -/
def State.summary (s : State) : Bytes := sha256 ((List.range 9).flatMap fun i => s.measurement (i + 1))

/-- Response codes of SPDM (PRESUMED: DSP0274). -/
def SpdmReq_code : SpdmReq → Nat
  | .digests => 0x01 | .certificate _ _ => 0x02 | .challenge _ => 0x03 | .version => 0x04 | .measurements _ _ _ => 0x60
  | .capabilities => 0x61 | .algorithms => 0x63 | .keyExchange _ => 0x64 | .finish _ => 0x65 | .heartbeat _ => 0x68
  | .keyUpdate _ => 0x69 | .endSession _ => 0x6C | .ideKm _ => 0x7E | .other _ => 0x7F

/-- A response sent over DOE of a PF (kind 0x100 + port), or over MCTP (kind 5). -/
def State.spdmSend (s : State) (via code : Nat) (b : Bytes) : State :=
  s.emit (.sideband (if via < 2 then 0x100 + via else 5) (BitVec.ofNat 8 code :: b))

/-- An ERROR response, with the status of Table 25.6 where one applies. -/
def State.spdmError (s : State) (via status : Nat) : State := s.spdmSend via 0x7F (leBytes 1 status)

/-- A session of a connection. -/
def State.session (s : State) (via id : Nat) : Option SpdmSession := s.sec.sessions.find? fun x => decide (x.via = via) && decide (x.id = id)

/-- The body of a signed response, before its signature. -/
def State.signedBody (s : State) : SpdmReq → Bytes
  | .measurements i _ _ =>
    if i.toNat = 0xFF then ((List.range 9).flatMap fun k => s.measurement (k + 1)) ++ s.summary else s.measurement i.toNat
  | _ => s.summary

/-- A request that is answered with a signature; it opens a session where it is a key exchange (R574: four on each connection). -/
def State.spdmSigned (s : State) (via : Nat) (req : SpdmReq) (msg : Bytes) (flashOk : Bool) : State :=
  let free := (List.range 4).find? fun id => (s.session via id).isNone
  let opens : Bool := match req with | .keyExchange _ => true | _ => false
  if opens = true ∧ free.isNone = true then s.spdmError via 0
  else match s.sign (msg ++ s.signedBody req) flashOk with
    | (s, .refused st) => s.spdmError via st
    | (s, .wait) => { s with sec := { s.sec with waiting := s.sec.waiting ++ [⟨via, req⟩] } }
    | (s, .done sig) =>
      let s := s.spdmSend via (SpdmReq_code req) (s.signedBody req ++ sig)
      match free with
      | some id =>
        if opens then
          let x : SpdmSession := ⟨via, id, s.freeBytes 32, false⟩
          let s := s.useFresh 32
          { s with sec := { s.sec with sessions := x :: s.sec.sessions } }
        else s
      | none => s

/-- A request inside a session. -/
def State.inSession (s : State) (via id : Nat) (req : SpdmReq) : State :=
  match s.session via id with
  | none => s.spdmError via 0
  | some _ =>
    let s := s.spdmSend via (SpdmReq_code req) []
    match req with
    | .finish _ =>
      let up (x : SpdmSession) : SpdmSession := if x.via = via ∧ x.id = id then { x with up := true } else x
      { s with sec := { s.sec with sessions := s.sec.sessions.map up } }
    | .endSession _ => { s with sec := { s.sec with sessions := s.sec.sessions.filter fun x => !(decide (x.via = via) && decide (x.id = id)) } }
    | _ => s

/-- An SPDM request answered (R574). The bytes of unsigned responses that SPDM itself gives are free. -/
def State.spdm (s : State) (via : Nat) (req : SpdmReq) (flashOk : Bool) : State :=
  let plain (n : Nat) : State := (s.spdmSend via (SpdmReq_code req) (s.freeBytes n)).useFresh n
  match req with
  | .version => s.spdmSend via 0x04 [0x12#8, 0x13#8]
  | .capabilities => plain 12
  | .algorithms => plain 32
  | .digests => plain 32
  | .certificate _ len => plain len.toNat
  | .challenge m => s.spdmSigned via req m flashOk
  | .keyExchange m => s.spdmSigned via req m flashOk
  | .measurements i sign m =>
    if i.toNat ≠ 0xFF ∧ 9 < i.toNat then s.spdmError via 0
    else if i.toNat = 0 then s.spdmSend via 0x60 [9#8]
    else if sign then s.spdmSigned via req m flashOk else s.spdmSend via 0x60 (s.signedBody req)
  | .finish id => s.inSession via id.val req
  | .heartbeat id => s.inSession via id.val req
  | .keyUpdate id => s.inSession via id.val req
  | .endSession id => s.inSession via id.val req
  | .ideKm (some id) => if via < 2 then s.inSession via id.val req else s.spdmError via 0
  | .ideKm none => s.spdmError via 0
  | .other _ => s.spdmError via 0

/-- SPDM_REQUEST (R572–R574): over DOE of PF0 (0) or PF1 (1), or over MCTP (2). -/
def execSpdmRequest (via : Fin 3) (req : SpdmReq) (flashOk : Bool) (s : State) : Host.Outcome State Fault Refusal :=
  done (s.spdm via.val req flashOk)

/-- HSS_TREE_READY (R573): the next tree is built, and the requests that wait are taken up in order. -/
def execHssTreeReady (flashOk : Bool) (s : State) : Host.Outcome State Fault Refusal :=
  if 2 ^ 25 ≤ s.sec.built then done s
  else
    let w := s.sec.waiting
    let s := { s with sec := { s.sec with built := s.sec.built + 1, waiting := [] } }
    done (w.foldl (fun s x => s.spdm x.via x.req flashOk) s)

end Sys2Proof.Machine
end

