-- ==== Sys2Proof/Machine/Power.lean ====
section
/-!
DEFINITION. Input power, the operating point, emergencies and removal (chapter "Power, cooling and live insertion"; R582–R599).
-/
namespace Sys2Proof.Machine

abbrev pwrCtrl : Reg := ⟨.pwrCtrl, 0, 0⟩
abbrev pwrInput : Reg := ⟨.pwrInput, 0, 0⟩
abbrev pwrThermal : Reg := ⟨.pwrThermal, 0, 0⟩

/-! ### Samples (R583) -/

/-- Every junction of a sample. -/
def junctions (r : Readings) : List Nat := r.watch :: (r.compute ++ r.base)

/-- The highest junction. -/
def tjMax (r : Readings) : Nat := (junctions r).foldl max 0

/-- A sample taken: the registers of the readings, and SEAL_NOW (R581). -/
def State.readSensors (s : State) (r : Readings) : State :=
  let b (n : Nat) : Nat := min n 255
  let h (n : Nat) : Nat := min n 65535
  let pack (l : List Nat) : Nat := (List.range 4).foldl (fun a q => a + b (l.getD q 0) * 2 ^ (8 * q)) 0
  let s := ((s.fset pwrInput F.pwrInput_VOLTAGE (h r.voltage)).fset pwrInput F.pwrInput_CURRENT (h r.current)).fset pwrInput
    F.pwrInput_POWER_W (h r.mean100)
  let s := s.fset pwrInput F.pwrInput_PEAK_W (max (s.fget pwrInput F.pwrInput_PEAK_W) (h r.mean1))
  let s := ((s.fset pwrThermal F.pwrThermal_INLET (h r.inlet)).fset pwrThermal F.pwrThermal_OUTLET (h r.outlet)).fset pwrThermal
    F.pwrThermal_FLOW (h r.flow)
  let s := (s.fset pwrThermal F.pwrThermal_TJ_MAX (b (tjMax r))).fset pwrThermal F.pwrThermal_TJ_WATCH (b r.watch)
  let s := (s.fset ⟨.pwrTj, 0, 0⟩ F.pwrTj_COMPUTE (pack r.compute)).fset ⟨.pwrTj, 0, 0⟩ F.pwrTj_BASE (pack r.base)
  s.fset secState F.secState_SEAL_NOW (b2n r.sealOpen)

/-! ### The operating point (R587, R588) -/

/-- The highest point at or below the target that the cap governor, the thermal limit and the emergencies permit. -/
def State.permitted (s : State) : Nat :=
  if s.fbit pwrStatus F.pwrStatus_THROTTLE || s.fbit pwrStatus F.pwrStatus_DECLARED then 0
  else min (s.fget pwrCtrl F.pwrCtrl_TARGET) s.pwr.cap

/-- A change of point begins: the device counts as being at the lower of the two (R588). -/
def State.repoint (s : State) : State :=
  let p := s.fget pwrStatus F.pwrStatus_POINT
  if s.permitted = p ∧ ¬ s.fbit pwrStatus F.pwrStatus_SLEWING then s
  else (s.fset pwrStatus F.pwrStatus_SLEWING 1).fset pwrStatus F.pwrStatus_POINT (min p s.permitted)

/-- POINT_SLEW_DONE (R588). -/
def execPointSlewDone (s : State) : Host.Outcome State Fault Refusal :=
  done (if s.fbit pwrStatus F.pwrStatus_SLEWING then
      (s.fset pwrStatus F.pwrStatus_SLEWING 0).fset pwrStatus F.pwrStatus_POINT s.permitted
    else s)

/-- A target and a cap set (R587). -/
def State.pwrSet (s : State) (target cap : Nat) : State :=
  ((s.fset pwrCtrl F.pwrCtrl_TARGET target).fset pwrCtrl F.pwrCtrl_CAP_W cap).repoint

/-- PWR_CTRL written: a value outside its range is ignored and counts as a stray write. -/
def State.pwrCtrlWrite (s : State) (rq : Requester) (v : W64) : State :=
  let cap := bitsOf v F.pwrCtrl_CAP_W
  if !rqKernel rq || decide (cap < 600) || decide (1650 < cap) || decide (bitsOf v F.pwrCtrl_TARGET = 3) then s.refuse rq pwrCtrl
  else s.pwrSet (bitsOf v F.pwrCtrl_TARGET) cap

/-- PWR_SET (R587, Table 26.8). -/
def execPwrSet (src : PwrSrc) (s : State) : Host.Outcome State Fault Refusal :=
  match src with
  | .reg rq v => done (s.pwrCtrlWrite rq v)
  | .mgr src =>
    match s.mgrBody src 0x0150 4 with
    | .error s => done s
    | .ok b =>
      let cap := leAt b 2 2
      if 2 < leAt b 0 1 ∨ leAt b 1 1 ≠ 0 ∨ cap < 600 ∨ 1650 < cap then done (s.mgrAnswer src 0x0150 1 0)
      else done ((s.pwrSet (leAt b 0 1) cap).mgrAnswer src 0x0150 0 0)

/-! ### The cap governor and the thermal limit (R589, R590) -/

/-- CAP_GOVERNOR_WINDOW (R589): the end of a window of 10 ms. -/
def execCapGovernorWindow (r : Readings) (s : State) : Host.Outcome State Fault Refusal :=
  let s := s.readSensors r
  let cap := s.fget pwrCtrl F.pwrCtrl_CAP_W
  let point := s.permitted
  if cap < r.mean10 then
    let s := { s with pwr := { s.pwr with below := 0 } }
    if point = 0 then done (s.fset pwrStatus F.pwrStatus_CAP_UNMET 1)
    else done (({ s with pwr := { s.pwr with cap := point - 1 } } : State).repoint)
  else
    let s := s.fset pwrStatus F.pwrStatus_CAP_UNMET 0
    let below := if r.mean10 + 100 < cap then s.pwr.below + 1 else 0
    if 10 ≤ below ∧ s.pwr.cap < s.fget pwrCtrl F.pwrCtrl_TARGET then
      done (({ s with pwr := { s.pwr with cap := s.pwr.cap + 1, below := 0 } } : State).repoint)
    else done { s with pwr := { s.pwr with below := min below 10 } }

/-- THROTTLE_SET (R590). -/
def execThrottleSet (r : Readings) (s : State) : Host.Outcome State Fault Refusal :=
  let s := s.readSensors r
  done (if 105 < tjMax r then (s.fset pwrStatus F.pwrStatus_THROTTLE 1).repoint else s)

/-- THROTTLE_CLEAR (R590): every junction has been at or below 100 °C for 1 s. -/
def execThrottleClear (r : Readings) (s : State) : Host.Outcome State Fault Refusal :=
  let s := s.readSensors r
  done (if tjMax r ≤ 100 then (s.fset pwrStatus F.pwrStatus_THROTTLE 0).repoint else s)

/-! ### Emergencies (R591–R595, Table 26.4) -/

/-- Condition `c` of Table 26.4 holds in a sample. -/
def emergencyIn (r : Readings) (c : Nat) : Bool :=
  match c with
  | 0 => decide (110 ≤ tjMax r)
  | 1 => decide (r.flow < 80)
  | 2 => decide (5000 < r.inlet)
  | 3 => decide (2000 < r.mean1)
  | 4 => decide (1650 < r.mean100)
  | 5 => (decide (40000 ≤ r.voltage) && decide (r.voltage < 44000)) || (decide (56000 < r.voltage) && decide (r.voltage ≤ 58000))
  | _ => false

/-- Condition `c` is declared. -/
def State.emerg (s : State) (c : Nat) : Bool := nbit (s.fget pwrStatus F.pwrStatus_EMERG) c

/-- EMERGENCY_DECLARE (R591): condition `c` has held for the samples that Table 26.4 gives. An emergency declared before step 6 ends a
live activation (R515). -/
def execEmergencyDeclare (c : Fin 6) (r : Readings) (s : State) : Host.Outcome State Fault Refusal :=
  let s := s.readSensors r
  let c := c.val
  if !emergencyIn r c || s.emerg c then done s
  else
    let s := (s.fset pwrStatus F.pwrStatus_DECLARED 1).fset pwrStatus F.pwrStatus_EMERG (setBit (s.fget pwrStatus F.pwrStatus_EMERG) c)
    let s := if c = 1 ∨ (c = 2 ∧ emergencyIn r 0) ∨ (c = 0 ∧ s.emerg 2) then s.fset pwrStatus F.pwrStatus_PAUSED 1 else s
    let s := if s.activating ∧ s.fget fwStateReg F.fwState_PHASE ≤ 2 then s.fwEnd 9 0 else s
    done (s.repoint.pwrNotify)

/-- ADMISSION_PAUSE (R592): the pause criterion of a declared condition is met. -/
def execAdmissionPause (r : Readings) (s : State) : Host.Outcome State Fault Refusal :=
  let s := s.readSensors r
  let met := (s.emerg 0 && emergencyIn r 0) || (s.emerg 2 && emergencyIn r 2 && emergencyIn r 0) || (s.emerg 3 && emergencyIn r 3) ||
    (s.emerg 4 && emergencyIn r 4)
  done (if met && !s.fbit pwrStatus F.pwrStatus_PAUSED then (s.fset pwrStatus F.pwrStatus_PAUSED 1).pwrNotify else s)

/-- EMERGENCY_CLEAR (R594): every clear condition has held for 1 s. -/
def execEmergencyClear (r : Readings) (s : State) : Host.Outcome State Fault Refusal :=
  let s := s.readSensors r
  if s.fbit pwrStatus F.pwrStatus_DECLARED ∧ tjMax r ≤ 100 ∧ 100 ≤ r.flow ∧ r.inlet ≤ 4800 ∧ r.mean100 ≤ 1550 ∧ 44000 ≤ r.voltage ∧
      r.voltage ≤ 56000 then
    let s := ((s.fset pwrStatus F.pwrStatus_PAUSED 0).fset pwrStatus F.pwrStatus_DECLARED 0).fset pwrStatus F.pwrStatus_EMERG 0
    done (s.repoint.pwrNotify)
  else done s

/-- THERMAL_FENCE (R595): a compute die whose junction has reached 120 °C. -/
def execThermalFence (q : Qn) (r : Readings) (s : State) : Host.Outcome State Fault Refusal :=
  let s := s.readSensors r
  done (if 120 ≤ r.compute.getD q.val 0 then (s.fenceQuarter q.val).checkService else s)

/-! ### Removal (R597, R598, Table 26.7) -/

/-- ATTN_REQUEST (R597): ATTN_N has been held for 100 ms. -/
def execAttnRequest (s : State) : Host.Outcome State Fault Refusal := done s.removeRequest

/-- The body of a REMOVE_REQUEST. The removal's own pause of fetch does not hold it back, so that it can cancel the removal. -/
def State.removeBody (s : State) (src : MgrSrc) : Except State Bytes :=
  let old := s.fget pwrStatus F.pwrStatus_REMOVE
  match (s.fset pwrStatus F.pwrStatus_REMOVE 0).mgrBody src 0x0151 1 with
  | .error s => .error (s.fset pwrStatus F.pwrStatus_REMOVE old)
  | .ok b => .ok b

/-- A REMOVE_REQUEST with OP `op`. -/
def State.removeMsg (s : State) (src : MgrSrc) (op : Nat) : State :=
  match s.removeBody src with
  | .error s => s
  | .ok b =>
    let x := leAt b 0 1
    if x = 0 ∨ 2 < x then s.mgrAnswer src 0x0151 1 0
    else if x ≠ op then s
    else if op = 1 then s.removeRequest.mgrAnswer src 0x0151 0 0
    else if s.fget pwrStatus F.pwrStatus_REMOVE = 0 ∧ ¬ s.pwr.removeHeld then s.mgrAnswer src 0x0151 3 0
    else if s.pwr.removeHeld then ({ s with pwr := { s.pwr with removeHeld := false } } : State).mgrAnswer src 0x0151 0 0
    else s.removeCancel.mgrAnswer src 0x0151 0 0

/-- REMOVE_REQUEST (R597). -/
def execRemoveRequest (src : MgrSrc) (s : State) : Host.Outcome State Fault Refusal := done (s.removeMsg src 1)

/-- REMOVE_CANCEL (R597). -/
def execRemoveCancel (src : MgrSrc) (s : State) : Host.Outcome State Fault Refusal := done (s.removeMsg src 2)

/-- The removal drain is complete (Table 26.7, step 2). -/
def State.removeDrained (s : State) : Bool :=
  (s.host.funcs.all fun x => match x.2.inst with
    | some i => i.dockets.all fun d => d.parked || d.held || d.phases.all (fun p => decide (p = .waiting))
    | none => true) &&
  s.fwDrained &&
  (s.carter.ctxs.all fun x => x.2.unacked.isEmpty && x.2.orders.all (·.dormant)) &&
  s.eth.toTb.isEmpty && s.eth.queues.all (fun x => x.2.isEmpty) && s.eth.wire.isEmpty

/-- REMOVE_DRAIN_DONE (Table 26.7, step 3). -/
def execRemoveDrainDone (s : State) : Host.Outcome State Fault Refusal :=
  done (if s.fget pwrStatus F.pwrStatus_REMOVE = 1 ∧ s.removeDrained then (s.setRemove 2).emit (.pin "READY_N" true) else s)

/-- REMOVE_DRAIN_TIMEOUT (Table 26.7, step 2). -/
def execRemoveDrainTimeout (s : State) : Host.Outcome State Fault Refusal :=
  done (if s.fget pwrStatus F.pwrStatus_REMOVE = 1 then s.setRemove 3 else s)

end Sys2Proof.Machine
end

