-- ==== Sys2Proof/Machine/Boot.lean ====
section
/-!
DEFINITION. Cold boot, boot failure, the resets that lead to it, and the loss of power (chapter "Bring-up, resets and the management
sideband"; R584, R586, R596, R599–R605).
-/
namespace Sys2Proof.Machine

abbrev bootStatus : Reg := ⟨.bootStatus, 0, 0⟩

/-- STAGE of BOOT_STATUS. -/
def State.stage (s : State) : Nat := s.fget bootStatus F.bootStatus_STAGE
def State.setStage (s : State) (n : Nat) : State := s.fset bootStatus F.bootStatus_STAGE n

/-! ### What a reset of the whole device clears (Table 27.3) -/

/-- Every piece of state cleared but what flash, fuses, the replicas' backing stores and the outside world hold. Ledger commands that
have not ended leave their records as R441 says. -/
def State.clear (s : State) : State :=
  let s := (s.ledger.queues.map (·.1)).foldl (fun s n => s.endCmds n 0x43) s
  let key (v : Volume) : Volume := if s.sec.fuses.decommissioned then { v with key := [] } else v
  let r := State.reset
  { r with
    pending := s.pending
    tick := s.tick
    fresh := s.fresh
    out := s.out
    err := { r.err with log := s.err.log }
    home := { r.home with lostLog := s.home.lostLog, retired := s.home.retired }
    ledger := { r.ledger with volumes := s.ledger.volumes.map fun x => (x.1, key x.2), created := s.ledger.created }
    host := { r.host with ports := s.host.ports.map fun x => (x.1, { ({} : HostPort) with perst := x.2.perst }) }
    sec := { r.sec with flash := s.sec.flash, fuses := s.sec.fuses, built := s.sec.built } }

/-- The boot-failure state (R603). -/
def State.bootFail (s : State) (code : Nat) : State :=
  let s := (s.fset bootStatus F.bootStatus_FAIL_CODE code).setStage 15
  s.setFlash { s.sec.flash with bootLog := code :: s.sec.flash.bootLog }

/-! ### Steps 1 to 4 (Table 27.1) -/

/-- The highest programmed owner slot. -/
def State.ownerDigest (s : State) : Bytes := s.sec.fuses.slots.getLast?.getD Config.ownerSlot0

/-- Step 2: the owner record (R567), and BOOT_EPOCH (R415, R416). The Cashboxes and the security registers take their values. -/
def State.bootFlash (s : State) : Option State :=
  let d := s.ownerDigest
  let f := s.sec.flash
  let owner : Option Flash :=
    if sha256 s.owner = d then some f
    else match f.staged with
      | some o => if sha256 o = d then some { f with current := some o } else none
      | none => none
  match owner with
  | none => none
  | some f =>
    let s := (s.setFlash { f with bootEpoch := min (f.bootEpoch + 1) 0xFFFF }).secSync
    let s := { s with sec := { s.sec with next := f.reserved } }
    let s := s.fset secSign F.secSign_NEXT f.reserved
    some (forNat 8 s fun s i =>
      s.fset ⟨.cashboxNonceId, stallId (i / 2) 6 (i % 2), 0⟩ F.cashboxNonceId_BOOT_EPOCH s.sec.flash.bootEpoch)

/-- Step 3: the first slot of a list that verifies (R601). -/
def State.bootFirmware (s : State) : List Nat → State × Option Nat
  | [] => (s, none)
  | n :: r =>
    match s.fwCheck (s.fwSlot n) with
    | (s, 0, _) => (s, some n)
    | (s, st, inj) => State.bootFirmware (s.loadRefused st inj) r

/-- Steps 3 and 4: firmware chosen among the slots given; then the wait for coolant (R586). -/
def State.bootFrom (s : State) (slots : List Nat) : State :=
  let c := s.sec.flash.committed
  match (s.setStage 2).bootFirmware slots with
  | (s, none) => s.bootFail 1
  | (s, some n) =>
    let s := ((s.fset fwStateReg F.fwState_COMMITTED c).fset fwStateReg F.fwState_RUNNING n).fset fwStateReg F.fwState_SVN (fwSvn (s.fwSlot n))
    let s := if n = c then s else s.fset bootStatus F.bootStatus_FW_FALLBACK 1
    (s.setStage 3).fset pwrStatus F.pwrStatus_COOL_WAIT 1

/-- A cold boot up to the wait for coolant. `romOk`: the Watch post's self-test passes; `flashOk`: flash is read, and BOOT_EPOCH
persisted. -/
def State.coldBoot (s : State) (romOk flashOk : Bool) : State :=
  let s := s.clear.emit (.pin "READY_N" false)
  if !romOk then s
  else if !flashOk then (s.setStage 1).bootFail 5
  else match (s.setStage 1).bootFlash with
    | none => (s.setStage 1).bootFail 3
    | some s => s.bootFrom [s.sec.flash.committed, 1 - s.sec.flash.committed]

/-- POWER_ON (R596): the eFuse has closed. -/
def execPowerOn (romOk flashOk : Bool) (s : State) : Host.Outcome State Fault Refusal := done (s.coldBoot romOk flashOk)

/-- EFUSE_OPEN (R584, R599): the whole module loses power. -/
def execEfuseOpen (s : State) : Host.Outcome State Fault Refusal := done { s.clear with boot := { off := true } }

/-- RESET_N_ASSERT (R605): every die but the Watch post is held in reset. -/
def execResetNAssert (s : State) : Host.Outcome State Fault Refusal :=
  done (if s.boot.off then s else { s.clear with boot := { inReset := true } })

/-- RESET_N_DEASSERT (R605). -/
def execResetNDeassert (romOk flashOk : Bool) (s : State) : Host.Outcome State Fault Refusal :=
  done (if s.boot.inReset then s.coldBoot romOk flashOk else s)

/-! ### Steps 5 to 10 -/

/-- Step 5: the Quarters are powered and tested. A compute die with a failing core is fenced, and so is a failing stall. -/
def State.bootPower (s : State) (cores : List CoreNo) (stalls : List StallNo) : State :=
  let s := ({ s.setStage 4 with boot := { s.boot with dark := [] } } : State).repoint
  let qs := (List.range 4).filter fun q => cores.any fun c => decide (c.val / 4 = q)
  let s := qs.foldl (fun s q => s.fenceQuarter q) s
  let s := stalls.foldl (fun s st => if stallOk st.val then s.stopStall st.val else s) s
  let s := s.fset bootStatus F.bootStatus_QFENCED (s.fget ⟨.errSummary, 0, 0⟩ F.errSummary_QFENCED)
  if qs.isEmpty && stalls.all (fun st => !stallOk st.val) then s else s.fset bootStatus F.bootStatus_DEGRADED 1

/-- Step 6: the Warehouses are trained; the marks of lost dies are applied again (R257), and each one that fails is fenced. -/
def State.bootWarehouses (s : State) (failed : List (Fin 12)) : State :=
  let s := s.home.lostLog.foldl (fun s x =>
    (s.fset (whStatus x.1) F.whEccStatus_DIE_LOST 1).fset (whStatus x.1) F.whEccStatus_LOST_DIE x.2) (s.setStage 5)
  let s := { s with err := { s.err with whFenced := failed.map Fin.val } }
  let s := s.fset bootStatus F.bootStatus_WH_FENCED (failed.foldl (fun n w => setBit n w.val) 0)
  if failed.isEmpty then s else s.fset bootStatus F.bootStatus_DEGRADED 1

/-- A Guildhall core started at the kernel's entry, with its spill area (Table 27.1, step 8). -/
def State.startCore (s : State) (n : Nat) : State :=
  let img := s.fwSlot s.running
  let (b, l, t) := Config.kernelSpill img n
  s.setCore n { ({} : Core) with
    pc := Config.kernelEntry img % 2 ^ 57, spbK := BitVec.ofNat 64 b, splK := BitVec.ofNat 64 l, sptK := BitVec.ofNat 64 t }

/-- Step 8. -/
def State.bootKernel (s : State) : State :=
  forNat 16 (s.setStage 7) fun s n => if s.qFenced (n / 4) then s else s.startCore n

/-- COOLANT_READY (R586): flow and inlet are within their limits; steps 5 to 8. The cores, stalls and Warehouses given fail their tests. -/
def execCoolantReady (r : Readings) (cores : List CoreNo) (stalls : List StallNo) (failed : List (Fin 12)) (s : State) :
    Host.Outcome State Fault Refusal :=
  let s := s.readSensors r
  if s.stage ≠ 3 ∨ r.flow < 150 ∨ 4500 < r.inlet then done s
  else
    let s := ((s.fset pwrStatus F.pwrStatus_COOL_WAIT 0).bootPower cores stalls).bootWarehouses failed
    if !s.minService then done (s.bootFail 4)
    else match (s.setStage 6).ximLoadBoot with
      | (s, false) => done (s.bootFail 2)
      | (s, true) => done s.bootKernel

/-- KERNEL_READY (R602): the ports may train, and the Kiosks open. -/
def execKernelReady (s : State) : Host.Outcome State Fault Refusal :=
  done (if s.stage = 7 then s.setStage 9 else s)

/-- KERNEL_TIMEOUT (R602): the cold boot again from step 3 with the other slot, once. -/
def execKernelTimeout (s : State) : Host.Outcome State Fault Refusal :=
  if s.stage ≠ 7 then done s
  else
    let s := { s with cores := [] }
    if s.boot.retried then done (s.bootFail 6)
    else
      let s := forNat 4 s fun s q => forNat 256 s fun s n => if s.routeActive q n then s.wr (routeReg q n) 0 else s
      let s := { s with boot := { s.boot with retried := true }, xim := {} }
      done (s.bootFrom [1 - s.running])

end Sys2Proof.Machine
end

