-- ==== Sys2Proof/Machine/Boulevards.lean ====
section
/-!
DEFINITION. Boulevards: transfers with their sequence numbers, replays, loss with and without a relay, and retraining (chapters "The
city plan", R32–R35, and "Memory", R253–R255).
-/
namespace Sys2Proof.Machine

/-- The port of Quarter `q` that leads to Quarter `p`. -/
def blvdPort (q p : Nat) : Nat := if p < q then p else p - 1

/-- BLVD_STATE of the port of `q` toward `p`. -/
def blvdReg (q p : Nat) : Reg := ⟨.blvdState, q, blvdPort q p⟩

/-- UNIT code of the port of `q` toward `p` (Table 24.6). -/
def blvdUnit (q p : Nat) : Nat := qUnit q (0x0B + blvdPort q p)

/-- The Boulevard between two Quarters is in a state. -/
def State.blvdIs (s : State) (q p v : Nat) : Bool := decide (s.fget (blvdReg q p) F.blvdState_STATE = v)

/-- Both ends of a Boulevard take a state. -/
def State.setBlvd (s : State) (q p v : Nat) : State :=
  (s.fset (blvdReg q p) F.blvdState_STATE v).fset (blvdReg p q) F.blvdState_STATE v

/-- The relay between two Quarters: the lowest third Quarter with both Boulevards up (R33). -/
def State.relay (s : State) (a b : Nat) : Option Nat :=
  (List.range 4).find? fun c => decide (c ≠ a) && decide (c ≠ b) && s.blvdIs a c 2 && s.blvdIs b c 2

/-- One direction of a Boulevard. -/
def State.blvdDir (s : State) (src dst : Nat) : BlvdDir := (look s.blvd (4 * src + dst)).getD {}

/-- One direction of a Boulevard replaced. -/
def State.setDir (s : State) (src dst : Nat) (d : BlvdDir) : State := { s with blvd := put s.blvd (4 * src + dst) d }

/-- Bytes of an access. -/
def HomeAccess_size (a : HomeAccess) : Nat := match a.data with | some d => d.length | none => a.len

/-- Receive buffers of 128 bytes that an access takes (R253). -/
def HomeAccess_buffers (a : HomeAccess) : Nat := max 1 ((HomeAccess_size a + 127) / 128)

/-- A transfer reaches the receiving base die: its access is applied unless its sequence number has been (R254). -/
def State.blvdApply (s : State) (src dst : Nat) (t : Transfer) : State :=
  let d := s.blvdDir src dst
  if t.seq < d.applied then s else (s.setDir src dst { d with applied := t.seq + 1 }).homeAccess t.access

/-- A transfer is acknowledged. -/
def State.blvdAck (s : State) (src dst seq : Nat) : State :=
  let d := s.blvdDir src dst
  s.setDir src dst { d with unacked := d.unacked.filter (fun t => t.seq ≠ seq), fails := 0 }

/-- Every transfer of a direction not acknowledged is reissued over relay `c`, and acknowledged (R254). -/
def State.blvdReissue (s : State) (c src dst : Nat) : State :=
  (s.blvdDir src dst).unacked.foldl
    (fun s t => ((s.blvdApply src dst t).blvdAck src dst t.seq).count c 47 (9 + blvdPort c dst) (HomeAccess_size t.access)) s

/-- What a base die that is cut off loses (R35). -/
def State.cutOffDie (s : State) (h : Nat) : State :=
  let s := { s with err := { s.err with cutOff := h :: s.err.cutOff } }
  let s := forNat 8 s fun s i => if s.subState h i = 0 then s else s.subDown h i
  let s := forNat 4 s fun s i => s.linkDown (4 * h + i)
  let s := if s.fbit (grpStatusReg h) F.cwGrpStatus_DLL_ACTIVE then s.rpDown h else s
  let s := if h % 2 = 0 then s.perstEffects (h / 2) else s
  s.checkService

/-- The loss of a Boulevard between `a` and `b`, found by the port of `a` (R253, R254; R34 and R35 where no relay is left). -/
def State.blvdLost (s : State) (a b : Nat) (inj : Bool) : State :=
  let s := s.setBlvd a b 0
  match s.relay a b with
  | some c =>
    let s := s.recordErr 1 0x04 0xFF (blvdUnit a b) 0 0 0 inj
    let clear (s : State) (x y : Nat) : State := s.setDir x y { s.blvdDir x y with fails := 0 }
    ((clear (clear s a b) b a).blvdReissue c a b).blvdReissue c b a
  | none =>
    let h := max a b
    let s := (s.recordErr 4 0x04 0xFF (blvdUnit h (min a b)) 0 0 0 inj).fenceQuarter h
    let joined := (List.range 4).any fun p => decide (p ≠ h) && s.blvdIs h p 2
    if joined || s.err.cutOff.contains h then s.checkService else s.cutOffDie h

/-- One replay at the port of `dst` toward `src`: it is counted and recorded (R253, Table 24.2). -/
def State.blvdReplay (s : State) (src dst : Nat) (inj : Bool) : State :=
  let s := s.fsat (blvdReg dst src) F.blvdState_REPLAYS 1
  (s.count dst 47 (6 + blvdPort dst src) 1).recordErr 1 0x04 0xFF (blvdUnit dst src) 0 0 0 inj

/-- A transfer fails its CRC at the port of `dst`. -/
def State.blvdCrc (s : State) (src dst : Nat) : State := s.fsat (blvdReg dst src) F.blvdState_CRC_ERRORS 1

/-- A transfer crosses the Boulevard and ends as `end_` says. `replay` says that it has been sent before. -/
def State.blvdCross (s : State) (src dst : Nat) (t : Transfer) (replay : Bool) (end_ : BlvdEnd) : State :=
  let n := HomeAccess_size t.access
  let s := (s.count src 47 (blvdPort src dst) n).count dst 47 (3 + blvdPort dst src) n
  let s := if replay then s.blvdReplay src dst false else s
  match end_ with
  | .acked => (s.blvdApply src dst t).blvdAck src dst t.seq
  | .ackLost => s.blvdApply src dst t
  | .crcFail =>
    let s := s.blvdCrc src dst
    let d := s.blvdDir src dst
    if !replay then s
    else
      let s := s.setDir src dst { d with fails := d.fails + 1 }
      if d.fails + 1 < 8 then s else s.blvdLost dst src false

/-- The failed transmissions of an armed injection: the transfer and `n` of its replays fail, and 8 lose the Boulevard (Table 24.7). -/
def State.blvdInject (s : State) (src dst n : Nat) : State :=
  let s := s.injFire.blvdCrc src dst
  let s := forNat n s fun s _ => (s.blvdReplay src dst true).blvdCrc src dst
  if n < 8 then s.blvdReplay src dst true else s.blvdLost dst src true

/-- BLVD_TRANSFER (R32, R33, R253, R254): access `a` goes from the base die of `src` to its home on that of `dst`, or the oldest transfer
not acknowledged goes again. Over a Boulevard that is UP; over the relay while it is DOWN; held in RELAY_DRAIN (R255). -/
def execBlvdTransfer (src dst : Qn) (replay : Bool) (a : HomeAccess) (end_ : BlvdEnd) (s : State) : Host.Outcome State Fault Refusal :=
  let p := src.val
  let q := dst.val
  let d := s.blvdDir p q
  if p = q then done s
  else if s.blvdIs p q 2 then
    if replay then
      match d.unacked with
      | t :: _ => done (s.blvdCross p q t true end_)
      | [] => done s
    else if homeQ a.addr ≠ q ∨ reqQ a.req = q ∨ d.unacked.any (fun t => decide (d.applied ≤ t.seq)) = true ∨
        4096 < (d.unacked.map fun t => HomeAccess_buffers t.access).sum + HomeAccess_buffers a then done s
    else
      let t : Transfer := ⟨d.next, a⟩
      let s := s.setDir p q { d with next := d.next + 1, unacked := d.unacked ++ [t] }
      match s.injAt 0x04 (blvdUnit q p) (fun _ => true) with
      | some i =>
        let s := s.blvdInject p q i.syndrome
        done (if i.syndrome < 8 then s.blvdCross p q t false end_ else s)
      | none => done (s.blvdCross p q t false end_)
  else if s.blvdIs p q 3 then
    match replay, d.unacked with
    | true, t :: _ => done (s.blvdCross p q t true end_)
    | _, _ => done s
  else match s.relay p q with
    | none => done s
    | some c =>
      let s := s.blvdReissue c p q
      if replay ∨ homeQ a.addr ≠ q ∨ reqQ a.req = q then done s
      else
        let d := s.blvdDir p q
        let t : Transfer := ⟨d.next, a⟩
        done ((s.setDir p q { d with next := d.next + 1, unacked := d.unacked ++ [t] }).blvdReissue c p q)

/-- BLVD_RETRAINED (R255): a Boulevard that was DOWN or TRAINING enters RELAY_DRAIN. -/
def execBlvdRetrained (q p : Qn) (s : State) : Host.Outcome State Fault Refusal :=
  if q = p ∨ s.blvdIs q.val p.val 2 = true ∨ s.blvdIs q.val p.val 3 = true then done s else done (s.setBlvd q.val p.val 3)

/-- BLVD_RELAY_DRAIN_DONE (R255): every relayed transfer has been acknowledged, and the Boulevard is UP. Base dies it joins are cut off no
more (R35). -/
def execBlvdRelayDrainDone (q p : Qn) (s : State) : Host.Outcome State Fault Refusal :=
  if q ≠ p ∧ s.blvdIs q.val p.val 3 = true ∧ (s.blvdDir q.val p.val).unacked.isEmpty = true ∧
      (s.blvdDir p.val q.val).unacked.isEmpty = true then
    let s := s.setBlvd q.val p.val 2
    let s := [q.val, p.val].foldl (fun s x =>
      if s.err.cutOff.contains x ∧ x % 2 = 0 ∧ (s.port (x / 2)).perst = false then
        s.setFunc (256 * (x / 2)) { s.func (256 * (x / 2)) with power := 0 }
      else s) s
    done { s with err := { s.err with cutOff := s.err.cutOff.filter fun x => decide (x ≠ q.val) && decide (x ≠ p.val) } }
  else done s

end Sys2Proof.Machine
end

