-- ==== Sys2Proof/Machine/DocketOps.lean ====
section
/-!
DEFINITION. What the operations of a docket compute (Table 5.6): each reads its input buffers, checks them, and gives the bytes of
its outputs, by the same kernels that the stalls use (R126: a split over stalls and Quarters changes no bit).
-/
namespace Sys2Proof.Machine

/-! ### Reading buffers -/

/-- An operation at work: it fails with a status of Table 5.8, or is held by the Surveyor. -/
abbrev DocM := ExceptT Nat IoM

/-- Where an operation runs: the Quarter and requester of its accesses, its address space, its function, its docket and its number in it. -/
structure DEnv where
  q : Nat
  req : Nat
  asid : Nat
  func : Nat
  d : Docket
  n : Nat
  op : DOp

/-- An access of the instance's memory. -/
def dIo {α : Type} (m : IoM α) : DocM α := do
  match ← (ExceptT.lift (ioTry m) : DocM (Option α)) with
  | some x => pure x
  | none => throw 0x05

def dGet : DocM State := ExceptT.lift ioGet
def dSet (f : State → State) : DocM Unit := ExceptT.lift (ioSet f)

/-- `n` free values used. -/
def dFresh (n : Nat) : DocM Nat := do
  let s ← dGet
  dSet fun s => s.useFresh n
  pure s.fresh

/-- The declaration of a buffer. -/
def DEnv.buf (e : DEnv) (r : Nat) : DBuf := e.d.prog.bufs.getD r (bufOf [] 0)
/-- Input and output buffer numbers of the operation. -/
def DEnv.i (e : DEnv) (k : Nat) : Nat := e.op.ins.getD k noRef
def DEnv.o (e : DEnv) (k : Nat) : Nat := e.op.outs.getD k noRef
def DEnv.pol (e : DEnv) : Nat := e.d.prog.polOf e.op

/-- Bytes of a buffer, and whether they are poisoned. A SCRATCH buffer that nothing has written holds undefined bytes (R141). -/
def DEnv.raw (e : DEnv) (r off n : Nat) : DocM (Bytes × Bool) := do
  let b := e.buf r
  if n = 0 then pure ([], false)
  else if b.cls = 3 then
    match look e.d.scratch r with
    | some (x, p) => pure (slice x off n, p)
    | none => do
      let f ← dFresh n
      pure ((List.range n).map fun i => Config.freeByte (f + i), false)
  else dIo (ioRead e.q e.req e.asid (b.addr + off) n)

/-- As `raw`; poisoned bytes end the operation. -/
def DEnv.bytes (e : DEnv) (r off n : Nat) : DocM Bytes := do
  let (b, p) ← e.raw r off n
  if p then throw 0x06 else pure b

/-- A whole buffer. -/
def DEnv.all (e : DEnv) (r : Nat) : DocM Bytes := e.bytes r 0 (e.buf r).bytes

/-- The number of an element's scale in an MX buffer (R105, R140). -/
def DBuf.scaleOf (b : DBuf) (i : Nat) : Nat :=
  let inner := product (b.shape.drop (b.blocked + 1))
  let k := b.dims.getD b.blocked 1
  (i / (inner * k) * (k / 32) + i / inner % k / 32) * inner + i % inner

/-- The values of a dense buffer's bytes, in row-major order. -/
def DBuf.values (b : DBuf) (raw : Bytes) : List Ex :=
  if isMx b.fmt then (List.range b.count).map fun i => mxValue b.fmt raw (raw.drop b.scaleAt) i (b.scaleOf i)
  else plainValues b.fmt raw b.count

/-- The bits of a dense buffer's elements. -/
def DBuf.bits (b : DBuf) (raw : Bytes) : List Nat := (List.range b.count).map fun i => packedAt raw (elemBits b.fmt) i

/-- Rows of a list. -/
def rowsOf {α : Type} (w : Nat) (l : List α) : List (List α) := chunks w (l.length + 1) l

def DEnv.vals (e : DEnv) (r : Nat) : DocM (List Ex) := do pure ((e.buf r).values (← e.all r))
def DEnv.elems (e : DEnv) (r : Nat) : DocM (List Nat) := do pure ((e.buf r).bits (← e.all r))

/-- Tally cells; a malformed one is a malformed operand (R136). -/
def cellsOf (b : Bytes) (n : Nat) : Option (List Tw) := (List.range n).mapM fun i => Tw.ofCell (slice b (i * 96) 96)
def DEnv.cells (e : DEnv) (r : Nat) : DocM (List Tw) := do
  match cellsOf (← e.all r) (e.buf r).count with
  | some l => pure l
  | none => throw 0x02

/-- The elements and scale bytes of `w` columns of row `i` of a two-dimensional buffer blocked along dimension 1. -/
def DEnv.rowBytes (e : DEnv) (r i : Nat) : DocM (Bytes × Bytes) := do
  let b := e.buf r
  let w := b.d 1
  let x ← e.bytes r (i * packedLen b.fmt w) (packedLen b.fmt w)
  let sc ← if isMx b.fmt then e.bytes r (b.scaleAt + i * (w / 32)) (w / 32) else pure []
  pure (x, sc)

/-- The values of a row. -/
def rowValues (fmt w : Nat) (x : Bytes × Bytes) : List Ex :=
  if isMx fmt then (List.range w).map fun c => mxValue fmt x.1 x.2 c (c / 32) else plainValues fmt x.1 w

/-! ### Results -/

/-- What an operation leaves in an output slot: bytes at offsets, and the flags of R123. -/
structure DOut where
  slot : Nat
  parts : List (Nat × Bytes)
  nan : Bool := false
  ovf : Bool := false
  deriving DecidableEq, Repr

/-- An element of a buffer's bytes is a NaN (R123). -/
def DBuf.nanIn (b : DBuf) (raw : Bytes) : Bool :=
  if isMx b.fmt then decide (raw.length = b.bytes) && (b.values raw).any fun v => decide (v = .nan)
  else if b.fmt = 0x20 then (List.range (raw.length / 96)).any fun i => match Tw.ofCell (slice raw (i * 96) 96) with
    | some w => w.nanFlag
    | none => false
  else (plainF b.fmt).isSome && (plainValues b.fmt raw (raw.length * 8 / elemBits b.fmt)).any fun v => decide (v = .nan)

/-- Copied bytes in a slot. -/
def DEnv.copied (e : DEnv) (k : Nat) (b : Bytes) : DOut := { slot := k, parts := [(0, b)], nan := (e.buf (e.o k)).nanIn b }

/-- Values rounded into a slot (R119–R124). -/
def DEnv.rounded (e : DEnv) (k : Nat) (vs : List Ex) : DOut :=
  let b := e.buf (e.o k)
  let (x, sc, n, o) := encodeVals b.fmt e.pol vs
  { slot := k, parts := if isMx b.fmt then [(0, x), (b.scaleAt, sc)] else [(0, x)], nan := n, ovf := o }

/-- Tally words in a slot, unrounded. -/
def cellOut (k : Nat) (ws : List Tw) : DOut := { slot := k, parts := [(0, ws.flatMap Tw.cell)], nan := ws.any Tw.nanFlag }

/-- Sums in a slot: each from its terms. -/
def DEnv.sums (e : DEnv) (k : Nat) (terms : List (List Ex)) : DocM DOut := do
  if (e.buf (e.o k)).fmt = 0x20 then pure (cellOut k (terms.map sumEx))
  else
    let n := (terms.map (·.length)).sum
    let f ← dFresh (if polFast e.pol then n * terms.length else 0)
    pure (e.rounded k (terms.zipIdx.map fun x => accumulate e.pol (f + x.2 * n) x.1))

/-- INT32 numbers in a slot. -/
def intOut (k : Nat) (l : List Nat) : DOut := { slot := k, parts := [(0, l.flatMap (leBytes 4))] }

/-- Elements copied into a slot. -/
def DEnv.picked (e : DEnv) (k : Nat) (l : List Nat) : DOut :=
  let f := (e.buf (e.o k)).fmt
  { slot := k, parts := [(0, packBytes (elemBits f) l)], nan := l.any (isNan f) }

/-! ### The operations -/

/-- GEMM_BS (R173–R176). -/
def gemmDoc (e : DEnv) : DocM (List DOut) := do
  let m := e.op.par 0
  let n := e.op.par 1
  let k := e.op.par 2
  let raw ← e.all (e.i 0)
  let as ← if (e.buf (e.i 0)).fmt = 0x30 then
      match readTile (raw.take (max 16 (leAt raw 8 4))) with
      | some t => if t.rows = m ∧ 32 * t.colBlocks = k then pure t.vals else throw 0x02
      | none => throw 0x02
    else pure (rowsOf k ((e.buf (e.i 0)).values raw))
  let bs := rowsOf n (← e.vals (e.i 1))
  let cs ← if e.op.par 3 = 1 then do pure (rowsOf n (← e.cells (e.i 2))) else pure (List.replicate m [])
  let col (j : Nat) : List Ex := bs.map fun r => r.getD j (.fin 0 1)
  let cols := List.range n
  if (e.buf (e.o 0)).fmt = 0x20 then
    pure [cellOut 0 ((as.zip cs).flatMap fun x => cols.map fun j => dotTw x.1 (col j) x.2[j]?)]
  else pure [e.rounded 0 ((as.zip cs).flatMap fun x => cols.map fun j => dotEx e.pol x.1 (col j) x.2[j]?)]

/-- GATHER_POOL (R198–R203). -/
def poolDoc (e : DEnv) : DocM (List DOut) := do
  let tb := e.buf (e.i 0)
  let mode := e.op.par 0
  let xs ← e.elems (e.i 1)
  let os ← e.elems (e.i 2)
  let ws ← if mode = 2 then e.vals (e.i 3) else pure []
  let names := xs.map (indexRow (e.op.par 1 = 1) (tb.d 0))
  if names.contains none ∨ os.any (fun o => xs.length < o) then throw 0x07
  else
    let segs := (List.range (os.length - 1)).map fun i => segPositions (os.getD i 0) (os.getD (i + 1) 0) 0 xs.length
    let rows ← segs.mapM fun js => js.mapM fun j => do
      pure (rowValues tb.fmt (tb.d 1) (← e.rowBytes (e.i 0) ((names.getD j none).getD 0)))
    let wt (js : List Nat) : List Ex := js.map fun j => ws.getD j (.fin 0 1)
    let cols := List.range (tb.d 1)
    if (e.buf (e.o 0)).fmt = 0x20 then
      pure [cellOut 0 ((segs.zip rows).flatMap fun x => cols.map fun c => poolTw mode (wt x.1) (column x.2 c))]
    else
      let g := (segs.map (·.length)).sum
      let f ← dFresh (if polFast e.pol then g * tb.d 1 else 0)
      pure [e.rounded 0 ((segs.zip rows).flatMap fun x =>
        cols.map fun c => poolEx e.pol mode (f + c * g) (wt x.1) (column x.2 c))]

/-- TOP_K (R211). -/
def topkDoc (e : DEnv) : DocM (List DOut) := do
  let b := e.buf (e.i 0)
  let rows := rowsOf (b.d 1) (← e.elems (e.i 0))
  let orders := rows.map fun r => (sortOrder b.fmt (e.op.par 1) r).take (e.op.par 0)
  pure [e.picked 0 ((rows.zip orders).flatMap fun x => pick b.fmt x.1 x.2), intOut 1 (orders.flatMap id)]

/-- SORT (R211). -/
def sortDoc (e : DEnv) : DocM (List DOut) := do
  let b := e.buf (e.i 0)
  let rows := rowsOf (b.d 1) (← e.elems (e.i 0))
  let orders := rows.map (sortOrder b.fmt (e.op.par 0))
  let keys := e.picked 0 ((rows.zip orders).flatMap fun x => pick b.fmt x.1 x.2)
  if e.i 1 = noRef then pure [keys, intOut 1 (orders.flatMap id)]
  else
    let p := e.buf (e.i 1)
    let pay := rowsOf (p.d 1) (← e.elems (e.i 1))
    pure [keys, e.picked 1 ((pay.zip orders).flatMap fun x => pick p.fmt x.1 x.2)]

/-- COMPACT (R212). -/
def compactDoc (e : DEnv) : DocM (List DOut) := do
  let b := e.buf (e.i 0)
  let row ← e.elems (e.i 0)
  let kept ← if e.op.par 0 = 0 then do pure (keepMask (← e.elems (e.i 1))) else pure (keepDedup b.fmt row)
  pure [e.picked 0 (compacted b.fmt row kept), intOut 1 [kept.length]]

/-- GATE (R221–R223). -/
def gateDoc (e : DEnv) : DocM (List DOut) := do
  let b := e.buf (e.i 0)
  let rows := rowsOf (b.d 1) (← e.elems (e.i 0))
  let picks := rows.map fun r => (r, (sortOrder b.fmt 0 r).take (e.op.par 0))
  let val (bs : List Nat) : List Ex := bs.map (decodeElem b.fmt)
  pure [e.rounded 0 (picks.flatMap fun p => gateWeights (e.op.par 1) (val (p.2.map fun i => p.1.getD i 0)) (val p.1)),
    intOut 1 (picks.flatMap (·.2))]

/-- DISPATCH (R227–R230). -/
def dispatchDoc (e : DEnv) : DocM (List DOut) := do
  let x := e.buf (e.i 0)
  let r := e.buf (e.i 1)
  let o := e.buf (e.o 1)
  let cap := e.op.par 0
  let eN := (e.buf (e.o 0)).d 0
  let table ← e.elems (e.i 0)
  let homes ← if e.i 2 = noRef then pure (List.replicate eN 0) else e.elems (e.i 2)
  if table.any (fun v => v ≠ minus1 ∧ eN ≤ v) then throw 0x07
  else if homes.any badHome then throw 0x02
  else
    let cs := choicesOf table (x.d 0) (x.d 1)
    let ds := (List.range eN).map fun i => demandOf cs homes i cap
    if e.op.par 1 = 1 ∧ ds.any (fun d => 0 < d.excess) then throw 0x09
    else
      let w := r.d 1
      let blank : Bytes × Bytes := (slice [] 0 (packedLen r.fmt w), if isMx r.fmt then slice [] 0 (w / 32) else [])
      let rows ← ds.mapM fun d => (List.range cap).mapM fun s => match d.accepted[s]? with
        | some c => e.rowBytes (e.i 1) c.t
        | none => pure blank
      let flat := rows.flatMap id
      let list := ds.flatMap fun d => (List.range cap).map fun s => match d.accepted[s]? with
        | some c => c.entry
        | none => minus1
      let out1 : DOut := {
        slot := 1
        parts := (0, flat.flatMap (·.1)) :: (if isMx r.fmt then [(o.scaleAt, flat.flatMap (·.2))] else [])
        nan := flat.any fun p => (rowValues r.fmt w p).any fun v => decide (v = .nan) }
      pure ([intOut 0 list, out1] ++ (if e.o 2 = noRef then [] else [intOut 2 (ds.map (·.named))]))

/-- COMBINE (R235, R236). -/
def combineDoc (e : DEnv) : DocM (List DOut) := do
  let x := e.buf (e.i 0)
  let wb := e.buf (e.i 2)
  let list ← e.elems (e.i 1)
  let tN := wb.d 0
  let kN := wb.d 1
  if list.any (badEntry (some tN) kN) then throw 0x07
  else
    let rows ← (List.range tN).mapM fun t => (entriesOf list t).mapM fun p => do
      let n := elemBits wb.fmt / 8
      let wt ← e.bytes (e.i 2) ((t * kN + p.1) * n) n
      let v ← e.rowBytes (e.i 0) p.2
      pure ((rowValues x.fmt (x.d 1) v).map fun y => (decodeElem wb.fmt (leNat wt)).mul y)
    let o ← e.sums 0 (rows.flatMap fun r => (List.range (x.d 1)).map fun c => column r c)
    pure [o]

/-- COMPRESS (R617, R618). -/
def compressDoc (e : DEnv) : DocM (List DOut) := do
  let b ← e.all (e.i 0)
  match (if e.op.par 0 = 0 then some (compress b) else Config.unpack b) with
  | none => throw 0x02
  | some r =>
    if (e.buf (e.o 0)).bytes < r.length then throw 0x07
    else pure ([e.copied 0 r] ++ (if e.o 1 = noRef then [] else [intOut 1 [r.length]]))

/-- A context that an operation names, with its key (none for SHA-256): the checks of Table 17.6. -/
def DEnv.context (e : DEnv) : DocM (Nat × CashCtx × Bytes) := do
  let s ← dGet
  match s.ctxOf (e.op.par 0) with
  | none => throw 0x02
  | some (n, c) =>
    if c.inst ≠ e.func ∨ c.algo ≠ e.op.par 1 ∨ c.algo = 6 then throw 0x02
    else if c.state = 3 then throw 0x0B
    else if c.state = 2 then throw 0x02
    else match s.keyOf c.inst c.key with
      | some k => pure (n, c, k.key)
      | none => throw 0x02

/-- The two computations of a block differ (R426, R427): CIPHER_FAULT. -/
def DEnv.compare (e : DEnv) (n : Nat) (mismatch : Bool) : DocM Unit := do
  let s ← dGet
  let hit := (s.injAt 0x0D e.req (fun _ => true)).isSome
  if hit || mismatch then
    dSet fun s => (if hit then s.injFire else s).cipherFault e.req n hit
    throw 0x0B
  else pure ()

/-- An XTS operation: the data units from the context's TWEAK, which then advances (R425). -/
def DEnv.xts (e : DEnv) (dec mismatch : Bool) (n : Nat) (c : CashCtx) (key data : Bytes) : DocM (List DOut) := do
  if data.length % 2 ^ c.unitLog2 ≠ 0 then throw 0x02
  else
    e.compare n mismatch
    dSet fun s => s.setCtxRec n { c with
      active := some e.req, verified := false, tweak := (c.tweak + data.length / 2 ^ c.unitLog2) % 2 ^ 128 }
    pure [e.copied 0 (Sys2Proof.Machine.xts dec key c.unitLog2 c.tweak data)]

/-- ENCRYPT (R414, R418, R421). -/
def encryptDoc (e : DEnv) (mismatch : Bool) : DocM (List DOut) := do
  let (n, c, key) ← e.context
  let data ← e.all (e.i 0)
  if isXts c.algo then e.xts false mismatch n c key data
  else
    let aad ← if e.i 1 = noRef then pure [] else e.all (e.i 1)
    if aeadMax < data.length ∨ e.o 1 = noRef then throw 0x02
    else
      let s ← dGet
      match s.drawNonce e.req n with
      | none => throw 0x02
      | some (s', nonce, _) =>
        dSet fun _ => s'
        e.compare n mismatch
        dSet fun s => s.setCtxRec n { s.ctxRec n with active := some e.req, verified := false }
        let (r, tag) := aeadSeal c.algo key nonce aad data
        pure [e.copied 0 r, e.copied 1 (tagRecord nonce tag)]

/-- DECRYPT (R422–R425). Above 64 KiB firmware verifies the message first, so nothing is released under a wrong tag. -/
def decryptDoc (e : DEnv) (mismatch : Bool) : DocM (List DOut) := do
  let (n, c, key) ← e.context
  let data ← e.all (e.i 0)
  if isXts c.algo then e.xts true mismatch n c key data
  else
    let aad ← if e.i 1 = noRef then pure [] else e.all (e.i 1)
    if e.i 2 = noRef then throw 0x02
    else
      let t ← e.bytes (e.i 2) 0 32
      e.compare n mismatch
      dSet fun s => s.setCtxRec n { c with active := some e.req, verified := false }
      match aeadOpen c.algo key (slice t 0 12) aad data (slice t 16 16) with
      | some r => pure [e.copied 0 r]
      | none => throw 0x0A

/-- A local MOVE (R148). A remote one writes nothing here. -/
def moveDoc (e : DEnv) : DocM (List DOut) := do
  let o := e.op.par 0
  let n := e.op.par 1
  if (e.buf (e.i 0)).bytes < o + n then throw 0x07
  else if e.op.par 2 ≠ noOpt then
    let _ ← e.bytes (e.i 0) o n
    pure []
  else if (e.buf (e.o 0)).bytes < n then throw 0x07
  else pure [e.copied 0 (← e.bytes (e.i 0) o n)]

/-! ### REDUCE (R317–R327) -/

/-- A contribution of a member: its parts, the bytes of its IN0, and whether they are poisoned. -/
abbrev Contribution := Nat × Bytes × Bool

/-- The buffer that a member's IN0 is: as this member's, with the member's own number of parts. -/
def DBuf.withParts (b : DBuf) (p : Nat) : DBuf := if b.fmt = 0x31 then b else { b with dims := p :: b.dims.drop 1 }

/-- The words that a member contributes to each element under SUM: one list per part. None when malformed. -/
def memberWords (b : DBuf) (raw : Bytes) : Option (List (List Tw)) :=
  if b.fmt = 0x20 then (cellsOf raw b.count).map (rowsOf (b.d 1))
  else if b.fmt = 0x31 then
    let vo := roundUp (0x10 + leAt raw 12 4) 8
    match readWire (raw.take (roundUp (vo + leAt raw 4 4 * (elemBits (leAt raw 0 1) / 8)) 8)) with
    | some w => if w.length = b.d 0 then some [wirePart w 0 w.length] else none
    | none => none
  else some (rowsOf (b.d 1) ((b.values raw).map fun v => ({} : Tw).add v))

/-- Elements and scale bytes of a one-part contribution. -/
def memberParts (b : DBuf) (raw : Bytes) : List Nat × Bytes :=
  (b.bits raw, if isMx b.fmt then slice raw b.scaleAt (b.count / 32) else [])

/-- The sums of a list of words per element, as an output of `q` copies. -/
def DEnv.sumRows (e : DEnv) (q : Nat) (words : List (List Tw)) : DocM (List DOut) := do
  if (e.buf (e.o 0)).fmt = 0x20 then
    let ts := words.map fun ws => ws.foldl Tw.merge {}
    pure [cellOut 0 ((List.replicate q ts).flatMap id)]
  else
    let n := (words.map (·.length)).sum
    let f ← dFresh (if polFast e.pol then n * words.length else 0)
    let vs := words.zipIdx.map fun x => reduceSum e.pol (f + x.2 * n) x.1
    pure [e.rounded 0 ((List.replicate q vs).flatMap id)]

/-- Copied elements and scale bytes, as an output of `q` copies. -/
def DEnv.copyRows (e : DEnv) (q : Nat) (x : List Nat × Bytes) : DOut :=
  let b := e.buf (e.o 0)
  let el := packBytes (elemBits b.fmt) ((List.replicate q x.1).flatMap id)
  let raw := if b.fmt = 0x20 then [] else slice el 0 b.scaleAt ++ (List.replicate q x.2).flatMap id
  { slot := 0, parts := (0, el) :: (if isMx b.fmt then [(b.scaleAt, (List.replicate q x.2).flatMap id)] else []),
    nan := if isMx b.fmt then b.nanIn raw else b.nanIn el }

/-- Block `r` of `n` blocks of a contribution. -/
def blockOf (r n : Nat) (x : List Nat × Bytes) : List Nat × Bytes :=
  ((x.1.drop (r * (x.1.length / n))).take (x.1.length / n), (x.2.drop (r * (x.2.length / n))).take (x.2.length / n))

/-- Cells as elements: bytes of 96. -/
def DEnv.copyCells (q : Nat) (b : Bytes) : DOut :=
  { slot := 0, parts := [(0, (List.replicate q b).flatMap id)]
    nan := (List.range (b.length / 96)).any fun i => match Tw.ofCell (slice b (i * 96) 96) with | some w => w.nanFlag | none => false }

/-- REDUCE (R317–R323): `members` are the contributions of the other members, in rank order. -/
def reduceDoc (e : DEnv) (comm : Option Comm) (members : List Contribution) : DocM (List DOut) := do
  let b := e.buf (e.i 0)
  let ob := e.buf (e.o 0)
  let op := e.op.par 0
  let kind := e.op.par 1
  let own ← e.all (e.i 0)
  let rank := match comm with | some c => c.rank | none => 0
  let p := if b.fmt = 0x31 then 1 else b.d 0
  let all : List Contribution := if kind = 0 then [(p, own, false)] else members.take rank ++ (p, own, false) :: members.drop rank
  let n := all.length
  let q := if kind = 0 then 1 else ob.d 0
  let bufs := all.map fun x => (b.withParts x.1, x.2.1)
  let ownBad := (b.fmt = 0x20 ∨ b.fmt = 0x31) ∧ (memberWords b own).isNone
  if ownBad then throw 0x02
  else if all.any (·.2.2) ∨ ((b.fmt = 0x20 ∨ b.fmt = 0x31) ∧ bufs.any fun x => (memberWords x.1 x.2).isNone) then throw 0x06
  else
    let l := if b.fmt = 0x31 then b.d 0 else b.d 1
    let mine (xs : List Nat) : List Nat := if kind = 2 then (xs.drop (rank * (l / n))).take (l / n) else xs
    if kind = 3 ∨ kind = 4 ∨ kind = 5 then
      let pick (x : List Nat × Bytes) : List Nat × Bytes := if kind = 5 then blockOf rank n x else x
      let from_ := if kind = 4 then (bufs.drop op).take 1 else bufs
      if b.fmt = 0x20 then
        let blk (c : Bytes) : Bytes := if kind = 5 then (c.drop (rank * (c.length / n))).take (c.length / n) else c
        pure [DEnv.copyCells q (from_.flatMap fun x => blk x.2)]
      else
        let ps := from_.map fun x => pick (memberParts x.1 x.2)
        pure [e.copyRows q (ps.flatMap (·.1), ps.flatMap (·.2))]
    else if op ≠ 0 ∧ kind ≠ 6 then
      let parts := bufs.flatMap fun x => rowsOf l (x.1.bits x.2)
      let out := (mine (List.range l)).map fun i => extreme op b.fmt (parts.map fun r => r.getD i 0)
      pure [e.picked 0 ((List.replicate q out).flatMap id)]
    else
      let parts := bufs.flatMap fun x => (memberWords x.1 x.2).getD []
      e.sumRows q ((mine (List.range l)).map fun i => parts.map fun r => r.getD i {})

/-- What an operation other than SCATTER_ADD and those without buffers computes. -/
def DEnv.run (e : DEnv) (comm : Option Comm) (members : List Contribution) (mismatch : Bool) : DocM (List DOut) :=
  match e.op.opcode with
  | 0x01 => gemmDoc e
  | 0x02 => poolDoc e
  | 0x04 => topkDoc e
  | 0x05 => sortDoc e
  | 0x06 => compactDoc e
  | 0x07 => gateDoc e
  | 0x08 => dispatchDoc e
  | 0x09 => combineDoc e
  | 0x0A => reduceDoc e comm members
  | 0x0B => compressDoc e
  | 0x0C => encryptDoc e mismatch
  | 0x0D => decryptDoc e mismatch
  | 0x0E => moveDoc e
  | _ => pure []

end Sys2Proof.Machine
end

