-- ==== Sys2Proof/Machine/Docket.lean ====
section
/-!
DEFINITION. The life of a docket: submission, cancel, the operations, completion (R138, R151–R158, R163–R171).
-/
namespace Sys2Proof.Machine

/-! ### Outstanding dockets -/

/-- The outstanding docket of a tag that is not held for a lost driver. -/
def State.docket (s : State) (f tag : Nat) : Option (Inst × Docket) :=
  match s.inst f with
  | none => none
  | some i => (i.dockets.find? fun d => decide (d.tag = tag) && !d.held).map fun d => (i, d)

/-- The docket of a tag changed; only the first of that tag. -/
def State.changeDocket (s : State) (f tag : Nat) (g : Docket → Docket) : State :=
  match s.inst f with
  | none => s
  | some i => match splitDocket (fun d => decide (d.tag = tag) && !d.held) i.dockets with
    | none => s
    | some (d, ds) =>
      let at_ := (i.dockets.findIdx? fun d => decide (d.tag = tag) && !d.held).getD 0
      s.setInst f { i with dockets := ds.take at_ ++ g d :: ds.drop at_ }

/-- Dockets of an instance park at their next step boundary, and no further one starts (R154): its driver is lost, its port is in a low
power state, its precinct is quiescing, a removal drains, or a checkpoint stops it. -/
def State.parks (s : State) (f : Nat) (i : Inst) : Bool :=
  (s.func f).driverLost || s.ringsPaused f || s.precPaused i.prec || i.stopping

/-! ### Submission (R138, R163–R171) -/

/-- The status that refuses a docket, or the docket that runs. -/
def State.checkDocket (s : State) (i : Inst) (raw : Bytes) (len : Nat) : Except Nat DocketP :=
  match parseDocket raw len i with
  | .error st => .error st
  | .ok p =>
    if p.certified && !p.certForm then .error 0x01
    else if p.certified && !p.certOk raw then .error 0x03
    else if !s.placeable i p then .error 0x04
    else .ok p

/-- The Bell counters given for the EXTERNAL counters of a docket are distinct counters of the precinct, one for each. -/
def State.bindingOk (s : State) (i : Inst) (p : DocketP) (bound : List (Nat × Nat)) : Bool :=
  decide (bound.map (·.1) = (p.ctrs.zipIdx.filter (·.1.ext)).map (·.2)) &&
  bound.all (fun x => decide (x.2 < 16384) && decide (s.precOfBell (x.2 / 4096) (x.2 % 4096) = some i.prec)) &&
  decide ((bound.map (·.2)).Nodup)

/-- A docket as accepted: every counter at its INIT. -/
def newDocket (f tag addr compl : Nat) (p : DocketP) (refused : Option Nat) (bound : List (Nat × Nat)) : Docket :=
  { func := f, tag := tag, addr := addr, complAddr := compl, prog := p, phases := p.ops.map fun _ => .waiting,
    ctrs := p.ctrs.map (·.init), refused := refused, fastUsed := refused.isNone && p.ops.any fun o => polFast (p.polOf o),
    certOk := refused.isNone && p.certified, bound := bound.foldl (fun t x => put t x.1 x.2) [] }

/-- A docket that could not be read or parsed: only its number of buffers is known. -/
def blankProg (nb : Nat) : DocketP :=
  { version := 0, certified := false, policy := 0, bufs := List.replicate nb (bufOf [] 0), ctrs := [], preds := [], ops := [], cert := [] }

/-- A docket accepted from its message: `bound` maps its EXTERNAL counters onto Bell counters of the precinct. -/
def State.acceptDocket (s : State) (f : Nat) (i : Inst) (m : Bytes) (bound : List (Nat × Nat)) (far : List FarAns) : State × Option Docket :=
  let addr := mNum m 0 8
  let len := mNum m 8 4
  let tag := mNum m 24 8
  let q := s.fwQuarter
  let new := newDocket f tag addr (mNum m 16 8)
  match (ioTry (ioRead q (0x8000 + 4 * q) i.asid addr (min len (2 ^ 24)))).at s far with
  | (s, .error _) => (s, none)
  | (s, .ok none) => (s, some (new (blankProg 0) (some 0x05) []))
  | (s, .ok (some (_, true))) => (s, some (new (blankProg 0) (some 0x06) []))
  | (s, .ok (some (raw, false))) =>
    match s.checkDocket i raw len with
    | .error st =>
      let p := match parseDocket raw len i with
        | .ok p => p
        | .error _ => blankProg (if 64 ≤ len ∧ leAt raw 0x10 2 ≤ 4096 then leAt raw 0x10 2 else 0)
      (s, some { new p (some st) [] with phases := p.ops.map fun _ => .done })
    | .ok p =>
      if s.bindingOk i p bound then
        (s.bells (bound.map fun x => .set x.2 (match p.ctrs[x.1]? with | some c => c.init | none => 0) (0x8000 + 4 * q)), some (new p none bound))
      else (s, none)

/-- DOCKET_SUBMIT (R166, R481): OK when the docket is accepted, BUSY with 64 outstanding. -/
def execDocketSubmit (f : FuncNo) (bound : List (Nat × Nat)) (far : List FarAns) (s : State) : Host.Outcome State Fault Refusal :=
  let f := f.val
  match s.takeMsg f 0x0010 32 with
  | .error s => done s
  | .ok m =>
    match s.inst f with
    | none => done s
    | some i =>
      if !mZero m 12 4 ∨ mNum m 16 8 % 64 ≠ 0 then done (s.reply f m 1 0 [])
      else if 64 ≤ i.dockets.length then done (s.reply f m 2 0 [])
      else match s.acceptDocket f i m bound far with
        | (s, none) => done s
        | (s, some d) => done ((s.setInst f { i with dockets := i.dockets ++ [d] }).reply f m 0 0 [])

/-- DOCKET_CANCEL (R167). -/
def execDocketCancel (f : FuncNo) (s : State) : Host.Outcome State Fault Refusal :=
  let f := f.val
  done (s.onInst f 0x0011 8 fun _ m =>
    let tag := mNum m 0 8
    match s.docket f tag with
    | some (_, d) => if d.over then (s, 3, 0, []) else (s.changeDocket f tag fun d => d.endWith 0x10 noOp, 0, 0, [])
    | none => (s, 3, 0, []))

/-! ### Starting (R144, R146, R151, R154, R168) -/

/-- Operation `n` of a docket has started. -/
def Docket.startedOp (d : Docket) (n : Nat) : Bool := d.phases.getD n .done ≠ .waiting
/-- Operation `n` has completed or been skipped. -/
def Docket.doneOp (d : Docket) (n : Nat) : Bool := decide (d.phases.getD n .done = .done) || decide (d.phases.getD n .done = .skipped)

/-- The order that step boundaries, cipher contexts and collectives put on operation `n` (R154, R325, R418). -/
def Docket.inTurn (d : Docket) (i : Inst) (n : Nat) (o : DOp) : Bool :=
  (List.range n).all (fun k => match d.prog.ops[k]? with
    | none => true
    | some x => (!o.step || d.doneOp k) && (!x.step || d.startedOp k) &&
      (!((o.opcode = 0x0C || o.opcode = 0x0D) && (x.opcode = 0x0C || x.opcode = 0x0D) && decide (o.par 0 = x.par 0)) || d.doneOp k)) &&
  (decide (o.opcode ≠ 0x0A) || decide (o.par 1 = 0) || i.dockets.all fun x => x.prog.ops.zipIdx.all fun y =>
    !(decide (y.1.opcode = 0x0A) && decide (y.1.par 1 ≠ 0) && decide (y.1.par 2 = o.par 2) && decide (x.phases.getD y.2 .done = .running)))

/-- Every wait of an operation can be met; two waits on one counter are met together. -/
def State.waitsMet (s : State) (d : Docket) (o : DOp) : Bool :=
  o.waits.all fun w => decide (((o.waits.filter fun x => x.1 = w.1).map (·.2)).sum ≤ s.dctr d w.1)

/-- The waits of an operation consumed at once. -/
def State.takeWaits (s : State) (d : Docket) (o : DOp) : State × Docket :=
  o.waits.foldl (fun x w => match look x.2.bound w.1 with
    | some k => (x.1.consume k w.2, x.2)
    | none => (x.1, { x.2 with ctrs := x.2.ctrs.set w.1 (x.2.ctrs.getD w.1 0 - w.2) })) (s, d)

/-- The stalls given to an operation are of the kinds it needs, of the precinct, and at work. -/
def State.placedOk (s : State) (i : Inst) (p : DocketP) (o : DOp) (placed : List Nat) : Bool :=
  (p.kinds o).all (fun k => placed.any fun st => (s.serving i.prec k).contains st) &&
  (decide (o.opcode = 0x12) || placed.all fun st => (p.kinds o).any fun k => (s.serving i.prec k).contains st)

/-- A comparison of a predicate (Table 5.4). -/
def DPred.holds (p : DPred) (v : Int) (ref : Int) : Bool :=
  match p.cmp with
  | 0 => decide (v = ref)
  | 1 => decide (v ≠ ref)
  | 2 => decide (v < ref)
  | _ => decide (ref ≤ v)

/-- The requester for an operation's accesses: its first stall, the Porter channel of a MOVE, or firmware. -/
def State.opReq (s : State) (i : Inst) (o : DOp) (placed : List Nat) : Nat × Nat :=
  match placed with
  | st :: _ => if o.opcode = 0x12 then (s.fwQuarter, 0x8000 + 4 * s.fwQuarter) else (stallQ st, st)
  | [] => match (if o.opcode = 0x0E then s.armed' i.prec s.fwQuarter else none) with
    | some c => (c / 64, chReq c)
    | none => (s.fwQuarter, 0x8000 + 4 * s.fwQuarter)

/-- The environment of an operation. -/
def State.opEnv (s : State) (f : Nat) (i : Inst) (d : Docket) (n : Nat) (o : DOp) (placed : List Nat) : DEnv :=
  let (q, req) := s.opReq i o placed
  { q := q, req := req, asid := i.asid, func := f, d := d, n := n, op := o }

/-- The outcome of an operation's predicate (R144); a status where its element cannot be read. -/
def State.predicate (s : State) (e : DEnv) (far : List FarAns) : State × Except IoStop (Except Nat Bool) :=
  match e.d.prog.preds[e.op.pred]? with
  | none => (s, .ok (.ok true))
  | some p =>
    if p.source = 0 then (s, .ok (.ok (p.holds (s.dctr e.d p.ref) p.value != e.op.negate)))
    else (do
      let b ← e.bytes p.ref (4 * p.index) 4
      pure (p.holds (signed 32 (leNat b)) (signed 32 p.value) != e.op.negate) : DocM Bool).run.at s far

/-- An operation's SIGNAL, saturating (R143, R152, R153); a saturation is its status if it had none. -/
def Docket.signalOp (d : Docket) (n : Nat) (o : DOp) : Docket :=
  if o.sig = noRef then d
  else
    let v := d.ctrs.getD o.sig 0 + o.sigCount
    let d := { d with ctrs := d.ctrs.set o.sig (min v (2 ^ 24 - 1)) }
    if 2 ^ 24 ≤ v ∧ (look d.fails n).isNone then { d with fails := put d.fails n 0x08 } else d

/-- The sync entry and participant of a BELL, the group it arrives at, and the group whose release ends it (R310, R311). -/
def bellGroups (o : DOp) (placed : List Nat) : Option (Nat × Nat × Nat × Nat) :=
  match o.par 0, placed with
  | 0, [e, p] => some (e, p, e / 256 * 64 + o.par 1, e / 256 * 64 + o.par 1)
  | 1, [e, p] => some (e, p, 256 + o.par 1, 256 + o.par 1)
  | 2, [e, p, g] => some (e, p, 256 + o.par 1, 256 + g)
  | _, _ => none

/-- RELEASES of a group. -/
def State.releases (s : State) (g : Nat) : Nat := s.fget (grpStatus g) F.bellMbStatus_RELEASES

/-- A BELL arms its sync entry for the arrival; the entry, and the releases of its last group so far, are kept with its placement. -/
def State.armBell (s : State) (i : Inst) (o : DOp) (placed : List Nat) : Option (State × List Nat) :=
  match bellGroups o placed with
  | none => none
  | some (e, p, g, g2) =>
    if 1024 ≤ e ∨ 64 ≤ p ∨ 512 ≤ g ∨ 512 ≤ g2 ∨ s.armed e then none
    else
      let rq : Requester := .core ⟨4 * (s.fwQuarter % 4), by omega⟩ true
      let w (k v : Nat) (s : State) : State := s.wr ⟨.bellSync, e / 256, 4 * (e % 256) + k⟩ (BitVec.ofNat 64 v)
      let s1 := w 2 0xFFFF (w 1 0 (w 0 (0xFFFF_FFFF + i.prec * 2 ^ 32) s))
      let word3 := (if o.par 0 = 0 then 1 else 2) + o.par 1 % 256 * 2 ^ 8 + p * 2 ^ 16 + 2 ^ 63
      some (s1.syncArm rq e (BitVec.ofNat 64 word3), placed ++ [s.releases g2])

/-- OPERATION_START (R151, R152, R154): where operation `n` can start, its waits are consumed at once and its predicate evaluated; it
runs on the stalls given, or is skipped and signals. Where its docket has to park, it parks before a step boundary. -/
def execOperationStart (f : FuncNo) (tag : W64) (n : Nat) (placed : List Nat) (far : List FarAns) (s : State) :
    Host.Outcome State Fault Refusal :=
  let f := f.val
  let tag := tag.toNat
  match s.docket f tag with
  | none => done s
  | some (i, d) =>
    match d.prog.ops[n]? with
    | none => done s
    | some o =>
      if d.phases.getD n .done ≠ .waiting ∨ d.refused.isSome ∨ d.ending.isSome ∨ !d.inTurn i n o ∨ !s.waitsMet d o ∨
          !s.placedOk i d.prog o placed then done s
      else if s.parks f i ∧ (o.step ∨ !d.started) then
        done (if d.started then (s.changeDocket f tag fun d => { d with parked := true }).countHeld f else s)
      else
        let go (s : State) (d : Docket) : State := s.changeDocket f tag fun _ => { d with parked := false }
        let (s1, d1) := s.takeWaits d o
        let e := s1.opEnv f i d1 n o placed
        match s1.predicate e far with
        | (_, .error _) => done (s.predicate e far).1
        | (s2, .ok r) =>
          match r with
          | .ok false => done (go s2 ({ d1 with phases := d1.phases.set n .skipped }.signalOp n o))
          | r =>
            let d2 := { d1 with
              phases := d1.phases.set n .running, placed := put d1.placed n placed
              fails := match r with | .error st => put d1.fails n st | .ok _ => d1.fails }
            if o.opcode = 0x12 then
              match s2.armBell i o placed with
              | none => done s
              | some (s3, pl) => done (go s3 { d2 with placed := put d2.placed n pl })
            else done (go s2 d2)

/-! ### Completing (R152, R153, R155–R158) -/

/-- How an operation ended: its status, the SCRATCH contents it leaves, and the flags of its output buffers. -/
structure OpEnd where
  status : Nat
  scratch : List (Nat × Bytes × Bool) := []
  flags : List (Nat × Bool × Bool) := []

/-- The output buffers of an operation. -/
def DEnv.outBufs (e : DEnv) : List Nat := e.op.outs.filter fun r => decide (r < e.d.prog.bufs.length)

/-- Every page of the outputs in memory can be written now. -/
def DEnv.touch (e : DEnv) : IoM (Option Unit) := ioTry do
  e.outBufs.forM fun r =>
    let b := e.buf r
    if b.cls = 3 then pure () else (pages b.addr b.bytes).forM fun p => do
      let _ ← ioTranslate e.q e.req e.asid p.1 true
      pure ()

/-- The contents of a SCRATCH buffer, or undefined bytes. -/
def DEnv.oldScratch (e : DEnv) (r : Nat) : IoM Bytes := do
  match look e.d.scratch r with
  | some (x, _) => pure x
  | none =>
    let n := (e.buf r).bytes
    let s ← ioGet
    ioSet fun s => s.useFresh n
    pure (s.freeBytes n)

/-- All outputs written poisoned (R157); under the poison of a failed DECRYPT stand zeros (R424). -/
def DEnv.spoil (e : DEnv) (st : Nat) : IoM (List (Nat × Bytes × Bool)) := do
  let rs ← e.outBufs.mapM fun r => do
    let n := (e.buf r).bytes
    let s ← ioGet
    let zero := decide (st = 0x0A)
    let b : Bytes := if zero then List.replicate n 0#8 else s.freeBytes n
    ioSet fun s => if zero then s else s.useFresh n
    if (e.buf r).cls = 3 then pure [(r, b, true)]
    else do
      let _ ← ioTry (ioWrite e.q e.req e.asid (e.buf r).addr b true)
      pure []
  pure (rs.flatMap id)

/-- One output stored: in memory, or in a SCRATCH buffer. The status that a failing write gives. -/
def DEnv.store (e : DEnv) (x : DOut) : IoM (Nat × List (Nat × Bytes × Bool)) := do
  let r := e.o x.slot
  let b := e.buf r
  if b.cls = 3 then do
    let old ← e.oldScratch r
    pure (0, [(r, x.parts.foldl (fun b p => overlay b p.1 p.2) old, false)])
  else do
    let w ← ioTry (x.parts.forM fun p => ioWrite e.q e.req e.asid (b.addr + p.1) p.2 false)
    pure (if w.isSome then 0 else 0x05, [])

/-- The adds of a SCATTER_ADD into its target (R135, R204, R205). The status of the first that fails. -/
def DEnv.addAll (e : DEnv) (rows : List (Nat × Option (List Ex))) : IoM (Nat × List Bytes) := do
  let r := e.o 0
  let b := e.buf r
  let old ← if b.cls = 3 then e.oldScratch r else pure []
  let cells : List Bytes := (List.range b.count).map fun i => slice old (96 * i) 96
  rows.foldlM (fun (x : Nat × List Bytes) row => match row.2 with
    | none => pure (if x.1 = 0 then 0x06 else x.1, x.2)
    | some vs => vs.zipIdx.foldlM (fun (x : Nat × List Bytes) v => do
        let c := row.1 * b.d 1 + v.2
        if b.cls = 3 then
          match Tw.ofCell (x.2.getD c []) with
          | some w => pure (x.1, x.2.set c (w.add v.1).cell)
          | none => pure (if x.1 = 0 then 0x02 else x.1, x.2)
        else
          let s ← ioGet
          match s.cellAdd e.q e.req e.asid (b.addr + 96 * c) (fun w => w.add v.1) with
          | (s, .held) =>
            ioSet fun _ => s
            throw .held
          | (s, .ended st) =>
            ioSet fun _ => s
            pure (if x.1 = 0 then st else x.1, x.2)) x) (0, cells)

/-- SCATTER_ADD (R204, R205): every index is checked before any add. A target whose adds never began is not poisoned. -/
def DEnv.scatter (e : DEnv) : IoM OpEnd := do
  let tb := e.buf (e.i 0)
  let r := e.o 0
  let read : DocM (List (Nat × Option (List Ex))) := do
    let names := (← e.elems (e.i 1)).map (indexRow false ((e.buf r).d 0))
    if names.contains none then throw 0x07
    else names.zipIdx.mapM fun x => do
      let row : DocM (Option (List Ex)) := tryCatch
        (do pure (some (rowValues tb.fmt (tb.d 1) (← e.rowBytes (e.i 0) x.2))))
        (fun st => if st = 0x06 then pure none else throw st)
      pure (x.1.getD 0, ← row)
  match ← read.run with
  | .error st => pure { status := st }
  | .ok rows =>
    let (st, cells) ← e.addAll rows
    if st ≠ 0 then pure { status := st, scratch := ← e.spoil st }
    else
      let raw ← if (e.buf r).cls = 3 then pure (some (cells.flatMap id, false))
        else ioTry (ioRead e.q e.req e.asid (e.buf r).addr (e.buf r).bytes)
      pure {
        status := 0
        scratch := if (e.buf r).cls = 3 then [(r, cells.flatMap id, false)] else []
        flags := [(r, match raw with | some (b, _) => (e.buf r).nanIn b | none => false, false)] }

/-- An operation that ran: its outputs stored, or poisoned where it failed with a status that is not ending. -/
def DEnv.finish (e : DEnv) (comm : Option Comm) (members : List Contribution) (mismatch : Bool) : IoM OpEnd := do
  let t ← e.touch
  let fail (st : Nat) : IoM OpEnd := do
    if st = 0x0B ∨ st = 0x0F then pure { status := st } else pure { status := st, scratch := ← e.spoil st }
  match look e.d.fails e.n, t with
  | some st, _ => fail st
  | _, none => fail 0x05
  | none, some () =>
    if e.op.opcode = 3 then e.scatter
    else match ← (e.run comm members mismatch).run with
      | .error st => fail st
      | .ok outs =>
        let rs ← outs.mapM e.store
        match rs.find? fun x => x.1 ≠ 0 with
        | some (st, _) => fail st
        | none => pure { status := 0, scratch := rs.flatMap (·.2), flags := outs.map fun x => (e.o x.slot, x.nan, x.ovf) }

/-- The docket after an operation has ended: its flags, SCRATCH and status, its SIGNAL, or its ending status. -/
def Docket.opEnded (d : Docket) (n : Nat) (o : DOp) (r : OpEnd) : Docket :=
  let d := { d with
    phases := d.phases.set n .done
    scratch := r.scratch.foldl (fun t x => put t x.1 x.2) d.scratch
    flags := r.flags.foldl (fun t x => let old := (look t x.1).getD (false, false); put t x.1 (old.1 || x.2.1, old.2 || x.2.2)) d.flags }
  if r.status = 0x0B ∨ r.status = 0x0F then d.endWith r.status n
  else
    let d := if r.status = 0 then d else { d with fails := put d.fails n r.status }
    if d.ending.isSome then d else d.signalOp n o

/-- A connection that an operation uses is in ERROR (R150, R326). -/
def State.connLost (s : State) (o : DOp) (comm : Option Comm) : Bool :=
  (decide (o.opcode = 0x0E) && decide (o.par 2 ≠ noOpt) && decide ((s.conn (o.par 2)).state = 4)) ||
  (match comm with | some c => c.conns.any fun n => decide ((s.conn n).state = 4) | none => false)

/-- A BELL has been released: its sync entry is free and its last group has released since (R309). -/
def State.bellReleased (s : State) (o : DOp) (placed : List Nat) : Bool :=
  match bellGroups o (placed.dropLast) with
  | some (e, _, _, g) => !s.armed e && decide (s.releases g ≠ placed.getLastD 0)
  | none => false

/-- OPERATION_COMPLETE (R153, R157): a running operation ends. `members` are the contributions of a collective's other members, in rank
order; `mismatch` says that they disagree (R326), or that a Cashbox comparison failed (R427). -/
def execOperationComplete (f : FuncNo) (tag : W64) (n : Nat) (members : List (Nat × Bytes × Bool)) (mismatch : Bool)
    (far : List FarAns) (s : State) : Host.Outcome State Fault Refusal :=
  let f := f.val
  let tag := tag.toNat
  match s.docket f tag with
  | none => done s
  | some (i, d) =>
    match d.prog.ops[n]? with
    | none => done s
    | some o =>
      let placed := (look d.placed n).getD []
      let comm := if o.opcode = 0x0A ∧ o.par 1 ≠ 0 then i.comm (o.par 2) else none
      let fin (s : State) (r : OpEnd) : State := s.changeDocket f tag fun d => d.opEnded n o r
      if d.phases.getD n .done ≠ .running then done s
      else if o.opcode = 0x12 ∧ !s.bellReleased o placed then done s
      else if s.connLost o comm ∨ (o.opcode = 0x0A ∧ o.par 1 ≠ 0 ∧ (comm.isNone ∨ mismatch)) then done (fin s { status := 0x0F })
      else if (match comm with | some c => decide (members.length ≠ c.size - 1) | none => false) then done s
      else
        let e := s.opEnv f i d n o placed
        match (if e.req < 0x400 then s.parityInject e.req else none) with
        | some s => done s
        | none => match (e.finish comm members mismatch).at s far with
          | (s, .ok r) => done (fin s r)
          | (s, .error _) => done s

/-- BELL_HANG (R315): a generation or waiter that has passed its limit sets HANG and reports once; nothing is released.
Without a limit, or once reported, nothing happens. Hang time does not accrue while admission is paused (R592). A docket whose
operation waits so ends with HANG. -/
def execBellHang (q : Qn) (what : HangWhat) (s : State) : Host.Outcome State Fault Refusal :=
  if s.fbit ⟨.pwrStatus, 0, 0⟩ F.pwrStatus_PAUSED then done s
  else match what with
  | .waiter n pos =>
    let k := ctrKey q n
    match (s.queue k)[pos]? with
    | some w =>
      if w.hung || decide (s.hangLimit k = 0) then done s
      else
        let s := s.setQueue k ((s.queue k).set pos { w with hung := true })
        done ((s.fset (ctrStatus k) F.bellCntStatus_HANG 1).hangReport q.val 1 n.val)
    | none => done s
  | .group device m =>
    let g := (if device then 256 else 0) + q.val * 64 + m.val
    if (look s.bell.hungGroups g).isSome || decide (s.fget (grpCtrl g) F.bellMbCtrl_HANG_LIMIT_US = 0) ||
        decide (s.rd (grpArrived g) = 0) then done s
    else
      let s := { s with bell := { s.bell with hungGroups := put s.bell.hungGroups g () } }
      let idx := if device then q.val * 64 + m.val else m.val
      done ((s.fset (grpStatus g) F.bellMbStatus_HANG 1).hangReport q.val (if device then 3 else 2) idx)
  | .docket f tag n => match s.docket f.val tag.toNat with
    | none => done s
    | some (_, d) =>
      let k : Option (Nat ⊕ Nat) := match d.prog.ops[n]? with
        | none => none
        | some o =>
          if d.phases.getD n .done = .waiting then
            (o.waits.filterMap fun w => match look d.bound w.1 with
              | some k => if s.count24 k < w.2 ∧ s.hangLimit k ≠ 0 ∧ k / 4096 = q.val then some k else none
              | none => none).head?.map Sum.inl
          else if d.phases.getD n .done = .running ∧ o.opcode = 0x12 then
            match bellGroups o ((look d.placed n).getD []).dropLast with
            | some (_, _, _, g) => if s.fget (grpCtrl g) F.bellMbCtrl_HANG_LIMIT_US ≠ 0 ∧ grpQ g = q.val then some (Sum.inr g) else none
            | none => none
          else none
      if d.ending.isSome then done s
      else match k with
        | none => done s
        | some (.inl k) =>
          done (((s.fset (ctrStatus k) F.bellCntStatus_HANG 1).hangReport q.val 1 (k % 4096)).changeDocket f.val tag.toNat
            fun d => d.endWith 0x0E n)
        | some (.inr g) =>
          let s := if (look s.bell.hungGroups g).isSome then s else
            let s := { s with bell := { s.bell with hungGroups := put s.bell.hungGroups g () } }
            (s.fset (grpStatus g) F.bellMbStatus_HANG 1).hangReport q.val (if g < 256 then 2 else 3) (if g < 256 then g % 64 else g - 256)
          done (s.changeDocket f.val tag.toNat fun d => d.endWith 0x0E n)

/-- DOCKET_COMPLETE (R155, R519): a docket that is over has its record written and then its DOCKET_DONE posted. With its driver lost it
is held. -/
def execDocketComplete (f : FuncNo) (tag : W64) (s : State) : Host.Outcome State Fault Refusal :=
  let f := f.val
  match s.inst f with
  | none => done s
  | some i =>
    match splitDocket (fun d => decide (d.tag = tag.toNat) && !d.held) i.dockets with
    | none => done s
    | some (d, ds) =>
      if !d.over ∨ 3 ≤ s.fget ⟨.fwState, 0, 0⟩ F.fwState_PHASE then done s
      else if (s.func f).driverLost then
        done ((s.setInst f { i with dockets := ds ++ [{ d with held := true }] }).countHeld f)
      else match s.finishDocket f i d with
        | none => done s
        | some s => match s.inst f with
          | some i => done (s.setInst f { i with dockets := ds })
          | none => done s

end Sys2Proof.Machine
end

