-- ==== Sys2Proof/Machine/ErrorRows.lean ====
section
/-!
DEFINITION. Findings of detectors, fences and rejoins by ERR_FENCE_CTRL, and the arming of injections (chapter "Errors, containment and
injection"; R547, R552–R564).
-/
namespace Sys2Proof.Machine

/-! ### Findings (Table 24.2) -/

/-- The class of finding `n` of a detector, in the order of Table 24.2; none for one that writes no record. `unit` and `addr` are
those of its record. -/
def classOf (det n unit addr : Nat) : Option Nat :=
  match det, n with
  | 0x01, 0 => some 1
  | 0x01, 1 => some (if inSystem addr then 4 else 2)
  | 0x02, 0 => some 1
  | 0x02, 1 => some (if inSystem addr then 4 else 2)
  | 0x02, 2 => some 4
  | 0x03, 0 => some 2
  | 0x04, 0 => some 1
  | 0x04, 1 => some 4
  | 0x05, 0 => some 1
  | 0x05, 1 => some 2
  | 0x08, 0 => some 3
  | 0x09, 0 => some 1
  | 0x09, 1 => some (if 0xC000 ≤ unit then 5 else 4)
  | 0x0A, 0 => some 2
  | 0x0A, 1 => some (if unit < 0x400 then 3 else 4)
  | 0x0B, 0 | 0x0C, 0 | 0x0D, 0 => some 2
  | 0x0D, 1 => some 3
  | 0x0E, 0 => some 1
  | 0x0F, 0 => some 1
  | 0x0F, 1 => some 2
  | 0x0F, 2 => some 4
  | 0x11, 0 => some 2
  | _, _ => none

/-- ERROR_REPORT (R547, R624): finding `n` of a detector. The loss of the minimum service set is found by its own test (R556). -/
def execErrorReport (det : BitVec 8) (n : Fin 3) (prec : BitVec 8) (unit : BitVec 16) (detail : BitVec 32) (addr : BitVec 57)
    (asid : BitVec 12) (s : State) : Host.Outcome State Fault Refusal :=
  if det.toNat = 0x10 then done s.checkService
  else match classOf det.toNat n.val unit.toNat addr.toNat with
    | none => done s
    | some c =>
      if c = 3 ∧ ¬ stallOk unit.toNat then done s
      else done (s.report c det.toNat prec.toNat unit.toNat detail.toNat addr.toNat asid.toNat false)

/-! ### Resets of a stall and of a compute die (R553, Table 24.3) -/

/-- Every register whose place satisfies `p` takes its reset value. GH_MISS_RATE is held for the device. -/
def State.resetRegs (s : State) (p : Nat → Bool) : State :=
  { s with regs := s.regs.filter fun x => match Reg.ofKey x.1 with
      | some r => decide (r.name = .ghMissRate) || !p r.offset
      | none => true }

/-- An offset of the register space that compute die `q` holds (Tables 1.1 and 2.1). -/
def onDie (q off : Nat) : Bool :=
  let x := off - qBase q
  decide (qBase q ≤ off) && decide (x < 0x1000_0000) && (decide (x < 0xC40_0000) || decide (0xCC0_0000 ≤ x))

/-- The nonce registers of a Cashbox stall, as the cold boot set them. -/
def State.nonceId (s : State) (st : Nat) : State :=
  if stallKind st = 6 then s.fset ⟨.cashboxNonceId, st, 0⟩ F.cashboxNonceId_BOOT_EPOCH s.sec.flash.bootEpoch else s

/-- A stall reset (R553). -/
def State.resetUnit (s : State) (st : Nat) : State :=
  ((s.resetRegs fun o => decide (stallBase st ≤ o) && decide (o < stallBase st + 0x10_0000))).nonceId st

/-- What compute die `q` holds beyond its registers, cleared. -/
def State.resetDie (s : State) (q : Nat) : State :=
  let ours (k : Nat) : Bool := decide (k / 4096 = q)
  let grp (g : Nat) : Bool := if g < 256 then decide (g / 64 = q) else decide ((g - 256) / 64 = q)
  let b := s.bell
  let b := { b with
    queue := b.queue.filter (fun x => !ours x.1), held := b.held.filter (fun x => !ours x.1), books := b.books.filter (fun x => !ours x.1)
    arrivals := b.arrivals.filter (fun x => !grp x.1), early := b.early.filter (fun x => !grp x.1)
    hungGroups := b.hungGroups.filter (fun x => !grp x.1), snap := drop b.snap q }
  let mine (k : Nat) : Bool := decide (stallQ (Nat.unpair k).1 = q)
  { s with
    bell := b
    surv := drop s.surv q
    street := { s.street with
      outq := s.street.outq.filter (fun x => !mine x.1), inq := s.street.inq.filter (fun x => !mine x.1)
      taken := s.street.taken.filter (fun x => !mine x.1), credits := s.street.credits.filter (fun x => decide ((Nat.unpair x.1).1 ≠ q)) }
    porter := { s.porter with chans := s.porter.chans.filter fun x => decide (x.1 / 64 ≠ q) } }

/-! ### ERR_FENCE_CTRL (R552–R556) -/

abbrev fenceStatus : Reg := ⟨.errFenceStatus, 0, 0⟩

/-- An operation of ERR_FENCE_CTRL completes. -/
def State.fenceEnd (s : State) (target status : Nat) : State :=
  (s.fset fenceStatus F.errFenceStatus_STATUS status).fset fenceStatus F.errFenceStatus_TARGET target

/-- OP FENCE of a stall or a Quarter. -/
def State.fenceOp (s : State) (t : Nat) : State :=
  if stallOk t then (s.fenceStall t).fenceEnd t 0
  else if 0x8000 ≤ t ∧ t < 0x8004 then ((s.fenceQuarter (t - 0x8000)).checkService).fenceEnd t 0
  else s.fenceEnd t 1

/-- OP REJOIN of a stall (R553). -/
def State.rejoinStall (s : State) (t : Nat) (failing : List Nat) : State × Nat :=
  if s.qFenced (stallQ t) then (s, 2)
  else if s.fget ⟨.stallState, t, 0⟩ F.stallState_STATE ≠ 4 then (s, 1)
  else if 4 ≤ lookD 0 s.err.fenceCount t then (s, 3)
  else if failing.contains t then (s, 4)
  else (s.resetUnit t, 0)

/-- Step 4 of Table 24.3: the Quarter's sections of the configuration in force. -/
def State.reapply (s : State) (q : Nat) : State :=
  (s.xim.conf.borders.filter fun b => stallQ b.srcStall = q).foldl (fun s b => s.borderSetup b) (s.privSync q)

/-- OP REJOIN of a Quarter (Table 24.3, R555, R595). A core that fails its self-test is named by 0x8000 + q × 0x100 + its unit code. -/
def State.rejoinQuarter (s : State) (q : Nat) (failing : List Nat) : State × Nat :=
  if !s.xim.quiesce.isEmpty || s.xim.load.isSome || s.fbit pwrStatus F.pwrStatus_DECLARED then (s, 2)
  else if !s.qFenced q then (s, 1)
  else if (List.range 3).all fun j => s.err.whFenced.contains (3 * q + j) then (s, 3)
  else if failing.any fun u => decide (qUnit q 4 ≤ u) && decide (u ≤ qUnit q 7) then (((s.resetRegs (onDie q)).resetDie q), 4)
  else
    let s := (s.resetRegs (onDie q)).resetDie q
    let s := failing.foldl (fun s u => if stallOk u && decide (stallQ u = q) then s.fset ⟨.stallState, u, 0⟩ F.stallState_STATE 4 else s) s
    let s := (s.nonceId (stallId q 6 0)).nonceId (stallId q 6 1)
    let s := s.reapply q
    let s := forNat 4 s fun s i => s.startCore (4 * q + i)
    let sum : Reg := ⟨.errSummary, 0, 0⟩
    (s.fset sum F.errSummary_QFENCED (clearBit (s.fget sum F.errSummary_QFENCED) q), 0)

/-- OP REJOIN. -/
def State.rejoinOp (s : State) (t : Nat) (failing : List Nat) : State :=
  if stallOk t then
    let (s, st) := s.rejoinStall t failing
    s.fenceEnd t st
  else if 0x8000 ≤ t ∧ t < 0x8004 then
    let (s, st) := s.rejoinQuarter (t - 0x8000) failing
    s.fenceEnd t st
  else s.fenceEnd t 1

/-- ERR_FENCE_CTRL written. OP 0 and 3 are reserved. -/
def State.fenceCtrlWrite (s : State) (rq : Requester) (v : W64) (failing : List Nat) : State :=
  let t := bitsOf v F.errFenceCtrl_TARGET
  if !rqKernel rq && !rqPf rq then s.refuse rq ⟨.errFenceCtrl, 0, 0⟩
  else match bitsOf v F.errFenceCtrl_OP with
    | 1 => s.fenceOp t
    | 2 => s.rejoinOp t failing
    | _ => s.refuse rq ⟨.errFenceCtrl, 0, 0⟩

/-- ERR_FENCE (R552, R554): a write of ERR_FENCE_CTRL with OP FENCE. -/
def execErrFence (rq : Requester) (v : W64) (s : State) : Host.Outcome State Fault Refusal :=
  done (if bitsOf v F.errFenceCtrl_OP = 1 then s.fenceCtrlWrite rq v [] else s)

/-- ERR_REJOIN (R553, R555): a write of ERR_FENCE_CTRL with OP REJOIN; `failing` are the units that fail their self-tests. -/
def execErrRejoin (rq : Requester) (v : W64) (failing : List (BitVec 16)) (s : State) : Host.Outcome State Fault Refusal :=
  done (if bitsOf v F.errFenceCtrl_OP = 2 then s.fenceCtrlWrite rq v (failing.map (·.toNat)) else s)

/-! ### Injection (R559–R564) -/

/-- UNIT codes of Table 2.2 that name an instance of quantity `n`. -/
def State.conserveUnit (s : State) (n u : Nat) : Bool :=
  match n with
  | 0 => decide (u < 6)
  | 1 => decide (0x10 ≤ u) && decide (u < 0x22)
  | 2 => stallOk u && (decide (stallKind u = 7) || decide (stallKind u = 8))
  | 3 => decide (u < 4)
  | 4 => (s.lqueue u).isSome
  | 5 => decide (u < 256)
  | 6 => decide (u < 4 * 4096)
  | _ => false

/-- A unit code of Table 24.6. -/
def unitCode (u : Nat) : Bool :=
  let q := u / 0x100 % 0x80
  let c := u % 0x100
  decide (0x8000 ≤ u) && decide (q < 4) &&
  (decide (c ≤ 0x0F) || (decide (0x10 ≤ c) && decide (c ≤ 0x13)) || (decide (c = 0x18) && decide (q % 2 = 0)) ||
    (decide (0x20 ≤ c) && decide (c ≤ 0x27)))

/-- A unit of a Quarter whose code satisfies `p`. -/
def quarterUnit (u : Nat) (p : Nat → Bool) : Bool := decide (0x8000 ≤ u) && decide (u < 0x8400) && p (u % 0x100)

/-- The fields of an injection are those of Table 24.7 (R564). -/
def State.injValid (s : State) (det u syn addr : Nat) : Bool :=
  let q := u / 0x100 % 0x80
  match det with
  | 0x01 => quarterUnit u (fun c => c = 0) && decide (syn = 1 ∨ syn = 2) && decide (addr % 128 = 0) &&
      (match homeOf addr with | .square q' _ => decide (q' = q) | _ => false)
  | 0x02 => quarterUnit u (fun c => decide (8 ≤ c) && decide (c ≤ 10)) && decide (syn % 32 < 18) && decide (syn / 32 < 3) &&
      decide (addr % 128 = 0) && (match homeOf addr with | .warehouse w _ => decide (w = 3 * q + (u % 0x100 - 8)) | _ => false)
  | 0x03 => stallOk u && decide (0 < streetOut (stallKind u)) && decide (syn < 2)
  | 0x04 => quarterUnit u (fun c => decide (0x0B ≤ c) && decide (c ≤ 0x0D)) && decide (1 ≤ syn) && decide (syn ≤ 8)
  | 0x05 => quarterUnit u (fun c => decide (0x10 ≤ c) && decide (c ≤ 0x13)) && decide (syn < 16) && decide (syn % 4 < 2)
  | 0x06 => quarterUnit u (fun c => decide (0x20 ≤ c) && decide (c ≤ 0x27)) && decide (syn < 2)
  | 0x07 => quarterUnit u (fun c => c = 0x18) && decide (q % 2 = 0) && decide (syn < 2)
  | 0x08 => stallOk u && decide (syn = 0)
  | 0x09 => (quarterUnit u (fun c => decide (4 ≤ c) && decide (c ≤ 7)) || decide (u = 0xC000) || decide (u = 0xC001)) &&
      decide (1 ≤ syn) && decide (syn ≤ 3)
  | 0x0A => (unitCode u || stallOk u) && decide (syn = 0)
  | 0x0B => quarterUnit u (fun c => c = 2) && decide (syn = 0)
  | 0x0C => quarterUnit u (fun c => c = 3) && decide (syn < 2) && s.privileged (q * 4096 + addr % 4096)
  | 0x0D => stallOk u && decide (stallKind u = 6) && decide (syn = 0)
  | 0x0E => decide (u = watchUnit) && decide (syn = 0)
  | 0x0F => decide (u = 0) && decide (syn < 7) && s.conserveUnit syn (addr % 2 ^ 16)
  | _ => false

/-- A requester may write the injection registers (R559). -/
def State.mayInject (s : State) (rq : Requester) : Bool := s.xim.conf.testPriv && rqPf rq

/-- ERR_INJ_CTRL written. -/
def State.injCtrlWrite (s : State) (rq : Requester) (v : W64) : State :=
  let r : Reg := ⟨.errInjCtrl, 0, 0⟩
  let arm := bitsOf v F.errInjCtrl_ARM = 1
  let disarm := bitsOf v F.errInjCtrl_DISARM = 1
  let mode := bitsOf v F.errInjCtrl_MODE
  let i : Injection := {
    sticky := decide (mode = 2), detector := bitsOf v F.errInjCtrl_DETECTOR, unit := bitsOf v F.errInjCtrl_UNIT,
    syndrome := bitsOf v F.errInjCtrl_SYNDROME, addr := s.fget ⟨.errInjAddr, 0, 0⟩ F.errInjAddr_ADDR }
  if !s.mayInject rq || (decide arm && decide disarm) then s.refuse rq r
  else if disarm then s.injDisarm
  else if arm then
    if s.err.inj.isSome || decide (mode = 0) || decide (mode = 3) || !s.injValid i.detector i.unit i.syndrome i.addr then s.refuse rq r
    else ({ s with err := { s.err with inj := some i } } : State).fset ⟨.errInjStatus, 0, 0⟩ F.errInjStatus_ARMED 1
  else s

/-- ERR_INJ_ARM (R559, R561, R564). -/
def execErrInjArm (rq : Requester) (v : W64) (s : State) : Host.Outcome State Fault Refusal :=
  done (if bitsOf v F.errInjCtrl_ARM = 1 then s.injCtrlWrite rq v else s)

/-- ERR_INJ_DISARM (R561). -/
def execErrInjDisarm (rq : Requester) (v : W64) (s : State) : Host.Outcome State Fault Refusal :=
  done (if bitsOf v F.errInjCtrl_DISARM = 1 then s.injCtrlWrite rq v else s)

end Sys2Proof.Machine
end

