-- ==== Sys2Proof/Machine/HawkerCode.lean ====
section
/-!
DEFINITION. The encodings of the Hawker instruction set (Tables 20.4 and 20.5): the word of each instruction, and the instruction of a
word.
-/
namespace Sys2Proof.Machine

/-! ### Forms (Table 20.4) -/

/-- Form A: OP, RD, RS1, RS2, five reserved bits, FUNC. -/
def formA (op : BitVec 6) (rd rs1 rs2 : HReg) (func : BitVec 6) : BitVec 32 := op ++ rd ++ rs1 ++ rs2 ++ 0#5 ++ func
/-- Form B: OP, RD, RS1, IMM16. -/
def formB (op : BitVec 6) (rd rs1 : HReg) (imm : BitVec 16) : BitVec 32 := op ++ rd ++ rs1 ++ imm
/-- Form C: OP, RS1, RS2, DISP16. -/
def formC (op : BitVec 6) (rs1 rs2 : HReg) (disp : BitVec 16) : BitVec 32 := op ++ rs1 ++ rs2 ++ disp
/-- Form D: OP, DISP26. -/
def formD (op : BitVec 6) (disp : BitVec 26) : BitVec 32 := op ++ disp
/-- Form E: OP, RD, IMM21. -/
def formE (op : BitVec 6) (rd : HReg) (imm : BitVec 21) : BitVec 32 := op ++ rd ++ imm
/-- Form F: OP, RD, RS1, four reserved bits, SEL, FUNC. -/
def formF (op : BitVec 6) (rd rs1 : HReg) (sel : BitVec 8) (func : BitVec 4) : BitVec 32 := op ++ rd ++ rs1 ++ 0#4 ++ sel ++ func

/-! ### The word of an instruction (Table 20.5) -/

/-- The word of a Hawker instruction; none for the other commands. -/
def hawkerWord : Instr → Option (BitVec 32)
  | .aluAdd _ rd a b => some (formA 0x01 rd a b 0x00)
  | .aluSub _ rd a b => some (formA 0x01 rd a b 0x01)
  | .aluAnd _ rd a b => some (formA 0x01 rd a b 0x02)
  | .aluOr _ rd a b => some (formA 0x01 rd a b 0x03)
  | .aluXor _ rd a b => some (formA 0x01 rd a b 0x04)
  | .sll _ rd a b => some (formA 0x01 rd a b 0x05)
  | .srl _ rd a b => some (formA 0x01 rd a b 0x06)
  | .sra _ rd a b => some (formA 0x01 rd a b 0x07)
  | .slt _ rd a b => some (formA 0x01 rd a b 0x08)
  | .sltu _ rd a b => some (formA 0x01 rd a b 0x09)
  | .mul _ rd a b => some (formA 0x01 rd a b 0x0A)
  | .mulhu _ rd a b => some (formA 0x01 rd a b 0x0B)
  | .divu _ rd a b => some (formA 0x01 rd a b 0x0C)
  | .remu _ rd a b => some (formA 0x01 rd a b 0x0D)
  | .div _ rd a b => some (formA 0x01 rd a b 0x0E)
  | .rem _ rd a b => some (formA 0x01 rd a b 0x0F)
  | .addi _ rd a i => some (formB 0x02 rd a i)
  | .andi _ rd a i => some (formB 0x03 rd a i)
  | .ori _ rd a i => some (formB 0x04 rd a i)
  | .xori _ rd a i => some (formB 0x05 rd a i)
  | .slli _ rd a i => some (formB 0x06 rd a (i.zeroExtend 16))
  | .srli _ rd a i => some (formB 0x07 rd a (i.zeroExtend 16))
  | .srai _ rd a i => some (formB 0x08 rd a (i.zeroExtend 16))
  | .slti _ rd a i => some (formB 0x09 rd a i)
  | .shori _ rd a i => some (formB 0x0A rd a i)
  | .li _ rd i => some (formE 0x0B rd i)
  | .ld _ rd a i => some (formB 0x10 rd a i)
  | .lw _ rd a i => some (formB 0x11 rd a i)
  | .lws _ rd a i => some (formB 0x12 rd a i)
  | .lh _ rd a i => some (formB 0x13 rd a i)
  | .lb _ rd a i => some (formB 0x14 rd a i)
  | .st _ rd a i => some (formB 0x18 rd a i)
  | .sw _ rd a i => some (formB 0x19 rd a i)
  | .sh _ rd a i => some (formB 0x1A rd a i)
  | .sb _ rd a i => some (formB 0x1B rd a i)
  | .amoadd _ rd a b => some (formA 0x1C rd a b 0)
  | .amoswap _ rd a b => some (formA 0x1C rd a b 1)
  | .cas _ rd a b => some (formA 0x1C rd a b 2)
  | .beq _ a b d => some (formC 0x20 a b d)
  | .bne _ a b d => some (formC 0x21 a b d)
  | .blt _ a b d => some (formC 0x22 a b d)
  | .bge _ a b d => some (formC 0x23 a b d)
  | .bltu _ a b d => some (formC 0x24 a b d)
  | .bgeu _ a b d => some (formC 0x25 a b d)
  | .call _ d => some (formD 0x28 d)
  | .jmp _ d => some (formD 0x29 d)
  | .callr _ a => some (formA 0x2A 0 a 0 0)
  | .jmpr _ a => some (formA 0x2B 0 a 0 0)
  | .ret _ => some (formA 0x2C 0 0 0 0)
  | .mfc _ rd sel => some (formF 0x30 rd 0 sel 0)
  | .mtc _ a sel => some (formF 0x30 0 a sel 1)
  | .rdpost _ rd sel => some (formF 0x30 rd 0 sel 2)
  | .send _ a sel => some (formF 0x30 0 a sel 3)
  | .trap _ sel => some (formF 0x30 0 0 sel 4)
  | .eret _ => some (formF 0x30 0 0 0 5)
  | .dsync _ => some (formF 0x30 0 0 0 6)
  | .isync _ => some (formF 0x30 0 0 0 7)
  | .wfi _ => some (formF 0x30 0 0 0 8)
  | .brk _ => some (formF 0x30 0 0 0 9)
  | .flushw _ => some (formF 0x30 0 0 0 10)
  | _ => none

/-! ### The instruction of a word (R498, R507) -/

/-- OP 0x01. -/
def decodeAlu (n : CoreNo) (rd a b : HReg) (func : Nat) : Option Instr :=
  match func with
  | 0x00 => some (.aluAdd n rd a b) | 0x01 => some (.aluSub n rd a b) | 0x02 => some (.aluAnd n rd a b) | 0x03 => some (.aluOr n rd a b)
  | 0x04 => some (.aluXor n rd a b) | 0x05 => some (.sll n rd a b) | 0x06 => some (.srl n rd a b) | 0x07 => some (.sra n rd a b)
  | 0x08 => some (.slt n rd a b) | 0x09 => some (.sltu n rd a b) | 0x0A => some (.mul n rd a b) | 0x0B => some (.mulhu n rd a b)
  | 0x0C => some (.divu n rd a b) | 0x0D => some (.remu n rd a b) | 0x0E => some (.div n rd a b) | 0x0F => some (.rem n rd a b)
  | _ => none

/-- OP 0x30. Fields that a function does not use must be 0; the selectors of MFC, MTC, RDPOST and SEND are checked as they run. -/
def decodeSys (n : CoreNo) (rd a : HReg) (sel : BitVec 8) (func : Nat) : Option Instr :=
  let none0 (i : Instr) : Option Instr := if rd = 0 ∧ a = 0 ∧ sel = 0 then some i else none
  match func with
  | 0 => if a = 0 then some (.mfc n rd sel) else none
  | 1 => if rd = 0 then some (.mtc n a sel) else none
  | 2 => if a = 0 then some (.rdpost n rd sel) else none
  | 3 => if rd = 0 then some (.send n a sel) else none
  | 4 => if rd = 0 ∧ a = 0 then some (.trap n sel) else none
  | 5 => none0 (.eret n)
  | 6 => none0 (.dsync n)
  | 7 => none0 (.isync n)
  | 8 => none0 (.wfi n)
  | 9 => none0 (.brk n)
  | 10 => none0 (.flushw n)
  | _ => none

/-- The instruction that a word spells for core `n`; none for an undefined encoding (R498). -/
def hawkerDecode (n : CoreNo) (w : BitVec 32) : Option Instr :=
  let rd : HReg := w.extractLsb' 21 5
  let a : HReg := w.extractLsb' 16 5
  let b : HReg := w.extractLsb' 11 5
  let imm : BitVec 16 := w.extractLsb' 0 16
  let func : BitVec 6 := w.extractLsb' 0 6
  let sh : BitVec 6 := w.extractLsb' 0 6
  let disp : BitVec 26 := w.extractLsb' 0 26
  let low (i : Instr) : Option Instr := if w.extractLsb' 6 5 = 0#5 then some i else none
  let bare (i : Instr) : Option Instr := if rd = 0 ∧ b = 0 ∧ func = 0 then low i else none
  let shift (i : Instr) : Option Instr := if w.extractLsb' 6 10 = 0#10 then some i else none
  match (w.extractLsb' 26 6).toNat with
  | 0x01 => if w.extractLsb' 6 5 = 0#5 then decodeAlu n rd a b func.toNat else none
  | 0x02 => some (.addi n rd a imm)
  | 0x03 => some (.andi n rd a imm)
  | 0x04 => some (.ori n rd a imm)
  | 0x05 => some (.xori n rd a imm)
  | 0x06 => shift (.slli n rd a sh)
  | 0x07 => shift (.srli n rd a sh)
  | 0x08 => shift (.srai n rd a sh)
  | 0x09 => some (.slti n rd a imm)
  | 0x0A => some (.shori n rd a imm)
  | 0x0B => some (.li n rd (w.extractLsb' 0 21))
  | 0x10 => some (.ld n rd a imm)
  | 0x11 => some (.lw n rd a imm)
  | 0x12 => some (.lws n rd a imm)
  | 0x13 => some (.lh n rd a imm)
  | 0x14 => some (.lb n rd a imm)
  | 0x18 => some (.st n rd a imm)
  | 0x19 => some (.sw n rd a imm)
  | 0x1A => some (.sh n rd a imm)
  | 0x1B => some (.sb n rd a imm)
  | 0x1C => match func.toNat with
    | 0 => low (.amoadd n rd a b)
    | 1 => low (.amoswap n rd a b)
    | 2 => low (.cas n rd a b)
    | _ => none
  | 0x20 => some (.beq n rd a imm)
  | 0x21 => some (.bne n rd a imm)
  | 0x22 => some (.blt n rd a imm)
  | 0x23 => some (.bge n rd a imm)
  | 0x24 => some (.bltu n rd a imm)
  | 0x25 => some (.bgeu n rd a imm)
  | 0x28 => some (.call n disp)
  | 0x29 => some (.jmp n disp)
  | 0x2A => bare (.callr n a)
  | 0x2B => bare (.jmpr n a)
  | 0x2C => if a = 0 then bare (.ret n) else none
  | 0x30 => if w.extractLsb' 12 4 = 0#4 then decodeSys n rd a (w.extractLsb' 4 8) (w.extractLsb' 0 4).toNat else none
  | _ => none

end Sys2Proof.Machine
end

