-- ==== Sys2Proof/Machine/Sideband.lean ====
section
/-!
DEFINITION. The management sideband: MCTP control, the vendor session, PLDM sensors and updates, the I3C address (chapter "Bring-up,
resets and the management sideband"; R609–R613). The bytes of control and PLDM messages are those of DSP0236, DSP0248 and DSP0267
(PRESUMED). A bus is 0 for I3C, 1 for SMBus, 2 for PCIe VDM.
-/
namespace Sys2Proof.Machine

/-- The Watch post hears a message on a bus: SMBus is ignored once an I3C dynamic address has been assigned. -/
def State.hears (s : State) (bus : Fin 3) : Bool := !s.boot.off && (decide (bus.val ≠ 1) || s.side.dynamic.isNone)

/-! ### MCTP (R609, R610) -/

/-- A control response: the command code, the completion code and the rest. -/
def State.control (s : State) (code cc : Nat) (b : Bytes) : State := s.emit (.sideband 0 (leBytes 1 code ++ leBytes 1 cc ++ b))

/-- MCTP_CONTROL (R609): a message of type 0x00, or of a type that no binding accepts. -/
def execMctpControl (bus : Fin 3) (type : BitVec 8) (body : Bytes) (s : State) : Host.Outcome State Fault Refusal :=
  if !s.hears bus then done s
  else
    let code := leAt body 1 1
    match type.toNat with
    | 0x00 =>
      match code with
      | 0x01 =>
        let eid := leAt body 3 1
        let s := { s with side := { s.side with eid := eid } }
        done (s.control code 0 [0#8, BitVec.ofNat 8 eid, 0#8])
      | 0x02 => done (s.control code 0 [BitVec.ofNat 8 s.side.eid, 0#8, 0#8])
      | 0x05 => done (s.control code 0 [4#8, 0x00#8, 0x01#8, 0x05#8, 0x7E#8])
      | _ => done (s.control code 5 [])
    | 0x01 | 0x05 | 0x7E => done s
    | _ => done (s.control code 5 [])

/-- MCTP_VENDOR_OPEN (R610): TYPE 0x0001 with an empty body. -/
def execMctpVendorOpen (bus : Fin 3) (body : Bytes) (s : State) : Host.Outcome State Fault Refusal :=
  if !s.hears bus then done s
  else if body.isEmpty then
    done (({ s with side := { s.side with vendor := true } } : State).emit (.sideband 0x7E (kioskMsg 0x0001 0 0 0 [])))
  else done (s.emit (.sideband 0x7E (kioskMsg 0x0001 0 1 0 [])))

/-- I3C_DYNAMIC_ADDRESS (R609). -/
def execI3cDynamicAddress (addr : BitVec 7) (s : State) : Host.Outcome State Fault Refusal :=
  done (if s.boot.off then s else { s with side := { s.side with dynamic := some addr.toNat } })

/-! ### PLDM sensors (R611, Table 27.6) -/

/-- The value of a sensor. -/
def State.sensor (s : State) (id : Nat) : Option Nat :=
  match id with
  | 1 => some (s.fget pwrInput F.pwrInput_VOLTAGE)
  | 2 => some (s.fget pwrInput F.pwrInput_CURRENT)
  | 3 => some (s.fget pwrInput F.pwrInput_POWER_W)
  | 4 => some (s.fget pwrThermal F.pwrThermal_INLET)
  | 5 => some (s.fget pwrThermal F.pwrThermal_OUTLET)
  | 6 => some (s.fget pwrThermal F.pwrThermal_FLOW)
  | 7 => some (s.fget pwrThermal F.pwrThermal_TJ_MAX)
  | 8 | 9 | 10 | 11 => some (s.fget ⟨.pwrTj, 0, 0⟩ F.pwrTj_COMPUTE / 2 ^ (8 * (id - 8)) % 256)
  | 12 | 13 | 14 | 15 => some (s.fget ⟨.pwrTj, 0, 0⟩ F.pwrTj_BASE / 2 ^ (8 * (id - 12)) % 256)
  | 16 => some (s.fget pwrStatus F.pwrStatus_POINT)
  | 17 => some (s.fget pwrStatus F.pwrStatus_EMERG)
  | 18 => some s.stage
  | 19 => some (s.fget secState F.secState_SEAL_NOW)
  | _ => none

/-- A PLDM response: its completion code and the rest. -/
def State.pldm (s : State) (cc : Nat) (b : Bytes) : State := s.emit (.sideband 1 (leBytes 1 cc ++ b))

/-- PLDM_GET_SENSOR_READING (R611). -/
def execPldmGetSensorReading (bus : Fin 3) (id : BitVec 16) (s : State) : Host.Outcome State Fault Refusal :=
  if !s.hears bus then done s
  else match s.sensor id.toNat with
    | some v => done (s.pldm 0 (leBytes 4 v))
    | none => done (s.pldm 0x80 [])

/-! ### PLDM updates (R612, R613) -/

/-- The size of a component's slot (Table 27.4). -/
def compMax (c : Nat) : Nat := if c = 1 then 32 * 2 ^ 20 else if c = 2 then 2 * 2 ^ 20 else 16 * 2 ^ 20

/-- PLDM_UPDATE_COMPONENT (R612): one component at a time. A firmware update is refused while an activation runs. -/
def execPldmUpdateComponent (bus : Fin 3) (comp : BitVec 16) (data : Bytes) (s : State) : Host.Outcome State Fault Refusal :=
  let c := comp.toNat
  if !s.hears bus then done s
  else if s.side.update.isSome then done (s.pldm 0x81 [])
  else if c = 0 ∨ 3 < c ∨ compMax c < data.length ∨ (c = 1 ∧ s.activating) then done (s.pldm 0x02 [])
  else
    let s := { s with side := { s.side with update := some ⟨c, data⟩ } }
    done (s.pldm 0 [])

/-- The check of a component (R612): a status of Table 3.9, and whether an injection made it fail. -/
def State.checkComponent (s : State) (c : Nat) (b : Bytes) : State × Nat × Bool :=
  match c with
  | 1 => s.fwCheck b
  | 2 =>
    let h := Xim.headerStage b none
    if h ≠ 0 then (s, h, false)
    else if leAt b 5 1 ≠ 1 then (s, 0x7F, false)
    else match s.sigOk [ownerImageKey s.owner] (Xim.body b) (Xim.sig b) with
      | (s, false, inj) => (s, 2, inj)
      | (s, true, _) => (s, svnStatus (Xim.svn b) s.sec.fuses.svnImage, false)
  | _ => (s, if Config.romOk b then 0 else 1, false)

/-- A component written into its inactive slot. -/
def State.writeComponent (s : State) (c : Nat) (b : Bytes) : State :=
  let f := s.sec.flash
  match c with
  | 1 => s.setFlash { f with fw := put f.fw (1 - s.running) b }
  | 2 => s.setFlash { f with image := put f.image (1 - s.fget ⟨.ximInforce, 0, 0⟩ F.ximInforce_SLOT) b }
  | _ => s.setFlash { f with option_ := some b }

/-- PLDM_VERIFY_COMPLETE (R612): the slot is written only after the checks pass. -/
def execPldmVerifyComplete (bus : Fin 3) (s : State) : Host.Outcome State Fault Refusal :=
  if !s.hears bus then done s
  else match s.side.update with
    | none => done (s.pldm 0x84 [])
    | some u =>
      let s := { s with side := { s.side with update := none } }
      match s.checkComponent u.comp u.data with
      | (s, 0, _) =>
        let s := s.writeComponent u.comp u.data
        let s := { s with side := { s.side with ready := if s.side.ready.contains u.comp then s.side.ready else u.comp :: s.side.ready } }
        done (s.pldm 0 [0#8])
      | (s, st, inj) =>
        let s := if u.comp = 3 then s else s.loadRefused st inj
        done (s.pldm 0 [BitVec.ofNat 8 (if st = 0x7F then 0xAF else 0x90 + st)])

/-- PLDM_ACTIVATE_FIRMWARE (R613). -/
def execPldmActivateFirmware (bus : Fin 3) (romOk flashOk : Bool) (s : State) : Host.Outcome State Fault Refusal :=
  if !s.hears bus then done s
  else
    let l := s.side.ready
    let s := { s with side := { s.side with ready := [] } }
    if l.isEmpty then done (s.pldm 0x85 [])
    else if s.stage = 15 then done ((s.pldm 0 []).coldBoot romOk flashOk)
    else if !l.contains 1 then done (s.pldm 0 [])
    else if s.fwBusy then
      let s := (s.fset fwStateReg F.fwState_LAST_STATUS 2).fset fwStateReg F.fwState_LAST_DETAIL 2
      done (s.pldm 0x8B [])
    else done (s.fwStart none true (1 - s.running))

end Sys2Proof.Machine
end

