-- ==== Sys2Proof/Machine/RegisterSpace.lean ====
section
/-!
DEFINITION. Accesses to register space: sizes and halves, the rule of each register for a write, multi-target windows, group members,
register timeouts, and the conservation checks (chapter "Register space, unit windows and group access").
-/
namespace Sys2Proof.Machine

/-! ### Halves and access codes (R50, R614, R615, Table 0.3) -/

/-- The half of a register that a 4-byte access touches, or all of it. -/
inductive Half where
  | all | low | high
  deriving DecidableEq, Repr

/-- The register offset and half of an access of `size` bytes; none for a bad access (R51). -/
def halfOf (off size : Nat) : Option (Nat × Half) :=
  if size = 8 ∧ off % 8 = 0 then some (off, .all)
  else if size = 4 ∧ off % 8 = 0 then some (off, .low)
  else if size = 4 ∧ off % 8 = 4 then some (off - 4, .high)
  else none

/-- A field lies wholly in a half. -/
def Half.holds : Half → Fld → Bool
  | .all, _ => true
  | .low, f => decide (f.hi < 32)
  | .high, f => decide (32 ≤ f.lo)

/-- The bits of a half. -/
def Half.mask : Half → W64
  | .all => BitVec.allOnes 64
  | .low => 0xFFFF_FFFF#64
  | .high => 0xFFFF_FFFF_0000_0000#64

/-- The value of a 4-byte write at its place in the register. -/
def Half.place (h : Half) (v : W64) : W64 :=
  match h with
  | .high => v <<< (32 : Nat)
  | .low => v &&& 0xFFFF_FFFF#64
  | .all => v

/-- The bits of a half, as an access returns them. -/
def Half.take (h : Half) (v : W64) : W64 :=
  match h with
  | .high => v >>> (32 : Nat)
  | .low => v &&& 0xFFFF_FFFF#64
  | .all => v

/-- The bits of a register's fields whose access code satisfies `p`. -/
def Reg.maskOf (r : Reg) (p : Acc → Bool) : W64 := (r.name.fields.filter fun x => p x.2).foldl (fun m x => m ||| x.1.mask) 0

/-- A field that software may write. -/
def Acc.writable : Acc → Bool
  | .rw | .wo | .w1c => true
  | _ => false

/-- What a read shows: write-only and reserved bits read 0. -/
def Reg.view (r : Reg) (w : W64) : W64 := w &&& r.maskOf fun a => decide (a ≠ .wo)

/-- A write per access code: RW and WO bits take the value, W1C bits written 1 clear, the others stay. -/
def Reg.merge (r : Reg) (old v : W64) : W64 :=
  let m := r.maskOf fun a => decide (a = .rw) || decide (a = .wo)
  ((old &&& ~~~m) ||| (v &&& m)) &&& ~~~(v &&& r.maskOf fun a => decide (a = .w1c))

/-- The value of an 8-byte write that does what a 4-byte write does: RW bits of the other half keep their value, and its other bits
are 0. -/
def Reg.widen (r : Reg) (old : W64) (h : Half) (v : W64) : W64 :=
  h.place v ||| (old &&& (r.maskOf fun a => decide (a = .rw)) &&& ~~~h.mask)

/-- A command register (R615). CW_RP_CFG_DATA is one, since its write starts a configuration write. -/
def RegName.command : RegName → Bool
  | .bellCntOp | .bellSnapCtrl | .alleyRaise | .conserveCtrl | .porterChCtrl | .surveyorInval | .surveyorFaultResolve | .ximLoadCtrl
  | .ghOp | .tbOp | .carterOp | .carterDb | .ledgerOp | .errFenceCtrl | .errInjCtrl | .cwRpCfgData => true
  | _ => false

/-! ### Writes with a rule of their own -/

/-- A write per access code by a core in kernel mode or the Watch post; from any other requester it is a stray write. -/
def State.plainWrite (s : State) (rq : Requester) (r : Reg) (v : W64) : State :=
  if rqKernel rq then s.wr r (r.merge (s.rd r) v) else s.refuse rq r

/-- A plain write that takes effect only where `ok` (R616). -/
def State.checkedWrite (s : State) (rq : Requester) (r : Reg) (v : W64) (ok : Bool) : State :=
  if ok then s.plainWrite rq r v else s.refuse rq r

/-- A ring stall has no task in hand and runs none: IDLE or HALTED. -/
def State.stallStill (s : State) (st : Nat) : Bool :=
  let v := s.fget ⟨.stallState, st, 0⟩ F.stallState_STATE
  decide (v = 0) || decide (v = 3)

/-- The CTRL register of a ring stall (R192, and its table): HALT takes effect at once where no task is in hand. -/
def State.stallCtrlWrite (s : State) (rq : Requester) (st : Nat) (v : W64) : State :=
  let r : Reg := ⟨.stallCtrl, st, 0⟩
  let lg := bitsOf v F.stallCtrl_RING_LOG2
  if !rqKernel rq || decide (lg < 4) || decide (12 < lg) || (decide (lg ≠ s.fget r F.stallCtrl_RING_LOG2) && !s.stallStill st) then s.refuse rq r
  else
    let s := s.wr r (r.merge (s.rd r) v)
    if s.stallStill st then s.fset ⟨.stallState, st, 0⟩ F.stallState_STATE (if bitsOf v F.stallCtrl_HALT = 1 then 3 else 0) else s

/-- PORTER_CH_CTRL: ABORT, RESUME and GO, each by its own rule (R290–R292). -/
def State.porterCtrlWrite (s : State) (rq : Requester) (c : Nat) (v : W64) : State :=
  if !rqKernel rq then s.refuse rq (chCtrl c)
  else
    let s := if bitsOf v F.porterChCtrl_ABORT = 1 then s.porterAbort rq c else s
    let s := if bitsOf v F.porterChCtrl_RESUME = 1 then s.porterResume rq c else s
    if bitsOf v F.porterChCtrl_GO = 1 then s.porterGo rq c else s

/-- PORTER_CH_CFG (R277, R296). -/
def State.porterCfgWrite (s : State) (rq : Requester) (c : Nat) (v : W64) : State :=
  let r := chCfg c
  let lg := bitsOf v F.porterChCfg_BURST_LOG2
  let st := s.chanState c
  let changes (f : Fld) : Bool := decide (bitsOf v f ≠ s.fget r f)
  let fixed := changes F.porterChCfg_MODE || changes F.porterChCfg_CHAIN_ASID || changes F.porterChCfg_BURST_LOG2
  s.checkedWrite rq r v (decide (7 ≤ lg) && decide (lg ≤ 12) && decide (bitsOf v F.porterChCfg_WEIGHT ≠ 0) &&
    (!fixed || decide (st = 0) || decide (st = 5)))

/-- BELL_CNT_OP (Table 11.2). -/
def State.cntOpWrite (s : State) (rq : Requester) (k : Nat) (v : W64) : State :=
  let n := bitsOf v F.bellCntOp_AMOUNT
  let src := 0x8000 + rqCode rq
  let some_ := rqKernel rq && decide (n ≠ 0)
  match bitsOf v F.bellCntOp_OP with
  | 0 => s.bellOpWrite rq k some_ (.signal k n src)
  | 1 => s.bellOpWrite rq k some_ (.debit k n src)
  | 2 => s.bellOpWrite rq k (rqKernel rq) (.wakeAll k)
  | 3 => s.bellOpWrite rq k (rqKernel rq) (.set k n src)
  | 4 => s.bellOpWrite rq k some_ (.take k n src)
  | _ => s.refuse rq (ctrOp k)

/-- BELL_SYNC: a word of an armed entry does not change, and word 3 written with ARMED starts the entry (R311). -/
def State.syncWrite (s : State) (rq : Requester) (q w : Nat) (v : W64) : State :=
  let e := 256 * q + w / 4
  if s.armed e then s.refuse rq ⟨.bellSync, q, w⟩
  else if w % 4 = 3 ∧ bitsOf v syncArmed = 1 then s.syncArm rq e v
  else s.plainWrite rq ⟨.bellSync, q, w⟩ v

/-- BELL_SNAP_CTRL (R315, R316). -/
def State.snapCtrlWrite (s : State) (rq : Requester) (q : Nat) (v : W64) : State :=
  let r : Reg := ⟨.bellSnapCtrl, q, 0⟩
  if !rqKernel rq then s.refuse rq r
  else
    let s := s.fset r F.bellSnapCtrl_AUTO_ON_HANG (bitsOf v F.bellSnapCtrl_AUTO_ON_HANG)
    if bitsOf v F.bellSnapCtrl_TAKE = 1 then s.snapStart q 0 0 0 else s

/-- ALLEY_RAISE (R298). -/
def State.alleyRaiseWrite (s : State) (rq : Requester) (q : Nat) (v : W64) : State :=
  match rq with
  | .core n k =>
    if k && decide (n.val / 4 = q) then s.alleyRaise q (bitsOf v F.alleyRaise_LINE) (48 + n.val % 4) else s.refuse rq ⟨.alleyRaise, q, 0⟩
  | _ => s.refuse rq ⟨.alleyRaise, q, 0⟩

/-- CW_RP_CFG_DATA (R348). -/
def State.rpCfgWrite (s : State) (rq : Requester) (g : Nat) (v : W64) : State :=
  let a : Reg := ⟨.cwRpCfgAddr, g, 0⟩
  if !rqKernel rq then s.refuse rq ⟨.cwRpCfgData, g, 0⟩
  else if s.rpMode (4 * g) then s.emit (.rpConfig g true (s.fget a F.cwRpCfgAddr_BDF) (s.fget a F.cwRpCfgAddr_DWORD) (bitsOf v F.cwRpCfgData_DATA))
  else s

/-- GH_MISS_RATE: the bucket is filled at the old rate up to now (R369). -/
def State.missRateWrite (s : State) (rq : Requester) (p : Nat) (v : W64) : State :=
  let r := ghMissRate p
  if !rqKernel rq || decide (20000 < bitsOf v F.ghMissRate_RATE_KPPS) then s.refuse rq r
  else (s.missSettle p 0).plainWrite rq r v

/-- REGSP_GRP_MEMBER (R65). -/
def State.grpMemberWrite (s : State) (rq : Requester) (g m : Nat) (v : W64) : State :=
  let id := bitsOf v F.regspGrpMember_ID
  let porter := decide (bitsOf v F.regspGrpMember_PORTER = 1)
  let bad := (porter && decide (256 ≤ id)) || (!porter && decide (bitsOf v F.regspGrpMember_VALID = 1) && !stallOk id)
  s.checkedWrite rq ⟨.regspGrpMember, g, m⟩ v (!bad)

/-- CONSERVE_CTRL (R66): every check asked for that is not pending starts. -/
def State.conserveStart (s : State) (rq : Requester) (v : W64) : State :=
  let st : Reg := ⟨.conserveStatus, 0, 0⟩
  if !rqKernel rq then s.refuse rq ⟨.conserveCtrl, 0, 0⟩
  else forNat 7 s fun s n =>
    if nbit (bitsOf v F.conserveCtrl_CHECK) n then s.fset st ⟨2 * n + 1, 2 * n⟩ 3 else s

/-- LOG2 of a ring is 0, or at least `least` and at most 12. -/
def ringLogOk (least lg : Nat) : Bool := decide (lg = 0) || (decide (least ≤ lg) && decide (lg ≤ 12))

/-- The effect of an 8-byte write of `v` on a register, by the rule of its own chapter (R57, R615, R616). Registers whose chapter
names no writer are written by kernel cores and the Watch post (DEDUCED: R463). -/
def State.regWrite (s : State) (rq : Requester) (r : Reg) (v : W64) : State :=
  match r.name with
  | .regspGrpMember => s.grpMemberWrite rq r.i r.j v
  | .conserveCtrl => s.conserveStart rq v
  | .ximLoadCtrl => s.ximCtrlWrite rq v
  | .stallCtrl => s.stallCtrlWrite rq r.i v
  | .stallRingBase => s.checkedWrite rq r v (s.stallStill r.i)
  | .stallRingTail => s.tailWrite rq r.i v
  | .cashboxCheck => s.checkedWrite rq r v (decide (bitsOf v F.cashboxCheck_LIMIT ≠ 0))
  | .streetRoute => if bitsOf v F.streetRoute_VALID = 1 then s.routeSetup rq r.i r.j v else s.routeTeardown rq r.i r.j v
  | .whCtrl => s.checkedWrite rq r v (decide (bitsOf v F.whCtrl_RETIRE_THRESHOLD ≠ 0))
  | .surveyorCtxBase => s.checkedWrite rq r v (rangeInSystem (bitsOf v F.surveyorCtxBase_ADDR * 0x2_0000) 0x2_0000)
  | .surveyorInval => s.invalidate rq r.i v
  | .surveyorFaultRing => (s.checkedWrite rq r v (ringLogOk 8 (bitsOf v F.surveyorFaultRing_LOG2))).postWaiting r.i
  | .surveyorFaultResolve =>
    if rqKernel rq ∧ bitsOf v F.surveyorFaultResolve_OUTCOME < 2 then
      s.resolve rq r.i (bitsOf v F.surveyorFaultResolve_FAULT_ID) (decide (bitsOf v F.surveyorFaultResolve_OUTCOME = 0))
    else s.refuse rq r
  | .porterChCtrl => s.porterCtrlWrite rq r.i v
  | .porterChCfg => s.porterCfgWrite rq r.i v
  | .porterChDoorbell => s.porterDoorbell rq r.i
  | .porterChState =>
    if !rqKernel rq then s.refuse rq r else if bitsOf v F.porterChState_IRQ_PEND = 1 then s.setIrqPend r.i 0 else s
  | .porterChShd => s.checkedWrite rq r v (!s.chainMode r.i && !s.fbit (chCtrl r.i) F.porterChCtrl_GO)
  | .bellCntOp => s.cntOpWrite rq (4096 * r.i + r.j) v
  | .bellCntCfg =>
    let a := bitsOf v F.bellCntCfg_ATTACH
    s.checkedWrite rq r v (decide (a < 3) && (decide (a ≠ 1) || decide (bitsOf v F.bellCntCfg_GROUP < 64)))
  | .bellMbExpect => s.expectWrite rq (64 * r.i + r.j) v
  | .bellDgExpect => s.expectWrite rq (256 + 64 * r.i + r.j) v
  | .bellMbCtrl | .bellDgCtrl =>
    let c := bitsOf v F.bellMbCtrl_RELEASE_CTR
    s.checkedWrite rq r v (decide (bitsOf v F.bellMbCtrl_REALIGN_N ≠ 0) && (refOk c || decide (c = 0xFFFF)))
  | .bellSync => s.syncWrite rq r.i r.j v
  | .bellSnapCtrl => s.snapCtrlWrite rq r.i v
  | .alleyEn => s.alleyEnWrite rq r.i r.j v
  | .alleyRaise => s.alleyRaiseWrite rq r.i v
  | .cwGrpCtrl => s.grpCtrlWrite rq r.i v
  | .cwRpCfgData => s.rpCfgWrite rq r.i v
  | .cwLinkCtrl => s.linkCtrlWrite rq r.i v
  | .ethPortCfg => s.ethPortCfgWrite rq r.i v
  | .ethSubCtrl => s.ethSubCtrlWrite rq r.i r.j v
  | .ethTsAdj => s.ethTsAdjWrite rq r.i r.j v
  | .ghMissRate => s.missRateWrite rq r.i v
  | .ghOp => s.ghOpWrite rq r.i v
  | .tbPortCfg =>
    let o := bitsOf v F.tbPortCfg_OVERHEAD
    s.checkedWrite rq r v (decide (o < 0x80) || decide (0xC0 < o))
  | .tbOp => s.tbOpWrite rq r.i v
  | .carterOp => s.carterOpWrite rq r.i v
  | .carterDb => s.carterDbWrite rq r.i v
  | .ledgerOp => s.ledgerOpWrite rq r.i v
  | .wmCnt => s.counterWrite rq r.i (r.j / 32) (r.j % 32) v
  | .wmChain => s.chainWrite rq r.i r.j v
  | .wmArm => if rqKernel rq && !armable r.j then s else s.plainWrite rq r v
  | .wmSampleRing => s.checkedWrite rq r v (ringLogOk 6 (bitsOf v F.wmSampleRing_LOG2))
  | .wmSampleCtr =>
    let c := bitsOf v F.wmSampleCtr_COUNTER
    s.checkedWrite rq r v (refOk c || decide (c = 0xFFFF))
  | .errRingBase => s.checkedWrite rq r v (ringLogOk 6 (bitsOf v F.errRingBase_LOG2))
  | .errFenceCtrl => s.fenceCtrlWrite rq v []
  | .errInjCtrl => s.injCtrlWrite rq v
  | .errInjAddr | .errInjStatus => if s.mayInject rq then s.wr r (r.merge (s.rd r) v) else s.refuse rq r
  | .fwState | .fwFuncState => (match rq with | .core n _ => if 16 ≤ n.val then s else s.refuse rq r | _ => s.refuse rq r)
  | .secState | .secPresence | .secSvn | .secSign | .secDeviceId => s.refuse rq r
  | .pwrCtrl => s.pwrCtrlWrite rq v
  | _ => s.plainWrite rq r v

/-- A write of 4 or 8 bytes to a register (R615). -/
def State.regAccess (s : State) (rq : Requester) (r : Reg) (h : Half) (v : W64) : State :=
  if h = .all ∨ r.name = .porterChDoorbell then s.regWrite rq r v
  else if r.name.command then
    if (r.name.fields.filter fun x => x.2.writable).all fun x => h.holds x.1 then s.regWrite rq r (h.place v)
    else s.strayCode (rqCode rq) 1 r.offset
  else s.regWrite rq r (r.widen (s.rd r) h v)

/-! ### Targets (R53–R56, R61, R62) -/

/-- One target of an access: its number, and its offset; undefined where the offset is outside the member's window. -/
structure Target where
  num : Nat
  off : Nat
  defined : Bool := true
  deriving DecidableEq, Repr

/-- The units that an all-units or all-channels window of Quarter `q` reaches at offset `x` of the block; none elsewhere (R53). -/
def windowTargets (q x : Nat) : Option (List Target) :=
  if 0xF00_0000 ≤ x ∧ x < 0xFB0_0000 then
    let k := x / 0x10_0000 % 16
    some ((List.range (kindCount k)).map fun i => ⟨i, stallBase (stallId q k i) + x % 0x10_0000, true⟩)
  else if 0xFB0_0000 ≤ x ∧ x < 0xFB1_0000 then
    some ((List.range 64).map fun c => ⟨c, porterBase (64 * q + c) + x % 0x1_0000, true⟩)
  else none

/-- Number of a target through the broadcast window, by Quarter and block offset (R55). -/
def bcastNum (q x n : Nat) : Nat :=
  if x < 0xB00_0000 then 16 * q + x / 0x10_0000 % 16 else if 0xF00_0000 ≤ x ∧ x < 0xFB0_0000 then 16 * q + n else if 0xFB0_0000 ≤ x ∧ x < 0xFB1_0000 then n else q

/-- The targets of a group window at offset `x`, and stray writes that a write counts beside them (R61, R62). -/
def State.groupTargets (s : State) (g x : Nat) : List Target × Nat :=
  let ms := (List.range 64).filter fun m => s.fbit ⟨.regspGrpMember, g, m⟩ F.regspGrpMember_VALID
  let target (m : Nat) : Option Target :=
    let r : Reg := ⟨.regspGrpMember, g, m⟩
    let id := s.fget r F.regspGrpMember_ID
    if s.fbit r F.regspGrpMember_PORTER then
      if 0x10_0000 ≤ x then some ⟨m, porterBase id, false⟩ else if 0x1_0000 ≤ x then none else some ⟨m, porterBase id + x, true⟩
    else some ⟨m, stallBase id + x % 0x10_0000, decide (x < 0x10_0000)⟩
  let ts := ms.filterMap target
  (ts, if ms.isEmpty then 1 else ms.length - ts.length)

/-- Where an access at an offset goes: one unicast offset, or the targets of a multi-target window with its extra stray writes. The
broadcast and group windows serve kernel cores and the Watch post only (R60). -/
def State.targets (s : State) (rq : Requester) (off : Nat) : Option (List Target × Nat) :=
  if 0x1000_0000 ≤ off ∧ off < 0x5000_0000 then
    (windowTargets (off / 0x1000_0000 - 1) (off % 0x1000_0000)).map fun ts => (ts, 0)
  else if 0x5000_0000 ≤ off ∧ off < 0x6000_0000 ∧ rqKernel rq then
    let x := off % 0x1000_0000
    some ((List.range 4).flatMap (fun q => match windowTargets q x with
      | some ts => ts.map fun t => { t with num := bcastNum q x t.num }
      | none => [⟨bcastNum q x 0, qBase q + x, true⟩]), 0)
  else if 0x6000_0000 ≤ off ∧ off < 0x7000_0000 ∧ rqKernel rq then some (s.groupTargets (off / 0x100_0000 % 16) (off % 0x100_0000))
  else none

/-- The Quarter of an offset in a Quarter block. -/
def offQ (off : Nat) : Nat := off / 0x1000_0000 - 1

/-- The UNIT code of the unit that holds an offset (Tables 24.5 and 24.6); none for a unit without one. -/
def unitOf (off : Nat) : Option Nat :=
  let q := offQ off
  let x := off % 0x1000_0000
  if off < 0x1000_0000 ∨ 0x5000_0000 ≤ off then none
  else if x < 0xB00_0000 then
    let st := stallId q (x / 0x100_0000) (x / 0x10_0000 % 16)
    if stallOk st then some st else none
  else if x < 0xB40_0000 then some (0x4000 + 64 * q + (x - 0xB00_0000) / 0x1_0000)
  else match x / 0x10_0000 with
  | 0xC0 => some (qUnit q 2)
  | 0xC1 | 0xC2 => some (qUnit q 3)
  | 0xC3 => some (qUnit q 1)
  | 0xC4 => some (qUnit q 0)
  | 0xC5 | 0xC6 | 0xC7 => some (qUnit q (8 + (x / 0x10_0000 - 0xC5)))
  | 0xC8 => some (qUnit q (0x0B + x % 0x10_0000 / 8 % 3))
  | 0xC9 => some (qUnit q (if x % 0x10_0000 < 0x4_0000 then 0x0F else 0x0E))
  | 0xCC => some (qUnit q 4)
  | _ => none

/-- The compute die that holds an offset is unpowered (R25). -/
def State.offDark (s : State) (off : Nat) : Bool :=
  decide (0x1000_0000 ≤ off) && decide (off < 0x5000_0000) && s.boot.dark.contains (offQ off) && onDie (offQ off) off

/-- The compute die that holds an offset is fenced: multi-target accesses skip it (R56). -/
def State.offFenced (s : State) (off : Nat) : Bool :=
  decide (0x1000_0000 ≤ off) && decide (off < 0x5000_0000) && s.qFenced (offQ off) && onDie (offQ off) off

/-- A unit has not answered within the register timeout (R549): recorded once for each unit, class 3 for a stall and 4 for any other
unit of a compute die (Table 24.2). -/
def State.unitTimeout (s : State) (off : Nat) (inj : Bool) : State :=
  match unitOf off with
  | none => s
  | some u =>
    if s.err.timedOut.contains u || s.offDark off then s
    else
      let s := { s with err := { s.err with timedOut := u :: s.err.timedOut } }
      if u < 0x400 then s.report 3 0x0A (precOr (s.precOfStall u)) u 0 0 0 inj
      else if onDie (offQ off) off then ((s.recordErr 4 0x0A 0xFF u 0 0 0 inj).fenceQuarter (offQ off)).checkService
      else s

/-- The unit that holds an offset does not answer this access: one that `silent` names. -/
def notAnswering (silent : List Nat) (off : Nat) : Bool :=
  match unitOf off with
  | some u => silent.contains u
  | none => false

/-! ### Reads (R57, R59, R614) -/

/-- A register read: its value, and the RC fields that lie wholly in the part read cleared. A read of CW_RP_CFG_DATA issues a
configuration read; without an answer it returns all ones (R348). -/
def State.regRead (s : State) (r : Reg) (h : Half) : State × W64 :=
  match r.name with
  | .cwRpCfgData =>
    let a : Reg := ⟨.cwRpCfgAddr, r.i, 0⟩
    let s := if s.rpMode (4 * r.i) then s.emit (.rpConfig r.i false (s.fget a F.cwRpCfgAddr_BDF) (s.fget a F.cwRpCfgAddr_DWORD) 0) else s
    (s, h.take 0xFFFF_FFFF#64)
  | _ =>
    let v := s.rd r
    let m := (r.name.fields.filter fun x => decide (x.2 = .rc) && h.holds x.1).foldl (fun m x => m ||| x.1.mask) (0 : W64)
    (s.wr r (v &&& ~~~m), h.take (r.view v))

/-- A read at a unicast offset by a requester; an undefined offset, or an unpowered die, reads 0. -/
def State.offRead (s : State) (rq : Requester) (off : Nat) (h : Half) : State × W64 :=
  if s.offDark off then (s, 0)
  else match regAt (rqCode rq) off with
    | some r => s.regRead r h
    | none => (s, 0)

/-- An injection withholds the response of a read of the unit (Table 24.7, 0x0A). -/
def State.withheld (s : State) (off : Nat) : Bool :=
  match unitOf off with
  | some u => (s.injAt 0x0A u (fun _ => true)).isSome
  | none => false

/-- A read of one target: none where the unit does not answer. -/
def State.targetRead (s : State) (rq : Requester) (off : Nat) (h : Half) (silent : List Nat) : State × Option W64 :=
  if s.withheld off then (s.injFire.unitTimeout off true, none)
  else if notAnswering silent off then (s.unitTimeout off false, none)
  else
    let (s, v) := s.offRead rq off h
    (s, some v)

/-- The value of a multi-target read, and the reader's REGSP_BCAST_LAST and REGSP_BCAST_DIFF after it (R59). `got` lists target numbers
and values. -/
def State.bcastRecord (s : State) (rq : Requester) (addressed : Nat) (got : List (Nat × W64)) : State × W64 :=
  let first := got.foldl (fun (m : Option (Nat × W64)) x => match m with
    | some y => if x.1 < y.1 then some x else some y
    | none => some x) none
  let (num, v) := first.getD (0, 0)
  let diff := got.filter fun x => x.2 ≠ v
  let mask := diff.foldl (fun n x => setBit n (x.1 % 64)) 0
  let last := setBits (setBits (setBits (setBits (setBits 0 F.regspBcastLast_RESPONDED got.length)
    F.regspBcastLast_ADDRESSED addressed) F.regspBcastLast_FIRST num)
    F.regspBcastLast_SKIP (b2n (decide (got.length < addressed)))) F.regspBcastLast_DIVERGE (b2n (!diff.isEmpty))
  ((s.wr ⟨.regspBcastLast, rqCode rq, 0⟩ last).wr ⟨.regspBcastDiff, rqCode rq, 0⟩ (BitVec.ofNat 64 mask), v)

/-- A read of `size` bytes at an offset: the state after it and the value. `silent` names units that do not answer in time. -/
def State.spaceRead (s : State) (rq : Requester) (off size : Nat) (silent : List Nat) : State × W64 :=
  match halfOf off size with
  | none => (s, 0)
  | some (base, h) =>
    match s.targets rq base with
    | none =>
      let (s, v) := s.targetRead rq base h silent
      (s, v.getD 0)
    | some (ts, _) =>
      let (s, got) := ts.foldl (fun (a : State × List (Nat × W64)) t =>
        if !t.defined then (a.1, a.2 ++ [(t.num, 0)])
        else if a.1.offFenced t.off then a
        else match a.1.targetRead rq t.off h silent with
          | (s, some v) => (s, a.2 ++ [(t.num, v)])
          | (s, none) => (s, a.2)) (s, [])
      s.bcastRecord rq ts.length got

/-! ### Writes (R57, R58, R64) -/

/-- A write at a unicast offset. -/
def State.offWrite (s : State) (rq : Requester) (off : Nat) (h : Half) (v : W64) : State :=
  if s.offDark off then s
  else match regAt (rqCode rq) off with
    | some r => s.regAccess rq r h v
    | none => s.strayCode (rqCode rq) 0 off

/-- A write of `data` (4 or 8 bytes) at an offset. -/
def State.spaceWrite (s : State) (rq : Requester) (off : Nat) (data : Bytes) (silent : List Nat) : State :=
  match halfOf off data.length with
  | none => s.strayCode (rqCode rq) 1 off
  | some (base, h) =>
    let v := BitVec.ofNat 64 (leNat data)
    match s.targets rq base with
    | none => if notAnswering silent base then s.unitTimeout base false else s.offWrite rq base h v
    | some (ts, stray) =>
      let s := forNat stray s fun s _ => s.strayCode (rqCode rq) 0 base
      ts.foldl (fun s t =>
        if !t.defined then s.strayCode (rqCode rq) 0 base
        else if s.offFenced t.off then s
        else if notAnswering silent t.off then s.unitTimeout t.off false
        else s.offWrite rq t.off h v) s

/-! ### The commands -/

/-- MULTI_TARGET_READ (R59). -/
def execMultiTargetRead (rq : Requester) (off : BitVec 32) (size : Nat) (silent : List (BitVec 16)) (s : State) :
    Host.Outcome State Fault Refusal :=
  let (s, v) := s.spaceRead rq off.toNat size (silent.map (·.toNat))
  done (s.emit (.regData rq v))

/-- GRP_MEMBER_WRITE (R63, R65). -/
def execGrpMemberWrite (rq : Requester) (g : Fin 16) (m : Fin 64) (v : W64) (s : State) : Host.Outcome State Fault Refusal :=
  done (s.grpMemberWrite rq g.val m.val v)

/-- REGISTER_TIMEOUT (R549): the unit that holds an offset has not answered an access. -/
def execRegisterTimeout (off : BitVec 32) (s : State) : Host.Outcome State Fault Refusal := done (s.unitTimeout off.toNat false)

/-- CONSERVE_CHECK (R66): a write of CONSERVE_CTRL. -/
def execConserveCheck (rq : Requester) (v : W64) (s : State) : Host.Outcome State Fault Refusal := done (s.conserveStart rq v)

/-- Every instance of a quantity is at a quiescent point of Table 2.2. Those of quantities 2 and 6 are always, or at a re-alignment. -/
def State.quiescent (s : State) : Nat → Bool
  | 0 => s.blvd.all fun x => x.2.unacked.isEmpty
  | 3 => s.home.poolWait.all fun x => x.2.isEmpty
  | 5 => s.porter.chans.all fun x => !x.2.busy
  | _ => true

/-- UNIT code of a Boulevard end: B01, B02, B03, B12, B13, B23 by number, with its two Quarters. -/
def blvdEnds : Nat → Nat × Nat
  | 0 => (0, 1) | 1 => (0, 2) | 2 => (0, 3) | 3 => (1, 2) | 4 => (1, 3) | _ => (2, 3)

/-- UNIT and PRECINCT of the record of a FAIL (R66). -/
def State.conserveRec (s : State) (n u : Nat) : Nat × Nat :=
  match n with
  | 0 => (blvdUnit (blvdEnds u).1 (blvdEnds u).2, 0xFF)
  | 1 => (if u < 0x20 then linkUnit (u - 0x10) else qUnit (hostQ (u - 0x20)) 0x18, 0xFF)
  | 2 => (u, precOr (s.precOfStall u))
  | 3 => (qUnit u 0, 0xFF)
  | 4 => (match s.lqueue u with | some x => (soleStall x.stall 10, x.prec) | none => (0, 0xFF))
  | 5 => (0x4000 + u, precOr (s.precOfChan u))
  | _ => (qUnit (u / 4096) 3, precOr (s.precOfBell (u / 4096) (u % 4096)))

/-- A Boulevard or a Causeway link whose credits do not add up trains again (Table 24.2). -/
def State.conserveRetrain (s : State) (n u : Nat) : State :=
  match n with
  | 0 => s.setBlvd (blvdEnds u).1 (blvdEnds u).2 1
  | 1 => if u < 0x20 ∧ !s.rpMode (u - 0x10) then s.setLinkState (u - 0x10) 1 else s
  | _ => s

/-- A pending check of quantity `n` reports: PASS, or FAIL for the instance `bad` of Table 2.2. -/
def State.conserveReport (s : State) (n : Nat) (bad : Option Nat) (inj : Bool) : State :=
  let st : Reg := ⟨.conserveStatus, 0, 0⟩
  match bad with
  | none => s.fset st ⟨2 * n + 1, 2 * n⟩ 1
  | some u =>
    let s := (s.fset st ⟨2 * n + 1, 2 * n⟩ 2).fset st ⟨16 + n, 16 + n⟩ 1
    let w : Reg := ⟨.conserveWhere, 0, 0⟩
    let s := (s.fset w F.conserveWhere_UNIT u).fset w F.conserveWhere_QTY n
    let (unit, p) := s.conserveRec n u
    let cls := if n < 2 then 1 else if n = 3 then 4 else 2
    (s.report cls 0x0F p unit n 0 0 inj).conserveRetrain n u

/-- CONSERVE_CHECK_RESULT (R66): `bad` is the instance whose books disagree. An armed injection makes the check report FAIL for the
instance of ERR_INJ_ADDR (Table 24.7). BUCKET and privileged BELL_COUNT are checked all the time and report FAIL without a request. -/
def execConserveCheckResult (n : Fin 7) (bad : Option Nat) (s : State) : Host.Outcome State Fault Refusal :=
  let n := n.val
  if s.fget ⟨.conserveStatus, 0, 0⟩ ⟨2 * n + 1, 2 * n⟩ ≠ 3 then
    match bad with
    | some u => done (if s.conserveUnit n u ∧ (n = 2 ∨ (n = 6 ∧ s.privileged u)) then s.conserveReport n bad false else s)
    | none => done s
  else match s.injAt 0x0F 0 (fun _ => true) with
    | some i =>
      if i.syndrome = n then done (s.injFire.conserveReport n (some (i.addr % 2 ^ 16)) true)
      else if s.quiescent n ∧ bad.all (fun u => s.conserveUnit n u) = true then done (s.conserveReport n bad false) else done s
    | none => if s.quiescent n ∧ bad.all (fun u => s.conserveUnit n u) = true then done (s.conserveReport n bad false) else done s

end Sys2Proof.Machine
end

