-- ==== Sys2Proof/Machine/HostSpace.lean ====
section
/-!
DEFINITION. A host's accesses to BAR0 and to the configuration space of a function, and the rows of register accesses (chapters "Host
endpoint ports and tenancy", R458–R463, R472, R473, R476, R479, and "Weighmaster", R541, R544).
-/
namespace Sys2Proof.Machine

/-! ### The counter window (R541, R544, Tables 23.1 to 23.3) -/

/-- Class of a counter: block 64 stands for the device blocks. -/
def wmClass (b n : Nat) : Nat :=
  if b < 42 then (if n % 16 < 6 then 0 else 1)
  else if b < 44 then 3
  else if b < 48 then 2
  else if b < 52 then 5
  else if b < 55 then 2
  else if b < 58 then 4
  else 5

/-- A function's instance may read a counter through its window (R544). -/
def State.mayCount (s : State) (f q b n : Nat) : Bool :=
  match s.inst f with
  | none => false
  | some i =>
    nbit i.counterMask (wmClass (if q = wmDevice then 64 else b) n) &&
    (decide (f % 256 = 0) || (decide (q < 4) && decide (b < 42) && (match stallOfPart q b with
      | some st => decide (s.precOfStall st = some i.prec)
      | none => false)))

/-- The map header (Table 23.3). -/
def State.mapHeader (s : State) (f : Nat) : Bytes :=
  match s.inst f with
  | none => List.replicate 64 0#8
  | some i =>
    leBytes 4 0x5041_4D57 ++ leBytes 2 0x0100 ++ leBytes 1 32 ++ leBytes 1 (s.fget ⟨.errSummary, 0, 0⟩ F.errSummary_QFENCED) ++
    leBytes 4 0x1000 ++ leBytes 4 0x4000 ++ leBytes 4 0x1_1000 ++ leBytes 4 i.counterMask ++ List.replicate 40 0#8

/-- The 8 bytes at offset `x` (a multiple of 8) of the counter window of a function. -/
def State.counterWord (s : State) (f x : Nat) : Bytes :=
  let slot (q k : Nat) : Bytes :=
    if wmSlotOk q (k / 32) (k % 32) && s.mayCount f q (k / 32) (k % 32) then
      let r : Reg := ⟨.wmCnt, q, k⟩
      leBytes 8 (r.view (s.rd r)).toNat
    else leBytes 8 0
  if x < 64 then slice (s.mapHeader f) x 8
  else if 0x1000 ≤ x ∧ x < 0x1_1000 then
    let y := x - 0x1000
    if y % 0x4000 < 58 * 256 then slot (y / 0x4000) (y % 0x4000 / 8) else leBytes 8 0
  else if 0x1_1000 ≤ x ∧ x < 0x1_1200 then slot wmDevice ((x - 0x1_1000) / 8)
  else leBytes 8 0

/-! ### BAR0 (Table 19.3) -/

/-- The regions of BAR0 at an offset, with the offset inside each. -/
inductive BarPlace where
  | h2d (x : Nat) | d2h (x : Nat)
  | ring | beat | status | aperture
  | msix (x : Nat) | pba (x : Nat)
  | slot (n : Nat)
  | counters (x : Nat)
  | space (x : Nat)
  | none
  deriving DecidableEq, Repr

/-- The region of a PF's or VF's BAR0 that holds an offset. -/
def barPlace (f off : Nat) : BarPlace :=
  let pf := decide (f % 256 = 0)
  let within (base size : Nat) : Bool := decide (base ≤ off) && decide (off < base + size)
  let (table, entries, pba, pbaSize, slots, win, winSize) :=
    if pf then (0x2000, 2048, 0xA000, 256, 0x10_0000, 0x20_0000, 0x10_0000) else (0x2000, 64, 0x3000, 8, 0x1_0000, 0x8_0000, 0x8_0000)
  if off < 0x400 then .h2d off
  else if off < 0x800 then .d2h (off - 0x400)
  else if off < 0x808 then .ring
  else if off < 0x810 then .beat
  else if off < 0x818 then .status
  else if off < 0x820 ∧ pf then .aperture
  else if within table (entries * 16) then .msix (off - table)
  else if within pba pbaSize then .pba (off - pba)
  else if within slots (slotCount f * 8) then .slot ((off - slots) / 8)
  else if within win winSize then .counters (off - win)
  else if pf && within 0x800_0000 0x800_0000 then .space (off - 0x800_0000)
  else .none

/-- The 16 bytes of an MSI-X table entry. -/
def Msix.bytes (e : Msix) : Bytes := leBytes 8 e.addr ++ leBytes 4 e.data ++ leBytes 4 (b2n e.masked)

/-- A vector that is pending is sent once it is not masked. -/
def State.sendPending (s : State) (f v : Nat) : State :=
  let x := s.func f
  if x.pba.contains v ∧ ((look x.msix v).getD {}).masked = false ∧ x.msixEnable = true then
    (s.setFunc f { x with pba := x.pba.filter (fun y => y ≠ v) }).sendMsix f v
  else s

/-- Bytes written into the MSI-X table. -/
def State.msixWrite (s : State) (f x : Nat) (data : Bytes) : State :=
  let v := x / 16
  let b := overlay (Msix.bytes ((look (s.func f).msix v).getD {})) (x % 16) data
  let e : Msix := ⟨leAt b 0 8, leAt b 8 4, nbit (leAt b 12 4) 0⟩
  (s.setFunc f { s.func f with msix := put (s.func f).msix v e }).sendPending f v

/-- A doorbell slot written: the new index goes to the ring bound to it; a slot bound to nothing counts a stray write (R462). -/
def State.slotWrite (s : State) (f n v : Nat) : State :=
  match s.slotOf f n with
  | none => s.slotStray f
  | some (.ledgerSq q) => (match s.lqueue q with
    | some x => s.setLqueue q { x with sqTail := advanceTo x.sqTail x.sqLog (v % 2 ^ x.sqLog) }
    | none => s)
  | some (.ledgerCq q) => (match s.lqueue q with
    | some x => s.setLqueue q { x with cqHead := min x.cqTail (advanceTo x.cqHead x.cqLog (v % 2 ^ x.cqLog)) }
    | none => s)
  | some (.carterSq c) => s.sqBell c v false
  | some (.carterRq c) => s.rqBell c v
  | some (.carterCq c) => s.cqBell c v
  | some (.rxq r) => s.ringProd r v
  | some (.txr r) => s.ringProd r v

/-- The requester of a PF's register aperture (R463). -/
def apertureRq (f : Nat) : Requester := .pf (if f < 256 then 0 else 1)

/-- The offset of register space that an aperture shows (R463). -/
def State.apertureOff (s : State) (f x : Nat) : Nat := ((s.func f).aperture * 0x800_0000 + x) % 2 ^ 32

/-- KIOSK_BEAT.HOST written (R479). -/
def State.beatWrite (s : State) (f v : Nat) : State :=
  let x := s.func f
  s.setFunc f { x with beatHost := v, beatSeen := x.beatSeen || (x.isOpen && decide (v ≠ 0)) }

/-- A write of BAR0 of function `f` (R461). A read-only place of a defined region ignores it. -/
def State.bar0Write (s : State) (f off : Nat) (data : Bytes) (silent : List Nat) : State :=
  let n := data.length
  let v := leNat data
  let normal := decide (n = 4 ∨ n = 8) && decide (off % n = 0)
  match barPlace f off with
  | .h2d x =>
    if normal || (decide (n = 16 ∨ n = 32 ∨ n = 64) && decide (off % n = 0)) then
      let k := x / 64
      let old := slice ((look (s.func f).h2d k).getD []) 0 64
      s.setFunc f { s.func f with h2d := put (s.func f).h2d k (overlay old (x % 64) data) }
    else s.bar0Stray f
  | p =>
    if !normal then s.bar0Stray f
    else match p with
    | .ring => if off % 8 = 4 then s else (s.d2hHeadWrite f (v / 2 ^ 16 % 2 ^ 16)).h2dTailWrite f (v % 2 ^ 16)
    | .beat => if off % 8 = 4 then s else s.beatWrite f (v % 2 ^ 32)
    | .aperture => if off % 8 = 4 then s else s.setFunc f { s.func f with aperture := v % 32 }
    | .msix x => s.msixWrite f x data
    | .slot k => if off % 8 = 4 then s else s.slotWrite f k (v % 2 ^ 16)
    | .space x => s.spaceWrite (apertureRq f) (s.apertureOff f x) data silent
    | .d2h _ | .status | .pba _ => s
    | _ => s.bar0Stray f

/-- `n` bytes of a word of 8 bytes, from the half that an offset names. -/
def wordPart (w : Bytes) (off n : Nat) : Bytes := slice w (off % 8) n

/-- A read of BAR0 of function `f`: the state after it and the bytes (R461). STRAY of KIOSK_STATUS is cleared by a read that covers it. -/
def State.bar0Read (s : State) (f off n : Nat) (silent : List Nat) : State × Bytes :=
  let x := s.func f
  if ¬ (n = 4 ∨ n = 8) ∨ off % n ≠ 0 then (s, List.replicate n 0#8)
  else match barPlace f off with
  | .h2d y => (s, slice ((look x.h2d (y / 64)).getD []) (y % 64) n)
  | .d2h y => (s, slice ((look x.d2h (y / 64)).getD []) (y % 64) n)
  | .ring => (s, wordPart (leBytes 2 x.h2dTail ++ leBytes 2 x.d2hHead ++ leBytes 2 x.h2dHead ++ leBytes 2 x.d2hTail) off n)
  | .beat => (s, wordPart (leBytes 4 x.beatHost ++ leBytes 4 x.beatDevice) off n)
  | .status =>
    let w := leBytes 2 (b2n x.isOpen + 2 * b2n x.role + 4 * f) ++ leBytes 2 x.version ++ leBytes 4 x.stray
    (if off % 8 = 4 ∨ n = 8 then s.setFunc f { x with stray := 0 } else s, wordPart w off n)
  | .aperture => (s, wordPart (leBytes 8 x.aperture) off n)
  | .msix y => (s, slice (Msix.bytes ((look x.msix (y / 16)).getD {})) (y % 16) n)
  | .pba y => (s, slice (leBytes 8 (forNat 64 0 fun k i => if x.pba.contains (y / 8 * 64 + i) then setBit k i else k)) (y % 8) n)
  | .counters y => (s, wordPart (s.counterWord f (y / 8 * 8)) off n)
  | .space y =>
    let (s, v) := s.spaceRead (apertureRq f) (s.apertureOff f y) n silent
    (s, leBytes n v.toNat)
  | _ => (s, List.replicate n 0#8)

/-! ### Configuration space (Tables 19.1, 19.2 and 19.5)

The offsets inside each capability, the capability numbers and the bits of their registers are those of PCI Express (PRESUMED). -/

/-- TotalVFs of a PF (Table 19.5). -/
def State.totalVfs (s : State) (p : Nat) : Nat := (s.xim.conf.pools.map fun x => if p = 0 then x.vf0 else x.vf1).sum

/-- Read-only and reset contents of a PF's configuration space that the tables give: offset, bytes and value. -/
def cfgPf : List (Nat × Nat × Nat) :=
  [(0x00, 2, 0xC4E7), (0x02, 2, 0x1600), (0x06, 2, 0x0010), (0x08, 1, 0x10), (0x09, 3, 0x12_0000), (0x10, 4, 0x4), (0x18, 4, 0xC),
   (0x34, 1, 0x40), (0x40, 2, 0x5001), (0x50, 2, 0xA010), (0xA0, 2, 0x0011), (0xA2, 2, 2047), (0xA4, 4, 0x2000), (0xA8, 4, 0xA000)] ++
  [(0x100, 4, 0x1481_0001), (0x148, 4, 0x1881_0010), (0x188, 4, 0x1901_000D), (0x190, 4, 0x1981_000F), (0x198, 4, 0x1A01_001B),
   (0x1A0, 4, 0x1B01_0013), (0x1B0, 4, 0x1C81_002E), (0x1C8, 4, 0x0001_0030), (0x15C, 2, 1), (0x15E, 2, 1), (0x162, 2, 0x1601), (0x1A8, 4, 512)]

/-- As `cfgPf`, for a VF (R460). -/
def cfgVf : List (Nat × Nat × Nat) :=
  [(0x00, 4, 0xFFFF_FFFF), (0x06, 2, 0x0010), (0x34, 1, 0x40), (0x40, 2, 0x9010), (0x90, 2, 0x0011), (0x92, 2, 63), (0x94, 4, 0x2000),
   (0x98, 4, 0x3000), (0x100, 4, 0x1481_0001), (0x148, 4, 0x0001_000F)]

/-- The read-only byte at an offset of configuration space. -/
def cfgInit (f off : Nat) : Nat :=
  match (if f % 256 = 0 then cfgPf else cfgVf).find? (fun x => decide (x.1 ≤ off) && decide (off < x.1 + x.2.1)) with
  | some (o, _, v) => v / 256 ^ (off - o) % 256
  | none => 0

/-- The writable bits of a byte of configuration space. -/
def cfgMask (f off : Nat) : Nat :=
  if f % 256 = 0 then
    match off with
    | 0x04 => 0x46 | 0x05 => 0x05 | 0x0C => 0xFF | 0x13 => 0xF0 | 0x14 | 0x15 | 0x16 | 0x17 => 0xFF
    | 0x1C => 0xF0 | 0x1D | 0x1E | 0x1F => 0xFF | 0x30 => 0x01 | 0x33 => 0xFF | 0x3C => 0xFF
    | 0x45 => 0x01 | 0x58 => 0xFF | 0x59 => 0x7F | 0x78 => 0x0F | 0xA3 => 0x40 | 0x150 => 0x1F | 0x158 | 0x159 => 0xFF | _ => 0
  else match off with
    | 0x04 => 0x04 | 0x48 => 0xFF | 0x49 => 0x7F | 0x68 => 0x0F | 0x93 => 0x40 | _ => 0

/-- Offset of the MSI-X capability of a function. -/
def msixCap (f : Nat) : Nat := if f % 256 = 0 then 0xA0 else 0x90

/-- Offset of the PCI Express capability of a function. -/
def expCap (f : Nat) : Nat := if f % 256 = 0 then 0x50 else 0x40

/-- A byte of configuration space as it reads. -/
def State.cfgByte (s : State) (f off : Nat) : Nat :=
  let x := s.func f
  let stored := (lookD 0#8 x.cfg off).toNat &&& cfgMask f off
  let base := cfgInit f off ||| stored
  if off = 0x04 then (if x.bme then setBit base 2 else clearBit base 2)
  else if off = msixCap f + 3 then (if x.msixEnable then setBit base 7 else base)
  else if f % 256 = 0 then
    match off with
    | 0x44 => x.power % 4
    | 0x45 => b2n x.pmeEn + 128 * b2n x.pmeStatus
    | 0x150 => if x.vfEnable then setBit base 0 else clearBit base 0
    | 0x154 | 0x156 => s.totalVfs (portOf f) % 256
    | 0x155 | 0x157 => s.totalVfs (portOf f) / 256 % 256
    | 0x158 => x.numVfs % 256
    | 0x159 => x.numVfs / 256
    | _ => base
  else base

/-- A write of one byte of configuration space, with what its bits do: Bus Master Enable (R519), MSI-X Enable, the power state (R467),
PME_En and PME_Status (R468), Initiate Function Level Reset (R450), VF Enable and NumVFs (R473). -/
def State.cfgWriteByte (s : State) (f off v : Nat) : State :=
  let s := if cfgMask f off = 0 then s
    else s.setFunc f { s.func f with cfg := putD 0#8 (s.func f).cfg off (BitVec.ofNat 8 (v &&& cfgMask f off)) }
  let x := s.func f
  if off = 0x04 then
    if nbit v 2 then s.setFunc f { x with bme := true } else if x.bme then s.bmeClear f else s
  else if off = msixCap f + 3 then s.setFunc f { x with msixEnable := nbit v 7 }
  else if off = expCap f + 9 then (if nbit v 7 then s.flrEffects f else s)
  else if f % 256 ≠ 0 then s
  else match off with
    | 0x44 => s.powerWrite (portOf f) (v % 4)
    | 0x45 => s.setFunc f { x with pmeEn := nbit v 0, pmeStatus := x.pmeStatus && !nbit v 7 }
    | 0x150 => if nbit v 0 then s.setFunc f { x with vfEnable := true } else if x.vfEnable then s.vfClear (portOf f) else s
    | _ => s

/-- A write of configuration space: a NumVFs above TotalVFs is ignored (R473). -/
def State.cfgWrite (s : State) (f off : Nat) (data : Bytes) : State :=
  let n := data.length
  let numVfs (s : State) : State :=
    let at_ := 0x158 - off
    if f % 256 = 0 ∧ off ≤ 0x158 ∧ 0x15A ≤ off + n then
      let k := leAt data at_ 2
      if s.totalVfs (portOf f) < k ∨ (s.func f).vfEnable = true then s else s.setFunc f { s.func f with numVfs := k }
    else s
  if ¬ (n = 1 ∨ n = 2 ∨ n = 4) ∨ off % n ≠ 0 then s
  else numVfs (data.zipIdx.foldl (fun s b => s.cfgWriteByte f (off + b.2) b.1.toNat) s)

/-- A configuration access reaches a function: it is there, and its port's link is up. -/
def State.cfgReaches (s : State) (f : Nat) : Bool := s.funcThere f && (s.port (portOf f)).linkUp && !s.err.held

/-! ### The commands -/

/-- REGISTER_WRITE (R57, R461, R463, R64, R616). `silent` names units that do not answer within the register timeout (R549). -/
def execRegisterWrite (place : Place) (data : Bytes) (silent : List (BitVec 16)) (s : State) : Host.Outcome State Fault Refusal :=
  let silent := silent.map (·.toNat)
  match place with
  | .space rq off => done (s.spaceWrite rq off.toNat data silent)
  | .bar0 f off => done (if s.hostReaches f.val then s.bar0Write f.val off.toNat data silent else s)
  | .config f off => done (if s.cfgReaches f.val then s.cfgWrite f.val off.toNat data else s)

/-- READ_CLEAR (R614): a read, at whatever place, with its answer. -/
def execReadClear (place : Place) (size : Nat) (silent : List (BitVec 16)) (s : State) : Host.Outcome State Fault Refusal :=
  let silent := silent.map (·.toNat)
  match place with
  | .space rq off =>
    let (s, v) := s.spaceRead rq off.toNat size silent
    done (s.emit (.regData rq v))
  | .bar0 f off =>
    if s.hostReaches f.val then
      let (s, b) := s.bar0Read f.val off.toNat size silent
      done (s.emit (.hostData f.val b))
    else done s
  | .config f off =>
    if s.cfgReaches f.val then done (s.emit (.hostData f.val ((List.range size).map fun i => BitVec.ofNat 8 (s.cfgByte f.val (off.toNat + i)))))
    else done s

end Sys2Proof.Machine
end

