-- ==== Sys2Proof/Machine/Hawker.lean ====
section
/-!
DEFINITION. What every Hawker instruction is made of: registers and windows, spills and fills, loads and stores, exceptions, and
the running of one instruction (chapter "The Hawker instruction set").
-/
namespace Sys2Proof.Machine

/-! ### Registers and windows (R484–R486) -/

/-- The frame after frame `k`, and the one before it (R485: numbered modulo 31). -/
def nextFrame (k : Nat) : Nat := (k + 1) % 31
def prevFrame (k : Nat) : Nat := (k + 30) % 31

/-- The key of register `i` (0–15) of a frame. -/
def frameKey (frame i : Nat) : Nat := frame * 16 + i

/-- The place of a register numbered 8 to 31 in the windowed file (R484, R485). -/
def Core.slotOf (c : Core) (r : Nat) : Nat :=
  if r < 24 then frameKey c.cwp (r - 8) else frameKey (nextFrame c.cwp) (r - 24)

/-- The stack pointer of the present mode. -/
def Core.sp (c : Core) : W64 := if c.kernel then c.s7k else c.s7u

/-- The stack pointer of the present mode replaced. -/
def Core.setSp (c : Core) (v : W64) : Core := if c.kernel then { c with s7k := v } else { c with s7u := v }

/-- A register by its number (R484): s0 reads 0. -/
def Core.get (c : Core) (r : HReg) : W64 :=
  let i := r.toNat
  if i = 0 then 0 else if i < 7 then lookD 0 c.shared i else if i = 7 then c.sp else lookD 0 c.file (c.slotOf i)

/-- A register written (R484): a write of s0 is discarded. -/
def Core.set (c : Core) (r : HReg) (v : W64) : Core :=
  let i := r.toNat
  if i = 0 then c
  else if i < 7 then { c with shared := putD 0 c.shared i v }
  else if i = 7 then c.setSp v
  else { c with file := putD 0 c.file (c.slotOf i) v }

/-- PSR. -/
def Core.psr (c : Core) : W64 :=
  BitVec.ofNat 64 (c.cwp * 2 ^ 16 + c.nframes * 2 ^ 8 + b2n c.ie * 2 + b2n c.kernel)

/-- The window slid forward into a frame of a mode; a 31st frame does not become resident (R486). -/
def Core.slide (c : Core) (kernel : Bool) : Core :=
  let k := nextFrame c.cwp
  { c with cwp := k, nframes := c.nframes + 1, userTag := if kernel then drop c.userTag k else put c.userTag k () }

/-- The window slid back; a frame that was filled is the only one resident. -/
def Core.unslide (c : Core) : Core := { c with cwp := prevFrame c.cwp, nframes := max 1 (c.nframes - 1) }

/-- The oldest resident frame. -/
def Core.oldest (c : Core) : Nat := (c.cwp + 32 - c.nframes) % 31

/-- A frame belongs to user mode. -/
def Core.userFrame (c : Core) (k : Nat) : Bool := (look c.userTag k).isSome

/-! ### Spills and fills (R487–R489) -/

/-- SPB, SPL and SPT of a mode. -/
def Core.area (c : Core) (user : Bool) : Nat × Nat × Nat :=
  if user then (c.spbU.toNat, c.splU.toNat, c.sptU.toNat) else (c.spbK.toNat, c.splK.toNat, c.sptK.toNat)

/-- SPT of a mode replaced. -/
def Core.setTop (c : Core) (user : Bool) (v : Nat) : Core :=
  if user then { c with sptU := BitVec.ofNat 64 v } else { c with sptK := BitVec.ofNat 64 v }

/-- The requester code of core `n` at a home (Table 24.5 does not name one; HomeAccess). -/
def coreReq (n : Nat) : Nat := 0x8000 + n

/-- The 128 bytes of a frame: a0–a7, then k0–k7 (R487). -/
def Core.frameBytes (c : Core) (k : Nat) : Bytes := (List.range 16).flatMap fun i => leBytes 8 (lookD 0 c.file (frameKey k i)).toNat

/-- A frame's registers loaded from 128 bytes. -/
def Core.loadFrame (c : Core) (k : Nat) (b : Bytes) : Core :=
  { c with file := (List.range 16).foldl (fun f i => putD 0 f (frameKey k i) (BitVec.ofNat 64 (leAt b (8 * i) 8))) c.file }

/-- Counters of a core: block 48 + core of its Quarter, or a device block (R538). `context` is the address of the instruction. -/
def State.coreEvent (s : State) (n slot k : Nat) : State :=
  let c := s.core n
  s.event (if n < 16 then n / 4 else wmDevice) (if n < 16 then 48 + n % 4 else n - 16) slot k { context := c.pc, user := !c.kernel }

/-- The oldest resident frame spilled (R487, R488). `reserve` lets it use the reserve that exception entry may use. Fails with the spill
address. -/
def State.spill (s : State) (n : Nat) (reserve : Bool) : Except (State × Nat) State :=
  let c := s.core n
  let k := c.oldest
  let user := c.userFrame k
  let (_, limit, top) := c.area user
  if (if reserve then limit < top else limit ≤ top) then .error (s, top)
  else if !s.reaches (coreReq n) top 128 then .error (s, top)
  else
    let b := c.frameBytes k
    let s := (lines top 128).foldl (fun s x => s.lineWrite x.1 x.2.1 x.2.2 (slice b (x.1 + x.2.1 - top) (x.2.2 - x.2.1)) false) s
    let c := s.core n
    .ok ((s.setCore n { c.setTop user (top + 128) with nframes := c.nframes - 1 }).coreEvent n 2 1)

/-- The frame before the current one made resident, from the area of a mode (R487, R488). Fails with the fill address. -/
def State.fill (s : State) (n : Nat) (user : Bool) : Except (State × Nat) State :=
  let c := s.core n
  if 2 ≤ c.nframes then .ok s
  else
    let (base, _, top) := c.area user
    let a := top - 128
    if top < base + 128 ∨ ¬ s.reaches (coreReq n) a 128 then .error (s, a)
    else
      let (s, b, bad) := s.readMem 0xFF (coreReq n) 0 a 128
      if bad then .error (s, a)
      else
        let c := s.core n
        let k := prevFrame c.cwp
        let c := (c.loadFrame k b).setTop user a
        let c := { c with nframes := 2, userTag := if user then put c.userTag k () else drop c.userTag k }
        .ok ((s.setCore n c).coreEvent n 3 1)

/-! ### Loads and stores (R502–R505) -/

/-- The lowest-numbered valid MPU region that contains an address: its LIMIT word (R504). -/
def Core.region (c : Core) (a : Nat) : Option Nat :=
  ((List.range 16).find? fun i =>
    let l := (lookD 0 c.mpuLimit i).toNat
    let b := (lookD 0 c.mpuBase i).toNat
    nbit l 0 && decide (b / 4096 ≤ a / 4096) && decide (a / 4096 ≤ l / 4096)).map fun i => (lookD 0 c.mpuLimit i).toNat

/-- A user access is permitted: bit 1 UR, 2 UW, 3 UX of the region. -/
def Core.permits (c : Core) (a bit : Nat) : Bool := c.kernel || (match c.region a with | some l => nbit l bit | none => false)

/-- Loads at an address may be cached (R505). -/
def Core.cacheable (c : Core) (a : Nat) : Bool := isMem a && (match c.region a with | some l => nbit l 4 | none => false)

/-- The requester of a core's register accesses. -/
def coreRq (n : CoreNo) (c : Core) : Requester := .core n c.kernel

/-- An address in register space. -/
def inRegSpace (a : Nat) : Bool := match homeOf a with | .register _ => true | _ => false

/-- A cached copy of bytes, held for every one of them. -/
def Core.cached (c : Core) (a n : Nat) : Option Bytes :=
  let xs := (List.range n).map fun i => look c.dcache (a + i)
  if xs.all (·.isSome) then some (xs.map fun x => x.getD 0#8) else none

/-- The 128-byte line of an address dropped from the data cache. -/
def Core.uncache (c : Core) (a : Nat) : Core := { c with dcache := c.dcache.filter fun x => decide (x.1 / 128 ≠ a / 128) }

/-- Bytes stored in a data cache. -/
def Core.cacheBytes (c : Core) (a : Nat) : Bytes → Core
  | [] => c
  | b :: bs => ({ c with dcache := put c.dcache a b }).cacheBytes (a + 1) bs

/-- A load of `size` bytes at an address: the bytes, or the exception code. A cached line may have left the cache (free). -/
def State.coreLoad (s : State) (n : CoreNo) (addr : W64) (size : Nat) : State × Except Nat Bytes :=
  let c := s.core n
  let a := addr.toNat
  if a % size ≠ 0 then (s, .error 0x04)
  else if 2 ^ 57 ≤ a ∨ ¬ c.permits a 1 then (s, .error 0x05)
  else match homeOf a with
    | .register off =>
      let (s, v) := s.spaceRead (coreRq n c) off size []
      (s, .ok (leBytes size v.toNat))
    | _ =>
      if !s.reaches (coreReq n) a size then (s, .error 0x05)
      else
        let hit := if Config.freeBool s.fresh then c.cached a size else none
        let s := s.useFresh 1
        match hit with
        | some b => (s, .ok b)
        | none =>
          let (s, b, bad) := s.readMem 0xFF (coreReq n) 0 a size
          if bad then (s, .error 0x0C)
          else if c.cacheable a then (s.setCore n ((s.core n).cacheBytes (a / 128 * 128) (s.bytes (a / 128 * 128) 128)), .ok b)
          else (s, .ok b)

/-- A store of bytes at an address, or the exception code (R489, R502). The core's own cached copy follows it. -/
def State.coreStore (s : State) (n : CoreNo) (addr : W64) (b : Bytes) : State × Except Nat Unit :=
  let c := s.core n
  let a := addr.toNat
  let size := b.length
  if a % size ≠ 0 then (s, .error 0x04)
  else if 2 ^ 57 ≤ a ∨ ¬ c.permits a 2 then (s, .error 0x06)
  else match homeOf a with
    | .register off => (s.spaceWrite (coreRq n c) off b [], .ok ())
    | _ =>
      if !s.reaches (coreReq n) a size ∨ s.inSpill a size then (s, .error 0x06)
      else
        let (s, _) := s.writeMem 0xFF (coreReq n) 0 a b false
        let c := s.core n
        (if (c.cached a size).isSome then s.setCore n (c.cacheBytes a b) else s, .ok ())

/-- An atomic at its home (R503): `f` gives the new value of the old one, or none where nothing is written. -/
def State.coreAtomic (s : State) (n : CoreNo) (addr : W64) (f : W64 → Option W64) : State × Except Nat W64 :=
  let c := s.core n
  let a := addr.toNat
  if a % 8 ≠ 0 then (s, .error 0x04)
  else if 2 ^ 57 ≤ a ∨ ¬ c.permits a 1 then (s, .error 0x05)
  else if ¬ c.permits a 2 then (s, .error 0x06)
  else match homeOf a with
    | .register off =>
      let (s, v) := s.spaceRead (coreRq n c) off 8 []
      (match f v with | some w => s.spaceWrite (coreRq n c) off (leBytes 8 w.toNat) [] | none => s, .ok v)
    | _ =>
      if !s.reaches (coreReq n) a 8 then (s, .error 0x05)
      else if s.inSpill a 8 then (s, .error 0x06)
      else
        let (s, b, bad) := s.readMem 0xFF (coreReq n) 0 a 8
        if bad then (s, .error 0x0C)
        else
          let v := BitVec.ofNat 64 (leNat b)
          let s := match f v with | some w => (s.writeMem 0xFF (coreReq n) 0 a (leBytes 8 w.toNat) false).1 | none => s
          (s.setCore n ((s.core n).uncache a), .ok v)

/-! ### Exceptions (R488, R499) -/

/-- UNIT code of a core (Tables 24.5 and 24.6). -/
def coreUnit (n : Nat) : Nat := if n < 16 then qUnit (n / 4) (4 + n % 4) else 0xC000 + (n - 16)

/-- A double-bit error or a double fault of a core: class 4 for a Guildhall core and 5 for a Watch post core (Table 24.2). -/
def State.coreFatal (s : State) (n : Nat) (inj : Bool) : State :=
  let s := s.setCore n { s.core n with halted := true }
  if n < 16 then s.report 4 0x09 0xFF (coreUnit n) 0 0 0 inj else s.deviceFatal 0x09 0xFF (coreUnit n) 0 0 0 inj

/-- Exception entry (R499): `epc` is where EPC goes. A spill that fails halts the core with a double fault. -/
def State.enter (s : State) (n : Nat) (code : Nat) (eaddr : W64) (epc : Nat) (slot : Nat) : State :=
  let c := s.core n
  match (if c.nframes < 30 then .ok s else s.spill n true : Except (State × Nat) State) with
  | .error (s, _) => s.coreFatal n false
  | .ok s =>
    let c0 := s.core n
    let c1 := { c0 with
      epc := BitVec.ofNat 64 epc, epsr := BitVec.setWidth 64 c.psr, ecause := BitVec.ofNat 64 code, eaddr := eaddr, kernel := true, ie := false
      sendWait := none, postWait := none, wfi := false, stepOne := false }
    let c2 := c1.slide true
    ({ s with senders := s.senders.erase n } : State).setCore n { c2 with pc := (c2.vbase.toNat + 64 * code) % 2 ^ 64 } |>.coreEvent n slot 1

/-! ### Running one instruction -/

/-- How an instruction ends: it goes on at an address; it raises an exception and has no effect; it completes and raises one (TRAP,
BRK); or it waits. -/
inductive Ends where
  | goes (pc : W64)
  | raises (code : Nat) (eaddr : W64)
  | completes (code : Nat) (eaddr : W64)
  | waits
  deriving DecidableEq, Repr

/-- Core `n` is powered, started and not stopped. -/
def State.coreOn (s : State) (n : Nat) : Bool :=
  let c := s.core n
  !c.halted && !s.boot.inReset && !s.boot.off && !s.err.held &&
  (decide (16 ≤ n) || (!s.boot.dark.contains (n / 4) && !s.qFenced (n / 4) &&
    (decide (s.stage = 7) || decide (s.stage = 8) || decide (s.stage = 9))))

/-- Core `n` can begin an instruction. -/
def State.coreRuns (s : State) (n : Nat) : Bool :=
  let c := s.core n
  s.coreOn n && (!c.debugHalt || c.stepOne) && c.sendWait.isNone && c.postWait.isNone && !c.wfi

/-- The fetch at PC fails: denied by the MPU, not in memory, or poisoned (Table 20.2, 0x01). -/
def State.fetchFails (s : State) (n : Nat) : Bool :=
  let c := s.core n
  decide (2 ^ 57 ≤ c.pc) || !c.permits c.pc 3 || !s.reaches (coreReq n) c.pc 4 || s.readPoison c.pc 4

/-- The word of the instruction held by the instruction cache (R505). -/
def Core.fetched (c : Core) (w : BitVec 32) : Core :=
  { c with icache := (leBytes 4 w.toNat).zipIdx.foldl (fun t b => put t (c.pc + b.2) b.1) c.icache }

/-- What an injection at a core does to an instruction that reads a register or loads (Table 24.7, 0x09): a corrected error, or a
double-bit one. The state, and whether the instruction goes on. -/
def State.coreInject (s : State) (n : Nat) : State × Bool :=
  match s.injAt 0x09 (coreUnit n) (fun _ => true) with
  | none => (s, true)
  | some i =>
    let s := s.injFire
    if i.syndrome = 2 then (s.coreFatal n true, false) else (s.recordErr 1 0x09 0xFF (coreUnit n) 0 0 0 true, true)

/-- Core `n` has completed an instruction and goes on at `pc`; the instruction is counted at its own address (R545). -/
def State.retire (s : State) (n : Nat) (pc : W64) : State :=
  let s := s.coreEvent n 0 1
  s.setCore n { s.core n with pc := pc.toNat, stepOne := false }

/-- One instruction of core `n` with word `w`. `reads` says that it reads a register or loads; `body` is its effect. -/
def State.instr (s : State) (n : CoreNo) (w : BitVec 32) (reads : Bool) (body : State → Core → State × Ends) : State :=
  if !s.coreRuns n then s
  else if s.fetchFails n then
    s.enter n 0x01 (BitVec.ofNat 64 (s.core n).pc) (s.core n).pc 4
  else
    let s := s.setCore n ((s.core n).fetched w)
    match (if reads then s.coreInject n else (s, true)) with
    | (s, false) => s
    | (s, true) =>
      let c := s.core n
      match body s c with
      | (s, .goes pc) => s.retire n pc
      | (s, .raises code a) => s.enter n code a c.pc 4
      | (s, .completes code a) => (s.coreEvent n 0 1).enter n code a ((c.pc + 4) % 2 ^ 64) 4
      | (s, .waits) => s

/-- PC, and the address of the next instruction. -/
def Core.here (c : Core) : W64 := BitVec.ofNat 64 c.pc
def Core.next (c : Core) : W64 := c.here + 4

/-- A branch target: the instruction's address + 4 × DISP (R507). -/
def Core.target (c : Core) (disp : W64) : W64 := c.here + 4 * disp

/-- An instruction that only writes `rd`. -/
def State.writes (s : State) (n : CoreNo) (w : BitVec 32) (rd : HReg) (reads : Bool) (v : Core → W64) : State :=
  s.instr n w reads fun s c => (s.setCore n (c.set rd (v c)), .goes c.next)

/-- A load into `rd`; `ext` extends the number loaded. -/
def State.loads (s : State) (n : CoreNo) (w : BitVec 32) (rd rs1 : HReg) (imm : BitVec 16) (size : Nat) (ext : Nat → W64) : State :=
  s.instr n w true fun s c =>
    let a := c.get rs1 + imm.signExtend 64
    match s.coreLoad n a size with
    | (s, .ok b) => (s.setCore n ((s.core n).set rd (ext (leNat b))), .goes c.next)
    | (s, .error e) => (s, .raises e a)

/-- A store of the low `size` bytes of `rd`. -/
def State.stores (s : State) (n : CoreNo) (w : BitVec 32) (rd rs1 : HReg) (imm : BitVec 16) (size : Nat) : State :=
  s.instr n w true fun s c =>
    let a := c.get rs1 + imm.signExtend 64
    match s.coreStore n a (leBytes size (c.get rd).toNat) with
    | (s, .ok _) => (s, .goes c.next)
    | (s, .error e) => (s, .raises e a)

/-- An atomic. -/
def State.atomic (s : State) (n : CoreNo) (w : BitVec 32) (rd rs1 : HReg) (f : Core → W64 → Option W64) : State :=
  s.instr n w true fun s c =>
    let a := c.get rs1
    match s.coreAtomic n a (f c) with
    | (s, .ok v) => (s.setCore n ((s.core n).set rd v), .goes c.next)
    | (s, .error e) => (s, .raises e a)

/-- A branch. -/
def State.branches (s : State) (n : CoreNo) (w : BitVec 32) (rs1 rs2 : HReg) (disp : BitVec 16) (p : W64 → W64 → Bool) : State :=
  s.instr n w true fun s c => (s, .goes (if p (c.get rs1) (c.get rs2) then c.target (disp.signExtend 64) else c.next))

/-- A privileged instruction: in user mode it raises PRIVILEGED (R497). -/
def kernelOnly (c : Core) (s : State) (f : Unit → State × Ends) : State × Ends := if c.kernel then f () else (s, .raises 0x03 0)

/-! ### CALL, RET and ERET (R492, R493, R500) -/

/-- A call of `target` (R492). -/
def callTo (s : State) (n : CoreNo) (c : Core) (target : W64) : State × Ends :=
  match (if c.nframes < 30 then .ok s else s.spill n false : Except (State × Nat) State) with
  | .error (s, a) => (s, .raises 0x07 (BitVec.ofNat 64 a))
  | .ok s =>
    let sp := c.sp - 8
    if c.sp.toNat % 8 ≠ 0 then (s, .raises 0x09 c.sp)
    else match s.coreStore n sp (leBytes 8 c.next.toNat) with
      | (s, .error _) => (s, .raises 0x09 c.sp)
      | (s, .ok _) =>
        let c' := (s.core n).setSp sp
        (s.setCore n (c'.slide c.kernel), .goes target)

/-- RET (R493): a fault leaves everything as it was. -/
def returnTo (s : State) (n : CoreNo) (c : Core) : State × Ends :=
  if c.sp.toNat % 8 ≠ 0 then (s, .raises 0x09 c.sp)
  else match s.coreLoad n c.sp 8 with
    | (s1, .error _) => (s1, .raises 0x09 c.sp)
    | (s1, .ok b) =>
      match s1.fill n (!c.kernel) with
      | .error (s2, a) => (s2, .raises 0x08 (BitVec.ofNat 64 a))
      | .ok s2 =>
        let ra := BitVec.ofNat 64 (leNat b)
        if ra.toNat % 4 ≠ 0 then (s1, .raises 0x04 ra)
        else
          let c' := (s2.core n).unslide
          (s2.setCore n (c'.setSp (c.sp + 8)), .goes ra)

/-- ERET (R500). The frame restored belongs to the mode that EPSR gives (DEDUCED: it was current at the exception). -/
def eretTo (s : State) (n : CoreNo) (c : Core) : State × Ends :=
  match s.fill n (!nbit c.epsr.toNat 0) with
  | .error (s, a) => (s, .raises 0x08 (BitVec.ofNat 64 a))
  | .ok s =>
    let c' := (s.core n).unslide
    (s.setCore n { c' with kernel := nbit c.epsr.toNat 0, ie := nbit c.epsr.toNat 1 }, .goes c.epc)

/-- FLUSHW (R491): resident frames but the current one are spilled, oldest first. A failure has no effect (R498). -/
def flushFrames (s : State) (n : CoreNo) : Nat → Except (State × Nat) State
  | 0 => .ok s
  | fuel + 1 =>
    if (s.core n).nframes ≤ 1 then .ok s
    else match s.spill n false with
      | .error e => .error e
      | .ok s => flushFrames s n fuel

/-! ### Control registers (R490, Table 20.6) -/

/-- Lines pending in a core: line 4 is held by any full post of a Guildhall core; a Watch post core takes lines 6 and 7 only. -/
def Core.lines (c : Core) (n : Nat) : Nat :=
  if n < 16 then (if c.posts.isEmpty then clearBit c.ipend 4 else setBit c.ipend 4) else c.ipend / 64 * 64 % 256

/-- Full posts, by bit. -/
def Core.postStat (c : Core) : Nat := c.posts.foldl (fun k x => setBit k x.1) 0

/-- A control register as MFC reads it; none for a reserved selector. -/
def Core.control (c : Core) (n : Nat) (sel : Nat) : Option W64 :=
  match sel with
  | 0x00 => some c.psr
  | 0x01 => some c.epc
  | 0x02 => some c.epsr
  | 0x03 => some c.ecause
  | 0x04 => some c.eaddr
  | 0x05 => some c.vbase
  | 0x06 => some c.spbU
  | 0x07 => some c.splU
  | 0x08 => some c.sptU
  | 0x09 => some c.spbK
  | 0x0A => some c.splK
  | 0x0B => some c.sptK
  | 0x0C => some c.s7u
  | 0x0D => some (BitVec.ofNat 64 n)
  | 0x0E => some (BitVec.ofNat 64 c.postStat)
  | 0x0F => some c.ien
  | 0x10 => some (BitVec.ofNat 64 (c.lines n))
  | k =>
    if 0x20 ≤ k ∧ k < 0x40 then some (lookD 0 (if k % 2 = 0 then c.mpuBase else c.mpuLimit) ((k - 0x20) / 2)) else none

/-- Bits of a control register that are reserved: a nonzero one is ILLEGAL. -/
def controlRsv (sel : Nat) : W64 :=
  match sel with
  | 0x00 => 0xFFFF_FFFF_FFE0_E0FC
  | 0x03 => 0xFFFF_FFFF_FFFF_FF00
  | 0x05 => 0xFE00_0000_0000_3FFF
  | 0x06 | 0x07 | 0x08 | 0x09 | 0x0A | 0x0B => 0xFE00_0000_0000_007F
  | 0x0F => 0xFFFF_FFFF_FFFF_FF00
  | k => if 0x20 ≤ k ∧ k < 0x40 then (if k % 2 = 0 then 0xFE00_0000_0000_0FFF else 0xFE00_0000_0000_0FE0) else 0

/-- A control register written. -/
def Core.setControl (c : Core) (sel : Nat) (v : W64) : Core :=
  match sel with
  | 0x00 => { c with kernel := nbit v.toNat 0, ie := nbit v.toNat 1 }
  | 0x01 => { c with epc := v }
  | 0x02 => { c with epsr := v }
  | 0x03 => { c with ecause := v }
  | 0x04 => { c with eaddr := v }
  | 0x05 => { c with vbase := v }
  | 0x06 => { c with spbU := v }
  | 0x07 => { c with splU := v }
  | 0x08 => { c with sptU := v }
  | 0x09 => { c with spbK := v }
  | 0x0A => { c with splK := v }
  | 0x0B => { c with sptK := v }
  | 0x0C => { c with s7u := v }
  | 0x0F => { c with ien := v }
  | k =>
    if 0x20 ≤ k ∧ k < 0x40 then
      if k % 2 = 0 then { c with mpuBase := putD 0 c.mpuBase ((k - 0x20) / 2) v }
      else { c with mpuLimit := putD 0 c.mpuLimit ((k - 0x20) / 2) v }
    else c

/-- The area that a spill register of a mode would have is one that R490 admits: in one Square or Warehouse, SPT inside it, and
overlapping no active area of any core (this core's other mode among them). -/
def State.areaOk (s : State) (n : Nat) (c : Core) (user : Bool) : Bool :=
  let (b, l, t) := c.area user
  let e := l + 127
  let same := match homeOf b, homeOf e with
    | .square q _, .square q' _ => decide (q = q')
    | .warehouse w _, .warehouse w' _ => decide (w = w')
    | _, _ => false
  let clash (r : Nat × Nat) : Bool := decide (r.1 ≤ e) && decide (b ≤ r.2)
  let own := if user then (if c.spbK = 0 ∧ c.splK = 0 then [] else [(c.spbK.toNat, c.splK.toNat + 127)])
    else if c.spbU = 0 ∧ c.splU = 0 then [] else [(c.spbU.toNat, c.splU.toNat + 127)]
  same && decide (b ≤ t) && decide (t ≤ l) && !own.any clash &&
    !(s.cores.any fun x => decide (x.1 ≠ n) && x.2.spillAreas.any clash)

end Sys2Proof.Machine
end

