-- ==== Sys2Proof/Machine/HawkerRows.lean ====
section
/-!
DEFINITION. The rows of the Hawker instruction set: every instruction of Table 20.5, the posts, the interrupts and the ILLEGAL
exception, and the JTAG operations that halt, step, read and write cores (R578).
-/
namespace Sys2Proof.Machine

/-! ### Arithmetic (Table 20.5) -/

/-- One bit as a register value. -/
def flagWord (b : Bool) : W64 := if b then 1 else 0

/-- An ALU instruction of a function code and its operation. -/
def State.alu (s : State) (n : CoreNo) (rd rs1 rs2 : HReg) (func : BitVec 6) (f : W64 → W64 → W64) : State :=
  s.writes n (formA 0x01 rd rs1 rs2 func) rd true fun c => f (c.get rs1) (c.get rs2)

/-- An instruction of form B that writes `rd` from `rs1`. -/
def State.aluImm (s : State) (n : CoreNo) (op : BitVec 6) (rd rs1 : HReg) (imm : BitVec 16) (f : W64 → W64) : State :=
  s.writes n (formB op rd rs1 imm) rd true fun c => f (c.get rs1)

/-- The shift amount of a register (bits 5:0). -/
def shiftBy (v : W64) : Nat := v.toNat % 64

/-- Division of Table 20.5: by 0 it gives all ones, or the dividend for the remainder. -/
def divU (a b : W64) : W64 := if b = 0 then BitVec.allOnes 64 else a / b
def remU (a b : W64) : W64 := if b = 0 then a else a % b
def divS (a b : W64) : W64 := if b = 0 then BitVec.allOnes 64 else BitVec.ofInt 64 (a.toInt.tdiv b.toInt)
def remS (a b : W64) : W64 := if b = 0 then a else BitVec.ofInt 64 (a.toInt.tmod b.toInt)

/-- ADD. -/
def execAdd (n : CoreNo) (rd rs1 rs2 : HReg) (s : State) : Host.Outcome State Fault Refusal := done (s.alu n rd rs1 rs2 0x00 (· + ·))
/-- SUB. -/
def execSub (n : CoreNo) (rd rs1 rs2 : HReg) (s : State) : Host.Outcome State Fault Refusal := done (s.alu n rd rs1 rs2 0x01 (· - ·))
/-- AND. -/
def execAnd (n : CoreNo) (rd rs1 rs2 : HReg) (s : State) : Host.Outcome State Fault Refusal := done (s.alu n rd rs1 rs2 0x02 (· &&& ·))
/-- OR. -/
def execOr (n : CoreNo) (rd rs1 rs2 : HReg) (s : State) : Host.Outcome State Fault Refusal := done (s.alu n rd rs1 rs2 0x03 (· ||| ·))
/-- XOR. -/
def execXor (n : CoreNo) (rd rs1 rs2 : HReg) (s : State) : Host.Outcome State Fault Refusal := done (s.alu n rd rs1 rs2 0x04 (· ^^^ ·))
/-- SLL. -/
def execSll (n : CoreNo) (rd rs1 rs2 : HReg) (s : State) : Host.Outcome State Fault Refusal :=
  done (s.alu n rd rs1 rs2 0x05 fun a b => a <<< shiftBy b)
/-- SRL. -/
def execSrl (n : CoreNo) (rd rs1 rs2 : HReg) (s : State) : Host.Outcome State Fault Refusal :=
  done (s.alu n rd rs1 rs2 0x06 fun a b => a >>> shiftBy b)
/-- SRA. -/
def execSra (n : CoreNo) (rd rs1 rs2 : HReg) (s : State) : Host.Outcome State Fault Refusal :=
  done (s.alu n rd rs1 rs2 0x07 fun a b => a.sshiftRight (shiftBy b))
/-- SLT. -/
def execSlt (n : CoreNo) (rd rs1 rs2 : HReg) (s : State) : Host.Outcome State Fault Refusal :=
  done (s.alu n rd rs1 rs2 0x08 fun a b => flagWord (a.slt b))
/-- SLTU. -/
def execSltu (n : CoreNo) (rd rs1 rs2 : HReg) (s : State) : Host.Outcome State Fault Refusal :=
  done (s.alu n rd rs1 rs2 0x09 fun a b => flagWord (a.ult b))
/-- MUL: the low 64 bits. -/
def execMul (n : CoreNo) (rd rs1 rs2 : HReg) (s : State) : Host.Outcome State Fault Refusal := done (s.alu n rd rs1 rs2 0x0A (· * ·))
/-- MULHU: the high 64 bits of the unsigned product. -/
def execMulhu (n : CoreNo) (rd rs1 rs2 : HReg) (s : State) : Host.Outcome State Fault Refusal :=
  done (s.alu n rd rs1 rs2 0x0B fun a b => BitVec.ofNat 64 (a.toNat * b.toNat / 2 ^ 64))
/-- DIVU. -/
def execDivu (n : CoreNo) (rd rs1 rs2 : HReg) (s : State) : Host.Outcome State Fault Refusal := done (s.alu n rd rs1 rs2 0x0C divU)
/-- REMU. -/
def execRemu (n : CoreNo) (rd rs1 rs2 : HReg) (s : State) : Host.Outcome State Fault Refusal := done (s.alu n rd rs1 rs2 0x0D remU)
/-- DIV: −2^63 by −1 gives −2^63. -/
def execDiv (n : CoreNo) (rd rs1 rs2 : HReg) (s : State) : Host.Outcome State Fault Refusal := done (s.alu n rd rs1 rs2 0x0E divS)
/-- REM: −2^63 by −1 gives 0. -/
def execRem (n : CoreNo) (rd rs1 rs2 : HReg) (s : State) : Host.Outcome State Fault Refusal := done (s.alu n rd rs1 rs2 0x0F remS)

/-- ADDI. -/
def execAddi (n : CoreNo) (rd rs1 : HReg) (imm : BitVec 16) (s : State) : Host.Outcome State Fault Refusal :=
  done (s.aluImm n 0x02 rd rs1 imm fun a => a + imm.signExtend 64)
/-- ANDI. -/
def execAndi (n : CoreNo) (rd rs1 : HReg) (imm : BitVec 16) (s : State) : Host.Outcome State Fault Refusal :=
  done (s.aluImm n 0x03 rd rs1 imm fun a => a &&& imm.zeroExtend 64)
/-- ORI. -/
def execOri (n : CoreNo) (rd rs1 : HReg) (imm : BitVec 16) (s : State) : Host.Outcome State Fault Refusal :=
  done (s.aluImm n 0x04 rd rs1 imm fun a => a ||| imm.zeroExtend 64)
/-- XORI. -/
def execXori (n : CoreNo) (rd rs1 : HReg) (imm : BitVec 16) (s : State) : Host.Outcome State Fault Refusal :=
  done (s.aluImm n 0x05 rd rs1 imm fun a => a ^^^ imm.zeroExtend 64)
/-- SLLI. -/
def execSlli (n : CoreNo) (rd rs1 : HReg) (sh : BitVec 6) (s : State) : Host.Outcome State Fault Refusal :=
  done (s.aluImm n 0x06 rd rs1 (sh.zeroExtend 16) fun a => a <<< sh.toNat)
/-- SRLI. -/
def execSrli (n : CoreNo) (rd rs1 : HReg) (sh : BitVec 6) (s : State) : Host.Outcome State Fault Refusal :=
  done (s.aluImm n 0x07 rd rs1 (sh.zeroExtend 16) fun a => a >>> sh.toNat)
/-- SRAI. -/
def execSrai (n : CoreNo) (rd rs1 : HReg) (sh : BitVec 6) (s : State) : Host.Outcome State Fault Refusal :=
  done (s.aluImm n 0x08 rd rs1 (sh.zeroExtend 16) fun a => a.sshiftRight sh.toNat)
/-- SLTI: a signed comparison. -/
def execSlti (n : CoreNo) (rd rs1 : HReg) (imm : BitVec 16) (s : State) : Host.Outcome State Fault Refusal :=
  done (s.aluImm n 0x09 rd rs1 imm fun a => flagWord (a.slt (imm.signExtend 64)))
/-- SHORI. -/
def execShori (n : CoreNo) (rd rs1 : HReg) (imm : BitVec 16) (s : State) : Host.Outcome State Fault Refusal :=
  done (s.aluImm n 0x0A rd rs1 imm fun a => a <<< 16 ||| imm.zeroExtend 64)
/-- LI. It reads no register. -/
def execLi (n : CoreNo) (rd : HReg) (imm : BitVec 21) (s : State) : Host.Outcome State Fault Refusal :=
  done (s.writes n (formE 0x0B rd imm) rd false fun _ => imm.signExtend 64)

/-! ### Loads, stores and atomics (R502, R503) -/

/-- LD. -/
def execLd (n : CoreNo) (rd rs1 : HReg) (imm : BitVec 16) (s : State) : Host.Outcome State Fault Refusal :=
  done (s.loads n (formB 0x10 rd rs1 imm) rd rs1 imm 8 (BitVec.ofNat 64))
/-- LW: zero-extended. -/
def execLw (n : CoreNo) (rd rs1 : HReg) (imm : BitVec 16) (s : State) : Host.Outcome State Fault Refusal :=
  done (s.loads n (formB 0x11 rd rs1 imm) rd rs1 imm 4 (BitVec.ofNat 64))
/-- LWS: sign-extended. -/
def execLws (n : CoreNo) (rd rs1 : HReg) (imm : BitVec 16) (s : State) : Host.Outcome State Fault Refusal :=
  done (s.loads n (formB 0x12 rd rs1 imm) rd rs1 imm 4 fun v => (BitVec.ofNat 32 v).signExtend 64)
/-- LH: zero-extended. -/
def execLh (n : CoreNo) (rd rs1 : HReg) (imm : BitVec 16) (s : State) : Host.Outcome State Fault Refusal :=
  done (s.loads n (formB 0x13 rd rs1 imm) rd rs1 imm 2 (BitVec.ofNat 64))
/-- LB: zero-extended. -/
def execLb (n : CoreNo) (rd rs1 : HReg) (imm : BitVec 16) (s : State) : Host.Outcome State Fault Refusal :=
  done (s.loads n (formB 0x14 rd rs1 imm) rd rs1 imm 1 (BitVec.ofNat 64))
/-- ST. -/
def execSt (n : CoreNo) (rd rs1 : HReg) (imm : BitVec 16) (s : State) : Host.Outcome State Fault Refusal :=
  done (s.stores n (formB 0x18 rd rs1 imm) rd rs1 imm 8)
/-- SW. -/
def execSw (n : CoreNo) (rd rs1 : HReg) (imm : BitVec 16) (s : State) : Host.Outcome State Fault Refusal :=
  done (s.stores n (formB 0x19 rd rs1 imm) rd rs1 imm 4)
/-- SH. -/
def execSh (n : CoreNo) (rd rs1 : HReg) (imm : BitVec 16) (s : State) : Host.Outcome State Fault Refusal :=
  done (s.stores n (formB 0x1A rd rs1 imm) rd rs1 imm 2)
/-- SB. -/
def execSb (n : CoreNo) (rd rs1 : HReg) (imm : BitVec 16) (s : State) : Host.Outcome State Fault Refusal :=
  done (s.stores n (formB 0x1B rd rs1 imm) rd rs1 imm 1)
/-- AMOADD. -/
def execAmoadd (n : CoreNo) (rd rs1 rs2 : HReg) (s : State) : Host.Outcome State Fault Refusal :=
  done (s.atomic n (formA 0x1C rd rs1 rs2 0) rd rs1 fun c old => some (old + c.get rs2))
/-- AMOSWAP. -/
def execAmoswap (n : CoreNo) (rd rs1 rs2 : HReg) (s : State) : Host.Outcome State Fault Refusal :=
  done (s.atomic n (formA 0x1C rd rs1 rs2 1) rd rs1 fun c _ => some (c.get rs2))
/-- CAS: writes rs2 if the old value equals rd's value on entry. -/
def execCas (n : CoreNo) (rd rs1 rs2 : HReg) (s : State) : Host.Outcome State Fault Refusal :=
  done (s.atomic n (formA 0x1C rd rs1 rs2 2) rd rs1 fun c old => if old = c.get rd then some (c.get rs2) else none)

/-! ### Control flow -/

/-- BEQ. -/
def execBeq (n : CoreNo) (rs1 rs2 : HReg) (disp : BitVec 16) (s : State) : Host.Outcome State Fault Refusal :=
  done (s.branches n (formC 0x20 rs1 rs2 disp) rs1 rs2 disp fun a b => a == b)
/-- BNE. -/
def execBne (n : CoreNo) (rs1 rs2 : HReg) (disp : BitVec 16) (s : State) : Host.Outcome State Fault Refusal :=
  done (s.branches n (formC 0x21 rs1 rs2 disp) rs1 rs2 disp fun a b => a != b)
/-- BLT. -/
def execBlt (n : CoreNo) (rs1 rs2 : HReg) (disp : BitVec 16) (s : State) : Host.Outcome State Fault Refusal :=
  done (s.branches n (formC 0x22 rs1 rs2 disp) rs1 rs2 disp fun a b => a.slt b)
/-- BGE. -/
def execBge (n : CoreNo) (rs1 rs2 : HReg) (disp : BitVec 16) (s : State) : Host.Outcome State Fault Refusal :=
  done (s.branches n (formC 0x23 rs1 rs2 disp) rs1 rs2 disp fun a b => !a.slt b)
/-- BLTU. -/
def execBltu (n : CoreNo) (rs1 rs2 : HReg) (disp : BitVec 16) (s : State) : Host.Outcome State Fault Refusal :=
  done (s.branches n (formC 0x24 rs1 rs2 disp) rs1 rs2 disp fun a b => a.ult b)
/-- BGEU. -/
def execBgeu (n : CoreNo) (rs1 rs2 : HReg) (disp : BitVec 16) (s : State) : Host.Outcome State Fault Refusal :=
  done (s.branches n (formC 0x25 rs1 rs2 disp) rs1 rs2 disp fun a b => !a.ult b)
/-- CALL (R492). -/
def execCall (n : CoreNo) (disp : BitVec 26) (s : State) : Host.Outcome State Fault Refusal :=
  done (s.instr n (formD 0x28 disp) true fun s c => callTo s n c (c.target (disp.signExtend 64)))
/-- JMP. It reads no register. -/
def execJmp (n : CoreNo) (disp : BitVec 26) (s : State) : Host.Outcome State Fault Refusal :=
  done (s.instr n (formD 0x29 disp) false fun s c => (s, .goes (c.target (disp.signExtend 64))))
/-- CALLR: a target that is not a multiple of 4 is MISALIGNED (Table 20.2). -/
def execCallr (n : CoreNo) (rs1 : HReg) (s : State) : Host.Outcome State Fault Refusal :=
  done (s.instr n (formA 0x2A 0 rs1 0 0) true fun s c =>
    let t := c.get rs1
    if t.toNat % 4 ≠ 0 then (s, .raises 0x04 t) else callTo s n c t)
/-- JMPR. -/
def execJmpr (n : CoreNo) (rs1 : HReg) (s : State) : Host.Outcome State Fault Refusal :=
  done (s.instr n (formA 0x2B 0 rs1 0 0) true fun s c =>
    let t := c.get rs1
    if t.toNat % 4 ≠ 0 then (s, .raises 0x04 t) else (s, .goes t))
/-- RET (R493). -/
def execRet (n : CoreNo) (s : State) : Host.Outcome State Fault Refusal :=
  done (s.instr n (formA 0x2C 0 0 0 0) true fun s c => returnTo s n c)

/-! ### System instructions (R497, R498, Table 20.6) -/

/-- ILLEGAL with the instruction word in EADDR. -/
def illegal (w : BitVec 32) : Ends := .raises 0x02 (w.zeroExtend 64)

/-- MFC: CORE_ID is readable in user mode; every other selector is privileged. -/
def execMfc (n : CoreNo) (rd : HReg) (sel : BitVec 8) (s : State) : Host.Outcome State Fault Refusal :=
  let w := formF 0x30 rd 0 sel 0
  let body (s : State) (c : Core) : State × Ends :=
    match c.control n sel.toNat with
    | none => (s, illegal w)
    | some v => (s.setCore n (c.set rd v), .goes c.next)
  done (s.instr n w true fun s c => if sel = 0x0D then body s c else kernelOnly c s fun _ => body s c)

/-- A write of a control register, or ILLEGAL (R490, Table 20.6). -/
def controlWrite (s : State) (n : CoreNo) (c : Core) (w : BitVec 32) (sel : Nat) (v : W64) : State × Ends :=
  if (c.control n sel).isNone ∨ v &&& controlRsv sel ≠ 0 then (s, illegal w)
  else
    let c' := c.setControl sel v
    if 0x06 ≤ sel ∧ sel ≤ 0x0B ∧ ¬ s.areaOk n c' (decide (sel ≤ 0x08)) then (s, illegal w)
    else (s.setCore n c', .goes c.next)

/-- MTC. -/
def execMtc (n : CoreNo) (rs1 : HReg) (sel : BitVec 8) (s : State) : Host.Outcome State Fault Refusal :=
  let w := formF 0x30 0 rs1 sel 1
  done (s.instr n w true fun s c => kernelOnly c s fun _ => controlWrite s n c w sel.toNat (c.get rs1))

/-- RDPOST (R496). -/
def execRdpost (n : CoreNo) (rd : HReg) (sel : BitVec 8) (s : State) : Host.Outcome State Fault Refusal :=
  let w := formF 0x30 rd 0 sel 2
  done (s.instr n w true fun s c => kernelOnly c s fun _ =>
    if 4 ≤ sel.toNat then (s, illegal w)
    else match look c.posts sel.toNat with
      | some v => (s.setCore n { c.set rd v with posts := drop c.posts sel.toNat }, .goes c.next)
      | none => (s.setCore n { c with postWait := some (rd.toNat, sel.toNat) }, .waits))

/-- The core that a SEND's selector names, and its post. -/
def sendCore (sel : Nat) : Nat := sel / 4
def sendPost (sel : Nat) : Nat := sel % 4

/-- A message put in a post. -/
def State.fillPost (s : State) (sel : Nat) (v : W64) : State :=
  let c := s.core (sendCore sel)
  s.setCore (sendCore sel) { c with posts := put c.posts (sendPost sel) v }

/-- The post that a selector names is full. -/
def State.postFull (s : State) (sel : Nat) : Bool := (look (s.core (sendCore sel)).posts (sendPost sel)).isSome

/-- SEND (R494, R495): behind a full post, or behind a sender that already waits for it, it waits. -/
def execSend (n : CoreNo) (rs1 : HReg) (sel : BitVec 8) (s : State) : Host.Outcome State Fault Refusal :=
  let w := formF 0x30 0 rs1 sel 3
  let k := sel.toNat
  done (s.instr n w true fun s c => kernelOnly c s fun _ =>
    if 71 < k then (s, illegal w)
    else if !s.coreOn (sendCore k) then (s, .raises 0x0D (BitVec.ofNat 64 (sendCore k)))
    else if s.postFull k ∨ s.senders.any (fun m => (s.core m).sendWait.map (·.1) == some k) then
      (({ s with senders := s.senders ++ [n.val] } : State).setCore n { c with sendWait := some (k, c.get rs1) }, .waits)
    else (s.fillPost k (c.get rs1), .goes c.next))

/-- TRAP: it completes, then takes exception 0x0A. -/
def execTrap (n : CoreNo) (sel : BitVec 8) (s : State) : Host.Outcome State Fault Refusal :=
  done (s.instr n (formF 0x30 0 0 sel 4) false fun s _ => (s, .completes 0x0A (sel.zeroExtend 64)))

/-- ERET (R500). -/
def execEret (n : CoreNo) (s : State) : Host.Outcome State Fault Refusal :=
  done (s.instr n (formF 0x30 0 0 0 5) true fun s c => kernelOnly c s fun _ => eretTo s n c)

/-- DSYNC (R505). A store is acknowledged at its home in the step that runs it, so only the data cache is left to invalidate. -/
def execDsync (n : CoreNo) (s : State) : Host.Outcome State Fault Refusal :=
  done (s.instr n (formF 0x30 0 0 0 6) false fun s c => (s.setCore n { c with dcache := [] }, .goes c.next))

/-- ISYNC (R505). -/
def execIsync (n : CoreNo) (s : State) : Host.Outcome State Fault Refusal :=
  done (s.instr n (formF 0x30 0 0 0 7) false fun s c => (s.setCore n { c with icache := [] }, .goes c.next))

/-- A line enabled in IEN is pending (R501): the lowest-numbered one. -/
def Core.line (c : Core) (n : Nat) : Option Nat :=
  (List.range 8).find? fun l => nbit (c.lines n) l && nbit c.ien.toNat l

/-- WFI (R501). -/
def execWfi (n : CoreNo) (s : State) : Host.Outcome State Fault Refusal :=
  done (s.instr n (formF 0x30 0 0 0 8) false fun s c => kernelOnly c s fun _ =>
    if (c.line n).isSome then (s, .goes c.next) else (s.setCore n { c with wfi := true }, .waits))

/-- BRK: it completes, then takes exception 0x0B. -/
def execBrk (n : CoreNo) (s : State) : Host.Outcome State Fault Refusal :=
  done (s.instr n (formF 0x30 0 0 0 9) false fun s _ => (s, .completes 0x0B 0))

/-- FLUSHW (R491). -/
def execFlushw (n : CoreNo) (s : State) : Host.Outcome State Fault Refusal :=
  done (s.instr n (formF 0x30 0 0 0 10) true fun s c => kernelOnly c s fun _ =>
    match flushFrames s n 30 with
    | .error (_, a) => (s, .raises 0x07 (BitVec.ofNat 64 a))
    | .ok s => (s, .goes c.next))

/-- An undefined encoding (R498): the word `w` is one that no row of Table 20.5 defines. -/
def execIllegal (n : CoreNo) (w : BitVec 32) (s : State) : Host.Outcome State Fault Refusal :=
  done (if (hawkerDecode n w).isSome then s else s.instr n w false fun s _ => (s, illegal w))

/-! ### Posts and interrupts -/

/-- A waiting instruction of core `n` completes: PC moves on. -/
def State.waitDone (s : State) (n : Nat) : State :=
  let c := s.core n
  (s.setCore n { c with sendWait := none, postWait := none, wfi := false }).retire n c.next

/-- The earliest sender waiting for a post of core `n`, with its message. -/
def State.firstSender (s : State) (sel : Nat) : Option (Nat × W64) :=
  s.senders.findSome? fun m => match (s.core m).sendWait with
    | some (k, v) => if k = sel then some (m, v) else none
    | none => none

/-- POST_DELIVER (R495, R496): the earliest waiting sender delivers to an empty post, or takes POST_UNREACHABLE where the target is no
longer there; and an RDPOST that waits on a full post completes. -/
def execPostDeliver (n : CoreNo) (p : Fin 4) (s : State) : Host.Outcome State Fault Refusal :=
  let sel := 4 * n.val + p.val
  let deliver (s : State) : State :=
    match s.firstSender sel with
    | none => s
    | some (m, v) =>
      if !s.coreOn n then s.enter m 0x0D (BitVec.ofNat 64 n) (s.core m).pc 4
      else if s.postFull sel then s
      else (({ s with senders := s.senders.erase m } : State).fillPost sel v).waitDone m
  let receive (s : State) : State :=
    let c := s.core n
    match c.postWait, look c.posts p.val with
    | some (rd, k), some v =>
      if k = p.val ∧ s.coreOn n then
        (s.setCore n { c.set (BitVec.ofNat 5 rd) v with posts := drop c.posts p.val }).waitDone n
      else s
    | _, _ => s
  done (receive (deliver s))

/-- WFI_WAKE (R501). -/
def execWfiWake (n : CoreNo) (s : State) : Host.Outcome State Fault Refusal :=
  let c := s.core n
  done (if s.coreOn n ∧ c.wfi = true ∧ (c.line n).isSome then s.waitDone n else s)

/-- INTERRUPT_TAKE (R501, R499): between two instructions, or while one waits; a WFI completes first. -/
def execInterruptTake (n : CoreNo) (s : State) : Host.Outcome State Fault Refusal :=
  let c := s.core n
  match c.line n with
  | some l =>
    if s.coreOn n ∧ c.debugHalt = false ∧ c.ie = true then
      let s := if c.wfi then s.waitDone n else s
      let s := s.setCore n { s.core n with ipend := clearBit (s.core n).ipend l }
      done (s.enter n (0x80 + l) 0 (s.core n).pc 5)
    else done s
  | none => done s

/-! ### JTAG (R578) -/

/-- The debug level lets JTAG reach core `n`: Guildhall cores at level 1, the Watch post's at level 2. -/
def State.jtagCore (s : State) (n : Nat) : Bool := decide (1 ≤ s.debugLevel) && (decide (n < 16) || decide (s.debugLevel = 2))

/-- A register of a core as JTAG reads it. -/
def Core.jtagGet (c : Core) (n : Nat) : CoreReg → Option W64
  | .pc => some (BitVec.ofNat 64 c.pc)
  | .general r => some (c.get r)
  | .control sel => c.control n sel.toNat

/-- A register of a core as JTAG writes it. -/
def Core.jtagSet (c : Core) (r : CoreReg) (v : W64) : Core :=
  match r with
  | .pc => { c with pc := v.toNat }
  | .general r => c.set r v
  | .control sel => c.setControl sel.toNat v

/-- JTAG_ACCESS (R578): the mandatory boundary-scan instructions at every level, EXTEST and CLAMP driving the pins only while RESET_N is
asserted; cores and memory from level 1 (2 for the Watch post's cores). Registers are read and written while the core is halted. -/
def execJtagAccess (op : JtagOp) (s : State) : Host.Outcome State Fault Refusal :=
  match op with
  | .bypass => done s
  | .sample => done s
  | .preload => done s
  | .extest => done (if s.boot.inReset then s.emit (.pin "EXTEST" true) else s)
  | .clamp => done (if s.boot.inReset then s.emit (.pin "CLAMP" true) else s)
  | .halt n => done (if s.jtagCore n then s.setCore n { s.core n with debugHalt := true } else s)
  | .resume n => done (if s.jtagCore n then s.setCore n { s.core n with debugHalt := false, stepOne := false } else s)
  | .step n => done (if s.jtagCore n ∧ (s.core n).debugHalt = true then s.setCore n { s.core n with stepOne := true } else s)
  | .readReg n r =>
    match (s.core n).jtagGet n r with
    | some v => done (if s.jtagCore n ∧ (s.core n).debugHalt = true then s.emit (.value "JTAG" v.toNat) else s)
    | none => done s
  | .writeReg n r v => done (if s.jtagCore n ∧ (s.core n).debugHalt = true then s.setCore n ((s.core n).jtagSet r v) else s)
  | .readMem addr len =>
    if 1 ≤ s.debugLevel ∧ isMem addr.toNat = true then
      let (s, b, bad) := s.readMem 0xFF (coreReq 16) 0 addr.toNat len.toNat
      done (s.emit (.memData (coreReq 16) b bad))
    else done s
  | .writeMem addr data =>
    if 1 ≤ s.debugLevel ∧ isMem addr.toNat = true then done (s.writeMem 0xFF (coreReq 16) 0 addr.toNat data false).1
    else done s

end Sys2Proof.Machine
end

