-- ==== Sys2Proof/Machine/Inventory.lean ====
section
/-!
DEFINITION. Inventory: checkpoints and restores (chapter "Inventory: checkpoint and restore"). The other members of a communicator stand
outside: what they send, and their arrival at a barrier, come with the commands.
-/
namespace Sys2Proof.Machine

/-! ### The set and its shards (R521, R522) -/

/-- The ranges of a set table. -/
def setRanges (b : Bytes) : List (Nat × Nat) := (List.range (b.length / 16)).map fun i => (leAt b (16 * i) 8, leAt b (16 * i + 8) 8)

/-- Two ranges of addresses meet. -/
def meets (a n b m : Nat) : Bool := decide (a < b + m) && decide (b < a + n)

/-- No range of a list meets a later one. -/
def apart : List (Nat × Nat) → Bool
  | [] => true
  | x :: xs => (xs.all fun y => !meets x.1 x.2 y.1 y.2) && apart xs

/-- A set is admitted (R521). -/
def setOk (rs : List (Nat × Nat)) : Bool :=
  (rs.all fun r => decide (r.1 % 4096 = 0) && decide (r.2 % 4096 = 0) && decide (r.2 ≠ 0)) && apart rs

/-- The shards of one range, in ascending order. -/
def rangeShards (i va n : Nat) : List Shard :=
  (List.range ((va + n - 1) / 2 ^ 21 + 1 - va / 2 ^ 21)).map fun k =>
    let lo := max va ((va / 2 ^ 21 + k) * 2 ^ 21)
    let hi := min (va + n) ((va / 2 ^ 21 + k + 1) * 2 ^ 21)
    { range := i, off := lo - va, va := lo, len := hi - lo, marked := false }

/-- The shards of a set (R522). -/
def setShards (rs : List (Nat × Nat)) : List Shard := rs.zipIdx.flatMap fun x => rangeShards x.2 x.1.1 x.1.2

/-! ### Operations in progress and INV_FUNC_STATE -/

/-- INV_FUNC_STATE of a function. -/
def invFn (f : Nat) : Reg := ⟨.invFuncState, f, 0⟩

/-- A function's operation by its number. -/
def State.invOp (s : State) (f k : Nat) : Option InvOp := s.inv.ops.find? fun o => decide (o.func = f) && decide (o.ckpt = k)

/-- Shards not yet copied, or not yet verified. -/
def InvOp.left (o : InvOp) : Nat := (o.shards.filter fun x => x.data.isNone).length

/-- An operation replaced, and INV_FUNC_STATE with it. -/
def State.setInv (s : State) (o : InvOp) : State :=
  let s := { s with inv := { s.inv with ops := s.inv.ops.map fun (x : InvOp) => if x.ckpt = o.ckpt then o else x } }
  (s.fset (invFn o.func) F.invFuncState_PHASE o.phase).fset (invFn o.func) F.invFuncState_SHARDS_LEFT o.left

/-- A shard replaced. -/
def InvOp.setShard (o : InvOp) (k : Nat) (x : Shard) : InvOp := { o with shards := o.shards.set k x }

/-- The communicator of an operation. -/
def State.invComm (s : State) (o : InvOp) : Option Comm := (s.inst o.func).bind fun i => i.comm o.comm

/-! ### Leaves of an address space, as firmware reads and writes them (R260) -/

/-- The entry that a walk of the tables in memory ends at for `va`: its address, its level and itself, if it is a leaf. -/
def State.leafFrom (s : State) (va : Nat) : List Nat → Nat → Option (Nat × Nat × Nat)
  | [], _ => none
  | level :: rest, table =>
    let idx := va / 2 ^ (12 + 9 * level) % 512
    let first := leNat (s.bytes (table + idx / 16 * 128) 8)
    let idx := if level = 0 ∧ nbit first 0 ∧ nbit first 7 then idx / 16 * 16 else idx
    let a := table + idx * 8
    let e := leNat (s.bytes a 8)
    if !nbit e 0 then none
    else if nbit e 1 then State.leafFrom s va rest (pteAddr e)
    else some (a, level, e)

/-- The leaf of `va` in the address space of an ASID. -/
def State.leafOf (s : State) (asid va : Nat) : Option (Nat × Nat × Nat) :=
  let root := leNat (s.bytes (s.ctxAddr s.fwQuarter asid) 8)
  if nbit root 0 then s.leafFrom va [3, 2, 1, 0] (pteAddr root) else none

/-- Firmware's requester code: the first core of a Guildhall that is not fenced. -/
def State.fwReq (s : State) : Nat := 0x8000 + 4 * s.fwQuarter

/-- An entry written by firmware. -/
def State.writeEntry (s : State) (a e : Nat) : State := (s.writeMem 0xFF s.fwReq 0 a (leBytes 8 e) false).1

/-- A leaf of 1 GiB split into 512 leaves of 2 MiB, in a table at `t`. -/
def State.splitLeaf (s : State) (a e t : Nat) : State :=
  let s := (List.range 512).foldl (fun s i => s.writeEntry (t + 8 * i) (e + i * 2 ^ 21)) s
  s.writeEntry a (t + 3)

/-- The C mark of the device leaf of one page set; a leaf above 2 MiB is split first, into the next of the tables that firmware gives. -/
def State.markPage (asid : Nat) (x : State × List Nat) (va : Nat) : State × List Nat :=
  let mark (s : State) : State :=
    match s.leafOf asid va with
    | some (a, _, e) => if e / 2 ^ 60 = 0 then s.writeEntry a (setBit e 4) else s
    | none => s
  match x.1.leafOf asid va with
  | some (a, 2, e) =>
    if e / 2 ^ 60 ≠ 0 then x
    else match x.2 with
      | t :: ts => (mark (x.1.splitLeaf a e t), ts)
      | [] => x
  | _ => (mark x.1, x.2)

/-- Every Surveyor drops the translations of an ASID (R266). -/
def State.invalAsid (s : State) (asid : Nat) : State :=
  let v := setBits (setBits 0 F.surveyorInval_SCOPE 1) F.surveyorInval_ASID asid
  forNat 4 s fun s q => s.invalidate (.core ⟨4 * (s.fwQuarter % 4) % 18, Nat.mod_lt _ (by decide)⟩ true) q v

/-- An invalidation of an ASID is still in progress. -/
def State.invalBusy (s : State) (asid : Nat) : Bool :=
  (List.range 4).any fun q => (s.surveyor q).inval.any fun v => decide (v.1 = 1) && decide (v.2.1 = asid)

/-- A page's mark is needed no longer: no marked shard of an operation on this address space meets its leaf. -/
def State.unmarkPage (s : State) (asid f va : Nat) : State :=
  match s.leafOf asid va with
  | some (a, level, e) =>
    let size := 2 ^ leafShift e level
    let held := s.inv.ops.any fun o => decide (o.func = f) && o.shards.any fun x => x.marked && meets x.va x.len (va / size * size) size
    if nbit e 4 && !held then s.writeEntry a (clearBit e 4) else s
  | none => s

/-- The COPY_ON_WRITE records on pages of a shard resolved with RETRY (R270, R527). -/
def State.retryShard (s : State) (asid va n : Nat) : State :=
  let rq : Requester := .core ⟨4 * (s.fwQuarter % 4) % 18, Nat.mod_lt _ (by decide)⟩ true
  forNat 4 s fun s q =>
    ((s.surveyor q).recs.filter fun r =>
      r.2.isOpen && decide (r.2.kind = 4) && decide (r.2.asid = asid) && meets (r.2.page * 4096) 4096 va n).foldl
        (fun s r => s.resolve rq q r.1 true) s

/-- The marks of a shard cleared in memory and in every Surveyor, and its held writes let go. The shard is marked no longer. -/
def State.unmarkShard (s : State) (asid f : Nat) (x : Shard) : State :=
  let s := (pages x.va x.len).foldl (fun s p => s.unmarkPage asid f p.1) s
  (s.invalAsid asid).retryShard asid x.va x.len

/-! ### Staging (R528) -/

/-- Inventory staging of a Quarter. -/
abbrev stagingBytes : Nat := 2 ^ 28

/-- A Quarter that has room in staging for `n` bytes. -/
def State.stagingFor (s : State) (n : Nat) : Option Nat :=
  (List.range 4).find? fun q => !s.qFenced q && decide (lookD 0 s.inv.staging q + n ≤ stagingBytes)

/-- Room taken in staging, and given back. -/
def State.stagingTake (s : State) (q n : Nat) : State :=
  { s with inv := { s.inv with staging := putD 0 s.inv.staging q (lookD 0 s.inv.staging q + n) } }
def State.stagingFree (s : State) (x : Shard) : State :=
  match x.staged with
  | some q => { s with inv := { s.inv with staging := putD 0 s.inv.staging q (lookD 0 s.inv.staging q - x.len) } }
  | none => s

/-! ### The end of an operation (R528, R535, R536) -/

/-- An operation ends with a status: its marks are cleared, its held writes and its dockets go on, its staging is free, and the EVENT
carries OBJECT. -/
def State.endInv (s : State) (o : InvOp) (status obj : Nat) : State :=
  let marked := o.shards.filter (·.marked)
  let s := { s with inv := { s.inv with ops := s.inv.ops.filter fun x => decide (x.ckpt ≠ o.ckpt) } }
  let s := match s.inst o.func with
    | some i =>
      let s : State := marked.foldl (fun (s : State) x => s.unmarkShard i.asid o.func x) s
      if o.phase = 1 ∧ !(s.inv.ops.any fun x => decide (x.func = o.func) && decide (x.phase = 1)) then
        s.setInst o.func { i with stopping := false }
      else s
    | none => s
  let s := o.shards.foldl (fun s x => s.stagingFree x) s
  let s := ((s.fset (invFn o.func) F.invFuncState_PHASE 0).fset (invFn o.func) F.invFuncState_SHARDS_LEFT 0).fset (invFn o.func)
    F.invFuncState_LAST_STATUS status
  s.postEvent o.func 8 (obj % 2 ^ 32) (status + 2 * 2 ^ 8)

/-- What ends an operation whatever it is doing: a connection of its communicator in ERROR, or no stall or channel left to work on. -/
def State.invBroken (s : State) (i : Inst) (o : InvOp) : Option Nat :=
  let conns := match i.comm o.comm with | some c => c.conns | none => []
  if conns.any fun n => (s.conn n).state = 4 then some 0x66
  else if (s.serving i.prec 5).isEmpty || (s.serving i.prec 6).isEmpty || !s.hasPorter i.prec then some 0x67
  else none

/-- A row on operation `k` of function `f`. -/
def State.onInv (s : State) (f k : Nat) (body : Inst → InvOp → State) : State :=
  match s.inst f, s.invOp f k with
  | some i, some o =>
    match s.invBroken i o with
    | some st => s.endInv o st (if o.restore then o.step else o.ckpt)
    | none => body i o
  | _, _ => s

/-! ### Requests -/

/-- What is wrong with the communicator, context and store volume of a request: 0 nothing, else a status of Kiosk. -/
def State.invRefs (s : State) (f : Nat) (i : Inst) (comm ctx vol : Nat) : Nat :=
  if (i.comm comm).isNone then 3
  else match s.ctxOf ctx, s.volume vol with
    | some (_, c), some v =>
      if c.inst ≠ f ∨ v.owner ≠ f then 5 else if c.algo ≠ 2 then 1 else 0
    | _, _ => 3

/-- A request of either kind (Table 22.5): the checks of R521, R525, R532 and R535, the set read, and the operation made. -/
def State.invRequest (s : State) (f : Nat) (i : Inst) (m : Bytes) (restore : Bool) (far : List FarAns) (go : State → InvOp → Ans) : Ans :=
  let comm := mNum m 0 4
  let vol := mNum m 8 2
  let count := mNum m 28 2
  let step := mNum m 12 8
  if (if restore then decide (1 < mNum m 10 1) || !mZero m 11 1 || !mZero m 30 2 else !mZero m 10 2 || decide (step = 0)) ∨
      count = 0 ∨ 256 < count then s.no 1
  else if s.invRefs f i comm (mNum m 4 4) vol ≠ 0 then s.no (s.invRefs f i comm (mNum m 4 4) vol)
  else if (s.inv.ops.any fun o => decide (o.func = f) && decide (o.comm = comm)) || (restore && !i.dockets.isEmpty) then s.no 2
  else match s.fwRead i.asid (mNum m 20 8) (16 * count) far with
    | (_, none) => none
    | (s, some (.error st)) => s.bad st
    | (s, some (.ok b)) =>
      let rs := setRanges b
      if !setOk rs then s.no 1
      else
        let k := s.inv.next
        let key := key2 f comm
        let n := lookD 0 s.inv.seqs key
        let o : InvOp := {
          func := f, comm := comm, ctx := mNum m 4 4, vol := vol, step := step, ckpt := k, restore := restore, policy := mNum m 10 1, seq := n
          resultAddr := if restore then mNum m 32 8 else 0, set := rs, phase := if restore then 4 else 1
          shards := if restore then [] else setShards rs }
        let s := { s with inv := { s.inv with
          ops := s.inv.ops ++ [o], next := (k + 1) % 2 ^ 32, seqs := if restore then s.inv.seqs else putD 0 s.inv.seqs key (n + 1) } }
        go (s.setInv o) o

/-- INV_CHECKPOINT (R521, R525, R535): the dockets of the instance begin to stop at their next step boundary. -/
def execInvCheckpoint (f : FuncNo) (far : List FarAns) (s : State) : Host.Outcome State Fault Refusal :=
  let f := f.val
  done (s.answerInst f 0x0070 30 fun i m => s.invRequest f i m false far fun s o =>
    match s.inst f with
    | some i => (s.setInst f { i with stopping := true }).ok (leBytes 4 o.ckpt)
    | none => s.no 7)

/-! ### The cut (Table 22.1, R523, R524) -/

/-- The dockets of an instance have parked, have completed or have not started, and no order is left on its communicator's
connections. -/
def State.atBoundary (s : State) (i : Inst) (o : InvOp) : Bool :=
  (i.dockets.all fun d => d.parked || d.held || d.phases.all (fun p => decide (p = .waiting))) &&
  (match i.comm o.comm with
    | some c => c.conns.all fun n => decide ((s.conn n).sqCons = (s.conn n).sqProd) && (s.conn n).orders.all fun x => x.status.isSome
    | none => true)

/-- The pages of a shard that lie in hosts or accelerators. -/
def State.farPages (s : State) (asid : Nat) (x : Shard) : List (Nat × Nat) :=
  (pages x.va x.len).filter fun p => match s.leafOf asid p.1 with | some (_, _, e) => decide (e / 2 ^ 60 ≠ 0) | none => false

/-- A page read; bytes that cannot be read, or are poisoned, are free. -/
def invPage (q asid : Nat) (p : Nat × Nat) : IoM (Nat × Bytes) := do
  let r ← ioTry (ioRead q (0x8000 + 4 * q) asid p.1 p.2)
  match r with
  | some (b, false) => pure (p.1, b)
  | _ =>
    let s ← ioGet
    ioSet fun s => s.useFresh p.2
    pure (p.1, s.freeBytes p.2)

/-- The parts of a shard that no C mark can protect copied into staging (R524). -/
def State.copyEarly (asid : Nat) (x : Shard) : IoM Shard := do
  let s ← ioGet
  let ps := s.farPages asid x
  if ps.isEmpty then pure x
  else
    let got ← ps.mapM fun p => invPage s.fwQuarter asid p
    let s ← ioGet
    let q := s.stagingFor x.len
    ioSet fun s => match q with | some q => s.stagingTake q x.len | none => s
    pure { x with early := got, staged := q }

/-- INV_CUT (R523, R524): once every docket has parked and every member has arrived, the parts in hosts and accelerators are copied and
the rest is marked; and once the invalidations are done, the dockets go on and the CUT event is posted. `tables` are the pages
that firmware gives to split large leaves. -/
def execInvCut (f : FuncNo) (k : BitVec 32) (tables : List (BitVec 57)) (far : List FarAns) (s : State) : Host.Outcome State Fault Refusal :=
  let f := f.val
  done (s.onInv f k.toNat fun i o =>
    if o.phase ≠ 1 then s
    else if !o.cut then
      if !s.atBoundary i o then s
      else match (o.shards.mapM fun x => State.copyEarly i.asid x).at s far with
        | (_, .error _) => s
        | (s, .ok xs) =>
          let vas := xs.flatMap fun x => (pages x.va x.len).map (·.1)
          let (s, _) := vas.foldl (State.markPage i.asid) (s, tables.map (·.toNat))
          let o := { o with cut := true, shards := xs.map fun x => { x with marked := true } }
          if xs.any fun x => x.staged.isNone && !x.early.isEmpty then (s.setInv o).endInv o 0x63 o.ckpt
          else (s.invalAsid i.asid).setInv o
    else if s.invalBusy i.asid then s
    else
      let s := s.setInv { o with phase := 2 }
      let s := if s.inv.ops.any fun x => decide (x.func = f) && decide (x.phase = 1) then s else s.setInst f { i with stopping := false }
      s.postEvent f 8 o.ckpt (1 * 2 ^ 8))

/-! ### Copying (R526–R528) -/

/-- Shard `n` of an operation copied whole, its marks cleared and its writes let go. None while the Surveyor holds the read. -/
def State.copyShard (s : State) (i : Inst) (o : InvOp) (n : Nat) (x : Shard) (far : List FarAns) : Option State :=
  let part (p : Nat × Nat) : IoM (Nat × Bytes) :=
    match look x.early p.1 with
    | some b => pure (p.1, b)
    | none => invPage s.fwQuarter i.asid p
  match ((pages x.va x.len).mapM part).at s far with
  | (_, .error _) => none
  | (s, .ok ps) =>
    let b := ps.flatMap (·.2)
    let o := o.setShard n { x with marked := false, data := some b, digest := sha256 b }
    let o := if o.left = 0 then { o with phase := 3 } else o
    some ((s.setInv o).unmarkShard i.asid o.func x)

/-- INV_SHARD_COPY (R526): the next shard in ascending order of range and offset. -/
def execInvShardCopy (f : FuncNo) (k : BitVec 32) (far : List FarAns) (s : State) : Host.Outcome State Fault Refusal :=
  done (s.onInv f.val k.toNat fun i o =>
    if o.phase ≠ 2 then s
    else match o.shards.zipIdx.find? fun x => x.1.data.isNone with
      | some (x, n) => (s.copyShard i o n x far).getD s
      | none => s)

/-- The operation and the shard that a COPY_ON_WRITE record meets. -/
def State.shardAt (s : State) (r : FaultRec) : Option (Inst × InvOp × Nat × Shard) :=
  s.inv.ops.findSome? fun o =>
    match s.inst o.func with
    | some i =>
      if i.asid = r.asid then
        (o.shards.zipIdx.find? fun x => x.1.marked && meets x.1.va x.1.len (r.page * 4096) 4096).map fun x => (i, o, x.2, x.1)
      else none
    | none => none

/-- The open COPY_ON_WRITE record `id` of the Surveyor of Quarter `q`. -/
def State.cowRecord (s : State) (q id : Nat) : Option FaultRec :=
  (look (s.surveyor q).recs id).filter fun r => r.isOpen && decide (r.kind = 4)

/-- INV_COPY_AHEAD (R527): the whole shard into staging, if there is room. -/
def execInvCopyAhead (q : Qn) (id : Fin 256) (far : List FarAns) (s : State) : Host.Outcome State Fault Refusal :=
  match (s.cowRecord q.val id.val).bind s.shardAt with
  | none => done s
  | some (i, o, n, x) =>
    if o.phase ≠ 2 ∨ x.data.isSome then done s
    else
      let room : Option (State × Shard) := if x.staged.isSome then some (s, x)
        else (s.stagingFor x.len).map fun t => (s.stagingTake t x.len, { x with staged := some t })
      match room with
      | none => done s
      | some (s', x) =>
        match s'.copyShard i o n x far with
        | some s => done (s.fsat (invFn o.func) F.invFuncState_COPY_AHEAD 1)
        | none => done s

/-- INV_STAGING_TIMEOUT (R528): the 5 ms of a record that finds no staging have passed. -/
def execInvStagingTimeout (q : Qn) (id : Fin 256) (s : State) : Host.Outcome State Fault Refusal :=
  match (s.cowRecord q.val id.val).bind s.shardAt with
  | none => done s
  | some (_, o, _, x) => done (if x.staged.isNone && (s.stagingFor x.len).isNone then s.endInv o 0x63 o.ckpt else s)

/-! ### Manifests (R531) -/

/-- An entry of a manifest (Table 22.4). -/
structure MEntry where
  rank : Nat
  range : Nat
  len : Nat
  off : Nat
  owner : Nat
  stored : Nat
  lba : Nat
  digest : Bytes
  deriving DecidableEq, Repr

/-- The bytes of an entry, and the entry of bytes. -/
def MEntry.bytes (e : MEntry) : Bytes :=
  leBytes 2 e.rank ++ leBytes 2 e.range ++ leBytes 4 e.len ++ leBytes 8 e.off ++ leBytes 2 e.owner ++ leBytes 2 0 ++ leBytes 4 e.stored ++
    leBytes 8 e.lba ++ slice e.digest 0 32
def entryOf (b : Bytes) : MEntry :=
  { rank := leAt b 0 2, range := leAt b 2 2, len := leAt b 4 4, off := leAt b 8 8, owner := leAt b 0x10 2, stored := leAt b 0x14 4
    lba := leAt b 0x18 8, digest := slice b 0x20 32 }

/-- A complete manifest as a slot holds it: STEP and its entries. -/
abbrev Manifest := Nat × List MEntry

/-- Bytes of the volume from a byte offset, as its first healthy replica holds them. -/
def Volume.bytesAt (v : Volume) (at_ n : Nat) : Bytes :=
  match v.first with
  | none => []
  | some r =>
    let size := 2 ^ v.log2
    let lo := at_ / size
    slice (r.read size lo ((at_ + n + size - 1) / size - lo)) (at_ - lo * size) n

/-- The manifest of slot `n` of a store volume, if it is complete: MAGIC, VERSION, COMPLETE, and a DIGEST that its entries have. -/
def Volume.manifest (v : Volume) (n : Nat) : Option Manifest :=
  let base := n * 2 ^ 24
  let h := v.bytesAt base 64
  let count := leAt h 0x18 4
  let es := v.bytesAt (base + 64) (64 * count)
  if leAt h 0 4 = 0x5453_4E4D ∧ leAt h 4 2 = 0x0100 ∧ leAt h 0x1C 4 = 1 ∧ 64 * count + 64 ≤ 2 ^ 24 ∧ slice h 0x20 32 = sha256 es then
    some (leAt h 0x10 8, (List.range count).map fun i => entryOf (slice es (64 * i) 64))
  else none

/-- Every complete manifest of a store volume, with its slot. -/
def Volume.manifests (v : Volume) : List (Nat × Manifest) := (List.range 16).filterMap fun n => (v.manifest n).map fun m => (n, m)

/-- The placement of a digest that some complete manifest lists (R529). -/
def Volume.present (v : Volume) (digest : Bytes) : Option MEntry :=
  (v.manifests.flatMap fun m => m.2.2).find? fun e => e.digest = digest

/-- Bytes written over whole blocks of every healthy replica, the last block filled with zeros. -/
def Volume.store_ (v : Volume) (lba : Nat) (b : Bytes) : Volume :=
  let size := 2 ^ v.log2
  let n := (b.length + size - 1) / size
  { v with replicas := v.replicas.map fun r => if r.up then r.write size lba (slice b 0 (n * size)) else r }

/-- A write to the store would not complete OK: the volume is sanitising, or too few replicas are healthy, or its key is gone. -/
def Volume.refuses (v : Volume) : Bool := decide (v.op ≠ 0) || decide (v.healthy < v.minHealthy) || decide (v.key = [])

/-! ### Sealing (R529, R530) -/

/-- Blocks that stored bytes fill. -/
def Volume.blocksOf (v : Volume) (n : Nat) : Nat := (n + 2 ^ v.log2 - 1) / 2 ^ v.log2

/-- Blocks that firmware may allocate: behind the slots, inside the volume, and holding no stored shard that a complete manifest or a
checkpoint under way names. -/
def State.storeFree (s : State) (v : Volume) (rank : Nat) (vol lba n : Nat) : Bool :=
  decide (2 ^ 28 ≤ lba * 2 ^ v.log2) && decide (lba + n ≤ v.blocks) &&
  (v.manifests.all fun m => m.2.2.all fun e => decide (e.owner ≠ rank) || !meets lba n e.lba (v.blocksOf e.stored)) &&
  (s.inv.ops.all fun o => decide (o.vol ≠ vol) || o.restore || o.shards.all fun x =>
    decide (x.owner ≠ some rank) || !meets lba n x.lba (v.blocksOf x.stored))

/-- A shard sealed: compressed, encrypted under the context with a nonce from hardware, and its nonce-and-tag record behind it. -/
def State.seal (s : State) (i : Inst) (o : InvOp) (b : Bytes) : Except Nat (State × Bytes) :=
  match s.cashboxFor i.prec s.fwQuarter, s.ctxOf o.ctx with
  | some st, some (n, c) =>
    match s.keyOf c.inst c.key, s.drawNonce st n with
    | some k, some (s, nonce, _) =>
      let (r, tag) := aeadSeal 2 k.key nonce [] (compress b)
      .ok (s, r ++ tagRecord nonce tag)
    | _, _ => .error 0x65
  | none, _ => .error 0x67
  | _, none => .error 0x65

/-- INV_SHARD_DURABLE (R529, R530): shard `n`, once copied, gets its place. A present digest keeps its placement; `other` is the placement
by a lower-ranked member that holds the digest; else this member seals it and writes it at `lba`, none where its store has no
room, and `failed` says that a write ended other than OK. -/
def execInvShardDurable (f : FuncNo) (k : BitVec 32) (n : Nat) (other : Option (BitVec 16 × BitVec 48 × BitVec 32)) (lba : Option (BitVec 48))
    (failed : Bool) (s : State) : Host.Outcome State Fault Refusal :=
  done (s.onInv f.val k.toNat fun i o =>
    match o.shards[n]?, s.volume o.vol, i.comm o.comm with
    | some x, some v, some c =>
      match x.data with
      | none => s
      | some b =>
        let place (s : State) (owner lba stored : Nat) : State :=
          let s := s.stagingFree x
          s.setInv (o.setShard n { x with owner := some owner, lba := lba, stored := stored, durable := true, staged := none })
        if x.durable || o.restore then s
        else match v.present x.digest, o.shards.find? (fun y => y.durable && decide (y.digest = x.digest)), other with
          | some e, _, _ => place s e.owner e.lba e.stored
          | none, some y, _ => place s (y.owner.getD 0) y.lba y.stored
          | none, none, some (r, a, m) => if r.toNat < c.rank then place s r.toNat a.toNat m.toNat else s
          | none, none, none =>
            match lba with
            | none => s.endInv o 0x64 o.ckpt
            | some a =>
              match s.seal i o b with
              | .error st => s.endInv o st o.ckpt
              | .ok (s', stored) =>
                if !s.storeFree v c.rank o.vol a.toNat (v.blocksOf stored.length) then s
                else if failed || v.refuses then s'.endInv o 0x65 o.ckpt
                else place (s'.setVolume o.vol (v.store_ a.toNat stored)) c.rank a.toNat stored.length
    | _, none, _ => s.endInv o 0x65 o.ckpt
    | _, _, _ => s)

/-- A member's own entries. -/
def InvOp.entries (o : InvOp) (rank : Nat) : List MEntry :=
  o.shards.map fun x => { rank := rank, range := x.range, len := x.len, off := x.off, owner := x.owner.getD 0, stored := x.stored, lba := x.lba
                          digest := x.digest }

/-- Entries in ascending (RANK, RANGE, OFFSET). -/
def ascending : List MEntry → Bool
  | a :: b :: r => (decide (a.rank < b.rank) || (decide (a.rank = b.rank) && (decide (a.range < b.range) ||
      (decide (a.range = b.range) && decide (a.off < b.off))))) && ascending (b :: r)
  | _ => true

/-- Stored shards that no complete manifest lists any longer, freed by DISCARD (R531). -/
def Volume.discardAll (v : Volume) (rank : Nat) (old : List MEntry) : Volume :=
  let listed := v.manifests.flatMap fun m => m.2.2
  old.foldl (fun v e =>
    if e.owner = rank ∧ !(listed.any fun x => decide (x.owner = rank) && decide (x.lba = e.lba)) then
      v.store_ e.lba (List.replicate e.stored 0#8)
    else v) v

/-- INV_MANIFEST_WRITE (R531): every owned shard of every member is durable. `others` are the entries of the other members; `failed` says
that a write ended other than OK. -/
def execInvManifestWrite (f : FuncNo) (k : BitVec 32) (others : Bytes) (failed : Bool) (s : State) : Host.Outcome State Fault Refusal :=
  done (s.onInv f.val k.toNat fun i o =>
    match s.volume o.vol, i.comm o.comm with
    | some v, some c =>
      let es := (List.range (others.length / 64)).map fun n => entryOf (slice others (64 * n) 64)
      let all := (es.filter fun e => e.rank < c.rank) ++ o.entries c.rank ++ (es.filter fun e => c.rank < e.rank)
      if o.phase ≠ 3 ∨ !(o.shards.all (·.durable)) ∨ !ascending all ∨ !(all.all fun e => decide (e.rank < c.size)) then s
      else if 2 ^ 24 < 64 * all.length + 64 then s.endInv o 0x64 o.ckpt
      else if failed || v.refuses then s.endInv o 0x65 o.ckpt
      else
        let slot := o.seq % 16
        let old := match v.manifest slot with | some m => m.2 | none => []
        let body := all.flatMap (·.bytes)
        let head := leBytes 4 0x5453_4E4D ++ leBytes 2 0x0100 ++ leBytes 2 c.size ++ leBytes 8 c.id ++ leBytes 8 o.step ++
          leBytes 4 all.length ++ leBytes 4 1 ++ sha256 body
        let v := (v.store_ (slot * 2 ^ 24 / 2 ^ v.log2) (head ++ body)).discardAll c.rank old
        (s.setVolume o.vol v).endInv o 0 o.ckpt
    | _, _ => s.endInv o 0x65 o.ckpt)

/-! ### Restore (R532–R534) -/

/-- What became of one entry of a restore: 0 passed, else SHARD_MISMATCH or SHARD_MISSING. -/
def State.restoreEntry (s : State) (i : Inst) (o : InvOp) (e : MEntry) (stored : Option Bytes) : State × Nat :=
  match stored, s.ctxOf o.ctx, o.set[e.range]? with
  | some b, some (_, c), some (va, n) =>
    match s.keyOf c.inst c.key with
    | none => (s, 0x61)
    | some key =>
      let m := b.length - 32
      let t := b.drop m
      match aeadOpen 2 key.key (slice t 0 12) [] (b.take m) (slice t 16 16) with
      | none => (s, 0x61)
      | some z =>
        match Config.unpack z with
        | none => (s, 0x61)
        | some d =>
          if sha256 d ≠ e.digest ∨ d.length ≠ e.len ∨ n < e.off + e.len then (s, 0x60)
          else
            let q := s.fwQuarter
            ((ioTry (ioWrite q (0x8000 + 4 * q) i.asid (va + e.off) d false)).at s [] |>.1, 0)
  | none, _, _ => (s, 0x61)
  | _, none, _ => (s, 0x61)
  | _, _, none => (s, 0x60)

/-- Every entry of this member's rank tried; `fetched` are the stored forms that the other owners sent, in order (none: not readable). The
failing entry indices with their statuses, in ascending order. -/
def State.restoreAll (i : Inst) (o : InvOp) (v : Volume) (rank : Nat) :
    List (MEntry × Nat) → List (Option Bytes) → State → State × List (Nat × Nat)
  | [], _, s => (s, [])
  | (e, n) :: es, fetched, s =>
    if e.rank ≠ rank then State.restoreAll i o v rank es fetched s
    else
      let (b, fetched) : Option Bytes × List (Option Bytes) :=
        if e.owner = rank then
          (if v.healthy = 0 ∨ v.key = [] ∨ v.blocks * 2 ^ v.log2 < e.lba * 2 ^ v.log2 + e.stored then none
            else some (v.bytesAt (e.lba * 2 ^ v.log2) e.stored), fetched)
        else (fetched.head?.join, fetched.tail)
      let (s, st) := s.restoreEntry i o e b
      let (s, r) := State.restoreAll i o v rank es fetched s
      (s, if st = 0 then r else (n, st) :: r)

/-- The manifest tried for a step, 0 for the newest: the complete manifest with that STEP. -/
def Volume.forStep (v : Volume) (step : Nat) : Option Manifest :=
  if step = 0 then
    (v.manifests.map (·.2)).foldl (fun (b : Option Manifest) m => match b with
      | some x => if x.1 < m.1 then some m else some x
      | none => some m) none
  else (v.manifests.map (·.2)).find? fun m => m.1 = step

/-- The newest complete manifest older than a step. -/
def Volume.older (v : Volume) (step : Nat) : Option Manifest :=
  ((v.manifests.map (·.2)).filter fun m => m.1 < step).foldl (fun (b : Option Manifest) m => match b with
    | some x => if x.1 < m.1 then some m else some x
    | none => some m) none

/-- One step tried: this member's result is kept until the members have exchanged theirs. -/
def State.tryStep (s : State) (i : Inst) (o : InvOp) (v : Volume) (rank : Nat) (m : Manifest) (fetched : List (Option Bytes)) : State :=
  let (s, bad) := State.restoreAll i o v rank m.2.zipIdx fetched s
  let failing := match o.failing with
    | some x => some x
    | none => if bad.isEmpty then none else some (m.1, bad.map (·.1))
  s.setInv { o with trying := m.1, result := some ((bad.head?.map (·.2)).getD 0), failing := failing }

/-- INV_RESTORE (R532, R535): refused with BUSY while a docket is outstanding. -/
def execInvRestore (f : FuncNo) (far : List FarAns) (fetched : List (Option Bytes)) (s : State) : Host.Outcome State Fault Refusal :=
  let f := f.val
  done (s.answerInst f 0x0071 40 fun i m => s.invRequest f i m true far fun s o =>
    let run : State :=
      match s.invBroken i o, s.volume o.vol, i.comm o.comm with
      | some st, _, _ => s.endInv o st o.step
      | none, some v, some c =>
        match v.forStep o.step with
        | some x => s.tryStep i o v c.rank x fetched
        | none => s.endInv o 0x62 o.step
      | _, _, _ => s.endInv o 0x62 o.step
    run.ok [])

/-- The failures of the first step tried, at RESULT_ADDR (R533). -/
def State.writeResult (s : State) (i : Inst) (o : InvOp) (x : Nat × List Nat) : State :=
  let q := s.fwQuarter
  let b := leBytes 8 x.1 ++ leBytes 4 x.2.length ++ leBytes 4 0 ++ (x.2.take 1020).flatMap (leBytes 4)
  ((ioTry (ioWrite q (0x8000 + 4 * q) i.asid o.resultAddr b false)).at s []).1

/-- INV_RESTORE_RESULT (R533, R534): the members have exchanged their results; `others` is the first failing status of the other members,
0 where all passed. A fallback step is tried with the stored forms `fetched`. -/
def execInvRestoreResult (f : FuncNo) (k : BitVec 32) (others : BitVec 8) (fetched : List (Option Bytes)) (s : State) :
    Host.Outcome State Fault Refusal :=
  done (s.onInv f.val k.toNat fun i o =>
    match o.result with
    | none => s
    | some own =>
      let first (s : State) : State × InvOp :=
        match o.failing with
        | some x => (if o.trying = x.1 then s.writeResult i o x else s, o)
        | none => (s.writeResult i o (o.trying, []), { o with failing := some (o.trying, []) })
      if own = 0 ∧ others = 0 then s.endInv o 0 o.trying
      else
        let (s, o) := first s
        if o.policy = 0 then s.endInv o (if own ≠ 0 then own else others.toNat) o.trying
        else match s.volume o.vol, i.comm o.comm with
          | some v, some c =>
            match v.older o.trying with
            | some m => s.tryStep i o v c.rank m fetched
            | none => s.endInv o 0x62 o.trying
          | _, _ => s.endInv o 0x62 o.trying)

end Sys2Proof.Machine
end

