-- ==== Sys2Proof/Machine/Waits.lean ====
section
/-!
DEFINITION. A WAIT that reaches a counter's home (R302, R306), from each kind of waiter that does not bring it there itself.
-/
namespace Sys2Proof.Machine

/-- BELL_WAIT (R302): the wait of a stall's oldest task (R187), of a Carter context's dormant COUNTER order (R399) or of a Ledger queue
that uses DB_BELL (R435). Waits of Porter channels and sync entries reach their counters as the descriptor starts or the entry is
armed. -/
def execBellWait (src : WaitSrc) (s : State) : Host.Outcome State Fault Refusal :=
  match src with
  | .task st => done (s.taskWait st)
  | .order n =>
    let c := s.conn n
    match c.orders.find? (·.dormant) with
    | none => done s
    | some o =>
      if c.state ≠ 3 ∨ !s.carterOn c.stall ∨ oTrig o.desc ≠ 1 ∨ o.waiting = true ∨ s.waitsAt src then done s
      else
        let s := s.setConn n (c.setOrder { o with waiting := true })
        done (s.bells [.wait (oTrigCtr o.desc) { src := src, amount := oTrigVal o.desc }])
  | .ledger n =>
    match s.lqueue n with
    | none => done s
    | some q =>
      if !q.dbBell || q.waiting || s.waitsAt src || decide (q.state ≠ 1) || q.resetting || decide (256 ≤ q.cmds.length) || !s.ledgerOn q.stall ||
          s.precPaused q.prec || s.ringsPaused q.func || s.fwPaused then done s
      else
        let s := s.setLqueue n { q with waiting := true }
        done (s.bells [.wait q.dbCtr { src := src, amount := 1 }])
  | .chan _ => done s
  | .sync _ _ _ => done s

end Sys2Proof.Machine
end

