-- ==== Sys2Proof/Machine/Dispatch.lean ====
section
/-!
DEFINITION. The one match over the commands: each arm is one direct call of its meaning.
-/
namespace Sys2Proof.Machine

def exec (i : Instr) (s : State) : Host.Outcome State Fault Refusal :=
  match i with
  | .aluAdd n rd rs1 rs2 => Sys2Proof.Machine.execAdd n rd rs1 rs2 s
  | .aluSub n rd rs1 rs2 => Sys2Proof.Machine.execSub n rd rs1 rs2 s
  | .aluAnd n rd rs1 rs2 => Sys2Proof.Machine.execAnd n rd rs1 rs2 s
  | .aluOr n rd rs1 rs2 => Sys2Proof.Machine.execOr n rd rs1 rs2 s
  | .aluXor n rd rs1 rs2 => Sys2Proof.Machine.execXor n rd rs1 rs2 s
  | .sll n rd rs1 rs2 => Sys2Proof.Machine.execSll n rd rs1 rs2 s
  | .srl n rd rs1 rs2 => Sys2Proof.Machine.execSrl n rd rs1 rs2 s
  | .sra n rd rs1 rs2 => Sys2Proof.Machine.execSra n rd rs1 rs2 s
  | .slt n rd rs1 rs2 => Sys2Proof.Machine.execSlt n rd rs1 rs2 s
  | .sltu n rd rs1 rs2 => Sys2Proof.Machine.execSltu n rd rs1 rs2 s
  | .mul n rd rs1 rs2 => Sys2Proof.Machine.execMul n rd rs1 rs2 s
  | .mulhu n rd rs1 rs2 => Sys2Proof.Machine.execMulhu n rd rs1 rs2 s
  | .divu n rd rs1 rs2 => Sys2Proof.Machine.execDivu n rd rs1 rs2 s
  | .remu n rd rs1 rs2 => Sys2Proof.Machine.execRemu n rd rs1 rs2 s
  | .div n rd rs1 rs2 => Sys2Proof.Machine.execDiv n rd rs1 rs2 s
  | .rem n rd rs1 rs2 => Sys2Proof.Machine.execRem n rd rs1 rs2 s
  | .addi n rd rs1 imm => Sys2Proof.Machine.execAddi n rd rs1 imm s
  | .andi n rd rs1 imm => Sys2Proof.Machine.execAndi n rd rs1 imm s
  | .ori n rd rs1 imm => Sys2Proof.Machine.execOri n rd rs1 imm s
  | .xori n rd rs1 imm => Sys2Proof.Machine.execXori n rd rs1 imm s
  | .slli n rd rs1 sh => Sys2Proof.Machine.execSlli n rd rs1 sh s
  | .srli n rd rs1 sh => Sys2Proof.Machine.execSrli n rd rs1 sh s
  | .srai n rd rs1 sh => Sys2Proof.Machine.execSrai n rd rs1 sh s
  | .slti n rd rs1 imm => Sys2Proof.Machine.execSlti n rd rs1 imm s
  | .shori n rd rs1 imm => Sys2Proof.Machine.execShori n rd rs1 imm s
  | .li n rd imm => Sys2Proof.Machine.execLi n rd imm s
  | .ld n rd rs1 imm => Sys2Proof.Machine.execLd n rd rs1 imm s
  | .lw n rd rs1 imm => Sys2Proof.Machine.execLw n rd rs1 imm s
  | .lws n rd rs1 imm => Sys2Proof.Machine.execLws n rd rs1 imm s
  | .lh n rd rs1 imm => Sys2Proof.Machine.execLh n rd rs1 imm s
  | .lb n rd rs1 imm => Sys2Proof.Machine.execLb n rd rs1 imm s
  | .st n rd rs1 imm => Sys2Proof.Machine.execSt n rd rs1 imm s
  | .sw n rd rs1 imm => Sys2Proof.Machine.execSw n rd rs1 imm s
  | .sh n rd rs1 imm => Sys2Proof.Machine.execSh n rd rs1 imm s
  | .sb n rd rs1 imm => Sys2Proof.Machine.execSb n rd rs1 imm s
  | .amoadd n rd rs1 rs2 => Sys2Proof.Machine.execAmoadd n rd rs1 rs2 s
  | .amoswap n rd rs1 rs2 => Sys2Proof.Machine.execAmoswap n rd rs1 rs2 s
  | .cas n rd rs1 rs2 => Sys2Proof.Machine.execCas n rd rs1 rs2 s
  | .beq n rs1 rs2 disp => Sys2Proof.Machine.execBeq n rs1 rs2 disp s
  | .bne n rs1 rs2 disp => Sys2Proof.Machine.execBne n rs1 rs2 disp s
  | .blt n rs1 rs2 disp => Sys2Proof.Machine.execBlt n rs1 rs2 disp s
  | .bge n rs1 rs2 disp => Sys2Proof.Machine.execBge n rs1 rs2 disp s
  | .bltu n rs1 rs2 disp => Sys2Proof.Machine.execBltu n rs1 rs2 disp s
  | .bgeu n rs1 rs2 disp => Sys2Proof.Machine.execBgeu n rs1 rs2 disp s
  | .call n disp => Sys2Proof.Machine.execCall n disp s
  | .jmp n disp => Sys2Proof.Machine.execJmp n disp s
  | .callr n rs1 => Sys2Proof.Machine.execCallr n rs1 s
  | .jmpr n rs1 => Sys2Proof.Machine.execJmpr n rs1 s
  | .ret n => Sys2Proof.Machine.execRet n s
  | .mfc n rd sel => Sys2Proof.Machine.execMfc n rd sel s
  | .mtc n rs1 sel => Sys2Proof.Machine.execMtc n rs1 sel s
  | .rdpost n rd sel => Sys2Proof.Machine.execRdpost n rd sel s
  | .send n rs1 sel => Sys2Proof.Machine.execSend n rs1 sel s
  | .postDeliver n p => Sys2Proof.Machine.execPostDeliver n p s
  | .trap n sel => Sys2Proof.Machine.execTrap n sel s
  | .eret n => Sys2Proof.Machine.execEret n s
  | .dsync n => Sys2Proof.Machine.execDsync n s
  | .isync n => Sys2Proof.Machine.execIsync n s
  | .wfi n => Sys2Proof.Machine.execWfi n s
  | .wfiWake n => Sys2Proof.Machine.execWfiWake n s
  | .brk n => Sys2Proof.Machine.execBrk n s
  | .flushw n => Sys2Proof.Machine.execFlushw n s
  | .interruptTake n => Sys2Proof.Machine.execInterruptTake n s
  | .illegal n w => Sys2Proof.Machine.execIllegal n w s
  | .registerWrite place data silent => Sys2Proof.Machine.execRegisterWrite place data silent s
  | .readClear place size silent => Sys2Proof.Machine.execReadClear place size silent s
  | .multiTargetRead rq off size silent => Sys2Proof.Machine.execMultiTargetRead rq off size silent s
  | .grpMemberWrite rq g m v => Sys2Proof.Machine.execGrpMemberWrite rq g m v s
  | .registerTimeout off => Sys2Proof.Machine.execRegisterTimeout off s
  | .conserveCheck rq v => Sys2Proof.Machine.execConserveCheck rq v s
  | .conserveCheckResult n bad => Sys2Proof.Machine.execConserveCheckResult n bad s
  | .ximQuiesce src => Sys2Proof.Machine.execXimQuiesce src s
  | .ximQuiesceDone p => Sys2Proof.Machine.execXimQuiesceDone p s
  | .ximQuiesceTimeout p => Sys2Proof.Machine.execXimQuiesceTimeout p s
  | .ximLoad src => Sys2Proof.Machine.execXimLoad src s
  | .ximLoadCommit => Sys2Proof.Machine.execXimLoadCommit s
  | .ximResume src => Sys2Proof.Machine.execXimResume src s
  | .docketSubmit f bound far => Sys2Proof.Machine.execDocketSubmit f bound far s
  | .operationStart f tag op placed far => Sys2Proof.Machine.execOperationStart f tag op placed far s
  | .operationComplete f tag op members mismatch far => Sys2Proof.Machine.execOperationComplete f tag op members mismatch far s
  | .docketComplete f tag => Sys2Proof.Machine.execDocketComplete f tag s
  | .docketCancel f => Sys2Proof.Machine.execDocketCancel f s
  | .stallRingTailWrite rq st v => Sys2Proof.Machine.execStallRingTailWrite rq st v s
  | .stallTaskFetch st => Sys2Proof.Machine.execStallTaskFetch st s
  | .stallTaskComplete st => Sys2Proof.Machine.execStallTaskComplete st s
  | .scalesGemmPass st => Sys2Proof.Machine.execScalesGemmPass st s
  | .barrowPool st => Sys2Proof.Machine.execBarrowPool st s
  | .barrowScatterAdd st => Sys2Proof.Machine.execBarrowScatterAdd st s
  | .tallyCellAdd n => Sys2Proof.Machine.execTallyCellAdd n s
  | .sieveSort st => Sys2Proof.Machine.execSieveSort st s
  | .sieveTopK st => Sys2Proof.Machine.execSieveTopK st s
  | .sieveCompact st => Sys2Proof.Machine.execSieveCompact st s
  | .sieveDedup st => Sys2Proof.Machine.execSieveDedup st s
  | .balerCompress st => Sys2Proof.Machine.execBalerCompress st s
  | .balerDecompress st => Sys2Proof.Machine.execBalerDecompress st s
  | .crossingGate st => Sys2Proof.Machine.execCrossingGate st s
  | .crossingDispatch st => Sys2Proof.Machine.execCrossingDispatch st s
  | .crossingCombine st => Sys2Proof.Machine.execCrossingCombine st s
  | .tallyReduce st => Sys2Proof.Machine.execTallyReduce st s
  | .tallySparseMerge st => Sys2Proof.Machine.execTallySparseMerge st s
  | .tallyPieceArrive st port => Sys2Proof.Machine.execTallyPieceArrive st port s
  | .cashboxEncrypt st mismatch => Sys2Proof.Machine.execCashboxEncrypt st mismatch s
  | .cashboxDecrypt st mismatch => Sys2Proof.Machine.execCashboxDecrypt st mismatch s
  | .cashboxVerify st mismatch => Sys2Proof.Machine.execCashboxVerify st mismatch s
  | .cashboxDigest st mismatch => Sys2Proof.Machine.execCashboxDigest st mismatch s
  | .cashboxSaveWrapped st => Sys2Proof.Machine.execCashboxSaveWrapped st s
  | .cashboxRestoreWrapped st => Sys2Proof.Machine.execCashboxRestoreWrapped st s
  | .cashboxCtxReset st => Sys2Proof.Machine.execCashboxCtxReset st s
  | .squareAccess q a => Sys2Proof.Machine.execSquareAccess q a s
  | .squarePoolGrant q who => Sys2Proof.Machine.execSquarePoolGrant q who s
  | .warehouseAccess w a => Sys2Proof.Machine.execWarehouseAccess w a s
  | .warehouseScrub w line upset last => Sys2Proof.Machine.execWarehouseScrub w line upset last s
  | .surveyorTranslate q a => Sys2Proof.Machine.execSurveyorTranslate q a s
  | .surveyorAtsResponse q asid page r => Sys2Proof.Machine.execSurveyorAtsResponse q asid page r s
  | .surveyorInval rq q v => Sys2Proof.Machine.execSurveyorInval rq q v s
  | .surveyorInvalDone q => Sys2Proof.Machine.execSurveyorInvalDone q s
  | .surveyorResolveRetry rq q id => Sys2Proof.Machine.execSurveyorResolveRetry rq q id s
  | .surveyorResolveFail rq q id => Sys2Proof.Machine.execSurveyorResolveFail rq q id s
  | .surveyorFaultTimeout q id => Sys2Proof.Machine.execSurveyorFaultTimeout q id s
  | .streetRouteSetup rq q n v => Sys2Proof.Machine.execStreetRouteSetup rq q n v s
  | .streetRouteTeardown rq q n v => Sys2Proof.Machine.execStreetRouteTeardown rq q n v s
  | .streetRouteDrained q n => Sys2Proof.Machine.execStreetRouteDrained q n s
  | .streetFlit q n corrupt => Sys2Proof.Machine.execStreetFlit q n corrupt s
  | .streetCreditReturn q n => Sys2Proof.Machine.execStreetCreditReturn q n s
  | .blvdTransfer src dst replay a end_ => Sys2Proof.Machine.execBlvdTransfer src dst replay a end_ s
  | .blvdRetrained q p => Sys2Proof.Machine.execBlvdRetrained q p s
  | .blvdRelayDrainDone q p => Sys2Proof.Machine.execBlvdRelayDrainDone q p s
  | .porterGo rq c => Sys2Proof.Machine.execPorterGo rq c s
  | .porterAbort rq c => Sys2Proof.Machine.execPorterAbort rq c s
  | .porterResume rq c => Sys2Proof.Machine.execPorterResume rq c s
  | .porterDoorbell rq c => Sys2Proof.Machine.execPorterDoorbell rq c s
  | .porterDescFetch c => Sys2Proof.Machine.execPorterDescFetch c s
  | .porterWaitMet c => Sys2Proof.Machine.execPorterWaitMet c s
  | .porterBurstGrant q => Sys2Proof.Machine.execPorterBurstGrant q s
  | .porterBurstResponse c n e => Sys2Proof.Machine.execPorterBurstResponse c n e s
  | .porterDescComplete c => Sys2Proof.Machine.execPorterDescComplete c s
  | .bellSignal rq q n amount => Sys2Proof.Machine.execBellSignal rq q n amount s
  | .bellWait src => Sys2Proof.Machine.execBellWait src s
  | .bellTake rq q n amount => Sys2Proof.Machine.execBellTake rq q n amount s
  | .bellDebit rq q n amount => Sys2Proof.Machine.execBellDebit rq q n amount s
  | .bellSet rq q n value => Sys2Proof.Machine.execBellSet rq q n value s
  | .bellWakeAll rq q n => Sys2Proof.Machine.execBellWakeAll rq q n s
  | .bellArrive rq device g p => Sys2Proof.Machine.execBellArrive rq device g p s
  | .bellExpectWrite rq q device m v => Sys2Proof.Machine.execBellExpectWrite rq q device m v s
  | .syncEntryArm rq q e v => Sys2Proof.Machine.execSyncEntryArm rq q e v s
  | .bellHang q what => Sys2Proof.Machine.execBellHang q what s
  | .bellSnapTake rq q => Sys2Proof.Machine.execBellSnapTake rq q s
  | .bellSnapDone q => Sys2Proof.Machine.execBellSnapDone q s
  | .alleyRaise rq q l => Sys2Proof.Machine.execAlleyRaise rq q l s
  | .alleyEnWrite rq q l v => Sys2Proof.Machine.execAlleyEnWrite rq q l v s
  | .cwGrpCtrlWrite rq g v => Sys2Proof.Machine.execCwGrpCtrlWrite rq g v s
  | .cwLinkEnable rq l v => Sys2Proof.Machine.execCwLinkEnable rq l v s
  | .cwLinkRetrain rq l v => Sys2Proof.Machine.execCwLinkRetrain rq l v s
  | .cwLinkTrained l width rate => Sys2Proof.Machine.execCwLinkTrained l width rate s
  | .cwVersion l => Sys2Proof.Machine.execCwVersion l s
  | .cwFlit l seq crcOk msgs => Sys2Proof.Machine.execCwFlit l seq crcOk msgs s
  | .cwWrite l => Sys2Proof.Machine.execCwWrite l s
  | .cwRead l => Sys2Proof.Machine.execCwRead l s
  | .cwReadData l => Sys2Proof.Machine.execCwReadData l s
  | .cwAck l => Sys2Proof.Machine.execCwAck l s
  | .cwBell l => Sys2Proof.Machine.execCwBell l s
  | .cwReadTimeout l tag => Sys2Proof.Machine.execCwReadTimeout l tag s
  | .cwTagRelease l tag => Sys2Proof.Machine.execCwTagRelease l tag s
  | .cwLaneFailure l lane => Sys2Proof.Machine.execCwLaneFailure l lane s
  | .cwNarrowed l trained => Sys2Proof.Machine.execCwNarrowed l trained s
  | .cwLinkDown l => Sys2Proof.Machine.execCwLinkDown l s
  | .cwRpCfgRead rq g answer => Sys2Proof.Machine.execCwRpCfgRead rq g answer s
  | .cwRpCfgWrite rq g v => Sys2Proof.Machine.execCwRpCfgWrite rq g v s
  | .cwRpUpstreamRequest g r => Sys2Proof.Machine.execCwRpUpstreamRequest g r s
  | .cwRpLinkDown g => Sys2Proof.Machine.execCwRpLinkDown g s
  | .ethFrameReceive q sub frame corrected uncorrectable => Sys2Proof.Machine.execEthFrameReceive q sub frame corrected uncorrectable s
  | .ghLookup q mismatch => Sys2Proof.Machine.execGhLookup q mismatch s
  | .rxDeliver r far => Sys2Proof.Machine.execRxDeliver r far s
  | .ethSubportUp q sub => Sys2Proof.Machine.execEthSubportUp q sub s
  | .ethSubportDown q sub => Sys2Proof.Machine.execEthSubportDown q sub s
  | .ethBreakoutWrite rq q v => Sys2Proof.Machine.execEthBreakoutWrite rq q v s
  | .ethTsStep rq q sub v => Sys2Proof.Machine.execEthTsStep rq q sub v s
  | .ghInsert rq q v => Sys2Proof.Machine.execGhInsert rq q v s
  | .ghRemove rq q v => Sys2Proof.Machine.execGhRemove rq q v s
  | .ghPolicerWrite rq q v => Sys2Proof.Machine.execGhPolicerWrite rq q v s
  | .ghPolicerUpdate rq q v => Sys2Proof.Machine.execGhPolicerUpdate rq q v s
  | .tbEnqueue q => Sys2Proof.Machine.execTbEnqueue q s
  | .tbSelect q sub => Sys2Proof.Machine.execTbSelect q sub s
  | .tbNodeWake q level index => Sys2Proof.Machine.execTbNodeWake q level index s
  | .tbFrameSent q sub => Sys2Proof.Machine.execTbFrameSent q sub s
  | .tbWrite rq q v => Sys2Proof.Machine.execTbWrite rq q v s
  | .tbUpdate rq q v => Sys2Proof.Machine.execTbUpdate rq q v s
  | .tbRemove rq q v => Sys2Proof.Machine.execTbRemove rq q v s
  | .tbRead rq q v => Sys2Proof.Machine.execTbRead rq q v s
  | .txrDoorbell f slot v => Sys2Proof.Machine.execTxrDoorbell f slot v s
  | .txEntryFetch r far => Sys2Proof.Machine.execTxEntryFetch r far s
  | .rxqDoorbell f slot v => Sys2Proof.Machine.execRxqDoorbell f slot v s
  | .carterCtxWrite rq q v => Sys2Proof.Machine.execCarterCtxWrite rq q v s
  | .carterCtxUpdate rq q v => Sys2Proof.Machine.execCarterCtxUpdate rq q v s
  | .carterCtxRead rq q v => Sys2Proof.Machine.execCarterCtxRead rq q v s
  | .carterConnect src => Sys2Proof.Machine.execCarterConnect src s
  | .carterReset src => Sys2Proof.Machine.execCarterReset src s
  | .carterFail rq q v => Sys2Proof.Machine.execCarterFail rq q v s
  | .carterRegionWrite rq q v => Sys2Proof.Machine.execCarterRegionWrite rq q v s
  | .carterRegionInval src => Sys2Proof.Machine.execCarterRegionInval src s
  | .carterSqDoorbell src => Sys2Proof.Machine.execCarterSqDoorbell src s
  | .carterRqDoorbell src => Sys2Proof.Machine.execCarterRqDoorbell src s
  | .carterCqDoorbell src => Sys2Proof.Machine.execCarterCqDoorbell src s
  | .carterHelloTimer n => Sys2Proof.Machine.execCarterHelloTimer n s
  | .carterConnectTimeout n => Sys2Proof.Machine.execCarterConnectTimeout n s
  | .hello q => Sys2Proof.Machine.execHello q s
  | .helloAck q => Sys2Proof.Machine.execHelloAck q s
  | .helloRefuse q => Sys2Proof.Machine.execHelloRefuse q s
  | .carterOrderWrite n far => Sys2Proof.Machine.execCarterOrderWrite n far s
  | .carterOrderRead n far => Sys2Proof.Machine.execCarterOrderRead n far s
  | .carterOrderSend n far => Sys2Proof.Machine.execCarterOrderSend n far s
  | .carterFetchAdd n far => Sys2Proof.Machine.execCarterFetchAdd n far s
  | .carterSwap n far => Sys2Proof.Machine.execCarterSwap n far s
  | .carterCmpSwap n far => Sys2Proof.Machine.execCarterCmpSwap n far s
  | .carterTallyAdd n far => Sys2Proof.Machine.execCarterTallyAdd n far s
  | .carterOrderBell n far => Sys2Proof.Machine.execCarterOrderBell n far s
  | .carterOrderNop n far => Sys2Proof.Machine.execCarterOrderNop n far s
  | .carterTriggerFire n far => Sys2Proof.Machine.execCarterTriggerFire n far s
  | .carterRxWrite q => Sys2Proof.Machine.execCarterRxWrite q s
  | .carterRxReadReq q far => Sys2Proof.Machine.execCarterRxReadReq q far s
  | .carterRxReadResp q => Sys2Proof.Machine.execCarterRxReadResp q s
  | .carterRxSend q far => Sys2Proof.Machine.execCarterRxSend q far s
  | .carterRxAtomic q => Sys2Proof.Machine.execCarterRxAtomic q s
  | .carterRxAtomicResp q => Sys2Proof.Machine.execCarterRxAtomicResp q s
  | .carterRxBell q => Sys2Proof.Machine.execCarterRxBell q s
  | .carterRxAck q => Sys2Proof.Machine.execCarterRxAck q s
  | .carterRto n psn => Sys2Proof.Machine.execCarterRto n psn s
  | .carterPathRetry n path => Sys2Proof.Machine.execCarterPathRetry n path s
  | .carterAckTimer n => Sys2Proof.Machine.execCarterAckTimer n s
  | .carterOndemandWithdraw n => Sys2Proof.Machine.execCarterOndemandWithdraw n s
  | .carterRetryAfterExpire n => Sys2Proof.Machine.execCarterRetryAfterExpire n s
  | .carterCompletionWrite n => Sys2Proof.Machine.execCarterCompletionWrite n s
  | .ledgerSqDoorbell f slot v => Sys2Proof.Machine.execLedgerSqDoorbell f slot v s
  | .ledgerCqDoorbell f slot v => Sys2Proof.Machine.execLedgerCqDoorbell f slot v s
  | .ledgerFetch n far => Sys2Proof.Machine.execLedgerFetch n far s
  | .ledgerRead n idx bad mismatch => Sys2Proof.Machine.execLedgerRead n idx bad mismatch s
  | .ledgerWrite n idx mismatch far => Sys2Proof.Machine.execLedgerWrite n idx mismatch far s
  | .ledgerFlush n idx => Sys2Proof.Machine.execLedgerFlush n idx s
  | .ledgerWriteZeroes n idx => Sys2Proof.Machine.execLedgerWriteZeroes n idx s
  | .ledgerDiscard n idx => Sys2Proof.Machine.execLedgerDiscard n idx s
  | .ledgerCompareAndWrite n idx bad mismatch far => Sys2Proof.Machine.execLedgerCompareAndWrite n idx bad mismatch far s
  | .ledgerSanitise n idx => Sys2Proof.Machine.execLedgerSanitise n idx s
  | .ledgerFormat n idx => Sys2Proof.Machine.execLedgerFormat n idx s
  | .ledgerGetFeatures n idx => Sys2Proof.Machine.execLedgerGetFeatures n idx s
  | .ledgerSetFeatures n idx => Sys2Proof.Machine.execLedgerSetFeatures n idx s
  | .ledgerSetPowerState n idx => Sys2Proof.Machine.execLedgerSetPowerState n idx s
  | .ledgerDurable n idx r j => Sys2Proof.Machine.execLedgerDurable n idx r j s
  | .ledgerReplicaTimeout q vol r => Sys2Proof.Machine.execLedgerReplicaTimeout q vol r s
  | .ledgerPieceRepair vol k => Sys2Proof.Machine.execLedgerPieceRepair vol k s
  | .ledgerSanitiseRegionDone vol => Sys2Proof.Machine.execLedgerSanitiseRegionDone vol s
  | .ledgerCompletion n idx => Sys2Proof.Machine.execLedgerCompletion n idx s
  | .ledgerOpCreate rq q v => Sys2Proof.Machine.execLedgerOpCreate rq q v s
  | .ledgerOpDelete rq q v => Sys2Proof.Machine.execLedgerOpDelete rq q v s
  | .ledgerOpQueueReset rq q v => Sys2Proof.Machine.execLedgerOpQueueReset rq q v s
  | .ledgerOpPause rq q v => Sys2Proof.Machine.execLedgerOpPause rq q v s
  | .ledgerOpResume rq q v => Sys2Proof.Machine.execLedgerOpResume rq q v s
  | .ledgerOpRead rq q v => Sys2Proof.Machine.execLedgerOpRead rq q v s
  | .bar2Access f off data len poison => Sys2Proof.Machine.execBar2Access f off data len poison s
  | .kioskH2dTailWrite f v => Sys2Proof.Machine.execKioskH2dTailWrite f v s
  | .kioskD2hHeadWrite f v => Sys2Proof.Machine.execKioskD2hHeadWrite f v s
  | .kioskD2hPost f => Sys2Proof.Machine.execKioskD2hPost f s
  | .kioskBeatTick f => Sys2Proof.Machine.execKioskBeatTick f s
  | .driverLostHeartbeat f => Sys2Proof.Machine.execDriverLostHeartbeat f s
  | .driverHoldExpire f => Sys2Proof.Machine.execDriverHoldExpire f s
  | .kioskOpen f => Sys2Proof.Machine.execKioskOpen f s
  | .kioskClose f => Sys2Proof.Machine.execKioskClose f s
  | .commCreate f handle far => Sys2Proof.Machine.execCommCreate f handle far s
  | .commDestroy f => Sys2Proof.Machine.execCommDestroy f s
  | .keyGenerate f n => Sys2Proof.Machine.execKeyGenerate f n s
  | .keyImport f n far => Sys2Proof.Machine.execKeyImport f n far s
  | .keyDestroy f => Sys2Proof.Machine.execKeyDestroy f s
  | .ctxCreate f n => Sys2Proof.Machine.execCtxCreate f n s
  | .ctxDestroy f => Sys2Proof.Machine.execCtxDestroy f s
  | .ledgerQueueCreate f n slot k => Sys2Proof.Machine.execLedgerQueueCreate f n slot k s
  | .ledgerQueueDelete f => Sys2Proof.Machine.execLedgerQueueDelete f s
  | .ledgerQueueReset f => Sys2Proof.Machine.execLedgerQueueReset f s
  | .rxqCreate f r slot => Sys2Proof.Machine.execRxqCreate f r slot s
  | .txrCreate f r slot => Sys2Proof.Machine.execTxrCreate f r slot s
  | .ringDestroy f => Sys2Proof.Machine.execRingDestroy f s
  | .tollSet f => Sys2Proof.Machine.execTollSet f s
  | .connCreate f n slot q far => Sys2Proof.Machine.execConnCreate f n slot q far s
  | .connDestroy f => Sys2Proof.Machine.execConnDestroy f s
  | .regionRegister f n => Sys2Proof.Machine.execRegionRegister f n s
  | .instanceCreate f asid => Sys2Proof.Machine.execInstanceCreate f asid s
  | .instanceDestroy f => Sys2Proof.Machine.execInstanceDestroy f s
  | .instanceSet f chans => Sys2Proof.Machine.execInstanceSet f chans s
  | .volumeCreate f n => Sys2Proof.Machine.execVolumeCreate f n s
  | .volumeDestroy f => Sys2Proof.Machine.execVolumeDestroy f s
  | .fwActivate f => Sys2Proof.Machine.execFwActivate f s
  | .fwDrainDone addr secs => Sys2Proof.Machine.execFwDrainDone addr secs s
  | .fwDrainTimeout => Sys2Proof.Machine.execFwDrainTimeout s
  | .fwHandoverAdopt => Sys2Proof.Machine.execFwHandoverAdopt s
  | .fwHandoverTimeout => Sys2Proof.Machine.execFwHandoverTimeout s
  | .fwCommitDone => Sys2Proof.Machine.execFwCommitDone s
  | .moduleLoad f asid far => Sys2Proof.Machine.execModuleLoad f asid far s
  | .moduleUnload src => Sys2Proof.Machine.execModuleUnload src s
  | .kernelPeriod => Sys2Proof.Machine.execKernelPeriod s
  | .precinctReset f => Sys2Proof.Machine.execPrecinctReset f s
  | .pfPowerStateWrite p v => Sys2Proof.Machine.execPfPowerStateWrite p v s
  | .hqPerstAssert p => Sys2Proof.Machine.execHqPerstAssert p s
  | .hqPerstDeassert p => Sys2Proof.Machine.execHqPerstDeassert p s
  | .flr f => Sys2Proof.Machine.execFlr f s
  | .bmeClear f => Sys2Proof.Machine.execBmeClear f s
  | .vfEnableClear p => Sys2Proof.Machine.execVfEnableClear p s
  | .hostCompletionTimeout p tag => Sys2Proof.Machine.execHostCompletionTimeout p tag s
  | .hostTagRelease p tag => Sys2Proof.Machine.execHostTagRelease p tag s
  | .invCheckpoint f far => Sys2Proof.Machine.execInvCheckpoint f far s
  | .invCut f k tables far => Sys2Proof.Machine.execInvCut f k tables far s
  | .invShardCopy f k far => Sys2Proof.Machine.execInvShardCopy f k far s
  | .invCopyAhead q id far => Sys2Proof.Machine.execInvCopyAhead q id far s
  | .invStagingTimeout q id => Sys2Proof.Machine.execInvStagingTimeout q id s
  | .invShardDurable f k n other lba failed => Sys2Proof.Machine.execInvShardDurable f k n other lba failed s
  | .invManifestWrite f k others failed => Sys2Proof.Machine.execInvManifestWrite f k others failed s
  | .invRestore f far fetched => Sys2Proof.Machine.execInvRestore f far fetched s
  | .invRestoreResult f k others fetched => Sys2Proof.Machine.execInvRestoreResult f k others fetched s
  | .wmCounterWrite rq q b n v => Sys2Proof.Machine.execWmCounterWrite rq q b n v s
  | .wmChainWrite rq q b v => Sys2Proof.Machine.execWmChainWrite rq q b v s
  | .wmCounterCarry q b n events context asid user => Sys2Proof.Machine.execWmCounterCarry q b n events context asid user s
  | .errorReport det n prec unit detail addr asid => Sys2Proof.Machine.execErrorReport det n prec unit detail addr asid s
  | .errFence rq v => Sys2Proof.Machine.execErrFence rq v s
  | .errRejoin rq v failing => Sys2Proof.Machine.execErrRejoin rq v failing s
  | .errInjArm rq v => Sys2Proof.Machine.execErrInjArm rq v s
  | .errInjDisarm rq v => Sys2Proof.Machine.execErrInjDisarm rq v s
  | .spdmRequest via req flashOk => Sys2Proof.Machine.execSpdmRequest via req flashOk s
  | .hssTreeReady flashOk => Sys2Proof.Machine.execHssTreeReady flashOk s
  | .debugEnable src => Sys2Proof.Machine.execDebugEnable src s
  | .debugDisable src => Sys2Proof.Machine.execDebugDisable src s
  | .ownerInstall src => Sys2Proof.Machine.execOwnerInstall src s
  | .factoryEnable src => Sys2Proof.Machine.execFactoryEnable src s
  | .decommission src => Sys2Proof.Machine.execDecommission src s
  | .rollbackAdvance src => Sys2Proof.Machine.execRollbackAdvance src s
  | .cancel src => Sys2Proof.Machine.execCancel src s
  | .presenceAssert => Sys2Proof.Machine.execPresenceAssert s
  | .presenceHoldDone => Sys2Proof.Machine.execPresenceHoldDone s
  | .presenceTimeout => Sys2Proof.Machine.execPresenceTimeout s
  | .sealOpened => Sys2Proof.Machine.execSealOpened s
  | .capGovernorWindow r => Sys2Proof.Machine.execCapGovernorWindow r s
  | .throttleSet r => Sys2Proof.Machine.execThrottleSet r s
  | .throttleClear r => Sys2Proof.Machine.execThrottleClear r s
  | .emergencyDeclare c r => Sys2Proof.Machine.execEmergencyDeclare c r s
  | .admissionPause r => Sys2Proof.Machine.execAdmissionPause r s
  | .emergencyClear r => Sys2Proof.Machine.execEmergencyClear r s
  | .pointSlewDone => Sys2Proof.Machine.execPointSlewDone s
  | .thermalFence q r => Sys2Proof.Machine.execThermalFence q r s
  | .efuseOpen => Sys2Proof.Machine.execEfuseOpen s
  | .powerOn romOk flashOk => Sys2Proof.Machine.execPowerOn romOk flashOk s
  | .pwrSet src => Sys2Proof.Machine.execPwrSet src s
  | .attnRequest => Sys2Proof.Machine.execAttnRequest s
  | .removeRequest src => Sys2Proof.Machine.execRemoveRequest src s
  | .removeCancel src => Sys2Proof.Machine.execRemoveCancel src s
  | .removeDrainDone => Sys2Proof.Machine.execRemoveDrainDone s
  | .removeDrainTimeout => Sys2Proof.Machine.execRemoveDrainTimeout s
  | .resetNAssert => Sys2Proof.Machine.execResetNAssert s
  | .resetNDeassert romOk flashOk => Sys2Proof.Machine.execResetNDeassert romOk flashOk s
  | .coolantReady r cores stalls failed => Sys2Proof.Machine.execCoolantReady r cores stalls failed s
  | .kernelReady => Sys2Proof.Machine.execKernelReady s
  | .kernelTimeout => Sys2Proof.Machine.execKernelTimeout s
  | .mctpControl bus type body => Sys2Proof.Machine.execMctpControl bus type body s
  | .mctpVendorOpen bus body => Sys2Proof.Machine.execMctpVendorOpen bus body s
  | .pldmGetSensorReading bus id => Sys2Proof.Machine.execPldmGetSensorReading bus id s
  | .pldmUpdateComponent bus comp data => Sys2Proof.Machine.execPldmUpdateComponent bus comp data s
  | .pldmVerifyComplete bus => Sys2Proof.Machine.execPldmVerifyComplete bus s
  | .pldmActivateFirmware bus romOk flashOk => Sys2Proof.Machine.execPldmActivateFirmware bus romOk flashOk s
  | .hostLinkDown p => Sys2Proof.Machine.execHostLinkDown p s
  | .hostLinkUp p width rate => Sys2Proof.Machine.execHostLinkUp p width rate s
  | .rootPortLinkUp g width rate => Sys2Proof.Machine.execRootPortLinkUp g width rate s
  | .irqCoalesceTimeout n => Sys2Proof.Machine.execIrqCoalesceTimeout n s
  | .jtagAccess op => Sys2Proof.Machine.execJtagAccess op s
  | .replicaReturn vol r => Sys2Proof.Machine.execReplicaReturn vol r s
  | .i3cDynamicAddress addr => Sys2Proof.Machine.execI3cDynamicAddress addr s

end Sys2Proof.Machine
end

