-- ==== Sys2Proof/Machine/Idle.lean ====
section
/-!
DEFINITION. What time alone does: one tick of 40 ns of the Watch post reference domain, in which the block takes no command.
-/
namespace Sys2Proof.Machine

/-- Ticks of 40 ns in one second. -/
abbrev ticksPerSecond : Nat := 25000000

/-- A register field that counts seconds down, one less; 0 stays 0. -/
def State.countDown (s : State) (r : Reg) (f : Fld) : State := s.fset r f (s.fget r f - 1)

/-- The fields that count seconds: HOLD_LEFT_S of every function (R520), and WINDOW_LEFT_S of the presence window (R577). -/
def State.secondPasses (s : State) : State :=
  let s := forNat 512 s fun s f => s.countDown ⟨.fwFuncState, f, 0⟩ F.fwFuncState_HOLD_LEFT_S
  s.countDown ⟨.secPresence, 0, 0⟩ F.secPresence_WINDOW_LEFT_S

/-- A tick: the timestamp counters advance (R354), and once a second the countdowns. -/
def State.idle (s : State) : State :=
  let s := ({ s with tick := s.tick + 1 } : State).tsTick
  if s.tick % ticksPerSecond = 0 then s.secondPasses else s

end Sys2Proof.Machine
end

