-- ==== Sys2Proof/Machine/Canon.lean ====
section
/-!
DEFINITION. The canonical form of memory, and what it means that a state keeps another's memory and registers.
-/
namespace Sys2Proof.Machine

/-- Memory in canonical form: addresses strictly rising, and no entry equal to what an unlisted address reads as. -/
abbrev Memory.wf (m : Tab Byte) : Prop := m.Pairwise (fun a b => a.1 < b.1) ∧ ∀ p ∈ m, p.2 ≠ 0#8

/-- The memory of a state is in canonical form. -/
abbrev State.memWf (s : State) : Prop := Memory.wf s.home.mem

/-- Every byte of memory outside `n` bytes from `a` reads in `t` as it does in `s`. -/
def State.memBut (s t : State) (a n : Nat) : Prop := ∀ x, x < a ∨ a + n ≤ x → t.byte x = s.byte x

/-- Every byte of memory reads in `t` as it does in `s`. -/
def State.memSame (s t : State) : Prop := ∀ x, t.byte x = s.byte x

/-- Every register but those of the list reads in `t` as it does in `s`. -/
def State.regsBut (s t : State) (rs : List Reg) : Prop := ∀ r, r ∉ rs → t.rd r = s.rd r

/-- Every register reads in `t` as it does in `s`. -/
def State.regsSame (s t : State) : Prop := ∀ r, t.rd r = s.rd r

end Sys2Proof.Machine
end

