-- ==== Sys2Proof/WellFormed.lean ====
section
/-!
DEFINITION. Which commands a sender can form: the sizes and numbers that the operands' types leave free. The machine is total on the
others too; nothing in it rests on these checks.
-/
namespace Sys2Proof

/-- Sizes of a register-space access (R50). -/
def sizeOk (n : Nat) : Bool := decide (n = 1) || decide (n = 2) || decide (n = 4) || decide (n = 8)

/-- A home access lies in one line of 128 bytes, and a write carries its bytes (R37). -/
def HomeAccess.wellFormed (a : HomeAccess) : Bool :=
  decide (1 ≤ a.len) && decide (a.addr / 128 = (a.addr + a.len - 1) / 128) && decide (a.asid < 4096) &&
  (match a.data with | some b => decide (b.length = a.len) | none => !a.poison) && a.upset.all fun i => decide (i < 144)

/-- An access to be translated is of a 12-bit ASID. -/
def VAccess.wellFormed (a : VAccess) : Bool := decide (a.asid < 4096)

/-- A Causeway message has the fields' widths and carries at most 256 bytes (Table 13.1). -/
def CwMsg.wellFormed (m : CwMsg) : Bool :=
  decide (m.type < 256) && decide (m.flags < 256) && decide (m.length < 2 ^ 16) && decide (m.tag < 2 ^ 16) && decide (m.status < 2 ^ 16) &&
  decide (m.addr < 2 ^ 64) && decide (m.data.length ≤ 256)

/-- An access at a place has a size that its place admits. -/
def Place.sizeOk : Place → Nat → Bool
  | .config _ _, n => decide (n = 1) || decide (n = 2) || decide (n = 4)
  | _, n => Sys2Proof.sizeOk n

/-- The operands of a command are ones that a sender can form. -/
def Instr.wellFormed : Instr → Bool
  | .registerWrite p b _ => p.sizeOk b.length
  | .readClear p n _ => p.sizeOk n
  | .multiTargetRead _ _ n _ => sizeOk n
  | .squareAccess _ a => a.wellFormed
  | .warehouseAccess _ a => a.wellFormed
  | .blvdTransfer q p _ a _ => decide (q ≠ p) && a.wellFormed
  | .blvdRetrained q p => decide (q ≠ p)
  | .blvdRelayDrainDone q p => decide (q ≠ p)
  | .warehouseScrub _ line upset _ => decide (line < 2 ^ 29) && upset.all fun i => decide (i < 144)
  | .surveyorTranslate _ a => a.wellFormed
  | .cwFlit _ _ _ ms => ms.all CwMsg.wellFormed
  | .bar2Access _ _ d n _ => decide (1 ≤ n) && (match d with | some b => decide (b.length = n) | none => true)
  | .invManifestWrite _ _ b _ => decide (b.length % 64 = 0)
  | .txrDoorbell _ slot _ => decide (slot < 65536)
  | .rxqDoorbell _ slot _ => decide (slot < 65536)
  | .ledgerSqDoorbell _ slot _ => decide (slot < 65536)
  | .ledgerCqDoorbell _ slot _ => decide (slot < 65536)
  | .coolantReady _ _ _ failed => failed.Nodup
  | _ => true

end Sys2Proof
end

