-- ==== Sys2Proof/Claims.lean ====
section
/-!
DEFINITION. The terms that the statements of Certificates/ are written in: when a command is enabled, and what a next state keeps.
-/
namespace Sys2Proof.Machine

/-! ### Outcomes -/

/-- The command completes, and its next state has a property. -/
def Completes (o : Host.Outcome State Fault Refusal) (p : State → Prop) : Prop := ∃ t, o = .next t ∧ p t

/-! ### Hawker cores -/

/-- Core `n` of a table of cores. -/
def coreIn (k : Tab Core) (n : Nat) : Core := (look k n).getD {}

/-- Core `n` can begin an instruction, its fetch succeeds, and no injection waits for it. -/
def State.ready (s : State) (n : CoreNo) : Prop :=
  s.coreRuns n.val = true ∧ s.fetchFails n.val = false ∧ s.injAt 0x09 (coreUnit n.val) (fun _ => true) = none

/-- The state in which core `n` has fetched the word `w`. -/
def State.fetchedBy (s : State) (n : CoreNo) (w : BitVec 32) : State := s.setCore n.val ((s.core n.val).fetched w)

/-- Nothing of `s` changes but core `n`, which becomes `c`. -/
def onlyCore (s : State) (n : CoreNo) (c : Core) (k : Tab Core) : Prop :=
  coreIn k n.val = c ∧ ∀ m, m ≠ n.val → coreIn k m = coreIn s.cores m

/-- An instruction of core `n` completes with core `n` as `c` and everything else as in `s`, is counted, and goes on at `pc`. -/
def Retires (o : Host.Outcome State Fault Refusal) (s : State) (n : CoreNo) (pc : W64) (c : Core) : Prop :=
  ∃ k : Tab Core, o = .next (({ s with cores := k } : State).retire n.val pc) ∧ onlyCore s n c k

/-- An instruction of core `n` raises an exception: it has fetched its word, and nothing else has changed before the entry. -/
def Raises (o : Host.Outcome State Fault Refusal) (s : State) (n : CoreNo) (w : BitVec 32) (code : Nat) (eaddr : W64) : Prop :=
  o = .next ((s.fetchedBy n w).enter n.val code eaddr (s.core n.val).pc 4)

/-! ### Stalls with a task ring -/

/-- What a row that runs the task of one opcode does: the head task, once it may start and waits for nothing, runs as `op` says where its
descriptor is well formed, and completes MALFORMED where it is not; a task of another opcode of the stall's kind, or none, is left alone.
`fin` is what the row adds at the end. -/
def TaskRow (s : State) (st kind code codes : Nat) (ok : State → Bytes → Bool) (op : State → Bytes → TaskOp) (fin : State → State)
    (o : Host.Outcome State Fault Refusal) : Prop :=
  stallKind st = kind → stallOk st = true →
  (∀ t, s.startable st = some t → tOp t.desc = code → s.tCommonOk st t.desc = true → ok s t.desc = true →
    s.injAt 0x08 st (fun _ => true) = none → tWaitCtr t.desc = 0xFFFF →
    o = .next (fin ((s.setStallSt st 2).runTask st t (op s t.desc)))) ∧
  (∀ t, s.startable st = some t → tOp t.desc = code → ok s t.desc = false → o = .next (fin ((s.setStallSt st 2).taskMalformed st))) ∧
  (∀ t, s.startable st = some t → tOp t.desc ≠ code → 1 ≤ tOp t.desc → tOp t.desc ≤ codes → o = .next (fin s)) ∧
  (s.startable st = none → o = .next (fin s))

end Sys2Proof.Machine
end

