-- ==== Sys2Proof/Safety.lean ====
section
/-!
DEFINITION. What a safe run is: every command is answered by a next state, since the spec gives every command of its table an effect.
-/
namespace Sys2Proof.Machine

/-- The states reached from `s` by steps, newest last; it stops where a step answers no next state. -/
def runFrom : Nat → State → List State
  | 0, s => [s]
  | k + 1, s =>
    match step s with
    | .next t => s :: runFrom k t
    | _ => [s]

/-- An outcome is a next state. -/
def answered (o : Host.Outcome State Fault Refusal) : Prop := ∃ t, o = .next t

/-- A run of `k` steps from `s` is safe: no step of it faults or refuses. -/
def SafeRun (k : Nat) (s : State) : Prop := ∀ t ∈ runFrom k s, answered (step t)

end Sys2Proof.Machine
end

