-- ==== Sys2Proof/Certificates/Slice0/Obligations.lean ====
section
/-!
DEFINITION. The statements for the provers.
-/
open Sys2Proof Sys2Proof.Machine

/-- What R484 makes of the register numbers: s0 reads 0 and discards writes, any other register reads what was written to it, and a write
changes no register of another place of the file, no other shared register and no other bank of s7. -/
def Obligations.HawkerRegisterFile : Prop := ∀ (c : Core) (r q : HReg) (v : W64),
  c.get 0 = 0 ∧ c.set 0 v = c ∧ (r ≠ 0 → (c.set r v).get r = v) ∧ (q ≠ r → (c.set r v).get q = c.get q) ∧
  (r ≠ 7 → (c.set r v).s7k = c.s7k ∧ (c.set r v).s7u = c.s7u) ∧
  (c.kernel = true → (c.set 7 v).s7u = c.s7u) ∧ (c.kernel = false → (c.set 7 v).s7k = c.s7k) ∧ (c.set r v).pc = c.pc ∧ (c.set r v).psr = c.psr

/-- R485: the frames of the windowed file, what the window of a frame shows, and the slide of 16. -/
def Obligations.HawkerWindowFrames : Prop := ∀ (c : Core) (i : Nat) (kernel : Bool), i < 8 → c.cwp < 31 →
  let t := c.slide kernel
  let at_ (frame r : Nat) : W64 := lookD 0 c.file (frame * 16 + r)
  let next := (c.cwp + 1) % 31
  c.get (BitVec.ofNat 5 (8 + i)) = at_ c.cwp i ∧ c.get (BitVec.ofNat 5 (16 + i)) = at_ c.cwp (8 + i) ∧ c.get (BitVec.ofNat 5 (24 + i)) = at_ next i ∧
  t.cwp = next ∧ t.cwp < 31 ∧ t.file = c.file ∧ t.get (BitVec.ofNat 5 (8 + i)) = c.get (BitVec.ofNat 5 (24 + i)) ∧
  t.userFrame next = !kernel ∧ (∀ f, f ≠ next → t.userFrame f = c.userFrame f) ∧
  (∀ r : HReg, 7 < r.toNat → t.unslide.get r = c.get r)

/-- Table 20.5, ALU instructions: each answers a next state in which `rd` holds the result, PC is the address of the next instruction, and
nothing else of the block has changed but the counting of the instruction. Table 20.5, immediate instructions, with the same frame: IMM16 is
sign-extended in ADDI, SLTI and LI's IMM21, and zero-extended in the logical ones. -/
def Obligations.HawkerArithmetic : Prop :=
  (∀ (s : State) (n : CoreNo) (rd a b : HReg), s.ready n →
  let c := s.core n.val
  let x := c.get a
  let y := c.get b
  let out (func : BitVec 6) (v : W64) := (c.fetched (formA 0x01 rd a b func)).set rd v
  Retires (exec (.aluAdd n rd a b) s) s n c.next (out 0x00 (BitVec.ofNat 64 (x.toNat + y.toNat))) ∧
  Retires (exec (.aluSub n rd a b) s) s n c.next (out 0x01 (BitVec.ofInt 64 ((x.toNat : Int) - y.toNat))) ∧
  Retires (exec (.aluAnd n rd a b) s) s n c.next (out 0x02 (x &&& y)) ∧
  Retires (exec (.aluOr n rd a b) s) s n c.next (out 0x03 (x ||| y)) ∧
  Retires (exec (.aluXor n rd a b) s) s n c.next (out 0x04 (x ^^^ y)) ∧
  Retires (exec (.sll n rd a b) s) s n c.next (out 0x05 (BitVec.ofNat 64 (x.toNat * 2 ^ (y.toNat % 64)))) ∧
  Retires (exec (.srl n rd a b) s) s n c.next (out 0x06 (BitVec.ofNat 64 (x.toNat / 2 ^ (y.toNat % 64)))) ∧
  Retires (exec (.sra n rd a b) s) s n c.next (out 0x07 (BitVec.ofInt 64 (x.toInt / 2 ^ (y.toNat % 64)))) ∧
  Retires (exec (.slt n rd a b) s) s n c.next (out 0x08 (if x.toInt < y.toInt then 1 else 0)) ∧
  Retires (exec (.sltu n rd a b) s) s n c.next (out 0x09 (if x.toNat < y.toNat then 1 else 0)) ∧
  Retires (exec (.mul n rd a b) s) s n c.next (out 0x0A (BitVec.ofNat 64 (x.toNat * y.toNat))) ∧
  Retires (exec (.mulhu n rd a b) s) s n c.next (out 0x0B (BitVec.ofNat 64 (x.toNat * y.toNat / 2 ^ 64))) ∧
  Retires (exec (.divu n rd a b) s) s n c.next (out 0x0C (if y = 0 then BitVec.allOnes 64 else BitVec.ofNat 64 (x.toNat / y.toNat))) ∧
  Retires (exec (.remu n rd a b) s) s n c.next (out 0x0D (if y = 0 then x else BitVec.ofNat 64 (x.toNat % y.toNat))) ∧
  Retires (exec (.div n rd a b) s) s n c.next (out 0x0E (if y = 0 then BitVec.allOnes 64 else BitVec.ofInt 64 (x.toInt.tdiv y.toInt))) ∧
  Retires (exec (.rem n rd a b) s) s n c.next (out 0x0F (if y = 0 then x else BitVec.ofInt 64 (x.toInt.tmod y.toInt)))) ∧
  (∀ (s : State) (n : CoreNo) (rd a : HReg) (i : BitVec 16) (sh : BitVec 6) (l : BitVec 21),
  s.ready n →
  let c := s.core n.val
  let x := c.get a
  let out (op : BitVec 6) (f : BitVec 16) (v : W64) := (c.fetched (formB op rd a f)).set rd v
  Retires (exec (.addi n rd a i) s) s n c.next (out 0x02 i (BitVec.ofInt 64 (x.toInt + i.toInt))) ∧
  Retires (exec (.andi n rd a i) s) s n c.next (out 0x03 i (x &&& BitVec.ofNat 64 i.toNat)) ∧
  Retires (exec (.ori n rd a i) s) s n c.next (out 0x04 i (x ||| BitVec.ofNat 64 i.toNat)) ∧
  Retires (exec (.xori n rd a i) s) s n c.next (out 0x05 i (x ^^^ BitVec.ofNat 64 i.toNat)) ∧
  Retires (exec (.slli n rd a sh) s) s n c.next (out 0x06 (sh.zeroExtend 16) (BitVec.ofNat 64 (x.toNat * 2 ^ sh.toNat))) ∧
  Retires (exec (.srli n rd a sh) s) s n c.next (out 0x07 (sh.zeroExtend 16) (BitVec.ofNat 64 (x.toNat / 2 ^ sh.toNat))) ∧
  Retires (exec (.srai n rd a sh) s) s n c.next (out 0x08 (sh.zeroExtend 16) (BitVec.ofInt 64 (x.toInt / 2 ^ sh.toNat))) ∧
  Retires (exec (.slti n rd a i) s) s n c.next (out 0x09 i (if x.toInt < i.toInt then 1 else 0)) ∧
  Retires (exec (.shori n rd a i) s) s n c.next (out 0x0A i (BitVec.ofNat 64 (x.toNat * 65536 + i.toNat))) ∧
  Retires (exec (.li n rd l) s) s n c.next ((c.fetched (formE 0x0B rd l)).set rd (BitVec.ofInt 64 l.toInt)))

/-- Loads: where the access is granted, `rd` takes the number loaded, extended as Table 20.5 says, and PC goes on; where it is not, the
exception of the access is raised with the address in EADDR (R502, R504). R505, R271: a load that is granted in a Square or a Warehouse
gives the bytes of memory where the core holds no copy of them and the read finds no poison, whatever free choice the caches make; it fails
with LOAD_FAULT where the MPU denies it or no memory stands there, and with POISON where the bytes are poisoned. -/
def Obligations.HawkerLoads : Prop :=
  (∀ (s : State) (n : CoreNo) (rd a : HReg) (i : BitVec 16), s.ready n →
  let c := s.core n.val
  let at_ := c.get a + i.signExtend 64
  let row (c' : Instr) (op : BitVec 6) (size : Nat) (ext : Nat → W64) : Prop :=
    (∀ t b, (s.fetchedBy n (formB op rd a i)).coreLoad n at_ size = (t, .ok b) →
      exec c' s = .next ((t.setCore n.val ((t.core n.val).set rd (ext (leNat b)))).retire n.val c.next)) ∧
    (∀ t e, (s.fetchedBy n (formB op rd a i)).coreLoad n at_ size = (t, .error e) →
      exec c' s = .next (t.enter n.val e at_ c.pc 4)) ∧
    (at_.toNat % size ≠ 0 → Raises (exec c' s) s n (formB op rd a i) 0x04 at_)
  row (.ld n rd a i) 0x10 8 (BitVec.ofNat 64) ∧ row (.lw n rd a i) 0x11 4 (BitVec.ofNat 64) ∧
  row (.lws n rd a i) 0x12 4 (fun v => (BitVec.ofNat 32 v).signExtend 64) ∧
  row (.lh n rd a i) 0x13 2 (BitVec.ofNat 64) ∧ row (.lb n rd a i) 0x14 1 (BitVec.ofNat 64)) ∧
  (∀ (s : State) (n : CoreNo) (addr : W64) (size : Nat),
  let c := s.core n.val
  let a := addr.toNat
  size ∈ [1, 2, 4, 8] → a % size = 0 → inRegSpace a = false →
  (a < 2 ^ 57 → c.permits a 1 = true → s.reaches (coreReq n.val) a size = true → c.cached a size = none →
    let r := (s.useFresh 1).readMem 0xFF (coreReq n.val) 0 a size
    (s.coreLoad n addr size).2 = if r.2.2 then .error 0x0C else .ok r.2.1) ∧
  (2 ^ 57 ≤ a ∨ c.permits a 1 = false ∨ s.reaches (coreReq n.val) a size = false → s.coreLoad n addr size = (s, .error 0x05)))

/-- Stores and atomics: where the access is granted the instruction completes, an atomic with the old value in `rd`; where it is not, the
exception of the access is raised (R502, R503). R489, R502, R504: a store that the MPU denies, that no memory answers, or that meets an
active spill area raises STORE_FAULT and writes nothing; one that is granted is the write of its bytes at the home. -/
def Obligations.HawkerStoresAndAtomics : Prop :=
  (∀ (s : State) (n : CoreNo) (rd a b : HReg) (i : BitVec 16), s.ready n →
  let c := s.core n.val
  let at_ := c.get a + i.signExtend 64
  let row (c' : Instr) (op : BitVec 6) (size : Nat) : Prop :=
    let u := s.fetchedBy n (formB op rd a i)
    (∀ t, u.coreStore n at_ (leBytes size (c.get rd).toNat) = (t, .ok ()) → exec c' s = .next (t.retire n.val c.next)) ∧
    (∀ t e, u.coreStore n at_ (leBytes size (c.get rd).toNat) = (t, .error e) → exec c' s = .next (t.enter n.val e at_ c.pc 4)) ∧
    (at_.toNat % size ≠ 0 → Raises (exec c' s) s n (formB op rd a i) 0x04 at_)
  let amo (c' : Instr) (func : BitVec 6) (f : W64 → Option W64) : Prop :=
    let u := s.fetchedBy n (formA 0x1C rd a b func)
    (∀ t v, u.coreAtomic n (c.get a) f = (t, .ok v) →
      exec c' s = .next ((t.setCore n.val ((t.core n.val).set rd v)).retire n.val c.next)) ∧
    (∀ t e, u.coreAtomic n (c.get a) f = (t, .error e) → exec c' s = .next (t.enter n.val e (c.get a) c.pc 4)) ∧
    ((c.get a).toNat % 8 ≠ 0 → Raises (exec c' s) s n (formA 0x1C rd a b func) 0x04 (c.get a))
  row (.st n rd a i) 0x18 8 ∧ row (.sw n rd a i) 0x19 4 ∧ row (.sh n rd a i) 0x1A 2 ∧ row (.sb n rd a i) 0x1B 1 ∧
  amo (.amoadd n rd a b) 0 (fun old => some (old + c.get b)) ∧ amo (.amoswap n rd a b) 1 (fun _ => some (c.get b)) ∧
  amo (.cas n rd a b) 2 (fun old => if old = c.get rd then some (c.get b) else none)) ∧
  (∀ (s : State) (n : CoreNo) (addr : W64) (b : Bytes),
  let c := s.core n.val
  let a := addr.toNat
  b.length ∈ [1, 2, 4, 8] → a % b.length = 0 → inRegSpace a = false →
  (a < 2 ^ 57 → c.permits a 2 = true → s.reaches (coreReq n.val) a b.length = true → s.inSpill a b.length = false →
    (s.coreStore n addr b).2 = .ok () ∧ (s.coreStore n addr b).1.home = (s.writeMem 0xFF (coreReq n.val) 0 a b false).1.home) ∧
  (2 ^ 57 ≤ a ∨ c.permits a 2 = false ∨ s.reaches (coreReq n.val) a b.length = false ∨ s.inSpill a b.length = true →
    s.coreStore n addr b = (s, .error 0x06)))

/-- Branches and jumps (R507): a taken branch goes to its own address + 4 × DISP, one not taken to the next instruction; a register jump to
a target that is not a multiple of 4 raises MISALIGNED. No register but PC changes. CALL and CALLR with fewer than 30 frames resident
(R492): the return address is stored at s7 − 8 and s7 lowered by 8, the window slides forward and the core goes on at the target; where s7
is not a multiple of 8 or the store fails, STACK_FAULT with s7 in EADDR. With 30 frames resident and a failing spill, SPILL_FAULT. RET
(R493) with the caller's frame resident, ERET (R500) with the previous frame resident, and FLUSHW (R491) with the current frame the only one
resident: their next states, and the exceptions of RET. -/
def Obligations.HawkerControlFlow : Prop :=
  (∀ (s : State) (n : CoreNo) (a b : HReg) (d : BitVec 16) (j : BitVec 26), s.ready n →
  let c := s.core n.val
  let x := c.get a
  let y := c.get b
  let goes (take : Bool) (disp : Int) : W64 := if take then BitVec.ofInt 64 (c.pc + 4 * disp) else BitVec.ofNat 64 (c.pc + 4)
  let row (c' : Instr) (op : BitVec 6) (take : Bool) : Prop :=
    Retires (exec c' s) s n (goes take d.toInt) (c.fetched (formC op a b d))
  row (.beq n a b d) 0x20 (decide (x = y)) ∧ row (.bne n a b d) 0x21 (decide (x ≠ y)) ∧
  row (.blt n a b d) 0x22 (decide (x.toInt < y.toInt)) ∧ row (.bge n a b d) 0x23 (decide (y.toInt ≤ x.toInt)) ∧
  row (.bltu n a b d) 0x24 (decide (x.toNat < y.toNat)) ∧ row (.bgeu n a b d) 0x25 (decide (y.toNat ≤ x.toNat)) ∧
  Retires (exec (.jmp n j) s) s n (goes true j.toInt) (c.fetched (formD 0x29 j)) ∧
  (x.toNat % 4 = 0 → Retires (exec (.jmpr n a) s) s n x (c.fetched (formA 0x2B 0 a 0 0))) ∧
  (x.toNat % 4 ≠ 0 → Raises (exec (.jmpr n a) s) s n (formA 0x2B 0 a 0 0) 0x04 x)) ∧
  (∀ (s : State) (n : CoreNo) (a : HReg) (j : BitVec 26), s.ready n →
  let c := s.core n.val
  let row (c' : Instr) (w : BitVec 32) (target : W64) : Prop :=
    let u := s.fetchedBy n w
    (∀ t, c.nframes < 30 → c.sp.toNat % 8 = 0 → u.coreStore n (c.sp - 8) (leBytes 8 c.next.toNat) = (t, .ok ()) →
      exec c' s = .next ((t.setCore n.val (((t.core n.val).setSp (c.sp - 8)).slide c.kernel)).retire n.val target)) ∧
    (c.nframes < 30 → c.sp.toNat % 8 ≠ 0 → Raises (exec c' s) s n w 0x09 c.sp) ∧
    (∀ t e, c.nframes < 30 → c.sp.toNat % 8 = 0 → u.coreStore n (c.sp - 8) (leBytes 8 c.next.toNat) = (t, .error e) →
      exec c' s = .next (t.enter n.val 0x09 c.sp c.pc 4)) ∧
    (∀ t at_, 30 ≤ c.nframes → u.spill n.val false = .error (t, at_) → exec c' s = .next (t.enter n.val 0x07 (BitVec.ofNat 64 at_) c.pc 4))
  row (.call n j) (formD 0x28 j) (BitVec.ofInt 64 (c.pc + 4 * j.toInt)) ∧
  ((c.get a).toNat % 4 = 0 → row (.callr n a) (formA 0x2A 0 a 0 0) (c.get a)) ∧
  ((c.get a).toNat % 4 ≠ 0 → Raises (exec (.callr n a) s) s n (formA 0x2A 0 a 0 0) 0x04 (c.get a))) ∧
  (∀ (s : State) (n : CoreNo), s.ready n →
  let c := s.core n.val
  let u := s.fetchedBy n (formA 0x2C 0 0 0 0)
  (∀ t b, c.sp.toNat % 8 = 0 → u.coreLoad n c.sp 8 = (t, .ok b) → 2 ≤ (t.core n.val).nframes →
    (leNat b) % 2 ^ 64 % 4 = 0 →
    exec (.ret n) s = .next ((t.setCore n.val ((t.core n.val).unslide.setSp (c.sp + 8))).retire n.val (BitVec.ofNat 64 (leNat b)))) ∧
  (∀ t b, c.sp.toNat % 8 = 0 → u.coreLoad n c.sp 8 = (t, .ok b) → 2 ≤ (t.core n.val).nframes →
    (leNat b) % 2 ^ 64 % 4 ≠ 0 → exec (.ret n) s = .next (t.enter n.val 0x04 (BitVec.ofNat 64 (leNat b)) c.pc 4)) ∧
  (c.sp.toNat % 8 ≠ 0 → Raises (exec (.ret n) s) s n (formA 0x2C 0 0 0 0) 0x09 c.sp) ∧
  (c.kernel = true → 2 ≤ c.nframes →
    Retires (exec (.eret n) s) s n c.epc
      { (c.fetched (formF 0x30 0 0 0 5)).unslide with kernel := nbit c.epsr.toNat 0, ie := nbit c.epsr.toNat 1 }) ∧
  (c.kernel = true → c.nframes = 1 → Retires (exec (.flushw n) s) s n c.next (c.fetched (formF 0x30 0 0 0 10))) ∧
  (c.kernel = false → Raises (exec (.eret n) s) s n (formF 0x30 0 0 0 5) 0x03 0 ∧
    Raises (exec (.flushw n) s) s n (formF 0x30 0 0 0 10) 0x03 0))

/-- R499: exception entry with fewer than 30 frames resident saves PC in EPC and PSR in EPSR, writes ECAUSE and EADDR, sets MODE to kernel
and IE to 0, slides forward by 16 into a kernel frame, and goes on at VBASE + 64 × ECAUSE. No memory but the counting changes. R488:
exception entry with 30 frames resident whose spill finds no room halts the core with a double fault; the record is of class 4 for a
Guildhall core. -/
def Obligations.HawkerExceptions : Prop :=
  (∀ (s : State) (n : CoreNo) (code : Nat) (eaddr : W64) (epc slot : Nat),
  (s.core n.val).nframes < 30 → code < 256 →
  let c := s.core n.val
  ∃ u : State, s.enter n.val code eaddr epc slot = u.coreEvent n.val slot 1 ∧ u = { s with cores := u.cores, senders := u.senders } ∧
    (∀ m, m ≠ n.val → u.core m = s.core m) ∧
    let d := u.core n.val
    d.epc = BitVec.ofNat 64 epc ∧ d.epsr = c.psr ∧ d.ecause = BitVec.ofNat 64 code ∧ d.eaddr = eaddr ∧ d.kernel = true ∧ d.ie = false ∧
    d.cwp = (c.cwp + 1) % 31 ∧ d.nframes = c.nframes + 1 ∧ d.userFrame d.cwp = false ∧ d.pc = (c.vbase.toNat + 64 * code) % 2 ^ 64 ∧
    d.file = c.file ∧ d.shared = c.shared ∧ d.s7k = c.s7k ∧ d.s7u = c.s7u ∧ d.posts = c.posts ∧ d.vbase = c.vbase ∧ d.ien = c.ien) ∧
  (∀ (s : State) (n : CoreNo) (code : Nat) (eaddr : W64) (epc slot : Nat) (t : State) (at_ : Nat),
  30 ≤ (s.core n.val).nframes → s.spill n.val true = .error (t, at_) →
  s.enter n.val code eaddr epc slot = t.coreFatal n.val false ∧
  (n.val < 16 → s.enter n.val code eaddr epc slot =
    (t.setCore n.val { t.core n.val with halted := true }).report 4 0x09 0xFF (coreUnit n.val) 0 0 0 false))

/-- MFC and MTC (Table 20.6): MFC of any selector but CORE_ID is privileged, a reserved selector raises ILLEGAL with the word in EADDR, and
in kernel mode MFC puts the control register in `rd` and MTC the value in the control register. R490: an MTC of a spill register completes
when the area lies in one Square or Warehouse, is 128-byte aligned, holds SPT, and overlaps no active area; otherwise it raises ILLEGAL and
changes nothing. -/
def Obligations.HawkerControlRegisters : Prop :=
  (∀ (s : State) (n : CoreNo) (r : HReg) (sel : BitVec 8), s.ready n →
  let c := s.core n.val
  let wf := formF 0x30 r 0 sel 0
  let wt := formF 0x30 0 r sel 1
  (∀ v, c.kernel = true ∨ sel = 0x0D → c.control n.val sel.toNat = some v → Retires (exec (.mfc n r sel) s) s n c.next ((c.fetched wf).set r v)) ∧
  (c.kernel = false → sel ≠ 0x0D → Raises (exec (.mfc n r sel) s) s n wf 0x03 0) ∧
  (c.kernel = true → c.control n.val sel.toNat = none →
    Raises (exec (.mfc n r sel) s) s n wf 0x02 (wf.zeroExtend 64) ∧ Raises (exec (.mtc n r sel) s) s n wt 0x02 (wt.zeroExtend 64)) ∧
  (c.kernel = true → (c.control n.val sel.toNat).isSome → c.get r &&& controlRsv sel.toNat = 0 → sel.toNat < 6 ∨ 11 < sel.toNat →
    Retires (exec (.mtc n r sel) s) s n c.next ((c.fetched wt).setControl sel.toNat (c.get r))) ∧
  (c.kernel = false → Raises (exec (.mtc n r sel) s) s n wt 0x03 0) ∧
  c.control n.val 0x0D = some (BitVec.ofNat 64 n.val) ∧ c.control n.val 0x11 = none ∧ c.control n.val 0x40 = none) ∧
  (∀ (s : State) (n : CoreNo) (r : HReg) (sel : BitVec 8), s.ready n →
  let c := s.core n.val
  let w := formF 0x30 0 r sel 1
  let v := c.get r
  c.kernel = true → 6 ≤ sel.toNat → sel.toNat ≤ 11 →
  let u := s.fetchedBy n w
  let ok := u.areaOk n.val ((c.fetched w).setControl sel.toNat v) (decide (sel.toNat ≤ 8))
  (v.toNat % 128 = 0 → v.toNat < 2 ^ 57 → ok = true → Retires (exec (.mtc n r sel) s) s n c.next ((c.fetched w).setControl sel.toNat v)) ∧
  (v.toNat % 128 ≠ 0 ∨ 2 ^ 57 ≤ v.toNat ∨ ok = false → Raises (exec (.mtc n r sel) s) s n w 0x02 (w.zeroExtend 64)))

/-- TRAP and BRK complete and take their exceptions with EPC at the next instruction (R498, R499), an undefined encoding raises ILLEGAL with
the word in EADDR, DSYNC and ISYNC empty their cache (R505), and WFI goes on or waits (R501). RDPOST and SEND (R494 to R497): RDPOST of a
full post returns it and empties it and of an empty one waits; SEND puts its value in an empty post of a running core, waits behind a full
one, raises POST_UNREACHABLE for a core that does not run and ILLEGAL for a SEL above 71; both are privileged. POST_DELIVER, WFI_WAKE and
INTERRUPT_TAKE: the earliest waiting sender's value goes into the empty post and that SEND completes; a WFI completes once an enabled line
is pending; the lowest-numbered pending, enabled line is taken while IE is 1 (R495, R501). -/
def Obligations.HawkerSystemAndPosts : Prop :=
  (∀ (s : State) (n : CoreNo) (sel : BitVec 8) (w : BitVec 32), s.ready n →
  let c := s.core n.val
  exec (.trap n sel) s = .next (((s.fetchedBy n (formF 0x30 0 0 sel 4)).coreEvent n.val 0 1).enter n.val 0x0A (sel.zeroExtend 64) ((c.pc + 4) % 2 ^ 64) 4) ∧
  exec (.brk n) s = .next (((s.fetchedBy n (formF 0x30 0 0 0 9)).coreEvent n.val 0 1).enter n.val 0x0B 0 ((c.pc + 4) % 2 ^ 64) 4) ∧
  (hawkerDecode n w = none → Raises (exec (.illegal n w) s) s n w 0x02 (w.zeroExtend 64)) ∧
  Retires (exec (.dsync n) s) s n c.next { (c.fetched (formF 0x30 0 0 0 6)) with dcache := [] } ∧
  Retires (exec (.isync n) s) s n c.next { c with icache := [] } ∧
  (c.kernel = true → (c.line n.val).isSome = true → Retires (exec (.wfi n) s) s n c.next (c.fetched (formF 0x30 0 0 0 8))) ∧
  (c.kernel = true → c.line n.val = none → Completes (exec (.wfi n) s) fun t =>
    ∃ k, t = { s with cores := k } ∧ onlyCore s n { (c.fetched (formF 0x30 0 0 0 8)) with wfi := true } k) ∧
  (c.kernel = false → Raises (exec (.wfi n) s) s n (formF 0x30 0 0 0 8) 0x03 0)) ∧
  (∀ (s : State) (n : CoreNo) (r : HReg) (sel : BitVec 8), s.ready n →
  let c := s.core n.val
  let k := sel.toNat
  let wr := formF 0x30 r 0 sel 2
  let ws := formF 0x30 0 r sel 3
  let u := s.fetchedBy n ws
  (∀ v, c.kernel = true → k < 4 → look c.posts k = some v →
    Retires (exec (.rdpost n r sel) s) s n c.next { (c.fetched wr).set r v with posts := drop c.posts k }) ∧
  (c.kernel = true → k < 4 → look c.posts k = none → Completes (exec (.rdpost n r sel) s) fun t =>
    ∃ x, t = { s with cores := x } ∧ onlyCore s n { (c.fetched wr) with postWait := some (r.toNat, k) } x) ∧
  (c.kernel = true → 4 ≤ k → Raises (exec (.rdpost n r sel) s) s n wr 0x02 (wr.zeroExtend 64)) ∧
  (c.kernel = true → k ≤ 71 → u.coreOn (k / 4) = true → u.postFull k = false → s.senders = [] →
    exec (.send n r sel) s = .next ((u.fillPost k (c.get r)).retire n.val c.next)) ∧
  (c.kernel = true → k ≤ 71 → u.coreOn (k / 4) = true → u.postFull k = true → Completes (exec (.send n r sel) s) fun t =>
    t.senders = s.senders ++ [n.val] ∧ t = { s with cores := t.cores, senders := t.senders } ∧
      onlyCore s n { (c.fetched ws) with sendWait := some (k, c.get r) } t.cores) ∧
  (c.kernel = true → k ≤ 71 → u.coreOn (k / 4) = false → Raises (exec (.send n r sel) s) s n ws 0x0D (BitVec.ofNat 64 (k / 4))) ∧
  (c.kernel = true → 71 < k → Raises (exec (.send n r sel) s) s n ws 0x02 (ws.zeroExtend 64)) ∧
  (c.kernel = false → Raises (exec (.rdpost n r sel) s) s n wr 0x03 0 ∧ Raises (exec (.send n r sel) s) s n ws 0x03 0)) ∧
  (∀ (s : State) (n : CoreNo),
  let c := s.core n.val
  (∀ (p : Fin 4) (m : Nat) (v : W64), s.firstSender (4 * n.val + p.val) = some (m, v) → s.coreOn n.val = true →
    s.postFull (4 * n.val + p.val) = false →
    let t := (({ s with senders := s.senders.erase m } : State).fillPost (4 * n.val + p.val) v).waitDone m
    (t.core n.val).postWait = none → exec (.postDeliver n p) s = .next t) ∧
  (s.coreOn n.val = true → c.wfi = true → (c.line n.val).isSome = true → exec (.wfiWake n) s = .next (s.waitDone n.val)) ∧
  (∀ l, s.coreOn n.val = true → c.debugHalt = false → c.ie = true → c.wfi = false → c.line n.val = some l →
    l < 8 ∧ nbit (c.lines n.val) l = true ∧ nbit c.ien.toNat l = true ∧
    (∀ m, m < l → ¬ (nbit (c.lines n.val) m = true ∧ nbit c.ien.toNat m = true)) ∧
    exec (.interruptTake n) s = .next ((s.setCore n.val { c with ipend := clearBit c.ipend l }).enter n.val (0x80 + l) 0 c.pc 5)) ∧
  (c.ie = false → exec (.interruptTake n) s = .next s))

/-- JTAG_ACCESS (R578): from debug level 1 a Guildhall core is halted and resumed, and while it is halted its registers are read and
written; at level 0 nothing is reached. -/
def Obligations.HawkerJtag : Prop := ∀ (s : State) (n : CoreNo) (r : CoreReg) (v : W64),
  let c := s.core n.val
  (1 ≤ s.debugLevel → n.val < 16 → exec (.jtagAccess (.halt n)) s = .next (s.setCore n.val { c with debugHalt := true }) ∧
    exec (.jtagAccess (.resume n)) s = .next (s.setCore n.val { c with debugHalt := false, stepOne := false }) ∧
    (c.debugHalt = true → exec (.jtagAccess (.step n)) s = .next (s.setCore n.val { c with stepOne := true }) ∧
      exec (.jtagAccess (.writeReg n r v)) s = .next (s.setCore n.val (c.jtagSet r v)) ∧
      (∀ x, c.jtagGet n.val r = some x → exec (.jtagAccess (.readReg n r)) s = .next (s.emit (.value "JTAG" x.toNat))))) ∧
  (s.debugLevel = 0 → exec (.jtagAccess (.halt n)) s = .next s ∧ exec (.jtagAccess (.writeReg n r v)) s = .next s ∧
    exec (.jtagAccess (.readReg n r)) s = .next s)

/-- R498, R507: the word that Table 20.5 gives an instruction decodes to that instruction, with every operand at every value its field
admits. R498: a word that decodes is the word of the instruction it decodes to, so that no reserved bit and no unused field is dropped. -/
def Obligations.HawkerEncodingRoundTrip : Prop :=
  (∀ (i : Instr) (w : BitVec 32), hawkerWord i = some w → ∃ n : CoreNo, hawkerDecode n w = some i) ∧
  (∀ (n : CoreNo) (w : BitVec 32) (i : Instr), hawkerDecode n w = some i → hawkerWord i = some w)

/-- Words written out from Tables 20.4 and 20.5. -/
def Obligations.HawkerWords : Prop := ∀ n : CoreNo,
  hawkerDecode n 0x0B2AFFF8#32 = some (.addi n 25 10 0xFFF8#16) ∧
  hawkerDecode n 0xA0000010#32 = some (.call n 16#26) ∧
  hawkerDecode n 0xB0000000#32 = some (.ret n) ∧
  hawkerDecode n 0xC0100163#32 = some (.send n 16 0x16#8) ∧
  hawkerDecode n 0x04000080#32 = none ∧ hawkerDecode n 0#32 = none ∧ hawkerDecode n 0xB0010000#32 = none

/-- REGISTER_WRITE of 8 bytes to a register without a rule of its own (R57, R463, R64): a kernel core or the Watch post writes it per access
code, and any other requester makes a stray write of KIND 2 that changes no register but the stray-write record. R64: a write of a bad size
or alignment is a stray write of KIND 1, and one at an undefined offset a stray write of KIND 0; each records its offset, and neither
changes any other register. GRP_MEMBER_WRITE (R65), REGISTER_TIMEOUT (R549), CONSERVE_CHECK and CONSERVE_CHECK_RESULT (R66): a member that
names a unit is taken and one that names none is a stray write; a unit's first timeout is recorded once and makes no record again; the
checks asked for become pending, and a pending check of agreeing books reports PASS and changes nothing else. -/
def Obligations.RegisterWrites : Prop :=
  (∀ (s : State) (rq : Requester) (off : BitVec 32) (data : Bytes) (r : Reg),
  off.toNat % 8 = 0 → data.length = 8 → s.targets rq off.toNat = none → s.offDark off.toNat = false →
  regAt (rqCode rq) off.toNat = some r →
  r.name ∈ [.ximLoadAddr, .ximQuiesceLimit, .bellSnapAddr, .cwGrpRpAsid, .cwGrpBellBase, .ghStage, .tbStage, .carterStage, .ledgerStage] →
  let v := BitVec.ofNat 64 (leNat data)
  (rqKernel rq = true → exec (.registerWrite (.space rq off) data []) s = .next (s.wr r (r.merge (s.rd r) v))) ∧
  (rqKernel rq = false → Completes (exec (.registerWrite (.space rq off) data []) s) fun t =>
    t.fget ⟨.regspStrayCount, 0, 0⟩ F.regspStrayCount_COUNT =
      min (s.fget ⟨.regspStrayCount, 0, 0⟩ F.regspStrayCount_COUNT + 1) (2 ^ F.regspStrayCount_COUNT.width - 1) ∧
    t.fget ⟨.regspStrayLast, 0, 0⟩ F.regspStrayLast_KIND = 2 ∧ t.fget ⟨.regspStrayLast, 0, 0⟩ F.regspStrayLast_REQ = rqCode rq ∧
    s.regsBut t [⟨.regspStrayCount, 0, 0⟩, ⟨.regspStrayLast, 0, 0⟩] ∧ s.memSame t)) ∧
  (∀ (s : State) (rq : Requester) (off : BitVec 32) (data : Bytes),
  (halfOf off.toNat data.length = none → Completes (exec (.registerWrite (.space rq off) data []) s) fun t =>
    t.fget ⟨.regspStrayLast, 0, 0⟩ F.regspStrayLast_KIND = 1 ∧ t.fget ⟨.regspStrayLast, 0, 0⟩ F.regspStrayLast_OFFSET = off.toNat ∧
    t.fget ⟨.regspStrayLast, 0, 0⟩ F.regspStrayLast_VALID = 1 ∧
    s.regsBut t [⟨.regspStrayCount, 0, 0⟩, ⟨.regspStrayLast, 0, 0⟩] ∧ s.memSame t ∧ t.out = s.out) ∧
  (off.toNat % 8 = 0 → data.length = 8 → s.targets rq off.toNat = none → s.offDark off.toNat = false → regAt (rqCode rq) off.toNat = none →
    Completes (exec (.registerWrite (.space rq off) data []) s) fun t =>
    t.fget ⟨.regspStrayLast, 0, 0⟩ F.regspStrayLast_KIND = 0 ∧ t.fget ⟨.regspStrayLast, 0, 0⟩ F.regspStrayLast_OFFSET = off.toNat ∧
    s.regsBut t [⟨.regspStrayCount, 0, 0⟩, ⟨.regspStrayLast, 0, 0⟩] ∧ s.memSame t)) ∧
  (∀ (s : State) (rq : Requester) (g : Fin 16) (m : Fin 64) (v : W64) (off : BitVec 32) (n : Fin 7),
  let id := bitsOf v F.regspGrpMember_ID
  let named := if bitsOf v F.regspGrpMember_PORTER = 1 then id < 256 else bitsOf v F.regspGrpMember_VALID = 1 → stallOk id = true
  let r : Reg := ⟨.regspGrpMember, g.val, m.val⟩
  let st : Reg := ⟨.conserveStatus, 0, 0⟩
  let fld (i : Nat) : Fld := ⟨2 * i + 1, 2 * i⟩
  (rqKernel rq = true → named → exec (.grpMemberWrite rq g m v) s = .next (s.wr r (r.merge (s.rd r) v))) ∧
  (rqKernel rq = false ∨ ¬ named → exec (.grpMemberWrite rq g m v) s = .next (s.strayCode (rqCode rq) 2 r.offset)) ∧
  (∀ u, unitOf off.toNat = some u → u < 0x400 → s.offDark off.toNat = false → s.err.timedOut.contains u = false →
    exec (.registerTimeout off) s = .next (({ s with err := { s.err with timedOut := u :: s.err.timedOut } } : State).report
      3 0x0A (precOr (s.precOfStall u)) u 0 0 0 false)) ∧
  (∀ u, unitOf off.toNat = some u → s.err.timedOut.contains u = true → exec (.registerTimeout off) s = .next s) ∧
  (rqKernel rq = true → Completes (exec (.conserveCheck rq v) s) fun t => s.regsBut t [st] ∧ t = { s with regs := t.regs } ∧
    ∀ i, i < 7 → t.fget st (fld i) = if nbit (bitsOf v F.conserveCtrl_CHECK) i then 3 else s.fget st (fld i)) ∧
  (rqKernel rq = false → exec (.conserveCheck rq v) s = .next (s.strayCode (rqCode rq) 2 (Reg.offset ⟨.conserveCtrl, 0, 0⟩))) ∧
  (s.fget st (fld n.val) = 3 → s.injAt 0x0F 0 (fun _ => true) = none → s.quiescent n.val = true →
    Completes (exec (.conserveCheckResult n none) s) fun t => s.regsBut t [st] ∧ t = { s with regs := t.regs } ∧
      ∀ i, i < 7 → t.fget st (fld i) = if i = n.val then 1 else s.fget st (fld i)) ∧
  (∀ u, s.fget st (fld n.val) = 3 → s.injAt 0x0F 0 (fun _ => true) = none → s.quiescent n.val = true → s.conserveUnit n.val u = true →
    exec (.conserveCheckResult n (some u)) s = .next (s.conserveReport n.val (some u) false)))

/-- Table 1.6 and the register tables: whatever register an access at an offset reaches lies at that offset by the list of the registers'
places, so that no register is reached at two offsets and no two at one. The exceptions are REGSP_BCAST_LAST and REGSP_BCAST_DIFF, of which
each requester has its own, and GH_MISS_RATE, which all four Gatehouses show. READ_CLEAR of 8 bytes (R614, Table 0.3): the answer is the
register's value with write-only and reserved bits 0, its RC bits clear, every other bit and register stays. At an undefined offset the read
returns 0 and changes nothing (R52). MULTI_TARGET_READ (R59): it answers its reader, ADDRESSED is the number of targets, RESPONDED those
that answered, SKIP says that some did not, and DIVERGE that some answer differed. -/
def Obligations.RegisterReadsAndOffsets : Prop :=
  (∀ (rq x : Nat) (r : Reg), regAt rq x = some r → x % 8 = 0 →
  r.offset = x ∨ r.name ∈ [.regspBcastLast, .regspBcastDiff, .ghMissRate]) ∧
  (∀ (s : State) (rq : Requester) (off : BitVec 32) (r : Reg),
  off.toNat % 8 = 0 → s.targets rq off.toNat = none → s.offDark off.toNat = false → s.withheld off.toNat = false →
  (regAt (rqCode rq) off.toNat = some r → r.name ≠ .cwRpCfgData → Completes (exec (.readClear (.space rq off) 8 []) s) fun t =>
    t.out = .regData rq (s.rd r &&& r.maskOf fun a => decide (a ≠ .wo)) :: s.out ∧
    t.rd r = s.rd r &&& ~~~(r.maskOf fun a => decide (a = .rc)) ∧ s.regsBut t [r] ∧ s.memSame t) ∧
  (regAt (rqCode rq) off.toNat = none → exec (.readClear (.space rq off) 8 []) s = .next (s.emit (.regData rq 0)))) ∧
  (∀ (s : State) (rq : Requester) (off : BitVec 32) (silent : List (BitVec 16)) (ts : List Target) (k : Nat),
  off.toNat % 8 = 0 → s.targets rq off.toNat = some (ts, k) → ts.length < 512 →
  Completes (exec (.multiTargetRead rq off 8 silent) s) fun t =>
    let last : Reg := ⟨.regspBcastLast, rqCode rq, 0⟩
    (∃ v, t.out.head? = some (.regData rq v)) ∧
    t.fget last F.regspBcastLast_ADDRESSED = ts.length ∧ t.fget last F.regspBcastLast_RESPONDED ≤ ts.length ∧
    (t.fget last F.regspBcastLast_SKIP = 1 ↔ t.fget last F.regspBcastLast_RESPONDED < ts.length) ∧
    (t.fget last F.regspBcastLast_DIVERGE = 0 → t.rd ⟨.regspBcastDiff, rqCode rq, 0⟩ = 0))

/-- The state after reset (the reset columns of the register tables, Table 27.3): every register reads the reset value of its table, of
which those that are neither 0 nor set at manufacture are named here; no command waits, nothing has been sent, no core runs and no instance
exists; and the Quarters are dark (the model's choice, log entry 8). Memory is in canonical form after reset, nothing is poisoned, and every
byte reads as the model's choice for RAM that nothing has written (the model's choice, log entry 5). Memory (R36, R37): a byte written reads
back and no other byte changes, a range written reads back whole, and memory keeps its one canonical form, in which states with the same
bytes have the same memory. -/
def Obligations.ResetAndMemory : Prop :=
  ((∀ r : Reg, State.reset.rd r = r.reset) ∧
  (∀ i j, Reg.reset ⟨.whCtrl, i, j⟩ = 0x41 ∧ Reg.reset ⟨.porterChCfg, i, j⟩ = 0xC0100 ∧ Reg.reset ⟨.cwGrpCtrl, i, j⟩ = 4 ∧
    Reg.reset ⟨.ethPortCfg, i, j⟩ = 0x2580 ∧ Reg.reset ⟨.tbPortCfg, i, j⟩ = 0x14 ∧ Reg.reset ⟨.ximQuiesceLimit, i, j⟩ = 0x186A0 ∧
    Reg.reset ⟨.wmSampleCtr, i, j⟩ = 0xFFFF ∧ Reg.reset ⟨.pwrCtrl, i, j⟩ = 0x6720001 ∧ Reg.reset ⟨.bootStatus, i, j⟩ = 0 ∧
    Reg.reset ⟨.stallState, i, j⟩ = 0 ∧ Reg.reset ⟨.bellCntStatus, i, j⟩ = 0 ∧ Reg.reset ⟨.pwrStatus, i, j⟩ = 0 ∧
    Reg.reset ⟨.bellMbCtrl, i, j⟩ = 0x1_0000_0000_FFFF ∧ Reg.reset ⟨.bellDgCtrl, i, j⟩ = 0x1_0000_0000_FFFF ∧ Reg.reset ⟨.ghCarterPort, i, j⟩ = 0xC0A0 ∧
    Reg.reset ⟨.ghMissRate, i, j⟩ = 0x3E8 ∧ Reg.reset ⟨.cashboxCheck, i, j⟩ = 0x4_0000_0000 ∧
    (i < 4 → Reg.reset ⟨.ghSteer, i, j⟩ = BitVec.ofNat 64 i) ∧
    (i < 0x400 → stallKind i = 0 → Reg.reset ⟨.stallInfo, i, j⟩ = BitVec.ofNat 64 (i * 0x1_0000 + 0x4040))) ∧
  State.reset.pending = [] ∧ State.reset.out = [] ∧ State.reset.cores = [] ∧ (∀ f, State.reset.inst f = none) ∧ State.reset.boot.dark = [0, 1, 2, 3]) ∧
  (State.reset.memWf ∧ (∀ a, State.reset.byte a = 0#8) ∧ ∀ a, State.reset.poisoned a = false) ∧
  (∀ (s t : State) (a n : Nat) (d : Bytes),
  (s.poke a d).bytes a d.length = d ∧ s.memBut (s.poke a d) a d.length ∧ (s.memWf → (s.poke a d).memWf) ∧
  s.poke a d = { s with home := (s.poke a d).home } ∧ (s.poke a d).home.poison = s.home.poison ∧
  (s.memWf → t.memWf → s.memSame t → t.home.mem = s.home.mem) ∧
  (s.memWf → s.poke a (s.bytes a n) = s))

/-- SQUARE_ACCESS of a line whose bytes are right (R37, R245): a write stores its bytes and no others and answers no fault, a full write
clears a poison mark and a poisoned one sets it; a read answers the bytes with the line's mark and changes no memory. Memory keeps its
canonical form. WAREHOUSE_ACCESS of a line whose symbols are right, on a stack that has not failed (R37, R256), with the same effects. -/
def Obligations.HomeAccesses : Prop :=
  (∀ (s : State) (q : Qn) (a : HomeAccess) (o : Nat),
  homeOf a.addr = .square q.val o → a.wellFormed = true → a.upset = [] → s.wrongBytes a.addr = [] →
  s.reaches a.req a.addr a.len = true → s.injAt 0x01 (qUnit q.val 0) (fun x => decide (x / 128 = a.addr / 128)) = none →
  (∀ d, a.data = some d → s.inSpill a.addr a.len = false → Completes (exec (.squareAccess q a) s) fun t =>
    t.bytes a.addr a.len = d ∧ s.memBut t a.addr a.len ∧ t.out = s.out ∧ (s.memWf → t.memWf) ∧
    t.poisoned a.addr = (a.poison || (s.poisoned a.addr && decide (a.len ≠ 128)))) ∧
  (a.data = none → Completes (exec (.squareAccess q a) s) fun t =>
    t.out = .memData a.req (s.bytes a.addr a.len) (s.poisoned a.addr) :: s.out ∧ t.home.mem = s.home.mem ∧
      t.home.poison = s.home.poison)) ∧
  (∀ (s : State) (w : Fin 12) (a : HomeAccess) (o : Nat),
  homeOf a.addr = .warehouse w.val o → a.wellFormed = true → a.upset = [] → lookD [] s.home.wrongSym (a.addr / 128) = [] →
  s.reaches a.req a.addr a.len = true → s.stackFailed w.val = false →
  s.injAt 0x02 (whUnit w.val) (fun x => decide (x / 128 = a.addr / 128)) = none →
  (∀ d, a.data = some d → s.inSpill a.addr a.len = false → Completes (exec (.warehouseAccess w a) s) fun t =>
    t.bytes a.addr a.len = d ∧ s.memBut t a.addr a.len ∧ t.out = s.out ∧ (s.memWf → t.memWf) ∧
    t.poisoned a.addr = (a.poison || (s.poisoned a.addr && decide (a.len ≠ 128)))) ∧
  (a.data = none → Completes (exec (.warehouseAccess w a) s) fun t =>
    t.out = .memData a.req (s.bytes a.addr a.len) (s.poisoned a.addr) :: s.out ∧ t.home.mem = s.home.mem ∧
      t.home.poison = s.home.poison))

/-- R38 and R489: an access to a hole moves nothing and is answered with poison, or as a fault for a write; a write into an active spill
area completes with a fault and stores nothing; each is recorded as a class 2 error. R245: a code group with one wrong byte is corrected and
recorded as a class 1 error, and one with more makes its line uncorrectable: poisoned, and reported as class 2, or as class 4 in the system
region. WAREHOUSE_SCRUB of a line that is right (R258): while SCRUB_ENABLE is set the pass goes on at the next line, at its end the pass
begins again and the Warehouse's die counters are clear, no byte changes; while it is clear nothing happens. SQUARE_POOL_GRANT (R246): a
free buffer goes to the requester, and with every buffer in use it waits behind those that wait. -/
def Obligations.HomeErrorsAndPool : Prop :=
  (∀ (s : State) (q : Qn) (a : HomeAccess), a.wellFormed = true → a.upset = [] →
  (homeOf a.addr = .hole → a.data = none →
    exec (.squareAccess q a) s = .next ((s.hole (s.reqPrec a.req) a.req a.addr a.asid).emit (.memData a.req (List.replicate a.len 0#8) true))) ∧
  (∀ d, homeOf a.addr = .hole → a.data = some d →
    exec (.squareAccess q a) s = .next ((s.hole (s.reqPrec a.req) a.req a.addr a.asid).emit (.memFault a.req))) ∧
  (∀ d o, homeOf a.addr = .square q.val o → a.data = some d → s.wrongBytes a.addr = [] → s.reaches a.req a.addr a.len = true →
    s.inSpill a.addr a.len = true → ∃ u : State, u.home.mem = s.home.mem ∧ u.regs = s.regs ∧
    exec (.squareAccess q a) s = .next ((u.recordErr 2 0x11 (if a.asid = 0 then 0xFF else s.reqPrec a.req) a.req 1 a.addr a.asid false).emit
      (.memFault a.req)))) ∧
  (∀ (s : State) (q a g : Nat), s.poisoned a = false →
  let k := ((s.wrongBytes a).filter fun i => decide (i / 32 = g)).length
  let inj := (look s.home.injLines (a / 128)).isSome
  (k = 0 → s.squareGroup q a g = s) ∧
  (k = 1 → ∃ u : State, u.home.mem = s.home.mem ∧ u.wrongBytes a = (s.wrongBytes a).filter (fun i => decide (i / 32 ≠ g)) ∧
    s.squareGroup q a g = u.recordErr 1 0x01 (s.linePrec a) (qUnit q 0) 1 (a / 128 * 128) 0 inj) ∧
  (2 ≤ k → ∃ u : State, u.home.mem = s.home.mem ∧ u.poisoned a = true ∧
    s.squareGroup q a g = u.report (if inSystem a then 4 else 2) 0x01 (s.linePrec a) (qUnit q 0) 0 (a / 128 * 128) 0 inj)) ∧
  (∀ (s : State) (w : Fin 12) (line : Nat) (last : Bool) (q : Qn) (who : Nat),
  (s.fbit ⟨.whCtrl, w.val, 0⟩ F.whCtrl_SCRUB_ENABLE = true → line < 2 ^ 29 →
    lookD [] s.home.wrongSym ((whBase w.val + line * 128) / 128) = [] →
    s.injAt 0x02 (whUnit w.val) (fun x => decide (x / 128 = (whBase w.val + line * 128) / 128)) = none →
    Completes (exec (.warehouseScrub w line [] last) s) fun t =>
      look t.home.scrubAt w.val = some (if last then 0 else line + 1) ∧ s.memSame t ∧ t.home.poison = s.home.poison ∧
      (last = true → ∀ d, d < 18 → look t.home.dieCount (key2 w.val d) = none)) ∧
  (s.fbit ⟨.whCtrl, w.val, 0⟩ F.whCtrl_SCRUB_ENABLE = false → exec (.warehouseScrub w line [] last) s = .next s) ∧
  ((lookD [] s.home.poolUsed q.val).length < 8192 → lookD [] s.home.poolWait q.val = [] →
    Completes (exec (.squarePoolGrant q who) s) fun t =>
      lookD [] t.home.poolUsed q.val = who :: lookD [] s.home.poolUsed q.val ∧ lookD [] t.home.poolWait q.val = [] ∧ t.home.mem = s.home.mem) ∧
  (8192 ≤ (lookD [] s.home.poolUsed q.val).length → (lookD [] s.home.poolWait q.val).contains who = false →
    Completes (exec (.squarePoolGrant q who) s) fun t =>
      lookD [] t.home.poolUsed q.val = lookD [] s.home.poolUsed q.val ∧
      lookD [] t.home.poolWait q.val = lookD [] s.home.poolWait q.val ++ [who]))

/-- SURVEYOR_TRANSLATE (R260, R263, R267): the requester is told whether its access is granted, denied or held, as the walk ends; an address
of 2^48 or more is denied and changes nothing. R262, R263, R267, R268: what a leaf decides. A read needs R and a write W, else the access is
held where D is set and denied where it is clear; a write of a page that copies on write is held; device memory is granted inside the carves
of the context's precinct, at the page's address and the access's offset; a page of another target is granted to a requester that arms a
Porter channel only. -/
def Obligations.SurveyorDecisions : Prop :=
  (∀ (s u : State) (q : Qn) (a : VAccess),
  (∀ tgt pa link, s.translate q.val a = (u, .ok tgt pa link) → exec (.surveyorTranslate q a) s = .next (u.emit (.granted a tgt pa link))) ∧
  (s.translate q.val a = (u, .deny) → exec (.surveyorTranslate q a) s = .next (u.emit (.denied a))) ∧
  (s.translate q.val a = (u, .held) → exec (.surveyorTranslate q a) s = .next (u.emit (.heldAccess a))) ∧
  (2 ^ 48 ≤ a.va → (s.surveyor q.val).failed.contains a = false → exec (.surveyorTranslate q a) s = .next (s.emit (.denied a)))) ∧
  (∀ (s : State) (q e level : Nat) (ctx : Bytes) (a : VAccess),
  let allowed := if a.write then nbit e 3 else nbit e 2
  let pa := pteAddr e + a.va % 2 ^ leafShift e level
  (allowed = false → nbit e 5 = false → s.leafAccess q e level ctx a = (s, .deny)) ∧
  (allowed = false → nbit e 5 = true → s.leafAccess q e level ctx a = (s.holdAccess q (if a.write then 3 else 1) a, .held)) ∧
  (allowed = true → a.write = true → nbit e 4 = true → s.leafAccess q e level ctx a = (s.holdAccess q 4 a, .held)) ∧
  (allowed = true → (a.write = false ∨ nbit e 4 = false) →
    (e / 2 ^ 60 = 0 → s.leafAccess q e level ctx a =
      if a.asid = 0 ∨ s.carveHolds (leAt ctx 8 1) (pteAddr e) (2 ^ leafShift e level) then (s, .ok 0 pa 0) else (s, .deny)) ∧
    (e / 2 ^ 60 ≠ 0 → armsChannel a.req = false → s.leafAccess q e level ctx a = (s, .deny)) ∧
    (e / 2 ^ 60 = 3 → armsChannel a.req = true → s.leafAccess q e level ctx a = (s, .ok 3 pa (nbits e 11 8)))))

/-- R268: a write never passes a C mark, and reads of a page with C set proceed. -/
def Obligations.CopyMarks : Prop := ∀ (s u : State) (q e level : Nat) (ctx : Bytes) (a : VAccess) (tgt pa link : Nat), nbit e 4 = true →
  (a.write = true → s.leafAccess q e level ctx a ≠ (u, .ok tgt pa link)) ∧
  (a.write = true → nbit e 3 = true → s.leafAccess q e level ctx a = (s.holdAccess q 4 a, .held)) ∧
  (a.write = false → nbit e 2 = true → e / 2 ^ 60 = 0 → a.asid = 0 ∨ s.carveHolds (leAt ctx 8 1) (pteAddr e) (2 ^ leafShift e level) = true →
    s.leafAccess q e level ctx a = (s, .ok 0 (pteAddr e + a.va % 2 ^ leafShift e level) 0))

/-- The other Surveyor rows (R264, R266, R270): a translation that accesses wait for is cached and they go on; a page answer other than
Success fails them; an invalidation drops at once what it covers and joins those in progress, from a kernel core only; the oldest one
completes when no burst uses what it covers, and COUNT goes up by 1 modulo 2^32; a record is resolved by a kernel core only; a record open
for 10 ms closes and fails its accesses. R270: a resolve of an open record with no waiting accesses behind it frees the record, lets its
accesses walk again on RETRY and completes them with ACCESS_FAULT on FAIL, in issue order; a FAULT_ID that names no record is a stray write.
-/
def Obligations.SurveyorRows : Prop :=
  (∀ (s : State) (q : Qn) (rq : Requester) (asid : BitVec 12) (page host : Nat) (rd wr : Bool)
    (as : List VAccess) (v : W64) (id : Fin 256),
  let x := s.surveyor q.val
  let k := key2 asid.toNat page
  (look x.atsWait k = some as → look x.ats k = none → exec (.surveyorAtsResponse q asid page (.translation host rd wr)) s =
    .next ((s.setSurveyor q.val { x with atsWait := drop x.atsWait k, ats := put x.ats k (host / 4096 * 4096, rd, wr) }).resumeAll q.val as)) ∧
  (look x.atsWait k = some as → (look x.pri k).isSome = true → exec (.surveyorAtsResponse q asid page (.pri false)) s =
    .next ((s.setSurveyor q.val { x with atsWait := drop x.atsWait k, ats := drop x.ats k, pri := drop x.pri k }).failAll q.val as)) ∧
  (look x.atsWait k = none → exec (.surveyorAtsResponse q asid page (.translation host rd wr)) s = .next s) ∧
  (rqKernel rq = true → bitsOf v F.surveyorInval_SCOPE ≠ 3 → Completes (exec (.surveyorInval rq q v) s) fun t =>
    let y := t.surveyor q.val
    let iv := (bitsOf v F.surveyorInval_SCOPE, bitsOf v F.surveyorInval_ASID, bitsOf v F.surveyorInval_VA)
    y.inval = x.inval ++ [iv] ∧ (∀ e ∈ y.tlb, invalHits iv.1 iv.2.1 iv.2.2 e.1 = false ∧ e ∈ x.tlb) ∧
    (bitsOf v F.surveyorInval_SCOPE = 2 → y.ats = []) ∧ y.recs = x.recs ∧ t = { s with surv := t.surv }) ∧
  (rqKernel rq = false ∨ bitsOf v F.surveyorInval_SCOPE = 3 →
    exec (.surveyorInval rq q v) s = .next (s.strayCode (rqCode rq) 2 (Reg.offset ⟨.surveyorInval, q.val, 0⟩))) ∧
  (∀ iv rest, x.inval = iv :: rest → s.porter.chans = [] → Completes (exec (.surveyorInvalDone q) s) fun t =>
    (t.surveyor q.val).inval = rest ∧ t.fget ⟨.surveyorInvalDone, q.val, 0⟩ F.surveyorInvalDone_COUNT =
      (s.fget ⟨.surveyorInvalDone, q.val, 0⟩ F.surveyorInvalDone_COUNT + 1) % 2 ^ 32) ∧
  (x.inval = [] → exec (.surveyorInvalDone q) s = .next s) ∧
  (rqKernel rq = true → exec (.surveyorResolveRetry rq q id) s = .next (s.resolve rq q.val id.val true) ∧
    exec (.surveyorResolveFail rq q id) s = .next (s.resolve rq q.val id.val false)) ∧
  (rqKernel rq = false → exec (.surveyorResolveRetry rq q id) s = .next (s.strayCode (rqCode rq) 2 (Reg.offset ⟨.surveyorFaultResolve, q.val, 0⟩)) ∧
    exec (.surveyorResolveFail rq q id) s = .next (s.strayCode (rqCode rq) 2 (Reg.offset ⟨.surveyorFaultResolve, q.val, 0⟩))) ∧
  (∀ r, look x.recs id.val = some r → r.isOpen = true → r.kind ≠ 5 → exec (.surveyorFaultTimeout q id) s =
    .next ((s.setSurveyor q.val { x with recs := put x.recs id.val { r with isOpen := false, joined := [] } }).failAll q.val r.joined))) ∧
  (∀ (s : State) (rq : Requester) (q id : Nat) (r : FaultRec),
  let x := s.surveyor q
  let u := s.setSurveyor q { x with recs := drop x.recs id }
  (look x.recs id = none → ∀ b, s.resolve rq q id b = s.strayCode (rqCode rq) 2 (Reg.offset ⟨.surveyorFaultResolve, q, 0⟩)) ∧
  (look x.recs id = some r → r.kind ≠ 5 → r.isOpen = true →
    s.resolve rq q id true = (u.resumeAll q r.joined).postWaiting q ∧ s.resolve rq q id false = (u.failAll q r.joined).postWaiting q) ∧
  look (u.surveyor q).recs id = none)

/-- The counter operations with no waiter in the queue (R302, R305, Table 11.2) of an ordinary counter: SIGNAL adds, up to 2^24 − 1, DEBIT
subtracts, down to 0, SET sets, TAKE consumes where COUNT suffices and otherwise changes no COUNT, and WAKE_ALL leaves COUNT as it is. No
other counter's COUNT, no queue and no memory changes; a requester that may not, or an AMOUNT of 0, makes a stray write. R302, R303: a
signal that makes COUNT suffice for the waiter at the head releases it: it leaves the queue, its count is consumed and its source goes on;
one that does not suffice leaves the queue as it is. WAKE_ALL releases every waiter in the queue, in order, and consumes nothing (R304). -/
def Obligations.BellCounters : Prop :=
  (∀ (s : State) (rq : Requester) (q : Qn) (n : Fin 4096) (a : BitVec 24),
  let k := ctrKey q n
  let c := s.count24 k
  let stray := s.strayCode (rqCode rq) 2 (ctrOp k).offset
  let gives (o : Host.Outcome State Fault Refusal) (v : Nat) : Prop := Completes o fun t =>
    t.count24 k = v ∧ (∀ j, j ≠ k → t.count24 j = s.count24 j) ∧ (∀ j, t.queue j = s.queue j) ∧ t.bell.met = s.bell.met ∧
    t.out = s.out ∧ s.memSame t
  s.queue k = [] → s.snapBusy q.val = false → s.privileged k = false →
  (maySignal rq = true → a ≠ 0 → gives (exec (.bellSignal rq q n a) s) (min (c + a.toNat) (2 ^ 24 - 1))) ∧
  (rqKernel rq = true → a ≠ 0 → gives (exec (.bellDebit rq q n a) s) (c - a.toNat)) ∧
  (rqKernel rq = true → gives (exec (.bellSet rq q n a) s) a.toNat) ∧
  (rqKernel rq = true → a ≠ 0 → gives (exec (.bellTake rq q n a) s) (if a.toNat ≤ c then c - a.toNat else c)) ∧
  (rqKernel rq = true → gives (exec (.bellWakeAll rq q n) s) c) ∧
  (maySignal rq = false ∨ a = 0 → exec (.bellSignal rq q n a) s = .next stray) ∧
  (rqKernel rq = false → exec (.bellDebit rq q n a) s = .next stray ∧ exec (.bellSet rq q n a) s = .next stray ∧
    exec (.bellTake rq q n a) s = .next stray ∧ exec (.bellWakeAll rq q n) s = .next stray)) ∧
  (∀ (s : State) (rq : Requester) (q : Qn) (n : Fin 4096) (a : BitVec 24) (st m : Nat) (hung : Bool),
  let k := ctrKey q n
  let v := min (s.count24 k + a.toNat) (2 ^ 24 - 1)
  s.queue k = [⟨.task st, m, hung⟩] → s.bell.held = [] → s.snapBusy q.val = false → s.privileged k = false →
  (maySignal rq = true → a ≠ 0 → m ≤ v → Completes (exec (.bellSignal rq q n a) s) fun t =>
    t.count24 k = v - m ∧ t.queue k = [] ∧ t.bell.met = .task st :: s.bell.met) ∧
  (maySignal rq = true → a ≠ 0 → v < m → Completes (exec (.bellSignal rq q n a) s) fun t =>
    t.count24 k = v ∧ t.queue k = [⟨.task st, m, hung⟩] ∧ t.bell.met = s.bell.met) ∧
  (rqKernel rq = true → Completes (exec (.bellWakeAll rq q n) s) fun t =>
    t.count24 k = s.count24 k ∧ t.queue k = [] ∧ t.bell.met = .task st :: s.bell.met))

/-- BELL_ARRIVE (R308, R309, R310): an expected participant's arrival sets its bit; the one that completes the group makes ARRIVED 0 and
counts one release, modulo 2^32; a second arrival of one generation is early; an unexpected participant makes a stray write. BELL_WAIT
(R302, R306): the wait of a stall's oldest task reaches its counter where the task names one and does not wait there yet; of a Ledger queue
that uses DB_BELL likewise; channels and sync entries bring their own waits. -/
def Obligations.BellArrivalsAndWaits : Prop :=
  (∀ (s : State) (rq : Requester) (device : Bool) (g : Fin 256) (p : Fin 64),
  let n := if device then 256 + g.val else g.val
  let here := s.rd (grpArrived n)
  let want := s.rd (grpExpect n)
  let new := BitVec.ofNat 64 (setBit here.toNat p.val)
  s.qFenced (grpQ n) = false → s.snapBusy (grpQ n) = false →
  (nbit want.toNat p.val = true → nbit here.toNat p.val = false → new ≠ want → Completes (exec (.bellArrive rq device g p) s) fun t =>
    t.rd (grpArrived n) = new ∧ s.regsBut t [grpArrived n] ∧ s.memSame t) ∧
  (nbit want.toNat p.val = true → nbit here.toNat p.val = false → new = want → (∀ k, s.attached k n = false) →
    lookD [] s.bell.arrivals n = [] → lookD [] s.bell.early n = [] → s.fget (grpCtrl n) F.bellMbCtrl_RELEASE_CTR = 0xFFFF →
    Completes (exec (.bellArrive rq device g p) s) fun t => t.rd (grpArrived n) = 0 ∧ t.rd (grpExpect n) = want ∧
      t.fget (grpStatus n) F.bellMbStatus_RELEASES = (s.fget (grpStatus n) F.bellMbStatus_RELEASES + 1) % 2 ^ 32 ∧ s.memSame t) ∧
  (nbit want.toNat p.val = true → nbit here.toNat p.val = true → lookD [] s.bell.early n = [] →
    Completes (exec (.bellArrive rq device g p) s) fun t => t.rd (grpArrived n) = here ∧ lookD [] t.bell.early n = [(p.val, 1024)] ∧
      t.fget (grpStatus n) F.bellMbStatus_EARLY = 1 ∧ s.regsBut t [grpStatus n]) ∧
  (nbit want.toNat p.val = false → exec (.bellArrive rq device g p) s = .next (s.strayCode (rqCode rq) 2 (grpArrived n).offset))) ∧
  (∀ (s : State) (st n : Nat) (t : Task) (c : Fin 256) (q : Qn) (e : Fin 256) (i : Fin 2),
  (s.startable st = some t → tWaitCtr t.desc ≠ 0xFFFF → s.tCommonOk st t.desc = true → s.waitsAt (.task st) = false →
    exec (.bellWait (.task st)) s = .next (s.bells [.wait (tWaitCtr t.desc) { src := .task st, amount := tWaitCount t.desc }])) ∧
  (s.startable st = none → exec (.bellWait (.task st)) s = .next s) ∧
  (∀ x, s.lqueue n = some x → x.dbBell = true → x.waiting = false → s.waitsAt (.ledger n) = false → x.state = 1 → x.resetting = false →
    x.cmds = [] → s.ledgerOn x.stall = true → s.precPaused x.prec = false → s.ringsPaused x.func = false → s.fwPaused = false →
    exec (.bellWait (.ledger n)) s =
      .next ((s.setLqueue n { x with waiting := true }).bells [.wait x.dbCtr { src := .ledger n, amount := 1 }])) ∧
  exec (.bellWait (.chan c.val)) s = .next s ∧ exec (.bellWait (.sync q.val e.val i.val)) s = .next s)

/-- The other rows of the Bell unit: BELL_EXPECT_WRITE takes effect while nothing has arrived (R310), SYNC_ENTRY_ARM arms an entry that is
not armed, starts its waits or frees it as malformed (R311), and a snapshot is taken and ends (R316). ALLEY_RAISE and ALLEY_EN_WRITE (R298,
R299): a Guildhall core of the Quarter in kernel mode raises its own participant on a line, any other requester makes a stray write; a mask
takes effect that names stalls of the line's owner and Guildhall cores only. -/
def Obligations.BellUnitAndAlleys : Prop :=
  (∀ (s : State) (rq : Requester) (q : Qn) (device : Bool) (m : Fin 64) (v : W64) (e : Fin 256),
  let g := (if device then 256 else 0) + q.val * 64 + m.val
  let en := q.val * 256 + e.val
  let u := s.wr (syncWord3 en) v
  let ctl : Reg := ⟨.bellSnapCtrl, q.val, 0⟩
  let serr : Reg := ⟨.bellSyncErr, q.val, 0⟩
  (rqKernel rq = true → s.rd (grpArrived g) = 0 → lookD [] s.bell.early g = [] →
    exec (.bellExpectWrite rq q device m v) s = .next (s.wr (grpExpect g) v)) ∧
  (rqKernel rq = false ∨ s.rd (grpArrived g) ≠ 0 → exec (.bellExpectWrite rq q device m v) s =
    .next (s.strayCode (rqCode rq) 2 (grpExpect g).offset)) ∧
  (bitsOf v syncArmed = 1 → rqKernel rq = true → s.armed en = false → u.syncOk en = true →
    syncWait (u.syncBytes en) 1 = none →
    ∀ c n, syncWait (u.syncBytes en) 0 = some (c, n) →
    exec (.syncEntryArm rq q e v) s = .next (u.bells [.wait c { src := .sync q.val e.val 0, amount := n }])) ∧
  (bitsOf v syncArmed = 1 → rqKernel rq = true → s.armed en = false → u.syncOk en = false → Completes (exec (.syncEntryArm rq q e v) s) fun t =>
    t.armed en = false ∧ t.fget serr F.bellSyncErr_MALFORMED = 1 ∧ t.fget serr F.bellSyncErr_ENTRY = e.val ∧
    s.regsBut t [syncWord3 en, serr] ∧ s.memSame t) ∧
  (bitsOf v syncArmed = 1 → s.armed en = true → exec (.syncEntryArm rq q e v) s = .next (s.strayCode (rqCode rq) 2 (syncWord3 en).offset)) ∧
  (rqKernel rq = true → s.snapBusy q.val = false → Completes (exec (.bellSnapTake rq q) s) fun t =>
    t.snapBusy q.val = true ∧ s.regsBut t [ctl] ∧ look t.bell.snap q.val = some (0, 0, 0) ∧ s.memSame t) ∧
  (rqKernel rq = true → s.snapBusy q.val = true → exec (.bellSnapTake rq q) s = .next s) ∧
  (s.snapBusy q.val = true → s.bell.deferred = [] → Completes (exec (.bellSnapDone q) s) fun t =>
    t.snapBusy q.val = false ∧ t.fget ctl F.bellSnapCtrl_SEQ = (s.fget ctl F.bellSnapCtrl_SEQ + 1) % 2 ^ F.bellSnapCtrl_SEQ.width ∧
    s.regsBut t [ctl] ∧ look t.bell.snap q.val = none ∧
    t.home = (s.poke (s.fget ⟨.bellSnapAddr, q.val, 0⟩ F.bellSnapAddr_ADDR * 4096) (s.snapBytes q.val)).home) ∧
  (s.snapBusy q.val = false → exec (.bellSnapDone q) s = .next s)) ∧
  (∀ (s : State) (n : CoreNo) (rq : Requester) (q : Qn) (l : Fin 16) (v : W64),
  (n.val / 4 = q.val → n.val < 16 → exec (.alleyRaise (.core n true) q l) s = .next ((s.wr ⟨.alleyState, q.val, l.val⟩
    (BitVec.ofNat 64 (setBit (s.rd ⟨.alleyState, q.val, l.val⟩).toNat (48 + n.val % 4)))).alleyEval q.val l.val)) ∧
  (n.val / 4 ≠ q.val → exec (.alleyRaise (.core n true) q l) s = .next (s.strayCode n.val 2 (Reg.offset ⟨.alleyRaise, q.val, 0⟩))) ∧
  (exec (.alleyRaise (.core n false) q l) s = .next (s.strayCode n.val 2 (Reg.offset ⟨.alleyRaise, q.val, 0⟩))) ∧
  (rqKernel rq = true → s.alleyMaskOk q.val l.val v = true →
    exec (.alleyEnWrite rq q l v) s = .next ((s.wr ⟨.alleyEn, q.val, l.val⟩ v).alleyEval q.val l.val)) ∧
  (rqKernel rq = false ∨ s.alleyMaskOk q.val l.val v = false →
    exec (.alleyEnWrite rq q l v) s = .next (s.strayCode (rqCode rq) 2 (Reg.offset ⟨.alleyEn, q.val, l.val⟩))))

/-- PORTER_GO, ABORT, RESUME and DOORBELL (R290, R292, R293): GO of a halted or idle channel that a precinct holds starts it, from HEAD in
chain mode and from the shadow set in register mode; GO of a running channel in register mode stands for the next transfer; ABORT stops
issue; RESUME re-reads the link word; a doorbell wakes a parked channel and is otherwise counted; other requesters make stray writes. -/
def Obligations.PorterCommands : Prop := ∀ (s : State) (rq : Requester) (c : ChanNo),
  let k := c.val
  let ch := s.chan k
  let st := s.chanState k
  let stray (r : Reg) : Host.Outcome State Fault Refusal := .next (s.strayCode (rqCode rq) 2 r.offset)
  (rqKernel rq = true → (s.precOfChan k).isSome = true → s.chainMode k = true → st = 0 ∨ st = 5 → Completes (exec (.porterGo rq c) s) fun t =>
    t.chan k = { fetchAt := some (s.fget ⟨.porterChHead, k, 0⟩ F.porterChHead_ADDR * 64) } ∧ t.chanState k = 1 ∧
    s.regsBut t [chCtrl k, chStateReg k] ∧ t.home = s.home) ∧
  (rqKernel rq = true → (s.precOfChan k).isSome = true → s.chainMode k = false → st = 0 ∨ st = 5 →
    exec (.porterGo rq c) s = .next (s.swapStart k)) ∧
  (rqKernel rq = true → (s.precOfChan k).isSome = true → s.chainMode k = false → st = 1 ∨ st = 2 ∨ st = 3 →
    exec (.porterGo rq c) s = .next (s.fset (chCtrl k) F.porterChCtrl_GO 1)) ∧
  (rqKernel rq = false ∨ s.precOfChan k = none → exec (.porterGo rq c) s = stray (chCtrl k)) ∧
  (rqKernel rq = true → ch.busy = true → ch.aborted = false → Completes (exec (.porterAbort rq c) s) fun t =>
    t.chanState k = 3 ∧ (t.chan k).aborted = true ∧ (t.chan k).pre = none ∧ (t.chan k).issued = ch.issued ∧
    (∀ b ∈ (t.chan k).flight, b ∈ ch.flight ∧ b.isFlush = false) ∧
    ((∀ x ∈ s.bell.queue, ∀ w ∈ x.2, w.src ≠ .chan k) → t.home = s.home)) ∧
  (rqKernel rq = false ∨ ch.busy = false ∨ ch.aborted = true → exec (.porterAbort rq c) s = stray (chCtrl k)) ∧
  (rqKernel rq = true → s.chainMode k = true → st = 5 → Completes (exec (.porterResume rq c) s) fun t =>
    t.chan k = { reread := true } ∧ t.chanState k = 1 ∧ s.regsBut t [chStateReg k] ∧ t.home = s.home) ∧
  (rqKernel rq = false ∨ s.chainMode k = false ∨ st ≠ 5 → exec (.porterResume rq c) s = stray (chCtrl k)) ∧
  (rqKernel rq = true → st = 4 → exec (.porterDoorbell rq c) s = .next (s.setChan k { ch with reread := true })) ∧
  (rqKernel rq = true → st ≠ 4 → Completes (exec (.porterDoorbell rq c) s) fun t =>
    t.fget ⟨.porterChDbCount, k, 0⟩ F.porterChDbCount_COUNT =
      min (s.fget ⟨.porterChDbCount, k, 0⟩ F.porterChDbCount_COUNT + 1) (2 ^ F.porterChDbCount_COUNT.width - 1) ∧
    (st = 1 ∨ st = 2 ∨ st = 3 → t.fget (chStateReg k) F.porterChState_DB_PENDING = 1) ∧ t.chanState k = st ∧ t.porter = s.porter) ∧
  (rqKernel rq = false → exec (.porterDoorbell rq c) s = stray ⟨.porterChDoorbell, k, 0⟩)

/-- What a channel does of itself (R276, R283, R284, R289, R293): it loads the descriptor it waits for, or halts with the code of a read
that failed; a met wait lets it run; one burst of the arbitrated channel is issued, at most 64 are in flight; a burst of device memory is
read at its home; a drained descriptor without a barrier completes. R286 to R290: a register-mode descriptor that moved all its bytes, names
no counter, asks for no interrupt and has no GO behind it completes with status 0 and the channel is IDLE; with GO set the next transfer
starts. -/
def Obligations.PorterProgress : Prop :=
  (∀ (s : State) (c : ChanNo) (q : Qn),
  let k := c.val
  let ch := s.chan k
  let chans := (List.range 64).map (64 * q.val + ·)
  let el := chans.filter fun x => s.eligible x
  (∀ a u d, s.chainMode k = true → s.chanState k ≠ 6 → ch.busy = false → ch.fetchAt = some a → s.descRead k a = (u, some (.ok d)) →
    exec (.porterDescFetch c) s = .next (u.chanLoad k a d)) ∧
  (∀ a u code, s.chainMode k = true → s.chanState k ≠ 6 → ch.busy = false → ch.fetchAt = some a → s.descRead k a = (u, some (.error code)) →
    exec (.porterDescFetch c) s = .next ((u.wr ⟨.porterChCur, k, 0⟩ (BitVec.ofNat 64 a)).chanHalt k code)) ∧
  (s.chainMode k = false → exec (.porterDescFetch c) s = .next s) ∧
  (s.chanState k = 2 → s.bell.met.contains (.chan k) = true → Completes (exec (.porterWaitMet c) s) fun t =>
    t.chanState k = (if dLength (s.act k) = 0 then 3 else 1) ∧ t.bell.met = s.bell.met.erase (.chan k) ∧
    s.regsBut t [chStateReg k] ∧ t.home = s.home) ∧
  (s.chanState k ≠ 2 → exec (.porterWaitMet c) s = .next s) ∧
  (el = [] → exec (.porterBurstGrant q) s = .next s) ∧
  (el ≠ [] → s.qFenced q.val = false → 64 ≤ (chans.map fun x => (s.chan x).flight.length).sum →
    exec (.porterBurstGrant q) s = .next (s.count q.val 42 4 1)) ∧
  (∀ u x left, el ≠ [] → s.qFenced q.val = false → (chans.map fun x => (s.chan x).flight.length).sum < 64 →
    let level := (el.map fun x => s.prio x).foldl max 0
    s.pick q.val level (el.filter fun x => decide (s.prio x = level)) = (u, some (x, left)) →
    ∃ v b, exec (.porterBurstGrant q) s = .next (State.burstTranslate v x b) ∧
      b.len = burstLen (s.act x) (s.chan x).issued (s.fget (chCfg x) F.porterChCfg_BURST_LOG2) ∧
      b.src = dSrc (s.act x) + (s.chan x).issued ∧ b.dst = dDst (s.act x) + (s.chan x).issued ∧
      (v.chan x).issued = (s.chan x).issued + b.len ∧ (v.chan x).flight = (s.chan x).flight ++ [b] ∧ v.home = s.home) ∧
  (∀ n b u d p, s.chanState k ≠ 6 → s.burst k n = some b → b.phase = .read → b.srcTgt = 0 → b.isFlush = false →
    s.readMem (s.reqPrec (chReq k)) (chReq k) b.srcAsid b.srcPa b.len = (u, d, p) →
    exec (.porterBurstResponse c n (.ok [] false)) s = .next ((u.setBurst k { b with data := d, poison := p, phase := .write }).burstWrite k
      { b with data := d, poison := p, phase := .write })) ∧
  (∀ n, s.chanState k ≠ 6 → s.burst k n = none → exec (.porterBurstResponse c n (.ok [] false)) s = .next s) ∧
  (s.drained k = true → dBarrier (s.act k) = false → exec (.porterDescComplete c) s = .next (s.descDone k)) ∧
  (s.drained k = false → exec (.porterDescComplete c) s = .next s)) ∧
  (∀ (s : State) (k : Nat), k < 256 →
  let ch := s.chan k
  let d := s.act k
  s.chainMode k = false → ch.fail = none → ch.aborted = false → ch.skipped = false → dSigCtr d = 0xFFFF → dIrq d = false →
  (s.chGo k = false → ∃ t, s.descDone k = t ∧ t.fget ⟨.porterChLast, k, 0⟩ ⟨63, 0⟩ = 0 ∧ t.chanState k = 0 ∧ t.chan k = {} ∧ t.home = s.home) ∧
  (s.chGo k = true → ∃ u : State, u.chan k = {} ∧ u.rd ⟨.porterChLast, k, 0⟩ = 0 ∧ u.home = s.home ∧ s.descDone k = u.swapStart k))

/-- The Street rows (R248 to R252): a route that the rules admit comes into force with 32 credits; clearing VALID of a route in force starts
its drain; a drained one ends; a flit crosses on a credit and takes it, and without one waits and is counted; the receiver's taking a flit
gives the credit back. -/
def Obligations.StreetRows : Prop := ∀ (s : State) (rq : Requester) (q : Qn) (n : Fin 256) (v : W64) (f : Flit) (fs : List Flit),
  let r := routeReg q.val n.val
  let src := s.fget r F.streetRoute_SRC_STALL
  let sp := s.fget r F.streetRoute_SRC_PORT
  let dst := s.fget r F.streetRoute_DST_STALL
  let dp := s.fget r F.streetRoute_DST_PORT
  (rqKernel rq = true → s.routeOk q.val n.val v = true → Completes (exec (.streetRouteSetup rq q n v) s) fun t =>
    t.routeActive q.val n.val = true ∧ t.fget r F.streetRoute_VALID = 1 ∧ t.fget r F.streetRoute_BORDER = 0 ∧
    t.fget r F.streetRoute_SRC_STALL = bitsOf v F.streetRoute_SRC_STALL ∧ t.fget r F.streetRoute_DST_STALL = bitsOf v F.streetRoute_DST_STALL ∧
    t.fget r F.streetRoute_PRECINCT = bitsOf v F.streetRoute_PRECINCT ∧ t.routeCredits q.val n.val = 32 ∧ s.regsBut t [r] ∧ t.home = s.home) ∧
  (rqKernel rq = false ∨ s.routeOk q.val n.val v = false → exec (.streetRouteSetup rq q n v) s = .next (s.strayCode (rqCode rq) 2 r.offset)) ∧
  (rqKernel rq = true → s.fbit r F.streetRoute_BORDER = false → s.routeActive q.val n.val = true →
    exec (.streetRouteTeardown rq q n v) s = .next (s.fset r F.streetRoute_VALID 0)) ∧
  (rqKernel rq = false ∨ s.fbit r F.streetRoute_BORDER = true → exec (.streetRouteTeardown rq q n v) s = .next (s.strayCode (rqCode rq) 2 r.offset)) ∧
  (s.routeActive q.val n.val = true → s.fbit r F.streetRoute_VALID = false → s.inFlits dst dp = [] → s.routeCredits q.val n.val = 32 →
    exec (.streetRouteDrained q n) s = .next (s.fset r F.streetRoute_ACTIVE 0)) ∧
  (s.fbit r F.streetRoute_VALID = true → exec (.streetRouteDrained q n) s = .next s) ∧
  (s.routeActive q.val n.val = true → s.fbit r F.streetRoute_VALID = true → lookD [] s.street.outq (key2 src sp) = f :: fs →
    (0 < s.routeCredits q.val n.val → s.injAt 0x03 src (fun _ => true) = none → Completes (exec (.streetFlit q n false) s) fun t =>
      lookD [] t.street.outq (key2 src sp) = fs ∧ t.inFlits dst dp = s.inFlits dst dp ++ [f] ∧
      t.routeCredits q.val n.val = s.routeCredits q.val n.val - 1 ∧ t.home = s.home ∧ t.out = s.out) ∧
    (s.routeCredits q.val n.val = 0 → exec (.streetFlit q n false) s = .next (s.count q.val 46 1 1))) ∧
  (s.routeActive q.val n.val = true → s.pieceLater dst dp = false → s.inFlits dst dp = f :: fs → Completes (exec (.streetCreditReturn q n) s) fun t =>
    t.inFlits dst dp = fs ∧ lookD [] t.street.taken (key2 dst dp) = lookD [] s.street.taken (key2 dst dp) ++ [f] ∧
    t.routeCredits q.val n.val = min 32 (s.routeCredits q.val n.val + 1) ∧ t.regs = s.regs ∧ t.home = s.home)

/-- The Boulevard rows (R253 to R255): a new transfer over a Boulevard that is UP takes the next sequence number and waits for its
acknowledgement; a Boulevard that has retrained is in RELAY_DRAIN at both ends and comes UP when no relayed transfer is outstanding, and the
base dies it joins are cut off no more (R35). R254: a transfer that has been applied is not applied again, whatever is replayed, and one
that has not is applied once and leaves the direction expecting the next; an acknowledgement forgets exactly the transfer it names. -/
def Obligations.Boulevards : Prop :=
  (∀ (s : State) (p q : Qn) (a : HomeAccess) (e : BlvdEnd),
  let d := s.blvdDir p.val q.val
  (p ≠ q → s.blvdIs p.val q.val 2 = true → homeQ a.addr = q.val → reqQ a.req ≠ q.val → d.unacked = [] → HomeAccess_buffers a ≤ 4096 →
    s.injAt 0x04 (blvdUnit q.val p.val) (fun _ => true) = none →
    exec (.blvdTransfer p q false a e) s =
      .next ((s.setDir p.val q.val { d with next := d.next + 1, unacked := [⟨d.next, a⟩] }).blvdCross p.val q.val ⟨d.next, a⟩ false e)) ∧
  exec (.blvdTransfer p p false a e) s = .next s ∧
  (p ≠ q → s.blvdIs p.val q.val 2 = false → s.blvdIs p.val q.val 3 = false → Completes (exec (.blvdRetrained p q) s) fun t =>
    t.blvdIs p.val q.val 3 = true ∧ t.blvdIs q.val p.val 3 = true ∧ s.regsBut t [blvdReg p.val q.val, blvdReg q.val p.val] ∧
    t = { s with regs := t.regs }) ∧
  (p ≠ q → s.blvdIs p.val q.val 3 = true → d.unacked = [] → (s.blvdDir q.val p.val).unacked = [] →
    Completes (exec (.blvdRelayDrainDone p q) s) fun t =>
      t.blvdIs p.val q.val 2 = true ∧ t.blvdIs q.val p.val 2 = true ∧ p.val ∉ t.err.cutOff ∧ q.val ∉ t.err.cutOff ∧
      s.regsBut t [blvdReg p.val q.val, blvdReg q.val p.val] ∧ t.home = s.home) ∧
  (s.blvdIs p.val q.val 3 = false → exec (.blvdRelayDrainDone p q) s = .next s)) ∧
  (∀ (s : State) (p q : Nat) (t : Transfer),
  let d := s.blvdDir p q
  (t.seq < d.applied → s.blvdApply p q t = s) ∧
  (d.applied ≤ t.seq → s.blvdApply p q t = (s.setDir p q { d with applied := t.seq + 1 }).homeAccess t.access) ∧
  ((s.blvdAck p q t.seq).blvdDir p q).unacked = d.unacked.filter (fun x => decide (x.seq ≠ t.seq)) ∧
  ((s.blvdAck p q t.seq).blvdDir p q).applied = d.applied ∧ (s.blvdAck p q t.seq).home = s.home)

/-- The Weighmaster rows (R538, R541, R543): events of an unarmed slot add to COUNT modulo 2^48, a carry going to the extension of a chained
slot and setting WRAPPED of an unchained one; a kernel core's write sets COUNT and clears WRAPPED where its bit is 1; a write of WM_CHAIN
sets the extension of every slot whose bit changes to 0. No memory changes. -/
def Obligations.WeighmasterRows : Prop := ∀ (s : State) (rq : Requester) (q : Fin 5) (b : Fin 58) (n : Fin 16) (v : W64) (k ctx asid : Nat) (u : Bool),
  let r := wmReg q.val b.val n.val
  let x := wmReg q.val b.val (n.val + 16)
  let ch : Reg := ⟨.wmChain, q.val, b.val⟩
  let c := s.fget r F.wmCnt_COUNT
  let m : Fin 32 := ⟨n.val, by omega⟩
  (wmSlotOk q.val b.val n.val = true → k ≠ 0 → k < 2 ^ 48 → s.qFenced q.val = false → s.slotArmed q.val b.val n.val = false →
    Completes (exec (.wmCounterCarry q b n k ctx asid u) s) fun t =>
      t.fget r F.wmCnt_COUNT = (c + k) % 2 ^ 48 ∧ s.regsBut t [r, x] ∧ t = { s with regs := t.regs } ∧
      (c + k < 2 ^ 48 → t.rd x = s.rd x ∧ t.fget r F.wmCnt_WRAPPED = s.fget r F.wmCnt_WRAPPED) ∧
      (2 ^ 48 ≤ c + k → s.chained q.val b.val n.val = true → t.fget x F.wmCnt_COUNT = (s.fget x F.wmCnt_COUNT + 1) % 2 ^ 48) ∧
      (2 ^ 48 ≤ c + k → s.chained q.val b.val n.val = false → t.fget r F.wmCnt_WRAPPED = 1 ∧ t.rd x = s.rd x)) ∧
  (wmSlotOk q.val b.val n.val = false → exec (.wmCounterCarry q b n k ctx asid u) s = .next s) ∧
  (rqKernel rq = true → wmSlotOk q.val b.val n.val = true → Completes (exec (.wmCounterWrite rq q b m v) s) fun t =>
    t.fget r F.wmCnt_COUNT = bitsOf v F.wmCnt_COUNT ∧
    t.fget r F.wmCnt_WRAPPED = (if bitsOf v F.wmCnt_WRAPPED = 1 then 0 else s.fget r F.wmCnt_WRAPPED) ∧
    s.regsBut t [r] ∧ t = { s with regs := t.regs }) ∧
  (rqKernel rq = false → exec (.wmCounterWrite rq q b m v) s = .next (s.strayCode (rqCode rq) 2 r.offset)) ∧
  (rqKernel rq = true → wmSlotOk q.val b.val 0 = true → Completes (exec (.wmChainWrite rq q b v) s) fun t =>
    t.fget ch F.wmChain_CHAIN = bitsOf v F.wmChain_CHAIN ∧ t.rd r = s.rd r ∧ t = { s with regs := t.regs } ∧
    t.rd x = if s.chained q.val b.val n.val = nbit (bitsOf v F.wmChain_CHAIN) n.val then s.rd x else 0) ∧
  (rqKernel rq = false → wmSlotOk q.val b.val 0 = true → exec (.wmChainWrite rq q b v) s = .next (s.strayCode (rqCode rq) 2 ch.offset)) ∧
  (wmSlotOk q.val b.val 0 = false → exec (.wmChainWrite rq q b v) s = .next (s.strayCode (rqCode rq) 0 ch.offset))

/-- STALL_RING_TAIL_WRITE and STALL_TASK_FETCH (R187, R192): a kernel core's write moves TAIL, another requester's is a stray write, and so
is one at a stall without a ring; a stall that may fetch takes the descriptor at HEAD, HEAD goes on modulo the ring's size and an idle stall
is at work; a poisoned descriptor makes a task that has ended with POISONED_INPUT. STALL_TASK_COMPLETE (R189): a task that has run has its
status written with DONE, leaves the ring, and its STATUS stands in LAST_STATUS; with no task behind it the stall is IDLE, or HALTED where
HALT is set. A task that has not run is left alone. -/
def Obligations.TaskRings : Prop :=
  (∀ (s u : State) (rq : Requester) (st : StallNo) (v : W64) (d : Bytes) (p : Bool),
  let k := st.val
  let tail : Reg := ⟨.stallRingTail, k, 0⟩
  let head : Reg := ⟨.stallRingHead, k, 0⟩
  let i := s.fget head F.stallRingHead_HEAD % s.ringSize k
  (ringKind (stallKind k) = true → stallOk k = true → rqKernel rq = true →
    exec (.stallRingTailWrite rq st v) s = .next (s.fset tail F.stallRingTail_TAIL (bitsOf v F.stallRingTail_TAIL))) ∧
  (ringKind (stallKind k) = true → stallOk k = true → rqKernel rq = false →
    exec (.stallRingTailWrite rq st v) s = .next (s.strayCode (rqCode rq) 2 tail.offset)) ∧
  (ringKind (stallKind k) = false ∨ stallOk k = false → exec (.stallRingTailWrite rq st v) s = .next (s.strayCode (rqCode rq) 0 tail.offset)) ∧
  (s.mayFetch k = true → s.readMem (s.reqPrec k) k 0 (s.taskAddr k i) 128 = (u, d, p) → Completes (exec (.stallTaskFetch st) s) fun t =>
    t.tasks k = u.tasks k ++ [if p then { index := i, desc := List.replicate 128 0#8, phase := .done, status := 6 } else { index := i, desc := d }] ∧
    t.fget head F.stallRingHead_HEAD = (i + 1) % s.ringSize k ∧ (u.tasks k = [] → t.stallSt k = 1) ∧ t.home = u.home ∧ t.out = u.out) ∧
  (s.mayFetch k = false → exec (.stallTaskFetch st) s = .next s)) ∧
  (∀ (s u w : State) (st : StallNo) (t : Task) (b c : Bool),
  let k := st.val
  let word := t.status + b2n t.nan * 2 ^ 16 + b2n t.overflow * 2 ^ 17
  let a := s.taskAddr k t.index + 0x14
  (s.tasks k = [t] → t.phase = .done → s.stallFenced k = false → tSigCtr t.desc = 0xFFFF →
    s.writeMem (s.reqPrec k) k 0 a (leBytes 4 word) false = (u, b) →
    u.writeMem (u.reqPrec k) k 0 a (leBytes 4 (word + 2 ^ 31)) false = (w, c) →
    w.tasks k = [t] → w.stallFenced k = false → w.slotArmed (stallQ k) (participant k) 5 = false →
    (∀ l, nbit (w.rd ⟨.alleyEn, stallQ k, l⟩).toNat (participant k) = false) → t.status < 256 →
    Completes (exec (.stallTaskComplete st) s) fun x =>
      x.tasks k = [] ∧ x.home = w.home ∧ x.fget (ringState k) F.stallState_LAST_STATUS = t.status ∧
      x.stallSt k = (if w.fbit (ringCtrl k) F.stallCtrl_HALT then 3 else 0)) ∧
  (s.tasks k = [] → exec (.stallTaskComplete st) s = .next s) ∧
  (∀ r, s.tasks k = t :: r → t.phase ≠ .done → exec (.stallTaskComplete st) s = .next s))

/-- Every row that runs a task (R188, R190): the Scales GEMM pass, the Barrow's pool and scatter-add, the Sieve's four operations, the
Baler's two, the Crossing's three, Tally's two and the Cashbox's seven. A scatter-add and a Tally task then look whether they are through.
-/
def Obligations.TaskRows : Prop := ∀ (s : State) (st : StallNo) (m : Bool),
  let k := st.val
  let isx (d : Bytes) : Bool := match s.ctxOf (kCtx d) with | some (_, c) => isXts c.algo | none => false
  TaskRow s k 0 1 1 gemmOk (gemmOp k) id (exec (.scalesGemmPass st) s) ∧
  TaskRow s k 1 1 2 poolOk (poolOp k) id (exec (.barrowPool st) s) ∧
  TaskRow s k 1 2 2 scatterOk (scatterOp k) (fun u => u.addsDone k) (exec (.barrowScatterAdd st) s) ∧
  TaskRow s k 2 1 4 sieveOk (sieveOp sL sL (fun d => if sAux d = 0 then 32 else elemBits (sAux d)) (sortBody k)) id (exec (.sieveSort st) s) ∧
  TaskRow s k 2 2 4 sieveOk (sieveOp sK sK (fun _ => 32) (topkBody k)) id (exec (.sieveTopK st) s) ∧
  TaskRow s k 2 3 4 sieveOk (sieveOp sL (fun _ => 1) (fun _ => 32) (fun d => compactBody k d false)) id (exec (.sieveCompact st) s) ∧
  TaskRow s k 2 4 4 sieveOk (sieveOp sL (fun _ => 1) (fun _ => 32) (fun d => compactBody k d true)) id (exec (.sieveDedup st) s) ∧
  TaskRow s k 5 1 2 balerOk (balerOp k fun b => some (compress b)) id (exec (.balerCompress st) s) ∧
  TaskRow s k 5 2 2 balerOk (balerOp k Config.unpack) id (exec (.balerDecompress st) s) ∧
  TaskRow s k 3 1 3 gateOk (gateOp k) id (exec (.crossingGate st) s) ∧
  TaskRow s k 3 2 3 dispatchOk (dispatchOp k) id (exec (.crossingDispatch st) s) ∧
  TaskRow s k 3 3 3 combineOk (combineOp k) id (exec (.crossingCombine st) s) ∧
  TaskRow s k 4 1 2 tallyOk (tallyOp (reduceBody k)) (fun u => u.bankFree k) (exec (.tallyReduce st) s) ∧
  TaskRow s k 4 2 2 tallyOk (tallyOp (mergeBody k)) (fun u => u.bankFree k) (exec (.tallySparseMerge st) s) ∧
  TaskRow s k 6 1 7 (cashOk k) (cashOp true (fun d => if isx d then 0 else lastTag d) false (encryptBody k m)) id (exec (.cashboxEncrypt st m) s) ∧
  TaskRow s k 6 2 7 (cashOk k) (cashOp true (fun _ => 0) true (decryptBody k m)) id (exec (.cashboxDecrypt st m) s) ∧
  TaskRow s k 6 3 7 (cashOk k) (cashOp false (fun d => if kOut d then 8 else 0) true (verifyBody k m)) id (exec (.cashboxVerify st m) s) ∧
  TaskRow s k 6 4 7 (cashOk k) (cashOp false lastTag false (digestBody k m)) id (exec (.cashboxDigest st m) s) ∧
  TaskRow s k 6 5 7 (cashOk k) (fun s d => { cashOp false (fun _ => 0) false (saveBody k) s d with outs := [(leAt d 0x38 8, 176)] }) id
    (exec (.cashboxSaveWrapped st) s) ∧
  TaskRow s k 6 6 7 (cashOk k) (cashOp false (fun _ => 0) false (restoreBody k)) id (exec (.cashboxRestoreWrapped st) s) ∧
  TaskRow s k 6 7 7 (cashOk k) (cashOp false (fun _ => 0) false (resetBody k)) id (exec (.cashboxCtxReset st) s)

/-- What running a task does (R188, R190, R194): a malformed task has ended with status 1 and nothing else has happened; a body that the
Surveyor holds leaves the task waiting; one that fails ends it with its status; one that succeeds has its result written to its output range
and ends with its own status. -/
def Obligations.TaskRunEffects : Prop := ∀ (s u v w : State) (st : Nat) (t : Task) (rest : List Task) (op : TaskOp) (c : Calc) (n va len : Nat)
    (b : Bytes) (ps : List (Nat × Nat)), s.tasks st = t :: rest →
  let asid := tAsid t.desc
  (∃ x, s.taskMalformed st = x ∧ x.tasks st = { t with phase := .done, status := 1, nan := false, overflow := false } :: rest ∧
    x = { s with stall := x.stall }) ∧
  (op.body.run s = (.error .held, u) → s.runTask st t op = u) ∧
  (op.body.run s = (.error (.fail n), u) → op.outs = [] → op.inPorts = [] → op.outPorts = [] → s.runTask st t op = u.taskRan st n {}) ∧
  (op.body.run s = (.ok c, u) → op.scratch = [] → op.outs = [(va, len)] → op.inPorts = [] → op.outPorts = [] →
    c.outs = [b] → c.events = [] → c.adds = [] → c.addFail = 0 → u.transRange (stallQ st) st asid va b.length true = (v, .ok ps) →
    v.writePieces st asid (piecesTake ps b.length) b false = (w, false) → s.runTask st t op = w.taskRan st c.status c)

/-- TALLY_CELL_ADD and TALLY_PIECE_ARRIVE (R135, R136, R205, R329): the add at a position leaves the list however it ends, with
POISONED_INPUT kept for its task where its value is poisoned; a whole stream that lies in the range of a task waiting for pieces is taken
for it. R115, R136: a Tally cell's 96 bytes give back its word, and a cell with a reserved bit set gives none. -/
def Obligations.TallyCommands : Prop :=
  (∀ (s u : State) (n : Nat) (a : CellAdd) (st : StallNo) (port : Fin 2) (b : Bytes) (t : Task),
  let k := st.val
  (s.stall.adds[n]? = some a → a.poison = true → s.tasks a.req = [] → Completes (exec (.tallyCellAdd n) s) fun x =>
    x.stall.adds = s.stall.adds.eraseIdx n ∧ x = { s with stall := x.stall }) ∧
  (s.stall.adds[n]? = some a → a.poison = false →
    s.cellAdd (stallQ a.req) a.req a.asid a.va (fun w => w.add a.value) = (u, .held) → exec (.tallyCellAdd n) s = .next u) ∧
  (s.stall.adds[n]? = some a → a.poison = false →
    s.cellAdd (stallQ a.req) a.req a.asid a.va (fun w => w.add a.value) = (u, .ended 0) → u.tasks a.req = [] →
    exec (.tallyCellAdd n) s = .next { u with stall := { u.stall with adds := u.stall.adds.eraseIdx n } }) ∧
  (stallKind k = 4 → stallOk k = true → s.stallFenced k = false → s.stream k port.val = some (b, false) → s.tasks k = [t] →
    t.phase = .waiting → pieceOk b = true → pieceIn t.desc b = true → s.piecesFull k t = false → pieceFits t.desc b = true →
    exec (.tallyPieceArrive st port) s = .next ((s.streamTake k port.val).pieceTake k t b false)) ∧
  (stallKind k = 4 → stallOk k = true → s.stallFenced k = false → s.stream k port.val = some (b, false) → s.tasks k = [t] →
    t.phase = .waiting → pieceOk b = false →
    exec (.tallyPieceArrive st port) s = .next ((s.streamTake k port.val).pieceBad k)) ∧
  (stallKind k ≠ 4 → exec (.tallyPieceArrive st port) s = .next s)) ∧
  ((∀ w : Tw, w.t < 2 ^ 640 → w.st < 8 → w.cell.length = 96 ∧ Tw.ofCell w.cell = some w) ∧
  (∀ b : Bytes, leAt b 88 8 ≠ 0 ∨ 8 ≤ leAt b 80 8 → Tw.ofCell b = none))

/-- R136: a scatter-add at an address that is not 32-byte aligned, or at a cell with a nonzero reserved bit, changes nothing there and ends
as a malformed operand. -/
def Obligations.ScatterMalformed : Prop := ∀ (s u w : State) (q req asid va : Nat) (f : Tw → Tw) (ps : List (Nat × Nat)) (b : Bytes),
  (va % 32 ≠ 0 → s.cellAdd q req asid va f = (s, .ended 2)) ∧
  (va % 32 = 0 → s.transRange q req asid va 96 true = (u, .ok ps) → u.readPieces req asid ps = (w, b, false) → leAt b 88 8 ≠ 0 ∨ 8 ≤ leAt b 80 8 →
    s.cellAdd q req asid va f = (w, .ended 2))

/-- R116 to R118, R173: an exact sum does not depend on the order of its terms, a sum of two lists is the merge of their sums, and so an
element of a matrix product under an exact policy does not depend on the order of its products. R121, Table 4.2: every finite element of a
format of at most 8 bits, except a negative zero, is encoded again as itself under every rounding mode. -/
def Obligations.ExactSumsAndFormats : Prop :=
  ((∀ xs ys : List Ex, xs.Perm ys → sumEx xs = sumEx ys) ∧
  (∀ xs ys : List Ex, sumEx (xs ++ ys) = (sumEx xs).merge (sumEx ys)) ∧
  (∀ (pol : Nat) (as bs as' bs' : List Ex) (c : Option Tw), polFast pol = false → (as.zip bs).Perm (as'.zip bs') →
    dotEx pol as bs c = dotEx pol as' bs' c)) ∧
  (∀ (f : FFmt) (b pol : Nat), f ∈ [e4m3, e5m2, e3m2, e2m3, e2m1] → b < 2 ^ (f.e + f.m + 1) →
  b ≠ 2 ^ (f.e + f.m) → pol < 5 → (∃ n d, f.decode b = .fin n d) → (f.encode pol (f.decode b)).bits = b)

/-- R118: what NaN and infinite terms, and the products that give them, do to a Tally word. -/
def Obligations.SpecialTerms : Prop := ∀ (w : Tw) (n : Int) (d : Nat) (x : Ex),
  w.add .nan = { w with st := setBit w.st 0 } ∧ w.add .pinf = { w with st := setBit w.st 1 } ∧ w.add .ninf = { w with st := setBit w.st 2 } ∧
  (w.add .nan).t = w.t ∧ (w.add .pinf).t = w.t ∧ (w.add .ninf).t = w.t ∧
  (Ex.mul .nan x = .nan ∧ Ex.mul x .nan = .nan) ∧
  (∀ y : Ex, y = .pinf ∨ y = .ninf → Ex.mul y (.fin 0 d) = .nan ∧ Ex.mul (.fin 0 d) y = .nan) ∧
  (0 < n → Ex.mul .pinf (.fin n d) = .pinf ∧ Ex.mul (.fin n d) .pinf = .pinf ∧ Ex.mul .ninf (.fin n d) = .ninf ∧ Ex.mul (.fin n d) .ninf = .ninf) ∧
  (n < 0 → Ex.mul .pinf (.fin n d) = .ninf ∧ Ex.mul (.fin n d) .pinf = .ninf ∧ Ex.mul .ninf (.fin n d) = .pinf ∧ Ex.mul (.fin n d) .ninf = .pinf) ∧
  (Ex.mul .pinf .pinf = .pinf ∧ Ex.mul .ninf .ninf = .pinf ∧ Ex.mul .pinf .ninf = .ninf ∧ Ex.mul .ninf .pinf = .ninf)

/-- R414 to R416: a drawn nonce is the stall's prefix, the boot epoch and the next value of the context's block, a block being reserved from
the key first where none is left; the context then has one value fewer; no nonce is drawn in the last epoch. -/
def Obligations.CashboxNonces : Prop := ∀ (s t : State) (st n : Nat) (b : Bytes) (fresh : Bool),
  let c := s.ctxRec n
  let e := c.key % 2 ^ 16
  let v := if c.left = 0 then (s.keyEnt e).next else c.nonceNext
  (s.drawNonce st n = some (t, b, fresh) →
    b = beBytes 4 (s.noncePrefix st) ++ beBytes 2 (s.bootEpoch st) ++ beBytes 6 v ∧ (t.ctxRec n).nonceNext = v + 1 ∧
    (t.ctxRec n).left = (if c.left = 0 then 2 ^ 16 else c.left) - 1 ∧ fresh = decide (c.left = 0) ∧
    (t.keyEnt e).next = (if c.left = 0 then (s.keyEnt e).next + 2 ^ 16 else (s.keyEnt e).next) ∧ t.regs = s.regs ∧ t.home = s.home) ∧
  (s.bootEpoch st = 0xFFFF → s.drawNonce st n = none) ∧
  (c.left = 0 → 2 ^ 48 < (s.keyEnt e).next + 2 ^ 16 → s.drawNonce st n = none)

/-- DOCKET_SUBMIT and DOCKET_CANCEL (R166, R167): a message that asks for a docket is answered OK and the docket is outstanding, BUSY with
64 outstanding and MALFORMED with a misaligned completion address; a cancel of an outstanding docket ends it with CANCELLED, and one of a
tag that is unknown or over is answered NOT_FOUND and changes nothing else. -/
def Obligations.DocketMessages : Prop := ∀ (s u : State) (f : FuncNo) (i : Inst) (d : Docket) (m : Bytes) (bound : List (Nat × Nat))
    (far : List FarAns),
  let k := f.val
  let o := exec (.docketSubmit f bound far) s
  let c := exec (.docketCancel f) s
  (s.takeMsg k 0x0010 32 = .ok m → s.inst k = some i → mZero m 12 4 = true → mNum m 16 8 % 64 = 0 → i.dockets.length < 64 →
    s.acceptDocket k i m bound far = (u, some d) →
    o = .next ((u.setInst k { i with dockets := i.dockets ++ [d] }).reply k m 0 0 []) ∧ d.tag = mNum m 24 8 ∧ d.complAddr = mNum m 16 8 ∧
    d.held = false ∧ d.parked = false ∧ d.ending = none ∧ (d.refused = none → ∀ p ∈ d.phases, p = .waiting)) ∧
  (s.takeMsg k 0x0010 32 = .ok m → s.inst k = some i → mZero m 12 4 = true → mNum m 16 8 % 64 = 0 → 64 ≤ i.dockets.length →
    o = .next (s.reply k m 2 0 [])) ∧
  (s.takeMsg k 0x0010 32 = .ok m → s.inst k = some i → mZero m 12 4 = false ∨ mNum m 16 8 % 64 ≠ 0 → o = .next (s.reply k m 1 0 [])) ∧
  (s.takeMsg k 0x0010 32 = .error u → o = .next u) ∧
  (s.takeMsg k 0x0011 8 = .ok m → s.docket k (mNum m 0 8) = some (i, d) → d.over = false →
    c = .next ((s.changeDocket k (mNum m 0 8) fun x => x.endWith 0x10 noOp).reply k m 0 0 [])) ∧
  (s.takeMsg k 0x0011 8 = .ok m → s.inst k = some i → s.docket k (mNum m 0 8) = none → c = .next (s.reply k m 3 0 [])) ∧
  (s.takeMsg k 0x0011 8 = .ok m → s.docket k (mNum m 0 8) = some (i, d) → d.over = true → c = .next (s.reply k m 3 0 [])) ∧
  (s.takeMsg k 0x0011 8 = .error u → c = .next u)

/-- OPERATION_START, OPERATION_COMPLETE, DOCKET_COMPLETE and BELL_HANG (R151, R152, R154, R155, R157, R158, R315): an operation whose turn
has come and whose waits are met runs, having consumed its waits, or is skipped and signals where its predicate is false; a running
operation ends, and its SIGNAL counts; a docket of a lost connection ends with REMOTE_FAILED; a docket that is over leaves the list once its
record is written; a waiter past its limit sets HANG and is not released. What the end of an operation does to its docket (R152, R153, R157,
R158): the operation is done; a status that is not ending is recorded for it and its SIGNAL counts all the same; an ending status stops the
docket with it; a skipped operation signals as a completed one does. -/
def Obligations.DocketRuns : Prop :=
  (∀ (s u : State) (f : FuncNo) (i j : Inst) (d : Docket) (tag : W64) (n : Nat) (o : DOp) (placed : List Nat)
    (far : List FarAns) (ms : List (Nat × Bytes × Bool)) (r : OpEnd) (ds : List Docket) (p : DPred) (q : Qn) (c : Fin 4096) (w : Waiter) (x : Nat),
  let k := f.val
  let t := tag.toNat
  let can : Prop := s.docket k t = some (i, d) ∧ d.prog.ops[n]? = some o ∧ d.phases.getD n .done = .waiting ∧ d.refused = none ∧ d.ending = none ∧
    d.inTurn i n o = true ∧ s.waitsMet d o = true ∧ s.placedOk i d.prog o placed = true
  let start := exec (.operationStart f tag n placed far) s
  let complete := exec (.operationComplete f tag n ms false far) s
  let running : Prop := s.docket k t = some (i, d) ∧ d.prog.ops[n]? = some o ∧ d.phases.getD n .done = .running ∧ o.opcode ≠ 0x12 ∧ o.opcode ≠ 0x0A
  let e := s.opEnv k i d n o ((look d.placed n).getD [])
  let key := ctrKey q c
  (can → s.parks k i = false → o.waits = [] → d.prog.preds[o.pred]? = none → o.opcode ≠ 0x12 →
    start = .next (s.changeDocket k t fun _ => { d with phases := d.phases.set n .running, placed := put d.placed n placed, parked := false })) ∧
  (can → s.parks k i = false → o.waits = [(x, 1)] → look d.bound x = none → d.prog.preds[o.pred]? = none → o.opcode ≠ 0x12 →
    start = .next (s.changeDocket k t fun _ => { d with
      ctrs := d.ctrs.set x (d.ctrs.getD x 0 - 1), phases := d.phases.set n .running, placed := put d.placed n placed, parked := false })) ∧
  (can → s.parks k i = false → o.waits = [] → d.prog.preds[o.pred]? = some p → p.source = 0 → p.holds (s.dctr d p.ref) p.value = o.negate →
    start = .next (s.changeDocket k t fun _ => { ({ d with phases := d.phases.set n .skipped }.signalOp n o) with parked := false })) ∧
  (can → s.parks k i = true → o.step = true → d.started = true →
    start = .next ((s.changeDocket k t fun d => { d with parked := true }).countHeld k)) ∧
  (s.docket k t = none → start = .next s) ∧
  (running → s.connLost o none = false → e.req < 0x400 → s.parityInject e.req = none → (e.finish none ms false).at s far = (u, .ok r) →
    complete = .next (u.changeDocket k t fun d => d.opEnded n o r)) ∧
  (running → s.connLost o none = true → complete = .next (s.changeDocket k t fun d => d.opEnded n o { status := 0x0F })) ∧
  (s.docket k t = none → complete = .next s) ∧
  (s.inst k = some i → splitDocket (fun d => decide (d.tag = t) && !d.held) i.dockets = some (d, ds) → d.over = true →
    s.fget ⟨.fwState, 0, 0⟩ F.fwState_PHASE < 3 → (s.func k).driverLost = false → s.finishDocket k i d = some u → u.inst k = some j →
    exec (.docketComplete f tag) s = .next (u.setInst k { j with dockets := ds })) ∧
  (s.inst k = some i → splitDocket (fun d => decide (d.tag = t) && !d.held) i.dockets = some (d, ds) → d.over = false →
    exec (.docketComplete f tag) s = .next s) ∧
  (s.fbit ⟨.pwrStatus, 0, 0⟩ F.pwrStatus_PAUSED = false → (s.queue key)[x]? = some w → w.hung = false → s.hangLimit key ≠ 0 →
    exec (.bellHang q (.waiter c x)) s = .next ((((s.setQueue key ((s.queue key).set x { w with hung := true })).fset (ctrStatus key)
      F.bellCntStatus_HANG 1)).hangReport q.val 1 c.val)) ∧
  (s.fbit ⟨.pwrStatus, 0, 0⟩ F.pwrStatus_PAUSED = true → exec (.bellHang q (.waiter c x)) s = .next s) ∧
  (s.hangLimit key = 0 → exec (.bellHang q (.waiter c x)) s = .next s)) ∧
  (∀ (d : Docket) (n : Nat) (o : DOp) (r : OpEnd),
  let x := d.opEnded n o r
  let sum := d.ctrs.getD o.sig 0 + o.sigCount
  x.phases = d.phases.set n .done ∧ x.tag = d.tag ∧ x.prog = d.prog ∧ x.refused = d.refused ∧
  (d.ending = none → r.status ≠ 0x0B → r.status ≠ 0x0F → x.ending = none ∧
    (o.sig = noRef → x.ctrs = d.ctrs) ∧ (o.sig ≠ noRef → x.ctrs = d.ctrs.set o.sig (min sum (2 ^ 24 - 1))) ∧
    (r.status ≠ 0 → look x.fails n = some r.status)) ∧
  (r.status = 0x0B ∨ r.status = 0x0F → d.refused = none → d.ending = none → x.ending = some (r.status, n) ∧ x.ctrs = d.ctrs))

/-- The link commands (R338, R344 to R346, R348, R339, Table 13.3): a kernel core's write of the group control takes its fields and may
change MODE only while the group is down; ENABLE lets a link that is DOWN train and RETRAIN trains any link again; training leads to
negotiation and a common version to UP; a flit in turn delivers its messages once and in order, one out of turn does nothing and a bad one
is replayed; a lane failure narrows a link that is UP; a link-down takes the link down. What an arrived message does (R340, R342, R343): a
write is made and acknowledged with its status, a read is answered with its data or an error, a malformed one is answered MALFORMED and does
nothing; a read's data and an acknowledgement reach the burst that waits for their tag; data without one is late; a bell signals; a read out
of time ends with TIMEOUT and keeps its tag. -/
def Obligations.CausewayLinks : Prop :=
  (∀ (s : State) (rq : Requester) (g : Qn) (l : LinkNo) (v : W64) (w rate seq ver tag : Nat) (m : CwMsg)
    (r : List CwMsg) (ms : List CwMsg) (lane : Fin 4),
  let k := l.val
  let st := linkStatus k
  let ctl := linkCtrl k
  let grp := grpCtrlReg g.val
  let u := ((s.fset ctl F.cwLinkCtrl_IN_ASID (bitsOf v F.cwLinkCtrl_IN_ASID)).fset ctl F.cwLinkCtrl_ENABLE (bitsOf v F.cwLinkCtrl_ENABLE))
  let n := (((s.fsat (linkErr k) F.cwLinkErr_NARROWINGS 1).count (k / 4) 56 3 1))
  (rqKernel rq = true → bitsOf v F.cwGrpCtrl_MODE = s.fget grp F.cwGrpCtrl_MODE → s.fbit (grpStatusReg g.val) F.cwGrpStatus_DLL_ACTIVE = false →
    Completes (exec (.cwGrpCtrlWrite rq g v) s) fun t => t.fget grp F.cwGrpCtrl_MODE = bitsOf v F.cwGrpCtrl_MODE ∧
      t.fget grp F.cwGrpCtrl_ENABLE = bitsOf v F.cwGrpCtrl_ENABLE ∧ t.fget grp F.cwGrpCtrl_PERST = bitsOf v F.cwGrpCtrl_PERST ∧
      s.regsBut t [grp] ∧ s.memSame t) ∧
  (rqKernel rq = false → exec (.cwGrpCtrlWrite rq g v) s = .next (s.refuse rq grp)) ∧
  (bitsOf v F.cwGrpCtrl_MODE ≠ s.fget grp F.cwGrpCtrl_MODE → s.fbit grp F.cwGrpCtrl_ENABLE = true →
    exec (.cwGrpCtrlWrite rq g v) s = .next (s.refuse rq grp)) ∧
  (rqKernel rq = true → s.rpMode k = false → bitsOf v F.cwLinkCtrl_ENABLE = 1 →
    (s.linkState k = 0 → exec (.cwLinkEnable rq l v) s = .next (u.setLinkState k 1)) ∧
    (s.linkState k ≠ 0 → exec (.cwLinkEnable rq l v) s = .next u) ∧
    exec (.cwLinkRetrain rq l v) s = .next (u.setLinkState k 1)) ∧
  (rqKernel rq = true → s.rpMode k = false → bitsOf v F.cwLinkCtrl_ENABLE = 0 →
    exec (.cwLinkEnable rq l v) s = .next (u.linkDown k) ∧ exec (.cwLinkRetrain rq l v) s = .next (u.linkDown k)) ∧
  (rqKernel rq = false ∨ s.rpMode k = true →
    exec (.cwLinkEnable rq l v) s = .next (s.refuse rq ctl) ∧ exec (.cwLinkRetrain rq l v) s = .next (s.refuse rq ctl)) ∧
  (s.portsTrain = true → s.rpMode k = false → s.linkState k = 1 → w = 1 ∨ w = 2 ∨ w = 4 → exec (.cwLinkTrained l w rate) s =
    .next (((s.setLink k { s.link k with width := w, fails := 0 }).setLinkState k 2).cwSend k versionMsg)) ∧
  (s.portsTrain = true → s.rpMode k = false → s.linkState k = 1 → exec (.cwLinkTrained l 0 rate) s = .next (s.linkDown k)) ∧
  (s.portsTrain = false → exec (.cwLinkTrained l w rate) s = .next s) ∧
  ((s.link k).rxq = m :: r → m.type = 6 → s.linkState k = 2 → agreed (versionList (slice m.data 0 m.length)) = some ver →
    Completes (exec (.cwVersion l) s) fun t => t.linkState k = 3 ∧ t.fget st F.cwLinkStatus_VERSION = ver ∧
      t.fget st F.cwLinkStatus_NEG_STATUS = 0 ∧ (t.link k).rxq = r ∧ s.regsBut t [st] ∧ s.memSame t) ∧
  ((s.link k).rxq = m :: r → m.type = 6 → s.linkState k = 2 → agreed (versionList (slice m.data 0 m.length)) = none →
    Completes (exec (.cwVersion l) s) fun t => t.linkState k = 5 ∧ t.fget st F.cwLinkStatus_NEG_STATUS = 0x7F ∧ (t.link k).rxq = r ∧
      s.regsBut t [st] ∧ s.memSame t) ∧
  (s.linkState k = 3 → s.injAt 0x05 (linkUnit k) (fun _ => true) = none → (∀ x ∈ ms, 1 ≤ x.type ∧ x.type ≤ 6) →
    Completes (exec (.cwFlit l (s.link k).nextSeq true ms) s) fun t =>
      (t.link k).nextSeq = (s.link k).nextSeq + 1 ∧ (t.link k).rxq = (s.link k).rxq ++ ms ∧ t.linkState k = 3) ∧
  (s.linkState k = 3 → s.injAt 0x05 (linkUnit k) (fun _ => true) = none → seq ≠ (s.link k).nextSeq → exec (.cwFlit l seq true ms) s = .next s) ∧
  (s.linkState k = 3 → s.injAt 0x05 (linkUnit k) (fun _ => true) = none → exec (.cwFlit l seq false ms) s = .next (s.flitFailed k false)) ∧
  (s.linkState k = 3 → 1 < (s.link k).width → exec (.cwLaneFailure l lane) s =
    .next (((n.setLink k { n.link k with fails := 0 }).setLinkState k 4).linkRecord k 1 false)) ∧
  (s.linkState k = 3 → (s.link k).width ≤ 1 → exec (.cwLaneFailure l lane) s = .next (s.linkDown k)) ∧
  (s.linkState k ≠ 3 → exec (.cwLaneFailure l lane) s = .next s) ∧
  (s.linkState k = 4 → Completes (exec (.cwNarrowed l true) s) fun t => t.linkState k = 3 ∧ (t.link k).width = (s.link k).width / 2 ∧
    s.regsBut t [st] ∧ s.memSame t) ∧
  (s.linkState k = 4 → exec (.cwNarrowed l false) s = .next (s.linkDown k)) ∧
  (s.rpMode k = false → exec (.cwLinkDown l) s = .next (s.linkDown k)) ∧
  (s.rpMode k = true → exec (.cwLinkDown l) s = .next s) ∧
  Completes (exec (.cwTagRelease l tag) s) fun t => look (t.link k).expired tag = none ∧ (t.link k).tags = (s.link k).tags ∧
    (∀ x, x ≠ tag → look (t.link k).expired x = look (s.link k).expired x) ∧ t.regs = s.regs ∧ s.memSame t) ∧
  (∀ (s u : State) (l : LinkNo) (m : CwMsg) (st c id tag : Nat) (d : Bytes) (p : Bool) (b : Burst),
  let k := l.val
  let q := k / 4
  let x := s.cwPop k
  let b' := { b with data := b.data ++ slice m.data 0 m.length, poison := b.poison || nbit m.flags 1 }
  let untag (y : State) : State := y.setLink k { y.link k with tags := drop (y.link k).tags m.tag }
  let y := s.setLink k { s.link k with tags := drop (s.link k).tags tag, expired := put (s.link k).expired tag () }
  (s.cwHead k 1 = some m → cwMsgOk m = true → nbit m.flags 0 = false → 1 ≤ m.length → m.status = 0 → m.addr < 2 ^ 57 →
    m.addr % 256 + m.length ≤ 256 → s.arrivalWrite q (0x5000 + k) (s.inAsid k) m.addr (slice m.data 0 m.length) (nbit m.flags 1) = (u, some st) →
    exec (.cwWrite l) s = .next ((u.cwPop k).cwAck k m.tag st)) ∧
  (s.cwHead k 1 = some m → cwMsgOk m = false ∨ m.length = 0 ∨ 256 < m.addr % 256 + m.length →
    exec (.cwWrite l) s = .next (x.cwAck k m.tag 0x01)) ∧
  (s.cwHead k 1 = none → exec (.cwWrite l) s = .next s) ∧
  (s.cwHead k 2 = some m → cwMsgOk m = true → m.flags = 0 → 1 ≤ m.length → m.length ≤ 4096 → m.status = 0 → m.addr < 2 ^ 48 →
    s.vread q (0x5000 + k) (s.inAsid k) m.addr m.length = (u, .ok d p) → exec (.cwRead l) s =
      .next ((readData m.tag (if p then 0x06 else 0) p (cut256 32 m.addr d)).foldl (fun s x => s.cwSend k x) (u.cwPop k))) ∧
  (s.cwHead k 2 = some m → cwMsgOk m = true → m.flags = 0 → 1 ≤ m.length → m.length ≤ 4096 → m.status = 0 → m.addr < 2 ^ 48 →
    s.vread q (0x5000 + k) (s.inAsid k) m.addr m.length = (u, .deny) →
    exec (.cwRead l) s = .next ((u.cwPop k).cwSend k (readError m.tag 0x05))) ∧
  (s.cwHead k 2 = some m → cwMsgOk m = false ∨ m.length = 0 ∨ 4096 < m.length → exec (.cwRead l) s = .next (x.cwSend k (readError m.tag 0x01))) ∧
  (s.cwHead k 2 = none → exec (.cwRead l) s = .next s) ∧
  (s.cwHead k 3 = some m → look (x.link k).tags m.tag = some (c, id) → x.injAt 0x0A (linkUnit k) (fun _ => true) = none →
    x.burst c id = some b → m.status = 0 →
    (nbit m.flags 0 = false → exec (.cwReadData l) s = .next (x.setBurst c b')) ∧
    (nbit m.flags 0 = true → exec (.cwReadData l) s = .next ((untag (x.setBurst c b')).burstData c b' (slice b'.data 0 b'.len) b'.poison))) ∧
  (s.cwHead k 3 = some m → look (x.link k).tags m.tag = none → exec (.cwReadData l) s = .next (x.cwLate k)) ∧
  (s.cwHead k 3 = none → exec (.cwReadData l) s = .next s) ∧
  (s.cwHead k 4 = some m → look (x.link k).tags m.tag = some (c, id) → (untag x).burst c id = some b → b.phase = .acks → m.status = 0 →
    (b.tags = [m.tag] → exec (.cwAck l) s = .next ((untag x).endBurst c id)) ∧
    ((b.tags.erase m.tag) ≠ [] → exec (.cwAck l) s = .next ((untag x).setBurst c { b with tags := b.tags.erase m.tag }))) ∧
  (s.cwHead k 4 = some m → look (x.link k).tags m.tag = none → exec (.cwAck l) s = .next x) ∧
  (s.cwHead k 5 = some m → cwMsgOk m = true → m.flags = 0 → m.length = 0 → m.status = 0 →
    (x.cwBell q (x.inAsid k) m.addr = (u, true) → exec (.cwBell l) s = .next u) ∧
    (x.cwBell q (x.inAsid k) m.addr = (u, false) → exec (.cwBell l) s = .next (u.cwAck k m.tag 0x01))) ∧
  (s.cwHead k 5 = some m → cwMsgOk m = false ∨ m.flags ≠ 0 ∨ m.length ≠ 0 ∨ m.status ≠ 0 → exec (.cwBell l) s = .next (x.cwAck k m.tag 0x01)) ∧
  (look (s.link k).tags tag = some (c, id) → s.burst c id = some b → b.phase = .read → y.injAt 0x0A (linkUnit k) (fun _ => true) = none →
    exec (.cwReadTimeout l tag) s = .next ((y.recordErr 2 0x0A (precOr (y.precOfChan c)) (linkUnit k) 0 0 b.srcAsid false).failBurst c id 0x21 b.isFlush)) ∧
  (look (s.link k).tags tag = none → exec (.cwReadTimeout l tag) s = .next s))

/-- Root-port mode (R349, R350): configuration accesses go out and a read with no answer gives all ones; requests from below are translated
for the port's ASID, answered or bells; a port that goes down loses its link; nothing of this happens in link mode. -/
def Obligations.RootPortRows : Prop := ∀ (s u : State) (rq : Requester) (g : Qn) (a : BitVec 32) (r : RpRequest) (d : Bytes) (p ok : Bool),
  let k := g.val
  let reg : Reg := ⟨.cwRpCfgAddr, k, 0⟩
  let bdf := s.fget reg F.cwRpCfgAddr_BDF
  let dw := s.fget reg F.cwRpCfgAddr_DWORD
  let asid := s.fget ⟨.cwGrpRpAsid, k, 0⟩ F.cwGrpRpAsid_ASID
  let win := s.fget ⟨.cwGrpBellBase, k, 0⟩ F.cwGrpBellBase_ADDR
  let on : Prop := s.rpMode (4 * k) = true ∧ s.fbit (grpStatusReg k) F.cwGrpStatus_DLL_ACTIVE = true
  let o := exec (.cwRpUpstreamRequest g r) s
  (s.rpMode (4 * k) = true →
    exec (.cwRpCfgRead rq g (some a)) s = .next ((s.emit (.rpConfig k false bdf dw 0)).emit (.regData rq (BitVec.ofNat 64 a.toNat))) ∧
    exec (.cwRpCfgRead rq g none) s = .next ((s.emit (.rpConfig k false bdf dw 0)).emit (.regData rq 0xFFFF_FFFF))) ∧
  (s.rpMode (4 * k) = false → exec (.cwRpCfgRead rq g (some a)) s = .next (s.emit (.regData rq 0xFFFF_FFFF))) ∧
  (s.rpMode (4 * k) = true → rqKernel rq = true → exec (.cwRpCfgWrite rq g a) s = .next (s.emit (.rpConfig k true bdf dw a.toNat))) ∧
  (rqKernel rq = false → exec (.cwRpCfgWrite rq g a) s = .next (s.refuse rq ⟨.cwRpCfgData, k, 0⟩)) ∧
  (on → r.at_ = true → o = .next (s.emit (.rpAnswer k none))) ∧
  (on → r.at_ = false → win ≠ 0 → r.addr / 4096 = win → r.data = some d → d.length = 8 → r.addr % 8 = 0 → s.cwBell k asid (leNat d) = (u, ok) →
    o = .next (if ok then u else u.cwLate (4 * k))) ∧
  (on → r.at_ = false → win = 0 ∨ r.addr / 4096 ≠ win → r.data = some d →
    o = .next (s.arrivalWrite k (0x5000 + 4 * k) asid r.addr d r.poison).1) ∧
  (on → r.at_ = false → win = 0 ∨ r.addr / 4096 ≠ win → r.data = none → r.addr < 2 ^ 48 →
    s.vread k (0x5000 + 4 * k) asid r.addr r.len = (u, .ok d p) → o = .next (u.emit (.rpAnswer k (if p then none else some d)))) ∧
  (¬on → o = .next s) ∧
  (on → exec (.cwRpLinkDown g) s = .next (s.rpDown k)) ∧ (¬on → exec (.cwRpLinkDown g) s = .next s)

/-- The Ethernet port (R351, R352, R354, R355, R387): a frame with a good FCS and an allowed length reaches the port's Gatehouse with its
timestamp, a bad one and a PAUSE are only counted, and one at a subport that is not UP is lost; a subport that may train comes UP, and one
goes DOWN ending the frame it sends; MAX_FRAME and BREAKOUT take allowed values; a timestamp steps by STEP_NS, or refuses a rate beyond
1,000,000 ppb. -/
def Obligations.EthernetPortRows : Prop := ∀ (s : State) (rq : Requester) (q : Qn) (sub : Fin 8) (fr : Bytes) (co un : Nat) (v : W64) (w : TxFrame),
  let k := q.val
  let st := ethSubStatus k sub.val
  let u := ((((s.fsat st F.ethSubStatus_CORR co).fsat st F.ethSubStatus_UNCORR un).ethCount k 5 co).ethCount k 6 un)
  let x := (u.ethCount k 0 1).ethCount k 2 fr.length
  let most := u.fget (ethPortCfg k) F.ethPortCfg_MAX_FRAME
  let fcs := fcsOf (fr.take (fr.length - 4)) = fr.drop (fr.length - 4)
  let o := exec (.ethFrameReceive q sub fr co un) s
  let cfg := ethPortCfg k
  let mf := bitsOf v F.ethPortCfg_MAX_FRAME
  let bo := bitsOf v F.ethPortCfg_BREAKOUT
  let ppb := signed32 (bitsOf v F.ethTsAdj_RATE_PPB)
  let now := ethTsNow k sub.val
  let adj := ethTsAdj k sub.val
  (s.subUp k sub.val = true → un = 0 → 64 ≤ fr.length → fr.length ≤ most → fcs → isPause fr = false → x.ghOk k = true →
    o = .next (x.ingress k { port := k, sub := sub.val, data := fr, ts := x.tsNow k sub.val })) ∧
  (s.subUp k sub.val = true → un ≠ 0 ∨ fr.length < 64 ∨ most < fr.length ∨ ¬fcs → o = .next (u.ethCount k 4 1)) ∧
  (s.subUp k sub.val = true → un = 0 → 64 ≤ fr.length → fr.length ≤ most → fcs → isPause fr = true → o = .next (u.ethCount k 7 1)) ∧
  (s.subUp k sub.val = false → o = .next s) ∧
  (s.portsTrain = true → sub.val < s.subports k → s.fbit (ethSubCtrl k sub.val) F.ethSubCtrl_ENABLE = true → k ∉ s.err.cutOff →
    Completes (exec (.ethSubportUp q sub) s) fun t => t.subState k sub.val = 2 ∧ s.regsBut t [st] ∧ t = { s with regs := t.regs }) ∧
  (s.portsTrain = false → exec (.ethSubportUp q sub) s = .next s) ∧
  (look s.eth.wire (key2 k sub.val) = none → Completes (exec (.ethSubportDown q sub) s) fun t =>
    t.subState k sub.val = 0 ∧ s.regsBut t [st] ∧ t = { s with regs := t.regs }) ∧
  (look s.eth.wire (key2 k sub.val) = some w → w.ring = none → Completes (exec (.ethSubportDown q sub) s) fun t =>
    t.subState k sub.val = 0 ∧ look t.eth.wire (key2 k sub.val) = none ∧ s.regsBut t [st] ∧ s.memSame t ∧ t.out = s.out) ∧
  (rqKernel rq = true → 1518 ≤ mf → mf ≤ 9600 → bo = s.fget cfg F.ethPortCfg_BREAKOUT → Completes (exec (.ethBreakoutWrite rq q v) s) fun t =>
    t.fget cfg F.ethPortCfg_MAX_FRAME = mf ∧ t.fget cfg F.ethPortCfg_BREAKOUT = bo ∧ s.regsBut t [cfg] ∧ t = { s with regs := t.regs }) ∧
  (rqKernel rq = true → 1518 ≤ mf → mf ≤ 9600 → (∀ n, n < 8 → s.fbit (ethSubCtrl k n) F.ethSubCtrl_ENABLE = false) →
    Completes (exec (.ethBreakoutWrite rq q v) s) fun t => t.fget cfg F.ethPortCfg_MAX_FRAME = mf ∧ t.fget cfg F.ethPortCfg_BREAKOUT = bo) ∧
  (rqKernel rq = false ∨ mf < 1518 ∨ 9600 < mf → exec (.ethBreakoutWrite rq q v) s = .next (s.refuse rq cfg)) ∧
  (rqKernel rq = true → ppb.natAbs ≤ 1000000 → Completes (exec (.ethTsStep rq q sub v) s) fun t =>
    t.fget adj F.ethTsAdj_RATE_PPB = bitsOf v F.ethTsAdj_RATE_PPB ∧
    t.rd now = s.rd now + BitVec.ofInt 64 (signed32 (bitsOf v F.ethTsAdj_STEP_NS) * 65536) ∧
    s.regsBut t [adj, now] ∧ t = { s with regs := t.regs }) ∧
  (rqKernel rq = false ∨ 1000000 < ppb.natAbs → exec (.ethTsStep rq q sub v) s = .next (s.refuse rq adj))

/-- The Gatehouse (R364, R367, R368, R371 to R373, R462): a frame whose flow hits an entry without policer is given the entry's action, and
one that hits none takes the miss path; INSERT, REMOVE and the policer operations give their STATUS and change their one entry; a delivered
frame advances its queue and sends the queue's MSI-X message, and one without a buffer is dropped; a doorbell advances its queue's producer.
R371: a policer drops nothing from its buckets but what a frame takes: a green frame takes its bytes from both, a yellow one from the peak
bucket, a red one from none; a frame is never green without tokens in both; and no bucket is left above its burst. -/
def Obligations.Gatehouse : Prop :=
  (∀ (s u : State) (rq : Requester) (q : Qn) (v : W64) (mm : Bool) (fr : GhFrame) (rest : List GhFrame)
    (p : Parse) (e : FlowEntry) (i r slot : Nat) (far : List FarAns) (g : Nat) (rx : List (Nat × Nat × GhFrame)) (x : Ring) (f : FuncNo) (pol : Policer),
  let k := q.val
  let op : Reg := ⟨.ghOp, k, 0⟩
  let here : State := { s with eth := { s.eth with gh := putD [] s.eth.gh k rest } }
  let ent := FlowEntry.of (s.ghStaged k)
  let bk := s.bucket ent.bucket
  let n := bitsOf v F.ghOp_POLICER
  let stat (o : Host.Outcome State Fault Refusal) (c : Nat) : Prop := Completes o fun t =>
    t.fget op F.ghOp_STATUS = c ∧ s.regsBut t [op] ∧ s.memSame t ∧ t.eth = s.eth
  let gone : State := { s with eth := { s.eth with rx := rx } }
  (lookD [] s.eth.gh k = fr :: rest → here.ghOk k = true → parseFrame fr.body 0x1_0000 = .ok p → here.lookup p = none →
    exec (.ghLookup q mm) s = .next (here.missSend k 1 fr)) ∧
  (lookD [] s.eth.gh k = fr :: rest → here.ghOk k = true → parseFrame fr.body 0x1_0000 = .ok p → here.lookup p = some e →
    e.policer = 2 ^ 32 - 1 → e.decrypt = false → exec (.ghLookup q mm) s = .next (here.flowAct k e { fr with colour := 0 })) ∧
  (lookD [] s.eth.gh k = [] → exec (.ghLookup q mm) s = .next s) ∧
  (rqKernel rq = true → s.flowOk (s.ghStaged k) = true → bk.findIdx? (fun y => y.any (·.same ent)) = none →
    (bk.findIdx? (·.isNone) = some i → s.flowCount ent.prec < s.flowPool ent.prec → Completes (exec (.ghInsert rq q v) s) fun t =>
      t.fget op F.ghOp_STATUS = 0 ∧ t.bucket ent.bucket = bk.set i (some ent) ∧ s.regsBut t [op] ∧ s.memSame t) ∧
    (bk.findIdx? (·.isNone) = none → stat (exec (.ghInsert rq q v) s) 2) ∧
    (bk.findIdx? (·.isNone) = some i → s.flowPool ent.prec ≤ s.flowCount ent.prec → stat (exec (.ghInsert rq q v) s) 3)) ∧
  (rqKernel rq = true → s.flowOk (s.ghStaged k) = false → stat (exec (.ghInsert rq q v) s) 1) ∧
  (rqKernel rq = true → flowKeyOk ent = true → bk.findIdx? (fun y => y.any (·.same ent)) = some i → Completes (exec (.ghRemove rq q v) s) fun t =>
    t.fget op F.ghOp_STATUS = 0 ∧ t.bucket ent.bucket = bk.set i none ∧ s.regsBut t [op] ∧ s.memSame t) ∧
  (rqKernel rq = true → flowKeyOk ent = true → bk.findIdx? (fun y => y.any (·.same ent)) = none → stat (exec (.ghRemove rq q v) s) 4) ∧
  (rqKernel rq = true → policerOf (s.ghStaged k) = some pol →
    (Completes (exec (.ghPolicerWrite rq q v) s) fun t => t.fget op F.ghOp_STATUS = 0 ∧ t.policer n = { pol with last := s.tick } ∧
      s.regsBut t [op] ∧ s.memSame t) ∧
    (Completes (exec (.ghPolicerUpdate rq q v) s) fun t => t.fget op F.ghOp_STATUS = 0 ∧
      t.policer n = { pol with tc := min (s.policer n).tc pol.tc, tp := min (s.policer n).tp pol.tp, last := (s.policer n).last } ∧
      s.regsBut t [op] ∧ s.memSame t)) ∧
  (rqKernel rq = true → policerOf (s.ghStaged k) = none →
    stat (exec (.ghPolicerWrite rq q v) s) 1 ∧ stat (exec (.ghPolicerUpdate rq q v) s) 1) ∧
  (rqKernel rq = false → exec (.ghInsert rq q v) s = .next (s.refuse rq op) ∧ exec (.ghRemove rq q v) s = .next (s.refuse rq op) ∧
    exec (.ghPolicerWrite rq q v) s = .next (s.refuse rq op) ∧ exec (.ghPolicerUpdate rq q v) s = .next (s.refuse rq op)) ∧
  (takeRx r s.eth.rx = some ((g, fr), rx) → s.ring r = some x → x.tx = false → s.ringsPaused x.func = false → x.cons < x.prod →
    (s.func x.func).driverLost = false → (rxBody g x fr).at s far = (u, .ok true) → exec (.rxDeliver r far) s =
      .next ((({ u with eth := { u.eth with rx := rx } } : State).setRing r { x with cons := x.cons + 1, done := x.done + 1 }).sendMsix x.func x.msix)) ∧
  (takeRx r s.eth.rx = some ((g, fr), rx) → s.ring r = some x → x.tx = false → s.ringsPaused x.func = false → x.prod ≤ x.cons →
    exec (.rxDeliver r far) s = .next (gone.ghEvent g 13)) ∧
  (takeRx r s.eth.rx = none → exec (.rxDeliver r far) s = .next s) ∧
  (s.slotOf f.val slot = some (.rxq r) → s.ring r = some x → exec (.rxqDoorbell f slot v) s =
    .next (s.setRing r { x with prod := advanceTo x.prod x.log2 (v.toNat % 2 ^ 16 % 2 ^ x.log2) })) ∧
  (s.slotOf f.val slot = some (.txr r) → s.ring r = some x → exec (.txrDoorbell f slot v) s =
    .next (s.setRing r { x with prod := advanceTo x.prod x.log2 (v.toNat % 2 ^ 16 % 2 ^ x.log2) })) ∧
  (s.slotOf f.val slot = none →
    exec (.rxqDoorbell f slot v) s = .next (s.slotStray f.val) ∧ exec (.txrDoorbell f slot v) s = .next (s.slotStray f.val))) ∧
  (∀ (p : Policer) (now n pre c : Nat) (x : Policer), p.colour now n pre = (c, x) →
  let r := p.refill now
  let b := n * 65536
  c ≤ 2 ∧ x.last = now ∧ x.tc ≤ p.cbs * 65536 ∧ x.tp ≤ p.pbs * 65536 ∧
  (c = 0 → b ≤ r.tc ∧ b ≤ r.tp ∧ x.tc + b = r.tc ∧ x.tp + b = r.tp) ∧
  (c = 1 → b ≤ r.tp ∧ x.tc = r.tc ∧ x.tp + b = r.tp) ∧ (c = 2 → x = r))

/-- The Tollbooth (R374, R376, R381, R382, R384 to R386): a frame joins the end of its queue or is dropped; the frame of the chosen queue
goes out with its port's timestamp; a waking node takes its start tag; WRITE, UPDATE, REMOVE and READ give their STATUS and change their one
node; a frame read from a transmit ring is on its way to its queue, and a sent one leaves the wire. R380, R381: the child that a node
chooses is eligible; it is of the committed tier where any eligible child is, and no eligible child of its tier has a smaller start tag. -/
def Obligations.Tollbooth : Prop :=
  (∀ (s u : State) (rq : Requester) (q : Qn) (sub : Fin 8) (v : W64) (qu i r slot st : Nat) (far : List FarAns)
    (f : TxFrame) (toTb : List (Nat × TxFrame)) (pa : List (Nat × Nat × Bool)) (l : Nat × Nat × Bool) (rest : List TxFrame) (n o : TbNode) (x : Ring)
    (d e : Bytes) (p : Bool),
  let k := q.val
  let op : Reg := ⟨.tbOp, k, 0⟩
  let t8 := soleStall k 8
  let j := qu % 2 ^ 18
  let w := s.wakeBelow k 3 0 sub.val
  let lv := bitsOf v F.tbOp_LEVEL
  let ix := bitsOf v F.tbOp_INDEX
  let ok : Prop := rqKernel rq = true ∧ lv ≠ 0 ∧ ix < nodeMax lv
  let kq := x.target / 2 ^ 18 % 4
  let done (c : Host.Outcome State Fault Refusal) (stat : Nat) (node : Option TbNode) : Prop := Completes c fun t =>
    t.fget op F.tbOp_STATUS = stat ∧ t.node k lv ix = node ∧ s.regsBut t [op] ∧ s.memSame t
  (takeTb k s.eth.toTb = some ((qu, f), toTb) → s.stallFenced t8 = false →
    ({ s with eth := { s.eth with toTb := toTb } } : State).dropCause k j f = none → Completes (exec (.tbEnqueue q) s) fun t =>
      t.queued k j = s.queued k j ++ [f] ∧ t.eth.toTb = toTb ∧ t.regs = s.regs ∧ s.memSame t) ∧
  (takeTb k s.eth.toTb = some ((qu, f), toTb) → s.stallFenced t8 = true → exec (.tbEnqueue q) s =
    .next ((({ s with eth := { s.eth with toTb := toTb } } : State).stallEvent t8 13 1 0 0).txEnd k f.ring 0x30 0)) ∧
  (takeTb k s.eth.toTb = none → exec (.tbEnqueue q) s = .next s) ∧
  (s.subUp k sub.val = true → look s.eth.wire (key2 k sub.val) = none → s.stallFenced t8 = false →
    (w.path k 3 0 sub.val = some pa → pa.getLast? = some l → w.queued k l.2.1 = f :: rest → Completes (exec (.tbSelect q sub) s) fun t =>
      t.queued k l.2.1 = rest ∧ look t.eth.wire (key2 k sub.val) = some { f with ts := w.tsNow k sub.val }) ∧
    (w.path k 3 0 sub.val = none → w.holdsFrames 4 k 0 sub.val = false → exec (.tbSelect q sub) s = .next w)) ∧
  (s.subUp k sub.val = false → exec (.tbSelect q sub) s = .next s) ∧
  (look s.eth.wire (key2 k sub.val) = some f → f.ring = none → f.poison = false → exec (.tbFrameSent q sub) s =
    .next (((({ s with eth := { s.eth with wire := drop s.eth.wire (key2 k sub.val) } } : State).emit
      (.frame k sub.val (f.data ++ fcsOf f.data) false)).ethCount k 1 1).ethCount k 3 f.len)) ∧
  (exec (.tbNodeWake q 0 i) s = .next s) ∧
  (s.node k 1 i = some n → s.nodeEligible k 1 i = true → n.awake = false → s.node k 0 n.parent = none → Completes (exec (.tbNodeWake q 1 i) s) fun t =>
    t.node k 1 i = some { n with
      s := max (s.vtime k 0 n.parent) (max n.s n.f), awake := true } ∧ t.regs = s.regs ∧ s.memSame t) ∧
  (s.nodeEligible k 1 i = false → exec (.tbNodeWake q 1 i) s = .next s) ∧
  (ok → nodeOf lv (s.tbStaged k) = some n → s.parentOk k n = true → s.nodeQuota k ix n = true → s.nodeBusy k lv ix = false →
    done (exec (.tbWrite rq q v) s) 0 (some { n with last := s.tick })) ∧
  (ok → nodeOf lv (s.tbStaged k) = none → done (exec (.tbWrite rq q v) s) 1 (s.node k lv ix)) ∧
  (ok → s.node k lv ix = some o → nodeOf lv (s.tbStaged k) = some n → n.prec = o.prec → n.parent = o.parent → s.parentOk k n = true →
    s.nodeQuota k ix n = true → done (exec (.tbUpdate rq q v) s) 0 (some (o.update n s.tick))) ∧
  (ok → s.node k lv ix = none → done (exec (.tbUpdate rq q v) s) 4 none ∧ done (exec (.tbRemove rq q v) s) 4 none ∧
    done (exec (.tbRead rq q v) s) 4 none) ∧
  (ok → s.node k lv ix = some o → s.nodeBusy k lv ix = false → done (exec (.tbRemove rq q v) s) 0 none) ∧
  (ok → s.node k lv ix = some o → s.nodeBusy k lv ix = true → done (exec (.tbRemove rq q v) s) 5 (some o)) ∧
  (ok → s.node k lv ix = some o → Completes (exec (.tbRead rq q v) s) fun t => t.fget op F.tbOp_STATUS = 0 ∧
    t.node k lv ix = some (o.at_ s.tick) ∧ t.tbStaged k = (s.setNode k lv ix (o.at_ s.tick)).nodeBytes k ix (o.at_ s.tick) ∧ s.memSame t) ∧
  (rqKernel rq = false ∨ lv = 0 → exec (.tbWrite rq q v) s = .next (s.refuse rq op) ∧ exec (.tbUpdate rq q v) s = .next (s.refuse rq op) ∧
    exec (.tbRemove rq q v) s = .next (s.refuse rq op) ∧ exec (.tbRead rq q v) s = .next (s.refuse rq op)) ∧
  (s.ring r = some x → x.tx = true → x.cons < x.prod → s.stallFenced (soleStall kq 8) = false → s.ringsPaused x.func = false →
    (s.func x.func).driverLost = false →
    ((txBody kq (s.fget (ethPortCfg kq) F.ethPortCfg_MAX_FRAME) x).at s far = (u, .ok (.ok (d, p, e))) → exec (.txEntryFetch r far) s =
      .next ((u.setRing r { x with cons := x.cons + 1 }).toTollbooth x.target {
        data := d, de := nbit (leAt e 0x0A 2) 1, poison := p,
        ring := some (r, x.cons), tsReq := nbit (leAt e 0x0A 2) 0 }).1) ∧
    ((txBody kq (s.fget (ethPortCfg kq) F.ethPortCfg_MAX_FRAME) x).at s far = (u, .ok (.error st)) → exec (.txEntryFetch r far) s =
      .next ((u.setRing r { x with cons := x.cons + 1 }).txEnd kq (some (r, x.cons)) st 0))) ∧
  (s.ring r = none → exec (.txEntryFetch r far) s = .next s)) ∧
  (∀ (s : State) (q level i c : Nat) (tier : Bool), s.choose q level i = some (c, tier) →
  ∃ n, (c, n) ∈ s.children q level i ∧ s.nodeEligible q (level + 1) c = true ∧ n.committed s.tick = tier ∧
    ∀ x ∈ s.children q level i, s.nodeEligible q (level + 1) x.1 = true →
      (tier = false → x.2.committed s.tick = false) ∧ (x.2.committed s.tick = tier → n.s ≤ x.2.s))

/-- The operations of CARTER_OP on contexts and regions (R391, R404, R405, R410): each gives its STATUS, and changes its one record where
that is 0; a requester that is no kernel core makes a stray write. The commands of time and of doorbells (R391, R398, R402 to R404, R406,
R462): a doorbell moves its ring's index forward; HELLO is sent again while CONNECTING, and that state ends in ERROR in time; a packet out
of time is sent again; a path is tried again; an acknowledgement is sent where one is owed; a withdrawn page's packets are answered
RETRY_AFTER; what a RETRY_AFTER held is sent again; completions are given. -/
def Obligations.CarterContexts : Prop :=
  (∀ (s : State) (rq : Requester) (q : Qn) (v : W64),
  let k := q.val
  let op : Reg := ⟨.carterOp, k, 0⟩
  let i := bitsOf v F.carterOp_INDEX
  let c := s.conn i
  let g := s.carterStaged k 16
  let b := overlay (overlay g 4 [0, 0]) 0x69 [0]
  let r := s.carterStaged k 4
  let a := leAt r 0x12 1
  let e := (c.epoch + 1) % 2 ^ 16
  let psn := Config.freeNat s.fresh % c.psnMod
  let gives (o : Host.Outcome State Fault Refusal) (st : Nat) (x : CarterSt) : Prop := Completes o fun t =>
    t.fget op F.carterOp_STATUS = st ∧ t.carter = x ∧ s.regsBut t [op] ∧ s.memSame t
  let set (x : CarterCtx) : CarterSt := { s.carter with ctxs := put s.carter.ctxs i x }
  let reg (x : Region) : CarterSt := { s.carter with regions := put s.carter.regions i x }
  rqKernel rq = true →
  (c.state = 0 → s.ctxCfgOk k b = true → s.connCount (leAt b 2 1) < s.connPool (leAt b 2 1) →
    gives (exec (.carterCtxWrite rq q v) s) 0 (set { cfg := b, state := 1, epoch := c.epoch, stall := k, func := none })) ∧
  (c.state ≠ 0 → gives (exec (.carterCtxWrite rq q v) s) 5 s.carter) ∧
  (c.state = 0 → s.ctxCfgOk k b = false → gives (exec (.carterCtxWrite rq q v) s) 1 s.carter) ∧
  (c.state = 0 → s.ctxCfgOk k b = true → s.connPool (leAt b 2 1) ≤ s.connCount (leAt b 2 1) →
    gives (exec (.carterCtxWrite rq q v) s) 3 s.carter) ∧
  (c.state ≠ 0 → leAt g 0x60 4 ≤ 1600000 → 8 ≤ leAt g 0x64 2 → 1 ≤ leAt g 0x3B 1 → leAt g 0x3B 1 ≤ 15 → leAt g 0x3A 1 < 64 →
    gives (exec (.carterCtxUpdate rq q v) s) 0 (set { c with
      cfg := overlay (overlay (overlay c.cfg 0x3A (slice g 0x3A 2)) 0x60 (slice g 0x60 4)) 0x64 (slice g 0x64 2) })) ∧
  (c.state = 0 → gives (exec (.carterCtxUpdate rq q v) s) 5 s.carter) ∧
  (Completes (exec (.carterCtxRead rq q v) s) fun t => t.fget op F.carterOp_STATUS = 0 ∧ t.carter = s.carter ∧ s.memSame t ∧
    t.carterStaged k 16 = overlay (overlay (overlay (slice c.cfg 0 128) 0 [BitVec.ofNat 8 c.state]) 4 (leBytes 2 c.epoch)) 0x69
      [BitVec.ofNat 8 c.errCode]) ∧
  (c.state = 2 ∨ c.state = 3 → exec (.carterFail rq q v) s = .next ((s.connError i 0x44 none).fset op F.carterOp_STATUS 0)) ∧
  (c.state ≠ 2 → c.state ≠ 3 → gives (exec (.carterFail rq q v) s) 5 s.carter) ∧
  (1 ≤ leAt r 8 8 → leAt r 8 8 ≤ 2 ^ 48 → leAt r 0x10 2 < 4096 → a / 16 % 8 = 0 → leAt r 0x13 1 = 0 → allZero (slice r 0x16 10) = true →
    gives (exec (.carterRegionWrite rq q v) s) 0
      (reg { base := leAt r 0 8, length := leAt r 8 8, asid := leAt r 0x10 2, access := a, gen := (s.region i).gen })) ∧
  (leAt r 8 8 = 0 ∨ 2 ^ 48 < leAt r 8 8 ∨ 4096 ≤ leAt r 0x10 2 → gives (exec (.carterRegionWrite rq q v) s) 1 s.carter) ∧
  (nbit (s.region i).access 7 = true → gives (exec (.carterRegionInval (.reg rq q v)) s) 0
    (reg { s.region i with access := clearBit (s.region i).access 7, gen := ((s.region i).gen + 1) % 4096 })) ∧
  (nbit (s.region i).access 7 = false → gives (exec (.carterRegionInval (.reg rq q v)) s) 4 s.carter) ∧
  (c.state = 1 → exec (.carterConnect (.reg rq q v)) s = .next ((((s.useFresh 1).setConn i { c with
    state := 2, errCode := 0, initPsn := psn, nextPsn := psn, peer := none, acked := false }).sendHello i 0x20).fset op F.carterOp_STATUS 0)) ∧
  (c.state ≠ 1 → gives (exec (.carterConnect (.reg rq q v)) s) 5 s.carter) ∧
  (c.state = 4 → gives (exec (.carterReset (.reg rq q v)) s) 0
    (set { cfg := c.cfg, state := 1, epoch := e, stall := c.stall, func := c.func })) ∧
  (c.state = 1 → gives (exec (.carterReset (.reg rq q v)) s) 0 (set { epoch := e })) ∧
  (c.state ≠ 1 → c.state ≠ 4 → gives (exec (.carterReset (.reg rq q v)) s) 5 s.carter)) ∧
  (∀ (s : State) (rq : Requester) (q : Qn) (v : W64) (f : FuncNo) (slot m psn p0 : Nat) (cs : Bool) (n : ConnNo)
    (path : Fin 16) (x : TxPkt) (mine rest : List Bytes),
  let k := n.val
  let c := s.conn k
  let y := s.conn m
  let w := v.toNat % 2 ^ 16
  let i := bitsOf v F.carterDb_CONN
  let z := s.conn i
  let on : Prop := c.state = 3 ∧ s.carterOn c.stall = true
  let fl := lookD 0 c.pathFails x.first + 1
  let c' := { c with
    pathFails := put c.pathFails x.first fl
    pathDown := if 3 ≤ fl ∧ !c.pathDown.contains x.first then x.first :: c.pathDown else c.pathDown }
  let u := (s.settle k (c.msgs.length + 1)).complete k
  let h := s.withdraw c.stall c.st c.asid
  (s.slotOf f.val slot = some (.carterSq m) → y.state ≠ 0 → exec (.carterSqDoorbell (.slot f slot v)) s =
    .next (s.setConn m { y with sqProd := advanceTo y.sqProd y.sqLog (w % 2 ^ y.sqLog) })) ∧
  (s.slotOf f.val slot = some (.carterRq m) → y.state ≠ 0 → y.state ≠ 4 → y.rqLog ≠ 0 → exec (.carterRqDoorbell (.slot f slot v)) s =
    .next (s.setConn m { y with rqProd := advanceTo y.rqProd y.rqLog (w % 2 ^ y.rqLog) })) ∧
  (s.slotOf f.val slot = some (.carterCq m) → y.state ≠ 0 → exec (.carterCqDoorbell (.slot f slot v)) s =
    .next (s.setConn m { y with cqCons := min y.cqProd (advanceTo y.cqCons y.cqLog (w % 2 ^ y.cqLog)) })) ∧
  (s.slotOf f.val slot = none → exec (.carterSqDoorbell (.slot f slot v)) s = .next (s.slotStray f.val) ∧
    exec (.carterRqDoorbell (.slot f slot v)) s = .next (s.slotStray f.val) ∧ exec (.carterCqDoorbell (.slot f slot v)) s = .next (s.slotStray f.val)) ∧
  (rqKernel rq = true → z.state ≠ 0 → exec (.carterCqDoorbell (.reg rq q v)) s =
    .next (s.setConn i { z with cqCons := min z.cqProd (advanceTo z.cqCons z.cqLog (bitsOf v F.carterDb_INDEX % 2 ^ z.cqLog)) })) ∧
  (rqKernel rq = false → exec (.carterSqDoorbell (.reg rq q v)) s = .next (s.refuse rq ⟨.carterDb, q.val, 0⟩)) ∧
  (c.state = 2 → s.carterOn c.stall = true → exec (.carterHelloTimer n) s = .next (s.sendHello k 0x20)) ∧
  (c.state ≠ 2 → exec (.carterHelloTimer n) s = .next s ∧ exec (.carterConnectTimeout n) s = .next s) ∧
  (c.state = 2 → exec (.carterConnectTimeout n) s = .next (s.connError k 0x45 none)) ∧
  (on → c.stalled = none → c.unacked.find? (fun t => t.psn = psn) = some x → x.sacked = false → c.isRoce = false →
    exec (.carterRto n psn) s = .next ((s.setConn k c').resend k x true)) ∧
  (c.unacked.find? (fun t => t.psn = psn) = none → exec (.carterRto n psn) s = .next s) ∧
  (exec (.carterPathRetry n path) s =
    .next (s.setConn k { c with pathDown := c.pathDown.filter (· ≠ path.val), pathFails := drop c.pathFails path.val })) ∧
  (on → (u.conn k).sinceAck ≠ 0 → exec (.carterAckTimer n) s = .next (u.sendAck k 0 0 0)) ∧
  (on → (u.conn k).sinceAck = 0 → (u.conn k).msnDone = c.msnDone → exec (.carterAckTimer n) s = .next u) ∧
  (c.state ≠ 3 → exec (.carterAckTimer n) s = .next s) ∧
  (on → splitConn k (lookD [] s.carter.rx c.stall) = (mine, rest) → mine ≠ [] → exec (.carterOndemandWithdraw n) s =
    .next (mine.foldl (fun s f => match arrived f with
      | some a => s.sendAck k 1 (if a.roce then beAt a.body 9 3 else beAt a.body 0x0C 4) 100
      | none => s) { h with carter := { h.carter with rx := putD [] h.carter.rx c.stall rest } })) ∧
  (c.state ≠ 3 → exec (.carterOndemandWithdraw n) s = .next s) ∧
  (on → c.stalled = some (p0, cs) → c.unacked = [] → exec (.carterRetryAfterExpire n) s =
    .next ((s.setConn k { c with stalled := none }).sendMore k (c.todoCount + 1))) ∧
  (c.stalled = none → exec (.carterRetryAfterExpire n) s = .next s) ∧
  (c.state ≠ 0 → exec (.carterCompletionWrite n) s = .next ((s.flushConn k).complete k)) ∧
  (c.state = 0 → exec (.carterCompletionWrite n) s = .next s))

/-- The nine rows that take the next order of a send queue, and CARTER_TRIGGER_FIRE (R395, R399, R402, R404): an order that is well formed
starts, or lies dormant until its trigger; one that is malformed, poisoned or cannot be read ends at once with its status; in ERROR an order
is flushed; an order of another opcode is left alone. A NOP that starts has ended with status 0. The eleven rows of arriving packets (R389,
R391, R392, R394, R403): each takes the first frame that it handles, of those with no earlier frame of their connection; the frame leaves
the queue and is counted, unless the Surveyor holds its access. A packet received before is acknowledged and has no effect, and none has an
effect on a context in ERROR. -/
def Obligations.CarterTraffic : Prop :=
  (∀ (s u w : State) (n : ConnNo) (far far' : List FarAns) (d : Bytes) (o : COrder),
  let k := n.val
  let c := s.conn k
  let i := c.sqCons
  let va := c.sqBase + i % 2 ^ c.sqLog * 64
  let add (s : State) (o : COrder) : State := s.setConn k { s.conn k with sqCons := i + 1, orders := (s.conn k).orders ++ [o] }
  let read := (ioRead c.stall c.st c.asid va 64).atF s far
  let fw := c.fwOrders.any fun r => decide (r.1 ≤ i) && decide (i < r.2)
  let can : Prop := i < c.sqProd ∧ c.state ≠ 4 ∧ s.mayTake c = true ∧ s.unitParity c.st ⟨.carterErr, c.stall, 0⟩ F.carterErr_PARITY = none
  let row (x : Host.Outcome State Fault Refusal) (hit : Bytes → Bool) : Prop :=
    (can → read = (u, far', .ok (d, false)) → hit d = true → u.orderOk c d fw = true → oTrig d = 0 →
      (add u { idx := i, desc := d }).startOrder k { idx := i, desc := d } far' = (w, true) → x = .next w) ∧
    (can → read = (u, far', .ok (d, false)) → hit d = true → u.orderOk c d fw = true → oTrig d ≠ 0 →
      x = .next (add u { idx := i, desc := d, dormant := true })) ∧
    (can → read = (u, far', .ok (d, true)) → hit d = true →
      x = .next ((add u { idx := i, desc := overlay d 0x24 [0xFF, 0xFF], status := some 6 }).complete k)) ∧
    (can → read = (u, far', .ok (d, false)) → hit d = true → u.orderOk c d fw = false → u.refField c.prec (oSig d) (oSigN d) = true →
      x = .next ((add u { idx := i, desc := d, status := some 1 }).complete k)) ∧
    (can → read = (u, far', .ok (d, false)) → hit d = false → 1 ≤ oOp d → oOp d ≤ 3 → x = .next s) ∧
    (c.sqProd ≤ i → x = .next s)
  let atomic (a : Nat) (d : Bytes) : Bool := decide (oOp d = 4) && decide (oAtop d = a)
  row (exec (.carterOrderWrite n far) s) (fun d => oOp d = 1) ∧
  row (exec (.carterOrderRead n far) s) (fun d => oOp d = 2) ∧
  row (exec (.carterOrderSend n far) s) (fun d => oOp d = 3) ∧
  row (exec (.carterFetchAdd n far) s) (atomic 0) ∧
  row (exec (.carterSwap n far) s) (atomic 1) ∧
  row (exec (.carterCmpSwap n far) s) (atomic 2) ∧
  row (exec (.carterTallyAdd n far) s) (atomic 3) ∧
  row (exec (.carterOrderBell n far) s) (fun d => oOp d = 5) ∧
  row (exec (.carterOrderNop n far) s) (fun d => oOp d = 6) ∧
  (oOp o.desc = 6 → s.startOrder k o far = ((s.setConn k (c.setOrder { o with status := some 0 })).complete k, true)) ∧
  (c.state = 3 → s.carterOn c.stall = true → c.orders.find? (·.dormant) = some o → oTrig o.desc = 1 →
    let o' := { o with dormant := false, waiting := false }
    (s.bell.met.contains (.order k) = false → exec (.carterTriggerFire n far) s = .next s) ∧
    (s.bell.met.contains (.order k) = true → (s.setConn k (c.setOrder o')).startOrder k o' far = (w, true) →
      exec (.carterTriggerFire n far) s = .next (w.takeMet (.order k)).1)) ∧
  (c.orders.find? (·.dormant) = none → exec (.carterTriggerFire n far) s = .next s)) ∧
  (∀ (s u : State) (q : Qn) (far : List FarAns) (i n : Nat) (p : Pkt),
  let k := q.val
  let l := lookD [] s.carter.rx k
  let f := l.getD i []
  let c := s.conn n
  let seen : Prop := c.psnMod / 2 ≤ modSub p.psn c.cum c.psnMod ∨ c.got.contains p.psn = true
  let row (x : Host.Outcome State Fault Refusal) (op : Nat) (far : List FarAns) : Prop :=
    (s.carterOn k = true → pickFrame (fun y => decide (y = op)) [] 0 l = some i →
      s.unitParity (soleStall k 9) ⟨.carterErr, k, 0⟩ F.carterErr_PARITY = none →
      (s.rxFrame k f far = (u, true) →
        let y := (u.carterEvent k 7 1).carterEvent k 13 (f.length - 42)
        x = .next { y with carter := { y.carter with rx := putD [] y.carter.rx k (l.eraseIdx i) } }) ∧
      (s.rxFrame k f far = (u, false) → x = .next u)) ∧
    (pickFrame (fun y => decide (y = op)) [] 0 l = none → x = .next s) ∧
    (s.carterOn k = false → x = .next s)
  row (exec (.hello q) s) 0x20 [] ∧ row (exec (.helloAck q) s) 0x21 [] ∧ row (exec (.helloRefuse q) s) 0x22 [] ∧
  row (exec (.carterRxWrite q) s) 1 [] ∧ row (exec (.carterRxReadReq q far) s) 2 far ∧ row (exec (.carterRxReadResp q) s) 3 [] ∧
  row (exec (.carterRxSend q far) s) 4 far ∧ row (exec (.carterRxAtomic q) s) 5 [] ∧ row (exec (.carterRxAtomicResp q) s) 6 [] ∧
  row (exec (.carterRxBell q) s) 7 [] ∧ row (exec (.carterRxAck q) s) 0x10 [] ∧
  (c.state ≠ 4 → s.precPaused c.prec = false → p.op ≠ 5 → seen → s.rxData n p far = (s.sendAck n 0 0 0, true)) ∧
  (c.state = 4 → s.rxData n p far = (s.sendAck n 5 p.psn 0, true)))

/-- The rings and the session of a Kiosk (R474, R476, R478, R479, R519, R520): H2D_TAIL moves forward by at most 16 messages and wakes the
Guildhall, a posted message takes the next slot and sends vector 0, the beat counts while the session is open, a session opens at the common
version and closes when no docket is outstanding, and a driver that stops beating is lost; when its hold ends no docket held, parked or not
started is left. R478: what firmware makes of the message at the head of a Kiosk: a message is taken for its own TYPE only; before the
session opens every other message is answered NOT_OPEN; a manager's message needs the manager's role and an instance's an instance; a
nonzero reserved byte is MALFORMED. A message of no defined TYPE is answered too, and the reply consumes the message. A message that is not
to be carried out (R478): for every row that a Kiosk message starts, with its TYPE and the length of its body, the row leaves what the
refusal leaves, or nothing changed where another message stands at the head. -/
def Obligations.KioskSession : Prop :=
  (∀ (s : State) (f : FuncNo) (v : BitVec 16) (m : Bytes) (r : List Bytes) (i : Inst) (ver : Nat),
  let k := f.val
  let x := s.func k
  let d := modSub v.toNat x.h2dHead (2 ^ 16)
  let n := mNum m 1 1
  let shut := { x with isOpen := false, role := false, version := 0, beatSeen := false }
  (s.hostReaches k = true → d ≤ 16 → modSub x.h2dTail x.h2dHead (2 ^ 16) ≤ d → exec (.kioskH2dTailWrite f v) s =
    .next (((s.setFunc k { x with h2dTail := v.toNat }).sweepKiosk k 16).raiseLine s.fwQuarter 5)) ∧
  (s.hostReaches k = true → 16 < d → exec (.kioskH2dTailWrite f v) s = .next (s.bar0Stray k)) ∧
  (s.hostReaches k = true → modSub v.toNat x.d2hHead (2 ^ 16) ≤ modSub x.d2hTail x.d2hHead (2 ^ 16) →
    exec (.kioskD2hHeadWrite f v) s = .next (s.setFunc k { x with d2hHead := v.toNat })) ∧
  (s.hostReaches k = true → modSub x.d2hTail x.d2hHead (2 ^ 16) < modSub v.toNat x.d2hHead (2 ^ 16) →
    exec (.kioskD2hHeadWrite f v) s = .next (s.bar0Stray k)) ∧
  (s.hostReaches k = false → exec (.kioskH2dTailWrite f v) s = .next s ∧ exec (.kioskD2hHeadWrite f v) s = .next s) ∧
  (x.d2hWait = m :: r → modSub x.d2hTail x.d2hHead (2 ^ 16) < 16 → exec (.kioskD2hPost f) s = .next ((s.setFunc k { x with
    d2h := put x.d2h (x.d2hTail % 16) m, d2hTail := (x.d2hTail + 1) % 2 ^ 16, d2hWait := r }).sendMsix k 0)) ∧
  (x.d2hWait = [] ∨ 16 ≤ modSub x.d2hTail x.d2hHead (2 ^ 16) → exec (.kioskD2hPost f) s = .next s) ∧
  (x.isOpen = true → exec (.kioskBeatTick f) s = .next (s.setFunc k { x with beatDevice := (x.beatDevice + 1) % 2 ^ 32 })) ∧
  (x.isOpen = false → exec (.kioskBeatTick f) s = .next s ∧ exec (.driverLostHeartbeat f) s = .next s) ∧
  (x.isOpen = true → x.beatSeen = true → exec (.driverLostHeartbeat f) s = .next (s.driverLoss k 1)) ∧
  (x.driverLost = true → s.inst k = some i → Completes (exec (.driverHoldExpire f) s) fun t =>
    ∃ j, t.inst k = some j ∧ ∀ y, y ∈ j.dockets ↔ y ∈ i.dockets ∧ y.held = false ∧ y.parked = false ∧ y.started = true) ∧
  (x.driverLost = false → exec (.driverHoldExpire f) s = .next s) ∧
  (s.takeMsg k 0x0001 18 = .ok m → mNum m 0 1 = 0 → 1 ≤ n → n ≤ 8 → mZero m (2 + 2 * n) (16 - 2 * n) = true → s.inst k = some i →
    agreed (versionList (slice m 10 (2 * n))) = some ver → x.isOpen = false → x.driverLost = false → exec (.kioskOpen f) s =
      .next (((s.setFunc k { x with isOpen := true, role := false, version := ver, beatSeen := false }).fset (fwFunc k) F.fwFuncState_STATE 1).reply
        k m 0 0 (leBytes 2 ver))) ∧
  (s.takeMsg k 0x0001 18 = .ok m → mNum m 0 1 = 0 → 1 ≤ n → n ≤ 8 → mZero m (2 + 2 * n) (16 - 2 * n) = true → s.inst k = some i →
    agreed (versionList (slice m 10 (2 * n))) = none → exec (.kioskOpen f) s = .next (s.reply k m 0x7F 0 [])) ∧
  (s.takeMsg k 0x0002 0 = .ok m → s.inst k = some i → i.dockets = [] → exec (.kioskClose f) s =
    .next (((s.setFunc k shut).fset (fwFunc k) F.fwFuncState_STATE 0).reply k m 0 0 [])) ∧
  (s.takeMsg k 0x0002 0 = .ok m → s.inst k = some i → i.dockets ≠ [] → exec (.kioskClose f) s = .next (s.reply k m 2 0 []))) ∧
  (∀ (s : State) (f t n : Nat) (m : Bytes) (i : Inst), s.headMsg f = some m →
  let x := s.func f
  (mType m ≠ t → s.takeMsg f t n = .error s) ∧
  (mType m = t → t ≠ 1 → x.isOpen = false → s.takeMsg f t n = .error (s.reply f m 6 0 [])) ∧
  (mType m = t → x.isOpen = true → msgRole t = some 2 → x.role = false → s.takeMsg f t n = .error (s.reply f m 5 0 [])) ∧
  (mType m = t → x.isOpen = true → msgRole t = some 1 → x.inst = none → s.takeMsg f t n = .error (s.reply f m 7 0 [])) ∧
  (mType m = t → x.isOpen = true → msgRole t = some 1 → x.inst = some i → s.precPaused i.prec = true → s.takeMsg f t n = .error s) ∧
  (mType m = t → x.isOpen = true → msgRole t = some 1 → x.inst = some i → s.precPaused i.prec = false →
    s.takeMsg f t n = if mClean m n then .ok m else .error (s.reply f m 1 0 [])) ∧
  (mType m = t → x.isOpen = true → msgRole t = some 2 → x.role = true →
    s.takeMsg f t n = if mClean m n then .ok m else .error (s.reply f m 1 0 [])) ∧
  (∀ (y : State) (a b : Nat) (c : Bytes), ((y.reply1 f m a b c).func f).h2dHead = ((y.func f).h2dHead + 1) % 2 ^ 16)) ∧
  (∀ (s u : State) (f : FuncNo) (bound : List (Nat × Nat)) (far : List FarAns) (a12 : BitVec 12)
    (fetched : List (Option Bytes)) (h : BitVec 32) (n16 : BitVec 16) (n20 : BitVec 20) (n : Fin 4096) (c : ConnNo) (r slot : Nat) (q : Qn)
    (chans : List ChanNo),
  let no (t n : Nat) (i : Instr) : Prop := s.takeMsg f.val t n = .error u → exec i s = .next u
  no 0x0001 18 (.kioskOpen f) ∧ no 0x0002 0 (.kioskClose f) ∧ no 0x0010 32 (.docketSubmit f bound far) ∧ no 0x0011 8 (.docketCancel f) ∧
  no 0x0020 24 (.commCreate f h far) ∧ no 0x0021 4 (.commDestroy f) ∧ no 0x0030 1 (.keyGenerate f n16) ∧ no 0x0031 20 (.keyImport f n16 far) ∧
  no 0x0032 4 (.keyDestroy f) ∧ no 0x0033 8 (.ctxCreate f n20) ∧ no 0x0034 4 (.ctxDestroy f) ∧ no 0x0040 44 (.ledgerQueueCreate f n slot q) ∧
  no 0x0041 2 (.ledgerQueueDelete f) ∧ no 0x0042 2 (.ledgerQueueReset f) ∧ no 0x0050 24 (.rxqCreate f r slot) ∧ no 0x0051 24 (.txrCreate f r slot) ∧
  no 0x0052 4 (.ringDestroy f) ∧ no 0x0053 24 (.tollSet f) ∧ no 0x0060 8 (.connCreate f c slot q far) ∧ no 0x0061 4 (.carterConnect (.msg f)) ∧
  no 0x0062 4 (.carterReset (.msg f)) ∧ no 0x0063 4 (.connDestroy f) ∧ no 0x0064 17 (.regionRegister f n20) ∧
  no 0x0065 4 (.carterRegionInval (.msg f)) ∧ no 0x0070 30 (.invCheckpoint f far) ∧ no 0x0071 40 (.invRestore f far fetched) ∧
  no 0x0100 24 (.instanceCreate f a12) ∧ no 0x0101 2 (.instanceDestroy f) ∧ no 0x0102 12 (.instanceSet f chans) ∧ no 0x0110 24 (.volumeCreate f n) ∧
  no 0x0111 2 (.volumeDestroy f) ∧ no 0x0120 16 (.ximQuiesce (.msg f)) ∧ no 0x0120 16 (.ximLoad (.msg f)) ∧ no 0x0120 16 (.ximResume (.msg f)) ∧
  no 0x0121 1 (.precinctReset f) ∧ no 0x0130 1 (.fwActivate f) ∧ no 0x0131 12 (.moduleLoad f a12 far) ∧ no 0x0132 4 (.moduleUnload (.msg f)) ∧
  no 0x0140 16 (.debugEnable (.msg f)) ∧ no 0x0140 16 (.debugDisable (.msg f)) ∧ no 0x0140 16 (.ownerInstall (.msg f)) ∧
  no 0x0140 16 (.factoryEnable (.msg f)) ∧ no 0x0140 16 (.decommission (.msg f)) ∧ no 0x0140 16 (.rollbackAdvance (.msg f)) ∧
  no 0x0140 16 (.cancel (.msg f)) ∧ no 0x0150 4 (.pwrSet (.mgr (.msg f))))

/-- The messages that make and end communicators, keys and cipher contexts (R324, R412, R413, R417, R480): each is answered with its handle
or a status, and makes or ends that one object; a handle of another instance is DENIED and an unknown one NOT_FOUND. The messages that make
and end queues, rings, connections and regions, and those that act on a connection (R373, R386, R391, R393, R405, R410, R433, R449, R454):
each is answered with its number and doorbell slots or a status, and makes, ends or changes that one object. -/
def Obligations.KioskObjects : Prop :=
  (∀ (s u : State) (f : FuncNo) (i : Inst) (m b : Bytes) (h : BitVec 32) (n : BitVec 16) (c : BitVec 20)
    (far : List FarAns) (x : Nat × CashCtx),
  let k := f.val
  let got (t n : Nat) : Prop := s.takeMsg k t n = .ok m
  let size := mNum m 8 2
  let rank := mNum m 10 2
  let others := ((((List.range size).map fun k => leAt b (4 * k) 4).zipIdx.filter fun x => x.2 ≠ rank).map (·.1))
  let n' := n.toNat
  let g := (s.keyEnt n').gen
  let algo := mNum m 0 1
  let p := mNum m 4 4
  let pk := s.keyEnt (p % 2 ^ 16)
  let c' := c.toNat
  let cg := (s.ctxRec c').gen
  let mine := (s.cash.ctxs.filter fun x => decide (x.2.state ≠ 0) && decide (x.2.inst = k)).length
  s.inst k = some i →
  (got 0x0020 24 → 1 ≤ size → size ≤ 4096 → rank < size → mZero m 12 4 = true → i.comms.length < 256 →
    (i.comms.any fun c => c.handle = h.toNat) = false → s.fwRead i.asid (mNum m 16 8) (4 * size) far = (u, some (.ok b)) →
    (∀ n ∈ others, u.connStatus k n = 0) → exec (.commCreate f h far) s = .next ((u.setInst k { i with
      comms := i.comms ++ [{ handle := h.toNat, id := mNum m 0 8, size := size, rank := rank, conns := others }] }).reply k m 0 0 (leBytes 4 h.toNat))) ∧
  (got 0x0020 24 → 1 ≤ size → size ≤ 4096 → rank < size → mZero m 12 4 = true → 256 ≤ i.comms.length →
    exec (.commCreate f h far) s = .next (s.reply k m 4 0 [])) ∧
  (got 0x0021 4 → (i.comms.any fun c => c.handle = mNum m 0 4) = true → exec (.commDestroy f) s =
      .next ((s.setInst k { i with comms := i.comms.filter fun c => c.handle ≠ mNum m 0 4 }).reply k m 0 0 [])) ∧
  (got 0x0021 4 → (i.comms.any fun c => c.handle = mNum m 0 4) = false → exec (.commDestroy f) s = .next (s.reply k m 3 0 [])) ∧
  (got 0x0030 1 → 1 ≤ algo → algo ≤ 5 → s.keysFull = false → (s.keyEnt n').used = false → exec (.keyGenerate f n) s =
    .next (((s.useFresh (keyBytes algo)).setKeyEnt n' { gen := g, used := true, owner := k, algo := algo, key := s.freeBytes (keyBytes algo) }).reply
      k m 0 0 (leBytes 4 (g * 2 ^ 16 + n')))) ∧
  (got 0x0030 1 → algo = 0 ∨ 5 < algo → exec (.keyGenerate f n) s = .next (s.reply k m 1 0 [])) ∧
  (got 0x0031 20 → 1 ≤ algo → algo ≤ 5 → mZero m 1 3 = true → p ≠ 0xFFFF_FFFF → s.keyStatus k p = 0 → pk.algo = 2 → s.keysFull = false →
    (s.keyEnt n').used = false → s.fwRead i.asid (mNum m 8 8) (mNum m 16 4) far = (u, some (.ok b)) → exec (.keyImport f n far) s =
      .next (match Config.unwrapBlob pk.key b with
        | none => u.reply k m 8 0x0A []
        | some key => if key.length = keyBytes algo then
            (u.setKeyEnt n' { gen := (u.keyEnt n').gen, used := true, owner := k, algo := algo, key := key }).reply k m 0 0
              (leBytes 4 ((u.keyEnt n').gen * 2 ^ 16 + n'))
          else u.reply k m 1 0 [])) ∧
  (got 0x0032 4 → s.keyStatus k (mNum m 0 4) = 0 → exec (.keyDestroy f) s = .next ((s.keyFree (mNum m 0 4 % 2 ^ 16)).reply k m 0 0 [])) ∧
  (got 0x0032 4 → s.keyStatus k (mNum m 0 4) ≠ 0 → exec (.keyDestroy f) s = .next (s.reply k m (s.keyStatus k (mNum m 0 4)) 0 [])) ∧
  (got 0x0033 8 → 1 ≤ algo → algo ≤ 5 → mZero m 2 2 = true → isXts algo = false → mNum m 1 1 = 0 → s.keyStatus k p = 0 → pk.algo = algo →
    mine < i.cashboxCtx → (s.ctxRec c').state = 0 → exec (.ctxCreate f c) s =
      .next ((s.setCtxRec c' { gen := cg, algo := algo, state := 1, prec := i.prec, key := p, inst := k, unitLog2 := 0 }).reply k m 0 0
        (leBytes 4 (cg * 2 ^ 20 + c')))) ∧
  (got 0x0034 4 → s.ctxOf (mNum m 0 4) = some x → x.2.inst = k → exec (.ctxDestroy f) s = .next ((s.ctxFree x.1).reply k m 0 0 [])) ∧
  (got 0x0034 4 → s.ctxOf (mNum m 0 4) = some x → x.2.inst ≠ k → exec (.ctxDestroy f) s = .next (s.reply k m 5 0 [])) ∧
  (got 0x0034 4 → s.ctxOf (mNum m 0 4) = none → exec (.ctxDestroy f) s = .next (s.reply k m 3 0 []))) ∧
  (∀ (s u : State) (f : FuncNo) (i : Inst) (m b : Bytes) (ln : Fin 4096) (r slot : Nat) (q : Qn) (n : ConnNo)
    (rn : BitVec 20) (far : List FarAns) (v : Nat) (vol : Volume) (lq ly : LQueue) (ring : Ring) (node : TbNode),
  let k := f.val
  let got (t n : Nat) : Prop := s.takeMsg k t n = .ok m
  let cnt := mNum m 26 1
  let newq : LQueue := {
    flags := mNum m 0 1, version := v, volume := mNum m 2 2, asid := i.asid, sqBase := mNum m 4 8, cqBase := mNum m 12 8,
    sqLog := mNum m 20 1, cqLog := mNum m 21 1, msix := mNum m 22 2, dbCtr := mNum m 24 2, func := k, prec := i.prec, stall := q.val }
  let rx := ringOf k i false m
  let tx := ringOf k i true m
  let h := mNum m 0 4
  let h2 := mNum m 0 2
  let c := n.val
  let g := s.region rn.toNat
  let rec' := leBytes 8 (mNum m 0 8) ++ leBytes 8 (mNum m 8 8) ++ leBytes 2 i.asid ++ leBytes 1 (mNum m 16 1 + 128) ++ leBytes 13 0
  let x := s.region (h % 2 ^ 20)
  s.inst k = some i →
  (got 0x0040 44 → mZero m 1 1 = true → mZero m 27 1 = true → 1 ≤ cnt → cnt ≤ 8 → mZero m (28 + 2 * cnt) (16 - 2 * cnt) = true →
    agreed (versionList (slice m 36 (2 * cnt))) = some v → s.volume (mNum m 2 2) = some vol → nbit (mNum m 0 1) 0 = false →
    (s.ledger.queues.filter fun y => y.2.func = k).length < i.ledgerQ → s.hasStall i.prec 10 = true →
    s.precOfStall (soleStall q.val 10) = some i.prec → s.stallFenced (soleStall q.val 10) = false → s.lqueue ln.val = none →
    s.slotsFree k slot 2 = true → s.lqueueCreate ln.val newq = (u, 0) → exec (.ledgerQueueCreate f ln slot q) s =
      .next ((u.bindSlots k slot [.ledgerSq ln.val, .ledgerCq ln.val]).reply k m 0 0 (leBytes 2 ln.val ++ leBytes 2 v ++ leBytes 4 slot))) ∧
  (got 0x0041 2 → s.lqueue h2 = some lq → lq.func = k → lq.cmds = [] → s.lqueueDelete h2 = (u, 0) →
    exec (.ledgerQueueDelete f) s = .next ((u.queueFree k h2).reply k m 0 0 [])) ∧
  (got 0x0041 2 → s.lqueue h2 = none → exec (.ledgerQueueDelete f) s = .next (s.reply k m 3 0 [])) ∧
  (got 0x0042 2 → s.lqueue h2 = some lq → lq.func = k → lq.resetBy ≠ some k → lq.resetting = false → (s.lqueueReset h2 (some k)).1 = u →
    u.lqueue h2 = some ly →
    (ly.resetting = true → exec (.ledgerQueueReset f) s = .next u) ∧
    (ly.resetting = false → exec (.ledgerQueueReset f) s = .next ((u.setLqueue h2 { ly with resetBy := none }).reply k m 0 0 []))) ∧
  (got 0x0042 2 → s.lqueue h2 = none → exec (.ledgerQueueReset f) s = .next (s.reply k m 3 0 [])) ∧
  (got 0x0050 24 → rx.formOk m = true → s.eth.flows = [] →
    (s.eth.rings.any fun y => !y.2.tx && decide (y.2.target = rx.target) && decide (y.2.prec ≠ i.prec)) = false →
    s.ring r = none → r < 2 ^ 32 → s.slotsFree k slot 1 = true → exec (.rxqCreate f r slot) s =
      .next (((s.setRing r rx).bindSlots k slot [.rxq r]).reply k m 0 0 (leBytes 4 r ++ leBytes 4 slot))) ∧
  (got 0x0051 24 → tx.formOk m = true → s.node (tx.target / 2 ^ 18) 3 (tx.target % 2 ^ 18) = some node → node.prec = i.prec →
    s.ring r = none → r < 2 ^ 32 → s.slotsFree k slot 1 = true → exec (.txrCreate f r slot) s =
      .next (((s.setRing r tx).bindSlots k slot [.txr r]).reply k m 0 0 (leBytes 4 r ++ leBytes 4 slot))) ∧
  (got 0x0050 24 → rx.formOk m = false → exec (.rxqCreate f r slot) s = .next (s.reply k m 1 0 [])) ∧
  (got 0x0051 24 → tx.formOk m = false → exec (.txrCreate f r slot) s = .next (s.reply k m 1 0 [])) ∧
  (got 0x0052 4 → s.ring h = some ring → ring.func = k → exec (.ringDestroy f) s = .next ((s.ringFree k h).reply k m 0 0 [])) ∧
  (got 0x0052 4 → s.ring h = some ring → ring.func ≠ k → exec (.ringDestroy f) s = .next (s.reply k m 5 0 [])) ∧
  (got 0x0053 24 → mZero m 6 2 = true → h < 2 ^ 20 → 1 ≤ mNum m 4 2 → mNum m 8 4 ≤ 1600000 → mNum m 12 4 ≤ 1600000 → mNum m 8 4 ≤ mNum m 12 4 →
    64 ≤ mNum m 16 4 → mNum m 16 4 ≤ mNum m 20 4 → mNum m 20 4 ≤ 2 ^ 24 → s.node (h / 2 ^ 18) 3 (h % 2 ^ 18) = some node → node.prec = i.prec →
    look i.live 1 = none → exec (.tollSet f) s = .next ((s.setNode (h / 2 ^ 18) 3 (h % 2 ^ 18) (node.update { node with
      weight := mNum m 4 2, cir := mNum m 8 4, pir := mNum m 12 4, cbs := mNum m 16 4, pbs := mNum m 20 4 } s.tick)).reply k m 0 0 [])) ∧
  (got 0x0060 8 → (s.carter.ctxs.filter fun x => decide (x.2.state ≠ 0) && decide (x.2.func = some k)).length < i.carterConn →
    s.hasStall i.prec 9 = true → s.precOfStall (soleStall q.val 9) = some i.prec → s.stallFenced (soleStall q.val 9) = false →
    (s.conn c).state = 0 → s.slotsFree k slot 3 = true → s.fwRead i.asid (mNum m 0 8) 128 far = (u, some (.ok b)) → leAt b 2 1 = i.prec →
    leAt b 0x0C 2 = i.asid → (u.connWrite q.val c b (some k)).2 = 0 → exec (.connCreate f n slot q far) s =
      .next (((u.connWrite q.val c b (some k)).1.bindSlots k slot [.carterSq c, .carterRq c, .carterCq c]).reply k m 0 0 (leBytes 4 c ++ leBytes 4 slot))) ∧
  (got 0x0061 4 → s.connStatus k h = 0 → s.connConnect h = (u, 0) → exec (.carterConnect (.msg f)) s = .next (u.reply k m 0 0 [])) ∧
  (got 0x0061 4 → s.connStatus k h ≠ 0 → exec (.carterConnect (.msg f)) s = .next (s.reply k m (s.connStatus k h) 0 [])) ∧
  (got 0x0062 4 → s.connStatus k h = 0 → s.connReset h = (u, 0) → exec (.carterReset (.msg f)) s = .next (u.reply k m 0 0 [])) ∧
  (got 0x0063 4 → s.connStatus k h = 0 → exec (.connDestroy f) s = .next ((s.connFree h).reply k m 0 0 [])) ∧
  (got 0x0063 4 → s.connStatus k h ≠ 0 → exec (.connDestroy f) s = .next (s.reply k m (s.connStatus k h) 0 [])) ∧
  (got 0x0064 17 → mNum m 16 1 < 16 → nbit g.access 7 = false →
    (s.carter.regions.filter fun x => nbit x.2.access 7 && decide (x.2.asid = i.asid)).length < 4 * i.carterConn →
    s.regionWrite rn.toNat rec' = (u, 0) → exec (.regionRegister f rn) s =
      .next (u.reply k m 0 0 (leBytes 4 (g.gen * 2 ^ 20 + rn.toNat)))) ∧
  (got 0x0064 17 → 16 ≤ mNum m 16 1 → exec (.regionRegister f rn) s = .next (s.reply k m 1 0 [])) ∧
  (got 0x0065 4 → nbit x.access 7 = true → x.gen = h / 2 ^ 20 → x.asid = i.asid → exec (.carterRegionInval (.msg f)) s =
    .next ((s.setRegion (h % 2 ^ 20) { x with access := clearBit x.access 7, gen := (x.gen + 1) % 4096 }).reply k m 0 0 [])))

/-- The eleven Ledger commands (R436 to R445, R447): a command that passes its checks and may run has its effect: a read writes the
replica's bytes, a write starts with its data, a compare that differs ends with MISCOMPARE and the offset, a flush ends when every write
before it has, a sanitise or format begins, a feature is read or set, a power state is set. One that fails a check ends with that status;
one that may not run yet waits; a queue without the command is left alone. -/
def Obligations.LedgerCommands : Prop := ∀ (s u : State) (n : Fin 4096) (i bad st : Nat) (far : List FarAns) (q : LQueue) (c : LCmd) (v : Volume)
    (b a : Bytes) (r : Replica) (x : State × Except IoStop (Bytes × Bool)),
  let k := n.val
  let d := c.desc
  let size := 2 ^ v.log2
  let here (op : Nat) : Prop := s.lqueue k = some q ∧ q.cmds.find? (fun c => c.idx = i) = some c ∧ lOp d = op ∧ c.ended = none ∧ c.started = false ∧
    s.ledgerOn q.stall = true
  let can (op : Nat) : Prop := here op ∧ s.lcheck q d = none ∧ s.volume q.volume = some v ∧ s.lready q c = true
  let up := v.replicas.filter (·.up)
  let start (u : State) (b : Bytes) : State := u.setLqueue k (q.setCmd { c with started := true, data := b })
  let zeros : Bytes := List.replicate (lBlocks d * size) 0#8
  let idle (op : Nat) (o : Host.Outcome State Fault Refusal) : Prop :=
    (here op → s.lcheck q d = some st → o = .next (s.endCmd k c st 0)) ∧
    (here op → s.lcheck q d = none → s.volume q.volume = some v → s.lready q c = false → o = .next s) ∧
    (s.lqueue k = none → o = .next s)
  let write (u : State) : State × Except IoStop Unit := (ioWrite q.stall q.st q.asid (lData d) b false).at u []
  let cells : IoM ((Bytes × Bool) × (Bytes × Bool)) := do
    let x ← ioRead q.stall q.st q.asid (lAux d) (lBlocks d * size)
    let y ← ioRead q.stall q.st q.asid (lData d) (lBlocks d * size)
    pure (x, y)
  let lg := if lArg0 d = 0 then 12 else 14
  (can 1 → up[bad]? = some r → r.read size (lLba d) (lBlocks d) = b → write s = (u, .ok ()) →
    exec (.ledgerRead n i bad false) s = .next ((u.ledgerEvent q 7 (lBlocks d * size)).endCmd k c 0 0)) ∧
  (can 1 → up[bad]? = some r → r.read size (lLba d) (lBlocks d) = b → write s = (u, .error .fault) →
    exec (.ledgerRead n i bad false) s = .next (u.endCmd k c 0x05 0)) ∧
  (can 2 → (ioRead q.stall q.st q.asid (lData d) (lBlocks d * size)).at s far = x →
    (x = (u, .ok (b, false)) → exec (.ledgerWrite n i false far) s = .next (start u b)) ∧
    (x = (u, .ok (b, true)) → exec (.ledgerWrite n i false far) s = .next (u.endCmd k c 0x06 0)) ∧
    (x = (u, .error .fault) → exec (.ledgerWrite n i false far) s = .next (u.endCmd k c 0x05 0))) ∧
  (can 3 → (∀ y ∈ q.cmds, y.idx < c.idx → lIsWrite y.desc = true → y.ended ≠ none) → exec (.ledgerFlush n i) s = .next (s.endCmd k c 0 0)) ∧
  (can 3 → (∃ y ∈ q.cmds, y.idx < c.idx ∧ lIsWrite y.desc = true ∧ y.ended = none) → exec (.ledgerFlush n i) s = .next s) ∧
  (can 4 → exec (.ledgerWriteZeroes n i) s = .next (start s zeros)) ∧
  (can 5 → exec (.ledgerDiscard n i) s = .next (start s zeros)) ∧
  (can 6 → cells.at s far = (u, .ok ((a, false), (b, false))) → up[bad]? = some r →
    (firstDiff (r.read size (lLba d) (lBlocks d)) a = none → exec (.ledgerCompareAndWrite n i bad false far) s = .next (start u b)) ∧
    (∀ o, firstDiff (r.read size (lLba d) (lBlocks d)) a = some o →
      exec (.ledgerCompareAndWrite n i bad false far) s = .next (u.endCmd k c 0x41 o))) ∧
  (can 7 → s.earlierDone q.volume c.seq = true → s.volumeOps < 64 → exec (.ledgerSanitise n i) s = .next (((s.useFresh 64).setVolume q.volume
    { v with op := 1, regionsDone := 0, regions := v.regionCount, key := s.freeBytes 64, uncertain := [] }).endCmd k c 0 0)) ∧
  (can 7 → s.earlierDone q.volume c.seq = true → 64 ≤ s.volumeOps → exec (.ledgerSanitise n i) s = .next (s.endCmd k c 0x46 0)) ∧
  (can 8 → s.earlierDone q.volume c.seq = true → s.volumeOps < 64 → exec (.ledgerFormat n i) s = .next ((s.setVolume q.volume { v with
    op := 2, regionsDone := 0, regions := v.regionCount, blocks := v.blocks * size / 2 ^ lg, log2 := lg, uncertain := []
    replicas := v.replicas.map fun r => { r with blocks := [] } }).endCmd k c 0 0)) ∧
  (can 9 → (ioWrite q.stall q.st q.asid (lAux d) (s.feature q v (lArg0 d)) false).at s [] = (u, .ok ()) →
    exec (.ledgerGetFeatures n i) s = .next (u.endCmd k c 0 0)) ∧
  (can 10 → exec (.ledgerSetFeatures n i) s = .next ((s.setLqueue k { q with coalesce := lArg1 d }).endCmd k c 0 0)) ∧
  (can 11 → lArg0 d < 2 → exec (.ledgerSetPowerState n i) s = .next ((s.setVolume q.volume { v with power := lArg0 d }).endCmd k c 0 0)) ∧
  (can 11 → 2 ≤ lArg0 d → lArg0 d ≠ v.power → s.earlierDone q.volume c.seq = false → exec (.ledgerSetPowerState n i) s = .next s) ∧
  idle 1 (exec (.ledgerRead n i bad false) s) ∧ idle 2 (exec (.ledgerWrite n i false far) s) ∧ idle 3 (exec (.ledgerFlush n i) s) ∧
  idle 4 (exec (.ledgerWriteZeroes n i) s) ∧ idle 5 (exec (.ledgerDiscard n i) s) ∧ idle 6 (exec (.ledgerCompareAndWrite n i bad false far) s) ∧
  idle 7 (exec (.ledgerSanitise n i) s) ∧ idle 8 (exec (.ledgerFormat n i) s) ∧ idle 9 (exec (.ledgerGetFeatures n i) s) ∧
  idle 10 (exec (.ledgerSetFeatures n i) s) ∧ idle 11 (exec (.ledgerSetPowerState n i) s)

/-- The other Ledger rows (R434, R435, R441, R443, R446, R448, R449, R451, R454): doorbells, fetch, the operations of LEDGER_OP, what
replicas report, sanitise regions, repairs, completions and their interrupts. R448: a written completion leaves its command's tag free and
takes one entry of the completion queue; while the queue is full, or the command has not ended, nothing happens. -/
def Obligations.LedgerRows : Prop :=
  (∀ (s u : State) (rq : Requester) (kq : Qn) (w : W64) (f : FuncNo) (n vol : Fin 4096) (r : Fin 3)
    (slot m i j pn p : Nat) (far : List FarAns) (q y : LQueue) (c : LCmd) (v : Volume) (d : Bytes) (bad : Bool) (un : Nat × Nat) (rep : Replica),
  let k := n.val
  let op : Reg := ⟨.ledgerOp, kq.val, 0⟩
  let at_ := bitsOf w F.ledgerOp_QUEUE
  let idx (lg : Nat) := w.toNat % 2 ^ 16 % 2 ^ lg
  let va := q.sqBase + q.sqHead % 2 ^ q.sqLog * 64
  let cmd : LCmd := { idx := q.sqHead, seq := u.ledger.seq, desc := d, ended := if bad then some (0x06, 0) else none }
  let u' : State := { u with ledger := { u.ledger with seq := u.ledger.seq + 1 } }
  let on : Prop := rqKernel rq = true ∧ s.fbit op F.ledgerOp_BUSY = false
  let st (o : Host.Outcome State Fault Refusal) (x : State) (b : Nat) : Prop := o = .next (x.fset op F.ledgerOp_STATUS b)
  let b := s.ledgerStaged kq.val
  let size := 2 ^ v.log2
  let rs := records (v.range c.desc).1 (v.range c.desc).2
  let down := v.replicas.mapIdx fun i x => if i = r.val then { x with up := false } else x
  let idle := s.dropWaiters fun z => z = .ledger at_
  (s.slotOf f.val slot = some (.ledgerSq m) → s.lqueue m = some y → exec (.ledgerSqDoorbell f slot w) s =
    .next (s.setLqueue m { y with sqTail := advanceTo y.sqTail y.sqLog (idx y.sqLog) })) ∧
  (s.slotOf f.val slot = some (.ledgerCq m) → s.lqueue m = some y → exec (.ledgerCqDoorbell f slot w) s =
    .next (s.setLqueue m { y with cqHead := min y.cqTail (advanceTo y.cqHead y.cqLog (idx y.cqLog)) })) ∧
  (s.slotOf f.val slot = none → exec (.ledgerSqDoorbell f slot w) s = .next (s.slotStray f.val) ∧
    exec (.ledgerCqDoorbell f slot w) s = .next (s.slotStray f.val)) ∧
  (s.lqueue k = some q → s.lmayFetch k q = true → s.unitParity q.st ⟨.ledgerErr, q.stall, 0⟩ F.ledgerErr_PARITY = none →
    (ioRead q.stall q.st q.asid va 64).at s far = (u, .ok (d, bad)) → s.fetchOk q d = true → exec (.ledgerFetch n far) s =
      .next ((u'.setLqueue k { q with sqHead := q.sqHead + 1, cmds := q.cmds ++ [cmd], waiting := false }).takeMet (.ledger k)).1) ∧
  (s.lqueue k = some q → s.lmayFetch k q = false → exec (.ledgerFetch n far) s = .next s) ∧
  (s.lqueue k = some q → q.cmds.find? (fun c => c.idx = i) = some c → s.volume q.volume = some v → c.started = true → c.ended = none →
    v.replicas[m]? = some rep → rep.up = true → j < rs.length → c.acks.contains (m, j) = false → exec (.ledgerDurable n i m j) s =
      .next (((s.setVolume q.volume (v.apply m (v.range c.desc).1 c.data (rs.getD j (0, 0)))).setLqueue k
        (q.setCmd { c with acks := (m, j) :: c.acks })).settleWrites q.volume)) ∧
  (s.lqueue k = none → exec (.ledgerDurable n i m j) s = .next s ∧ exec (.ledgerFetch n far) s = .next s ∧ exec (.ledgerCompletion n i) s = .next s) ∧
  (s.volume vol.val = some v → v.replicas[r.val]? = some rep → rep.up = true → exec (.ledgerReplicaTimeout kq vol r) s =
    .next ((((s.fsat ⟨.ledgerErr, kq.val, 0⟩ F.ledgerErr_REPLICA_OUT 1).stallEvent (soleStall kq.val 10) 9 1 0 0).setVolume vol.val
      { v with replicas := down }).settleWrites vol.val)) ∧
  (s.volume vol.val = some v → v.uncertain[pn]? = some un → v.first = some rep → exec (.ledgerPieceRepair vol pn) s =
    .next (s.setVolume vol.val { v with
      uncertain := v.uncertain.eraseIdx pn
      replicas := v.replicas.map fun x => if x.up then x.write size (un.1 / size) (rep.read size (un.1 / size) (un.2 / size)) else x })) ∧
  (s.volume vol.val = some v → v.op ≠ 0 → v.regionsDone + 1 < v.regions →
    exec (.ledgerSanitiseRegionDone vol) s = .next (s.setVolume vol.val { v with regionsDone := v.regionsDone + 1 })) ∧
  (s.volume vol.val = some v → v.op ≠ 0 → v.regions ≤ v.regionsDone + 1 → exec (.ledgerSanitiseRegionDone vol) s =
    .next (s.setVolume vol.val { v with op := 0, regionsDone := v.regions, replicas := v.replicas.map fun r => { r with blocks := [] } })) ∧
  (s.volume vol.val = some v → v.replicas[r.val]? = some rep → rep.up = false → v.first = none → exec (.replicaReturn vol r) s =
    .next (s.setVolume vol.val { v with replicas := v.replicas.mapIdx fun i x => if i = r.val then { up := true, blocks := x.blocks } else x })) ∧
  (s.volume vol.val = none → exec (.ledgerSanitiseRegionDone vol) s = .next s ∧ exec (.replicaReturn vol r) s = .next s ∧
    exec (.ledgerPieceRepair vol pn) s = .next s ∧ exec (.ledgerReplicaTimeout kq vol r) s = .next s) ∧
  (exec (.ledgerCompletion n i) s = .next (s.lcomplete k i)) ∧
  (s.lqueue k = some q → q.irqs ≠ 0 → exec (.irqCoalesceTimeout n) s = .next ((s.setLqueue k { q with irqs := 0 }).sendMsix q.func q.msix)) ∧
  (s.lqueue k = some q → q.irqs = 0 → exec (.irqCoalesceTimeout n) s = .next s) ∧
  (on → s.precOfStall (soleStall kq.val 10) = some p → leAt b 0 1 = 0 → allZero (slice b 0x2A 22) = true → s.lqueue at_ = none →
    s.lqueueOk (LQueue.of kq.val p b) = true → s.lqueueCount p < s.lqueuePool p →
    st (exec (.ledgerOpCreate rq kq w) s) (s.setLqueue at_ (LQueue.of kq.val p b)) 0) ∧
  (on → s.precOfStall (soleStall kq.val 10) = some p → leAt b 0 1 ≠ 0 → st (exec (.ledgerOpCreate rq kq w) s) s 1) ∧
  (on → s.lqueue at_ = some y → y.cmds = [] → st (exec (.ledgerOpDelete rq kq w) s)
    { idle with ledger := { idle.ledger with queues := drop idle.ledger.queues at_ } } 0) ∧
  (on → s.lqueue at_ = some y → y.cmds = [] → (∀ x ∈ s.bell.queue, ∀ z ∈ x.2, z.src ≠ .ledger at_) →
    Completes (exec (.ledgerOpDelete rq kq w) s) fun t => t.lqueue at_ = none ∧
      t.fget op F.ledgerOp_STATUS = 0 ∧ s.regsBut t [op] ∧ s.memSame t ∧ ∀ x, x ≠ at_ → t.lqueue x = s.lqueue x) ∧
  (on → s.lqueue at_ = some y → y.cmds ≠ [] → st (exec (.ledgerOpDelete rq kq w) s) s 5) ∧
  (on → s.lqueue at_ = none → st (exec (.ledgerOpDelete rq kq w) s) s 4 ∧ st (exec (.ledgerOpQueueReset rq kq w) s) s 5 ∧
    st (exec (.ledgerOpPause rq kq w) s) s 5 ∧ st (exec (.ledgerOpResume rq kq w) s) s 5) ∧
  (on → s.lqueue at_ = some y → y.stall = kq.val → y.cmds = [] → Completes (exec (.ledgerOpQueueReset rq kq w) s) fun t =>
    t.lqueue at_ = some { y with
      sqHead := 0, sqTail := 0, cqTail := 0, cqHead := 0, resetting := false, resetBy := none
      state := if y.state = 2 then 1 else y.state } ∧
    t.fbit op F.ledgerOp_BUSY = false ∧ t.fget op F.ledgerOp_STATUS = 0 ∧ s.regsBut t [op] ∧ s.memSame t) ∧
  (on → s.lqueue at_ = some y → st (exec (.ledgerOpPause rq kq w) s) (s.setLqueue at_ { y with state := 2 }) 0 ∧
    st (exec (.ledgerOpResume rq kq w) s) (s.setLqueue at_ { y with state := 1 }) 0) ∧
  (on → Completes (exec (.ledgerOpRead rq kq w) s) fun t => t.fget op F.ledgerOp_STATUS = 0 ∧ s.memSame t ∧ t.ledger = s.ledger ∧
    leAt (t.ledgerStaged kq.val) 0 1 = (match s.lqueue at_ with | some y => y.state % 256 | none => 0)) ∧
  (¬on → exec (.ledgerOpCreate rq kq w) s = .next (s.refuse rq op) ∧ exec (.ledgerOpDelete rq kq w) s = .next (s.refuse rq op) ∧
    exec (.ledgerOpQueueReset rq kq w) s = .next (s.refuse rq op) ∧ exec (.ledgerOpPause rq kq w) s = .next (s.refuse rq op) ∧
    exec (.ledgerOpResume rq kq w) s = .next (s.refuse rq op) ∧ exec (.ledgerOpRead rq kq w) s = .next (s.refuse rq op))) ∧
  (∀ (s u : State) (n i st res : Nat) (q : LQueue) (c : LCmd),
  let b := leBytes 4 res ++ leBytes 2 (lCid c.desc) ++ leBytes 2 (q.sqHead % 2 ^ q.sqLog) ++ leBytes 2 (c.idx % 2 ^ q.sqLog) ++
    leBytes 1 st ++ leBytes 1 0 ++ leBytes 4 (2 ^ 31 * b2n (phaseOf q.cqLog q.cqTail))
  s.lqueue n = some q → q.cmds.find? (fun c => c.idx = i) = some c →
  (c.ended = none → s.lcomplete n i = s) ∧
  (c.ended = some (st, res) → q.dbBell = false → q.cqTail = q.cqHead + 2 ^ q.cqLog → s.lcomplete n i = s) ∧
  (c.ended = some (st, res) → q.cqTail < q.cqHead + 2 ^ q.cqLog → nbit (lFlags c.desc) 0 = true → q.resetting = false →
    (ioCompletion q.stall q.st q.asid (ringAt q.cqBase q.cqLog q.cqTail) b).at s [] = (u, .ok ()) →
    s.lcomplete n i = (u.setLqueue n { q with cqTail := q.cqTail + 1, cmds := q.cmds.filter (·.idx ≠ i) }).ledgerEvent q 6 1))

/-- The manager's messages about instances and volumes (R452, R474, R482, R483): an instance is made within its precinct's quotas, set and
destroyed; a volume is made with its replicas and a free key, and destroyed when no queue names it; each is answered with its status. The
host ports (R288, R350, R456, R464, R465, R467, R469 to R471, R473, R519): BAR2 reads and writes instance memory, an access that cannot is
aborted; a power state is kept; PERST puts the PF in D3cold and brings the link down; FLR resets the function; clearing Bus Master Enable
loses the driver; clearing VF Enable destroys its instances; a request out of time ends with TIMEOUT and its tag is quarantined; links come
up and go down. -/
def Obligations.HostsAndTenancy : Prop :=
  (∀ (s : State) (f : FuncNo) (m : Bytes) (asid : BitVec 12) (n : Fin 4096) (i : Inst) (vol : Volume),
  let k := f.val
  let got (t n : Nat) : Prop := s.takeMsg k t n = .ok m
  let g := mNum m 0 2
  let p := mNum m 2 1
  let new : Inst := {
    prec := p, asid := asid.toNat, whGib := mNum m 4 2, sqMib := mNum m 6 2, carterConn := mNum m 8 4, ledgerQ := mNum m 12 2,
    cashboxCtx := mNum m 16 4, counterMask := mNum m 20 4 }
  let mine : Prop := g < 512 ∧ portOf g = portOf k
  let ok : Prop := mine ∧ mZero m 3 1 = true ∧ mZero m 14 2 = true ∧ p < 64 ∧ s.factory = false ∧ s.sec.fuses.decommissioned = false
  let bind : Prop := s.funcThere g = true ∧ (s.precinct p).isSome = true ∧ s.inst g = none ∧ s.mayBind p g = true
  let u := s.useFresh 1
  let made : State := { u with cash := { u.cash with wrap := put u.cash.wrap g (Config.freeNat s.fresh, 0) } }
  let item := mNum m 2 2
  let v := mNum m 4 8
  let live : Inst := { i with live := put i.live item v }
  let least := mNum m 3 1
  let lg := mNum m 4 1
  let vnew : Volume := {
    owner := g, blocks := mNum m 8 8, log2 := lg, minHealthy := least, replicas := List.replicate p {}, key := s.freeBytes 64, store := mNum m 16 8 }
  let w := (s.useFresh 64).setVolume n.val vnew
  let fits : Prop := p = 2 ∨ p = 3
  (got 0x0100 24 → ok → bind → s.quotaOk new = true → new.counterMask &&& s.classMask p = new.counterMask → asid ≠ 0 →
    (s.host.funcs.any fun x => match x.2.inst with | some j => decide (j.asid = asid.toNat) | none => false) = false →
    exec (.instanceCreate f asid) s = .next ((made.setInst g new).reply k m 0 0 [])) ∧
  (got 0x0100 24 → ok → bind → s.quotaOk new = false → exec (.instanceCreate f asid) s = .next (s.reply k m 4 0 [])) ∧
  (got 0x0100 24 → ok → s.funcThere g = true → (s.precinct p).isSome = true → s.inst g = some i →
    exec (.instanceCreate f asid) s = .next (s.reply k m 5 0 [])) ∧
  (got 0x0100 24 → mZero m 3 1 = false ∨ mZero m 14 2 = false ∨ 512 ≤ g ∨ 64 ≤ p → exec (.instanceCreate f asid) s = .next (s.reply k m 1 0 [])) ∧
  (got 0x0101 2 → mine → s.inst g = some i → exec (.instanceDestroy f) s = .next ((s.destroyInstance g).reply k m 0 0 [])) ∧
  (got 0x0101 2 → mine → s.inst g = none → exec (.instanceDestroy f) s = .next (s.reply k m 3 0 [])) ∧
  (got 0x0101 2 → g < 512 → portOf g ≠ portOf k → exec (.instanceDestroy f) s = .next (s.reply k m 5 0 [])) ∧
  (got 0x0102 12 → mine → s.inst g = some i → item = 4 → v < 2 ^ 32 → exec (.instanceSet f []) s = .next ((s.setInst g live).reply k m 0 0 [])) ∧
  (got 0x0102 12 → mine → s.inst g = some i → item = 2 → 1 ≤ v → v ≤ 255 → exec (.instanceSet f []) s = .next ((s.setInst g live).reply k m 0 0 [])) ∧
  (got 0x0102 12 → mine → s.inst g = some i → item = 1 → v = 0 ∨ 1600000 < v → exec (.instanceSet f []) s = .next (s.reply k m 1 0 [])) ∧
  (got 0x0102 12 → mine → s.inst g = none → exec (.instanceSet f []) s = .next (s.reply k m 3 0 [])) ∧
  (got 0x0110 24 → g < 512 → fits → 1 ≤ least → least ≤ p → lg = 12 ∨ lg = 14 → mZero m 5 3 = true → 1 ≤ mNum m 8 8 → mNum m 8 8 ≤ 2 ^ 40 →
    s.ledger.volumes.length < 4096 → s.volume n.val = none → exec (.volumeCreate f n) s =
      .next (({ w with ledger := { w.ledger with created := (w.ledger.created + 1) % 2 ^ 32 } } : State).reply k m 0 0 (leBytes 2 n.val))) ∧
  (got 0x0110 24 → ¬fits ∨ 512 ≤ g ∨ least = 0 ∨ p < least → exec (.volumeCreate f n) s = .next (s.reply k m 1 0 [])) ∧
  (got 0x0111 2 → s.volume g = some vol → (s.ledger.queues.any fun q => q.2.volume = g) = false → exec (.volumeDestroy f) s =
    .next (({ s with ledger := { s.ledger with volumes := drop s.ledger.volumes g } } : State).reply k m 0 0 [])) ∧
  (got 0x0111 2 → s.volume g = some vol → (s.ledger.queues.any fun q => q.2.volume = g) = true → exec (.volumeDestroy f) s = .next (s.reply k m 2 0 [])) ∧
  (got 0x0111 2 → s.volume g = none → exec (.volumeDestroy f) s = .next (s.reply k m 3 0 []))) ∧
  (∀ (s u w : State) (f : FuncNo) (p : Fin 2) (off : BitVec 36) (d : Bytes) (len pa lk tag c id wd rate : Nat)
    (po bad : Bool) (i : Inst) (b : Burst) (v : BitVec 2) (g : Qn) (e : Bytes),
  let k := f.val
  let q := hostQ (portOf k)
  let h := p.val
  let x := s.port h
  let pf := 256 * h
  let abort (y : State) : State := (y.count q 57 4 1).emit (.aer k 5)
  let at_ (n : Nat) : Prop := s.hostReaches k = true ∧ s.tlpInj (portOf k) = none ∧ 1 ≤ n ∧ off.toNat % 4096 + n ≤ 4096
  let quiet := { s.func k with bme := false }
  let unit := qUnit (hostQ h) 0x18
  (at_ d.length → s.inst k = some i → s.translate q ⟨funcReq k, i.asid, off.toNat, true⟩ = (u, .ok 0 pa lk) →
    u.writeMem i.prec (funcReq k) i.asid pa d false = (w, bad) →
    exec (.bar2Access f off (some d) len false) s = .next (if bad then abort w else w)) ∧
  (at_ len → s.inst k = some i → s.translate q ⟨funcReq k, i.asid, off.toNat, false⟩ = (u, .ok 0 pa lk) →
    u.readMem i.prec (funcReq k) i.asid pa len = (w, e, false) → exec (.bar2Access f off none len po) s = .next (w.emit (.hostData k e))) ∧
  (at_ len → s.inst k = some i → s.translate q ⟨funcReq k, i.asid, off.toNat, false⟩ = (u, .deny) →
    exec (.bar2Access f off none len po) s = .next ((abort s).emit (.hostAbort k))) ∧
  (at_ len → s.inst k = none → exec (.bar2Access f off none len po) s = .next ((abort s).emit (.hostAbort k))) ∧
  (s.hostReaches k = false → exec (.bar2Access f off (some d) len po) s = .next s) ∧
  (x.linkUp = true → v ≠ 0 → v ≠ 2 → exec (.pfPowerStateWrite p v) s = .next (s.setFunc pf { s.func pf with power := v.toNat })) ∧
  (x.linkUp = false ∨ v = 2 → exec (.pfPowerStateWrite p v) s = .next s) ∧
  (exec (.hqPerstAssert p) s = .next ((s.setPort h { x with perst := true }).perstEffects h)) ∧
  (Completes (exec (.hqPerstAssert p) s) fun t => (t.func pf).power = 4) ∧
  (Completes (exec (.hqPerstDeassert p) s) fun t => t.port h = { x with perst := false, wake := false } ∧
    t.func pf = { s.func pf with power := 0 } ∧ t.regs = s.regs ∧ s.memSame t) ∧
  (s.funcThere k = true → Completes (exec (.flr f) s) fun t => (t.func k).bme = false ∧ (t.func k).msixEnable = false ∧ (t.func k).h2d = [] ∧
    (t.func k).d2h = [] ∧ (t.func k).h2dTail = 0 ∧ (t.func k).h2dHead = 0 ∧ (t.func k).d2hTail = 0 ∧ (t.func k).d2hHead = 0 ∧
    (t.func k).stray = 0) ∧
  (s.funcThere k = false → exec (.flr f) s = .next s) ∧
  (s.inst k = none → (s.func k).isOpen = false → exec (.bmeClear f) s = .next (s.setFunc k quiet)) ∧
  (s.inst k = some i → exec (.bmeClear f) s = .next ((s.setFunc k quiet).driverLoss k 2)) ∧
  (exec (.vfEnableClear p) s = .next (s.vfClear h)) ∧
  ((∀ y, portOf y = h → s.inst y = none) → Completes (exec (.vfEnableClear p) s) fun t => (t.func pf).vfEnable = false ∧ t.regs = s.regs ∧ s.memSame t) ∧
  (look x.tags tag = some (c, id) → s.burst c id = some b → s.injAt 0x0A unit (fun _ => true) = none →
    let t := s.setPort h { x with tags := drop x.tags tag, expired := put x.expired tag (s.funcOfAsid h b.srcAsid) }
    let y := t.count (hostQ h) 57 2 1
    exec (.hostCompletionTimeout p tag) s =
      .next ((y.recordErr 2 0x0A (precOr (t.precOfChan c)) unit 0 0 b.srcAsid false).failBurst c id 0x21 b.isFlush)) ∧
  (look x.tags tag = none → exec (.hostCompletionTimeout p tag) s = .next s) ∧
  (Completes (exec (.hostTagRelease p tag) s) fun t => t.port h = { x with expired := drop x.expired tag } ∧ t.regs = s.regs ∧ s.memSame t) ∧
  (x.linkUp = true → exec (.hostLinkDown p) s = .next ((s.setPort h { x with linkUp := false, tags := [] }).failBursts 0x23 (Burst.onHost h))) ∧
  (x.linkUp = false → exec (.hostLinkDown p) s = .next s) ∧
  (s.portsTrain = true → x.perst = false → s.err.held = false → hostQ h ∉ s.err.cutOff → wd ∈ [1, 2, 4, 8, 16] → 4 ≤ rate → rate ≤ 7 →
    x.width = 0 ∨ x.width = wd → exec (.hostLinkUp p wd rate) s = .next (s.setPort h { x with linkUp := true, width := wd, rate := rate })) ∧
  (s.portsTrain = false ∨ x.perst = true → exec (.hostLinkUp p wd rate) s = .next s) ∧
  (s.portsTrain = true → s.rpMode (4 * g.val) = true → s.fbit (grpCtrlReg g.val) F.cwGrpCtrl_ENABLE = true → wd ∈ [1, 2, 4, 8, 16] → 4 ≤ rate →
    rate ≤ 7 → (s.link (4 * g.val)).width = 0 ∨ (s.link (4 * g.val)).width = wd → Completes (exec (.rootPortLinkUp g wd rate) s) fun t =>
      t.fget (grpStatusReg g.val) F.cwGrpStatus_DLL_ACTIVE = 1 ∧ t.fget (grpStatusReg g.val) F.cwGrpStatus_WIDTH = wd ∧
      t.fget (grpStatusReg g.val) F.cwGrpStatus_RATE = rate ∧ t.fget (grpStatusReg g.val) F.cwGrpStatus_HP_EVENT = 1 ∧ s.memSame t) ∧
  (s.rpMode (4 * g.val) = false → exec (.rootPortLinkUp g wd rate) s = .next s))

/-- Quiesce and resume (R92, R94, R96, Table 3.10): QUIESCE of an ACTIVE precinct starts quiescing it, of a QUIESCED or UNUSED one ends OK
at once; quiescing ends OK when the precinct is quiet, and NOT_QUIESCED when its limit passes; RESUME makes a QUIESCED precinct ACTIVE. A
write by another than the kernel is a stray one; an operation that a message asked for is answered when it ends. Loading (R84, R93 to R95):
a LOAD of a QUIESCED or UNUSED precinct makes it LOADING while no other operation runs, and is a stray write while one does; at the commit
point an image that was aborted, cannot be read, fails validation or removes what is in use leaves the configuration in force, and the
precinct QUIESCED or UNUSED with the failing status; a right one takes effect whole. -/
def Obligations.StructureImages : Prop :=
  (∀ (s : State) (p : PrecNo) (f : FuncNo) (m : Bytes) (rq : Requester) (v : W64) (b : Option Nat),
  let ctrl : Reg := ⟨.ximLoadCtrl, 0, 0⟩
  let stat : Reg := ⟨.ximLoadStatus, 0, 0⟩
  let op := bitsOf v F.ximLoadCtrl_OP
  let t := bitsOf v F.ximLoadCtrl_PRECINCT
  let kern (n : Nat) : Prop := rqKernel rq = true ∧ op = n
  let mt := mNum m 1 1
  let asked (n : Nat) : Prop := s.takeMsg f.val 0x0120 16 = .ok m ∧ mNum m 0 1 = n ∧ mt < 64 ∧ mZero m 2 2 = true ∧ mNum m 4 4 < 2 ^ 24 ∧
    mNum m 8 8 % 8 = 0 ∧ mNum m 8 8 < 2 ^ 57 ∧ (s.xim.quiesce.any fun x => x.2 = some f.val) = false ∧
    (∀ l, s.xim.load = some l → l.by_ ≠ some f.val)
  let begun (n : Nat) (by_ : Option Nat) : State :=
    let u := s.setPrecState n 2
    (({ u with xim := { u.xim with quiesce := u.xim.quiesce ++ [(n, by_)] } } : State).fset stat F.ximLoadStatus_PRECINCT n).ximSync
  let under : Prop := s.xim.quiesce.find? (fun x => x.1 = p.val) = some (p.val, b)
  let left (n : Nat) : State :=
    let u := s.setPrecState p.val n
    { u with xim := { u.xim with quiesce := u.xim.quiesce.filter fun x => x.1 ≠ p.val } }
  (kern 1 → s.precState t = 1 → exec (.ximQuiesce (.reg rq v)) s = .next (begun t none)) ∧
  (kern 1 → s.precState t = 0 ∨ s.precState t = 3 → exec (.ximQuiesce (.reg rq v)) s = .next (s.ximEnd t (0, 0, 0) none)) ∧
  (kern 1 → s.precState t = 2 ∨ s.precState t = 4 → exec (.ximQuiesce (.reg rq v)) s = .next (s.refuse rq ctrl)) ∧
  (op = 1 → rqKernel rq = false → exec (.ximQuiesce (.reg rq v)) s = .next (s.refuse rq ctrl)) ∧
  (asked 1 → s.precState mt = 1 → exec (.ximQuiesce (.msg f)) s = .next (begun mt (some f.val))) ∧
  (asked 1 → s.precState mt = 0 ∨ s.precState mt = 3 → exec (.ximQuiesce (.msg f)) s = .next (s.ximEnd mt (0, 0, 0) (some f.val))) ∧
  (under → s.quiet p.val = true → exec (.ximQuiesceDone p) s = .next ((left 3).ximEnd p.val (0, 0, 0) b)) ∧
  (under → s.quiet p.val = false → exec (.ximQuiesceDone p) s = .next s) ∧
  (under → exec (.ximQuiesceTimeout p) s = .next ((left 1).ximEnd p.val (0x0A, 0, 0) b)) ∧
  ((∀ x ∈ s.xim.quiesce, x.1 ≠ p.val) → exec (.ximQuiesceDone p) s = .next s ∧ exec (.ximQuiesceTimeout p) s = .next s) ∧
  (kern 3 → s.precState t = 3 → exec (.ximResume (.reg rq v)) s = .next ((s.setPrecState t 1).ximEnd t (0, 0, 0) none)) ∧
  (kern 3 → s.precState t ≠ 3 → exec (.ximResume (.reg rq v)) s = .next (s.ximEnd t (0x0A, 0, 0) none)) ∧
  (asked 3 → s.precState mt = 3 → exec (.ximResume (.msg f)) s = .next ((s.setPrecState mt 1).ximEnd mt (0, 0, 0) (some f.val)))) ∧
  (∀ (s u : State) (f : FuncNo) (m img : Bytes) (rq : Requester) (v : W64) (l : XimLoad),
  let ctrl : Reg := ⟨.ximLoadCtrl, 0, 0⟩
  let stat : Reg := ⟨.ximLoadStatus, 0, 0⟩
  let la : Reg := ⟨.ximLoadAddr, 0, 0⟩
  let op := bitsOf v F.ximLoadCtrl_OP
  let t := bitsOf v F.ximLoadCtrl_PRECINCT
  let mt := mNum m 1 1
  let asked (n : Nat) : Prop := s.takeMsg f.val 0x0120 16 = .ok m ∧ mNum m 0 1 = n ∧ mt < 64 ∧ mZero m 2 2 = true ∧ mNum m 4 4 < 2 ^ 24 ∧
    mNum m 8 8 % 8 = 0 ∧ mNum m 8 8 < 2 ^ 57
  let idle : Prop := s.xim.quiesce = [] ∧ s.xim.load = none
  let begun (x : State) (n len : Nat) (by_ : Option Nat) : State :=
    let y := x.setPrecState n 4
    (({ y with xim := { y.xim with load := some { target := n, addr := x.fget la F.ximLoadAddr_ADDR * 8, length := len, by_ := by_ } } } :
      State).fset stat F.ximLoadStatus_PRECINCT n).ximSync
  let back (x : State) (r : Xim.Fail) : State :=
    let y : State := { x with xim := { x.xim with load := none } }
    (y.setPrecState l.target (if (y.precinct l.target).isSome then 3 else 0)).ximEnd l.target r l.by_
  let refused (x : State) (r : Xim.Fail) (j : Bool) : State := back (x.loadRefused r.1 j) r
  let reads (bad : Bool) : Prop := s.xim.load = some l ∧ l.aborted = false ∧ s.readMem 0xFF (0x8000 + 16) 0 l.addr l.length = (u, img, bad)
  let inForce (w : State) (c : XimConf) : State :=
    let y := w.ximApply img l.target c
    ({ y with xim := { y.xim with load := none } } : State).ximEnd l.target (0, 0, 0) l.by_
  (rqKernel rq = true → op = 2 → idle → s.precState t = 0 ∨ s.precState t = 3 →
    exec (.ximLoad (.reg rq v)) s = .next (begun s t (bitsOf v F.ximLoadCtrl_LENGTH) none)) ∧
  (rqKernel rq = true → op = 2 → idle → s.precState t ≠ 0 → s.precState t ≠ 3 → exec (.ximLoad (.reg rq v)) s = .next (s.ximEnd t (0x0A, 0, 0) none)) ∧
  (rqKernel rq = true → op = 2 → ¬idle → exec (.ximLoad (.reg rq v)) s = .next (s.refuse rq ctrl)) ∧
  (op = 2 → rqKernel rq = false → exec (.ximLoad (.reg rq v)) s = .next (s.refuse rq ctrl)) ∧
  (asked 2 → idle → s.precState mt = 0 ∨ s.precState mt = 3 →
    exec (.ximLoad (.msg f)) s = .next (begun (s.fset la F.ximLoadAddr_ADDR (mNum m 8 8 / 8)) mt (mNum m 4 4) (some f.val))) ∧
  (s.xim.load = some l → l.aborted = true → exec .ximLoadCommit s = .next (back s (0x0D, 0, 0))) ∧
  (reads true → exec .ximLoadCommit s = .next (refused u (1, 0, 0) false)) ∧
  (reads false → exec .ximLoadCommit s = .next (
    match u.ximValidate img (some l.target) with
    | (w, inj, .error r) => refused w r inj
    | (w, _, .ok c) => if w.ximInUse img l.target c then refused w (9, 0, 0) false else inForce w c)) ∧
  (s.xim.load = none → exec .ximLoadCommit s = .next s))

/-- Live activation (R514 to R518, Tables 21.3 and 21.4): an activation of the other slot is verified and fetch pauses; one of the running
slot or of no slot is MALFORMED, one in a declared emergency DEFERRED_EMERGENCY, and one that meets another operation BUSY; the drained
image writes the handover record; the new image adopts it, or the old one goes on and the manager hears FAILED; the commit makes the slot
committed and running. Service modules, the kernel's shares and the precinct reset (R508, R511, R512, R606): a module loads only where its
image, its signature, its SVN, its precinct and the memory left allow; it leaves by message or by its own exception, of which its PF hears;
each period gives each core its shares; the manager resets a precinct that is there. -/
def Obligations.FirmwareRows : Prop :=
  (∀ (s u w : State) (f : FuncNo) (m h b : Bytes) (a : FwAct) (addr : BitVec 57) (secs : List (Nat × Bytes)) (c : Bool),
  let k := f.val
  let slot := mNum m 0 1
  let got : Prop := s.takeMsg k 0x0130 1 = .ok m
  let sound : Prop := slot ≤ 1 ∧ slot ≠ s.running ∧ s.fbit pwrStatus F.pwrStatus_DECLARED = false
  let held : Prop := 1 ∈ s.side.ready ∨ ∃ x, s.side.update = some x ∧ x.comp = 1
  let under (x : State) : State := { x with fw := { x.fw with act := some { by_ := some k, slot := slot } } }
  let phase (n : Nat) : Prop := s.fw.act = some a ∧ s.fget fwStateReg F.fwState_PHASE = n
  let r := handover (s.fget fwStateReg F.fwState_SVN) secs
  let req := 0x8000 + 4 * s.fwQuarter
  let fail (x : State) (d : Nat) := x.fwEnd 8 d
  let img := s.fwSlot a.slot
  let gone (x : State) : List Module := x.fw.modules.filter fun y => !Config.kapiOk img y.kapi
  let good : Prop := handoverOk b = true
  (got → sound → s.fwBusy = false → ¬held → exec (.fwActivate f) s = .next (
    match s.fwCheck (s.fwSlot slot) with
    | (x, 0, _) => ({ under x with eth := { x.eth with missed := [] } } : State).fset fwStateReg F.fwState_PHASE 2
    | (x, st, inj) => (under (x.loadRefused st inj)).fwEnd 8 st)) ∧
  (got → 1 < slot ∨ slot = s.running → exec (.fwActivate f) s = .next ((under s).fwEnd 1 0)) ∧
  (got → slot ≤ 1 → slot ≠ s.running → s.fbit pwrStatus F.pwrStatus_DECLARED = true → exec (.fwActivate f) s = .next ((under s).fwEnd 9 0)) ∧
  (got → sound → s.fwBusy = true ∨ held → exec (.fwActivate f) s =
    .next (((s.fset fwStateReg F.fwState_LAST_STATUS 2).fset fwStateReg F.fwState_LAST_DETAIL 2).reply k m 2 2 [])) ∧
  (phase 2 → a.aborted = false → s.fwDrained = true → secs.length = 9 → addr.toNat % 8 = 0 → rangeInSystem addr.toNat r.length = true →
    s.writeMem 0xFF req 0 addr.toNat r false = (u, c) → exec (.fwDrainDone addr secs) s =
      .next (({ u with fw := { u.fw with act := some { a with record := addr.toNat, written := true } } } : State).fset fwStateReg F.fwState_PHASE 3)) ∧
  (phase 2 → a.aborted = false → s.fwDrained = false → exec (.fwDrainDone addr secs) s = .next s) ∧
  (s.fw.act = some a → a.aborted = true → exec (.fwDrainDone addr secs) s = .next (fail s 0x0D)) ∧
  (s.fget fwStateReg F.fwState_PHASE = 2 → exec .fwDrainTimeout s = .next (s.fwEnd 2 1)) ∧
  (s.fget fwStateReg F.fwState_PHASE ≠ 2 → exec .fwDrainTimeout s = .next s) ∧
  (phase 3 → a.aborted = false → s.readMem 0xFF req 0 a.record 0x30 = (u, h, false) → u.readMem 0xFF req 0 a.record (leAt h 8 4) = (w, b, false) →
    good → exec .fwHandoverAdopt s = .next (if Config.handoverOk img (leAt b 4 2) then
      ((gone w).foldl (fun x y => x.moduleEnd y 0 true) w).fset fwStateReg F.fwState_PHASE 4 else fail w 0x7F)) ∧
  (phase 3 → a.aborted = false → s.readMem 0xFF req 0 a.record 0x30 = (u, h, false) → u.readMem 0xFF req 0 a.record (leAt h 8 4) = (w, b, false) →
    ¬good → exec .fwHandoverAdopt s = .next (fail w 0x7F)) ∧
  (phase 3 → a.aborted = true → exec .fwHandoverAdopt s = .next (fail s 0x0D)) ∧
  (phase 3 → exec .fwHandoverTimeout s = .next (fail s (if a.aborted then 0x0D else 0x7F))) ∧
  (phase 4 → exec .fwCommitDone s = .next (((((
    (s.setFlash { s.sec.flash with committed := a.slot }).fset fwStateReg F.fwState_COMMITTED a.slot).fset fwStateReg F.fwState_RUNNING a.slot).fset
      fwStateReg F.fwState_SVN (fwSvn img)).fsat fwStateReg F.fwState_ACTIVATIONS 1).fwEnd 0 0)) ∧
  (s.fw.act = none → exec .fwHandoverAdopt s = .next s ∧ exec .fwHandoverTimeout s = .next s ∧ exec .fwCommitDone s = .next s ∧
    exec (.fwDrainDone addr secs) s = .next s)) ∧
  (∀ (s u : State) (f : FuncNo) (m b : Bytes) (asid : BitVec 12) (far : List FarAns) (i : Inst) (x : Module)
    (id ec : BitVec 32),
  let k := f.val
  let load : Prop := s.takeMsg k 0x0131 12 = .ok m ∧ s.inst k = some i
  let n := leAt b 0x20 4
  let p := leAt b 0x0A 1
  let code := leAt b 0x0C 4
  let data := leAt b 0x10 4
  let st := moduleStatus b (Config.kapiOk (u.fwSlot u.running))
  let no (y : State) (st : Nat) (inj : Bool) : State := (y.loadRefused st inj).reply k m 8 st []
  let taken (y : State) : Bool := decide (asid.toNat = 0) || y.fw.modules.any (fun z => decide (z.asid = asid.toNat)) ||
    y.host.funcs.any (fun z => match z.2.inst with | some j => decide (j.asid = asid.toNat) | none => false)
  let new (y : State) : Module := {
    id := y.fw.nextModule, pf := k, asid := asid.toNat, prec := p, kapi := leAt b 6 2, services := leAt b 0x18 8, entry := leAt b 0x14 4,
    code := slice b 64 code, data := slice b (64 + code) data, body := b.take n }
  let loaded (y : State) : State :=
    ({ y with fw := { y.fw with modules := y.fw.modules ++ [new y], nextModule := (y.fw.nextModule + 1) % 2 ^ 32 } } : State).reply k m 0 0
      (leBytes 4 y.fw.nextModule)
  let reset : Prop := s.takeMsg k 0x0121 1 = .ok m
  let cores := (List.range 16).filter fun c => !s.qFenced (c / 4)
  (load → s.fwRead i.asid (mNum m 0 8) (mNum m 8 4) far = (u, some (.ok b)) → exec (.moduleLoad f asid far) s = .next (
    if st ≠ 0 then no u st false
    else match u.sigOk [ownerModuleKey u.owner] (b.take n) (b.drop n) with
      | (y, false, inj) => no y 2 inj
      | (y, true, _) =>
        if svnStatus (leAt b 8 2) y.sec.fuses.svnModule ≠ 0 then no y (svnStatus (leAt b 8 2) y.sec.fuses.svnModule) false
        else if (y.precinct p).isNone then no y 3 false
        else if y.moduleRoom p < code + data then no y 5 false
        else if taken y then s
        else loaded y)) ∧
  (load → ∀ e, s.fwRead i.asid (mNum m 0 8) (mNum m 8 4) far = (u, some (.error e)) → exec (.moduleLoad f asid far) s = .next (no u 1 false)) ∧
  (s.takeMsg k 0x0131 12 = .ok m → s.inst k = none → exec (.moduleLoad f asid far) s = .next (s.reply k m 7 0 [])) ∧
  (s.takeMsg k 0x0132 4 = .ok m → s.fw.modules.find? (fun y => y.id = mNum m 0 4) = some x →
    exec (.moduleUnload (.msg f)) s = .next ((s.moduleEnd x 0 false).reply k m 0 0 [])) ∧
  (s.takeMsg k 0x0132 4 = .ok m → s.fw.modules.find? (fun y => y.id = mNum m 0 4) = none →
    exec (.moduleUnload (.msg f)) s = .next (s.reply k m 3 0 [])) ∧
  (s.fw.modules.find? (fun y => y.id = id.toNat) = some x → exec (.moduleUnload (.exception id ec)) s =
    .next (({ s with fw := { s.fw with modules := s.fw.modules.filter fun y => y.id ≠ x.id } } : State).postEvent x.pf 0x0007 x.id ec.toNat)) ∧
  (s.kernelUp = true → Completes (exec .kernelPeriod s) fun t => t.fw.periods = s.fw.periods + 1 ∧ t.regs = s.regs ∧ t.cores = s.cores ∧ s.memSame t ∧
    t = { s with fw := { s.fw with shares := t.fw.shares, periods := s.fw.periods + 1 } } ∧
    (∀ c ∈ cores, look t.fw.shares (key2 c 64) = some (256 - (s.xim.conf.precincts.map fun y => y.share.getD c 0).sum))) ∧
  (s.kernelUp = false → exec .kernelPeriod s = .next s) ∧
  (reset → mNum m 0 1 < 64 → (s.precinct (mNum m 0 1)).isSome = true →
    exec (.precinctReset f) s = .next ((s.precinctReset (mNum m 0 1)).reply k m 0 0 [])) ∧
  (reset → mNum m 0 1 < 64 → s.precinct (mNum m 0 1) = none → exec (.precinctReset f) s = .next (s.reply k m 3 0 [])) ∧
  (reset → 64 ≤ mNum m 0 1 → exec (.precinctReset f) s = .next (s.reply k m 1 0 [])))

/-- A checkpoint up to its copies (R521, R523 to R528, R535, Table 22.1): an admitted request starts an operation and its instance's dockets
begin to stop; a request that is malformed, or meets an operation on its communicator, is refused; at the boundary what no mark protects is
copied early and the rest is marked, then the invalidations are waited for and the dockets go on; shards are copied in order, or ahead where
a write waits for one; a write that waits with no staging left ends the operation. A checkpoint's store and a restore (R529 to R534, Tables
22.3 to 22.5): a copied shard whose digest is already stored, by an older manifest, an earlier shard or a lower-ranked member, takes that
placement, and another is sealed and written where firmware found room; the manifest is written complete when every shard is durable, and
ends the checkpoint; a restore tries the step asked for, and falls back to an older one where its policy lets it, until every member has
passed. -/
def Obligations.InventoryRows : Prop :=
  (∀ (s u : State) (f : FuncNo) (k : BitVec 32) (far : List FarAns) (m b : Bytes) (i j : Inst) (o : InvOp)
    (tables : List (BitVec 57)) (xs : List Shard) (n : Nat) (x : Shard) (q : Qn) (id : Fin 256) (r : FaultRec),
  let g := f.val
  let got : Prop := s.takeMsg g 0x0070 30 = .ok m ∧ s.inst g = some i
  let comm := mNum m 0 4
  let count := mNum m 28 2
  let shape : Prop := mZero m 10 2 = true ∧ mNum m 12 8 ≠ 0 ∧ 1 ≤ count ∧ count ≤ 256
  let refs := s.invRefs g i comm (mNum m 4 4) (mNum m 8 2)
  let free : Prop := ∀ y ∈ s.inv.ops, y.func = g → y.comm ≠ comm
  let key := key2 g comm
  let new : InvOp := {
    func := g, comm := comm, ctx := mNum m 4 4, vol := mNum m 8 2, step := mNum m 12 8, ckpt := u.inv.next, policy := mNum m 10 1
    seq := lookD 0 u.inv.seqs key, set := setRanges b, phase := 1, shards := setShards (setRanges b) }
  let begun : State := ({ u with inv := { u.inv with
    ops := u.inv.ops ++ [new], next := (u.inv.next + 1) % 2 ^ 32, seqs := putD 0 u.inv.seqs key (new.seq + 1) } } : State).setInv new
  let on : Prop := s.inst g = some i ∧ s.invOp g k.toNat = some o ∧ s.invBroken i o = none
  let broken (e : Nat) : Prop := s.inst g = some i ∧ s.invOp g k.toNat = some o ∧ s.invBroken i o = some e
  let early := (o.shards.mapM fun x => State.copyEarly i.asid x).at s far
  let vas := xs.flatMap fun x => (pages x.va x.len).map (·.1)
  let marked := (vas.foldl (State.markPage i.asid) (u, tables.map (·.toNat))).1
  let cut : InvOp := { o with cut := true, shards := xs.map fun x => { x with marked := true } }
  let full : Prop := ∃ y ∈ xs, y.staged = none ∧ y.early ≠ []
  let waits : Prop := s.cowRecord q.val id.val = some r ∧ s.shardAt r = some (i, o, n, x)
  let t := s.setInv { o with phase := 2 }
  let others : Bool := t.inv.ops.any fun y => decide (y.func = g) && decide (y.phase = 1)
  let goOn : State := if others then t else t.setInst g { i with stopping := false }
  (got → shape → refs = 0 → free → s.fwRead i.asid (mNum m 20 8) (16 * count) far = (u, some (.ok b)) → setOk (setRanges b) = true →
    u.inst g = some j → exec (.invCheckpoint f far) s = .next ((begun.setInst g { j with stopping := true }).reply g m 0 0 (leBytes 4 new.ckpt))) ∧
  (got → shape → refs = 0 → free → s.fwRead i.asid (mNum m 20 8) (16 * count) far = (u, some (.ok b)) → setOk (setRanges b) = false →
    exec (.invCheckpoint f far) s = .next (u.reply g m 1 0 [])) ∧
  (got → mZero m 10 2 = false ∨ mNum m 12 8 = 0 ∨ count = 0 ∨ 256 < count → exec (.invCheckpoint f far) s = .next (s.reply g m 1 0 [])) ∧
  (got → shape → refs ≠ 0 → exec (.invCheckpoint f far) s = .next (s.reply g m refs 0 [])) ∧
  (got → shape → refs = 0 → ¬free → exec (.invCheckpoint f far) s = .next (s.reply g m 2 0 [])) ∧
  (on → o.phase = 1 → o.cut = false → s.atBoundary i o = true → early = (u, .ok xs) → ¬full →
    exec (.invCut f k tables far) s = .next ((marked.invalAsid i.asid).setInv cut)) ∧
  (on → o.phase = 1 → o.cut = false → s.atBoundary i o = true → early = (u, .ok xs) → full →
    exec (.invCut f k tables far) s = .next ((marked.setInv cut).endInv cut 0x63 o.ckpt)) ∧
  (on → o.phase = 1 → o.cut = false → s.atBoundary i o = false → exec (.invCut f k tables far) s = .next s) ∧
  (on → o.phase = 1 → o.cut = true → s.invalBusy i.asid = false → exec (.invCut f k tables far) s = .next (goOn.postEvent g 8 o.ckpt 0x100)) ∧
  (on → o.phase = 1 → o.cut = true → s.invalBusy i.asid = true → exec (.invCut f k tables far) s = .next s) ∧
  (on → o.phase = 2 → o.shards.zipIdx.find? (fun y => y.1.data.isNone) = some (x, n) → s.copyShard i o n x far = some u →
    exec (.invShardCopy f k far) s = .next u) ∧
  (∀ e, broken e → o.restore = false → exec (.invShardCopy f k far) s = .next (s.endInv o e o.ckpt) ∧
    exec (.invCut f k tables far) s = .next (s.endInv o e o.ckpt)) ∧
  (waits → o.phase = 2 → x.data = none → x.staged.isSome = true → s.copyShard i o n x far = some u →
    exec (.invCopyAhead q id far) s = .next (u.fsat (invFn o.func) F.invFuncState_COPY_AHEAD 1)) ∧
  (∀ p, waits → o.phase = 2 → x.data = none → x.staged = none → s.stagingFor x.len = some p →
    (s.stagingTake p x.len).copyShard i o n { x with staged := some p } far = some u →
    exec (.invCopyAhead q id far) s = .next (u.fsat (invFn o.func) F.invFuncState_COPY_AHEAD 1)) ∧
  (waits → x.staged = none → s.stagingFor x.len = none → exec (.invCopyAhead q id far) s = .next s) ∧
  (s.cowRecord q.val id.val = none → exec (.invCopyAhead q id far) s = .next s ∧ exec (.invStagingTimeout q id) s = .next s) ∧
  (waits → x.staged = none → s.stagingFor x.len = none →
    exec (.invStagingTimeout q id) s = .next (s.endInv o 0x63 o.ckpt)) ∧
  (waits → (x.staged.isSome = true ∨ s.stagingFor x.len ≠ none) →
    exec (.invStagingTimeout q id) s = .next s)) ∧
  (∀ (s u w : State) (f : FuncNo) (k : BitVec 32) (far : List FarAns) (m b z : Bytes) (i : Inst) (o : InvOp)
    (n : Nat) (x : Shard) (v : Volume) (c : Comm) (lba : Option (BitVec 48)) (a : BitVec 48) (other : Option (BitVec 16 × BitVec 48 × BitVec 32))
    (failed : Bool) (e : MEntry) (others : Bytes) (mf : Manifest) (fetched : List (Option Bytes)) (ot : BitVec 8) (own : Nat),
  let g := f.val
  let on : Prop := s.inst g = some i ∧ s.invOp g k.toNat = some o ∧ s.invBroken i o = none
  let store : Prop := on ∧ s.volume o.vol = some v ∧ i.comm o.comm = some c
  let copied : Prop := store ∧ o.shards[n]? = some x ∧ x.data = some b ∧ x.durable = false ∧ o.restore = false
  let place (t : State) (owner lba stored : Nat) : State :=
    (t.stagingFree x).setInv (o.setShard n { x with owner := some owner, lba := lba, stored := stored, durable := true, staged := none })
  let fresh : Prop := v.present x.digest = none ∧ (∀ y ∈ o.shards, y.durable = true → y.digest ≠ x.digest)
  let durable := exec (.invShardDurable f k n other lba failed) s
  let es := (List.range (others.length / 64)).map fun n => entryOf (slice others (64 * n) 64)
  let all := (es.filter fun e => e.rank < c.rank) ++ o.entries c.rank ++ (es.filter fun e => c.rank < e.rank)
  let whole : Prop := o.phase = 3 ∧ (∀ y ∈ o.shards, y.durable = true) ∧ ascending all = true ∧ ∀ y ∈ all, y.rank < c.size
  let slot := o.seq % 16
  let old := match v.manifest slot with | some m => m.2 | none => []
  let body := all.flatMap (·.bytes)
  let head := leBytes 4 0x5453_4E4D ++ leBytes 2 0x0100 ++ leBytes 2 c.size ++ leBytes 8 c.id ++ leBytes 8 o.step ++ leBytes 4 all.length ++ leBytes 4 1 ++
    sha256 body
  let written := (v.store_ (slot * 2 ^ 24 / 2 ^ v.log2) (head ++ body)).discardAll c.rank old
  let manifest := exec (.invManifestWrite f k others failed) s
  let got : Prop := s.takeMsg g 0x0071 40 = .ok m ∧ s.inst g = some i
  let count := mNum m 28 2
  let shape : Prop := mNum m 10 1 ≤ 1 ∧ mZero m 11 1 = true ∧ mZero m 30 2 = true ∧ 1 ≤ count ∧ count ≤ 256
  let refs : Prop := s.invRefs g i (mNum m 0 4) (mNum m 4 4) (mNum m 8 2) = 0
  let free : Prop := (∀ y ∈ s.inv.ops, y.func = g → y.comm ≠ mNum m 0 4) ∧ i.dockets = []
  let new : InvOp := {
    func := g, comm := mNum m 0 4, ctx := mNum m 4 4, vol := mNum m 8 2, step := mNum m 12 8, ckpt := u.inv.next, restore := true
    policy := mNum m 10 1, seq := lookD 0 u.inv.seqs (key2 g (mNum m 0 4)), resultAddr := mNum m 32 8, set := setRanges b, phase := 4 }
  let begun : State := ({ u with inv := { u.inv with ops := u.inv.ops ++ [new], next := (u.inv.next + 1) % 2 ^ 32 } } : State).setInv new
  let asked : Prop := got ∧ shape ∧ refs ∧ free ∧ s.fwRead i.asid (mNum m 20 8) (16 * count) far = (u, some (.ok b)) ∧ setOk (setRanges b) = true ∧
    begun.invBroken i new = none ∧ begun.volume new.vol = some v ∧ i.comm new.comm = some c
  let result : Prop := on ∧ o.result = some own
  let first (t : State) : State := match o.failing with
    | some y => if o.trying = y.1 then t.writeResult i o y else t
    | none => t.writeResult i o (o.trying, [])
  let tried : InvOp := match o.failing with | some _ => o | none => { o with failing := some (o.trying, []) }
  let restored := exec (.invRestoreResult f k ot fetched) s
  (copied → v.present x.digest = some e → durable = .next (place s e.owner e.lba e.stored)) ∧
  (copied → v.present x.digest = none → ∀ y, o.shards.find? (fun y => y.durable && decide (y.digest = x.digest)) = some y →
    durable = .next (place s (y.owner.getD 0) y.lba y.stored)) ∧
  (copied → fresh → ∀ r p q, other = some (r, p, q) → r.toNat < c.rank → durable = .next (place s r.toNat p.toNat q.toNat)) ∧
  (copied → fresh → other = none → lba = some a → s.seal i o b = .ok (w, z) → failed = false → v.refuses = false → durable =
    .next (if s.storeFree v c.rank o.vol a.toNat (v.blocksOf z.length) then
      place (w.setVolume o.vol (v.store_ a.toNat z)) c.rank a.toNat z.length else s)) ∧
  (copied → fresh → other = none → lba = some a → s.seal i o b = .ok (w, z) → failed = true ∨ v.refuses = true → durable =
    .next (if s.storeFree v c.rank o.vol a.toNat (v.blocksOf z.length) then w.endInv o 0x65 o.ckpt else s)) ∧
  (copied → fresh → other = none → lba = none → durable = .next (s.endInv o 0x64 o.ckpt)) ∧
  (store → o.shards[n]? = some x → x.data = some b → x.durable = true → durable = .next s) ∧
  (store → whole → 64 * all.length + 64 ≤ 2 ^ 24 → failed = false → v.refuses = false → manifest =
    .next ((s.setVolume o.vol written).endInv o 0 o.ckpt)) ∧
  (store → whole → 64 * all.length + 64 ≤ 2 ^ 24 → failed = true ∨ v.refuses = true → manifest = .next (s.endInv o 0x65 o.ckpt)) ∧
  (store → whole → 2 ^ 24 < 64 * all.length + 64 → manifest = .next (s.endInv o 0x64 o.ckpt)) ∧
  (store → ¬whole → manifest = .next s) ∧
  (asked → v.forStep new.step = some mf → exec (.invRestore f far fetched) s = .next ((begun.tryStep i new v c.rank mf fetched).reply g m 0 0 [])) ∧
  (asked → v.forStep new.step = none → exec (.invRestore f far fetched) s = .next ((begun.endInv new 0x62 new.step).reply g m 0 0 [])) ∧
  (got → shape → refs → ¬free → exec (.invRestore f far fetched) s = .next (s.reply g m 2 0 [])) ∧
  (result → own = 0 → ot = 0 → restored = .next (s.endInv o 0 o.trying)) ∧
  (result → own ≠ 0 ∨ ot ≠ 0 → o.policy = 0 → restored = .next ((first s).endInv tried (if own ≠ 0 then own else ot.toNat) o.trying)) ∧
  (result → own ≠ 0 ∨ ot ≠ 0 → o.policy ≠ 0 → (first s).volume o.vol = some v → i.comm o.comm = some c → v.older o.trying = some mf →
    restored = .next ((first s).tryStep i tried v c.rank mf fetched)) ∧
  (result → own ≠ 0 ∨ ot ≠ 0 → o.policy ≠ 0 → (first s).volume o.vol = some v → i.comm o.comm = some c → v.older o.trying = none →
    restored = .next ((first s).endInv tried 0x62 o.trying)) ∧
  (on → o.result = none → restored = .next s))

/-- Errors (R546, R547, R552 to R556, R559, R561, R564, Tables 24.1 and 24.2): a finding has its class's record and its class's fence; the
loss of the minimum service set is its own test; ERR_FENCE_CTRL fences a stall or a Quarter, and lets one rejoin that passes its self-tests
and was fenced fewer than four times; a right injection is armed, one at a time, and disarmed; any other requester's write is a stray one.
-/
def Obligations.ErrorCommands : Prop := ∀ (s : State) (det prec : BitVec 8) (n : Fin 3) (unit : BitVec 16) (detail : BitVec 32) (addr : BitVec 57)
    (asid : BitVec 12) (rq : Requester) (v : W64) (failing : List (BitVec 16)) (c st : Nat) (w : State),
  let d := det.toNat
  let report := exec (.errorReport det n prec unit detail addr asid) s
  let rec_ := s.recordErr c d prec.toNat unit.toNat detail.toNat addr.toNat asid.toNat false
  let t := bitsOf v F.errFenceCtrl_TARGET
  let may : Prop := rqKernel rq = true ∨ rqPf rq = true
  let ctrl : Reg := ⟨.errFenceCtrl, 0, 0⟩
  let fence : Prop := bitsOf v F.errFenceCtrl_OP = 1
  let rejoin : Prop := bitsOf v F.errFenceCtrl_OP = 2
  let names := failing.map (·.toNat)
  let quarter : Prop := 0x8000 ≤ t ∧ t < 0x8004
  let stays : Prop := stallOk t = true ∧ s.qFenced (stallQ t) = false
  let off : Prop := s.fget ⟨.stallState, t, 0⟩ F.stallState_STATE = 4
  let arm : Prop := bitsOf v F.errInjCtrl_ARM = 1
  let disarm : Prop := bitsOf v F.errInjCtrl_DISARM = 1
  let mode := bitsOf v F.errInjCtrl_MODE
  let inj : Injection := {
    sticky := decide (mode = 2), detector := bitsOf v F.errInjCtrl_DETECTOR, unit := bitsOf v F.errInjCtrl_UNIT
    syndrome := bitsOf v F.errInjCtrl_SYNDROME, addr := s.fget ⟨.errInjAddr, 0, 0⟩ F.errInjAddr_ADDR }
  let right : Prop := (mode = 1 ∨ mode = 2) ∧ s.injValid inj.detector inj.unit inj.syndrome inj.addr = true
  let ictl : Reg := ⟨.errInjCtrl, 0, 0⟩
  let found : Prop := d ≠ 0x10 ∧ classOf d n.val unit.toNat addr.toNat = some c
  (found → c = 1 ∨ c = 2 → report = .next rec_) ∧
  (found → c = 3 → stallOk unit.toNat = true → report = .next (rec_.fenceStall unit.toNat)) ∧
  (found → c = 4 → report = .next ((rec_.fenceQuarter (unit.toNat / 0x100 % 0x80)).checkService)) ∧
  (found → c = 5 → report = .next (s.deviceFatal d prec.toNat unit.toNat detail.toNat addr.toNat asid.toNat false)) ∧
  (d = 0x10 → report = .next s.checkService) ∧
  (d ≠ 0x10 → classOf d n.val unit.toNat addr.toNat = none → report = .next s) ∧
  (classOf 0x01 1 unit.toNat addr.toNat = some (if inSystem addr.toNat then 4 else 2)) ∧
  (classOf 0x0A 1 unit.toNat addr.toNat = some (if unit.toNat < 0x400 then 3 else 4)) ∧
  (may → fence → stallOk t = true → exec (.errFence rq v) s = .next ((s.fenceStall t).fenceEnd t 0)) ∧
  (may → fence → quarter → exec (.errFence rq v) s = .next (((s.fenceQuarter (t - 0x8000)).checkService).fenceEnd t 0)) ∧
  (may → fence → stallOk t = false → ¬quarter → exec (.errFence rq v) s = .next (s.fenceEnd t 1)) ∧
  (¬may → fence → exec (.errFence rq v) s = .next (s.refuse rq ctrl)) ∧
  (may → rejoin → stays → off → lookD 0 s.err.fenceCount t < 4 → t ∉ names → exec (.errRejoin rq v failing) s = .next ((s.resetUnit t).fenceEnd t 0)) ∧
  (may → rejoin → stays → off → lookD 0 s.err.fenceCount t < 4 → t ∈ names → exec (.errRejoin rq v failing) s = .next (s.fenceEnd t 4)) ∧
  (may → rejoin → stays → off → 4 ≤ lookD 0 s.err.fenceCount t → exec (.errRejoin rq v failing) s = .next (s.fenceEnd t 3)) ∧
  (may → rejoin → stays → ¬off → exec (.errRejoin rq v failing) s = .next (s.fenceEnd t 1)) ∧
  (may → rejoin → stallOk t = true → s.qFenced (stallQ t) = true → exec (.errRejoin rq v failing) s = .next (s.fenceEnd t 2)) ∧
  (may → rejoin → quarter → s.rejoinQuarter (t - 0x8000) names = (w, st) → exec (.errRejoin rq v failing) s = .next (w.fenceEnd t st)) ∧
  (s.qFenced (t - 0x8000) = false → s.xim.quiesce = [] → s.xim.load = none → s.fbit pwrStatus F.pwrStatus_DECLARED = false → quarter →
    s.rejoinQuarter (t - 0x8000) names = (s, 1)) ∧
  (¬may → rejoin → exec (.errRejoin rq v failing) s = .next (s.refuse rq ctrl)) ∧
  (arm → ¬disarm → s.mayInject rq = true → right → s.err.inj = none → exec (.errInjArm rq v) s =
    .next (({ s with err := { s.err with inj := some inj } } : State).fset ⟨.errInjStatus, 0, 0⟩ F.errInjStatus_ARMED 1)) ∧
  (arm → ¬disarm → (s.mayInject rq = false ∨ ¬right ∨ s.err.inj ≠ none) → exec (.errInjArm rq v) s = .next (s.refuse rq ictl)) ∧
  (disarm → ¬arm → s.mayInject rq = true → exec (.errInjDisarm rq v) s = .next s.injDisarm) ∧
  (disarm → arm ∨ s.mayInject rq = false → exec (.errInjDisarm rq v) s = .next (s.refuse rq ictl))

/-- Trust commands (R568, R571, R576 to R580, Tables 25.5 and 25.6): a command that passes its whole check opens a window of 60 s for
physical presence, one at a time, and is carried out at the end of the window's hold; DEBUG_DISABLE, ROLLBACK_ADVANCE and CANCEL need no
presence; a command that fails its check has its status. Presence, the seal and signing (R572 to R575, R577, R578, R580, R581): presence
held for its time inside the window carries the command out, and the window's end drops it; the seal's opening is latched, logged and told,
and zeroises where the owner asks; each signature takes one index that was reserved in flash before, requests wait for a tree that is not
built, and none is given once the indices or the secret are gone. -/
def Obligations.SecurityRows : Prop :=
  (∀ (s u : State) (src : MgrSrc) (b o : Bytes) (c : TrustCmd),
  let got (n : Nat) : Prop := s.mgrBody src 0x0140 16 = .ok b ∧ leAt b 0 1 = n ∧ leAt b 1 3 = 0
  let a := leAt b 4 4
  let a' := leAt b 8 8
  let plain : Prop := a = 0 ∧ a' = 0
  let ok (x : State) : State := x.mgrAnswer src 0x0140 0 0
  let bad : State := s.mgrAnswer src 0x0140 1 0
  let no (x : State) (st : Nat) : State := x.mgrAnswer src 0x0140 8 st
  let opened (x : State) (cmd : Nat) (r : Bytes) : State :=
    let y : State := { x with sec := { x.sec with pending := some ⟨cmd, a, r, mgrBy src⟩, holding := false } }
    ok ((y.fset secPresence F.secPresence_PENDING_CMD cmd).fset secPresence F.secPresence_WINDOW_LEFT_S 60)
  let free : Prop := s.sec.pending = none
  let reads (p : Bool) : Prop := s.readMem 0xFF (0x8000 + 16) 0 a' 192 = (u, o, p)
  let x := s.sec.fuses
  (got 1 → a = 1 ∨ (a = 2 ∧ s.anyInstance = false) → a' = 0 → free → exec (.debugEnable src) s = .next (opened s 1 [])) ∧
  (got 1 → a = 2 → a' = 0 → s.anyInstance = true → exec (.debugEnable src) s = .next (no s 0x72)) ∧
  (got 1 → a = 1 → a' = 0 → ¬free → exec (.debugEnable src) s = .next (s.mgrAnswer src 0x0140 2 0)) ∧
  (got 1 → (a ≠ 1 ∧ a ≠ 2) ∨ a' ≠ 0 → exec (.debugEnable src) s = .next bad) ∧
  (got 2 → plain → exec (.debugDisable src) s = .next (ok (s.setDebug 0))) ∧
  (got 2 → ¬plain → exec (.debugDisable src) s = .next bad) ∧
  (got 3 → a = 0 → reads false → ownerOk o = true → u.sec.fuses.slots.length < 15 → u.sec.pending = none →
    exec (.ownerInstall src) s = .next (opened u 3 o)) ∧
  (got 3 → a = 0 → reads false → ownerOk o = true → 15 ≤ u.sec.fuses.slots.length → exec (.ownerInstall src) s = .next (no u 0x71)) ∧
  (got 3 → a = 0 → ∀ p, reads p → p = true ∨ ownerOk o = false → exec (.ownerInstall src) s = .next (u.mgrAnswer src 0x0140 1 0)) ∧
  (got 4 → plain → s.anyInstance = false → free → exec (.factoryEnable src) s = .next (opened s 4 [])) ∧
  (got 4 → plain → s.anyInstance = true → exec (.factoryEnable src) s = .next (no s 0x72)) ∧
  (got 5 → a = 0x4F52455A → a' = 0 → free → exec (.decommission src) s = .next (opened s 5 [])) ∧
  (got 5 → a ≠ 0x4F52455A ∨ a' ≠ 0 → exec (.decommission src) s = .next bad) ∧
  (got 6 → a ≤ 2 → a' ≤ 255 → exec (.rollbackAdvance src) s =
    .next (let r := s.rollback a a'; if 0x70 ≤ r.2 then no r.1 r.2 else r.1.mgrAnswer src 0x0140 r.2 0)) ∧
  (got 6 → 2 < a ∨ 255 < a' → exec (.rollbackAdvance src) s = .next bad) ∧
  (∀ v, v ≤ x.svnImage → s.rollback 0 v = (s, 0)) ∧
  (∀ v, x.svnImage < v → s.fget ⟨.ximInforce, 0, 0⟩ F.ximInforce_SVN < v → s.rollback 0 v = (s, 0x74)) ∧
  (∀ v, x.svnImage < v → v ≤ s.fget ⟨.ximInforce, 0, 0⟩ F.ximInforce_SVN → s.rollback 0 v = (s.setFuses { x with svnImage := v }, 0)) ∧
  (got 7 → plain → s.sec.pending = some c → exec (.cancel src) s = .next (ok (s.trustEnd 0x77))) ∧
  (got 7 → plain → free → exec (.cancel src) s = .next (ok s))) ∧
  (∀ (s : State) (c : TrustCmd) (via : Fin 3) (m : Bytes) (flashOk : Bool) (d d' : BitVec 16) (e : BitVec 8),
  let held : State := { s with sec := { s.sec with holding := true } }
  let opened : State :=
    let x := (s.setFuses { s.sec.fuses with sealOpened := true }).fset secState F.secState_SEAL_NOW 1
    let y := x.setFlash { x.sec.flash with sealLog := x.sec.flash.sealLog + 1 }
    (y.eventManagers 0x0009 (Config.freeNat y.fresh % 2 ^ 32) (Config.freeNat (y.fresh + 1) % 2 ^ 32)).useFresh 2
  let v := via.val
  let req : SpdmReq := .challenge m
  let q := s.sec.next
  let live : Prop := s.sec.fuses.decommissioned = false ∧ q < 2 ^ 45
  let built : Prop := q / 2 ^ 20 < s.sec.built
  let kept := if s.sec.flash.reserved ≤ q then s.setFlash { s.sec.flash with reserved := q + 4096 } else s
  let taken : State := { kept with sec := { kept.sec with next := q + 1 } }
  let signed := taken.fset secSign F.secSign_NEXT (q + 1)
  let ask (r : SpdmReq) := exec (.spdmRequest via r flashOk) s
  (s.sec.pending = some c → exec .presenceAssert s = .next held) ∧
  (s.sec.pending = none → exec .presenceAssert s = .next (s.fsat secPresence F.secPresence_EDGES 1)) ∧
  (s.sec.pending = some c → s.sec.holding = true → exec .presenceHoldDone s = .next ((s.trustDo c).trustEnd 0)) ∧
  (s.sec.pending = none ∨ s.sec.holding = false → exec .presenceHoldDone s = .next s) ∧
  (s.sec.pending = some c → exec .presenceTimeout s = .next (s.trustEnd 0x70)) ∧
  (s.sec.pending = none → exec .presenceTimeout s = .next s) ∧
  (c.cmd = 1 → s.trustDo c = s.setDebug c.arg) ∧ (c.cmd = 3 → s.trustDo c = s.ownerInstall c.record) ∧
  (c.cmd = 4 → s.trustDo c = s.fset secState F.secState_FACTORY 1) ∧ (c.cmd = 5 → s.trustDo c = s.decommission) ∧
  (exec .sealOpened s = .next (if opened.tamperZeroise then opened.decommission else opened)) ∧
  (ask .version = .next (s.spdmSend v 0x04 [0x12#8, 0x13#8])) ∧
  (ask .digests = .next ((s.spdmSend v 0x01 (s.freeBytes 32)).useFresh 32)) ∧
  (ask (.certificate d' d) = .next ((s.spdmSend v 0x02 (s.freeBytes d.toNat)).useFresh d.toNat)) ∧
  (ask (.other e) = .next (s.spdmError v 0)) ∧
  (live → built → (q < s.sec.flash.reserved ∨ flashOk = true) → ask req =
    .next (signed.spdmSend v 0x03 (signed.summary ++ Config.hssSign (taken.debugLevel = 2) q (m ++ s.summary)))) ∧
  (live → built → s.sec.flash.reserved ≤ q → flashOk = false → ask req = .next (s.spdmError v 0x75)) ∧
  (live → ¬built → ask req = .next { s with sec := { s.sec with waiting := s.sec.waiting ++ [⟨v, req⟩] } }) ∧
  (s.sec.fuses.decommissioned = true → ask req = .next (s.spdmError v 0x73)) ∧
  (s.sec.fuses.decommissioned = false → 2 ^ 45 ≤ q → ask req = .next (s.spdmError v 0x76)) ∧
  (s.sec.built < 2 ^ 25 → exec (.hssTreeReady flashOk) s = .next (s.sec.waiting.foldl (fun y x => y.spdm x.via x.req flashOk)
    { s with sec := { s.sec with built := s.sec.built + 1, waiting := [] } })) ∧
  (2 ^ 25 ≤ s.sec.built → exec (.hssTreeReady flashOk) s = .next s))

/-- The operating point (R583, R587 to R590, Tables 26.2 and 26.8): PWR_SET takes a target and a cap inside their ranges, and is a stray
write or MALFORMED outside them; a change of point slews, and counts as the lower point until it is done; each window the cap governor
lowers a point whose mean is over the cap, and gives one back after ten windows well under it; a junction over 105 throttles, until all are
at 100 or below. Each sample takes its readings. Emergencies and removal (R515, R591 to R595, R597, R598, Tables 26.4 and 26.7): a condition
that holds is declared once, pauses admission where its row says, ends an activation that has not stopped the old image, and is told; it is
cleared when every clear condition holds; a compute die at 120 is fenced; a removal is asked for, cancelled, and reaches READY when its
drain is done or FAILED when its time is up. -/
def Obligations.PowerRows : Prop :=
  (∀ (s : State) (rq : Requester) (v : W64) (src : MgrSrc) (b : Bytes) (r : Readings),
  let target := bitsOf v F.pwrCtrl_TARGET
  let cap := bitsOf v F.pwrCtrl_CAP_W
  let right : Prop := rqKernel rq = true ∧ 600 ≤ cap ∧ cap ≤ 1650 ∧ target ≠ 3
  let set (x : State) (t c : Nat) : State := ((x.fset pwrCtrl F.pwrCtrl_TARGET t).fset pwrCtrl F.pwrCtrl_CAP_W c).repoint
  let got : Prop := s.mgrBody src 0x0150 4 = .ok b
  let fits : Prop := leAt b 0 1 ≤ 2 ∧ leAt b 1 1 = 0 ∧ 600 ≤ leAt b 2 2 ∧ leAt b 2 2 ≤ 1650
  let slews : Prop := s.fbit pwrStatus F.pwrStatus_SLEWING = true
  let u := s.readSensors r
  let limit := u.fget pwrCtrl F.pwrCtrl_CAP_W
  let low : State := { u with pwr := { u.pwr with below := 0 } }
  let down : State := { low with pwr := { low.pwr with cap := u.permitted - 1 } }
  let met := u.fset pwrStatus F.pwrStatus_CAP_UNMET 0
  let window := exec (.capGovernorWindow r) s
  (right → exec (.pwrSet (.reg rq v)) s = .next (set s target cap)) ∧
  (¬right → exec (.pwrSet (.reg rq v)) s = .next (s.refuse rq pwrCtrl)) ∧
  (got → fits → exec (.pwrSet (.mgr src)) s = .next ((set s (leAt b 0 1) (leAt b 2 2)).mgrAnswer src 0x0150 0 0)) ∧
  (got → ¬fits → exec (.pwrSet (.mgr src)) s = .next (s.mgrAnswer src 0x0150 1 0)) ∧
  (slews → exec .pointSlewDone s = .next ((s.fset pwrStatus F.pwrStatus_SLEWING 0).fset pwrStatus F.pwrStatus_POINT s.permitted)) ∧
  (¬slews → exec .pointSlewDone s = .next s) ∧
  (limit < r.mean10 → u.permitted = 0 → window = .next (low.fset pwrStatus F.pwrStatus_CAP_UNMET 1)) ∧
  (limit < r.mean10 → u.permitted ≠ 0 → window = .next down.repoint) ∧
  (r.mean10 ≤ limit → r.mean10 + 100 < limit → 9 ≤ met.pwr.below → met.pwr.cap < met.fget pwrCtrl F.pwrCtrl_TARGET → window =
    .next (({ met with pwr := { met.pwr with cap := met.pwr.cap + 1, below := 0 } } : State).repoint)) ∧
  (r.mean10 ≤ limit → r.mean10 + 100 < limit → met.pwr.below < 9 → window = .next { met with pwr := { met.pwr with below := met.pwr.below + 1 } }) ∧
  (r.mean10 ≤ limit → limit ≤ r.mean10 + 100 → window = .next { met with pwr := { met.pwr with below := 0 } }) ∧
  (105 < tjMax r → exec (.throttleSet r) s = .next (u.fset pwrStatus F.pwrStatus_THROTTLE 1).repoint) ∧
  (tjMax r ≤ 105 → exec (.throttleSet r) s = .next u) ∧
  (tjMax r ≤ 100 → exec (.throttleClear r) s = .next (u.fset pwrStatus F.pwrStatus_THROTTLE 0).repoint) ∧
  (100 < tjMax r → exec (.throttleClear r) s = .next u)) ∧
  (∀ (s : State) (c : Fin 6) (r : Readings) (q : Qn) (src : MgrSrc) (b : Bytes),
  let u := s.readSensors r
  let k := c.val
  let declared := (u.fset pwrStatus F.pwrStatus_DECLARED 1).fset pwrStatus F.pwrStatus_EMERG (setBit (u.fget pwrStatus F.pwrStatus_EMERG) k)
  let pauses : Prop := k = 1 ∨ (k = 2 ∧ emergencyIn r 0 = true) ∨ (k = 0 ∧ declared.emerg 2 = true)
  let paused := declared.fset pwrStatus F.pwrStatus_PAUSED 1
  let act (x : State) : Prop := x.activating = true ∧ x.fget fwStateReg F.fwState_PHASE ≤ 2
  let declare := exec (.emergencyDeclare c r) s
  let met (n : Nat) : Prop := u.emerg n = true ∧ emergencyIn r n = true
  let meets : Prop := met 0 ∨ (met 2 ∧ emergencyIn r 0 = true) ∨ met 3 ∨ met 4
  let isPaused : Prop := u.fbit pwrStatus F.pwrStatus_PAUSED = true
  let clears : Prop := u.fbit pwrStatus F.pwrStatus_DECLARED = true ∧ tjMax r ≤ 100 ∧ 100 ≤ r.flow ∧ r.inlet ≤ 4800 ∧ r.mean100 ≤ 1550 ∧
    44000 ≤ r.voltage ∧ r.voltage ≤ 56000
  let remove := s.fget pwrStatus F.pwrStatus_REMOVE
  let mark (x : State) (n : Nat) : State := (x.fset pwrStatus F.pwrStatus_REMOVE n).pwrNotify
  let cancelled (x : State) : State := (mark { x with pwr := { x.pwr with removeHeld := false } } 0).emit (.pin "READY_N" false)
  let got (n : Nat) : Prop := s.removeBody src = .ok b ∧ leAt b 0 1 = n
  let ok (x : State) : State := x.mgrAnswer src 0x0151 0 0
  (emergencyIn r k = true → u.emerg k = false → ¬pauses → ¬act declared → declare = .next (declared.repoint.pwrNotify)) ∧
  (emergencyIn r k = true → u.emerg k = false → pauses → ¬act paused → declare = .next (paused.repoint.pwrNotify)) ∧
  (emergencyIn r k = true → u.emerg k = false → ¬pauses → act declared → declare = .next ((declared.fwEnd 9 0).repoint.pwrNotify)) ∧
  (emergencyIn r k = true → u.emerg k = false → pauses → act paused → declare = .next ((paused.fwEnd 9 0).repoint.pwrNotify)) ∧
  (emergencyIn r k = false ∨ u.emerg k = true → declare = .next u) ∧
  (emergencyIn r 1 = decide (r.flow < 80) ∧ emergencyIn r 2 = decide (5000 < r.inlet) ∧ emergencyIn r 0 = decide (110 ≤ tjMax r)) ∧
  (meets → ¬isPaused → exec (.admissionPause r) s = .next (u.fset pwrStatus F.pwrStatus_PAUSED 1).pwrNotify) ∧
  (¬meets ∨ isPaused → exec (.admissionPause r) s = .next u) ∧
  (clears → exec (.emergencyClear r) s =
    .next (((u.fset pwrStatus F.pwrStatus_PAUSED 0).fset pwrStatus F.pwrStatus_DECLARED 0).fset pwrStatus F.pwrStatus_EMERG 0).repoint.pwrNotify) ∧
  (¬clears → exec (.emergencyClear r) s = .next u) ∧
  (120 ≤ r.compute.getD q.val 0 → exec (.thermalFence q r) s = .next (u.fenceQuarter q.val).checkService) ∧
  (r.compute.getD q.val 0 < 120 → exec (.thermalFence q r) s = .next u) ∧
  (remove = 0 → s.activating = false → exec .attnRequest s = .next (mark s 1)) ∧
  (remove = 0 → s.activating = true → exec .attnRequest s = .next { s with pwr := { s.pwr with removeHeld := !s.pwr.removeHeld } }) ∧
  (remove ≠ 0 → exec .attnRequest s = .next (cancelled s)) ∧
  (got 1 → remove = 0 → s.activating = false → exec (.removeRequest src) s = .next (ok (mark s 1))) ∧
  (got 1 → remove ≠ 0 → exec (.removeRequest src) s = .next (ok (cancelled s))) ∧
  (got 2 → remove ≠ 0 → s.pwr.removeHeld = false → exec (.removeCancel src) s = .next (ok (cancelled s))) ∧
  (got 2 → s.pwr.removeHeld = true → exec (.removeCancel src) s = .next (ok { s with pwr := { s.pwr with removeHeld := false } })) ∧
  (got 2 → remove = 0 → s.pwr.removeHeld = false → exec (.removeCancel src) s = .next (s.mgrAnswer src 0x0151 3 0)) ∧
  (remove = 1 → s.removeDrained = true → exec .removeDrainDone s = .next ((mark s 2).emit (.pin "READY_N" true))) ∧
  (remove ≠ 1 ∨ s.removeDrained = false → exec .removeDrainDone s = .next s) ∧
  (remove = 1 → exec .removeDrainTimeout s = .next (mark s 3)) ∧
  (remove ≠ 1 → exec .removeDrainTimeout s = .next s))

/-- R590: a junction above 105 °C sets THROTTLE and makes the point Low; THROTTLE clears once every junction has been at or below 100 °C for
the time of THROTTLE_CLEAR, and not before; no emergency is declared or cleared by it. -/
def Obligations.ThermalThrottle : Prop := ∀ (s : State) (r : Readings),
  let emerg (t : State) : Prop := t.fget pwrStatus F.pwrStatus_EMERG = s.fget pwrStatus F.pwrStatus_EMERG ∧
    t.fget pwrStatus F.pwrStatus_DECLARED = s.fget pwrStatus F.pwrStatus_DECLARED
  (105 < tjMax r → Completes (exec (.throttleSet r) s) fun t =>
    t.fget pwrStatus F.pwrStatus_THROTTLE = 1 ∧ t.fget pwrStatus F.pwrStatus_POINT = 0 ∧ t.permitted = 0 ∧ emerg t) ∧
  (tjMax r ≤ 100 → Completes (exec (.throttleClear r) s) fun t => t.fget pwrStatus F.pwrStatus_THROTTLE = 0 ∧ emerg t) ∧
  (100 < tjMax r → Completes (exec (.throttleClear r) s) fun t =>
    t.fget pwrStatus F.pwrStatus_THROTTLE = s.fget pwrStatus F.pwrStatus_THROTTLE ∧ emerg t)

/-- Cold boot and the resets that lead to it (R584, R586, R596, R599, R601 to R603, R605, Tables 27.1 and 27.3): the loss of power and
RESET_N clear registers, cores, functions and units; the owner record, the firmware slots in order and the coolant are waited for in their
stages, with the failure code of the first that fails; the Quarters are powered and tested, the image loaded, the cores started; a kernel
that does not come up is tried once from the other slot. The sideband (R609 to R613, Table 27.6): MCTP control answers its commands, and a
type that no binding accepts; the vendor session opens; SMBus is ignored once I3C has an address; each sensor reads as its register; one
component is updated at a time, and its slot is written only once its check passes; activation boots a device that had failed, or starts a
live activation. -/
def Obligations.BootAndSideband : Prop :=
  (∀ (s : State) (rom flash : Bool) (r : Readings) (cores : List CoreNo) (stalls : List StallNo) (failed : List (Fin 12)),
  let dark := s.clear.emit (.pin "READY_N" false)
  let one := dark.setStage 1
  let fail (x : State) (c : Nat) : State :=
    let y := (x.fset bootStatus F.bootStatus_FAIL_CODE c).setStage 15
    y.setFlash { y.sec.flash with bootLog := c :: y.sec.flash.bootLog }
  let boot : State := match one.bootFlash with
    | none => fail one 3
    | some x => x.bootFrom [x.sec.flash.committed, 1 - x.sec.flash.committed]
  let u := s.readSensors r
  let cool : Prop := u.stage = 3 ∧ 150 ≤ r.flow ∧ r.inlet ≤ 4500
  let up := ((u.fset pwrStatus F.pwrStatus_COOL_WAIT 0).bootPower cores stalls).bootWarehouses failed
  let noCores : State := { s with cores := [] }
  let noRoutes := forNat 4 noCores fun s q => forNat 256 s fun s n => if s.routeActive q n then s.wr (routeReg q n) 0 else s
  let again : State := { noRoutes with boot := { noRoutes.boot with retried := true }, xim := {} }
  let cleared (t : State) : Prop := t.cores = [] ∧ t.host.funcs = [] ∧ t.street = {} ∧ t.porter = {} ∧ t.bell = {} ∧ t.inv = {} ∧ t.fw = {}
  (rom = true → flash = true → exec (.powerOn rom flash) s = .next boot) ∧
  (rom = true → flash = false → exec (.powerOn rom flash) s = .next (fail one 5)) ∧
  (rom = false → exec (.powerOn rom flash) s = .next dark) ∧
  (exec .efuseOpen s = .next { s.clear with boot := { off := true } }) ∧
  (Completes (exec .efuseOpen s) fun t => cleared t ∧ t.regs = [] ∧ t.boot = { off := true }) ∧
  (s.boot.off = false → Completes (exec .resetNAssert s) fun t => cleared t ∧ t.regs = [] ∧ t.boot = { inReset := true }) ∧
  (s.boot.off = true → exec .resetNAssert s = .next s) ∧
  (s.boot.inReset = true → rom = true → flash = true → exec (.resetNDeassert rom flash) s = .next boot) ∧
  (s.boot.inReset = false → exec (.resetNDeassert rom flash) s = .next s) ∧
  (cool → up.minService = false → exec (.coolantReady r cores stalls failed) s = .next (fail up 4)) ∧
  (cool → up.minService = true → exec (.coolantReady r cores stalls failed) s = .next (
    match (up.setStage 6).ximLoadBoot with
    | (x, false) => fail x 2
    | (x, true) => x.bootKernel)) ∧
  (¬cool → exec (.coolantReady r cores stalls failed) s = .next u) ∧
  (s.stage = 7 → exec .kernelReady s = .next (s.setStage 9)) ∧
  (s.stage ≠ 7 → exec .kernelReady s = .next s ∧ exec .kernelTimeout s = .next s) ∧
  (s.stage = 7 → s.boot.retried = true → exec .kernelTimeout s = .next (fail noCores 6)) ∧
  (s.stage = 7 → s.boot.retried = false → exec .kernelTimeout s = .next (again.bootFrom [1 - again.running]))) ∧
  (∀ (s : State) (bus : Fin 3) (type : BitVec 8) (body data : Bytes) (a : BitVec 7) (id comp : BitVec 16) (v : Nat)
    (p : PldmUpdate) (rom flash : Bool),
  let hears : Prop := s.boot.off = false ∧ (bus.val ≠ 1 ∨ s.side.dynamic = none)
  let ctl (c : Nat) : Prop := type = 0 ∧ leAt body 1 1 = c
  let c := comp.toNat
  let pldm (x : State) (cc : Nat) (b : Bytes) : State := x.emit (.sideband 1 (leBytes 1 cc ++ b))
  let control := exec (.mctpControl bus type body) s
  let update := exec (.pldmUpdateComponent bus comp data) s
  let fits : Prop := (c = 1 ∨ c = 2 ∨ c = 3) ∧ data.length ≤ compMax c
  let taken : State := { s with side := { s.side with update := none } }
  let listed (x : State) : State := { x with side := { x.side with ready := if x.side.ready.contains p.comp then x.side.ready else p.comp :: x.side.ready } }
  let none_ : State := { s with side := { s.side with ready := [] } }
  let start := exec (.pldmActivateFirmware bus rom flash) s
  (hears → ctl 1 → control =
    .next (({ s with side := { s.side with eid := leAt body 3 1 } } : State).control 1 0 [0#8, BitVec.ofNat 8 (leAt body 3 1), 0#8])) ∧
  (hears → ctl 2 → control = .next (s.control 2 0 [BitVec.ofNat 8 s.side.eid, 0#8, 0#8])) ∧
  (hears → ctl 5 → control = .next (s.control 5 0 [4#8, 0x00#8, 0x01#8, 0x05#8, 0x7E#8])) ∧
  (hears → type = 0 → leAt body 1 1 ∉ [1, 2, 5] → control = .next (s.control (leAt body 1 1) 5 [])) ∧
  (hears → type ≠ 0 → type ≠ 1 → type ≠ 5 → type ≠ 0x7E → control = .next (s.control (leAt body 1 1) 5 [])) ∧
  (¬hears → control = .next s ∧ update = .next s ∧ start = .next s ∧ exec (.mctpVendorOpen bus body) s = .next s ∧
    exec (.pldmGetSensorReading bus id) s = .next s ∧ exec (.pldmVerifyComplete bus) s = .next s) ∧
  (hears → body = [] → exec (.mctpVendorOpen bus body) s =
    .next (({ s with side := { s.side with vendor := true } } : State).emit (.sideband 0x7E (kioskMsg 0x0001 0 0 0 [])))) ∧
  (hears → body ≠ [] → exec (.mctpVendorOpen bus body) s = .next (s.emit (.sideband 0x7E (kioskMsg 0x0001 0 1 0 [])))) ∧
  (s.boot.off = false → exec (.i3cDynamicAddress a) s = .next { s with side := { s.side with dynamic := some a.toNat } }) ∧
  (s.boot.off = true → exec (.i3cDynamicAddress a) s = .next s) ∧
  (hears → s.sensor id.toNat = some v → exec (.pldmGetSensorReading bus id) s = .next (pldm s 0 (leBytes 4 v))) ∧
  (hears → id = 0 ∨ 19 < id.toNat → exec (.pldmGetSensorReading bus id) s = .next (pldm s 0x80 [])) ∧
  (s.sensor 1 = some (s.fget pwrInput F.pwrInput_VOLTAGE) ∧ s.sensor 6 = some (s.fget pwrThermal F.pwrThermal_FLOW) ∧
    s.sensor 16 = some (s.fget pwrStatus F.pwrStatus_POINT) ∧ s.sensor 18 = some s.stage ∧
    s.sensor 19 = some (s.fget secState F.secState_SEAL_NOW)) ∧
  (hears → s.side.update = none → fits → c ≠ 1 ∨ s.activating = false → update =
    .next (pldm { s with side := { s.side with update := some ⟨c, data⟩ } } 0 [])) ∧
  (hears → s.side.update = none → ¬fits ∨ (c = 1 ∧ s.activating = true) → update = .next (pldm s 0x02 [])) ∧
  (hears → s.side.update = some p → update = .next (pldm s 0x81 [])) ∧
  (hears → s.side.update = some p → exec (.pldmVerifyComplete bus) s = .next (
    match taken.checkComponent p.comp p.data with
    | (x, 0, _) => pldm (listed (x.writeComponent p.comp p.data)) 0 [0#8]
    | (x, st, inj) => pldm (if p.comp = 3 then x else x.loadRefused st inj) 0 [BitVec.ofNat 8 (if st = 0x7F then 0xAF else 0x90 + st)])) ∧
  (hears → s.side.update = none → exec (.pldmVerifyComplete bus) s = .next (pldm s 0x84 [])) ∧
  (hears → s.side.ready ≠ [] → s.stage = 15 → start = .next ((pldm none_ 0 []).coldBoot rom flash)) ∧
  (hears → s.side.ready ≠ [] → s.stage ≠ 15 → 1 ∈ s.side.ready → none_.fwBusy = false → start = .next (none_.fwStart none true (1 - none_.running))) ∧
  (hears → s.side.ready ≠ [] → s.stage ≠ 15 → 1 ∈ s.side.ready → none_.fwBusy = true → start =
    .next (pldm ((none_.fset fwStateReg F.fwState_LAST_STATUS 2).fset fwStateReg F.fwState_LAST_DETAIL 2) 0x8B [])) ∧
  (hears → s.side.ready ≠ [] → s.stage ≠ 15 → 1 ∉ s.side.ready → start = .next (pldm none_ 0 [])) ∧
  (hears → s.side.ready = [] → start = .next (pldm none_ 0x85 [])))

/-- A step takes the command at the front of the queue: it is that command's effect on the state whose queue is the rest; with nothing
waiting a tick passes, which leaves memory, the queue and what has been sent as they are (the model's choice, log entry 3). -/
def Obligations.StepTakesTheFront : Prop := ∀ (s : State) (c : Instr) (rest : List Instr),
  step { s with pending := c :: rest } = exec c { s with pending := rest } ∧
  (s.pending = [] → Completes (step s) fun t => t.tick = s.tick + 1 ∧ t.pending = [] ∧ t.home = s.home ∧ t.out = s.out ∧ t.cores = s.cores ∧
    t.host = s.host) ∧
  ∀ b w, s.withFetchWord b w = s

/-- Every command of the table has an effect: from every state, whatever its operands, it is answered by a next state; so no run ever stops.
-/
def Obligations.EveryCommandCompletes : Prop := (∀ (c : Instr) (s : State), ∃ t, exec c s = .next t) ∧ ∀ k s, SafeRun k s
end

