-- ==== Sys2Proof/Laws/Table.lean ====
section
/-!
SUPPORT. What the table operations of Machine/Table.lean do: a read after a write, and that every write keeps the canonical form.
-/
namespace Sys2Proof.Machine

variable {α : Type}

theorem look_put_same (t : Tab α) (k : Nat) (v : α) : look (put t k v) k = some v := by
  induction t with
  | nil => simp [put, look]
  | cons p t ih =>
    obtain ⟨k', v'⟩ := p
    simp only [put]
    split
    · simp [look]
    · split
      · simp [look]
      · rename_i h1 h2; simp [look, h2, ih]

theorem look_put_ne (t : Tab α) {k j : Nat} (v : α) (h : j ≠ k) : look (put t k v) j = look t j := by
  induction t with
  | nil => simp [put, look, Ne.symm h]
  | cons p t ih =>
    obtain ⟨k', v'⟩ := p
    simp only [put]
    split
    · simp [look, Ne.symm h]
    · split
      · rename_i h1 h2; subst h2; simp [look, Ne.symm h]
      · simp [look, ih]

@[simp] theorem look_put (t : Tab α) (k j : Nat) (v : α) :
    look (put t k v) j = if j = k then some v else look t j := by
  by_cases h : j = k
  · subst h; simp [look_put_same]
  · simp [h, look_put_ne]

@[simp] theorem look_nil (k : Nat) : look ([] : Tab α) k = none := rfl

theorem look_eq_none_of_lt {t : Tab α} {k : Nat} (h : ∀ p ∈ t, k < p.1) : look t k = none := by
  induction t with
  | nil => rfl
  | cons p t ih =>
    have hp := h p (by simp)
    simp only [look]
    rw [if_neg (by omega)]
    exact ih (fun q hq => h q (by simp [hq]))

theorem look_drop_ne (t : Tab α) {k j : Nat} (h : j ≠ k) : look (drop t k) j = look t j := by
  induction t with
  | nil => rfl
  | cons p t ih =>
    obtain ⟨k', v'⟩ := p
    simp only [drop]
    split
    · rename_i h1; subst h1; simp [look, Ne.symm h, ih]
    · simp [look, ih]

@[simp] theorem look_drop_same (t : Tab α) (k : Nat) : look (drop t k) k = none := by
  induction t with
  | nil => rfl
  | cons p t ih =>
    obtain ⟨k', v'⟩ := p
    simp only [drop]
    split
    · exact ih
    · rename_i h1; simp [look, h1, ih]

theorem mem_put {t : Tab α} {k : Nat} {v : α} {p : Nat × α} (h : p ∈ put t k v) : p = (k, v) ∨ p ∈ t := by
  induction t with
  | nil => simp [put] at h; exact .inl h
  | cons q t ih =>
    obtain ⟨k', v'⟩ := q
    simp only [put] at h
    split at h
    · simp only [List.mem_cons] at h ⊢; tauto
    · split at h
      · simp only [List.mem_cons] at h ⊢; tauto
      · simp only [List.mem_cons] at h ⊢
        rcases h with h | h
        · exact .inr (.inl h)
        · rcases ih h with h | h
          · exact .inl h
          · exact .inr (.inr h)

theorem mem_drop {t : Tab α} {k : Nat} {p : Nat × α} (h : p ∈ drop t k) : p ∈ t := by
  induction t with
  | nil => simp [drop] at h
  | cons q t ih =>
    obtain ⟨k', v'⟩ := q
    simp only [drop] at h
    split at h
    · exact List.mem_cons_of_mem _ (ih h)
    · simp only [List.mem_cons] at h ⊢
      rcases h with h | h
      · exact .inl h
      · exact .inr (ih h)

theorem put_wf {t : Tab α} (ht : TabWf t) (k : Nat) (v : α) : TabWf (put t k v) := by
  induction t with
  | nil => simp [put, TabWf]
  | cons q t ih =>
    obtain ⟨k', v'⟩ := q
    have h := List.pairwise_cons.1 ht
    simp only [put]
    split
    · rename_i hk
      refine List.pairwise_cons.2 ⟨?_, ht⟩
      intro a ha
      rcases List.mem_cons.1 ha with rfl | ha
      · exact hk
      · exact lt_trans hk (h.1 a ha)
    · split
      · rename_i h1 h2; subst h2
        exact List.pairwise_cons.2 ⟨h.1, h.2⟩
      · rename_i h1 h2
        refine List.pairwise_cons.2 ⟨?_, ih h.2⟩
        intro a ha
        rcases mem_put ha with rfl | ha
        · simp; omega
        · exact h.1 a ha

theorem drop_wf {t : Tab α} (ht : TabWf t) (k : Nat) : TabWf (drop t k) := by
  induction t with
  | nil => exact ht
  | cons q t ih =>
    obtain ⟨k', v'⟩ := q
    have h := List.pairwise_cons.1 ht
    simp only [drop]
    split
    · exact ih h.2
    · refine List.pairwise_cons.2 ⟨?_, ih h.2⟩
      intro a ha
      exact h.1 a (mem_drop ha)

@[simp] theorem tabWf_nil : TabWf ([] : Tab α) := List.Pairwise.nil

theorem tabWfD_nil (d : α) : TabWfD d ([] : Tab α) := ⟨tabWf_nil, by simp⟩

theorem putD_wfD [DecidableEq α] {d : α} {t : Tab α} (ht : TabWfD d t) (k : Nat) (v : α) :
    TabWfD d (putD d t k v) := by
  unfold putD
  split
  · exact ⟨drop_wf ht.1 k, fun p hp => ht.2 p (mem_drop hp)⟩
  · rename_i hv
    refine ⟨put_wf ht.1 k v, fun p hp => ?_⟩
    rcases mem_put hp with rfl | hp
    · exact hv
    · exact ht.2 p hp

theorem lookD_putD_ne [DecidableEq α] (d : α) (t : Tab α) {k j : Nat} (v : α) (h : j ≠ k) :
    lookD d (putD d t k v) j = lookD d t j := by
  unfold lookD putD
  split
  · rw [look_drop_ne t h]
  · rw [look_put_ne t v h]

@[simp] theorem lookD_putD_same [DecidableEq α] (d : α) (t : Tab α) (k : Nat) (v : α) :
    lookD d (putD d t k v) k = v := by
  unfold lookD putD
  split
  · rename_i h; rw [look_drop_same]; simp [h]
  · rw [look_put_same]; rfl

theorem lookD_put [DecidableEq α] (d : α) (t : Tab α) (k j : Nat) (v : α) :
    lookD d (put t k v) j = if j = k then v else lookD d t j := by
  unfold lookD; rw [look_put]; split <;> rfl

@[simp] theorem length_leBytes (n v : Nat) : (leBytes n v).length = n := by
  induction n generalizing v with
  | zero => rfl
  | succ n ih => simp [leBytes, ih]

theorem leNat_leBytes (n v : Nat) : leNat (leBytes n v) = v % 256 ^ n := by
  induction n generalizing v with
  | zero => simp [leBytes, leNat, Nat.mod_one]
  | succ n ih =>
    simp only [leBytes, leNat, ih, BitVec.toNat_ofNat]
    have h : v % 256 ^ (n + 1) = v % 256 + 256 * (v / 256 % 256 ^ n) := by
      rw [pow_succ']; exact Nat.mod_mul
    rw [h]

end Sys2Proof.Machine
end

