-- ==== Sys2Proof/Laws/State.lean ====
section
/-!
SUPPORT. What the state updates of Machine/Ops.lean leave alone, one lemma per field and update, and what a read after
each gives: no later proof unfolds a record update.
-/
namespace Sys2Proof.Machine

/-- A fold each of whose steps keeps a projection keeps it. -/
theorem foldl_keeps {σ β γ : Type} (g : σ → γ) {f : σ → β → σ} (h : ∀ s x, g (f s x) = g s) (l : List β) (s : σ) :
    g (l.foldl f s) = g s := by
  induction l generalizing s with
  | nil => rfl
  | cons x l ih => simp [ih, h]

/-- A fold each of whose steps keeps a property keeps it. -/
theorem foldl_inv {σ β : Type} (p : σ → Prop) {f : σ → β → σ} (h : ∀ s x, p s → p (f s x)) (l : List β) {s : σ}
    (hs : p s) : p (l.foldl f s) := by
  induction l generalizing s with
  | nil => exact hs
  | cons x l ih => exact ih (h _ _ hs)

/-! ### What each update leaves alone -/

@[simp] theorem State.wr_pending (s : State) (r : Reg) (w : W64) : (s.wr r w).pending = s.pending := (rfl)
@[simp] theorem State.wr_tick (s : State) (r : Reg) (w : W64) : (s.wr r w).tick = s.tick := (rfl)
@[simp] theorem State.wr_fresh (s : State) (r : Reg) (w : W64) : (s.wr r w).fresh = s.fresh := (rfl)
@[simp] theorem State.wr_out (s : State) (r : Reg) (w : W64) : (s.wr r w).out = s.out := (rfl)
@[simp] theorem State.wr_err (s : State) (r : Reg) (w : W64) : (s.wr r w).err = s.err := (rfl)
@[simp] theorem State.wr_home (s : State) (r : Reg) (w : W64) : (s.wr r w).home = s.home := (rfl)
@[simp] theorem State.wr_surv (s : State) (r : Reg) (w : W64) : (s.wr r w).surv = s.surv := (rfl)
@[simp] theorem State.wr_street (s : State) (r : Reg) (w : W64) : (s.wr r w).street = s.street := (rfl)
@[simp] theorem State.wr_blvd (s : State) (r : Reg) (w : W64) : (s.wr r w).blvd = s.blvd := (rfl)
@[simp] theorem State.wr_bell (s : State) (r : Reg) (w : W64) : (s.wr r w).bell = s.bell := (rfl)
@[simp] theorem State.wr_stall (s : State) (r : Reg) (w : W64) : (s.wr r w).stall = s.stall := (rfl)
@[simp] theorem State.wr_porter (s : State) (r : Reg) (w : W64) : (s.wr r w).porter = s.porter := (rfl)
@[simp] theorem State.wr_cw (s : State) (r : Reg) (w : W64) : (s.wr r w).cw = s.cw := (rfl)
@[simp] theorem State.wr_xim (s : State) (r : Reg) (w : W64) : (s.wr r w).xim = s.xim := (rfl)
@[simp] theorem State.wr_cash (s : State) (r : Reg) (w : W64) : (s.wr r w).cash = s.cash := (rfl)
@[simp] theorem State.wr_eth (s : State) (r : Reg) (w : W64) : (s.wr r w).eth = s.eth := (rfl)
@[simp] theorem State.wr_carter (s : State) (r : Reg) (w : W64) : (s.wr r w).carter = s.carter := (rfl)
@[simp] theorem State.wr_ledger (s : State) (r : Reg) (w : W64) : (s.wr r w).ledger = s.ledger := (rfl)
@[simp] theorem State.wr_host (s : State) (r : Reg) (w : W64) : (s.wr r w).host = s.host := (rfl)
@[simp] theorem State.wr_cores (s : State) (r : Reg) (w : W64) : (s.wr r w).cores = s.cores := (rfl)
@[simp] theorem State.wr_senders (s : State) (r : Reg) (w : W64) : (s.wr r w).senders = s.senders := (rfl)
@[simp] theorem State.wr_sampleSeq (s : State) (r : Reg) (w : W64) : (s.wr r w).sampleSeq = s.sampleSeq := (rfl)
@[simp] theorem State.wr_fw (s : State) (r : Reg) (w : W64) : (s.wr r w).fw = s.fw := (rfl)
@[simp] theorem State.wr_sec (s : State) (r : Reg) (w : W64) : (s.wr r w).sec = s.sec := (rfl)
@[simp] theorem State.wr_boot (s : State) (r : Reg) (w : W64) : (s.wr r w).boot = s.boot := (rfl)
@[simp] theorem State.wr_pwr (s : State) (r : Reg) (w : W64) : (s.wr r w).pwr = s.pwr := (rfl)
@[simp] theorem State.wr_side (s : State) (r : Reg) (w : W64) : (s.wr r w).side = s.side := (rfl)
@[simp] theorem State.wr_inv (s : State) (r : Reg) (w : W64) : (s.wr r w).inv = s.inv := (rfl)

@[simp] theorem State.fset_pending (s : State) (r : Reg) (f : Fld) (v : Nat) : (s.fset r f v).pending = s.pending := State.wr_pending _ _ _
@[simp] theorem State.fset_tick (s : State) (r : Reg) (f : Fld) (v : Nat) : (s.fset r f v).tick = s.tick := State.wr_tick _ _ _
@[simp] theorem State.fset_fresh (s : State) (r : Reg) (f : Fld) (v : Nat) : (s.fset r f v).fresh = s.fresh := State.wr_fresh _ _ _
@[simp] theorem State.fset_out (s : State) (r : Reg) (f : Fld) (v : Nat) : (s.fset r f v).out = s.out := State.wr_out _ _ _
@[simp] theorem State.fset_err (s : State) (r : Reg) (f : Fld) (v : Nat) : (s.fset r f v).err = s.err := State.wr_err _ _ _
@[simp] theorem State.fset_home (s : State) (r : Reg) (f : Fld) (v : Nat) : (s.fset r f v).home = s.home := State.wr_home _ _ _
@[simp] theorem State.fset_surv (s : State) (r : Reg) (f : Fld) (v : Nat) : (s.fset r f v).surv = s.surv := State.wr_surv _ _ _
@[simp] theorem State.fset_street (s : State) (r : Reg) (f : Fld) (v : Nat) : (s.fset r f v).street = s.street := State.wr_street _ _ _
@[simp] theorem State.fset_blvd (s : State) (r : Reg) (f : Fld) (v : Nat) : (s.fset r f v).blvd = s.blvd := State.wr_blvd _ _ _
@[simp] theorem State.fset_bell (s : State) (r : Reg) (f : Fld) (v : Nat) : (s.fset r f v).bell = s.bell := State.wr_bell _ _ _
@[simp] theorem State.fset_stall (s : State) (r : Reg) (f : Fld) (v : Nat) : (s.fset r f v).stall = s.stall := State.wr_stall _ _ _
@[simp] theorem State.fset_porter (s : State) (r : Reg) (f : Fld) (v : Nat) : (s.fset r f v).porter = s.porter := State.wr_porter _ _ _
@[simp] theorem State.fset_cw (s : State) (r : Reg) (f : Fld) (v : Nat) : (s.fset r f v).cw = s.cw := State.wr_cw _ _ _
@[simp] theorem State.fset_xim (s : State) (r : Reg) (f : Fld) (v : Nat) : (s.fset r f v).xim = s.xim := State.wr_xim _ _ _
@[simp] theorem State.fset_cash (s : State) (r : Reg) (f : Fld) (v : Nat) : (s.fset r f v).cash = s.cash := State.wr_cash _ _ _
@[simp] theorem State.fset_eth (s : State) (r : Reg) (f : Fld) (v : Nat) : (s.fset r f v).eth = s.eth := State.wr_eth _ _ _
@[simp] theorem State.fset_carter (s : State) (r : Reg) (f : Fld) (v : Nat) : (s.fset r f v).carter = s.carter := State.wr_carter _ _ _
@[simp] theorem State.fset_ledger (s : State) (r : Reg) (f : Fld) (v : Nat) : (s.fset r f v).ledger = s.ledger := State.wr_ledger _ _ _
@[simp] theorem State.fset_host (s : State) (r : Reg) (f : Fld) (v : Nat) : (s.fset r f v).host = s.host := State.wr_host _ _ _
@[simp] theorem State.fset_cores (s : State) (r : Reg) (f : Fld) (v : Nat) : (s.fset r f v).cores = s.cores := State.wr_cores _ _ _
@[simp] theorem State.fset_senders (s : State) (r : Reg) (f : Fld) (v : Nat) : (s.fset r f v).senders = s.senders := State.wr_senders _ _ _
@[simp] theorem State.fset_sampleSeq (s : State) (r : Reg) (f : Fld) (v : Nat) : (s.fset r f v).sampleSeq = s.sampleSeq := State.wr_sampleSeq _ _ _
@[simp] theorem State.fset_fw (s : State) (r : Reg) (f : Fld) (v : Nat) : (s.fset r f v).fw = s.fw := State.wr_fw _ _ _
@[simp] theorem State.fset_sec (s : State) (r : Reg) (f : Fld) (v : Nat) : (s.fset r f v).sec = s.sec := State.wr_sec _ _ _
@[simp] theorem State.fset_boot (s : State) (r : Reg) (f : Fld) (v : Nat) : (s.fset r f v).boot = s.boot := State.wr_boot _ _ _
@[simp] theorem State.fset_pwr (s : State) (r : Reg) (f : Fld) (v : Nat) : (s.fset r f v).pwr = s.pwr := State.wr_pwr _ _ _
@[simp] theorem State.fset_side (s : State) (r : Reg) (f : Fld) (v : Nat) : (s.fset r f v).side = s.side := State.wr_side _ _ _
@[simp] theorem State.fset_inv (s : State) (r : Reg) (f : Fld) (v : Nat) : (s.fset r f v).inv = s.inv := State.wr_inv _ _ _

@[simp] theorem State.fsat_pending (s : State) (r : Reg) (f : Fld) (n : Nat) : (s.fsat r f n).pending = s.pending := State.wr_pending _ _ _
@[simp] theorem State.fsat_tick (s : State) (r : Reg) (f : Fld) (n : Nat) : (s.fsat r f n).tick = s.tick := State.wr_tick _ _ _
@[simp] theorem State.fsat_fresh (s : State) (r : Reg) (f : Fld) (n : Nat) : (s.fsat r f n).fresh = s.fresh := State.wr_fresh _ _ _
@[simp] theorem State.fsat_out (s : State) (r : Reg) (f : Fld) (n : Nat) : (s.fsat r f n).out = s.out := State.wr_out _ _ _
@[simp] theorem State.fsat_err (s : State) (r : Reg) (f : Fld) (n : Nat) : (s.fsat r f n).err = s.err := State.wr_err _ _ _
@[simp] theorem State.fsat_home (s : State) (r : Reg) (f : Fld) (n : Nat) : (s.fsat r f n).home = s.home := State.wr_home _ _ _
@[simp] theorem State.fsat_surv (s : State) (r : Reg) (f : Fld) (n : Nat) : (s.fsat r f n).surv = s.surv := State.wr_surv _ _ _
@[simp] theorem State.fsat_street (s : State) (r : Reg) (f : Fld) (n : Nat) : (s.fsat r f n).street = s.street := State.wr_street _ _ _
@[simp] theorem State.fsat_blvd (s : State) (r : Reg) (f : Fld) (n : Nat) : (s.fsat r f n).blvd = s.blvd := State.wr_blvd _ _ _
@[simp] theorem State.fsat_bell (s : State) (r : Reg) (f : Fld) (n : Nat) : (s.fsat r f n).bell = s.bell := State.wr_bell _ _ _
@[simp] theorem State.fsat_stall (s : State) (r : Reg) (f : Fld) (n : Nat) : (s.fsat r f n).stall = s.stall := State.wr_stall _ _ _
@[simp] theorem State.fsat_porter (s : State) (r : Reg) (f : Fld) (n : Nat) : (s.fsat r f n).porter = s.porter := State.wr_porter _ _ _
@[simp] theorem State.fsat_cw (s : State) (r : Reg) (f : Fld) (n : Nat) : (s.fsat r f n).cw = s.cw := State.wr_cw _ _ _
@[simp] theorem State.fsat_xim (s : State) (r : Reg) (f : Fld) (n : Nat) : (s.fsat r f n).xim = s.xim := State.wr_xim _ _ _
@[simp] theorem State.fsat_cash (s : State) (r : Reg) (f : Fld) (n : Nat) : (s.fsat r f n).cash = s.cash := State.wr_cash _ _ _
@[simp] theorem State.fsat_eth (s : State) (r : Reg) (f : Fld) (n : Nat) : (s.fsat r f n).eth = s.eth := State.wr_eth _ _ _
@[simp] theorem State.fsat_carter (s : State) (r : Reg) (f : Fld) (n : Nat) : (s.fsat r f n).carter = s.carter := State.wr_carter _ _ _
@[simp] theorem State.fsat_ledger (s : State) (r : Reg) (f : Fld) (n : Nat) : (s.fsat r f n).ledger = s.ledger := State.wr_ledger _ _ _
@[simp] theorem State.fsat_host (s : State) (r : Reg) (f : Fld) (n : Nat) : (s.fsat r f n).host = s.host := State.wr_host _ _ _
@[simp] theorem State.fsat_cores (s : State) (r : Reg) (f : Fld) (n : Nat) : (s.fsat r f n).cores = s.cores := State.wr_cores _ _ _
@[simp] theorem State.fsat_senders (s : State) (r : Reg) (f : Fld) (n : Nat) : (s.fsat r f n).senders = s.senders := State.wr_senders _ _ _
@[simp] theorem State.fsat_sampleSeq (s : State) (r : Reg) (f : Fld) (n : Nat) : (s.fsat r f n).sampleSeq = s.sampleSeq := State.wr_sampleSeq _ _ _
@[simp] theorem State.fsat_fw (s : State) (r : Reg) (f : Fld) (n : Nat) : (s.fsat r f n).fw = s.fw := State.wr_fw _ _ _
@[simp] theorem State.fsat_sec (s : State) (r : Reg) (f : Fld) (n : Nat) : (s.fsat r f n).sec = s.sec := State.wr_sec _ _ _
@[simp] theorem State.fsat_boot (s : State) (r : Reg) (f : Fld) (n : Nat) : (s.fsat r f n).boot = s.boot := State.wr_boot _ _ _
@[simp] theorem State.fsat_pwr (s : State) (r : Reg) (f : Fld) (n : Nat) : (s.fsat r f n).pwr = s.pwr := State.wr_pwr _ _ _
@[simp] theorem State.fsat_side (s : State) (r : Reg) (f : Fld) (n : Nat) : (s.fsat r f n).side = s.side := State.wr_side _ _ _
@[simp] theorem State.fsat_inv (s : State) (r : Reg) (f : Fld) (n : Nat) : (s.fsat r f n).inv = s.inv := State.wr_inv _ _ _

@[simp] theorem State.fwrap_pending (s : State) (r : Reg) (f : Fld) (n : Nat) : (s.fwrap r f n).pending = s.pending := State.wr_pending _ _ _
@[simp] theorem State.fwrap_tick (s : State) (r : Reg) (f : Fld) (n : Nat) : (s.fwrap r f n).tick = s.tick := State.wr_tick _ _ _
@[simp] theorem State.fwrap_fresh (s : State) (r : Reg) (f : Fld) (n : Nat) : (s.fwrap r f n).fresh = s.fresh := State.wr_fresh _ _ _
@[simp] theorem State.fwrap_out (s : State) (r : Reg) (f : Fld) (n : Nat) : (s.fwrap r f n).out = s.out := State.wr_out _ _ _
@[simp] theorem State.fwrap_err (s : State) (r : Reg) (f : Fld) (n : Nat) : (s.fwrap r f n).err = s.err := State.wr_err _ _ _
@[simp] theorem State.fwrap_home (s : State) (r : Reg) (f : Fld) (n : Nat) : (s.fwrap r f n).home = s.home := State.wr_home _ _ _
@[simp] theorem State.fwrap_surv (s : State) (r : Reg) (f : Fld) (n : Nat) : (s.fwrap r f n).surv = s.surv := State.wr_surv _ _ _
@[simp] theorem State.fwrap_street (s : State) (r : Reg) (f : Fld) (n : Nat) : (s.fwrap r f n).street = s.street := State.wr_street _ _ _
@[simp] theorem State.fwrap_blvd (s : State) (r : Reg) (f : Fld) (n : Nat) : (s.fwrap r f n).blvd = s.blvd := State.wr_blvd _ _ _
@[simp] theorem State.fwrap_bell (s : State) (r : Reg) (f : Fld) (n : Nat) : (s.fwrap r f n).bell = s.bell := State.wr_bell _ _ _
@[simp] theorem State.fwrap_stall (s : State) (r : Reg) (f : Fld) (n : Nat) : (s.fwrap r f n).stall = s.stall := State.wr_stall _ _ _
@[simp] theorem State.fwrap_porter (s : State) (r : Reg) (f : Fld) (n : Nat) : (s.fwrap r f n).porter = s.porter := State.wr_porter _ _ _
@[simp] theorem State.fwrap_cw (s : State) (r : Reg) (f : Fld) (n : Nat) : (s.fwrap r f n).cw = s.cw := State.wr_cw _ _ _
@[simp] theorem State.fwrap_xim (s : State) (r : Reg) (f : Fld) (n : Nat) : (s.fwrap r f n).xim = s.xim := State.wr_xim _ _ _
@[simp] theorem State.fwrap_cash (s : State) (r : Reg) (f : Fld) (n : Nat) : (s.fwrap r f n).cash = s.cash := State.wr_cash _ _ _
@[simp] theorem State.fwrap_eth (s : State) (r : Reg) (f : Fld) (n : Nat) : (s.fwrap r f n).eth = s.eth := State.wr_eth _ _ _
@[simp] theorem State.fwrap_carter (s : State) (r : Reg) (f : Fld) (n : Nat) : (s.fwrap r f n).carter = s.carter := State.wr_carter _ _ _
@[simp] theorem State.fwrap_ledger (s : State) (r : Reg) (f : Fld) (n : Nat) : (s.fwrap r f n).ledger = s.ledger := State.wr_ledger _ _ _
@[simp] theorem State.fwrap_host (s : State) (r : Reg) (f : Fld) (n : Nat) : (s.fwrap r f n).host = s.host := State.wr_host _ _ _
@[simp] theorem State.fwrap_cores (s : State) (r : Reg) (f : Fld) (n : Nat) : (s.fwrap r f n).cores = s.cores := State.wr_cores _ _ _
@[simp] theorem State.fwrap_senders (s : State) (r : Reg) (f : Fld) (n : Nat) : (s.fwrap r f n).senders = s.senders := State.wr_senders _ _ _
@[simp] theorem State.fwrap_sampleSeq (s : State) (r : Reg) (f : Fld) (n : Nat) : (s.fwrap r f n).sampleSeq = s.sampleSeq := State.wr_sampleSeq _ _ _
@[simp] theorem State.fwrap_fw (s : State) (r : Reg) (f : Fld) (n : Nat) : (s.fwrap r f n).fw = s.fw := State.wr_fw _ _ _
@[simp] theorem State.fwrap_sec (s : State) (r : Reg) (f : Fld) (n : Nat) : (s.fwrap r f n).sec = s.sec := State.wr_sec _ _ _
@[simp] theorem State.fwrap_boot (s : State) (r : Reg) (f : Fld) (n : Nat) : (s.fwrap r f n).boot = s.boot := State.wr_boot _ _ _
@[simp] theorem State.fwrap_pwr (s : State) (r : Reg) (f : Fld) (n : Nat) : (s.fwrap r f n).pwr = s.pwr := State.wr_pwr _ _ _
@[simp] theorem State.fwrap_side (s : State) (r : Reg) (f : Fld) (n : Nat) : (s.fwrap r f n).side = s.side := State.wr_side _ _ _
@[simp] theorem State.fwrap_inv (s : State) (r : Reg) (f : Fld) (n : Nat) : (s.fwrap r f n).inv = s.inv := State.wr_inv _ _ _

@[simp] theorem State.emit_pending (s : State) (o : Out) : (s.emit o).pending = s.pending := (rfl)
@[simp] theorem State.emit_tick (s : State) (o : Out) : (s.emit o).tick = s.tick := (rfl)
@[simp] theorem State.emit_fresh (s : State) (o : Out) : (s.emit o).fresh = s.fresh := (rfl)
@[simp] theorem State.emit_regs (s : State) (o : Out) : (s.emit o).regs = s.regs := (rfl)
@[simp] theorem State.emit_err (s : State) (o : Out) : (s.emit o).err = s.err := (rfl)
@[simp] theorem State.emit_home (s : State) (o : Out) : (s.emit o).home = s.home := (rfl)
@[simp] theorem State.emit_surv (s : State) (o : Out) : (s.emit o).surv = s.surv := (rfl)
@[simp] theorem State.emit_street (s : State) (o : Out) : (s.emit o).street = s.street := (rfl)
@[simp] theorem State.emit_blvd (s : State) (o : Out) : (s.emit o).blvd = s.blvd := (rfl)
@[simp] theorem State.emit_bell (s : State) (o : Out) : (s.emit o).bell = s.bell := (rfl)
@[simp] theorem State.emit_stall (s : State) (o : Out) : (s.emit o).stall = s.stall := (rfl)
@[simp] theorem State.emit_porter (s : State) (o : Out) : (s.emit o).porter = s.porter := (rfl)
@[simp] theorem State.emit_cw (s : State) (o : Out) : (s.emit o).cw = s.cw := (rfl)
@[simp] theorem State.emit_xim (s : State) (o : Out) : (s.emit o).xim = s.xim := (rfl)
@[simp] theorem State.emit_cash (s : State) (o : Out) : (s.emit o).cash = s.cash := (rfl)
@[simp] theorem State.emit_eth (s : State) (o : Out) : (s.emit o).eth = s.eth := (rfl)
@[simp] theorem State.emit_carter (s : State) (o : Out) : (s.emit o).carter = s.carter := (rfl)
@[simp] theorem State.emit_ledger (s : State) (o : Out) : (s.emit o).ledger = s.ledger := (rfl)
@[simp] theorem State.emit_host (s : State) (o : Out) : (s.emit o).host = s.host := (rfl)
@[simp] theorem State.emit_cores (s : State) (o : Out) : (s.emit o).cores = s.cores := (rfl)
@[simp] theorem State.emit_senders (s : State) (o : Out) : (s.emit o).senders = s.senders := (rfl)
@[simp] theorem State.emit_sampleSeq (s : State) (o : Out) : (s.emit o).sampleSeq = s.sampleSeq := (rfl)
@[simp] theorem State.emit_fw (s : State) (o : Out) : (s.emit o).fw = s.fw := (rfl)
@[simp] theorem State.emit_sec (s : State) (o : Out) : (s.emit o).sec = s.sec := (rfl)
@[simp] theorem State.emit_boot (s : State) (o : Out) : (s.emit o).boot = s.boot := (rfl)
@[simp] theorem State.emit_pwr (s : State) (o : Out) : (s.emit o).pwr = s.pwr := (rfl)
@[simp] theorem State.emit_side (s : State) (o : Out) : (s.emit o).side = s.side := (rfl)
@[simp] theorem State.emit_inv (s : State) (o : Out) : (s.emit o).inv = s.inv := (rfl)

@[simp] theorem State.useFresh_pending (s : State) (n : Nat) : (s.useFresh n).pending = s.pending := (rfl)
@[simp] theorem State.useFresh_tick (s : State) (n : Nat) : (s.useFresh n).tick = s.tick := (rfl)
@[simp] theorem State.useFresh_out (s : State) (n : Nat) : (s.useFresh n).out = s.out := (rfl)
@[simp] theorem State.useFresh_regs (s : State) (n : Nat) : (s.useFresh n).regs = s.regs := (rfl)
@[simp] theorem State.useFresh_err (s : State) (n : Nat) : (s.useFresh n).err = s.err := (rfl)
@[simp] theorem State.useFresh_home (s : State) (n : Nat) : (s.useFresh n).home = s.home := (rfl)
@[simp] theorem State.useFresh_surv (s : State) (n : Nat) : (s.useFresh n).surv = s.surv := (rfl)
@[simp] theorem State.useFresh_street (s : State) (n : Nat) : (s.useFresh n).street = s.street := (rfl)
@[simp] theorem State.useFresh_blvd (s : State) (n : Nat) : (s.useFresh n).blvd = s.blvd := (rfl)
@[simp] theorem State.useFresh_bell (s : State) (n : Nat) : (s.useFresh n).bell = s.bell := (rfl)
@[simp] theorem State.useFresh_stall (s : State) (n : Nat) : (s.useFresh n).stall = s.stall := (rfl)
@[simp] theorem State.useFresh_porter (s : State) (n : Nat) : (s.useFresh n).porter = s.porter := (rfl)
@[simp] theorem State.useFresh_cw (s : State) (n : Nat) : (s.useFresh n).cw = s.cw := (rfl)
@[simp] theorem State.useFresh_xim (s : State) (n : Nat) : (s.useFresh n).xim = s.xim := (rfl)
@[simp] theorem State.useFresh_cash (s : State) (n : Nat) : (s.useFresh n).cash = s.cash := (rfl)
@[simp] theorem State.useFresh_eth (s : State) (n : Nat) : (s.useFresh n).eth = s.eth := (rfl)
@[simp] theorem State.useFresh_carter (s : State) (n : Nat) : (s.useFresh n).carter = s.carter := (rfl)
@[simp] theorem State.useFresh_ledger (s : State) (n : Nat) : (s.useFresh n).ledger = s.ledger := (rfl)
@[simp] theorem State.useFresh_host (s : State) (n : Nat) : (s.useFresh n).host = s.host := (rfl)
@[simp] theorem State.useFresh_cores (s : State) (n : Nat) : (s.useFresh n).cores = s.cores := (rfl)
@[simp] theorem State.useFresh_senders (s : State) (n : Nat) : (s.useFresh n).senders = s.senders := (rfl)
@[simp] theorem State.useFresh_sampleSeq (s : State) (n : Nat) : (s.useFresh n).sampleSeq = s.sampleSeq := (rfl)
@[simp] theorem State.useFresh_fw (s : State) (n : Nat) : (s.useFresh n).fw = s.fw := (rfl)
@[simp] theorem State.useFresh_sec (s : State) (n : Nat) : (s.useFresh n).sec = s.sec := (rfl)
@[simp] theorem State.useFresh_boot (s : State) (n : Nat) : (s.useFresh n).boot = s.boot := (rfl)
@[simp] theorem State.useFresh_pwr (s : State) (n : Nat) : (s.useFresh n).pwr = s.pwr := (rfl)
@[simp] theorem State.useFresh_side (s : State) (n : Nat) : (s.useFresh n).side = s.side := (rfl)
@[simp] theorem State.useFresh_inv (s : State) (n : Nat) : (s.useFresh n).inv = s.inv := (rfl)

@[simp] theorem State.strayCode_pending (s : State) (c k o : Nat) : (s.strayCode c k o).pending = s.pending := by
  unfold State.strayCode
  exact (State.wr_pending _ _ _).trans (State.fsat_pending _ _ _ _)
@[simp] theorem State.strayCode_tick (s : State) (c k o : Nat) : (s.strayCode c k o).tick = s.tick := by
  unfold State.strayCode
  exact (State.wr_tick _ _ _).trans (State.fsat_tick _ _ _ _)
@[simp] theorem State.strayCode_fresh (s : State) (c k o : Nat) : (s.strayCode c k o).fresh = s.fresh := by
  unfold State.strayCode
  exact (State.wr_fresh _ _ _).trans (State.fsat_fresh _ _ _ _)
@[simp] theorem State.strayCode_out (s : State) (c k o : Nat) : (s.strayCode c k o).out = s.out := by
  unfold State.strayCode
  exact (State.wr_out _ _ _).trans (State.fsat_out _ _ _ _)
@[simp] theorem State.strayCode_err (s : State) (c k o : Nat) : (s.strayCode c k o).err = s.err := by
  unfold State.strayCode
  exact (State.wr_err _ _ _).trans (State.fsat_err _ _ _ _)
@[simp] theorem State.strayCode_home (s : State) (c k o : Nat) : (s.strayCode c k o).home = s.home := by
  unfold State.strayCode
  exact (State.wr_home _ _ _).trans (State.fsat_home _ _ _ _)
@[simp] theorem State.strayCode_surv (s : State) (c k o : Nat) : (s.strayCode c k o).surv = s.surv := by
  unfold State.strayCode
  exact (State.wr_surv _ _ _).trans (State.fsat_surv _ _ _ _)
@[simp] theorem State.strayCode_street (s : State) (c k o : Nat) : (s.strayCode c k o).street = s.street := by
  unfold State.strayCode
  exact (State.wr_street _ _ _).trans (State.fsat_street _ _ _ _)
@[simp] theorem State.strayCode_blvd (s : State) (c k o : Nat) : (s.strayCode c k o).blvd = s.blvd := by
  unfold State.strayCode
  exact (State.wr_blvd _ _ _).trans (State.fsat_blvd _ _ _ _)
@[simp] theorem State.strayCode_bell (s : State) (c k o : Nat) : (s.strayCode c k o).bell = s.bell := by
  unfold State.strayCode
  exact (State.wr_bell _ _ _).trans (State.fsat_bell _ _ _ _)
@[simp] theorem State.strayCode_stall (s : State) (c k o : Nat) : (s.strayCode c k o).stall = s.stall := by
  unfold State.strayCode
  exact (State.wr_stall _ _ _).trans (State.fsat_stall _ _ _ _)
@[simp] theorem State.strayCode_porter (s : State) (c k o : Nat) : (s.strayCode c k o).porter = s.porter := by
  unfold State.strayCode
  exact (State.wr_porter _ _ _).trans (State.fsat_porter _ _ _ _)
@[simp] theorem State.strayCode_cw (s : State) (c k o : Nat) : (s.strayCode c k o).cw = s.cw := by
  unfold State.strayCode
  exact (State.wr_cw _ _ _).trans (State.fsat_cw _ _ _ _)
@[simp] theorem State.strayCode_xim (s : State) (c k o : Nat) : (s.strayCode c k o).xim = s.xim := by
  unfold State.strayCode
  exact (State.wr_xim _ _ _).trans (State.fsat_xim _ _ _ _)
@[simp] theorem State.strayCode_cash (s : State) (c k o : Nat) : (s.strayCode c k o).cash = s.cash := by
  unfold State.strayCode
  exact (State.wr_cash _ _ _).trans (State.fsat_cash _ _ _ _)
@[simp] theorem State.strayCode_eth (s : State) (c k o : Nat) : (s.strayCode c k o).eth = s.eth := by
  unfold State.strayCode
  exact (State.wr_eth _ _ _).trans (State.fsat_eth _ _ _ _)
@[simp] theorem State.strayCode_carter (s : State) (c k o : Nat) : (s.strayCode c k o).carter = s.carter := by
  unfold State.strayCode
  exact (State.wr_carter _ _ _).trans (State.fsat_carter _ _ _ _)
@[simp] theorem State.strayCode_ledger (s : State) (c k o : Nat) : (s.strayCode c k o).ledger = s.ledger := by
  unfold State.strayCode
  exact (State.wr_ledger _ _ _).trans (State.fsat_ledger _ _ _ _)
@[simp] theorem State.strayCode_host (s : State) (c k o : Nat) : (s.strayCode c k o).host = s.host := by
  unfold State.strayCode
  exact (State.wr_host _ _ _).trans (State.fsat_host _ _ _ _)
@[simp] theorem State.strayCode_cores (s : State) (c k o : Nat) : (s.strayCode c k o).cores = s.cores := by
  unfold State.strayCode
  exact (State.wr_cores _ _ _).trans (State.fsat_cores _ _ _ _)
@[simp] theorem State.strayCode_senders (s : State) (c k o : Nat) : (s.strayCode c k o).senders = s.senders := by
  unfold State.strayCode
  exact (State.wr_senders _ _ _).trans (State.fsat_senders _ _ _ _)
@[simp] theorem State.strayCode_sampleSeq (s : State) (c k o : Nat) : (s.strayCode c k o).sampleSeq = s.sampleSeq := by
  unfold State.strayCode
  exact (State.wr_sampleSeq _ _ _).trans (State.fsat_sampleSeq _ _ _ _)
@[simp] theorem State.strayCode_fw (s : State) (c k o : Nat) : (s.strayCode c k o).fw = s.fw := by
  unfold State.strayCode
  exact (State.wr_fw _ _ _).trans (State.fsat_fw _ _ _ _)
@[simp] theorem State.strayCode_sec (s : State) (c k o : Nat) : (s.strayCode c k o).sec = s.sec := by
  unfold State.strayCode
  exact (State.wr_sec _ _ _).trans (State.fsat_sec _ _ _ _)
@[simp] theorem State.strayCode_boot (s : State) (c k o : Nat) : (s.strayCode c k o).boot = s.boot := by
  unfold State.strayCode
  exact (State.wr_boot _ _ _).trans (State.fsat_boot _ _ _ _)
@[simp] theorem State.strayCode_pwr (s : State) (c k o : Nat) : (s.strayCode c k o).pwr = s.pwr := by
  unfold State.strayCode
  exact (State.wr_pwr _ _ _).trans (State.fsat_pwr _ _ _ _)
@[simp] theorem State.strayCode_side (s : State) (c k o : Nat) : (s.strayCode c k o).side = s.side := by
  unfold State.strayCode
  exact (State.wr_side _ _ _).trans (State.fsat_side _ _ _ _)
@[simp] theorem State.strayCode_inv (s : State) (c k o : Nat) : (s.strayCode c k o).inv = s.inv := by
  unfold State.strayCode
  exact (State.wr_inv _ _ _).trans (State.fsat_inv _ _ _ _)

@[simp] theorem State.refuse_pending (s : State) (rq : Requester) (r : Reg) : (s.refuse rq r).pending = s.pending := State.strayCode_pending _ _ _ _
@[simp] theorem State.refuse_tick (s : State) (rq : Requester) (r : Reg) : (s.refuse rq r).tick = s.tick := State.strayCode_tick _ _ _ _
@[simp] theorem State.refuse_fresh (s : State) (rq : Requester) (r : Reg) : (s.refuse rq r).fresh = s.fresh := State.strayCode_fresh _ _ _ _
@[simp] theorem State.refuse_out (s : State) (rq : Requester) (r : Reg) : (s.refuse rq r).out = s.out := State.strayCode_out _ _ _ _
@[simp] theorem State.refuse_err (s : State) (rq : Requester) (r : Reg) : (s.refuse rq r).err = s.err := State.strayCode_err _ _ _ _
@[simp] theorem State.refuse_home (s : State) (rq : Requester) (r : Reg) : (s.refuse rq r).home = s.home := State.strayCode_home _ _ _ _
@[simp] theorem State.refuse_surv (s : State) (rq : Requester) (r : Reg) : (s.refuse rq r).surv = s.surv := State.strayCode_surv _ _ _ _
@[simp] theorem State.refuse_street (s : State) (rq : Requester) (r : Reg) : (s.refuse rq r).street = s.street := State.strayCode_street _ _ _ _
@[simp] theorem State.refuse_blvd (s : State) (rq : Requester) (r : Reg) : (s.refuse rq r).blvd = s.blvd := State.strayCode_blvd _ _ _ _
@[simp] theorem State.refuse_bell (s : State) (rq : Requester) (r : Reg) : (s.refuse rq r).bell = s.bell := State.strayCode_bell _ _ _ _
@[simp] theorem State.refuse_stall (s : State) (rq : Requester) (r : Reg) : (s.refuse rq r).stall = s.stall := State.strayCode_stall _ _ _ _
@[simp] theorem State.refuse_porter (s : State) (rq : Requester) (r : Reg) : (s.refuse rq r).porter = s.porter := State.strayCode_porter _ _ _ _
@[simp] theorem State.refuse_cw (s : State) (rq : Requester) (r : Reg) : (s.refuse rq r).cw = s.cw := State.strayCode_cw _ _ _ _
@[simp] theorem State.refuse_xim (s : State) (rq : Requester) (r : Reg) : (s.refuse rq r).xim = s.xim := State.strayCode_xim _ _ _ _
@[simp] theorem State.refuse_cash (s : State) (rq : Requester) (r : Reg) : (s.refuse rq r).cash = s.cash := State.strayCode_cash _ _ _ _
@[simp] theorem State.refuse_eth (s : State) (rq : Requester) (r : Reg) : (s.refuse rq r).eth = s.eth := State.strayCode_eth _ _ _ _
@[simp] theorem State.refuse_carter (s : State) (rq : Requester) (r : Reg) : (s.refuse rq r).carter = s.carter := State.strayCode_carter _ _ _ _
@[simp] theorem State.refuse_ledger (s : State) (rq : Requester) (r : Reg) : (s.refuse rq r).ledger = s.ledger := State.strayCode_ledger _ _ _ _
@[simp] theorem State.refuse_host (s : State) (rq : Requester) (r : Reg) : (s.refuse rq r).host = s.host := State.strayCode_host _ _ _ _
@[simp] theorem State.refuse_cores (s : State) (rq : Requester) (r : Reg) : (s.refuse rq r).cores = s.cores := State.strayCode_cores _ _ _ _
@[simp] theorem State.refuse_senders (s : State) (rq : Requester) (r : Reg) : (s.refuse rq r).senders = s.senders := State.strayCode_senders _ _ _ _
@[simp] theorem State.refuse_sampleSeq (s : State) (rq : Requester) (r : Reg) : (s.refuse rq r).sampleSeq = s.sampleSeq := State.strayCode_sampleSeq _ _ _ _
@[simp] theorem State.refuse_fw (s : State) (rq : Requester) (r : Reg) : (s.refuse rq r).fw = s.fw := State.strayCode_fw _ _ _ _
@[simp] theorem State.refuse_sec (s : State) (rq : Requester) (r : Reg) : (s.refuse rq r).sec = s.sec := State.strayCode_sec _ _ _ _
@[simp] theorem State.refuse_boot (s : State) (rq : Requester) (r : Reg) : (s.refuse rq r).boot = s.boot := State.strayCode_boot _ _ _ _
@[simp] theorem State.refuse_pwr (s : State) (rq : Requester) (r : Reg) : (s.refuse rq r).pwr = s.pwr := State.strayCode_pwr _ _ _ _
@[simp] theorem State.refuse_side (s : State) (rq : Requester) (r : Reg) : (s.refuse rq r).side = s.side := State.strayCode_side _ _ _ _
@[simp] theorem State.refuse_inv (s : State) (rq : Requester) (r : Reg) : (s.refuse rq r).inv = s.inv := State.strayCode_inv _ _ _ _

@[simp] theorem State.pokeByte_pending (s : State) (a : Nat) (b : Byte) : (s.pokeByte a b).pending = s.pending := (rfl)
@[simp] theorem State.pokeByte_tick (s : State) (a : Nat) (b : Byte) : (s.pokeByte a b).tick = s.tick := (rfl)
@[simp] theorem State.pokeByte_fresh (s : State) (a : Nat) (b : Byte) : (s.pokeByte a b).fresh = s.fresh := (rfl)
@[simp] theorem State.pokeByte_out (s : State) (a : Nat) (b : Byte) : (s.pokeByte a b).out = s.out := (rfl)
@[simp] theorem State.pokeByte_regs (s : State) (a : Nat) (b : Byte) : (s.pokeByte a b).regs = s.regs := (rfl)
@[simp] theorem State.pokeByte_err (s : State) (a : Nat) (b : Byte) : (s.pokeByte a b).err = s.err := (rfl)
@[simp] theorem State.pokeByte_surv (s : State) (a : Nat) (b : Byte) : (s.pokeByte a b).surv = s.surv := (rfl)
@[simp] theorem State.pokeByte_street (s : State) (a : Nat) (b : Byte) : (s.pokeByte a b).street = s.street := (rfl)
@[simp] theorem State.pokeByte_blvd (s : State) (a : Nat) (b : Byte) : (s.pokeByte a b).blvd = s.blvd := (rfl)
@[simp] theorem State.pokeByte_bell (s : State) (a : Nat) (b : Byte) : (s.pokeByte a b).bell = s.bell := (rfl)
@[simp] theorem State.pokeByte_stall (s : State) (a : Nat) (b : Byte) : (s.pokeByte a b).stall = s.stall := (rfl)
@[simp] theorem State.pokeByte_porter (s : State) (a : Nat) (b : Byte) : (s.pokeByte a b).porter = s.porter := (rfl)
@[simp] theorem State.pokeByte_cw (s : State) (a : Nat) (b : Byte) : (s.pokeByte a b).cw = s.cw := (rfl)
@[simp] theorem State.pokeByte_xim (s : State) (a : Nat) (b : Byte) : (s.pokeByte a b).xim = s.xim := (rfl)
@[simp] theorem State.pokeByte_cash (s : State) (a : Nat) (b : Byte) : (s.pokeByte a b).cash = s.cash := (rfl)
@[simp] theorem State.pokeByte_eth (s : State) (a : Nat) (b : Byte) : (s.pokeByte a b).eth = s.eth := (rfl)
@[simp] theorem State.pokeByte_carter (s : State) (a : Nat) (b : Byte) : (s.pokeByte a b).carter = s.carter := (rfl)
@[simp] theorem State.pokeByte_ledger (s : State) (a : Nat) (b : Byte) : (s.pokeByte a b).ledger = s.ledger := (rfl)
@[simp] theorem State.pokeByte_host (s : State) (a : Nat) (b : Byte) : (s.pokeByte a b).host = s.host := (rfl)
@[simp] theorem State.pokeByte_cores (s : State) (a : Nat) (b : Byte) : (s.pokeByte a b).cores = s.cores := (rfl)
@[simp] theorem State.pokeByte_senders (s : State) (a : Nat) (b : Byte) : (s.pokeByte a b).senders = s.senders := (rfl)
@[simp] theorem State.pokeByte_sampleSeq (s : State) (a : Nat) (b : Byte) : (s.pokeByte a b).sampleSeq = s.sampleSeq := (rfl)
@[simp] theorem State.pokeByte_fw (s : State) (a : Nat) (b : Byte) : (s.pokeByte a b).fw = s.fw := (rfl)
@[simp] theorem State.pokeByte_sec (s : State) (a : Nat) (b : Byte) : (s.pokeByte a b).sec = s.sec := (rfl)
@[simp] theorem State.pokeByte_boot (s : State) (a : Nat) (b : Byte) : (s.pokeByte a b).boot = s.boot := (rfl)
@[simp] theorem State.pokeByte_pwr (s : State) (a : Nat) (b : Byte) : (s.pokeByte a b).pwr = s.pwr := (rfl)
@[simp] theorem State.pokeByte_side (s : State) (a : Nat) (b : Byte) : (s.pokeByte a b).side = s.side := (rfl)
@[simp] theorem State.pokeByte_inv (s : State) (a : Nat) (b : Byte) : (s.pokeByte a b).inv = s.inv := (rfl)

@[simp] theorem State.markLine_pending (s : State) (a : Nat) : (s.markLine a).pending = s.pending := (rfl)
@[simp] theorem State.markLine_tick (s : State) (a : Nat) : (s.markLine a).tick = s.tick := (rfl)
@[simp] theorem State.markLine_fresh (s : State) (a : Nat) : (s.markLine a).fresh = s.fresh := (rfl)
@[simp] theorem State.markLine_out (s : State) (a : Nat) : (s.markLine a).out = s.out := (rfl)
@[simp] theorem State.markLine_regs (s : State) (a : Nat) : (s.markLine a).regs = s.regs := (rfl)
@[simp] theorem State.markLine_err (s : State) (a : Nat) : (s.markLine a).err = s.err := (rfl)
@[simp] theorem State.markLine_surv (s : State) (a : Nat) : (s.markLine a).surv = s.surv := (rfl)
@[simp] theorem State.markLine_street (s : State) (a : Nat) : (s.markLine a).street = s.street := (rfl)
@[simp] theorem State.markLine_blvd (s : State) (a : Nat) : (s.markLine a).blvd = s.blvd := (rfl)
@[simp] theorem State.markLine_bell (s : State) (a : Nat) : (s.markLine a).bell = s.bell := (rfl)
@[simp] theorem State.markLine_stall (s : State) (a : Nat) : (s.markLine a).stall = s.stall := (rfl)
@[simp] theorem State.markLine_porter (s : State) (a : Nat) : (s.markLine a).porter = s.porter := (rfl)
@[simp] theorem State.markLine_cw (s : State) (a : Nat) : (s.markLine a).cw = s.cw := (rfl)
@[simp] theorem State.markLine_xim (s : State) (a : Nat) : (s.markLine a).xim = s.xim := (rfl)
@[simp] theorem State.markLine_cash (s : State) (a : Nat) : (s.markLine a).cash = s.cash := (rfl)
@[simp] theorem State.markLine_eth (s : State) (a : Nat) : (s.markLine a).eth = s.eth := (rfl)
@[simp] theorem State.markLine_carter (s : State) (a : Nat) : (s.markLine a).carter = s.carter := (rfl)
@[simp] theorem State.markLine_ledger (s : State) (a : Nat) : (s.markLine a).ledger = s.ledger := (rfl)
@[simp] theorem State.markLine_host (s : State) (a : Nat) : (s.markLine a).host = s.host := (rfl)
@[simp] theorem State.markLine_cores (s : State) (a : Nat) : (s.markLine a).cores = s.cores := (rfl)
@[simp] theorem State.markLine_senders (s : State) (a : Nat) : (s.markLine a).senders = s.senders := (rfl)
@[simp] theorem State.markLine_sampleSeq (s : State) (a : Nat) : (s.markLine a).sampleSeq = s.sampleSeq := (rfl)
@[simp] theorem State.markLine_fw (s : State) (a : Nat) : (s.markLine a).fw = s.fw := (rfl)
@[simp] theorem State.markLine_sec (s : State) (a : Nat) : (s.markLine a).sec = s.sec := (rfl)
@[simp] theorem State.markLine_boot (s : State) (a : Nat) : (s.markLine a).boot = s.boot := (rfl)
@[simp] theorem State.markLine_pwr (s : State) (a : Nat) : (s.markLine a).pwr = s.pwr := (rfl)
@[simp] theorem State.markLine_side (s : State) (a : Nat) : (s.markLine a).side = s.side := (rfl)
@[simp] theorem State.markLine_inv (s : State) (a : Nat) : (s.markLine a).inv = s.inv := (rfl)

@[simp] theorem State.unmarkLine_pending (s : State) (a : Nat) : (s.unmarkLine a).pending = s.pending := (rfl)
@[simp] theorem State.unmarkLine_tick (s : State) (a : Nat) : (s.unmarkLine a).tick = s.tick := (rfl)
@[simp] theorem State.unmarkLine_fresh (s : State) (a : Nat) : (s.unmarkLine a).fresh = s.fresh := (rfl)
@[simp] theorem State.unmarkLine_out (s : State) (a : Nat) : (s.unmarkLine a).out = s.out := (rfl)
@[simp] theorem State.unmarkLine_regs (s : State) (a : Nat) : (s.unmarkLine a).regs = s.regs := (rfl)
@[simp] theorem State.unmarkLine_err (s : State) (a : Nat) : (s.unmarkLine a).err = s.err := (rfl)
@[simp] theorem State.unmarkLine_surv (s : State) (a : Nat) : (s.unmarkLine a).surv = s.surv := (rfl)
@[simp] theorem State.unmarkLine_street (s : State) (a : Nat) : (s.unmarkLine a).street = s.street := (rfl)
@[simp] theorem State.unmarkLine_blvd (s : State) (a : Nat) : (s.unmarkLine a).blvd = s.blvd := (rfl)
@[simp] theorem State.unmarkLine_bell (s : State) (a : Nat) : (s.unmarkLine a).bell = s.bell := (rfl)
@[simp] theorem State.unmarkLine_stall (s : State) (a : Nat) : (s.unmarkLine a).stall = s.stall := (rfl)
@[simp] theorem State.unmarkLine_porter (s : State) (a : Nat) : (s.unmarkLine a).porter = s.porter := (rfl)
@[simp] theorem State.unmarkLine_cw (s : State) (a : Nat) : (s.unmarkLine a).cw = s.cw := (rfl)
@[simp] theorem State.unmarkLine_xim (s : State) (a : Nat) : (s.unmarkLine a).xim = s.xim := (rfl)
@[simp] theorem State.unmarkLine_cash (s : State) (a : Nat) : (s.unmarkLine a).cash = s.cash := (rfl)
@[simp] theorem State.unmarkLine_eth (s : State) (a : Nat) : (s.unmarkLine a).eth = s.eth := (rfl)
@[simp] theorem State.unmarkLine_carter (s : State) (a : Nat) : (s.unmarkLine a).carter = s.carter := (rfl)
@[simp] theorem State.unmarkLine_ledger (s : State) (a : Nat) : (s.unmarkLine a).ledger = s.ledger := (rfl)
@[simp] theorem State.unmarkLine_host (s : State) (a : Nat) : (s.unmarkLine a).host = s.host := (rfl)
@[simp] theorem State.unmarkLine_cores (s : State) (a : Nat) : (s.unmarkLine a).cores = s.cores := (rfl)
@[simp] theorem State.unmarkLine_senders (s : State) (a : Nat) : (s.unmarkLine a).senders = s.senders := (rfl)
@[simp] theorem State.unmarkLine_sampleSeq (s : State) (a : Nat) : (s.unmarkLine a).sampleSeq = s.sampleSeq := (rfl)
@[simp] theorem State.unmarkLine_fw (s : State) (a : Nat) : (s.unmarkLine a).fw = s.fw := (rfl)
@[simp] theorem State.unmarkLine_sec (s : State) (a : Nat) : (s.unmarkLine a).sec = s.sec := (rfl)
@[simp] theorem State.unmarkLine_boot (s : State) (a : Nat) : (s.unmarkLine a).boot = s.boot := (rfl)
@[simp] theorem State.unmarkLine_pwr (s : State) (a : Nat) : (s.unmarkLine a).pwr = s.pwr := (rfl)
@[simp] theorem State.unmarkLine_side (s : State) (a : Nat) : (s.unmarkLine a).side = s.side := (rfl)
@[simp] theorem State.unmarkLine_inv (s : State) (a : Nat) : (s.unmarkLine a).inv = s.inv := (rfl)

@[simp] theorem State.setCore_pending (s : State) (n : Nat) (c : Core) : (s.setCore n c).pending = s.pending := (rfl)
@[simp] theorem State.setCore_tick (s : State) (n : Nat) (c : Core) : (s.setCore n c).tick = s.tick := (rfl)
@[simp] theorem State.setCore_fresh (s : State) (n : Nat) (c : Core) : (s.setCore n c).fresh = s.fresh := (rfl)
@[simp] theorem State.setCore_out (s : State) (n : Nat) (c : Core) : (s.setCore n c).out = s.out := (rfl)
@[simp] theorem State.setCore_regs (s : State) (n : Nat) (c : Core) : (s.setCore n c).regs = s.regs := (rfl)
@[simp] theorem State.setCore_err (s : State) (n : Nat) (c : Core) : (s.setCore n c).err = s.err := (rfl)
@[simp] theorem State.setCore_home (s : State) (n : Nat) (c : Core) : (s.setCore n c).home = s.home := (rfl)
@[simp] theorem State.setCore_surv (s : State) (n : Nat) (c : Core) : (s.setCore n c).surv = s.surv := (rfl)
@[simp] theorem State.setCore_street (s : State) (n : Nat) (c : Core) : (s.setCore n c).street = s.street := (rfl)
@[simp] theorem State.setCore_blvd (s : State) (n : Nat) (c : Core) : (s.setCore n c).blvd = s.blvd := (rfl)
@[simp] theorem State.setCore_bell (s : State) (n : Nat) (c : Core) : (s.setCore n c).bell = s.bell := (rfl)
@[simp] theorem State.setCore_stall (s : State) (n : Nat) (c : Core) : (s.setCore n c).stall = s.stall := (rfl)
@[simp] theorem State.setCore_porter (s : State) (n : Nat) (c : Core) : (s.setCore n c).porter = s.porter := (rfl)
@[simp] theorem State.setCore_cw (s : State) (n : Nat) (c : Core) : (s.setCore n c).cw = s.cw := (rfl)
@[simp] theorem State.setCore_xim (s : State) (n : Nat) (c : Core) : (s.setCore n c).xim = s.xim := (rfl)
@[simp] theorem State.setCore_cash (s : State) (n : Nat) (c : Core) : (s.setCore n c).cash = s.cash := (rfl)
@[simp] theorem State.setCore_eth (s : State) (n : Nat) (c : Core) : (s.setCore n c).eth = s.eth := (rfl)
@[simp] theorem State.setCore_carter (s : State) (n : Nat) (c : Core) : (s.setCore n c).carter = s.carter := (rfl)
@[simp] theorem State.setCore_ledger (s : State) (n : Nat) (c : Core) : (s.setCore n c).ledger = s.ledger := (rfl)
@[simp] theorem State.setCore_host (s : State) (n : Nat) (c : Core) : (s.setCore n c).host = s.host := (rfl)
@[simp] theorem State.setCore_senders (s : State) (n : Nat) (c : Core) : (s.setCore n c).senders = s.senders := (rfl)
@[simp] theorem State.setCore_sampleSeq (s : State) (n : Nat) (c : Core) : (s.setCore n c).sampleSeq = s.sampleSeq := (rfl)
@[simp] theorem State.setCore_fw (s : State) (n : Nat) (c : Core) : (s.setCore n c).fw = s.fw := (rfl)
@[simp] theorem State.setCore_sec (s : State) (n : Nat) (c : Core) : (s.setCore n c).sec = s.sec := (rfl)
@[simp] theorem State.setCore_boot (s : State) (n : Nat) (c : Core) : (s.setCore n c).boot = s.boot := (rfl)
@[simp] theorem State.setCore_pwr (s : State) (n : Nat) (c : Core) : (s.setCore n c).pwr = s.pwr := (rfl)
@[simp] theorem State.setCore_side (s : State) (n : Nat) (c : Core) : (s.setCore n c).side = s.side := (rfl)
@[simp] theorem State.setCore_inv (s : State) (n : Nat) (c : Core) : (s.setCore n c).inv = s.inv := (rfl)

@[simp] theorem State.raiseCore_pending (s : State) (n l : Nat) : (s.raiseCore n l).pending = s.pending := State.setCore_pending _ _ _
@[simp] theorem State.raiseCore_tick (s : State) (n l : Nat) : (s.raiseCore n l).tick = s.tick := State.setCore_tick _ _ _
@[simp] theorem State.raiseCore_fresh (s : State) (n l : Nat) : (s.raiseCore n l).fresh = s.fresh := State.setCore_fresh _ _ _
@[simp] theorem State.raiseCore_out (s : State) (n l : Nat) : (s.raiseCore n l).out = s.out := State.setCore_out _ _ _
@[simp] theorem State.raiseCore_regs (s : State) (n l : Nat) : (s.raiseCore n l).regs = s.regs := State.setCore_regs _ _ _
@[simp] theorem State.raiseCore_err (s : State) (n l : Nat) : (s.raiseCore n l).err = s.err := State.setCore_err _ _ _
@[simp] theorem State.raiseCore_home (s : State) (n l : Nat) : (s.raiseCore n l).home = s.home := State.setCore_home _ _ _
@[simp] theorem State.raiseCore_surv (s : State) (n l : Nat) : (s.raiseCore n l).surv = s.surv := State.setCore_surv _ _ _
@[simp] theorem State.raiseCore_street (s : State) (n l : Nat) : (s.raiseCore n l).street = s.street := State.setCore_street _ _ _
@[simp] theorem State.raiseCore_blvd (s : State) (n l : Nat) : (s.raiseCore n l).blvd = s.blvd := State.setCore_blvd _ _ _
@[simp] theorem State.raiseCore_bell (s : State) (n l : Nat) : (s.raiseCore n l).bell = s.bell := State.setCore_bell _ _ _
@[simp] theorem State.raiseCore_stall (s : State) (n l : Nat) : (s.raiseCore n l).stall = s.stall := State.setCore_stall _ _ _
@[simp] theorem State.raiseCore_porter (s : State) (n l : Nat) : (s.raiseCore n l).porter = s.porter := State.setCore_porter _ _ _
@[simp] theorem State.raiseCore_cw (s : State) (n l : Nat) : (s.raiseCore n l).cw = s.cw := State.setCore_cw _ _ _
@[simp] theorem State.raiseCore_xim (s : State) (n l : Nat) : (s.raiseCore n l).xim = s.xim := State.setCore_xim _ _ _
@[simp] theorem State.raiseCore_cash (s : State) (n l : Nat) : (s.raiseCore n l).cash = s.cash := State.setCore_cash _ _ _
@[simp] theorem State.raiseCore_eth (s : State) (n l : Nat) : (s.raiseCore n l).eth = s.eth := State.setCore_eth _ _ _
@[simp] theorem State.raiseCore_carter (s : State) (n l : Nat) : (s.raiseCore n l).carter = s.carter := State.setCore_carter _ _ _
@[simp] theorem State.raiseCore_ledger (s : State) (n l : Nat) : (s.raiseCore n l).ledger = s.ledger := State.setCore_ledger _ _ _
@[simp] theorem State.raiseCore_host (s : State) (n l : Nat) : (s.raiseCore n l).host = s.host := State.setCore_host _ _ _
@[simp] theorem State.raiseCore_senders (s : State) (n l : Nat) : (s.raiseCore n l).senders = s.senders := State.setCore_senders _ _ _
@[simp] theorem State.raiseCore_sampleSeq (s : State) (n l : Nat) : (s.raiseCore n l).sampleSeq = s.sampleSeq := State.setCore_sampleSeq _ _ _
@[simp] theorem State.raiseCore_fw (s : State) (n l : Nat) : (s.raiseCore n l).fw = s.fw := State.setCore_fw _ _ _
@[simp] theorem State.raiseCore_sec (s : State) (n l : Nat) : (s.raiseCore n l).sec = s.sec := State.setCore_sec _ _ _
@[simp] theorem State.raiseCore_boot (s : State) (n l : Nat) : (s.raiseCore n l).boot = s.boot := State.setCore_boot _ _ _
@[simp] theorem State.raiseCore_pwr (s : State) (n l : Nat) : (s.raiseCore n l).pwr = s.pwr := State.setCore_pwr _ _ _
@[simp] theorem State.raiseCore_side (s : State) (n l : Nat) : (s.raiseCore n l).side = s.side := State.setCore_side _ _ _
@[simp] theorem State.raiseCore_inv (s : State) (n l : Nat) : (s.raiseCore n l).inv = s.inv := State.setCore_inv _ _ _

@[simp] theorem State.setFunc_pending (s : State) (f : Nat) (x : Func) : (s.setFunc f x).pending = s.pending := (rfl)
@[simp] theorem State.setFunc_tick (s : State) (f : Nat) (x : Func) : (s.setFunc f x).tick = s.tick := (rfl)
@[simp] theorem State.setFunc_fresh (s : State) (f : Nat) (x : Func) : (s.setFunc f x).fresh = s.fresh := (rfl)
@[simp] theorem State.setFunc_out (s : State) (f : Nat) (x : Func) : (s.setFunc f x).out = s.out := (rfl)
@[simp] theorem State.setFunc_regs (s : State) (f : Nat) (x : Func) : (s.setFunc f x).regs = s.regs := (rfl)
@[simp] theorem State.setFunc_err (s : State) (f : Nat) (x : Func) : (s.setFunc f x).err = s.err := (rfl)
@[simp] theorem State.setFunc_home (s : State) (f : Nat) (x : Func) : (s.setFunc f x).home = s.home := (rfl)
@[simp] theorem State.setFunc_surv (s : State) (f : Nat) (x : Func) : (s.setFunc f x).surv = s.surv := (rfl)
@[simp] theorem State.setFunc_street (s : State) (f : Nat) (x : Func) : (s.setFunc f x).street = s.street := (rfl)
@[simp] theorem State.setFunc_blvd (s : State) (f : Nat) (x : Func) : (s.setFunc f x).blvd = s.blvd := (rfl)
@[simp] theorem State.setFunc_bell (s : State) (f : Nat) (x : Func) : (s.setFunc f x).bell = s.bell := (rfl)
@[simp] theorem State.setFunc_stall (s : State) (f : Nat) (x : Func) : (s.setFunc f x).stall = s.stall := (rfl)
@[simp] theorem State.setFunc_porter (s : State) (f : Nat) (x : Func) : (s.setFunc f x).porter = s.porter := (rfl)
@[simp] theorem State.setFunc_cw (s : State) (f : Nat) (x : Func) : (s.setFunc f x).cw = s.cw := (rfl)
@[simp] theorem State.setFunc_xim (s : State) (f : Nat) (x : Func) : (s.setFunc f x).xim = s.xim := (rfl)
@[simp] theorem State.setFunc_cash (s : State) (f : Nat) (x : Func) : (s.setFunc f x).cash = s.cash := (rfl)
@[simp] theorem State.setFunc_eth (s : State) (f : Nat) (x : Func) : (s.setFunc f x).eth = s.eth := (rfl)
@[simp] theorem State.setFunc_carter (s : State) (f : Nat) (x : Func) : (s.setFunc f x).carter = s.carter := (rfl)
@[simp] theorem State.setFunc_ledger (s : State) (f : Nat) (x : Func) : (s.setFunc f x).ledger = s.ledger := (rfl)
@[simp] theorem State.setFunc_cores (s : State) (f : Nat) (x : Func) : (s.setFunc f x).cores = s.cores := (rfl)
@[simp] theorem State.setFunc_senders (s : State) (f : Nat) (x : Func) : (s.setFunc f x).senders = s.senders := (rfl)
@[simp] theorem State.setFunc_sampleSeq (s : State) (f : Nat) (x : Func) : (s.setFunc f x).sampleSeq = s.sampleSeq := (rfl)
@[simp] theorem State.setFunc_fw (s : State) (f : Nat) (x : Func) : (s.setFunc f x).fw = s.fw := (rfl)
@[simp] theorem State.setFunc_sec (s : State) (f : Nat) (x : Func) : (s.setFunc f x).sec = s.sec := (rfl)
@[simp] theorem State.setFunc_boot (s : State) (f : Nat) (x : Func) : (s.setFunc f x).boot = s.boot := (rfl)
@[simp] theorem State.setFunc_pwr (s : State) (f : Nat) (x : Func) : (s.setFunc f x).pwr = s.pwr := (rfl)
@[simp] theorem State.setFunc_side (s : State) (f : Nat) (x : Func) : (s.setFunc f x).side = s.side := (rfl)
@[simp] theorem State.setFunc_inv (s : State) (f : Nat) (x : Func) : (s.setFunc f x).inv = s.inv := (rfl)

@[simp] theorem State.setInst_pending (s : State) (f : Nat) (x : Inst) : (s.setInst f x).pending = s.pending := State.setFunc_pending _ _ _
@[simp] theorem State.setInst_tick (s : State) (f : Nat) (x : Inst) : (s.setInst f x).tick = s.tick := State.setFunc_tick _ _ _
@[simp] theorem State.setInst_fresh (s : State) (f : Nat) (x : Inst) : (s.setInst f x).fresh = s.fresh := State.setFunc_fresh _ _ _
@[simp] theorem State.setInst_out (s : State) (f : Nat) (x : Inst) : (s.setInst f x).out = s.out := State.setFunc_out _ _ _
@[simp] theorem State.setInst_regs (s : State) (f : Nat) (x : Inst) : (s.setInst f x).regs = s.regs := State.setFunc_regs _ _ _
@[simp] theorem State.setInst_err (s : State) (f : Nat) (x : Inst) : (s.setInst f x).err = s.err := State.setFunc_err _ _ _
@[simp] theorem State.setInst_home (s : State) (f : Nat) (x : Inst) : (s.setInst f x).home = s.home := State.setFunc_home _ _ _
@[simp] theorem State.setInst_surv (s : State) (f : Nat) (x : Inst) : (s.setInst f x).surv = s.surv := State.setFunc_surv _ _ _
@[simp] theorem State.setInst_street (s : State) (f : Nat) (x : Inst) : (s.setInst f x).street = s.street := State.setFunc_street _ _ _
@[simp] theorem State.setInst_blvd (s : State) (f : Nat) (x : Inst) : (s.setInst f x).blvd = s.blvd := State.setFunc_blvd _ _ _
@[simp] theorem State.setInst_bell (s : State) (f : Nat) (x : Inst) : (s.setInst f x).bell = s.bell := State.setFunc_bell _ _ _
@[simp] theorem State.setInst_stall (s : State) (f : Nat) (x : Inst) : (s.setInst f x).stall = s.stall := State.setFunc_stall _ _ _
@[simp] theorem State.setInst_porter (s : State) (f : Nat) (x : Inst) : (s.setInst f x).porter = s.porter := State.setFunc_porter _ _ _
@[simp] theorem State.setInst_cw (s : State) (f : Nat) (x : Inst) : (s.setInst f x).cw = s.cw := State.setFunc_cw _ _ _
@[simp] theorem State.setInst_xim (s : State) (f : Nat) (x : Inst) : (s.setInst f x).xim = s.xim := State.setFunc_xim _ _ _
@[simp] theorem State.setInst_cash (s : State) (f : Nat) (x : Inst) : (s.setInst f x).cash = s.cash := State.setFunc_cash _ _ _
@[simp] theorem State.setInst_eth (s : State) (f : Nat) (x : Inst) : (s.setInst f x).eth = s.eth := State.setFunc_eth _ _ _
@[simp] theorem State.setInst_carter (s : State) (f : Nat) (x : Inst) : (s.setInst f x).carter = s.carter := State.setFunc_carter _ _ _
@[simp] theorem State.setInst_ledger (s : State) (f : Nat) (x : Inst) : (s.setInst f x).ledger = s.ledger := State.setFunc_ledger _ _ _
@[simp] theorem State.setInst_cores (s : State) (f : Nat) (x : Inst) : (s.setInst f x).cores = s.cores := State.setFunc_cores _ _ _
@[simp] theorem State.setInst_senders (s : State) (f : Nat) (x : Inst) : (s.setInst f x).senders = s.senders := State.setFunc_senders _ _ _
@[simp] theorem State.setInst_sampleSeq (s : State) (f : Nat) (x : Inst) : (s.setInst f x).sampleSeq = s.sampleSeq := State.setFunc_sampleSeq _ _ _
@[simp] theorem State.setInst_fw (s : State) (f : Nat) (x : Inst) : (s.setInst f x).fw = s.fw := State.setFunc_fw _ _ _
@[simp] theorem State.setInst_sec (s : State) (f : Nat) (x : Inst) : (s.setInst f x).sec = s.sec := State.setFunc_sec _ _ _
@[simp] theorem State.setInst_boot (s : State) (f : Nat) (x : Inst) : (s.setInst f x).boot = s.boot := State.setFunc_boot _ _ _
@[simp] theorem State.setInst_pwr (s : State) (f : Nat) (x : Inst) : (s.setInst f x).pwr = s.pwr := State.setFunc_pwr _ _ _
@[simp] theorem State.setInst_side (s : State) (f : Nat) (x : Inst) : (s.setInst f x).side = s.side := State.setFunc_side _ _ _
@[simp] theorem State.setInst_inv (s : State) (f : Nat) (x : Inst) : (s.setInst f x).inv = s.inv := State.setFunc_inv _ _ _

@[simp] theorem State.setPort_pending (s : State) (p : Nat) (x : HostPort) : (s.setPort p x).pending = s.pending := (rfl)
@[simp] theorem State.setPort_tick (s : State) (p : Nat) (x : HostPort) : (s.setPort p x).tick = s.tick := (rfl)
@[simp] theorem State.setPort_fresh (s : State) (p : Nat) (x : HostPort) : (s.setPort p x).fresh = s.fresh := (rfl)
@[simp] theorem State.setPort_out (s : State) (p : Nat) (x : HostPort) : (s.setPort p x).out = s.out := (rfl)
@[simp] theorem State.setPort_regs (s : State) (p : Nat) (x : HostPort) : (s.setPort p x).regs = s.regs := (rfl)
@[simp] theorem State.setPort_err (s : State) (p : Nat) (x : HostPort) : (s.setPort p x).err = s.err := (rfl)
@[simp] theorem State.setPort_home (s : State) (p : Nat) (x : HostPort) : (s.setPort p x).home = s.home := (rfl)
@[simp] theorem State.setPort_surv (s : State) (p : Nat) (x : HostPort) : (s.setPort p x).surv = s.surv := (rfl)
@[simp] theorem State.setPort_street (s : State) (p : Nat) (x : HostPort) : (s.setPort p x).street = s.street := (rfl)
@[simp] theorem State.setPort_blvd (s : State) (p : Nat) (x : HostPort) : (s.setPort p x).blvd = s.blvd := (rfl)
@[simp] theorem State.setPort_bell (s : State) (p : Nat) (x : HostPort) : (s.setPort p x).bell = s.bell := (rfl)
@[simp] theorem State.setPort_stall (s : State) (p : Nat) (x : HostPort) : (s.setPort p x).stall = s.stall := (rfl)
@[simp] theorem State.setPort_porter (s : State) (p : Nat) (x : HostPort) : (s.setPort p x).porter = s.porter := (rfl)
@[simp] theorem State.setPort_cw (s : State) (p : Nat) (x : HostPort) : (s.setPort p x).cw = s.cw := (rfl)
@[simp] theorem State.setPort_xim (s : State) (p : Nat) (x : HostPort) : (s.setPort p x).xim = s.xim := (rfl)
@[simp] theorem State.setPort_cash (s : State) (p : Nat) (x : HostPort) : (s.setPort p x).cash = s.cash := (rfl)
@[simp] theorem State.setPort_eth (s : State) (p : Nat) (x : HostPort) : (s.setPort p x).eth = s.eth := (rfl)
@[simp] theorem State.setPort_carter (s : State) (p : Nat) (x : HostPort) : (s.setPort p x).carter = s.carter := (rfl)
@[simp] theorem State.setPort_ledger (s : State) (p : Nat) (x : HostPort) : (s.setPort p x).ledger = s.ledger := (rfl)
@[simp] theorem State.setPort_cores (s : State) (p : Nat) (x : HostPort) : (s.setPort p x).cores = s.cores := (rfl)
@[simp] theorem State.setPort_senders (s : State) (p : Nat) (x : HostPort) : (s.setPort p x).senders = s.senders := (rfl)
@[simp] theorem State.setPort_sampleSeq (s : State) (p : Nat) (x : HostPort) : (s.setPort p x).sampleSeq = s.sampleSeq := (rfl)
@[simp] theorem State.setPort_fw (s : State) (p : Nat) (x : HostPort) : (s.setPort p x).fw = s.fw := (rfl)
@[simp] theorem State.setPort_sec (s : State) (p : Nat) (x : HostPort) : (s.setPort p x).sec = s.sec := (rfl)
@[simp] theorem State.setPort_boot (s : State) (p : Nat) (x : HostPort) : (s.setPort p x).boot = s.boot := (rfl)
@[simp] theorem State.setPort_pwr (s : State) (p : Nat) (x : HostPort) : (s.setPort p x).pwr = s.pwr := (rfl)
@[simp] theorem State.setPort_side (s : State) (p : Nat) (x : HostPort) : (s.setPort p x).side = s.side := (rfl)
@[simp] theorem State.setPort_inv (s : State) (p : Nat) (x : HostPort) : (s.setPort p x).inv = s.inv := (rfl)

@[simp] theorem State.postMsg_pending (s : State) (f : Nat) (m : Bytes) : (s.postMsg f m).pending = s.pending := State.setFunc_pending _ _ _
@[simp] theorem State.postMsg_tick (s : State) (f : Nat) (m : Bytes) : (s.postMsg f m).tick = s.tick := State.setFunc_tick _ _ _
@[simp] theorem State.postMsg_fresh (s : State) (f : Nat) (m : Bytes) : (s.postMsg f m).fresh = s.fresh := State.setFunc_fresh _ _ _
@[simp] theorem State.postMsg_out (s : State) (f : Nat) (m : Bytes) : (s.postMsg f m).out = s.out := State.setFunc_out _ _ _
@[simp] theorem State.postMsg_regs (s : State) (f : Nat) (m : Bytes) : (s.postMsg f m).regs = s.regs := State.setFunc_regs _ _ _
@[simp] theorem State.postMsg_err (s : State) (f : Nat) (m : Bytes) : (s.postMsg f m).err = s.err := State.setFunc_err _ _ _
@[simp] theorem State.postMsg_home (s : State) (f : Nat) (m : Bytes) : (s.postMsg f m).home = s.home := State.setFunc_home _ _ _
@[simp] theorem State.postMsg_surv (s : State) (f : Nat) (m : Bytes) : (s.postMsg f m).surv = s.surv := State.setFunc_surv _ _ _
@[simp] theorem State.postMsg_street (s : State) (f : Nat) (m : Bytes) : (s.postMsg f m).street = s.street := State.setFunc_street _ _ _
@[simp] theorem State.postMsg_blvd (s : State) (f : Nat) (m : Bytes) : (s.postMsg f m).blvd = s.blvd := State.setFunc_blvd _ _ _
@[simp] theorem State.postMsg_bell (s : State) (f : Nat) (m : Bytes) : (s.postMsg f m).bell = s.bell := State.setFunc_bell _ _ _
@[simp] theorem State.postMsg_stall (s : State) (f : Nat) (m : Bytes) : (s.postMsg f m).stall = s.stall := State.setFunc_stall _ _ _
@[simp] theorem State.postMsg_porter (s : State) (f : Nat) (m : Bytes) : (s.postMsg f m).porter = s.porter := State.setFunc_porter _ _ _
@[simp] theorem State.postMsg_cw (s : State) (f : Nat) (m : Bytes) : (s.postMsg f m).cw = s.cw := State.setFunc_cw _ _ _
@[simp] theorem State.postMsg_xim (s : State) (f : Nat) (m : Bytes) : (s.postMsg f m).xim = s.xim := State.setFunc_xim _ _ _
@[simp] theorem State.postMsg_cash (s : State) (f : Nat) (m : Bytes) : (s.postMsg f m).cash = s.cash := State.setFunc_cash _ _ _
@[simp] theorem State.postMsg_eth (s : State) (f : Nat) (m : Bytes) : (s.postMsg f m).eth = s.eth := State.setFunc_eth _ _ _
@[simp] theorem State.postMsg_carter (s : State) (f : Nat) (m : Bytes) : (s.postMsg f m).carter = s.carter := State.setFunc_carter _ _ _
@[simp] theorem State.postMsg_ledger (s : State) (f : Nat) (m : Bytes) : (s.postMsg f m).ledger = s.ledger := State.setFunc_ledger _ _ _
@[simp] theorem State.postMsg_cores (s : State) (f : Nat) (m : Bytes) : (s.postMsg f m).cores = s.cores := State.setFunc_cores _ _ _
@[simp] theorem State.postMsg_senders (s : State) (f : Nat) (m : Bytes) : (s.postMsg f m).senders = s.senders := State.setFunc_senders _ _ _
@[simp] theorem State.postMsg_sampleSeq (s : State) (f : Nat) (m : Bytes) : (s.postMsg f m).sampleSeq = s.sampleSeq := State.setFunc_sampleSeq _ _ _
@[simp] theorem State.postMsg_fw (s : State) (f : Nat) (m : Bytes) : (s.postMsg f m).fw = s.fw := State.setFunc_fw _ _ _
@[simp] theorem State.postMsg_sec (s : State) (f : Nat) (m : Bytes) : (s.postMsg f m).sec = s.sec := State.setFunc_sec _ _ _
@[simp] theorem State.postMsg_boot (s : State) (f : Nat) (m : Bytes) : (s.postMsg f m).boot = s.boot := State.setFunc_boot _ _ _
@[simp] theorem State.postMsg_pwr (s : State) (f : Nat) (m : Bytes) : (s.postMsg f m).pwr = s.pwr := State.setFunc_pwr _ _ _
@[simp] theorem State.postMsg_side (s : State) (f : Nat) (m : Bytes) : (s.postMsg f m).side = s.side := State.setFunc_side _ _ _
@[simp] theorem State.postMsg_inv (s : State) (f : Nat) (m : Bytes) : (s.postMsg f m).inv = s.inv := State.setFunc_inv _ _ _

@[simp] theorem State.poke_pending (s : State) (a : Nat) (bs : Bytes) : (s.poke a bs).pending = s.pending := by
  induction bs generalizing s a with
  | nil => rfl
  | cons b bs ih => exact (ih _ _).trans (State.pokeByte_pending _ _ _)
@[simp] theorem State.poke_tick (s : State) (a : Nat) (bs : Bytes) : (s.poke a bs).tick = s.tick := by
  induction bs generalizing s a with
  | nil => rfl
  | cons b bs ih => exact (ih _ _).trans (State.pokeByte_tick _ _ _)
@[simp] theorem State.poke_fresh (s : State) (a : Nat) (bs : Bytes) : (s.poke a bs).fresh = s.fresh := by
  induction bs generalizing s a with
  | nil => rfl
  | cons b bs ih => exact (ih _ _).trans (State.pokeByte_fresh _ _ _)
@[simp] theorem State.poke_out (s : State) (a : Nat) (bs : Bytes) : (s.poke a bs).out = s.out := by
  induction bs generalizing s a with
  | nil => rfl
  | cons b bs ih => exact (ih _ _).trans (State.pokeByte_out _ _ _)
@[simp] theorem State.poke_regs (s : State) (a : Nat) (bs : Bytes) : (s.poke a bs).regs = s.regs := by
  induction bs generalizing s a with
  | nil => rfl
  | cons b bs ih => exact (ih _ _).trans (State.pokeByte_regs _ _ _)
@[simp] theorem State.poke_err (s : State) (a : Nat) (bs : Bytes) : (s.poke a bs).err = s.err := by
  induction bs generalizing s a with
  | nil => rfl
  | cons b bs ih => exact (ih _ _).trans (State.pokeByte_err _ _ _)
@[simp] theorem State.poke_surv (s : State) (a : Nat) (bs : Bytes) : (s.poke a bs).surv = s.surv := by
  induction bs generalizing s a with
  | nil => rfl
  | cons b bs ih => exact (ih _ _).trans (State.pokeByte_surv _ _ _)
@[simp] theorem State.poke_street (s : State) (a : Nat) (bs : Bytes) : (s.poke a bs).street = s.street := by
  induction bs generalizing s a with
  | nil => rfl
  | cons b bs ih => exact (ih _ _).trans (State.pokeByte_street _ _ _)
@[simp] theorem State.poke_blvd (s : State) (a : Nat) (bs : Bytes) : (s.poke a bs).blvd = s.blvd := by
  induction bs generalizing s a with
  | nil => rfl
  | cons b bs ih => exact (ih _ _).trans (State.pokeByte_blvd _ _ _)
@[simp] theorem State.poke_bell (s : State) (a : Nat) (bs : Bytes) : (s.poke a bs).bell = s.bell := by
  induction bs generalizing s a with
  | nil => rfl
  | cons b bs ih => exact (ih _ _).trans (State.pokeByte_bell _ _ _)
@[simp] theorem State.poke_stall (s : State) (a : Nat) (bs : Bytes) : (s.poke a bs).stall = s.stall := by
  induction bs generalizing s a with
  | nil => rfl
  | cons b bs ih => exact (ih _ _).trans (State.pokeByte_stall _ _ _)
@[simp] theorem State.poke_porter (s : State) (a : Nat) (bs : Bytes) : (s.poke a bs).porter = s.porter := by
  induction bs generalizing s a with
  | nil => rfl
  | cons b bs ih => exact (ih _ _).trans (State.pokeByte_porter _ _ _)
@[simp] theorem State.poke_cw (s : State) (a : Nat) (bs : Bytes) : (s.poke a bs).cw = s.cw := by
  induction bs generalizing s a with
  | nil => rfl
  | cons b bs ih => exact (ih _ _).trans (State.pokeByte_cw _ _ _)
@[simp] theorem State.poke_xim (s : State) (a : Nat) (bs : Bytes) : (s.poke a bs).xim = s.xim := by
  induction bs generalizing s a with
  | nil => rfl
  | cons b bs ih => exact (ih _ _).trans (State.pokeByte_xim _ _ _)
@[simp] theorem State.poke_cash (s : State) (a : Nat) (bs : Bytes) : (s.poke a bs).cash = s.cash := by
  induction bs generalizing s a with
  | nil => rfl
  | cons b bs ih => exact (ih _ _).trans (State.pokeByte_cash _ _ _)
@[simp] theorem State.poke_eth (s : State) (a : Nat) (bs : Bytes) : (s.poke a bs).eth = s.eth := by
  induction bs generalizing s a with
  | nil => rfl
  | cons b bs ih => exact (ih _ _).trans (State.pokeByte_eth _ _ _)
@[simp] theorem State.poke_carter (s : State) (a : Nat) (bs : Bytes) : (s.poke a bs).carter = s.carter := by
  induction bs generalizing s a with
  | nil => rfl
  | cons b bs ih => exact (ih _ _).trans (State.pokeByte_carter _ _ _)
@[simp] theorem State.poke_ledger (s : State) (a : Nat) (bs : Bytes) : (s.poke a bs).ledger = s.ledger := by
  induction bs generalizing s a with
  | nil => rfl
  | cons b bs ih => exact (ih _ _).trans (State.pokeByte_ledger _ _ _)
@[simp] theorem State.poke_host (s : State) (a : Nat) (bs : Bytes) : (s.poke a bs).host = s.host := by
  induction bs generalizing s a with
  | nil => rfl
  | cons b bs ih => exact (ih _ _).trans (State.pokeByte_host _ _ _)
@[simp] theorem State.poke_cores (s : State) (a : Nat) (bs : Bytes) : (s.poke a bs).cores = s.cores := by
  induction bs generalizing s a with
  | nil => rfl
  | cons b bs ih => exact (ih _ _).trans (State.pokeByte_cores _ _ _)
@[simp] theorem State.poke_senders (s : State) (a : Nat) (bs : Bytes) : (s.poke a bs).senders = s.senders := by
  induction bs generalizing s a with
  | nil => rfl
  | cons b bs ih => exact (ih _ _).trans (State.pokeByte_senders _ _ _)
@[simp] theorem State.poke_sampleSeq (s : State) (a : Nat) (bs : Bytes) : (s.poke a bs).sampleSeq = s.sampleSeq := by
  induction bs generalizing s a with
  | nil => rfl
  | cons b bs ih => exact (ih _ _).trans (State.pokeByte_sampleSeq _ _ _)
@[simp] theorem State.poke_fw (s : State) (a : Nat) (bs : Bytes) : (s.poke a bs).fw = s.fw := by
  induction bs generalizing s a with
  | nil => rfl
  | cons b bs ih => exact (ih _ _).trans (State.pokeByte_fw _ _ _)
@[simp] theorem State.poke_sec (s : State) (a : Nat) (bs : Bytes) : (s.poke a bs).sec = s.sec := by
  induction bs generalizing s a with
  | nil => rfl
  | cons b bs ih => exact (ih _ _).trans (State.pokeByte_sec _ _ _)
@[simp] theorem State.poke_boot (s : State) (a : Nat) (bs : Bytes) : (s.poke a bs).boot = s.boot := by
  induction bs generalizing s a with
  | nil => rfl
  | cons b bs ih => exact (ih _ _).trans (State.pokeByte_boot _ _ _)
@[simp] theorem State.poke_pwr (s : State) (a : Nat) (bs : Bytes) : (s.poke a bs).pwr = s.pwr := by
  induction bs generalizing s a with
  | nil => rfl
  | cons b bs ih => exact (ih _ _).trans (State.pokeByte_pwr _ _ _)
@[simp] theorem State.poke_side (s : State) (a : Nat) (bs : Bytes) : (s.poke a bs).side = s.side := by
  induction bs generalizing s a with
  | nil => rfl
  | cons b bs ih => exact (ih _ _).trans (State.pokeByte_side _ _ _)
@[simp] theorem State.poke_inv (s : State) (a : Nat) (bs : Bytes) : (s.poke a bs).inv = s.inv := by
  induction bs generalizing s a with
  | nil => rfl
  | cons b bs ih => exact (ih _ _).trans (State.pokeByte_inv _ _ _)

@[simp] theorem State.count_pending (s : State) (q b n k : Nat) : (s.count q b n k).pending = s.pending := by
  unfold State.count State.wmAdd
  dsimp only
  repeat' split
  · rfl
  · rfl
  all_goals repeat rw [State.fset_pending]
@[simp] theorem State.count_tick (s : State) (q b n k : Nat) : (s.count q b n k).tick = s.tick := by
  unfold State.count State.wmAdd
  dsimp only
  repeat' split
  · rfl
  · rfl
  all_goals repeat rw [State.fset_tick]
@[simp] theorem State.count_fresh (s : State) (q b n k : Nat) : (s.count q b n k).fresh = s.fresh := by
  unfold State.count State.wmAdd
  dsimp only
  repeat' split
  · rfl
  · rfl
  all_goals repeat rw [State.fset_fresh]
@[simp] theorem State.count_out (s : State) (q b n k : Nat) : (s.count q b n k).out = s.out := by
  unfold State.count State.wmAdd
  dsimp only
  repeat' split
  · rfl
  · rfl
  all_goals repeat rw [State.fset_out]
@[simp] theorem State.count_err (s : State) (q b n k : Nat) : (s.count q b n k).err = s.err := by
  unfold State.count State.wmAdd
  dsimp only
  repeat' split
  · rfl
  · rfl
  all_goals repeat rw [State.fset_err]
@[simp] theorem State.count_home (s : State) (q b n k : Nat) : (s.count q b n k).home = s.home := by
  unfold State.count State.wmAdd
  dsimp only
  repeat' split
  · rfl
  · rfl
  all_goals repeat rw [State.fset_home]
@[simp] theorem State.count_surv (s : State) (q b n k : Nat) : (s.count q b n k).surv = s.surv := by
  unfold State.count State.wmAdd
  dsimp only
  repeat' split
  · rfl
  · rfl
  all_goals repeat rw [State.fset_surv]
@[simp] theorem State.count_street (s : State) (q b n k : Nat) : (s.count q b n k).street = s.street := by
  unfold State.count State.wmAdd
  dsimp only
  repeat' split
  · rfl
  · rfl
  all_goals repeat rw [State.fset_street]
@[simp] theorem State.count_blvd (s : State) (q b n k : Nat) : (s.count q b n k).blvd = s.blvd := by
  unfold State.count State.wmAdd
  dsimp only
  repeat' split
  · rfl
  · rfl
  all_goals repeat rw [State.fset_blvd]
@[simp] theorem State.count_bell (s : State) (q b n k : Nat) : (s.count q b n k).bell = s.bell := by
  unfold State.count State.wmAdd
  dsimp only
  repeat' split
  · rfl
  · rfl
  all_goals repeat rw [State.fset_bell]
@[simp] theorem State.count_stall (s : State) (q b n k : Nat) : (s.count q b n k).stall = s.stall := by
  unfold State.count State.wmAdd
  dsimp only
  repeat' split
  · rfl
  · rfl
  all_goals repeat rw [State.fset_stall]
@[simp] theorem State.count_porter (s : State) (q b n k : Nat) : (s.count q b n k).porter = s.porter := by
  unfold State.count State.wmAdd
  dsimp only
  repeat' split
  · rfl
  · rfl
  all_goals repeat rw [State.fset_porter]
@[simp] theorem State.count_cw (s : State) (q b n k : Nat) : (s.count q b n k).cw = s.cw := by
  unfold State.count State.wmAdd
  dsimp only
  repeat' split
  · rfl
  · rfl
  all_goals repeat rw [State.fset_cw]
@[simp] theorem State.count_xim (s : State) (q b n k : Nat) : (s.count q b n k).xim = s.xim := by
  unfold State.count State.wmAdd
  dsimp only
  repeat' split
  · rfl
  · rfl
  all_goals repeat rw [State.fset_xim]
@[simp] theorem State.count_cash (s : State) (q b n k : Nat) : (s.count q b n k).cash = s.cash := by
  unfold State.count State.wmAdd
  dsimp only
  repeat' split
  · rfl
  · rfl
  all_goals repeat rw [State.fset_cash]
@[simp] theorem State.count_eth (s : State) (q b n k : Nat) : (s.count q b n k).eth = s.eth := by
  unfold State.count State.wmAdd
  dsimp only
  repeat' split
  · rfl
  · rfl
  all_goals repeat rw [State.fset_eth]
@[simp] theorem State.count_carter (s : State) (q b n k : Nat) : (s.count q b n k).carter = s.carter := by
  unfold State.count State.wmAdd
  dsimp only
  repeat' split
  · rfl
  · rfl
  all_goals repeat rw [State.fset_carter]
@[simp] theorem State.count_ledger (s : State) (q b n k : Nat) : (s.count q b n k).ledger = s.ledger := by
  unfold State.count State.wmAdd
  dsimp only
  repeat' split
  · rfl
  · rfl
  all_goals repeat rw [State.fset_ledger]
@[simp] theorem State.count_host (s : State) (q b n k : Nat) : (s.count q b n k).host = s.host := by
  unfold State.count State.wmAdd
  dsimp only
  repeat' split
  · rfl
  · rfl
  all_goals repeat rw [State.fset_host]
@[simp] theorem State.count_cores (s : State) (q b n k : Nat) : (s.count q b n k).cores = s.cores := by
  unfold State.count State.wmAdd
  dsimp only
  repeat' split
  · rfl
  · rfl
  all_goals repeat rw [State.fset_cores]
@[simp] theorem State.count_senders (s : State) (q b n k : Nat) : (s.count q b n k).senders = s.senders := by
  unfold State.count State.wmAdd
  dsimp only
  repeat' split
  · rfl
  · rfl
  all_goals repeat rw [State.fset_senders]
@[simp] theorem State.count_sampleSeq (s : State) (q b n k : Nat) : (s.count q b n k).sampleSeq = s.sampleSeq := by
  unfold State.count State.wmAdd
  dsimp only
  repeat' split
  · rfl
  · rfl
  all_goals repeat rw [State.fset_sampleSeq]
@[simp] theorem State.count_fw (s : State) (q b n k : Nat) : (s.count q b n k).fw = s.fw := by
  unfold State.count State.wmAdd
  dsimp only
  repeat' split
  · rfl
  · rfl
  all_goals repeat rw [State.fset_fw]
@[simp] theorem State.count_sec (s : State) (q b n k : Nat) : (s.count q b n k).sec = s.sec := by
  unfold State.count State.wmAdd
  dsimp only
  repeat' split
  · rfl
  · rfl
  all_goals repeat rw [State.fset_sec]
@[simp] theorem State.count_boot (s : State) (q b n k : Nat) : (s.count q b n k).boot = s.boot := by
  unfold State.count State.wmAdd
  dsimp only
  repeat' split
  · rfl
  · rfl
  all_goals repeat rw [State.fset_boot]
@[simp] theorem State.count_pwr (s : State) (q b n k : Nat) : (s.count q b n k).pwr = s.pwr := by
  unfold State.count State.wmAdd
  dsimp only
  repeat' split
  · rfl
  · rfl
  all_goals repeat rw [State.fset_pwr]
@[simp] theorem State.count_side (s : State) (q b n k : Nat) : (s.count q b n k).side = s.side := by
  unfold State.count State.wmAdd
  dsimp only
  repeat' split
  · rfl
  · rfl
  all_goals repeat rw [State.fset_side]
@[simp] theorem State.count_inv (s : State) (q b n k : Nat) : (s.count q b n k).inv = s.inv := by
  unfold State.count State.wmAdd
  dsimp only
  repeat' split
  · rfl
  · rfl
  all_goals repeat rw [State.fset_inv]

@[simp] theorem State.postEvent_pending (s : State) (f c o k : Nat) : (s.postEvent f c o k).pending = s.pending := by
  unfold State.postEvent
  split
  · exact State.postMsg_pending _ _ _
  · rfl
@[simp] theorem State.postEvent_tick (s : State) (f c o k : Nat) : (s.postEvent f c o k).tick = s.tick := by
  unfold State.postEvent
  split
  · exact State.postMsg_tick _ _ _
  · rfl
@[simp] theorem State.postEvent_fresh (s : State) (f c o k : Nat) : (s.postEvent f c o k).fresh = s.fresh := by
  unfold State.postEvent
  split
  · exact State.postMsg_fresh _ _ _
  · rfl
@[simp] theorem State.postEvent_out (s : State) (f c o k : Nat) : (s.postEvent f c o k).out = s.out := by
  unfold State.postEvent
  split
  · exact State.postMsg_out _ _ _
  · rfl
@[simp] theorem State.postEvent_regs (s : State) (f c o k : Nat) : (s.postEvent f c o k).regs = s.regs := by
  unfold State.postEvent
  split
  · exact State.postMsg_regs _ _ _
  · rfl
@[simp] theorem State.postEvent_err (s : State) (f c o k : Nat) : (s.postEvent f c o k).err = s.err := by
  unfold State.postEvent
  split
  · exact State.postMsg_err _ _ _
  · rfl
@[simp] theorem State.postEvent_home (s : State) (f c o k : Nat) : (s.postEvent f c o k).home = s.home := by
  unfold State.postEvent
  split
  · exact State.postMsg_home _ _ _
  · rfl
@[simp] theorem State.postEvent_surv (s : State) (f c o k : Nat) : (s.postEvent f c o k).surv = s.surv := by
  unfold State.postEvent
  split
  · exact State.postMsg_surv _ _ _
  · rfl
@[simp] theorem State.postEvent_street (s : State) (f c o k : Nat) : (s.postEvent f c o k).street = s.street := by
  unfold State.postEvent
  split
  · exact State.postMsg_street _ _ _
  · rfl
@[simp] theorem State.postEvent_blvd (s : State) (f c o k : Nat) : (s.postEvent f c o k).blvd = s.blvd := by
  unfold State.postEvent
  split
  · exact State.postMsg_blvd _ _ _
  · rfl
@[simp] theorem State.postEvent_bell (s : State) (f c o k : Nat) : (s.postEvent f c o k).bell = s.bell := by
  unfold State.postEvent
  split
  · exact State.postMsg_bell _ _ _
  · rfl
@[simp] theorem State.postEvent_stall (s : State) (f c o k : Nat) : (s.postEvent f c o k).stall = s.stall := by
  unfold State.postEvent
  split
  · exact State.postMsg_stall _ _ _
  · rfl
@[simp] theorem State.postEvent_porter (s : State) (f c o k : Nat) : (s.postEvent f c o k).porter = s.porter := by
  unfold State.postEvent
  split
  · exact State.postMsg_porter _ _ _
  · rfl
@[simp] theorem State.postEvent_cw (s : State) (f c o k : Nat) : (s.postEvent f c o k).cw = s.cw := by
  unfold State.postEvent
  split
  · exact State.postMsg_cw _ _ _
  · rfl
@[simp] theorem State.postEvent_xim (s : State) (f c o k : Nat) : (s.postEvent f c o k).xim = s.xim := by
  unfold State.postEvent
  split
  · exact State.postMsg_xim _ _ _
  · rfl
@[simp] theorem State.postEvent_cash (s : State) (f c o k : Nat) : (s.postEvent f c o k).cash = s.cash := by
  unfold State.postEvent
  split
  · exact State.postMsg_cash _ _ _
  · rfl
@[simp] theorem State.postEvent_eth (s : State) (f c o k : Nat) : (s.postEvent f c o k).eth = s.eth := by
  unfold State.postEvent
  split
  · exact State.postMsg_eth _ _ _
  · rfl
@[simp] theorem State.postEvent_carter (s : State) (f c o k : Nat) : (s.postEvent f c o k).carter = s.carter := by
  unfold State.postEvent
  split
  · exact State.postMsg_carter _ _ _
  · rfl
@[simp] theorem State.postEvent_ledger (s : State) (f c o k : Nat) : (s.postEvent f c o k).ledger = s.ledger := by
  unfold State.postEvent
  split
  · exact State.postMsg_ledger _ _ _
  · rfl
@[simp] theorem State.postEvent_cores (s : State) (f c o k : Nat) : (s.postEvent f c o k).cores = s.cores := by
  unfold State.postEvent
  split
  · exact State.postMsg_cores _ _ _
  · rfl
@[simp] theorem State.postEvent_senders (s : State) (f c o k : Nat) : (s.postEvent f c o k).senders = s.senders := by
  unfold State.postEvent
  split
  · exact State.postMsg_senders _ _ _
  · rfl
@[simp] theorem State.postEvent_sampleSeq (s : State) (f c o k : Nat) : (s.postEvent f c o k).sampleSeq = s.sampleSeq := by
  unfold State.postEvent
  split
  · exact State.postMsg_sampleSeq _ _ _
  · rfl
@[simp] theorem State.postEvent_fw (s : State) (f c o k : Nat) : (s.postEvent f c o k).fw = s.fw := by
  unfold State.postEvent
  split
  · exact State.postMsg_fw _ _ _
  · rfl
@[simp] theorem State.postEvent_sec (s : State) (f c o k : Nat) : (s.postEvent f c o k).sec = s.sec := by
  unfold State.postEvent
  split
  · exact State.postMsg_sec _ _ _
  · rfl
@[simp] theorem State.postEvent_boot (s : State) (f c o k : Nat) : (s.postEvent f c o k).boot = s.boot := by
  unfold State.postEvent
  split
  · exact State.postMsg_boot _ _ _
  · rfl
@[simp] theorem State.postEvent_pwr (s : State) (f c o k : Nat) : (s.postEvent f c o k).pwr = s.pwr := by
  unfold State.postEvent
  split
  · exact State.postMsg_pwr _ _ _
  · rfl
@[simp] theorem State.postEvent_side (s : State) (f c o k : Nat) : (s.postEvent f c o k).side = s.side := by
  unfold State.postEvent
  split
  · exact State.postMsg_side _ _ _
  · rfl
@[simp] theorem State.postEvent_inv (s : State) (f c o k : Nat) : (s.postEvent f c o k).inv = s.inv := by
  unfold State.postEvent
  split
  · exact State.postMsg_inv _ _ _
  · rfl

@[simp] theorem State.raiseLine_pending (s : State) (q l : Nat) : (s.raiseLine q l).pending = s.pending := foldl_keeps (fun t : State => t.pending) (fun _ _ => State.raiseCore_pending _ _ _) _ _
@[simp] theorem State.raiseLine_tick (s : State) (q l : Nat) : (s.raiseLine q l).tick = s.tick := foldl_keeps (fun t : State => t.tick) (fun _ _ => State.raiseCore_tick _ _ _) _ _
@[simp] theorem State.raiseLine_fresh (s : State) (q l : Nat) : (s.raiseLine q l).fresh = s.fresh := foldl_keeps (fun t : State => t.fresh) (fun _ _ => State.raiseCore_fresh _ _ _) _ _
@[simp] theorem State.raiseLine_out (s : State) (q l : Nat) : (s.raiseLine q l).out = s.out := foldl_keeps (fun t : State => t.out) (fun _ _ => State.raiseCore_out _ _ _) _ _
@[simp] theorem State.raiseLine_regs (s : State) (q l : Nat) : (s.raiseLine q l).regs = s.regs := foldl_keeps (fun t : State => t.regs) (fun _ _ => State.raiseCore_regs _ _ _) _ _
@[simp] theorem State.raiseLine_err (s : State) (q l : Nat) : (s.raiseLine q l).err = s.err := foldl_keeps (fun t : State => t.err) (fun _ _ => State.raiseCore_err _ _ _) _ _
@[simp] theorem State.raiseLine_home (s : State) (q l : Nat) : (s.raiseLine q l).home = s.home := foldl_keeps (fun t : State => t.home) (fun _ _ => State.raiseCore_home _ _ _) _ _
@[simp] theorem State.raiseLine_surv (s : State) (q l : Nat) : (s.raiseLine q l).surv = s.surv := foldl_keeps (fun t : State => t.surv) (fun _ _ => State.raiseCore_surv _ _ _) _ _
@[simp] theorem State.raiseLine_street (s : State) (q l : Nat) : (s.raiseLine q l).street = s.street := foldl_keeps (fun t : State => t.street) (fun _ _ => State.raiseCore_street _ _ _) _ _
@[simp] theorem State.raiseLine_blvd (s : State) (q l : Nat) : (s.raiseLine q l).blvd = s.blvd := foldl_keeps (fun t : State => t.blvd) (fun _ _ => State.raiseCore_blvd _ _ _) _ _
@[simp] theorem State.raiseLine_bell (s : State) (q l : Nat) : (s.raiseLine q l).bell = s.bell := foldl_keeps (fun t : State => t.bell) (fun _ _ => State.raiseCore_bell _ _ _) _ _
@[simp] theorem State.raiseLine_stall (s : State) (q l : Nat) : (s.raiseLine q l).stall = s.stall := foldl_keeps (fun t : State => t.stall) (fun _ _ => State.raiseCore_stall _ _ _) _ _
@[simp] theorem State.raiseLine_porter (s : State) (q l : Nat) : (s.raiseLine q l).porter = s.porter := foldl_keeps (fun t : State => t.porter) (fun _ _ => State.raiseCore_porter _ _ _) _ _
@[simp] theorem State.raiseLine_cw (s : State) (q l : Nat) : (s.raiseLine q l).cw = s.cw := foldl_keeps (fun t : State => t.cw) (fun _ _ => State.raiseCore_cw _ _ _) _ _
@[simp] theorem State.raiseLine_xim (s : State) (q l : Nat) : (s.raiseLine q l).xim = s.xim := foldl_keeps (fun t : State => t.xim) (fun _ _ => State.raiseCore_xim _ _ _) _ _
@[simp] theorem State.raiseLine_cash (s : State) (q l : Nat) : (s.raiseLine q l).cash = s.cash := foldl_keeps (fun t : State => t.cash) (fun _ _ => State.raiseCore_cash _ _ _) _ _
@[simp] theorem State.raiseLine_eth (s : State) (q l : Nat) : (s.raiseLine q l).eth = s.eth := foldl_keeps (fun t : State => t.eth) (fun _ _ => State.raiseCore_eth _ _ _) _ _
@[simp] theorem State.raiseLine_carter (s : State) (q l : Nat) : (s.raiseLine q l).carter = s.carter := foldl_keeps (fun t : State => t.carter) (fun _ _ => State.raiseCore_carter _ _ _) _ _
@[simp] theorem State.raiseLine_ledger (s : State) (q l : Nat) : (s.raiseLine q l).ledger = s.ledger := foldl_keeps (fun t : State => t.ledger) (fun _ _ => State.raiseCore_ledger _ _ _) _ _
@[simp] theorem State.raiseLine_host (s : State) (q l : Nat) : (s.raiseLine q l).host = s.host := foldl_keeps (fun t : State => t.host) (fun _ _ => State.raiseCore_host _ _ _) _ _
@[simp] theorem State.raiseLine_senders (s : State) (q l : Nat) : (s.raiseLine q l).senders = s.senders := foldl_keeps (fun t : State => t.senders) (fun _ _ => State.raiseCore_senders _ _ _) _ _
@[simp] theorem State.raiseLine_sampleSeq (s : State) (q l : Nat) : (s.raiseLine q l).sampleSeq = s.sampleSeq := foldl_keeps (fun t : State => t.sampleSeq) (fun _ _ => State.raiseCore_sampleSeq _ _ _) _ _
@[simp] theorem State.raiseLine_fw (s : State) (q l : Nat) : (s.raiseLine q l).fw = s.fw := foldl_keeps (fun t : State => t.fw) (fun _ _ => State.raiseCore_fw _ _ _) _ _
@[simp] theorem State.raiseLine_sec (s : State) (q l : Nat) : (s.raiseLine q l).sec = s.sec := foldl_keeps (fun t : State => t.sec) (fun _ _ => State.raiseCore_sec _ _ _) _ _
@[simp] theorem State.raiseLine_boot (s : State) (q l : Nat) : (s.raiseLine q l).boot = s.boot := foldl_keeps (fun t : State => t.boot) (fun _ _ => State.raiseCore_boot _ _ _) _ _
@[simp] theorem State.raiseLine_pwr (s : State) (q l : Nat) : (s.raiseLine q l).pwr = s.pwr := foldl_keeps (fun t : State => t.pwr) (fun _ _ => State.raiseCore_pwr _ _ _) _ _
@[simp] theorem State.raiseLine_side (s : State) (q l : Nat) : (s.raiseLine q l).side = s.side := foldl_keeps (fun t : State => t.side) (fun _ _ => State.raiseCore_side _ _ _) _ _
@[simp] theorem State.raiseLine_inv (s : State) (q l : Nat) : (s.raiseLine q l).inv = s.inv := foldl_keeps (fun t : State => t.inv) (fun _ _ => State.raiseCore_inv _ _ _) _ _

@[simp] theorem State.eventPrec_pending (s : State) (p c o k : Nat) : (s.eventPrec p c o k).pending = s.pending := foldl_keeps (fun t : State => t.pending) (fun _ _ => State.postEvent_pending _ _ _ _ _) _ _
@[simp] theorem State.eventPrec_tick (s : State) (p c o k : Nat) : (s.eventPrec p c o k).tick = s.tick := foldl_keeps (fun t : State => t.tick) (fun _ _ => State.postEvent_tick _ _ _ _ _) _ _
@[simp] theorem State.eventPrec_fresh (s : State) (p c o k : Nat) : (s.eventPrec p c o k).fresh = s.fresh := foldl_keeps (fun t : State => t.fresh) (fun _ _ => State.postEvent_fresh _ _ _ _ _) _ _
@[simp] theorem State.eventPrec_out (s : State) (p c o k : Nat) : (s.eventPrec p c o k).out = s.out := foldl_keeps (fun t : State => t.out) (fun _ _ => State.postEvent_out _ _ _ _ _) _ _
@[simp] theorem State.eventPrec_regs (s : State) (p c o k : Nat) : (s.eventPrec p c o k).regs = s.regs := foldl_keeps (fun t : State => t.regs) (fun _ _ => State.postEvent_regs _ _ _ _ _) _ _
@[simp] theorem State.eventPrec_err (s : State) (p c o k : Nat) : (s.eventPrec p c o k).err = s.err := foldl_keeps (fun t : State => t.err) (fun _ _ => State.postEvent_err _ _ _ _ _) _ _
@[simp] theorem State.eventPrec_home (s : State) (p c o k : Nat) : (s.eventPrec p c o k).home = s.home := foldl_keeps (fun t : State => t.home) (fun _ _ => State.postEvent_home _ _ _ _ _) _ _
@[simp] theorem State.eventPrec_surv (s : State) (p c o k : Nat) : (s.eventPrec p c o k).surv = s.surv := foldl_keeps (fun t : State => t.surv) (fun _ _ => State.postEvent_surv _ _ _ _ _) _ _
@[simp] theorem State.eventPrec_street (s : State) (p c o k : Nat) : (s.eventPrec p c o k).street = s.street := foldl_keeps (fun t : State => t.street) (fun _ _ => State.postEvent_street _ _ _ _ _) _ _
@[simp] theorem State.eventPrec_blvd (s : State) (p c o k : Nat) : (s.eventPrec p c o k).blvd = s.blvd := foldl_keeps (fun t : State => t.blvd) (fun _ _ => State.postEvent_blvd _ _ _ _ _) _ _
@[simp] theorem State.eventPrec_bell (s : State) (p c o k : Nat) : (s.eventPrec p c o k).bell = s.bell := foldl_keeps (fun t : State => t.bell) (fun _ _ => State.postEvent_bell _ _ _ _ _) _ _
@[simp] theorem State.eventPrec_stall (s : State) (p c o k : Nat) : (s.eventPrec p c o k).stall = s.stall := foldl_keeps (fun t : State => t.stall) (fun _ _ => State.postEvent_stall _ _ _ _ _) _ _
@[simp] theorem State.eventPrec_porter (s : State) (p c o k : Nat) : (s.eventPrec p c o k).porter = s.porter := foldl_keeps (fun t : State => t.porter) (fun _ _ => State.postEvent_porter _ _ _ _ _) _ _
@[simp] theorem State.eventPrec_cw (s : State) (p c o k : Nat) : (s.eventPrec p c o k).cw = s.cw := foldl_keeps (fun t : State => t.cw) (fun _ _ => State.postEvent_cw _ _ _ _ _) _ _
@[simp] theorem State.eventPrec_xim (s : State) (p c o k : Nat) : (s.eventPrec p c o k).xim = s.xim := foldl_keeps (fun t : State => t.xim) (fun _ _ => State.postEvent_xim _ _ _ _ _) _ _
@[simp] theorem State.eventPrec_cash (s : State) (p c o k : Nat) : (s.eventPrec p c o k).cash = s.cash := foldl_keeps (fun t : State => t.cash) (fun _ _ => State.postEvent_cash _ _ _ _ _) _ _
@[simp] theorem State.eventPrec_eth (s : State) (p c o k : Nat) : (s.eventPrec p c o k).eth = s.eth := foldl_keeps (fun t : State => t.eth) (fun _ _ => State.postEvent_eth _ _ _ _ _) _ _
@[simp] theorem State.eventPrec_carter (s : State) (p c o k : Nat) : (s.eventPrec p c o k).carter = s.carter := foldl_keeps (fun t : State => t.carter) (fun _ _ => State.postEvent_carter _ _ _ _ _) _ _
@[simp] theorem State.eventPrec_ledger (s : State) (p c o k : Nat) : (s.eventPrec p c o k).ledger = s.ledger := foldl_keeps (fun t : State => t.ledger) (fun _ _ => State.postEvent_ledger _ _ _ _ _) _ _
@[simp] theorem State.eventPrec_cores (s : State) (p c o k : Nat) : (s.eventPrec p c o k).cores = s.cores := foldl_keeps (fun t : State => t.cores) (fun _ _ => State.postEvent_cores _ _ _ _ _) _ _
@[simp] theorem State.eventPrec_senders (s : State) (p c o k : Nat) : (s.eventPrec p c o k).senders = s.senders := foldl_keeps (fun t : State => t.senders) (fun _ _ => State.postEvent_senders _ _ _ _ _) _ _
@[simp] theorem State.eventPrec_sampleSeq (s : State) (p c o k : Nat) : (s.eventPrec p c o k).sampleSeq = s.sampleSeq := foldl_keeps (fun t : State => t.sampleSeq) (fun _ _ => State.postEvent_sampleSeq _ _ _ _ _) _ _
@[simp] theorem State.eventPrec_fw (s : State) (p c o k : Nat) : (s.eventPrec p c o k).fw = s.fw := foldl_keeps (fun t : State => t.fw) (fun _ _ => State.postEvent_fw _ _ _ _ _) _ _
@[simp] theorem State.eventPrec_sec (s : State) (p c o k : Nat) : (s.eventPrec p c o k).sec = s.sec := foldl_keeps (fun t : State => t.sec) (fun _ _ => State.postEvent_sec _ _ _ _ _) _ _
@[simp] theorem State.eventPrec_boot (s : State) (p c o k : Nat) : (s.eventPrec p c o k).boot = s.boot := foldl_keeps (fun t : State => t.boot) (fun _ _ => State.postEvent_boot _ _ _ _ _) _ _
@[simp] theorem State.eventPrec_pwr (s : State) (p c o k : Nat) : (s.eventPrec p c o k).pwr = s.pwr := foldl_keeps (fun t : State => t.pwr) (fun _ _ => State.postEvent_pwr _ _ _ _ _) _ _
@[simp] theorem State.eventPrec_side (s : State) (p c o k : Nat) : (s.eventPrec p c o k).side = s.side := foldl_keeps (fun t : State => t.side) (fun _ _ => State.postEvent_side _ _ _ _ _) _ _
@[simp] theorem State.eventPrec_inv (s : State) (p c o k : Nat) : (s.eventPrec p c o k).inv = s.inv := foldl_keeps (fun t : State => t.inv) (fun _ _ => State.postEvent_inv _ _ _ _ _) _ _

/-! ### What a read after an update gives -/

theorem RegName.all_ctorIdx (n : RegName) : RegName.all[n.ctorIdx]? = some n := by cases n <;> rfl

theorem RegName.ctorIdx_inj {m n : RegName} (h : m.ctorIdx = n.ctorIdx) : m = n := by
  have hm := RegName.all_ctorIdx m
  rw [h, RegName.all_ctorIdx n] at hm
  exact (Option.some.inj hm).symm

theorem Reg.key_inj {r r' : Reg} (h : r.key = r'.key) : r = r' := by
  obtain ⟨n, i, j⟩ := r
  obtain ⟨n', i', j'⟩ := r'
  simp only [Reg.key, Nat.pair_eq_pair] at h
  obtain ⟨h1, h2, h3⟩ := h
  subst h2; subst h3
  rw [RegName.ctorIdx_inj h1]

@[simp] theorem State.rd_wr_same (s : State) (r : Reg) (w : W64) : (s.wr r w).rd r = w := by
  simp [State.rd, State.wr]

theorem State.rd_wr_ne (s : State) {r r' : Reg} (w : W64) (h : r' ≠ r) : (s.wr r w).rd r' = s.rd r' := by
  simp only [State.rd, State.wr]
  unfold lookD
  by_cases hw : w = r.reset
  · simp only [putD, hw, if_true]
    rw [look_drop_ne]
    exact fun hk => h (Reg.key_inj hk)
  · simp only [putD, hw, if_false]
    rw [look_put_ne]
    exact fun hk => h (Reg.key_inj hk)

theorem State.rd_wr (s : State) (r r' : Reg) (w : W64) : (s.wr r w).rd r' = if r' = r then w else s.rd r' := by
  by_cases h : r' = r
  · subst h; simp
  · simp [h, State.rd_wr_ne]

@[simp] theorem State.rd_fset_same (s : State) (r : Reg) (f : Fld) (v : Nat) :
    (s.fset r f v).rd r = setBits (s.rd r) f v := State.rd_wr_same _ _ _

theorem State.rd_fset_ne (s : State) {r r' : Reg} (f : Fld) (v : Nat) (h : r' ≠ r) :
    (s.fset r f v).rd r' = s.rd r' := State.rd_wr_ne _ _ h

theorem State.rd_of_regs {s t : State} (h : t.regs = s.regs) (r : Reg) : t.rd r = s.rd r := by
  simp [State.rd, h]

@[simp] theorem State.core_setCore_same (s : State) (n : Nat) (c : Core) : (s.setCore n c).core n = c := by
  simp [State.core, State.setCore]

theorem State.core_setCore_ne (s : State) {n m : Nat} (c : Core) (h : m ≠ n) : (s.setCore n c).core m = s.core m := by
  simp [State.core, State.setCore, h]

@[simp] theorem State.func_setFunc_same (s : State) (f : Nat) (x : Func) : (s.setFunc f x).func f = x := by
  simp [State.func, State.setFunc]

theorem State.func_setFunc_ne (s : State) {f g : Nat} (x : Func) (h : g ≠ f) : (s.setFunc f x).func g = s.func g := by
  simp [State.func, State.setFunc, h]

@[simp] theorem State.port_setPort_same (s : State) (p : Nat) (x : HostPort) : (s.setPort p x).port p = x := by
  simp [State.port, State.setPort]

theorem State.port_setPort_ne (s : State) {p p' : Nat} (x : HostPort) (h : p' ≠ p) :
    (s.setPort p x).port p' = s.port p' := by
  simp [State.port, State.setPort, h]

/-! ### Memory -/

theorem State.byte_of_mem {s t : State} (h : t.home.mem = s.home.mem) (a : Nat) : t.byte a = s.byte a := by
  simp [State.byte, h]

@[simp] theorem State.byte_pokeByte_same (s : State) (a : Nat) (b : Byte) : (s.pokeByte a b).byte a = b := by
  simp [State.byte, State.pokeByte]

theorem State.byte_pokeByte_ne (s : State) {a a' : Nat} (b : Byte) (h : a' ≠ a) :
    (s.pokeByte a b).byte a' = s.byte a' := by
  simp only [State.byte, State.pokeByte]
  exact lookD_putD_ne _ _ _ h

/-- A byte outside the bytes written is as it was. -/
theorem State.byte_poke_outside (s : State) (a : Nat) (bs : Bytes) {a' : Nat} (h : a' < a ∨ a + bs.length ≤ a') :
    (s.poke a bs).byte a' = s.byte a' := by
  induction bs generalizing s a with
  | nil => rfl
  | cons b bs ih =>
    simp only [List.length_cons] at h
    rw [State.poke, ih _ _ (by omega), State.byte_pokeByte_ne _ _ (by omega)]

/-- A byte inside the bytes written is the byte given for it. -/
theorem State.byte_poke_inside (s : State) (a : Nat) (bs : Bytes) {i : Nat} (h : i < bs.length) :
    (s.poke a bs).byte (a + i) = bs.getD i 0#8 := by
  induction bs generalizing s a i with
  | nil => simp at h
  | cons b bs ih =>
    simp only [State.poke]
    cases i with
    | zero =>
      rw [State.byte_poke_outside _ _ _ (by omega)]
      simp
    | succ i =>
      have := ih (s.pokeByte a b) (a + 1) (i := i) (by simpa using h)
      rw [show a + (i + 1) = a + 1 + i by omega, this]
      simp

@[simp] theorem State.poke_poison (s : State) (a : Nat) (bs : Bytes) : (s.poke a bs).home.poison = s.home.poison := by
  induction bs generalizing s a with
  | nil => rfl
  | cons b bs ih => exact ih _ _

theorem State.pokeByte_memWf {s : State} (h : s.memWf) (a : Nat) (b : Byte) : (s.pokeByte a b).memWf :=
  putD_wfD h a b

/-- Writing bytes keeps the canonical form of memory. -/
theorem State.poke_memWf {s : State} (h : s.memWf) (a : Nat) (bs : Bytes) : (s.poke a bs).memWf := by
  induction bs generalizing s a with
  | nil => exact h
  | cons b bs ih => exact ih (State.pokeByte_memWf h a b) _

theorem State.memWf_of_mem {s t : State} (h : t.home.mem = s.home.mem) (hs : s.memWf) : t.memWf := by
  unfold State.memWf at *
  rw [h]; exact hs

theorem State.reset_memWf : State.reset.memWf := tabWfD_nil _

end Sys2Proof.Machine
end

