-- ==== Sys2Proof/Laws/Hawker.lean ====
section
/-!
SUPPORT. What an instruction of a core that is ready does, said once: every Hawker row goes through it.
-/
namespace Sys2Proof.Machine

theorem State.injAt_setCore (s : State) (n : Nat) (c : Core) (d u : Nat) (p : Nat → Bool) : (s.setCore n c).injAt d u p = s.injAt d u p := rfl

@[simp] theorem Core.get_fetched (c : Core) (w : BitVec 32) (r : HReg) : (c.fetched w).get r = c.get r := rfl

/-- An instruction of a ready core: the word is fetched, its body runs, and the core goes on, takes the exception or waits as it ends. -/
theorem State.instr_ready {s : State} {n : CoreNo} (h : s.ready n) (w : BitVec 32) (reads : Bool) (body : State → Core → State × Ends) :
    s.instr n w reads body = (match body (s.fetchedBy n w) ((s.core n.val).fetched w) with
      | (s, .goes pc) => s.retire n pc
      | (s', .raises code a) => s'.enter n code a (s.core n.val).pc 4
      | (s', .completes code a) => (s'.coreEvent n 0 1).enter n code a (((s.core n.val).pc + 4) % 2 ^ 64) 4
      | (s, .waits) => s) := by
  obtain ⟨h1, h2, h3⟩ := h
  unfold State.instr
  simp only [h1, h2, Bool.not_true, Bool.false_eq_true, if_false]
  have hi : (if reads then (s.setCore n.val ((s.core n.val).fetched w)).coreInject n.val else (s.setCore n.val ((s.core n.val).fetched w), true)) =
      (s.setCore n.val ((s.core n.val).fetched w), true) := by
    split
    · unfold State.coreInject
      rw [State.injAt_setCore, h3]
    · rfl
  rw [hi]
  simp only [State.core_setCore_same]
  rfl

/-- An instruction of a ready core that only writes `rd`. -/
theorem State.writes_ready {s : State} {n : CoreNo} (h : s.ready n) (w : BitVec 32) (rd : HReg) (reads : Bool) (v : Core → W64) :
    Retires (done (s.writes n w rd reads v)) s n (s.core n.val).next (((s.core n.val).fetched w).set rd (v ((s.core n.val).fetched w))) := by
  unfold State.writes
  rw [State.instr_ready h]
  refine ⟨put (put s.cores n.val ((s.core n.val).fetched w)) n.val (((s.core n.val).fetched w).set rd (v ((s.core n.val).fetched w))), rfl, ?_, ?_⟩
  · simp [coreIn]
  · intro m hm
    simp [coreIn, hm]

end Sys2Proof.Machine
end

