-- ==== Sys2Proof/Laws/Kiosk.lean ====
section
/-!
SUPPORT. What a message row does, by what firmware makes of the message at the head.
-/
namespace Sys2Proof.Machine

theorem State.answerMsg_error {s u : State} {f t n : Nat} (body : Bytes → Ans) (h : s.takeMsg f t n = .error u) : s.answerMsg f t n body = u := by
  unfold State.answerMsg
  rw [h]

theorem State.answerMsg_some {s u : State} {f t n st d : Nat} {m b : Bytes} {body : Bytes → Ans} (h : s.takeMsg f t n = .ok m)
    (hb : body m = some (u, st, d, b)) : s.answerMsg f t n body = u.reply f m st d b := by
  unfold State.answerMsg
  rw [h]
  simp only [hb]

theorem State.answerMsg_none {s : State} {f t n : Nat} {m : Bytes} {body : Bytes → Ans} (h : s.takeMsg f t n = .ok m) (hb : body m = none) :
    s.answerMsg f t n body = s := by
  unfold State.answerMsg
  rw [h]
  simp only [hb]

theorem State.answerInst_error {s u : State} {f t n : Nat} (body : Inst → Bytes → Ans) (h : s.takeMsg f t n = .error u) :
    s.answerInst f t n body = u := State.answerMsg_error _ h

theorem State.answerInst_some {s u : State} {f t n st d : Nat} {m b : Bytes} {i : Inst} {body : Inst → Bytes → Ans} (h : s.takeMsg f t n = .ok m)
    (hi : s.inst f = some i) (hb : body i m = some (u, st, d, b)) : s.answerInst f t n body = u.reply f m st d b :=
  State.answerMsg_some h (by simp only [hi, hb])

theorem State.onMsg_ok {s u : State} {f t n st d : Nat} {m b : Bytes} {body : Bytes → State × Nat × Nat × Bytes} (h : s.takeMsg f t n = .ok m)
    (hb : body m = (u, st, d, b)) : s.onMsg f t n body = u.reply f m st d b := by
  unfold State.onMsg
  rw [h]
  simp only [hb]

end Sys2Proof.Machine
end

