-- ==== Sys2Proof/Tests/Slice0.lean ====
section
/-!
SUPPORT. Tests of the model, and for the statements of Certificates/ a state and operands that meet their hypotheses. Each runs at most one
command on a small state. Expected values are the spec's: of its tables, worked examples, or hand calculation from its rules.
-/
namespace Sys2Proof.Tests
set_option Elab.async false
open Sys2Proof.Machine

/-! ### Helpers -/

/-- What a command leaves, seen through `f`. -/
def after {α : Type} (o : Host.Outcome State Fault Refusal) (f : State → α) : Option α :=
  match o with
  | .next t => some (f t)
  | _ => none

/-- A field of a register set. -/
def with_ (s : State) (n : RegName) (i j : Nat) (f : Fld) (v : Nat) : State := s.fset ⟨n, i, j⟩ f v

/-- The device booted: the kernel runs and every Quarter is powered. -/
def live : State := with_ { State.reset with boot := { dark := [] } } .bootStatus 0 0 F.bootStatus_STAGE 9

/-- Core 0 of a live device at 0x100, changed by `f`. -/
def core0 (f : Core → Core) : State := live.setCore 0 (f { pc := 0x100, s7k := 0x1000 })

/-- A Guildhall core in kernel mode, and in user mode; and a host's PF. -/
def kern : Requester := .core 0 true
def user : Requester := .core 0 false

/-- An access of `n` bytes at `a`. -/
def acc (a n : Nat) (d : Option Bytes) : HomeAccess := { req := 0, asid := 0, addr := a, len := n, data := d, poison := false, upset := [] }

/-! ### WellFormed: a term that each check refuses, and one it takes -/

theorem test_wf_registerWrite : Instr.wellFormed (.registerWrite (.space kern 0) [0#8, 0#8, 0#8] []) = false := by decide
theorem test_wf_configWrite : Instr.wellFormed (.registerWrite (.config 0 0) (List.replicate 8 0#8) []) = false := by decide
theorem test_wf_readClear : Instr.wellFormed (.readClear (.space kern 0) 3 []) = false := by decide
theorem test_wf_multiTargetRead : Instr.wellFormed (.multiTargetRead kern 0 16 []) = false := by decide
theorem test_wf_accessLine : Instr.wellFormed (.squareAccess 0 (acc 127 2 none)) = false := by decide
theorem test_wf_accessEmpty : Instr.wellFormed (.warehouseAccess 0 (acc 0 0 none)) = false := by decide
theorem test_wf_accessAsid : Instr.wellFormed (.warehouseAccess 0 { acc 0 1 none with asid := 4096 }) = false := by decide
theorem test_wf_accessData : Instr.wellFormed (.squareAccess 0 (acc 0 2 (some [0#8]))) = false := by decide
theorem test_wf_accessUpset : Instr.wellFormed (.squareAccess 0 { acc 0 2 none with upset := [144] }) = false := by decide
theorem test_wf_transfer : Instr.wellFormed (.blvdTransfer 1 1 false (acc 0 1 none) .acked) = false := by decide
theorem test_wf_retrained : Instr.wellFormed (.blvdRetrained 1 1) = false := by decide
theorem test_wf_relay : Instr.wellFormed (.blvdRelayDrainDone 2 2) = false := by decide
theorem test_wf_scrub : Instr.wellFormed (.warehouseScrub 0 (2 ^ 29) [] false) = false := by decide
theorem test_wf_scrubUpset : Instr.wellFormed (.warehouseScrub 0 0 [144] false) = false := by decide
theorem test_wf_translate : Instr.wellFormed (.surveyorTranslate 0 { req := 0, asid := 4096, va := 0, write := false }) = false := by decide
theorem test_wf_flit : Instr.wellFormed (.cwFlit 0 0 true [{ type := 256, flags := 0, length := 0, tag := 0, status := 0, addr := 0, data := [] }]) = false := by
  decide
theorem test_wf_bar2 : Instr.wellFormed (.bar2Access 0 0 none 0 false) = false := by decide
theorem test_wf_bar2Data : Instr.wellFormed (.bar2Access 0 0 (some [0#8]) 2 false) = false := by decide
theorem test_wf_manifest : Instr.wellFormed (.invManifestWrite 0 0 [0#8] false) = false := by decide
theorem test_wf_txrDoorbell : Instr.wellFormed (.txrDoorbell 0 65536 0) = false := by decide
theorem test_wf_rxqDoorbell : Instr.wellFormed (.rxqDoorbell 0 65536 0) = false := by decide
theorem test_wf_sqDoorbell : Instr.wellFormed (.ledgerSqDoorbell 0 65536 0) = false := by decide
theorem test_wf_cqDoorbell : Instr.wellFormed (.ledgerCqDoorbell 0 65536 0) = false := by decide
/-- Readings of a cool, idle device. -/
def cool : Readings := {
  voltage := 0, current := 0, mean1 := 0, mean10 := 0, mean100 := 0, inlet := 25, outlet := 25, flow := 0, watch := 30, compute := [], base := []
  sealOpen := false }

theorem test_wf_coolant : Instr.wellFormed (.coolantReady cool [] [] [3, 3]) = false := by decide
theorem test_wf_takes : Instr.wellFormed (.registerWrite (.space kern 0) (List.replicate 8 0#8) []) = true := by decide

/-! ### The Hawker instruction set -/

/-- A core in user mode to which MPU region 0 grants everything. -/
def userCore (c : Core) : Core := { c with kernel := false, mpuBase := [], mpuLimit := [(0, 0x1F_FFFF_FFFF_FF0F)] }

/-- The hypotheses of the statements about instructions: core 0 is ready. -/
theorem test_core_ready : (core0 id).ready 0 := ⟨by decide +kernel, by decide +kernel, by decide +kernel⟩

theorem test_reg_zero : (({ } : Core).set 0 5).get 0 = 0 ∧ (({ } : Core).set 31 5).get 31 = 5 := by decide +kernel
theorem test_window : (({ } : Core).set 24 7 |>.slide true).get 8 = 7 ∧ ((({ cwp := 30 } : Core).slide false).cwp = 0) := by decide +kernel

/-- R507's sums and the division by zero of Table 20.5. -/
theorem test_sub : after (exec (.aluSub 0 9 8 0) (core0 fun c => c.set 8 3)) (fun t => ((t.core 0).get 9, (t.core 0).pc)) = some (3, 0x104) := by decide +kernel
theorem test_addi : after (exec (.addi 0 8 0 0xFFFF) (core0 id)) (fun t => (t.core 0).get 8) = some 0xFFFF_FFFF_FFFF_FFFF := by decide +kernel
theorem test_ori : after (exec (.ori 0 8 0 0xFFFF) (core0 id)) (fun t => (t.core 0).get 8) = some 0xFFFF := by decide +kernel
theorem test_divu_zero : after (exec (.divu 0 8 9 0) (core0 id)) (fun t => (t.core 0).get 8) = some (BitVec.allOnes 64) := by decide +kernel
theorem test_sra : after (exec (.sra 0 8 9 10) (core0 fun c => (c.set 9 0xFFFF_FFFF_FFFF_FFFE).set 10 1)) (fun t => (t.core 0).get 8) =
    some 0xFFFF_FFFF_FFFF_FFFF := by decide +kernel

/-- A load of the bytes of memory, one that is misaligned, and one from a hole. -/
def mem8 : State := (core0 fun c => c.set 8 0x2000).poke 0x2000 [1#8, 2#8, 3#8, 0x84#8, 5#8, 6#8, 7#8, 8#8]
/-- The word of LD r9, 0(r8) fetched: the load of that instruction is granted and gives the bytes of memory. -/
def mem8f : State := mem8.fetchedBy 0 (formB 0x10 9 8 0)
theorem test_load : (mem8f.coreLoad 0 0x2000 8).2 = .ok [1#8, 2#8, 3#8, 0x84#8, 5#8, 6#8, 7#8, 8#8] := by
  have h : (mem8f.core (0 : CoreNo).val).cached 0x2000 8 = none := by decide +kernel
  have h1 : (0x2000 : W64).toNat = 0x2000 := rfl
  simp only [State.coreLoad, h1, h, ite_self]
  decide +kernel
theorem test_lws : (BitVec.ofNat 32 (leNat [1#8, 2#8, 3#8, 0x84#8])).signExtend 64 = (0xFFFF_FFFF_8403_0201 : W64) := by decide
theorem test_lw_misaligned : after (exec (.lw 0 9 8 2) mem8) (fun t => ((t.core 0).ecause, (t.core 0).eaddr)) = some (4, 0x2002) := by decide +kernel
theorem test_load_hole : (mem8.coreLoad 0 0x100_0000_0000_0000 8).2 = .error 5 := by decide +kernel
theorem test_load_bytes : mem8.reaches (coreReq 0) 0x2000 8 = true ∧ (mem8.core 0).permits 0x2000 1 = true ∧ (mem8.core 0).cached 0x2000 8 = none := by decide +kernel
theorem test_sw : after (exec (.sw 0 9 8 4) (mem8.setCore 0 ((mem8.core 0).set 9 0xAABBCCDD))) (fun t => t.bytes 0x2002 8) =
    some [3#8, 0x84#8, 0xDD#8, 0xCC#8, 0xBB#8, 0xAA#8, 0#8, 0#8] := by decide +kernel
theorem test_store_bytes : mem8.inSpill 0x2000 8 = false ∧ (mem8.core 0).permits 0x2000 2 = true := by decide +kernel
theorem test_amoadd : after (exec (.amoadd 0 9 8 10) (mem8.setCore 0 ((mem8.core 0).set 10 1))) (fun t => ((t.core 0).get 9, t.bytes 0x2000 2)) =
    some (0x0807060584030201, [2#8, 2#8]) := by decide +kernel
theorem test_cas_fails : after (exec (.cas 0 9 8 10) mem8) (fun t => ((t.core 0).get 9, t.bytes 0x2000 2)) = some (0x0807060584030201, [1#8, 2#8]) := by decide +kernel

/-- Branches: the target is the instruction's address + 4 × DISP. -/
theorem test_beq_back : after (exec (.beq 0 8 9 0xFFFF) (core0 id)) (fun t => (t.core 0).pc) = some 0xFC := by decide +kernel
theorem test_blt_not : after (exec (.blt 0 8 9 4) (core0 id)) (fun t => (t.core 0).pc) = some 0x104 := by decide +kernel
theorem test_jmpr_misaligned : after (exec (.jmpr 0 8) (core0 fun c => c.set 8 2)) (fun t => ((t.core 0).ecause, (t.core 0).epc)) = some (4, 0x100) := by decide +kernel
theorem test_call : after (exec (.call 0 16) (core0 id)) (fun t => ((t.core 0).pc, (t.core 0).s7k, (t.core 0).cwp, t.bytes 0xFF8 2)) =
    some (0x140, 0xFF8, 1, [4#8, 1#8]) := by decide +kernel
theorem test_call_sp : after (exec (.call 0 16) (core0 fun c => { c with s7k := 0x1001 })) (fun t => ((t.core 0).ecause, (t.core 0).eaddr)) = some (9, 0x1001) := by decide +kernel
theorem test_call_spill : (((core0 fun c => { c with nframes := 30 })).spill 0 false).toOption.isNone = true := by decide +kernel
theorem test_eret : after (exec (.eret 0) (core0 fun c => { c with nframes := 2, cwp := 1, epc := 0x80, epsr := 2 })) (fun t =>
    ((t.core 0).pc, (t.core 0).kernel, (t.core 0).ie)) = some (0x80, false, true) := by decide +kernel
theorem test_eret_user : after (exec (.eret 0) (core0 fun c => userCore c)) (fun t => (t.core 0).ecause) = some 3 := by decide +kernel
theorem test_flushw : after (exec (.flushw 0) (core0 id)) (fun t => (t.core 0).pc) = some 0x104 := by decide +kernel

/-- R499, and the double fault of R488. -/
theorem test_trap : after (exec (.trap 0 7) (core0 fun c => { c with vbase := 0x4000, ie := true })) (fun t =>
    ((t.core 0).pc, (t.core 0).epc, (t.core 0).ecause, (t.core 0).eaddr, (t.core 0).ie)) = some (0x4280, 0x104, 10, 7, false) := by decide +kernel
theorem test_doubleFault : ((core0 fun c => { c with nframes := 30, sptK := 0x80 }).spill 0 true).toOption.isNone = true := by decide +kernel
theorem test_illegal : hawkerDecode 0 0 = none ∧ after (exec (.illegal 0 0x04000080) (core0 id)) (fun t => ((t.core 0).ecause, (t.core 0).eaddr)) =
    some (2, 0x04000080) := by decide +kernel

/-- Control registers: CORE_ID is open to user mode, MFC of any other is not; a reserved selector; a spill register. -/
theorem test_mfc_coreId : after (exec (.mfc 5 8 0x0D) (live.setCore 5 (userCore {}))) (fun t => (t.core 5).get 8) = some 5 := by decide +kernel
theorem test_mfc_user : after (exec (.mfc 0 8 0) (core0 fun c => userCore c)) (fun t => (t.core 0).ecause) = some 3 := by decide +kernel
theorem test_mtc_vbase : ((core0 id).core 0).control 0 0x04 ≠ none ∧ ((core0 id).core 0).control 0 0x40 = none := by decide +kernel
theorem test_mtc_spill : after (exec (.mtc 0 8 8) (core0 fun c => c.set 8 64)) (fun t => (t.core 0).ecause) = some 2 := by decide +kernel

/-- Posts and waits. -/
theorem test_rdpost : after (exec (.rdpost 0 8 1) (core0 fun c => { c with posts := [(1, 9)] })) (fun t => ((t.core 0).get 8, (t.core 0).posts)) = some (9, []) := by decide +kernel
theorem test_rdpost_waits : after (exec (.rdpost 0 8 1) (core0 id)) (fun t => (t.core 0).postWait) = some (some (8, 1)) := by decide +kernel
theorem test_send : after (exec (.send 0 8 5) ((core0 fun c => c.set 8 9).setCore 1 {})) (fun t => look (t.core 1).posts 1) = some (some 9) := by decide +kernel
theorem test_send_waits : after (exec (.send 0 8 5) ((core0 fun c => c.set 8 9).setCore 1 { posts := [(1, 0)] })) (fun t =>
    (t.senders, (t.core 0).sendWait)) = some ([0], some (5, 9)) := by decide +kernel
theorem test_send_off : after (exec (.send 0 8 5) ((core0 id).setCore 1 { halted := true })) (fun t => ((t.core 0).ecause, (t.core 0).eaddr)) = some (0x0D, 1) := by decide +kernel
theorem test_send_selector : after (exec (.send 0 8 72) (core0 id)) (fun t => (t.core 0).ecause) = some 2 := by decide +kernel
theorem test_postDeliver : after (exec (.postDeliver 1 1) ({ (core0 fun c => { c with sendWait := some (5, 9) }).setCore 1 {} with senders := [0] })) (fun t =>
    (look (t.core 1).posts 1, t.senders, (t.core 0).sendWait)) = some (some 9, [], none) := by decide +kernel
theorem test_wfi : after (exec (.wfi 0) (core0 id)) (fun t => (t.core 0).wfi) = some true := by decide +kernel
theorem test_wfiWake : after (exec (.wfiWake 0) (core0 fun c => { c with wfi := true, ien := 0x20, ipend := 0x20 })) (fun t => (t.core 0).wfi) = some false := by decide +kernel
theorem test_interrupt : after (exec (.interruptTake 0) (core0 fun c => { c with ie := true, ien := 0x60, ipend := 0x60 })) (fun t =>
    ((t.core 0).ecause, (t.core 0).epc, (t.core 0).ipend)) = some (0x85, 0x100, 0x40) := by decide +kernel
theorem test_jtag : after (exec (.jtagAccess (.halt 0)) (with_ live .secState 0 0 F.secState_DEBUG_LEVEL 1)) (fun t => (t.core 0).debugHalt) = some true := by decide +kernel
theorem test_jtag_level0 : after (exec (.jtagAccess (.halt 0)) live) (fun t => (t.core 0).debugHalt) = some false := by decide +kernel

/-- Words of Tables 20.4 and 20.5, written out bit by bit. -/
theorem test_word_addi : hawkerDecode 0 0b000010_11001_01010_1111111111111000#32 = some (.addi 0 25 10 0xFFF8) := by decide +kernel
theorem test_word_call : hawkerDecode 0 0b101000_00000000000000000000010000#32 = some (.call 0 16) := by decide +kernel
theorem test_word_send : hawkerDecode 0 0b110000_00000_10000_0000_00010110_0011#32 = some (.send 0 16 0x16) := by decide +kernel
theorem test_word_reserved : hawkerDecode 0 0b101100_00000_00001_0000000000000000#32 = none := by decide +kernel

/-! The hypotheses of the other clauses. -/
def caller : State := ((core0 fun c => { c with nframes := 2, cwp := 1 }).poke 0x1000 [0x40#8]).fetchedBy 0 (formA 0x2C 0 0 0 0)
theorem witness_ret : ((caller.core 0).sp.toNat % 8 = 0 ∧ (caller.core 0).nframes = 2) ∧ (caller.coreLoad 0 0x1000 8).2.toOption.map leNat = some 0x40 := by
  have h : (caller.core (0 : CoreNo).val).cached 0x1000 8 = none := by decide +kernel
  have h1 : (0x1000 : W64).toNat = 0x1000 := rfl
  refine ⟨by decide +kernel, ?_⟩
  simp only [State.coreLoad, h1, h, ite_self]
  decide +kernel
theorem witness_loadBytes : 2 ^ 57 ≤ (0x0200_0000_0000_0000 : W64).toNat ∧ inRegSpace 0x0200_0000_0000_0000 = false ∧
    ({ kernel := false } : Core).permits 0x2000 1 = false ∧ State.reset.reaches (coreReq 0) 0x100_0000_0000_0000 8 = false := by decide +kernel
theorem witness_callFails : (30 ≤ ((core0 fun c => { c with nframes := 30, sptK := 0x80 }).core 0).nframes) ∧
    (((core0 fun c => { c with nframes := 30, sptK := 0x80 }).fetchedBy 0 (formD 0x28 16)).spill 0 false).toOption.isNone = true ∧
    ((core0 fun c => { c with s7k := 0 }).coreStore 0 (0 - 8) (leBytes 8 0x104)).2 = .error 6 := by decide +kernel
theorem test_mtc : after (exec (.mtc 0 8 5) (core0 fun c => c.set 8 0x4000)) (fun t => (t.core 0).vbase) = some 0x4000 := by decide +kernel
theorem test_mtc_splK : after (exec (.mtc 0 8 10) (core0 fun c => c.set 8 0x1000)) (fun t => ((t.core 0).splK, (t.core 0).pc)) = some (0x1000, 0x104) := by
  decide +kernel
theorem witness_jtag : (with_ live .secState 0 0 F.secState_DEBUG_LEVEL 1).debugLevel = 1 ∧ live.debugLevel = 0 ∧
    after (exec (.jtagAccess (.writeReg 0 .pc 8)) (with_ (core0 fun c => { c with debugHalt := true }) .secState 0 0 F.secState_DEBUG_LEVEL 1))
      (fun t => (t.core 0).pc) = some 8 := by decide +kernel

/-! ### Register space, memory and the Surveyor -/

/-- XIM_LOAD_ADDR's place, and the sizes and alignments of R64. -/
theorem test_offset : regAt 0 (Reg.offset ⟨.ximLoadAddr, 0, 0⟩) = some ⟨.ximLoadAddr, 0, 0⟩ ∧ (Reg.offset ⟨.ximLoadAddr, 0, 0⟩) % 8 = 0 := by decide +kernel
theorem test_offset_alias : regAt 0 (Reg.offset ⟨.regspBcastLast, 3, 0⟩) = some ⟨.regspBcastLast, 0, 0⟩ := by decide +kernel
def ximOff : BitVec 32 := BitVec.ofNat 32 (Reg.offset ⟨.ximLoadAddr, 0, 0⟩)
theorem test_registerWrite : after (exec (.registerWrite (.space kern ximOff) (leBytes 8 0x1000) []) live) (fun t => (t.rd ⟨.ximLoadAddr, 0, 0⟩).toNat) =
    some 0x1000 := by decide +kernel
theorem test_registerWrite_stray : after (exec (.registerWrite (.space user ximOff) (leBytes 8 0x1000) []) live) (fun t =>
    ((t.rd ⟨.ximLoadAddr, 0, 0⟩).toNat, t.fget ⟨.regspStrayCount, 0, 0⟩ F.regspStrayCount_COUNT, t.fget ⟨.regspStrayLast, 0, 0⟩ F.regspStrayLast_KIND)) =
    some (0, 1, 2) := by decide +kernel
theorem witness_registerWrite : live.targets kern ximOff.toNat = none ∧ live.offDark ximOff.toNat = false := by decide +kernel
theorem test_stray_size : halfOf ximOff.toNat 3 = none ∧ halfOf (ximOff.toNat + 2) 4 = none ∧
    after (exec (.registerWrite (.space kern ximOff) [0#8, 0#8, 0#8] []) live) (fun t => t.fget ⟨.regspStrayLast, 0, 0⟩ F.regspStrayLast_KIND) = some 1 := by
  decide +kernel
theorem test_stray_undefined : regAt 0 0xFF_FFF8 = none ∧ live.targets kern 0xFF_FFF8 = none ∧ live.offDark 0xFF_FFF8 = false ∧
    after (exec (.registerWrite (.space kern 0xFF_FFF8) (leBytes 8 1) []) live) (fun t =>
      (t.fget ⟨.regspStrayLast, 0, 0⟩ F.regspStrayLast_KIND, t.fget ⟨.regspStrayLast, 0, 0⟩ F.regspStrayLast_OFFSET)) = some (0, 0xFF_FFF8) := by
  decide +kernel
theorem test_readClear : live.withheld ximOff.toNat = false ∧
    after (exec (.readClear (.space kern ximOff) 8 []) (live.wr ⟨.ximLoadAddr, 0, 0⟩ 0x1000)) (fun t => t.out) = some [.regData kern 0x1000] := by decide +kernel
theorem test_readClear_undefined : live.withheld 0xFF_FFF8 = false ∧ after (exec (.readClear (.space kern 0xFF_FFF8) 8 []) live) (fun t => t.out) =
    some [.regData kern 0] := by decide +kernel
/-- A read of a group window without members: ADDRESSED 0, no SKIP (R59). -/
theorem test_multiTarget : (live.targets kern 0x6000_0000).map (fun x => (x.1.length, x.2)) = some (0, 1) ∧
    after (exec (.multiTargetRead kern 0x6000_0000 8 []) live) (fun t => t.rd ⟨.regspBcastLast, 0, 0⟩) = some 0 := by decide +kernel
theorem witness_groupMember : bitsOf 0x8000_0000_0000_0100 F.regspGrpMember_PORTER = 0 ∧ stallOk 0x1F = false ∧ stallOk 0x0F = true ∧ stallOk 0x400 = false := by
  decide +kernel
theorem test_timeout : unitOf 0x1000_0000 = some 0 ∧ live.offDark 0x1000_0000 = false ∧
    after (exec (.registerTimeout 0x1000_0000) live) (fun t => t.err.timedOut) = some [0] := by decide +kernel
theorem test_conserve : after (exec (.conserveCheck kern 0x41) live) (fun t => (t.rd ⟨.conserveStatus, 0, 0⟩).toNat) = some 0x3003 ∧
    live.injAt 0x0F 0 (fun _ => true) = none ∧ live.quiescent 0 = true := by decide +kernel
theorem test_conserveResult : after (exec (.conserveCheckResult 6 none) (live.wr ⟨.conserveStatus, 0, 0⟩ 0x3003)) (fun t =>
    (t.rd ⟨.conserveStatus, 0, 0⟩).toNat) = some 0x1003 := by decide +kernel
theorem witness_conserveUnit : live.conserveUnit 6 0x3FFF = true ∧ live.conserveUnit 0 5 = true ∧ live.conserveUnit 0 6 = false := by decide +kernel

/-- The last line of Square 1 and of Warehouse 11, and the first address past each (R37, R38). -/
def sqEnd : Nat := 0x1000_5800_0000 - 128
def whEnd : Nat := 0xC0_0000_0000 - 128
theorem test_homes : homeOf (sqEnd + 127) = .square 1 0x17FF_FFFF ∧ homeOf (sqEnd + 128) = .hole ∧ homeOf (whEnd + 127) = .warehouse 11 0xF_FFFF_FFFF ∧
    homeOf (whEnd + 128) = .hole := by decide +kernel
theorem witness_square : (acc (sqEnd + 120) 8 (some (leBytes 8 7))).wellFormed = true ∧ live.wrongBytes (sqEnd + 120) = [] ∧
    live.reaches 0 (sqEnd + 120) 8 = true ∧ live.injAt 0x01 (qUnit 1 0) (fun x => decide (x / 128 = (sqEnd + 120) / 128)) = none ∧
    live.inSpill (sqEnd + 120) 8 = false := by decide +kernel
theorem test_square_write : after (exec (.squareAccess 1 (acc (sqEnd + 120) 8 (some (leBytes 8 7)))) live) (fun t => (t.home.mem, t.out)) =
    some ([(sqEnd + 120, 7#8)], []) := by decide +kernel
theorem test_square_poison : after (exec (.squareAccess 1 { acc sqEnd 1 (some [0#8]) with poison := true }) live) (fun t => t.poisoned (sqEnd + 5)) = some true := by
  decide +kernel
theorem test_warehouse_read : after (exec (.warehouseAccess 11 (acc (whEnd + 127) 1 none)) (live.poke (whEnd + 127) [9#8])) (fun t => t.out) =
    some [.memData 0 [9#8] false] := by decide +kernel
theorem witness_warehouse : (acc (whEnd + 127) 1 none).wellFormed = true ∧ live.stackFailed 11 = false ∧ live.reaches 0 (whEnd + 127) 1 = true ∧
    live.injAt 0x02 (whUnit 11) (fun x => decide (x / 128 = (whEnd + 127) / 128)) = none := by decide +kernel
theorem test_hole_read : after (exec (.squareAccess 1 (acc (sqEnd + 128) 1 none)) live) (fun t => t.out.head?) = some (some (.memData 0 [0#8] true)) := by
  decide +kernel
/-- An active spill area at 0x1000_4000_0000: a write into its last byte completes with a fault (R489). -/
def spillHere : State := live.setCore 3 { spbK := 0x1000_4000_0000, splK := 0x1000_4000_0080, sptK := 0x1000_4000_0000 }
theorem test_spillArea : spillHere.inSpill 0x1000_4000_00FF 1 = true ∧ spillHere.inSpill 0x1000_4000_0100 1 = false ∧
    after (exec (.squareAccess 1 (acc 0x1000_4000_00FF 1 (some [1#8]))) spillHere) (fun t => (t.home.mem, t.out.head?)) = some ([], some (.memFault 0)) := by
  decide +kernel
/-- One wrong byte in a code group, and two (R245). -/
def oneWrong : State := { live with home := { live.home with wrong := [(sqEnd / 128, [31])] } }
def twoWrong : State := { live with home := { live.home with wrong := [(sqEnd / 128, [32, 63])] } }
theorem test_correct : (oneWrong.wrongBytes sqEnd, (oneWrong.squareGroup 1 sqEnd 0).wrongBytes sqEnd, (oneWrong.squareGroup 1 sqEnd 0).poisoned sqEnd,
    oneWrong.squareGroup 1 sqEnd 1 = oneWrong) = ([31], [], false, True) := by
  simp only [Prod.mk.injEq, eq_iff_iff, iff_true]
  decide +kernel
theorem test_uncorrectable : (twoWrong.squareGroup 1 sqEnd 1).poisoned sqEnd = true := by decide +kernel
/-- Scrubbing (R258) and the pool (R246). -/
def scrubOn : State := live.fset ⟨.whCtrl, 2, 0⟩ F.whCtrl_SCRUB_ENABLE 1
theorem test_scrub : after (exec (.warehouseScrub 2 (2 ^ 29 - 1) [] true) scrubOn) (fun t => look t.home.scrubAt 2) = some (some 0) ∧
    after (exec (.warehouseScrub 2 7 [] false) scrubOn) (fun t => look t.home.scrubAt 2) = some (some 8) := by decide +kernel
theorem test_scrub_off : (live.fset ⟨.whCtrl, 2, 0⟩ F.whCtrl_SCRUB_ENABLE 0).fbit ⟨.whCtrl, 2, 0⟩ F.whCtrl_SCRUB_ENABLE = false := by decide +kernel
theorem test_pool : after (exec (.squarePoolGrant 0 5) live) (fun t => lookD [] t.home.poolUsed 0) = some [5] := by decide +kernel
def poolFull : State := { live with home := { live.home with poolUsed := [(0, List.replicate 8192 1)] } }
theorem witness_poolFull : 8192 ≤ (lookD [] poolFull.home.poolUsed 0).length ∧ (lookD [] poolFull.home.poolWait 0).contains 5 = false := by decide +kernel

/-- The Surveyor. -/
def va (v : Nat) (w : Bool) : VAccess := { req := 0, asid := 1, va := v, write := w }
theorem witness_deny : (2 ^ 48 ≤ (va (2 ^ 48) false).va) ∧ (live.surveyor 0).failed.contains (va (2 ^ 48) false) = false ∧
    after (exec (.surveyorTranslate 0 (va (2 ^ 48) false)) live) (fun t => t.out) = some [.denied (va (2 ^ 48) false)] := by decide +kernel
/-- Leaf words: R alone; R with D; R, W and C; a page of another target. -/
theorem witness_leaf : [nbit 0x5 3, nbit 0x5 5, nbit 0x21 2, nbit 0x21 5, nbit 0x1D 3, nbit 0x1D 4, armsChannel 0x4000] =
    [false, false, false, true, true, true, true] ∧ 0x3000_0000_0000_0005 / 2 ^ 60 = 3 := by decide +kernel
theorem test_leaf_held : after (.next (live.leafAccess 0 0x21 0 (List.replicate 64 0#8) (va 0x1000 false)).1) (fun t => (t.surveyor 0).waiting) =
    some [va 0x1000 false] := by decide +kernel
theorem test_leaf_granted : (live.leafAccess 0 0x1005 0 (List.replicate 64 0#8) { va 0x1234 false with asid := 0 }).2 = .ok 0 0x1234 0 := by decide +kernel
/-- The records and what waits: an ATS answer, a page answer, an invalidation, a record that closes. -/
def waits : State := live.setSurveyor 0 { atsWait := [(key2 1 5, [va 0x5000 false])], pri := [(key2 1 5, ())] }
theorem test_ats : after (exec (.surveyorAtsResponse 0 1 5 (.pri false)) waits) (fun t => ((t.surveyor 0).failed, (t.surveyor 0).atsWait)) =
    some ([va 0x5000 false], []) := by decide +kernel
theorem witness_ats : look (waits.surveyor 0).atsWait (key2 1 5) = some [va 0x5000 false] ∧ look (waits.surveyor 0).ats (key2 1 5) = none ∧
    look (waits.surveyor 0).atsWait (key2 1 6) = none := by decide +kernel
theorem test_inval : after (exec (.surveyorInval kern 0 0) live) (fun t => (t.surveyor 0).inval.length) = some 1 ∧ bitsOf (0 : W64) F.surveyorInval_SCOPE ≠ 3 := by
  decide +kernel
theorem test_invalDone : after (exec (.surveyorInvalDone 0) (live.setSurveyor 0 { inval := [(2, 0, 0)] })) (fun t =>
    ((t.surveyor 0).inval, t.fget ⟨.surveyorInvalDone, 0, 0⟩ F.surveyorInvalDone_COUNT)) = some ([], 1) := by decide +kernel
def aRec : FaultRec := { page := 5, asid := 1, kind := 1, requester := 0, seq := 0, pa := 0, isOpen := true, joined := [va 0x5000 false] }
def recorded : State := live.setSurveyor 0 { recs := [(0xFF, aRec)] }
theorem test_resolveFail : after (exec (.surveyorResolveFail kern 0 0xFF) recorded) (fun t => ((t.surveyor 0).recs, (t.surveyor 0).failed)) =
    some ([], [va 0x5000 false]) := by decide +kernel
theorem test_resolveRetry : after (exec (.surveyorResolveRetry kern 0 0xFF) recorded) (fun t => (t.surveyor 0).recs) = some [] := by decide +kernel
theorem test_faultTimeout : after (exec (.surveyorFaultTimeout 0 0xFF) recorded) (fun t => ((t.surveyor 0).recs.map (·.2.isOpen), (t.surveyor 0).failed)) =
    some ([false], [va 0x5000 false]) := by decide +kernel
/-- A walk of four tables for ASID 0: the page at 0x1000 is mapped to 0x5000 with R, the page at 0x2000 has V clear and D set. -/
def sysT : Nat := 0x1000_0100_0000
def tables : State := [(0, sysT + 0x1001), (sysT + 0x1000, sysT + 0x2003), (sysT + 0x2000, sysT + 0x3003), (sysT + 0x3000, sysT + 0x4003),
  (sysT + 0x4008, 0x5005), (sysT + 0x4010, 0x20)].foldl (fun s x => s.poke x.1 (leBytes 8 x.2)) live
def access0 (a : Nat) (w : Bool) : VAccess := { req := 0x4000, asid := 0, va := a, write := w }
theorem test_translate : (tables.translate 0 (access0 0x1234 false)).2 = .ok 0 0x5234 0 ∧ (tables.translate 0 (access0 0x1234 true)).2 = .deny ∧
    (tables.translate 0 (access0 0x2234 false)).2 = .held := by decide +kernel

/-! ### Bells and Alley lines -/

/-- Counter 7 of Quarter 1 at `v`, with a waiter of task ring 3 for `m`. -/
def ctr (v : Nat) : State := live.fset ⟨.bellCntValue, 1, 7⟩ F.bellCntValue_COUNT v
def waiting (v m : Nat) : State := { ctr v with bell := { queue := [(4103, [⟨.task 3, m, false⟩])] } }
theorem witness_counter : (ctr 5).queue (ctrKey 1 7) = [] ∧ (ctr 5).snapBusy 1 = false ∧ (ctr 5).privileged (ctrKey 1 7) = false ∧
    (ctr 5).count24 (ctrKey 1 7) = 5 ∧ ctrKey 1 7 = 4103 := by decide +kernel
theorem test_signal_saturates : after (exec (.bellSignal kern 1 7 0xFFFFFF) (ctr 5)) (fun t => t.count24 4103) = some 0xFFFFFF := by decide +kernel
theorem test_signal_stray : after (exec (.bellSignal user 1 7 1) (ctr 5)) (fun t => (t.count24 4103, t.fget ⟨.regspStrayCount, 0, 0⟩ F.regspStrayCount_COUNT)) =
    some (5, 1) := by decide +kernel
theorem test_debit : after (exec (.bellDebit kern 1 7 6) (ctr 5)) (fun t => t.count24 4103) = some 0 := by decide +kernel
theorem test_set : after (exec (.bellSet kern 1 7 0) (ctr 5)) (fun t => t.count24 4103) = some 0 := by decide +kernel
theorem test_take : after (exec (.bellTake kern 1 7 5) (ctr 5)) (fun t => t.count24 4103) = some 0 ∧
    after (exec (.bellTake kern 1 7 6) (ctr 5)) (fun t => t.count24 4103) = some 5 := by decide +kernel
theorem test_release : after (exec (.bellSignal kern 1 7 1) (waiting 5 6)) (fun t => (t.count24 4103, t.queue 4103, t.bell.met)) =
    some (0, [], [.task 3]) := by decide +kernel
theorem test_no_release : after (exec (.bellSignal kern 1 7 1) (waiting 5 7)) (fun t => (t.count24 4103, (t.queue 4103).length)) = some (6, 1) := by
  decide +kernel
theorem test_wakeAll : after (exec (.bellWakeAll kern 1 7) (waiting 5 7)) (fun t => (t.count24 4103, t.bell.met)) = some (5, [.task 3]) := by decide +kernel

/-- Group 64 of Table 11.5 expects participants 0 and 63. -/
def group (arrived : W64) : State := (live.wr (grpExpect 64) 0x8000_0000_0000_0001).wr (grpArrived 64) arrived
theorem witness_group : (group 0).qFenced (grpQ 64) = false ∧ (group 0).snapBusy (grpQ 64) = false ∧ (∀ k ∈ [0, 4103], (group 1).attached k 64 = false) := by
  decide +kernel
theorem test_arrive : after (exec (.bellArrive kern false 64 63) (group 0)) (fun t => t.rd (grpArrived 64)) = some 0x8000_0000_0000_0000 := by decide +kernel
theorem test_arrive_last : after (exec (.bellArrive kern false 64 63) ((group 1).fset (grpCtrl 64) F.bellMbCtrl_RELEASE_CTR 0xFFFF)) (fun t =>
    (t.rd (grpArrived 64), t.fget (grpStatus 64) F.bellMbStatus_RELEASES)) = some (0, 1) := by decide +kernel
theorem test_arrive_early : after (exec (.bellArrive kern false 64 0) (group 1)) (fun t => (t.rd (grpArrived 64), t.fget (grpStatus 64) F.bellMbStatus_EARLY)) =
    some (1, 1) := by decide +kernel
theorem test_arrive_stray : after (exec (.bellArrive kern false 64 1) (group 0)) (fun t => t.rd (grpArrived 64)) = some 0 := by decide +kernel
theorem test_expect : after (exec (.bellExpectWrite kern 1 false 0 3) (group 0)) (fun t => t.rd (grpExpect 64)) = some 3 ∧
    after (exec (.bellExpectWrite kern 1 false 0 3) (group 1)) (fun t => (t.rd (grpExpect 64)).toNat) = some 0x8000_0000_0000_0001 := by decide +kernel
/-- An entry for participant 0xFF that waits for 1 on counter 4103, and one that names a participant of 64. -/
def entry (w0 : W64) : State := ((live.wr ⟨.bellSync, 1, 0⟩ w0).wr ⟨.bellSync, 1, 1⟩ 1).wr ⟨.bellSync, 1, 2⟩ 0xFFFF
theorem test_syncArm_bad : after (exec (.syncEntryArm kern 1 0 (1 <<< 63)) (entry 0x40_FFFF_1007)) (fun t => (t.armed 256, t.fget ⟨.bellSyncErr, 1, 0⟩ F.bellSyncErr_MALFORMED)) =
    some (false, 1) := by decide +kernel
theorem test_syncArm : ((entry 0xFF_FFFF_1007).wr (syncWord3 256) (1 <<< 63)).syncOk 256 = true ∧
    after (exec (.syncEntryArm kern 1 0 (1 <<< 63)) (entry 0xFF_FFFF_1007)) (fun t => (t.armed 256, t.queue 4103)) =
    some (true, [⟨.sync 1 0 0, 1, false⟩]) := by decide +kernel
theorem test_snapTake : after (exec (.bellSnapTake kern 1) live) (fun t => (t.snapBusy 1, look t.bell.snap 1)) = some (true, some (0, 0, 0)) := by decide +kernel
def snapping : State := { live.fset ⟨.bellSnapCtrl, 1, 0⟩ F.bellSnapCtrl_BUSY 1 with bell := { snap := [(1, (0, 0, 0))] } }
theorem witness_snap : snapping.snapBusy 1 = true ∧ snapping.bell.deferred = [] := by decide +kernel

/-- Core 4 lies in Quarter 1; participant 48. -/
theorem test_alleyRaise : after (exec (.alleyRaise (.core 4 true) 1 0) (live.wr ⟨.alleyEn, 1, 0⟩ 0x3_0000_0000_0000)) (fun t => (t.rd ⟨.alleyState, 1, 0⟩).toNat) =
    some 0x1_0000_0000_0000 := by decide +kernel
theorem test_alleyRaise_other : after (exec (.alleyRaise (.core 3 true) 1 0) live) (fun t => (t.rd ⟨.alleyState, 1, 0⟩).toNat) = some 0 := by decide +kernel
theorem test_alleyEn : live.alleyMaskOk 1 0 0x1_0000_0000_0000 = true ∧ after (exec (.alleyEnWrite kern 1 0 0x1_0000_0000_0000) live) (fun t =>
    (t.rd ⟨.alleyEn, 1, 0⟩).toNat) = some 0x1_0000_0000_0000 := by decide +kernel

/-! ### Porters, Streets, Boulevards and the Weighmaster -/

/-- A precinct that holds the stalls 0x000 to 0x00F, the channels 0 to 3, and the counters 0 to 15 of Quarter 0. -/
def prec5 : Precinct := { id := 5, stalls := [0xFFFF, 0xFF, 0xF, 3, 0xF, 3, 3, 1, 1, 1, 1], porter := 0xF, share := [], bells := [(0, 16)] }
def owned : State := { live with xim := { conf := { precincts := [prec5] } } }
def chainCh : State := owned.fset (chCfg 2) F.porterChCfg_MODE 1
def runs (n : Nat) (c : Chan) (len : Nat) : State :=
  ((owned.setChanState n 1).setChan n c).wr ⟨.porterChAct, n, 3⟩ (BitVec.ofNat 64 len)
theorem test_go_chain : chainCh.precOfChan 2 = some 5 ∧ chainCh.chainMode 2 = true ∧ chainCh.chanState 2 = 0 ∧
    after (exec (.porterGo kern 2) (chainCh.fset ⟨.porterChHead, 2, 0⟩ F.porterChHead_ADDR 4)) (fun t => ((t.chan 2).fetchAt, t.chanState 2)) =
    some (some 256, 1) := by decide +kernel
theorem test_go_register : owned.chainMode 2 = false ∧ after (exec (.porterGo kern 2) (owned.setChanState 2 1)) (fun t => t.chGo 2) = some true := by decide +kernel
theorem test_go_stray : live.precOfChan 2 = none ∧ after (exec (.porterGo kern 2) live) (fun t => t.fget ⟨.regspStrayCount, 0, 0⟩ F.regspStrayCount_COUNT) = some 1 := by
  decide +kernel
theorem test_abort : after (exec (.porterAbort kern 2) (runs 2 { busy := true, issued := 128 } 256)) (fun t => (t.chanState 2, (t.chan 2).aborted, (t.chan 2).issued)) =
    some (3, true, 128) := by decide +kernel
theorem test_resume : after (exec (.porterResume kern 2) (chainCh.setChanState 2 5)) (fun t => ((t.chan 2).reread, t.chanState 2)) = some (true, 1) := by decide +kernel
theorem test_doorbell : after (exec (.porterDoorbell kern 2) (owned.setChanState 2 1)) (fun t => (t.fget ⟨.porterChDbCount, 2, 0⟩ F.porterChDbCount_COUNT,
    t.fget (chStateReg 2) F.porterChState_DB_PENDING)) = some (1, 1) ∧
    after (exec (.porterDoorbell kern 2) (owned.setChanState 2 4)) (fun t => (t.chan 2).reread) = some true := by decide +kernel
theorem witness_fetch : after (exec (.porterDescFetch 2) ((chainCh.setChanState 2 1).setChan 2 { fetchAt := some (2 ^ 48) })) (fun t => t.chanState 2) = some 5 ∧
    (chainCh.descRead 2 (2 ^ 48)).2 = some (.error 0x31) := by decide +kernel
/-- A descriptor at the address that `tables` maps, with V set. -/
def descHere : State := (tables.poke 0x5260 [0#8]).poke 0x526A [1#8]
theorem witness_fetched : ((descHere.descRead 2 0x1240).2.bind (·.toOption)).map dFlags = some 1 := by decide +kernel
theorem test_waitMet : after (exec (.porterWaitMet 2) { runs 2 { busy := true } 256 with
    regs := ((runs 2 { busy := true } 256).setChanState 2 2).regs, bell := { met := [.chan 2] } }) (fun t => (t.chanState 2, t.bell.met)) = some (1, []) := by
  decide +kernel
/-- One eligible channel; a burst of 64 that is read. -/
def el1 : State := runs 2 { busy := true } 256
theorem witness_eligible : ((List.range 64).map (64 * 0 + ·)).filter (fun x => el1.eligible x) = [2] ∧ el1.qFenced 0 = false ∧ el1.prio 2 = 0 ∧
    (el1.pick 0 0 [2]).2.isSome = true := by decide +kernel
def aBurst : Burst := { id := 4, phase := .read, src := 0, dst := 0x100, len := 4, srcPa := 0x2000, dstPa := 0x3000 }
def reading : State := (runs 2 { busy := true, issued := 256, flight := [aBurst] } 256).poke 0x2000 [1#8, 2#8, 3#8, 4#8]
theorem test_burst : reading.burst 2 4 = some aBurst ∧ reading.burst 2 5 = none ∧ after (exec (.porterBurstResponse 2 4 (.ok [] false)) reading) (fun t =>
    t.bytes 0x3000 5) = some [1#8, 2#8, 3#8, 4#8, 0#8] := by decide +kernel
def moved : State := (runs 2 { busy := true, issued := 256 } 256).wr ⟨.porterChAct, 2, 5⟩ 0xFFFF
theorem witness_moved : moved.drained 2 = true ∧ dSigCtr (moved.act 2) = 0xFFFF ∧ dIrq (moved.act 2) = false ∧ dBarrier (moved.act 2) = false ∧
    moved.chGo 2 = false := by decide +kernel
theorem test_descComplete : after (exec (.porterDescComplete 2) moved) (fun t => (t.chanState 2, t.chan 2)) = some (0, {}) := by decide +kernel

/-- A route from port 0 of stall 0 to port 0 of stall 0x010 (R248). -/
def routeV (src dst p : Nat) : W64 := (((live.fset (routeReg 0 9) F.streetRoute_SRC_STALL src).fset (routeReg 0 9) F.streetRoute_DST_STALL dst).fset
  (routeReg 0 9) F.streetRoute_PRECINCT p).rd (routeReg 0 9)
def routed : State := owned.wr (routeReg 0 9) (routeV 0 0x10 5) |>.fset (routeReg 0 9) F.streetRoute_VALID 1 |>.fset (routeReg 0 9) F.streetRoute_ACTIVE 1
def fl : Flit := ⟨[7#8], true, false⟩
def credits (n : Nat) (o i : List Flit) : State := { routed with street := { outq := [(key2 0 0, o)], inq := [(key2 16 0, i)], credits := [(key2 0 9, n)] } }
theorem test_routeSetup : owned.routeOk 0 9 (routeV 0 0x10 5) = true ∧ after (exec (.streetRouteSetup kern 0 9 (routeV 0 0x10 5)) owned) (fun t =>
    (t.routeActive 0 9, t.routeCredits 0 9)) = some (true, 32) := by decide +kernel
theorem test_routeSetup_stray : owned.routeOk 0 9 (routeV 0 0x10 6) = false ∧ routed.routeOk 0 8 (routeV 0 0x11 5) = false := by decide +kernel
theorem test_teardown : routed.fbit (routeReg 0 9) F.streetRoute_BORDER = false ∧
    after (exec (.streetRouteTeardown kern 0 9 0) routed) (fun t => (t.routeActive 0 9, t.fget (routeReg 0 9) F.streetRoute_VALID)) = some (true, 0) := by decide +kernel
theorem test_drained : after (exec (.streetRouteDrained 0 9) ((credits 32 [] []).fset (routeReg 0 9) F.streetRoute_VALID 0)) (fun t => t.routeActive 0 9) = some false := by
  decide +kernel
theorem test_flit : after (exec (.streetFlit 0 9 false) (credits 1 [fl] [])) (fun t => (t.inFlits 16 0, t.routeCredits 0 9)) = some ([fl], 0) ∧
    after (exec (.streetFlit 0 9 false) (credits 0 [fl] [])) (fun t => t.inFlits 16 0) = some [] := by decide +kernel
theorem test_creditReturn : (credits 31 [] [fl]).pieceLater 16 0 = false ∧ after (exec (.streetCreditReturn 0 9) (credits 31 [] [fl])) (fun t =>
    (t.routeCredits 0 9, t.inFlits 16 0)) = some (32, []) := by decide +kernel

/-- Boulevards: Quarter 0 to Quarter 1 UP. -/
def blvdUp : State := (live.fset (blvdReg 0 1) F.blvdState_STATE 2).fset (blvdReg 1 0) F.blvdState_STATE 2
theorem test_transfer : homeQ 0x1000_4000_0000 = 1 ∧ reqQ 0 ≠ 1 ∧ HomeAccess_buffers (acc 0x1000_4000_0000 1 (some [5#8])) ≤ 4096 ∧
    after (exec (.blvdTransfer 0 1 false (acc 0x1000_4000_0000 1 (some [5#8])) .acked) blvdUp) (fun t => (t.byte 0x1000_4000_0000, (t.blvdDir 0 1).applied)) =
    some (5#8, 1) := by decide +kernel
theorem test_retrained : after (exec (.blvdRetrained 0 1) live) (fun t => (t.blvdIs 0 1 3, t.blvdIs 1 0 3)) = some (true, true) := by decide +kernel
theorem test_drainDone : after (exec (.blvdRelayDrainDone 0 1) ((live.fset (blvdReg 0 1) F.blvdState_STATE 3).fset (blvdReg 1 0) F.blvdState_STATE 3)) (fun t =>
    (t.blvdIs 0 1 2, t.blvdIs 1 0 2)) = some (true, true) := by decide +kernel

/-- The Weighmaster: a slot at its last value, chained and not. -/
def slotFull : State := live.fset (wmReg 0 0 0) F.wmCnt_COUNT (2 ^ 48 - 1)
theorem test_carry : wmSlotOk 0 0 0 = true ∧ slotFull.slotArmed 0 0 0 = false ∧ after (exec (.wmCounterCarry 0 0 0 1 0 0 false) slotFull) (fun t =>
    (t.fget (wmReg 0 0 0) F.wmCnt_COUNT, t.fget (wmReg 0 0 0) F.wmCnt_WRAPPED)) = some (0, 1) := by decide +kernel
theorem test_carry_chained : after (exec (.wmCounterCarry 0 0 0 1 0 0 false) (slotFull.wr ⟨.wmChain, 0, 0⟩ 1)) (fun t =>
    (t.fget (wmReg 0 0 16) F.wmCnt_COUNT, t.fget (wmReg 0 0 0) F.wmCnt_WRAPPED)) = some (1, 0) := by decide +kernel
theorem test_counterWrite : after (exec (.wmCounterWrite kern 0 0 0 7) slotFull) (fun t => t.fget (wmReg 0 0 0) F.wmCnt_COUNT) = some 7 := by decide +kernel
theorem test_chainWrite : after (exec (.wmChainWrite kern 0 0 1) (slotFull.wr (wmReg 0 0 16) 9)) (fun t => (t.fget (wmReg 0 0 16) F.wmCnt_COUNT, t.chained 0 0 0)) =
    some (0, true) := by decide +kernel
theorem witness_noSlot : wmSlotOk 0 57 15 = false ∧ wmSlotOk 1 57 0 = false := by decide +kernel

/-! ### Kiosks and dockets -/

/-- An instance of precinct 5, the PF of host port 0 with its session open, and a message of a TYPE at the head of its Kiosk. -/
def inst0 : Inst := { prec := 5, asid := 3, whGib := 1, sqMib := 1, carterConn := 4, ledgerQ := 4, cashboxCtx := 4, counterMask := 0 }
def session : Func := { isOpen := true, inst := some inst0 }
def manager : Func := { isOpen := true, role := true }
def message (t : Nat) (b : Bytes) : Bytes := leBytes 2 t ++ leBytes 2 9 ++ leBytes 4 0 ++ b ++ List.replicate (56 - b.length) 0#8
def sends (s : State) (x : Func) (t : Nat) (b : Bytes) : State := s.setFunc 0 { x with h2d := [(0, message t b)], h2dTail := 1 }
def kiosk (t : Nat) (b : Bytes) : State := sends owned session t b
/-- Statuses of the messages waiting to be posted. -/
def replies (t : State) : List Nat := (t.func 0).d2hWait.map fun m => leAt m 4 1

theorem witness_kiosk : (kiosk 0x0011 (leBytes 8 7)).headMsg 0 = some (message 0x0011 (leBytes 8 7)) ∧
    ((kiosk 0x0011 (leBytes 8 7)).takeMsg 0 0x0011 8).toOption = some (message 0x0011 (leBytes 8 7)) ∧ (kiosk 0x0011 []).inst 0 = some inst0 := by decide +kernel
/-- Refusals of R478: another TYPE, no session, no role, no instance, a reserved byte. -/
theorem test_take_other : after (exec (.docketSubmit 0 [] []) (kiosk 0x0011 [])) replies = some [] := by decide +kernel
theorem test_take_closed : after (exec (.docketCancel 0) (sends owned { session with isOpen := false } 0x0011 [])) replies = some [6] := by decide +kernel
theorem test_take_manager : msgRole 0x0100 = some 2 ∧ after (exec (.instanceDestroy 0) (sends owned session 0x0101 [])) replies = some [5] := by decide +kernel
theorem test_take_noInstance : msgRole 0x0011 = some 1 ∧ after (exec (.docketCancel 0) (sends owned manager 0x0011 [])) replies = some [7] := by decide +kernel
theorem test_take_paused : (sends (owned.fset ⟨.ximPrecState, 5, 0⟩ F.ximPrecState_STATE 2) session 0x0011 []).precPaused 5 = true := by decide +kernel
theorem test_take_reserved : after (exec (.docketCancel 0) (kiosk 0x0011 (leBytes 8 7 ++ [1#8]))) replies = some [1] := by decide +kernel

/-- A docket of one BARRIER-free operation, outstanding. -/
def op0 : DOp := {
  opcode := 0x03, policy := 0, flags := 0, pred := noRef, hint := 0, wait0 := noRef, wait1 := noRef, count0 := 0, count1 := 0, sig := 0, sigCount := 2
  ins := [], outs := [], params := [] }
def prog0 : DocketP := { version := 0x100, certified := false, policy := 0, bufs := [], ctrs := [], preds := [], ops := [op0], cert := [] }
def docket0 (ph : OpPhase) (e : Option (Nat × Nat)) : Docket := {
  func := 0, tag := 7, addr := 0, complAddr := 64, prog := prog0, phases := [ph], ctrs := [2 ^ 24 - 2], ending := e }
def docketed (d : Docket) (t : Nat) (b : Bytes) : State := sends owned { session with inst := some { inst0 with dockets := [d] } } t b
theorem test_submit_malformed : after (exec (.docketSubmit 0 [] []) (kiosk 0x0010 (leBytes 8 0 ++ leBytes 4 64 ++ leBytes 4 0 ++ leBytes 8 32 ++ leBytes 8 7))) replies =
    some [1] := by decide +kernel
def full64 : State := sends owned { session with inst := some { inst0 with dockets := List.replicate 64 (docket0 .waiting none) } } 0x0010 []
theorem test_submit_busy : after (exec (.docketSubmit 0 [] []) full64) replies = some [2] := by decide +kernel
theorem test_cancel : ((docketed (docket0 .waiting none) 0x0011 (leBytes 8 7)).docket 0 7).isSome = true ∧
    after (exec (.docketCancel 0) (docketed (docket0 .waiting none) 0x0011 (leBytes 8 7))) (fun t => (replies t, ((t.docket 0 7).bind (·.2.ending)).map (·.1))) =
    some ([0], some 0x10) := by decide +kernel
theorem test_cancel_over : (docket0 .done none).over = true ∧ after (exec (.docketCancel 0) (docketed (docket0 .done none) 0x0011 (leBytes 8 7))) replies = some [3] ∧
    after (exec (.docketCancel 0) (docketed (docket0 .waiting none) 0x0011 (leBytes 8 8))) replies = some [3] := by decide +kernel
/-- An operation in its turn, its waits met; a parked one; one whose end is recorded. -/
theorem witness_start : (docket0 .waiting none).inTurn inst0 0 op0 = true ∧ owned.waitsMet (docket0 .waiting none) op0 = true ∧ owned.parks 0 inst0 = false ∧
    op0.waits = [] := by decide +kernel
theorem test_opEnded : ((docket0 .running none).opEnded 0 op0 { status := 0 }).ctrs = [2 ^ 24 - 1] ∧
    ((docket0 .running none).opEnded 0 op0 { status := 0x0B }).ending = some (0x0B, 0) ∧ ((docket0 .running none).opEnded 0 op0 { status := 0x0F }).ctrs = [2 ^ 24 - 2] := by
  decide +kernel
theorem test_operationStart : after (exec (.operationStart 0 7 0 [] []) (owned.setFunc 0 { session with inst := some { inst0 with dockets := [docket0 .done none] } }))
    (fun t => ((t.docket 0 7).map (·.2.phases))) = some (some [.done]) := by decide +kernel
theorem witness_hang : after (exec (.bellHang 1 (.waiter 7 0)) (((waiting 5 6).fset ⟨.bellCntCfg, 1, 7⟩ F.bellCntCfg_ATTACH 1).fset (grpCtrl 64) F.bellMbCtrl_HANG_LIMIT_US 1)) (fun t =>
    ((t.queue 4103).map (·.hung), t.fget (ctrStatus 4103) F.bellCntStatus_HANG)) = some ([true], 1) ∧ (waiting 5 6).hangLimit 4103 = 0 := by decide +kernel

/-- The rings and the session. -/
def linked (x : Func) : State := { owned.setFunc 0 x with host := { (owned.setFunc 0 x).host with ports := [(0, { linkUp := true, perst := false })] } }
theorem test_tail16 : (linked session).hostReaches 0 = true ∧ after (exec (.kioskH2dTailWrite 0 16) (linked session)) (fun t => (t.func 0).h2dTail) = some 16 ∧
    after (exec (.kioskH2dTailWrite 0 17) (linked session)) (fun t => ((t.func 0).h2dTail, (t.func 0).stray)) = some (0, 1) := by decide +kernel
theorem test_d2hHead : after (exec (.kioskD2hHeadWrite 0 2) (linked { session with d2hTail := 2 })) (fun t => (t.func 0).d2hHead) = some 2 ∧
    after (exec (.kioskD2hHeadWrite 0 3) (linked { session with d2hTail := 2 })) (fun t => ((t.func 0).d2hHead, (t.func 0).stray)) = some (0, 1) := by decide +kernel
theorem test_d2hPost : after (exec (.kioskD2hPost 0) (linked { session with d2hWait := [[5#8]], d2hTail := 65535, d2hHead := 65520 })) (fun t => (t.func 0).d2hTail) =
    some 0 ∧ after (exec (.kioskD2hPost 0) (linked { session with d2hWait := [[5#8]], d2hTail := 16 })) (fun t => (t.func 0).d2hTail) = some 16 := by decide +kernel
theorem test_beat : after (exec (.kioskBeatTick 0) (linked { session with beatDevice := 0xFFFF_FFFF })) (fun t => (t.func 0).beatDevice) = some 0 := by decide +kernel
theorem test_driverLost : after (exec (.driverLostHeartbeat 0) (linked { session with beatSeen := true })) (fun t => (t.func 0).driverLost) = some true := by decide +kernel
theorem test_holdExpire : after (exec (.driverHoldExpire 0) (linked { session with driverLost := true, inst := some { inst0 with dockets := [docket0 .waiting none] } }))
    (fun t => (t.inst 0).map (·.dockets.length)) = some (some 0) := by decide +kernel
/-- KIOSK_OPEN with versions 2.0 and 1.3, and with 2.0 only. -/
theorem test_open : after (exec (.kioskOpen 0) (sends owned { session with isOpen := false } 1 ([0#8, 2#8] ++ leBytes 2 0x200 ++ leBytes 2 0x103))) (fun t =>
    ((t.func 0).isOpen, (t.func 0).version, replies t)) = some (true, 0x100, [0]) := by decide +kernel
theorem test_open_version : after (exec (.kioskOpen 0) (sends owned { session with isOpen := false } 1 ([0#8, 1#8] ++ leBytes 2 0x200))) replies = some [0x7F] := by
  decide +kernel
theorem test_close : after (exec (.kioskClose 0) (kiosk 2 [])) (fun t => ((t.func 0).isOpen, replies t)) = some (false, [0]) ∧
    after (exec (.kioskClose 0) (docketed (docket0 .waiting none) 2 [])) replies = some [2] := by decide +kernel

/-- Handles. -/
theorem test_commDestroy : after (exec (.commDestroy 0) (kiosk 0x0021 (leBytes 4 1))) replies = some [3] ∧
    after (exec (.commDestroy 0) (sends owned { session with inst := some { inst0 with comms := [{ handle := 1, id := 0, size := 1, rank := 0, conns := [] }] } } 0x0021
      (leBytes 4 1))) (fun t => (replies t, (t.inst 0).map (·.comms.length))) = some ([0], some 0) := by decide +kernel
theorem test_commCreate_rank : after (exec (.commCreate 0 1 []) (kiosk 0x0020 (leBytes 8 0 ++ leBytes 2 1 ++ leBytes 2 1))) replies = some [1] := by decide +kernel
theorem test_keyGenerate : after (exec (.keyGenerate 0 3) (kiosk 0x0030 [2#8])) (fun t => (replies t, (t.keyEnt 3).used, (t.keyEnt 3).algo)) = some ([0], true, 2) ∧
    after (exec (.keyGenerate 0 3) (kiosk 0x0030 [6#8])) replies = some [1] := by decide +kernel
def keyed (s : State) : State := s.setKeyEnt 3 { used := true, owner := 0, algo := 2, key := List.replicate 32 1#8 }
theorem test_keyDestroy : after (exec (.keyDestroy 0) (keyed (kiosk 0x0032 (leBytes 4 3)))) (fun t => (replies t, (t.keyEnt 3).used)) = some ([0], false) ∧
    after (exec (.keyDestroy 0) (kiosk 0x0032 (leBytes 4 3))) replies = some [3] := by decide +kernel
theorem test_ctxCreate : after (exec (.ctxCreate 0 9) (keyed (kiosk 0x0033 (leBytes 4 2 ++ leBytes 4 3)))) (fun t => (replies t, (t.ctxRec 9).state, (t.ctxRec 9).prec)) =
    some ([0], 1, 5) := by decide +kernel
theorem test_ctxDestroy : after (exec (.ctxDestroy 0) ((kiosk 0x0034 (leBytes 4 9)).setCtxRec 9 { state := 1, inst := 0 })) (fun t => (replies t, (t.ctxRec 9).state)) =
    some ([0], 0) ∧ after (exec (.ctxDestroy 0) ((kiosk 0x0034 (leBytes 4 9)).setCtxRec 9 { state := 1, inst := 1 })) replies = some [5] ∧
    after (exec (.ctxDestroy 0) (kiosk 0x0034 (leBytes 4 9))) replies = some [3] := by decide +kernel

/-- Queues, rings, connections and regions. -/
def vol0 : Volume := { owner := 0, blocks := 8, log2 := 12, minHealthy := 1, replicas := [{}] }
def withVolume (s : State) : State := s.setVolume 2 vol0
theorem test_queueDelete : after (exec (.ledgerQueueDelete 0) ((kiosk 0x0041 (leBytes 2 4)).setLqueue 4 { func := 0 })) (fun t => (replies t, (t.lqueue 4).isNone)) =
    some ([0], true) ∧ after (exec (.ledgerQueueDelete 0) (kiosk 0x0041 (leBytes 2 4))) replies = some [3] := by decide +kernel
theorem test_queueReset : after (exec (.ledgerQueueReset 0) ((kiosk 0x0042 (leBytes 2 4)).setLqueue 4 { func := 0, sqTail := 3 })) replies = some [0] ∧
    after (exec (.ledgerQueueReset 0) (kiosk 0x0042 (leBytes 2 4))) replies = some [3] := by decide +kernel
def ringMsg (t target : Nat) : State := kiosk t (leBytes 8 0x1000 ++ leBytes 8 0x2000 ++ leBytes 4 4 ++ leBytes 4 target)
theorem test_rxqCreate : after (exec (.rxqCreate 0 11 0) (ringMsg 0x0050 4095)) (fun t => (replies t, (t.ring 11).isSome, (t.func 0).slots.length)) =
    some ([0], true, 1) ∧ after (exec (.rxqCreate 0 11 0) (ringMsg 0x0050 4096)) replies = some [1] := by decide +kernel
def node0 : TbNode := { level := 3, prec := 5, weight := 1, parent := 0, cir := 0, pir := 0, cbs := 0, pbs := 0, qlimit := 10, delimit := 5, tc := 0, tp := 0, last := 0 }
theorem test_txrCreate : after (exec (.txrCreate 0 11 0) ((ringMsg 0x0051 7).setNode 0 3 7 node0)) (fun t => (replies t, (t.ring 11).map (·.tx))) =
    some ([0], some true) ∧ after (exec (.txrCreate 0 11 0) (ringMsg 0x0051 (2 ^ 20))) replies = some [1] := by decide +kernel
def ring0 (f : Nat) (tx : Bool) : Ring := { func := f, prec := 5, asid := 0, tx := tx, buf := 0x1000, cpl := 0x2000, log2 := 4, msix := 0, target := 7 }
theorem test_ringDestroy : after (exec (.ringDestroy 0) ((kiosk 0x0052 (leBytes 4 11)).setRing 11 (ring0 0 false))) (fun t => (replies t, (t.ring 11).isNone)) =
    some ([0], true) ∧ after (exec (.ringDestroy 0) ((kiosk 0x0052 (leBytes 4 11)).setRing 11 (ring0 1 false))) replies = some [5] := by decide +kernel
theorem test_tollSet : after (exec (.tollSet 0) ((kiosk 0x0053 (leBytes 4 7 ++ leBytes 2 9 ++ leBytes 2 0 ++ leBytes 4 0 ++ leBytes 4 1600000 ++ leBytes 4 64 ++
    leBytes 4 64)).setNode 0 3 7 node0)) (fun t => (replies t, (t.node 0 3 7).map (·.weight))) = some ([0], some 9) := by decide +kernel
def conn0 (st : Nat) : CarterCtx := { state := st, func := some 0, cfg := List.replicate 128 0#8 }
theorem test_connDestroy : after (exec (.connDestroy 0) ((kiosk 0x0063 (leBytes 4 6)).setConn 6 (conn0 1))) (fun t => (replies t, (t.conn 6).state)) = some ([0], 0) ∧
    after (exec (.connDestroy 0) (kiosk 0x0063 (leBytes 4 6))) replies = some [3] := by decide +kernel
theorem test_connReset : after (exec (.carterReset (.msg 0)) ((kiosk 0x0062 (leBytes 4 6)).setConn 6 (conn0 4))) (fun t => (replies t, (t.conn 6).state, (t.conn 6).epoch)) =
    some ([0], 1, 1) := by decide +kernel
theorem test_regionRegister : after (exec (.regionRegister 0 5) (kiosk 0x0064 (leBytes 8 0x1000 ++ leBytes 8 64 ++ [3#8]))) (fun t =>
    (replies t, (t.region 5).access, (t.region 5).asid)) = some ([0], 0x83, 3) ∧
    after (exec (.regionRegister 0 5) (kiosk 0x0064 (leBytes 8 0x1000 ++ leBytes 8 64 ++ [16#8]))) replies = some [1] := by decide +kernel
theorem test_regionInval : after (exec (.carterRegionInval (.msg 0)) ((kiosk 0x0065 (leBytes 4 5)).setRegion 5 { access := 0x83, asid := 3 })) (fun t =>
    (replies t, (t.region 5).access, (t.region 5).gen)) = some ([0], 3, 1) := by decide +kernel

/-! ### Causeway -/

def stateL (n : Nat) : State := live.setLinkState 5 n
def upL : State := ((live.setLink 5 { width := 4 }).setLinkState 5 3).fset ⟨.cwLinkCtrl, 5, 0⟩ F.cwLinkCtrl_ENABLE 1
def cwMsg (t : Nat) (n : Nat) (d : Bytes) : CwMsg := { type := t, flags := 0, length := n, tag := 9, status := 0, addr := 0x1234, data := d }
def heads (s : State) (m : CwMsg) : State := s.setLink 5 { s.link 5 with rxq := [m] }
theorem test_grpCtrl : after (exec (.cwGrpCtrlWrite kern 1 ((live.fset (grpCtrlReg 1) F.cwGrpCtrl_MODE 1).rd (grpCtrlReg 1))) live) (fun t => t.rpMode 5) = some true ∧
    after (exec (.cwGrpCtrlWrite kern 1 0) ((live.fset (grpCtrlReg 1) F.cwGrpCtrl_MODE 1).fset (grpCtrlReg 1) F.cwGrpCtrl_ENABLE 1)) (fun t => t.rpMode 5) = some true := by
  decide +kernel
def enableV : W64 := (live.fset (linkCtrl 5) F.cwLinkCtrl_ENABLE 1).rd (linkCtrl 5)
theorem test_enable : live.rpMode 5 = false ∧ after (exec (.cwLinkEnable kern 5 enableV) live) (fun t => t.linkState 5) = some 1 ∧
    after (exec (.cwLinkEnable kern 5 enableV) upL) (fun t => t.linkState 5) = some 3 ∧ after (exec (.cwLinkRetrain kern 5 enableV) upL) (fun t => t.linkState 5) = some 1 := by
  decide +kernel
theorem test_disable : after (exec (.cwLinkEnable kern 5 0) upL) (fun t => t.linkState 5) = some 0 := by decide +kernel
theorem test_trained : after (exec (.cwLinkTrained 5 4 0) (stateL 1)) (fun t => (t.linkState 5, (t.link 5).width)) = some (2, 4) ∧
    after (exec (.cwLinkTrained 5 0 0) (stateL 1)) (fun t => t.linkState 5) = some 0 ∧ State.reset.portsTrain = false := by decide +kernel
theorem test_version : after (exec (.cwVersion 5) (heads (stateL 2) (cwMsg 6 4 (leBytes 2 0x200 ++ leBytes 2 0x1FF)))) (fun t =>
    (t.linkState 5, t.fget (linkStatus 5) F.cwLinkStatus_VERSION)) = some (3, 0x100) := by decide +kernel
theorem test_version_none : after (exec (.cwVersion 5) (heads (stateL 2) (cwMsg 6 2 (leBytes 2 0x200)))) (fun t =>
    (t.linkState 5, t.fget (linkStatus 5) F.cwLinkStatus_NEG_STATUS)) = some (5, 0x7F) := by decide +kernel
theorem test_cwFlit : upL.injAt 0x05 (linkUnit 5) (fun _ => true) = none ∧ after (exec (.cwFlit 5 0 true [cwMsg 1 1 [7#8]]) upL) (fun t =>
    ((t.link 5).nextSeq, (t.link 5).rxq.length)) = some (1, 1) ∧ after (exec (.cwFlit 5 1 true [cwMsg 1 1 [7#8]]) upL) (fun t => (t.link 5).rxq.length) = some 0 := by
  decide +kernel
theorem test_lane : after (exec (.cwLaneFailure 5 0) upL) (fun t => t.linkState 5) = some 4 ∧
    after (exec (.cwLaneFailure 5 0) (upL.setLink 5 { width := 1 })) (fun t => t.linkState 5) = some 0 := by decide +kernel
theorem test_narrowed : after (exec (.cwNarrowed 5 true) (upL.setLinkState 5 4)) (fun t => (t.linkState 5, (t.link 5).width)) = some (3, 2) := by decide +kernel
theorem test_tagRelease : after (exec (.cwTagRelease 5 7) (upL.setLink 5 { expired := [(7, ()), (8, ())] })) (fun t => (t.link 5).expired.map (·.1)) = some [8] := by
  decide +kernel
/-- Messages that cannot be carried out: a length of 0, 257 bytes, 4097 bytes; one of another type is left. -/
theorem test_cwWrite_bad : cwMsgOk (cwMsg 1 0 []) = true ∧ after (exec (.cwWrite 5) (heads upL (cwMsg 1 0 []))) (fun t => (t.link 5).rxq.length) = some 0 ∧
    after (exec (.cwWrite 5) (heads upL (cwMsg 2 0 []))) (fun t => (t.link 5).rxq.length) = some 1 ∧ 256 < (0x1234 % 256) + 205 := by decide +kernel
theorem test_cwRead_bad : after (exec (.cwRead 5) (heads upL (cwMsg 2 4097 []))) (fun t => (t.link 5).rxq.length) = some 0 := by decide +kernel
theorem test_readData_late : after (exec (.cwReadData 5) (heads upL (cwMsg 3 1 [7#8]))) (fun t => t.fget (linkErr 5) F.cwLinkErr_LATE) = some 1 := by decide +kernel
/-- A read of channel 2 in flight under tag 9, and a write whose last acknowledgement comes. -/
def inFlight (ph : BurstPhase) : State :=
  let s := heads upL { cwMsg (if ph = .read then 3 else 4) 4 [1#8, 2#8, 3#8, 4#8] with flags := 0 }
  let s := s.setLink 5 { s.link 5 with tags := [(9, (2, 4))] }
  (s.setChanState 2 1).setChan 2 { busy := true, issued := 4, flight := [{ aBurst with phase := ph, tags := [9] }] }
theorem test_readData : ((inFlight .read).burst 2 4).map (·.phase) = some .read ∧ after (exec (.cwReadData 5) (inFlight .read)) (fun t => (t.burst 2 4).map (·.data)) =
    some (some [1#8, 2#8, 3#8, 4#8]) := by decide +kernel
theorem test_ack : after (exec (.cwAck 5) (inFlight .acks)) (fun t => ((t.chan 2).flight.length, (t.link 5).tags)) = some (0, []) := by decide +kernel
theorem test_readTimeout : after (exec (.cwReadTimeout 5 9) (inFlight .read)) (fun t => ((t.link 5).expired.map (·.1), (t.chan 2).fail.isSome)) = some ([9], true) := by
  decide +kernel
theorem test_cwBell_bad : after (exec (.cwBell 5) (heads upL { cwMsg 5 0 [] with flags := 1 })) (fun t => (t.link 5).rxq.length) = some 0 := by decide +kernel

/-- Root-port mode on group 1. -/
def rp : State := (live.fset (grpCtrlReg 1) F.cwGrpCtrl_MODE 1).fset (grpStatusReg 1) F.cwGrpStatus_DLL_ACTIVE 1
theorem test_rpCfg : after (exec (.cwRpCfgRead kern 1 none) rp) (fun t => t.out.head?) = some (some (.regData kern 0xFFFF_FFFF)) ∧
    after (exec (.cwRpCfgRead kern 1 (some 5)) rp) (fun t => t.out.head?) = some (some (.regData kern 5)) ∧
    after (exec (.cwRpCfgRead kern 1 (some 5)) live) (fun t => t.out.head?) = some (some (.regData kern 0xFFFF_FFFF)) := by decide +kernel
theorem test_rpCfgWrite : after (exec (.cwRpCfgWrite kern 1 5) rp) (fun t => t.out) = some [.rpConfig 1 true 0 0 5] := by decide +kernel
theorem test_rpUpstream_at : after (exec (.cwRpUpstreamRequest 1 { addr := 0, data := none, len := 4, at_ := true, poison := false }) rp) (fun t => t.out) =
    some [.rpAnswer 1 none] := by decide +kernel
theorem test_rpUpstream_write : after (exec (.cwRpUpstreamRequest 1 { addr := 0x1234, data := some [1#8], len := 1, at_ := false, poison := false }) rp) (fun t => t.out) =
    some [] ∧ after (exec (.cwRpUpstreamRequest 1 { addr := 0x1234, data := none, len := 4, at_ := true, poison := false }) live) (fun t => t.out) = some [] := by
  decide +kernel
theorem test_rpDown : after (exec (.cwRpLinkDown 1) rp) (fun t => t.fbit (grpStatusReg 1) F.cwGrpStatus_DLL_ACTIVE) = some false := by decide +kernel

/-! ### Ethernet, Gatehouses and Tollbooths -/

/-- Subport 0 of port 1 UP; a frame of zeros of `n` bytes with its FCS. -/
def ethUp : State := live.setSubState 1 0 2
def frame0 (n : Nat) : Bytes := let b : Bytes := List.replicate (n - 4) 0#8; b ++ fcsOf b
theorem test_fcs : fcsOf [0x31#8, 0x32#8, 0x33#8, 0x34#8, 0x35#8, 0x36#8, 0x37#8, 0x38#8, 0x39#8] = [0x26#8, 0x39#8, 0xF4#8, 0xCB#8] := by decide +kernel
theorem witness_frame : ethUp.subUp 1 0 = true ∧ ethUp.ghOk 1 = true ∧ fcsOf ((frame0 64).take 60) = (frame0 64).drop 60 ∧ isPause (frame0 64) = false := by decide +kernel
theorem test_receive : after (exec (.ethFrameReceive 1 0 (frame0 64) 0 0) ethUp) (fun t => (lookD [] t.eth.gh 1).length) = some 1 ∧
    after (exec (.ethFrameReceive 1 0 (frame0 63) 0 0) ethUp) (fun t => (lookD [] t.eth.gh 1).length) = some 0 ∧
    after (exec (.ethFrameReceive 1 0 (frame0 64) 0 0) live) (fun t => (lookD [] t.eth.gh 1).length) = some 0 := by decide +kernel
theorem test_subportUp : after (exec (.ethSubportUp 1 0) (live.fset (ethSubCtrl 1 0) F.ethSubCtrl_ENABLE 1)) (fun t => t.subState 1 0) = some 2 := by decide +kernel
theorem test_subportDown : after (exec (.ethSubportDown 1 0) ethUp) (fun t => t.subState 1 0) = some 0 := by decide +kernel
def cfgV (n : Nat) : W64 := (live.fset (ethPortCfg 1) F.ethPortCfg_MAX_FRAME n).rd (ethPortCfg 1)
theorem test_maxFrame : ([1517, 1518, 9600, 9601].map fun n => (after (exec (.ethBreakoutWrite kern 1 (cfgV n)) (live.fset (ethPortCfg 1) F.ethPortCfg_MAX_FRAME 2000))
    fun t => t.fget (ethPortCfg 1) F.ethPortCfg_MAX_FRAME)) = [some 2000, some 1518, some 9600, some 2000] := by decide +kernel
def adjV (step rate : Nat) : W64 := ((live.fset (ethTsAdj 1 0) F.ethTsAdj_STEP_NS step).fset (ethTsAdj 1 0) F.ethTsAdj_RATE_PPB rate).rd (ethTsAdj 1 0)
theorem test_tsStep : after (exec (.ethTsStep kern 1 0 (adjV 0xFFFF_FFFF 1000000)) (live.wr (ethTsNow 1 0) 65537)) (fun t => (t.rd (ethTsNow 1 0)).toNat) = some 1 ∧
    after (exec (.ethTsStep kern 1 0 (adjV 1 1000001)) live) (fun t => (t.rd (ethTsNow 1 0)).toNat) = some 0 := by decide +kernel

/-- The Gatehouse: a frame too short to parse; an entry of KEY_TYPE 1. -/
theorem test_lookup_miss : after (exec (.ghLookup 1 false) { ethUp with eth := { ethUp.eth with gh := [(1, [{ port := 1, sub := 0, data := frame0 64, ts := 0 }])] } }) (fun t =>
    (lookD [] t.eth.gh 1).length) = some 0 := by decide +kernel
def flow1 : Bytes := overlay (List.replicate 64 0#8) 0 [1#8, 6#8] |> fun b => overlay (overlay b 0x29 [5#8]) 0x2C [0xFF#8, 0xFF#8, 0xFF#8, 0xFF#8]
def gStaged (s : State) (b : Bytes) : State := forNat 8 s fun s w => s.wr ⟨.ghStage, 1, w⟩ (BitVec.ofNat 64 (leAt b (8 * w) 8))
def pooled : State := { live with xim := { conf := { precincts := [prec5], pools := [{ prec := 5, flags := 0, vf0 := 0, vf1 := 0, carter := 1, ledger := 1, cashbox := 1, flows := 1 }] } } }
theorem test_ghInsert : (gStaged pooled flow1).flowOk flow1 = true ∧ after (exec (.ghInsert kern 1 0) (gStaged pooled flow1)) (fun t =>
    (t.fget ⟨.ghOp, 1, 0⟩ F.ghOp_STATUS, t.flowCount 5)) = some (0, 1) := by decide +kernel
theorem test_ghInsert_quota : after (exec (.ghInsert kern 1 0) (gStaged live flow1)) (fun t => t.fget ⟨.ghOp, 1, 0⟩ F.ghOp_STATUS) = some 3 ∧
    after (exec (.ghInsert kern 1 0) pooled) (fun t => t.fget ⟨.ghOp, 1, 0⟩ F.ghOp_STATUS) = some 1 := by decide +kernel
theorem test_ghRemove : after (exec (.ghRemove kern 1 0) ((gStaged pooled flow1).flowInsert 1)) (fun t => (t.fget ⟨.ghOp, 1, 0⟩ F.ghOp_STATUS, t.flowCount 5)) = some (0, 0) ∧
    after (exec (.ghRemove kern 1 0) (gStaged pooled flow1)) (fun t => t.fget ⟨.ghOp, 1, 0⟩ F.ghOp_STATUS) = some 4 := by decide +kernel
def policed (pir : Nat) : Bytes := leBytes 4 1 ++ leBytes 4 pir ++ leBytes 4 64 ++ leBytes 4 (2 ^ 24) ++ List.replicate 48 0#8
theorem test_policer : after (exec (.ghPolicerWrite kern 1 (8 * 5)) (gStaged live (policed 1600000))) (fun t => (t.fget ⟨.ghOp, 1, 0⟩ F.ghOp_STATUS, (t.policer 5).pir)) =
    some (0, 1600000) ∧ after (exec (.ghPolicerUpdate kern 1 (8 * 5)) (gStaged live (policed 1600001))) (fun t => t.fget ⟨.ghOp, 1, 0⟩ F.ghOp_STATUS) = some 1 := by
  decide +kernel
/-- A green frame takes its bytes from both buckets, one too long for either is red. -/
def pol0 : Policer := { cir := 1, pir := 1, cbs := 64, pbs := 64, mode := 0, prec := 5, tc := 64 * 65536, tp := 64 * 65536, last := 0 }
theorem test_colour : ((pol0.colour 0 64 0).1, (pol0.colour 0 64 0).2.tc, (pol0.colour 0 65 0).1, (pol0.colour 0 65 0).2.tp) = (0, 0, 2, 64 * 65536) := by decide +kernel
theorem test_rxDeliver_none : after (exec (.rxDeliver 11 []) { (live.setRing 11 (ring0 0 false)) with eth := { (live.setRing 11 (ring0 0 false)).eth with
    rx := [(11, 1, { port := 1, sub := 0, data := [], ts := 0 })] } }) (fun t => t.eth.rx.length) = some 0 := by decide +kernel
def bound0 (d : Doorbell) : State := live.setFunc 0 { slots := [(3, d)] }
theorem test_rxqDoorbell : after (exec (.rxqDoorbell 0 3 5) ((bound0 (.rxq 11)).setRing 11 (ring0 0 false))) (fun t => (t.ring 11).map (·.prod)) = some (some 5) ∧
    after (exec (.rxqDoorbell 0 4 5) ((bound0 (.rxq 11)).setRing 11 (ring0 0 false))) (fun t => (t.ring 11).map (·.prod)) = some (some 0) := by decide +kernel
theorem test_txrDoorbell : after (exec (.txrDoorbell 0 3 17) ((bound0 (.txr 11)).setRing 11 { ring0 0 true with prod := 15, cons := 15 })) (fun t => (t.ring 11).map (·.prod)) =
    some (some 17) := by decide +kernel

/-- The Tollbooth: a frame joins its queue; one past the limit of 10 KiB is dropped. -/
def toToll (n : Nat) : State := { live.setNode 1 3 7 node0 with eth := { (live.setNode 1 3 7 node0).eth with toTb := [(2 ^ 18 + 7, { data := List.replicate n 0#8 })] } }
theorem test_enqueue : after (exec (.tbEnqueue 1) (toToll 60)) (fun t => ((t.queued 1 7).length, t.eth.toTb.length)) = some (1, 0) ∧
    after (exec (.tbEnqueue 1) live) (fun t => (t.queued 1 7).length) = some 0 := by decide +kernel
def tree : State := ((ethUp.setNode 1 3 7 { node0 with parent := 2 }).setNode 1 2 2 { node0 with level := 2, parent := 3 }).setNode 1 1 3 { node0 with level := 1, parent := 0 }
def queued7 : State := { tree with eth := { tree.eth with queues := [(2 ^ 18 + 7, [{ data := [] }])] } }
theorem test_select : after (exec (.tbSelect 1 0) queued7) (fun t => ((t.queued 1 7).length, (look t.eth.wire (key2 1 0)).isSome)) = some (0, true) := by decide +kernel
theorem test_nodeWake : after (exec (.tbNodeWake 1 1 3) queued7) (fun t => (t.node 1 1 3).map (·.awake)) = some (some true) ∧
    after (exec (.tbNodeWake 1 1 3) tree) (fun t => (t.node 1 1 3).map (·.awake)) = some (some false) := by decide +kernel
theorem test_frameSent : after (exec (.tbFrameSent 1 0) { ethUp with eth := { ethUp.eth with wire := [(key2 1 0, { data := [] })] } }) (fun t => t.eth.wire.length) = some 0 := by
  decide +kernel
def tbV (level index : Nat) : W64 := ((live.fset ⟨.tbOp, 1, 0⟩ F.tbOp_LEVEL level).fset ⟨.tbOp, 1, 0⟩ F.tbOp_INDEX index).rd ⟨.tbOp, 1, 0⟩
theorem test_tbStatus : after (exec (.tbUpdate kern 1 (tbV 3 7)) live) (fun t => t.fget ⟨.tbOp, 1, 0⟩ F.tbOp_STATUS) = some 4 ∧
    after (exec (.tbRemove kern 1 (tbV 3 7)) (live.setNode 1 3 7 node0)) (fun t => (t.fget ⟨.tbOp, 1, 0⟩ F.tbOp_STATUS, (t.node 1 3 7).isNone)) = some (0, true) ∧
    after (exec (.tbRemove kern 1 (tbV 0 7)) live) (fun t => t.fget ⟨.regspStrayCount, 0, 0⟩ F.regspStrayCount_COUNT) = some 1 ∧
    after (exec (.tbWrite kern 1 (tbV 3 7)) live) (fun t => t.fget ⟨.tbOp, 1, 0⟩ F.tbOp_STATUS) = some 1 := by decide +kernel
theorem test_tbRead : after (exec (.tbRead kern 1 (tbV 3 7)) (live.setNode 1 3 7 node0)) (fun t => t.fget ⟨.tbOp, 1, 0⟩ F.tbOp_STATUS) = some 0 := by decide +kernel
theorem witness_nodeMax : nodeMax 1 = 64 ∧ nodeMax 2 = 4096 ∧ nodeMax 3 = 2 ^ 18 := by decide
theorem test_txFetch_none : live.ring 11 = none ∧ after (exec (.txEntryFetch 11 []) live) (fun t => t.eth.toTb.length) = some 0 := by decide +kernel

/-! ### Stalls: rings, tasks and numbers -/

/-- A descriptor of fields (offset, bytes, value), with no wait and no signal. -/
def desc (xs : List (Nat × Nat × Nat)) : Bytes := (List.range 128).map fun i =>
  match ((8, 4, 0xFFFF_FFFF) :: xs).find? (fun x => decide (x.1 ≤ i) && decide (i < x.1 + x.2.1)) with
  | some x => BitVec.ofNat 8 (x.2.2 / 256 ^ (i - x.1))
  | none => 0#8
/-- A task of a descriptor at the head of stall `st`, with a context of the Cashbox. -/
def ring (st : Nat) (d : Bytes) : State := { owned.setTasks st [{ index := 0, desc := d }] with cash := { ctxs := [(1, { state := 1, prec := 5 })] } }
def taskMet (st code : Nat) (ok : State → Bytes → Bool) (xs : List (Nat × Nat × Nat)) : Bool :=
  let d := desc ((0, 1, code) :: xs)
  let s := ring st d
  stallOk st && decide (s.startable st = some { index := 0, desc := d }) && s.tCommonOk st d && ok s d && decide (tOp d = code) &&
  (s.injAt 0x08 st (fun _ => true)).isNone && decide (tWaitCtr d = 0xFFFF)
def barrowF (dst : Nat) : List (Nat × Nat × Nat) := [(2, 1, 1), (3, 1, dst), (0x50, 4, 1), (0x58, 4, 1), (0x70, 4, 1)]
def sieveF : List (Nat × Nat × Nat) := [(2, 1, 1), (0x44, 4, 1), (0x48, 4, 1)]
def crossF : List (Nat × Nat × Nat) := [(2, 1, 1), (3, 1, 1), (0x64, 4, 1), (0x68, 2, 1), (0x6A, 1, 1)]
def rowF : List (Nat × Nat × Nat) := [(0x78, 4, 1), (0x6C, 4, 1), (0x7C, 4, 1)]
def tallyF : List (Nat × Nat × Nat) := [(2, 1, 1), (3, 1, 1), (0x4C, 4, 1), (0x50, 2, 1), (0x52, 2, 1)]
def cashF : List (Nat × Nat × Nat) := [(1, 1, 3), (0x18, 4, 1)]
theorem witness_gemm : taskMet 0 1 gemmOk [(2, 1, 1), (3, 1, 1), (4, 1, 1), (0x3C, 4, 1), (0x44, 4, 1), (0x4C, 4, 1)] = true := by decide +kernel
theorem witness_barrow : taskMet 0x10 1 poolOk (barrowF 1) = true ∧ taskMet 0x10 2 scatterOk (barrowF 0x20) = true := by decide +kernel
theorem witness_sieve : taskMet 0x20 1 sieveOk sieveF = true ∧ taskMet 0x20 2 sieveOk ((0x4C, 4, 1) :: sieveF) = true ∧
    taskMet 0x20 3 sieveOk ((3, 1, 6) :: sieveF) = true ∧ taskMet 0x20 4 sieveOk sieveF = true := by decide +kernel
theorem witness_crossing : taskMet 0x30 1 gateOk crossF = true ∧ taskMet 0x30 2 dispatchOk ((0x72, 2, 1) :: rowF ++ crossF) = true ∧
    taskMet 0x30 3 combineOk ((4, 1, 1) :: rowF ++ crossF) = true := by decide +kernel
theorem witness_tally : taskMet 0x40 1 tallyOk tallyF = true ∧ taskMet 0x40 2 tallyOk ((2, 1, 0x31) :: tallyF) = true := by decide +kernel
theorem witness_baler : taskMet 0x50 1 balerOk [(0x38, 8, 1)] = true ∧ taskMet 0x50 2 balerOk [(0x38, 8, 1)] = true := by decide +kernel
theorem witness_cashbox : ([1, 2, 3, 4, 5, 6, 7].all fun op => taskMet 0x60 op (cashOk 0x60) cashF) = true := by decide +kernel
/-- A reserved byte set: MALFORMED_OPERAND; another opcode: left alone. -/
theorem test_gemm_malformed : after (exec (.scalesGemmPass 0) (ring 0 (desc [(0, 1, 1), (0x70, 1, 1)]))) (fun t => (t.tasks 0).map fun x => (x.phase, x.status)) =
    some [(.done, 1)] := by decide +kernel
theorem test_pool_other : after (exec (.barrowPool 0x10) (ring 0x10 (desc ((0, 1, 2) :: barrowF 0x20)))) (fun t => (t.tasks 0x10).map (·.phase)) =
    some [.waiting] := by decide +kernel
theorem test_ctxReset : after (exec (.cashboxCtxReset 0x60) (ring 0x60 (desc ((0, 1, 7) :: cashF)))) (fun t => (t.tasks 0x60).map fun x => (x.phase, x.status)) =
    some [(.done, 0)] := by decide +kernel

/-- The ring (R187): 16 descriptors, HEAD at the last. -/
def ringAt15 : State := (((owned.fset (ringCtrl 0) F.stallCtrl_RING_LOG2 4).fset (ringCtrl 0) F.stallCtrl_ENABLE 1).fset
  ⟨.stallRingHead, 0, 0⟩ F.stallRingHead_HEAD 15).fset ⟨.stallRingTail, 0, 0⟩ F.stallRingTail_TAIL 0
theorem test_tail : after (exec (.stallRingTailWrite kern 0 3) live) (fun t => t.fget ⟨.stallRingTail, 0, 0⟩ F.stallRingTail_TAIL) = some 3 := by decide +kernel
theorem test_tail_noRing : ringKind (stallKind 0x70) = false ∧ stallOk 0x70 = true ∧ after (exec (.stallRingTailWrite kern 0x70 3) live) (fun t =>
    t.fget ⟨.regspStrayLast, 0, 0⟩ F.regspStrayLast_KIND) = some 0 := by decide +kernel
theorem test_fetch : ringAt15.mayFetch 0 = true ∧ after (exec (.stallTaskFetch 0) ringAt15) (fun t =>
    ((t.tasks 0).map (·.index), t.fget ⟨.stallRingHead, 0, 0⟩ F.stallRingHead_HEAD, t.stallSt 0)) = some ([15], 0, 1) := by decide +kernel
def ended : State := owned.setTasks 0 [{ index := 2, desc := desc [], phase := .done, status := 6, nan := true }]
theorem test_complete : after (exec (.stallTaskComplete 0) ended) (fun t => (t.tasks 0, t.num (t.taskAddr 0 2 + 0x14) 4, t.stallSt 0)) =
    some ([], 0x8001_0006, 0) := by decide +kernel
theorem witness_complete : ended.stallFenced 0 = false ∧ tSigCtr (desc []) = 0xFFFF ∧ ended.slotArmed 0 (participant 0) 5 = false ∧
    ((List.range 16).all fun l => !nbit (ended.rd ⟨.alleyEn, 0, l⟩).toNat (participant 0)) = true := by decide +kernel

/-- A poisoned add leaves the list; a piece that is no piece. -/
def adding (p : Bool) : State := { live with stall := { live.stall with adds := [{ req := 0x10, asid := 0, va := 0x1234, fmt := 1, bits := 0, scale := 0, poison := p }] } }
theorem test_cellAdd : after (exec (.tallyCellAdd 0) (adding true)) (fun t => t.stall.adds.length) = some 0 ∧ (adding true).tasks 0x10 = [] := by decide +kernel
theorem test_cellAdd_ends : after (exec (.tallyCellAdd 0) (adding false)) (fun t => t.stall.adds.length) = some 0 := by decide +kernel
/-- A piece of one element of format 1 for a task of STREAM_IN, and one whose count is 0. -/
def pieceBytes (n : Nat) : Bytes := leBytes 4 0 ++ leBytes 4 n ++ leBytes 8 4 ++ leBytes 4 1
def pieceTask : Task := { index := 0, desc := desc ([(0, 1, 1), (5, 1, 1), (0x54, 4, 1)] ++ tallyF) }
def pieceHere (b : Bytes) : State := { owned.setTasks 0x40 [pieceTask] with street := { taken := [(key2 0x40 0, [⟨b, true, false⟩])] } }
theorem witness_piece : pieceOk (pieceBytes 1) = true ∧ pieceIn pieceTask.desc (pieceBytes 1) = true ∧ pieceFits pieceTask.desc (pieceBytes 1) = true ∧
    (pieceHere (pieceBytes 1)).piecesFull 0x40 pieceTask = false ∧ pieceOk (pieceBytes 0) = false := by decide +kernel
theorem test_piece : after (exec (.tallyPieceArrive 0x40 0) (pieceHere (pieceBytes 1))) (fun t => t.stall.pieces.length) = some 1 := by decide +kernel

/-- Cells, formats and nonces. -/
theorem witness_cell : Tw.ofCell (List.replicate 88 0#8 ++ [1#8] ++ List.replicate 7 0#8) = none ∧ leAt (List.replicate 88 0#8 ++ [1#8]) 88 8 ≠ 0 := by decide +kernel
theorem test_small : e4m3.decode 0x7E = .fin (448 * one304) 1 ∧ e2m1.decode 7 = .fin (6 * one304) 1 ∧ (e2m1.encode 0 (.fin (5 * one304) 1)).bits = 6 := by decide +kernel
def nonceLeft (n : Nat) : State := { live with regs := [((⟨.cashboxNonceId, 0x60, 0⟩ : Reg).key, 0)], cash := {
  ctxs := [(1, { state := 1, key := 2, left := n, nonceNext := 9 })], keys := [(2, { used := true, next := 2 ^ 48 - 2 ^ 16 })] } }
theorem test_nonce : ((nonceLeft 1).drawNonce 0x60 1).map (fun x => (x.1.ctxRec 1).left) = some 0 ∧
    ((nonceLeft 0).drawNonce 0x60 1).map (fun x => ((x.1.ctxRec 1).left, (x.1.keyEnt 2).next)) = some (65535, 2 ^ 48) := by decide +kernel

/-! ### Carter -/

/-- Connection 6 in a state, served by stall 9 of Quarter 1; CARTER_OP of that connection. -/
def carterOn1 : State := live.fset ⟨.carterCtrl, 1, 0⟩ F.carterCtrl_ENABLE 1
def at6 (st : Nat) : State := carterOn1.setConn 6 { conn0 st with stall := 1, func := none }
def cwV (i : Nat) : W64 := (live.fset ⟨.carterOp, 1, 0⟩ F.carterOp_INDEX i).rd ⟨.carterOp, 1, 0⟩
def cStatus (t : State) : Nat := t.fget ⟨.carterOp, 1, 0⟩ F.carterOp_STATUS
def cStaged (s : State) (b : Bytes) : State := forNat 16 s fun s w => s.wr ⟨.carterStage, 1, w⟩ (BitVec.ofNat 64 (leAt b (8 * w) 8))
theorem test_ctxWrite : after (exec (.carterCtxWrite kern 1 (cwV 6)) (at6 1)) cStatus = some 5 ∧ after (exec (.carterCtxWrite kern 1 (cwV 6)) live) cStatus = some 1 := by
  decide +kernel
theorem test_ctxUpdate : after (exec (.carterCtxUpdate kern 1 (cwV 6)) (at6 0)) cStatus = some 5 ∧
    after (exec (.carterCtxUpdate kern 1 (cwV 6)) (cStaged (at6 1) (overlay (List.replicate 128 0#8) 0x3B [15#8] |> fun b => overlay b 0x64 [8#8]))) (fun t =>
      (cStatus t, (t.conn 6).cfg.getD 0x3B 0#8)) = some (0, 15#8) := by decide +kernel
theorem test_fail : after (exec (.carterFail kern 1 (cwV 6)) (at6 2)) (fun t => (cStatus t, (t.conn 6).state, (t.conn 6).errCode)) = some (0, 4, 0x44) ∧
    after (exec (.carterFail kern 1 (cwV 6)) (at6 1)) cStatus = some 5 := by decide +kernel
def regionB (len : Nat) : Bytes := leBytes 8 0x1000 ++ leBytes 8 len ++ leBytes 2 3 ++ leBytes 14 0x83
theorem test_regionWrite : after (exec (.carterRegionWrite kern 1 (cwV 5)) (cStaged live (regionB (2 ^ 48)))) (fun t => (cStatus t, (t.region 5).length, (t.region 5).access)) =
    some (0, 2 ^ 48, 0x83) ∧ after (exec (.carterRegionWrite kern 1 (cwV 5)) (cStaged live (regionB (2 ^ 48 + 1)))) cStatus = some 1 ∧
    after (exec (.carterRegionWrite kern 1 (cwV 5)) (cStaged live (regionB 0))) cStatus = some 1 := by decide +kernel
theorem test_regionInval4 : after (exec (.carterRegionInval (.reg kern 1 (cwV 5))) live) cStatus = some 4 := by decide +kernel
theorem test_connect : after (exec (.carterConnect (.reg kern 1 (cwV 6))) (at6 3)) cStatus = some 5 := by decide +kernel
theorem test_reset : after (exec (.carterReset (.reg kern 1 (cwV 6))) (at6 1)) (fun t => (cStatus t, (t.conn 6).state, (t.conn 6).epoch)) = some (0, 0, 1) ∧
    after (exec (.carterReset (.reg kern 1 (cwV 6))) (at6 2)) cStatus = some 5 := by decide +kernel
/-- Rings of 16 entries. -/
def at6r (st : Nat) : State := (at6 st).setConn 6 { (at6 st).conn 6 with cfg := overlay ((at6 st).conn 6).cfg 0x58 [4#8, 4#8, 4#8] }
def doors (d : Doorbell) : State := (at6r 3).setFunc 0 { slots := [(3, d)] }
theorem test_sqDoorbell : after (exec (.carterSqDoorbell (.slot 0 3 21)) (doors (.carterSq 6))) (fun t => (t.conn 6).sqProd) = some 5 := by decide +kernel
theorem test_rqDoorbell : after (exec (.carterRqDoorbell (.slot 0 3 15)) (doors (.carterRq 6))) (fun t => (t.conn 6).rqProd) = some 15 := by decide +kernel
theorem test_cqDoorbell : after (exec (.carterCqDoorbell (.slot 0 3 1)) ((doors (.carterCq 6)).setConn 6 { (at6r 3).conn 6 with cqProd := 1 })) (fun t => (t.conn 6).cqCons) = some 1 ∧
    after (exec (.carterCqDoorbell (.slot 0 4 1)) (doors (.carterCq 6))) (fun t => (t.conn 6).cqCons) = some 0 := by decide +kernel
theorem test_hello : after (exec (.carterHelloTimer 6) (at6 3)) (fun t => t.eth.toTb.length) = some 0 ∧ (at6 2).carterOn 1 = true := by decide +kernel
theorem test_connectTimeout : after (exec (.carterConnectTimeout 6) (at6 2)) (fun t => ((t.conn 6).state, (t.conn 6).errCode)) = some (4, 0x45) ∧
    after (exec (.carterConnectTimeout 6) (at6 3)) (fun t => (t.conn 6).state) = some 3 := by decide +kernel
theorem witness_rto : (((at6 3).setConn 6 { (at6 3).conn 6 with unacked := [{ psn := 9, msn := 0, bytes := [], path := 0, first := 0 }] }).conn 6).unacked.find?
    (fun t => t.psn = 9) = some { psn := 9, msn := 0, bytes := [], path := 0, first := 0 } ∧ ((at6 3).conn 6).isRoce = false ∧ ((at6 3).conn 6).stalled = none := by
  decide +kernel
theorem test_rto_none : after (exec (.carterRto 6 9) (at6 3)) (fun t => (t.conn 6).pathFails) = some [] := by decide +kernel
theorem test_pathRetry : after (exec (.carterPathRetry 6 2) ((at6 3).setConn 6 { (at6 3).conn 6 with pathDown := [2, 1], pathFails := [(2, 3)] })) (fun t =>
    ((t.conn 6).pathDown, (t.conn 6).pathFails)) = some ([1], []) := by decide +kernel
theorem test_ackTimer : after (exec (.carterAckTimer 6) (at6 3)) (fun t => t.eth.toTb.length) = some 0 := by decide +kernel
theorem test_retryExpire : after (exec (.carterRetryAfterExpire 6) ((at6 3).setConn 6 { (at6 3).conn 6 with stalled := some (9, true) })) (fun t => (t.conn 6).stalled) =
    some none := by decide +kernel
theorem test_completion : after (exec (.carterCompletionWrite 6) (at6 0)) (fun t => (t.conn 6).state) = some 0 := by decide +kernel
/-- Orders: one doorbell behind the ring's consumer; a NOP, and one of an undefined opcode. -/
def order (op : Nat) : Bytes := overlay (overlay (List.replicate 64 0#8) 0 [BitVec.ofNat 8 op]) 0x1E [0xFF#8, 0xFF#8] |> fun b => overlay b 0x24 [0xFF#8, 0xFF#8]
theorem witness_order : (at6r 3).mayTake ((at6r 3).conn 6) = true ∧ (at6r 3).unitParity ((at6r 3).conn 6).st ⟨.carterErr, 1, 0⟩ F.carterErr_PARITY = none ∧
    (at6r 3).orderOk ((at6r 3).conn 6) (order 6) false = true ∧ oTrig (order 6) = 0 ∧ (at6r 3).orderOk ((at6r 3).conn 6) (order 7) false = false ∧
    (at6r 3).refField 0 (oSig (order 7)) (oSigN (order 7)) = true := by decide +kernel
theorem test_order_empty : after (exec (.carterOrderNop 6 []) (at6r 3)) (fun t => (t.conn 6).sqCons) = some 0 := by decide +kernel
/-- A NOP of firmware at 0x1240 of the tables of ASID 0. -/
def nop6 : State := (tables.poke 0x5240 (order 6)) |> fun s => (s.fset ⟨.carterCtrl, 1, 0⟩ F.carterCtrl_ENABLE 1).setConn 6
  { (at6r 3).conn 6 with cfg := overlay ((at6r 3).conn 6).cfg 0x40 (leBytes 8 0x1240), sqProd := 1 }
theorem test_nop : after (exec (.carterOrderNop 6 []) nop6) (fun t => ((t.conn 6).sqCons, (t.conn 6).orders.length)) = some (1, 0) := by decide +kernel
theorem test_order_other : after (exec (.carterOrderWrite 6 []) nop6) (fun t => (t.conn 6).sqCons) = some 0 := by decide +kernel
theorem test_trigger_none : after (exec (.carterTriggerFire 6 []) (at6r 3)) (fun t => (t.conn 6).orders.length) = some 0 := by decide +kernel
/-- Arrivals: no frame; a frame that is no packet is discarded by any row. -/
theorem test_arrive_none : pickFrame (fun y => decide (y = 0x20)) [] 0 [] = none ∧ after (exec (.hello 1) carterOn1) (fun t => t.eth.toTb.length) = some 0 := by decide +kernel
theorem test_arrive_bad : pickFrame (fun y => decide (y = 1)) [] 0 [frame0 64] = some 0 ∧
    after (exec (.carterRxWrite 1) { carterOn1 with carter := { carterOn1.carter with rx := [(1, [frame0 64])] } }) (fun t => (lookD [] t.carter.rx 1).length) = some 0 := by
  decide +kernel
/-- A packet received before. -/
def pkt9 : Pkt := { op := 1, flags := 0, conn := 6, epoch := 0, ver := 0, psn := 9, msn := 0, mlen := 0, off := 0, ext := [], payload := [] }
theorem witness_seen : ((at6 3).setConn 6 { (at6 3).conn 6 with got := [9] } |>.conn 6).got.contains pkt9.psn = true ∧ (at6 3).precPaused 0 = false ∧ pkt9.op ≠ 5 ∧
    ((at6 3).conn 6).prec = 0 := by decide +kernel

/-! ### Ledger -/

/-- Volume 2 of 8 blocks of 4096 bytes with its key, and queue 4 of it with one command. -/
def vol2 : Volume := { vol0 with key := [1#8] }
def lq (d : Bytes) : LQueue := { volume := 2, stall := 1, flags := 1, cmds := [{ idx := 0, seq := 0, desc := d }] }
def lcmd (op lba blocks arg0 : Nat) : Bytes := overlay (overlay (overlay (overlay (List.replicate 64 0#8) 0 [BitVec.ofNat 8 op]) 4 (leBytes 4 blocks)) 8 (leBytes 8 lba))
  0x20 (leBytes 4 arg0)
def ledgerAt (d : Bytes) : State := ((live.fset ⟨.ledgerCtrl, 1, 0⟩ F.ledgerCtrl_ENABLE 1).setVolume 2 vol2).setLqueue 4 (lq d)
def lends (t : State) : Option (Nat × Nat) := ((t.lqueue 4).bind (·.cmds.head?)).bind (·.ended)
theorem witness_lcmd : ((ledgerAt (lcmd 4 7 1 0)).lcheck (lq (lcmd 4 7 1 0)) (lcmd 4 7 1 0) = none) ∧
    (ledgerAt (lcmd 4 7 1 0)).lready (lq (lcmd 4 7 1 0)) { idx := 0, seq := 0, desc := lcmd 4 7 1 0 } = true ∧
    (ledgerAt (lcmd 3 0 0 0)).lcheck (lq (lcmd 3 0 0 0)) (lcmd 3 0 0 0) = none ∧ (ledgerAt (lcmd 1 0 1 0)).lcheck (lq (lcmd 1 0 1 0)) (lcmd 1 0 1 0) = none ∧
    (ledgerAt (lcmd 2 0 1 0)).lcheck (lq (lcmd 2 0 1 0)) (lcmd 2 0 1 0) = none := by decide +kernel
theorem test_range : after (exec (.ledgerRead 4 0 0 false) (ledgerAt (lcmd 1 8 1 0))) lends = some (some (0x40, 0)) := by decide +kernel
theorem test_flush : after (exec (.ledgerFlush 4 0) (ledgerAt (lcmd 3 0 0 0))) lends = some (some (0, 0)) := by decide +kernel
theorem test_zeroes : after (exec (.ledgerWriteZeroes 4 0) (ledgerAt (lcmd 4 7 1 0))) (fun t => ((t.lqueue 4).bind (·.cmds.head?)).map fun c => (c.started, c.data.length)) =
    some (some (true, 4096)) := by decide +kernel
theorem test_discard_other : after (exec (.ledgerDiscard 4 0) (ledgerAt (lcmd 4 7 1 0))) lends = some none := by decide +kernel
theorem test_sanitise : after (exec (.ledgerSanitise 4 0) (ledgerAt (lcmd 7 0 0 0))) (fun t => (lends t, (t.volume 2).map fun v => (v.op, v.regions))) =
    some (some (0, 0), some (1, 1)) := by decide +kernel
theorem test_format : after (exec (.ledgerFormat 4 0) (ledgerAt (lcmd 8 0 0 1))) (fun t => (lends t, (t.volume 2).map fun v => (v.op, v.log2, v.blocks))) =
    some (some (0, 0), some (2, 14, 2)) := by decide +kernel
theorem test_setPower : after (exec (.ledgerSetPowerState 4 0) (ledgerAt (lcmd 11 0 0 1))) (fun t => (lends t, (t.volume 2).map (·.power))) = some (some (0, 0), some 1) := by
  decide +kernel
/-- A started write of one record, its three reports, its completion. -/
def started : LCmd := { idx := 0, seq := 0, desc := lcmd 4 7 1 0, started := true, data := List.replicate 4096 0#8 }
def writing : State := (ledgerAt []).setLqueue 4 { lq [] with cmds := [started] }
theorem test_durable : after (exec (.ledgerDurable 4 0 0 0) writing) lends = some (some (0, 0)) := by decide +kernel
theorem test_replicaTimeout : after (exec (.ledgerReplicaTimeout 1 2 0) (ledgerAt [])) (fun t => (t.volume 2).map fun v => v.replicas.map (·.up)) = some (some [false]) ∧
    after (exec (.ledgerReplicaTimeout 1 2 0) live) (fun t => (t.volume 2).isNone) = some true := by decide +kernel
theorem test_regionDone : after (exec (.ledgerSanitiseRegionDone 2) (live.setVolume 2 { vol2 with op := 1, regions := 2 })) (fun t => (t.volume 2).map fun v => (v.op, v.regionsDone)) =
    some (some (1, 1)) ∧ after (exec (.ledgerSanitiseRegionDone 2) (live.setVolume 2 { vol2 with op := 1, regions := 1 })) (fun t => (t.volume 2).map (·.op)) = some (some 0) := by
  decide +kernel
theorem test_replicaReturn : after (exec (.replicaReturn 2 0) (live.setVolume 2 { vol2 with replicas := [{ up := false }] })) (fun t => (t.volume 2).map fun v =>
    v.replicas.map (·.up)) = some (some [true]) := by decide +kernel
theorem test_repair : after (exec (.ledgerPieceRepair 2 0) (live.setVolume 2 { vol2 with uncertain := [(0, 4096)] })) (fun t => (t.volume 2).map (·.uncertain)) = some (some []) := by
  decide +kernel
theorem test_lsqDoorbell : after (exec (.ledgerSqDoorbell 0 3 15) ((bound0 (.ledgerSq 4)).setLqueue 4 (lq []))) (fun t => (t.lqueue 4).map (·.sqTail)) = some (some 15) := by
  decide +kernel
theorem test_lcqDoorbell : after (exec (.ledgerCqDoorbell 0 3 2) ((bound0 (.ledgerCq 4)).setLqueue 4 { lq [] with cqTail := 1 })) (fun t => (t.lqueue 4).map (·.cqHead)) =
    some (some 1) ∧ live.slotOf 0 3 = none := by decide +kernel
def lfetch : State := (ledgerAt []).setLqueue 4 { lq [] with cmds := [], sqTail := 1 }
theorem test_lfetch : lfetch.lmayFetch 4 { lq [] with cmds := [], sqTail := 1 } = true ∧ after (exec (.ledgerFetch 4 []) lfetch) (fun t =>
    (t.lqueue 4).map fun q => (q.sqHead, q.cmds.length)) = some (some (1, 1)) ∧ after (exec (.ledgerFetch 4 []) (ledgerAt [])) (fun t =>
    (t.lqueue 4).map (·.sqHead)) = some (some 0) := by decide +kernel
theorem test_irq : after (exec (.irqCoalesceTimeout 4) (live.setLqueue 4 { lq [] with irqs := 3 })) (fun t => (t.lqueue 4).map (·.irqs)) = some (some 0) := by decide +kernel
def lopV : W64 := (live.fset ⟨.ledgerOp, 1, 0⟩ F.ledgerOp_QUEUE 4).rd ⟨.ledgerOp, 1, 0⟩
def lStatus (t : State) : Nat := t.fget ⟨.ledgerOp, 1, 0⟩ F.ledgerOp_STATUS
def empty4 : State := live.setLqueue 4 { lq [] with cmds := [] }
theorem test_opDelete : after (exec (.ledgerOpDelete kern 1 lopV) empty4) (fun t => (lStatus t, (t.lqueue 4).isNone)) = some (0, true) ∧
    after (exec (.ledgerOpDelete kern 1 lopV) (ledgerAt [])) lStatus = some 5 ∧ after (exec (.ledgerOpDelete kern 1 lopV) live) lStatus = some 4 := by decide +kernel
theorem test_opPause : after (exec (.ledgerOpPause kern 1 lopV) empty4) (fun t => (lStatus t, (t.lqueue 4).map (·.state))) = some (0, some 2) ∧
    after (exec (.ledgerOpResume kern 1 lopV) empty4) (fun t => (lStatus t, (t.lqueue 4).map (·.state))) = some (0, some 1) := by decide +kernel
theorem test_opReset : after (exec (.ledgerOpQueueReset kern 1 lopV) (live.setLqueue 4 { lq [] with cmds := [], sqTail := 9, state := 2 })) (fun t =>
    (lStatus t, (t.lqueue 4).map fun q => (q.sqTail, q.state))) = some (0, some (0, 1)) := by decide +kernel
theorem test_opRead : after (exec (.ledgerOpRead kern 1 lopV) empty4) lStatus = some 0 := by decide +kernel
theorem test_opCreate : live.precOfStall (soleStall 1 10) = none ∧ owned.precOfStall (soleStall 0 10) = some 5 := by decide +kernel
/-- An admin queue whose completion queue is full: the completion waits. -/
theorem test_lcomplete_full : ((live.setLqueue 4 { lq [] with cqTail := 16, cmds := [{ started with ended := some (0, 0) }] }).lcomplete 4 0).lqueue 4 =
    some { lq [] with cqTail := 16, cmds := [{ started with ended := some (0, 0) }] } := by decide +kernel

/-! ### Tenancy, the Ximinar structure and firmware -/

/-- INSTANCE_CREATE for function 1 of port 0, a VF, in precinct 5 with no quotas, by the PF. -/
def vfs : State := { pooled with xim := { conf := { pooled.xim.conf with pools := [{ prec := 5, flags := 0, vf0 := 8, vf1 := 0, carter := 1, ledger := 1, cashbox := 1, flows := 1 }] } } }
def managed (s : State) (t : Nat) (b : Bytes) : State := sends s { manager with vfEnable := true, numVfs := 8 } t b
def create (g p wh : Nat) : Bytes := leBytes 2 g ++ leBytes 2 p ++ leBytes 2 wh
theorem test_instanceCreate : after (exec (.instanceCreate 0 9) (managed vfs 0x0100 (create 1 5 0))) (fun t => (replies t, (t.inst 1).map (·.asid))) = some ([0], some 9) := by
  decide +kernel
theorem test_instanceCreate_quota : after (exec (.instanceCreate 0 9) (managed vfs 0x0100 (create 1 5 1))) replies = some [4] ∧
    after (exec (.instanceCreate 0 9) (managed (vfs.setFunc 1 session) 0x0100 (create 1 5 0))) replies = some [5] ∧
    after (exec (.instanceCreate 0 9) (managed vfs 0x0100 (create 1 64 0))) replies = some [1] := by decide +kernel
theorem test_instanceDestroy : after (exec (.instanceDestroy 0) (managed (vfs.setFunc 1 session) 0x0101 (leBytes 2 1))) (fun t => (replies t, t.inst 1)) = some ([0], none) ∧
    after (exec (.instanceDestroy 0) (managed vfs 0x0101 (leBytes 2 1))) replies = some [3] ∧
    after (exec (.instanceDestroy 0) (managed vfs 0x0101 (leBytes 2 256))) replies = some [5] := by decide +kernel
def setItem (item v : Nat) : State := managed (vfs.setFunc 1 session) 0x0102 (leBytes 2 1 ++ leBytes 2 item ++ leBytes 8 v)
theorem test_instanceSet : after (exec (.instanceSet 0 []) (setItem 2 255)) (fun t => (replies t, (t.inst 1).map (·.live))) = some ([0], some [(2, 255)]) ∧
    after (exec (.instanceSet 0 []) (setItem 1 1600001)) replies = some [1] ∧ after (exec (.instanceSet 0 []) (setItem 1 0)) replies = some [1] := by decide +kernel
def volB (p least lg blocks : Nat) : Bytes := leBytes 2 1 ++ leBytes 1 p ++ leBytes 1 least ++ leBytes 4 lg ++ leBytes 8 blocks
theorem test_volumeCreate : after (exec (.volumeCreate 0 2) (managed vfs 0x0110 (volB 3 3 14 (2 ^ 40)))) (fun t => (replies t, (t.volume 2).map (·.replicas.length))) =
    some ([0], some 3) ∧ after (exec (.volumeCreate 0 2) (managed vfs 0x0110 (volB 2 3 14 8))) replies = some [1] ∧
    after (exec (.volumeCreate 0 2) (managed vfs 0x0110 (volB 1 1 12 8))) replies = some [1] := by decide +kernel
theorem test_volumeDestroy : after (exec (.volumeDestroy 0) (managed (withVolume vfs) 0x0111 (leBytes 2 2))) (fun t => (replies t, (t.volume 2).isNone)) = some ([0], true) ∧
    after (exec (.volumeDestroy 0) (managed ((withVolume vfs).setLqueue 4 (lq [])) 0x0111 (leBytes 2 2))) replies = some [2] ∧
    after (exec (.volumeDestroy 0) (managed vfs 0x0111 (leBytes 2 2))) replies = some [3] := by decide +kernel

/-- Host ports. -/
theorem test_bar2 : (linked session).tlpInj 0 = none ∧ after (exec (.bar2Access 0 8 none 4 false) (linked {})) (fun t => t.out.head?) = some (some (.hostAbort 0)) ∧
    after (exec (.bar2Access 0 8 (some [1#8]) 1 false) live) (fun t => t.out.length) = some 0 := by decide +kernel
/-- BAR2 of function 0 reaches address 0x1240 of ASID 0 under the tables. -/
def bar2on : State := { (tables.setFunc 0 { session with inst := some { inst0 with asid := 0 } }) with host := {
  (tables.setFunc 0 { session with inst := some { inst0 with asid := 0 } }).host with ports := [(0, { linkUp := true, perst := false })] } } |>.poke 0x5240 [7#8]
theorem test_bar2_read : after (exec (.bar2Access 0 0x1240 none 1 false) bar2on) (fun t => t.out.head?) = some (some (.hostData 0 [7#8])) := by decide +kernel
theorem test_power : ([1, 2, 3].map fun v => after (exec (.pfPowerStateWrite 0 v) (linked {})) (fun t => (t.func 0).power)) = [some 1, some 0, some 3] := by
  decide +kernel
theorem test_perst : after (exec (.hqPerstAssert 0) (linked session)) (fun t => ((t.port 0).perst, (t.func 0).power)) = some (true, 4) ∧
    after (exec (.hqPerstDeassert 0) live) (fun t => ((t.port 0).perst, (t.func 0).power)) = some (false, 0) := by decide +kernel
theorem test_flr : after (exec (.flr 0) (linked { session with bme := true, h2dTail := 3 })) (fun t => ((t.func 0).bme, (t.func 0).h2dTail)) = some (false, 0) ∧
    live.funcThere 1 = false ∧ after (exec (.flr 1) (live.setFunc 1 { bme := true })) (fun t => (t.func 1).bme) = some true := by decide +kernel
theorem test_bmeClear : after (exec (.bmeClear 0) (linked { session with bme := true })) (fun t => ((t.func 0).bme, (t.func 0).driverLost)) = some (false, true) ∧
    after (exec (.bmeClear 0) (linked { bme := true })) (fun t => ((t.func 0).bme, (t.func 0).driverLost)) = some (false, false) := by decide +kernel
theorem test_vfClear : after (exec (.vfEnableClear 0) (linked { vfEnable := true, numVfs := 8 })) (fun t => (t.func 0).vfEnable) = some false := by decide +kernel
def hostRead : State := (runs 2 { busy := true, flight := [{ aBurst with srcTgt := 1 }] } 256).setPort 0 { linkUp := true, perst := false, tags := [(9, (2, 4))] }
theorem test_hostTimeout : after (exec (.hostCompletionTimeout 0 9) hostRead) (fun t => ((t.port 0).tags, (t.port 0).expired.map (·.1))) = some ([], [9]) ∧
    after (exec (.hostCompletionTimeout 0 8) hostRead) (fun t => (t.port 0).tags.length) = some 1 := by decide +kernel
theorem test_hostTagRelease : after (exec (.hostTagRelease 0 9) (live.setPort 0 { expired := [(9, 0)] })) (fun t => (t.port 0).expired) = some [] := by decide +kernel
theorem test_hostLink : after (exec (.hostLinkUp 0 16 7) (live.setPort 0 { perst := false })) (fun t => ((t.port 0).linkUp, (t.port 0).width)) = some (true, 16) ∧
    after (exec (.hostLinkUp 0 16 7) live) (fun t => (t.port 0).linkUp) = some false ∧ after (exec (.hostLinkDown 0) hostRead) (fun t => ((t.port 0).linkUp, (t.port 0).tags)) =
    some (false, []) := by decide +kernel
theorem test_rootLink : after (exec (.rootPortLinkUp 1 4 4) (rp.fset (grpCtrlReg 1) F.cwGrpCtrl_ENABLE 1)) (fun t => t.fget (grpStatusReg 1) F.cwGrpStatus_WIDTH) = some 4 := by
  decide +kernel

/-- Quiesce, load and resume of precinct 5. -/
def precAt (n : Nat) : State := owned.setPrecState 5 n
def ximV (op len : Nat) : W64 := (((live.fset ⟨.ximLoadCtrl, 0, 0⟩ F.ximLoadCtrl_OP op).fset ⟨.ximLoadCtrl, 0, 0⟩ F.ximLoadCtrl_PRECINCT 5).fset
  ⟨.ximLoadCtrl, 0, 0⟩ F.ximLoadCtrl_LENGTH len).rd ⟨.ximLoadCtrl, 0, 0⟩
def ximStat (t : State) : Nat × Nat := (t.precState 5, t.fget ⟨.ximLoadStatus, 0, 0⟩ F.ximLoadStatus_STATUS)
theorem test_quiesce : after (exec (.ximQuiesce (.reg kern (ximV 1 0))) (precAt 1)) (fun t => (t.precState 5, t.xim.quiesce)) = some (2, [(5, none)]) ∧
    after (exec (.ximQuiesce (.reg kern (ximV 1 0))) (precAt 3)) ximStat = some (3, 0) ∧ after (exec (.ximQuiesce (.reg kern (ximV 1 0))) (precAt 4)) (fun t =>
    t.fget ⟨.regspStrayCount, 0, 0⟩ F.regspStrayCount_COUNT) = some 1 := by decide +kernel
def quiescing : State := { precAt 2 with xim := { (precAt 2).xim with quiesce := [(5, none)] } }
theorem test_quiesceDone : quiescing.quiet 5 = true ∧ after (exec (.ximQuiesceDone 5) quiescing) ximStat = some (3, 0) ∧
    after (exec (.ximQuiesceTimeout 5) quiescing) ximStat = some (1, 0x0A) := by decide +kernel
theorem test_ximResume : after (exec (.ximResume (.reg kern (ximV 3 0))) (precAt 3)) ximStat = some (1, 0) ∧ after (exec (.ximResume (.reg kern (ximV 3 0))) (precAt 1)) ximStat =
    some (1, 0x0A) := by decide +kernel
theorem test_ximLoad : after (exec (.ximLoad (.reg kern (ximV 2 64))) (precAt 3)) (fun t => (t.precState 5, t.xim.load.map (·.length))) = some (4, some 64) ∧
    after (exec (.ximLoad (.reg kern (ximV 2 64))) (precAt 1)) ximStat = some (1, 0x0A) ∧ after (exec (.ximLoad (.reg kern (ximV 2 64))) quiescing) (fun t =>
    t.fget ⟨.regspStrayCount, 0, 0⟩ F.regspStrayCount_COUNT) = some 1 := by decide +kernel
def loading (aborted : Bool) : State := { precAt 4 with xim := { (precAt 4).xim with load := some { target := 5, addr := 0x2000, length := 64, aborted := aborted } } }
theorem test_commit_aborted : after (exec .ximLoadCommit (loading true)) ximStat = some (3, 0x0D) ∧ after (exec .ximLoadCommit (precAt 3)) ximStat = some (3, 0) := by decide +kernel
theorem test_commit_zeros : after (exec .ximLoadCommit (loading false)) (fun t => (t.precState 5, t.xim.conf.precincts.length)) = some (3, 1) := by decide +kernel
theorem witness_ximMsg : ((managed (precAt 1) 0x0120 ([1#8, 5#8])).takeMsg 0 0x0120 16).toOption.isSome = true ∧
    after (exec (.ximQuiesce (.msg 0)) (managed (precAt 1) 0x0120 [1#8, 5#8])) (fun t => t.xim.quiesce) = some [(5, some 0)] ∧
    after (exec (.ximResume (.msg 0)) (managed (precAt 3) 0x0120 [3#8, 5#8])) (fun t => (t.precState 5, replies t)) = some (1, [0]) := by decide +kernel

/-- Firmware: the activation of a slot; its phases. -/
theorem test_activate_bad : after (exec (.fwActivate 0) (managed live 0x0130 [2#8])) replies = some [1] ∧
    after (exec (.fwActivate 0) (managed (live.fset pwrStatus F.pwrStatus_DECLARED 1) 0x0130 [BitVec.ofNat 8 (1 - live.running)])) replies = some [9] := by decide +kernel
def fwPhase (n : Nat) (a : FwAct) : State := ({ live with fw := { live.fw with act := some a } } : State).fset fwStateReg F.fwState_PHASE n
theorem test_drainTimeout : after (exec .fwDrainTimeout (fwPhase 2 { by_ := none, slot := 1 })) (fun t => (t.fw.act.isNone, t.fget fwStateReg F.fwState_PHASE,
    t.fget fwStateReg F.fwState_LAST_STATUS)) = some (true, 0, 2) ∧ after (exec .fwDrainTimeout (fwPhase 3 { by_ := none, slot := 1 })) (fun t => t.fw.act.isNone) = some false := by
  decide +kernel
theorem test_drain_aborted : after (exec (.fwDrainDone 0 []) (fwPhase 2 { by_ := none, slot := 1, aborted := true })) (fun t => t.fget fwStateReg F.fwState_LAST_DETAIL) =
    some 0x0D := by decide +kernel
theorem test_handoverTimeout : after (exec .fwHandoverTimeout (fwPhase 3 { by_ := none, slot := 1 })) (fun t => t.fget fwStateReg F.fwState_LAST_DETAIL) = some 0x7F := by
  decide +kernel
theorem test_adopt_zeros : after (exec .fwHandoverAdopt (fwPhase 3 { by_ := none, slot := 1, record := 0x2000 })) (fun t => t.fget fwStateReg F.fwState_LAST_DETAIL) = some 0x7F := by
  decide +kernel
theorem test_moduleUnload : after (exec (.moduleUnload (.msg 0)) (managed live 0x0132 (leBytes 4 1))) replies = some [3] := by decide +kernel
theorem test_moduleLoad : after (exec (.moduleLoad 0 9 []) (managed live 0x0131 (leBytes 8 0))) replies = some [7] := by decide +kernel
theorem test_period : live.kernelUp = true ∧ after (exec .kernelPeriod live) (fun t => (t.fw.periods, look t.fw.shares (key2 0 64))) = some (1, some 256) := by decide +kernel
theorem test_precinctReset : after (exec (.precinctReset 0) (managed owned 0x0121 [6#8])) replies = some [3] ∧
    after (exec (.precinctReset 0) (managed owned 0x0121 [64#8])) replies = some [1] := by
  decide +kernel

/-! ### Inventory -/

/-- Instance 0 with communicator 1 of one member, context 9 for AES-256-GCM and store volume 2, and a checkpoint of one shard. -/
def comm1 : Comm := { handle := 1, id := 7, size := 1, rank := 0, conns := [] }
def shard0 : Shard := { range := 0, off := 0, va := 0x1000, len := 4096 }
def ckpt : InvOp := { func := 0, comm := 1, ctx := 9, vol := 2, step := 5, ckpt := 3, set := [(0x1000, 4096)], shards := [shard0] }
def invAt (t : Nat) (b : Bytes) (i : Inst) (os : List InvOp) : State :=
  { ((sends tables { session with inst := some { i with comms := [comm1], asid := 0 } } t b).setCtxRec 9 { state := 1, inst := 0, algo := 2, prec := 5 }).setVolume 2 vol2
    with inv := { ops := os }, xim := owned.xim }
def running (o : InvOp) : State := invAt 0 [] inst0 [o]
def request (ctx step set n : Nat) : Bytes := leBytes 4 1 ++ leBytes 4 ctx ++ leBytes 2 2 ++ leBytes 2 0 ++ leBytes 8 step ++ leBytes 8 set ++ leBytes 2 n
def invEnd (t : State) : Nat × Nat := (t.inv.ops.length, t.fget (invFn 0) F.invFuncState_LAST_STATUS)
theorem test_shards : (setShards [(0x1FF000, 0x2000)]).map (fun x => (x.off, x.va, x.len)) = [(0, 0x1FF000, 0x1000), (0x1000, 0x200000, 0x1000)] ∧
    setOk [(0x1000, 0x1000), (0x1000, 0x2000)] = false ∧ setOk [(0x1000, 0x1000), (0x2000, 0x1000)] = true ∧ setOk [(0x1000, 0x800)] = false := by decide
theorem test_checkpoint_refused : after (exec (.invCheckpoint 0 []) (invAt 0x0070 (request 9 0 0x1000 1) inst0 [])) replies = some [1] ∧
    after (exec (.invCheckpoint 0 []) (invAt 0x0070 (request 8 5 0x1000 1) inst0 [])) replies = some [3] ∧
    after (exec (.invCheckpoint 0 []) (invAt 0x0070 (request 9 5 0x1000 1) inst0 [ckpt])) replies = some [2] := by decide +kernel
/-- The set table at 0x1000 reads as zeros (no range), then as one range. -/
theorem test_checkpoint_set : after (exec (.invCheckpoint 0 []) (invAt 0x0070 (request 9 5 0x1000 1) inst0 [])) replies = some [1] := by decide +kernel
theorem test_checkpoint : after (exec (.invCheckpoint 0 []) ((invAt 0x0070 (request 9 5 0x1000 1) inst0 []).poke 0x5000 (leBytes 8 0x1000 ++ leBytes 8 4096)))
    (fun t => (replies t, t.inv.ops.map (·.ckpt), (t.inst 0).map (·.stopping))) = some ([0], [1], some true) := by decide +kernel
theorem witness_broken : (running ckpt).invBroken { inst0 with comms := [comm1] } ckpt = none ∧ (running ckpt).atBoundary { inst0 with comms := [comm1], asid := 0 } ckpt = true ∧
    (running ckpt).stagingFor (2 ^ 28 + 1) = none := by decide +kernel
theorem test_cut : after (exec (.invCut 0 3 [] []) (running ckpt)) (fun t => t.inv.ops.map fun o => (o.cut, o.phase, o.shards.map (·.marked))) =
    some [(true, 1, [true])] := by decide +kernel
theorem test_cut_wait : after (exec (.invCut 0 3 [] []) (invAt 0 [] { inst0 with dockets := [docket0 .running none] } [ckpt])) (fun t => t.inv.ops.map (·.cut)) =
    some [false] := by decide +kernel
theorem test_cut_done : after (exec (.invCut 0 3 [] []) (running { ckpt with cut := true })) (fun t => (t.inv.ops.map (·.phase), (t.func 0).d2hWait.length)) =
    some ([2], 1) := by decide +kernel
def copying : State := running { ckpt with cut := true, phase := 2 }
theorem test_shardCopy : after (exec (.invShardCopy 0 3 []) copying) (fun t => t.inv.ops.map fun o => (o.phase, o.shards.map fun x => x.data.map (·.length))) =
    some [(3, [some 4096])] := by decide +kernel
theorem test_broken : after (exec (.invShardCopy 0 3 []) { copying with xim := {} }) invEnd = some (0, 0x67) := by decide +kernel
def cowRec : FaultRec := { kind := 4, asid := 0, page := 1, requester := 0, seq := 0, pa := 0, isOpen := true, joined := [] }
def held (n : Nat) : State := { (copying.setSurveyor 0 { (copying.surveyor 0) with recs := [(6, cowRec)] }) with inv := { copying.inv with staging := [(0, n), (1, n), (2, n), (3, n)] } }
theorem test_copyAhead : (held 0).shardAt cowRec |>.isSome := by decide +kernel
theorem test_copyAhead_counts : after (exec (.invCopyAhead 0 6 []) (held 0)) (fun t => (t.fget (invFn 0) F.invFuncState_COPY_AHEAD, t.inv.ops.map (·.phase))) = some (1, [3]) ∧
    after (exec (.invCopyAhead 0 6 []) (held (2 ^ 28))) (fun t => t.fget (invFn 0) F.invFuncState_COPY_AHEAD) = some 0 := by decide +kernel
theorem test_stagingTimeout : after (exec (.invStagingTimeout 0 6) (held (2 ^ 28))) invEnd = some (0, 0x63) ∧ after (exec (.invStagingTimeout 0 6) (held 0)) invEnd =
    some (1, 0) ∧ after (exec (.invStagingTimeout 0 7) (held (2 ^ 28))) invEnd = some (1, 0) := by decide +kernel
def copied : Shard := { shard0 with data := some [], digest := [9#8] }
theorem test_shardDurable : after (exec (.invShardDurable 0 3 0 none none false) (running { ckpt with phase := 3, shards := [copied] })) invEnd = some (0, 0x64) ∧
    after (exec (.invShardDurable 0 3 1 none none false) (running { ckpt with phase := 3, shards := [{ copied with durable := true, owner := some 0, lba := 99 }, copied] }))
      (fun t => t.inv.ops.map fun o => o.shards.map fun x => (x.lba, x.durable)) = some [[(99, true), (99, true)]] := by decide +kernel
theorem test_manifest_wait : after (exec (.invManifestWrite 0 3 [] false) (running { ckpt with phase := 3, shards := [copied] })) invEnd = some (1, 0) ∧
    after (exec (.invManifestWrite 0 3 [] true) (running { ckpt with phase := 3, shards := [{ copied with durable := true }] })) invEnd = some (0, 0x65) := by decide +kernel
theorem test_restore_missing : after (exec (.invRestore 0 [] []) ((invAt 0x0071 (request 9 5 0x1000 1 ++ List.replicate 10 0#8) inst0 []).poke 0x5000 (leBytes 8 0x1000 ++ leBytes 8 4096)))
    (fun t => (replies t, invEnd t)) = some ([0, 0], 0, 0x62) ∧
    after (exec (.invRestore 0 [] []) (invAt 0x0071 (request 9 5 0x1000 1 ++ List.replicate 10 0#8) { inst0 with dockets := [docket0 .waiting none] } [])) replies =
    some [2] := by decide +kernel
def restoring : InvOp := { ckpt with restore := true, phase := 4, trying := 5, result := some 0 }
theorem test_restoreResult : after (exec (.invRestoreResult 0 3 0 []) (running restoring)) invEnd = some (0, 0) ∧
    after (exec (.invRestoreResult 0 3 0x61 []) (running restoring)) invEnd = some (0, 0x61) ∧
    after (exec (.invRestoreResult 0 3 0x61 []) (running { restoring with policy := 1 })) invEnd = some (0, 0x62) ∧
    after (exec (.invRestoreResult 0 3 0 []) (running { restoring with result := none })) invEnd = some (1, 0) := by decide +kernel

/-! ### Errors, security, power, boot and the sideband -/

def mode4 (t : State) (st : Nat) : Nat := t.fget ⟨.stallState, st, 0⟩ F.stallState_STATE
def fenceV (op t : Nat) : W64 := ((live.fset ⟨.errFenceCtrl, 0, 0⟩ F.errFenceCtrl_OP op).fset ⟨.errFenceCtrl, 0, 0⟩ F.errFenceCtrl_TARGET t).rd ⟨.errFenceCtrl, 0, 0⟩
def fenceAns (t : State) : Nat := t.fget ⟨.errFenceStatus, 0, 0⟩ F.errFenceStatus_STATUS
/-- Table 24.2: an uncorrected error of a Square is of class 2, in the system region of class 4; a hung stall of class 3. -/
theorem test_report : after (exec (.errorReport 0x0A 1 0xFF 0x0003 0 0 0) live) (fun t => (mode4 t 3, mode4 t 4)) = some (4, 0) ∧
    after (exec (.errorReport 0x01 1 0xFF 0x8000 0 0x1000_0800_0000 0) live) (fun t => (t.qFenced 0, t.err.seq)) = some (false, 1) := by decide +kernel
theorem test_report_classes : classOf 0x01 1 0x8000 0x1000_07FF_FF80 = some 4 ∧ classOf 0x01 1 0x8000 0x1000_0800_0000 = some 2 ∧ classOf 0x0A 1 0x8004 0 = some 4 ∧
    classOf 0x10 0 0xC000 0 = none := by decide +kernel
theorem test_fence : after (exec (.errFence kern (fenceV 1 7)) live) (fun t => (mode4 t 7, fenceAns t)) = some (4, 0) ∧
    after (exec (.errFence kern (fenceV 1 0x9000)) live) fenceAns = some 1 ∧ after (exec (.errFence user (fenceV 1 7)) live) (fun t => mode4 t 7) = some 0 := by
  decide +kernel
/-- Quarter 2 is fenced. -/
def out2 : State := live.fset ⟨.errSummary, 0, 0⟩ F.errSummary_QFENCED 4
theorem test_fence_quarter : after (exec (.errFence kern (fenceV 1 0x8002)) out2) (fun t => (t.qFenced 2, t.qFenced 1, fenceAns t)) = some (true, false, 0) ∧
    after (exec (.errFence kern (fenceV 1 0x8004)) out2) fenceAns = some 1 ∧ after (exec (.errRejoin kern (fenceV 2 0x203) []) out2) fenceAns = some 2 := by
  decide +kernel
def fenced7 (n : Nat) : State := (live.fset ⟨.stallState, 7, 0⟩ F.stallState_STATE 4) |> fun t => { t with err := { t.err with fenceCount := [(7, n)] } }
theorem test_rejoin : after (exec (.errRejoin kern (fenceV 2 7) []) (fenced7 3)) (fun t => (mode4 t 7, fenceAns t)) = some (0, 0) ∧
    after (exec (.errRejoin kern (fenceV 2 7) [7#16]) (fenced7 3)) (fun t => (mode4 t 7, fenceAns t)) = some (4, 4) ∧
    after (exec (.errRejoin kern (fenceV 2 7) []) (fenced7 4)) (fun t => (mode4 t 7, fenceAns t)) = some (4, 3) ∧
    after (exec (.errRejoin kern (fenceV 2 7) []) live) fenceAns = some 1 := by decide +kernel
def pf0 : Requester := .pf 0
def injV (arm dis mode det unit syn : Nat) : W64 :=
  let r : Reg := ⟨.errInjCtrl, 0, 0⟩
  ((((((live.fset r F.errInjCtrl_ARM arm).fset r F.errInjCtrl_DISARM dis).fset r F.errInjCtrl_MODE mode).fset r F.errInjCtrl_DETECTOR det).fset
    r F.errInjCtrl_UNIT unit).fset r F.errInjCtrl_SYNDROME syn).rd r
def tester : State := { live with xim := { live.xim with conf := { live.xim.conf with testPriv := true } } }
theorem test_inject : after (exec (.errInjArm pf0 (injV 1 0 1 0x08 5 0)) tester) (fun t => (t.err.inj.isSome, t.fget ⟨.errInjStatus, 0, 0⟩ F.errInjStatus_ARMED)) =
    some (true, 1) ∧ after (exec (.errInjArm pf0 (injV 1 0 1 0x08 5 1)) tester) (fun t => t.err.inj.isSome) = some false ∧
    after (exec (.errInjArm pf0 (injV 1 0 1 0x08 5 0)) live) (fun t => t.err.inj.isSome) = some false := by decide +kernel
theorem test_disarm : after (exec (.errInjDisarm pf0 (injV 0 1 0 0 0 0)) { tester with err := { tester.err with inj := some ⟨true, 8, 5, 0, 0⟩ } }) (fun t =>
    t.err.inj.isSome) = some false := by decide +kernel

/-- A TRUST message of the manager. -/
def trusts (s : State) (cmd a a' : Nat) : State := sends s manager 0x0140 (leBytes 4 cmd ++ leBytes 4 a ++ leBytes 8 a')
def trustOf (t : State) : Option Nat × List Nat := (t.sec.pending.map (·.cmd), replies t)
theorem test_debugEnable : after (exec (.debugEnable (.msg 0)) (trusts live 1 1 0)) trustOf = some (some 1, [0]) ∧
    after (exec (.debugEnable (.msg 0)) (trusts live 1 3 0)) trustOf = some (none, [1]) ∧
    after (exec (.debugEnable (.msg 0)) (trusts { live with sec := { live.sec with pending := some ⟨5, 0, [], none⟩ } } 1 1 0)) replies = some [2] := by decide +kernel
theorem test_debugDisable : after (exec (.debugDisable (.msg 0)) (trusts (live.fset secState F.secState_DEBUG_LEVEL 2) 2 0 0)) (fun t => (t.debugLevel, replies t)) =
    some (0, [0]) := by decide +kernel
theorem test_ownerInstall : after (exec (.ownerInstall (.msg 0)) (trusts live 3 0 0x2000)) trustOf = some (none, [1]) := by decide +kernel
theorem test_factoryEnable : after (exec (.factoryEnable (.msg 0)) (trusts live 4 0 0)) trustOf = some (some 4, [0]) ∧
    after (exec (.factoryEnable (.msg 0)) (trusts (live.setFunc 1 session) 4 0 0)) trustOf = some (none, [8]) := by decide +kernel
theorem test_decommission : after (exec (.decommission (.msg 0)) (trusts live 5 0x4F52455A 0)) trustOf = some (some 5, [0]) ∧
    after (exec (.decommission (.msg 0)) (trusts live 5 0 0)) trustOf = some (none, [1]) := by decide +kernel
theorem test_rollback : (live.rollback 0 1).2 = 0x74 ∧ ((live.fset ⟨.ximInforce, 0, 0⟩ F.ximInforce_SVN 3).rollback 0 3).1.sec.fuses.svnImage = 3 ∧
    after (exec (.rollbackAdvance (.msg 0)) (trusts live 6 0 0)) replies = some [0] ∧ after (exec (.rollbackAdvance (.msg 0)) (trusts live 6 3 0)) replies = some [1] := by
  decide +kernel
def pendingTrust (c a : Nat) (h : Bool) : State := { live with sec := { live.sec with pending := some ⟨c, a, [], none⟩, holding := h } }
theorem test_cancel_trust : after (exec (.cancel (.msg 0)) (trusts (pendingTrust 4 0 false) 7 0 0)) (fun t => t.sec.pending.isNone) = some true := by decide +kernel
theorem test_presence : after (exec .presenceAssert (pendingTrust 1 2 false)) (·.sec.holding) = some true ∧ after (exec .presenceHoldDone (pendingTrust 1 2 true)) (fun t =>
    (t.debugLevel, t.sec.pending.isNone)) = some (2, true) ∧ after (exec .presenceTimeout (pendingTrust 1 2 true)) (fun t => (t.debugLevel, t.sec.pending.isNone)) =
    some (0, true) ∧ after (exec .presenceHoldDone (pendingTrust 1 2 false)) (·.debugLevel) = some 0 := by decide +kernel
theorem test_spdm_version : after (exec (.spdmRequest 2 .version true) live) (fun t => t.out.length) = some 1 := by decide +kernel
theorem test_spdm_waits : after (exec (.spdmRequest 2 (.challenge []) true) { live with sec := { live.sec with next := 2 ^ 20 } }) (fun t => t.sec.waiting.length) = some 1 ∧
    after (exec (.spdmRequest 2 (.challenge []) true) { live with sec := { live.sec with next := 2 ^ 45 } }) (fun t => (t.sec.next, t.out.length)) = some (2 ^ 45, 1) := by
  decide +kernel
theorem test_tree : after (exec (.hssTreeReady true) live) (fun t => t.sec.built) = some 2 := by decide +kernel

/-- PWR_SET and the governor. -/
def pwrV (target cap : Nat) : W64 := ((live.fset pwrCtrl F.pwrCtrl_TARGET target).fset pwrCtrl F.pwrCtrl_CAP_W cap).rd pwrCtrl
def point (t : State) : Nat × Nat := (t.fget pwrStatus F.pwrStatus_POINT, t.fget pwrStatus F.pwrStatus_SLEWING)
theorem test_pwrSet : after (exec (.pwrSet (.reg kern (pwrV 0 600))) (live.fset pwrStatus F.pwrStatus_POINT 1)) point = some (0, 1) ∧
    after (exec (.pwrSet (.reg kern (pwrV 3 600))) live) (fun t => t.fget pwrCtrl F.pwrCtrl_TARGET) = some 1 ∧
    after (exec (.pwrSet (.reg kern (pwrV 0 599))) live) (fun t => t.fget pwrCtrl F.pwrCtrl_CAP_W) = some 0x672 := by decide +kernel
theorem test_slewDone : after (exec .pointSlewDone (live.fset pwrStatus F.pwrStatus_SLEWING 1)) point = some (1, 0) ∧ after (exec .pointSlewDone live) point = some (0, 0) := by
  decide +kernel
theorem test_governor : after (exec (.capGovernorWindow { cool with mean10 := 1651 }) live) (fun t => t.pwr.cap) = some 0 ∧
    after (exec (.capGovernorWindow { cool with mean10 := 1549 }) { live with pwr := { live.pwr with cap := 0, below := 9 } }) (fun t => (t.pwr.cap, t.pwr.below)) = some (1, 0) ∧
    after (exec (.capGovernorWindow { cool with mean10 := 1550 }) { live with pwr := { live.pwr with cap := 0, below := 9 } }) (fun t => (t.pwr.cap, t.pwr.below)) = some (0, 0) := by
  decide +kernel
/-- R590, the witness of Throttle: over 105, at 105, and back at 100. -/
theorem test_throttle : after (exec (.throttleSet { cool with watch := 106 }) live) (fun t => t.fget pwrStatus F.pwrStatus_THROTTLE) = some 1 ∧
    after (exec (.throttleSet { cool with base := [105] }) live) (fun t => t.fget pwrStatus F.pwrStatus_THROTTLE) = some 0 ∧
    after (exec (.throttleClear { cool with base := [100] }) (live.fset pwrStatus F.pwrStatus_THROTTLE 1)) (fun t => t.fget pwrStatus F.pwrStatus_THROTTLE) = some 0 ∧
    after (exec (.throttleClear { cool with base := [101] }) (live.fset pwrStatus F.pwrStatus_THROTTLE 1)) (fun t => t.fget pwrStatus F.pwrStatus_THROTTLE) = some 1 := by
  decide +kernel
def emergOf (t : State) : Nat × Nat × Nat := (t.fget pwrStatus F.pwrStatus_EMERG, t.fget pwrStatus F.pwrStatus_DECLARED, t.fget pwrStatus F.pwrStatus_PAUSED)
theorem test_declare : after (exec (.emergencyDeclare 1 { cool with flow := 79 }) live) emergOf = some (2, 1, 1) ∧
    after (exec (.emergencyDeclare 1 { cool with flow := 80 }) live) emergOf = some (0, 0, 0) ∧
    after (exec (.emergencyDeclare 0 { cool with flow := 200, watch := 110 }) live) emergOf = some (1, 1, 0) := by decide +kernel
def hot : State := (live.fset pwrStatus F.pwrStatus_EMERG 1).fset pwrStatus F.pwrStatus_DECLARED 1
theorem test_pause : after (exec (.admissionPause { cool with watch := 110 }) hot) emergOf = some (1, 1, 1) ∧ after (exec (.admissionPause cool) hot) emergOf = some (1, 1, 0) := by
  decide +kernel
theorem test_clear : after (exec (.emergencyClear { cool with flow := 100, voltage := 48000 }) hot) emergOf = some (0, 0, 0) ∧
    after (exec (.emergencyClear { cool with flow := 99, voltage := 48000 }) hot) emergOf = some (1, 1, 0) := by decide +kernel
theorem test_thermalFence : after (exec (.thermalFence 2 { cool with compute := [30, 30, 120, 30] }) out2) (fun t => (t.qFenced 2, t.qFenced 3)) = some (true, false) ∧
    after (exec (.thermalFence 3 { cool with compute := [30, 30, 30, 119] }) live) (fun t => t.qFenced 3) = some false := by decide +kernel
def removal (n : Nat) : State := live.fset pwrStatus F.pwrStatus_REMOVE n
def removeOf (t : State) : Nat := t.fget pwrStatus F.pwrStatus_REMOVE
theorem test_attn : after (exec .attnRequest live) removeOf = some 1 ∧ after (exec .attnRequest (removal 3)) removeOf = some 0 := by decide +kernel
theorem test_remove : after (exec (.removeRequest (.msg 0)) (sends live manager 0x0151 [1#8])) removeOf = some 1 ∧
    after (exec (.removeRequest (.msg 0)) (sends (removal 1) manager 0x0151 [1#8])) removeOf = some 0 := by decide +kernel
theorem test_removeCancel : after (exec (.removeCancel (.msg 0)) (sends live manager 0x0151 [2#8])) replies = some [3] ∧
    after (exec (.removeCancel (.msg 0)) (sends (removal 2) manager 0x0151 [2#8])) removeOf = some 0 := by decide +kernel
theorem test_drain_removed : (removal 1).removeDrained = true ∧ after (exec .removeDrainDone (removal 1)) removeOf = some 2 ∧ after (exec .removeDrainDone (removal 3)) removeOf =
    some 3 ∧ after (exec .removeDrainTimeout (removal 1)) removeOf = some 3 ∧ after (exec .removeDrainTimeout (removal 2)) removeOf = some 2 := by decide +kernel

/-- Cold boot. -/
def booting : State := State.reset.setStage 3
def failCode (t : State) : Nat × Nat := (t.stage, t.fget bootStatus F.bootStatus_FAIL_CODE)
theorem test_powerOn : after (exec (.powerOn true false) State.reset) failCode = some (15, 5) ∧ after (exec (.powerOn false true) State.reset) failCode = some (0, 0) := by
  decide +kernel
theorem test_efuse : after (exec .efuseOpen live) (fun t => (t.boot.off, t.stage)) = some (true, 0) ∧ after (exec .resetNAssert live) (fun t => (t.boot.inReset, t.stage)) =
    some (true, 0) := by decide +kernel
theorem test_deassert : after (exec (.resetNDeassert true false) { State.reset with boot := { inReset := true } }) failCode = some (15, 5) ∧
    after (exec (.resetNDeassert true false) live) failCode = some (9, 0) := by decide +kernel
theorem test_coolant_short : after (exec (.coolantReady { cool with flow := 149 } [] [] []) booting) failCode = some (3, 0) := by decide +kernel
theorem test_kernelReady : after (exec .kernelReady (live.setStage 7)) (·.stage) = some 9 ∧ after (exec .kernelReady booting) (·.stage) = some 3 ∧
    after (exec .kernelTimeout { live.setStage 7 with boot := { dark := [], retried := true } }) failCode = some (15, 6) := by decide +kernel

/-- The sideband. -/
theorem test_mctp : after (exec (.mctpControl 1 0 ([0#8, 1#8, 0#8, 9#8])) live) (·.side.eid) = some 9 ∧
    after (exec (.mctpControl 1 0 ([0#8, 1#8, 0#8, 9#8])) { live with side := { dynamic := some 5 } }) (·.side.eid) = some 0 := by decide +kernel
theorem test_vendor : after (exec (.mctpVendorOpen 1 []) live) (·.side.vendor) = some true ∧ after (exec (.mctpVendorOpen 1 [1#8]) live) (·.side.vendor) = some false := by
  decide +kernel
theorem test_i3c : after (exec (.i3cDynamicAddress 5) live) (·.side.dynamic) = some (some 5) := by decide +kernel
theorem test_sensor : after (exec (.pldmGetSensorReading 1 18) live) (fun t => t.out.head?) = some (some (.sideband 1 [0#8, 9#8, 0#8, 0#8, 0#8])) := by decide +kernel
theorem test_component : after (exec (.pldmUpdateComponent 1 2 [7#8]) live) (fun t => t.side.update.map (·.comp)) = some (some 2) ∧
    after (exec (.pldmUpdateComponent 1 4 [7#8]) live) (fun t => t.side.update.map (·.comp)) = some none := by decide +kernel
theorem test_verify : after (exec (.pldmVerifyComplete 1) { live with side := { update := some ⟨2, [7#8]⟩ } }) (fun t => (t.side.update.isNone, t.side.ready)) =
    some (true, []) := by decide +kernel
theorem test_activate : after (exec (.pldmActivateFirmware 1 true false) { live.setStage 15 with side := { ready := [1] } }) failCode = some (15, 5) ∧
    after (exec (.pldmActivateFirmware 1 true false) { live with side := { ready := [2] } }) (fun t => (t.side.ready, t.stage)) = some ([], 9) := by decide +kernel

/-! ### Every command, and rules stated whole -/

/-- The front of the queue is what a step runs; with nothing waiting a tick passes. -/
theorem test_step_front : after (step { live with pending := [.hqPerstDeassert 0, .hqPerstAssert 0] }) (fun t => (t.pending, (t.port 0).perst)) =
    some ([.hqPerstAssert 0], false) := by decide +kernel
theorem test_step_idle : after (step live) (fun t => (t.tick, t.pending)) = some (1, []) := by decide +kernel
/-- A table row gives no word: nothing is fetched. -/
theorem test_decode : decodeTableWord 32 0 = none ∧ live.withFetchWord 32 0 = live := by decide +kernel
/-- Reset values of the register tables. -/
theorem test_resetState : State.reset.rd ⟨.pwrCtrl, 0, 0⟩ = 0x6720001 ∧ State.reset.rd ⟨.whCtrl, 3, 0⟩ = 0x41 ∧ State.reset.pending = [] ∧ State.reset.memWf := by decide +kernel
/-- A Tally word's special terms; an infinite term times zero. -/
theorem test_special : Ex.mul .pinf (.fin 0 1) = .nan ∧ Ex.mul .ninf (.fin 3 1) = .ninf ∧ Ex.mul .ninf (.fin (-3) 1) = .pinf := by decide +kernel
/-- R136: a cell that is not 32-byte aligned; a cell with a reserved bit set. -/
theorem test_cell : (tables.cellAdd 0 0 0 0x1010 id).2 = .ended 2 ∧ (bar2on.poke 0x5000 (List.replicate 96 1#8)).bytes 0x5000 1 = [1#8] := by decide +kernel
/-- R268: a C mark holds a write and lets a read through. -/
def marked : Nat := 0x5000 + 0b11101
def vacc (w : Bool) : VAccess := { req := 0, asid := 0, va := 0x1000, write := w }
theorem test_copyMark : ((tables.leafAccess 0 marked 0 [] (vacc true)).2 = .held) ∧ ((tables.leafAccess 0 marked 0 [] (vacc false)).2 = .ok 0 0x5000 0) := by decide +kernel
/-- Kiosk refusals have their message at the head: one for the rows of the instances, one for those of the managers. -/
theorem witness_refusal : (match (sends owned { session with isOpen := false } 0x0011 []).takeMsg 0 0x0011 8 with | .error _ => true | .ok _ => false) = true ∧
    (match (sends owned session 0x0140 []).takeMsg 0 0x0140 16 with | .error _ => true | .ok _ => false) = true := by decide +kernel
/-- The window slides by 16. -/
theorem test_slide : (({ pc := 0, s7k := 0, cwp := 30 } : Core).slide true).cwp = 0 := by decide +kernel
end Sys2Proof.Tests
end

