-- ==== Sys2Proof/Proofs/SpecialTerms.lean ====
section
/-!
SUPPORT. How NaN and the infinities enter a product and a Tally word (R118): one equation per kind of operand, each stated for one order of
the factors; the other order follows from the product being commutative.
-/
namespace Sys2Proof.Machine

/-! ### Terms of a Tally word -/

@[simp] theorem Tw.add_nan (w : Tw) : w.add .nan = { w with st := setBit w.st 0 } := rfl

@[simp] theorem Tw.add_pinf (w : Tw) : w.add .pinf = { w with st := setBit w.st 1 } := rfl

@[simp] theorem Tw.add_ninf (w : Tw) : w.add .ninf = { w with st := setBit w.st 2 } := rfl

/-! ### Products -/

@[simp] theorem Ex.nan_mul (x : Ex) : Ex.mul .nan x = .nan := rfl

@[simp] theorem Ex.mul_nan (x : Ex) : Ex.mul x .nan = .nan := by
  cases x <;> rfl

theorem Ex.mul_comm (x y : Ex) : x.mul y = y.mul x := by
  cases x with
  | nan => simp
  | fin a d =>
    cases y with
    | fin b e => simp only [Ex.mul, Int.mul_comm a b, Nat.mul_comm d e]
    | _ => rfl
  | _ => cases y <;> rfl

theorem Ex.mul_eq_both {x y z : Ex} (h : x.mul y = z) : x.mul y = z ∧ y.mul x = z :=
  ⟨h, Ex.mul_comm y x ▸ h⟩

/-- +∞ takes the sign of its finite factor. -/
theorem Ex.pinf_mul_fin (n : Int) (d : Nat) :
    Ex.mul .pinf (.fin n d) = if n = 0 then .nan else if n < 0 then .ninf else .pinf := by
  by_cases hn : n < 0 <;> simp [Ex.mul, hn]

/-- −∞ takes the opposite of its finite factor's sign. -/
theorem Ex.ninf_mul_fin (n : Int) (d : Nat) :
    Ex.mul .ninf (.fin n d) = if n = 0 then .nan else if n < 0 then .pinf else .ninf := by
  by_cases hn : n < 0 <;> simp [Ex.mul, hn]

theorem Ex.inf_mul_zero {y : Ex} (hy : y = .pinf ∨ y = .ninf) (d : Nat) : y.mul (.fin 0 d) = .nan := by
  obtain rfl | rfl := hy
  · exact Ex.pinf_mul_fin 0 d
  · exact Ex.ninf_mul_fin 0 d

theorem Ex.pinf_mul_pos {n : Int} (hn : 0 < n) (d : Nat) : Ex.mul .pinf (.fin n d) = .pinf := by
  rw [Ex.pinf_mul_fin, if_neg hn.ne', if_neg hn.not_gt]

theorem Ex.ninf_mul_pos {n : Int} (hn : 0 < n) (d : Nat) : Ex.mul .ninf (.fin n d) = .ninf := by
  rw [Ex.ninf_mul_fin, if_neg hn.ne', if_neg hn.not_gt]

theorem Ex.pinf_mul_neg {n : Int} (hn : n < 0) (d : Nat) : Ex.mul .pinf (.fin n d) = .ninf := by
  rw [Ex.pinf_mul_fin, if_neg hn.ne, if_pos hn]

theorem Ex.ninf_mul_neg {n : Int} (hn : n < 0) (d : Nat) : Ex.mul .ninf (.fin n d) = .pinf := by
  rw [Ex.ninf_mul_fin, if_neg hn.ne, if_pos hn]

/-- The product of two infinities is +∞ where their signs agree and −∞ where they differ. -/
theorem Ex.inf_mul_inf :
    Ex.mul .pinf .pinf = .pinf ∧ Ex.mul .ninf .ninf = .pinf ∧ Ex.mul .pinf .ninf = .ninf ∧ Ex.mul .ninf .pinf = .ninf :=
  ⟨rfl, rfl, rfl, rfl⟩

/-- Settles O35: the equations of `Tw.add` and `Ex.mul` above, each product read in both orders. -/
theorem specialTerms : Obligations.SpecialTerms := by
  intro w n d x
  refine ⟨Tw.add_nan w, Tw.add_pinf w, Tw.add_ninf w, by simp, by simp, by simp, ⟨Ex.nan_mul x, Ex.mul_nan x⟩,
    fun y hy => Ex.mul_eq_both (Ex.inf_mul_zero hy d), fun hn => ?_, fun hn => ?_, Ex.inf_mul_inf⟩
  · obtain ⟨hl, hr⟩ := Ex.mul_eq_both (Ex.pinf_mul_pos hn d)
    exact ⟨hl, hr, Ex.mul_eq_both (Ex.ninf_mul_pos hn d)⟩
  · obtain ⟨hl, hr⟩ := Ex.mul_eq_both (Ex.pinf_mul_neg hn d)
    exact ⟨hl, hr, Ex.mul_eq_both (Ex.ninf_mul_neg hn d)⟩

end Sys2Proof.Machine
end

