-- ==== Sys2Proof/Proofs/CopyMark.lean ====
section
/-!
SUPPORT. Which accesses fault at their leaf, what the leaf answers for each fault (R263, R267), and from them the C mark (R268).
-/

namespace Sys2Proof.Machine

/-! ### Which accesses fault at their leaf -/

/-- R267: a read goes on where R is set; a write goes on where W is set and C is clear. -/
theorem leafFault_eq_none_iff {e : Nat} {write : Bool} :
    leafFault e write = none ↔ if write then nbit e 3 = true ∧ nbit e 4 = false else nbit e 2 = true := by
  cases write with
  | false => cases hr : nbit e 2 <;> simp [leafFault, hr]
  | true => cases hw : nbit e 3 <;> cases hc : nbit e 4 <;> simp [leafFault, hw, hc]

/-- R267: a write that W permits meets the C mark, as COPY_ON_WRITE. -/
theorem leafFault_write_marked {e : Nat} (hW : nbit e 3 = true) (hC : nbit e 4 = true) : leafFault e true = some 4 := by
  simp [leafFault, hW, hC]

/-! ### What each leaf decision answers -/

section
variable {s u : State} {q e level kind tgt pa link : Nat} {ctx : Bytes} {a : VAccess}

theorem State.leafAccess_of_fault_zero (hf : leafFault e a.write = some 0) :
    s.leafAccess q e level ctx a = (s, .deny) := by
  simp only [State.leafAccess, hf]

theorem State.leafAccess_of_fault_succ (hf : leafFault e a.write = some (kind + 1)) :
    s.leafAccess q e level ctx a = (s.holdAccess q (kind + 1) a, .held) := by
  simp only [State.leafAccess, hf]

/-- R263: a device page inside the precinct's carves, or under ASID 0, is granted at the access's offset in it. -/
theorem State.leafAccess_of_device (hf : leafFault e a.write = none) (ht : e / 2 ^ 60 = 0)
    (hp : a.asid = 0 ∨ s.carveHolds (leAt ctx 8 1) (pteAddr e) (2 ^ leafShift e level) = true) :
    s.leafAccess q e level ctx a = (s, .ok 0 (pteAddr e + a.va % 2 ^ leafShift e level) 0) := by
  simp only [State.leafAccess, hf, ht, if_pos hp]

/-- An access is granted only where its leaf faults nothing. -/
theorem State.leafFault_of_leafAccess_ok (h : s.leafAccess q e level ctx a = (u, .ok tgt pa link)) :
    leafFault e a.write = none := by
  cases hf : leafFault e a.write with
  | none => rfl
  | some kind =>
    cases kind with
    | zero => simp [State.leafAccess_of_fault_zero hf] at h
    | succ kind => simp [State.leafAccess_of_fault_succ hf] at h

end

/-- Settles O19: a granted access has a leaf without fault, which a write to a marked page is not; a read's leaf has none where
R is set, whatever C holds. -/
theorem copyMarks : Obligations.CopyMarks := by
  intro s u q e level ctx a tgt pa link hC
  refine ⟨fun hw hok => ?_, fun hw hW => ?_, fun hr hR ht hp => ?_⟩
  · have hclear := leafFault_eq_none_iff.mp (State.leafFault_of_leafAccess_ok hok)
    simp [hw, hC] at hclear
  · exact State.leafAccess_of_fault_succ (by rw [hw, leafFault_write_marked hW hC])
  · exact State.leafAccess_of_device (leafFault_eq_none_iff.mpr (by simp [hr, hR])) ht hp

end Sys2Proof.Machine
end

