-- ==== Sys2Proof/Proofs/WindowFrames.lean ====
section
/-!
SUPPORT. The frames of the windowed file (R485): which place of the file each windowed register reads, and what a slide and its reverse
do to the window and to the tags. Cores with the same window and the same file read the same windowed registers.
-/
namespace Sys2Proof.Machine

/-! ### Frames, numbered modulo 31 -/

theorem nextFrame_lt (k : Nat) : nextFrame k < 31 := Nat.mod_lt _ (by decide)

theorem prevFrame_nextFrame {k : Nat} (hk : k < 31) : prevFrame (nextFrame k) = k := by
  unfold prevFrame nextFrame
  omega

/-! ### What the window shows -/

section
variable {c d : Core} {r : HReg} {i : Nat}

/-- R484: a register numbered 8 to 31 reads its place in the windowed file. -/
theorem Core.get_windowed (hr : 7 < r.toNat) : c.get r = lookD 0 c.file (c.slotOf r.toNat) := by
  simp only [Core.get]
  rw [if_neg (by omega), if_neg (by omega), if_neg (by omega)]

theorem Core.get_windowed_congr (hcwp : d.cwp = c.cwp) (hfile : d.file = c.file) (hr : 7 < r.toNat) : d.get r = c.get r := by
  rw [Core.get_windowed hr, Core.get_windowed hr, Core.slotOf, Core.slotOf, hcwp, hfile]

theorem Core.get_ofNat_windowed {j : Nat} (hlo : 7 < j) (hhi : j < 32) :
    c.get (BitVec.ofNat 5 j) = lookD 0 c.file (c.slotOf j) := by
  have hj : (BitVec.ofNat 5 j).toNat = j := Nat.mod_eq_of_lt hhi
  rw [Core.get_windowed (by rwa [hj]), hj]

theorem Core.get_arrival (hi : i < 8) : c.get (BitVec.ofNat 5 (8 + i)) = lookD 0 c.file (frameKey c.cwp i) := by
  rw [Core.get_ofNat_windowed (by omega) (by omega), Core.slotOf, if_pos (by omega), Nat.add_sub_cancel_left]

theorem Core.get_kept (hi : i < 8) : c.get (BitVec.ofNat 5 (16 + i)) = lookD 0 c.file (frameKey c.cwp (8 + i)) := by
  rw [Core.get_ofNat_windowed (by omega) (by omega), Core.slotOf, if_pos (by omega), show 16 + i - 8 = 8 + i by omega]

theorem Core.get_nextReg (hi : i < 8) :
    c.get (BitVec.ofNat 5 (24 + i)) = lookD 0 c.file (frameKey (nextFrame c.cwp) i) := by
  rw [Core.get_ofNat_windowed (by omega) (by omega), Core.slotOf, if_neg (by omega), Nat.add_sub_cancel_left]

end

/-! ### The slide of 16 and its reverse -/

section
variable (c : Core) (kernel : Bool)

@[simp] theorem Core.slide_cwp : (c.slide kernel).cwp = nextFrame c.cwp := rfl

@[simp] theorem Core.slide_file : (c.slide kernel).file = c.file := rfl

@[simp] theorem Core.unslide_cwp : c.unslide.cwp = prevFrame c.cwp := rfl

@[simp] theorem Core.unslide_file : c.unslide.file = c.file := rfl

/-- R485: the caller's next registers become the callee's arrival registers. -/
theorem Core.slide_get_arrival {i : Nat} (hi : i < 8) :
    (c.slide kernel).get (BitVec.ofNat 5 (8 + i)) = c.get (BitVec.ofNat 5 (24 + i)) := by
  rw [Core.get_arrival hi, Core.get_nextReg hi, Core.slide_cwp, Core.slide_file]

theorem Core.unslide_slide_get (hc : c.cwp < 31) {r : HReg} (hr : 7 < r.toNat) : (c.slide kernel).unslide.get r = c.get r :=
  Core.get_windowed_congr (by simp [prevFrame_nextFrame hc]) (by simp) hr

/-- R485: the frame entered carries the tag of the mode that enters it. -/
theorem Core.slide_userFrame_entered : (c.slide kernel).userFrame (nextFrame c.cwp) = !kernel := by
  cases kernel <;> simp [Core.userFrame, Core.slide]

theorem Core.slide_userFrame_of_ne {f : Nat} (hf : f ≠ nextFrame c.cwp) :
    (c.slide kernel).userFrame f = c.userFrame f := by
  cases kernel with
  | false => simp [Core.userFrame, Core.slide, look_put_ne _ _ hf]
  | true => simp [Core.userFrame, Core.slide, look_drop_ne _ hf]

end

/-- Settles O2: the window's three groups of registers, the slide's window, file and tags, and the slide undone. -/
theorem hawkerWindowFrames : Obligations.HawkerWindowFrames := by
  intro c i kernel hi hc
  exact ⟨Core.get_arrival hi, Core.get_kept hi, Core.get_nextReg hi,
    Core.slide_cwp c kernel, nextFrame_lt c.cwp, Core.slide_file c kernel, Core.slide_get_arrival c kernel hi,
    Core.slide_userFrame_entered c kernel, fun _ hf => Core.slide_userFrame_of_ne c kernel hf,
    fun _ hr => Core.unslide_slide_get c kernel hc hr⟩

end Sys2Proof.Machine
end

