-- ==== Sys2Proof/Proofs/Fields.lean ====
section
/-!
SUPPORT. Fields of a word and of a register (R11): what a field reads after a field is replaced, the same one, one apart from it,
or one of another register.
-/
namespace Sys2Proof.Machine

/-! ### Fields of a word -/

section
variable (w : W64) {f g : Fld} (v : Nat)

theorem testBit_bitsOf (i : Nat) : (bitsOf w f).testBit i = (decide (i < f.width) && w.getLsbD (f.lo + i)) := by
  rw [bitsOf, Nat.testBit_mod_two_pow, Nat.testBit_div_two_pow, BitVec.getLsbD, Nat.add_comm]

theorem getLsbD_mask (j : Nat) :
    f.mask.getLsbD j = (decide (j < 64) && (decide (f.lo ≤ j) && decide (j - f.lo < f.width))) := by
  rw [Fld.mask, BitVec.getLsbD_ofNat, Nat.testBit_mul_two_pow, Nat.testBit_two_pow_sub_one]

/-- A bit of the field comes from the new value. -/
theorem getLsbD_setBits_inside {i : Nat} (hi : i < f.width) (h64 : f.lo + i < 64) :
    (setBits w f v).getLsbD (f.lo + i) = v.testBit i := by
  have hmask : f.mask.getLsbD (f.lo + i) = true := by simp [getLsbD_mask, hi, h64]
  rw [setBits, BitVec.getLsbD_or, BitVec.getLsbD_and, BitVec.getLsbD_and, BitVec.getLsbD_not, hmask, BitVec.getLsbD_ofNat,
    Nat.testBit_mul_two_pow]
  simp [h64]

/-- A bit outside the field is as it was. -/
theorem getLsbD_setBits_outside {j : Nat} (h : j < f.lo ∨ f.hi < j) : (setBits w f v).getLsbD j = w.getLsbD j := by
  have hmask : f.mask.getLsbD j = false := by
    rw [getLsbD_mask, Fld.width, Bool.and_eq_false_iff, Bool.and_eq_false_iff]
    simp only [decide_eq_false_iff_not]
    omega
  by_cases hj : j < 64
  · rw [setBits, BitVec.getLsbD_or, BitVec.getLsbD_and, BitVec.getLsbD_and, BitVec.getLsbD_not, hmask]
    simp [hj]
  · simp [BitVec.getLsbD_of_ge, Nat.le_of_not_lt hj]

theorem bitsOf_setBits_same (hf : f.hi < 64) : bitsOf (setBits w f v) f = v % 2 ^ f.width := by
  refine Nat.eq_of_testBit_eq fun i => ?_
  rw [testBit_bitsOf, Nat.testBit_mod_two_pow]
  by_cases hi : i < f.width
  · have h64 : f.lo + i < 64 := by unfold Fld.width at hi; omega
    rw [getLsbD_setBits_inside w v hi h64]
  · simp [hi]

theorem bitsOf_setBits_apart (h : g.hi < f.lo ∨ f.hi < g.lo) : bitsOf (setBits w f v) g = bitsOf w g := by
  refine Nat.eq_of_testBit_eq fun i => ?_
  rw [testBit_bitsOf, testBit_bitsOf]
  by_cases hi : i < g.width
  · have hout : g.lo + i < f.lo ∨ f.hi < g.lo + i := by unfold Fld.width at hi; omega
    rw [getLsbD_setBits_outside w v hout]
  · simp [hi]

theorem bitsOf_lt : bitsOf w f < 2 ^ f.width := Nat.mod_lt _ (Nat.two_pow_pos _)

end

/-! ### Fields of a register -/

section
variable (s : State) {r r' : Reg} {f g : Fld} (v : Nat)

theorem State.fget_fset_same (hf : f.hi < 64) : (s.fset r f v).fget r f = v % 2 ^ f.width := by
  rw [State.fget, State.rd_fset_same, bitsOf_setBits_same _ _ hf]

theorem State.fget_fset_apart (h : g.hi < f.lo ∨ f.hi < g.lo) : (s.fset r f v).fget r g = s.fget r g := by
  rw [State.fget, State.rd_fset_same, bitsOf_setBits_apart _ _ h, State.fget]

theorem State.fget_fset_ne (h : r' ≠ r) : (s.fset r f v).fget r' g = s.fget r' g := by
  rw [State.fget, State.rd_fset_ne _ _ _ h, State.fget]

theorem State.fget_lt : s.fget r f < 2 ^ f.width := bitsOf_lt _

end

end Sys2Proof.Machine
end

