-- ==== Sys2Proof/Proofs/ThermalLimit.lean ====
section
/-!
SUPPORT. What a sample of the sensors leaves alone (R583), what a change of point gives and leaves alone (R588), and from them the
thermal limit (R590).
-/
namespace Sys2Proof.Machine

/-! ### Samples and changes of point -/

section
variable (s : State)

/-- R583: a sample takes its readings into other registers than PWR_STATUS. -/
@[simp] theorem State.readSensors_pwrStatus (r : Readings) (f : Fld) :
    (s.readSensors r).fget pwrStatus f = s.fget pwrStatus f := by
  simp [State.readSensors, State.fget_fset_ne]

/-- R588: a change of point writes SLEWING and POINT, bits 2 to 0. -/
theorem State.repoint_pwrStatus {f : Fld} (hf : 2 < f.lo) : s.repoint.fget pwrStatus f = s.fget pwrStatus f := by
  simp only [State.repoint]
  split
  · rfl
  · rw [State.fget_fset_apart _ _ (.inr (show 1 < f.lo by omega)), State.fget_fset_apart _ _ (.inr hf)]

/-- R588: the point in force is the lower of the point that was and the point permitted. -/
theorem State.repoint_point :
    s.repoint.fget pwrStatus F.pwrStatus_POINT = min (s.fget pwrStatus F.pwrStatus_POINT) s.permitted := by
  simp only [State.repoint]
  split
  next hp => rw [hp.1, Nat.min_self]
  next =>
    have hpoint : s.fget pwrStatus F.pwrStatus_POINT < 2 ^ F.pwrStatus_POINT.width := s.fget_lt
    rw [State.fget_fset_same _ _ (by decide), Nat.mod_eq_of_lt (Nat.lt_of_le_of_lt (Nat.min_le_left _ _) hpoint)]

/-- R590: while THROTTLE is set, no point above Low is permitted. -/
theorem State.permitted_of_throttle (h : s.fget pwrStatus F.pwrStatus_THROTTLE = 1) : s.permitted = 0 := by
  simp [State.permitted, State.fbit, h]

end

/-! ### The thermal limit -/

/-- The state with THROTTLE set to `v` and the point that then follows: what both rows of R590 do where their condition holds. -/
def State.setThrottle (s : State) (v : Nat) : State := (s.fset pwrStatus F.pwrStatus_THROTTLE v).repoint

section
variable (s : State) (r : Readings) (v : Nat)

theorem State.setThrottle_throttle : (s.setThrottle v).fget pwrStatus F.pwrStatus_THROTTLE = v % 2 := by
  rw [State.setThrottle, State.repoint_pwrStatus _ (by decide), State.fget_fset_same _ _ (by decide)]
  rfl

/-- R590: of PWR_STATUS above the change of point, THROTTLE alone changes. -/
theorem State.setThrottle_apart {f : Fld} (hf : 2 < f.lo) (h : f.hi < 5 ∨ 5 < f.lo) :
    (s.setThrottle v).fget pwrStatus f = s.fget pwrStatus f := by
  rw [State.setThrottle, State.repoint_pwrStatus _ hf, State.fget_fset_apart _ _ h]

/-- R590: setting THROTTLE makes the point Low. -/
theorem State.setThrottle_point : (s.setThrottle 1).fget pwrStatus F.pwrStatus_POINT = 0 := by
  have hset : (s.fset pwrStatus F.pwrStatus_THROTTLE 1).fget pwrStatus F.pwrStatus_THROTTLE = 1 :=
    State.fget_fset_same _ _ (by decide)
  rw [State.setThrottle, State.repoint_point, State.permitted_of_throttle _ hset, Nat.min_zero]

/-- R590, THROTTLE is not an emergency: a sample that changes THROTTLE leaves EMERG and DECLARED as they are. -/
theorem State.sampled_setThrottle_emergency :
    ((s.readSensors r).setThrottle v).fget pwrStatus F.pwrStatus_EMERG = s.fget pwrStatus F.pwrStatus_EMERG ∧
      ((s.readSensors r).setThrottle v).fget pwrStatus F.pwrStatus_DECLARED = s.fget pwrStatus F.pwrStatus_DECLARED := by
  constructor
  · rw [State.setThrottle_apart _ _ (by decide) (by decide), State.readSensors_pwrStatus]
  · rw [State.setThrottle_apart _ _ (by decide) (by decide), State.readSensors_pwrStatus]

theorem exec_throttleSet_hot (h : 105 < tjMax r) : exec (.throttleSet r) s = .next ((s.readSensors r).setThrottle 1) :=
  congrArg Host.Outcome.next (if_pos h)

theorem exec_throttleClear_cool (h : tjMax r ≤ 100) : exec (.throttleClear r) s = .next ((s.readSensors r).setThrottle 0) :=
  congrArg Host.Outcome.next (if_pos h)

theorem exec_throttleClear_warm (h : 100 < tjMax r) : exec (.throttleClear r) s = .next (s.readSensors r) :=
  congrArg Host.Outcome.next (if_neg (Nat.not_le.mpr h))

end

/-- Settles O57: over 105 °C and at or below 100 °C the rows are the sample and then `State.setThrottle`; above
100 °C THROTTLE_CLEAR is the sample alone. -/
theorem thermalThrottle : Obligations.ThermalThrottle := by
  intro s r
  refine ⟨fun hot => ?_, fun cool => ?_, fun warm => ?_⟩
  · have hset : ((s.readSensors r).setThrottle 1).fget pwrStatus F.pwrStatus_THROTTLE = 1 := State.setThrottle_throttle _ 1
    exact ⟨_, exec_throttleSet_hot s r hot, hset, State.setThrottle_point _, State.permitted_of_throttle _ hset,
      State.sampled_setThrottle_emergency s r 1⟩
  · exact ⟨_, exec_throttleClear_cool s r cool, State.setThrottle_throttle _ 0, State.sampled_setThrottle_emergency s r 0⟩
  · exact ⟨_, exec_throttleClear_warm s r warm, s.readSensors_pwrStatus r _, s.readSensors_pwrStatus r _,
      s.readSensors_pwrStatus r _⟩

end Sys2Proof.Machine
end

