-- ==== Sys2Proof/Proofs/HawkerEncoding.lean ====
section
/-!
SUPPORT. The words of Table 20.5 and the instructions they decode to (R498, R507): each form of Table 20.4 as a number, the fields of a
word of the form, and a word put together again from its fields.
-/
namespace Sys2Proof.Machine

/-! ### The forms of Table 20.4 as numbers -/

/-- A word put together of two reads as the high part times the low part's range, plus the low part. -/
theorem toNat_append_add {m n : Nat} (x : BitVec m) (y : BitVec n) : (x ++ y).toNat = x.toNat * 2 ^ n + y.toNat := by
  rw [BitVec.toNat_append, ← Nat.shiftLeft_add_eq_or_of_lt y.isLt, Nat.shiftLeft_eq]

section
variable (op : BitVec 6) (rd a b : HReg)

theorem toNat_formA (func : BitVec 6) : (formA op rd a b func).toNat =
    op.toNat * 2 ^ 26 + rd.toNat * 2 ^ 21 + a.toNat * 2 ^ 16 + b.toNat * 2 ^ 11 + func.toNat := by
  refine (toNat_append_add (op ++ rd ++ a ++ b ++ 0#5) func).trans ?_
  simp only [toNat_append_add, BitVec.toNat_ofNat]
  omega

theorem toNat_formB (imm : BitVec 16) : (formB op rd a imm).toNat =
    op.toNat * 2 ^ 26 + rd.toNat * 2 ^ 21 + a.toNat * 2 ^ 16 + imm.toNat := by
  refine (toNat_append_add (op ++ rd ++ a) imm).trans ?_
  simp only [toNat_append_add]
  omega

/-- Form C is form B with its registers named RS1 and RS2. -/
theorem formC_eq_formB (imm : BitVec 16) : formC op a b imm = formB op a b imm := rfl

theorem toNat_formD (disp : BitVec 26) : (formD op disp).toNat = op.toNat * 2 ^ 26 + disp.toNat :=
  toNat_append_add op disp

theorem toNat_formE (imm : BitVec 21) : (formE op rd imm).toNat = op.toNat * 2 ^ 26 + rd.toNat * 2 ^ 21 + imm.toNat := by
  refine (toNat_append_add (op ++ rd) imm).trans ?_
  simp only [toNat_append_add]
  omega

theorem toNat_formF (sel : BitVec 8) (func : BitVec 4) : (formF op rd a sel func).toNat =
    op.toNat * 2 ^ 26 + rd.toNat * 2 ^ 21 + a.toNat * 2 ^ 16 + sel.toNat * 2 ^ 4 + func.toNat := by
  refine (toNat_append_add (op ++ rd ++ a ++ 0#4 ++ sel) func).trans ?_
  simp only [toNat_append_add, BitVec.toNat_ofNat]
  omega

/-! ### The fields of a word of a form -/

@[simp] theorem fields_formA (func : BitVec 6) :
    (formA op rd a b func).extractLsb' 26 6 = op ∧ (formA op rd a b func).extractLsb' 21 5 = rd ∧
      (formA op rd a b func).extractLsb' 16 5 = a ∧ (formA op rd a b func).extractLsb' 11 5 = b ∧
      (formA op rd a b func).extractLsb' 6 5 = 0#5 ∧ (formA op rd a b func).extractLsb' 0 6 = func := by
  simp only [← BitVec.toNat_inj, BitVec.extractLsb'_toNat, Nat.shiftRight_eq_div_pow, toNat_formA, BitVec.toNat_ofNat]
  omega

@[simp] theorem fields_formB (imm : BitVec 16) :
    (formB op rd a imm).extractLsb' 26 6 = op ∧ (formB op rd a imm).extractLsb' 21 5 = rd ∧
      (formB op rd a imm).extractLsb' 16 5 = a ∧ (formB op rd a imm).extractLsb' 0 16 = imm := by
  simp only [← BitVec.toNat_inj, BitVec.extractLsb'_toNat, Nat.shiftRight_eq_div_pow, toNat_formB]
  omega

/-- A shift amount fills bits 5 to 0 of IMM16 and leaves bits 15 to 6 clear. -/
@[simp] theorem fields_formB_shift (sh : BitVec 6) :
    (formB op rd a (sh.setWidth 16)).extractLsb' 6 10 = 0#10 ∧ (formB op rd a (sh.setWidth 16)).extractLsb' 0 6 = sh := by
  simp only [← BitVec.toNat_inj, BitVec.extractLsb'_toNat, Nat.shiftRight_eq_div_pow, toNat_formB, BitVec.toNat_setWidth,
    BitVec.toNat_ofNat]
  omega

@[simp] theorem fields_formD (disp : BitVec 26) :
    (formD op disp).extractLsb' 26 6 = op ∧ (formD op disp).extractLsb' 0 26 = disp := by
  simp only [← BitVec.toNat_inj, BitVec.extractLsb'_toNat, Nat.shiftRight_eq_div_pow, toNat_formD]
  omega

@[simp] theorem fields_formE (imm : BitVec 21) :
    (formE op rd imm).extractLsb' 26 6 = op ∧ (formE op rd imm).extractLsb' 21 5 = rd ∧
      (formE op rd imm).extractLsb' 0 21 = imm := by
  simp only [← BitVec.toNat_inj, BitVec.extractLsb'_toNat, Nat.shiftRight_eq_div_pow, toNat_formE]
  omega

@[simp] theorem fields_formF (sel : BitVec 8) (func : BitVec 4) :
    (formF op rd a sel func).extractLsb' 26 6 = op ∧ (formF op rd a sel func).extractLsb' 21 5 = rd ∧
      (formF op rd a sel func).extractLsb' 16 5 = a ∧ (formF op rd a sel func).extractLsb' 12 4 = 0#4 ∧
      (formF op rd a sel func).extractLsb' 4 8 = sel ∧ (formF op rd a sel func).extractLsb' 0 4 = func := by
  simp only [← BitVec.toNat_inj, BitVec.extractLsb'_toNat, Nat.shiftRight_eq_div_pow, toNat_formF, BitVec.toNat_ofNat]
  omega

end

/-! ### A word put together again from its fields -/

section
variable (w : BitVec 32) {op : BitVec 6} (hop : w.extractLsb' 26 6 = op)
include hop

theorem formA_of_fields (hrsv : w.extractLsb' 6 5 = 0#5) :
    formA op (w.extractLsb' 21 5) (w.extractLsb' 16 5) (w.extractLsb' 11 5) (w.extractLsb' 0 6) = w := by
  simp only [← BitVec.toNat_inj, BitVec.extractLsb'_toNat, Nat.shiftRight_eq_div_pow, toNat_formA, BitVec.toNat_ofNat]
    at hop hrsv ⊢
  omega

theorem formB_of_fields : formB op (w.extractLsb' 21 5) (w.extractLsb' 16 5) (w.extractLsb' 0 16) = w := by
  simp only [← BitVec.toNat_inj, BitVec.extractLsb'_toNat, Nat.shiftRight_eq_div_pow, toNat_formB] at hop ⊢
  omega

theorem formB_shift_of_fields (hrsv : w.extractLsb' 6 10 = 0#10) :
    formB op (w.extractLsb' 21 5) (w.extractLsb' 16 5) ((w.extractLsb' 0 6).setWidth 16) = w := by
  simp only [← BitVec.toNat_inj, BitVec.extractLsb'_toNat, Nat.shiftRight_eq_div_pow, toNat_formB, BitVec.toNat_setWidth,
    BitVec.toNat_ofNat] at hop hrsv ⊢
  omega

theorem formD_of_fields : formD op (w.extractLsb' 0 26) = w := by
  simp only [← BitVec.toNat_inj, BitVec.extractLsb'_toNat, Nat.shiftRight_eq_div_pow, toNat_formD] at hop ⊢
  omega

theorem formE_of_fields : formE op (w.extractLsb' 21 5) (w.extractLsb' 0 21) = w := by
  simp only [← BitVec.toNat_inj, BitVec.extractLsb'_toNat, Nat.shiftRight_eq_div_pow, toNat_formE] at hop ⊢
  omega

theorem formF_of_fields (hrsv : w.extractLsb' 12 4 = 0#4) :
    formF op (w.extractLsb' 21 5) (w.extractLsb' 16 5) (w.extractLsb' 4 8) (w.extractLsb' 0 4) = w := by
  simp only [← BitVec.toNat_inj, BitVec.extractLsb'_toNat, Nat.shiftRight_eq_div_pow, toNat_formF, BitVec.toNat_ofNat]
    at hop hrsv ⊢
  omega

end

/-! ### Decoding -/

/-- Every operand of an instruction stands in a field of its form, and the unused fields are 0. -/
theorem hawkerDecode_of_hawkerWord {i : Instr} {w : BitVec 32} (h : hawkerWord i = some w) :
    ∃ n : CoreNo, hawkerDecode n w = some i := by
  unfold hawkerWord at h
  split at h
  case h_61 => cases h
  all_goals
    cases h
    rename CoreNo => n
    exact ⟨n, by simp [hawkerDecode, formC_eq_formB, decodeAlu, decodeSys]⟩

theorem eq_ofNat_of_toNat {n k : Nat} {x : BitVec n} (h : x.toNat = k) : x = BitVec.ofNat n k := by
  rw [← h, BitVec.ofNat_toNat, BitVec.setWidth_eq]

theorem hawkerWord_of_decodeAlu {n : CoreNo} {rd a b : HReg} {func : BitVec 6} {i : Instr}
    (h : decodeAlu n rd a b func.toNat = some i) : hawkerWord i = some (formA 0x01 rd a b func) := by
  unfold decodeAlu at h
  split at h
  case h_17 => cases h
  all_goals
    rename_i hfunc
    cases h
    rw [eq_ofNat_of_toNat hfunc]
    rfl

theorem hawkerWord_of_decodeSys {n : CoreNo} {rd a : HReg} {sel : BitVec 8} {func : BitVec 4} {i : Instr}
    (h : decodeSys n rd a sel func.toNat = some i) : hawkerWord i = some (formF 0x30 rd a sel func) := by
  unfold decodeSys at h
  dsimp only at h
  split at h
  case h_12 => cases h
  all_goals
    rename_i hfunc
    obtain ⟨hunused, hi⟩ := Option.ite_none_right_eq_some.mp h
    cases hi
    rw [eq_ofNat_of_toNat hfunc]
    simp [hawkerWord, hunused]

/-- Each instruction that a word decodes to is of the form its OP gives, and the word is that form of the fields read from it. -/
theorem hawkerWord_of_hawkerDecode {n : CoreNo} {w : BitVec 32} {i : Instr} (h : hawkerDecode n w = some i) :
    hawkerWord i = some w := by
  unfold hawkerDecode at h
  dsimp only at h
  split at h
  case h_34 => cases h
  all_goals
    rename_i hop
    replace hop := eq_ofNat_of_toNat hop
  -- OP 0x01: the function codes of the ALU instructions
  case h_1 =>
    obtain ⟨hrsv, h⟩ := Option.ite_none_right_eq_some.mp h
    rw [hawkerWord_of_decodeAlu h]
    exact congrArg some (formA_of_fields w hop hrsv)
  -- the shifts by an immediate
  case h_6 | h_7 | h_8 =>
    obtain ⟨hrsv, hi⟩ := Option.ite_none_right_eq_some.mp h
    cases hi
    exact congrArg some (formB_shift_of_fields w hop hrsv)
  -- LI
  case h_11 =>
    cases h
    exact congrArg some (formE_of_fields w hop)
  -- OP 0x1C: the function codes of the atomics
  case h_21 =>
    split at h
    case h_4 => cases h
    all_goals
      rename_i hfunc
      obtain ⟨hrsv, hi⟩ := Option.ite_none_right_eq_some.mp h
      cases hi
      rw [← formA_of_fields w hop hrsv, eq_ofNat_of_toNat hfunc]
      simp [hawkerWord]
  -- CALL and JMP
  case h_28 | h_29 =>
    cases h
    exact congrArg some (formD_of_fields w hop)
  -- CALLR and JMPR
  case h_30 | h_31 =>
    obtain ⟨⟨hrd, hb, hfunc⟩, h⟩ := Option.ite_none_right_eq_some.mp h
    obtain ⟨hrsv, hi⟩ := Option.ite_none_right_eq_some.mp h
    cases hi
    have hw := formA_of_fields w hop hrsv
    rw [hrd, hb, hfunc] at hw
    exact congrArg some hw
  -- RET
  case h_32 =>
    obtain ⟨ha, h⟩ := Option.ite_none_right_eq_some.mp h
    obtain ⟨⟨hrd, hb, hfunc⟩, h⟩ := Option.ite_none_right_eq_some.mp h
    obtain ⟨hrsv, hi⟩ := Option.ite_none_right_eq_some.mp h
    cases hi
    have hw := formA_of_fields w hop hrsv
    rw [hrd, ha, hb, hfunc] at hw
    exact congrArg some hw
  -- OP 0x30: the function codes of the system instructions
  case h_33 =>
    obtain ⟨hrsv, h⟩ := Option.ite_none_right_eq_some.mp h
    rw [hawkerWord_of_decodeSys h]
    exact congrArg some (formF_of_fields w hop hrsv)
  -- forms B and C, whose fields leave no bit over
  all_goals
    cases h
    exact congrArg some (formB_of_fields w hop)

/-- Settles O11: every operand of an instruction can be read from its word's fields, and the fields read, the reserved and unused ones
being 0, make up the word. -/
theorem hawkerEncodingRoundTrip : Obligations.HawkerEncodingRoundTrip :=
  ⟨fun _ _ => hawkerDecode_of_hawkerWord, fun _ _ _ => hawkerWord_of_hawkerDecode⟩

/-- Settles O12: each word read by its fields. -/
theorem hawkerWords : Obligations.HawkerWords := by
  intro n
  refine ⟨?_, ?_, ?_, ?_, ?_, ?_, ?_⟩ <;> rfl

end Sys2Proof.Machine
end

