-- ==== Sys2Proof/Proofs/HawkerArithmetic.lean ====
section
/-!
SUPPORT. The registers by their numbers (R484), and the results of the ALU and immediate instructions (Table 20.5) as numbers.
-/
namespace Sys2Proof.Machine

/-! ### Registers by their numbers -/

section
variable {c : Core} {r q : HReg} {v : W64}

@[simp] theorem Core.set_zero (c : Core) (v : W64) : c.set 0 v = c := rfl

theorem Core.get_shared (h0 : r.toNat ≠ 0) (h7 : r.toNat < 7) : c.get r = lookD 0 c.shared r.toNat := by
  simp only [Core.get, if_neg h0, if_pos h7]

theorem Core.get_seven (c : Core) : c.get 7 = c.sp := rfl

theorem Core.set_shared (h0 : r.toNat ≠ 0) (h7 : r.toNat < 7) :
    c.set r v = { c with shared := putD 0 c.shared r.toNat v } := by
  simp only [Core.set, if_neg h0, if_pos h7]

theorem Core.set_seven (c : Core) (v : W64) : c.set 7 v = c.setSp v := rfl

theorem Core.set_windowed (h7 : 7 < r.toNat) : c.set r v = { c with file := putD 0 c.file (c.slotOf r.toNat) v } := by
  simp only [Core.set]
  rw [if_neg (by omega), if_neg (by omega), if_neg (by omega)]

/-- The four groups of register numbers (R484). -/
theorem hreg_cases (r : HReg) : r = 0 ∨ (r.toNat ≠ 0 ∧ r.toNat < 7) ∨ r = 7 ∨ 7 < r.toNat := by
  bv_omega

/-- R485: no two windowed registers share a place of the file. -/
theorem Core.slotOf_ne (c : Core) (hr : 7 < r.toNat) (hq : 7 < q.toNat) (h : q ≠ r) : c.slotOf q.toNat ≠ c.slotOf r.toNat := by
  have hne : q.toNat ≠ r.toNat := fun heq => h (BitVec.eq_of_toNat_eq heq)
  have hq32 := q.isLt
  have hr32 := r.isLt
  simp only [Core.slotOf, frameKey, nextFrame]
  split <;> split <;> omega

theorem Core.sp_setSp (c : Core) (v : W64) : (c.setSp v).sp = v := by
  cases hk : c.kernel <;> simp [Core.sp, Core.setSp, hk]

theorem Core.get_set_same (h : r ≠ 0) : (c.set r v).get r = v := by
  obtain rfl | ⟨h0, h7⟩ | rfl | h7 := hreg_cases r
  · exact absurd rfl h
  · rw [Core.set_shared h0 h7, Core.get_shared h0 h7, lookD_putD_same]
  · exact Core.sp_setSp c v
  · rw [Core.set_windowed h7, Core.get_windowed h7]
    exact lookD_putD_same _ _ _ _

@[simp] theorem Core.setSp_shared (c : Core) (v : W64) : (c.setSp v).shared = c.shared := by
  unfold Core.setSp; split <;> rfl

@[simp] theorem Core.setSp_file (c : Core) (v : W64) : (c.setSp v).file = c.file := by
  unfold Core.setSp; split <;> rfl

@[simp] theorem Core.setSp_cwp (c : Core) (v : W64) : (c.setSp v).cwp = c.cwp := by
  unfold Core.setSp; split <;> rfl

theorem Core.get_setSp_ne (h : q ≠ 7) : (c.setSp v).get q = c.get q := by
  obtain rfl | ⟨h0, h7⟩ | rfl | h7 := hreg_cases q
  · rfl
  · rw [Core.get_shared h0 h7, Core.get_shared h0 h7, Core.setSp_shared]
  · exact absurd rfl h
  · exact Core.get_windowed_congr (Core.setSp_cwp c v) (Core.setSp_file c v) h7

theorem Core.get_set_ne (h : q ≠ r) : (c.set r v).get q = c.get q := by
  obtain rfl | ⟨h0, h7⟩ | rfl | h7 := hreg_cases r
  · rfl
  · rw [Core.set_shared h0 h7]
    obtain rfl | ⟨hq0, hq7⟩ | rfl | hq7 := hreg_cases q
    · rfl
    · rw [Core.get_shared hq0 hq7, Core.get_shared hq0 hq7]
      exact lookD_putD_ne _ _ _ fun heq => h (BitVec.eq_of_toNat_eq heq)
    · rfl
    · exact Core.get_windowed_congr rfl rfl hq7
  · rw [Core.set_seven, Core.get_setSp_ne h]
  · rw [Core.set_windowed h7]
    obtain rfl | ⟨hq0, hq7⟩ | rfl | hq7 := hreg_cases q
    · rfl
    · rw [Core.get_shared hq0 hq7, Core.get_shared hq0 hq7]
    · rfl
    · rw [Core.get_windowed hq7, Core.get_windowed hq7]
      exact lookD_putD_ne _ _ _ (Core.slotOf_ne c h7 hq7 h)

/-- A write of a register changes registers only. -/
theorem Core.set_frame (c : Core) (r : HReg) (v : W64) :
    ∃ shared s7k s7u file, c.set r v = { c with shared := shared, s7k := s7k, s7u := s7u, file := file } := by
  obtain rfl | ⟨h0, h7⟩ | rfl | h7 := hreg_cases r
  · exact ⟨_, _, _, _, rfl⟩
  · exact ⟨_, _, _, _, Core.set_shared h0 h7⟩
  · rw [Core.set_seven, Core.setSp]
    split
    · exact ⟨_, _, _, _, rfl⟩
    · exact ⟨_, _, _, _, rfl⟩
  · exact ⟨_, _, _, _, Core.set_windowed h7⟩

/-- A write of another register than s7 changes neither of its banks. -/
theorem Core.set_banks (h : r ≠ 7) : (c.set r v).s7k = c.s7k ∧ (c.set r v).s7u = c.s7u := by
  obtain rfl | ⟨h0, h7⟩ | rfl | h7 := hreg_cases r
  · exact ⟨rfl, rfl⟩
  · rw [Core.set_shared h0 h7]; exact ⟨rfl, rfl⟩
  · exact absurd rfl h
  · rw [Core.set_windowed h7]; exact ⟨rfl, rfl⟩

end

/-- Settles O1: the four groups of numbers each read back what was written to them, and share no place. -/
theorem hawkerRegisterFile : Obligations.HawkerRegisterFile := by
  intro c r q v
  obtain ⟨_, _, _, _, hset⟩ := Core.set_frame c r v
  refine ⟨rfl, rfl, Core.get_set_same, Core.get_set_ne, Core.set_banks, fun hk => ?_, fun hk => ?_, ?_, ?_⟩
  · rw [Core.set_seven, Core.setSp, hk]; rfl
  · rw [Core.set_seven, Core.setSp, hk]; rfl
  · rw [hset]
  · rw [hset]; rfl

/-! ### Results as numbers (Table 20.5) -/

section
variable (x y : W64)

theorem add_eq_ofNat : x + y = BitVec.ofNat 64 (x.toNat + y.toNat) := by
  rw [BitVec.ofNat_add, BitVec.ofNat_toNat, BitVec.ofNat_toNat, BitVec.setWidth_eq, BitVec.setWidth_eq]

theorem sub_eq_ofInt : x - y = BitVec.ofInt 64 ((x.toNat : Int) - y.toNat) := by
  bv_omega

theorem mul_eq_ofNat : x * y = BitVec.ofNat 64 (x.toNat * y.toNat) := by
  rw [BitVec.ofNat_mul, BitVec.ofNat_toNat, BitVec.ofNat_toNat, BitVec.setWidth_eq, BitVec.setWidth_eq]

theorem shiftLeft_eq_ofNat (n : Nat) : x <<< n = BitVec.ofNat 64 (x.toNat * 2 ^ n) := by
  apply BitVec.eq_of_toNat_eq
  rw [BitVec.toNat_shiftLeft, BitVec.toNat_ofNat, Nat.shiftLeft_eq]

theorem ushiftRight_eq_ofNat (n : Nat) : x >>> n = BitVec.ofNat 64 (x.toNat / 2 ^ n) := by
  apply BitVec.eq_of_toNat_eq
  rw [BitVec.toNat_ushiftRight, BitVec.toNat_ofNat, Nat.shiftRight_eq_div_pow,
    Nat.mod_eq_of_lt (Nat.lt_of_le_of_lt (Nat.div_le_self _ _) x.isLt)]

theorem sshiftRight_eq_ofInt (n : Nat) : x.sshiftRight n = BitVec.ofInt 64 (x.toInt / 2 ^ n) := by
  rw [BitVec.sshiftRight, Int.shiftRight_eq_div_pow]
  norm_cast

theorem add_signExtend_eq_ofInt {n : Nat} (i : BitVec n) : x + i.signExtend 64 = BitVec.ofInt 64 (x.toInt + i.toInt) := by
  rw [BitVec.ofInt_add, BitVec.ofInt_toInt, BitVec.signExtend]

/-- SHORI: the bits shifted in are those of the immediate. -/
theorem shori_eq_ofNat (i : BitVec 16) : x <<< 16 ||| i.setWidth 64 = BitVec.ofNat 64 (x.toNat * 65536 + i.toNat) := by
  have hi : i.toNat < 2 ^ 16 := i.isLt
  apply BitVec.eq_of_toNat_eq
  rw [BitVec.toNat_or, BitVec.toNat_shiftLeft, BitVec.toNat_setWidth, BitVec.toNat_ofNat, Nat.shiftLeft_eq,
    Nat.mod_eq_of_lt (a := i.toNat) (by omega), show x.toNat * 2 ^ 16 % 2 ^ 64 = (x.toNat % 2 ^ 48) <<< 16 by omega,
    ← Nat.shiftLeft_add_eq_or_of_lt hi]
  omega

end

/-! ### Rows that write `rd` alone -/

section
variable {s : State} {n : CoreNo} (h : s.ready n) (rd a b : HReg) {v : W64}
include h

theorem State.alu_retires (func : BitVec 6) {f : W64 → W64 → W64} (hv : f ((s.core n.val).get a) ((s.core n.val).get b) = v) :
    Retires (done (s.alu n rd a b func f)) s n (s.core n.val).next (((s.core n.val).fetched (formA 0x01 rd a b func)).set rd v) :=
  hv ▸ State.writes_ready h _ rd true _

theorem State.aluImm_retires (op : BitVec 6) (imm : BitVec 16) {f : W64 → W64} (hv : f ((s.core n.val).get a) = v) :
    Retires (done (s.aluImm n op rd a imm f)) s n (s.core n.val).next (((s.core n.val).fetched (formB op rd a imm)).set rd v) :=
  hv ▸ State.writes_ready h _ rd true _

end

theorem flagWord_decide (p : Prop) [Decidable p] : flagWord (decide p) = if p then 1 else 0 := by
  by_cases hp : p <;> simp [flagWord, hp]

/-- Settles O3: each row writes the value of its operation, which is the number Table 20.5 gives. -/
theorem hawkerArithmetic : Obligations.HawkerArithmetic := by
  refine ⟨fun s n rd a b h => ?_, fun s n rd a i sh l h => ?_⟩
  · refine ⟨State.alu_retires h rd a b 0x00 (add_eq_ofNat _ _), State.alu_retires h rd a b 0x01 (sub_eq_ofInt _ _),
      State.alu_retires h rd a b 0x02 rfl, State.alu_retires h rd a b 0x03 rfl, State.alu_retires h rd a b 0x04 rfl,
      State.alu_retires h rd a b 0x05 (shiftLeft_eq_ofNat _ _), State.alu_retires h rd a b 0x06 (ushiftRight_eq_ofNat _ _),
      State.alu_retires h rd a b 0x07 (sshiftRight_eq_ofInt _ _), State.alu_retires h rd a b 0x08 (flagWord_decide _),
      State.alu_retires h rd a b 0x09 (flagWord_decide _), State.alu_retires h rd a b 0x0A (mul_eq_ofNat _ _),
      State.alu_retires h rd a b 0x0B rfl, State.alu_retires h rd a b 0x0C ?_, State.alu_retires h rd a b 0x0D ?_,
      State.alu_retires h rd a b 0x0E rfl, State.alu_retires h rd a b 0x0F rfl⟩
    · rw [divU, BitVec.udiv_def]
    · rw [remU, BitVec.umod_def]
  · exact ⟨State.aluImm_retires h rd a 0x02 i (add_signExtend_eq_ofInt _ _), State.aluImm_retires h rd a 0x03 i (by rw [BitVec.ofNat_toNat]),
      State.aluImm_retires h rd a 0x04 i (by rw [BitVec.ofNat_toNat]), State.aluImm_retires h rd a 0x05 i (by rw [BitVec.ofNat_toNat]),
      State.aluImm_retires h rd a 0x06 _ (shiftLeft_eq_ofNat _ _), State.aluImm_retires h rd a 0x07 _ (ushiftRight_eq_ofNat _ _),
      State.aluImm_retires h rd a 0x08 _ (sshiftRight_eq_ofInt _ _),
      State.aluImm_retires h rd a 0x09 i ((flagWord_decide _).trans (by rw [BitVec.toInt_signExtend_of_le (by decide)])),
      State.aluImm_retires h rd a 0x0A i (shori_eq_ofNat _ _), State.writes_ready h _ rd false _⟩

end Sys2Proof.Machine
end

