-- ==== Sys2Proof/Proofs/HawkerAccesses.lean ====
section
/-!
SUPPORT. Loads, stores and atomics of a core: what an instruction makes of the answer to its access (R502, R503), and the answer to an
access of a Square or a Warehouse (R504, R505).
-/
namespace Sys2Proof.Machine

/-! ### What an instruction makes of the answer -/

section
variable {s t : State} {n : CoreNo} (h : s.ready n) {w : BitVec 32} {rd a : HReg} {i : BitVec 16} {size e : Nat} {b : Bytes} {v : W64}
  {ext : Nat → W64} {f : Core → W64 → Option W64}
include h

theorem State.loads_ok (hload : (s.fetchedBy n w).coreLoad n ((s.core n.val).get a + i.signExtend 64) size = (t, .ok b)) :
    s.loads n w rd a i size ext =
      (t.setCore n.val ((t.core n.val).set rd (ext (leNat b)))).retire n.val (s.core n.val).next := by
  rw [State.loads, State.instr_ready h]
  simp only [Core.get_fetched, hload]
  rfl

theorem State.loads_error (hload : (s.fetchedBy n w).coreLoad n ((s.core n.val).get a + i.signExtend 64) size = (t, .error e)) :
    s.loads n w rd a i size ext = t.enter n.val e ((s.core n.val).get a + i.signExtend 64) (s.core n.val).pc 4 := by
  rw [State.loads, State.instr_ready h]
  simp only [Core.get_fetched, hload]

theorem State.stores_ok (hstore : (s.fetchedBy n w).coreStore n ((s.core n.val).get a + i.signExtend 64)
      (leBytes size ((s.core n.val).get rd).toNat) = (t, .ok ())) :
    s.stores n w rd a i size = t.retire n.val (s.core n.val).next := by
  rw [State.stores, State.instr_ready h]
  simp only [Core.get_fetched, hstore]
  rfl

theorem State.stores_error (hstore : (s.fetchedBy n w).coreStore n ((s.core n.val).get a + i.signExtend 64)
      (leBytes size ((s.core n.val).get rd).toNat) = (t, .error e)) :
    s.stores n w rd a i size = t.enter n.val e ((s.core n.val).get a + i.signExtend 64) (s.core n.val).pc 4 := by
  rw [State.stores, State.instr_ready h]
  simp only [Core.get_fetched, hstore]

theorem State.atomic_ok (hamo : (s.fetchedBy n w).coreAtomic n ((s.core n.val).get a) (f ((s.core n.val).fetched w)) = (t, .ok v)) :
    s.atomic n w rd a f = (t.setCore n.val ((t.core n.val).set rd v)).retire n.val (s.core n.val).next := by
  rw [State.atomic, State.instr_ready h]
  simp only [Core.get_fetched, hamo]
  rfl

theorem State.atomic_error (hamo : (s.fetchedBy n w).coreAtomic n ((s.core n.val).get a) (f ((s.core n.val).fetched w)) = (t, .error e)) :
    s.atomic n w rd a f = t.enter n.val e ((s.core n.val).get a) (s.core n.val).pc 4 := by
  rw [State.atomic, State.instr_ready h]
  simp only [Core.get_fetched, hamo]

end

/-! ### Accesses that are refused -/

section
variable {s : State} {n : CoreNo} {addr : W64} {size : Nat} {b : Bytes}

theorem State.coreLoad_misaligned (hal : addr.toNat % size ≠ 0) : s.coreLoad n addr size = (s, .error 0x04) := by
  rw [State.coreLoad, if_pos hal]

theorem State.coreStore_misaligned (hal : addr.toNat % b.length ≠ 0) : s.coreStore n addr b = (s, .error 0x04) := by
  rw [State.coreStore, if_pos hal]

theorem State.coreAtomic_misaligned {f : W64 → Option W64} (hal : addr.toNat % 8 ≠ 0) : s.coreAtomic n addr f = (s, .error 0x04) := by
  rw [State.coreAtomic, if_pos hal]

/-- An address that is not in register space has its home elsewhere. -/
theorem homeOf_ne_register {a off : Nat} (hreg : inRegSpace a = false) : homeOf a ≠ .register off := by
  intro heq
  simp [inRegSpace, heq] at hreg

theorem State.coreLoad_denied (hal : addr.toNat % size = 0)
    (hden : 2 ^ 57 ≤ addr.toNat ∨ (s.core n.val).permits addr.toNat 1 = false) : s.coreLoad n addr size = (s, .error 0x05) := by
  simp only [State.coreLoad]
  rw [if_neg (not_not.mpr hal), if_pos (by simpa using hden)]

theorem State.coreLoad_unreached (hal : addr.toNat % size = 0) (hreg : inRegSpace addr.toNat = false)
    (hr : s.reaches (coreReq n.val) addr.toNat size = false) : s.coreLoad n addr size = (s, .error 0x05) := by
  simp only [State.coreLoad]
  rw [if_neg (not_not.mpr hal)]
  split
  · rfl
  · split
    · exact absurd ‹_› (homeOf_ne_register hreg)
    · simp [hr]

theorem State.coreStore_denied (hal : addr.toNat % b.length = 0)
    (hden : 2 ^ 57 ≤ addr.toNat ∨ (s.core n.val).permits addr.toNat 2 = false) : s.coreStore n addr b = (s, .error 0x06) := by
  simp only [State.coreStore]
  rw [if_neg (not_not.mpr hal), if_pos (by simpa using hden)]

theorem State.coreStore_unreached (hal : addr.toNat % b.length = 0) (hreg : inRegSpace addr.toNat = false)
    (hr : s.reaches (coreReq n.val) addr.toNat b.length = false ∨ s.inSpill addr.toNat b.length = true) :
    s.coreStore n addr b = (s, .error 0x06) := by
  simp only [State.coreStore]
  rw [if_neg (not_not.mpr hal)]
  split
  · rfl
  · split
    · exact absurd ‹_› (homeOf_ne_register hreg)
    · rw [if_pos (by simpa using hr)]

/-! ### Accesses that are granted -/

/-- R505: with no copy in the data cache a load reads its home, whether or not the cache would be asked. -/
theorem State.coreLoad_granted (hal : addr.toNat % size = 0) (hreg : inRegSpace addr.toNat = false) (hlt : addr.toNat < 2 ^ 57)
    (hp : (s.core n.val).permits addr.toNat 1 = true) (hr : s.reaches (coreReq n.val) addr.toNat size = true)
    (hc : (s.core n.val).cached addr.toNat size = none) :
    (s.coreLoad n addr size).2 = if ((s.useFresh 1).readMem 0xFF (coreReq n.val) 0 addr.toNat size).2.2 then .error 0x0C
      else .ok ((s.useFresh 1).readMem 0xFF (coreReq n.val) 0 addr.toNat size).2.1 := by
  simp only [State.coreLoad]
  rw [if_neg (not_not.mpr hal), if_neg (by simp only [hp, not_true, or_false]; omega)]
  split
  · exact absurd ‹_› (homeOf_ne_register hreg)
  · simp only [hr, hc, ite_self, Bool.not_true, Bool.false_eq_true, if_false]
    split
    · rfl
    · split <;> rfl

theorem State.coreStore_granted (hal : addr.toNat % b.length = 0) (hreg : inRegSpace addr.toNat = false) (hlt : addr.toNat < 2 ^ 57)
    (hp : (s.core n.val).permits addr.toNat 2 = true) (hr : s.reaches (coreReq n.val) addr.toNat b.length = true)
    (hs : s.inSpill addr.toNat b.length = false) :
    (s.coreStore n addr b).2 = .ok () ∧
      (s.coreStore n addr b).1.home = (s.writeMem 0xFF (coreReq n.val) 0 addr.toNat b false).1.home := by
  simp only [State.coreStore]
  rw [if_neg (not_not.mpr hal), if_neg (by simp only [hp, not_true, or_false]; omega)]
  split
  · exact absurd ‹_› (homeOf_ne_register hreg)
  · rw [if_neg (by simp [hr, hs])]
    refine ⟨rfl, ?_⟩
    dsimp only
    split <;> rfl

end

/-! ### The rows -/

section
variable {s : State} {n : CoreNo} (h : s.ready n) (w : BitVec 32) (rd a : HReg) (i : BitVec 16) (size : Nat) (ext : Nat → W64)
  (f : Core → W64 → Option W64)
include h

/-- A load completes with the number loaded, or takes the exception of its access. -/
theorem State.loads_answer :
    (∀ t b, (s.fetchedBy n w).coreLoad n ((s.core n.val).get a + i.signExtend 64) size = (t, .ok b) →
      done (s.loads n w rd a i size ext) =
        .next ((t.setCore n.val ((t.core n.val).set rd (ext (leNat b)))).retire n.val (s.core n.val).next)) ∧
    (∀ t e, (s.fetchedBy n w).coreLoad n ((s.core n.val).get a + i.signExtend 64) size = (t, .error e) →
      done (s.loads n w rd a i size ext) = .next (t.enter n.val e ((s.core n.val).get a + i.signExtend 64) (s.core n.val).pc 4)) ∧
    (((s.core n.val).get a + i.signExtend 64).toNat % size ≠ 0 →
      Raises (done (s.loads n w rd a i size ext)) s n w 0x04 ((s.core n.val).get a + i.signExtend 64)) :=
  ⟨fun _ _ hl => congrArg _ (State.loads_ok h hl), fun _ _ hl => congrArg _ (State.loads_error h hl),
    fun hal => congrArg _ (State.loads_error h (State.coreLoad_misaligned hal))⟩

/-- A store completes, or takes the exception of its access. -/
theorem State.stores_answer :
    (∀ t, (s.fetchedBy n w).coreStore n ((s.core n.val).get a + i.signExtend 64) (leBytes size ((s.core n.val).get rd).toNat) =
        (t, .ok ()) → done (s.stores n w rd a i size) = .next (t.retire n.val (s.core n.val).next)) ∧
    (∀ t e, (s.fetchedBy n w).coreStore n ((s.core n.val).get a + i.signExtend 64) (leBytes size ((s.core n.val).get rd).toNat) =
        (t, .error e) →
      done (s.stores n w rd a i size) = .next (t.enter n.val e ((s.core n.val).get a + i.signExtend 64) (s.core n.val).pc 4)) ∧
    (((s.core n.val).get a + i.signExtend 64).toNat % size ≠ 0 →
      Raises (done (s.stores n w rd a i size)) s n w 0x04 ((s.core n.val).get a + i.signExtend 64)) :=
  ⟨fun _ hst => congrArg _ (State.stores_ok h hst), fun _ _ hst => congrArg _ (State.stores_error h hst),
    fun hal => congrArg _ (State.stores_error h (State.coreStore_misaligned (by rwa [length_leBytes])))⟩

/-- An atomic completes with the old value, or takes the exception of its access. -/
theorem State.atomic_answer :
    (∀ t v, (s.fetchedBy n w).coreAtomic n ((s.core n.val).get a) (f ((s.core n.val).fetched w)) = (t, .ok v) →
      done (s.atomic n w rd a f) = .next ((t.setCore n.val ((t.core n.val).set rd v)).retire n.val (s.core n.val).next)) ∧
    (∀ t e, (s.fetchedBy n w).coreAtomic n ((s.core n.val).get a) (f ((s.core n.val).fetched w)) = (t, .error e) →
      done (s.atomic n w rd a f) = .next (t.enter n.val e ((s.core n.val).get a) (s.core n.val).pc 4)) ∧
    (((s.core n.val).get a).toNat % 8 ≠ 0 → Raises (done (s.atomic n w rd a f)) s n w 0x04 ((s.core n.val).get a)) :=
  ⟨fun _ _ ha => congrArg _ (State.atomic_ok h ha), fun _ _ ha => congrArg _ (State.atomic_error h ha),
    fun hal => congrArg _ (State.atomic_error h (State.coreAtomic_misaligned hal))⟩

end

/-- Settles O4: the rows follow the answer to the load, and the answer is the bytes at the home or the fault that refuses them. -/
theorem hawkerLoads : Obligations.HawkerLoads := by
  refine ⟨fun s n rd a i h => ?_, fun s n addr size => ?_⟩
  · exact ⟨State.loads_answer h _ rd a i 8 _, State.loads_answer h _ rd a i 4 _, State.loads_answer h _ rd a i 4 _,
      State.loads_answer h _ rd a i 2 _, State.loads_answer h _ rd a i 1 _⟩
  · intro c a _ hal hreg
    refine ⟨State.coreLoad_granted hal hreg, fun hden => ?_⟩
    obtain hlt | hp | hr := hden
    · exact State.coreLoad_denied hal (.inl hlt)
    · exact State.coreLoad_denied hal (.inr hp)
    · exact State.coreLoad_unreached hal hreg hr

/-- Settles O5: the rows follow the answer to the store or the atomic, and a store writes its bytes at the home or nothing. -/
theorem hawkerStoresAndAtomics : Obligations.HawkerStoresAndAtomics := by
  refine ⟨fun s n rd a b i h => ?_, fun s n addr d => ?_⟩
  · exact ⟨State.stores_answer h _ rd a i 8, State.stores_answer h _ rd a i 4, State.stores_answer h _ rd a i 2,
      State.stores_answer h _ rd a i 1, State.atomic_answer h _ rd a fun c old => some (old + c.get b),
      State.atomic_answer h _ rd a fun c _ => some (c.get b),
      State.atomic_answer h _ rd a fun c old => if old = c.get rd then some (c.get b) else none⟩
  · intro c a _ hal hreg
    refine ⟨State.coreStore_granted hal hreg, fun hden => ?_⟩
    obtain hlt | hp | hr := hden
    · exact State.coreStore_denied hal (.inl hlt)
    · exact State.coreStore_denied hal (.inr hp)
    · exact State.coreStore_unreached hal hreg hr

end Sys2Proof.Machine
end

