-- ==== Sys2Proof/Proofs/HawkerControl.lean ====
section
/-!
SUPPORT. Branches, jumps, calls and returns (R492, R493, R500, R507), exception entry (R488, R499), and the control registers (R490,
Table 20.6).
-/
namespace Sys2Proof.Machine

/-! ### An instruction that goes on -/

theorem onlyCore_put (s : State) (n : CoreNo) (c : Core) : onlyCore s n c (put s.cores n.val c) := by
  refine ⟨by simp [coreIn], fun m hm => by simp [coreIn, hm]⟩

theorem onlyCore_put_put (s : State) (n : CoreNo) (b c : Core) : onlyCore s n c (put (put s.cores n.val b) n.val c) := by
  refine ⟨by simp [coreIn], fun m hm => by simp [coreIn, hm]⟩

@[simp] theorem State.core_fetchedBy (s : State) (n : CoreNo) (w : BitVec 32) :
    (s.fetchedBy n w).core n.val = (s.core n.val).fetched w :=
  State.core_setCore_same s n.val _

section
variable {s : State} {n : CoreNo} (h : s.ready n) {w : BitVec 32} {reads : Bool} {body : State → Core → State × Ends} {pc : W64} {c : Core}
  {code : Nat} {eaddr : W64}
include h

theorem State.instr_next {t : State} (hb : body (s.fetchedBy n w) ((s.core n.val).fetched w) = (t, .goes pc)) :
    done (s.instr n w reads body) = .next (t.retire n.val pc) := by
  rw [State.instr_ready h, hb]

theorem State.instr_enters {t : State} (hb : body (s.fetchedBy n w) ((s.core n.val).fetched w) = (t, .raises code eaddr)) :
    done (s.instr n w reads body) = .next (t.enter n.val code eaddr (s.core n.val).pc 4) := by
  rw [State.instr_ready h, hb]

/-- A body that changes nothing and goes on. -/
theorem State.instr_goes (hb : body (s.fetchedBy n w) ((s.core n.val).fetched w) = (s.fetchedBy n w, .goes pc)) :
    Retires (done (s.instr n w reads body)) s n pc ((s.core n.val).fetched w) :=
  ⟨_, State.instr_next h hb, onlyCore_put s n _⟩

/-- A body that changes its core alone and goes on. -/
theorem State.instr_sets (hb : body (s.fetchedBy n w) ((s.core n.val).fetched w) = ((s.fetchedBy n w).setCore n.val c, .goes pc)) :
    Retires (done (s.instr n w reads body)) s n pc c :=
  ⟨_, State.instr_next h hb, onlyCore_put_put s n _ c⟩

/-- A body that raises an exception and changes nothing. -/
theorem State.instr_raises (hb : body (s.fetchedBy n w) ((s.core n.val).fetched w) = (s.fetchedBy n w, .raises code eaddr)) :
    Raises (done (s.instr n w reads body)) s n w code eaddr := State.instr_enters h hb

end

/-! ### Branches and jumps -/

section
variable (c : Core)

theorem not_decide_lt {α : Type} [LinearOrder α] {x y : α} : (!decide (x < y)) = decide (y ≤ x) := by
  rw [← decide_not, decide_eq_decide, not_lt]

theorem Core.next_eq_ofNat : c.next = BitVec.ofNat 64 (c.pc + 4) := by
  rw [Core.next, Core.here, BitVec.ofNat_add]
  rfl

theorem Core.target_eq_ofInt {k : Nat} (d : BitVec k) : c.target (d.signExtend 64) = BitVec.ofInt 64 (c.pc + 4 * d.toInt) := by
  rw [Core.target, Core.here, BitVec.ofInt_add, BitVec.ofInt_mul, BitVec.signExtend, BitVec.ofInt_natCast]
  rfl

end

section
variable {s : State} {n : CoreNo} (h : s.ready n) (op : BitVec 6) (a b : HReg) (d : BitVec 16) {p : W64 → W64 → Bool} {take : Bool}
include h

theorem State.branches_retires (hp : p ((s.core n.val).get a) ((s.core n.val).get b) = take) :
    Retires (done (s.branches n (formC op a b d) a b d p)) s n
      (if take then BitVec.ofInt 64 ((s.core n.val).pc + 4 * d.toInt) else BitVec.ofNat 64 ((s.core n.val).pc + 4))
      ((s.core n.val).fetched (formC op a b d)) := by
  refine State.instr_goes h ?_
  rw [Core.get_fetched, Core.get_fetched, hp]
  cases take with
  | true => exact congrArg _ (congrArg _ (Core.target_eq_ofInt _ d))
  | false => exact congrArg _ (congrArg _ (Core.next_eq_ofNat _))

end

/-! ### Calls -/

section
variable {s t : State} {n : CoreNo} {c : Core} {target : W64} {e at_ : Nat}

theorem callTo_ok (hn : c.nframes < 30) (hal : c.sp.toNat % 8 = 0)
    (hst : s.coreStore n (c.sp - 8) (leBytes 8 c.next.toNat) = (t, .ok ())) :
    callTo s n c target = (t.setCore n.val (((t.core n.val).setSp (c.sp - 8)).slide c.kernel), .goes target) := by
  simp only [callTo, if_pos hn, hal, hst, ne_eq, not_true, if_false]

theorem callTo_misaligned (hn : c.nframes < 30) (hal : c.sp.toNat % 8 ≠ 0) : callTo s n c target = (s, .raises 0x09 c.sp) := by
  simp only [callTo, if_pos hn, if_pos hal]

theorem callTo_unstored (hn : c.nframes < 30) (hal : c.sp.toNat % 8 = 0)
    (hst : s.coreStore n (c.sp - 8) (leBytes 8 c.next.toNat) = (t, .error e)) :
    callTo s n c target = (t, .raises 0x09 c.sp) := by
  simp only [callTo, if_pos hn, hal, hst, ne_eq, not_true, if_false]

theorem callTo_unspilled (hn : 30 ≤ c.nframes) (hsp : s.spill n.val false = .error (t, at_)) :
    callTo s n c target = (t, .raises 0x07 (BitVec.ofNat 64 at_)) := by
  simp only [callTo, if_neg (Nat.not_lt.mpr hn), hsp]

end

/-- R492: an instruction whose body is a call of `target`. -/
theorem State.calls_answer {s : State} {n : CoreNo} (h : s.ready n) (w : BitVec 32) (target : W64) {body : State → Core → State × Ends}
    (hb : body (s.fetchedBy n w) ((s.core n.val).fetched w) = callTo (s.fetchedBy n w) n ((s.core n.val).fetched w) target) :
    let c := s.core n.val
    let u := s.fetchedBy n w
    let o := done (s.instr n w true body)
    (∀ t, c.nframes < 30 → c.sp.toNat % 8 = 0 → u.coreStore n (c.sp - 8) (leBytes 8 c.next.toNat) = (t, .ok ()) →
      o = .next ((t.setCore n.val (((t.core n.val).setSp (c.sp - 8)).slide c.kernel)).retire n.val target)) ∧
    (c.nframes < 30 → c.sp.toNat % 8 ≠ 0 → Raises o s n w 0x09 c.sp) ∧
    (∀ t e, c.nframes < 30 → c.sp.toNat % 8 = 0 → u.coreStore n (c.sp - 8) (leBytes 8 c.next.toNat) = (t, .error e) →
      o = .next (t.enter n.val 0x09 c.sp c.pc 4)) ∧
    (∀ t at_, 30 ≤ c.nframes → u.spill n.val false = .error (t, at_) → o = .next (t.enter n.val 0x07 (BitVec.ofNat 64 at_) c.pc 4)) := by
  intro c u o
  refine ⟨fun t hn hal hst => ?_, fun hn hal => ?_, fun t e hn hal hst => ?_, fun t at_ hn hsp => ?_⟩
  · exact State.instr_next h (hb.trans (callTo_ok hn hal hst))
  · exact State.instr_raises h (hb.trans (callTo_misaligned hn hal))
  · exact State.instr_enters h (hb.trans (callTo_unstored hn hal hst))
  · exact State.instr_enters h (hb.trans (callTo_unspilled hn hsp))

/-! ### Returns -/

section
variable {s t : State} {n : CoreNo} {c : Core} {b : Bytes}

/-- R487: with the frame before the current one resident nothing is filled. -/
theorem State.fill_resident {user : Bool} (hn : 2 ≤ (s.core n.val).nframes) : s.fill n.val user = .ok s := by
  simp only [State.fill, if_pos hn]

theorem returnTo_misaligned (hal : c.sp.toNat % 8 ≠ 0) : returnTo s n c = (s, .raises 0x09 c.sp) := by
  rw [returnTo, if_pos hal]

section
variable (hal : c.sp.toNat % 8 = 0) (hl : s.coreLoad n c.sp 8 = (t, .ok b)) (hn : 2 ≤ (t.core n.val).nframes)
include hal hl hn

theorem returnTo_ok (ht : leNat b % 2 ^ 64 % 4 = 0) :
    returnTo s n c = (t.setCore n.val ((t.core n.val).unslide.setSp (c.sp + 8)), .goes (BitVec.ofNat 64 (leNat b))) := by
  simp only [returnTo, hal, hl, State.fill_resident hn, BitVec.toNat_ofNat, ht, ne_eq, not_true, if_false]

theorem returnTo_badTarget (ht : leNat b % 2 ^ 64 % 4 ≠ 0) : returnTo s n c = (t, .raises 0x04 (BitVec.ofNat 64 (leNat b))) := by
  simp only [returnTo, hal, hl, State.fill_resident hn, BitVec.toNat_ofNat, if_pos ht, ne_eq, not_true, if_false]

end

/-- R500: ERET into a resident frame slides back and restores MODE and IE. -/
theorem eretTo_resident (hn : 2 ≤ (s.core n.val).nframes) : eretTo s n c =
    (s.setCore n.val { (s.core n.val).unslide with kernel := nbit c.epsr.toNat 0, ie := nbit c.epsr.toNat 1 }, .goes c.epc) := by
  simp only [eretTo, State.fill_resident hn]

/-- R491: with the current frame the only one resident there is nothing to spill. -/
theorem flushFrames_one {fuel : Nat} (hn : (s.core n.val).nframes = 1) : flushFrames s n fuel = .ok s := by
  cases fuel with
  | zero => rfl
  | succ fuel => rw [flushFrames, if_pos (Nat.le_of_eq hn)]

end

/-! ### Privileged instructions (R497) -/

section
variable {c : Core} {s : State} {w : BitVec 32} {f : Unit → State × Ends}

theorem kernelOnly_kernel (hk : c.kernel = true) : kernelOnly (c.fetched w) s f = f () := if_pos hk

theorem kernelOnly_user (hk : c.kernel = false) : kernelOnly (c.fetched w) s f = (s, .raises 0x03 0) :=
  if_neg (Bool.eq_false_iff.mp hk)

end

/-- Settles O6: each row is its body's answer, and a body that needs neither spill nor fill is one of the cases above. -/
theorem hawkerControlFlow : Obligations.HawkerControlFlow := by
  refine ⟨fun s n a b d j h => ?_, fun s n a j h => ?_, fun s n h => ?_⟩
  · refine ⟨State.branches_retires h _ a b d ?_, State.branches_retires h _ a b d ?_, State.branches_retires h _ a b d rfl,
      State.branches_retires h _ a b d ?_, State.branches_retires h _ a b d rfl, State.branches_retires h _ a b d ?_,
      State.instr_goes h (congrArg _ (congrArg _ (Core.target_eq_ofInt _ j))), fun hal => ?_, fun hal => ?_⟩
    · exact beq_eq_decide _ _
    · exact (congrArg (!·) (beq_eq_decide _ _)).trans (decide_not ..).symm
    · exact not_decide_lt (α := Int)
    · exact not_decide_lt (α := Nat)
    · exact State.instr_goes h (if_neg (not_not.mpr hal))
    · exact State.instr_raises h (if_pos hal)
  · refine ⟨?_, fun hal => State.calls_answer h _ _ (if_neg (not_not.mpr hal)), fun hal => State.instr_raises h (if_pos hal)⟩
    exact State.calls_answer h _ _ (congrArg _ (Core.target_eq_ofInt _ j))
  · refine ⟨fun t b hal hl hn ht => ?_, fun t b hal hl hn ht => ?_, fun hal => State.instr_raises h (returnTo_misaligned hal),
      fun hk hn => State.instr_sets h ?_, fun hk hn => State.instr_goes h ?_, fun hk => ⟨State.instr_raises h ?_, State.instr_raises h ?_⟩⟩
    · exact State.instr_next h (returnTo_ok (c := (s.core n.val).fetched _) hal hl hn ht)
    · exact State.instr_enters h (returnTo_badTarget (c := (s.core n.val).fetched _) hal hl hn ht)
    · rw [kernelOnly_kernel hk, eretTo_resident (by rwa [State.core_fetchedBy]), State.core_fetchedBy]
      rfl
    · rw [kernelOnly_kernel hk, flushFrames_one (by rwa [State.core_fetchedBy])]
      rfl
    · exact kernelOnly_user hk
    · exact kernelOnly_user hk

/-! ### Exception entry -/

/-- What exception entry makes of its core (R499), beside the counting. -/
def Core.entered (c : Core) (code : Nat) (eaddr : W64) (epc : Nat) : Core :=
  { ({ c with
      epc := BitVec.ofNat 64 epc, epsr := BitVec.setWidth 64 c.psr, ecause := BitVec.ofNat 64 code, eaddr := eaddr, kernel := true, ie := false
      sendWait := none, postWait := none, wfi := false, stepOne := false } : Core).slide true with pc := (c.vbase.toNat + 64 * code) % 2 ^ 64 }

theorem State.enter_unspilled {s : State} {n code epc slot : Nat} {eaddr : W64} (hn : (s.core n).nframes < 30) :
    s.enter n code eaddr epc slot =
      (({ s with senders := s.senders.erase n } : State).setCore n ((s.core n).entered code eaddr epc)).coreEvent n slot 1 := by
  simp only [State.enter, if_pos hn]
  rfl

theorem State.enter_doubleFault {s t : State} {n code epc slot at_ : Nat} {eaddr : W64} (hn : 30 ≤ (s.core n).nframes)
    (hsp : s.spill n true = .error (t, at_)) : s.enter n code eaddr epc slot = t.coreFatal n false := by
  simp only [State.enter, if_neg (Nat.not_lt.mpr hn), hsp]

/-- Settles O7: entry replaces its core by `Core.entered` and takes it off the senders' list, or is a double fault. -/
theorem hawkerExceptions : Obligations.HawkerExceptions := by
  refine ⟨fun s n code eaddr epc slot hn _ => ?_, fun s n code eaddr epc slot t at_ hn hsp => ?_⟩
  · refine ⟨_, State.enter_unspilled hn, rfl, fun m hm => ?_, ?_⟩
    · exact State.core_setCore_ne _ _ fun heq => hm heq
    · rw [State.core_setCore_same]
      refine ⟨rfl, BitVec.setWidth_eq _, rfl, rfl, rfl, rfl, rfl, rfl, ?_, rfl, rfl, rfl, rfl, rfl, rfl, rfl, rfl⟩
      exact Core.slide_userFrame_entered _ true
  · rw [State.enter_doubleFault hn hsp]
    exact ⟨rfl, fun hg => if_pos hg⟩

end Sys2Proof.Machine
end

