-- ==== Sys2Proof/Proofs/HawkerSystem.lean ====
section
/-!
SUPPORT. The control registers (R490, Table 20.6), the posts (R494 to R497), waits and interrupts (R501) and JTAG (R578), and the step
that takes a command (the model's choice, log entry 3).
-/
namespace Sys2Proof.Machine

/-! ### Control registers -/

section
variable {s : State} {n : CoreNo} {c : Core} {w w' : BitVec 32} {sel : Nat} {v : W64}

@[simp] theorem Core.control_fetched : (c.fetched w).control n.val sel = c.control n.val sel := rfl

/-- Table 20.6: of a spill register bits 6 to 0 and 63 to 57 are reserved. -/
theorem controlRsv_spill (hlo : 6 ≤ sel) (hhi : sel ≤ 11) : controlRsv sel = 0xFE00_0000_0000_007F := by
  interval_cases sel <;> rfl

theorem Core.control_spill_isSome (hlo : 6 ≤ sel) (hhi : sel ≤ 11) : (c.control n.val sel).isSome = true := by
  interval_cases sel <;> rfl

theorem and_high_seven {k : Nat} (hk : k < 2 ^ 64) : k &&& 0x7F <<< 57 = k / 2 ^ 57 * 2 ^ 57 := by
  refine Nat.eq_of_testBit_eq fun i => ?_
  rw [Nat.testBit_and, Nat.testBit_shiftLeft, Nat.testBit_mul_two_pow, Nat.testBit_div_two_pow]
  by_cases hi : 57 ≤ i
  · obtain ⟨j, rfl⟩ := Nat.exists_eq_add_of_le hi
    have hmask : Nat.testBit 0x7F j = decide (j < 7) := Nat.testBit_two_pow_sub_one 7 j
    rw [Nat.add_sub_cancel_left, hmask]
    by_cases hj : j < 7
    · simp [hj, Nat.add_comm]
    · have hbig : Nat.testBit k (57 + j) = false := Nat.testBit_lt_two_pow (lt_of_lt_of_le hk (Nat.pow_le_pow_right (by decide) (by omega)))
      simp [hbig, Nat.add_comm j]
  · simp [hi]

/-- R490: a spill register's reserved bits are 0 where the address is 128-byte aligned and below 2^57. -/
theorem and_spillRsv_eq_zero : v &&& 0xFE00_0000_0000_007F = 0 ↔ v.toNat % 128 = 0 ∧ v.toNat < 2 ^ 57 := by
  have hv : v.toNat < 2 ^ 64 := v.isLt
  have hlow : v.toNat &&& 0x7F = v.toNat % 128 := Nat.and_two_pow_sub_one_eq_mod v.toNat 7
  rw [← BitVec.toNat_inj, BitVec.toNat_and, show (0xFE00_0000_0000_007F : W64).toNat = 0x7F ||| 0x7F <<< 57 by rfl,
    Nat.and_or_distrib_left, hlow, and_high_seven hv]
  show _ = 0 ↔ _
  rw [Nat.or_eq_zero_iff]
  omega

theorem controlWrite_reserved (hc : c.control n.val sel = none) : controlWrite s n (c.fetched w) w' sel v = (s, illegal w') := by
  rw [controlWrite, if_pos (.inl (by rw [Core.control_fetched, hc]; rfl))]

theorem controlWrite_badBits (hv : v &&& controlRsv sel ≠ 0) : controlWrite s n c w sel v = (s, illegal w) := by
  rw [controlWrite, if_pos (.inr hv)]

theorem controlWrite_badArea (hlo : 6 ≤ sel) (hhi : sel ≤ 11) (ha : s.areaOk n.val (c.setControl sel v) (decide (sel ≤ 8)) = false) :
    controlWrite s n c w sel v = (s, illegal w) := by
  simp only [controlWrite]
  split
  · rfl
  · rw [if_pos ⟨hlo, hhi, by simp [ha]⟩]

theorem controlWrite_ok (hc : (c.control n.val sel).isSome = true) (hv : v &&& controlRsv sel = 0)
    (ha : 6 ≤ sel → sel ≤ 11 → s.areaOk n.val (c.setControl sel v) (decide (sel ≤ 8)) = true) :
    controlWrite s n c w sel v = (s.setCore n.val (c.setControl sel v), .goes c.next) := by
  simp only [controlWrite]
  rw [if_neg (by simp [hv, Option.isSome_iff_ne_none.mp hc]), if_neg]
  rintro ⟨hlo, hhi, hna⟩
  exact hna (ha hlo hhi)

end

/-- Settles O8: MFC and MTC are the cases of the selector and of `controlWrite`, in kernel mode. -/
theorem hawkerControlRegisters : Obligations.HawkerControlRegisters := by
  refine ⟨fun s n r sel h => ⟨fun v hk hc => ?_, fun hk hsel => ?_, fun hk hc => ⟨?_, ?_⟩, fun hk hc hv hsel => ?_, fun hk => ?_, rfl, rfl, rfl⟩,
    fun s n r sel h => ?_⟩
  · refine State.instr_sets h ?_
    rcases hk with hk | rfl
    · simp only [kernelOnly_kernel hk, Core.control_fetched, hc, ite_self]
      rfl
    · simp only [if_true, Core.control_fetched, hc]
      rfl
  · refine State.instr_raises h ?_
    rw [if_neg hsel, kernelOnly_user hk]
  · refine State.instr_raises h ?_
    simp only [kernelOnly_kernel hk, Core.control_fetched, hc, ite_self]
    rfl
  · refine State.instr_raises h ?_
    rw [kernelOnly_kernel hk, controlWrite_reserved hc]
    rfl
  · refine State.instr_sets h ?_
    rw [kernelOnly_kernel hk]
    exact controlWrite_ok hc hv fun _ _ => by omega
  · exact State.instr_raises h (kernelOnly_user hk)
  · intro c w v hk hlo hhi u ok
    refine ⟨fun hal hlt hok => State.instr_sets h ?_, fun hbad => State.instr_raises h ?_⟩
    · rw [kernelOnly_kernel hk]
      exact controlWrite_ok (Core.control_spill_isSome hlo hhi) (by rw [controlRsv_spill hlo hhi]; exact and_spillRsv_eq_zero.mpr ⟨hal, hlt⟩)
        fun _ _ => hok
    · rw [kernelOnly_kernel hk]
      have hbits (hv : ¬ (v.toNat % 128 = 0 ∧ v.toNat < 2 ^ 57)) : v &&& controlRsv sel.toNat ≠ 0 := by
        rw [controlRsv_spill hlo hhi]
        exact fun hz => hv (and_spillRsv_eq_zero.mp hz)
      obtain hal | hlt | hok := hbad
      · exact controlWrite_badBits (hbits fun hv => hal hv.1)
      · exact controlWrite_badBits (hbits fun hv => Nat.not_lt.mpr hlt hv.2)
      · exact controlWrite_badArea hlo hhi hok

/-! ### Posts -/

section
variable {s : State} {n : CoreNo} {w : BitVec 32} {k : Nat} {v : W64}

/-- A WFI and an instruction that waits for a post change their core alone. -/
theorem State.instr_waits {c : Core} {reads : Bool} {body : State → Core → State × Ends} (h : s.ready n)
    (hb : body (s.fetchedBy n w) ((s.core n.val).fetched w) = ((s.fetchedBy n w).setCore n.val c, .waits)) :
    Completes (done (s.instr n w reads body)) fun t => ∃ k, t = { s with cores := k } ∧ onlyCore s n c k := by
  rw [State.instr_ready h, hb]
  exact ⟨_, rfl, _, rfl, onlyCore_put_put s n _ c⟩

/-- R501: the line that a core takes is pending and enabled, and no lower one is both. -/
theorem Core.line_eq_some {c : Core} {l : Nat} (hl : c.line n.val = some l) :
    l < 8 ∧ nbit (c.lines n.val) l = true ∧ nbit c.ien.toNat l = true ∧
      ∀ m, m < l → ¬ (nbit (c.lines n.val) m = true ∧ nbit c.ien.toNat m = true) := by
  rw [Core.line, List.find?_range_eq_some] at hl
  obtain ⟨hp, hlt, hmin⟩ := hl
  rw [Bool.and_eq_true] at hp
  refine ⟨List.mem_range.mp hlt, hp.1, hp.2, fun m hm hboth => ?_⟩
  have := hmin m hm
  simp [hboth.1, hboth.2] at this

end

/-- Settles O9: each row is the case of its body that the state makes it meet. -/
theorem hawkerSystemAndPosts : Obligations.HawkerSystemAndPosts := by
  refine ⟨fun s n sel w h => ⟨?_, ?_, fun hw => ?_, State.instr_sets h rfl, State.instr_sets h rfl, fun hk hl => ?_, fun hk hl => ?_,
    fun hk => State.instr_raises h (kernelOnly_user hk)⟩, fun s n r sel h => ?_, fun s n => ?_⟩
  · exact congrArg _ (State.instr_ready h _ _ _)
  · exact congrArg _ (State.instr_ready h _ _ _)
  · have hdec : exec (.illegal n w) s = done (s.instr n w false fun s _ => (s, illegal w)) := congrArg _ (if_neg (by simp [hw]))
    rw [hdec]
    exact State.instr_raises h rfl
  · exact State.instr_goes h ((kernelOnly_kernel hk).trans (if_pos hl))
  · exact State.instr_waits h ((kernelOnly_kernel hk).trans (if_neg (by rw [show (Core.fetched _ _).line n.val = none from hl]; decide)))
  · intro c k wr ws u
    refine ⟨fun v hk h4 hp => State.instr_sets h ?_, fun hk h4 hp => State.instr_waits h ?_, fun hk h4 => State.instr_raises h ?_,
      fun hk h71 hon hfull hsend => State.instr_next h ?_, fun hk h71 hon hfull => ?_, fun hk h71 hoff => State.instr_raises h ?_,
      fun hk h71 => State.instr_raises h ?_, fun hk => ⟨State.instr_raises h (kernelOnly_user hk), State.instr_raises h (kernelOnly_user hk)⟩⟩
    · rw [kernelOnly_kernel hk, if_neg (Nat.not_le.mpr h4), show look (Core.fetched _ _).posts _ = some v from hp]
      rfl
    · rw [kernelOnly_kernel hk, if_neg (Nat.not_le.mpr h4), show look (Core.fetched _ _).posts _ = none from hp]
    · rw [kernelOnly_kernel hk, if_pos h4]
      rfl
    · rw [kernelOnly_kernel hk, if_neg (Nat.not_lt.mpr h71), sendCore, hon]
      rw [if_neg (by decide), if_neg]
      · rfl
      · rw [show (s.fetchedBy n _).postFull _ = false from hfull, show (s.fetchedBy n _).senders = [] from hsend]
        simp
    · have hbody : exec (.send n r sel) s = .next (({ u with senders := s.senders ++ [n.val] } : State).setCore n.val
          { (c.fetched ws) with sendWait := some (k, c.get r) }) := by
        refine congrArg Host.Outcome.next ?_
        rw [State.instr_ready h, kernelOnly_kernel hk, if_neg (Nat.not_lt.mpr h71), sendCore, hon]
        rw [if_neg (by decide), if_pos (.inl hfull)]
        rfl
      exact ⟨_, hbody, rfl, rfl, onlyCore_put_put s n _ _⟩
    · rw [kernelOnly_kernel hk, if_neg (Nat.not_lt.mpr h71), sendCore, hoff]
      rfl
    · rw [kernelOnly_kernel hk, if_pos h71]
      rfl
  · refine ⟨fun p m v hm hon hfull hw => ?_, fun hon hw hl => congrArg Host.Outcome.next (if_pos ⟨hon, hw, hl⟩), fun l hon hd hie hw hl => ?_, fun hie => ?_⟩
    · show execPostDeliver n p s = _
      simp only [execPostDeliver, hm, hon, hfull, hw, Bool.not_true, Bool.false_eq_true, if_false]
    · obtain ⟨h8, hpend, hen, hmin⟩ := Core.line_eq_some hl
      refine ⟨h8, hpend, hen, hmin, ?_⟩
      show execInterruptTake n s = _
      simp only [execInterruptTake, hl, hw, Bool.false_eq_true, if_false, State.core_setCore_same]
      rw [if_pos ⟨hon, hd, hie⟩]
    · show execInterruptTake n s = _
      simp only [execInterruptTake]
      split
      · rw [if_neg (by simp [hie])]
      · rfl

/-! ### JTAG and steps -/

/-- Settles O10: at level 1 every Guildhall core is in reach, and at level 0 no core. -/
theorem hawkerJtag : Obligations.HawkerJtag := by
  intro s n r v
  refine ⟨fun h1 h16 => ?_, fun h0 => ?_⟩
  · have hj : s.jtagCore n.val = true := by simp [State.jtagCore, h1, h16]
    refine ⟨congrArg _ (if_pos hj), congrArg _ (if_pos hj), fun hh => ⟨congrArg _ (if_pos ⟨hj, hh⟩), congrArg _ (if_pos ⟨hj, hh⟩), fun x hx => ?_⟩⟩
    show execJtagAccess (.readReg n r) s = _
    simp only [execJtagAccess, hx, hj, hh, and_self, if_true]
  · have hj : s.jtagCore n.val = false := by simp [State.jtagCore, h0]
    refine ⟨congrArg _ (if_neg (by simp [hj])), congrArg _ (if_neg (by simp [hj])), ?_⟩
    show execJtagAccess (.readReg n r) s = _
    simp only [execJtagAccess, hj]
    split
    · exact congrArg Host.Outcome.next (if_neg (by simp))
    · rfl

/-- `t` is `s` with other registers, and other remainders of the timestamps. -/
def State.timePassed (s t : State) : Prop := ∃ regs eth, t = { s with regs := regs, eth := eth }

theorem State.timePassed_tsTick (s : State) : s.timePassed s.tsTick := by
  refine foldl_inv s.timePassed (fun t i ht => ?_) _ ⟨s.regs, s.eth, rfl⟩
  obtain ⟨_, _, rfl⟩ := ht
  exact ⟨_, _, rfl⟩

theorem State.timePassed_secondPasses {s t : State} (ht : s.timePassed t) : s.timePassed t.secondPasses := by
  have hcount (u : State) (r : Reg) (f : Fld) (hu : s.timePassed u) : s.timePassed (u.countDown r f) := by
    obtain ⟨_, _, rfl⟩ := hu
    exact ⟨_, _, rfl⟩
  exact hcount _ _ _ (foldl_inv s.timePassed (fun u i hu => hcount u _ _ hu) _ ht)

/-- A tick advances the tick and, of the rest, changes only registers and the timestamps. -/
theorem State.timePassed_idle (s : State) : ({ s with tick := s.tick + 1 } : State).timePassed s.idle := by
  have htick := State.timePassed_tsTick { s with tick := s.tick + 1 }
  rw [State.idle]
  split
  · exact State.timePassed_secondPasses htick
  · exact htick

/-- Settles O59: the front of the queue is taken by `step_cons`, a tick by `step_nil`, and no row of the table spells a word. -/
theorem stepTakesTheFront : Obligations.StepTakesTheFront := by
  intro s c rest
  refine ⟨step_cons rfl, fun hp => ⟨_, step_nil hp, ?_⟩, fun _ _ => rfl⟩
  obtain ⟨regs, eth, hidle⟩ := s.timePassed_idle
  rw [hidle]
  exact ⟨rfl, hp, rfl, rfl, rfl, rfl⟩

end Sys2Proof.Machine
end

