-- ==== Sys2Proof/Proofs/Memory.lean ====
section
/-!
SUPPORT. The canonical form of a table with a default, which fixes the table by what it reads; memory after bytes are written (R36, R37);
and what a count of the Weighmaster leaves alone.
-/
namespace Sys2Proof.Machine

/-! ### Tables in canonical form -/

section
variable {α : Type} {d : α} {s t : Tab α}

theorem look_cons_same (k : Nat) (v : α) (t : Tab α) : look ((k, v) :: t) k = some v := by
  rw [look, if_pos rfl]

theorem look_cons_ne {k j : Nat} (v : α) (t : Tab α) (h : k ≠ j) : look ((k, v) :: t) j = look t j := by
  rw [look, if_neg h]

/-- A table reads nothing below its first key. -/
theorem look_none_of_head {p : Nat × α} (h : TabWf (p :: t)) {k : Nat} (hk : k ≤ p.1) : look t k = none :=
  look_eq_none_of_lt fun q hq => Nat.lt_of_le_of_lt hk ((List.pairwise_cons.mp h).1 q hq)

theorem look_head_none {p : Nat × α} (h : TabWf (p :: t)) {k : Nat} (hk : k < p.1) : look (p :: t) k = none := by
  obtain ⟨j, v⟩ := p
  rw [look_cons_ne v t (Nat.ne_of_gt hk)]
  exact look_none_of_head h (Nat.le_of_lt hk)

/-- Rising keys: tables that look the same are the same. -/
theorem TabWf.ext (hs : TabWf s) (ht : TabWf t) (h : ∀ k, look s k = look t k) : s = t := by
  induction s generalizing t with
  | nil =>
    cases t with
    | nil => rfl
    | cons q t => simpa [look_cons_same q.1 q.2 t] using h q.1
  | cons p s ih =>
    obtain ⟨j, v⟩ := p
    cases t with
    | nil => simpa [look_cons_same j v s] using h j
    | cons q t =>
      obtain ⟨k, w⟩ := q
      have hj := h j
      have hk := h k
      rw [look_cons_same] at hj hk
      have hjk : j = k := by
        rcases Nat.lt_trichotomy j k with hlt | heq | hgt
        · simp [look_head_none ht hlt] at hj
        · exact heq
        · simp [look_head_none hs hgt] at hk
      subst hjk
      rw [look_cons_same] at hj
      rw [Option.some.inj hj, ih hs.of_cons ht.of_cons fun i => ?_]
      by_cases hi : j = i
      · subst hi
        rw [look_none_of_head hs (Nat.le_refl _), look_none_of_head ht (Nat.le_refl _)]
      · have := h i
        rwa [look_cons_ne v s hi, look_cons_ne w t hi] at this

theorem mem_of_look {k : Nat} {v : α} (h : look t k = some v) : (k, v) ∈ t := by
  induction t with
  | nil => simp at h
  | cons p t ih =>
    obtain ⟨j, w⟩ := p
    by_cases hj : j = k
    · subst hj
      rw [look_cons_same] at h
      simp [Option.some.inj h]
    · rw [look_cons_ne w t hj] at h
      exact List.mem_cons_of_mem _ (ih h)

/-- No default is stored: a table with a default looks as its reads say. -/
theorem TabWfD.look_eq [DecidableEq α] (h : TabWfD d t) (k : Nat) : look t k = if lookD d t k = d then none else some (lookD d t k) := by
  cases hl : look t k with
  | none => simp [lookD, hl]
  | some v =>
    have hv : v ≠ d := h.2 _ (mem_of_look hl)
    simp [lookD, hl, hv]

theorem TabWfD.ext [DecidableEq α] (hs : TabWfD d s) (ht : TabWfD d t) (h : ∀ k, lookD d s k = lookD d t k) : s = t :=
  hs.1.ext ht.1 fun k => by rw [hs.look_eq, ht.look_eq, h]

end

/-! ### Memory after bytes are written -/

section
variable (s : State) (a : Nat) (d : Bytes)

/-- Of a state, a write of bytes changes only the bytes. -/
theorem State.poke_eq : s.poke a d = { s with home := { s.home with mem := (s.poke a d).home.mem } } := by
  induction d generalizing s a with
  | nil => rfl
  | cons b d ih =>
    rw [State.poke, ih]
    rfl

theorem State.bytes_poke : (s.poke a d).bytes a d.length = d := by
  refine List.ext_getElem (by simp [State.bytes]) fun i hi _ => ?_
  have hlt : i < d.length := by simpa [State.bytes] using hi
  simp [State.bytes, State.byte_poke_inside s a d hlt, hlt]

theorem State.poke_memBut : s.memBut (s.poke a d) a d.length := fun _ hx => State.byte_poke_outside s a d hx

variable {s} {t : State}

theorem State.poke_mem_congr (h : t.home.mem = s.home.mem) : (t.poke a d).home.mem = (s.poke a d).home.mem := by
  induction d generalizing s t a with
  | nil => exact h
  | cons b d ih => exact ih _ (by simp [State.pokeByte, h])

theorem State.mem_ext (hs : s.memWf) (ht : t.memWf) (h : s.memSame t) : t.home.mem = s.home.mem :=
  TabWfD.ext (d := 0#8) ht hs h

theorem State.memSame_of_mem (h : t.home.mem = s.home.mem) : s.memSame t := State.byte_of_mem h

theorem State.bytes_of_mem (h : t.home.mem = s.home.mem) (n : Nat) : t.bytes a n = s.bytes a n := by
  simp only [State.bytes, State.byte_of_mem h]

/-- In canonical form, writing the bytes that memory holds changes nothing. -/
theorem State.poke_bytes (hs : s.memWf) (n : Nat) : s.poke a (s.bytes a n) = s := by
  have hlen : (s.bytes a n).length = n := by simp [State.bytes]
  have hmem : (s.poke a (s.bytes a n)).home.mem = s.home.mem := by
    refine State.mem_ext hs (State.poke_memWf hs a _) fun x => ?_
    by_cases hx : x < a ∨ a + n ≤ x
    · exact State.byte_poke_outside s a _ (by rwa [hlen])
    · obtain ⟨i, rfl⟩ := Nat.exists_eq_add_of_le (show a ≤ x by omega)
      have hi : i < (s.bytes a n).length := by rw [hlen]; omega
      rw [State.byte_poke_inside s a _ hi, List.getD_eq_getElem _ _ hi]
      simp [State.bytes]
  rw [State.poke_eq, hmem]

end

/-- Settles O15: reset values by name, an empty memory, and memory as a table in canonical form. -/
theorem resetAndMemory : Obligations.ResetAndMemory := by
  refine ⟨⟨fun _ => rfl, fun i j => ?_, rfl, rfl, rfl, fun _ => rfl, rfl⟩, ⟨State.reset_memWf, fun _ => rfl, fun _ => rfl⟩,
    fun s t a n d => ⟨State.bytes_poke s a d, State.poke_memBut s a d, fun h => State.poke_memWf h a d, ?_, State.poke_poison s a d,
      State.mem_ext, fun h => State.poke_bytes a h n⟩⟩
  · refine ⟨rfl, rfl, rfl, rfl, rfl, rfl, rfl, rfl, rfl, rfl, rfl, rfl, rfl, rfl, rfl, rfl, rfl, fun _ => rfl, fun _ hk => ?_⟩
    simp [Reg.reset, Reg.resetNat, hk, infoLow]
  · rw [State.poke_eq]

end Sys2Proof.Machine
end

