-- ==== Sys2Proof/Proofs/Homes.lean ====
section
/-!
SUPPORT. Accesses at a Square and at a Warehouse (R37, R245, R256): an access lies in one line, a line whose bytes are right is left as it
is by its check, and what storing bytes in a line does to memory and to its mark.
-/
namespace Sys2Proof.Machine

/-! ### What a count leaves alone -/

section
variable (s : State) (q b n k : Nat)

/-- R539: a count changes counters of the Weighmaster alone. -/
theorem State.count_rd {r : Reg} (h : r.name ≠ .wmCnt) : (s.count q b n k).rd r = s.rd r := by
  have hne (j : Nat) : r ≠ wmReg q b j := fun heq => h (by rw [heq]; rfl)
  simp only [State.count, State.wmAdd]
  repeat' split
  all_goals simp [State.rd_fset_ne _ _ _ (hne _)]

theorem State.count_fget {r : Reg} (f : Fld) (h : r.name ≠ .wmCnt) : (s.count q b n k).fget r f = s.fget r f := by
  rw [State.fget, State.count_rd s q b n k h, State.fget]

end

/-! ### The line of an access -/

theorem lines_one {a n : Nat} (hn : 1 ≤ n) (h : a / 128 = (a + n - 1) / 128) :
    lines a n = [(a / 128 * 128, a - a / 128 * 128, a + n - a / 128 * 128)] := by
  rw [lines, if_neg (by omega), ← h, Nat.add_sub_cancel_left]
  simp
  omega

section
variable {a q w o : Nat}

theorem homeOf_line_square (h : homeOf a = .square q o) : homeOf (a / 128 * 128) = .square q (o / 128 * 128) := by
  revert h
  simp only [homeOf]
  split_ifs <;> simp <;> omega

theorem homeOf_line_warehouse (h : homeOf a = .warehouse w o) : homeOf (a / 128 * 128) = .warehouse w (o / 128 * 128) := by
  revert h
  simp only [homeOf]
  split_ifs <;> simp <;> omega

theorem homeOf_line_hole (h : homeOf a = .hole) : homeOf (a / 128 * 128) = .hole := by
  revert h
  simp only [homeOf]
  split_ifs <;> simp <;> omega

end

/-- A well-formed access lies in one line, and a write of it carries its bytes. -/
theorem HomeAccess.wellFormed_line {a : HomeAccess} (h : a.wellFormed = true) :
    1 ≤ a.len ∧ a.addr / 128 = (a.addr + a.len - 1) / 128 ∧ ∀ d, a.data = some d → d.length = a.len := by
  simp only [HomeAccess.wellFormed, Bool.and_eq_true, decide_eq_true_eq] at h
  obtain ⟨⟨⟨⟨hlen, hline⟩, _⟩, hdata⟩, _⟩ := h
  refine ⟨hlen, hline, fun d hd => ?_⟩
  rw [hd] at hdata
  exact of_decide_eq_true hdata

theorem slice_whole (d : Bytes) : slice d 0 d.length = d := by
  simp [slice]

/-! ### Storing bytes in a line -/

/-- What a write of bytes of one line that completes does: the bytes are stored and no others, nothing is sent, and the line is poisoned
where the write is, or where it was and the write left some of it. -/
def State.stored (s t : State) (a len : Nat) (d : Bytes) (poison : Bool) : Prop :=
  t.bytes a len = d ∧ s.memBut t a len ∧ t.out = s.out ∧ (s.memWf → t.memWf) ∧
    t.poisoned a = (poison || (s.poisoned a && decide (len ≠ 128)))

section
variable {s u : State} {a l : Nat} {d : Bytes} {poison : Bool}

theorem State.poisoned_unmarkLine (s : State) (h : l / 128 = a / 128) : (s.unmarkLine l).poisoned a = false := by
  simp [State.poisoned, State.unmarkLine, h]

theorem State.poisoned_markLine (s : State) (h : l / 128 = a / 128) : (s.markLine l).poisoned a = true := by
  simp [State.poisoned, State.markLine, h]

theorem State.poisoned_of_poison (h : u.home.poison = s.home.poison) (a : Nat) : u.poisoned a = s.poisoned a := by
  rw [State.poisoned, h, State.poisoned]

/-- The last part of both homes' writes, on a state that holds the line's bytes and its mark, but for a full write without poison. -/
theorem State.stored_of_poke (hmem : u.home.mem = s.home.mem) (hout : u.out = s.out) (hl : l / 128 = a / 128)
    (hpoison : u.poisoned a = if d.length = 128 ∧ poison = false then false else s.poisoned a) :
    s.stored (if poison then (u.poke a d).markLine l else u.poke a d) a d.length d poison := by
  have hpoke : (u.poke a d).home.mem = (s.poke a d).home.mem := State.poke_mem_congr a d hmem
  have hafter : (if poison then (u.poke a d).markLine l else u.poke a d).home.mem = (s.poke a d).home.mem := by
    split <;> exact hpoke
  refine ⟨?_, fun x hx => ?_, ?_, fun hs => ?_, ?_⟩
  · rw [State.bytes_of_mem a hafter, State.bytes_poke]
  · rw [State.byte_of_mem hafter, State.poke_memBut s a d x hx]
  · split <;> simp [hout]
  · exact State.memWf_of_mem hafter (State.poke_memWf hs a d)
  · cases poison with
    | true => simp [State.poisoned_markLine _ hl]
    | false =>
      rw [if_neg (by decide), State.poisoned_of_poison (State.poke_poison u a d), hpoison]
      by_cases hfull : d.length = 128 <;> simp [hfull]

end

/-! ### Squares -/

section
variable {s : State} {q a l lo hi : Nat} {d : Bytes} {poison : Bool}

theorem State.squareGroup_right (g : Nat) (hw : s.wrongBytes a = []) : s.squareGroup q a g = s := by
  rw [State.squareGroup]
  split
  · rfl
  · rw [hw]
    rfl

/-- Checking the groups of a line whose bytes are right changes nothing. -/
theorem State.squareGroups_right (gs : List Nat) (hw : s.wrongBytes a = []) : gs.foldl (fun s g => s.squareGroup q a g) s = s :=
  foldl_inv (· = s) (fun _ g ht => ht ▸ State.squareGroup_right g (ht ▸ hw)) gs rfl

theorem State.squareRead_right (hw : s.wrongBytes a = []) : s.squareRead q a lo hi = s.count q 45 0 1 :=
  State.squareGroups_right _ (by simpa [State.wrongBytes] using hw)

/-- R245: a write in a line whose bytes are right, with no injection armed for it. -/
theorem State.squareWrite_stored (hl : l = a / 128 * 128) (hhi : lo + d.length = hi) (hlo : l + lo = a) (h128 : hi ≤ 128)
    (hw : s.wrongBytes l = []) (hinj : s.injAt 0x01 (qUnit q 0) (fun x => decide (x / 128 = l / 128)) = none) :
    s.stored (s.squareWrite q l lo hi d poison) a d.length d poison := by
  have hright := State.squareGroups_right (s := s.count q 45 0 1) (q := q) (a := l)
    ((touched lo hi).filter fun g => !(covered lo hi).contains g) (by simpa [State.wrongBytes] using hw)
  simp only [State.squareWrite, hright]
  rw [show l / 128 * 128 + lo = a by omega]
  split
  next i hi =>
    have herr : ∀ t : State, t.err = s.err → t.injAt 0x01 (qUnit q 0) (fun x => decide (x / 128 = l / 128)) = none :=
      fun t ht => by rw [State.injAt, ht]; exact hinj
    rw [herr _ (by split_ifs <;> simp [State.setWrong])] at hi
    cases hi
  next =>
    refine State.stored_of_poke ?_ ?_ (by omega) ?_
    · split_ifs <;> simp [State.setWrong, State.unmarkLine]
    · split_ifs <;> simp [State.setWrong]
    · by_cases hfull : d.length = 128 ∧ poison = false
      · rw [if_pos ⟨⟨by omega, by omega⟩, by simp [hfull.2]⟩, if_pos hfull]
        exact State.poisoned_unmarkLine _ (by omega)
      · rw [if_neg fun h => hfull ⟨by omega, by simpa using h.2⟩, if_neg hfull]
        exact State.poisoned_of_poison (by simp [State.setWrong]) a

end

/-! ### Warehouses -/

section
variable {s : State} {w a l lo hi : Nat} {d : Bytes} {poison inj : Bool}

/-- R256: a line whose symbols are right passes its check. -/
theorem State.whCheck_right (hw : lookD [] s.home.wrongSym (a / 128) = []) : s.whCheck w a [] inj = s := by
  rw [State.whCheck]
  split
  · rfl
  · simp [hw]

theorem State.count_injAt (s : State) (q b n k det unit : Nat) (p : Nat → Bool) :
    (s.count q b n k).injAt det unit p = s.injAt det unit p := by
  rw [State.injAt, State.count_err, State.injAt]

theorem State.count_stackFailed (s : State) (q b n k : Nat) : (s.count q b n k).stackFailed w = s.stackFailed w := by
  rw [State.stackFailed, State.fbit, State.count_fget _ _ _ _ _ _ (by simp [whStatus]), State.stackFailed, State.fbit]

theorem State.whRead_right (n : Nat) (hw : lookD [] s.home.wrongSym (l / 128) = [])
    (hinj : s.injAt 0x02 (whUnit w) (fun x => decide (x / 128 = l / 128)) = none) :
    s.whRead w l n = s.count (w / 3) (52 + w % 3) 0 n := by
  have hcheck := State.whCheck_right (s := s.count (w / 3) (52 + w % 3) 0 n) (w := w) (a := l) (inj := false) (by simpa using hw)
  simp only [State.whRead, State.count_injAt, hinj, hcheck]

/-- R256: a write in a line whose symbols are right, of a stack that has not failed. -/
theorem State.whWrite_stored (hl : l = a / 128 * 128) (hhi : lo + d.length = hi) (hlo : l + lo = a) (h128 : hi ≤ 128)
    (hw : lookD [] s.home.wrongSym (l / 128) = []) (hstack : s.stackFailed w = false) :
    s.stored (s.whWrite w l lo hi d poison) a d.length d poison := by
  have hcheck := State.whCheck_right (s := s.count (w / 3) (52 + w % 3) 1 (hi - lo)) (w := w) (a := l) (inj := false) (by simpa using hw)
  simp only [State.whWrite, State.count_stackFailed, hstack, hcheck, ite_self, Bool.false_eq_true, if_false]
  rw [show l / 128 * 128 + lo = a by omega]
  refine State.stored_of_poke ?_ ?_ (by omega) ?_
  · split_ifs <;> simp [State.unmarkLine]
  · split_ifs <;> simp
  · by_cases hfull : d.length = 128 ∧ poison = false
    · rw [if_pos ⟨⟨by omega, by omega⟩, by simp [hfull.2]⟩, if_pos hfull]
      exact State.poisoned_unmarkLine _ (by omega)
    · rw [if_neg fun h => hfull ⟨by omega, by simpa using h.2⟩, if_neg hfull]
      exact State.poisoned_of_poison (by simp) a

end

/-! ### One access at its home -/

section
variable {s t u : State} {a : HomeAccess} {d : Bytes}

/-- A write that reaches its home and meets no spill area is the write of its line. -/
theorem State.homeAccess_write (hd : a.data = some d) (hlen : 1 ≤ a.len) (hline : a.addr / 128 = (a.addr + a.len - 1) / 128)
    (hdl : d.length = a.len) (hr : s.reaches a.req a.addr a.len = true) (hs : s.inSpill a.addr a.len = false) :
    s.homeAccess a =
      s.lineWrite (a.addr / 128 * 128) (a.addr - a.addr / 128 * 128) (a.addr + a.len - a.addr / 128 * 128) d a.poison := by
  have hlo : a.addr / 128 * 128 + (a.addr - a.addr / 128 * 128) - a.addr = 0 := by omega
  have hn : a.addr + a.len - a.addr / 128 * 128 - (a.addr - a.addr / 128 * 128) = d.length := by omega
  simp only [State.homeAccess, hd, State.writeMem, hdl, hr, hs, lines_one hlen hline, List.foldl_cons, List.foldl_nil, if_true,
    Bool.false_eq_true, if_false, hlo, hn]
  rw [← hdl, slice_whole]

/-- A read that reaches its home answers what its line holds after the check. -/
theorem State.homeAccess_read (hd : a.data = none) (hlen : 1 ≤ a.len) (hline : a.addr / 128 = (a.addr + a.len - 1) / 128)
    (hr : s.reaches a.req a.addr a.len = true)
    (ht : s.lineRead (a.addr / 128 * 128) (a.addr - a.addr / 128 * 128) (a.addr + a.len - a.addr / 128 * 128) = t) :
    s.homeAccess a = t.emit (.memData a.req (t.bytes a.addr a.len) (t.readPoison a.addr a.len)) := by
  simp only [State.homeAccess, hd, State.readMem, hr, lines_one hlen hline, List.foldl_cons, List.foldl_nil, if_true, ht]

theorem State.anyPoison_line (hlen : 1 ≤ a.len) (hline : a.addr / 128 = (a.addr + a.len - 1) / 128) :
    s.anyPoison a.addr a.len = s.poisoned a.addr := by
  rw [State.anyPoison, if_neg (by omega), ← hline, Nat.add_sub_cancel_left]
  simp [State.poisoned]

/-- A read of a line that its check leaves right, off a stack that serves, answers the bytes with the line's mark. -/
theorem State.homeAccess_read_right {q b m k : Nat} (hd : a.data = none) (hlen : 1 ≤ a.len)
    (hline : a.addr / 128 = (a.addr + a.len - 1) / 128) (hr : s.reaches a.req a.addr a.len = true)
    (ht : s.lineRead (a.addr / 128 * 128) (a.addr - a.addr / 128 * 128) (a.addr + a.len - a.addr / 128 * 128) = s.count q b m k)
    (hstack : ∀ w o, homeOf (a.addr / 128 * 128) = .warehouse w o → s.stackFailed w = false) :
    s.homeAccess a = (s.count q b m k).emit (.memData a.req (s.bytes a.addr a.len) (s.poisoned a.addr)) := by
  have hpoison : (s.count q b m k).readPoison a.addr a.len = s.poisoned a.addr := by
    rw [State.readPoison, State.anyPoison_line hlen hline, lines_one hlen hline, State.poisoned_of_poison (s := s) (by simp),
      List.any_cons, List.any_nil, Bool.or_false]
    split
    next w o hw => rw [State.count_stackFailed, hstack w o hw, Bool.or_false]
    next => rw [Bool.or_false]
  rw [State.homeAccess_read hd hlen hline hr ht, hpoison, State.bytes_of_mem (s := s) _ (by simp)]

end

/-- What the read of a right line answers and leaves. -/
def State.readsLine (s t : State) (a : HomeAccess) : Prop :=
  t.out = .memData a.req (s.bytes a.addr a.len) (s.poisoned a.addr) :: s.out ∧ t.home.mem = s.home.mem ∧ t.home.poison = s.home.poison

section
variable {s : State} {a : HomeAccess} {d : Bytes} {q w o : Nat} (hwf : a.wellFormed = true) (hr : s.reaches a.req a.addr a.len = true)
include hwf hr

theorem State.homeAccess_square_write (hq : homeOf a.addr = .square q o) (hd : a.data = some d)
    (hw : s.wrongBytes (a.addr / 128 * 128) = []) (hs : s.inSpill a.addr a.len = false)
    (hinj : s.injAt 0x01 (qUnit q 0) (fun x => decide (x / 128 = a.addr / 128 * 128 / 128)) = none) :
    s.stored (s.homeAccess a) a.addr a.len d a.poison := by
  obtain ⟨hlen, hline, hdata⟩ := HomeAccess.wellFormed_line hwf
  have hdl := hdata d hd
  rw [State.homeAccess_write hd hlen hline hdl hr hs, State.lineWrite, homeOf_line_square hq, ← hdl]
  exact State.squareWrite_stored rfl (by omega) (by omega) (by omega) hw hinj

theorem State.homeAccess_square_read (hq : homeOf a.addr = .square q o) (hd : a.data = none)
    (hw : s.wrongBytes (a.addr / 128 * 128) = []) : s.readsLine (s.homeAccess a) a := by
  obtain ⟨hlen, hline, _⟩ := HomeAccess.wellFormed_line hwf
  rw [State.homeAccess_read_right hd hlen hline hr (by rw [State.lineRead, homeOf_line_square hq]; exact State.squareRead_right hw)
    (by rw [homeOf_line_square hq]; simp)]
  exact ⟨congrArg _ (State.count_out _ _ _ _ _), by simp, by simp⟩

theorem State.homeAccess_warehouse_write (hq : homeOf a.addr = .warehouse w o) (hd : a.data = some d)
    (hw : lookD [] s.home.wrongSym (a.addr / 128 * 128 / 128) = []) (hs : s.inSpill a.addr a.len = false)
    (hstack : s.stackFailed w = false) : s.stored (s.homeAccess a) a.addr a.len d a.poison := by
  obtain ⟨hlen, hline, hdata⟩ := HomeAccess.wellFormed_line hwf
  have hdl := hdata d hd
  rw [State.homeAccess_write hd hlen hline hdl hr hs, State.lineWrite, homeOf_line_warehouse hq, ← hdl]
  exact State.whWrite_stored rfl (by omega) (by omega) (by omega) hw hstack

theorem State.homeAccess_warehouse_read (hq : homeOf a.addr = .warehouse w o) (hd : a.data = none)
    (hw : lookD [] s.home.wrongSym (a.addr / 128 * 128 / 128) = []) (hstack : s.stackFailed w = false)
    (hinj : s.injAt 0x02 (whUnit w) (fun x => decide (x / 128 = a.addr / 128 * 128 / 128)) = none) :
    s.readsLine (s.homeAccess a) a := by
  obtain ⟨hlen, hline, _⟩ := HomeAccess.wellFormed_line hwf
  rw [State.homeAccess_read_right hd hlen hline hr
    (by rw [State.lineRead, homeOf_line_warehouse hq]; exact State.whRead_right _ hw hinj)
    (fun w' o' h => by rw [homeOf_line_warehouse hq] at h; cases h; exact hstack)]
  exact ⟨congrArg _ (State.count_out _ _ _ _ _), by simp, by simp⟩

end

theorem execSquareAccess_right {s : State} {q : Qn} {a : HomeAccess} {o : Nat} (hq : homeOf a.addr = .square q.val o)
    (hup : a.upset = []) (hw : s.wrongBytes a.addr = []) :
    exec (.squareAccess q a) s = .next ((s.setWrong a.addr []).homeAccess a) := by
  show execSquareAccess q a s = _
  simp [execSquareAccess, hq, hup, hw]

/-- The state in which a Warehouse line's table of wrong symbols is empty. -/
def State.rightSyms (s : State) (a : Nat) : State := { s with home := { s.home with wrongSym := putD [] s.home.wrongSym (a / 128) [] } }

theorem execWarehouseAccess_right {s : State} {w : Fin 12} {a : HomeAccess} {o : Nat} (hq : homeOf a.addr = .warehouse w.val o)
    (hup : a.upset = []) (hw : lookD [] s.home.wrongSym (a.addr / 128) = []) :
    exec (.warehouseAccess w a) s = .next ((s.rightSyms a.addr).homeAccess a) := by
  show execWarehouseAccess w a s = _
  simp [execWarehouseAccess, hq, hup, hw, State.rightSyms]

/-- Settles O16: an access of a line that is right is one write or one read of that line. -/
theorem homeAccesses : Obligations.HomeAccesses := by
  refine ⟨fun s q a o hq hwf hup hw hr hinj => ?_, fun s w a o hq hwf hup hw hr hstack hinj => ?_⟩
  · have hwu : (s.setWrong a.addr []).wrongBytes (a.addr / 128 * 128) = [] := by
      simp [State.wrongBytes, State.setWrong]
    rw [← Nat.mul_div_cancel (a.addr / 128) (show 0 < 128 by decide)] at hinj
    exact ⟨fun d hd hs => ⟨_, execSquareAccess_right hq hup hw, State.homeAccess_square_write hwf hr hq hd hwu hs hinj⟩,
      fun hd => ⟨_, execSquareAccess_right hq hup hw, State.homeAccess_square_read hwf hr hq hd hwu⟩⟩
  · have hwu : lookD [] (s.rightSyms a.addr).home.wrongSym (a.addr / 128 * 128 / 128) = [] := by
      simp [State.rightSyms]
    rw [← Nat.mul_div_cancel (a.addr / 128) (show 0 < 128 by decide)] at hinj
    exact ⟨fun d hd hs => ⟨_, execWarehouseAccess_right hq hup hw, State.homeAccess_warehouse_write hwf hr hq hd hwu hs hstack⟩,
      fun hd => ⟨_, execWarehouseAccess_right hq hup hw, State.homeAccess_warehouse_read hwf hr hq hd hwu hstack hinj⟩⟩

end Sys2Proof.Machine
end

