-- ==== Sys2Proof/Proofs/HomeErrors.lean ====
section
/-!
SUPPORT. Accesses that move nothing (R38, R489), the correction of a code group (R245), a scrub of a right line (R258) and the pool (R246).
-/
namespace Sys2Proof.Machine

/-! ### Accesses that move nothing -/

section
variable {s : State} {a : HomeAccess} {d : Bytes} {q : Qn} {o : Nat}

/-- R38: no line of a hole is reached. -/
theorem State.reaches_hole {req addr n : Nat} (hn : 1 ≤ n) (hline : addr / 128 = (addr + n - 1) / 128) (hh : homeOf addr = .hole) :
    s.reaches req addr n = false := by
  rw [State.reaches, lines_one hn hline]
  simp [isMem, homeOf_line_hole hh]

theorem execSquareAccess_hole (hh : homeOf a.addr = .hole) : exec (.squareAccess q a) s = .next (s.homeAccess a) := by
  show execSquareAccess q a s = _
  simp only [execSquareAccess, hh]

theorem State.homeAccess_hole_read (hwf : a.wellFormed = true) (hh : homeOf a.addr = .hole) (hd : a.data = none) :
    s.homeAccess a = (s.hole (s.reqPrec a.req) a.req a.addr a.asid).emit (.memData a.req (List.replicate a.len 0#8) true) := by
  obtain ⟨hlen, hline, _⟩ := HomeAccess.wellFormed_line hwf
  simp only [State.homeAccess, hd, State.readMem, State.reaches_hole hlen hline hh, hh, Bool.false_eq_true, if_false]

theorem State.homeAccess_hole_write (hwf : a.wellFormed = true) (hh : homeOf a.addr = .hole) (hd : a.data = some d) :
    s.homeAccess a = (s.hole (s.reqPrec a.req) a.req a.addr a.asid).emit (.memFault a.req) := by
  obtain ⟨hlen, hline, hdata⟩ := HomeAccess.wellFormed_line hwf
  simp only [State.homeAccess, hd, State.writeMem, hdata d hd, State.reaches_hole hlen hline hh, hh, Bool.false_eq_true, if_false, if_true]

/-- R489: a write into an active spill area is an error of its requester and stores nothing. -/
theorem State.homeAccess_spill (hwf : a.wellFormed = true) (hd : a.data = some d) (hr : s.reaches a.req a.addr a.len = true)
    (hs : s.inSpill a.addr a.len = true) : s.homeAccess a =
      (s.recordErr 2 0x11 (if a.asid = 0 then 0xFF else s.reqPrec a.req) a.req 1 a.addr a.asid false).emit (.memFault a.req) := by
  obtain ⟨_, _, hdata⟩ := HomeAccess.wellFormed_line hwf
  simp only [State.homeAccess, hd, State.writeMem, hdata d hd, hr, hs, if_true]

end

/-! ### Correction of a code group -/

section
variable {s : State} {q a g : Nat}

theorem State.linePrec_of_xim {t : State} (ht : t.xim = s.xim) : t.linePrec a = s.linePrec a := by
  rw [State.linePrec, State.carveOf, ht, State.linePrec, State.carveOf]

theorem State.squareGroup_none (hk : ((s.wrongBytes a).filter fun i => grpOf i = g).length = 0) : s.squareGroup q a g = s := by
  simp only [State.squareGroup, hk, ite_self]

variable (hp : s.poisoned a = false)
include hp

/-- One wrong byte is put right, and recorded. -/
theorem State.squareGroup_one (hk : ((s.wrongBytes a).filter fun i => grpOf i = g).length = 1) :
    s.squareGroup q a g = ((s.setWrong a ((s.wrongBytes a).filter fun i => grpOf i ≠ g)).count q 45 2 1).recordErr 1 0x01 (s.linePrec a)
      (qUnit q 0) 1 (a / 128 * 128) 0 (look s.home.injLines (a / 128)).isSome := by
  simp only [State.squareGroup, hp, hk, Bool.false_eq_true, if_false]
  rfl

/-- More wrong bytes make the line uncorrectable. -/
theorem State.squareGroup_more (hk : 2 ≤ ((s.wrongBytes a).filter fun i => grpOf i = g).length) :
    s.squareGroup q a g = (((s.setWrong a []).count q 45 3 1).markLine a).report (if inSystem a then 4 else 2) 0x01 (s.linePrec a)
      (qUnit q 0) 0 (a / 128 * 128) 0 (look s.home.injLines (a / 128)).isSome := by
  simp only [State.squareGroup, hp, Bool.false_eq_true, if_false]
  split
  · omega
  · omega
  · rw [State.uncorrectable, State.linePrec_of_xim (s := s) (by simp [State.setWrong])]

end

/-! ### A scrub of a right line -/

/-- The pass after a line: it goes on at the next line, or ends with its counters clear. -/
def State.scrubbed (s : State) (w k line : Nat) (last : Bool) : State :=
  let s := { s with home := { s.home with wrongSym := drop s.home.wrongSym k, scrubAt := put s.home.scrubAt w (line + 1) } }
  if last then
    { s with home := { s.home with
      dieCount := s.home.dieCount.filter (fun x => !(List.range 18).any fun d => key2 w d = x.1),
      dieNat := s.home.dieNat.filter (fun x => !(List.range 18).any fun d => key2 w d = x.1),
      pageCount := s.home.pageCount.filter (fun x => decide (x.1 / 2 ^ 24 ≠ w)),
      scrubAt := put s.home.scrubAt w 0 } }
  else s

section
variable {s : State} {w : Fin 12} {line : Nat} {last : Bool}

theorem execWarehouseScrub_off (hen : s.fbit ⟨.whCtrl, w.val, 0⟩ F.whCtrl_SCRUB_ENABLE = false) :
    exec (.warehouseScrub w line [] last) s = .next s := by
  show execWarehouseScrub w line [] last s = _
  rw [execWarehouseScrub, hen]
  rfl

/-- R258: a right line is read, and the pass goes on. -/
theorem execWarehouseScrub_right (hen : s.fbit ⟨.whCtrl, w.val, 0⟩ F.whCtrl_SCRUB_ENABLE = true) (hl : line < 2 ^ 29)
    (hw : lookD [] s.home.wrongSym ((whBase w.val + line * 128) / 128) = [])
    (hinj : s.injAt 0x02 (whUnit w.val) (fun x => decide (x / 128 = (whBase w.val + line * 128) / 128)) = none) :
    exec (.warehouseScrub w line [] last) s =
      .next ((((s.rightSyms (whBase w.val + line * 128)).count (w.val / 3) (52 + w.val % 3) 0 0).count (w.val / 3) (52 + w.val % 3) 4 1).scrubbed
        w.val ((whBase w.val + line * 128) / 128) line last) := by
  have hread : (s.rightSyms (whBase w.val + line * 128)).whRead w.val (whBase w.val + line * 128) 0 =
      (s.rightSyms (whBase w.val + line * 128)).count (w.val / 3) (52 + w.val % 3) 0 0 :=
    State.whRead_right 0 (by simp [State.rightSyms]) hinj
  show execWarehouseScrub w line [] last s = _
  rw [← hread]
  simp only [execWarehouseScrub, hen, Nat.not_le.mpr hl, List.map_nil, List.append_nil, hw, Bool.not_true, decide_false,
    Bool.or_self, Bool.false_eq_true, if_false]
  cases last <;> rfl

end

/-- At the end of a pass no die of the Warehouse has a count. -/
theorem look_filter_dieCount (t : Tab Nat) {w d : Nat} (hd : d < 18) :
    look (t.filter fun x => !(List.range 18).any fun d => key2 w d = x.1) (key2 w d) = none := by
  cases hl : look (t.filter fun x => !(List.range 18).any fun d => key2 w d = x.1) (key2 w d) with
  | none => rfl
  | some v =>
    have hmem := (List.mem_filter.mp (mem_of_look hl)).2
    simp only [Bool.not_eq_true', List.any_eq_false, List.mem_range, decide_eq_true_eq] at hmem
    exact absurd rfl (hmem d hd)

/-! ### The pool of a Square -/

section
variable {s : State} {q who : Nat}

theorem State.poolAsk_free (hfree : (lookD [] s.home.poolUsed q).length < 8192) (hwait : lookD [] s.home.poolWait q = []) :
    s.poolAsk q who = { s with home := { s.home with
      poolUsed := put s.home.poolUsed q (who :: lookD [] s.home.poolUsed q), poolWait := putD [] s.home.poolWait q [] } } := by
  simp only [State.poolAsk, hwait]
  rw [if_pos ⟨hfree, .inl rfl⟩]
  rfl

theorem State.poolAsk_full (hfull : 8192 ≤ (lookD [] s.home.poolUsed q).length) (hwait : (lookD [] s.home.poolWait q).contains who = false) :
    s.poolAsk q who = ({ s with home := { s.home with
      poolWait := put s.home.poolWait q (lookD [] s.home.poolWait q ++ [who]) } } : State).count q 45 4 1 := by
  simp only [State.poolAsk, hwait]
  rw [if_neg fun h => Nat.not_lt.mpr hfull h.1]
  rfl

end

/-- Settles O17: each row is the case of the hole, the spill area, the group, the scrub or the pool that the state makes it meet. -/
theorem homeErrorsAndPool : Obligations.HomeErrorsAndPool := by
  refine ⟨fun s q a hwf hup => ⟨fun hh hd => ?_, fun d hh hd => ?_, fun d o hq hd hw hr hs => ?_⟩, fun s q a g hp => ⟨?_, ?_, ?_⟩,
    fun s w line last q who => ⟨fun hen hl hw hinj => ⟨_, execWarehouseScrub_right hen hl hw hinj, ?_⟩, execWarehouseScrub_off,
      fun hfree hwait => ⟨_, rfl, ?_⟩, fun hfull hwait => ⟨_, rfl, ?_⟩⟩⟩
  · rw [execSquareAccess_hole hh, State.homeAccess_hole_read hwf hh hd]
  · rw [execSquareAccess_hole hh, State.homeAccess_hole_write hwf hh hd]
  · refine ⟨s.setWrong a.addr [], rfl, rfl, ?_⟩
    exact (execSquareAccess_right hq hup hw).trans (congrArg Host.Outcome.next (State.homeAccess_spill hwf hd hr hs))
  · exact State.squareGroup_none
  · exact fun hk => ⟨_, by simp [State.setWrong], by simp [State.setWrong, State.wrongBytes]; rfl, State.squareGroup_one hp hk⟩
  · exact fun hk => ⟨_, by simp [State.setWrong, State.markLine], State.poisoned_markLine _ rfl, State.squareGroup_more hp hk⟩
  · cases last with
    | false => exact ⟨by simp [State.scrubbed], State.memSame_of_mem (by simp [State.scrubbed, State.rightSyms]),
        by simp [State.scrubbed, State.rightSyms], nofun⟩
    | true => exact ⟨by simp [State.scrubbed], State.memSame_of_mem (by simp [State.scrubbed, State.rightSyms]),
        by simp [State.scrubbed, State.rightSyms], fun _ d hd => look_filter_dieCount _ hd⟩
  · rw [State.poolAsk_free hfree hwait]
    exact ⟨by simp [lookD], by simp, rfl⟩
  · rw [State.poolAsk_full hfull hwait]
    simp [lookD]

end Sys2Proof.Machine
end

