-- ==== Sys2Proof/Proofs/Surveyors.lean ====
section
/-!
SUPPORT. The Surveyor: what its commands answer as the walk ends, what a leaf decides (R262, R263, R267, R268), and the other rows (R264,
R266, R270).
-/
namespace Sys2Proof.Machine

/-! ### Answers -/

section
variable {s u : State} {q : Nat} {a : VAccess} {tgt pa link : Nat}

theorem State.answer_ok (h : s.translate q a = (u, .ok tgt pa link)) : s.answer q a = u.emit (.granted a tgt pa link) := by
  rw [State.answer, h]

theorem State.answer_deny (h : s.translate q a = (u, .deny)) : s.answer q a = u.emit (.denied a) := by
  rw [State.answer, h]

theorem State.answer_held (h : s.translate q a = (u, .held)) : s.answer q a = u.emit (.heldAccess a) := by
  rw [State.answer, h]

/-- R260: a virtual address has 48 bits. -/
theorem State.translate_beyond (hva : 2 ^ 48 ≤ a.va) (hf : (s.surveyor q).failed.contains a = false) :
    s.translate q a = (s, .deny) := by
  simp only [State.translate, hf, Bool.false_eq_true, if_false]
  rw [if_pos (.inl hva)]

end

/-! ### Leaves -/

section
variable {s : State} {q e level : Nat} {ctx : Bytes} {a : VAccess} {write : Bool}

/-- R267: an access that the leaf does not allow faults at once where D is clear and is held where it is set. -/
theorem leafFault_refused (h : (if write then nbit e 3 else nbit e 2) = false) :
    leafFault e write = some (if nbit e 5 then (if write then 3 else 1) else 0) := by
  cases write with
  | false => rw [if_neg (by decide)] at h; simp [leafFault, h]
  | true => rw [if_pos rfl] at h; simp [leafFault, h]

theorem leafFault_allowed (h : (if write then nbit e 3 else nbit e 2) = true) (hc : write = false ∨ nbit e 4 = false) :
    leafFault e write = none := by
  rw [leafFault_eq_none_iff]
  cases write with
  | false => exact h
  | true => exact ⟨h, hc.resolve_left (by decide)⟩

theorem State.leafAccess_unarmed (hf : leafFault e a.write = none) (ht : e / 2 ^ 60 ≠ 0) (ha : armsChannel a.req = false) :
    s.leafAccess q e level ctx a = (s, .deny) := by
  obtain ⟨n, hn⟩ := Nat.exists_eq_succ_of_ne_zero ht
  simp only [State.leafAccess, hf, hn, ha, Bool.not_false, if_true]

theorem State.leafAccess_causeway (hf : leafFault e a.write = none) (ht : e / 2 ^ 60 = 3) (ha : armsChannel a.req = true) :
    s.leafAccess q e level ctx a = (s, .ok 3 (pteAddr e + a.va % 2 ^ leafShift e level) (nbits e 11 8)) := by
  simp only [State.leafAccess, hf, ht, ha, Bool.not_true, Bool.false_eq_true, if_false, if_true]

theorem State.leafAccess_device_iff (hf : leafFault e a.write = none) (ht : e / 2 ^ 60 = 0) : s.leafAccess q e level ctx a =
    if a.asid = 0 ∨ s.carveHolds (leAt ctx 8 1) (pteAddr e) (2 ^ leafShift e level) then
      (s, .ok 0 (pteAddr e + a.va % 2 ^ leafShift e level) 0) else (s, .deny) := by
  simp only [State.leafAccess, hf, ht]

end

/-- Settles O18: the answer follows the walk's end, and a leaf is decided by its R, W, C and D bits and its target. -/
theorem surveyorDecisions : Obligations.SurveyorDecisions := by
  refine ⟨fun s u q a => ⟨fun tgt pa link h => congrArg Host.Outcome.next (State.answer_ok h),
    fun h => congrArg Host.Outcome.next (State.answer_deny h), fun h => congrArg Host.Outcome.next (State.answer_held h),
    fun hva hf => congrArg Host.Outcome.next (State.answer_deny (State.translate_beyond hva hf))⟩, fun s q e level ctx a => ?_⟩
  intro allowed pa
  refine ⟨fun hno hd => State.leafAccess_of_fault_zero ?_, fun hno hd => ?_, fun hyes hw hc => State.leafAccess_of_fault_succ ?_,
    fun hyes hc => ?_⟩
  · rw [leafFault_refused hno, hd]; rfl
  · have hf := leafFault_refused hno
    rw [hd, if_pos rfl] at hf
    cases hw : a.write with
    | false => rw [hw] at hf; exact State.leafAccess_of_fault_succ (hw ▸ hf)
    | true => rw [hw] at hf; exact State.leafAccess_of_fault_succ (hw ▸ hf)
  · rw [hw, leafFault_write_marked (by simpa [allowed, hw] using hyes) hc]
  · have hf := leafFault_allowed hyes hc
    exact ⟨State.leafAccess_device_iff hf, State.leafAccess_unarmed hf, State.leafAccess_causeway hf⟩

/-! ### The other rows -/

@[simp] theorem State.surveyor_setSurveyor_same (s : State) (q : Nat) (x : SurvSt) : (s.setSurveyor q x).surveyor q = x := by
  show lookD {} (putD {} s.surv q x) q = x
  simp

section
variable {s : State} {q : Qn} {rq : Requester} {asid : BitVec 12} {page host : Nat} {rd wr : Bool} {as : List VAccess} {v : W64}
  {id : Fin 256}

theorem execSurveyorAtsResponse_translation (hw : look (s.surveyor q.val).atsWait (key2 asid.toNat page) = some as)
    (ha : look (s.surveyor q.val).ats (key2 asid.toNat page) = none) :
    exec (.surveyorAtsResponse q asid page (.translation host rd wr)) s = .next ((s.setSurveyor q.val { s.surveyor q.val with
      atsWait := drop (s.surveyor q.val).atsWait (key2 asid.toNat page)
      ats := put (s.surveyor q.val).ats (key2 asid.toNat page) (host / 4096 * 4096, rd, wr) }).resumeAll q.val as) := by
  show execSurveyorAtsResponse q asid page (.translation host rd wr) s = _
  simp only [execSurveyorAtsResponse, hw, ha, Option.isSome_none, Bool.false_eq_true, if_false]

theorem execSurveyorAtsResponse_refused (hw : look (s.surveyor q.val).atsWait (key2 asid.toNat page) = some as)
    (hp : (look (s.surveyor q.val).pri (key2 asid.toNat page)).isSome = true) :
    exec (.surveyorAtsResponse q asid page (.pri false)) s = .next ((s.setSurveyor q.val { s.surveyor q.val with
      atsWait := drop (s.surveyor q.val).atsWait (key2 asid.toNat page)
      ats := drop (s.surveyor q.val).ats (key2 asid.toNat page)
      pri := drop (s.surveyor q.val).pri (key2 asid.toNat page) }).failAll q.val as) := by
  obtain ⟨w, hw'⟩ := Option.isSome_iff_exists.mp hp
  show execSurveyorAtsResponse q asid page (.pri false) s = _
  simp only [execSurveyorAtsResponse, hw, hw', Option.isNone_some, Bool.false_eq_true, if_false]

theorem execSurveyorAtsResponse_unawaited {r : AtsAnswer} (hw : look (s.surveyor q.val).atsWait (key2 asid.toNat page) = none) :
    exec (.surveyorAtsResponse q asid page r) s = .next s := by
  show execSurveyorAtsResponse q asid page r s = _
  simp only [execSurveyorAtsResponse, hw]

/-- R266: an invalidation is a kernel core's, of a defined scope. -/
theorem State.invalidate_refused (h : rqKernel rq = false ∨ bitsOf v F.surveyorInval_SCOPE = 3) :
    s.invalidate rq q.val v = s.strayCode (rqCode rq) 2 (Reg.offset ⟨.surveyorInval, q.val, 0⟩) := by
  simp only [State.invalidate]
  exact if_pos (by simpa using h)

end

/-- An invalidation drops what it covers at once, and joins those in progress. -/
theorem State.invalidate_accepted {s : State} {q : Qn} {rq : Requester} {v : W64} (hk : rqKernel rq = true)
    (hsc : bitsOf v F.surveyorInval_SCOPE ≠ 3) : s.invalidate rq q.val v = s.setSurveyor q.val { s.surveyor q.val with
      tlb := (s.surveyor q.val).tlb.filter fun e =>
        !invalHits (bitsOf v F.surveyorInval_SCOPE) (bitsOf v F.surveyorInval_ASID) (bitsOf v F.surveyorInval_VA) e.1
      ats := (s.surveyor q.val).ats.filter fun e => !(match bitsOf v F.surveyorInval_SCOPE with
        | 0 => decide ((Nat.unpair e.1).1 = bitsOf v F.surveyorInval_ASID ∧ (Nat.unpair e.1).2 = bitsOf v F.surveyorInval_VA)
        | 1 => decide ((Nat.unpair e.1).1 = bitsOf v F.surveyorInval_ASID)
        | _ => true)
      inval := (s.surveyor q.val).inval ++
        [(bitsOf v F.surveyorInval_SCOPE, bitsOf v F.surveyorInval_ASID, bitsOf v F.surveyorInval_VA)] } := by
  exact if_neg (by simp [hk, hsc])

theorem State.surveyor_of_surv {s t : State} {q : Nat} (h : t.surv = s.surv) : t.surveyor q = s.surveyor q := by
  rw [State.surveyor, h, State.surveyor]

/-- With no channel in use no burst holds an invalidation up. -/
theorem execSurveyorInvalDone_quiet {s : State} {q : Qn} {iv : Nat × Nat × Nat} {rest : List (Nat × Nat × Nat)}
    (hi : (s.surveyor q.val).inval = iv :: rest) (hc : s.porter.chans = []) : exec (.surveyorInvalDone q) s =
      .next (((s.setSurveyor q.val { s.surveyor q.val with inval := rest }).fwrap ⟨.surveyorInvalDone, q.val, 0⟩
        F.surveyorInvalDone_COUNT 1).count q.val 44 2 1) := by
  have hflight (c : Nat) : (s.chan c).flight = [] := by simp [State.chan, hc]
  show execSurveyorInvalDone q s = _
  simp [execSurveyorInvalDone, hi, hflight]

/-- Settles O20: each row is its case, and the record that a resolve frees is gone. -/
theorem surveyorRows : Obligations.SurveyorRows := by
  refine ⟨fun s q rq asid page host rd wr as v id => ⟨execSurveyorAtsResponse_translation, execSurveyorAtsResponse_refused,
    execSurveyorAtsResponse_unawaited, fun hk hsc => ⟨_, rfl, ?_⟩, fun h => congrArg Host.Outcome.next (State.invalidate_refused h),
    fun iv rest hi hc => ?_, fun hi => ?_, fun hk => ⟨congrArg Host.Outcome.next (if_pos hk), congrArg Host.Outcome.next (if_pos hk)⟩,
    fun hk => ⟨congrArg Host.Outcome.next (if_neg (by simp [hk])), congrArg Host.Outcome.next (if_neg (by simp [hk]))⟩,
    fun r hr ho hk => ?_⟩, fun s rq q id r => ⟨fun hr b => ?_, fun hr hk ho => ⟨?_, ?_⟩, ?_⟩⟩
  · rw [State.invalidate_accepted hk hsc]
    refine ⟨by simp, fun e he => ?_, fun h2 => ?_, by simp, rfl⟩
    · simpa [and_comm] using he
    · simp [h2]
  · rw [execSurveyorInvalDone_quiet hi hc]
    refine ⟨_, rfl, ?_, ?_⟩
    · simp [State.surveyor_of_surv (State.count_surv _ _ _ _ _), State.surveyor_of_surv (State.fwrap_surv _ _ _ _)]
    · rw [State.count_fget _ _ _ _ _ _ (by simp), State.fwrap, State.fget_fset_same _ _ (by decide)]
      exact Nat.mod_mod _ _
  · show execSurveyorInvalDone q s = _
    simp only [execSurveyorInvalDone, hi]
  · show execSurveyorFaultTimeout q id s = _
    simp [execSurveyorFaultTimeout, hr, ho, hk]
  · simp only [State.resolve, hr]
    rfl
  · simp only [State.resolve, hr, if_neg hk, ho]
    rfl
  · simp only [State.resolve, hr, if_neg hk, ho]
    rfl
  · simp

end Sys2Proof.Machine
end

