-- ==== Sys2Proof/Proofs/BellCounters.lean ====
section
/-!
SUPPORT. Counter operations (R300 to R305): the part of the state that a Bell unit decides by, what each operation makes of it, and the
release of the waiter at a queue's head. Settles O21.
-/
namespace Sys2Proof.Machine

/-! ### What a Bell unit decides by -/

/-- The counters, their queues and the waits met and held, with what an operation at a counter leaves alone. -/
@[ext] structure CtrView where
  count : Nat → Nat
  priv : Nat → Bool
  busy : Nat → Bool
  queue : Nat → List Waiter
  met : List WaitSrc
  held : List (Nat × Waiter)
  out : List Out
  home : HomeSt

/-- Counter `k` holds `v`. -/
def CtrView.setCount (w : CtrView) (k v : Nat) : CtrView := { w with count := Function.update w.count k v }

/-- The queue of counter `k` is `ws`. -/
def CtrView.setQueue (w : CtrView) (k : Nat) (ws : List Waiter) : CtrView := { w with queue := Function.update w.queue k ws }

@[simp] theorem CtrView.setCount_priv (w : CtrView) (k v : Nat) : (w.setCount k v).priv = w.priv := rfl

@[simp] theorem CtrView.setCount_busy (w : CtrView) (k v : Nat) : (w.setCount k v).busy = w.busy := rfl

@[simp] theorem CtrView.setCount_queue (w : CtrView) (k v : Nat) : (w.setCount k v).queue = w.queue := rfl

@[simp] theorem CtrView.setCount_count (w : CtrView) (k v : Nat) : (w.setCount k v).count k = v := Function.update_self ..

@[simp] theorem CtrView.setQueue_queue (w : CtrView) (k : Nat) (ws : List Waiter) : (w.setQueue k ws).queue k = ws :=
  Function.update_self ..

/-- What the Bell units of a state decide by. -/
def State.ctrView (s : State) : CtrView where
  count := s.count24
  priv := s.privileged
  busy := s.snapBusy
  queue := s.queue
  met := s.bell.met
  held := s.bell.held
  out := s.out
  home := s.home

/-- The registers that the view reads. -/
def ctrNames : List RegName := [.bellCntValue, .bellCntCfg, .bellSnapCtrl]

theorem State.ctrView_congr {s t : State} (hb : t.bell = s.bell) (ho : t.out = s.out) (hh : t.home = s.home)
    (hr : ∀ r : Reg, r.name ∈ ctrNames → t.rd r = s.rd r) : t.ctrView = s.ctrView := by
  have hget {r : Reg} (f : Fld) (h : r.name ∈ ctrNames) : t.fget r f = s.fget r f := by rw [State.fget, hr r h, State.fget]
  ext1
  case count => exact funext fun k => hget _ (by simp [ctrNames, ctrReg])
  case priv => exact funext fun k => congrArg (decide <| · = 1) (hget _ (by simp [ctrNames, ctrCfg]))
  case busy => exact funext fun q => congrArg (decide <| · = 1) (hget _ (by simp [ctrNames]))
  case queue => exact funext fun k => by simp only [State.ctrView, State.queue, hb]
  all_goals simp only [State.ctrView, hb, ho, hh]

section
variable (s : State) (k : Nat) {r : Reg}

theorem State.ctrView_wr (v : W64) (h : r.name ∉ ctrNames) : (s.wr r v).ctrView = s.ctrView :=
  State.ctrView_congr (by simp) (by simp) (by simp) fun _ hr' => rd_wr_ne _ _ fun e => h (e ▸ hr')

theorem State.ctrView_fset (f : Fld) (v : Nat) (h : r.name ∉ ctrNames) : (s.fset r f v).ctrView = s.ctrView :=
  State.ctrView_wr _ _ h

@[simp] theorem State.ctrView_count (q b n d : Nat) : (s.count q b n d).ctrView = s.ctrView :=
  State.ctrView_congr (by simp) (by simp) (by simp) fun _ hr => State.count_rd _ _ _ _ _ fun e => by
    simp [ctrNames, e] at hr

@[simp] theorem State.ctrView_book (sig con : Nat) : (s.book k sig con).ctrView = s.ctrView := rfl

@[simp] theorem State.ctrView_rebook (v : Nat) : (s.rebook k v).ctrView = s.ctrView := rfl

theorem ctrReg_inj {j : Nat} (h : ctrReg j = ctrReg k) : j = k := by
  simp only [ctrReg, Reg.mk.injEq] at h
  omega

/-- A write of a field of a counter's value, but for the counts. -/
theorem State.ctrView_fset_value (f : Fld) (v : Nat) :
    (s.fset (ctrReg k) f v).ctrView = { s.ctrView with count := (s.fset (ctrReg k) f v).count24 } := by
  ext1 <;> simp only [State.ctrView, State.fset_bell, State.fset_out, State.fset_home]
  case priv => exact funext fun j => congrArg (decide <| · = 1) (State.fget_fset_ne _ _ (by simp [ctrCfg, ctrReg]))
  case busy => exact funext fun j => congrArg (decide <| · = 1) (State.fget_fset_ne _ _ (by simp [ctrReg]))
  case queue => exact funext fun j => by simp only [State.queue, State.fset_bell]

theorem State.count24_lt : s.count24 k ≤ ctrMax := by
  have h := State.fget_lt (s := s) (r := ctrReg k) (f := F.bellCntValue_COUNT)
  rw [show 2 ^ F.bellCntValue_COUNT.width = ctrMax + 1 by decide] at h
  exact Nat.le_of_lt_succ h

theorem State.ctrView_setCount {v : Nat} (h : v ≤ ctrMax) :
    (s.setCount k v).ctrView = s.ctrView.setCount k v := by
  rw [State.setCount, State.ctrView_fset_value]
  refine congrArg (fun c => { s.ctrView with count := c }) (funext fun j => ?_)
  obtain rfl | hj := eq_or_ne j k
  · rw [Function.update_self, State.count24, State.fget_fset_same _ _ (by decide)]
    exact Nat.mod_eq_of_lt (show v < 2 ^ 24 by change v ≤ 16777215 at h; omega)
  · rw [Function.update_of_ne hj, State.count24, State.fget_fset_ne _ _ fun e => hj (ctrReg_inj _ e)]
    rfl

theorem State.queue_put (ws : List Waiter) (j : Nat) :
    lookD [] (putD [] s.bell.queue k ws) j = Function.update s.queue k ws j := by
  obtain rfl | hj := eq_or_ne j k
  · simp
  · rw [Function.update_of_ne hj, lookD_putD_ne _ _ _ hj, State.queue]

theorem State.ctrView_setQueue (ws : List Waiter) :
    (s.setQueue k ws).ctrView = s.ctrView.setQueue k ws := by
  rw [State.setQueue, State.ctrView_fset_value]
  ext1
  case count =>
    funext j
    obtain rfl | hj := eq_or_ne j k
    · exact State.fget_fset_apart _ _ (by decide)
    · exact State.fget_fset_ne _ _ fun e => hj (ctrReg_inj _ e)
  case queue => exact funext (State.queue_put s k ws)
  all_goals rfl

/-! ### Ordinary counters -/

theorem State.bellInject_ordinary (h : s.privileged k = false) : s.bellInject k = s :=
  if_neg (by simp [h])

theorem State.ctrView_bellInject {s : State} {k : Nat} (h : s.ctrView.priv k = false) :
    (s.bellInject k).ctrView = s.ctrView :=
  congrArg State.ctrView (State.bellInject_ordinary s k h)

/-- A saturation of an ordinary counter is recorded in registers only (R305). -/
theorem State.ctrView_saturate {s : State} {k : Nat} (high : Bool) (op n src : Nat) (h : s.ctrView.priv k = false) :
    (s.saturate k high op n src).ctrView = s.ctrView := by
  have hview (f : Fld) (v : Nat) (w : W64) : (((s.fset (ctrStatus k) f v).wr ⟨.bellSatLast, k / 4096, 0⟩ w).count
      (k / 4096) 43 2 1).ctrView = s.ctrView := by
    rw [State.ctrView_count, State.ctrView_wr _ _ (by simp [ctrNames]), State.ctrView_fset _ _ _ (by simp [ctrNames, ctrStatus])]
  simp only [State.saturate]
  rw [if_neg, hview]
  rw [Bool.not_eq_true]
  exact (congrArg (fun v => v.priv k) (hview _ _ _)).trans h

end

/-! ### What each operation makes of an ordinary counter -/

section
variable {s : State} {k n src : Nat} (hp : s.ctrView.priv k = false)
include hp

theorem State.ctrView_doSignal : (s.doSignal k n src).ctrView = s.ctrView.setCount k (min (s.count24 k + n) ctrMax) := by
  have hinject := State.ctrView_bellInject (s := ((s.setCount k (min (s.count24 k + n) ctrMax)).book k
    (min (s.count24 k + n) ctrMax - s.count24 k) 0).count (k / 4096) 43 0 1) (k := k)
    (by simp [State.ctrView_setCount, hp])
  simp only [State.ctrView_count, State.ctrView_book, State.ctrView_setCount _ _ (min_le_right _ ctrMax)] at hinject
  simp only [State.doSignal]
  split
  · rw [State.ctrView_saturate _ _ _ _ (by simpa [hinject]), hinject]
  · exact hinject

theorem State.ctrView_doDebit : (s.doDebit k n src).ctrView = s.ctrView.setCount k (s.count24 k - n) := by
  have hle : s.count24 k - n ≤ ctrMax := (Nat.sub_le _ _).trans (s.count24_lt k)
  have hinject := State.ctrView_bellInject (s := ((s.setCount k (s.count24 k - n)).book k 0
    (min (s.count24 k) n)).count (k / 4096) 43 0 1) (k := k) (by simp [State.ctrView_setCount _ _ hle, hp])
  simp only [State.ctrView_count, State.ctrView_book, State.ctrView_setCount _ _ hle] at hinject
  simp only [State.doDebit]
  split
  · rw [State.ctrView_saturate _ _ _ _ (by simpa [hinject]), hinject]
  · exact hinject

theorem State.ctrView_consume : (s.consume k n).ctrView = s.ctrView.setCount k (s.count24 k - n) := by
  have hle : s.count24 k - n ≤ ctrMax := (Nat.sub_le _ _).trans (s.count24_lt k)
  rw [State.consume, State.ctrView_bellInject] <;> simp [State.ctrView_setCount _ _ hle, hp]

theorem State.ctrView_set (h : n ≤ ctrMax) : ((((s.setCount k n).rebook k n).count (k / 4096) 43 0 1).bellInject k).ctrView =
    s.ctrView.setCount k n := by
  rw [State.ctrView_bellInject] <;> simp [State.ctrView_setCount _ _ h, hp]

end

/-! ### Runs of operations -/

section
variable {s t u : State} {k : Nat} {op : BellOp}

/-- An operation that gives rise to no other is all that happens. -/
theorem State.bells_single (h : s.bellStep op = (t, [])) : s.bells [op] = t := by
  show State.bellRun 65535 ((s.bellStep op).2 ++ []) (s.bellStep op).1 = t
  rw [h]
  rfl

/-- An operation after which a head is looked at, and nothing is released. -/
theorem State.bells_heads (h : s.bellStep op = (t, [.heads k])) (hh : t.bellStep (.heads k) = (u, [])) : s.bells [op] = u := by
  show State.bellRun 65535 ((s.bellStep op).2 ++ []) (s.bellStep op).1 = u
  rw [h]
  show State.bellRun 65534 ((t.bellStep (.heads k)).2 ++ []) (t.bellStep (.heads k)).1 = u
  rw [hh]
  rfl

/-- An operation after which a head is looked at twice. -/
theorem State.bells_heads_twice {v : State} (h : s.bellStep op = (t, [.heads k])) (hh : t.bellStep (.heads k) = (u, [.heads k]))
    (hv : u.bellStep (.heads k) = (v, [])) : s.bells [op] = v := by
  show State.bellRun 65535 ((s.bellStep op).2 ++ []) (s.bellStep op).1 = v
  rw [h]
  show State.bellRun 65534 ((t.bellStep (.heads k)).2 ++ []) (t.bellStep (.heads k)).1 = v
  rw [hh]
  show State.bellRun 65533 ((u.bellStep (.heads k)).2 ++ []) (u.bellStep (.heads k)).1 = v
  rw [hv]
  rfl

section
variable {n src : Nat} (hb : s.ctrView.busy (k / 4096) = false)
include hb

theorem State.bellStep_signal : s.bellStep (.signal k n src) = (s.doSignal k n src, [.heads k]) :=
  if_neg (ne_true_of_eq_false hb)

theorem State.bellStep_debit : s.bellStep (.debit k n src) = (s.doDebit k n src, [.heads k]) :=
  if_neg (ne_true_of_eq_false hb)

theorem State.bellStep_set : s.bellStep (.set k n src) =
    ((((s.setCount k n).rebook k n).count (k / 4096) 43 0 1).bellInject k, [.heads k]) :=
  if_neg (ne_true_of_eq_false hb)

theorem State.bellStep_take : s.bellStep (.take k n src) =
    if (s.queue k).isEmpty && decide (n ≤ s.count24 k) then ((s.consume k n).count (k / 4096) 43 0 1, [])
    else (s.count (k / 4096) 43 0 1, []) :=
  if_neg (ne_true_of_eq_false hb)

theorem State.bellStep_wakeAll : s.bellStep (.wakeAll k) = s.doWakeAll k :=
  if_neg (ne_true_of_eq_false hb)

theorem State.bellStep_heads : s.bellStep (.heads k) = s.headStep k :=
  if_neg (ne_true_of_eq_false hb)

/-- No waiter in the queue: the look at its head changes nothing. -/
theorem State.bellStep_heads_empty (hq : s.ctrView.queue k = []) : s.bellStep (.heads k) = (s, []) := by
  change s.queue k = [] at hq
  rw [State.bellStep_heads hb, State.headStep, hq]

/-- Where COUNT does not suffice for the head, the queue is left as it is (R302). -/
theorem State.bellStep_heads_short {w : Waiter} {ws : List Waiter} (hq : s.ctrView.queue k = w :: ws)
    (hc : s.ctrView.count k < w.amount) : s.bellStep (.heads k) = (s, []) := by
  change s.queue k = _ at hq
  rw [State.bellStep_heads hb, State.headStep, hq]
  exact if_pos hc

end

/-- A unit holds no wait. -/
theorem State.unhold_none {q : Nat} (h : s.bell.held = []) : s.unhold q = (s, []) := by
  rw [State.unhold, h]
  simp only [List.filter_nil, List.map_nil, Prod.mk.injEq, and_true]
  rw [← h]

/-- A wait is met, and its source may go on. -/
def State.meet (s : State) (src : WaitSrc) : State := { s with bell := { s.bell with met := src :: s.bell.met } }

/-- A wait is met. -/
def CtrView.meet (w : CtrView) (src : WaitSrc) : CtrView := { w with met := src :: w.met }

/-- A task at the head whose count is met is released, and consumes it (R302). -/
theorem State.bellStep_heads_task {st m : Nat} {hung : Bool} {ws : List Waiter} (hb : s.ctrView.busy (k / 4096) = false)
    (hp : s.ctrView.priv k = false) (hq : s.ctrView.queue k = ⟨.task st, m, hung⟩ :: ws) (hc : m ≤ s.ctrView.count k)
    (hh : s.ctrView.held = []) : ∃ t, s.bellStep (.heads k) = (t, [.heads k]) ∧
      t.ctrView = ((s.ctrView.setCount k (s.ctrView.count k - m)).setQueue k ws).meet (.task st) := by
  change s.queue k = _ at hq
  have hview := State.ctrView_setQueue (s.consume k m) k ws
  rw [State.ctrView_consume hp] at hview
  have hheld : (((s.consume k m).setQueue k ws).meet (.task st)).bell.held = [] := (congrArg CtrView.held hview).trans hh
  refine ⟨((s.consume k m).setQueue k ws).meet (.task st), ?_, congrArg (CtrView.meet · (.task st)) hview⟩
  rw [State.bellStep_heads hb, State.headStep, hq]
  refine (if_neg (Nat.not_lt.2 hc)).trans ?_
  show (((((s.consume k m).setQueue k ws).meet (.task st)).unhold (k / 4096)).1,
    ((((s.consume k m).setQueue k ws).meet (.task st)).unhold (k / 4096)).2 ++ [.heads k]) = _
  rw [State.unhold_none hheld]
  rfl

/-- A WAKE_ALL of an empty queue changes nothing that the view shows. -/
theorem State.doWakeAll_none (hq : s.ctrView.queue k = []) :
    ∃ t, s.doWakeAll k = (t, []) ∧ t.ctrView = s.ctrView := by
  refine ⟨(s.setQueue k []).count (k / 4096) 43 0 1, ?_, ?_⟩
  · change s.queue k = [] at hq
    rw [State.doWakeAll, hq]
    rfl
  · rw [State.ctrView_count, State.ctrView_setQueue, CtrView.setQueue, ← hq, Function.update_eq_self]

/-- A WAKE_ALL of a queue of one task: the task goes on, and nothing is consumed (R304). -/
theorem State.doWakeAll_task {st m : Nat} {hung : Bool} (hq : s.ctrView.queue k = [⟨.task st, m, hung⟩])
    (hh : s.ctrView.held = []) : ∃ t, s.doWakeAll k = (t, []) ∧ t.ctrView = (s.ctrView.setQueue k []).meet (.task st) := by
  have hview : ((s.setQueue k []).count (k / 4096) 43 0 1).ctrView = s.ctrView.setQueue k [] := by
    rw [State.ctrView_count, State.ctrView_setQueue]
  refine ⟨((s.setQueue k []).count (k / 4096) 43 0 1).meet (.task st), ?_, congrArg (CtrView.meet · (.task st)) hview⟩
  have hheld : (((s.setQueue k []).count (k / 4096) 43 0 1).meet (.task st)).bell.held = [] :=
    (congrArg CtrView.held hview).trans hh
  change s.queue k = _ at hq
  rw [State.doWakeAll, hq]
  show (((((s.setQueue k []).count (k / 4096) 43 0 1).meet (.task st)).unhold (k / 4096)).1,
    [] ++ ((((s.setQueue k []).count (k / 4096) 43 0 1).meet (.task st)).unhold (k / 4096)).2) = _
  rw [State.unhold_none hheld]
  rfl

end

/-! ### The counter operations -/

theorem ctrKey_unit (q : Qn) (n : Fin 4096) : ctrKey q n / 4096 = q.val := by
  unfold ctrKey
  omega

theorem State.bellOpWrite_taken (s : State) (rq : Requester) (k : Nat) {ok : Bool} (op : BellOp) (h : ok = true) :
    s.bellOpWrite rq k ok op = s.bells [op] := if_pos h

theorem State.bellOpWrite_stray (s : State) (rq : Requester) (k : Nat) {ok : Bool} (op : BellOp) (h : ok = false) :
    s.bellOpWrite rq k ok op = s.strayCode (rqCode rq) 2 (ctrOp k).offset := if_neg (by simp [h])

section
variable {s t : State} {k v : Nat}

/-- A state in which one counter has another COUNT, and nothing else of the view has changed. -/
theorem State.count_only (h : t.ctrView = s.ctrView.setCount k v) :
    t.count24 k = v ∧ (∀ j, j ≠ k → t.count24 j = s.count24 j) ∧ (∀ j, t.queue j = s.queue j) ∧ t.bell.met = s.bell.met ∧
      t.out = s.out ∧ s.memSame t := by
  refine ⟨?_, fun j hj => ?_, fun j => congrFun (congrArg CtrView.queue h) j, congrArg CtrView.met h, congrArg CtrView.out h,
    State.memSame_of_mem (congrArg (fun w => w.home.mem) h)⟩
  · rw [show t.count24 = _ from congrArg CtrView.count h, CtrView.setCount_count]
  · rw [show t.count24 = _ from congrArg CtrView.count h]
    exact Function.update_of_ne hj _ _

theorem State.ctrView_unchanged (s : State) (k : Nat) : s.ctrView = s.ctrView.setCount k (s.count24 k) := by
  rw [CtrView.setCount, show s.ctrView.count = s.count24 from rfl, Function.update_eq_self]
  rfl

/-- An operation that sets COUNT and then looks at the head of an empty queue. -/
theorem State.bells_count {op : BellOp} (hop : s.bellStep op = (t, [.heads k])) (ht : t.ctrView = s.ctrView.setCount k v)
    (hb : s.ctrView.busy (k / 4096) = false) (hq : s.ctrView.queue k = []) : s.bells [op] = t :=
  State.bells_heads hop (State.bellStep_heads_empty (by rw [ht]; exact hb) (by rw [ht]; exact hq))

end

/-- A requester that may write, with an AMOUNT that is not 0. -/
theorem and_decide_ne_zero {b : Bool} {a : BitVec 24} (hb : b = true) (h : a ≠ 0) : (b && decide (a ≠ 0)) = true :=
  Bool.and_eq_true_iff.2 ⟨hb, decide_eq_true h⟩

/-- Settles O21: the view of the state after each operation gives what the operation says. -/
theorem bellCounters : Obligations.BellCounters := by
  refine ⟨fun s rq q n a => ?_, fun s rq q n a st m hung => ?_⟩
  · intro k c stray gives hq hb hp
    have hb : s.ctrView.busy (k / 4096) = false := by rwa [ctrKey_unit]
    have ha : a.toNat ≤ ctrMax := Nat.le_of_lt_succ a.isLt
    have hgives {t u : State} {v : Nat} (hu : u = t) (ht : t.ctrView = s.ctrView.setCount k v) : gives (.next u) v :=
      ⟨u, rfl, State.count_only (hu ▸ ht)⟩
    have hstray {op : BellOp} {ok : Bool} (h : ok = false) : done (s.bellOpWrite rq k ok op) = .next stray :=
      congrArg Host.Outcome.next (State.bellOpWrite_stray s rq k op h)
    refine ⟨fun hr h0 => ?_, fun hr h0 => ?_, fun hr => ?_, fun hr h0 => ?_, fun hr => ?_, fun h => ?_,
      fun hr => ⟨?_, ?_, ?_, ?_⟩⟩
    · exact hgives ((State.bellOpWrite_taken _ _ _ _ (and_decide_ne_zero hr h0)).trans
        (State.bells_count (State.bellStep_signal hb) (State.ctrView_doSignal hp) hb hq)) (State.ctrView_doSignal hp)
    · exact hgives ((State.bellOpWrite_taken _ _ _ _ (and_decide_ne_zero hr h0)).trans
        (State.bells_count (State.bellStep_debit hb) (State.ctrView_doDebit hp) hb hq)) (State.ctrView_doDebit hp)
    · exact hgives ((State.bellOpWrite_taken _ _ _ _ hr).trans
        (State.bells_count (State.bellStep_set hb) (State.ctrView_set hp ha) hb hq)) (State.ctrView_set hp ha)
    · have hstep := State.bellStep_take (n := a.toNat) (src := srcOf rq) hb
      rw [show (s.queue k).isEmpty = true by rw [show s.queue k = [] from hq]; rfl, Bool.true_and] at hstep
      have htaken := State.bellOpWrite_taken s rq k (ok := rqKernel rq && decide (a ≠ 0)) (.take k a.toNat (srcOf rq))
        (and_decide_ne_zero hr h0)
      by_cases hle : a.toNat ≤ s.count24 k
      · rw [if_pos hle]
        rw [if_pos (decide_eq_true hle)] at hstep
        exact hgives (htaken.trans (State.bells_single hstep)) (by rw [State.ctrView_count, State.ctrView_consume hp])
      · rw [if_neg hle]
        rw [if_neg (by simpa using hle)] at hstep
        exact hgives (htaken.trans (State.bells_single hstep)) (by rw [State.ctrView_count]; exact s.ctrView_unchanged k)
    · obtain ⟨t, ht, hv⟩ := State.doWakeAll_none hq
      exact hgives ((State.bellOpWrite_taken _ _ _ _ hr).trans (State.bells_single ((State.bellStep_wakeAll hb).trans ht)))
        (hv.trans (s.ctrView_unchanged k))
    · exact hstray (by obtain h | rfl := h <;> simp [*])
    all_goals exact hstray (by simp [hr])
  · intro k v hq hh hb hp
    have hb : s.ctrView.busy (k / 4096) = false := by rwa [ctrKey_unit]
    have hsignal (h0 : a ≠ 0) (hr : maySignal rq = true) : s.bellOpWrite rq k (maySignal rq && decide (a ≠ 0))
        (.signal k a.toNat (srcOf rq)) = s.bells [.signal k a.toNat (srcOf rq)] :=
      State.bellOpWrite_taken _ _ _ _ (and_decide_ne_zero hr h0)
    have hview : (s.doSignal k a.toNat (srcOf rq)).ctrView = s.ctrView.setCount k v := State.ctrView_doSignal hp
    have hb' : (s.doSignal k a.toNat (srcOf rq)).ctrView.busy (k / 4096) = false := by rwa [hview]
    have hq' : (s.doSignal k a.toNat (srcOf rq)).ctrView.queue k = [⟨.task st, m, hung⟩] := by rwa [hview]
    have hc' : (s.doSignal k a.toNat (srcOf rq)).ctrView.count k = v := by rw [hview, CtrView.setCount_count]
    refine ⟨fun hr h0 hle => ?_, fun hr h0 hlt => ?_, fun hr => ?_⟩
    · obtain ⟨t, ht, hv⟩ := State.bellStep_heads_task hb' (by rwa [hview]) hq' (hle.trans_eq hc'.symm) (by rwa [hview])
      rw [hview] at hv
      refine ⟨t, congrArg Host.Outcome.next ((hsignal h0 hr).trans (State.bells_heads_twice (State.bellStep_signal hb) ht
        (State.bellStep_heads_empty (by rw [hv]; exact hb) (by rw [hv]; exact CtrView.setQueue_queue ..)))), ?_, ?_,
        congrArg CtrView.met hv⟩
      · rw [show t.count24 = _ from congrArg CtrView.count hv]
        show ((s.ctrView.setCount k v).setCount k _).count k = _
        rw [CtrView.setCount_count, CtrView.setCount_count]
      · rw [show t.queue = _ from congrArg CtrView.queue hv]
        exact CtrView.setQueue_queue ..
    · refine ⟨_, congrArg Host.Outcome.next ((hsignal h0 hr).trans (State.bells_heads (State.bellStep_signal hb)
        (State.bellStep_heads_short hb' hq' (hc'.trans_lt hlt)))), hc', hq', congrArg CtrView.met hview⟩
    · obtain ⟨t, ht, hv⟩ := State.doWakeAll_task hq hh
      refine ⟨t, congrArg Host.Outcome.next ((State.bellOpWrite_taken _ _ _ _ hr).trans
        (State.bells_single ((State.bellStep_wakeAll hb).trans ht))), congrFun (congrArg CtrView.count hv) k, ?_,
        congrArg CtrView.met hv⟩
      rw [show t.queue = _ from congrArg CtrView.queue hv]
      exact CtrView.setQueue_queue ..

end Sys2Proof.Machine
end

