-- ==== Sys2Proof/Proofs/BellWaits.lean ====
section
/-!
SUPPORT. Arrivals at a barrier group (R308 to R310), its release, and the waits that reach counters (R302, R306). Settles O22.
-/
namespace Sys2Proof.Machine

/-! ### Registers of a group -/

theorem groupReg_ne {a b c d : RegName} (g : Nat) (h : a ≠ c) (h' : b ≠ d) : groupReg a b g ≠ groupReg c d g := by
  unfold groupReg
  split <;> simp [h, h']

theorem grpExpect_ne_arrived (g : Nat) : grpExpect g ≠ grpArrived g := groupReg_ne g (by simp) (by simp)

theorem grpStatus_ne_arrived (g : Nat) : grpStatus g ≠ grpArrived g := groupReg_ne g (by simp) (by simp)

theorem grpCtrl_ne_arrived (g : Nat) : grpCtrl g ≠ grpArrived g := groupReg_ne g (by simp) (by simp)

theorem grpCtrl_ne_status (g : Nat) : grpCtrl g ≠ grpStatus g := groupReg_ne g (by simp) (by simp)

theorem grpExpect_ne_status (g : Nat) : grpExpect g ≠ grpStatus g := groupReg_ne g (by simp) (by simp)

theorem grpName (g : Nat) : (grpArrived g).name ≠ .wmCnt ∧ (grpExpect g).name ≠ .wmCnt ∧ (grpCtrl g).name ≠ .wmCnt ∧
    (grpStatus g).name ≠ .wmCnt := by
  unfold grpArrived grpExpect grpCtrl grpStatus groupReg
  split <;> simp

theorem ctrCfg_ne_arrived (k g : Nat) : ctrCfg k ≠ grpArrived g := by
  unfold ctrCfg grpArrived groupReg
  split <;> simp

theorem ctrCfg_ne_status (k g : Nat) : ctrCfg k ≠ grpStatus g := by
  unfold ctrCfg grpStatus groupReg
  split <;> simp

/-! ### Arrivals -/

section
variable {s : State} {g p e rq : Nat} (hf : s.qFenced (grpQ g) = false)
include hf

/-- An unexpected participant makes a stray write. -/
theorem State.arrive_unexpected (hw : nbit (s.rd (grpExpect g)).toNat p = false) (he : ¬ e < 1024) :
    s.arrive g p e rq = (s.strayCode rq 2 (grpArrived g).offset, []) := by
  simp only [State.arrive, hf, hw, State.dropArrival, if_neg he]
  rfl

/-- A second arrival of one generation is held as early. -/
theorem State.arrive_early (hw : nbit (s.rd (grpExpect g)).toNat p = true) (hh : nbit (s.rd (grpArrived g)).toNat p = true)
    (he : lookD [] s.bell.early g = []) : s.arrive g p e rq =
      ({ s with bell := { s.bell with early := put s.bell.early g [(p, e)] } }.fset (grpStatus g) F.bellMbStatus_EARLY 1, []) := by
  simp only [State.arrive, hf, hw, hh, he]
  rfl

/-- The state after a first arrival, before the group is looked at. -/
def State.arrived (s : State) (g p e : Nat) : State :=
  { s.wr (grpArrived g) (BitVec.ofNat 64 (setBit (s.rd (grpArrived g)).toNat p)) with
    bell := { s.bell with arrivals := put s.bell.arrivals g (lookD [] s.bell.arrivals g ++ [(p, e)]) } }

theorem State.arrive_first (hw : nbit (s.rd (grpExpect g)).toNat p = true) (hh : nbit (s.rd (grpArrived g)).toNat p = false) :
    s.arrive g p e rq = if BitVec.ofNat 64 (setBit (s.rd (grpArrived g)).toNat p) = s.rd (grpExpect g)
      then (s.arrived g p e).groupRelease g else (s.arrived g p e, []) := by
  have harr : (s.arrived g p e).rd (grpArrived g) = BitVec.ofNat 64 (setBit (s.rd (grpArrived g)).toNat p) := rd_wr_same ..
  have hexp : (s.arrived g p e).rd (grpExpect g) = s.rd (grpExpect g) := rd_wr_ne _ _ (grpExpect_ne_arrived g)
  have hgo : s.arrive g p e rq = if (s.arrived g p e).rd (grpArrived g) = (s.arrived g p e).rd (grpExpect g)
      then (s.arrived g p e).groupRelease g else (s.arrived g p e, []) := by
    simp only [State.arrive, hf, hw, hh, State.arrived, State.wr_bell]
    rfl
  rw [hgo, harr, hexp]

end

/-! ### Release -/

/-- The registers of a release, and its count: nothing else but the unit's own books. -/
def State.released (s : State) (g : Nat) (b : BellSt) : State :=
  { (((s.wr (grpArrived g) 0).fwrap (grpStatus g) F.bellMbStatus_RELEASES 1).count (grpQ g) 43 1 1) with bell := b }.fset
    (grpStatus g) F.bellMbStatus_EARLY 0

theorem State.attached_congr {s t : State} {k g : Nat} (h : t.rd (ctrCfg k) = s.rd (ctrCfg k)) : t.attached k g = s.attached k g := by
  simp only [State.attached, State.fget, h]
  rfl

/-- A release that no counter is attached to, and that no sync entry, no early arrival and no counter waits for, is of registers only. -/
theorem State.groupRelease_alone {s : State} {g : Nat} (hk : ∀ k, s.attached k g = false) (he : lookD [] s.bell.early g = [])
    (ha : ∀ x ∈ lookD [] s.bell.arrivals g, ¬ x.2 < 1024) (hc : s.fget (grpCtrl g) F.bellMbCtrl_RELEASE_CTR = 0xFFFF) :
    ∃ b, s.groupRelease g = (s.released g b, []) := by
  unfold State.groupRelease
  extract_lets arrived early s1 s2 s3 b3 s4 n ks s5 ents sigs s6 rc rel b6 s7 s8
  have hs4 {r : Reg} (h1 : r ≠ grpArrived g) (h2 : r ≠ grpStatus g) (h3 : r.name ≠ .wmCnt) : s4.rd r = s.rd r := by
    refine (State.count_rd _ _ _ _ _ h3).trans ?_
    rw [show s2 = s1.fwrap _ _ _ from rfl, State.fwrap, State.rd_fset_ne _ _ _ h2, rd_wr_ne _ _ h1]
  have hatt : s4.attachedTo g = [] := by
    refine List.filter_eq_nil_iff.2 fun k _ => ?_
    rw [State.attached_congr (hs4 (ctrCfg_ne_arrived k g) (ctrCfg_ne_status k g) (by simp [ctrCfg])), hk]
    exact Bool.false_ne_true
  have hks : ks = [] := by simp only [ks, hatt, ite_self]
  have hs5 : s5 = s4 := by simp only [s5, hks, List.foldl_nil]
  have hents : ents = [] := by
    simp only [ents, arrived, List.filter_eq_nil_iff, List.mem_flatMap, List.mem_filter, decide_eq_true_eq]
    rintro x ⟨_, _, hx, _⟩
    exact ha x hx
  have hs6 : s6 = s4 := by simp only [s6, hents, hs5, List.foldl_nil]
  have hrc : rc = 0xFFFF := by
    rw [← hc]
    show s6.fget _ _ = _
    rw [hs6, State.fget, hs4 (grpCtrl_ne_arrived g) (grpCtrl_ne_status g) (grpName g).2.2.1, State.fget]
  refine ⟨s7.bell, Prod.ext ?_ ?_⟩
  · simp only [s8, s7, hs6]
    rfl
  · simp only [hks, sigs, rel, hents, hrc, if_true, early, he, List.map_nil, List.filterMap_nil, List.append_nil]

section
variable {s : State} {g : Nat} {b : BellSt}

theorem State.released_rd {r : Reg} (ha : r ≠ grpArrived g) (hs : r ≠ grpStatus g) (hw : r.name ≠ .wmCnt) :
    (s.released g b).rd r = s.rd r := by
  rw [State.released, State.rd_fset_ne _ _ _ hs]
  refine (State.count_rd _ _ _ _ _ hw).trans ?_
  rw [State.fwrap, State.rd_fset_ne _ _ _ hs, rd_wr_ne _ _ ha]

theorem State.released_arrived : (s.released g b).rd (grpArrived g) = 0 := by
  rw [State.released, State.rd_fset_ne _ _ _ (grpStatus_ne_arrived g).symm]
  refine (State.count_rd _ _ _ _ _ (grpName g).1).trans ?_
  rw [State.fwrap, State.rd_fset_ne _ _ _ (grpStatus_ne_arrived g).symm, rd_wr_same]

theorem State.released_count : (s.released g b).fget (grpStatus g) F.bellMbStatus_RELEASES =
    (s.fget (grpStatus g) F.bellMbStatus_RELEASES + 1) % 2 ^ 32 := by
  rw [State.released, State.fget_fset_apart _ _ (by decide)]
  refine (State.count_fget _ _ _ _ _ _ (grpName g).2.2.2).trans ?_
  rw [State.fwrap, State.fget_fset_same _ _ (by decide), State.fget, rd_wr_ne _ _ (grpStatus_ne_arrived g)]
  exact Nat.mod_mod _ _

theorem State.released_home : (s.released g b).home = s.home := by
  rw [State.released, State.fset_home]
  simp

end

/-! ### The commands -/

theorem State.bellStep_arrive {s : State} {g p e rq : Nat} (hb : s.snapBusy (grpQ g) = false) :
    s.bellStep (.arrive g p e rq) = s.arrive g p e rq :=
  if_neg (ne_true_of_eq_false hb)

theorem execBellWait_task {s : State} {st : Nat} {t : Task} (hs : s.startable st = some t) (hc : tWaitCtr t.desc ≠ 0xFFFF)
    (ho : s.tCommonOk st t.desc = true) (hw : s.waitsAt (.task st) = false) : exec (.bellWait (.task st)) s =
      .next (s.bells [.wait (tWaitCtr t.desc) { src := .task st, amount := tWaitCount t.desc }]) := by
  show done (s.taskWait st) = _
  rw [State.taskWait, hs]
  exact congrArg Host.Outcome.next (if_neg (by simp [hc, ho, hw]))

theorem execBellWait_ledger {s : State} {n : Nat} {x : LQueue} (hx : s.lqueue n = some x) (hd : x.dbBell = true)
    (hw : x.waiting = false) (ha : s.waitsAt (.ledger n) = false) (hs : x.state = 1) (hr : x.resetting = false) (hc : x.cmds = [])
    (hl : s.ledgerOn x.stall = true) (hp : s.precPaused x.prec = false) (hf : s.ringsPaused x.func = false)
    (hfw : s.fwPaused = false) : exec (.bellWait (.ledger n)) s =
      .next ((s.setLqueue n { x with waiting := true }).bells [.wait x.dbCtr { src := .ledger n, amount := 1 }]) := by
  show execBellWait (.ledger n) s = _
  simp only [execBellWait, hx]
  exact if_neg (by simp [hd, hw, ha, hs, hr, hc, hl, hp, hf, hfw])

/-- Settles O22: an arrival is one operation at its unit, and a wait is one that its source brings. -/
theorem bellArrivalsAndWaits : Obligations.BellArrivalsAndWaits := by
  refine ⟨fun s rq device g p => ?_, fun s st n t c q e i => ⟨execBellWait_task, fun h => ?_, fun x => execBellWait_ledger, rfl, rfl⟩⟩
  · intro n here want new hf hb
    have hrun {u : State} (h : s.arrive n p.val 1024 (rqCode rq) = (u, [])) : exec (.bellArrive rq device g p) s = .next u :=
      congrArg Host.Outcome.next (State.bells_single ((State.bellStep_arrive hb).trans h))
    refine ⟨fun hw hh hne => ?_, fun hw hh heq hk ha he hc => ?_, fun hw hh he => ?_, fun hw => ?_⟩
    · exact ⟨_, hrun ((State.arrive_first hf hw hh).trans (if_neg hne)), State.rd_wr_same _ _ _,
        fun r hr => State.rd_wr_ne _ _ (by simpa using hr), State.memSame_of_mem rfl⟩
    · obtain ⟨b, hb⟩ := State.groupRelease_alone (s := s.arrived n p.val 1024) (g := n)
        (fun k => (State.attached_congr (State.rd_wr_ne _ _ (ctrCfg_ne_arrived k n))).trans (hk k)) he
        (fun x hx => by
          rw [State.arrived, ha, lookD, look_put_same, Option.getD_some, List.nil_append, List.mem_singleton] at hx
          simp [hx]) ((congrArg (bitsOf · _) (State.rd_wr_ne _ _ (grpCtrl_ne_arrived n))).trans hc)
      refine ⟨_, hrun (((State.arrive_first hf hw hh).trans (if_pos heq)).trans hb), State.released_arrived, ?_, ?_, ?_⟩
      · rw [State.released_rd (grpExpect_ne_arrived n) (grpExpect_ne_status n) (grpName n).2.1]
        exact State.rd_wr_ne _ _ (grpExpect_ne_arrived n)
      · rw [State.released_count]
        exact congrArg (fun v => (bitsOf v _ + 1) % 2 ^ 32) (State.rd_wr_ne _ _ (grpStatus_ne_arrived n))
      · exact State.memSame_of_mem (congrArg HomeSt.mem State.released_home)
    · refine ⟨_, hrun (State.arrive_early hf hw hh he), ?_, ?_, ?_, fun r hr => State.rd_fset_ne _ _ _ (by simpa using hr)⟩
      · exact State.rd_fset_ne _ _ _ (grpStatus_ne_arrived n).symm
      · simp [lookD]
      · exact State.fget_fset_same _ _ (by decide)
    · exact hrun (State.arrive_unexpected hf hw (by decide))
  · show done (s.taskWait st) = _
    rw [State.taskWait, h]

end Sys2Proof.Machine
end

