-- ==== Sys2Proof/Proofs/BellUnit.lean ====
section
/-!
SUPPORT. EXPECT (R310), sync entries (R311), snapshots (R316) and Alley lines (R298, R299). Settles O23.
-/
namespace Sys2Proof.Machine

/-! ### The Bell unit's own part replaced -/

/-- The Bell units' part replaced. -/
def State.withBell (s : State) (b : BellSt) : State := { s with bell := b }

section
variable (s : State) (b : BellSt) (r : Reg) (f : Fld)

@[simp] theorem State.withBell_bell : (s.withBell b).bell = b := rfl

@[simp] theorem State.withBell_home : (s.withBell b).home = s.home := rfl

@[simp] theorem State.withBell_rd : (s.withBell b).rd r = s.rd r := rfl

@[simp] theorem State.withBell_fget : (s.withBell b).fget r f = s.fget r f := rfl

@[simp] theorem State.withBell_fbit : (s.withBell b).fbit r f = s.fbit r f := rfl

end

/-! ### The Bell unit -/

section
variable {s : State} {rq : Requester} {g e q : Nat} {v : W64}

theorem State.expectWrite_taken (hk : rqKernel rq = true) (ha : s.rd (grpArrived g) = 0) (he : lookD [] s.bell.early g = []) :
    s.expectWrite rq g v = s.wr (grpExpect g) v :=
  if_pos (by simp [hk, ha, he])

theorem State.expectWrite_stray (h : rqKernel rq = false ∨ s.rd (grpArrived g) ≠ 0) :
    s.expectWrite rq g v = s.strayCode (rqCode rq) 2 (grpExpect g).offset :=
  if_neg (by obtain h | h := h <;> simp only [h, decide_false, Bool.false_and, Bool.and_false, Bool.false_eq_true, not_false_eq_true])

theorem State.syncArm_armed (h : s.armed e = true) : s.syncArm rq e v = s.strayCode (rqCode rq) 2 (syncWord3 e).offset :=
  if_pos (by simp [h])

theorem syncWait_none {b : Bytes} (h : syncWait b 1 = none) {c n : Nat} (hc : syncWait b 0 = some (c, n)) :
    ([0, 1].filterMap fun w => (syncWait b w).map fun x => BellOp.wait x.1 { src := .sync (e / 256) (e % 256) w, amount := x.2 }) =
      [.wait c { src := .sync (e / 256) (e % 256) 0, amount := n }] := by
  simp [h, hc]

/-- A well-formed entry with one wait brings it to its counter. -/
theorem State.syncArm_waits (hk : rqKernel rq = true) (ha : s.armed e = false) (ho : (s.wr (syncWord3 e) v).syncOk e = true)
    (h1 : syncWait ((s.wr (syncWord3 e) v).syncBytes e) 1 = none) {c n : Nat}
    (h0 : syncWait ((s.wr (syncWord3 e) v).syncBytes e) 0 = some (c, n)) : s.syncArm rq e v =
      (s.wr (syncWord3 e) v).bells [.wait c { src := .sync (e / 256) (e % 256) 0, amount := n }] := by
  refine (if_neg (by simp [hk, ha])).trans ((if_pos ho).trans ?_)
  exact congrArg (fun ws : List BellOp => if ws.isEmpty then
    ((s.wr (syncWord3 e) v).syncAct e).1.bells ((s.wr (syncWord3 e) v).syncAct e).2 else (s.wr (syncWord3 e) v).bells ws)
    (syncWait_none h1 h0)

/-- A malformed entry is freed, and recorded in BELL_SYNC_ERR. -/
theorem State.syncArm_malformed (hk : rqKernel rq = true) (ha : s.armed e = false)
    (ho : (s.wr (syncWord3 e) v).syncOk e = false) : s.syncArm rq e v =
      (((s.wr (syncWord3 e) v).disarm e).fset ⟨.bellSyncErr, e / 256, 0⟩ F.bellSyncErr_MALFORMED 1).fset
        ⟨.bellSyncErr, e / 256, 0⟩ F.bellSyncErr_ENTRY (e % 256) :=
  (if_neg (by simp [hk, ha])).trans (if_neg (by simp [ho]))

/-- The snapshot control of a Quarter. -/
def snapCtrl (q : Nat) : Reg := ⟨.bellSnapCtrl, q, 0⟩

theorem State.snapStart_idle (h : s.snapBusy q = false) (cause kind idx : Nat) : s.snapStart q cause kind idx =
    (s.fset (snapCtrl q) F.bellSnapCtrl_BUSY 1).withBell { s.bell with snap := put s.bell.snap q (cause, kind, idx) } := by
  refine (if_neg (by simp [h])).trans ?_
  simp only [State.fset_bell]
  rfl

theorem State.snapStart_busy (h : s.snapBusy q = true) (cause kind idx : Nat) : s.snapStart q cause kind idx = s := if_pos h

end

theorem sync_unit (q : Qn) (e : Fin 256) : (q.val * 256 + e.val) / 256 = q.val ∧ (q.val * 256 + e.val) % 256 = e.val := by
  omega

section
variable {s : State} {q : Qn}

/-- The snapshot is copied: its bytes are written, BUSY clears and SEQ goes up by 1. -/
def State.snapCopied (s : State) (q : Nat) : State :=
  (((s.poke (s.fget ⟨.bellSnapAddr, q, 0⟩ F.bellSnapAddr_ADDR * 4096) (s.snapBytes q)).useFresh
    (4 * (s.waiterList q).length)).fset (snapCtrl q) F.bellSnapCtrl_BUSY 0).fwrap (snapCtrl q) F.bellSnapCtrl_SEQ 1

theorem State.snapCopied_rd {s : State} {q : Nat} {r : Reg} (h : r ≠ snapCtrl q) : (s.snapCopied q).rd r = s.rd r := by
  rw [State.snapCopied, State.fwrap, State.rd_fset_ne _ _ _ h, State.rd_fset_ne _ _ _ h]
  simp [State.rd]

theorem State.snapCopied_busy (s : State) (q : Nat) : (s.snapCopied q).fbit (snapCtrl q) F.bellSnapCtrl_BUSY = false := by
  rw [State.snapCopied, State.fwrap, State.fbit, State.fget_fset_apart _ _ (by decide), State.fget_fset_same _ _ (by decide)]
  decide

theorem State.snapCopied_seq (s : State) (q : Nat) : (s.snapCopied q).fget (snapCtrl q) F.bellSnapCtrl_SEQ =
    (s.fget (snapCtrl q) F.bellSnapCtrl_SEQ + 1) % 2 ^ F.bellSnapCtrl_SEQ.width := by
  rw [State.snapCopied, State.fwrap, State.fget_fset_same _ _ (by decide), State.fget_fset_apart _ _ (by decide), Nat.mod_mod]
  simp [State.fget, State.rd]

theorem State.snapCopied_home (s : State) (q : Nat) : (s.snapCopied q).home =
    (s.poke (s.fget ⟨.bellSnapAddr, q, 0⟩ F.bellSnapAddr_ADDR * 4096) (s.snapBytes q)).home := by
  rw [State.snapCopied, State.fwrap_home, State.fset_home, State.useFresh_home]

/-- The snapshot is written, and nothing was held back: BUSY clears and SEQ goes up by 1. -/
theorem execBellSnapDone_busy (h : s.snapBusy q.val = true) (hd : s.bell.deferred = []) : exec (.bellSnapDone q) s = .next
    ((s.snapCopied q.val).withBell { s.bell with snap := drop s.bell.snap q.val, deferred := [] }) := by
  show execBellSnapDone q s = _
  unfold execBellSnapDone
  rw [if_pos h]
  simp only [State.fwrap_bell, State.fset_bell, State.useFresh_bell, State.poke_bell, hd, List.filter_nil]
  rfl

end

/-- Settles O23: each row is its case. -/
theorem bellUnitAndAlleys : Obligations.BellUnitAndAlleys := by
  refine ⟨fun s rq q device m v e => ?_, fun s n rq q l v => ⟨fun h1 h2 => ?_, fun h1 => ?_, rfl, fun hk hm => ?_, fun h => ?_⟩⟩
  · intro g en u ctl serr
    obtain ⟨hq, he⟩ := sync_unit q e
    have harm (hv : bitsOf v syncArmed = 1) : exec (.syncEntryArm rq q e v) s = .next (s.syncArm rq en v) :=
      congrArg Host.Outcome.next (if_pos hv)
    refine ⟨fun hk ha he => congrArg Host.Outcome.next (State.expectWrite_taken hk ha he),
      fun h => congrArg Host.Outcome.next (State.expectWrite_stray h), fun hv hk ha ho h1 c n h0 => ?_, fun hv hk ha ho => ?_,
      fun hv ha => (harm hv).trans (congrArg Host.Outcome.next (State.syncArm_armed ha)), fun hk hb => ?_, fun hk hb => ?_,
      fun hb hd => ?_, fun hb => if_neg (by simp [hb])⟩
    · rw [harm hv, State.syncArm_waits hk ha ho h1 h0, hq, he]
    · rw [harm hv, State.syncArm_malformed hk ha ho, hq, he]
      have hne : syncWord3 en ≠ serr := by simp [syncWord3, serr]
      refine ⟨_, rfl, ?_, ?_, State.fget_fset_same _ _ (by decide) |>.trans (Nat.mod_eq_of_lt e.isLt), fun r hr => ?_,
        State.memSame_of_mem (by simp [State.disarm])⟩
      · refine decide_eq_false ?_
        rw [State.fget_fset_ne _ _ hne, State.fget_fset_ne _ _ hne, State.disarm, State.fget_fset_same _ _ (by decide)]
        decide
      · rw [State.fget_fset_apart _ _ (by decide), State.fget_fset_same _ _ (by decide)]
        rfl
      · simp only [List.mem_cons, List.not_mem_nil, or_false, not_or] at hr
        rw [State.rd_fset_ne _ _ _ hr.2, State.rd_fset_ne _ _ _ hr.2, State.disarm, State.rd_fset_ne _ _ _ hr.1,
          State.rd_wr_ne _ _ hr.1]
    · rw [show exec (.bellSnapTake rq q) s = _ from congrArg Host.Outcome.next ((if_pos hk).trans (State.snapStart_idle hb _ _ _))]
      refine ⟨_, rfl, ?_, fun r hr => ?_, look_put_same .., State.memSame_of_mem rfl⟩
      · rw [State.snapBusy, State.withBell_fbit]
        exact decide_eq_true (State.fget_fset_same _ _ (by decide))
      · rw [State.withBell_rd]
        exact State.rd_fset_ne _ _ _ (by simpa [snapCtrl, ctl] using hr)
    · exact congrArg Host.Outcome.next ((if_pos hk).trans (State.snapStart_busy hb _ _ _))
    · rw [execBellSnapDone_busy hb hd]
      refine ⟨_, rfl, ?_, ?_, fun r hr => ?_, look_drop_same .., ?_⟩
      · rw [State.snapBusy, State.withBell_fbit]
        exact s.snapCopied_busy q.val
      · rw [State.withBell_fget]
        exact s.snapCopied_seq q.val
      · rw [State.withBell_rd]
        exact State.snapCopied_rd (by simpa [snapCtrl, ctl] using hr)
      · rw [State.withBell_home, State.snapCopied_home]
  · exact if_pos (by simp [h1, h2])
  · exact if_neg (by simp [h1])
  · exact congrArg Host.Outcome.next (if_pos (by simp [hk, hm]))
  · exact congrArg Host.Outcome.next (if_neg (by obtain h | h := h <;> simp [h]))

end Sys2Proof.Machine
end

