-- ==== Sys2Proof/Proofs/PorterRows.lean ====
section
/-!
SUPPORT. The register commands of a Porter channel (R290, R292, R293). Settles O24.
-/
namespace Sys2Proof.Machine

/-! ### A channel's fields -/

section
variable (s : State) (k : Nat) (x : Chan)

@[simp] theorem State.chan_setChan : (s.setChan k x).chan k = x := by
  show lookD {} (putD {} s.porter.chans k x) k = x
  simp

@[simp] theorem State.setChan_rd (r : Reg) : (s.setChan k x).rd r = s.rd r := rfl

@[simp] theorem State.setChan_fget (r : Reg) (f : Fld) : (s.setChan k x).fget r f = s.fget r f := rfl

@[simp] theorem State.setChan_fbit (r : Reg) (f : Fld) : (s.setChan k x).fbit r f = s.fbit r f := rfl

@[simp] theorem State.setChan_home : (s.setChan k x).home = s.home := rfl

@[simp] theorem State.setChan_bell : (s.setChan k x).bell = s.bell := rfl

theorem State.chan_of_porter {s t : State} (h : t.porter = s.porter) : t.chan k = s.chan k := by rw [State.chan, h, State.chan]

@[simp] theorem State.chan_fset (r : Reg) (f : Fld) (v : Nat) : (s.fset r f v).chan k = s.chan k :=
  State.chan_of_porter k (by simp)

@[simp] theorem State.chan_setChanState (c v : Nat) : (s.setChanState c v).chan k = s.chan k := State.chan_fset ..

@[simp] theorem State.setChanState_home (v : Nat) : (s.setChanState k v).home = s.home := State.fset_home ..

/-- STATE has three bits. -/
theorem State.chanState_setChanState {v : Nat} (hv : v < 8) : (s.setChanState k v).chanState k = v :=
  (State.fget_fset_same s v (by decide)).trans (Nat.mod_eq_of_lt hv)

theorem State.setChanState_rd_ne {v : Nat} {r : Reg} (h : r ≠ chStateReg k) : (s.setChanState k v).rd r = s.rd r :=
  State.rd_fset_ne _ _ _ h

end

/-! ### GO, ABORT, RESUME and doorbells -/

section
variable {s : State} {rq : Requester} {k : Nat}

theorem State.porterGo_stray (h : rqKernel rq = false ∨ s.precOfChan k = none) :
    s.porterGo rq k = s.strayCode (rqCode rq) 2 (chCtrl k).offset :=
  if_pos (by obtain h | h := h <;> simp [h])

section
variable (hk : rqKernel rq = true) (hp : (s.precOfChan k).isSome = true)
include hk hp

theorem State.porterGo_owned {t : State} (h : (if s.chainMode k then
      if decide (s.chanState k = 0 ∨ s.chanState k = 5) then
        (((s.fset (chStateReg k) F.porterChState_DB_PENDING 0).setChan k
          { fetchAt := some (s.fget ⟨.porterChHead, k, 0⟩ F.porterChHead_ADDR * 64) }).fset (chCtrl k) F.porterChCtrl_GO 0).setChanState k 1
      else s.refuse rq (chCtrl k)
    else if decide (s.chanState k = 0 ∨ s.chanState k = 5) then s.swapStart k
    else if s.chanState k = 1 ∨ s.chanState k = 2 ∨ s.chanState k = 3 then s.fset (chCtrl k) F.porterChCtrl_GO 1
    else s.refuse rq (chCtrl k)) = t) : s.porterGo rq k = t := by
  rw [← h]
  have hne : (⟨.porterChHead, k, 0⟩ : Reg) ≠ chStateReg k := by simp [chStateReg]
  refine (if_neg (by simp [hk, Option.isNone_eq_false_iff.2 hp])).trans ?_
  simp only [State.fget_fset_ne _ _ hne]

/-- GO in chain mode: the channel is to fetch the descriptor at HEAD. -/
theorem State.porterGo_chain (hc : s.chainMode k = true) (hs : s.chanState k = 0 ∨ s.chanState k = 5) : s.porterGo rq k =
    (((s.fset (chStateReg k) F.porterChState_DB_PENDING 0).setChan k
      { fetchAt := some (s.fget ⟨.porterChHead, k, 0⟩ F.porterChHead_ADDR * 64) }).fset (chCtrl k) F.porterChCtrl_GO 0).setChanState k 1 :=
  State.porterGo_owned hk hp ((if_pos hc).trans (if_pos (decide_eq_true hs)))

theorem State.porterGo_register (hc : s.chainMode k = false) (hs : s.chanState k = 0 ∨ s.chanState k = 5) :
    s.porterGo rq k = s.swapStart k :=
  State.porterGo_owned hk hp ((if_neg (by simp [hc])).trans (if_pos (decide_eq_true hs)))

theorem State.porterGo_next (hc : s.chainMode k = false) (hs : s.chanState k = 1 ∨ s.chanState k = 2 ∨ s.chanState k = 3) :
    s.porterGo rq k = s.fset (chCtrl k) F.porterChCtrl_GO 1 :=
  State.porterGo_owned hk hp ((if_neg (by simp [hc])).trans ((if_neg (by simp; omega)).trans (if_pos hs)))

end

theorem State.dropWaiters_none {p : WaitSrc → Bool} (h : ∀ x ∈ s.bell.queue, ∀ w ∈ x.2, p w.src = false) :
    (s.dropWaiters p).home = s.home := by
  have hks : (s.bell.queue.filter fun x => x.2.any fun w => p w.src) = [] := by
    simp only [List.filter_eq_nil_iff, List.any_eq_true, not_exists, not_and]
    exact fun x hx w hw => by simp [h x hx w hw]
  rw [State.dropWaiters, hks]
  rfl

theorem State.porterAbort_current (hk : rqKernel rq = true) (hb : (s.chan k).busy = true) (ha : (s.chan k).aborted = false) :
    s.porterAbort rq k = ((s.dropWaiters (fun w => w = .chan k)).setChan k { s.chan k with
      aborted := true, pre := none, flight := (s.chan k).flight.filter (fun b => !b.isFlush) }).setChanState k 3 :=
  if_pos (by simp [hk, hb, ha])

theorem State.porterAbort_stray (h : rqKernel rq = false ∨ (s.chan k).busy = false ∨ (s.chan k).aborted = true) :
    s.porterAbort rq k = s.strayCode (rqCode rq) 2 (chCtrl k).offset :=
  if_neg (by obtain h | h | h := h <;> simp [h])

theorem State.porterResume_halted (hk : rqKernel rq = true) (hc : s.chainMode k = true) (hs : s.chanState k = 5) :
    s.porterResume rq k =
      ((s.fset (chStateReg k) F.porterChState_DB_PENDING 0).setChan k { reread := true }).setChanState k 1 :=
  if_pos (by simp [hk, hc, hs])

theorem State.porterResume_stray (h : rqKernel rq = false ∨ s.chainMode k = false ∨ s.chanState k ≠ 5) :
    s.porterResume rq k = s.strayCode (rqCode rq) 2 (chCtrl k).offset :=
  if_neg (by obtain h | h | h := h <;> simp [h])

theorem State.porterDoorbell_parked (hk : rqKernel rq = true) (hs : s.chanState k = 4) :
    s.porterDoorbell rq k = s.setChan k { s.chan k with reread := true } :=
  (if_neg (by simp [hk])).trans (if_pos hs)

/-- A doorbell of a channel that is not parked is counted, and pending while a descriptor runs. -/
theorem State.porterDoorbell_counted (hk : rqKernel rq = true) (hs : s.chanState k ≠ 4) :
    s.porterDoorbell rq k = if s.chanState k = 1 ∨ s.chanState k = 2 ∨ s.chanState k = 3
      then (s.fsat ⟨.porterChDbCount, k, 0⟩ F.porterChDbCount_COUNT 1).fset (chStateReg k) F.porterChState_DB_PENDING 1
      else s.fsat ⟨.porterChDbCount, k, 0⟩ F.porterChDbCount_COUNT 1 :=
  (if_neg (by simp [hk])).trans (if_neg hs)

theorem State.porterDoorbell_stray (h : rqKernel rq = false) :
    s.porterDoorbell rq k = s.strayCode (rqCode rq) 2 (Reg.offset ⟨.porterChDoorbell, k, 0⟩) :=
  if_pos (by simp [h])

end

/-- A saturating field after an addition. -/
theorem State.fget_fsat {s : State} {r : Reg} {f : Fld} (n : Nat) (hf : f.hi < 64) :
    (s.fsat r f n).fget r f = min (s.fget r f + n) (2 ^ f.width - 1) := by
  rw [State.fsat, State.fget_fset_same _ _ hf]
  exact Nat.mod_eq_of_lt (lt_of_le_of_lt (min_le_right _ _) (Nat.sub_lt (by positivity) Nat.one_pos))

/-- Settles O24: each command is its case. -/
theorem porterCommands : Obligations.PorterCommands := by
  intro s rq c k ch st stray
  refine ⟨fun hk hp hc hs => ?_, fun hk hp hc hs => ?_, fun hk hp hc hs => ?_, fun h => ?_, fun hk hb ha => ?_, fun h => ?_,
    fun hk hc hs => ?_, fun h => ?_, fun hk hs => ?_, fun hk hs => ?_, fun hk => ?_⟩
  · refine ⟨_, congrArg Host.Outcome.next (State.porterGo_chain hk hp hc hs), ?_, State.chanState_setChanState _ _ (by decide),
      fun r hr => ?_, by simp⟩
    · rw [State.chan_setChanState, State.chan_fset]
      exact State.chan_setChan ..
    · simp only [List.mem_cons, List.not_mem_nil, or_false, not_or] at hr
      rw [State.setChanState_rd_ne _ _ hr.2, State.rd_fset_ne _ _ _ hr.1, State.setChan_rd, State.rd_fset_ne _ _ _ hr.2]
  · exact congrArg Host.Outcome.next (State.porterGo_register hk hp hc hs)
  · exact congrArg Host.Outcome.next (State.porterGo_next hk hp hc hs)
  · exact congrArg Host.Outcome.next (State.porterGo_stray h)
  · refine ⟨_, congrArg Host.Outcome.next (State.porterAbort_current hk hb ha), State.chanState_setChanState _ _ (by decide), ?_⟩
    rw [State.chan_setChanState, State.chan_setChan]
    refine ⟨rfl, rfl, rfl, fun b hb => ?_, fun hw => ?_⟩
    · simpa using hb
    · rw [State.setChanState_home, State.setChan_home]
      exact State.dropWaiters_none fun x hx w hm => decide_eq_false (hw x hx w hm)
  · exact congrArg Host.Outcome.next (State.porterAbort_stray h)
  · refine ⟨_, congrArg Host.Outcome.next (State.porterResume_halted hk hc hs),
      (State.chan_setChanState ..).trans (State.chan_setChan ..),
      State.chanState_setChanState _ _ (by decide), fun r hr => ?_, by simp⟩
    have hr : r ≠ chStateReg k := by simpa using hr
    rw [State.setChanState_rd_ne _ _ hr, State.setChan_rd, State.rd_fset_ne _ _ _ hr]
  · exact congrArg Host.Outcome.next (State.porterResume_stray h)
  · exact congrArg Host.Outcome.next (State.porterDoorbell_parked hk hs)
  · refine ⟨_, congrArg Host.Outcome.next (State.porterDoorbell_counted hk hs), ?_, fun hrun => ?_, ?_, ?_⟩
    · have hne : (⟨.porterChDbCount, k, 0⟩ : Reg) ≠ chStateReg k := by simp [chStateReg]
      split
      · rw [State.fget_fset_ne _ _ hne, State.fget_fsat _ (by decide)]
      · rw [State.fget_fsat _ (by decide)]
    · rw [if_pos hrun, State.fget_fset_same _ _ (by decide)]
      rfl
    · have hne : chStateReg k ≠ ⟨.porterChDbCount, k, 0⟩ := by simp [chStateReg]
      split
      · exact (State.fget_fset_apart _ _ (by decide)).trans (State.fget_fset_ne _ _ hne)
      · exact State.fget_fset_ne _ _ hne
    · split <;> simp
  · exact congrArg Host.Outcome.next (State.porterDoorbell_stray hk)

end Sys2Proof.Machine
end

