-- ==== Sys2Proof/Proofs/PorterProgress.lean ====
section
/-!
SUPPORT. What a channel does of itself (R276, R283, R284, R286 to R290, R293). Settles O25.
-/
namespace Sys2Proof.Machine

/-! ### Fetching and waiting -/

section
variable {s u : State} {c : ChanNo} {a code : Nat} {d : Bytes}

section
variable (hc : s.chainMode c.val = true) (hs : s.chanState c.val ≠ 6) (hb : (s.chan c.val).busy = false)
  (hf : (s.chan c.val).fetchAt = some a)
include hc hs hb hf

/-- A channel that holds no descriptor reads the one it waits for. -/
theorem execPorterDescFetch_waiting : exec (.porterDescFetch c) s = match s.descRead c.val a with
    | (s, none) => done s
    | (s, some (.error code)) => done ((s.wr ⟨.porterChCur, c.val, 0⟩ (BitVec.ofNat 64 a)).chanHalt c.val code)
    | (s, some (.ok d)) => done (s.chanLoad c.val a d) := by
  show execPorterDescFetch c s = _
  simp only [execPorterDescFetch, hc, hs, hb, hf]
  rfl

theorem execPorterDescFetch_ok (hd : s.descRead c.val a = (u, some (.ok d))) :
    exec (.porterDescFetch c) s = .next (u.chanLoad c.val a d) := by
  rw [execPorterDescFetch_waiting hc hs hb hf, hd]

theorem execPorterDescFetch_error (hd : s.descRead c.val a = (u, some (.error code))) :
    exec (.porterDescFetch c) s = .next ((u.wr ⟨.porterChCur, c.val, 0⟩ (BitVec.ofNat 64 a)).chanHalt c.val code) := by
  rw [execPorterDescFetch_waiting hc hs hb hf, hd]

end

theorem execPorterDescFetch_register (hc : s.chainMode c.val = false) : exec (.porterDescFetch c) s = .next s :=
  if_pos (by simp [hc])

theorem execPorterWaitMet_met (h2 : s.chanState c.val = 2) (hm : s.bell.met.contains (.chan c.val) = true) :
    exec (.porterWaitMet c) s = .next ((s.withBell { s.bell with met := s.bell.met.erase (.chan c.val) }).chanRun c.val) := by
  show execPorterWaitMet c s = _
  simp only [execPorterWaitMet, if_pos h2, State.takeMet, if_pos hm]
  rfl

theorem State.chanRun_state (s : State) (k : Nat) : (s.chanRun k).chanState k = if dLength (s.act k) = 0 then 3 else 1 :=
  State.chanState_setChanState _ _ (by split <;> decide)

/-! ### Arbitration -/

/-- The part of a state that the choice of a channel leaves as it is. -/
def State.kept (s : State) : Tab Chan × Tab W64 × HomeSt := (s.porter.chans, s.regs, s.home)

theorem State.latchWeights_kept (s : State) (q level : Nat) : (s.latchWeights q level).kept = s.kept :=
  foldl_keeps State.kept (by intros; rfl) _ _

theorem State.pick_kept (s : State) (q level : Nat) (el : List Nat) : (s.pick q level el).1.kept = s.kept := by
  have hl := s.latchWeights_kept q level
  have hll := (s.latchWeights q level).latchWeights_kept q level
  simp only [State.pick]
  repeat' split
  all_goals simp only [hl, hll]

end

section
variable {s t : State} (h : t.kept = s.kept)
include h

theorem State.chan_of_kept (k : Nat) : t.chan k = s.chan k := by
  rw [State.chan, show t.porter.chans = s.porter.chans from congrArg Prod.fst h, State.chan]

theorem State.rd_of_kept (r : Reg) : t.rd r = s.rd r := State.rd_of_regs (congrArg (·.2.1) h) r

theorem State.fget_of_kept (r : Reg) (f : Fld) : t.fget r f = s.fget r f := by
  rw [State.fget, State.rd_of_kept h, State.fget]

theorem State.act_of_kept (k : Nat) : t.act k = s.act k := by
  simp only [State.act, State.setBytes, State.rd_of_kept h]

end

/-- The burst that a channel issues next (R278). -/
def State.nextBurst (s : State) (x : Nat) : Burst where
  id := (s.chan x).nextId
  src := dSrc (s.act x) + (s.chan x).issued
  dst := dDst (s.act x) + (s.chan x).issued
  srcAsid := dSrcAsid (s.act x)
  dstAsid := dDstAsid (s.act x)
  len := burstLen (s.act x) (s.chan x).issued (s.fget (chCfg x) F.porterChCfg_BURST_LOG2)

theorem State.nextBurst_of_kept {s t : State} (h : t.kept = s.kept) (x : Nat) : t.nextBurst x = s.nextBurst x := by
  simp only [State.nextBurst, State.chan_of_kept h, State.act_of_kept h, State.fget_of_kept h]

/-- The channel's books after the grant of its next burst. -/
def State.granted (s : State) (q level x left : Nat) : State :=
  let n := (s.chan x).issued + (s.nextBurst x).len
  let s' : State := { s with porter := { s.porter with round := put s.porter.round (key2 q level) (x, left) } }
  let s' := s'.setChan x { s.chan x with
    issued := n, nextId := (s.chan x).nextId + 1, flight := (s.chan x).flight ++ [s.nextBurst x] }
  let s' := s'.fset ⟨.porterChRemain, x, 0⟩ F.porterChRemain_BYTES (dLength (s.act x) - n)
  ((if dLength (s.act x) ≤ n then s'.setChanState x 3 else s').count q 42 0 (s.nextBurst x).len).count q 42 1 1

theorem State.granted_chan (s : State) (q level x left : Nat) : (s.granted q level x left).chan x = { s.chan x with
    issued := (s.chan x).issued + (s.nextBurst x).len, nextId := (s.chan x).nextId + 1,
    flight := (s.chan x).flight ++ [s.nextBurst x] } := by
  have hcount (t : State) (b n d : Nat) : (t.count q b n d).chan x = t.chan x := State.chan_of_porter x (by simp)
  simp only [State.granted, hcount]
  split
  · rw [State.chan_setChanState, State.chan_fset, State.chan_setChan]
  · rw [State.chan_fset, State.chan_setChan]

theorem State.granted_home (s : State) (q level x left : Nat) : (s.granted q level x left).home = s.home := by
  simp only [State.granted, State.count_home]
  split
  · rw [State.setChanState_home, State.fset_home, State.setChan_home]
  · rw [State.fset_home, State.setChan_home]

/-- The channels of Quarter `q`, and those of them that may issue a burst. -/
def chansOf (q : Nat) : List Nat := (List.range 64).map (64 * q + ·)

def State.eligibles (s : State) (q : Nat) : List Nat := (chansOf q).filter fun x => s.eligible x

section
variable {s u : State} {q : Qn}

/-- The engine has a channel to grant. -/
theorem State.grants (he : s.eligibles q.val ≠ []) (hf : s.qFenced q.val = false) :
    ((s.eligibles q.val).isEmpty || s.qFenced q.val) = false := by
  simp [hf, he]

theorem execPorterBurstGrant_none (he : s.eligibles q.val = []) : exec (.porterBurstGrant q) s = .next s :=
  if_pos (show ((s.eligibles q.val).isEmpty || s.qFenced q.val) = true by simp [he])

theorem execPorterBurstGrant_full (he : s.eligibles q.val ≠ []) (hf : s.qFenced q.val = false)
    (hn : 64 ≤ ((chansOf q.val).map fun x => (s.chan x).flight.length).sum) :
    exec (.porterBurstGrant q) s = .next (s.count q.val 42 4 1) :=
  (if_neg (ne_true_of_eq_false (State.grants he hf))).trans (if_pos hn)

theorem execPorterBurstGrant_pick {x left : Nat} (he : s.eligibles q.val ≠ []) (hf : s.qFenced q.val = false)
    (hn : ((chansOf q.val).map fun x => (s.chan x).flight.length).sum < 64)
    (hp : s.pick q.val (((s.eligibles q.val).map fun x => s.prio x).foldl max 0) ((s.eligibles q.val).filter fun x =>
      decide (s.prio x = ((s.eligibles q.val).map fun x => s.prio x).foldl max 0)) = (u, some (x, left))) :
    exec (.porterBurstGrant q) s = .next ((u.granted q.val (((s.eligibles q.val).map fun x => s.prio x).foldl max 0) x
      left).burstTranslate x (u.nextBurst x)) := by
  refine (if_neg (ne_true_of_eq_false (State.grants he hf))).trans ((if_neg (Nat.not_le.2 hn)).trans ?_)
  exact congrArg (fun y : State × Option (Nat × Nat) => match y with
    | (s, none) => done s
    | (s', some (x, left)) => Host.Outcome.next ((s'.granted q.val (((s.eligibles q.val).map fun x => s.prio x).foldl max 0) x
      left).burstTranslate x (s'.nextBurst x))) hp

end

/-! ### Responses and completion -/

section
variable {s u : State} {c : ChanNo}

theorem execPorterBurstResponse_read {n : Nat} {b : Burst} {d : Bytes} {p : Bool} (hs : s.chanState c.val ≠ 6)
    (hb : s.burst c.val n = some b) (hr : b.phase = .read) (ht : b.srcTgt = 0) (hf : b.isFlush = false)
    (hm : s.readMem (s.reqPrec (chReq c.val)) (chReq c.val) b.srcAsid b.srcPa b.len = (u, d, p)) :
    exec (.porterBurstResponse c n (.ok [] false)) s = .next
      ((u.setBurst c.val { b with data := d, poison := p, phase := .write }).burstWrite c.val
        { b with data := d, poison := p, phase := .write }) := by
  show execPorterBurstResponse c n (.ok [] false) s = _
  simp only [execPorterBurstResponse, if_neg hs, hb, hr, State.burstAnswer, ht, hm, State.burstData]
  rw [if_neg (by simp [hf])]

theorem execPorterBurstResponse_over {n : Nat} (hs : s.chanState c.val ≠ 6) (hb : s.burst c.val n = none) :
    exec (.porterBurstResponse c n (.ok [] false)) s = .next s := by
  show execPorterBurstResponse c n (.ok [] false) s = _
  simp only [execPorterBurstResponse, if_neg hs, hb]

theorem execPorterDescComplete_undrained (hd : s.drained c.val = false) : exec (.porterDescComplete c) s = .next s :=
  if_neg (by simp [hd])

theorem execPorterDescComplete_drained (hd : s.drained c.val = true) (hb : dBarrier (s.act c.val) = false) :
    exec (.porterDescComplete c) s = .next (s.descDone c.val) := by
  have hflush : s.flushNeeded c.val = (s, none) := if_neg (by simp [hb])
  show execPorterDescComplete c s = _
  simp only [execPorterDescComplete, if_pos hd, hflush]

end

/-- What follows a register-mode descriptor that has completed with status 0. -/
theorem State.chanNext_register {s : State} {k : Nat} (hc : s.chainMode k = false) (d : Bytes) : s.chanNext k 0 d =
    if (s.setChan k {}).chGo k then (s.setChan k {}).swapStart k else (s.setChan k {}).setChanState k 0 := by
  simp only [State.chanNext]
  rw [if_neg (by simp), if_pos (by simp [hc])]

section
variable {s : State} {k : Nat} (hc : s.chainMode k = false) (hf : (s.chan k).fail = none) (ha : (s.chan k).aborted = false)
  (hk : (s.chan k).skipped = false) (hsig : dSigCtr (s.act k) = 0xFFFF) (hirq : dIrq (s.act k) = false)

/-- The status of a completed transfer is written, and counted. -/
def State.statusWritten (s : State) (k : Nat) : State := (s.wr ⟨.porterChLast, k, 0⟩ 0).count (chQ k) 42 2 1

theorem State.statusWritten_rd {r : Reg} (hn : r.name ≠ .wmCnt) (hl : r ≠ ⟨.porterChLast, k, 0⟩) :
    (s.statusWritten k).rd r = s.rd r := by
  rw [State.statusWritten, State.count_rd _ _ _ _ _ hn, State.rd_wr_ne _ _ hl]

theorem State.statusWritten_last : (s.statusWritten k).rd ⟨.porterChLast, k, 0⟩ = 0 := by
  rw [State.statusWritten, State.count_rd _ _ _ _ _ (by simp), State.rd_wr_same]

theorem State.statusWritten_home : (s.statusWritten k).home = s.home := by
  simp [State.statusWritten]

include hc hf ha hk hsig hirq in
/-- A register-mode descriptor that moved all its bytes completes with status 0. -/
theorem State.descDone_register : s.descDone k = if s.chGo k
    then ((s.statusWritten k).setChan k {}).swapStart k else ((s.statusWritten k).setChan k {}).setChanState k 0 := by
  have hres : (s.chan k).result = (0, 0) := by simp [Chan.result, hf, ha, hk]
  have hmode : (s.statusWritten k).chainMode k = false := by
    rw [← hc]
    exact congrArg (fun v => decide (bitsOf v _ = 1)) (State.statusWritten_rd (by simp [chCfg]) (by simp [chCfg]))
  have hgo : ((s.statusWritten k).setChan k {}).chGo k = s.chGo k :=
    congrArg (fun v => decide (bitsOf v _ = 1)) (State.statusWritten_rd (by simp [chCtrl]) (by simp [chCtrl]))
  have hfinish : s.descDone k = (s.statusWritten k).chanNext k 0 (s.act k) := by
    simp only [State.descDone, hres, hc, hsig, hirq, State.signal]
    rfl
  rw [hfinish, State.chanNext_register hmode, hgo]

end

/-- Settles O25: each row is its case; a completed descriptor leaves the channel empty. -/
theorem porterProgress : Obligations.PorterProgress := by
  refine ⟨fun s c q => ?_, fun s k hk => ?_⟩
  · intro k ch chans el
    refine ⟨fun a u d => execPorterDescFetch_ok, fun a u code => execPorterDescFetch_error, execPorterDescFetch_register,
      fun h2 hm => ?_, fun h2 => if_neg h2, execPorterBurstGrant_none, execPorterBurstGrant_full,
      fun u x left he hf hn hp => ?_, fun n b u d p => execPorterBurstResponse_read, fun n => execPorterBurstResponse_over,
      execPorterDescComplete_drained, execPorterDescComplete_undrained⟩
    · refine ⟨_, execPorterWaitMet_met h2 hm, State.chanRun_state _ _, ?_,
        fun r hr => State.setChanState_rd_ne _ _ (by simpa using hr), State.fset_home ..⟩
      rw [State.chanRun, State.setChanState, State.fset_bell, State.withBell_bell]
    · have hkept : u.kept = s.kept := (congrArg (·.1.kept) hp).symm.trans (State.pick_kept ..)
      refine ⟨_, _, execPorterBurstGrant_pick he hf hn hp, ?_, ?_, ?_, ?_, ?_, ?_⟩
      all_goals simp only [State.granted_chan, State.granted_home, State.chan_of_kept hkept, State.nextBurst_of_kept hkept]
      · rfl
      · rfl
      · rfl
      · exact congrArg (·.2.2) hkept
  · intro ch d hc hf ha hs hsig hirq
    rw [State.descDone_register hc hf ha hs hsig hirq]
    refine ⟨fun hgo => ⟨_, if_neg (by simp [hgo]), ?_, State.chanState_setChanState _ _ (by decide), ?_, ?_⟩,
      fun hgo => ⟨_, State.chan_setChan _ _ _, State.statusWritten_last, State.statusWritten_home, if_pos hgo⟩⟩
    · rw [State.fget, State.setChanState_rd_ne _ _ (by simp [chStateReg]), State.setChan_rd, State.statusWritten_last]
      rfl
    · rw [State.chan_setChanState, State.chan_setChan]
    · rw [State.setChanState_home, State.setChan_home, State.statusWritten_home]

end Sys2Proof.Machine
end

