-- ==== Sys2Proof/Proofs/Streets.lean ====
section
/-!
SUPPORT. Street routes, flits and credits (R248 to R252). Settles O26.
-/
namespace Sys2Proof.Machine

/-- The fields of a route that a write with VALID set keeps. -/
def routeKept (v : W64) : W64 :=
  setBits (setBits (setBits (setBits (setBits (setBits 0 F.streetRoute_VALID 1)
    F.streetRoute_PRECINCT (bitsOf v F.streetRoute_PRECINCT))
    F.streetRoute_DST_PORT (bitsOf v F.streetRoute_DST_PORT))
    F.streetRoute_DST_STALL (bitsOf v F.streetRoute_DST_STALL))
    F.streetRoute_SRC_PORT (bitsOf v F.streetRoute_SRC_PORT))
    F.streetRoute_SRC_STALL (bitsOf v F.streetRoute_SRC_STALL)

/-- A field takes the field of a word whole. -/
theorem bitsOf_setBits_field (w v : W64) {f : Fld} (hf : f.hi < 64) : bitsOf (setBits w f (bitsOf v f)) f = bitsOf v f := by
  rw [bitsOf_setBits_same _ _ hf, Nat.mod_eq_of_lt (bitsOf_lt _)]

theorem routeKept_valid (v : W64) : bitsOf (routeKept v) F.streetRoute_VALID = 1 := by
  rw [routeKept, bitsOf_setBits_apart _ _ (by decide), bitsOf_setBits_apart _ _ (by decide), bitsOf_setBits_apart _ _ (by decide),
    bitsOf_setBits_apart _ _ (by decide), bitsOf_setBits_apart _ _ (by decide), bitsOf_setBits_same _ _ (by decide)]
  rfl

theorem routeKept_border (v : W64) : bitsOf (routeKept v) F.streetRoute_BORDER = 0 := by
  rw [routeKept, bitsOf_setBits_apart _ _ (by decide), bitsOf_setBits_apart _ _ (by decide), bitsOf_setBits_apart _ _ (by decide),
    bitsOf_setBits_apart _ _ (by decide), bitsOf_setBits_apart _ _ (by decide), bitsOf_setBits_apart _ _ (by decide)]
  rfl

theorem routeKept_source (v : W64) : bitsOf (routeKept v) F.streetRoute_SRC_STALL = bitsOf v F.streetRoute_SRC_STALL :=
  bitsOf_setBits_field _ v (by decide)

theorem routeKept_destination (v : W64) : bitsOf (routeKept v) F.streetRoute_DST_STALL = bitsOf v F.streetRoute_DST_STALL := by
  rw [routeKept, bitsOf_setBits_apart _ _ (by decide), bitsOf_setBits_apart _ _ (by decide), bitsOf_setBits_field _ v (by decide)]

theorem routeKept_precinct (v : W64) : bitsOf (routeKept v) F.streetRoute_PRECINCT = bitsOf v F.streetRoute_PRECINCT := by
  rw [routeKept, bitsOf_setBits_apart _ _ (by decide), bitsOf_setBits_apart _ _ (by decide), bitsOf_setBits_apart _ _ (by decide),
    bitsOf_setBits_apart _ _ (by decide), bitsOf_setBits_field _ v (by decide)]

/-! ### Routes -/

section
variable {s : State} {rq : Requester} {q n : Nat} {v : W64}

theorem State.routeSetup_admitted (hk : rqKernel rq = true) (ho : s.routeOk q n v = true) :
    s.routeSetup rq q n v = (s.wr (routeReg q n) (routeKept v)).routeStart q n :=
  if_pos (by simp [hk, ho])

theorem State.routeSetup_stray (h : rqKernel rq = false ∨ s.routeOk q n v = false) :
    s.routeSetup rq q n v = s.strayCode (rqCode rq) 2 (routeReg q n).offset :=
  if_neg (by obtain h | h := h <;> simp [h])

theorem State.routeStart_rd_ne {r : Reg} (h : r ≠ routeReg q n) : (s.routeStart q n).rd r = s.rd r :=
  State.rd_fset_ne s F.streetRoute_ACTIVE 1 h

/-- A field of the route beside ACTIVE. -/
theorem State.routeStart_field (w : W64) {f : Fld} (h : f.hi < F.streetRoute_ACTIVE.lo ∨ F.streetRoute_ACTIVE.hi < f.lo) :
    ((s.wr (routeReg q n) w).routeStart q n).fget (routeReg q n) f = bitsOf w f :=
  (State.fget_fset_apart (s.wr (routeReg q n) w) 1 h).trans (congrArg (bitsOf · f) (State.rd_wr_same ..))

theorem State.routeStart_active : (s.routeStart q n).routeActive q n = true :=
  decide_eq_true (State.fget_fset_same s 1 (by decide))

theorem State.routeStart_home : (s.routeStart q n).home = s.home := by
  show (s.fset (routeReg q n) F.streetRoute_ACTIVE 1).home = s.home
  rw [State.fset_home]

theorem State.routeStart_credits : (s.routeStart q n).routeCredits q n = 32 := by
  show lookD 32 (drop s.street.credits (key2 q n)) (key2 q n) = 32
  simp [lookD]

theorem State.routeTeardown_active (hk : rqKernel rq = true) (hb : s.fbit (routeReg q n) F.streetRoute_BORDER = false)
    (ha : s.routeActive q n = true) : s.routeTeardown rq q n v = s.fset (routeReg q n) F.streetRoute_VALID 0 :=
  (if_neg (by simp [hk, hb])).trans (if_pos ha)

theorem State.routeTeardown_stray (h : rqKernel rq = false ∨ s.fbit (routeReg q n) F.streetRoute_BORDER = true) :
    s.routeTeardown rq q n v = s.strayCode (rqCode rq) 2 (routeReg q n).offset :=
  if_pos (by obtain h | h := h <;> simp [h])

theorem State.routeDrained_empty (ha : s.routeActive q n = true) (hv : s.fbit (routeReg q n) F.streetRoute_VALID = false)
    (hf : s.inFlits (s.fget (routeReg q n) F.streetRoute_DST_STALL) (s.fget (routeReg q n) F.streetRoute_DST_PORT) = [])
    (hc : s.routeCredits q n = 32) : s.routeDrained q n = s.fset (routeReg q n) F.streetRoute_ACTIVE 0 :=
  if_pos (show (s.routeActive q n && !s.fbit (routeReg q n) F.streetRoute_VALID && (s.inFlits
    (s.fget (routeReg q n) F.streetRoute_DST_STALL) (s.fget (routeReg q n) F.streetRoute_DST_PORT)).isEmpty &&
    decide (s.routeCredits q n = 32)) = true by simp [ha, hv, hf, hc])

theorem State.routeDrained_valid (hv : s.fbit (routeReg q n) F.streetRoute_VALID = true) : s.routeDrained q n = s :=
  if_neg (by simp [hv])

end

/-! ### Flits and credits -/

section
variable {s : State} {q : Qn} {n : Fin 256} {f : Flit} {fs : List Flit}

/-- The sender of a route, and its receiver. -/
abbrev State.sender (s : State) (q n : Nat) : Nat :=
  key2 (s.fget (routeReg q n) F.streetRoute_SRC_STALL) (s.fget (routeReg q n) F.streetRoute_SRC_PORT)

abbrev State.receiver (s : State) (q n : Nat) : Nat :=
  key2 (s.fget (routeReg q n) F.streetRoute_DST_STALL) (s.fget (routeReg q n) F.streetRoute_DST_PORT)

theorem State.route_eq (s : State) (q n : Nat) : s.route q n =
    (s.fget (routeReg q n) F.streetRoute_SRC_STALL, s.fget (routeReg q n) F.streetRoute_SRC_PORT,
      s.fget (routeReg q n) F.streetRoute_DST_STALL, s.fget (routeReg q n) F.streetRoute_DST_PORT) := rfl

section
variable (ha : s.routeActive q.val n.val = true) (hv : s.fbit (routeReg q.val n.val) F.streetRoute_VALID = true)
  (hf : lookD [] s.street.outq (s.sender q.val n.val) = f :: fs)
include ha hv hf

theorem execStreetFlit_crosses (hc : 0 < s.routeCredits q.val n.val)
    (hi : s.injAt 0x03 (s.fget (routeReg q.val n.val) F.streetRoute_SRC_STALL) (fun _ => true) = none) :
    exec (.streetFlit q n false) s = .next { s.count q.val 46 0 1 with street := { s.street with
      outq := putD [] s.street.outq (s.sender q.val n.val) fs,
      inq := put s.street.inq (s.receiver q.val n.val) (lookD [] s.street.inq (s.receiver q.val n.val) ++ [f]),
      credits := put s.street.credits (key2 q.val n.val) (s.routeCredits q.val n.val - 1) } } := by
  show execStreetFlit q n false s = _
  simp only [execStreetFlit, State.route_eq, ha, hv, hf, if_neg hc.ne', State.count_injAt, hi, State.count_street, State.inFlits,
    Option.isSome_none, Bool.or_false, Bool.not_true, Bool.false_eq_true, if_false]

theorem execStreetFlit_waits (hc : s.routeCredits q.val n.val = 0) :
    exec (.streetFlit q n false) s = .next (s.count q.val 46 1 1) := by
  show execStreetFlit q n false s = _
  simp only [execStreetFlit, State.route_eq, ha, hv, hf, hc]
  rfl

end

theorem execStreetCreditReturn_taken (ha : s.routeActive q.val n.val = true)
    (hp : s.pieceLater (s.fget (routeReg q.val n.val) F.streetRoute_DST_STALL)
      (s.fget (routeReg q.val n.val) F.streetRoute_DST_PORT) = false)
    (hf : s.inFlits (s.fget (routeReg q.val n.val) F.streetRoute_DST_STALL)
      (s.fget (routeReg q.val n.val) F.streetRoute_DST_PORT) = f :: fs) :
    exec (.streetCreditReturn q n) s = .next { s with street := { s.street with
        inq := putD [] s.street.inq (s.receiver q.val n.val) fs,
        taken := put s.street.taken (s.receiver q.val n.val) (lookD [] s.street.taken (s.receiver q.val n.val) ++ [f]),
        credits := putD 32 s.street.credits (key2 q.val n.val) (min 32 (s.routeCredits q.val n.val + 1)) } } := by
  show execStreetCreditReturn q n s = _
  simp only [execStreetCreditReturn, State.route_eq, ha, hp, hf]
  rfl

end

/-- Settles O26: each row is its case, and the tables of flits and credits are read back. -/
theorem streetRows : Obligations.StreetRows := by
  intro s rq q n v f fs r src sp dst dp
  refine ⟨fun hk ho => ⟨_, congrArg Host.Outcome.next (State.routeSetup_admitted hk ho), State.routeStart_active, ?_, ?_, ?_, ?_, ?_,
      State.routeStart_credits, fun x hx => ?_, ?_⟩,
    fun h => congrArg Host.Outcome.next (State.routeSetup_stray h),
    fun hk hb ha => congrArg Host.Outcome.next (State.routeTeardown_active hk hb ha),
    fun h => congrArg Host.Outcome.next (State.routeTeardown_stray h),
    fun ha hv hf hc => congrArg Host.Outcome.next (State.routeDrained_empty ha hv hf hc),
    fun hv => congrArg Host.Outcome.next (State.routeDrained_valid hv),
    fun ha hv hf => ⟨fun hc hi => ⟨_, execStreetFlit_crosses ha hv hf hc hi, ?_, ?_, ?_, ?_, ?_⟩, execStreetFlit_waits ha hv hf⟩,
    fun ha hp hf => ⟨_, execStreetCreditReturn_taken ha hp hf, ?_, ?_, ?_, rfl, rfl⟩⟩
  · exact (State.routeStart_field _ (by decide)).trans (routeKept_valid v)
  · exact (State.routeStart_field _ (by decide)).trans (routeKept_border v)
  · exact (State.routeStart_field _ (by decide)).trans (routeKept_source v)
  · exact (State.routeStart_field _ (by decide)).trans (routeKept_destination v)
  · exact (State.routeStart_field _ (by decide)).trans (routeKept_precinct v)
  · have hx : x ≠ r := by simpa using hx
    rw [State.routeStart_rd_ne hx, State.rd_wr_ne _ _ hx]
  · rw [State.routeStart_home, State.wr_home]
  · show lookD [] (putD [] s.street.outq (s.sender q.val n.val) fs) (s.sender q.val n.val) = fs
    simp
  · exact (lookD_put [] s.street.inq _ _ _).trans (if_pos rfl)
  · simp [State.routeCredits, lookD_put]
  · exact State.count_home ..
  · exact State.count_out ..
  · show lookD [] (putD [] s.street.inq (s.receiver q.val n.val) fs) (s.receiver q.val n.val) = fs
    simp
  · exact (lookD_put [] s.street.taken _ _ _).trans (if_pos rfl)
  · show lookD 32 (putD 32 s.street.credits (key2 q.val n.val) _) (key2 q.val n.val) = _
    simp

end Sys2Proof.Machine
end

