-- ==== Sys2Proof/Proofs/Blvds.lean ====
section
/-!
SUPPORT. Boulevards (R253 to R255): transfers, each applied once, and retraining. Settles O27.
-/
namespace Sys2Proof.Machine

/-! ### The two ends of a Boulevard -/

theorem State.fset_regs_only (s : State) (r : Reg) (f : Fld) (v : Nat) : s.fset r f v = { s with regs := (s.fset r f v).regs } := rfl

section
variable {s : State} {p q : Nat}

theorem blvdReg_ne (h : p ≠ q) : blvdReg p q ≠ blvdReg q p := by
  simp [blvdReg, h]

theorem State.setBlvd_other {v : Nat} : (s.setBlvd p q v).blvdIs q p (v % 4) = true :=
  decide_eq_true (State.fget_fset_same _ _ (by decide))

theorem State.setBlvd_this (h : p ≠ q) {v : Nat} : (s.setBlvd p q v).blvdIs p q (v % 4) = true :=
  decide_eq_true ((State.fget_fset_ne _ _ (blvdReg_ne h)).trans (State.fget_fset_same _ _ (by decide)))

theorem State.setBlvd_regs_only (v : Nat) : s.setBlvd p q v = { s with regs := (s.setBlvd p q v).regs } := rfl

theorem State.setBlvd_regsBut (v : Nat) : s.regsBut (s.setBlvd p q v) [blvdReg p q, blvdReg q p] := by
  intro r hr
  simp only [List.mem_cons, List.not_mem_nil, or_false, not_or] at hr
  rw [State.setBlvd, State.rd_fset_ne _ _ _ hr.2, State.rd_fset_ne _ _ _ hr.1]

@[simp] theorem State.blvdDir_setDir (d : BlvdDir) : (s.setDir p q d).blvdDir p q = d := by
  simp [State.blvdDir, State.setDir]

end

/-! ### Transfers and retraining -/

section
variable {s : State} {p q : Qn}

theorem execBlvdTransfer_new {a : HomeAccess} {e : BlvdEnd} (hne : p ≠ q) (hup : s.blvdIs p.val q.val 2 = true)
    (hq : homeQ a.addr = q.val) (hr : reqQ a.req ≠ q.val) (hu : (s.blvdDir p.val q.val).unacked = [])
    (hb : HomeAccess_buffers a ≤ 4096) (hi : s.injAt 0x04 (blvdUnit q.val p.val) (fun _ => true) = none) :
    exec (.blvdTransfer p q false a e) s = .next ((s.setDir p.val q.val { s.blvdDir p.val q.val with
      next := (s.blvdDir p.val q.val).next + 1, unacked := [⟨(s.blvdDir p.val q.val).next, a⟩] }).blvdCross p.val q.val
        ⟨(s.blvdDir p.val q.val).next, a⟩ false e) := by
  show execBlvdTransfer p q false a e s = _
  have hp : ¬ p.val = q.val := fun h => hne (Fin.ext h)
  have hi' (d : BlvdDir) : (s.setDir p.val q.val d).injAt 0x04 (blvdUnit q.val p.val) (fun _ => true) = none := hi
  simp only [execBlvdTransfer, if_neg hp, if_pos hup, hu, hi', List.nil_append]
  refine (if_neg Bool.false_ne_true).trans (if_neg ?_)
  simp [hq, hr, hb]

/-- The base dies that a Boulevard joins again. -/
def State.rejoined (s : State) (p q : Nat) : State :=
  [p, q].foldl (fun s x =>
    if s.err.cutOff.contains x ∧ x % 2 = 0 ∧ (s.port (x / 2)).perst = false then
      s.setFunc (256 * (x / 2)) { s.func (256 * (x / 2)) with power := 0 }
    else s) s

theorem State.rejoined_kept (s : State) (p q : Nat) : (s.rejoined p q).regs = s.regs ∧ (s.rejoined p q).home = s.home := by
  have h := foldl_keeps (fun s : State => (s.regs, s.home)) (f := fun s x =>
    if s.err.cutOff.contains x ∧ x % 2 = 0 ∧ (s.port (x / 2)).perst = false then
      s.setFunc (256 * (x / 2)) { s.func (256 * (x / 2)) with power := 0 } else s)
    (fun s x => by split <;> simp) [p, q] s
  exact ⟨congrArg Prod.fst h, congrArg Prod.snd h⟩

/-- Base dies cut off no more. -/
def State.uncut (s : State) (p q : Nat) : State :=
  { s with err := { s.err with cutOff := s.err.cutOff.filter fun x => decide (x ≠ p) && decide (x ≠ q) } }

theorem execBlvdRelayDrainDone_up (hne : p ≠ q) (hd : s.blvdIs p.val q.val 3 = true) (hu : (s.blvdDir p.val q.val).unacked = [])
    (hu' : (s.blvdDir q.val p.val).unacked = []) : exec (.blvdRelayDrainDone p q) s =
      .next (((s.setBlvd p.val q.val 2).rejoined p.val q.val).uncut p.val q.val) :=
  if_pos ⟨hne, hd, by simp [hu], by simp [hu']⟩

end

/-- Settles O27: each row is its case; a direction's books are read back. -/
theorem boulevards : Obligations.Boulevards := by
  refine ⟨fun s p q a e => ?_, fun s p q t => ⟨fun h => if_pos h, fun h => if_neg (Nat.not_lt.2 h), ?_, ?_, rfl⟩⟩
  · refine ⟨execBlvdTransfer_new, if_pos rfl, fun hne h2 h3 => ?_, fun hne hd hu hu' => ?_, fun h3 => if_neg (by simp [h3])⟩
    · have hv : p.val ≠ q.val := fun h => hne (Fin.ext h)
      exact ⟨_, if_neg (by simp [hne, h2, h3]), State.setBlvd_this hv (v := 3), State.setBlvd_other (v := 3), State.setBlvd_regsBut 3,
        State.setBlvd_regs_only 3⟩
    · have hv : p.val ≠ q.val := fun h => hne (Fin.ext h)
      obtain ⟨hregs, hhome⟩ := (s.setBlvd p.val q.val 2).rejoined_kept p.val q.val
      have hrd (r : Reg) : (((s.setBlvd p.val q.val 2).rejoined p.val q.val).uncut p.val q.val).rd r = (s.setBlvd p.val q.val 2).rd r :=
        State.rd_of_regs hregs r
      have his (x y v : Nat) (h : (s.setBlvd p.val q.val 2).blvdIs x y v = true) :
          (((s.setBlvd p.val q.val 2).rejoined p.val q.val).uncut p.val q.val).blvdIs x y v = true := by
        rw [State.blvdIs, State.fget, hrd]
        exact h
      refine ⟨_, execBlvdRelayDrainDone_up hne hd hu hu', his _ _ _ (State.setBlvd_this hv (v := 2)),
        his _ _ _ (State.setBlvd_other (v := 2)), ?_, ?_, fun r hr => (hrd r).trans (State.setBlvd_regsBut 2 r hr), hhome⟩
      all_goals simp [State.uncut]
  · rw [State.blvdAck, State.blvdDir_setDir]
  · rw [State.blvdAck, State.blvdDir_setDir]

end Sys2Proof.Machine
end

