-- ==== Sys2Proof/Proofs/WmRows.lean ====
section
/-!
SUPPORT. Weighmaster counters (R538, R541, R543): events, carries, writes and chains. Settles O28.
-/
namespace Sys2Proof.Machine

/-- A field written in a state that differs from `s` in registers only. -/
theorem State.fset_regs_only_of {s t : State} (r : Reg) (f : Fld) (v : Nat) (h : t = { s with regs := t.regs }) :
    t.fset r f v = { s with regs := (t.fset r f v).regs } :=
  congrArg (fun u : State => { u with regs := (t.fset r f v).regs }) h

/-! ### Slots -/

theorem wmReg_ne (q b : Nat) {m n : Nat} (h : m ≠ n) : wmReg q b m ≠ wmReg q b n := by
  simpa [wmReg] using h

section
variable (s : State) (q b n k : Nat)

/-- Events that do not carry. -/
theorem State.wmAdd_within (h : s.fget (wmReg q b n) F.wmCnt_COUNT + k < 2 ^ 48) :
    s.wmAdd q b n k = (s.fset (wmReg q b n) F.wmCnt_COUNT ((s.fget (wmReg q b n) F.wmCnt_COUNT + k) % 2 ^ 48), false) :=
  if_pos h

/-- A carry into the extension of a chained slot. -/
theorem State.wmAdd_chained (h : 2 ^ 48 ≤ s.fget (wmReg q b n) F.wmCnt_COUNT + k) (hk : k < 2 ^ 48) (hc : s.chained q b n = true) :
    s.wmAdd q b n k = ((s.fset (wmReg q b n) F.wmCnt_COUNT ((s.fget (wmReg q b n) F.wmCnt_COUNT + k) % 2 ^ 48)).fset
      (wmReg q b (n + 16)) F.wmCnt_COUNT ((s.fget (wmReg q b (n + 16)) F.wmCnt_COUNT + 1) % 2 ^ 48), true) := by
  have hlt : s.fget (wmReg q b n) F.wmCnt_COUNT < 2 ^ 48 := State.fget_lt s
  have hone : (s.fget (wmReg q b n) F.wmCnt_COUNT + k) / 2 ^ 48 = 1 := by omega
  refine (if_neg (Nat.not_lt.2 h)).trans ((if_pos hc).trans ?_)
  rw [hone]
  simp only [State.fget_fset_ne _ _ (wmReg_ne q b (show n + 16 ≠ n by omega))]

/-- A carry of an unchained slot. -/
theorem State.wmAdd_wrapped (h : 2 ^ 48 ≤ s.fget (wmReg q b n) F.wmCnt_COUNT + k) (hc : s.chained q b n = false) :
    s.wmAdd q b n k = ((s.fset (wmReg q b n) F.wmCnt_COUNT ((s.fget (wmReg q b n) F.wmCnt_COUNT + k) % 2 ^ 48)).fset
      (wmReg q b n) F.wmCnt_WRAPPED 1, true) :=
  (if_neg (Nat.not_lt.2 h)).trans (if_neg (ne_true_of_eq_false hc))

theorem State.wmAdd_regs_only : (s.wmAdd q b n k).1 = { s with regs := (s.wmAdd q b n k).1.regs } := by
  simp only [State.wmAdd]
  split
  · rfl
  · split <;> rfl

theorem State.wmAdd_rd {r : Reg} (h : r ≠ wmReg q b n) (hx : r ≠ wmReg q b (n + 16)) : (s.wmAdd q b n k).1.rd r = s.rd r := by
  simp only [State.wmAdd]
  split
  · rw [State.rd_fset_ne _ _ _ h]
  · split
    · rw [State.rd_fset_ne _ _ _ hx, State.rd_fset_ne _ _ _ h]
    · rw [State.rd_fset_ne _ _ _ h, State.rd_fset_ne _ _ _ h]

theorem State.wmAdd_count : (s.wmAdd q b n k).1.fget (wmReg q b n) F.wmCnt_COUNT =
    (s.fget (wmReg q b n) F.wmCnt_COUNT + k) % 2 ^ 48 := by
  have hset : (s.fset (wmReg q b n) F.wmCnt_COUNT ((s.fget (wmReg q b n) F.wmCnt_COUNT + k) % 2 ^ 48)).fget (wmReg q b n)
      F.wmCnt_COUNT = (s.fget (wmReg q b n) F.wmCnt_COUNT + k) % 2 ^ 48 :=
    (State.fget_fset_same _ _ (by decide)).trans (Nat.mod_mod _ _)
  simp only [State.wmAdd]
  split
  · exact hset
  · split
    · exact (State.fget_fset_ne _ _ (wmReg_ne q b (by omega))).trans hset
    · exact (State.fget_fset_apart _ _ (by decide)).trans hset

/-- Events of a slot that is not armed only count. -/
theorem State.event_unarmed (c : SampleCtx) (hk : k ≠ 0) (hf : s.qFenced q = false) (ha : s.slotArmed q b n = false) :
    s.event q b n k c = (s.wmAdd q b n k).1 := by
  have ha' : (s.wmAdd q b n k).1.slotArmed q b n = false := by
    rw [State.slotArmed, State.fget, State.wmAdd_rd _ _ _ _ _ (by simp [wmReg]) (by simp [wmReg])]
    exact ha
  refine (if_neg hk).trans ((if_neg (by simp [hf])).trans ?_)
  exact if_neg (show ¬ ((s.wmAdd q b n k).2 && armable b && (s.wmAdd q b n k).1.slotArmed q b n) = true by simp [ha'])

end

/-! ### Writes -/

section
variable {s : State} {rq : Requester} {q b n : Nat} {v : W64}

theorem State.counterWrite_taken (hk : rqKernel rq = true) (ho : wmSlotOk q b n = true) (hn : n < 16) :
    s.counterWrite rq q b n v = if bitsOf v F.wmCnt_WRAPPED = 1
      then (s.fset (wmReg q b n) F.wmCnt_COUNT (bitsOf v F.wmCnt_COUNT)).fset (wmReg q b n) F.wmCnt_WRAPPED 0
      else s.fset (wmReg q b n) F.wmCnt_COUNT (bitsOf v F.wmCnt_COUNT) :=
  (if_neg (by simp [hk, ho])).trans (if_neg (by omega))

theorem State.counterWrite_stray (hk : rqKernel rq = false) :
    s.counterWrite rq q b n v = s.strayCode (rqCode rq) 2 (wmReg q b n).offset :=
  if_pos (by simp [hk])

theorem State.fget_counterWrite (hk : rqKernel rq = true) (ho : wmSlotOk q b n = true) (hn : n < 16) :
    (s.counterWrite rq q b n v).fget (wmReg q b n) F.wmCnt_COUNT = bitsOf v F.wmCnt_COUNT ∧
    (s.counterWrite rq q b n v).fget (wmReg q b n) F.wmCnt_WRAPPED =
      (if bitsOf v F.wmCnt_WRAPPED = 1 then 0 else s.fget (wmReg q b n) F.wmCnt_WRAPPED) := by
  have hset : (s.fset (wmReg q b n) F.wmCnt_COUNT (bitsOf v F.wmCnt_COUNT)).fget (wmReg q b n) F.wmCnt_COUNT =
      bitsOf v F.wmCnt_COUNT := (State.fget_fset_same _ _ (by decide)).trans (Nat.mod_eq_of_lt (bitsOf_lt _))
  rw [State.counterWrite_taken hk ho hn]
  split
  · exact ⟨(State.fget_fset_apart _ _ (by decide)).trans hset, State.fget_fset_same _ _ (by decide)⟩
  · exact ⟨hset, State.fget_fset_apart _ _ (by decide)⟩

/-! ### Chains -/

/-- One extension of a block, set to 0 where its bit of CHAIN changes. -/
def State.clearExt (q b old new : Nat) (s : State) (n : Nat) : State :=
  if nbit old n = nbit new n then s else s.wr (wmReg q b (n + 16)) 0

theorem State.rd_clearExt (old new m : Nat) (l : List Nat) (s : State) :
    (l.foldl (State.clearExt q b old new) s).rd (wmReg q b (m + 16)) =
      if m ∈ l ∧ nbit old m ≠ nbit new m then 0 else s.rd (wmReg q b (m + 16)) := by
  induction l generalizing s with
  | nil => simp
  | cons x xs ih =>
    rw [List.foldl_cons, ih, State.clearExt]
    obtain rfl | hx := eq_or_ne x m
    · by_cases hd : nbit old x = nbit new x
      · simp [hd]
      · rw [if_neg hd, State.rd_wr_same]
        simp [hd]
    · have hm : m + 16 ≠ x + 16 := by omega
      have hne : (if nbit old x = nbit new x then s else s.wr (wmReg q b (x + 16)) 0).rd (wmReg q b (m + 16)) =
          s.rd (wmReg q b (m + 16)) := by
        split
        · rfl
        · exact State.rd_wr_ne _ _ (wmReg_ne q b hm)
      rw [hne]
      simp [hx.symm]

theorem State.clearExt_regs_only (old new : Nat) (l : List Nat) (s : State) :
    l.foldl (State.clearExt q b old new) s = { s with regs := (l.foldl (State.clearExt q b old new) s).regs } := by
  refine foldl_inv (fun t : State => t = { s with regs := t.regs }) (fun t n ht => ?_) l rfl
  rw [State.clearExt]
  split
  · exact ht
  · exact congrArg (fun u : State => { u with regs := (t.wr (wmReg q b (n + 16)) 0).regs }) ht

theorem State.clearExt_rd (old new : Nat) {r : Reg} (hr : ∀ m, r ≠ wmReg q b (m + 16)) (l : List Nat) (s : State) :
    (l.foldl (State.clearExt q b old new) s).rd r = s.rd r := by
  refine foldl_keeps (fun t : State => t.rd r) (fun t n => ?_) l s
  rw [State.clearExt]
  split
  · rfl
  · exact State.rd_wr_ne _ _ (hr n)

theorem State.chainWrite_taken (hk : rqKernel rq = true) : s.chainWrite rq q b v =
    ((List.range 16).foldl (State.clearExt q b (s.fget ⟨.wmChain, q, b⟩ F.wmChain_CHAIN) (bitsOf v F.wmChain_CHAIN)) s).fset
      ⟨.wmChain, q, b⟩ F.wmChain_CHAIN (bitsOf v F.wmChain_CHAIN) :=
  if_neg (by simp [hk])

theorem State.chainWrite_stray (hk : rqKernel rq = false) :
    s.chainWrite rq q b v = s.strayCode (rqCode rq) 2 (Reg.offset ⟨.wmChain, q, b⟩) :=
  if_pos (by simp [hk])

end

/-- Settles O28: each row is its case, read back slot by slot. -/
theorem weighmasterRows : Obligations.WeighmasterRows := by
  intro s rq q b n v k ctx asid u r x ch c m
  have hx : x ≠ r := wmReg_ne _ _ (by omega)
  have hm : wmReg q.val b.val m.val = r := rfl
  refine ⟨fun ho hk hk48 hf ha => ?_, fun ho => if_neg (by simp [ho]), fun hk ho => ?_, fun hk => ?_, fun hk ho => ?_, fun hk ho => ?_,
    fun ho => ?_⟩
  · refine ⟨_, (if_pos ho).trans (congrArg Host.Outcome.next (State.event_unarmed s _ _ _ _ _ hk hf ha)), State.wmAdd_count ..,
      fun y hy => ?_, State.wmAdd_regs_only .., fun hc => ?_, fun hc hch => ?_, fun hc hch => ?_⟩
    · simp only [List.mem_cons, List.not_mem_nil, or_false, not_or] at hy
      exact State.wmAdd_rd _ _ _ _ _ hy.1 hy.2
    · rw [State.wmAdd_within _ _ _ _ _ hc]
      exact ⟨State.rd_fset_ne _ _ _ hx, State.fget_fset_apart _ _ (by decide)⟩
    · rw [State.wmAdd_chained _ _ _ _ _ hc hk48 hch]
      exact (State.fget_fset_same _ _ (by decide)).trans (Nat.mod_mod _ _)
    · rw [State.wmAdd_wrapped _ _ _ _ _ hc hch]
      exact ⟨State.fget_fset_same _ _ (by decide), (State.rd_fset_ne _ _ _ hx).trans (State.rd_fset_ne _ _ _ hx)⟩
  · obtain ⟨hcount, hwrap⟩ := State.fget_counterWrite (s := s) (v := v) hk ho n.isLt
    refine ⟨_, rfl, hcount, hwrap, fun y hy => ?_, ?_⟩
    · have hy : y ≠ r := by simpa using hy
      rw [State.counterWrite_taken hk ho n.isLt]
      split
      · rw [State.rd_fset_ne _ _ _ hy, State.rd_fset_ne _ _ _ hy]
      · rw [State.rd_fset_ne _ _ _ hy]
    · rw [State.counterWrite_taken hk ho n.isLt]
      split <;> rfl
  · exact congrArg Host.Outcome.next (State.counterWrite_stray hk)
  · refine ⟨_, congrArg Host.Outcome.next ((if_neg (by simp [ho])).trans (State.chainWrite_taken hk)), ?_, ?_, ?_, ?_⟩
    · exact (State.fget_fset_same _ _ (by decide)).trans (Nat.mod_eq_of_lt (bitsOf_lt _))
    · rw [State.rd_fset_ne _ _ _ (by simp [r, wmReg])]
      exact State.clearExt_rd _ _ (fun j => wmReg_ne _ _ (by omega)) _ _
    · exact State.fset_regs_only_of _ _ _ (State.clearExt_regs_only ..)
    · rw [State.rd_fset_ne _ _ _ (by simp [x, wmReg]), State.rd_clearExt]
      by_cases heq : s.chained q.val b.val n.val = nbit (bitsOf v F.wmChain_CHAIN) n.val
      · rw [if_pos heq, if_neg (fun h => h.2 heq)]
      · rw [if_neg heq, if_pos ⟨by simp, heq⟩]
  · exact congrArg Host.Outcome.next ((if_neg (by simp [ho])).trans (State.chainWrite_stray hk))
  · exact congrArg Host.Outcome.next (if_pos (by simp [ho]))

end Sys2Proof.Machine
end

