-- ==== Sys2Proof/Proofs/TaskRows.lean ====
section
/-!
SUPPORT. The rows of the task rings (R187 to R192) and what running a task does (R188, R190, R194). Settles O29, O30 and O31.
-/
namespace Sys2Proof.Machine

/-! ### A row that runs a task -/

section
variable {s : State} {st kind code codes : Nat} {ok : State → Bytes → Bool} {op : State → Bytes → TaskOp} {t : Task}
  (hk : stallKind st = kind) (ho : stallOk st = true)
include hk ho

theorem State.taskStep_idle (hs : s.startable st = none) : s.taskStep st kind code codes ok op = s := by
  refine (if_neg (by simp [hk, ho])).trans ?_
  rw [hs]

variable (hs : s.startable st = some t)
include hs

theorem State.taskStep_start : s.taskStep st kind code codes ok op =
    if tOp t.desc ≠ code ∧ 1 ≤ tOp t.desc ∧ tOp t.desc ≤ codes then s
    else if tOp t.desc ≠ code ∨ !s.tCommonOk st t.desc ∨ !ok s t.desc then (s.setStallSt st 2).taskMalformed st
    else match s.parityInject st with
      | some s => s
      | none =>
        if tWaitCtr t.desc = 0xFFFF then (s.setStallSt st 2).runTask st t (op s t.desc)
        else if s.bell.met.contains (.task st) then
          let s' := (s.setStallSt st 2).runTask st t (op s t.desc)
          match s'.tasks st with
          | t' :: _ => if t'.phase = .waiting then s' else (s'.takeMet (.task st)).1
          | [] => s'
        else s := by
  refine (if_neg (by simp [hk, ho])).trans ?_
  rw [hs] <;> rfl

theorem State.taskStep_other (hc : tOp t.desc ≠ code) (h1 : 1 ≤ tOp t.desc) (hn : tOp t.desc ≤ codes) :
    s.taskStep st kind code codes ok op = s :=
  (State.taskStep_start hk ho hs).trans (if_pos ⟨hc, h1, hn⟩)

theorem State.taskStep_malformed (hc : tOp t.desc = code) (hok : ok s t.desc = false) :
    s.taskStep st kind code codes ok op = (s.setStallSt st 2).taskMalformed st :=
  (State.taskStep_start hk ho hs).trans ((if_neg (fun h => h.1 hc)).trans (if_pos (.inr (.inr (by simp [hok])))))

theorem State.taskStep_runs (hc : tOp t.desc = code) (hcom : s.tCommonOk st t.desc = true) (hok : ok s t.desc = true)
    (hi : s.injAt 0x08 st (fun _ => true) = none) (hw : tWaitCtr t.desc = 0xFFFF) :
    s.taskStep st kind code codes ok op = (s.setStallSt st 2).runTask st t (op s t.desc) := by
  have hpar : s.parityInject st = none := by rw [State.parityInject, hi]
  refine (State.taskStep_start hk ho hs).trans ((if_neg (fun h => h.1 hc)).trans ((if_neg ?_).trans ?_))
  · simp [hc, hcom, hok]
  · rw [hpar]
    exact if_pos hw

end

/-- A row that is `State.taskStep` for an opcode runs the tasks of that opcode. -/
theorem TaskRow.of_taskStep {s : State} {st kind code codes : Nat} {ok : State → Bytes → Bool} {op : State → Bytes → TaskOp}
    {fin : State → State} {o : Host.Outcome State Fault Refusal} (h : o = .next (fin (s.taskStep st kind code codes ok op))) :
    TaskRow s st kind code codes ok op fin o := by
  intro hk ho
  refine ⟨fun t hs hc hcom hok hi hw => ?_, fun t hs hc hok => ?_, fun t hs hc h1 hn => ?_, fun hs => ?_⟩
  · rw [h, State.taskStep_runs hk ho hs hc hcom hok hi hw]
  · rw [h, State.taskStep_malformed hk ho hs hc hok]
  · rw [h, State.taskStep_other hk ho hs hc h1 hn]
  · rw [h, State.taskStep_idle hk ho hs]

/-- Settles O30: each of the rows is `State.taskStep` for its opcode, and what the row adds. -/
theorem taskRows : Obligations.TaskRows := by
  intro s st m k isx
  and_intros <;> exact TaskRow.of_taskStep rfl

/-! ### What running a task does -/

section
variable {s u : State} {st n : Nat} {t : Task} {rest : List Task} {op : TaskOp} {c : Calc}

theorem State.tasks_setTasks (s : State) (st : Nat) (ts : List Task) : (s.setTasks st ts).tasks st = ts := by
  show lookD [] (putD [] s.stall.tasks st ts) st = ts
  simp

/-- The head task has run. -/
theorem State.taskRan_head (h : s.tasks st = t :: rest) : s.taskRan st n c = s.setTasks st
    ({ t with phase := .done, status := n, nan := c.nan && decide (n = 0), overflow := c.ovf && decide (n = 0) } :: rest) := by
  simp only [State.taskRan, h, State.setHead, List.drop_succ_cons, List.drop_zero]

theorem State.runTask_held (h : op.body.run s = (.error .held, u)) : s.runTask st t op = u := by
  simp only [State.runTask]
  rw [show (op.body.run).run s = _ from h]

theorem State.runTask_fail (h : op.body.run s = (.error (.fail n), u)) (ho : op.outs = []) (hi : op.inPorts = [])
    (hp : op.outPorts = []) : s.runTask st t op = u.taskRan st n {} := by
  simp only [State.runTask]
  rw [show (op.body.run).run s = _ from h]
  simp only [State.failTask, ho, ite_self, State.transOuts, State.taskFailed, hi, hp]
  rfl

theorem State.runTask_written {v w : State} {va len : Nat} {b : Bytes} {ps : List (Nat × Nat)} (h : op.body.run s = (.ok c, u))
    (hs : op.scratch = []) (ho : op.outs = [(va, len)]) (hi : op.inPorts = []) (hp : op.outPorts = []) (hc : c.outs = [b])
    (he : c.events = []) (ha : c.adds = []) (hf : c.addFail = 0)
    (ht : u.transRange (stallQ st) st (tAsid t.desc) va b.length true = (v, .ok ps))
    (hw : v.writePieces st (tAsid t.desc) (piecesTake ps b.length) b false = (w, false)) :
    s.runTask st t op = w.taskRan st c.status c := by
  have houts : State.transOuts st (tAsid t.desc) [(va, b.length)] u = (v, some [some ps]) := by
    simp only [State.transOuts, ht]
  have hwrite : State.writeOuts st (tAsid t.desc) [(ps, b)] v = (w, false) := by
    simp only [State.writeOuts, hw]
    rfl
  simp only [State.runTask]
  rw [show (op.body.run).run s = _ from h]
  simp only [hs, State.freeRanges, ho, hc, List.nil_append, List.zip_cons_cons, List.zip_nil_right, List.map_cons, List.map_nil, houts,
    List.contains_cons, List.contains_nil, List.filterMap_cons, id, List.filterMap_nil, hwrite, hp, hi, he, ha, hf, List.zip_nil_left,
    List.foldl_nil]
  rfl

end

/-- Settles O31: each of a body's ends is its case. -/
theorem taskRunEffects : Obligations.TaskRunEffects := by
  intro s u v w st t rest op c n va len b ps hs asid
  refine ⟨⟨_, rfl, ?_, ?_⟩, State.runTask_held, State.runTask_fail, State.runTask_written⟩
  · rw [State.taskMalformed, State.taskRan_head hs, State.tasks_setTasks]
    rfl
  · rw [State.taskMalformed, State.taskRan_head hs]
    rfl

/-! ### Fetching -/

theorem State.tasks_of_stall {s t : State} (h : t.stall = s.stall) (k : Nat) : t.tasks k = s.tasks k := by
  rw [State.tasks, h, State.tasks]

@[simp] theorem State.tasks_fset (s : State) (r : Reg) (f : Fld) (v k : Nat) : (s.fset r f v).tasks k = s.tasks k :=
  State.tasks_of_stall (State.fset_stall ..) k

theorem State.setTasks_rd (s : State) (k : Nat) (ts : List Task) (r : Reg) : (s.setTasks k ts).rd r = s.rd r := rfl

theorem State.setTasks_fget (s : State) (k : Nat) (ts : List Task) (r : Reg) (f : Fld) : (s.setTasks k ts).fget r f = s.fget r f := rfl

theorem State.setTasks_home (s : State) (k : Nat) (ts : List Task) : (s.setTasks k ts).home = s.home := rfl

theorem State.setTasks_out (s : State) (k : Nat) (ts : List Task) : (s.setTasks k ts).out = s.out := rfl

theorem State.ringSize_le (s : State) (k : Nat) : s.ringSize k ≤ 2 ^ 12 := by
  simp only [State.ringSize]
  split
  · next h => exact Nat.pow_le_pow_right (by decide) h.2
  · decide

/-- The task that a fetched descriptor makes. -/
def fetchedTask (i : Nat) (d : Bytes) (p : Bool) : Task :=
  if p then { index := i, desc := List.replicate 128 0#8, phase := .done, status := 6 } else { index := i, desc := d }

section
variable {s u : State} {rq : Requester} {st : StallNo} {v : W64} {d : Bytes} {p : Bool}

theorem execStallRingTailWrite_kernel (hr : ringKind (stallKind st.val) = true) (ho : stallOk st.val = true)
    (hk : rqKernel rq = true) : exec (.stallRingTailWrite rq st v) s =
      .next (s.fset ⟨.stallRingTail, st.val, 0⟩ F.stallRingTail_TAIL (bitsOf v F.stallRingTail_TAIL)) :=
  (if_pos (by simp [hr, ho])).trans (congrArg Host.Outcome.next (if_neg (by simp [hk])))

theorem execStallRingTailWrite_user (hr : ringKind (stallKind st.val) = true) (ho : stallOk st.val = true)
    (hk : rqKernel rq = false) : exec (.stallRingTailWrite rq st v) s =
      .next (s.strayCode (rqCode rq) 2 (Reg.offset ⟨.stallRingTail, st.val, 0⟩)) :=
  (if_pos (by simp [hr, ho])).trans (congrArg Host.Outcome.next (if_pos (by simp [hk])))

theorem execStallRingTailWrite_none (h : ringKind (stallKind st.val) = false ∨ stallOk st.val = false) :
    exec (.stallRingTailWrite rq st v) s = .next (s.strayCode (rqCode rq) 0 (Reg.offset ⟨.stallRingTail, st.val, 0⟩)) :=
  if_neg (by obtain h | h := h <;> simp [h])

/-- HEAD after a fetch. -/
def State.headMoved (s u : State) (k : Nat) : State :=
  u.fset ⟨.stallRingHead, k, 0⟩ F.stallRingHead_HEAD
    ((s.fget ⟨.stallRingHead, k, 0⟩ F.stallRingHead_HEAD % s.ringSize k + 1) % s.ringSize k)

theorem execStallTaskFetch_fetches (hm : s.mayFetch st.val = true) (hr : s.readMem (s.reqPrec st.val) st.val 0
    (s.taskAddr st.val (s.fget ⟨.stallRingHead, st.val, 0⟩ F.stallRingHead_HEAD % s.ringSize st.val)) 128 = (u, d, p)) :
    exec (.stallTaskFetch st) s = .next ((if (u.tasks st.val).isEmpty then (s.headMoved u st.val).setStallSt st.val 1
      else s.headMoved u st.val).setTasks st.val (u.tasks st.val ++
        [fetchedTask (s.fget ⟨.stallRingHead, st.val, 0⟩ F.stallRingHead_HEAD % s.ringSize st.val) d p])) := by
  have htasks : (s.headMoved u st.val).tasks st.val = u.tasks st.val := State.tasks_fset ..
  have htasks' : (if (u.tasks st.val).isEmpty then (s.headMoved u st.val).setStallSt st.val 1 else s.headMoved u st.val).tasks st.val =
      u.tasks st.val := by
    split
    · exact (State.tasks_fset ..).trans htasks
    · exact htasks
  show execStallTaskFetch st s = _
  simp only [execStallTaskFetch, hm, hr]
  show done ((if ((s.headMoved u st.val).tasks st.val).isEmpty then (s.headMoved u st.val).setStallSt st.val 1
    else s.headMoved u st.val).setTasks st.val ((if ((s.headMoved u st.val).tasks st.val).isEmpty
      then (s.headMoved u st.val).setStallSt st.val 1 else s.headMoved u st.val).tasks st.val ++ [fetchedTask _ d p])) = _
  rw [htasks, htasks']

theorem State.mayFetch_ring {k : Nat} (hm : s.mayFetch k = true) : 0 < s.ringSize k := by
  simp only [State.mayFetch, Bool.and_eq_true, decide_eq_true_eq] at hm
  omega

end

/-! ### Completion -/

section
variable {s : State} {k : Nat}

/-- The state with the status of a task recorded in LAST_STATUS and STALL_ERR. -/
def State.statusKept (s : State) (k : Nat) (t : Task) : State :=
  let s := s.fset (ringState k) F.stallState_LAST_STATUS t.status
  let s := if t.status = 0 then s else s.fset (ringErr' k) F.stallErr_TASK t.index
  match errField' (stallKind k) t.status with
  | some f => s.fset (ringErr' k) f 1
  | none => s

theorem State.statusKept_rd {t : Task} {r : Reg} (h : r ≠ ringErr' k) :
    (s.statusKept k t).rd r = (s.fset (ringState k) F.stallState_LAST_STATUS t.status).rd r := by
  have hif : (if t.status = 0 then s.fset (ringState k) F.stallState_LAST_STATUS t.status
      else (s.fset (ringState k) F.stallState_LAST_STATUS t.status).fset (ringErr' k) F.stallErr_TASK t.index).rd r =
      (s.fset (ringState k) F.stallState_LAST_STATUS t.status).rd r := by
    split
    · rfl
    · exact State.rd_fset_ne _ _ _ h
  simp only [State.statusKept]
  split
  · rw [State.rd_fset_ne _ _ _ h, hif]
  · exact hif

theorem State.statusKept_regs_only (s : State) (k : Nat) (t : Task) : s.statusKept k t = { s with regs := (s.statusKept k t).regs } := by
  simp only [State.statusKept]
  split <;> split <;> rfl

/-- No Alley line has the stall for a participant. -/
theorem State.alleyRaiseAll_none (h : ∀ l, nbit (s.rd ⟨.alleyEn, stallQ k, l⟩).toNat (participant k) = false) :
    s.alleyRaiseAll k = s := by
  have hstep (u : State) (l : Nat) (hu : u = s) :
      (if nbit (u.rd ⟨.alleyEn, stallQ k, l⟩).toNat (participant k) then u.alleyRaise (stallQ k) l (participant k) else u) = s := by
    rw [hu, if_neg (by simp [h l])]
  exact foldl_inv (fun u : State => u = s) hstep _ rfl

/-- A completed task's status is kept, its completion counted, and the ring is empty. -/
def State.retired (s : State) (k : Nat) (t : Task) : State :=
  ((s.statusKept k t).wmAdd (stallQ k) (participant k) 5 1).1.setTasks k []

theorem State.retired_rd {t : Task} {r : Reg} (h : r ≠ ringErr' k) (hn : r.name ≠ .wmCnt) :
    (s.retired k t).rd r = (s.fset (ringState k) F.stallState_LAST_STATUS t.status).rd r := by
  have hne (j : Nat) : r ≠ wmReg (stallQ k) (participant k) j := fun heq => hn (by rw [heq]; rfl)
  rw [State.retired, State.setTasks_rd, State.wmAdd_rd _ _ _ _ _ (hne _) (hne _), State.statusKept_rd h]

theorem State.retired_home (t : Task) : (s.retired k t).home = s.home := by
  show ((s.statusKept k t).wmAdd (stallQ k) (participant k) 5 1).1.home = s.home
  rw [State.wmAdd_regs_only, State.statusKept_regs_only]

theorem State.retired_fenced (t : Task) : (s.retired k t).stallFenced k = s.stallFenced k := by
  have hstate : (s.retired k t).fget ⟨.stallState, k, 0⟩ F.stallState_STATE = s.fget ⟨.stallState, k, 0⟩ F.stallState_STATE := by
    rw [State.fget, State.retired_rd (by simp [ringErr']) (by simp)]
    exact State.fget_fset_apart _ _ (by decide)
  have hq : (s.retired k t).qFenced (stallQ k) = s.qFenced (stallQ k) := by
    rw [State.qFenced, State.fget, State.retired_rd (by simp [ringErr']) (by simp), State.rd_fset_ne _ _ _ (by simp [ringState])]
    rfl
  rw [State.stallFenced, hstate, hq, State.stallFenced]

end

section
variable {s u w : State} {st : StallNo} {t : Task} {b c : Bool}

/-- The word of a task's status, with DONE clear. -/
abbrev statusWord (t : Task) : Nat := t.status + b2n t.nan * 2 ^ 16 + b2n t.overflow * 2 ^ 17

theorem execStallTaskComplete_alone (hs : s.tasks st.val = [t]) (hd : t.phase = .done) (hf : s.stallFenced st.val = false)
    (hc : tSigCtr t.desc = 0xFFFF)
    (h1 : s.writeMem (s.reqPrec st.val) st.val 0 (s.taskAddr st.val t.index + 0x14) (leBytes 4 (statusWord t)) false = (u, b))
    (h2 : u.writeMem (u.reqPrec st.val) st.val 0 (s.taskAddr st.val t.index + 0x14) (leBytes 4 (statusWord t + 2 ^ 31)) false = (w, c))
    (hf' : w.stallFenced st.val = false) (ha : w.slotArmed (stallQ st.val) (participant st.val) 5 = false)
    (hl : ∀ l, nbit (w.rd ⟨.alleyEn, stallQ st.val, l⟩).toNat (participant st.val) = false) :
    exec (.stallTaskComplete st) s = .next ((w.retired st.val t).setStallSt st.val
      (if w.fbit (ringCtrl st.val) F.stallCtrl_HALT then 3 else 0)) := by
  have hevent : (w.statusKept st.val t).stallEvent st.val 5 1 t.index (tAsid t.desc) =
      ((w.statusKept st.val t).wmAdd (stallQ st.val) (participant st.val) 5 1).1 := by
    have hq : w.qFenced (stallQ st.val) = false := by
      simp only [State.stallFenced, Bool.or_eq_false_iff] at hf'
      exact hf'.2
    refine State.event_unarmed _ _ _ _ _ _ (by decide) ?_ ?_
    · rw [State.qFenced, State.fget, State.statusKept_rd (by simp [ringErr']), State.rd_fset_ne _ _ _ (by simp [ringState])]
      exact hq
    · rw [State.slotArmed, State.fget, State.statusKept_rd (by simp [ringErr']), State.rd_fset_ne _ _ _ (by simp [ringState])]
      exact ha
  have halley : (w.retired st.val t).alleyRaiseAll st.val = w.retired st.val t :=
    State.alleyRaiseAll_none fun l => by
      rw [State.retired_rd (by simp [ringErr']) (by simp), State.rd_fset_ne _ _ _ (by simp [ringState])]
      exact hl l
  have hhalt : (w.retired st.val t).fbit (ringCtrl st.val) F.stallCtrl_HALT = w.fbit (ringCtrl st.val) F.stallCtrl_HALT := by
    rw [State.fbit, State.fget, State.retired_rd (by simp [ringErr', ringCtrl]) (by simp [ringCtrl]),
      State.rd_fset_ne _ _ _ (by simp [ringState, ringCtrl])]
    rfl
  have hsignal (x : State) (z : Bool) (n i : Nat) : x.signal (if z then 0xFFFF else 0xFFFF) n i = x := by
    rw [ite_self]
    rfl
  show execStallTaskComplete st s = _
  simp only [execStallTaskComplete, hs]
  refine (if_neg (by simp [hd, hf])).trans ?_
  rw [h1]
  dsimp only
  rw [h2]
  have hend (x : State) (hx : x = w.retired st.val t) : (if x.stallFenced st.val then x else x.setStallSt st.val
      (if x.fbit (ringCtrl st.val) F.stallCtrl_HALT then 3 else 0)) =
      (w.retired st.val t).setStallSt st.val (if w.fbit (ringCtrl st.val) F.stallCtrl_HALT then 3 else 0) := by
    rw [hx, State.retired_fenced, hf', hhalt]
    rfl
  refine congrArg Host.Outcome.next (hend _ ?_)
  rw [hc, hsignal]
  exact (congrArg (fun x : State => (x.setTasks st.val []).alleyRaiseAll st.val) hevent).trans halley

end

/-- Settles O29: a fetched task stands at the end of the list, a completed one has left it. -/
theorem taskRings : Obligations.TaskRings := by
  refine ⟨fun s u rq st v d p => ⟨execStallRingTailWrite_kernel, execStallRingTailWrite_user, execStallRingTailWrite_none,
    fun hm hr => ⟨_, execStallTaskFetch_fetches hm hr, State.tasks_setTasks .., ?_, fun hu => ?_, ?_, ?_⟩, fun hm => if_pos (by simp [hm])⟩,
    fun s u w st t b c => ⟨fun hs hd hf hc h1 h2 _ hf' ha hl hst =>
      ⟨_, execStallTaskComplete_alone hs hd hf hc h1 h2 hf' ha hl, ?_, ?_, ?_, ?_⟩, fun hs => ?_, fun r hs hd => ?_⟩⟩
  · have hhead : (s.headMoved u st.val).fget ⟨.stallRingHead, st.val, 0⟩ F.stallRingHead_HEAD =
        (s.fget ⟨.stallRingHead, st.val, 0⟩ F.stallRingHead_HEAD % s.ringSize st.val + 1) % s.ringSize st.val :=
      (State.fget_fset_same _ _ (by decide)).trans (Nat.mod_eq_of_lt
        ((Nat.mod_lt _ (State.mayFetch_ring hm)).trans_le (s.ringSize_le st.val)))
    rw [State.setTasks_fget]
    split
    · exact (State.fget_fset_ne _ _ (by simp [ringState])).trans hhead
    · exact hhead
  · rw [State.stallSt, State.setTasks_fget, hu, if_pos List.isEmpty_nil]
    exact State.fget_fset_same _ _ (by decide)
  · rw [State.setTasks_home]
    split <;> simp [State.setStallSt, State.headMoved]
  · rw [State.setTasks_out]
    split <;> simp [State.setStallSt, State.headMoved]
  · exact (State.tasks_fset ..).trans (State.tasks_setTasks ..)
  · exact (State.fset_home ..).trans (State.retired_home t)
  · refine (State.fget_fset_apart _ _ (by decide)).trans ?_
    rw [State.fget, State.retired_rd (by simp [ringErr', ringState]) (by simp [ringState])]
    exact (State.fget_fset_same _ _ (by decide)).trans (Nat.mod_eq_of_lt hst)
  · refine (State.fget_fset_same _ _ (by decide)).trans (Nat.mod_eq_of_lt ?_)
    split <;> decide
  · show execStallTaskComplete st s = _
    simp only [execStallTaskComplete, hs]
  · show execStallTaskComplete st s = _
    simp only [execStallTaskComplete, hs]
    exact if_pos (.inl hd)

end Sys2Proof.Machine
end

