-- ==== Sys2Proof/Proofs/TallyRows.lean ====
section
/-!
SUPPORT. Adds at Tally cells (R135, R136, R205), pieces (R329) and the bytes of a cell (R115). Settles O32.
-/
namespace Sys2Proof.Machine

/-! ### Adds -/

section
variable {s u : State} {n : Nat} {a : CellAdd}

/-- The add at a position leaves the list. -/
def State.dropAdd (s : State) (n : Nat) : State := { s with stall := { s.stall with adds := s.stall.adds.eraseIdx n } }

theorem State.addsDone_none {k : Nat} (h : s.tasks k = []) : s.addsDone k = s := by
  rw [State.addsDone, h]

theorem State.dropAdd_tasks (k : Nat) : (s.dropAdd n).tasks k = s.tasks k := rfl

/-- What follows an add whose task is no longer there. -/
theorem execTallyCellAdd_over {status : Nat} (ht : s.tasks a.req = []) :
    (match (s.dropAdd n).tasks a.req with
      | t :: _ => if status ≠ 0 ∧ t.addFail = 0 then (s.dropAdd n).setHead a.req { t with addFail := status } else s.dropAdd n
      | [] => s.dropAdd n).addsDone a.req = s.dropAdd n := by
  rw [State.dropAdd_tasks, ht]
  exact State.addsDone_none ht

theorem execTallyCellAdd_poison (ha : s.stall.adds[n]? = some a) (hp : a.poison = true) (ht : s.tasks a.req = []) :
    exec (.tallyCellAdd n) s = .next (s.dropAdd n) := by
  show execTallyCellAdd n s = _
  simp only [execTallyCellAdd, ha, hp]
  exact congrArg Host.Outcome.next (execTallyCellAdd_over (status := 6) ht)

theorem execTallyCellAdd_held (ha : s.stall.adds[n]? = some a) (hp : a.poison = false)
    (hc : s.cellAdd (stallQ a.req) a.req a.asid a.va (fun w => w.add a.value) = (u, .held)) : exec (.tallyCellAdd n) s = .next u := by
  show execTallyCellAdd n s = _
  simp only [execTallyCellAdd, ha, hp, hc]
  rfl

theorem execTallyCellAdd_ended (ha : s.stall.adds[n]? = some a) (hp : a.poison = false)
    (hc : s.cellAdd (stallQ a.req) a.req a.asid a.va (fun w => w.add a.value) = (u, .ended 0)) (ht : u.tasks a.req = []) :
    exec (.tallyCellAdd n) s = .next (u.dropAdd n) := by
  show execTallyCellAdd n s = _
  simp only [execTallyCellAdd, ha, hp, hc]
  exact congrArg Host.Outcome.next (execTallyCellAdd_over (status := 0) ht)

end

/-! ### Pieces -/

section
variable {s : State} {st : StallNo} {port : Fin 2} {b : Bytes} {t : Task}

theorem execTallyPieceArrive_other (h : stallKind st.val ≠ 4) : exec (.tallyPieceArrive st port) s = .next s :=
  if_pos (.inl h)

section
variable (hk : stallKind st.val = 4) (ho : stallOk st.val = true) (hf : s.stallFenced st.val = false)
  (hs : s.stream st.val port.val = some (b, false)) (ht : s.tasks st.val = [t]) (hw : t.phase = .waiting)
include hk ho hf hs ht hw

theorem execTallyPieceArrive_stream : exec (.tallyPieceArrive st port) s =
    if !pieceOk b ∨ pElem b < yElem0 t.desc ∨ [t].any (fun t => pieceBegins t.desc b && !pieceIn t.desc b) then
      .next ((s.streamTake st.val port.val).pieceBad st.val)
    else match [t].find? (fun t => pieceIn t.desc b && !s.piecesFull st.val t) with
      | some u => .next (if pieceFits u.desc b then (s.streamTake st.val port.val).pieceTake st.val u b false
          else (s.streamTake st.val port.val).pieceBad st.val)
      | none => .next s := by
  have hfilter : (s.tasks st.val).filter (fun t => t.phase = .waiting) = [t] := by simp [ht, hw]
  show execTallyPieceArrive st port s = _
  simp only [execTallyPieceArrive, hs, hfilter]
  exact if_neg (by simp [hk, ho, hf])

theorem execTallyPieceArrive_taken (hp : pieceOk b = true) (hi : pieceIn t.desc b = true) (hn : s.piecesFull st.val t = false)
    (hfit : pieceFits t.desc b = true) : exec (.tallyPieceArrive st port) s =
      .next ((s.streamTake st.val port.val).pieceTake st.val t b false) := by
  have hlo : yElem0 t.desc ≤ pElem b := by
    simp only [pieceIn, Bool.and_eq_true, decide_eq_true_eq] at hi
    exact hi.1
  have hfind : [t].find? (fun t => pieceIn t.desc b && !s.piecesFull st.val t) = some t := by simp [hi, hn]
  rw [execTallyPieceArrive_stream hk ho hf hs ht hw, if_neg (by simp [hp, hi, hlo]), hfind]
  exact congrArg Host.Outcome.next (if_pos hfit)

theorem execTallyPieceArrive_bad (hp : pieceOk b = false) : exec (.tallyPieceArrive st port) s =
    .next ((s.streamTake st.val port.val).pieceBad st.val) := by
  rw [execTallyPieceArrive_stream hk ho hf hs ht hw, if_pos (.inl (by simp [hp]))]

end

end

/-! ### Cells -/

/-- The middle part of three. -/
theorem slice_middle {a b c : Bytes} {o n : Nat} (ho : a.length = o) (hn : b.length = n) : slice (a ++ (b ++ c)) o n = b := by
  subst ho hn
  simp [slice]

theorem Tw.cell_length (w : Tw) : w.cell.length = 96 := by
  simp [Tw.cell]

theorem Tw.ofCell_cell {w : Tw} (ht : w.t < 2 ^ 640) (hs : w.st < 8) : Tw.ofCell w.cell = some w := by
  have hcell : w.cell = leBytes 80 w.t ++ (leBytes 8 w.st ++ leBytes 8 0) := List.append_assoc ..
  have h0 : leAt w.cell 0 80 = w.t := by
    rw [leAt, hcell, show leBytes 80 w.t ++ _ = [] ++ (leBytes 80 w.t ++ (leBytes 8 w.st ++ leBytes 8 0)) from rfl,
      slice_middle (a := []) (o := 0) rfl (length_leBytes ..), leNat_leBytes]
    exact Nat.mod_eq_of_lt (ht.trans_eq (by rw [show 256 = 2 ^ 8 from rfl, ← pow_mul]))
  have h80 : leAt w.cell 80 8 = w.st := by
    rw [leAt, hcell, slice_middle (length_leBytes ..) (length_leBytes ..), leNat_leBytes]
    exact Nat.mod_eq_of_lt (hs.trans (by norm_num))
  have h88 : leAt w.cell 88 8 = 0 := by
    rw [leAt, Tw.cell, show leBytes 80 w.t ++ leBytes 8 w.st ++ leBytes 8 0 = (leBytes 80 w.t ++ leBytes 8 w.st) ++ (leBytes 8 0 ++ []) by simp,
      slice_middle (by simp) (length_leBytes ..), leNat_leBytes]
    rfl
  rw [Tw.ofCell, h0, h80, h88, if_pos ⟨hs, rfl⟩]

theorem Tw.ofCell_reserved {b : Bytes} (h : leAt b 88 8 ≠ 0 ∨ 8 ≤ leAt b 80 8) : Tw.ofCell b = none :=
  if_neg (by omega)

/-- Settles O32: each end of an add or a piece is its case, and a cell's three parts are read back. -/
theorem tallyCommands : Obligations.TallyCommands :=
  ⟨fun _ _ _ _ _ _ _ _ => ⟨fun ha hp ht => ⟨_, execTallyCellAdd_poison ha hp ht, rfl, rfl⟩, execTallyCellAdd_held,
      execTallyCellAdd_ended, execTallyPieceArrive_taken, execTallyPieceArrive_bad, execTallyPieceArrive_other⟩,
    fun w ht hs => ⟨w.cell_length, Tw.ofCell_cell ht hs⟩, fun _ => Tw.ofCell_reserved⟩

end Sys2Proof.Machine
end

