-- ==== Sys2Proof/Proofs/Sums.lean ====
section
/-!
SUPPORT. Exact sums (R116 to R118, R173) and the small formats (R121, Table 4.2). Settles O34.
-/
namespace Sys2Proof.Machine

/-! ### Sums do not depend on order -/

theorem nbit_eq_testBit (n i : Nat) : nbit n i = n.testBit i := by
  rw [nbit, Nat.testBit_eq_decide_div_mod_eq]

theorem setBit_eq_or (n i : Nat) : setBit n i = n ||| 2 ^ i := by
  refine Nat.eq_of_testBit_eq fun j => ?_
  rw [setBit, nbit_eq_testBit, Nat.testBit_or, Nat.testBit_two_pow]
  cases hi : n.testBit i with
  | true =>
    obtain rfl | hj := eq_or_ne i j
    · simp [hi]
    · simp [hj]
  | false =>
    have hsplit : n + 2 ^ i = 2 ^ i * (n / 2 ^ i + 1) + n % 2 ^ i := by
      rw [Nat.mul_add, Nat.mul_one, Nat.add_right_comm, Nat.div_add_mod]
    have heven : n / 2 ^ i % 2 = 0 := by
      rw [Nat.testBit_eq_decide_div_mod_eq, decide_eq_false_iff_not] at hi
      omega
    have hlow := Nat.testBit_two_pow_mul_add (n / 2 ^ i + 1) (Nat.mod_lt n (Nat.two_pow_pos i)) j
    rw [if_neg Bool.false_ne_true, hsplit, hlow]
    split
    · next h => simp [h, h.ne']
    · next h =>
      obtain ⟨d, rfl⟩ := Nat.exists_eq_add_of_le (Nat.not_lt.1 h)
      rw [Nat.add_sub_cancel_left, Nat.add_comm i d, ← Nat.testBit_div_two_pow]
      cases d with
      | zero => simp [Nat.testBit_zero]; omega
      | succ d =>
        rw [Nat.testBit_succ, Nat.testBit_succ, show (n / 2 ^ i + 1) / 2 = n / 2 ^ i / 2 by omega]
        simp

/-- The word of one term. -/
def Ex.word (x : Ex) : Tw := Tw.add {} x

theorem twMod_pos : 0 < twMod := by positivity

/-- Adding an integer modulo 2^640 is adding what it leaves. -/
theorem toNat_add_emod {M : Nat} (hM : 0 < M) (a : Nat) (z : Int) :
    (((a : Int) + z) % M).toNat = (a + (((0 : Nat) + z) % (M : Int)).toNat) % M := by
  have h0 : (M : Int) ≠ 0 := by omega
  apply Int.natCast_inj.1
  rw [Int.natCast_mod, Int.natCast_add, Int.toNat_of_nonneg (Int.emod_nonneg _ h0), Int.toNat_of_nonneg (Int.emod_nonneg _ h0)]
  simp

theorem Tw.add_eq_merge {w : Tw} (hw : w.t < twMod) (x : Ex) : w.add x = w.merge x.word := by
  cases x with
  | fin n d => exact congrArg₂ Tw.mk (toNat_add_emod twMod_pos w.t (n / d)) (Nat.or_zero _).symm
  | nan => exact congrArg₂ Tw.mk (Nat.mod_eq_of_lt hw).symm (by rw [setBit_eq_or]; rfl)
  | pinf => exact congrArg₂ Tw.mk (Nat.mod_eq_of_lt hw).symm (by rw [setBit_eq_or]; rfl)
  | ninf => exact congrArg₂ Tw.mk (Nat.mod_eq_of_lt hw).symm (by rw [setBit_eq_or]; rfl)

theorem Tw.merge_lt (a b : Tw) : (a.merge b).t < twMod := Nat.mod_lt _ twMod_pos

theorem Tw.merge_assoc (a b c : Tw) : (a.merge b).merge c = a.merge (b.merge c) := by
  simp [Tw.merge, Nat.add_assoc, Nat.or_assoc]

theorem Tw.merge_comm (a b : Tw) : a.merge b = b.merge a := by
  rw [Tw.merge, Nat.add_comm, Nat.or_comm, Tw.merge]

theorem Tw.merge_zero {a : Tw} (h : a.t < twMod) : a.merge {} = a :=
  congrArg₂ Tw.mk (Nat.mod_eq_of_lt h) (Nat.or_zero _)

/-- A sum onto a word is the word's merge with the sum. -/
theorem foldl_add_eq_merge {w : Tw} (hw : w.t < twMod) (xs : List Ex) : xs.foldl Tw.add w = w.merge (sumEx xs) := by
  induction xs generalizing w with
  | nil => exact (Tw.merge_zero hw).symm
  | cons x xs ih =>
    have hx : (w.merge x.word).t < twMod := Tw.merge_lt ..
    have hx0 : (Tw.merge {} x.word).t < twMod := Tw.merge_lt ..
    rw [sumEx, List.foldl_cons, List.foldl_cons, Tw.add_eq_merge hw, Tw.add_eq_merge (w := {}) twMod_pos, ih hx, ih hx0,
      ← Tw.merge_assoc, ← Tw.merge_assoc, Tw.merge_zero hw]

theorem sumEx_lt (xs : List Ex) : (sumEx xs).t < twMod := by
  rw [← List.reverse_reverse xs, sumEx]
  cases xs.reverse with
  | nil => exact twMod_pos
  | cons x l =>
    rw [List.reverse_cons, foldl_add_eq_merge twMod_pos]
    exact Tw.merge_lt ..

theorem sumEx_append (xs ys : List Ex) : sumEx (xs ++ ys) = (sumEx xs).merge (sumEx ys) := by
  rw [sumEx, List.foldl_append]
  exact foldl_add_eq_merge (sumEx_lt xs) ys

theorem sumEx_cons (x : Ex) (xs : List Ex) : sumEx (x :: xs) = x.word.merge (sumEx xs) := sumEx_append [x] xs

theorem sumEx_perm {xs ys : List Ex} (h : xs.Perm ys) : sumEx xs = sumEx ys := by
  induction h with
  | nil => rfl
  | cons x _ ih => rw [sumEx_cons, ih, ← sumEx_cons]
  | swap x y l =>
    rw [sumEx_cons, sumEx_cons, sumEx_cons, sumEx_cons, ← Tw.merge_assoc, Tw.merge_comm y.word, Tw.merge_assoc]
  | trans _ _ h1 h2 => rw [h1, h2]

theorem products_eq_map (as bs : List Ex) : products as bs = (as.zip bs).map fun p => p.1.mul p.2 := by
  rw [products, List.map_zip_eq_zipWith]
  rfl

theorem dotEx_perm {pol : Nat} {as bs as' bs' : List Ex} (c : Option Tw) (hp : polFast pol = false)
    (h : (as.zip bs).Perm (as'.zip bs')) : dotEx pol as bs c = dotEx pol as' bs' c := by
  have hsum : sumEx (products as bs) = sumEx (products as' bs') := by
    rw [products_eq_map, products_eq_map]
    exact sumEx_perm (h.map _)
  simp only [dotEx, hp, dotTw, hsum]
  rfl

/-! ### Every finite element of a small format is encoded as itself -/

theorem log2_mul_two_pow {n : Nat} (hn : n ≠ 0) (k : Nat) : (n * 2 ^ k).log2 = n.log2 + k := by
  have hlo := Nat.log2_self_le hn
  have hhi := Nat.lt_log2_self (n := n)
  refine (Nat.log2_eq_iff (Nat.mul_ne_zero hn (Nat.two_pow_pos k).ne')).2 ⟨?_, ?_⟩
  · rw [Nat.pow_add]
    exact Nat.mul_le_mul_right _ hlo
  · rw [show n.log2 + k + 1 = n.log2 + 1 + k by omega, Nat.pow_add]
    exact Nat.mul_lt_mul_of_pos_right hhi (Nat.two_pow_pos k)

theorem ilog2_scaled {n : Nat} (hn : n ≠ 0) (k : Nat) : ilog2 (n * 2 ^ k) 1 = n.log2 + k := by
  have hle : 1 * 2 ^ (n.log2 + k) ≤ n * 2 ^ k := by
    rw [Nat.one_mul, Nat.pow_add]
    exact Nat.mul_le_mul_right _ (Nat.log2_self_le hn)
  have hk : ((n * 2 ^ k).log2 : Int) - (Nat.log2 1 : Nat) = (n.log2 + k : Nat) := by
    rw [log2_mul_two_pow hn, show Nat.log2 1 = 0 by decide]
    simp
  simp only [ilog2, hk]
  rw [if_pos (by omega), Int.toNat_natCast, if_pos hle]
  simp

/-- A multiple is not rounded. -/
theorem roundMag_mul (mode : Nat) (neg : Bool) (q : Nat) {d : Nat} (hd : 0 < d) : roundMag mode neg (q * d) d = q := by
  have hr : q * d % d = 0 := Nat.mul_mod_left ..
  have hq : q * d / d = q := Nat.mul_div_cancel _ hd
  simp only [roundMag, hr, hq]
  refine if_neg ?_
  split <;> simp <;> omega

section
variable {f : FFmt}

/-- A significand below 2^(m + 1) at the exponent `x` of its format is not rounded. -/
theorem FFmt.round_exact {mag k : Nat} {x : Int} (mode : Nat) (neg : Bool) (h0 : mag ≠ 0) (hm : mag < 2 ^ (f.m + 1))
    (hx : max ((mag.log2 : Int) + k - 304) (1 - f.bias) = x) (hk : (x - f.m + 304).toNat = k) :
    f.round mode neg (mag * 2 ^ k) 1 = (mag, x) := by
  have hq : roundMag mode neg (mag * 2 ^ k) (1 * 2 ^ k) = mag := by
    rw [Nat.one_mul]
    exact roundMag_mul _ _ _ (Nat.two_pow_pos k)
  simp only [FFmt.round, ilog2_scaled h0, hx, hk, hq]
  exact if_neg hm.ne

/-- A format of Table 4.2 with at most 304 places below the point, whose largest finite value is the one before its reserved codes. -/
structure FFmt.Regular (f : FFmt) : Prop where
  wide : 2 ≤ f.e
  places : f.bias + f.m ≤ 304
  topE : f.topE + f.bias = (2 ^ f.e - (if f.kind = 0 then 2 else 1) : Nat)
  top : f.top = 2 ^ (f.m + 1) - (if f.kind = 1 then 2 else 1)

/-- The sign, the exponent and the fraction of an element's bits. -/
theorem FFmt.bits_split {b : Nat} (hb : b < 2 ^ (f.e + f.m + 1)) (he : 2 ≤ f.e) :
    nbits b (f.e + f.m - 1) f.m < 2 ^ f.e ∧
    b = (if nbit b (f.e + f.m) then 2 ^ (f.e + f.m) else 0) + nbits b (f.e + f.m - 1) f.m * 2 ^ f.m + b % 2 ^ f.m := by
  have hw : f.e + f.m - 1 + 1 - f.m = f.e := by omega
  have hhigh : b / 2 ^ f.m / 2 ^ f.e = b / 2 ^ (f.e + f.m) := by rw [Nat.div_div_eq_div_mul, ← Nat.pow_add, Nat.add_comm]
  have hbit : b / 2 ^ (f.e + f.m) < 2 := Nat.div_lt_of_lt_mul (by rw [← Nat.pow_succ]; exact hb)
  have hsign : b / 2 ^ (f.e + f.m) = if nbit b (f.e + f.m) then 1 else 0 := by
    simp only [nbit, decide_eq_true_eq]
    generalize b / 2 ^ (f.e + f.m) = q at hbit ⊢
    split <;> omega
  refine ⟨by rw [nbits, hw]; exact Nat.mod_lt _ (Nat.two_pow_pos _), ?_⟩
  have h1 := Nat.div_add_mod b (2 ^ f.m)
  have h2 := Nat.div_add_mod (b / 2 ^ f.m) (2 ^ f.e)
  rw [nbits, hw]
  rw [hhigh, hsign] at h2
  calc b = 2 ^ f.m * (b / 2 ^ f.m) + b % 2 ^ f.m := h1.symm
    _ = _ := by
      congr 1
      conv_lhs => rw [← h2]
      split
      · rw [Nat.pow_add]; ring
      · ring

/-- The exponent field of an element's bits, and its significand. -/
def FFmt.expo (f : FFmt) (b : Nat) : Nat := nbits b (f.e + f.m - 1) f.m

def FFmt.mag (f : FFmt) (b : Nat) : Nat := if f.expo b = 0 then b % 2 ^ f.m else 2 ^ f.m + b % 2 ^ f.m

/-- The exponent of an element's value, a subnormal's being that of the least normal. -/
def FFmt.unbiased (f : FFmt) (b : Nat) : Int := (if f.expo b = 0 then 1 else (f.expo b : Int)) - f.bias

/-- Where its last place stands, in places of 2^−304. -/
def FFmt.place (f : FFmt) (b : Nat) : Nat := (f.unbiased b - f.m + 304).toNat

/-- A magnitude with a sign. -/
def signedBy (neg : Bool) (n : Nat) : Int := if neg then -(n : Int) else n

theorem natAbs_signedBy (neg : Bool) (n : Nat) : (signedBy neg n).natAbs = n := by
  unfold signedBy
  split <;> simp

theorem signedBy_neg_iff {n : Nat} (hn : n ≠ 0) (neg : Bool) : decide (signedBy neg n < 0) = neg := by
  unfold signedBy
  cases neg
  · simp
  · simp
    omega

theorem FFmt.mag_lt (b : Nat) : f.mag b < 2 ^ (f.m + 1) := by
  have h := Nat.mod_lt b (Nat.two_pow_pos f.m)
  rw [FFmt.mag, Nat.pow_succ]
  split <;> omega

/-- A finite element is its signed significand at its place. -/
theorem FFmt.decode_finite {b : Nat} (h : ∃ n d, f.decode b = .fin n d) :
    ¬ (f.kind = 0 ∧ f.expo b = 2 ^ f.e - 1) ∧ ¬ (f.kind = 1 ∧ f.expo b = 2 ^ f.e - 1 ∧ b % 2 ^ f.m = 2 ^ f.m - 1) ∧
    f.decode b = .fin (signedBy (nbit b (f.e + f.m)) (f.mag b * 2 ^ f.place b)) 1 := by
  obtain ⟨n, d, h⟩ := h
  have h0 : ¬ (f.kind = 0 ∧ f.expo b = 2 ^ f.e - 1) := by
    intro hc
    rw [show f.decode b = _ from if_pos hc] at h
    split at h
    · cases h
    · split at h <;> cases h
  have h1 : ¬ (f.kind = 1 ∧ f.expo b = 2 ^ f.e - 1 ∧ b % 2 ^ f.m = 2 ^ f.m - 1) := by
    intro hc
    rw [show f.decode b = _ from (if_neg h0).trans (if_pos hc)] at h
    cases h
  refine ⟨h0, h1, (if_neg h0).trans ((if_neg h1).trans ?_)⟩
  have hmag : (if f.expo b = 0 then ((b % 2 ^ f.m : Nat) : Int) else 2 ^ f.m + (b % 2 ^ f.m : Nat)) = f.mag b := by
    rw [FFmt.mag]
    split <;> simp
  show Ex.fin ((if nbit b (f.e + f.m) then -(if f.expo b = 0 then ((b % 2 ^ f.m : Nat) : Int) else 2 ^ f.m + (b % 2 ^ f.m : Nat))
    else (if f.expo b = 0 then ((b % 2 ^ f.m : Nat) : Int) else 2 ^ f.m + (b % 2 ^ f.m : Nat))) * 2 ^ f.place b) 1 = _
  rw [hmag, signedBy]
  split <;> simp

/-- Its place is not below that of 2^−304. -/
theorem FFmt.Regular.place (hf : f.Regular) (b : Nat) : (f.place b : Int) = f.unbiased b - f.m + 304 := by
  have h := hf.places
  have hx : 1 - (f.bias : Int) ≤ f.unbiased b := by
    rw [FFmt.unbiased]
    split <;> omega
  rw [FFmt.place, Int.toNat_of_nonneg (by omega)]

/-- The leading bit of its significand gives its exponent back, and a subnormal's is the least there is. -/
theorem FFmt.Regular.unbiased (hf : f.Regular) {b : Nat} (h0 : f.mag b ≠ 0) :
    max (((f.mag b).log2 : Int) + f.place b - 304) (1 - f.bias) = f.unbiased b := by
  rw [hf.place, FFmt.unbiased]
  have hfr := Nat.mod_lt b (Nat.two_pow_pos f.m)
  by_cases hx : f.expo b = 0
  · have hmag : f.mag b < 2 ^ f.m := by rwa [FFmt.mag, if_pos hx]
    have hlog := (Nat.log2_lt h0).2 hmag
    rw [if_pos hx]
    omega
  · have hlog : (f.mag b).log2 = f.m := by
      refine (Nat.log2_eq_iff h0).2 ⟨?_, f.mag_lt b⟩
      rw [FFmt.mag, if_neg hx]
      omega
    rw [if_neg hx, hlog]
    omega

/-- A finite element is not beyond the largest. -/
theorem FFmt.Regular.not_beyond (hf : f.Regular) {b : Nat} (hx : f.expo b < 2 ^ f.e) (h0 : ¬ (f.kind = 0 ∧ f.expo b = 2 ^ f.e - 1))
    (h1 : ¬ (f.kind = 1 ∧ f.expo b = 2 ^ f.e - 1 ∧ b % 2 ^ f.m = 2 ^ f.m - 1)) : f.beyond (f.mag b) (f.unbiased b) = false := by
  have htop := hf.topE
  have htop' := hf.top
  have hmag := f.mag_lt b
  have hfr := Nat.mod_lt b (Nat.two_pow_pos f.m)
  have hwide : 2 ^ 2 ≤ 2 ^ f.e := Nat.pow_le_pow_right (by decide) hf.wide
  have hsub : f.expo b = 0 → f.mag b < 2 ^ f.m := fun h => by rwa [FFmt.mag, if_pos h]
  have hnorm : f.expo b ≠ 0 → f.mag b = 2 ^ f.m + b % 2 ^ f.m := fun h => by rw [FFmt.mag, if_neg h]
  simp only [FFmt.beyond, Bool.or_eq_false_iff, Bool.and_eq_false_iff, decide_eq_false_iff_not]
  rw [Nat.pow_succ] at htop' hmag
  rw [FFmt.unbiased]
  by_cases hk : f.kind = 0
  · rw [if_pos hk] at htop
    rw [if_neg (by omega)] at htop'
    split <;> omega
  · rw [if_neg hk] at htop
    split at htop' <;> split <;> omega

/-- The sign, the exponent and the significand packed again. -/
theorem FFmt.Regular.pack (hf : f.Regular) {b : Nat} (hb : b < 2 ^ (f.e + f.m + 1)) :
    f.pack (nbit b (f.e + f.m)) (f.mag b) (f.unbiased b) = b := by
  obtain ⟨-, hsplit⟩ := FFmt.bits_split hb hf.wide
  have hfr := Nat.mod_lt b (Nat.two_pow_pos f.m)
  change b = (if nbit b (f.e + f.m) then 2 ^ (f.e + f.m) else 0) + f.expo b * 2 ^ f.m + b % 2 ^ f.m at hsplit
  by_cases hx : f.expo b = 0
  · have hmag : f.mag b = b % 2 ^ f.m := if_pos hx
    rw [hx, Nat.zero_mul, Nat.add_zero] at hsplit
    exact (if_pos (hmag ▸ hfr)).trans (hmag ▸ hsplit.symm)
  · have hmag : f.mag b = 2 ^ f.m + b % 2 ^ f.m := if_neg hx
    have hexp : (f.unbiased b + f.bias).toNat = f.expo b := by
      rw [FFmt.unbiased, if_neg hx]
      omega
    refine (if_neg (by omega)).trans ?_
    rw [hexp, hmag, Nat.add_sub_cancel_left]
    exact hsplit.symm

/-- R121: a finite element, but for a negative zero, is encoded as itself. -/
theorem FFmt.Regular.encode_decode (hf : f.Regular) {b : Nat} (hb : b < 2 ^ (f.e + f.m + 1)) (hz : b ≠ 2 ^ (f.e + f.m))
    (hfin : ∃ n d, f.decode b = .fin n d) (pol : Nat) : (f.encode pol (f.decode b)).bits = b := by
  obtain ⟨h0, h1, hdec⟩ := FFmt.decode_finite hfin
  obtain ⟨hx, hsplit⟩ := FFmt.bits_split hb hf.wide
  rw [hdec]
  change b = (if nbit b (f.e + f.m) then 2 ^ (f.e + f.m) else 0) + f.expo b * 2 ^ f.m + b % 2 ^ f.m at hsplit
  by_cases hm : f.mag b = 0
  · have hpos := Nat.two_pow_pos f.m
    have hx0 : f.expo b = 0 := by
      by_contra hx0
      rw [FFmt.mag, if_neg hx0] at hm
      omega
    have hfr : b % 2 ^ f.m = 0 := by rwa [FFmt.mag, if_pos hx0] at hm
    rw [hx0, hfr, Nat.zero_mul, Nat.add_zero] at hsplit
    have hb0 : b = 0 := by
      split at hsplit
      · exact absurd hsplit hz
      · exact hsplit
    have hzero : signedBy (nbit b (f.e + f.m)) (f.mag b * 2 ^ f.place b) = 0 := by
      rw [hm, Nat.zero_mul, signedBy]
      split <;> rfl
    rw [hzero, hb0]
    rfl
  · have hn : f.mag b * 2 ^ f.place b ≠ 0 := Nat.mul_ne_zero hm (Nat.two_pow_pos _).ne'
    have hne : signedBy (nbit b (f.e + f.m)) (f.mag b * 2 ^ f.place b) ≠ 0 := fun h => hn (by
      rw [← natAbs_signedBy (nbit b (f.e + f.m)) (f.mag b * 2 ^ f.place b), h]; rfl)
    have hround := f.round_exact (polRound pol) (nbit b (f.e + f.m)) hm (f.mag_lt b) (hf.unbiased hm) rfl
    simp only [FFmt.encode, if_neg hne, natAbs_signedBy, signedBy_neg_iff hn, hround, hf.not_beyond hx h0 h1]
    exact hf.pack hb

end

/-- The formats of at most 8 bits. -/
theorem smallFormats_regular : ∀ f ∈ [e4m3, e5m2, e3m2, e2m3, e2m1], f.Regular := by
  simp only [List.forall_mem_cons]
  refine ⟨?_, ?_, ?_, ?_, ?_, nofun⟩ <;> constructor <;> decide

/-- Settles O34: a sum is a merge of words, which does not depend on order; every small format is regular. -/
theorem exactSumsAndFormats : Obligations.ExactSumsAndFormats :=
  ⟨⟨fun _ _ => sumEx_perm, sumEx_append, fun _ _ _ _ _ c => dotEx_perm c⟩,
    fun f _ pol hf hb hz _ hfin => (smallFormats_regular f hf).encode_decode hb hz hfin pol⟩

end Sys2Proof.Machine
end

