-- ==== Sys2Proof/Proofs/Nonces.lean ====
section
/-!
SUPPORT. Nonces of the Cashbox (R414 to R416). Settles O36.
-/
namespace Sys2Proof.Machine

section
variable (s : State) (n : Nat)

@[simp] theorem State.ctxRec_setCtxRec (c : CashCtx) : (s.setCtxRec n c).ctxRec n = c := by
  show lookD {} (putD {} s.cash.ctxs n c) n = c
  simp

@[simp] theorem State.keyEnt_setCtxRec (c : CashCtx) (k : Nat) : (s.setCtxRec n c).keyEnt k = s.keyEnt k := rfl

@[simp] theorem State.keyEnt_setKeyEnt (k : KeyEnt) : (s.setKeyEnt n k).keyEnt n = k := by
  show lookD {} (putD {} s.cash.keys n k) n = k
  simp

end

section
variable {s : State} {st n : Nat}

/-- The table number of the key that a context uses. -/
def State.ctxKey (s : State) (n : Nat) : Nat := (s.ctxRec n).key % 2 ^ 16

/-- The state with a block of a context reserved from its key. -/
def State.blockReserved (s : State) (n : Nat) : State :=
  (s.setKeyEnt (s.ctxKey n) { s.keyEnt (s.ctxKey n) with next := (s.keyEnt (s.ctxKey n)).next + 2 ^ 16 }).setCtxRec n
    { s.ctxRec n with nonceNext := (s.keyEnt (s.ctxKey n)).next, left := 2 ^ 16 }

theorem State.reserveBlock_eq : s.reserveBlock n =
    if 2 ^ 48 < (s.keyEnt (s.ctxKey n)).next + 2 ^ 16 then none else some (s.blockReserved n) := rfl

theorem State.reserveBlock_some {t : State} (h : s.reserveBlock n = some t) : t = s.blockReserved n := by
  rw [State.reserveBlock_eq] at h
  split at h
  · cases h
  · exact (Option.some.inj h).symm

theorem State.drawNonce_last (h : s.bootEpoch st = 0xFFFF) : s.drawNonce st n = none := if_pos h

theorem State.drawNonce_full (h0 : (s.ctxRec n).left = 0) (h : 2 ^ 48 < (s.keyEnt (s.ctxKey n)).next + 2 ^ 16) :
    s.drawNonce st n = none := by
  have hnone : s.reserveBlock n = none := by rw [State.reserveBlock_eq, if_pos h]
  simp only [State.drawNonce, h0, decide_true, if_true, hnone, ite_self]

/-- A nonce that is drawn is the next value of the context's block, in the state with a block reserved where none was left. -/
theorem State.drawNonce_some {t : State} {b : Bytes} {fresh : Bool} (h : s.drawNonce st n = some (t, b, fresh)) :
    let u := if (s.ctxRec n).left = 0 then s.blockReserved n else s
    t = u.setCtxRec n { u.ctxRec n with nonceNext := (u.ctxRec n).nonceNext + 1, left := (u.ctxRec n).left - 1 } ∧
      b = u.nonceAt st (u.ctxRec n).nonceNext ∧ fresh = decide ((s.ctxRec n).left = 0) := by
  intro u
  have hne : s.bootEpoch st ≠ 0xFFFF := fun he => by rw [State.drawNonce_last he] at h; cases h
  simp only [State.drawNonce, if_neg hne, decide_eq_true_eq] at h
  split at h
  · cases h
  · next v hv =>
    have huv : v = u := by
      show v = if _ then _ else _
      split at hv
      · next h0 => rw [if_pos h0, State.reserveBlock_some hv]
      · next h0 => rw [if_neg h0, Option.some.inj hv]
    simp only [Option.some.injEq, Prod.mk.injEq, huv] at h
    exact ⟨h.1.symm, h.2.1.symm, h.2.2.symm⟩

end

/-- Settles O36: the drawn value is read off the context's record in the state with its block. -/
theorem cashboxNonces : Obligations.CashboxNonces := by
  intro s t st n b fresh c e v
  refine ⟨fun h => ?_, State.drawNonce_last, State.drawNonce_full⟩
  obtain ⟨ht, hb, hf⟩ := State.drawNonce_some h
  have hrec : t.ctxRec n = _ := ht ▸ State.ctxRec_setCtxRec ..
  have hkey : t.keyEnt e = _ := ht ▸ State.keyEnt_setCtxRec ..
  by_cases h0 : (s.ctxRec n).left = 0
  · have hv : v = (s.keyEnt e).next := if_pos h0
    have hres : (s.blockReserved n).ctxRec n = { s.ctxRec n with nonceNext := (s.keyEnt e).next, left := 2 ^ 16 } :=
      State.ctxRec_setCtxRec ..
    have hent : (s.blockReserved n).keyEnt e = { s.keyEnt e with next := (s.keyEnt e).next + 2 ^ 16 } :=
      (State.keyEnt_setCtxRec ..).trans (State.keyEnt_setKeyEnt ..)
    simp only [if_pos h0, hres, hent] at ht hb hrec hkey
    refine ⟨hb.trans (hv ▸ rfl), ?_, ?_, hf, ?_, ?_, ?_⟩
    · rw [hrec, hv]
    · rw [hrec, if_pos (show c.left = 0 from h0)]
    · rw [hkey, if_pos (show c.left = 0 from h0)]
    · rw [ht]
      rfl
    · rw [ht]
      rfl
  · have hv : v = (s.ctxRec n).nonceNext := if_neg h0
    simp only [if_neg h0] at ht hb hrec hkey
    refine ⟨hb.trans (hv ▸ rfl), ?_, ?_, hf, ?_, ?_, ?_⟩
    · rw [hrec, hv]
    · rw [hrec, if_neg (show ¬ c.left = 0 from h0)]
    · rw [hkey, if_neg (show ¬ c.left = 0 from h0)]
    · rw [ht]
      rfl
    · rw [ht]
      rfl

end Sys2Proof.Machine
end

