-- ==== Sys2Proof/Proofs/Dockets.lean ====
section
/-!
SUPPORT. The life of a docket (R138–R158, R315): what its messages answer, what an accepted docket is, and what the start and the end of
an operation make of it.
-/
namespace Sys2Proof.Machine

/-! ### Messages -/

section
variable {s u : State} {f : FuncNo} {i : Inst} {m : Bytes} {bound : List (Nat × Nat)} {far : List FarAns} {d : Docket}

/-- A docket accepted for a message is a new docket; unless it is refused, each of its operations waits. -/
theorem State.acceptDocket_new {k : Nat} (h : s.acceptDocket k i m bound far = (u, some d)) :
    ∃ p st bd ps, d = { newDocket k (mNum m 24 8) (mNum m 0 8) (mNum m 16 8) p st bd with phases := ps } ∧
      (st = none → ps = p.ops.map fun _ => .waiting) := by
  simp only [State.acceptDocket] at h
  split at h
  · cases h
  · cases h
    exact ⟨blankProg 0, some 0x05, [], _, rfl, fun hn => nomatch hn⟩
  · cases h
    exact ⟨blankProg 0, some 0x06, [], _, rfl, fun hn => nomatch hn⟩
  · split at h
    · next st _ =>
      cases h
      exact ⟨_, some st, [], _, rfl, fun hn => nomatch hn⟩
    · next p _ =>
      split at h
      · cases h
        exact ⟨p, none, bound, _, rfl, fun _ => rfl⟩
      · cases h

theorem execDocketSubmit_error (h : s.takeMsg f.val 0x0010 32 = .error u) : exec (.docketSubmit f bound far) s = .next u := by
  show execDocketSubmit f bound far s = _
  simp only [execDocketSubmit, h, done]

theorem execDocketSubmit_malformed (h : s.takeMsg f.val 0x0010 32 = .ok m) (hi : s.inst f.val = some i)
    (hbad : mZero m 12 4 = false ∨ mNum m 16 8 % 64 ≠ 0) :
    exec (.docketSubmit f bound far) s = .next (s.reply f.val m 1 0 []) := by
  have hcond : (!mZero m 12 4) = true ∨ mNum m 16 8 % 64 ≠ 0 := hbad.imp_left fun hz => by rw [hz]; rfl
  show execDocketSubmit f bound far s = _
  simp only [execDocketSubmit, h, hi, done, if_pos hcond]

/-- The condition of DOCKET_SUBMIT's MALFORMED does not hold of a well-formed message. -/
theorem submit_wellFormed (hz : mZero m 12 4 = true) (ha : mNum m 16 8 % 64 = 0) :
    ¬ ((!mZero m 12 4) = true ∨ mNum m 16 8 % 64 ≠ 0) := by
  rw [hz, ha]
  decide

theorem execDocketSubmit_busy (h : s.takeMsg f.val 0x0010 32 = .ok m) (hi : s.inst f.val = some i) (hz : mZero m 12 4 = true)
    (ha : mNum m 16 8 % 64 = 0) (hn : 64 ≤ i.dockets.length) :
    exec (.docketSubmit f bound far) s = .next (s.reply f.val m 2 0 []) := by
  show execDocketSubmit f bound far s = _
  simp only [execDocketSubmit, h, hi, done, if_neg (submit_wellFormed hz ha), if_pos hn]

theorem execDocketSubmit_ok (h : s.takeMsg f.val 0x0010 32 = .ok m) (hi : s.inst f.val = some i) (hz : mZero m 12 4 = true)
    (ha : mNum m 16 8 % 64 = 0) (hn : i.dockets.length < 64) (hd : s.acceptDocket f.val i m bound far = (u, some d)) :
    exec (.docketSubmit f bound far) s =
      .next ((u.setInst f.val { i with dockets := i.dockets ++ [d] }).reply f.val m 0 0 []) := by
  show execDocketSubmit f bound far s = _
  simp only [execDocketSubmit, h, hi, done, if_neg (submit_wellFormed hz ha), if_neg (Nat.not_le_of_lt hn), hd]

/-- A docket that is found belongs to the function's instance. -/
theorem State.inst_of_docket {k t : Nat} (h : s.docket k t = some (i, d)) : s.inst k = some i := by
  unfold State.docket at h
  split at h
  · cases h
  · next j hj =>
    obtain ⟨_, _, he⟩ := Option.map_eq_some_iff.1 h
    cases he
    exact hj

theorem execDocketCancel_error (h : s.takeMsg f.val 0x0011 8 = .error u) : exec (.docketCancel f) s = .next u := by
  show execDocketCancel f s = _
  simp only [execDocketCancel, State.onInst, State.onMsg, h, done]

theorem execDocketCancel_unknown (h : s.takeMsg f.val 0x0011 8 = .ok m) (hi : s.inst f.val = some i)
    (hd : s.docket f.val (mNum m 0 8) = none) : exec (.docketCancel f) s = .next (s.reply f.val m 3 0 []) := by
  show execDocketCancel f s = _
  simp only [execDocketCancel, State.onInst, State.onMsg, h, hi, hd, done]

theorem execDocketCancel_over (h : s.takeMsg f.val 0x0011 8 = .ok m) (hd : s.docket f.val (mNum m 0 8) = some (i, d))
    (ho : d.over = true) : exec (.docketCancel f) s = .next (s.reply f.val m 3 0 []) := by
  show execDocketCancel f s = _
  simp only [execDocketCancel, State.onInst, State.onMsg, h, State.inst_of_docket hd, hd, ho, if_true, done]

theorem execDocketCancel_ok (h : s.takeMsg f.val 0x0011 8 = .ok m) (hd : s.docket f.val (mNum m 0 8) = some (i, d))
    (ho : d.over = false) :
    exec (.docketCancel f) s =
      .next ((s.changeDocket f.val (mNum m 0 8) fun x => x.endWith 0x10 noOp).reply f.val m 0 0 []) := by
  show execDocketCancel f s = _
  simp only [execDocketCancel, State.onInst, State.onMsg, h, State.inst_of_docket hd, hd, ho, Bool.false_eq_true, if_false, done]

end

/-- Settles O37: each answer from the branch of its message, and the docket's fields from `State.acceptDocket_new`. -/
theorem docketMessages : Obligations.DocketMessages := by
  intro s u f i d m bound far k o c
  refine ⟨fun h hi hz ha hn hd => ⟨execDocketSubmit_ok h hi hz ha hn hd, ?_⟩, execDocketSubmit_busy, execDocketSubmit_malformed,
    execDocketSubmit_error, execDocketCancel_ok, execDocketCancel_unknown, execDocketCancel_over, execDocketCancel_error⟩
  obtain ⟨p, st, bd, ps, rfl, hps⟩ := State.acceptDocket_new hd
  refine ⟨rfl, rfl, rfl, rfl, rfl, fun hr x hx => ?_⟩
  have hx' : x ∈ p.ops.map fun _ => OpPhase.waiting := hps hr ▸ hx
  obtain ⟨_, _, rfl⟩ := List.mem_map.1 hx'
  rfl

/-! ### The end of an operation -/

@[simp] theorem Docket.endWith_phases (d : Docket) (st n : Nat) : (d.endWith st n).phases = d.phases := by
  unfold Docket.endWith; split <;> [rfl; split <;> rfl]
@[simp] theorem Docket.endWith_tag (d : Docket) (st n : Nat) : (d.endWith st n).tag = d.tag := by
  unfold Docket.endWith; split <;> [rfl; split <;> rfl]
@[simp] theorem Docket.endWith_prog (d : Docket) (st n : Nat) : (d.endWith st n).prog = d.prog := by
  unfold Docket.endWith; split <;> [rfl; split <;> rfl]
@[simp] theorem Docket.endWith_refused (d : Docket) (st n : Nat) : (d.endWith st n).refused = d.refused := by
  unfold Docket.endWith; split <;> [rfl; split <;> rfl]
@[simp] theorem Docket.endWith_ctrs (d : Docket) (st n : Nat) : (d.endWith st n).ctrs = d.ctrs := by
  unfold Docket.endWith; split <;> [rfl; split <;> rfl]

/-- The first ending status of a docket that runs is kept. -/
theorem Docket.endWith_ending {d : Docket} {st n : Nat} (hr : d.refused = none) (he : d.ending = none) :
    (d.endWith st n).ending = some (st, n) := by
  simp only [Docket.endWith, hr, he, Option.isSome_none, Bool.false_eq_true, if_false]

section
variable (d : Docket) (n : Nat) (o : DOp)

/-- A SIGNAL that names no counter does nothing. -/
theorem Docket.signalOp_none {o : DOp} (h : o.sig = noRef) : d.signalOp n o = d := if_pos h

/-- A SIGNAL changes its counter and, where it saturates, the status of its operation. -/
theorem Docket.signalOp_eq : ∃ cs fs, d.signalOp n o = { d with ctrs := cs, fails := fs } := by
  unfold Docket.signalOp
  split
  · exact ⟨d.ctrs, d.fails, rfl⟩
  · dsimp only
    split <;> exact ⟨_, _, rfl⟩

theorem Docket.signalOp_ctrs {o : DOp} (h : o.sig ≠ noRef) :
    (d.signalOp n o).ctrs = d.ctrs.set o.sig (min (d.ctrs.getD o.sig 0 + o.sigCount) (2 ^ 24 - 1)) := by
  simp only [Docket.signalOp, if_neg h]
  split <;> rfl

/-- A status that an operation has already is not replaced by its SIGNAL's saturation. -/
theorem Docket.signalOp_fails_of_some {st : Nat} (h : look d.fails n = some st) : (d.signalOp n o).fails = d.fails := by
  unfold Docket.signalOp
  split
  · rfl
  · simp only [h, Option.isNone_some, Bool.false_eq_true, and_false, if_false]

end

/-- What the end of an operation records before its status is looked at: the operation done, its SCRATCH contents and its flags. -/
def Docket.ran (d : Docket) (n : Nat) (r : OpEnd) : Docket :=
  { d with
    phases := d.phases.set n .done
    scratch := r.scratch.foldl (fun t x => put t x.1 x.2) d.scratch
    flags := r.flags.foldl (fun t x => let old := (look t x.1).getD (false, false); put t x.1 (old.1 || x.2.1, old.2 || x.2.2)) d.flags }

/-- A docket with the status of an operation, where that is not 0. -/
def Docket.failOp (d : Docket) (n st : Nat) : Docket := if st = 0 then d else { d with fails := put d.fails n st }

theorem Docket.failOp_eq (d : Docket) (n st : Nat) : ∃ fs, d.failOp n st = { d with fails := fs } := by
  unfold Docket.failOp
  split
  · exact ⟨d.fails, rfl⟩
  · exact ⟨_, rfl⟩

theorem Docket.look_failOp {d : Docket} {n st : Nat} (h : st ≠ 0) : look (d.failOp n st).fails n = some st := by
  rw [Docket.failOp, if_neg h]
  exact look_put_same _ _ _

section
variable {d : Docket} {n : Nat} {o : DOp} {r : OpEnd}

/-- An ending status stops the docket. -/
theorem Docket.opEnded_ending (h : r.status = 0x0B ∨ r.status = 0x0F) : d.opEnded n o r = (d.ran n r).endWith r.status n := if_pos h

/-- Any other status is recorded, and the operation's SIGNAL counts while the docket goes on. -/
theorem Docket.opEnded_other (h : ¬ (r.status = 0x0B ∨ r.status = 0x0F)) :
    d.opEnded n o r = if d.ending.isSome then (d.ran n r).failOp n r.status else ((d.ran n r).failOp n r.status).signalOp n o := by
  have hending : ((d.ran n r).failOp n r.status).ending = d.ending := by
    obtain ⟨fs, hf⟩ := Docket.failOp_eq (d.ran n r) n r.status
    rw [hf]
    rfl
  rw [← hending]
  exact if_neg h

/-- What the end of an operation leaves of its docket. -/
theorem Docket.opEnded_keeps (d : Docket) (n : Nat) (o : DOp) (r : OpEnd) :
    (d.opEnded n o r).phases = d.phases.set n .done ∧ (d.opEnded n o r).tag = d.tag ∧ (d.opEnded n o r).prog = d.prog ∧
      (d.opEnded n o r).refused = d.refused := by
  by_cases h : r.status = 0x0B ∨ r.status = 0x0F
  · rw [Docket.opEnded_ending h]
    simp only [Docket.endWith_phases, Docket.endWith_tag, Docket.endWith_prog, Docket.endWith_refused]
    exact ⟨rfl, rfl, rfl, rfl⟩
  · obtain ⟨fs, hf⟩ := Docket.failOp_eq (d.ran n r) n r.status
    obtain ⟨cs, gs, hs⟩ := Docket.signalOp_eq ({ d.ran n r with fails := fs }) n o
    rw [Docket.opEnded_other h, hf]
    split
    · exact ⟨rfl, rfl, rfl, rfl⟩
    · rw [hs]
      exact ⟨rfl, rfl, rfl, rfl⟩

/-- An operation of a docket that goes on, ended with a status that is not ending. -/
theorem Docket.opEnded_goesOn (he : d.ending = none) (h1 : r.status ≠ 0x0B) (h2 : r.status ≠ 0x0F) :
    (d.opEnded n o r).ending = none ∧ (o.sig = noRef → (d.opEnded n o r).ctrs = d.ctrs) ∧
      (o.sig ≠ noRef →
        (d.opEnded n o r).ctrs = d.ctrs.set o.sig (min (d.ctrs.getD o.sig 0 + o.sigCount) (2 ^ 24 - 1))) ∧
      (r.status ≠ 0 → look (d.opEnded n o r).fails n = some r.status) := by
  have hrun : d.opEnded n o r = ((d.ran n r).failOp n r.status).signalOp n o := by
    rw [Docket.opEnded_other (not_or.2 ⟨h1, h2⟩), he]
    rfl
  obtain ⟨fs, hf⟩ := Docket.failOp_eq (d.ran n r) n r.status
  rw [hrun]
  refine ⟨?_, fun h => ?_, fun h => ?_, fun h => ?_⟩
  · obtain ⟨cs, gs, hs⟩ := Docket.signalOp_eq ((d.ran n r).failOp n r.status) n o
    rw [hs, hf]
    exact he
  · rw [Docket.signalOp_none _ _ h, hf]
    rfl
  · rw [Docket.signalOp_ctrs _ _ h, hf]
    rfl
  · rw [Docket.signalOp_fails_of_some _ _ _ (Docket.look_failOp h), Docket.look_failOp h]

end

/-! ### The start of an operation -/

section
variable {s u : State} {f : FuncNo} {i j : Inst} {d : Docket} {tag : W64} {n : Nat} {o : DOp} {placed : List Nat} {far : List FarAns}

/-- Operation `n` of a docket can start: it waits, its turn has come, its waits can be met and its stalls are the right ones. -/
def State.CanStart (s : State) (k t : Nat) (i : Inst) (d : Docket) (n : Nat) (o : DOp) (placed : List Nat) : Prop :=
  s.docket k t = some (i, d) ∧ d.prog.ops[n]? = some o ∧ d.phases.getD n .done = .waiting ∧ d.refused = none ∧ d.ending = none ∧
    d.inTurn i n o = true ∧ s.waitsMet d o = true ∧ s.placedOk i d.prog o placed = true

/-- None of the reasons for which an operation does not start holds of one that can. -/
theorem State.CanStart.starts {k t : Nat} (h : s.CanStart k t i d n o placed) :
    ¬ (d.phases.getD n .done ≠ .waiting ∨ d.refused.isSome ∨ d.ending.isSome ∨ !d.inTurn i n o ∨ !s.waitsMet d o ∨
      !s.placedOk i d.prog o placed) := by
  obtain ⟨-, -, hphase, href, hend, hturn, hmet, hplaced⟩ := h
  rw [hphase, href, hend, hturn, hmet, hplaced]
  simp

/-- An operation that can start, in an instance that does not park, consumes its waits and runs where its predicate is true. -/
theorem execOperationStart_runs {d1 : Docket} (h : s.CanStart f.val tag.toNat i d n o placed) (hp : s.parks f.val i = false)
    (htake : s.takeWaits d o = (s, d1)) (hpred : s.predicate (s.opEnv f.val i d1 n o placed) far = (s, .ok (.ok true)))
    (hcode : o.opcode ≠ 0x12) :
    exec (.operationStart f tag n placed far) s = .next (s.changeDocket f.val tag.toNat fun _ =>
      { d1 with phases := d1.phases.set n .running, placed := put d1.placed n placed, parked := false }) := by
  obtain ⟨hdocket, hop, -⟩ := id h
  show execOperationStart f tag n placed far s = _
  simp only [execOperationStart, hdocket, hop, if_neg h.starts, hp, Bool.false_eq_true, false_and, if_false, htake, hpred,
    if_neg hcode, done]

/-- One whose predicate is false is skipped, and signals. -/
theorem execOperationStart_skips {d1 : Docket} (h : s.CanStart f.val tag.toNat i d n o placed) (hp : s.parks f.val i = false)
    (htake : s.takeWaits d o = (s, d1)) (hpred : s.predicate (s.opEnv f.val i d1 n o placed) far = (s, .ok (.ok false))) :
    exec (.operationStart f tag n placed far) s = .next (s.changeDocket f.val tag.toNat fun _ =>
      { ({ d1 with phases := d1.phases.set n .skipped }.signalOp n o) with parked := false }) := by
  obtain ⟨hdocket, hop, -⟩ := id h
  show execOperationStart f tag n placed far s = _
  simp only [execOperationStart, hdocket, hop, if_neg h.starts, hp, Bool.false_eq_true, false_and, if_false, htake, hpred, done]

/-- At a step boundary a docket that has to park does so. -/
theorem execOperationStart_parks (h : s.CanStart f.val tag.toNat i d n o placed) (hp : s.parks f.val i = true)
    (hstep : o.step = true) (hstarted : d.started = true) :
    exec (.operationStart f tag n placed far) s =
      .next ((s.changeDocket f.val tag.toNat fun d => { d with parked := true }).countHeld f.val) := by
  obtain ⟨hdocket, hop, -⟩ := id h
  show execOperationStart f tag n placed far s = _
  simp only [execOperationStart, hdocket, hop, if_neg h.starts, hp, hstep, hstarted, true_and, true_or, if_true, done]

theorem execOperationStart_none (h : s.docket f.val tag.toNat = none) : exec (.operationStart f tag n placed far) s = .next s := by
  show execOperationStart f tag n placed far s = _
  simp only [execOperationStart, h, done]

theorem State.takeWaits_none (h : o.waits = []) : s.takeWaits d o = (s, d) := by rw [State.takeWaits, h]; rfl

/-- A wait of 1 on a counter of the docket itself takes 1 from it. -/
theorem State.takeWaits_one {x : Nat} (h : o.waits = [(x, 1)]) (hb : look d.bound x = none) :
    s.takeWaits d o = (s, { d with ctrs := d.ctrs.set x (d.ctrs.getD x 0 - 1) }) := by
  simp only [State.takeWaits, h, List.foldl_cons, List.foldl_nil, hb]

theorem State.opEnv_fields (k : Nat) (d : Docket) : (s.opEnv k i d n o placed).d = d ∧ (s.opEnv k i d n o placed).op = o :=
  ⟨rfl, rfl⟩

/-- An operation without a predicate runs. -/
theorem State.predicate_none {k : Nat} (h : d.prog.preds[o.pred]? = none) :
    s.predicate (s.opEnv k i d n o placed) far = (s, .ok (.ok true)) := by
  obtain ⟨hd, ho⟩ := State.opEnv_fields (s := s) (i := i) (n := n) (o := o) (placed := placed) k d
  simp only [State.predicate, hd, ho, h]

/-- A predicate on a counter whose outcome is the one that NEGATE negates is false. -/
theorem State.predicate_false {k : Nat} {p : DPred} (h : d.prog.preds[o.pred]? = some p) (hs : p.source = 0)
    (hv : p.holds (s.dctr d p.ref) p.value = o.negate) :
    s.predicate (s.opEnv k i d n o placed) far = (s, .ok (.ok false)) := by
  obtain ⟨hd, ho⟩ := State.opEnv_fields (s := s) (i := i) (n := n) (o := o) (placed := placed) k d
  simp only [State.predicate, hd, ho, h, hs, if_true, hv, bne_self_eq_false]

/-! ### The completion of an operation and of a docket -/

variable {ms : List (Nat × Bytes × Bool)} {r : OpEnd} {ds : List Docket}

/-- An operation that has not started, or that is neither a BELL nor a collective, under way. -/
def State.Running (s : State) (k t : Nat) (i : Inst) (d : Docket) (n : Nat) (o : DOp) : Prop :=
  s.docket k t = some (i, d) ∧ d.prog.ops[n]? = some o ∧ d.phases.getD n .done = .running ∧ o.opcode ≠ 0x12 ∧ o.opcode ≠ 0x0A

theorem execOperationComplete_none (h : s.docket f.val tag.toNat = none) :
    exec (.operationComplete f tag n ms false far) s = .next s := by
  show execOperationComplete f tag n ms false far s = _
  simp only [execOperationComplete, h, done]

/-- An operation of a lost connection ends with REMOTE_FAILED. -/
theorem execOperationComplete_lost (h : s.Running f.val tag.toNat i d n o) (hl : s.connLost o none = true) :
    exec (.operationComplete f tag n ms false far) s =
      .next (s.changeDocket f.val tag.toNat fun d => d.opEnded n o { status := 0x0F }) := by
  obtain ⟨hdocket, hop, hphase, hbell, hcoll⟩ := h
  show execOperationComplete f tag n ms false far s = _
  simp only [execOperationComplete, hdocket, hop, hphase, ne_eq, not_true_eq_false, if_false, hbell, hcoll, false_and, hl, true_or,
    if_true, done]

/-- An operation that runs to its end. -/
theorem execOperationComplete_ends (h : s.Running f.val tag.toNat i d n o) (hl : s.connLost o none = false)
    (hreq : (s.opEnv f.val i d n o ((look d.placed n).getD [])).req < 0x400)
    (hpar : s.parityInject (s.opEnv f.val i d n o ((look d.placed n).getD [])).req = none)
    (hfin : ((s.opEnv f.val i d n o ((look d.placed n).getD [])).finish none ms false).at s far = (u, .ok r)) :
    exec (.operationComplete f tag n ms false far) s = .next (u.changeDocket f.val tag.toNat fun d => d.opEnded n o r) := by
  obtain ⟨hdocket, hop, hphase, hbell, hcoll⟩ := h
  show execOperationComplete f tag n ms false far s = _
  simp only [execOperationComplete, hdocket, hop, hphase, ne_eq, not_true_eq_false, if_false, hbell, hcoll, false_and, hl,
    Bool.false_eq_true, or_self, if_pos hreq, hpar, hfin, done]

theorem execDocketComplete_running (hi : s.inst f.val = some i)
    (hd : splitDocket (fun d => decide (d.tag = tag.toNat) && !d.held) i.dockets = some (d, ds)) (ho : d.over = false) :
    exec (.docketComplete f tag) s = .next s := by
  show execDocketComplete f tag s = _
  simp only [execDocketComplete, hi, hd, ho, Bool.not_false, true_or, if_true, done]

/-- A docket that is over leaves the list once its record is written. -/
theorem execDocketComplete_over (hi : s.inst f.val = some i)
    (hd : splitDocket (fun d => decide (d.tag = tag.toNat) && !d.held) i.dockets = some (d, ds)) (ho : d.over = true)
    (hphase : s.fget ⟨.fwState, 0, 0⟩ F.fwState_PHASE < 3) (hlost : (s.func f.val).driverLost = false)
    (hfin : s.finishDocket f.val i d = some u) (hj : u.inst f.val = some j) :
    exec (.docketComplete f tag) s = .next (u.setInst f.val { j with dockets := ds }) := by
  show execDocketComplete f tag s = _
  simp only [execDocketComplete, hi, hd, ho, Bool.not_true, Bool.false_eq_true, false_or, if_neg (Nat.not_le_of_lt hphase), hlost,
    if_false, hfin, hj, done]

end

/-! ### Hangs -/

section
variable {s : State} {q : Qn} {c : Fin 4096} {x : Nat} {w : Waiter}

theorem execBellHang_paused {what : HangWhat} (h : s.fbit ⟨.pwrStatus, 0, 0⟩ F.pwrStatus_PAUSED = true) :
    exec (.bellHang q what) s = .next s :=
  if_pos h

theorem execBellHang_unlimited (h : s.hangLimit (ctrKey q c) = 0) : exec (.bellHang q (.waiter c x)) s = .next s := by
  show execBellHang q (.waiter c x) s = _
  simp only [execBellHang, h, decide_true, Bool.or_true, if_true, done]
  split <;> [rfl; split <;> rfl]

/-- A waiter past its limit sets HANG, is reported and stays where it is. -/
theorem execBellHang_reports (hp : s.fbit ⟨.pwrStatus, 0, 0⟩ F.pwrStatus_PAUSED = false)
    (hw : (s.queue (ctrKey q c))[x]? = some w) (hh : w.hung = false) (hl : s.hangLimit (ctrKey q c) ≠ 0) :
    exec (.bellHang q (.waiter c x)) s =
      .next ((((s.setQueue (ctrKey q c) ((s.queue (ctrKey q c)).set x { w with hung := true })).fset (ctrStatus (ctrKey q c))
        F.bellCntStatus_HANG 1)).hangReport q.val 1 c.val) := by
  show execBellHang q (.waiter c x) s = _
  simp only [execBellHang, hp, Bool.false_eq_true, if_false, hw, hh, decide_eq_false hl, Bool.or_self, done]

end

/-- Settles O38: each row from its branch's lemma, and what the end of an operation does from `Docket.opEnded_goesOn` and
`Docket.endWith_ending`. -/
theorem docketRuns : Obligations.DocketRuns := by
  refine ⟨?_, ?_⟩
  · intro s u f i j d tag n o placed far ms r ds p q c w x k t can start complete running e key
    refine ⟨fun (h : s.CanStart k t i d n o placed) hp hw hpred hcode => ?_,
      fun (h : s.CanStart k t i d n o placed) hp hw hb hpred hcode => ?_,
      fun (h : s.CanStart k t i d n o placed) hp hw hpred hs hv => ?_,
      fun (h : s.CanStart k t i d n o placed) => execOperationStart_parks h, execOperationStart_none,
      fun (h : s.Running k t i d n o) => execOperationComplete_ends h, fun (h : s.Running k t i d n o) => execOperationComplete_lost h,
      execOperationComplete_none, execDocketComplete_over, execDocketComplete_running, execBellHang_reports, execBellHang_paused,
      execBellHang_unlimited⟩
    · exact execOperationStart_runs h hp (State.takeWaits_none hw) (State.predicate_none hpred) hcode
    · exact execOperationStart_runs h hp (State.takeWaits_one hw hb) (State.predicate_none hpred) hcode
    · exact execOperationStart_skips h hp (State.takeWaits_none hw) (State.predicate_false hpred hs hv)
  · intro d n o r x sum
    obtain ⟨hphases, htag, hprog, href⟩ := Docket.opEnded_keeps d n o r
    refine ⟨hphases, htag, hprog, href, Docket.opEnded_goesOn, fun hst hr he => ?_⟩
    have hx : x = (d.ran n r).endWith r.status n := Docket.opEnded_ending hst
    rw [hx]
    exact ⟨Docket.endWith_ending hr he, Docket.endWith_ctrs _ _ _⟩

end Sys2Proof.Machine
end

