-- ==== Sys2Proof/Proofs/Causeways.lean ====
section
/-!
SUPPORT. The Causeway ports (R338–R350): what a link's state and record read after each is replaced, the rows of links and messages in
link mode, and the rows of root-port mode.
-/
namespace Sys2Proof.Machine

/-! ### Links -/

section
variable (s : State) (l v : Nat) (x : CwLink)

@[simp] theorem State.link_setLink : (s.setLink l x).link l = x := by
  show (look (putD {} s.cw l x) l).getD {} = x
  exact lookD_putD_same _ _ _ _

@[simp] theorem State.setLink_rd (r : Reg) : (s.setLink l x).rd r = s.rd r := rfl

@[simp] theorem State.setLink_linkState (k : Nat) : (s.setLink l x).linkState k = s.linkState k := rfl

@[simp] theorem State.setLink_fget (r : Reg) (f : Fld) : (s.setLink l x).fget r f = s.fget r f := rfl

@[simp] theorem State.setLink_home : (s.setLink l x).home = s.home := rfl

theorem State.link_of_cw {s t : State} (h : t.cw = s.cw) : t.link l = s.link l := by rw [State.link, h, State.link]

@[simp] theorem State.link_fset (r : Reg) (f : Fld) (n : Nat) : (s.fset r f n).link l = s.link l := State.link_of_cw l (State.fset_cw ..)

@[simp] theorem State.link_setLinkState (k : Nat) : (s.setLinkState k v).link l = s.link l := by
  simp only [State.setLinkState, State.link_fset]

@[simp] theorem State.setLinkState_home : (s.setLinkState l v).home = s.home := by
  simp only [State.setLinkState, State.fset_home]

/-- STATE reads what it was set to. -/
theorem State.linkState_setLinkState {v : Nat} (hv : v < 8) : (s.setLinkState l v).linkState l = v := by
  rw [State.setLinkState, State.linkState, State.fget_fset_apart _ _ (by decide), State.fget_fset_same _ _ (by decide)]
  exact Nat.mod_eq_of_lt hv

theorem State.setLinkState_rd_ne {r : Reg} (h : r ≠ linkStatus l) : (s.setLinkState l v).rd r = s.rd r := by
  rw [State.setLinkState, State.rd_fset_ne _ _ _ h, State.rd_fset_ne _ _ _ h]

/-- A field of the status above WIDTH is as it was. -/
theorem State.setLinkState_fget {f : Fld} (h : 6 < f.lo) : (s.setLinkState l v).fget (linkStatus l) f = s.fget (linkStatus l) f := by
  rw [State.setLinkState, State.fget_fset_apart _ _ (.inr h),
    State.fget_fset_apart _ _ (.inr (Nat.lt_trans (by decide : F.cwLinkStatus_STATE.hi < 6) h))]

end

/-! ### The control of a group and of a link -/

section
variable {s : State} {rq : Requester} {g : Nat} {v : W64}

/-- The group control with the three fields of a write. -/
def State.grpCtrlTaken (s : State) (g : Nat) (v : W64) : State :=
  ((s.fset (grpCtrlReg g) F.cwGrpCtrl_MODE (bitsOf v F.cwGrpCtrl_MODE)).fset (grpCtrlReg g) F.cwGrpCtrl_ENABLE
    (bitsOf v F.cwGrpCtrl_ENABLE)).fset (grpCtrlReg g) F.cwGrpCtrl_PERST (bitsOf v F.cwGrpCtrl_PERST)

theorem State.grpCtrlTaken_mode : (s.grpCtrlTaken g v).fget (grpCtrlReg g) F.cwGrpCtrl_MODE = bitsOf v F.cwGrpCtrl_MODE := by
  rw [State.grpCtrlTaken, State.fget_fset_apart _ _ (by decide), State.fget_fset_apart _ _ (by decide),
    State.fget_fset_same _ _ (by decide), Nat.mod_eq_of_lt (bitsOf_lt _)]

theorem State.grpCtrlTaken_enable : (s.grpCtrlTaken g v).fget (grpCtrlReg g) F.cwGrpCtrl_ENABLE = bitsOf v F.cwGrpCtrl_ENABLE := by
  rw [State.grpCtrlTaken, State.fget_fset_apart _ _ (by decide), State.fget_fset_same _ _ (by decide), Nat.mod_eq_of_lt (bitsOf_lt _)]

theorem State.grpCtrlTaken_perst : (s.grpCtrlTaken g v).fget (grpCtrlReg g) F.cwGrpCtrl_PERST = bitsOf v F.cwGrpCtrl_PERST := by
  rw [State.grpCtrlTaken, State.fget_fset_same _ _ (by decide), Nat.mod_eq_of_lt (bitsOf_lt _)]

theorem State.grpCtrlTaken_rd_ne {r : Reg} (h : r ≠ grpCtrlReg g) : (s.grpCtrlTaken g v).rd r = s.rd r := by
  rw [State.grpCtrlTaken, State.rd_fset_ne _ _ _ h, State.rd_fset_ne _ _ _ h, State.rd_fset_ne _ _ _ h]

/-- A write that leaves MODE as it is, of a group without an active root port, is taken; at most the PERST pin is told. -/
theorem State.grpCtrlWrite_taken (hk : rqKernel rq = true) (hm : bitsOf v F.cwGrpCtrl_MODE = s.fget (grpCtrlReg g) F.cwGrpCtrl_MODE)
    (hd : s.fbit (grpStatusReg g) F.cwGrpStatus_DLL_ACTIVE = false) :
    s.grpCtrlWrite rq g v = s.grpCtrlTaken g v ∨ ∃ o, s.grpCtrlWrite rq g v = (s.grpCtrlTaken g v).emit o := by
  simp only [State.grpCtrlWrite, hk, hm, hd, ne_eq, not_true_eq_false, decide_false, Bool.not_true, Bool.false_and, Bool.or_self,
    Bool.false_eq_true, and_false, if_false]
  rw [← hm]
  split
  · exact .inl rfl
  · exact .inr ⟨_, rfl⟩

theorem State.grpCtrlWrite_stray (hk : rqKernel rq = false) : s.grpCtrlWrite rq g v = s.refuse rq (grpCtrlReg g) :=
  if_pos (by rw [hk]; rfl)

/-- A change of MODE of an enabled group is a stray write. -/
theorem State.grpCtrlWrite_enabled (hm : bitsOf v F.cwGrpCtrl_MODE ≠ s.fget (grpCtrlReg g) F.cwGrpCtrl_MODE)
    (he : s.fbit (grpCtrlReg g) F.cwGrpCtrl_ENABLE = true) : s.grpCtrlWrite rq g v = s.refuse rq (grpCtrlReg g) :=
  if_pos (by rw [he, decide_eq_true hm]; simp)

variable {l : Nat}

/-- The link control with the two fields of a write. -/
def State.linkCtrlTaken (s : State) (l : Nat) (v : W64) : State :=
  (s.fset (linkCtrl l) F.cwLinkCtrl_IN_ASID (bitsOf v F.cwLinkCtrl_IN_ASID)).fset (linkCtrl l) F.cwLinkCtrl_ENABLE
    (bitsOf v F.cwLinkCtrl_ENABLE)

theorem linkStatus_ne_linkCtrl : linkStatus l ≠ linkCtrl l := by simp [linkStatus, linkCtrl]

theorem State.linkCtrlTaken_linkState : (s.linkCtrlTaken l v).linkState l = s.linkState l := by
  rw [State.linkState, State.linkCtrlTaken, State.fget_fset_ne _ _ linkStatus_ne_linkCtrl, State.fget_fset_ne _ _ linkStatus_ne_linkCtrl,
    State.linkState]

/-- What a write of the link control does once it is admitted; RETRAIN stands for itself. -/
theorem State.linkCtrlWrite_admitted (hk : rqKernel rq = true) (hr : s.rpMode l = false) (n : Nat) :
    s.linkCtrlWrite rq l (setBits v F.cwLinkCtrl_RETRAIN n) =
      if bitsOf v F.cwLinkCtrl_ENABLE = 0 then (s.linkCtrlTaken l v).linkDown l
      else if s.linkState l = 0 ∨ n % 2 = 1 then (s.linkCtrlTaken l v).setLinkState l 1
      else s.linkCtrlTaken l v := by
  have hasid : bitsOf (setBits v F.cwLinkCtrl_RETRAIN n) F.cwLinkCtrl_IN_ASID = bitsOf v F.cwLinkCtrl_IN_ASID :=
    bitsOf_setBits_apart _ _ (by decide)
  have hen : bitsOf (setBits v F.cwLinkCtrl_RETRAIN n) F.cwLinkCtrl_ENABLE = bitsOf v F.cwLinkCtrl_ENABLE :=
    bitsOf_setBits_apart _ _ (by decide)
  have hret : bitsOf (setBits v F.cwLinkCtrl_RETRAIN n) F.cwLinkCtrl_RETRAIN = n % 2 := bitsOf_setBits_same _ _ (by decide)
  rw [← State.linkCtrlTaken_linkState (v := v)]
  simp only [State.linkCtrlWrite, hk, hr, hasid, hen, hret, Bool.not_true, Bool.or_self, Bool.false_eq_true, if_false]
  rfl

/-- ENABLE lets a link train that is DOWN or told to RETRAIN, and leaves another as it is. -/
theorem State.linkCtrlWrite_enabled (hk : rqKernel rq = true) (hr : s.rpMode l = false) (he : bitsOf v F.cwLinkCtrl_ENABLE = 1) (n : Nat) :
    (s.linkState l = 0 ∨ n % 2 = 1 →
      s.linkCtrlWrite rq l (setBits v F.cwLinkCtrl_RETRAIN n) = (s.linkCtrlTaken l v).setLinkState l 1) ∧
    (s.linkState l ≠ 0 → n % 2 = 0 → s.linkCtrlWrite rq l (setBits v F.cwLinkCtrl_RETRAIN n) = s.linkCtrlTaken l v) := by
  have hon : ¬ bitsOf v F.cwLinkCtrl_ENABLE = 0 := by rw [he]; decide
  rw [State.linkCtrlWrite_admitted hk hr, if_neg hon]
  exact ⟨fun h => if_pos h, fun hs hn => if_neg (not_or.2 ⟨hs, by rw [hn]; decide⟩)⟩

theorem State.linkCtrlWrite_disabled (hk : rqKernel rq = true) (hr : s.rpMode l = false) (he : bitsOf v F.cwLinkCtrl_ENABLE = 0)
    (n : Nat) : s.linkCtrlWrite rq l (setBits v F.cwLinkCtrl_RETRAIN n) = (s.linkCtrlTaken l v).linkDown l := by
  rw [State.linkCtrlWrite_admitted hk hr, if_pos he]

theorem State.linkCtrlWrite_stray (h : rqKernel rq = false ∨ s.rpMode l = true) (w : W64) :
    s.linkCtrlWrite rq l w = s.refuse rq (linkCtrl l) :=
  if_pos (by rcases h with h | h <;> simp [h])

end

/-! ### Training, negotiation and flits -/

section
variable {s : State} {l : LinkNo} {w rate ver seq : Nat} {m : CwMsg} {r ms : List CwMsg}

theorem execCwLinkTrained_trains (hp : s.portsTrain = true) (hr : s.rpMode l.val = false) (hs : s.linkState l.val = 1)
    (hw : w = 1 ∨ w = 2 ∨ w = 4) : exec (.cwLinkTrained l w rate) s =
      .next (((s.setLink l.val { s.link l.val with width := w, fails := 0 }).setLinkState l.val 2).cwSend l.val versionMsg) := by
  have hmem : w ∈ [1, 2, 4] := by simpa using hw
  show execCwLinkTrained l w rate s = _
  simp only [execCwLinkTrained, hp, hr, hs, Bool.not_true, Bool.false_eq_true, ne_eq, not_true_eq_false, if_false, if_pos hmem, done]

theorem execCwLinkTrained_zero (hp : s.portsTrain = true) (hr : s.rpMode l.val = false) (hs : s.linkState l.val = 1) :
    exec (.cwLinkTrained l 0 rate) s = .next (s.linkDown l.val) := by
  have hmem : ¬ 0 ∈ [1, 2, 4] := by decide
  show execCwLinkTrained l 0 rate s = _
  simp only [execCwLinkTrained, hp, hr, hs, Bool.not_true, Bool.false_eq_true, ne_eq, not_true_eq_false, if_false, if_neg hmem, done]

/-- The link agreed on a version, and one that did not. -/
theorem execCwVersion_agreed (hq : (s.link l.val).rxq = m :: r) (ht : m.type = 6) (hs : s.linkState l.val = 2)
    (ha : agreed (versionList (slice m.data 0 m.length)) = some ver) : exec (.cwVersion l) s =
      .next ((((s.cwPop l.val).fset (linkStatus l.val) F.cwLinkStatus_VERSION ver).fset (linkStatus l.val) F.cwLinkStatus_NEG_STATUS
        0).setLinkState l.val 3) := by
  show execCwVersion l s = _
  simp only [execCwVersion, hq, ht, hs, and_self, if_true, ha, done]

theorem execCwVersion_failed (hq : (s.link l.val).rxq = m :: r) (ht : m.type = 6) (hs : s.linkState l.val = 2)
    (ha : agreed (versionList (slice m.data 0 m.length)) = none) : exec (.cwVersion l) s =
      .next (((s.cwPop l.val).fset (linkStatus l.val) F.cwLinkStatus_NEG_STATUS 0x7F).setLinkState l.val 5) := by
  show execCwVersion l s = _
  simp only [execCwVersion, hq, ht, hs, and_self, if_true, ha, done]

theorem State.link_cwPop (k : Nat) (hq : (s.link k).rxq = m :: r) : ((s.cwPop k).link k).rxq = r := by
  rw [State.cwPop, State.link_setLink]
  show (s.link k).rxq.drop 1 = r
  rw [hq]
  rfl

/-- A version that is agreed on is 1.0. -/
theorem agreed_some {vs : List Nat} (h : agreed vs = some ver) : ver = 0x0100 := by
  unfold agreed at h
  split at h <;> cases h
  rfl

/-- A flit in turn is counted and its messages are delivered. -/
theorem execCwFlit_delivers (hs : s.linkState l.val = 3) (hi : s.injAt 0x05 (linkUnit l.val) (fun _ => true) = none) :
    exec (.cwFlit l (s.link l.val).nextSeq true ms) s =
      .next (ms.foldl (fun s m => s.deliver l.val m)
        ((s.setLink l.val { s.link l.val with nextSeq := (s.link l.val).nextSeq + 1, fails := 0 }).count (l.val / 4) 56 1
          (ms.map fun m => m.data.length).sum)) := by
  have hup : ¬ (s.linkState l.val ≠ 2 ∧ s.linkState l.val ≠ 3) := fun h => h.2 hs
  show execCwFlit l (s.link l.val).nextSeq true ms s = _
  simp only [execCwFlit, if_neg hup, hi, Bool.not_true, Bool.false_eq_true, ne_eq, not_true_eq_false, if_false, done]

theorem execCwFlit_outOfTurn (hs : s.linkState l.val = 3) (hi : s.injAt 0x05 (linkUnit l.val) (fun _ => true) = none)
    (hn : seq ≠ (s.link l.val).nextSeq) : exec (.cwFlit l seq true ms) s = .next s := by
  have hup : ¬ (s.linkState l.val ≠ 2 ∧ s.linkState l.val ≠ 3) := fun h => h.2 hs
  show execCwFlit l seq true ms s = _
  simp only [execCwFlit, if_neg hup, hi, Bool.not_true, Bool.false_eq_true, if_false, if_pos hn, done]

theorem execCwFlit_bad (hs : s.linkState l.val = 3) (hi : s.injAt 0x05 (linkUnit l.val) (fun _ => true) = none) :
    exec (.cwFlit l seq false ms) s = .next (s.flitFailed l.val false) := by
  have hup : ¬ (s.linkState l.val ≠ 2 ∧ s.linkState l.val ≠ 3) := fun h => h.2 hs
  show execCwFlit l seq false ms s = _
  simp only [execCwFlit, if_neg hup, hi, Bool.not_false, if_true, done]

/-- Messages of defined TYPEs are delivered behind those that wait, and nothing else changes. -/
theorem State.deliver_all (k : Nat) (ms : List CwMsg) : ∀ t : State, (∀ x ∈ ms, 1 ≤ x.type ∧ x.type ≤ 6) →
    let u := ms.foldl (fun s m => s.deliver k m) t
    (u.link k).nextSeq = (t.link k).nextSeq ∧ (u.link k).rxq = (t.link k).rxq ++ ms ∧ u.linkState k = t.linkState k := by
  induction ms with
  | nil => intro t _; exact ⟨rfl, (List.append_nil _).symm, rfl⟩
  | cons m ms ih =>
    intro t h u
    obtain ⟨hseq, hrxq, hstate⟩ := ih (t.deliver k m) fun x hx => h x (List.mem_cons_of_mem _ hx)
    have hone : t.deliver k m = t.setLink k { t.link k with rxq := (t.link k).rxq ++ [m] } := if_pos (h m List.mem_cons_self)
    have hu : u = ms.foldl (fun s m => s.deliver k m) (t.deliver k m) := rfl
    refine ⟨hu ▸ hseq.trans (by rw [hone, State.link_setLink]), hu ▸ hrxq.trans ?_, hu ▸ hstate.trans (by rw [hone]; rfl)⟩
    rw [hone, State.link_setLink, List.append_assoc]
    rfl

theorem State.linkState_count (q b n x k : Nat) : (s.count q b n x).linkState k = s.linkState k :=
  State.count_fget s q b n x F.cwLinkStatus_STATE (by simp [linkStatus])

theorem State.link_count (q b n x k : Nat) : (s.count q b n x).link k = s.link k := State.link_of_cw k (State.count_cw ..)

end

/-! ### Narrowing and going down -/

section
variable {s : State} {k : Nat}

theorem State.narrow_up (hs : s.linkState k = 3) (hw : 1 < (s.link k).width) (inj : Bool) :
    s.narrow k inj =
      (((((s.fsat (linkErr k) F.cwLinkErr_NARROWINGS 1).count (k / 4) 56 3 1).setLink k
        { ((s.fsat (linkErr k) F.cwLinkErr_NARROWINGS 1).count (k / 4) 56 3 1).link k with fails := 0 }).setLinkState k 4).linkRecord k 1
          inj) := by
  rw [State.narrow, if_neg (fun h => h hs), if_neg (Nat.not_le_of_lt hw)]

theorem State.narrow_single (hs : s.linkState k = 3) (hw : (s.link k).width ≤ 1) (inj : Bool) : s.narrow k inj = s.linkDown k := by
  rw [State.narrow, if_neg (fun h => h hs), if_pos hw]

theorem State.narrow_notUp (hs : s.linkState k ≠ 3) (inj : Bool) : s.narrow k inj = s := if_pos hs

theorem execCwNarrowed_trained {l : LinkNo} (hs : s.linkState l.val = 4) : exec (.cwNarrowed l true) s =
    .next ((s.setLink l.val { s.link l.val with width := (s.link l.val).width / 2 }).setLinkState l.val 3) := by
  show execCwNarrowed l true s = _
  simp only [execCwNarrowed, hs, ne_eq, not_true_eq_false, if_false, if_true, done]

theorem execCwNarrowed_failed {l : LinkNo} (hs : s.linkState l.val = 4) : exec (.cwNarrowed l false) s = .next (s.linkDown l.val) := by
  show execCwNarrowed l false s = _
  simp only [execCwNarrowed, hs, ne_eq, not_true_eq_false, if_false, Bool.false_eq_true, done]

end

/-! ### Messages that arrive -/

section
variable {s u : State} {l : LinkNo} {m : CwMsg} {st : Nat} {d : Bytes} {p : Bool}

theorem execCwWrite_none (h : s.cwHead l.val 1 = none) : exec (.cwWrite l) s = .next s := by
  show execCwWrite l s = _
  simp only [execCwWrite, h, done]

theorem execCwWrite_malformed (h : s.cwHead l.val 1 = some m)
    (hb : cwMsgOk m = false ∨ m.length = 0 ∨ 256 < m.addr % 256 + m.length) :
    exec (.cwWrite l) s = .next ((s.cwPop l.val).cwAck l.val m.tag 0x01) := by
  have hbad : (!cwMsgOk m || nbit m.flags 0 || decide (m.length = 0) || decide (256 < m.length) || decide (m.status ≠ 0) ||
      decide (2 ^ 57 ≤ m.addr) || decide (256 < m.addr % 256 + m.length)) = true := by
    rcases hb with hb | hb | hb <;> simp [hb]
  show execCwWrite l s = _
  simp only [execCwWrite, h, if_pos hbad, done]

theorem execCwWrite_made (h : s.cwHead l.val 1 = some m) (hok : cwMsgOk m = true) (hf : nbit m.flags 0 = false) (hn : 1 ≤ m.length)
    (hst : m.status = 0) (ha : m.addr < 2 ^ 57) (hfit : m.addr % 256 + m.length ≤ 256)
    (hw : s.arrivalWrite (l.val / 4) (0x5000 + l.val) (s.inAsid l.val) m.addr (slice m.data 0 m.length) (nbit m.flags 1) = (u, some st)) :
    exec (.cwWrite l) s = .next ((u.cwPop l.val).cwAck l.val m.tag st) := by
  have hbad : ¬ (!cwMsgOk m || nbit m.flags 0 || decide (m.length = 0) || decide (256 < m.length) || decide (m.status ≠ 0) ||
      decide (2 ^ 57 ≤ m.addr) || decide (256 < m.addr % 256 + m.length)) = true := by
    rw [hok, hf, hst]
    simp
    omega
  show execCwWrite l s = _
  simp only [execCwWrite, h, if_neg hbad, hw, done]

/-- What makes a READ malformed. -/
def readBad (m : CwMsg) : Bool :=
  !cwMsgOk m || decide (m.flags ≠ 0) || decide (m.length = 0) || decide (4096 < m.length) || decide (m.status ≠ 0) ||
    decide (2 ^ 57 ≤ m.addr)

theorem readBad_of_malformed (hb : cwMsgOk m = false ∨ m.length = 0 ∨ 4096 < m.length) : readBad m = true := by
  rcases hb with hb | hb | hb <;> simp [readBad, hb]

/-- A READ is well formed. -/
def ReadOk (m : CwMsg) : Prop := cwMsgOk m = true ∧ m.flags = 0 ∧ 1 ≤ m.length ∧ m.length ≤ 4096 ∧ m.status = 0 ∧ m.addr < 2 ^ 48

theorem readBad_of_wellFormed (h : ReadOk m) : readBad m = false := by
  obtain ⟨hok, hf, hn, hmax, hst, ha⟩ := h
  rw [readBad, hok, hf, hst]
  simp
  omega

theorem execCwRead_none (h : s.cwHead l.val 2 = none) : exec (.cwRead l) s = .next s := by
  show execCwRead l s = _
  simp only [execCwRead, h, done]

theorem execCwRead_malformed (h : s.cwHead l.val 2 = some m) (hb : cwMsgOk m = false ∨ m.length = 0 ∨ 4096 < m.length) :
    exec (.cwRead l) s = .next ((s.cwPop l.val).cwSend l.val (readError m.tag 0x01)) := by
  have hbad := readBad_of_malformed hb
  show execCwRead l s = _
  rw [readBad] at hbad
  simp only [execCwRead, h, if_pos hbad, done]

/-- A well-formed READ is answered as the read of memory ends. -/
theorem execCwRead_wellFormed (h : s.cwHead l.val 2 = some m) (hok : ReadOk m) : exec (.cwRead l) s =
    match s.vread (l.val / 4) (0x5000 + l.val) (s.inAsid l.val) m.addr m.length with
      | (s, .held) => .next s
      | (s, .deny) => .next ((s.cwPop l.val).cwSend l.val (readError m.tag 0x05))
      | (s, .ok d p) => .next
          ((readData m.tag (if p then 0x06 else 0) p (cut256 32 m.addr d)).foldl (fun s x => s.cwSend l.val x) (s.cwPop l.val)) := by
  have hbad := ne_true_of_eq_false (readBad_of_wellFormed hok)
  have ha : ¬ 2 ^ 48 ≤ m.addr := Nat.not_le_of_lt hok.2.2.2.2.2
  show execCwRead l s = _
  rw [readBad] at hbad
  simp only [execCwRead, h, if_neg hbad, if_neg ha] <;> rfl

/-! The answers to reads and writes of this device -/

variable {c id : Nat} {b : Burst}

theorem execCwReadData_none (h : s.cwHead l.val 3 = none) : exec (.cwReadData l) s = .next s := by
  show execCwReadData l s = _
  simp only [execCwReadData, h, done]

theorem execCwReadData_late (h : s.cwHead l.val 3 = some m) (ht : look ((s.cwPop l.val).link l.val).tags m.tag = none) :
    exec (.cwReadData l) s = .next ((s.cwPop l.val).cwLate l.val) := by
  show execCwReadData l s = _
  simp only [execCwReadData, h, ht, done]

/-- A burst with the data of a READ_DATA behind its own. -/
def Burst.withData (b : Burst) (m : CwMsg) : Burst :=
  { b with data := b.data ++ slice m.data 0 m.length, poison := b.poison || nbit m.flags 1 }

/-- The data of a READ_DATA with STATUS 0 reaches its burst; the last completes it. -/
theorem execCwReadData_data (h : s.cwHead l.val 3 = some m) (ht : look ((s.cwPop l.val).link l.val).tags m.tag = some (c, id))
    (hi : (s.cwPop l.val).injAt 0x0A (linkUnit l.val) (fun _ => true) = none) (hb : (s.cwPop l.val).burst c id = some b)
    (hst : m.status = 0) : exec (.cwReadData l) s =
      if nbit m.flags 0 then
        .next ((((s.cwPop l.val).setBurst c (b.withData m)).setLink l.val
          { ((s.cwPop l.val).setBurst c (b.withData m)).link l.val with
            tags := drop (((s.cwPop l.val).setBurst c (b.withData m)).link l.val).tags m.tag }).burstData c (b.withData m)
              (slice (b.withData m).data 0 (b.withData m).len) (b.withData m).poison)
      else .next ((s.cwPop l.val).setBurst c (b.withData m)) := by
  show execCwReadData l s = _
  simp only [execCwReadData, h, ht, hi, hb, hst, Option.isSome_none, Bool.false_eq_true, if_false, ne_eq, not_true_eq_false, decide_false,
    Bool.false_and, done]
  rfl

theorem execCwAck_late (h : s.cwHead l.val 4 = some m) (ht : look ((s.cwPop l.val).link l.val).tags m.tag = none) :
    exec (.cwAck l) s = .next (s.cwPop l.val) := by
  show execCwAck l s = _
  simp only [execCwAck, h, ht, done]

/-- A link without a tag. -/
def State.untag (s : State) (k tag : Nat) : State := s.setLink k { s.link k with tags := drop (s.link k).tags tag }

/-- An ACK with STATUS 0 takes its tag from its burst, which ends with its last. -/
theorem execCwAck_burst (h : s.cwHead l.val 4 = some m) (ht : look ((s.cwPop l.val).link l.val).tags m.tag = some (c, id))
    (hb : ((s.cwPop l.val).untag l.val m.tag).burst c id = some b) (hp : b.phase = .acks) (hst : m.status = 0) :
    exec (.cwAck l) s =
      .next (if (b.tags.erase m.tag).isEmpty then ((s.cwPop l.val).untag l.val m.tag).endBurst c id
        else ((s.cwPop l.val).untag l.val m.tag).setBurst c { b with tags := b.tags.erase m.tag }) := by
  rw [State.untag] at hb ⊢
  show execCwAck l s = _
  simp only [execCwAck, h, ht, hb, hp, hst, ne_eq, not_true_eq_false, if_false, done]

theorem execCwBell_malformed (h : s.cwHead l.val 5 = some m) (hb : cwMsgOk m = false ∨ m.flags ≠ 0 ∨ m.length ≠ 0 ∨ m.status ≠ 0) :
    exec (.cwBell l) s = .next ((s.cwPop l.val).cwAck l.val m.tag 0x01) := by
  have hbad : (!cwMsgOk m || decide (m.flags ≠ 0) || decide (m.length ≠ 0) || decide (m.status ≠ 0)) = true := by
    rcases hb with hb | hb | hb | hb <;> simp [hb]
  show execCwBell l s = _
  simp only [execCwBell, h, if_pos hbad, done]

theorem execCwBell_wellFormed {ok : Bool} (h : s.cwHead l.val 5 = some m) (hok : cwMsgOk m = true) (hf : m.flags = 0) (hn : m.length = 0)
    (hst : m.status = 0) (hbell : (s.cwPop l.val).cwBell (l.val / 4) ((s.cwPop l.val).inAsid l.val) m.addr = (u, ok)) :
    exec (.cwBell l) s = .next (if ok then u else u.cwAck l.val m.tag 0x01) := by
  show execCwBell l s = _
  simp only [execCwBell, h, hok, hf, hn, hst, Bool.not_true, ne_eq, not_true_eq_false, decide_false, Bool.or_self, Bool.false_eq_true,
    if_false, hbell, done]

/-- A link whose read of a tag is out of time: the tag is not used again before it is released. -/
def State.expire (s : State) (k tag : Nat) : State :=
  s.setLink k { s.link k with tags := drop (s.link k).tags tag, expired := put (s.link k).expired tag () }

theorem execCwReadTimeout_none {tag : Nat} (h : look (s.link l.val).tags tag = none) : exec (.cwReadTimeout l tag) s = .next s := by
  show execCwReadTimeout l tag s = _
  simp only [execCwReadTimeout, h, done]

theorem execCwReadTimeout_read {tag : Nat} (h : look (s.link l.val).tags tag = some (c, id)) (hb : s.burst c id = some b)
    (hp : b.phase = .read) (hi : (s.expire l.val tag).injAt 0x0A (linkUnit l.val) (fun _ => true) = none) :
    exec (.cwReadTimeout l tag) s = .next (((s.expire l.val tag).recordErr 2 0x0A (precOr ((s.expire l.val tag).precOfChan c))
      (linkUnit l.val) 0 0 b.srcAsid false).failBurst c id 0x21 b.isFlush) := by
  rw [State.expire] at hi ⊢
  show execCwReadTimeout l tag s = _
  simp only [execCwReadTimeout, h, hb, hp, ne_eq, not_true_eq_false, if_false, hi, Option.isSome_none, Bool.false_eq_true, done]

end

/-! ### The links' statement -/

section
variable (s : State)

/-- A link that agreed on a version is UP with it. -/
theorem State.versionAgreed (l : LinkNo) {m : CwMsg} {r : List CwMsg} {ver : Nat} (hq : (s.link l.val).rxq = m :: r) (ht : m.type = 6)
    (hs : s.linkState l.val = 2) (ha : agreed (versionList (slice m.data 0 m.length)) = some ver) :
    Completes (exec (.cwVersion l) s) fun t => t.linkState l.val = 3 ∧ t.fget (linkStatus l.val) F.cwLinkStatus_VERSION = ver ∧
      t.fget (linkStatus l.val) F.cwLinkStatus_NEG_STATUS = 0 ∧ (t.link l.val).rxq = r ∧ s.regsBut t [linkStatus l.val] ∧ s.memSame t := by
  refine ⟨_, execCwVersion_agreed hq ht hs ha, State.linkState_setLinkState _ _ (by decide), ?_, ?_, ?_, fun x hx => ?_,
    State.memSame_of_mem ?_⟩
  · rw [State.setLinkState_fget _ _ _ (by decide), State.fget_fset_apart _ _ (by decide), State.fget_fset_same _ _ (by decide),
      agreed_some ha]
    rfl
  · rw [State.setLinkState_fget _ _ _ (by decide), State.fget_fset_same _ _ (by decide)]
    rfl
  · simp only [State.link_setLinkState, State.link_fset, State.link_cwPop _ hq]
  · have hne : x ≠ linkStatus l.val := by simpa using hx
    rw [State.setLinkState_rd_ne _ _ _ hne, State.rd_fset_ne _ _ _ hne, State.rd_fset_ne _ _ _ hne]
    rfl
  · simp only [State.setLinkState_home, State.fset_home]
    rfl

/-- A link without a common version has failed its negotiation. -/
theorem State.versionFailed (l : LinkNo) {m : CwMsg} {r : List CwMsg} (hq : (s.link l.val).rxq = m :: r) (ht : m.type = 6)
    (hs : s.linkState l.val = 2) (ha : agreed (versionList (slice m.data 0 m.length)) = none) :
    Completes (exec (.cwVersion l) s) fun t => t.linkState l.val = 5 ∧ t.fget (linkStatus l.val) F.cwLinkStatus_NEG_STATUS = 0x7F ∧
      (t.link l.val).rxq = r ∧ s.regsBut t [linkStatus l.val] ∧ s.memSame t := by
  refine ⟨_, execCwVersion_failed hq ht hs ha, State.linkState_setLinkState _ _ (by decide), ?_, ?_, fun x hx => ?_,
    State.memSame_of_mem ?_⟩
  · rw [State.setLinkState_fget _ _ _ (by decide), State.fget_fset_same _ _ (by decide)]
    rfl
  · simp only [State.link_setLinkState, State.link_fset, State.link_cwPop _ hq]
  · have hne : x ≠ linkStatus l.val := by simpa using hx
    rw [State.setLinkState_rd_ne _ _ _ hne, State.rd_fset_ne _ _ _ hne]
    rfl
  · simp only [State.setLinkState_home, State.fset_home]
    rfl

/-- A write of the group control that keeps MODE takes its fields. -/
theorem State.grpCtrlWrite_fields {rq : Requester} {g : Qn} {v : W64} (hk : rqKernel rq = true)
    (hm : bitsOf v F.cwGrpCtrl_MODE = s.fget (grpCtrlReg g.val) F.cwGrpCtrl_MODE)
    (hd : s.fbit (grpStatusReg g.val) F.cwGrpStatus_DLL_ACTIVE = false) :
    Completes (exec (.cwGrpCtrlWrite rq g v) s) fun t => t.fget (grpCtrlReg g.val) F.cwGrpCtrl_MODE = bitsOf v F.cwGrpCtrl_MODE ∧
      t.fget (grpCtrlReg g.val) F.cwGrpCtrl_ENABLE = bitsOf v F.cwGrpCtrl_ENABLE ∧
      t.fget (grpCtrlReg g.val) F.cwGrpCtrl_PERST = bitsOf v F.cwGrpCtrl_PERST ∧ s.regsBut t [grpCtrlReg g.val] ∧ s.memSame t := by
  have hhome : (s.grpCtrlTaken g.val v).home = s.home := by simp only [State.grpCtrlTaken, State.fset_home]
  have hregs : s.regsBut (s.grpCtrlTaken g.val v) [grpCtrlReg g.val] := fun x hx => State.grpCtrlTaken_rd_ne (by simpa using hx)
  refine ⟨s.grpCtrlWrite rq g.val v, rfl, ?_⟩
  rcases State.grpCtrlWrite_taken hk hm hd with h | ⟨o, h⟩
  · rw [h]
    exact ⟨State.grpCtrlTaken_mode, State.grpCtrlTaken_enable, State.grpCtrlTaken_perst, hregs, State.memSame_of_mem (congrArg _ hhome)⟩
  · have hrd : ∀ x, ((s.grpCtrlTaken g.val v).emit o).rd x = (s.grpCtrlTaken g.val v).rd x := State.rd_of_regs (State.emit_regs ..)
    rw [h]
    refine ⟨?_, ?_, ?_, fun x hx => (hrd x).trans (hregs x hx), State.memSame_of_mem (congrArg _ ((State.emit_home ..).trans hhome))⟩
    all_goals rw [State.fget, hrd]
    · exact State.grpCtrlTaken_mode
    · exact State.grpCtrlTaken_enable
    · exact State.grpCtrlTaken_perst

/-- A flit in turn delivers its messages, in order, behind those that wait. -/
theorem State.flitDelivered (l : LinkNo) {ms : List CwMsg} (hs : s.linkState l.val = 3)
    (hi : s.injAt 0x05 (linkUnit l.val) (fun _ => true) = none) (hms : ∀ x ∈ ms, 1 ≤ x.type ∧ x.type ≤ 6) :
    Completes (exec (.cwFlit l (s.link l.val).nextSeq true ms) s) fun t =>
      (t.link l.val).nextSeq = (s.link l.val).nextSeq + 1 ∧ (t.link l.val).rxq = (s.link l.val).rxq ++ ms ∧ t.linkState l.val = 3 := by
  refine ⟨_, execCwFlit_delivers hs hi, ?_⟩
  obtain ⟨hseq, hrxq, hstate⟩ := State.deliver_all l.val ms _ hms
  rw [State.link_count, State.link_setLink] at hseq hrxq
  rw [State.linkState_count] at hstate
  exact ⟨hseq, hrxq, hstate.trans hs⟩

/-- A link whose narrowing trained is UP at half its width. -/
theorem State.narrowed (l : LinkNo) (hs : s.linkState l.val = 4) : Completes (exec (.cwNarrowed l true) s) fun t =>
    t.linkState l.val = 3 ∧ (t.link l.val).width = (s.link l.val).width / 2 ∧ s.regsBut t [linkStatus l.val] ∧ s.memSame t := by
  refine ⟨_, execCwNarrowed_trained hs, State.linkState_setLinkState _ _ (by decide), ?_, fun x hx => ?_, State.memSame_of_mem ?_⟩
  · rw [State.link_setLinkState, State.link_setLink]
  · exact State.setLinkState_rd_ne _ _ _ (by simpa using hx)
  · exact congrArg _ (State.setLinkState_home _ _ _)

/-- A released tag is no longer kept. -/
theorem State.tagReleased (l : LinkNo) (tag : Nat) : Completes (exec (.cwTagRelease l tag) s) fun t =>
    look (t.link l.val).expired tag = none ∧ (t.link l.val).tags = (s.link l.val).tags ∧
      (∀ x, x ≠ tag → look (t.link l.val).expired x = look (s.link l.val).expired x) ∧ t.regs = s.regs ∧ s.memSame t := by
  refine ⟨_, rfl, ?_, ?_, fun x hx => ?_, rfl, fun _ => rfl⟩
  · rw [State.link_setLink]
    exact look_drop_same _ _
  · rw [State.link_setLink]
  · rw [State.link_setLink]
    exact look_drop_ne _ hx

end

/-- Settles O39: each row from the lemma of its branch. -/
theorem causewayLinks : Obligations.CausewayLinks := by
  refine ⟨?_, ?_⟩
  · intro s rq g l v w rate seq ver tag m r ms lane k st ctl grp u n
    refine ⟨s.grpCtrlWrite_fields, fun hk => congrArg Host.Outcome.next (State.grpCtrlWrite_stray hk),
      fun hm he => congrArg Host.Outcome.next (State.grpCtrlWrite_enabled hm he),
      fun hk hr he => ⟨fun hs => congrArg Host.Outcome.next ((State.linkCtrlWrite_enabled hk hr he 0).1 (.inl hs)),
        fun hs => congrArg Host.Outcome.next ((State.linkCtrlWrite_enabled hk hr he 0).2 hs rfl),
        congrArg Host.Outcome.next ((State.linkCtrlWrite_enabled hk hr he 1).1 (.inr rfl))⟩,
      fun hk hr he => ⟨congrArg Host.Outcome.next (State.linkCtrlWrite_disabled hk hr he 0),
        congrArg Host.Outcome.next (State.linkCtrlWrite_disabled hk hr he 1)⟩,
      fun h => ⟨congrArg Host.Outcome.next (State.linkCtrlWrite_stray h _),
        congrArg Host.Outcome.next (State.linkCtrlWrite_stray h _)⟩, execCwLinkTrained_trains, execCwLinkTrained_zero,
      fun h => if_pos (by rw [h]; rfl), s.versionAgreed l, s.versionFailed l, s.flitDelivered l, execCwFlit_outOfTurn, execCwFlit_bad,
      fun hs hw => congrArg Host.Outcome.next (State.narrow_up hs hw false),
      fun hs hw => congrArg Host.Outcome.next (State.narrow_single hs hw false),
      fun hs => congrArg Host.Outcome.next (State.narrow_notUp hs false), s.narrowed l, execCwNarrowed_failed,
      fun h => congrArg Host.Outcome.next (if_neg (ne_true_of_eq_false h)), fun h => congrArg Host.Outcome.next (if_pos h),
      s.tagReleased l tag⟩
  · intro s u l m st c id tag d p b k q x b' untag y
    refine ⟨execCwWrite_made, execCwWrite_malformed, execCwWrite_none, fun h ho hf hn hx hst ha hr => ?_,
      fun h ho hf hn hx hst ha hr => ?_, execCwRead_malformed, execCwRead_none,
      fun h ht hi hb hst => ⟨fun hf => ?_, fun hf => ?_⟩, execCwReadData_late, execCwReadData_none,
      fun h ht hb hp hst => ⟨fun hb1 => ?_, fun hne => ?_⟩, execCwAck_late,
      fun h ho hf hn hst => ⟨execCwBell_wellFormed h ho hf hn hst, execCwBell_wellFormed h ho hf hn hst⟩, execCwBell_malformed,
      execCwReadTimeout_read, execCwReadTimeout_none⟩
    · rw [execCwRead_wellFormed h ⟨ho, hf, hn, hx, hst, ha⟩, hr]
    · rw [execCwRead_wellFormed h ⟨ho, hf, hn, hx, hst, ha⟩, hr]
    · exact (execCwReadData_data h ht hi hb hst).trans (if_neg (ne_true_of_eq_false hf))
    · exact (execCwReadData_data h ht hi hb hst).trans (if_pos hf)
    · refine (execCwAck_burst h ht hb hp hst).trans (congrArg Host.Outcome.next (if_pos ?_))
      rw [hb1]
      simp
    · refine (execCwAck_burst h ht hb hp hst).trans (congrArg Host.Outcome.next (if_neg ?_))
      rw [List.isEmpty_iff]
      exact hne

/-! ### Root-port mode -/

section
variable {s u : State} {g : Qn} {rq : Requester} {r : RpRequest} {d : Bytes} {p ok : Bool}

/-- The port of a group is a root port, and its link is up. -/
def State.RpOn (s : State) (g : Qn) : Prop :=
  s.rpMode (4 * g.val) = true ∧ s.fbit (grpStatusReg g.val) F.cwGrpStatus_DLL_ACTIVE = true

theorem State.RpOn.on (h : s.RpOn g) :
    ¬ (!s.rpMode (4 * g.val) || !s.fbit (grpStatusReg g.val) F.cwGrpStatus_DLL_ACTIVE) = true := by
  rw [h.1, h.2]
  decide

theorem execCwRpUpstreamRequest_off (h : ¬ s.RpOn g) : exec (.cwRpUpstreamRequest g r) s = .next s := by
  have hoff : (!s.rpMode (4 * g.val) || !s.fbit (grpStatusReg g.val) F.cwGrpStatus_DLL_ACTIVE) = true := by
    rw [← Bool.not_and]
    exact Bool.not_eq_true' _ ▸ Bool.eq_false_iff.2 fun hb => h (Bool.and_eq_true_iff.1 hb)
  exact if_pos hoff

/-- A translated request is refused. -/
theorem execCwRpUpstreamRequest_translated (h : s.RpOn g) (ha : r.at_ = true) :
    exec (.cwRpUpstreamRequest g r) s = .next (s.emit (.rpAnswer g.val none)) :=
  (if_neg h.on).trans (if_pos ha)

/-- A well-formed write in the bell window is a bell write. -/
theorem execCwRpUpstreamRequest_bell (h : s.RpOn g) (ha : r.at_ = false)
    (hw : s.fget ⟨.cwGrpBellBase, g.val, 0⟩ F.cwGrpBellBase_ADDR ≠ 0)
    (hin : r.addr / 4096 = s.fget ⟨.cwGrpBellBase, g.val, 0⟩ F.cwGrpBellBase_ADDR) (hd : r.data = some d) (hlen : d.length = 8)
    (halign : r.addr % 8 = 0)
    (hb : s.cwBell g.val (s.fget ⟨.cwGrpRpAsid, g.val, 0⟩ F.cwGrpRpAsid_ASID) (leNat d) = (u, ok)) :
    exec (.cwRpUpstreamRequest g r) s = .next (if ok then u else u.cwLate (4 * g.val)) := by
  have hwin : s.fget ⟨.cwGrpBellBase, g.val, 0⟩ F.cwGrpBellBase_ADDR ≠ 0 ∧
      r.addr / 4096 = s.fget ⟨.cwGrpBellBase, g.val, 0⟩ F.cwGrpBellBase_ADDR := ⟨hw, hin⟩
  show execCwRpUpstreamRequest g r s = _
  simp only [execCwRpUpstreamRequest, if_neg h.on, ha, Bool.false_eq_true, if_false, if_pos hwin, hd, hlen, halign, and_self, if_true, hb,
    done]

/-- A request outside the bell window is an access. -/
theorem execCwRpUpstreamRequest_access (h : s.RpOn g) (ha : r.at_ = false)
    (hw : s.fget ⟨.cwGrpBellBase, g.val, 0⟩ F.cwGrpBellBase_ADDR = 0 ∨
      r.addr / 4096 ≠ s.fget ⟨.cwGrpBellBase, g.val, 0⟩ F.cwGrpBellBase_ADDR) :
    (∀ d, r.data = some d → exec (.cwRpUpstreamRequest g r) s =
      .next (s.arrivalWrite g.val (0x5000 + 4 * g.val) (s.fget ⟨.cwGrpRpAsid, g.val, 0⟩ F.cwGrpRpAsid_ASID) r.addr d r.poison).1) ∧
    (∀ d, r.data = none → r.addr < 2 ^ 48 →
      s.vread g.val (0x5000 + 4 * g.val) (s.fget ⟨.cwGrpRpAsid, g.val, 0⟩ F.cwGrpRpAsid_ASID) r.addr r.len = (u, .ok d p) →
      exec (.cwRpUpstreamRequest g r) s = .next (u.emit (.rpAnswer g.val (if p then none else some d)))) := by
  have hwin : ¬ (s.fget ⟨.cwGrpBellBase, g.val, 0⟩ F.cwGrpBellBase_ADDR ≠ 0 ∧
      r.addr / 4096 = s.fget ⟨.cwGrpBellBase, g.val, 0⟩ F.cwGrpBellBase_ADDR) := fun hx => hw.elim hx.1 fun hn => hn hx.2
  refine ⟨fun d hd => ?_, fun d hd haddr hv => ?_⟩
  · show execCwRpUpstreamRequest g r s = _
    simp only [execCwRpUpstreamRequest, if_neg h.on, ha, Bool.false_eq_true, if_false, if_neg hwin, hd, done]
  · show execCwRpUpstreamRequest g r s = _
    simp only [execCwRpUpstreamRequest, if_neg h.on, ha, Bool.false_eq_true, if_false, if_neg hwin, hd,
      if_neg (Nat.not_le_of_lt haddr), hv, done]

theorem execCwRpLinkDown_on (h : s.RpOn g) : exec (.cwRpLinkDown g) s = .next (s.rpDown g.val) :=
  congrArg Host.Outcome.next (if_pos (Bool.and_eq_true_iff.2 h))

theorem execCwRpLinkDown_off (h : ¬ s.RpOn g) : exec (.cwRpLinkDown g) s = .next s :=
  congrArg Host.Outcome.next (if_neg fun hb => h (Bool.and_eq_true_iff.1 hb))

/-- A configuration write by the kernel goes out. -/
theorem execCwRpCfgWrite_sent {a : BitVec 32} (hr : s.rpMode (4 * g.val) = true) (hk : rqKernel rq = true) :
    exec (.cwRpCfgWrite rq g a) s = .next (s.emit (.rpConfig g.val true (s.fget ⟨.cwRpCfgAddr, g.val, 0⟩ F.cwRpCfgAddr_BDF)
      (s.fget ⟨.cwRpCfgAddr, g.val, 0⟩ F.cwRpCfgAddr_DWORD) a.toNat)) := by
  show execCwRpCfgWrite rq g a s = _
  simp only [execCwRpCfgWrite, hk, hr, Bool.not_true, Bool.false_eq_true, if_false, if_true, done]

end

/-- Settles O40: each row from the lemma of its branch. -/
theorem rootPortRows : Obligations.RootPortRows := by
  intro s u rq g a r d p ok k reg bdf dw asid win on o
  exact ⟨fun hr => ⟨if_pos hr, if_pos hr⟩, fun hr => if_neg (ne_true_of_eq_false hr), execCwRpCfgWrite_sent,
    fun hk => if_pos (by rw [hk]; rfl), execCwRpUpstreamRequest_translated,
    execCwRpUpstreamRequest_bell, fun h ha hw => (execCwRpUpstreamRequest_access (u := u) (p := p) h ha hw).1 d,
    fun h ha hw => (execCwRpUpstreamRequest_access h ha hw).2 d, execCwRpUpstreamRequest_off, execCwRpLinkDown_on, execCwRpLinkDown_off⟩

end Sys2Proof.Machine
end

