-- ==== Sys2Proof/Proofs/EthPorts.lean ====
section
/-!
SUPPORT. The Ethernet ports (R351–R355, R387): what a frame that arrives does, and how subports, the port's configuration and its
timestamps change.
-/
namespace Sys2Proof.Machine

/-- A state with another Ethernet part. -/
def State.withEth (s : State) (e : EthSt) : State := { s with eth := e }

section
variable (s : State) (e : EthSt)

@[simp] theorem State.withEth_eth : (s.withEth e).eth = e := rfl
@[simp] theorem State.withEth_regs : (s.withEth e).regs = s.regs := rfl
@[simp] theorem State.withEth_rd (r : Reg) : (s.withEth e).rd r = s.rd r := rfl
@[simp] theorem State.withEth_fget (r : Reg) (f : Fld) : (s.withEth e).fget r f = s.fget r f := rfl
@[simp] theorem State.withEth_out : (s.withEth e).out = s.out := rfl
@[simp] theorem State.withEth_home : (s.withEth e).home = s.home := rfl

end

/-! ### Frames that arrive -/

section
variable {s : State} {q : Qn} {sub : Fin 8} {fr : Bytes} {co un : Nat}

/-- A port after the FEC counts of a frame. -/
def State.fecCounted (s : State) (k n co un : Nat) : State :=
  (((s.fsat (ethSubStatus k n) F.ethSubStatus_CORR co).fsat (ethSubStatus k n) F.ethSubStatus_UNCORR un).ethCount k 5 co).ethCount k 6 un

/-- A frame is not one that its port drops. -/
def State.FrameOk (s : State) (k un : Nat) (fr : Bytes) : Prop :=
  64 ≤ fr.length ∧ fr.length ≤ s.fget (ethPortCfg k) F.ethPortCfg_MAX_FRAME ∧ un = 0 ∧
    fcsOf (fr.take (fr.length - 4)) = fr.drop (fr.length - 4)

theorem State.FrameOk.kept {k : Nat} (h : s.FrameOk k un fr) :
    ¬ (fr.length < 64 ∨ s.fget (ethPortCfg k) F.ethPortCfg_MAX_FRAME < fr.length ∨ un ≠ 0 ∨
      fcsOf (fr.take (fr.length - 4)) ≠ fr.drop (fr.length - 4)) := by
  obtain ⟨hmin, hmax, hun, hfcs⟩ := h
  rintro (hc | hc | hc | hc)
  · exact Nat.not_lt_of_le hmin hc
  · exact Nat.not_lt_of_le hmax hc
  · exact hc hun
  · exact hc hfcs

theorem execEthFrameReceive_down (h : s.subUp q.val sub.val = false) : exec (.ethFrameReceive q sub fr co un) s = .next s :=
  if_pos (by rw [h]; rfl)

theorem execEthFrameReceive_bad (h : s.subUp q.val sub.val = true)
    (hb : un ≠ 0 ∨ fr.length < 64 ∨ (s.fecCounted q.val sub.val co un).fget (ethPortCfg q.val) F.ethPortCfg_MAX_FRAME < fr.length ∨
      ¬ fcsOf (fr.take (fr.length - 4)) = fr.drop (fr.length - 4)) :
    exec (.ethFrameReceive q sub fr co un) s = .next ((s.fecCounted q.val sub.val co un).ethCount q.val 4 1) := by
  rw [State.fecCounted] at hb ⊢
  have hdrop : fr.length < 64 ∨ _ ∨ un ≠ 0 ∨ fcsOf (fr.take (fr.length - 4)) ≠ fr.drop (fr.length - 4) :=
    hb.elim (fun h => .inr (.inr (.inl h))) fun h => h.imp_right fun h => h.imp_right .inr
  show execEthFrameReceive q sub fr co un s = _
  simp only [execEthFrameReceive, h, Bool.not_true, Bool.false_eq_true, if_false, if_pos hdrop, done]

theorem execEthFrameReceive_pause (h : s.subUp q.val sub.val = true) (hok : (s.fecCounted q.val sub.val co un).FrameOk q.val un fr)
    (hp : isPause fr = true) :
    exec (.ethFrameReceive q sub fr co un) s = .next ((s.fecCounted q.val sub.val co un).ethCount q.val 7 1) := by
  have hkept := hok.kept
  rw [State.fecCounted] at hkept ⊢
  show execEthFrameReceive q sub fr co un s = _
  simp only [execEthFrameReceive, h, Bool.not_true, Bool.false_eq_true, if_false, if_neg hkept, hp, if_true, done]

theorem execEthFrameReceive_frame (h : s.subUp q.val sub.val = true) (hok : (s.fecCounted q.val sub.val co un).FrameOk q.val un fr)
    (hp : isPause fr = false)
    (hg : (((s.fecCounted q.val sub.val co un).ethCount q.val 0 1).ethCount q.val 2 fr.length).ghOk q.val = true) :
    exec (.ethFrameReceive q sub fr co un) s =
      .next ((((s.fecCounted q.val sub.val co un).ethCount q.val 0 1).ethCount q.val 2 fr.length).ingress q.val
        { port := q.val, sub := sub.val, data := fr,
          ts := (((s.fecCounted q.val sub.val co un).ethCount q.val 0 1).ethCount q.val 2 fr.length).tsNow q.val sub.val }) := by
  have hkept := hok.kept
  rw [State.fecCounted] at hkept hg ⊢
  show execEthFrameReceive q sub fr co un s = _
  simp only [execEthFrameReceive, h, Bool.not_true, Bool.false_eq_true, if_false, if_neg hkept, hp, hg, if_true, done]

end

/-! ### Subports, configuration and timestamps -/

section
variable {s : State} {rq : Requester} {q : Qn} {sub : Fin 8} {v : W64} {w : TxFrame}

theorem State.subState_setSubState {k n : Nat} {x : Nat} (hx : x < 4) : (s.setSubState k n x).subState k n = x :=
  (State.fget_fset_same _ _ (by decide)).trans (Nat.mod_eq_of_lt hx)

theorem State.setSubState_regsBut (k n x : Nat) : s.regsBut (s.setSubState k n x) [ethSubStatus k n] := fun r hr =>
  State.rd_fset_ne _ _ _ (by simpa using hr)

theorem State.setSubState_regs_only (k n x : Nat) : s.setSubState k n x = { s with regs := (s.setSubState k n x).regs } :=
  State.fset_regs_only ..

theorem execEthSubportUp_trains (hp : s.portsTrain = true) (hn : sub.val < s.subports q.val)
    (he : s.fbit (ethSubCtrl q.val sub.val) F.ethSubCtrl_ENABLE = true) (hc : q.val ∉ s.err.cutOff) :
    exec (.ethSubportUp q sub) s = .next (s.setSubState q.val sub.val 2) :=
  if_pos ⟨hp, hn, he, by simpa using hc⟩

/-- A subport that sends nothing goes DOWN and nothing else happens. -/
theorem State.subDown_idle {k n : Nat} (h : look s.eth.wire (key2 k n) = none) : s.subDown k n = s.setSubState k n 0 := by
  have hw : look (s.setSubState k n 0).eth.wire (key2 k n) = none := (congrArg (fun e : EthSt => look e.wire _) (State.fset_eth ..)).trans h
  simp only [State.subDown, hw]

/-- One that sends a frame of no ring drops it. -/
theorem State.subDown_sending {k n : Nat} (h : look s.eth.wire (key2 k n) = some w) (hr : w.ring = none) :
    s.subDown k n = (s.setSubState k n 0).withEth
      { (s.setSubState k n 0).eth with wire := drop (s.setSubState k n 0).eth.wire (key2 k n) } := by
  have hw : look (s.setSubState k n 0).eth.wire (key2 k n) = some w :=
    (congrArg (fun e : EthSt => look e.wire _) (State.fset_eth ..)).trans h
  simp only [State.subDown, hw, hr, State.txEnd]
  rfl

theorem State.ethSubportDown_sending (h : look s.eth.wire (key2 q.val sub.val) = some w) (hr : w.ring = none) :
    Completes (exec (.ethSubportDown q sub) s) fun t => t.subState q.val sub.val = 0 ∧ look t.eth.wire (key2 q.val sub.val) = none ∧
      s.regsBut t [ethSubStatus q.val sub.val] ∧ s.memSame t ∧ t.out = s.out := by
  have hdown := State.subDown_sending h hr
  refine ⟨s.subDown q.val sub.val, rfl, ?_⟩
  rw [hdown]
  refine ⟨?_, ?_, fun r hx => ?_, State.memSame_of_mem ?_, ?_⟩
  · rw [State.subState, State.withEth_fget]
    exact State.subState_setSubState (by decide)
  · rw [State.withEth_eth]
    exact look_drop_same _ _
  · rw [State.withEth_rd]
    exact State.setSubState_regsBut _ _ _ r hx
  · rw [State.withEth_home]
    exact congrArg _ (State.fset_home ..)
  · rw [State.withEth_out]
    exact State.fset_out ..

theorem State.ethPortCfgWrite_stray
    (h : rqKernel rq = false ∨ bitsOf v F.ethPortCfg_MAX_FRAME < 1518 ∨ 9600 < bitsOf v F.ethPortCfg_MAX_FRAME) (k : Nat) :
    s.ethPortCfgWrite rq k v = s.refuse rq (ethPortCfg k) :=
  if_pos (by rcases h with h | h | h <;> simp [h])

/-- The configuration of a port as a write replaces it. -/
def State.portCfgTaken (s : State) (k : Nat) (v : W64) : State :=
  (s.fset (ethPortCfg k) F.ethPortCfg_MAX_FRAME (bitsOf v F.ethPortCfg_MAX_FRAME)).fset (ethPortCfg k) F.ethPortCfg_BREAKOUT
    (bitsOf v F.ethPortCfg_BREAKOUT)

theorem State.portCfgTaken_fields (k : Nat) :
    (s.portCfgTaken k v).fget (ethPortCfg k) F.ethPortCfg_MAX_FRAME = bitsOf v F.ethPortCfg_MAX_FRAME ∧
      (s.portCfgTaken k v).fget (ethPortCfg k) F.ethPortCfg_BREAKOUT = bitsOf v F.ethPortCfg_BREAKOUT := by
  refine ⟨?_, ?_⟩
  · rw [State.portCfgTaken, State.fget_fset_apart _ _ (by decide), State.fget_fset_same _ _ (by decide),
      Nat.mod_eq_of_lt (bitsOf_lt _)]
  · rw [State.portCfgTaken, State.fget_fset_same _ _ (by decide), Nat.mod_eq_of_lt (bitsOf_lt _)]

theorem State.portCfgTaken_regsBut (k : Nat) : s.regsBut (s.portCfgTaken k v) [ethPortCfg k] := fun r hr => by
  have hne : r ≠ ethPortCfg k := by simpa using hr
  rw [State.portCfgTaken, State.rd_fset_ne _ _ _ hne, State.rd_fset_ne _ _ _ hne]

theorem State.portCfgTaken_regs_only (k : Nat) : s.portCfgTaken k v = { s with regs := (s.portCfgTaken k v).regs } := rfl

/-- A frame size in range is taken where the breakout stays or no subport is enabled. -/
theorem State.ethPortCfgWrite_taken {k : Nat} (hk : rqKernel rq = true) (hmin : 1518 ≤ bitsOf v F.ethPortCfg_MAX_FRAME)
    (hmax : bitsOf v F.ethPortCfg_MAX_FRAME ≤ 9600)
    (hb : bitsOf v F.ethPortCfg_BREAKOUT = s.fget (ethPortCfg k) F.ethPortCfg_BREAKOUT ∨
      ∀ n, n < 8 → s.fbit (ethSubCtrl k n) F.ethSubCtrl_ENABLE = false) : s.ethPortCfgWrite rq k v = s.portCfgTaken k v := by
  refine if_neg ?_
  rw [hk, decide_eq_false (Nat.not_lt_of_le hmin), decide_eq_false (Nat.not_lt_of_le hmax)]
  rcases hb with hb | hb
  · simp [hb]
  · have hidle : ((List.range 8).all fun n => !s.fbit (ethSubCtrl k n) F.ethSubCtrl_ENABLE) = true :=
      List.all_eq_true.2 fun n hn => by rw [hb n (List.mem_range.1 hn)]; rfl
    simp [hidle]

theorem State.ethTsAdjWrite_stray (h : rqKernel rq = false ∨ 1000000 < (signed32 (bitsOf v F.ethTsAdj_RATE_PPB)).natAbs) (k n : Nat) :
    s.ethTsAdjWrite rq k n v = s.refuse rq (ethTsAdj k n) :=
  if_pos (by rcases h with h | h <;> simp [h])

/-- A timestamp with a new rate, stepped. -/
def State.tsStepped (s : State) (k n : Nat) (v : W64) : State :=
  let t := s.fset (ethTsAdj k n) F.ethTsAdj_RATE_PPB (bitsOf v F.ethTsAdj_RATE_PPB)
  t.wr (ethTsNow k n) (t.rd (ethTsNow k n) + BitVec.ofInt 64 (signed32 (bitsOf v F.ethTsAdj_STEP_NS) * 65536))

theorem State.ethTsAdjWrite_taken (hk : rqKernel rq = true) (hp : (signed32 (bitsOf v F.ethTsAdj_RATE_PPB)).natAbs ≤ 1000000) (k n : Nat) :
    s.ethTsAdjWrite rq k n v = s.tsStepped k n v :=
  if_neg (by rw [hk, decide_eq_false (Nat.not_lt_of_le hp)]; decide)

theorem ethTsNow_ne_ethTsAdj (k n : Nat) : ethTsNow k n ≠ ethTsAdj k n := by simp [ethTsNow, ethTsAdj]

theorem State.tsStepped_rate (k n : Nat) :
    (s.tsStepped k n v).fget (ethTsAdj k n) F.ethTsAdj_RATE_PPB = bitsOf v F.ethTsAdj_RATE_PPB := by
  rw [State.tsStepped, State.fget, State.rd_wr_ne _ _ (ethTsNow_ne_ethTsAdj k n).symm]
  exact (State.fget_fset_same _ _ (by decide)).trans (Nat.mod_eq_of_lt (bitsOf_lt _))

theorem State.tsStepped_now (k n : Nat) : (s.tsStepped k n v).rd (ethTsNow k n) =
    s.rd (ethTsNow k n) + BitVec.ofInt 64 (signed32 (bitsOf v F.ethTsAdj_STEP_NS) * 65536) := by
  rw [State.tsStepped, State.rd_wr_same, State.rd_fset_ne _ _ _ (ethTsNow_ne_ethTsAdj k n)]

theorem State.tsStepped_regs_only (k n : Nat) : s.tsStepped k n v = { s with regs := (s.tsStepped k n v).regs } := rfl

theorem State.tsStepped_regsBut (k n : Nat) : s.regsBut (s.tsStepped k n v) [ethTsAdj k n, ethTsNow k n] := fun r hr => by
  have hr' := not_or.1 (by simpa using hr)
  rw [State.tsStepped, State.rd_wr_ne _ _ hr'.2, State.rd_fset_ne _ _ _ hr'.1]

end

/-- Settles O41: each row from the lemma of its branch. -/
theorem ethernetPortRows : Obligations.EthernetPortRows := by
  intro s rq q sub fr co un v w k st u x most fcs o cfg mf bo ppb now adj
  refine ⟨fun h hu hmin hmax hfcs hp hg => execEthFrameReceive_frame h ⟨hmin, hmax, hu, hfcs⟩ hp hg, execEthFrameReceive_bad,
    fun h hu hmin hmax hfcs hp => execEthFrameReceive_pause h ⟨hmin, hmax, hu, hfcs⟩ hp, execEthFrameReceive_down,
    fun hp hn he hc => ⟨_, execEthSubportUp_trains hp hn he hc, State.subState_setSubState (by decide), State.setSubState_regsBut _ _ _,
      State.setSubState_regs_only _ _ _⟩, fun hp => if_neg fun h => Bool.noConfusion (hp.symm.trans h.1),
    fun h => ⟨_, congrArg Host.Outcome.next (State.subDown_idle h), State.subState_setSubState (by decide),
      State.setSubState_regsBut _ _ _, State.setSubState_regs_only _ _ _⟩,
    State.ethSubportDown_sending,
    fun hk hmin hmax hb => ⟨_, congrArg Host.Outcome.next (State.ethPortCfgWrite_taken hk hmin hmax (.inl hb)),
      (State.portCfgTaken_fields _).1, (State.portCfgTaken_fields _).2, State.portCfgTaken_regsBut _, State.portCfgTaken_regs_only _⟩,
    fun hk hmin hmax hb => ⟨_, congrArg Host.Outcome.next (State.ethPortCfgWrite_taken hk hmin hmax (.inr hb)),
      State.portCfgTaken_fields _⟩,
    fun h => congrArg Host.Outcome.next (State.ethPortCfgWrite_stray h _),
    fun hk hp => ⟨_, congrArg Host.Outcome.next (State.ethTsAdjWrite_taken hk hp _ _), State.tsStepped_rate _ _,
      State.tsStepped_now _ _, State.tsStepped_regsBut _ _, State.tsStepped_regs_only _ _⟩,
    fun h => congrArg Host.Outcome.next (State.ethTsAdjWrite_stray h _ _)⟩

end Sys2Proof.Machine
end

