-- ==== Sys2Proof/Proofs/Gatehouses.lean ====
section
/-!
SUPPORT. The Gatehouses (R364–R373): lookups, the operations of GH_OP on flow entries and policers, delivery to receive queues, the
doorbells of rings, and what a policer takes from its buckets.
-/
namespace Sys2Proof.Machine

/-! ### Lookup -/

section
variable {s : State} {q : Qn} {k : Nat} {fr : GhFrame} {rest : List GhFrame} {p : Parse} {e : FlowEntry} {mm : Bool}

/-- The Gatehouse of a Quarter without the frame at its head. -/
def State.ghTaken (s : State) (k : Nat) (rest : List GhFrame) : State := s.withEth { s.eth with gh := putD [] s.eth.gh k rest }

theorem execGhLookup_empty (h : lookD [] s.eth.gh q.val = []) : exec (.ghLookup q mm) s = .next s := by
  show execGhLookup q mm s = _
  simp only [execGhLookup, h, done]

theorem execGhLookup_handled (h : lookD [] s.eth.gh q.val = fr :: rest) (hok : (s.ghTaken q.val rest).ghOk q.val = true) :
    exec (.ghLookup q mm) s = .next ((s.ghTaken q.val rest).ghHandle q.val fr mm) := by
  rw [State.ghTaken, State.withEth] at hok ⊢
  show execGhLookup q mm s = _
  simp only [execGhLookup, h, hok, if_true, done]

theorem State.ghHandle_miss (hp : parseFrame fr.body 0x1_0000 = .ok p) (hl : s.lookup p = none) :
    s.ghHandle k fr mm = s.missSend k 1 fr := by
  simp only [State.ghHandle, hp, hl]

/-- A frame that hits an entry with neither policer nor decryption is given its action. -/
theorem State.ghHandle_hit (hp : parseFrame fr.body 0x1_0000 = .ok p) (hl : s.lookup p = some e) (hpol : e.policer = 2 ^ 32 - 1)
    (hd : e.decrypt = false) : s.ghHandle k fr mm = s.flowAct k e { fr with colour := 0 } := by
  simp only [State.ghHandle, hp, hl, if_pos hpol, hd]
  rfl

end

/-! ### The operations of GH_OP -/

/-- The operation register of a Gatehouse. -/
def ghOpReg (k : Nat) : Reg := ⟨.ghOp, k, 0⟩

section
variable {s : State} {rq : Requester} {k i : Nat} {v : W64} {ent : FlowEntry} {pol : Policer}

/-- A Gatehouse operation gives its STATUS and changes no other register, no memory and nothing else. -/
theorem State.ghStatus_gives (s : State) (k : Nat) {c : Nat} (hc : c < 8) :
    (s.ghStatus k c).fget (ghOpReg k) F.ghOp_STATUS = c ∧ s.regsBut (s.ghStatus k c) [ghOpReg k] ∧ s.memSame (s.ghStatus k c) ∧
      (s.ghStatus k c).eth = s.eth :=
  ⟨(State.fget_fset_same _ _ (by decide)).trans (Nat.mod_eq_of_lt (Nat.lt_of_lt_of_le hc (by decide))),
    fun _ hr => State.rd_fset_ne _ _ _ (by simpa [ghOpReg] using hr),
    State.memSame_of_mem (congrArg _ (State.fset_home ..)), State.fset_eth ..⟩

/-- The same after a change of the Ethernet part alone. -/
theorem State.ghStatus_after (s : State) (e : EthSt) (k : Nat) :
    ((s.withEth e).ghStatus k 0).fget (ghOpReg k) F.ghOp_STATUS = 0 ∧ ((s.withEth e).ghStatus k 0).eth = e ∧
      s.regsBut ((s.withEth e).ghStatus k 0) [ghOpReg k] ∧ s.memSame ((s.withEth e).ghStatus k 0) := by
  obtain ⟨hstat, hregs, hmem, heth⟩ := (s.withEth e).ghStatus_gives k (c := 0) (by decide)
  exact ⟨hstat, heth, hregs, fun x => hmem x⟩

theorem ghOpWord_op {n : Nat} (hn : n < 8) : bitsOf (ghOpWord n v) F.ghOp_OP = n :=
  (bitsOf_setBits_same _ _ (by decide)).trans (Nat.mod_eq_of_lt hn)

theorem ghOpWord_policer (n : Nat) : bitsOf (ghOpWord n v) F.ghOp_POLICER = bitsOf v F.ghOp_POLICER :=
  bitsOf_setBits_apart _ _ (by decide)

theorem State.ghOpWrite_stray (hk : rqKernel rq = false) (w : W64) : s.ghOpWrite rq k w = s.refuse rq (ghOpReg k) :=
  if_pos (by rw [hk]; rfl)

/-- Each operation of the word goes to its row. -/
theorem State.ghOpWrite_rows (hk : rqKernel rq = true) :
    s.ghOpWrite rq k (ghOpWord 1 v) = s.flowInsert k ∧ s.ghOpWrite rq k (ghOpWord 2 v) = s.flowRemove k ∧
      s.ghOpWrite rq k (ghOpWord 3 v) = s.policerWrite k (bitsOf v F.ghOp_POLICER) ∧
      s.ghOpWrite rq k (ghOpWord 4 v) = s.policerUpdate k (bitsOf v F.ghOp_POLICER) := by
  refine ⟨?_, ?_, ?_, ?_⟩
  all_goals
    simp only [State.ghOpWrite, hk, Bool.not_true, Bool.false_eq_true, if_false, ghOpWord_policer, ghOpWord_op (show 1 < 8 by decide),
      ghOpWord_op (show 2 < 8 by decide), ghOpWord_op (show 3 < 8 by decide), ghOpWord_op (show 4 < 8 by decide)]

@[simp] theorem State.bucket_setBucket (b : Nat) (l : List (Option FlowEntry)) : (s.setBucket b l).bucket b = l :=
  lookD_putD_same _ _ _ _

theorem State.bucket_of_eth {s t : State} (h : t.eth = s.eth) (b : Nat) : t.bucket b = s.bucket b := by
  rw [State.bucket, h, State.bucket]

theorem State.flowInsert_malformed (h : s.flowOk (s.ghStaged k) = false) : s.flowInsert k = s.ghStatus k 1 :=
  if_pos (by rw [h]; rfl)

/-- INSERT of a key that its bucket does not hold: a free slot takes it while the pool allows. -/
theorem State.flowInsert_new (hent : FlowEntry.of (s.ghStaged k) = ent) (h : s.flowOk (s.ghStaged k) = true)
    (hnew : (s.bucket ent.bucket).findIdx? (fun y => y.any (·.same ent)) = none) :
    s.flowInsert k = match (s.bucket ent.bucket).findIdx? (·.isNone) with
      | none => s.ghStatus k 2
      | some i =>
        if s.flowPool ent.prec < s.flowCount ent.prec + 1 then s.ghStatus k 3
        else (s.setBucket ent.bucket ((s.bucket ent.bucket).set i (some ent))).ghStatus k 0 := by
  subst hent
  simp only [State.flowInsert, h, Bool.not_true, Bool.false_eq_true, if_false, hnew] <;> rfl

/-- REMOVE takes the entry of its key out of its slot. -/
theorem State.flowRemove_known (hent : FlowEntry.of (s.ghStaged k) = ent) (h : flowKeyOk ent = true) :
    s.flowRemove k = match (s.bucket ent.bucket).findIdx? (fun y => y.any (·.same ent)) with
      | none => s.ghStatus k 4
      | some i => (s.setBucket ent.bucket ((s.bucket ent.bucket).set i none)).ghStatus k 0 := by
  subst hent
  simp only [State.flowRemove, h, Bool.not_true, Bool.false_eq_true, if_false] <;> rfl

theorem State.policer_of_put {n : Nat} {e : EthSt} {t : State} (h : t.eth = { e with policers := put e.policers n pol }) :
    t.policer n = pol := by
  rw [State.policer, h, look_put_same]
  rfl

/-- A policer's WRITE and UPDATE. -/
theorem State.policerWrite_some {n : Nat} (h : policerOf (s.ghStaged k) = some pol) :
    s.policerWrite k n = (s.setPolicer n { pol with last := s.tick }).ghStatus k 0 ∧
      s.policerUpdate k n = (s.setPolicer n { pol with
        tc := min (s.policer n).tc pol.tc, tp := min (s.policer n).tp pol.tp, last := (s.policer n).last }).ghStatus k 0 := by
  simp only [State.policerWrite, State.policerUpdate, h, and_self]

theorem State.policerWrite_none {n : Nat} (h : policerOf (s.ghStaged k) = none) :
    s.policerWrite k n = s.ghStatus k 1 ∧ s.policerUpdate k n = s.ghStatus k 1 := by
  simp only [State.policerWrite, State.policerUpdate, h, and_self]

/-- A policer replaced: it reads what it was set to, and nothing but the Ethernet part and STATUS changes. -/
theorem State.setPolicer_status (s : State) (k n : Nat) (pol : Policer) :
    ((s.setPolicer n pol).ghStatus k 0).fget (ghOpReg k) F.ghOp_STATUS = 0 ∧ ((s.setPolicer n pol).ghStatus k 0).policer n = pol ∧
      s.regsBut ((s.setPolicer n pol).ghStatus k 0) [ghOpReg k] ∧ s.memSame ((s.setPolicer n pol).ghStatus k 0) := by
  obtain ⟨hstat, heth, hregs, hmem⟩ := s.ghStatus_after { s.eth with policers := put s.eth.policers n pol } k
  exact ⟨hstat, State.policer_of_put heth, hregs, hmem⟩

/-- A bucket replaced. -/
theorem State.setBucket_status (s : State) (k b : Nat) (l : List (Option FlowEntry)) :
    ((s.setBucket b l).ghStatus k 0).fget (ghOpReg k) F.ghOp_STATUS = 0 ∧ ((s.setBucket b l).ghStatus k 0).bucket b = l ∧
      s.regsBut ((s.setBucket b l).ghStatus k 0) [ghOpReg k] ∧ s.memSame ((s.setBucket b l).ghStatus k 0) := by
  obtain ⟨hstat, heth, hregs, hmem⟩ :=
    s.ghStatus_after { s.eth with flows := putD (List.replicate 8 none) s.eth.flows b l } k
  have hbucket : ((s.setBucket b l).ghStatus k 0).bucket b = (s.setBucket b l).bucket b := State.bucket_of_eth heth b
  exact ⟨hstat, hbucket.trans (State.bucket_setBucket b l), hregs, hmem⟩

end

/-! ### Delivery and doorbells -/

section
variable {s u : State} {r g slot : Nat} {fr : GhFrame} {rx : List (Nat × Nat × GhFrame)} {x : Ring} {far : List FarAns} {f : FuncNo} {v : W64}

theorem execRxDeliver_none (h : takeRx r s.eth.rx = none) : exec (.rxDeliver r far) s = .next s := by
  show execRxDeliver r far s = _
  simp only [execRxDeliver, h, done]

/-- A frame that finds no buffer is dropped. -/
theorem execRxDeliver_empty (h : takeRx r s.eth.rx = some ((g, fr), rx)) (hx : s.ring r = some x) (ht : x.tx = false)
    (hp : s.ringsPaused x.func = false) (hc : x.prod ≤ x.cons) :
    exec (.rxDeliver r far) s = .next ((s.withEth { s.eth with rx := rx }).ghEvent g 13) := by
  show execRxDeliver r far s = _
  simp only [execRxDeliver, h, hx, ht, hp, Bool.false_eq_true, if_false, hc, true_or, if_true, done]
  rfl

/-- A delivered frame advances its queue and sends the queue's message. -/
theorem execRxDeliver_delivered (h : takeRx r s.eth.rx = some ((g, fr), rx)) (hx : s.ring r = some x) (ht : x.tx = false)
    (hp : s.ringsPaused x.func = false) (hc : x.cons < x.prod) (hl : (s.func x.func).driverLost = false)
    (hb : (rxBody g x fr).at s far = (u, .ok true)) : exec (.rxDeliver r far) s =
      .next (((u.withEth { u.eth with rx := rx }).setRing r { x with cons := x.cons + 1, done := x.done + 1 }).sendMsix x.func x.msix) := by
  show execRxDeliver r far s = _
  simp only [execRxDeliver, h, hx, ht, hp, hl, Bool.false_eq_true, if_false, Nat.not_le_of_lt hc, or_self, hb, done]
  rfl

theorem State.ringProd_some (n : Nat) (hx : s.ring r = some x) :
    s.ringProd r n = s.setRing r { x with prod := advanceTo x.prod x.log2 (n % 2 ^ x.log2) } := by
  simp only [State.ringProd, hx]

theorem execRxqDoorbell_bound (h : s.slotOf f.val slot = some (.rxq r)) :
    exec (.rxqDoorbell f slot v) s = .next (s.ringProd r (v.toNat % 2 ^ 16)) := by
  show execRxqDoorbell f slot v s = _
  simp only [execRxqDoorbell, h, done]

theorem execTxrDoorbell_bound (h : s.slotOf f.val slot = some (.txr r)) :
    exec (.txrDoorbell f slot v) s = .next (s.ringProd r (v.toNat % 2 ^ 16)) := by
  show execTxrDoorbell f slot v s = _
  simp only [execTxrDoorbell, h, done]

/-- A doorbell slot bound to nothing counts a stray write. -/
theorem execRingDoorbell_stray (h : s.slotOf f.val slot = none) :
    exec (.rxqDoorbell f slot v) s = .next (s.slotStray f.val) ∧ exec (.txrDoorbell f slot v) s = .next (s.slotStray f.val) := by
  refine ⟨?_, ?_⟩
  · show execRxqDoorbell f slot v s = _
    simp only [execRxqDoorbell, h, done]
  · show execTxrDoorbell f slot v s = _
    simp only [execTxrDoorbell, h, done]

end

/-! ### The buckets of a policer (R371) -/

section
variable (p : Policer) (now n pre : Nat)

theorem Policer.refill_le : (p.refill now).tc ≤ p.cbs * 65536 ∧ (p.refill now).tp ≤ p.pbs * 65536 :=
  ⟨Nat.min_le_right _ _, Nat.min_le_right _ _⟩

/-- A frame is red and takes nothing, yellow and takes its bytes from the peak bucket, or green and takes them from both. -/
theorem Policer.colour_cases :
    (p.colour now n pre = (2, p.refill now)) ∨
    (n * 65536 ≤ (p.refill now).tp ∧ p.colour now n pre = (1, { p.refill now with tp := (p.refill now).tp - n * 65536 })) ∨
    (n * 65536 ≤ (p.refill now).tc ∧ n * 65536 ≤ (p.refill now).tp ∧
      p.colour now n pre = (0, { p.refill now with tc := (p.refill now).tc - n * 65536, tp := (p.refill now).tp - n * 65536 })) := by
  simp only [Policer.colour]
  generalize (if nbit (p.refill now).mode 0 = true then pre else 0) = precoloured
  split
  · exact .inl rfl
  · next hred =>
    have htp := Nat.le_of_not_lt fun h => hred (.inl h)
    split
    · exact .inr (.inl ⟨htp, rfl⟩)
    · next hyellow => exact .inr (.inr ⟨Nat.le_of_not_lt fun h => hyellow (.inl h), htp, rfl⟩)

end

/-- Settles O42: each row from the lemma of its branch, and the buckets from `Policer.colour_cases`. -/
theorem gatehouse : Obligations.Gatehouse := by
  refine ⟨?_, ?_⟩
  · intro s u rq q v mm fr rest p e i r slot far g rx x f pol k op here ent bk n stat gone
    have hstat : ∀ c, c < 8 → ∀ o, o = .next (s.ghStatus k c) → stat o c := fun c hc o ho => ⟨_, ho, s.ghStatus_gives k hc⟩
    refine ⟨fun h hok hp hl => ?_, fun h hok hp hl hpol hd => ?_, execGhLookup_empty,
      fun hk hok hnew => ⟨fun hi hpool => ?_, fun hi => ?_, fun hi hpool => ?_⟩,
      fun hk h => hstat 1 (by decide) _ ?_, fun hk h hi => ?_, fun hk h hi => hstat 4 (by decide) _ ?_, fun hk h => ⟨?_, ?_⟩,
      fun hk h => ⟨hstat 1 (by decide) _ ?_, hstat 1 (by decide) _ ?_⟩,
      fun hk => ⟨?_, ?_, ?_, ?_⟩, execRxDeliver_delivered, execRxDeliver_empty, execRxDeliver_none, fun h hx => ?_, fun h hx => ?_,
      execRingDoorbell_stray⟩
    · exact (execGhLookup_handled h hok).trans (congrArg Host.Outcome.next (State.ghHandle_miss hp hl))
    · exact (execGhLookup_handled h hok).trans (congrArg Host.Outcome.next (State.ghHandle_hit hp hl hpol hd))
    · refine ⟨_, congrArg Host.Outcome.next ((State.ghOpWrite_rows hk).1.trans ?_), s.setBucket_status k ent.bucket (bk.set i (some ent))⟩
      rw [State.flowInsert_new rfl hok hnew, hi]
      exact if_neg (Nat.not_lt_of_le hpool)
    · refine hstat 2 (by decide) _ (congrArg Host.Outcome.next ((State.ghOpWrite_rows hk).1.trans ?_))
      rw [State.flowInsert_new rfl hok hnew, hi]
    · refine hstat 3 (by decide) _ (congrArg Host.Outcome.next ((State.ghOpWrite_rows hk).1.trans ?_))
      rw [State.flowInsert_new rfl hok hnew, hi]
      exact if_pos (Nat.lt_succ_of_le hpool)
    · exact congrArg Host.Outcome.next ((State.ghOpWrite_rows hk).1.trans (State.flowInsert_malformed h))
    · refine ⟨_, congrArg Host.Outcome.next ((State.ghOpWrite_rows hk).2.1.trans ?_), s.setBucket_status k ent.bucket (bk.set i none)⟩
      rw [State.flowRemove_known rfl h, hi]
    · refine congrArg Host.Outcome.next ((State.ghOpWrite_rows hk).2.1.trans ?_)
      rw [State.flowRemove_known rfl h, hi]
    · exact ⟨_, congrArg Host.Outcome.next ((State.ghOpWrite_rows hk).2.2.1.trans (State.policerWrite_some h).1), s.setPolicer_status k n _⟩
    · exact ⟨_, congrArg Host.Outcome.next ((State.ghOpWrite_rows hk).2.2.2.trans (State.policerWrite_some h).2), s.setPolicer_status k n _⟩
    · exact congrArg Host.Outcome.next ((State.ghOpWrite_rows hk).2.2.1.trans (State.policerWrite_none h).1)
    · exact congrArg Host.Outcome.next ((State.ghOpWrite_rows hk).2.2.2.trans (State.policerWrite_none h).2)
    · exact congrArg Host.Outcome.next (State.ghOpWrite_stray hk _)
    · exact congrArg Host.Outcome.next (State.ghOpWrite_stray hk _)
    · exact congrArg Host.Outcome.next (State.ghOpWrite_stray hk _)
    · exact congrArg Host.Outcome.next (State.ghOpWrite_stray hk _)
    · exact (execRxqDoorbell_bound h).trans (congrArg Host.Outcome.next (State.ringProd_some _ hx))
    · exact (execTxrDoorbell_bound h).trans (congrArg Host.Outcome.next (State.ringProd_some _ hx))
  · intro p now n pre c x h r b
    obtain ⟨htc, htp⟩ := p.refill_le now
    rcases p.colour_cases now n pre with hc | ⟨hp, hc⟩ | ⟨ht, hp, hc⟩
    all_goals
      obtain ⟨rfl, rfl⟩ := Prod.mk.inj (hc.symm.trans h)
    · exact ⟨by decide, rfl, htc, htp, nofun, nofun, fun _ => rfl⟩
    · exact ⟨by decide, rfl, htc, (Nat.sub_le _ _).trans htp, nofun, fun _ => ⟨hp, rfl, Nat.sub_add_cancel hp⟩, nofun⟩
    · exact ⟨by decide, rfl, (Nat.sub_le _ _).trans htc, (Nat.sub_le _ _).trans htp,
        fun _ => ⟨ht, hp, Nat.sub_add_cancel ht, Nat.sub_add_cancel hp⟩, nofun, nofun⟩

end Sys2Proof.Machine
end

