-- ==== Sys2Proof/Proofs/BellFrames.lean ====
section
/-!
SUPPORT. What the Bell units, error records and the Weighmaster leave alone: the state of the stalls, channels, links, cipher contexts,
Ethernet blocks, Carters and Ledgers.
-/
namespace Sys2Proof.Machine

/-- The parts of the state that belong to the engines, which no error record, Bell operation or event changes. -/
def State.engines (s : State) : StallSt × PorterSt × Tab CwLink × XimSt × CashSt × EthSt × CarterSt × LedgerSt :=
  (s.stall, s.porter, s.cw, s.xim, s.cash, s.eth, s.carter, s.ledger)

@[simp] theorem State.eth_of_engines {s t : State} (h : t.engines = s.engines) : t.eth = s.eth := congrArg (fun x => x.2.2.2.2.2.1) h

/-! ### The operations of the state -/

section
variable (s : State)

@[simp] theorem State.fset_engines (r : Reg) (f : Fld) (v : Nat) : (s.fset r f v).engines = s.engines := (rfl)
@[simp] theorem State.wr_engines (r : Reg) (w : W64) : (s.wr r w).engines = s.engines := (rfl)
@[simp] theorem State.fsat_engines (r : Reg) (f : Fld) (v : Nat) : (s.fsat r f v).engines = s.engines := (rfl)
@[simp] theorem State.fwrap_engines (r : Reg) (f : Fld) (v : Nat) : (s.fwrap r f v).engines = s.engines := (rfl)
@[simp] theorem State.emit_engines (o : Out) : (s.emit o).engines = s.engines := (rfl)
@[simp] theorem State.engines_bell (b : BellSt) : ({ s with bell := b } : State).engines = s.engines := (rfl)
@[simp] theorem State.engines_err (e : ErrSt) : ({ s with err := e } : State).engines = s.engines := (rfl)
@[simp] theorem State.engines_sampleSeq (q : Tab Nat) : ({ s with sampleSeq := q } : State).engines = s.engines := (rfl)

@[simp] theorem State.poke_engines (a : Nat) (b : Bytes) : (s.poke a b).engines = s.engines := by
  simp only [State.engines, State.poke_stall, State.poke_porter, State.poke_cw, State.poke_xim, State.poke_cash, State.poke_eth,
    State.poke_carter, State.poke_ledger]

@[simp] theorem State.count_engines (q b n k : Nat) : (s.count q b n k).engines = s.engines := by
  simp only [State.engines, State.count_stall, State.count_porter, State.count_cw, State.count_xim, State.count_cash, State.count_eth,
    State.count_carter, State.count_ledger]

@[simp] theorem State.raiseLine_engines (q l : Nat) : (s.raiseLine q l).engines = s.engines := by
  simp only [State.engines, State.raiseLine_stall, State.raiseLine_porter, State.raiseLine_cw, State.raiseLine_xim, State.raiseLine_cash,
    State.raiseLine_eth, State.raiseLine_carter, State.raiseLine_ledger]

@[simp] theorem State.strayCode_engines (c k o : Nat) : (s.strayCode c k o).engines = s.engines := by
  simp only [State.engines, State.strayCode_stall, State.strayCode_porter, State.strayCode_cw, State.strayCode_xim, State.strayCode_cash,
    State.strayCode_eth, State.strayCode_carter, State.strayCode_ledger]

@[simp] theorem State.eventPrec_engines (p c o k : Nat) : (s.eventPrec p c o k).engines = s.engines := by
  simp only [State.engines, State.eventPrec_stall, State.eventPrec_porter, State.eventPrec_cw, State.eventPrec_xim, State.eventPrec_cash,
    State.eventPrec_eth, State.eventPrec_carter, State.eventPrec_ledger]

@[simp] theorem State.wmAdd_engines (q b n k : Nat) : (s.wmAdd q b n k).1.engines = s.engines := by
  rw [State.wmAdd_regs_only]
  rfl

/-! ### Error records -/

@[simp] theorem State.ringErr_engines (r : ErrRec) : (s.ringErr r).engines = s.engines := by
  simp only [State.ringErr]
  split <;> simp [State.engines]

@[simp] theorem State.notifyErr_engines (r : ErrRec) : (s.notifyErr r).engines = s.engines := by
  simp only [State.notifyErr]
  split
  · rfl
  · exact (foldl_keeps State.engines (fun t _ => t.emit_engines _) _ _).trans (s.eventPrec_engines ..)
  · split
    · exact s.eventPrec_engines ..
    · rfl
  · exact foldl_keeps State.engines (fun t p => t.eventPrec_engines p _ _ _) _ _
  · rfl

@[simp] theorem State.uncorrect_engines (p : Nat) : (s.uncorrect p).engines = s.engines := by
  refine foldl_keeps State.engines (fun t f => ?_) _ _
  unfold State.mapDockets
  split <;> rfl

/-- An error record changes no engine. -/
@[simp] theorem State.recordErr_engines (cls det prec unit detail addr asid : Nat) (inj : Bool) :
    (s.recordErr cls det prec unit detail addr asid inj).engines = s.engines := by
  have hlines : ∀ t : State, (forNat 4 t fun s q => if s.qFenced q then s else s.raiseLine q 6).engines = t.engines := fun t =>
    foldl_keeps State.engines (fun t q => by split <;> simp) _ t
  simp only [State.recordErr, hlines]
  split <;> simp

/-! ### The steps of a Bell unit -/

@[simp] theorem State.setCount_engines (k v : Nat) : (s.setCount k v).engines = s.engines := (rfl)
@[simp] theorem State.book_engines (k a b : Nat) : (s.book k a b).engines = s.engines := (rfl)
@[simp] theorem State.rebook_engines (k v : Nat) : (s.rebook k v).engines = s.engines := (rfl)
@[simp] theorem State.setQueue_engines (k : Nat) (ws : List Waiter) : (s.setQueue k ws).engines = s.engines := (rfl)
@[simp] theorem State.unhold_engines (q : Nat) : (s.unhold q).1.engines = s.engines := (rfl)
@[simp] theorem State.disarm_engines (e : Nat) : (s.disarm e).engines = s.engines := (rfl)

@[simp] theorem State.bellFault_engines (k kind : Nat) (inj : Bool) : (s.bellFault k kind inj).engines = s.engines := by
  simp only [State.bellFault, State.recordErr_engines, State.wr_engines]

@[simp] theorem State.injFire_engines : s.injFire.engines = s.engines := by
  simp only [State.injFire]
  split
  · split <;> simp [State.engines]
  · simp

@[simp] theorem State.bellInject_engines (k : Nat) : (s.bellInject k).engines = s.engines := by
  unfold State.bellInject
  split
  · split <;> simp
  · rfl

@[simp] theorem State.saturate_engines (k : Nat) (high : Bool) (op amount src : Nat) :
    (s.saturate k high op amount src).engines = s.engines := by
  unfold State.saturate
  extract_lets q u r v w
  have hw : w.engines = s.engines := by simp only [w, v, u, State.count_engines, State.wr_engines, State.fset_engines]
  split
  · rw [State.bellFault_engines, hw]
  · exact hw

@[simp] theorem State.consume_engines (k n : Nat) : (s.consume k n).engines = s.engines := by simp only [State.consume,
  State.bellInject_engines, State.book_engines, State.setCount_engines]

@[simp] theorem State.syncAct_engines (e : Nat) : (s.syncAct e).1.engines = s.engines := by
  simp only [State.syncAct]
  split <;> simp

@[simp] theorem State.headStep_engines (k : Nat) : (s.headStep k).1.engines = s.engines := by
  unfold State.headStep
  split
  · rfl
  · split
    · rfl
    · split
      · dsimp only
        split
        · rfl
        · split <;> simp
      · simp

@[simp] theorem State.realign_engines (k : Nat) : (s.realign k).engines = s.engines := by
  simp only [State.realign]
  split
  · split
    · simp
    · split <;> simp
  · simp

@[simp] theorem State.groupRelease_engines (g : Nat) : (s.groupRelease g).1.engines = s.engines := by
  simp only [State.groupRelease, State.fset_engines, State.engines_bell]
  rw [foldl_keeps State.engines (fun t x => t.disarm_engines _), foldl_keeps State.engines (fun t k => t.realign_engines k)]
  simp only [State.engines_bell, State.count_engines, State.fwrap_engines, State.wr_engines]

@[simp] theorem State.dropArrival_engines (e : Nat) : (s.dropArrival e).engines = s.engines := by
  simp only [State.dropArrival]
  split <;> simp

@[simp] theorem State.arrive_engines (g p e rq : Nat) : (s.arrive g p e rq).1.engines = s.engines := by
  simp only [State.arrive]
  split
  · simp
  · split
    · simp
    · split
      · split <;> simp
      · split <;> simp only [State.groupRelease_engines, State.engines_bell, State.wr_engines]

@[simp] theorem State.doSignal_engines (k n src : Nat) : (s.doSignal k n src).engines = s.engines := by
  simp only [State.doSignal]
  split <;> simp

@[simp] theorem State.doDebit_engines (k n src : Nat) : (s.doDebit k n src).engines = s.engines := by
  simp only [State.doDebit]
  split <;> simp

@[simp] theorem State.doWait_engines (k : Nat) (w : Waiter) : (s.doWait k w).1.engines = s.engines := by
  simp only [State.doWait]
  split_ifs
  · simp only [State.engines_bell, State.count_engines, State.consume_engines]
  · simp only [State.engines_bell]
  · simp only [State.count_engines, State.setQueue_engines]

theorem State.wakeOne_engines (x : State × List BellOp) (w : Waiter) : (State.wakeOne x w).1.engines = x.1.engines := by
  unfold State.wakeOne
  split
  · split <;> simp
  · simp

@[simp] theorem State.doWakeAll_engines (k : Nat) : (s.doWakeAll k).1.engines = s.engines := by
  simp only [State.doWakeAll]
  split
  · simp
  · simp only [State.unhold_engines]
    rw [foldl_keeps (fun x : State × List BellOp => x.1.engines) State.wakeOne_engines]
    simp

@[simp] theorem State.bellStep_engines (op : BellOp) : (s.bellStep op).1.engines = s.engines := by
  unfold State.bellStep
  split
  · simp
  · cases op with
    | signal k n src => simp
    | wait k w => simp
    | take k n src =>
      dsimp only
      split <;> simp
    | debit k n src => simp
    | set k v src => simp
    | wakeAll k => simp
    | arrive g p e rq => simp
    | heads k => simp

/-- Operations of the Bell units change no engine. -/
theorem State.bellRun_engines (fuel : Nat) : ∀ (ops : List BellOp) (s : State), (State.bellRun fuel ops s).engines = s.engines := by
  induction fuel with
  | zero => exact fun _ _ => rfl
  | succ fuel ih =>
    intro ops s
    cases ops with
    | nil => rfl
    | cons op ops => exact (ih _ _).trans (s.bellStep_engines op)

@[simp] theorem State.bells_engines (ops : List BellOp) : (s.bells ops).engines = s.engines := State.bellRun_engines _ ops s

@[simp] theorem State.signal_engines (ref n src : Nat) : (s.signal ref n src).engines = s.engines := by
  unfold State.signal
  split <;> simp

/-! ### Events -/

/-- A sample of no address space changes no engine. -/
theorem State.sample_engines (q b n : Nat) {c : SampleCtx} (hc : c.asid = 0) : (s.sample q b n c).engines = s.engines := by
  simp only [State.sample, if_pos hc]
  split <;> simp

@[simp] theorem State.stallEvent_engines (st n k index : Nat) : (s.stallEvent st n k index 0).engines = s.engines := by
  simp only [State.stallEvent, State.event]
  split
  · rfl
  · split
    · rfl
    · split
      · rw [State.sample_engines _ _ _ _ rfl, State.wmAdd_engines]
      · exact s.wmAdd_engines ..

end

end Sys2Proof.Machine
end

