-- ==== Sys2Proof/Proofs/Tollbooths.lean ====
section
/-!
SUPPORT. The Tollbooths (R374–R386): what waking nodes leaves alone, the queues, the choice of a child, the operations of TB_OP, and the
transmit rings.
-/
namespace Sys2Proof.Machine

/-! ### What waking, choosing and advancing nodes leaves alone -/

/-- Two states differ in nodes of the Tollbooths and their virtual times only. -/
def State.OnlyNodes (s t : State) : Prop := ∃ ns vt, t = s.withEth { s.eth with nodes := ns, vtime := vt }

section
variable {s t u : State}

theorem State.OnlyNodes.refl (s : State) : s.OnlyNodes s := ⟨s.eth.nodes, s.eth.vtime, rfl⟩

theorem State.OnlyNodes.trans (h : s.OnlyNodes t) (h' : t.OnlyNodes u) : s.OnlyNodes u := by
  obtain ⟨ns, vt, rfl⟩ := h
  obtain ⟨ns', vt', rfl⟩ := h'
  exact ⟨ns', vt', rfl⟩

theorem State.OnlyNodes.foldl {α : Type} {f : State → α → State} (hf : ∀ (s : State) (x : α), s.OnlyNodes (f s x)) (l : List α) :
    ∀ s : State, s.OnlyNodes (l.foldl f s) := by
  induction l with
  | nil => exact fun s => .refl s
  | cons x l ih => exact fun s => (hf s x).trans (ih _)

theorem State.OnlyNodes.regs (h : s.OnlyNodes t) : t.regs = s.regs := by
  obtain ⟨ns, vt, rfl⟩ := h
  rfl

theorem State.OnlyNodes.home (h : s.OnlyNodes t) : t.home = s.home := by
  obtain ⟨ns, vt, rfl⟩ := h
  rfl

/-- Queues, wires and what is on its way are as they were. -/
theorem State.OnlyNodes.eth (h : s.OnlyNodes t) :
    t.eth.queues = s.eth.queues ∧ t.eth.wire = s.eth.wire ∧ t.eth.toTb = s.eth.toTb := by
  obtain ⟨ns, vt, rfl⟩ := h
  exact ⟨rfl, rfl, rfl⟩

theorem State.OnlyNodes.queued (h : s.OnlyNodes t) (q i : Nat) : t.queued q i = s.queued q i := by
  rw [State.queued, h.eth.1, State.queued]

end

section
variable (s : State) (q level i : Nat)

theorem State.setNode_onlyNodes (n : TbNode) : s.OnlyNodes (s.setNode q level i n) :=
  ⟨put s.eth.nodes (key3 q level i) n, s.eth.vtime, rfl⟩

theorem State.wakeNode_onlyNodes (awake : Bool) : s.OnlyNodes (s.wakeNode q level i awake) := by
  simp only [State.wakeNode]
  split
  · exact .refl s
  · exact s.setNode_onlyNodes q level i _

theorem State.wakeUp_onlyNodes (fuel : Nat) : ∀ (s : State) (level i : Nat), s.OnlyNodes (s.wakeUp fuel q level i) := by
  induction fuel with
  | zero => exact fun s _ _ => .refl s
  | succ fuel ih =>
    intro s level i
    unfold State.wakeUp
    split
    · exact .refl s
    · next n _ =>
      split
      · exact .refl s
      · refine State.OnlyNodes.trans ?_ (ih _ _ _)
        split
        · exact .refl s
        · exact s.wakeNode_onlyNodes q level i true

theorem State.wakeBelow_onlyNodes (fuel : Nat) : ∀ (s : State) (level i : Nat), s.OnlyNodes (s.wakeBelow q fuel level i) := by
  induction fuel with
  | zero => exact fun s _ _ => .refl s
  | succ fuel ih =>
    intro s level i
    unfold State.wakeBelow
    refine State.OnlyNodes.foldl (fun t c => (ih t (level + 1) c.1).trans ?_) _ s
    dsimp only
    split
    · split
      · exact State.wakeNode_onlyNodes _ _ _ _ _
      · exact .refl _
    · exact .refl _

theorem State.sleep_onlyNodes : s.OnlyNodes (s.sleep q level i) := by
  unfold State.sleep
  split
  · exact .refl s
  · split
    · exact .refl s
    · exact s.setNode_onlyNodes q level i _

theorem State.chosen_onlyNodes (len : Nat) (x : Nat × Nat × Bool) : s.OnlyNodes (s.chosen q len x) := by
  obtain ⟨level, i, tier⟩ := x
  simp only [State.chosen]
  split
  · exact .refl s
  · exact ⟨_, _, rfl⟩

theorem State.advanceTag_onlyNodes (x : Nat × Nat × Bool) : s.OnlyNodes (s.advanceTag q x) := by
  simp only [State.advanceTag]
  split
  · exact .refl s
  · refine State.OnlyNodes.trans ?_ (State.sleep_onlyNodes _ _ _ _)
    split
    · exact s.setNode_onlyNodes q _ _ _
    · exact .refl s

@[simp] theorem State.node_setNode (n : TbNode) : (s.setNode q level i n).node q level i = some n := look_put_same _ _ _

theorem State.node_of_eth {s t : State} (h : t.eth = s.eth) : t.node q level i = s.node q level i := by
  rw [State.node, h, State.node]

end

/-! ### Queues -/

section
variable {s : State} {q : Qn} {qu k j : Nat} {f : TxFrame} {toTb : List (Nat × TxFrame)}

theorem execTbEnqueue_none (h : takeTb q.val s.eth.toTb = none) : exec (.tbEnqueue q) s = .next s := by
  show execTbEnqueue q s = _
  simp only [execTbEnqueue, h, done]

/-- A frame for a fenced Tollbooth is dropped. -/
theorem execTbEnqueue_fenced (h : takeTb q.val s.eth.toTb = some ((qu, f), toTb)) (hf : s.stallFenced (soleStall q.val 8) = true) :
    exec (.tbEnqueue q) s =
      .next (((s.withEth { s.eth with toTb := toTb }).stallEvent (soleStall q.val 8) 13 1 0 0).txEnd q.val f.ring 0x30 0) := by
  have hf' : (s.withEth { s.eth with toTb := toTb }).stallFenced (soleStall q.val 8) = true := hf
  rw [State.withEth] at hf' ⊢
  show execTbEnqueue q s = _
  simp only [execTbEnqueue, h, hf', if_true, done]

theorem execTbEnqueue_works (h : takeTb q.val s.eth.toTb = some ((qu, f), toTb)) (hf : s.stallFenced (soleStall q.val 8) = false) :
    exec (.tbEnqueue q) s = .next ((s.withEth { s.eth with toTb := toTb }).enqueue q.val (qu % 2 ^ 18) f) := by
  have hf' : (s.withEth { s.eth with toTb := toTb }).stallFenced (soleStall q.val 8) = false := hf
  rw [State.withEth] at hf' ⊢
  show execTbEnqueue q s = _
  simp only [execTbEnqueue, h, hf', Bool.false_eq_true, if_false, done]

/-- A state with a frame at the end of a queue. -/
def State.queuedAfter (s : State) (k j : Nat) (f : TxFrame) : State :=
  s.withEth { s.eth with queues := put s.eth.queues (k * 2 ^ 18 + j) (s.queued k j ++ [f]) }

theorem State.queued_queuedAfter (s : State) (k j : Nat) (f : TxFrame) : (s.queuedAfter k j f).queued k j = s.queued k j ++ [f] := by
  show (look (put s.eth.queues _ _) _).getD [] = _
  rw [look_put_same]
  rfl

/-- A frame that no check drops joins the end of its queue, and nothing but nodes changes besides. -/
theorem State.enqueue_joins (hd : s.dropCause k j f = none) : (s.queuedAfter k j f).OnlyNodes (s.enqueue k j f) := by
  have henq : s.enqueue k j f = if (s.queued k j).isEmpty then
      ((s.queuedAfter k j f).wakeNode k 3 j false).wakeUp 3 k 3 j else s.queuedAfter k j f := by
    simp only [State.enqueue, hd]
    rfl
  rw [henq]
  split
  · exact (State.wakeNode_onlyNodes _ _ _ _ _).trans (State.wakeUp_onlyNodes _ _ _ _ _)
  · exact .refl _

theorem State.tbEnqueued (h : takeTb q.val s.eth.toTb = some ((qu, f), toTb)) (hf : s.stallFenced (soleStall q.val 8) = false)
    (hd : (s.withEth { s.eth with toTb := toTb }).dropCause q.val (qu % 2 ^ 18) f = none) :
    Completes (exec (.tbEnqueue q) s) fun t => t.queued q.val (qu % 2 ^ 18) = s.queued q.val (qu % 2 ^ 18) ++ [f] ∧
      t.eth.toTb = toTb ∧ t.regs = s.regs ∧ s.memSame t := by
  have hjoin := State.enqueue_joins hd
  refine ⟨_, execTbEnqueue_works h hf, ?_, hjoin.eth.2.2, hjoin.regs, State.memSame_of_mem (congrArg _ hjoin.home)⟩
  rw [hjoin.queued]
  exact State.queued_queuedAfter ..

end

/-! ### The next frame of a subport -/

section
variable {s : State} {q : Qn} {sub : Fin 8} {pa : List (Nat × Nat × Bool)} {l : Nat × Nat × Bool} {f : TxFrame} {rest : List TxFrame}

theorem execTbSelect_ready (hu : s.subUp q.val sub.val = true) (hw : look s.eth.wire (key2 q.val sub.val) = none)
    (hf : s.stallFenced (soleStall q.val 8) = false) : exec (.tbSelect q sub) s = .next (s.select q.val sub.val) :=
  if_pos ⟨hu, by rw [hw]; rfl, by rw [hf]; decide⟩

/-- With nothing to choose and nothing held, only nodes change. -/
theorem State.select_none {k n : Nat} (hp : (s.wakeBelow k 3 0 n).path k 3 0 n = none)
    (hh : (s.wakeBelow k 3 0 n).holdsFrames 4 k 0 n = false) : s.select k n = s.wakeBelow k 3 0 n := by
  simp only [State.select, hp, hh, Bool.false_eq_true, if_false]

/-- A state with a queue's frames replaced and a frame on the wire of a subport. -/
def State.onWire (s : State) (k i n : Nat) (rest : List TxFrame) (f : TxFrame) : State :=
  s.withEth { s.eth with queues := putD [] s.eth.queues (k * 2 ^ 18 + i) rest, wire := put s.eth.wire (key2 k n) f }

/-- The frame at the head of the chosen queue goes out with its port's timestamp. -/
theorem State.select_frame {k n : Nat} (hp : (s.wakeBelow k 3 0 n).path k 3 0 n = some pa) (hl : pa.getLast? = some l)
    (hq : (s.wakeBelow k 3 0 n).queued k l.2.1 = f :: rest) :
    ∃ t len, (s.wakeBelow k 3 0 n).OnlyNodes t ∧
      s.select k n = ((pa.reverse.foldl (fun s x => s.advanceTag k x) (t.onWire k l.2.1 n rest { f with ts := t.tsNow k n })).stallEvent
        (soleStall k 8) 6 1 0 0).stallEvent (soleStall k 8) 7 len 0 0 := by
  have hchosen : (s.wakeBelow k 3 0 n).OnlyNodes
      (pa.foldl (fun t x => t.chosen k ((s.wakeBelow k 3 0 n).countedLen k f) x) (s.wakeBelow k 3 0 n)) :=
    State.OnlyNodes.foldl (fun t x => t.chosen_onlyNodes k _ x) pa _
  refine ⟨_, (s.wakeBelow k 3 0 n).countedLen k f, hchosen, ?_⟩
  simp only [State.select, hp, hl, hq]
  rfl

theorem State.tbSelected (hu : s.subUp q.val sub.val = true) (hw : look s.eth.wire (key2 q.val sub.val) = none)
    (hf : s.stallFenced (soleStall q.val 8) = false) (hp : (s.wakeBelow q.val 3 0 sub.val).path q.val 3 0 sub.val = some pa)
    (hl : pa.getLast? = some l) (hq : (s.wakeBelow q.val 3 0 sub.val).queued q.val l.2.1 = f :: rest) :
    Completes (exec (.tbSelect q sub) s) fun t => t.queued q.val l.2.1 = rest ∧
      look t.eth.wire (key2 q.val sub.val) = some { f with ts := (s.wakeBelow q.val 3 0 sub.val).tsNow q.val sub.val } := by
  obtain ⟨t, len, ht, hsel⟩ := State.select_frame hp hl hq
  have hnodes := State.OnlyNodes.foldl (fun s x => s.advanceTag_onlyNodes q.val x) pa.reverse
    (t.onWire q.val l.2.1 sub.val rest { f with ts := t.tsNow q.val sub.val })
  have heth := State.eth_of_engines (congrArg State.engines hsel)
  rw [State.eth_of_engines (State.stallEvent_engines ..), State.eth_of_engines (State.stallEvent_engines ..)] at heth
  have hts : t.tsNow q.val sub.val = (s.wakeBelow q.val 3 0 sub.val).tsNow q.val sub.val := by
    rw [State.tsNow, State.rd_of_regs ht.regs, State.tsNow]
  refine ⟨_, execTbSelect_ready hu hw hf, ?_, ?_⟩
  · rw [State.queued, heth, hnodes.eth.1]
    exact lookD_putD_same _ _ _ _
  · rw [heth, hnodes.eth.2.1, ← hts]
    exact look_put_same _ _ _

/-- A sent frame of no ring leaves the wire. -/
theorem execTbFrameSent_sent (h : look s.eth.wire (key2 q.val sub.val) = some f) (hr : f.ring = none) (hp : f.poison = false) :
    exec (.tbFrameSent q sub) s = .next ((((s.withEth { s.eth with wire := drop s.eth.wire (key2 q.val sub.val) }).emit
      (.frame q.val sub.val (f.data ++ fcsOf f.data) false)).ethCount q.val 1 1).ethCount q.val 3 f.len) := by
  rw [State.withEth]
  show execTbFrameSent q sub s = _
  simp only [execTbFrameSent, h, State.sent, hr, hp, Bool.false_eq_true, if_false, State.txEnd, done]

/-- An eligible class group that sleeps takes its start tag; its parent is no node. -/
theorem State.tbNodeWoken {i : Nat} {n : TbNode} (hn : s.node q.val 1 i = some n) (he : s.nodeEligible q.val 1 i = true)
    (ha : n.awake = false) (hp : s.node q.val 0 n.parent = none) : Completes (exec (.tbNodeWake q 1 i) s) fun t =>
      t.node q.val 1 i = some { n with s := max (s.vtime q.val 0 n.parent) (max n.s n.f), awake := true } ∧ t.regs = s.regs ∧
        s.memSame t := by
  have hwake : s.wakeNode q.val 1 i true =
      s.setNode q.val 1 i { n with s := max (s.vtime q.val 0 n.parent) (max n.s n.f), awake := true } := by
    simp only [State.wakeNode, hn]
  have hparent : ∀ x, (s.setNode q.val 1 i x).node q.val 0 n.parent = none := fun x =>
    (look_put_ne _ _ (by simp [Nat.pair_eq_pair])).trans hp
  have hup : s.wakeUp 3 q.val 1 i = s.wakeNode q.val 1 i true := by
    rw [State.wakeUp, hn]
    simp only [he, Bool.not_true, Bool.false_eq_true, if_false, ha]
    rw [hwake, State.wakeUp, hparent]
  refine ⟨s.wakeUp 3 q.val 1 i, rfl, ?_, (State.wakeUp_onlyNodes _ _ _ _ _).regs,
    State.memSame_of_mem (congrArg _ (State.wakeUp_onlyNodes _ _ _ _ _).home)⟩
  rw [hup, hwake, State.node_setNode]

theorem execTbNodeWake_idle {i : Nat} (he : s.nodeEligible q.val 1 i = false) : exec (.tbNodeWake q 1 i) s = .next s := by
  have hup : s.wakeUp 3 q.val 1 i = s := by
    rw [State.wakeUp]
    split
    · rfl
    · simp only [he, Bool.not_false, if_true]
  exact congrArg Host.Outcome.next hup

end

/-! ### The operations of TB_OP -/

/-- The operation register of a Tollbooth. -/
def tbOpReg (k : Nat) : Reg := ⟨.tbOp, k, 0⟩

section
variable {s : State} {rq : Requester} {k lv ix : Nat} {v : W64} {n o : TbNode}

/-- What a Tollbooth operation leaves: its STATUS, and no register or memory changed besides. -/
theorem State.tbStatus_gives (s : State) (e : EthSt) (k : Nat) {c : Nat} (hc : c < 8) :
    ((s.withEth e).tbStatus k c).fget (tbOpReg k) F.tbOp_STATUS = c ∧ ((s.withEth e).tbStatus k c).eth = e ∧
      s.regsBut ((s.withEth e).tbStatus k c) [tbOpReg k] ∧ s.memSame ((s.withEth e).tbStatus k c) := by
  have hhome : ((s.withEth e).tbStatus k c).home = s.home := State.fset_home ..
  exact ⟨(State.fget_fset_same _ _ (by decide)).trans (Nat.mod_eq_of_lt (Nat.lt_of_lt_of_le hc (by decide))), State.fset_eth ..,
    fun _ hr => State.rd_fset_ne (s.withEth e) _ _ (by simpa [tbOpReg] using hr), State.memSame_of_mem (congrArg _ hhome)⟩

theorem State.tbStatus_eth (s : State) (k c : Nat) : (s.tbStatus k c).eth = s.eth := State.fset_eth ..

/-- An operation ends with a STATUS and leaves a node so. -/
def TbDone (s : State) (k lv ix : Nat) (c : Host.Outcome State Fault Refusal) (stat : Nat) (node : Option TbNode) : Prop :=
  Completes c fun t => t.fget (tbOpReg k) F.tbOp_STATUS = stat ∧ t.node k lv ix = node ∧ s.regsBut t [tbOpReg k] ∧ s.memSame t

theorem State.tbDone_eth (e : EthSt) {c : Host.Outcome State Fault Refusal} {stat : Nat} {node : Option TbNode} (hc : stat < 8)
    (h : c = .next ((s.withEth e).tbStatus k stat)) (hn : look e.nodes (key3 k lv ix) = node) : TbDone s k lv ix c stat node := by
  obtain ⟨hstat, heth, hregs, hmem⟩ := s.tbStatus_gives e k hc
  exact ⟨_, h, hstat, (congrArg (fun e : EthSt => look e.nodes _) heth).trans hn, hregs, hmem⟩

/-- An operation that changes nothing but STATUS. -/
theorem State.tbDone_same {c : Host.Outcome State Fault Refusal} {stat : Nat} (hc : stat < 8) (h : c = .next (s.tbStatus k stat)) :
    TbDone s k lv ix c stat (s.node k lv ix) :=
  State.tbDone_eth s.eth hc h rfl

/-- An operation that replaces its node. -/
theorem State.tbDone_set {c : Host.Outcome State Fault Refusal} (h : c = .next ((s.setNode k lv ix n).tbStatus k 0)) :
    TbDone s k lv ix c 0 (some n) :=
  State.tbDone_eth { s.eth with nodes := put s.eth.nodes (key3 k lv ix) n } (by decide) h (look_put_same _ _ _)

theorem tbOpWord_op {m : Nat} (hm : m < 8) : bitsOf (tbOpWord m v) F.tbOp_OP = m :=
  (bitsOf_setBits_same _ _ (by decide)).trans (Nat.mod_eq_of_lt hm)

theorem tbOpWord_level (m : Nat) : bitsOf (tbOpWord m v) F.tbOp_LEVEL = bitsOf v F.tbOp_LEVEL := bitsOf_setBits_apart _ _ (by decide)

theorem tbOpWord_index (m : Nat) : bitsOf (tbOpWord m v) F.tbOp_INDEX = bitsOf v F.tbOp_INDEX := bitsOf_setBits_apart _ _ (by decide)

theorem State.tbOpWrite_stray (h : rqKernel rq = false ∨ bitsOf v F.tbOp_LEVEL = 0) (m : Nat) :
    s.tbOpWrite rq k (tbOpWord m v) = s.refuse rq (tbOpReg k) := by
  refine if_pos ?_
  rw [tbOpWord_level]
  rcases h with h | h <;> simp [h]

/-- Each operation on a node that its level can have goes to its row. -/
theorem State.tbOpWrite_rows (hk : rqKernel rq = true) (hl : bitsOf v F.tbOp_LEVEL = lv) (hi : bitsOf v F.tbOp_INDEX = ix)
    (h0 : lv ≠ 0) (hm : ix < nodeMax lv) :
    s.tbOpWrite rq k (tbOpWord 1 v) = s.nodeWrite k lv ix ∧ s.tbOpWrite rq k (tbOpWord 2 v) = s.nodeUpdate k lv ix ∧
      s.tbOpWrite rq k (tbOpWord 3 v) = s.nodeRemove k lv ix ∧ s.tbOpWrite rq k (tbOpWord 4 v) = s.nodeRead k lv ix := by
  refine ⟨?_, ?_, ?_, ?_⟩
  all_goals
    simp only [State.tbOpWrite, hk, tbOpWord_level, tbOpWord_index, hl, hi, h0, decide_false, Bool.not_true, Bool.or_self,
      Bool.false_eq_true, if_false, tbOpWord_op (show 1 < 8 by decide), tbOpWord_op (show 2 < 8 by decide),
      tbOpWord_op (show 3 < 8 by decide), tbOpWord_op (show 4 < 8 by decide), Nat.not_le_of_lt hm]
    rfl

theorem State.nodeWrite_malformed (h : nodeOf lv (s.tbStaged k) = none) : s.nodeWrite k lv ix = s.tbStatus k 1 := by
  simp only [State.nodeWrite, h]

theorem State.nodeWrite_made (h : nodeOf lv (s.tbStaged k) = some n) (hp : s.parentOk k n = true) (hq : s.nodeQuota k ix n = true)
    (hb : s.nodeBusy k lv ix = false) : s.nodeWrite k lv ix = (s.setNode k lv ix { n with last := s.tick }).tbStatus k 0 := by
  simp only [State.nodeWrite, h, hp, hq, hb, Bool.not_true, Bool.false_eq_true, if_false]

theorem State.nodeUpdate_made (ho : s.node k lv ix = some o) (h : nodeOf lv (s.tbStaged k) = some n) (hprec : n.prec = o.prec)
    (hpar : n.parent = o.parent) (hp : s.parentOk k n = true) (hq : s.nodeQuota k ix n = true) :
    s.nodeUpdate k lv ix = (s.setNode k lv ix (o.update n s.tick)).tbStatus k 0 := by
  simp only [State.nodeUpdate, ho, h, hprec, hpar, hp, hq, ne_eq, not_true_eq_false, Bool.not_true, Bool.false_eq_true, or_self, if_false]

/-- The operations on a node that is not there. -/
theorem State.nodeOps_none (h : s.node k lv ix = none) :
    s.nodeUpdate k lv ix = s.tbStatus k 4 ∧ s.nodeRemove k lv ix = s.tbStatus k 4 ∧ s.nodeRead k lv ix = s.tbStatus k 4 := by
  simp only [State.nodeUpdate, State.nodeRemove, State.nodeRead, h, Option.isNone_none, if_true, and_self]

theorem State.nodeRemove_busy (ho : s.node k lv ix = some o) (hb : s.nodeBusy k lv ix = true) : s.nodeRemove k lv ix = s.tbStatus k 5 := by
  simp only [State.nodeRemove, ho, Option.isNone_some, Bool.false_eq_true, if_false, hb, if_true]

theorem State.nodeRemove_done (ho : s.node k lv ix = some o) (hb : s.nodeBusy k lv ix = false) :
    s.nodeRemove k lv ix = (s.withEth { s.eth with nodes := drop s.eth.nodes (key3 k lv ix) }).tbStatus k 0 := by
  simp only [State.nodeRemove, ho, Option.isNone_some, Bool.false_eq_true, if_false, hb]
  rfl

end

/-! ### READ: the stage holds the node's bytes -/

/-- The little-endian bytes of the number that bytes spell are those bytes. -/
theorem leBytes_leNat (b : Bytes) : leBytes b.length (leNat b) = b := by
  induction b with
  | nil => rfl
  | cons x b ih =>
    have hx : x.toNat < 256 := x.isLt
    have hhead : BitVec.ofNat 8 (x.toNat + 256 * leNat b) = x := by
      apply BitVec.eq_of_toNat_eq
      rw [BitVec.toNat_ofNat]
      omega
    have htail : (x.toNat + 256 * leNat b) / 256 = leNat b := by omega
    rw [leNat, List.length_cons, leBytes, hhead, htail, ih]

theorem leNat_lt (b : Bytes) : leNat b < 256 ^ b.length := by
  induction b with
  | nil => decide
  | cons x b ih =>
    have hx : x.toNat < 256 := x.isLt
    rw [leNat, List.length_cons, Nat.pow_succ]
    omega

/-- A slice inside its bytes. -/
theorem slice_inside {b : Bytes} {o n : Nat} (h : o + n ≤ b.length) : slice b o n = (b.drop o).take n := by
  have hlen : ((b.drop o).take n).length = n := by rw [List.length_take, List.length_drop]; omega
  simp only [slice, hlen, Nat.sub_self, List.replicate_zero, List.append_nil]

/-- Eight bytes as a word and back. -/
theorem leBytes_word {b : Bytes} {o : Nat} (h : o + 8 ≤ b.length) :
    leBytes 8 (BitVec.ofNat 64 (leAt b o 8)).toNat = (b.drop o).take 8 := by
  have hlen : ((b.drop o).take 8).length = 8 := by rw [List.length_take, List.length_drop]; omega
  have hlt : leNat ((b.drop o).take 8) < 2 ^ 64 := lt_of_lt_of_eq (leNat_lt _) (by rw [hlen]; rfl)
  rw [leAt, slice_inside h, BitVec.toNat_ofNat, Nat.mod_eq_of_lt hlt]
  exact (congrArg (fun m => leBytes m (leNat ((b.drop o).take 8))) hlen.symm).trans (leBytes_leNat _)

/-- The words of a byte string, one after another. -/
theorem words_of_bytes (b : Bytes) (n : Nat) (h : 8 * n ≤ b.length) :
    ((List.range n).flatMap fun w => leBytes 8 (BitVec.ofNat 64 (leAt b (8 * w) 8)).toNat) = b.take (8 * n) := by
  induction n with
  | zero => rfl
  | succ n ih =>
    have hn : 8 * n + 8 ≤ b.length := by omega
    rw [List.range_succ, List.flatMap_append, ih (by omega), List.flatMap_singleton, leBytes_word hn, Nat.mul_succ, List.take_add]

section
variable (s : State) (r : Nat → Reg) (b : Bytes)

/-- A state with the words of a byte string written to the registers of a stage. -/
def State.staged (s : State) (r : Nat → Reg) (b : Bytes) (n : Nat) : State :=
  forNat n s fun s w => s.wr (r w) (BitVec.ofNat 64 (leAt b (8 * w) 8))

theorem State.staged_succ (n : Nat) :
    s.staged r b (n + 1) = (s.staged r b n).wr (r n) (BitVec.ofNat 64 (leAt b (8 * n) 8)) := by
  rw [State.staged, forNat, List.range_succ, List.foldl_append]
  rfl

theorem State.staged_rd (hr : Function.Injective r) {n w : Nat} (h : w < n) :
    (s.staged r b n).rd (r w) = BitVec.ofNat 64 (leAt b (8 * w) 8) := by
  induction n with
  | zero => exact absurd h (Nat.not_lt_zero w)
  | succ n ih =>
    rw [State.staged_succ]
    by_cases hw : w = n
    · rw [hw, State.rd_wr_same]
    · rw [State.rd_wr_ne _ _ fun he => hw (hr he)]
      exact ih (by omega)

theorem State.staged_eth (n : Nat) : (s.staged r b n).eth = s.eth :=
  foldl_keeps (fun t : State => t.eth) (fun _ _ => State.wr_eth _ _ _) _ s

theorem State.staged_carter (n : Nat) : (s.staged r b n).carter = s.carter :=
  foldl_keeps (fun t : State => t.carter) (fun _ _ => State.wr_carter _ _ _) _ s

theorem State.staged_home (n : Nat) : (s.staged r b n).home = s.home :=
  foldl_keeps (fun t : State => t.home) (fun _ _ => State.wr_home _ _ _) _ s

/-- The words of a stage, read from a state that reads its registers as they were written, are the first bytes. -/
theorem State.staged_words {t : State} (hr : Function.Injective r) {m n : Nat} (hm : m ≤ n) (hb : 8 * m ≤ b.length)
    (ht : ∀ w, t.rd (r w) = (s.staged r b n).rd (r w)) :
    ((List.range m).flatMap fun w => leBytes 8 (t.rd (r w)).toNat) = b.take (8 * m) := by
  rw [← words_of_bytes b m hb]
  refine List.flatMap_congr fun w hw => ?_
  rw [ht, State.staged_rd _ _ _ hr (Nat.lt_of_lt_of_le (List.mem_range.1 hw) hm)]

end

/-- The words of a Tollbooth's stage. -/
def tbStageReg (k w : Nat) : Reg := ⟨.tbStage, k, w⟩

theorem tbStageReg_injective (k : Nat) : Function.Injective (tbStageReg k) := fun _ _ h => congrArg Reg.j h

section
variable (s : State) (k : Nat) (b : Bytes)

/-- Sixteen words of 128 bytes are the bytes. -/
theorem State.staged_bytes (h : b.length = 128) : ((s.staged (tbStageReg k) b 16).tbStatus k 0).tbStaged k = b := by
  have hwords : ((s.staged (tbStageReg k) b 16).tbStatus k 0).tbStaged k = b.take (8 * 16) :=
    State.staged_words _ _ _ (tbStageReg_injective k) (Nat.le_refl 16) (by omega) fun w =>
      State.rd_fset_ne _ _ _ (by simp [tbStageReg])
  rw [hwords, List.take_of_length_le (by omega)]

theorem length_intBytes (n : Int) : (intBytes n).length = 8 := length_leBytes _ _

/-- A node's record has 128 bytes. -/
theorem State.length_nodeBytes (i : Nat) (n : TbNode) : (s.nodeBytes k i n).length = 128 := by
  delta State.nodeBytes
  simp only [List.length_append, length_leBytes, length_intBytes]

theorem State.nodeRead_some {lv ix : Nat} {o : TbNode} (h : s.node k lv ix = some o) : s.nodeRead k lv ix =
    ((s.setNode k lv ix (o.at_ s.tick)).staged (tbStageReg k) ((s.setNode k lv ix (o.at_ s.tick)).nodeBytes k ix (o.at_ s.tick)) 16).tbStatus k 0 := by
  simp only [State.nodeRead, h]
  rfl

end

/-! ### Transmit rings -/

section
variable {s u : State} {r st : Nat} {x : Ring} {far : List FarAns} {d e : Bytes} {p : Bool}

theorem execTxEntryFetch_none (h : s.ring r = none) : exec (.txEntryFetch r far) s = .next s := by
  show execTxEntryFetch r far s = _
  simp only [execTxEntryFetch, h, done]

/-- A ring whose next entry can be read now: entries stand in it, its Tollbooth works and its function is there. -/
def State.TxReady (s : State) (x : Ring) : Prop :=
  x.tx = true ∧ x.cons < x.prod ∧ s.stallFenced (soleStall (x.target / 2 ^ 18 % 4) 8) = false ∧ s.ringsPaused x.func = false ∧
    (s.func x.func).driverLost = false

/-- An entry that is read is on its way to its queue, and one that cannot be sent ends with its status. -/
theorem execTxEntryFetch_ready (hx : s.ring r = some x) (h : s.TxReady x) :
    ((txBody (x.target / 2 ^ 18 % 4) (s.fget (ethPortCfg (x.target / 2 ^ 18 % 4)) F.ethPortCfg_MAX_FRAME) x).at s far =
        (u, .ok (.ok (d, p, e))) →
      exec (.txEntryFetch r far) s = .next ((u.setRing r { x with cons := x.cons + 1 }).toTollbooth x.target {
        data := d, de := nbit (leAt e 0x0A 2) 1, poison := p, ring := some (r, x.cons), tsReq := nbit (leAt e 0x0A 2) 0 }).1) ∧
    ((txBody (x.target / 2 ^ 18 % 4) (s.fget (ethPortCfg (x.target / 2 ^ 18 % 4)) F.ethPortCfg_MAX_FRAME) x).at s far =
        (u, .ok (.error st)) →
      exec (.txEntryFetch r far) s =
        .next ((u.setRing r { x with cons := x.cons + 1 }).txEnd (x.target / 2 ^ 18 % 4) (some (r, x.cons)) st 0)) := by
  obtain ⟨htx, hc, hf, hp, hl⟩ := h
  have hready : ¬ (!x.tx || decide (x.prod ≤ x.cons) || s.stallFenced (soleStall (x.target / 2 ^ 18 % 4) 8) || s.ringsPaused x.func ||
      (s.func x.func).driverLost) = true := by
    rw [htx, decide_eq_false (Nat.not_le_of_lt hc), hf, hp, hl]
    decide
  refine ⟨fun hb => ?_, fun hb => ?_⟩
  all_goals
    show execTxEntryFetch r far s = _
    simp only [execTxEntryFetch, hx, if_neg hready, hb, done]

end

/-! ### The choice at a node (R380, R381) -/

/-- The node of least start tag, the first of equal ones. -/
def leastTag (l : List (Nat × TbNode)) : Option (Nat × TbNode) :=
  l.foldl (fun m c => match m with | none => some c | some b => if c.2.s < b.2.s then some c else m) none

/-- Behind a node at hand, the least of it and a list is one of them, and none has a smaller tag. -/
theorem leastTag_from (l : List (Nat × TbNode)) : ∀ b : Nat × TbNode, ∃ c,
    l.foldl (fun m c => match m with | none => some c | some b => if c.2.s < b.2.s then some c else m) (some b) = some c ∧
      (c = b ∨ c ∈ l) ∧ c.2.s ≤ b.2.s ∧ ∀ x ∈ l, c.2.s ≤ x.2.s := by
  induction l with
  | nil => exact fun b => ⟨b, rfl, .inl rfl, Nat.le_refl _, nofun⟩
  | cons x l ih =>
    intro b
    by_cases hx : x.2.s < b.2.s
    · obtain ⟨c, hc, hmem, hle, hall⟩ := ih x
      refine ⟨c, ?_, .inr (hmem.elim (fun h => h ▸ List.mem_cons_self) (List.mem_cons_of_mem _)), by omega,
        List.forall_mem_cons.2 ⟨hle, hall⟩⟩
      rw [List.foldl_cons]
      simp only [if_pos hx, hc]
    · obtain ⟨c, hc, hmem, hle, hall⟩ := ih b
      refine ⟨c, ?_, hmem.imp_right (List.mem_cons_of_mem _), hle, List.forall_mem_cons.2 ⟨by omega, hall⟩⟩
      rw [List.foldl_cons]
      simp only [if_neg hx, hc]

/-- The node of least tag is of its list and has no larger tag than any; an empty list has none. -/
theorem leastTag_some {l : List (Nat × TbNode)} {c : Nat × TbNode} (h : leastTag l = some c) : c ∈ l ∧ ∀ x ∈ l, c.2.s ≤ x.2.s := by
  cases l with
  | nil => cases h
  | cons b l =>
    obtain ⟨d, hd, hmem, hle, hall⟩ := leastTag_from l b
    obtain rfl : d = c := Option.some.inj (hd.symm.trans h)
    exact ⟨hmem.elim (fun h => h ▸ List.mem_cons_self) (List.mem_cons_of_mem _), List.forall_mem_cons.2 ⟨hle, hall⟩⟩

theorem leastTag_none {l : List (Nat × TbNode)} (h : leastTag l = none) : l = [] := by
  cases l with
  | nil => rfl
  | cons b l =>
    obtain ⟨d, hd, -⟩ := leastTag_from l b
    exact absurd (hd.symm.trans h) (by simp)

section
variable (s : State) (q level i : Nat)

/-- The eligible children of a node. -/
def State.eligibleChildren (s : State) (q level i : Nat) : List (Nat × TbNode) :=
  (s.children q level i).filter fun c => s.nodeEligible q (level + 1) c.1

theorem State.mem_eligibleChildren {x : Nat × TbNode} :
    x ∈ s.eligibleChildren q level i ↔ x ∈ s.children q level i ∧ s.nodeEligible q (level + 1) x.1 = true := List.mem_filter

theorem State.choose_eq : s.choose q level i =
    match leastTag ((s.eligibleChildren q level i).filter fun c => c.2.committed s.tick) with
    | some c => some (c.1, true)
    | none => (leastTag (s.eligibleChildren q level i)).map fun c => (c.1, false) := rfl

/-- The chosen child is eligible, of the committed tier where any eligible one is, and of least start tag in its tier. -/
theorem State.choose_least {c : Nat} {tier : Bool} (h : s.choose q level i = some (c, tier)) :
    ∃ n, (c, n) ∈ s.children q level i ∧ s.nodeEligible q (level + 1) c = true ∧ n.committed s.tick = tier ∧
      ∀ x ∈ s.children q level i, s.nodeEligible q (level + 1) x.1 = true →
        (tier = false → x.2.committed s.tick = false) ∧ (x.2.committed s.tick = tier → n.s ≤ x.2.s) := by
  rw [State.choose_eq] at h
  split at h
  · next b hb =>
    obtain ⟨hmem, hall⟩ := leastTag_some hb
    obtain ⟨hel, hcom⟩ := List.mem_filter.1 hmem
    obtain ⟨hchild, helig⟩ := (s.mem_eligibleChildren q level i).1 hel
    cases h
    exact ⟨b.2, hchild, helig, hcom, fun x hx he => ⟨nofun, fun hc =>
      hall x (List.mem_filter.2 ⟨(s.mem_eligibleChildren q level i).2 ⟨hx, he⟩, hc⟩)⟩⟩
  · next hnone =>
    obtain ⟨b, hb, he⟩ := Option.map_eq_some_iff.1 h
    have hexcess : ∀ x ∈ s.eligibleChildren q level i, x.2.committed s.tick = false := fun x hx =>
      Bool.eq_false_iff.2 fun hc => List.not_mem_nil (leastTag_none hnone ▸ List.mem_filter.2 ⟨hx, hc⟩)
    obtain ⟨hmem, hall⟩ := leastTag_some hb
    obtain ⟨hchild, helig⟩ := (s.mem_eligibleChildren q level i).1 hmem
    cases he
    exact ⟨b.2, hchild, helig, hexcess b hmem, fun x hx he =>
      ⟨fun _ => hexcess x ((s.mem_eligibleChildren q level i).2 ⟨hx, he⟩), fun _ => hall x ((s.mem_eligibleChildren q level i).2 ⟨hx, he⟩)⟩⟩

end

/-- READ gives the node as it stands now and puts its record into the stage. -/
theorem State.tbRead_done {s : State} {rq : Requester} {q : Qn} {v : W64} {o : TbNode} (hk : rqKernel rq = true)
    (h0 : bitsOf v F.tbOp_LEVEL ≠ 0) (hm : bitsOf v F.tbOp_INDEX < nodeMax (bitsOf v F.tbOp_LEVEL))
    (ho : s.node q.val (bitsOf v F.tbOp_LEVEL) (bitsOf v F.tbOp_INDEX) = some o) :
    Completes (exec (.tbRead rq q v) s) fun t => t.fget (tbOpReg q.val) F.tbOp_STATUS = 0 ∧
      t.node q.val (bitsOf v F.tbOp_LEVEL) (bitsOf v F.tbOp_INDEX) = some (o.at_ s.tick) ∧
      t.tbStaged q.val = (s.setNode q.val (bitsOf v F.tbOp_LEVEL) (bitsOf v F.tbOp_INDEX) (o.at_ s.tick)).nodeBytes q.val
        (bitsOf v F.tbOp_INDEX) (o.at_ s.tick) ∧ s.memSame t := by
  refine ⟨_, congrArg Host.Outcome.next ((State.tbOpWrite_rows hk rfl rfl h0 hm).2.2.2.trans (s.nodeRead_some q.val ho)), ?_, ?_, ?_,
    State.memSame_of_mem (congrArg _ ((State.fset_home ..).trans (State.staged_home ..)))⟩
  · exact (State.fget_fset_same _ _ (by decide)).trans rfl
  · exact (State.node_of_eth _ _ _ ((State.tbStatus_eth ..).trans (State.staged_eth ..))).trans (State.node_setNode ..)
  · exact State.staged_bytes _ _ _ (State.length_nodeBytes _ _ _ _)

/-- Settles O43: each row from the lemma of its branch, and the choice from `State.choose_least`. -/
theorem tollbooth : Obligations.Tollbooth := by
  refine ⟨?_, fun s q level i c tier h => s.choose_least q level i h⟩
  intro s u rq q sub v qu i r slot st far f toTb pa l rest n o x d e p k op t8 j w lv ix ok kq done
  refine ⟨State.tbEnqueued, execTbEnqueue_fenced, execTbEnqueue_none,
    fun hu hw hf => ⟨State.tbSelected hu hw hf, fun hp hh => ?_⟩, fun hu => if_neg fun h => Bool.noConfusion (hu.symm.trans h.1),
    execTbFrameSent_sent, rfl, State.tbNodeWoken, execTbNodeWake_idle, ?_, ?_, ?_, ?_, ?_, ?_,
    fun ⟨hk, h0, hm⟩ ho => State.tbRead_done hk h0 hm ho,
    fun h => ⟨congrArg Host.Outcome.next (State.tbOpWrite_stray h 1), congrArg Host.Outcome.next (State.tbOpWrite_stray h 2),
      congrArg Host.Outcome.next (State.tbOpWrite_stray h 3), congrArg Host.Outcome.next (State.tbOpWrite_stray h 4)⟩,
    fun hx ht hc hf hp hl => execTxEntryFetch_ready hx ⟨ht, hc, hf, hp, hl⟩, execTxEntryFetch_none⟩
  · exact (execTbSelect_ready hu hw hf).trans (congrArg Host.Outcome.next (State.select_none hp hh))
  · exact fun ⟨hk, h0, hm⟩ hn hp hq hb => State.tbDone_set
      (congrArg Host.Outcome.next ((State.tbOpWrite_rows hk rfl rfl h0 hm).1.trans (State.nodeWrite_made hn hp hq hb)))
  · exact fun ⟨hk, h0, hm⟩ hn => State.tbDone_same (by decide)
      (congrArg Host.Outcome.next ((State.tbOpWrite_rows hk rfl rfl h0 hm).1.trans (State.nodeWrite_malformed hn)))
  · exact fun ⟨hk, h0, hm⟩ ho hn hprec hpar hp hq => State.tbDone_set
      (congrArg Host.Outcome.next ((State.tbOpWrite_rows hk rfl rfl h0 hm).2.1.trans (State.nodeUpdate_made ho hn hprec hpar hp hq)))
  · refine fun ⟨hk, h0, hm⟩ ho => ?_
    obtain ⟨hupdate, hremove, hread⟩ := State.nodeOps_none ho
    obtain ⟨-, rowUpdate, rowRemove, rowRead⟩ := State.tbOpWrite_rows (s := s) (k := k) hk rfl rfl h0 hm
    have hsame : ∀ c, c = .next (s.tbStatus k 4) → done c 4 none := fun c hc => ho ▸ State.tbDone_same (by decide) hc
    exact ⟨hsame _ (congrArg Host.Outcome.next (rowUpdate.trans hupdate)), hsame _ (congrArg Host.Outcome.next (rowRemove.trans hremove)),
      hsame _ (congrArg Host.Outcome.next (rowRead.trans hread))⟩
  · exact fun ⟨hk, h0, hm⟩ ho hb => State.tbDone_eth _ (by decide)
      (congrArg Host.Outcome.next ((State.tbOpWrite_rows hk rfl rfl h0 hm).2.2.1.trans (State.nodeRemove_done ho hb))) (look_drop_same _ _)
  · refine fun ⟨hk, h0, hm⟩ ho hb => ?_
    have hsame := State.tbDone_same (s := s) (k := k) (lv := lv) (ix := ix) (by decide)
      (congrArg Host.Outcome.next ((State.tbOpWrite_rows hk rfl rfl h0 hm).2.2.1.trans (State.nodeRemove_busy ho hb)))
    rw [ho] at hsame
    exact hsame

end Sys2Proof.Machine
end

