-- ==== Sys2Proof/Proofs/CarterRows.lean ====
section
/-!
SUPPORT. The Carters, first part (R391–R410): the operations of CARTER_OP, doorbells and timers.
-/
namespace Sys2Proof.Machine

/-! ### The operation word -/

/-- The operation register of a Carter. -/
def carterOpReg (k : Nat) : Reg := ⟨.carterOp, k, 0⟩

section
variable {s : State} {rq : Requester} {k i : Nat} {v : W64}

theorem carterOpWord_op {n : Nat} (hn : n < 16) : bitsOf (carterOpWord n v) F.carterOp_OP = n :=
  (bitsOf_setBits_same _ _ (by decide)).trans (Nat.mod_eq_of_lt hn)

theorem carterOpWord_index (n : Nat) : bitsOf (carterOpWord n v) F.carterOp_INDEX = bitsOf v F.carterOp_INDEX :=
  bitsOf_setBits_apart _ _ (by decide)

/-- An operation ends with its STATUS. -/
def State.carterFin (k : Nat) (x : State × Nat) : State := x.1.fset (carterOpReg k) F.carterOp_STATUS x.2

/-- Each operation of the word goes to its row. -/
theorem State.carterOpWrite_row (hk : rqKernel rq = true) {n : Nat} (hn : n < 16) :
    s.carterOpWrite rq k (carterOpWord n v) = match (generalizing := false) n with
      | 1 => State.carterFin k (s.connWrite k (bitsOf v F.carterOp_INDEX) (s.carterStaged k 16) none)
      | 2 => State.carterFin k (s.connUpdate (bitsOf v F.carterOp_INDEX) (s.carterStaged k 16))
      | 3 => State.carterFin k (s.connRead k (bitsOf v F.carterOp_INDEX))
      | 4 => State.carterFin k (s.connConnect (bitsOf v F.carterOp_INDEX))
      | 5 => State.carterFin k (s.connReset (bitsOf v F.carterOp_INDEX))
      | 6 => State.carterFin k (s.connFail (bitsOf v F.carterOp_INDEX))
      | 7 => State.carterFin k (s.regionWrite (bitsOf v F.carterOp_INDEX) (s.carterStaged k 4))
      | 8 => State.carterFin k (s.regionInval (bitsOf v F.carterOp_INDEX))
      | _ => s.refuse rq (carterOpReg k) := by
  simp only [State.carterOpWrite, hk, Bool.not_true, Bool.false_eq_true, if_false, carterOpWord_op hn, carterOpWord_index] <;> rfl

/-! ### What an operation leaves -/

/-- An operation gives a STATUS and leaves the Carters so; no other register and no memory changes. -/
def CarterGives (s : State) (k : Nat) (o : Host.Outcome State Fault Refusal) (st : Nat) (x : CarterSt) : Prop :=
  Completes o fun t => t.fget (carterOpReg k) F.carterOp_STATUS = st ∧ t.carter = x ∧ s.regsBut t [carterOpReg k] ∧ s.memSame t

/-- A state with another Carter part. -/
def State.withCarter (s : State) (x : CarterSt) : State := { s with carter := x }

theorem State.carterGives_carter (x : CarterSt) {o : Host.Outcome State Fault Refusal} {st : Nat} (hst : st < 8)
    (ho : o = .next (State.carterFin k (s.withCarter x, st))) : CarterGives s k o st x := by
  have hhome : (State.carterFin k (s.withCarter x, st)).home = s.home := State.fset_home ..
  exact ⟨_, ho, (State.fget_fset_same _ _ (by decide)).trans (Nat.mod_eq_of_lt (Nat.lt_of_lt_of_le hst (by decide))), State.fset_carter ..,
    fun _ hr => State.rd_fset_ne (s.withCarter x) _ _ (by simpa using hr), State.memSame_of_mem (congrArg _ hhome)⟩

/-- The Carters with one context, or one region, replaced. -/
def CarterSt.setCtx (x : CarterSt) (i : Nat) (c : CarterCtx) : CarterSt := { x with ctxs := put x.ctxs i c }

def CarterSt.setReg (x : CarterSt) (i : Nat) (r : Region) : CarterSt := { x with regions := put x.regions i r }

/-! ### Contexts -/

section
variable {q : Qn} {b g : Bytes} {f : Option Nat} {c : CarterCtx}

/-- WRITE of a free context by its outcome. -/
theorem State.connWrite_eq (s : State) (k i : Nat) (b : Bytes) (f : Option Nat) : s.connWrite k i b f =
    if (s.conn i).state ≠ 0 then (s, 5)
    else if !s.ctxCfgOk k (overlay (overlay b 4 [0, 0]) 0x69 [0]) then (s, 1)
    else if s.connPool (leAt (overlay (overlay b 4 [0, 0]) 0x69 [0]) 2 1) ≤ s.connCount (leAt (overlay (overlay b 4 [0, 0]) 0x69 [0]) 2 1)
      then (s, 3)
    else (s.setConn i { cfg := overlay (overlay b 4 [0, 0]) 0x69 [0], state := 1, epoch := (s.conn i).epoch, stall := k, func := f }, 0) :=
  rfl

/-- UPDATE of a context in use with fields in range. -/
theorem State.connUpdate_taken (hs : (s.conn i).state ≠ 0) (hr : leAt g 0x60 4 ≤ 1600000) (hw : 8 ≤ leAt g 0x64 2)
    (hmin : 1 ≤ leAt g 0x3B 1) (hmax : leAt g 0x3B 1 ≤ 15) (hd : leAt g 0x3A 1 < 64) : s.connUpdate i g =
      (s.setConn i { s.conn i with
        cfg := overlay (overlay (overlay (s.conn i).cfg 0x3A (slice g 0x3A 2)) 0x60 (slice g 0x60 4)) 0x64 (slice g 0x64 2) }, 0) := by
  have hok : ¬ (1600000 < leAt g 0x60 4 ∨ leAt g 0x64 2 < 8 ∨ leAt g 0x3B 1 = 0 ∨ 15 < leAt g 0x3B 1 ∨ 64 ≤ leAt g 0x3A 1) := by omega
  simp only [State.connUpdate, if_neg hs, if_neg hok]

theorem State.connFail_up (hs : (s.conn i).state = 2 ∨ (s.conn i).state = 3) : s.connFail i = (s.connError i 0x44 none, 0) :=
  if_neg fun h => hs.elim h.1 h.2

theorem State.connFail_other (h2 : (s.conn i).state ≠ 2) (h3 : (s.conn i).state ≠ 3) : s.connFail i = (s, 5) := if_pos ⟨h2, h3⟩

/-- CONNECT of an idle context sends its HELLO. -/
theorem State.connConnect_idle (hs : (s.conn i).state = 1) : s.connConnect i = (((s.useFresh 1).setConn i { s.conn i with
        state := 2
        errCode := 0
        initPsn := Config.freeNat s.fresh % (s.conn i).psnMod
        nextPsn := Config.freeNat s.fresh % (s.conn i).psnMod
        peer := none
        acked := false }).sendHello i 0x20, 0) := by
  simp only [State.connConnect, hs, ne_eq, not_true_eq_false, if_false]

theorem State.connReset_eq (s : State) (i : Nat) : s.connReset i =
    if (s.conn i).state = 4 then (s.setConn i {
        cfg := (s.conn i).cfg
        state := 1
        epoch := ((s.conn i).epoch + 1) % 2 ^ 16
        stall := (s.conn i).stall
        func := (s.conn i).func }, 0)
    else if (s.conn i).state = 1 then (s.setConn i { epoch := ((s.conn i).epoch + 1) % 2 ^ 16 }, 0)
    else (s, 5) := rfl

end

/-! ### Regions -/

section
variable {r : Bytes}

theorem State.regionWrite_taken (hmin : 1 ≤ leAt r 8 8) (hmax : leAt r 8 8 ≤ 2 ^ 48) (ha : leAt r 0x10 2 < 4096)
    (hacc : leAt r 0x12 1 / 16 % 8 = 0) (h13 : leAt r 0x13 1 = 0) (hz : allZero (slice r 0x16 10) = true) : s.regionWrite i r =
      (s.setRegion i { base := leAt r 0 8, length := leAt r 8 8, asid := leAt r 0x10 2, access := leAt r 0x12 1, gen := (s.region i).gen },
        0) := by
  have hok : ¬ (leAt r 8 8 = 0 ∨ 2 ^ 48 < leAt r 8 8 ∨ 4096 ≤ leAt r 0x10 2 ∨ leAt r 0x12 1 / 16 % 8 ≠ 0 ∨ leAt r 0x13 1 ≠ 0 ∨
      (!allZero (slice r 0x16 10)) = true) := by
    rw [hz, h13, hacc]
    simp only [ne_eq, not_true_eq_false, Bool.not_true, Bool.false_eq_true, or_false]
    omega
  exact if_neg hok

theorem State.regionWrite_malformed (h : leAt r 8 8 = 0 ∨ 2 ^ 48 < leAt r 8 8 ∨ 4096 ≤ leAt r 0x10 2) : s.regionWrite i r = (s, 1) :=
  if_pos (h.imp_right fun h => h.imp_right .inl)

end

/-! ### READ -/

theorem length_slice (b : Bytes) (o n : Nat) : (slice b o n).length = n := by
  have hle : ((b.drop o).take n).length ≤ n := List.length_take_le _ _
  simp only [slice, List.length_append, List.length_replicate]
  omega

/-- Bytes laid over others inside them leave their number. -/
theorem length_overlay {b v : Bytes} {o : Nat} (h : o + v.length ≤ b.length) : (overlay b o v).length = b.length := by
  simp only [overlay, List.length_append, List.length_take, List.length_drop]
  omega

/-- The words of a Carter's stage. -/
def carterStageReg (k w : Nat) : Reg := ⟨.carterStage, k, w⟩

theorem carterStageReg_injective (k : Nat) : Function.Injective (carterStageReg k) := fun _ _ h => congrArg Reg.j h

/-- The first 128 bytes of the record of a context. -/
def CarterCtx.record (c : CarterCtx) : Bytes :=
  overlay (overlay (overlay (slice c.cfg 0 128) 0 [BitVec.ofNat 8 c.state]) 4 (leBytes 2 c.epoch)) 0x69 [BitVec.ofNat 8 c.errCode]

theorem CarterCtx.length_record (c : CarterCtx) : c.record.length = 128 := by
  have h0 : (slice c.cfg 0 128).length = 128 := length_slice _ _ _
  have h1 : (overlay (slice c.cfg 0 128) 0 [BitVec.ofNat 8 c.state]).length = 128 :=
    (length_overlay (by rw [h0]; simp)).trans h0
  have h2 : (overlay (overlay (slice c.cfg 0 128) 0 [BitVec.ofNat 8 c.state]) 4 (leBytes 2 c.epoch)).length = 128 :=
    (length_overlay (by rw [h1, length_leBytes]; decide)).trans h1
  exact (length_overlay (by rw [h2]; simp)).trans h2

/-- A context's record with the free bytes of its state area. -/
def State.ctxRecord (s : State) (i : Nat) : Bytes := (s.conn i).record ++ s.freeBytes 128

theorem State.connRead_eq (s : State) (k i : Nat) : s.connRead k i = ((s.useFresh 128).staged (carterStageReg k) (s.ctxRecord i) 32, 0) := rfl

/-- READ puts the record of the context into the stage. -/
theorem State.connRead_done (s : State) (k i : Nat) {o : Host.Outcome State Fault Refusal}
    (ho : o = .next (State.carterFin k (s.connRead k i))) : Completes o fun t => t.fget (carterOpReg k) F.carterOp_STATUS = 0 ∧
      t.carter = s.carter ∧ s.memSame t ∧ t.carterStaged k 16 = (s.conn i).record := by
  have hlen : 8 * 16 ≤ (s.ctxRecord i).length := by
    rw [State.ctxRecord, List.length_append, CarterCtx.length_record]
    exact Nat.le_add_right _ _
  rw [State.connRead_eq] at ho
  have hhome : (State.carterFin k ((s.useFresh 128).staged (carterStageReg k) (s.ctxRecord i) 32, 0)).home = s.home :=
    (State.fset_home ..).trans ((State.staged_home ..).trans (State.useFresh_home ..))
  refine ⟨_, ho, (State.fget_fset_same _ _ (by decide)).trans rfl,
    (State.fset_carter ..).trans ((State.staged_carter ..).trans (State.useFresh_carter ..)), State.memSame_of_mem (congrArg _ hhome), ?_⟩
  refine (State.staged_words _ _ _ (carterStageReg_injective k) (by decide : 16 ≤ 32) hlen fun w =>
    State.rd_fset_ne _ _ _ (by simp [carterStageReg, carterOpReg])).trans ?_
  rw [State.ctxRecord, List.take_append_of_le_length (by rw [CarterCtx.length_record]), List.take_of_length_le (by rw [CarterCtx.length_record])]

end

/-! ### Doorbells -/

section
variable {s : State} {f : FuncNo} {slot m w : Nat} {v : W64} {rq : Requester} {q : Qn}

theorem State.sqBell_used (h : (s.conn m).state ≠ 0) : s.sqBell m w false =
    s.setConn m { s.conn m with sqProd := advanceTo (s.conn m).sqProd (s.conn m).sqLog (w % 2 ^ (s.conn m).sqLog) } := by
  simp only [State.sqBell, if_neg h, Bool.false_eq_true, false_and, if_false]

theorem State.rqBell_used (h : (s.conn m).state ≠ 0) (h4 : (s.conn m).state ≠ 4) (hl : (s.conn m).rqLog ≠ 0) : s.rqBell m w =
    s.setConn m { s.conn m with rqProd := advanceTo (s.conn m).rqProd (s.conn m).rqLog (w % 2 ^ (s.conn m).rqLog) } := by
  simp only [State.rqBell, h, h4, hl, or_self, if_false]

theorem State.cqBell_used (h : (s.conn m).state ≠ 0) : s.cqBell m w = s.setConn m { s.conn m with
    cqCons := min (s.conn m).cqProd (advanceTo (s.conn m).cqCons (s.conn m).cqLog (w % 2 ^ (s.conn m).cqLog)) } := if_neg h

theorem execCarterSqDoorbell_bound (h : s.slotOf f.val slot = some (.carterSq m)) :
    exec (.carterSqDoorbell (.slot f slot v)) s = .next (s.sqBell m (v.toNat % 2 ^ 16) false) := by
  show execCarterSqDoorbell (.slot f slot v) s = _
  simp only [execCarterSqDoorbell, h, done]

theorem execCarterRqDoorbell_bound (h : s.slotOf f.val slot = some (.carterRq m)) :
    exec (.carterRqDoorbell (.slot f slot v)) s = .next (s.rqBell m (v.toNat % 2 ^ 16)) := by
  show execCarterRqDoorbell (.slot f slot v) s = _
  simp only [execCarterRqDoorbell, h, done]

theorem execCarterCqDoorbell_bound (h : s.slotOf f.val slot = some (.carterCq m)) :
    exec (.carterCqDoorbell (.slot f slot v)) s = .next (s.cqBell m (v.toNat % 2 ^ 16)) := by
  show execCarterCqDoorbell (.slot f slot v) s = _
  simp only [execCarterCqDoorbell, h, done]

/-- A slot bound to nothing counts a stray write. -/
theorem execCarterDoorbell_stray (h : s.slotOf f.val slot = none) :
    exec (.carterSqDoorbell (.slot f slot v)) s = .next (s.slotStray f.val) ∧
      exec (.carterRqDoorbell (.slot f slot v)) s = .next (s.slotStray f.val) ∧
      exec (.carterCqDoorbell (.slot f slot v)) s = .next (s.slotStray f.val) := by
  refine ⟨?_, ?_, ?_⟩
  · show execCarterSqDoorbell (.slot f slot v) s = _
    simp only [execCarterSqDoorbell, h, done]
  · show execCarterRqDoorbell (.slot f slot v) s = _
    simp only [execCarterRqDoorbell, h, done]
  · show execCarterCqDoorbell (.slot f slot v) s = _
    simp only [execCarterCqDoorbell, h, done]

/-- A kernel core's write of CARTER_DB to the completion queue. -/
theorem State.carterDbWrite_cq (hk : rqKernel rq = true) (k : Nat) :
    s.carterDbWrite rq k (setBits v F.carterDb_QUEUE 2) = s.cqBell (bitsOf v F.carterDb_CONN) (bitsOf v F.carterDb_INDEX) := by
  have hqueue : bitsOf (setBits v F.carterDb_QUEUE 2) F.carterDb_QUEUE = 2 := bitsOf_setBits_same _ _ (by decide)
  have hconn : bitsOf (setBits v F.carterDb_QUEUE 2) F.carterDb_CONN = bitsOf v F.carterDb_CONN := bitsOf_setBits_apart _ _ (by decide)
  have hindex : bitsOf (setBits v F.carterDb_QUEUE 2) F.carterDb_INDEX = bitsOf v F.carterDb_INDEX := bitsOf_setBits_apart _ _ (by decide)
  simp only [State.carterDbWrite, hk, Bool.not_true, Bool.false_eq_true, if_false, hqueue, hconn, hindex]

end

/-! ### Timers -/

section
variable {s : State} {n : ConnNo} {psn p0 : Nat} {x : TxPkt} {cs : Bool} {mine rest : List Bytes}

/-- A context is READY and its Carter works. -/
def State.ConnOn (s : State) (k : Nat) : Prop := (s.conn k).state = 3 ∧ s.carterOn (s.conn k).stall = true

theorem State.ConnOn.runs {k : Nat} (h : s.ConnOn k) : ¬ ((s.conn k).state ≠ 3 ∨ (!s.carterOn (s.conn k).stall) = true) := by
  rw [h.1, h.2]
  decide

theorem execCarterRto_none (h : (s.conn n.val).unacked.find? (fun t => t.psn = psn) = none) : exec (.carterRto n psn) s = .next s := by
  show execCarterRto n psn s = _
  simp only [execCarterRto, h, done]
  split <;> rfl

/-- A packet out of time is sent again, and its path counts a failure. -/
theorem execCarterRto_resend (hon : s.ConnOn n.val) (hst : (s.conn n.val).stalled = none)
    (hx : (s.conn n.val).unacked.find? (fun t => t.psn = psn) = some x) (hs : x.sacked = false) (hr : (s.conn n.val).isRoce = false) :
    exec (.carterRto n psn) s = .next ((s.setConn n.val { s.conn n.val with
      pathFails := put (s.conn n.val).pathFails x.first (lookD 0 (s.conn n.val).pathFails x.first + 1)
      pathDown := if 3 ≤ lookD 0 (s.conn n.val).pathFails x.first + 1 ∧ !(s.conn n.val).pathDown.contains x.first then
        x.first :: (s.conn n.val).pathDown else (s.conn n.val).pathDown }).resend n.val x true) := by
  have hrun : ¬ ((s.conn n.val).state ≠ 3 ∨ (s.conn n.val).stalled.isSome = true ∨ (!s.carterOn (s.conn n.val).stall) = true) := by
    rw [hon.1, hst, hon.2]
    decide
  have hroce : ∀ pf pd, ({ s.conn n.val with pathFails := pf, pathDown := pd } : CarterCtx).isRoce = false := fun _ _ => hr
  show execCarterRto n psn s = _
  simp only [execCarterRto, if_neg hrun, hx, hs, hroce, Bool.false_eq_true, if_false, done]

/-- A context after an acknowledgement timer's settling. -/
def State.settled (s : State) (k : Nat) : State := (s.settle k ((s.conn k).msgs.length + 1)).complete k

theorem execCarterAckTimer_off (h : (s.conn n.val).state ≠ 3) : exec (.carterAckTimer n) s = .next s := if_pos (.inl h)

theorem execCarterAckTimer_owed (hon : s.ConnOn n.val) (h : ((s.settled n.val).conn n.val).sinceAck ≠ 0) :
    exec (.carterAckTimer n) s = .next ((s.settled n.val).sendAck n.val 0 0 0) := by
  rw [State.settled] at h ⊢
  show execCarterAckTimer n s = _
  simp only [execCarterAckTimer, if_neg hon.runs, h, ne_eq, not_false_eq_true, true_or, if_true, done]

theorem execCarterAckTimer_settled (hon : s.ConnOn n.val) (h : ((s.settled n.val).conn n.val).sinceAck = 0)
    (hm : ((s.settled n.val).conn n.val).msnDone = (s.conn n.val).msnDone) :
    exec (.carterAckTimer n) s = .next (s.settled n.val) := by
  rw [State.settled] at h hm ⊢
  show execCarterAckTimer n s = _
  simp only [execCarterAckTimer, if_neg hon.runs, h, hm, ne_eq, not_true_eq_false, or_self, if_false, done]

theorem execCarterOndemandWithdraw_off (h : (s.conn n.val).state ≠ 3) : exec (.carterOndemandWithdraw n) s = .next s := if_pos (.inl h)

/-- A context's frames leave its stall's queue. -/
def State.framesGone (s : State) (k : Nat) (rest : List Bytes) : State :=
  s.withCarter { s.carter with rx := putD [] s.carter.rx k rest }

/-- The answer to one frame of a withdrawn page. -/
def retryAnswer (n : Nat) (s : State) (f : Bytes) : State :=
  match arrived f with
  | some a => s.sendAck n 1 (if a.roce then beAt a.body 9 3 else beAt a.body 0x0C 4) 100
  | none => s

/-- The packets of a withdrawn page are answered RETRY_AFTER. -/
theorem execCarterOndemandWithdraw_answers (hon : s.ConnOn n.val)
    (hl : splitConn n.val (lookD [] s.carter.rx (s.conn n.val).stall) = (mine, rest)) (hm : mine ≠ []) :
    exec (.carterOndemandWithdraw n) s = .next (mine.foldl (retryAnswer n.val) ((s.withdraw (s.conn n.val).stall (s.conn n.val).st (s.conn n.val).asid).framesGone (s.conn n.val).stall rest)) := by
  have hrun : ¬ ((s.conn n.val).state ≠ 3 ∨ mine.isEmpty = true ∨ (!s.carterOn (s.conn n.val).stall) = true) := by
    rw [hon.1, hon.2, List.isEmpty_iff]
    simpa using hm
  show execCarterOndemandWithdraw n s = _
  simp only [execCarterOndemandWithdraw, hl, if_neg hrun, done, State.framesGone, State.withCarter]
  refine congrArg Host.Outcome.next (congrArg (fun g => List.foldl g _ mine) (funext₂ fun _ _ => rfl))

theorem execCarterRetryAfterExpire_none (h : (s.conn n.val).stalled = none) : exec (.carterRetryAfterExpire n) s = .next s := by
  show execCarterRetryAfterExpire n s = _
  simp only [execCarterRetryAfterExpire, h, done]

/-- With nothing unacknowledged, what waits is sent. -/
theorem execCarterRetryAfterExpire_sends (hon : s.ConnOn n.val) (hst : (s.conn n.val).stalled = some (p0, cs))
    (hu : (s.conn n.val).unacked = []) : exec (.carterRetryAfterExpire n) s =
      .next ((s.setConn n.val { s.conn n.val with stalled := none }).sendMore n.val ((s.conn n.val).todoCount + 1)) := by
  show execCarterRetryAfterExpire n s = _
  simp only [execCarterRetryAfterExpire, hst, if_neg hon.runs, hu, List.filter_nil, List.foldl_nil, done]

end

/-! ### O44 -/

/-- Settles O44: each operation by its row and STATUS, each doorbell and each timer by its lemma. -/
theorem carterContexts : Obligations.CarterContexts := by
  unfold Obligations.CarterContexts
  constructor
  · intro s rq q v k op i c g b r a e psn gives set reg hk
    have keeps {st : Nat} (hst : st < 8) {o : Host.Outcome State Fault Refusal} (ho : o = .next (State.carterFin k (s, st))) :
        gives o st s.carter := State.carterGives_carter s.carter hst ho
    have row {n : Nat} (hn : n < 16) := State.carterOpWrite_row (s := s) (k := k) (v := v) hk hn
    have wr {o} (h : s.connWrite k i g none = o) : exec (.carterCtxWrite rq q v) s = .next (State.carterFin k o) :=
      congrArg Host.Outcome.next ((row (n := 1) (by decide)).trans (congrArg (State.carterFin k) h))
    have up {o} (h : s.connUpdate i g = o) : exec (.carterCtxUpdate rq q v) s = .next (State.carterFin k o) :=
      congrArg Host.Outcome.next ((row (n := 2) (by decide)).trans (congrArg (State.carterFin k) h))
    have conn {o} (h : s.connConnect i = o) : exec (.carterConnect (.reg rq q v)) s = .next (State.carterFin k o) :=
      congrArg Host.Outcome.next ((row (n := 4) (by decide)).trans (congrArg (State.carterFin k) h))
    have reset {o} (h : s.connReset i = o) : exec (.carterReset (.reg rq q v)) s = .next (State.carterFin k o) :=
      congrArg Host.Outcome.next ((row (n := 5) (by decide)).trans (congrArg (State.carterFin k) h))
    have fail {o} (h : s.connFail i = o) : exec (.carterFail rq q v) s = .next (State.carterFin k o) :=
      congrArg Host.Outcome.next ((row (n := 6) (by decide)).trans (congrArg (State.carterFin k) h))
    have rwr {o} (h : s.regionWrite i r = o) : exec (.carterRegionWrite rq q v) s = .next (State.carterFin k o) :=
      congrArg Host.Outcome.next ((row (n := 7) (by decide)).trans (congrArg (State.carterFin k) h))
    have inval {o} (h : s.regionInval i = o) : exec (.carterRegionInval (.reg rq q v)) s = .next (State.carterFin k o) :=
      congrArg Host.Outcome.next ((row (n := 8) (by decide)).trans (congrArg (State.carterFin k) h))
    refine ⟨fun hs hc hp => ?_, fun hs => keeps (by decide) (wr (if_pos hs)), fun hs hc => keeps (by decide) (wr ?_),
      fun hs hc hp => keeps (by decide) (wr ?_), fun hs hr hw hmin hmax hd => ?_, fun hs => keeps (by decide) (up (if_pos hs)), ?_,
      fun hs => fail (State.connFail_up hs), fun h2 h3 => keeps (by decide) (fail (State.connFail_other h2 h3)),
      fun hmin hmax ha hacc h13 hz => ?_, fun h => keeps (by decide) (rwr (State.regionWrite_malformed h)), fun h => ?_,
      fun h => keeps (by decide) (inval (if_neg (ne_true_of_eq_false h))),
      fun hs => conn (State.connConnect_idle hs), fun hs => keeps (by decide) (conn (if_pos hs)), fun hs => ?_,
      fun hs => ?_, fun h1 h4 => keeps (by decide) (reset ?_)⟩
    · refine State.carterGives_carter (s.carter.setCtx i { cfg := b, state := 1, epoch := c.epoch, stall := k, func := none })
        (by decide) (wr ?_)
      rw [State.connWrite_eq, if_neg (not_not_intro hs), hc, if_neg (by decide), if_neg (Nat.not_le.mpr hp)]
      rfl
    · rw [State.connWrite_eq, if_neg (not_not_intro hs), hc]
      rfl
    · rw [State.connWrite_eq, if_neg (not_not_intro hs), hc, if_neg (by decide), if_pos hp]
    · exact State.carterGives_carter (s.carter.setCtx i _) (by decide) (up (State.connUpdate_taken hs hr hw hmin hmax hd))
    · exact State.connRead_done s k i (congrArg Host.Outcome.next (row (n := 3) (by decide)))
    · exact State.carterGives_carter (s.carter.setReg i _) (by decide) (rwr (State.regionWrite_taken hmin hmax ha hacc h13 hz))
    · refine State.carterGives_carter (s.carter.setReg i { s.region i with
        access := clearBit (s.region i).access 7, gen := ((s.region i).gen + 1) % 4096 }) (by decide) (inval (if_pos h))
    · refine State.carterGives_carter (s.carter.setCtx i { cfg := c.cfg, state := 1, epoch := e, stall := c.stall, func := c.func })
        (by decide) (reset ?_)
      rw [State.connReset_eq, if_pos hs]
      rfl
    · refine State.carterGives_carter (s.carter.setCtx i { epoch := e }) (by decide) (reset ?_)
      rw [State.connReset_eq, if_neg (by rw [hs]; decide), if_pos hs]
      rfl
    · rw [State.connReset_eq, if_neg h4, if_neg h1]
  · intro s rq q v f slot m psn p0 cs n path x mine rest k c y w i z on fl c' u h
    refine ⟨fun hb hs => (execCarterSqDoorbell_bound hb).trans (congrArg Host.Outcome.next (State.sqBell_used hs)),
      fun hb h0 h4 hl => (execCarterRqDoorbell_bound hb).trans (congrArg Host.Outcome.next (State.rqBell_used h0 h4 hl)),
      fun hb hs => (execCarterCqDoorbell_bound hb).trans (congrArg Host.Outcome.next (State.cqBell_used hs)),
      execCarterDoorbell_stray,
      fun hk hs => congrArg Host.Outcome.next ((State.carterDbWrite_cq hk q.val).trans (State.cqBell_used hs)),
      fun hk => congrArg Host.Outcome.next (if_pos (congrArg (!·) hk)),
      fun hs hon => if_pos ⟨hs, hon⟩, fun hs => ⟨if_neg fun g => hs g.1, if_neg hs⟩, fun hs => if_pos hs,
      fun hon => execCarterRto_resend hon, execCarterRto_none, rfl, fun hon => execCarterAckTimer_owed hon,
      fun hon => execCarterAckTimer_settled hon, execCarterAckTimer_off, fun hon hl hm => ?_, execCarterOndemandWithdraw_off,
      fun hon => execCarterRetryAfterExpire_sends hon, execCarterRetryAfterExpire_none, fun hs => if_neg hs, fun hs => if_pos hs⟩
    refine (execCarterOndemandWithdraw_answers hon hl hm).trans (congrArg Host.Outcome.next ?_)
    exact congrArg (fun g => List.foldl g _ mine) (funext₂ fun _ _ => rfl)

end Sys2Proof.Machine
end

