-- ==== Sys2Proof/Proofs/CarterTraffic.lean ====
section
/-!
SUPPORT. The Carters, second part (R389–R406): the orders of a send queue, triggers, and arriving packets.
-/
namespace Sys2Proof.Machine

/-! ### Orders -/

section
variable {s u w : State} {k : Nat} {hit : Bytes → Bool} {far far' : List FarAns} {d : Bytes} {o : COrder}

/-- An order joins the orders of its context, whose queue goes on. -/
def State.addOrder (s : State) (k i : Nat) (o : COrder) : State :=
  s.setConn k { s.conn k with sqCons := i + 1, orders := (s.conn k).orders ++ [o] }

/-- The read of the next order of a context's send queue. -/
def State.orderRead (s : State) (k : Nat) (far : List FarAns) : State × List FarAns × Except IoStop (Bytes × Bool) :=
  (ioRead (s.conn k).stall (s.conn k).st (s.conn k).asid ((s.conn k).sqBase + (s.conn k).sqCons % 2 ^ (s.conn k).sqLog * 64) 64).atF s far

/-- A WRITE of the context was followed by a FENCE. -/
def CarterCtx.fenced (c : CarterCtx) : Bool := c.fwOrders.any fun r => decide (r.1 ≤ c.sqCons) && decide (c.sqCons < r.2)

/-- A context may take its next order. -/
def State.CanTake (s : State) (k : Nat) : Prop :=
  (s.conn k).sqCons < (s.conn k).sqProd ∧ (s.conn k).state ≠ 4 ∧ s.mayTake (s.conn k) = true ∧
    s.unitParity (s.conn k).st ⟨.carterErr, (s.conn k).stall, 0⟩ F.carterErr_PARITY = none

/-- An opcode and ATOP that Table 16.6 gives. -/
def knownOrder (d : Bytes) : Bool := decide (1 ≤ oOp d) && decide (oOp d ≤ 6) && (decide (oOp d ≠ 4) || decide (oAtop d ≤ 3))

/-- What becomes of an order that has been read. -/
def State.orderTaken (s u : State) (k : Nat) (hit : Bytes → Bool) (far : List FarAns) (d : Bytes) (bad : Bool) : State :=
  if knownOrder d && !hit d then s
  else if bad then (u.addOrder k (s.conn k).sqCons { idx := (s.conn k).sqCons, desc := overlay d 0x24 [0xFF, 0xFF], status := some 6 }).complete k
  else if !u.orderOk (s.conn k) d (s.conn k).fenced then
    (u.addOrder k (s.conn k).sqCons {
        idx := (s.conn k).sqCons
        desc := if u.refField (s.conn k).prec (oSig d) (oSigN d) then d else overlay d 0x24 [0xFF, 0xFF]
        status := some 1 }).complete k
  else if oTrig d ≠ 0 then u.addOrder k (s.conn k).sqCons { idx := (s.conn k).sqCons, desc := d, dormant := true }
  else match (u.addOrder k (s.conn k).sqCons { idx := (s.conn k).sqCons, desc := d }).startOrder k { idx := (s.conn k).sqCons, desc := d } far with
    | (t, true) => t
    | (_, false) => (u.orderSource (s.conn k) d far).1

theorem State.takeOrder_read {bad : Bool} (hc : s.CanTake k) (hr : s.orderRead k far = (u, far', .ok (d, bad))) :
    s.takeOrder k hit far = s.orderTaken u k hit far' d bad := by
  obtain ⟨hi, h4, ht, hp⟩ := hc
  rw [State.orderRead] at hr
  simp only [State.takeOrder, if_neg (Nat.not_le.mpr hi), if_neg h4, ht, Bool.not_true, Bool.false_eq_true, if_false, hp, hr] <;> rfl

theorem State.takeOrder_empty (h : (s.conn k).sqProd ≤ (s.conn k).sqCons) : s.takeOrder k hit far = s := if_pos h

/-- An order that the row handles is not left alone. -/
theorem known_hit (h : hit d = true) : ¬ (knownOrder d && !hit d) = true := by simp [h]

theorem State.takeOrder_starts (hc : s.CanTake k) (hr : s.orderRead k far = (u, far', .ok (d, false))) (hh : hit d = true)
    (hok : u.orderOk (s.conn k) d (s.conn k).fenced = true) (ht : oTrig d = 0)
    (hs : (u.addOrder k (s.conn k).sqCons { idx := (s.conn k).sqCons, desc := d }).startOrder k
      { idx := (s.conn k).sqCons, desc := d } far' = (w, true)) : s.takeOrder k hit far = w := by
  rw [State.takeOrder_read hc hr, State.orderTaken, if_neg (known_hit hh), if_neg (by decide), hok, if_neg (by decide),
    if_neg (not_not_intro ht), hs]

theorem State.takeOrder_dormant (hc : s.CanTake k) (hr : s.orderRead k far = (u, far', .ok (d, false))) (hh : hit d = true)
    (hok : u.orderOk (s.conn k) d (s.conn k).fenced = true) (ht : oTrig d ≠ 0) : s.takeOrder k hit far =
      u.addOrder k (s.conn k).sqCons { idx := (s.conn k).sqCons, desc := d, dormant := true } := by
  rw [State.takeOrder_read hc hr, State.orderTaken, if_neg (known_hit hh), if_neg (by decide), hok, if_neg (by decide), if_pos ht]

theorem State.takeOrder_poisoned (hc : s.CanTake k) (hr : s.orderRead k far = (u, far', .ok (d, true))) (hh : hit d = true) :
    s.takeOrder k hit far = (u.addOrder k (s.conn k).sqCons
      { idx := (s.conn k).sqCons, desc := overlay d 0x24 [0xFF, 0xFF], status := some 6 }).complete k := by
  rw [State.takeOrder_read hc hr, State.orderTaken, if_neg (known_hit hh), if_pos rfl]

theorem State.takeOrder_malformed (hc : s.CanTake k) (hr : s.orderRead k far = (u, far', .ok (d, false))) (hh : hit d = true)
    (hok : u.orderOk (s.conn k) d (s.conn k).fenced = false) (hsig : u.refField (s.conn k).prec (oSig d) (oSigN d) = true) :
    s.takeOrder k hit far =
      (u.addOrder k (s.conn k).sqCons { idx := (s.conn k).sqCons, desc := d, status := some 1 }).complete k := by
  rw [State.takeOrder_read hc hr, State.orderTaken, if_neg (known_hit hh), if_neg (by decide), hok, if_pos (by decide), hsig, if_pos rfl]

theorem State.takeOrder_other (hc : s.CanTake k) (hr : s.orderRead k far = (u, far', .ok (d, false))) (hh : hit d = false)
    (h1 : 1 ≤ oOp d) (h3 : oOp d ≤ 3) : s.takeOrder k hit far = s := by
  have hknown : (knownOrder d && !hit d) = true := by
    have h6 : oOp d ≤ 6 := by omega
    have h4 : oOp d ≠ 4 := by omega
    simp [knownOrder, hh, h1, h6, h4]
  rw [State.takeOrder_read hc hr, State.orderTaken, if_pos hknown]

/-- A NOP ends with status 0. -/
theorem State.startOrder_nop (h : oOp o.desc = 6) : s.startOrder k o far =
    ((s.setConn k ((s.conn k).setOrder { o with status := some 0 })).complete k, true) := if_pos h

end

/-! ### Triggers -/

section
variable {s w : State} {n : ConnNo} {far : List FarAns} {o : COrder}

/-- An order whose trigger has fired. -/
def COrder.fired (o : COrder) : COrder := { o with dormant := false, waiting := false }

theorem execCarterTriggerFire_none (h : (s.conn n.val).orders.find? (·.dormant) = none) : exec (.carterTriggerFire n far) s = .next s := by
  show execCarterTriggerFire n far s = _
  simp only [execCarterTriggerFire, h, done, ite_self]

/-- A dormant order whose counter has not been met stays dormant. -/
theorem execCarterTriggerFire_waits (hd : (s.conn n.val).orders.find? (·.dormant) = some o) (ht : oTrig o.desc = 1)
    (hm : s.bell.met.contains (.order n.val) = false) : exec (.carterTriggerFire n far) s = .next s := by
  show execCarterTriggerFire n far s = _
  simp only [execCarterTriggerFire, hd, ht, hm, if_true, Bool.not_false, done, ite_self]

/-- A dormant order whose counter has been met starts, and its wait is over. -/
theorem execCarterTriggerFire_fires (hon : s.ConnOn n.val) (hd : (s.conn n.val).orders.find? (·.dormant) = some o)
    (ht : oTrig o.desc = 1) (hm : s.bell.met.contains (.order n.val) = true)
    (hs : (s.setConn n.val ((s.conn n.val).setOrder o.fired)).startOrder n.val o.fired far = (w, true)) :
    exec (.carterTriggerFire n far) s = .next (w.takeMet (.order n.val)).1 := by
  rw [COrder.fired] at hs
  show execCarterTriggerFire n far s = _
  simp only [execCarterTriggerFire, if_neg hon.runs, hd, ht, hm, if_true, Bool.not_true, Bool.false_eq_true, if_false, hs, done]

end

/-! ### Arriving packets -/

section
variable {s u : State} {k i n : Nat} {hit : Nat → Bool} {far : List FarAns} {p : Pkt}

/-- A frame of a Carter stall has been handled: it is counted and leaves the queue. -/
def State.frameDone (u : State) (k i : Nat) (l : List Bytes) : State :=
  ((u.carterEvent k 7 1).carterEvent k 13 ((l.getD i []).length - 42)).framesGone k (l.eraseIdx i)

/-- The frames of a Carter stall. -/
def State.rxFrames (s : State) (k : Nat) : List Bytes := lookD [] s.carter.rx k

theorem State.rxRow_off (h : s.carterOn k = false) : s.rxRow k hit far = s := by
  simp only [State.rxRow, h, Bool.not_false, if_true]

theorem State.rxRow_none (h : pickFrame hit [] 0 (s.rxFrames k) = none) : s.rxRow k hit far = s := by
  rw [State.rxFrames] at h
  simp only [State.rxRow, h, ite_self]

theorem State.rxRow_picks (hon : s.carterOn k = true) (hp : pickFrame hit [] 0 (s.rxFrames k) = some i)
    (hpar : s.unitParity (soleStall k 9) ⟨.carterErr, k, 0⟩ F.carterErr_PARITY = none) : s.rxRow k hit far =
      if (s.rxFrame k ((s.rxFrames k).getD i []) far).2 = true then
        (s.rxFrame k ((s.rxFrames k).getD i []) far).1.frameDone k i (s.rxFrames k)
      else (s.rxFrame k ((s.rxFrames k).getD i []) far).1 := by
  rw [State.frameDone, State.framesGone, State.withCarter]
  rw [State.rxFrames] at hp ⊢
  simp only [State.rxRow, hon, Bool.not_true, Bool.false_eq_true, if_false, hp, hpar]
  rcases s.rxFrame k _ far with ⟨u, _ | _⟩ <;> rfl

/-- A packet received before is acknowledged, and has no effect. -/
theorem State.rxData_seen (h4 : (s.conn n).state ≠ 4) (hpause : s.precPaused (s.conn n).prec = false) (h5 : p.op ≠ 5)
    (hseen : (s.conn n).psnMod / 2 ≤ modSub p.psn (s.conn n).cum (s.conn n).psnMod ∨ (s.conn n).got.contains p.psn = true) :
    s.rxData n p far = (s.sendAck n 0 0 0, true) := by
  simp only [State.rxData, if_neg h4, hpause, Bool.false_eq_true, if_false, if_pos hseen, if_neg h5]

theorem State.rxData_error (h : (s.conn n).state = 4) : s.rxData n p far = (s.sendAck n 5 p.psn 0, true) := if_pos h

end

/-! ### O45 -/

/-- Settles O45: the rows of orders and of packets by the two operations they share. -/
theorem carterTraffic : Obligations.CarterTraffic := by
  unfold Obligations.CarterTraffic
  constructor
  · intro s u w n far far' d o k c i va add read fw can row atomic
    have taken (hit : Bytes → Bool) : row (.next (s.takeOrder k hit far)) hit :=
      ⟨fun hc hr hh hok ht hs => congrArg Host.Outcome.next (State.takeOrder_starts hc hr hh hok ht hs),
        fun hc hr hh hok ht => congrArg Host.Outcome.next (State.takeOrder_dormant hc hr hh hok ht),
        fun hc hr hh => congrArg Host.Outcome.next (State.takeOrder_poisoned hc hr hh),
        fun hc hr hh hok hsig => congrArg Host.Outcome.next (State.takeOrder_malformed hc hr hh hok hsig),
        fun hc hr hh h1 h3 => congrArg Host.Outcome.next (State.takeOrder_other hc hr hh h1 h3),
        fun he => congrArg Host.Outcome.next (State.takeOrder_empty he)⟩
    exact ⟨taken (fun d => oOp d = 1), taken (fun d => oOp d = 2), taken (fun d => oOp d = 3), taken (atomic 0), taken (atomic 1),
      taken (atomic 2), taken (atomic 3), taken (fun d => oOp d = 5), taken (fun d => oOp d = 6),
      fun hn => State.startOrder_nop hn,
      fun h3 hon hd ht => ⟨execCarterTriggerFire_waits hd ht, execCarterTriggerFire_fires ⟨h3, hon⟩ hd ht⟩, execCarterTriggerFire_none⟩
  · intro s u q far i n p k l f c seen row
    have arrives (op : Nat) (far : List FarAns) : row (.next (s.rxRow k (fun y => decide (y = op)) far)) op far := by
      refine ⟨fun hon hp hpar => ⟨fun hf => ?_, fun hf => ?_⟩, fun hp => congrArg Host.Outcome.next (State.rxRow_none hp),
        fun hoff => congrArg Host.Outcome.next (State.rxRow_off hoff)⟩
      · refine congrArg Host.Outcome.next ((State.rxRow_picks hon hp hpar).trans ?_)
        show (if (s.rxFrame k f far).2 = true then (s.rxFrame k f far).1.frameDone k i l else (s.rxFrame k f far).1) = _
        rw [hf]
        rfl
      · refine congrArg Host.Outcome.next ((State.rxRow_picks hon hp hpar).trans ?_)
        show (if (s.rxFrame k f far).2 = true then (s.rxFrame k f far).1.frameDone k i l else (s.rxFrame k f far).1) = _
        rw [hf]
        rfl
    exact ⟨arrives _ _, arrives _ _, arrives _ _, arrives _ _, arrives _ _, arrives _ _, arrives _ _, arrives _ _, arrives _ _, arrives _ _,
      arrives _ _, fun h4 hpause h5 hseen => State.rxData_seen h4 hpause h5 hseen, State.rxData_error⟩

end Sys2Proof.Machine
end

