-- ==== Sys2Proof/Proofs/Kiosks.lean ====
section
/-!
SUPPORT. The Kiosk (R474–R479, R519, R520): its rings, its session, and what becomes of the message at its head.
-/
namespace Sys2Proof.Machine

/-! ### Functions and their instances -/

theorem State.func_fset (s : State) (r : Reg) (x : Fld) (v f : Nat) : (s.fset r x v).func f = s.func f := by
  rw [State.func, State.fset_host]
  rfl

theorem State.inst_fset (s : State) (r : Reg) (x : Fld) (v f : Nat) : (s.fset r x v).inst f = s.inst f :=
  congrArg Func.inst (State.func_fset ..)

theorem State.inst_setInst_same (s : State) (f : Nat) (i : Inst) : (s.setInst f i).inst f = some i :=
  congrArg Func.inst (State.func_setFunc_same ..)

/-! ### Rings -/

section
variable {s : State} {f : FuncNo} {v : BitVec 16} {m : Bytes} {r : List Bytes}

/-- Messages from the head of a ring to an index. -/
def ahead (a b : Nat) : Nat := modSub a b (2 ^ 16)

theorem execKioskH2dTailWrite_moves (hr : s.hostReaches f.val = true) (hd : ahead v.toNat (s.func f.val).h2dHead ≤ 16)
    (ht : ahead (s.func f.val).h2dTail (s.func f.val).h2dHead ≤ ahead v.toNat (s.func f.val).h2dHead) :
    exec (.kioskH2dTailWrite f v) s = .next (((s.setFunc f.val { s.func f.val with h2dTail := v.toNat }).sweepKiosk f.val 16).raiseLine
      s.fwQuarter 5) := by
  refine congrArg Host.Outcome.next ((if_pos hr).trans ((if_neg ?_).trans rfl))
  exact fun h => h.elim (fun h => Nat.not_le.mpr h hd) fun h => Nat.not_le.mpr h ht

theorem execKioskH2dTailWrite_stray (hr : s.hostReaches f.val = true) (hd : 16 < ahead v.toNat (s.func f.val).h2dHead) :
    exec (.kioskH2dTailWrite f v) s = .next (s.bar0Stray f.val) := congrArg Host.Outcome.next ((if_pos hr).trans (if_pos (.inl hd)))

theorem execKioskD2hPost_posts (hw : (s.func f.val).d2hWait = m :: r)
    (hn : ahead (s.func f.val).d2hTail (s.func f.val).d2hHead < 16) : exec (.kioskD2hPost f) s =
      .next ((s.setFunc f.val { s.func f.val with
        d2h := put (s.func f.val).d2h ((s.func f.val).d2hTail % 16) m
        d2hTail := ((s.func f.val).d2hTail + 1) % 2 ^ 16
        d2hWait := r }).sendMsix f.val 0) := by
  rw [ahead] at hn
  show execKioskD2hPost f s = _
  simp only [execKioskD2hPost, hw, if_neg (Nat.not_le.mpr hn), done]

theorem execKioskD2hPost_idle (h : (s.func f.val).d2hWait = [] ∨ 16 ≤ ahead (s.func f.val).d2hTail (s.func f.val).d2hHead) :
    exec (.kioskD2hPost f) s = .next s := by
  show execKioskD2hPost f s = _
  cases hw : (s.func f.val).d2hWait with
  | nil => simp only [execKioskD2hPost, hw, done]
  | cons m r =>
    have hfull := h.resolve_left (by rw [hw]; exact List.cons_ne_nil _ _)
    rw [ahead] at hfull
    simp only [execKioskD2hPost, hw, if_pos hfull, done]

end

/-! ### The session -/

section
variable {s : State} {f : FuncNo} {m : Bytes} {i : Inst} {ver : Nat}

theorem execDriverHoldExpire_cancels (hl : (s.func f.val).driverLost = true) (hi : s.inst f.val = some i) :
    Completes (exec (.driverHoldExpire f) s) fun t => ∃ j, t.inst f.val = some j ∧
      ∀ y, y ∈ j.dockets ↔ y ∈ i.dockets ∧ y.held = false ∧ y.parked = false ∧ y.started = true := by
  have hc : s.cancelHeld f.val = ((s.setInst f.val { i with dockets := i.dockets.filter fun d => !(d.held || d.parked || !d.started) }).fset
      (fwFunc f.val) F.fwFuncState_HOLD_LEFT_S 0).countHeld f.val := by
    simp only [State.cancelHeld, hi]
  refine ⟨_, congrArg Host.Outcome.next ((if_pos hl).trans hc), { i with dockets := i.dockets.filter fun d => !(d.held || d.parked || !d.started) },
    ?_, fun y => ?_⟩
  · have hkeep : ∀ t : State, (t.countHeld f.val).inst f.val = t.inst f.val := by
      intro t
      simp only [State.countHeld]
      split <;> exact State.inst_fset t _ _ _ _
    rw [hkeep, State.inst_fset, State.inst_setInst_same]
  · simp [List.mem_filter, and_assoc]

/-- A session that opens on a function whose driver is there. -/
theorem State.openSession_fresh (s : State) (ver : Nat) (k : Nat) (hl : (s.func k).driverLost = false) : s.openSession k ver false =
    (s.setFunc k { s.func k with isOpen := true, role := false, version := ver, beatSeen := false }).fset (fwFunc k) F.fwFuncState_STATE 1 := by
  refine if_pos ?_
  rw [State.func_setFunc_same, hl]
  rfl

/-- A KIOSK_OPEN message of an instance whose fields are in range. -/
structure OpenOk (s : State) (k : Nat) (m : Bytes) (i : Inst) : Prop where
  role : mNum m 0 1 = 0
  least : 1 ≤ mNum m 1 1
  most : mNum m 1 1 ≤ 8
  clean : mZero m (2 + 2 * mNum m 1 1) (16 - 2 * mNum m 1 1) = true
  inst : s.inst k = some i

theorem OpenOk.wellFormed {k : Nat} (h : OpenOk s k m i) : ¬ (1 < mNum m 0 1 ∨ mNum m 1 1 = 0 ∨ 8 < mNum m 1 1 ∨
    (!mZero m (2 + 2 * mNum m 1 1) (16 - 2 * mNum m 1 1)) = true) := by
  have hl := h.least
  have hm := h.most
  rw [h.role, h.clean]
  simp only [Bool.not_true, Bool.false_eq_true, or_false]
  omega

theorem execKioskOpen_opens (ht : s.takeMsg f.val 0x0001 18 = .ok m) (h : OpenOk s f.val m i)
    (hv : agreed (versionList (slice m 10 (2 * mNum m 1 1))) = some ver) (ho : (s.func f.val).isOpen = false)
    (hl : (s.func f.val).driverLost = false) : exec (.kioskOpen f) s =
      .next (((s.setFunc f.val { s.func f.val with isOpen := true, role := false, version := ver, beatSeen := false }).fset
        (fwFunc f.val) F.fwFuncState_STATE 1).reply f.val m 0 0 (leBytes 2 ver)) := by
  refine congrArg Host.Outcome.next (State.answerMsg_some ht ?_)
  rw [← State.openSession_fresh s ver f.val hl]
  refine (if_neg h.wellFormed).trans ?_
  simp only [h.role, h.inst, hv, ho, Option.isNone_some, Bool.false_eq_true, if_false, and_false, false_and, State.ok,
    zero_ne_one, decide_false]

theorem execKioskOpen_noVersion (ht : s.takeMsg f.val 0x0001 18 = .ok m) (h : OpenOk s f.val m i)
    (hv : agreed (versionList (slice m 10 (2 * mNum m 1 1))) = none) : exec (.kioskOpen f) s = .next (s.reply f.val m 0x7F 0 []) := by
  refine congrArg Host.Outcome.next (State.answerMsg_some ht ?_)
  refine (if_neg h.wellFormed).trans ?_
  simp only [h.role, h.inst, hv, Option.isNone_some, Bool.false_eq_true, if_false, and_false, false_and, State.no,
    zero_ne_one]

theorem execKioskClose_closes (ht : s.takeMsg f.val 0x0002 0 = .ok m) (hi : s.inst f.val = some i) (hd : i.dockets = []) :
    exec (.kioskClose f) s = .next (((s.setFunc f.val { s.func f.val with isOpen := false, role := false, version := 0, beatSeen := false }).fset
      (fwFunc f.val) F.fwFuncState_STATE 0).reply f.val m 0 0 []) := by
  refine congrArg Host.Outcome.next (State.answerMsg_some ht ?_)
  simp only [hi, hd, List.isEmpty_nil, Bool.not_true, Bool.false_eq_true, if_false, State.ok]

theorem execKioskClose_busy (ht : s.takeMsg f.val 0x0002 0 = .ok m) (hi : s.inst f.val = some i) (hd : i.dockets ≠ []) :
    exec (.kioskClose f) s = .next (s.reply f.val m 2 0 []) := by
  refine congrArg Host.Outcome.next (State.answerMsg_some ht ?_)
  have hbusy : (!i.dockets.isEmpty) = true := by
    rw [Bool.not_eq_true', List.isEmpty_eq_false_iff]
    exact hd
  simp only [hi, hbusy, if_true, State.no]

end

/-! ### The message at the head -/

section
variable {s : State} {f t n : Nat} {m : Bytes} {i : Inst}

theorem State.takeMsg_other (hm : s.headMsg f = some m) (ht : mType m ≠ t) : s.takeMsg f t n = .error s := by
  simp only [State.takeMsg, hm, ne_eq, ht, not_false_eq_true, if_true]

theorem State.takeMsg_closed (hm : s.headMsg f = some m) (ht : mType m = t) (h1 : t ≠ 1) (ho : (s.func f).isOpen = false) :
    s.takeMsg f t n = .error (s.reply f m 6 0 []) := by
  simp only [State.takeMsg, hm, ht, ho, h1, ne_eq, not_true_eq_false, not_false_eq_true, if_false, Bool.not_false, decide_true, Bool.and_self,
    if_true]

/-- What becomes of the message at the head of an open Kiosk, by the sender its TYPE needs. -/
def State.roleTake (s : State) (f n : Nat) (m : Bytes) (role : Option Nat) (inst : Option Inst) : Except State Bytes :=
  match role, inst with
  | some 2, _ => if !(s.func f).role then .error (s.reply f m 5 0 []) else if mClean m n then .ok m else .error (s.reply f m 1 0 [])
  | some 1, none => .error (s.reply f m 7 0 [])
  | some 1, some i => if s.precPaused i.prec then .error s else if mClean m n then .ok m else .error (s.reply f m 1 0 [])
  | _, _ => if mClean m n then .ok m else .error (s.reply f m 1 0 [])

theorem State.takeMsg_open (hm : s.headMsg f = some m) (ht : mType m = t) (ho : (s.func f).isOpen = true) :
    s.takeMsg f t n = s.roleTake f n m (msgRole t) (s.func f).inst := by
  simp only [State.takeMsg, hm, ht, ho, ne_eq, not_true_eq_false, if_false, Bool.not_true, Bool.false_and, Bool.false_eq_true] <;> rfl

/-- The reply of a message consumes it. -/
theorem State.reply1_consumes (y : State) (f : Nat) (m : Bytes) (a b : Nat) (c : Bytes) :
    ((y.reply1 f m a b c).func f).h2dHead = ((y.func f).h2dHead + 1) % 2 ^ 16 := by
  rw [State.reply1, State.postMsg, State.func_setFunc_same]
  exact congrArg Func.h2dHead (State.func_setFunc_same ..)

end

/-! ### A message that is not to be carried out -/

section
variable {s u : State} {f : FuncNo}

theorem execLedgerQueueReset_error (h : s.takeMsg f.val 0x0042 2 = .error u) : exec (.ledgerQueueReset f) s = .next u := by
  show execLedgerQueueReset f s = _
  simp only [execLedgerQueueReset, h, done]

theorem State.ximMsg_error {op : Nat} (h : s.takeMsg f.val 0x0120 16 = .error u) : s.ximMsg f.val op = u := by
  simp only [State.ximMsg, h]

theorem State.mgrBody_error {t n : Nat} (h : s.takeMsg f.val t n = .error u) : s.mgrBody (.msg f) t n = .error u := by
  simp only [State.mgrBody, h]

theorem State.trust_error {cmd : Nat} (h : s.takeMsg f.val 0x0140 16 = .error u) : s.trust (.msg f) cmd = u := by
  simp only [State.trust, State.mgrBody_error h]

theorem execPwrSet_error (h : s.takeMsg f.val 0x0150 4 = .error u) : exec (.pwrSet (.mgr (.msg f))) s = .next u := by
  show execPwrSet (.mgr (.msg f)) s = _
  simp only [execPwrSet, State.mgrBody_error h, done]

theorem execFwActivate_error (h : s.takeMsg f.val 0x0130 1 = .error u) : exec (.fwActivate f) s = .next u := by
  show execFwActivate f s = _
  simp only [execFwActivate, h, done]

end

/-! ### O46 -/

/-- Settles O46: the rings and the session by their lemmas, the head message by the branches of `takeMsg`, and every row of a message
by the refusal it shares. -/
theorem kioskSession : Obligations.KioskSession := by
  unfold Obligations.KioskSession
  refine ⟨?_, ?_, ?_⟩
  · intro s f v m r i ver k x d n shut
    refine ⟨execKioskH2dTailWrite_moves, execKioskH2dTailWrite_stray,
      fun hr hd => congrArg Host.Outcome.next ((if_pos hr).trans (if_neg (Nat.not_lt.mpr hd))),
      fun hr hd => congrArg Host.Outcome.next ((if_pos hr).trans (if_pos hd)),
      fun hr => ⟨congrArg Host.Outcome.next (if_neg (ne_true_of_eq_false hr)), congrArg Host.Outcome.next (if_neg (ne_true_of_eq_false hr))⟩,
      execKioskD2hPost_posts, execKioskD2hPost_idle, fun ho => congrArg Host.Outcome.next (if_pos ho),
      fun ho => ⟨congrArg Host.Outcome.next (if_neg (ne_true_of_eq_false ho)), congrArg Host.Outcome.next (if_neg ?_)⟩,
      fun ho hb => congrArg Host.Outcome.next (if_pos ?_), execDriverHoldExpire_cancels,
      fun hl => congrArg Host.Outcome.next (if_neg (ne_true_of_eq_false hl)),
      fun ht h0 h1 h8 hz hi hv ho hl => execKioskOpen_opens ht ⟨h0, h1, h8, hz, hi⟩ hv ho hl,
      fun ht h0 h1 h8 hz hi hv => execKioskOpen_noVersion ht ⟨h0, h1, h8, hz, hi⟩ hv,
      execKioskClose_closes, execKioskClose_busy⟩
    · show ¬ ((s.func f.val).isOpen && (s.func f.val).beatSeen) = true
      rw [ho]
      exact Bool.false_ne_true
    · exact Bool.and_eq_true_iff.mpr ⟨ho, hb⟩
  · intro s f t n m i hm x
    refine ⟨State.takeMsg_other hm, State.takeMsg_closed hm, fun ht ho hr hrole => ?_, fun ht ho hr hi => ?_, fun ht ho hr hi hp => ?_,
      fun ht ho hr hi hp => ?_, fun ht ho hr hrole => ?_, fun y a b c => State.reply1_consumes y f m a b c⟩
    · rw [State.takeMsg_open hm ht ho, hr]
      exact if_pos (congrArg (!·) hrole)
    · rw [State.takeMsg_open hm ht ho, hr, hi]
      rfl
    · rw [State.takeMsg_open hm ht ho, hr, hi]
      exact if_pos hp
    · rw [State.takeMsg_open hm ht ho, hr, hi]
      exact if_neg (ne_true_of_eq_false hp)
    · rw [State.takeMsg_open hm ht ho, hr]
      exact if_neg (ne_true_of_eq_false (congrArg (!·) hrole))
  · intro s u f bound far a12 fetched h n16 n20 n c r slot q chans no
    have answer {t n : Nat} (body : Bytes → Ans) (h : s.takeMsg f.val t n = .error u) :
        done (s.answerMsg f.val t n body) = done u :=
      congrArg done (State.answerMsg_error body h)
    have xim {op : Nat} (h : s.takeMsg f.val 0x0120 16 = .error u) :
        done (s.ximMsg f.val op) = done u :=
      congrArg done (State.ximMsg_error h)
    have trust {cmd : Nat} (h : s.takeMsg f.val 0x0140 16 = .error u) :
        done (s.trust (.msg f) cmd) = done u :=
      congrArg done (State.trust_error h)
    exact ⟨answer _, answer _, execDocketSubmit_error, execDocketCancel_error, answer _, answer _, answer _, answer _, answer _, answer _,
      answer _, answer _, answer _, execLedgerQueueReset_error, answer _, answer _, answer _, answer _, answer _, answer _, answer _, answer _,
      answer _, answer _, answer _, answer _, answer _, answer _, answer _, answer _, answer _, xim, xim, xim, answer _,
      execFwActivate_error, answer _, answer _, trust, trust, trust, trust, trust, trust, trust, execPwrSet_error⟩

end Sys2Proof.Machine
end

