-- ==== Sys2Proof/Proofs/KioskObjects.lean ====
section
/-!
SUPPORT. The messages of an instance that make, change and end its objects (R324, R373, R386, R391–R417, R433, R449, R454, R480).
-/
namespace Sys2Proof.Machine

/-- The message of TYPE `t` of an instance is to be carried out. -/
structure InstMsg (s : State) (k t n : Nat) (i : Inst) (m : Bytes) : Prop where
  got : s.takeMsg k t n = .ok m
  inst : s.inst k = some i

section
variable {s u : State} {f : FuncNo} {i : Inst} {m b : Bytes} {far : List FarAns}

/-- The answer of a message by its body. -/
theorem InstMsg.answer {k t n st d : Nat} {body : Inst → Bytes → Ans} (h : InstMsg s k t n i m) (hb : body i m = some (u, st, d, b)) :
    done (s.answerInst k t n body) = .next (u.reply k m st d b) := congrArg Host.Outcome.next (State.answerInst_some h.got h.inst hb)

/-! ### Communicators -/

/-- The fields of COMM_CREATE are in range. -/
structure CommOk (m : Bytes) : Prop where
  least : 1 ≤ mNum m 8 2
  most : mNum m 8 2 ≤ 4096
  rank : mNum m 10 2 < mNum m 8 2
  clean : mZero m 12 4 = true

theorem CommOk.wellFormed (h : CommOk m) : ¬ (mNum m 8 2 = 0 ∨ 4096 < mNum m 8 2 ∨ mNum m 8 2 ≤ mNum m 10 2 ∨ (!mZero m 12 4) = true) := by
  obtain ⟨h1, h2, h3, h4⟩ := h
  simp only [h4, Bool.not_true, Bool.false_eq_true, or_false]
  omega

/-- The connections of a communicator's table, but its own entry. -/
def commOthers (m b : Bytes) : List Nat :=
  (((List.range (mNum m 8 2)).map fun k => leAt b (4 * k) 4).zipIdx.filter fun x => x.2 ≠ mNum m 10 2).map (·.1)

theorem execCommCreate_makes {h : BitVec 32} (hm : InstMsg s f.val 0x0020 24 i m) (hok : CommOk m) (hn : i.comms.length < 256)
    (hnew : (i.comms.any fun c => c.handle = h.toNat) = false)
    (hr : s.fwRead i.asid (mNum m 16 8) (4 * mNum m 8 2) far = (u, some (.ok b))) (hc : ∀ n ∈ commOthers m b, u.connStatus f.val n = 0) :
    exec (.commCreate f h far) s = .next ((u.setInst f.val { i with comms := i.comms ++
      [{ handle := h.toNat, id := mNum m 0 8, size := mNum m 8 2, rank := mNum m 10 2, conns := commOthers m b }] }).reply f.val m 0 0
        (leBytes 4 h.toNat)) := by
  have hall : ((commOthers m b).map fun n => u.connStatus f.val n).find? (· ≠ 0) = none := by
    simp only [List.find?_eq_none, List.mem_map, forall_exists_index, and_imp, forall_apply_eq_imp_iff₂]
    exact fun n hn => by simp [hc n hn]
  rw [commOthers] at hall ⊢
  refine hm.answer ((if_neg hok.wellFormed).trans ?_)
  simp only [if_neg (Nat.not_le.mpr hn), hnew, Bool.false_eq_true, if_false, hr, hall, State.ok]

theorem execCommCreate_full {h : BitVec 32} (hm : InstMsg s f.val 0x0020 24 i m) (hok : CommOk m) (hn : 256 ≤ i.comms.length) :
    exec (.commCreate f h far) s = .next (s.reply f.val m 4 0 []) := hm.answer ((if_neg hok.wellFormed).trans (if_pos hn))

/-! ### Keys and cipher contexts -/

theorem algo_inRange {a : Nat} (h1 : 1 ≤ a) (h5 : a ≤ 5) : ¬ (a = 0 ∨ 5 < a) := by omega

theorem execKeyGenerate_makes {n : BitVec 16} (hm : InstMsg s f.val 0x0030 1 i m) (h1 : 1 ≤ mNum m 0 1) (h5 : mNum m 0 1 ≤ 5)
    (hfull : s.keysFull = false) (hu : (s.keyEnt n.toNat).used = false) : exec (.keyGenerate f n) s =
      .next (((s.useFresh (keyBytes (mNum m 0 1))).setKeyEnt n.toNat {
        gen := (s.keyEnt n.toNat).gen
        used := true
        owner := f.val
        algo := mNum m 0 1
        key := s.freeBytes (keyBytes (mNum m 0 1)) }).reply f.val m 0 0
          (leBytes 4 ((s.keyEnt n.toNat).gen * 2 ^ 16 + n.toNat))) :=
  hm.answer ((if_neg (algo_inRange h1 h5)).trans ((if_neg (ne_true_of_eq_false hfull)).trans (if_neg (ne_true_of_eq_false hu))))

/-- A key that is imported under another key: the bytes of its blob are unwrapped. -/
theorem execKeyImport_imports {n : BitVec 16} (hm : InstMsg s f.val 0x0031 20 i m) (h1 : 1 ≤ mNum m 0 1) (h5 : mNum m 0 1 ≤ 5)
    (hz : mZero m 1 3 = true) (hp : mNum m 4 4 ≠ 0xFFFF_FFFF) (hst : s.keyStatus f.val (mNum m 4 4) = 0)
    (hwrap : (s.keyEnt (mNum m 4 4 % 2 ^ 16)).algo = 2) (hfull : s.keysFull = false) (hu : (s.keyEnt n.toNat).used = false)
    (hr : s.fwRead i.asid (mNum m 8 8) (mNum m 16 4) far = (u, some (.ok b))) : exec (.keyImport f n far) s =
      .next (match Config.unwrapBlob (s.keyEnt (mNum m 4 4 % 2 ^ 16)).key b with
        | none => u.reply f.val m 8 0x0A []
        | some key => if key.length = keyBytes (mNum m 0 1) then
            (u.setKeyEnt n.toNat { gen := (u.keyEnt n.toNat).gen, used := true, owner := f.val, algo := mNum m 0 1, key := key }).reply f.val m
              0 0 (leBytes 4 ((u.keyEnt n.toNat).gen * 2 ^ 16 + n.toNat))
          else u.reply f.val m 1 0 []) := by
  have hok : ¬ (mNum m 0 1 = 0 ∨ 5 < mNum m 0 1 ∨ (!mZero m 1 3) = true) := by
    simp only [hz, Bool.not_true, Bool.false_eq_true, or_false]
    exact algo_inRange h1 h5
  cases hk : Config.unwrapBlob (s.keyEnt (mNum m 4 4 % 2 ^ 16)).key b with
  | none =>
    refine hm.answer ((if_neg hok).trans ?_)
    simp only [if_neg hp, hst, hwrap, hfull, hu, hr, hk, ne_eq, not_true_eq_false, and_false, Bool.false_eq_true, if_false, State.bad]
  | some key =>
    by_cases hl : key.length = keyBytes (mNum m 0 1)
    · simp only [if_pos hl]
      refine hm.answer ((if_neg hok).trans ?_)
      simp only [if_neg hp, hst, hwrap, hfull, hu, hr, hk, hl, ne_eq, not_true_eq_false, and_false, Bool.false_eq_true, if_false, if_true,
        State.keyMake, State.ok]
    · simp only [if_neg hl]
      refine hm.answer ((if_neg hok).trans ?_)
      simp only [if_neg hp, hst, hwrap, hfull, hu, hr, hk, hl, ne_eq, not_true_eq_false, and_false, Bool.false_eq_true, if_false, State.no]

/-- The contexts that a function holds. -/
def State.ctxsOf (s : State) (k : Nat) : Nat := (s.cash.ctxs.filter fun x => decide (x.2.state ≠ 0) && decide (x.2.inst = k)).length

theorem execCtxCreate_makes {c : BitVec 20} (hm : InstMsg s f.val 0x0033 8 i m) (h1 : 1 ≤ mNum m 0 1) (h5 : mNum m 0 1 ≤ 5)
    (hz : mZero m 2 2 = true) (hx : isXts (mNum m 0 1) = false) (hu : mNum m 1 1 = 0) (hst : s.keyStatus f.val (mNum m 4 4) = 0)
    (ha : (s.keyEnt (mNum m 4 4 % 2 ^ 16)).algo = mNum m 0 1) (hn : s.ctxsOf f.val < i.cashboxCtx) (hc : (s.ctxRec c.toNat).state = 0) :
    exec (.ctxCreate f c) s = .next ((s.setCtxRec c.toNat {
      gen := (s.ctxRec c.toNat).gen
      algo := mNum m 0 1
      state := 1
      prec := i.prec
      key := mNum m 4 4
      inst := f.val
      unitLog2 := 0 }).reply f.val m 0 0 (leBytes 4 ((s.ctxRec c.toNat).gen * 2 ^ 20 + c.toNat))) := by
  have h6 : mNum m 0 1 ≠ 6 := by omega
  have hok : ¬ (mNum m 0 1 = 0 ∨ 6 < mNum m 0 1 ∨ (!mZero m 2 2) = true ∨
      (if isXts (mNum m 0 1) = true then mNum m 1 1 < 9 ∨ 14 < mNum m 1 1 else mNum m 1 1 ≠ 0)) := by
    simp only [hz, hx, hu, Bool.not_true, Bool.false_eq_true, if_false, ne_eq, not_true_eq_false, or_false]
    omega
  rw [State.ctxsOf] at hn
  refine hm.answer ((if_neg hok).trans ?_)
  simp only [if_neg h6, hst, ha, hc, hu, if_neg (Nat.not_le.mpr hn), ne_eq, not_true_eq_false, and_false, if_false, State.ok]

section
variable {x : Nat × CashCtx}

theorem execCtxDestroy_own (hm : InstMsg s f.val 0x0034 4 i m) (hx : s.ctxOf (mNum m 0 4) = some x) (ho : x.2.inst = f.val) :
    exec (.ctxDestroy f) s = .next ((s.ctxFree x.1).reply f.val m 0 0 []) := by
  refine hm.answer ?_
  simp only [hx, ho, if_true, State.ok]

theorem execCtxDestroy_other (hm : InstMsg s f.val 0x0034 4 i m) (hx : s.ctxOf (mNum m 0 4) = some x) (ho : x.2.inst ≠ f.val) :
    exec (.ctxDestroy f) s = .next (s.reply f.val m 5 0 []) := by
  refine hm.answer ?_
  simp only [hx, if_neg ho, State.no]

theorem execCtxDestroy_unknown (hm : InstMsg s f.val 0x0034 4 i m) (hx : s.ctxOf (mNum m 0 4) = none) :
    exec (.ctxDestroy f) s = .next (s.reply f.val m 3 0 []) := by
  refine hm.answer ?_
  simp only [hx, State.no]

end

/-! ### Ledger queues -/

section
variable {ln : Fin 4096} {slot : Nat} {q : Qn} {v : Nat} {vol : Volume} {lq ly : LQueue}

/-- The queue that LEDGER_QUEUE_CREATE asks for. -/
def newQueue (k : Nat) (i : Inst) (q : Qn) (v : Nat) (m : Bytes) : LQueue := {
  flags := mNum m 0 1, version := v, volume := mNum m 2 2, asid := i.asid, sqBase := mNum m 4 8, cqBase := mNum m 12 8,
  sqLog := mNum m 20 1, cqLog := mNum m 21 1, msix := mNum m 22 2, dbCtr := mNum m 24 2, func := k, prec := i.prec, stall := q.val }

/-- The fields of LEDGER_QUEUE_CREATE are in range. -/
structure QueueOk (m : Bytes) : Prop where
  clean1 : mZero m 1 1 = true
  clean27 : mZero m 27 1 = true
  least : 1 ≤ mNum m 26 1
  most : mNum m 26 1 ≤ 8
  clean : mZero m (28 + 2 * mNum m 26 1) (16 - 2 * mNum m 26 1) = true

theorem QueueOk.wellFormed (h : QueueOk m) : ¬ ((!mZero m 1 1) = true ∨ (!mZero m 27 1) = true ∨ mNum m 26 1 = 0 ∨ 8 < mNum m 26 1 ∨
    (!mZero m (28 + 2 * mNum m 26 1) (16 - 2 * mNum m 26 1)) = true) := by
  obtain ⟨h1, h27, hl, hm, hc⟩ := h
  simp only [h1, h27, hc, Bool.not_true, Bool.false_eq_true, or_false, false_or]
  omega

theorem execLedgerQueueCreate_makes (hm : InstMsg s f.val 0x0040 44 i m) (hok : QueueOk m)
    (hv : agreed (versionList (slice m 36 (2 * mNum m 26 1))) = some v) (hvol : s.volume (mNum m 2 2) = some vol)
    (h0 : nbit (mNum m 0 1) 0 = false) (hn : (s.ledger.queues.filter fun y => y.2.func = f.val).length < i.ledgerQ)
    (hst : s.hasStall i.prec 10 = true) (hp : s.precOfStall (soleStall q.val 10) = some i.prec)
    (hf : s.stallFenced (soleStall q.val 10) = false) (hq : s.lqueue ln.val = none) (hsl : s.slotsFree f.val slot 2 = true)
    (hc : s.lqueueCreate ln.val (newQueue f.val i q v m) = (u, 0)) : exec (.ledgerQueueCreate f ln slot q) s =
      .next ((u.bindSlots f.val slot [.ledgerSq ln.val, .ledgerCq ln.val]).reply f.val m 0 0
        (leBytes 2 ln.val ++ leBytes 2 v ++ leBytes 4 slot)) := by
  rw [newQueue] at hc
  refine hm.answer ((if_neg hok.wellFormed).trans ?_)
  simp only [hv, hvol, h0, if_neg (Nat.not_le.mpr hn), hst, hp, hf, hq, hsl, hc, Bool.false_eq_true, false_and, if_false, Bool.not_true, ne_eq,
    not_true_eq_false, Option.isSome_none, or_self, State.unitAns, State.ok]

theorem execLedgerQueueDelete_ends (hm : InstMsg s f.val 0x0041 2 i m) (hq : s.lqueue (mNum m 0 2) = some lq) (ho : lq.func = f.val)
    (hd : s.lqueueDelete (mNum m 0 2) = (u, 0)) :
    exec (.ledgerQueueDelete f) s = .next ((u.queueFree f.val (mNum m 0 2)).reply f.val m 0 0 []) := by
  refine hm.answer ?_
  simp only [State.queueStatus, hq, if_pos ho, ne_eq, not_true_eq_false, if_false, hd, State.unitAns, State.ok]

theorem execLedgerQueueDelete_unknown (hm : InstMsg s f.val 0x0041 2 i m) (hq : s.lqueue (mNum m 0 2) = none) :
    exec (.ledgerQueueDelete f) s = .next (s.reply f.val m 3 0 []) := by
  refine hm.answer ?_
  simp only [State.queueStatus, hq, ne_eq, OfNat.ofNat_ne_zero, not_false_eq_true, if_true, State.no]

theorem execLedgerQueueReset_begins (hm : InstMsg s f.val 0x0042 2 i m) (hq : s.lqueue (mNum m 0 2) = some lq) (ho : lq.func = f.val)
    (hby : lq.resetBy ≠ some f.val) (hr : lq.resetting = false) (hu : (s.lqueueReset (mNum m 0 2) (some f.val)).1 = u)
    (hy : u.lqueue (mNum m 0 2) = some ly) : exec (.ledgerQueueReset f) s = .next (if ly.resetting then u
      else (u.setLqueue (mNum m 0 2) { ly with resetBy := none }).reply f.val m 0 0 []) := by
  show execLedgerQueueReset f s = _
  simp only [execLedgerQueueReset, hm.got, hq, ho, ne_eq, not_true_eq_false, if_false, if_neg hby, hr, Bool.false_eq_true, hu, hy, done]

theorem execLedgerQueueReset_unknown (hm : InstMsg s f.val 0x0042 2 i m) (hq : s.lqueue (mNum m 0 2) = none) :
    exec (.ledgerQueueReset f) s = .next (s.reply f.val m 3 0 []) := by
  show execLedgerQueueReset f s = _
  simp only [execLedgerQueueReset, hm.got, hq, done]

end

/-! ### Rings and Tollbooth queues -/

section
variable {r slot : Nat} {ring : Ring} {node : TbNode}

theorem State.ringMake_makes {x : Ring} (hr : s.ring r = none) (h32 : r < 2 ^ 32) (hs : s.slotsFree f.val slot 1 = true) :
    s.ringMake f.val r slot x = some (((s.setRing r x).bindSlots f.val slot [if x.tx then .txr r else .rxq r]), 0, 0,
      leBytes 4 r ++ leBytes 4 slot) := by
  have hok : ¬ ((s.ring r).isSome = true ∨ 2 ^ 32 ≤ r ∨ (!s.slotsFree f.val slot 1) = true) := by
    simp only [hr, hs, Option.isSome_none, Bool.not_true, Bool.false_eq_true, false_or, or_false, not_le]
    exact h32
  exact if_neg hok

theorem execRxqCreate_makes (hm : InstMsg s f.val 0x0050 24 i m) (hok : (ringOf f.val i false m).formOk m = true) (hfl : s.eth.flows = [])
    (hown : (s.eth.rings.any fun y => !y.2.tx && decide (y.2.target = (ringOf f.val i false m).target) && decide (y.2.prec ≠ i.prec)) = false)
    (hr : s.ring r = none) (h32 : r < 2 ^ 32) (hs : s.slotsFree f.val slot 1 = true) : exec (.rxqCreate f r slot) s =
      .next (((s.setRing r (ringOf f.val i false m)).bindSlots f.val slot [.rxq r]).reply f.val m 0 0 (leBytes 4 r ++ leBytes 4 slot)) := by
  refine hm.answer ?_
  simp only [hok, hfl, hown, List.any_nil, Bool.or_self, Bool.not_true, Bool.false_eq_true, if_false, State.ringMake_makes hr h32 hs]
  rfl

theorem execTxrCreate_makes (hm : InstMsg s f.val 0x0051 24 i m) (hok : (ringOf f.val i true m).formOk m = true)
    (hn : s.node ((ringOf f.val i true m).target / 2 ^ 18) 3 ((ringOf f.val i true m).target % 2 ^ 18) = some node) (hp : node.prec = i.prec)
    (hr : s.ring r = none) (h32 : r < 2 ^ 32) (hs : s.slotsFree f.val slot 1 = true) : exec (.txrCreate f r slot) s =
      .next (((s.setRing r (ringOf f.val i true m)).bindSlots f.val slot [.txr r]).reply f.val m 0 0 (leBytes 4 r ++ leBytes 4 slot)) := by
  refine hm.answer ?_
  simp only [hok, hn, if_pos hp, Bool.not_true, Bool.false_eq_true, if_false, State.ringMake_makes hr h32 hs]
  rfl

theorem execRingDestroy_own (hm : InstMsg s f.val 0x0052 4 i m) (hr : s.ring (mNum m 0 4) = some ring) (ho : ring.func = f.val) :
    exec (.ringDestroy f) s = .next ((s.ringFree f.val (mNum m 0 4)).reply f.val m 0 0 []) := by
  refine hm.answer ?_
  simp only [hr, if_pos ho, State.ok]

theorem execRingDestroy_other (hm : InstMsg s f.val 0x0052 4 i m) (hr : s.ring (mNum m 0 4) = some ring) (ho : ring.func ≠ f.val) :
    exec (.ringDestroy f) s = .next (s.reply f.val m 5 0 []) := by
  refine hm.answer ?_
  simp only [hr, if_neg ho, State.no]

/-- The fields of TOLL_SET are in range. -/
structure TollOk (m : Bytes) : Prop where
  clean : mZero m 6 2 = true
  queue : mNum m 0 4 < 2 ^ 20
  weight : 1 ≤ mNum m 4 2
  cir : mNum m 8 4 ≤ 1600000
  pir : mNum m 12 4 ≤ 1600000
  rates : mNum m 8 4 ≤ mNum m 12 4
  least : 64 ≤ mNum m 16 4
  bursts : mNum m 16 4 ≤ mNum m 20 4
  most : mNum m 20 4 ≤ 2 ^ 24

theorem TollOk.wellFormed (h : TollOk m) : ¬ ((!mZero m 6 2) = true ∨ 2 ^ 20 ≤ mNum m 0 4 ∨ mNum m 4 2 = 0 ∨ 1600000 < mNum m 8 4 ∨
    1600000 < mNum m 12 4 ∨ (mNum m 12 4 ≠ 0 ∧ mNum m 12 4 < mNum m 8 4) ∨ mNum m 16 4 < 64 ∨ mNum m 20 4 < mNum m 16 4 ∨
    2 ^ 24 < mNum m 20 4) := by
  obtain ⟨hz, hk, hw, hc, hp, hr, hl, hb, hm⟩ := h
  simp only [hz, Bool.not_true, Bool.false_eq_true, false_or]
  omega

theorem execTollSet_sets (hm : InstMsg s f.val 0x0053 24 i m) (hok : TollOk m)
    (hn : s.node (mNum m 0 4 / 2 ^ 18) 3 (mNum m 0 4 % 2 ^ 18) = some node) (hp : node.prec = i.prec) (hl : look i.live 1 = none) :
    exec (.tollSet f) s = .next ((s.setNode (mNum m 0 4 / 2 ^ 18) 3 (mNum m 0 4 % 2 ^ 18) (node.update { node with
      weight := mNum m 4 2, cir := mNum m 8 4, pir := mNum m 12 4, cbs := mNum m 16 4, pbs := mNum m 20 4 } s.tick)).reply f.val m 0 0 []) := by
  refine hm.answer ((if_neg hok.wellFormed).trans ?_)
  simp only [hn, hp, hl, ne_eq, not_true_eq_false, if_false, Bool.false_eq_true, State.ok]

end

/-! ### Connections and regions -/

section
variable {n : ConnNo} {slot : Nat} {q : Qn} {rn : BitVec 20}

theorem execConnCreate_makes (hm : InstMsg s f.val 0x0060 8 i m)
    (hquota : (s.carter.ctxs.filter fun x => decide (x.2.state ≠ 0) && decide (x.2.func = some f.val)).length < i.carterConn)
    (hst : s.hasStall i.prec 9 = true) (hp : s.precOfStall (soleStall q.val 9) = some i.prec) (hf : s.stallFenced (soleStall q.val 9) = false)
    (hfree : (s.conn n.val).state = 0) (hsl : s.slotsFree f.val slot 3 = true)
    (hr : s.fwRead i.asid (mNum m 0 8) 128 far = (u, some (.ok b))) (hprec : leAt b 2 1 = i.prec) (hasid : leAt b 0x0C 2 = i.asid)
    (hw : (u.connWrite q.val n.val b (some f.val)).2 = 0) : exec (.connCreate f n slot q far) s =
      .next (((u.connWrite q.val n.val b (some f.val)).1.bindSlots f.val slot [.carterSq n.val, .carterRq n.val, .carterCq n.val]).reply f.val m
        0 0 (leBytes 4 n.val ++ leBytes 4 slot)) := by
  refine hm.answer ((if_neg (Nat.not_le.mpr hquota)).trans ?_)
  simp only [hst, hp, hf, hfree, hsl, hr, hprec, hasid, hw, Bool.not_true, Bool.false_eq_true, if_false, ne_eq, not_true_eq_false, or_self,
    State.unitAns, State.ok]

/-- An operation on a connection of the function's own. -/
theorem State.connOp_does {op t : Nat} {body : State → Nat → State × Nat} (hm : InstMsg s f.val t 4 i m)
    (hs : s.connStatus f.val (mNum m 0 4) = 0) (hb : body s (mNum m 0 4) = (u, 0)) :
    done (s.connOp (.msg f) op t body) = .next (u.reply f.val m 0 0 []) := by
  refine hm.answer ?_
  simp only [hs, ne_eq, not_true_eq_false, if_false, hb, State.unitAns, State.ok]

theorem State.connOp_refused {op t : Nat} {body : State → Nat → State × Nat} (hm : InstMsg s f.val t 4 i m)
    (hs : s.connStatus f.val (mNum m 0 4) ≠ 0) :
    done (s.connOp (.msg f) op t body) = .next (s.reply f.val m (s.connStatus f.val (mNum m 0 4)) 0 []) :=
  hm.answer (if_pos hs)

/-- The record of the region that REGION_REGISTER asks for. -/
def regionRecord (i : Inst) (m : Bytes) : Bytes :=
  leBytes 8 (mNum m 0 8) ++ leBytes 8 (mNum m 8 8) ++ leBytes 2 i.asid ++ leBytes 1 (mNum m 16 1 + 128) ++ leBytes 13 0

theorem execRegionRegister_makes (hm : InstMsg s f.val 0x0064 17 i m) (ha : mNum m 16 1 < 16)
    (hfree : nbit (s.region rn.toNat).access 7 = false)
    (hquota : (s.carter.regions.filter fun x => nbit x.2.access 7 && decide (x.2.asid = i.asid)).length < 4 * i.carterConn)
    (hw : s.regionWrite rn.toNat (regionRecord i m) = (u, 0)) :
    exec (.regionRegister f rn) s = .next (u.reply f.val m 0 0 (leBytes 4 ((s.region rn.toNat).gen * 2 ^ 20 + rn.toNat))) := by
  rw [regionRecord] at hw
  refine hm.answer ((if_neg (Nat.not_le.mpr ha)).trans ((if_neg (Nat.not_le.mpr hquota)).trans ((if_neg (ne_true_of_eq_false hfree)).trans ?_)))
  simp only [hw, State.unitAns, State.ok]

theorem execRegionInval_ends (hm : InstMsg s f.val 0x0065 4 i m) (h7 : nbit (s.region (mNum m 0 4 % 2 ^ 20)).access 7 = true)
    (hg : (s.region (mNum m 0 4 % 2 ^ 20)).gen = mNum m 0 4 / 2 ^ 20) (ha : (s.region (mNum m 0 4 % 2 ^ 20)).asid = i.asid) :
    exec (.carterRegionInval (.msg f)) s = .next ((s.setRegion (mNum m 0 4 % 2 ^ 20) { s.region (mNum m 0 4 % 2 ^ 20) with
      access := clearBit (s.region (mNum m 0 4 % 2 ^ 20)).access 7
      gen := ((s.region (mNum m 0 4 % 2 ^ 20)).gen + 1) % 4096 }).reply f.val m 0 0 []) := by
  refine hm.answer ?_
  simp only [h7, hg, ha, Bool.not_true, Bool.false_eq_true, ne_eq, not_true_eq_false, or_self, if_false, State.regionInval, if_true,
    State.unitAns, State.ok]

end

end

/-! ### O47 -/

/-- Settles O47: each message by the lemma of its row. -/
theorem kioskObjects : Obligations.KioskObjects := by
  unfold Obligations.KioskObjects
  constructor
  · intro s u f i m b h n c far x k got size rank others n' g algo p pk c' cg mine hi
    have msg {t n : Nat} (hg : got t n) : InstMsg s k t n i m := ⟨hg, hi⟩
    exact ⟨fun hg h1 h2 h3 h4 hn hnew hr hc => execCommCreate_makes (msg hg) ⟨h1, h2, h3, h4⟩ hn hnew hr hc,
      fun hg h1 h2 h3 h4 hn => execCommCreate_full (msg hg) ⟨h1, h2, h3, h4⟩ hn,
      fun hg hc => (msg hg).answer (if_pos hc), fun hg hc => (msg hg).answer (if_neg (ne_true_of_eq_false hc)),
      fun hg h1 h5 => execKeyGenerate_makes (msg hg) h1 h5, fun hg ha => (msg hg).answer (if_pos ha),
      fun hg => execKeyImport_imports (msg hg), fun hg hs => (msg hg).answer (if_neg (not_not_intro hs)),
      fun hg hs => (msg hg).answer (if_pos hs), fun hg => execCtxCreate_makes (msg hg), fun hg => execCtxDestroy_own (msg hg),
      fun hg => execCtxDestroy_other (msg hg), fun hg => execCtxDestroy_unknown (msg hg)⟩
  · intro s u f i m b ln r slot q n rn far v vol lq ly ring node k got cnt newq rx tx h h2 c g rec' x hi
    have msg {t n : Nat} (hg : got t n) : InstMsg s k t n i m := ⟨hg, hi⟩
    exact ⟨fun hg h1 h27 hl hm hc => execLedgerQueueCreate_makes (msg hg) ⟨h1, h27, hl, hm, hc⟩,
      fun hg hq ho _ hd => execLedgerQueueDelete_ends (msg hg) hq ho hd, fun hg => execLedgerQueueDelete_unknown (msg hg),
      fun hg hq ho hby hr hu hy => ⟨fun hz => (execLedgerQueueReset_begins (msg hg) hq ho hby hr hu hy).trans
          (congrArg Host.Outcome.next (if_pos hz)),
        fun hz => (execLedgerQueueReset_begins (msg hg) hq ho hby hr hu hy).trans
          (congrArg Host.Outcome.next (if_neg (ne_true_of_eq_false hz)))⟩,
      fun hg => execLedgerQueueReset_unknown (msg hg), fun hg => execRxqCreate_makes (msg hg), fun hg => execTxrCreate_makes (msg hg),
      fun hg hf => (msg hg).answer (if_pos (congrArg (!·) hf)), fun hg hf => (msg hg).answer (if_pos (congrArg (!·) hf)),
      fun hg => execRingDestroy_own (msg hg), fun hg => execRingDestroy_other (msg hg),
      fun hg hz hk hw hc hp hr hl hb hm => execTollSet_sets (msg hg) ⟨hz, hk, hw, hc, hp, hr, hl, hb, hm⟩,
      fun hg => execConnCreate_makes (msg hg), fun hg => State.connOp_does (msg hg), fun hg => State.connOp_refused (msg hg),
      fun hg => State.connOp_does (msg hg), fun hg hs => (msg hg).answer (if_neg (not_not_intro hs)), fun hg hs => (msg hg).answer (if_pos hs),
      fun hg => execRegionRegister_makes (msg hg), fun hg ha => (msg hg).answer (if_pos ha), fun hg => execRegionInval_ends (msg hg)⟩

end Sys2Proof.Machine
end

