-- ==== Sys2Proof/Proofs/LedgerCmds.lean ====
section
/-!
SUPPORT. The commands of a Ledger queue (R436–R445, R447).
-/
namespace Sys2Proof.Machine

section
variable {s u : State} {k i op st bad : Nat} {q : LQueue} {c : LCmd} {v : Volume} {body : LQueue → Volume → LCmd → State}

/-! ### Whether a command runs -/

/-- Command `i` of queue `k` has opcode `op`, and has neither started nor ended; its stall works. -/
structure HasCmd (s : State) (k i op : Nat) (q : LQueue) (c : LCmd) : Prop where
  queue : s.lqueue k = some q
  found : q.cmds.find? (fun c => c.idx = i) = some c
  opcode : lOp c.desc = op
  running : c.ended = none
  waiting : c.started = false
  works : s.ledgerOn q.stall = true

/-- The command passes its checks and may run. -/
structure CanRun (s : State) (k i op : Nat) (q : LQueue) (c : LCmd) (v : Volume) : Prop extends HasCmd s k i op q c where
  checked : s.lcheck q c.desc = none
  volume : s.volume q.volume = some v
  ready : s.lready q c = true

/-- A command of its row runs unless a check or another command keeps it. -/
theorem HasCmd.lrun (h : HasCmd s k i op q c) (body : LQueue → Volume → LCmd → State) : s.lrun k i op body =
    match s.lcheck q c.desc, s.volume q.volume with
    | some st, _ => s.endCmd k c st 0
    | none, some v => if s.lready q c then body q v c else s
    | none, none => s := by
  simp only [State.lrun, h.queue, h.found, h.opcode, h.running, h.waiting, h.works, ne_eq, not_true_eq_false, decide_false, Bool.and_false,
    Option.isSome_none, Bool.or_self, Bool.not_true, Bool.false_eq_true, if_false] <;> rfl

theorem CanRun.lrun (h : CanRun s k i op q c v) (body : LQueue → Volume → LCmd → State) : s.lrun k i op body = body q v c := by
  rw [h.toHasCmd.lrun, h.checked, h.volume]
  exact if_pos h.ready

theorem HasCmd.lrun_fails (h : HasCmd s k i op q c) (hc : s.lcheck q c.desc = some st) (body : LQueue → Volume → LCmd → State) :
    s.lrun k i op body = s.endCmd k c st 0 := by
  rw [h.lrun, hc]

theorem HasCmd.lrun_waits (h : HasCmd s k i op q c) (hc : s.lcheck q c.desc = none) (hv : s.volume q.volume = some v)
    (hr : s.lready q c = false) (body : LQueue → Volume → LCmd → State) : s.lrun k i op body = s := by
  rw [h.lrun, hc, hv]
  exact if_neg (ne_true_of_eq_false hr)

theorem State.lrun_noQueue (h : s.lqueue k = none) (body : LQueue → Volume → LCmd → State) : s.lrun k i op body = s := by
  simp only [State.lrun, h]

end

/-! ### What each command does -/

section
variable {s u : State} {n : Fin 4096} {i bad o : Nat} {q : LQueue} {c : LCmd} {v : Volume} {r : Replica} {a b : Bytes} {far : List FarAns}

/-- The write of a read's bytes to the buffer of the command. -/
def State.sendData (s : State) (q : LQueue) (c : LCmd) (b : Bytes) : State × Except IoStop Unit :=
  (ioWrite q.stall q.st q.asid (lData c.desc) b false).at s []

theorem execLedgerRead_sends (h : CanRun s n.val i 1 q c v) (hr : (v.replicas.filter (·.up))[bad]? = some r)
    (hb : r.read (2 ^ v.log2) (lLba c.desc) (lBlocks c.desc) = b) (hw : s.sendData q c b = (u, .ok ())) :
    exec (.ledgerRead n i bad false) s = .next ((u.ledgerEvent q 7 (lBlocks c.desc * 2 ^ v.log2)).endCmd n.val c 0 0) := by
  rw [State.sendData] at hw
  refine congrArg Host.Outcome.next ((h.lrun _).trans ?_)
  simp only [hr, hb, hw, Bool.false_eq_true, if_false, if_true]

theorem execLedgerRead_fault (h : CanRun s n.val i 1 q c v) (hr : (v.replicas.filter (·.up))[bad]? = some r)
    (hb : r.read (2 ^ v.log2) (lLba c.desc) (lBlocks c.desc) = b) (hw : s.sendData q c b = (u, .error .fault)) :
    exec (.ledgerRead n i bad false) s = .next (u.endCmd n.val c 0x05 0) := by
  rw [State.sendData] at hw
  refine congrArg Host.Outcome.next ((h.lrun _).trans ?_)
  simp only [hr, hb, hw, Bool.false_eq_true, if_false]

/-- A write that starts holds its data. -/
def State.started (s : State) (k : Nat) (q : LQueue) (c : LCmd) (b : Bytes) : State :=
  s.setLqueue k (q.setCmd { c with started := true, data := b })

theorem execLedgerWrite_outcome (h : CanRun s n.val i 2 q c v) {x : State × Except IoStop (Bytes × Bool)}
    (hx : (ioRead q.stall q.st q.asid (lData c.desc) (lBlocks c.desc * 2 ^ v.log2)).at s far = x) :
    (x = (u, .ok (b, false)) → exec (.ledgerWrite n i false far) s = .next (u.started n.val q c b)) ∧
    (x = (u, .ok (b, true)) → exec (.ledgerWrite n i false far) s = .next (u.endCmd n.val c 0x06 0)) ∧
    (x = (u, .error .fault) → exec (.ledgerWrite n i false far) s = .next (u.endCmd n.val c 0x05 0)) := by
  refine ⟨fun hu => ?_, fun hu => ?_, fun hu => ?_⟩
  · refine congrArg Host.Outcome.next ((h.lrun _).trans ?_)
    simp only [hx.trans hu, Bool.false_eq_true, if_false]
    rfl
  · refine congrArg Host.Outcome.next ((h.lrun _).trans ?_)
    simp only [hx.trans hu]
  · refine congrArg Host.Outcome.next ((h.lrun _).trans ?_)
    simp only [hx.trans hu]

theorem execLedgerFlush_ends (h : CanRun s n.val i 3 q c v) (hw : ∀ y ∈ q.cmds, y.idx < c.idx → lIsWrite y.desc = true → y.ended ≠ none) :
    exec (.ledgerFlush n i) s = .next (s.endCmd n.val c 0 0) := by
  refine congrArg Host.Outcome.next ((h.lrun _).trans (if_pos (List.all_eq_true.mpr fun y hy => ?_)))
  by_cases hi : y.idx < c.idx <;> cases hd : lIsWrite y.desc
  · simp
  · simp [Option.isSome_iff_ne_none.mpr (hw y hy hi hd)]
  · simp
  · simp [Nat.not_lt.mp hi]

theorem execLedgerFlush_waits (h : CanRun s n.val i 3 q c v) (hw : ∃ y ∈ q.cmds, y.idx < c.idx ∧ lIsWrite y.desc = true ∧ y.ended = none) :
    exec (.ledgerFlush n i) s = .next s := by
  obtain ⟨y, hy, hi, hd, he⟩ := hw
  refine congrArg Host.Outcome.next ((h.lrun _).trans (if_neg fun hall => ?_))
  have hone := List.all_eq_true.mp hall y hy
  simp [Nat.not_le.mpr hi, hd, he] at hone

/-- The read of the bytes to compare and of the bytes to write. -/
def cellPair (q : LQueue) (c : LCmd) (v : Volume) : IoM ((Bytes × Bool) × (Bytes × Bool)) := do
  let x ← ioRead q.stall q.st q.asid (lAux c.desc) (lBlocks c.desc * 2 ^ v.log2)
  let y ← ioRead q.stall q.st q.asid (lData c.desc) (lBlocks c.desc * 2 ^ v.log2)
  pure (x, y)

theorem execLedgerCompareAndWrite_equal (h : CanRun s n.val i 6 q c v) (hx : (cellPair q c v).at s far = (u, .ok ((a, false), (b, false))))
    (hr : (v.replicas.filter (·.up))[bad]? = some r)
    (hd : firstDiff (r.read (2 ^ v.log2) (lLba c.desc) (lBlocks c.desc)) a = none) :
    exec (.ledgerCompareAndWrite n i bad false far) s = .next (u.started n.val q c b) := by
  rw [cellPair] at hx
  refine congrArg Host.Outcome.next ((h.lrun _).trans ?_)
  simp only [hx, hr, hd, Bool.or_self, Bool.false_eq_true, if_false]
  rfl

theorem execLedgerCompareAndWrite_differs (h : CanRun s n.val i 6 q c v) (hx : (cellPair q c v).at s far = (u, .ok ((a, false), (b, false))))
    (hr : (v.replicas.filter (·.up))[bad]? = some r)
    (hd : firstDiff (r.read (2 ^ v.log2) (lLba c.desc) (lBlocks c.desc)) a = some o) :
    exec (.ledgerCompareAndWrite n i bad false far) s = .next (u.endCmd n.val c 0x41 o) := by
  rw [cellPair] at hx
  refine congrArg Host.Outcome.next ((h.lrun _).trans ?_)
  simp only [hx, hr, hd, Bool.or_self, Bool.false_eq_true, if_false]

/-- Every earlier command of the volume has ended. -/
theorem not_waits {p : Bool} (h : p = true) : ¬ (!p) = true := by rw [h]; decide

theorem execLedgerSanitise_begins (h : CanRun s n.val i 7 q c v) (he : s.earlierDone q.volume c.seq = true) (hn : s.volumeOps < 64) :
    exec (.ledgerSanitise n i) s = .next (((s.useFresh 64).setVolume q.volume
      { v with op := 1, regionsDone := 0, regions := v.regionCount, key := s.freeBytes 64, uncertain := [] }).endCmd n.val c 0 0) :=
  congrArg Host.Outcome.next ((h.lrun _).trans ((if_neg (not_waits he)).trans (if_neg (Nat.not_le.mpr hn))))

theorem execLedgerSanitise_full (h : CanRun s n.val i 7 q c v) (he : s.earlierDone q.volume c.seq = true) (hn : 64 ≤ s.volumeOps) :
    exec (.ledgerSanitise n i) s = .next (s.endCmd n.val c 0x46 0) :=
  congrArg Host.Outcome.next ((h.lrun _).trans ((if_neg (not_waits he)).trans (if_pos hn)))

theorem execLedgerGetFeatures_writes (h : CanRun s n.val i 9 q c v)
    (hw : (ioWrite q.stall q.st q.asid (lAux c.desc) (s.feature q v (lArg0 c.desc)) false).at s [] = (u, .ok ())) :
    exec (.ledgerGetFeatures n i) s = .next (u.endCmd n.val c 0 0) := by
  refine congrArg Host.Outcome.next ((h.lrun _).trans ?_)
  simp only [hw]

theorem execLedgerSetPowerState_sets (h : CanRun s n.val i 11 q c v) (hp : lArg0 c.desc < 2) : exec (.ledgerSetPowerState n i) s =
    .next ((s.setVolume q.volume { v with power := lArg0 c.desc }).endCmd n.val c 0 0) :=
  congrArg Host.Outcome.next ((h.lrun _).trans (if_neg fun hw => Nat.not_le.mpr hp hw.1))

theorem execLedgerSetPowerState_waits (h : CanRun s n.val i 11 q c v) (hp : 2 ≤ lArg0 c.desc) (hne : lArg0 c.desc ≠ v.power)
    (he : s.earlierDone q.volume c.seq = false) : exec (.ledgerSetPowerState n i) s = .next s :=
  congrArg Host.Outcome.next ((h.lrun _).trans (if_pos ⟨hp, hne, congrArg (!·) he⟩))

end

/-! ### O48 -/

/-- Settles O48: a command that may run by its own lemma, one that may not by what `lrun` leaves. -/
theorem ledgerCommands : Obligations.LedgerCommands := by
  unfold Obligations.LedgerCommands
  intro s u n i bad st far q c v b a r x k d size here can up start zeros idle write cells lg
  have has {op : Nat} (h : here op) : HasCmd s k i op q c := ⟨h.1, h.2.1, h.2.2.1, h.2.2.2.1, h.2.2.2.2.1, h.2.2.2.2.2⟩
  have run {op : Nat} (h : can op) : CanRun s k i op q c v := ⟨has h.1, h.2.1, h.2.2.1, h.2.2.2⟩
  have rest (op : Nat) (body : LQueue → Volume → LCmd → State) : idle op (done (s.lrun k i op body)) :=
    ⟨fun h hc => congrArg Host.Outcome.next ((has h).lrun_fails hc body),
      fun h hc hv hr => congrArg Host.Outcome.next ((has h).lrun_waits hc hv hr body),
      fun h => congrArg Host.Outcome.next (State.lrun_noQueue h body)⟩
  exact ⟨fun h => execLedgerRead_sends (run h), fun h => execLedgerRead_fault (run h), fun h => execLedgerWrite_outcome (run h),
    fun h => execLedgerFlush_ends (run h), fun h => execLedgerFlush_waits (run h), fun h => congrArg Host.Outcome.next ((run h).lrun _),
    fun h => congrArg Host.Outcome.next ((run h).lrun _),
    fun h hx hr => ⟨execLedgerCompareAndWrite_equal (run h) hx hr, fun _ => execLedgerCompareAndWrite_differs (run h) hx hr⟩,
    fun h => execLedgerSanitise_begins (run h), fun h => execLedgerSanitise_full (run h),
    fun h he hn => congrArg Host.Outcome.next (((run h).lrun _).trans ((if_neg (not_waits he)).trans (if_neg (Nat.not_le.mpr hn)))),
    fun h => execLedgerGetFeatures_writes (run h), fun h => congrArg Host.Outcome.next ((run h).lrun _),
    fun h => execLedgerSetPowerState_sets (run h), fun h => execLedgerSetPowerState_waits (run h),
    rest 1 _, rest 2 _, rest 3 _, rest 4 _, rest 5 _, rest 6 _, rest 7 _, rest 8 _, rest 9 _, rest 10 _, rest 11 _⟩

end Sys2Proof.Machine
end

