-- ==== Sys2Proof/Proofs/LedgerQueues.lean ====
section
/-!
SUPPORT. The other rows of a Ledger stall (R434, R435, R441, R443, R446–R449, R451, R454): doorbells, fetch, replicas, completions and the
operations of LEDGER_OP.
-/
namespace Sys2Proof.Machine

/-! ### Queues and volumes -/

section
variable {s u : State} {f : FuncNo} {n vol : Fin 4096} {r : Fin 3} {slot m i j pn : Nat} {w : W64} {q y : LQueue} {c : LCmd} {v : Volume}
  {d : Bytes} {bad : Bool} {far : List FarAns} {un : Nat × Nat} {rep : Replica} {kq : Qn}

theorem State.lqueue_setLqueue_same (s : State) (k : Nat) (q : LQueue) : (s.setLqueue k q).lqueue k = some q := look_put_same _ _ _

theorem State.lqueue_setLqueue_ne (s : State) {k x : Nat} (q : LQueue) (h : x ≠ k) : (s.setLqueue k q).lqueue x = s.lqueue x := look_put_ne _ _ h

theorem State.setLqueue_setLqueue (s : State) (k : Nat) (q y : LQueue) : ((s.setLqueue k q).setLqueue k y).lqueue k = some y :=
  look_put_same _ _ _

theorem State.lqueue_of_ledger {t : State} (h : t.ledger = s.ledger) (k : Nat) : t.lqueue k = s.lqueue k := by rw [State.lqueue, h, State.lqueue]

/-! ### Doorbells and fetch -/

/-- The index that a doorbell names in a ring. -/
def ringIndex (w : W64) (lg : Nat) : Nat := w.toNat % 2 ^ 16 % 2 ^ lg

theorem execLedgerSqDoorbell_bound (hs : s.slotOf f.val slot = some (.ledgerSq m)) (hq : s.lqueue m = some y) :
    exec (.ledgerSqDoorbell f slot w) s = .next (s.setLqueue m { y with sqTail := advanceTo y.sqTail y.sqLog (ringIndex w y.sqLog) }) := by
  show execLedgerSqDoorbell f slot w s = _
  simp only [execLedgerSqDoorbell, hs, hq, ringIndex, done]

theorem execLedgerCqDoorbell_bound (hs : s.slotOf f.val slot = some (.ledgerCq m)) (hq : s.lqueue m = some y) :
    exec (.ledgerCqDoorbell f slot w) s =
      .next (s.setLqueue m { y with cqHead := min y.cqTail (advanceTo y.cqHead y.cqLog (ringIndex w y.cqLog)) }) := by
  show execLedgerCqDoorbell f slot w s = _
  simp only [execLedgerCqDoorbell, hs, hq, ringIndex, done]

theorem execLedgerDoorbell_stray (hs : s.slotOf f.val slot = none) : exec (.ledgerSqDoorbell f slot w) s = .next (s.slotStray f.val) ∧
    exec (.ledgerCqDoorbell f slot w) s = .next (s.slotStray f.val) := by
  constructor
  · show execLedgerSqDoorbell f slot w s = _
    simp only [execLedgerSqDoorbell, hs, done]
  · show execLedgerCqDoorbell f slot w s = _
    simp only [execLedgerCqDoorbell, hs, done]

/-- The Ledger's count of fetched commands goes on. -/
def State.nextSeq (s : State) : State := { s with ledger := { s.ledger with seq := s.ledger.seq + 1 } }

/-- The command that a queue fetches. -/
def LQueue.fetched (q : LQueue) (seq : Nat) (d : Bytes) (bad : Bool) : LCmd :=
  { idx := q.sqHead, seq := seq, desc := d, ended := if bad then some (0x06, 0) else none }

theorem execLedgerFetch_takes (hq : s.lqueue n.val = some q) (hf : s.lmayFetch n.val q = true)
    (hp : s.unitParity q.st ⟨.ledgerErr, q.stall, 0⟩ F.ledgerErr_PARITY = none)
    (hr : (ioRead q.stall q.st q.asid (q.sqBase + q.sqHead % 2 ^ q.sqLog * 64) 64).at s far = (u, .ok (d, bad)))
    (hok : s.fetchOk q d = true) : exec (.ledgerFetch n far) s = .next ((u.nextSeq.setLqueue n.val { q with
      sqHead := q.sqHead + 1, cmds := q.cmds ++ [q.fetched u.ledger.seq d bad], waiting := false }).takeMet (.ledger n.val)).1 := by
  rw [State.nextSeq, LQueue.fetched]
  show execLedgerFetch n far s = _
  simp only [execLedgerFetch, hq, hf, hp, hr, hok, Bool.not_true, Bool.false_eq_true, if_false, done]

theorem execLedgerFetch_paused (hq : s.lqueue n.val = some q) (hf : s.lmayFetch n.val q = false) :
    exec (.ledgerFetch n far) s = .next s := by
  show execLedgerFetch n far s = _
  simp only [execLedgerFetch, hq, hf, Bool.not_false, if_true, done]

theorem exec_noQueue (hq : s.lqueue n.val = none) : exec (.ledgerDurable n i m j) s = .next s ∧ exec (.ledgerFetch n far) s = .next s ∧
    exec (.ledgerCompletion n i) s = .next s := by
  refine ⟨?_, ?_, ?_⟩
  · show execLedgerDurable n i m j s = _
    simp only [execLedgerDurable, hq, done]
  · show execLedgerFetch n far s = _
    simp only [execLedgerFetch, hq, done]
  · show execLedgerCompletion n i s = _
    simp only [execLedgerCompletion, State.lcomplete, hq, done]

/-! ### Replicas -/

/-- The records of the write of a command. -/
def Volume.recordsOf (v : Volume) (c : LCmd) : List (Nat × Nat) := records (v.range c.desc).1 (v.range c.desc).2

theorem execLedgerDurable_applies (hq : s.lqueue n.val = some q) (hc : q.cmds.find? (fun c => c.idx = i) = some c)
    (hv : s.volume q.volume = some v) (hs : c.started = true) (he : c.ended = none) (hr : v.replicas[m]? = some rep) (hu : rep.up = true)
    (hj : j < (v.recordsOf c).length) (ha : c.acks.contains (m, j) = false) : exec (.ledgerDurable n i m j) s =
      .next (((s.setVolume q.volume (v.apply m (v.range c.desc).1 c.data ((v.recordsOf c).getD j (0, 0)))).setLqueue n.val
        (q.setCmd { c with acks := (m, j) :: c.acks })).settleWrites q.volume) := by
  rw [Volume.recordsOf] at hj ⊢
  show execLedgerDurable n i m j s = _
  simp only [execLedgerDurable, hq, hc, hv, hs, he, hr, hu, ha, decide_eq_false (Nat.not_le.mpr hj), Option.any_some, Option.isSome_none,
    Bool.not_true, Bool.or_self, Bool.false_eq_true, if_false, done]

/-- A volume one of whose replicas is out. -/
def Volume.without (v : Volume) (r : Nat) : Volume := { v with replicas := v.replicas.mapIdx fun i x => if i = r then { x with up := false } else x }

theorem execLedgerReplicaTimeout_out (hv : s.volume vol.val = some v) (hr : v.replicas[r.val]? = some rep) (hu : rep.up = true) :
    exec (.ledgerReplicaTimeout kq vol r) s =
      .next ((((s.fsat ⟨.ledgerErr, kq.val, 0⟩ F.ledgerErr_REPLICA_OUT 1).stallEvent (soleStall kq.val 10) 9 1 0 0).setVolume vol.val
        (v.without r.val)).settleWrites vol.val) := by
  rw [Volume.without]
  show execLedgerReplicaTimeout kq vol r s = _
  simp only [execLedgerReplicaTimeout, hv, hr, hu, Option.any_some, Bool.not_true, Bool.false_eq_true, if_false, done]

theorem execLedgerPieceRepair_copies (hv : s.volume vol.val = some v) (hu : v.uncertain[pn]? = some un) (hr : v.first = some rep) :
    exec (.ledgerPieceRepair vol pn) s = .next (s.setVolume vol.val { v with
      uncertain := v.uncertain.eraseIdx pn
      replicas := v.replicas.map fun x => if x.up then
        x.write (2 ^ v.log2) (un.1 / 2 ^ v.log2) (rep.read (2 ^ v.log2) (un.1 / 2 ^ v.log2) (un.2 / 2 ^ v.log2)) else x }) := by
  show execLedgerPieceRepair vol pn s = _
  simp only [execLedgerPieceRepair, hv, hu, hr, done]

theorem execLedgerSanitiseRegionDone_more (hv : s.volume vol.val = some v) (ho : v.op ≠ 0) (hr : v.regionsDone + 1 < v.regions) :
    exec (.ledgerSanitiseRegionDone vol) s = .next (s.setVolume vol.val { v with regionsDone := v.regionsDone + 1 }) := by
  show execLedgerSanitiseRegionDone vol s = _
  simp only [execLedgerSanitiseRegionDone, hv, if_neg ho, if_pos hr, done]

theorem execLedgerSanitiseRegionDone_last (hv : s.volume vol.val = some v) (ho : v.op ≠ 0) (hr : v.regions ≤ v.regionsDone + 1) :
    exec (.ledgerSanitiseRegionDone vol) s = .next (s.setVolume vol.val
      { v with op := 0, regionsDone := v.regions, replicas := v.replicas.map fun r => { r with blocks := [] } }) := by
  show execLedgerSanitiseRegionDone vol s = _
  simp only [execLedgerSanitiseRegionDone, hv, if_neg ho, if_neg (Nat.not_lt.mpr hr), done]

theorem execReplicaReturn_first (hv : s.volume vol.val = some v) (hr : v.replicas[r.val]? = some rep) (hu : rep.up = false)
    (hf : v.first = none) : exec (.replicaReturn vol r) s = .next (s.setVolume vol.val { v with
      replicas := v.replicas.mapIdx fun i x => if i = r.val then { up := true, blocks := x.blocks } else x }) := by
  show execReplicaReturn vol r s = _
  simp only [execReplicaReturn, hv, hr, hu, hf, Option.all_some, Bool.false_eq_true, if_false, done]

theorem exec_noVolume (hv : s.volume vol.val = none) : exec (.ledgerSanitiseRegionDone vol) s = .next s ∧
    exec (.replicaReturn vol r) s = .next s ∧ exec (.ledgerPieceRepair vol pn) s = .next s ∧
    exec (.ledgerReplicaTimeout kq vol r) s = .next s := by
  refine ⟨?_, ?_, ?_, ?_⟩
  · show execLedgerSanitiseRegionDone vol s = _
    simp only [execLedgerSanitiseRegionDone, hv, done]
  · show execReplicaReturn vol r s = _
    simp only [execReplicaReturn, hv, done]
  · show execLedgerPieceRepair vol pn s = _
    simp only [execLedgerPieceRepair, hv, done]
  · show execLedgerReplicaTimeout kq vol r s = _
    simp only [execLedgerReplicaTimeout, hv, done]

/-! ### Completions -/

theorem execIrqCoalesceTimeout_sends (hq : s.lqueue n.val = some q) (hi : q.irqs ≠ 0) : exec (.irqCoalesceTimeout n) s =
    .next ((s.setLqueue n.val { q with irqs := 0 }).sendMsix q.func q.msix) := by
  show execIrqCoalesceTimeout n s = _
  simp only [execIrqCoalesceTimeout, hq, if_neg hi, done]

theorem execIrqCoalesceTimeout_none (hq : s.lqueue n.val = some q) (hi : q.irqs = 0) : exec (.irqCoalesceTimeout n) s = .next s := by
  show execIrqCoalesceTimeout n s = _
  simp only [execIrqCoalesceTimeout, hq, if_pos hi, done]

end

section
variable {s u : State} {n i st res : Nat} {q : LQueue} {c : LCmd}

/-- The 16 bytes of a completion. -/
def LQueue.completion (q : LQueue) (c : LCmd) (st res : Nat) : Bytes :=
  leBytes 4 res ++ leBytes 2 (lCid c.desc) ++ leBytes 2 (q.sqHead % 2 ^ q.sqLog) ++ leBytes 2 (c.idx % 2 ^ q.sqLog) ++
    leBytes 1 st ++ leBytes 1 0 ++ leBytes 4 (2 ^ 31 * b2n (phaseOf q.cqLog q.cqTail))

theorem State.lcomplete_running (hq : s.lqueue n = some q) (hc : q.cmds.find? (fun c => c.idx = i) = some c) (he : c.ended = none) :
    s.lcomplete n i = s := by
  simp only [State.lcomplete, hq, hc, he]

theorem State.lcomplete_full (hq : s.lqueue n = some q) (hc : q.cmds.find? (fun c => c.idx = i) = some c) (he : c.ended = some (st, res))
    (hd : q.dbBell = false) (hf : q.cqTail = q.cqHead + 2 ^ q.cqLog) : s.lcomplete n i = s := by
  have hroom : 2 ^ q.cqLog ≤ q.cqTail - q.cqHead := by omega
  simp only [State.lcomplete, hq, hc, he, hd, decide_eq_true hroom, Bool.not_false, Bool.and_self, if_true]

theorem State.ledgerEvent_ledger (s : State) (q : LQueue) (slot n : Nat) : (s.ledgerEvent q slot n).ledger = s.ledger :=
  congrArg (fun x => x.2.2.2.2.2.2.2) (State.stallEvent_engines ..)

/-- A reset that is not in progress does not end. -/
theorem State.resetEnd_none (hq : s.lqueue n = some q) (hr : q.resetting = false) : s.resetEnd n = s := by
  simp only [State.resetEnd, hq, hr, Bool.false_and, Bool.false_eq_true, if_false]

/-- A queue without the command whose completion has been written. -/
def LQueue.completed (q : LQueue) (i : Nat) : LQueue := { q with cqTail := q.cqTail + 1, cmds := q.cmds.filter (·.idx ≠ i) }

theorem State.lcomplete_writes (hq : s.lqueue n = some q) (hc : q.cmds.find? (fun c => c.idx = i) = some c) (he : c.ended = some (st, res))
    (hroom : q.cqTail < q.cqHead + 2 ^ q.cqLog) (hirq : nbit (lFlags c.desc) 0 = true) (hr : q.resetting = false)
    (hw : (ioCompletion q.stall q.st q.asid (ringAt q.cqBase q.cqLog q.cqTail) (q.completion c st res)).at s [] = (u, .ok ())) :
    s.lcomplete n i = (u.setLqueue n (q.completed i)).ledgerEvent q 6 1 := by
  have hpos : 0 < 2 ^ q.cqLog := Nat.pos_of_ne_zero (by simp)
  have hfree : ¬ 2 ^ q.cqLog ≤ q.cqTail - q.cqHead := by omega
  have hkeep : ((u.setLqueue n (q.completed i)).ledgerEvent q 6 1).lqueue n = some (q.completed i) :=
    (State.lqueue_of_ledger (State.ledgerEvent_ledger ..) n).trans (State.lqueue_setLqueue_same ..)
  refine Eq.trans ?_ (State.resetEnd_none hkeep hr)
  rw [LQueue.completion] at hw
  rw [LQueue.completed]
  simp only [State.lcomplete, hq, hc, he, decide_eq_false hfree, Bool.and_false, Bool.false_eq_true, if_false, hw, hirq, if_true]

end

/-! ### LEDGER_OP -/

/-- The operation register of a Ledger stall. -/
def ledgerOpReg (k : Nat) : Reg := ⟨.ledgerOp, k, 0⟩

section
variable {s : State} {rq : Requester} {k p : Nat} {w : W64} {y : LQueue} {kq : Qn}

/-- The queue that an operation names. -/
def opQueue (w : W64) : Nat := bitsOf w F.ledgerOp_QUEUE

/-- A kernel core writes LEDGER_OP of a stall that is not BUSY. -/
structure LedgerOn (s : State) (rq : Requester) (k : Nat) : Prop where
  kernel : rqKernel rq = true
  idle : s.fbit (ledgerOpReg k) F.ledgerOp_BUSY = false

/-- An operation ends with its STATUS. -/
def State.ledgerFin (k : Nat) (x : State × Nat) : State := x.1.fset (ledgerOpReg k) F.ledgerOp_STATUS x.2

theorem ledgerOpWord_op {n : Nat} (hn : n < 8) : bitsOf (ledgerOpWord n w) F.ledgerOp_OP = n :=
  (bitsOf_setBits_same _ _ (by decide)).trans (Nat.mod_eq_of_lt hn)

theorem ledgerOpWord_queue (n : Nat) : bitsOf (ledgerOpWord n w) F.ledgerOp_QUEUE = opQueue w := bitsOf_setBits_apart _ _ (by decide)

theorem State.ledgerOpWrite_off (h : ¬ (rqKernel rq = true ∧ s.fbit (ledgerOpReg k) F.ledgerOp_BUSY = false)) :
    s.ledgerOpWrite rq k w = s.refuse rq (ledgerOpReg k) := by
  refine if_pos ?_
  rw [Bool.or_eq_true, Bool.not_eq_true']
  by_cases hk : rqKernel rq = true
  · exact .inr (by simpa [ledgerOpReg] using fun hb => h ⟨hk, hb⟩)
  · exact .inl (by simpa using hk)

theorem LedgerOn.runs (h : LedgerOn s rq k) : ¬ (!rqKernel rq || s.fbit (ledgerOpReg k) F.ledgerOp_BUSY) = true := by
  rw [h.kernel, h.idle]
  decide

theorem LedgerOn.create (h : LedgerOn s rq k) (hp : s.precOfStall (soleStall k 10) = some p) :
    s.ledgerOpWrite rq k (ledgerOpWord 1 w) = State.ledgerFin k
      (if leAt (s.ledgerStaged k) 0 1 ≠ 0 ∨ (!allZero (slice (s.ledgerStaged k) 0x2A 22)) = true then (s, 1)
        else s.lqueueCreate (opQueue w) (LQueue.of k p (s.ledgerStaged k))) := by
  refine (if_neg h.runs).trans ?_
  simp only [ledgerOpWord_op (show 1 < 8 by decide), ledgerOpWord_queue, hp]
  split <;> rfl

/-- The operations that name a queue and end at once. -/
theorem LedgerOn.op (h : LedgerOn s rq k) : s.ledgerOpWrite rq k (ledgerOpWord 2 w) = State.ledgerFin k (s.lqueueDelete (opQueue w)) ∧
    s.ledgerOpWrite rq k (ledgerOpWord 4 w) = State.ledgerFin k (s.lqueueState (opQueue w) 2) ∧
    s.ledgerOpWrite rq k (ledgerOpWord 5 w) = State.ledgerFin k (s.lqueueState (opQueue w) 1) ∧
    s.ledgerOpWrite rq k (ledgerOpWord 6 w) = State.ledgerFin k (s.lqueueRead k (opQueue w)) := by
  refine ⟨(if_neg h.runs).trans ?_, (if_neg h.runs).trans ?_, (if_neg h.runs).trans ?_, (if_neg h.runs).trans ?_⟩
  · simp only [ledgerOpWord_op (show 2 < 8 by decide), ledgerOpWord_queue]
    rfl
  · simp only [ledgerOpWord_op (show 4 < 8 by decide), ledgerOpWord_queue]
    rfl
  · simp only [ledgerOpWord_op (show 5 < 8 by decide), ledgerOpWord_queue]
    rfl
  · simp only [ledgerOpWord_op (show 6 < 8 by decide), ledgerOpWord_queue]
    rfl

theorem LedgerOn.reset_none (h : LedgerOn s rq k) (hq : s.lqueue (opQueue w) = none) :
    s.ledgerOpWrite rq k (ledgerOpWord 3 w) = State.ledgerFin k (s, 5) := by
  refine (if_neg h.runs).trans ?_
  simp only [ledgerOpWord_op (show 3 < 8 by decide), ledgerOpWord_queue, hq]
  rfl

theorem LedgerOn.reset (h : LedgerOn s rq k) (hq : s.lqueue (opQueue w) = some y) (hk : y.stall = k) :
    s.ledgerOpWrite rq k (ledgerOpWord 3 w) = ((s.fset (ledgerOpReg k) F.ledgerOp_BUSY 1).lqueueReset (opQueue w) none).1 := by
  refine (if_neg h.runs).trans ?_
  simp only [ledgerOpWord_op (show 3 < 8 by decide), ledgerOpWord_queue, hq, hk, ne_eq, not_true_eq_false, if_false]
  rfl

end

/-! ### What the operations leave -/

section
variable {s : State} {k n : Nat} {q : LQueue}

theorem State.lqueueCreate_new (hn : s.lqueue n = none) (hok : s.lqueueOk q = true) (hp : s.lqueueCount q.prec < s.lqueuePool q.prec) :
    s.lqueueCreate n q = (s.setLqueue n q, 0) := by
  simp only [State.lqueueCreate, hn, hok, Option.isSome_none, Bool.not_true, Bool.false_eq_true, if_false, if_neg (Nat.not_le.mpr hp)]

/-- A queue without commands deleted. -/
def State.withoutQueue (s : State) (n : Nat) : State := { s with ledger := { s.ledger with queues := drop s.ledger.queues n } }

theorem State.lqueueDelete_empty (hq : s.lqueue n = some q) (hc : q.cmds = []) :
    s.lqueueDelete n = ((s.dropWaiters fun w => w = .ledger n).withoutQueue n, 0) := by
  simp only [State.lqueueDelete, hq, hc, List.isEmpty_nil, Bool.not_true, Bool.false_eq_true, if_false, State.withoutQueue]

theorem State.lqueueDelete_busy (hq : s.lqueue n = some q) (hc : q.cmds ≠ []) : s.lqueueDelete n = (s, 5) := by
  have hsome : (!q.cmds.isEmpty) = true := by
    rw [Bool.not_eq_true', List.isEmpty_eq_false_iff]
    exact hc
  simp only [State.lqueueDelete, hq, hsome, if_true]

theorem State.lqueueDelete_none (hq : s.lqueue n = none) : s.lqueueDelete n = (s, 4) := by
  simp only [State.lqueueDelete, hq]

theorem State.lqueueState_none (hq : s.lqueue n = none) (x : Nat) : s.lqueueState n x = (s, 5) := by
  simp only [State.lqueueState, hq]

theorem State.lqueueState_some (hq : s.lqueue n = some q) (x : Nat) : s.lqueueState n x = (s.setLqueue n { q with state := x }, 0) := by
  simp only [State.lqueueState, hq]

/-- Waiters of nobody leave no queue, no register and no memory changed. -/
theorem State.dropWaiters_absent {p : WaitSrc → Bool} (h : ∀ x ∈ s.bell.queue, ∀ w ∈ x.2, p w.src = false) :
    (s.dropWaiters p).regs = s.regs ∧ (s.dropWaiters p).ledger = s.ledger := by
  have hks : (s.bell.queue.filter fun x => x.2.any fun w => p w.src) = [] := by
    simp only [List.filter_eq_nil_iff, List.any_eq_true, not_exists, not_and]
    exact fun x hx w hw => by simp [h x hx w hw]
  rw [State.dropWaiters, hks]
  exact ⟨rfl, rfl⟩

/-! QUEUE_RESET -/

/-- A queue whose reset has ended. -/
def LQueue.afterReset (q : LQueue) : LQueue := { q with
  sqHead := 0
  sqTail := 0
  cqTail := 0
  cqHead := 0
  resetting := false
  resetBy := none
  state := if q.state = 2 then 1 else q.state }

theorem State.endCmds_empty (hq : s.lqueue n = some q) (hc : q.cmds = []) (st : Nat) : s.endCmds n st = s.setLqueue n q := by
  simp only [State.endCmds, hq, hc, List.filter_nil, List.foldl_nil, List.map_nil]
  rw [← hc]

theorem State.resetEnd_ends (hq : s.lqueue n = some q) (hr : q.resetting = true) (hc : q.cmds = []) (hb : q.resetBy = none) :
    s.resetEnd n = ((s.setLqueue n { q.afterReset with resetBy := q.resetBy }).fset (ledgerOpReg q.stall) F.ledgerOp_BUSY 0).fset
      (ledgerOpReg q.stall) F.ledgerOp_STATUS 0 := by
  simp only [State.resetEnd, hq, hr, hc, hb, List.isEmpty_nil, Bool.and_self, if_true, Option.isSome_none, Bool.false_eq_true, if_false,
    LQueue.afterReset]
  rfl

/-- A queue whose reset has begun. -/
def LQueue.inReset (q : LQueue) : LQueue := { q with resetting := true, resetBy := none }

theorem State.lqueueReset_empty (hq : s.lqueue n = some q) (hc : q.cmds = []) : (s.lqueueReset n none).1 =
    (((((s.setLqueue n q.inReset).setLqueue n q.inReset).setLqueue n q.afterReset).fset (ledgerOpReg q.stall) F.ledgerOp_BUSY 0).fset
      (ledgerOpReg q.stall) F.ledgerOp_STATUS 0) := by
  have hend := State.resetEnd_ends (State.setLqueue_setLqueue s n q.inReset q.inReset) rfl hc rfl
  have hcmds := State.endCmds_empty (State.lqueue_setLqueue_same s n q.inReset) hc 0x43
  refine Eq.trans ?_ hend
  rw [← hcmds]
  simp only [State.lqueueReset, hq, hc, List.map_nil, List.foldl_nil, LQueue.inReset]

theorem State.setLqueue_regs (s : State) (n : Nat) (q : LQueue) : (s.setLqueue n q).regs = s.regs := rfl

theorem State.setLqueue_home (s : State) (n : Nat) (q : LQueue) : (s.setLqueue n q).home = s.home := rfl

/-- A reset of a queue without commands ends at once. -/
theorem State.lqueueReset_done (hq : s.lqueue n = some q) (hk : q.stall = k) (hc : q.cmds = []) {t : State}
    (ht : t = ((s.fset (ledgerOpReg k) F.ledgerOp_BUSY 1).lqueueReset n none).1) : t.lqueue n = some q.afterReset ∧
      t.fbit (ledgerOpReg k) F.ledgerOp_BUSY = false ∧ t.fget (ledgerOpReg k) F.ledgerOp_STATUS = 0 ∧ s.regsBut t [ledgerOpReg k] ∧
      s.memSame t := by
  subst hk
  have hq' : (s.fset (ledgerOpReg q.stall) F.ledgerOp_BUSY 1).lqueue n = some q := (State.lqueue_of_ledger (State.fset_ledger ..) n).trans hq
  rw [State.lqueueReset_empty hq' hc] at ht
  subst ht
  refine ⟨?_, ?_, ?_, fun r hr => ?_, State.memSame_of_mem (congrArg _ ?_)⟩
  · exact (State.lqueue_of_ledger ((State.fset_ledger ..).trans (State.fset_ledger ..)) n).trans (State.lqueue_setLqueue_same ..)
  · rw [State.fbit, State.fget_fset_apart _ _ (.inl (by decide)), State.fget_fset_same _ _ (by decide)]
    rfl
  · exact State.fget_fset_same _ _ (by decide)
  · have hne : r ≠ ledgerOpReg q.stall := by simpa using hr
    exact (State.rd_fset_ne _ _ _ hne).trans ((State.rd_fset_ne _ _ _ hne).trans (State.rd_fset_ne s _ _ hne))
  · exact (State.fset_home ..).trans ((State.fset_home ..).trans (State.fset_home s (ledgerOpReg q.stall) F.ledgerOp_BUSY 1))

/-! READ -/

theorem leAt_first (a : Byte) (l : Bytes) : leAt (a :: l) 0 1 = a.toNat := by simp [leAt, slice, leNat]

theorem State.staged_ledger (s : State) (r : Nat → Reg) (b : Bytes) (n : Nat) : (s.staged r b n).ledger = s.ledger :=
  foldl_keeps (fun t : State => t.ledger) (fun _ _ => State.wr_ledger _ _ _) _ s

/-- The words of a Ledger stall's stage. -/
def ledgerStageReg (k w : Nat) : Reg := ⟨.ledgerStage, k, w⟩

theorem ledgerStageReg_injective (k : Nat) : Function.Injective (ledgerStageReg k) := fun _ _ h => congrArg Reg.j h

/-- The 64 bytes of the record of a queue. -/
def LQueue.record (q : LQueue) : Bytes :=
  slice (leBytes 1 q.state ++ leBytes 1 q.flags ++ leBytes 2 q.version ++ leBytes 2 q.volume ++ leBytes 2 q.asid ++ leBytes 8 q.sqBase ++
    leBytes 8 q.cqBase ++ leBytes 1 q.sqLog ++ leBytes 1 q.cqLog ++ leBytes 2 q.msix ++ leBytes 2 q.dbCtr ++ leBytes 2 q.func ++
    leBytes 2 (q.sqHead % 2 ^ q.sqLog) ++ leBytes 2 (q.sqTail % 2 ^ q.sqLog) ++ leBytes 2 (q.cqTail % 2 ^ q.cqLog) ++
    leBytes 2 (q.cqHead % 2 ^ q.cqLog) ++ leBytes 2 q.cmds.length) 0 64

theorem LQueue.record_state (q : LQueue) : leAt q.record 0 1 = q.state % 256 := by
  simp only [LQueue.record, leBytes, List.cons_append, List.nil_append]
  exact (leAt_first _ _).trans (BitVec.toNat_ofNat _ _)

/-- READ puts a record of 64 bytes into the stage, whose first is the STATE of the queue. -/
theorem State.lqueueRead_staged (s : State) (k n : Nat) : ∃ b : Bytes, b.length = 64 ∧
    leAt b 0 1 = (match s.lqueue n with | some y => y.state % 256 | none => 0) ∧ s.lqueueRead k n = (s.staged (ledgerStageReg k) b 8, 0) := by
  cases h : s.lqueue n with
  | none =>
    refine ⟨leBytes 64 0, length_leBytes _ _, by decide, ?_⟩
    simp only [State.lqueueRead, h]
    rfl
  | some q =>
    refine ⟨q.record, length_slice _ _ _, q.record_state, ?_⟩
    simp only [State.lqueueRead, h]
    rfl

theorem State.lqueueRead_done (s : State) (k n : Nat) {o : Host.Outcome State Fault Refusal}
    (ho : o = .next (State.ledgerFin k (s.lqueueRead k n))) : Completes o fun t => t.fget (ledgerOpReg k) F.ledgerOp_STATUS = 0 ∧
      s.memSame t ∧ t.ledger = s.ledger ∧ leAt (t.ledgerStaged k) 0 1 = (match s.lqueue n with | some y => y.state % 256 | none => 0) := by
  obtain ⟨b, hlen, hfirst, hread⟩ := s.lqueueRead_staged k n
  rw [hread] at ho
  have hhome : (State.ledgerFin k (s.staged (ledgerStageReg k) b 8, 0)).home = s.home := (State.fset_home ..).trans (State.staged_home ..)
  refine ⟨_, ho, State.fget_fset_same _ _ (by decide), State.memSame_of_mem (congrArg _ hhome),
    (State.fset_ledger ..).trans (State.staged_ledger ..), ?_⟩
  have hwords : (State.ledgerFin k (s.staged (ledgerStageReg k) b 8, 0)).ledgerStaged k = b.take (8 * 8) :=
    State.staged_words _ _ _ (ledgerStageReg_injective k) (Nat.le_refl 8) (by omega) fun w =>
      State.rd_fset_ne _ _ _ (by simp [ledgerStageReg, ledgerOpReg])
  rw [hwords, List.take_of_length_le (by omega)]
  exact hfirst

end

/-! DELETE -/

section
variable {s : State} {rq : Requester} {kq : Qn} {w : W64} {y : LQueue}

/-- What an operation leaves, by its outcome. -/
theorem ledgerOp_next {x z : State × Nat} {k : Nat} {v : W64} (h : s.ledgerOpWrite rq k v = State.ledgerFin k x) (hz : x = z) :
    done (s.ledgerOpWrite rq k v) = .next (z.1.fset (ledgerOpReg k) F.ledgerOp_STATUS z.2) := by
  rw [h, hz]
  rfl

/-- DELETE of a queue for whose doorbell counter nothing waits changes nothing but the queue and the STATUS. -/
theorem LedgerOn.delete_completes (h : LedgerOn s rq kq.val) (hq : s.lqueue (opQueue w) = some y) (hc : y.cmds = [])
    (hw : ∀ x ∈ s.bell.queue, ∀ z ∈ x.2, z.src ≠ .ledger (opQueue w)) :
    Completes (exec (.ledgerOpDelete rq kq w) s) fun t => t.lqueue (opQueue w) = none ∧
      t.fget (ledgerOpReg kq.val) F.ledgerOp_STATUS = 0 ∧ s.regsBut t [ledgerOpReg kq.val] ∧ s.memSame t ∧
      ∀ x, x ≠ opQueue w → t.lqueue x = s.lqueue x := by
  have hw' : ∀ x ∈ s.bell.queue, ∀ z ∈ x.2, decide (z.src = WaitSrc.ledger (opQueue w)) = false :=
    fun x hx z hz => decide_eq_false (hw x hx z hz)
  obtain ⟨hregs, hledger⟩ := State.dropWaiters_absent (p := fun w' => w' = .ledger (opQueue w)) hw'
  have hhome := State.dropWaiters_none (p := fun w' => w' = .ledger (opQueue w)) hw'
  generalize hd : (s.dropWaiters fun w' => w' = .ledger (opQueue w)) = d at hregs hledger hhome
  have hdel : s.lqueueDelete (opQueue w) = (d.withoutQueue (opQueue w), 0) := by rw [State.lqueueDelete_empty hq hc, hd]
  refine ⟨(d.withoutQueue (opQueue w)).fset (ledgerOpReg kq.val) F.ledgerOp_STATUS 0, ledgerOp_next h.op.1 hdel, ?_,
    State.fget_fset_same _ _ (by decide), fun x hx => ?_, State.memSame_of_mem (congrArg _ ((State.fset_home ..).trans hhome)), fun x hx => ?_⟩
  · rw [State.lqueue, State.fset_ledger]
    exact look_drop_same _ _
  · rw [State.rd_fset_ne _ _ _ (by simpa using hx)]
    exact State.rd_of_regs hregs x
  · rw [State.lqueue, State.fset_ledger]
    refine (look_drop_ne _ hx).trans ?_
    rw [hledger]
    rfl

end

/-! ### O49 -/

/-- Settles O49: each row by its lemma, the operations of LEDGER_OP by their case of the word, a completion by what keeps it. -/
theorem ledgerRows : Obligations.LedgerRows := by
  unfold Obligations.LedgerRows
  constructor
  · intro s u rq kq w f n vol r slot m i j pn p far q y c v d bad un rep k op at_ idx va cmd u' on st b size rs down idle
    have runs (h : on) : LedgerOn s rq kq.val := ⟨h.1, h.2⟩
    refine ⟨execLedgerSqDoorbell_bound, execLedgerCqDoorbell_bound, execLedgerDoorbell_stray, execLedgerFetch_takes, execLedgerFetch_paused,
      execLedgerDurable_applies, exec_noQueue, execLedgerReplicaTimeout_out, execLedgerPieceRepair_copies, execLedgerSanitiseRegionDone_more,
      execLedgerSanitiseRegionDone_last, execReplicaReturn_first, exec_noVolume, rfl, execIrqCoalesceTimeout_sends, execIrqCoalesceTimeout_none,
      fun h hp h0 hz hn hok hc => ?_, fun h hp h0 => ?_, fun h hq hc => ?_,
      fun h hq hc hw => (runs h).delete_completes hq hc hw, fun h hq hc => ?_, fun h hq => ?_,
      fun h hq hk hc => ?_, fun h hq => ?_, fun h => State.lqueueRead_done s kq.val at_ (congrArg done (runs h).op.2.2.2), fun h => ?_⟩
    · have hform : ¬ (leAt (s.ledgerStaged kq.val) 0 1 ≠ 0 ∨ (!allZero (slice (s.ledgerStaged kq.val) 0x2A 22)) = true) :=
        fun hx => hx.elim (fun hx => hx h0) fun hx => not_waits hz hx
      exact ledgerOp_next ((runs h).create hp) ((if_neg hform).trans (State.lqueueCreate_new hn hok hc))
    · exact ledgerOp_next ((runs h).create hp) (if_pos (.inl h0))
    · exact ledgerOp_next (runs h).op.1 (State.lqueueDelete_empty hq hc)
    · exact ledgerOp_next (runs h).op.1 (State.lqueueDelete_busy hq hc)
    · exact ⟨ledgerOp_next (runs h).op.1 (State.lqueueDelete_none hq), ledgerOp_next ((runs h).reset_none hq) rfl,
        ledgerOp_next (runs h).op.2.1 (State.lqueueState_none hq 2), ledgerOp_next (runs h).op.2.2.1 (State.lqueueState_none hq 1)⟩
    · exact ⟨_, rfl, State.lqueueReset_done hq hk hc ((runs h).reset hq hk)⟩
    · exact ⟨ledgerOp_next (runs h).op.2.1 (State.lqueueState_some hq 2), ledgerOp_next (runs h).op.2.2.1 (State.lqueueState_some hq 1)⟩
    · have off (n : Nat) := congrArg done (State.ledgerOpWrite_off (w := ledgerOpWord n w) h)
      exact ⟨off 1, off 2, off 3, off 4, off 5, off 6⟩
  · intro s u n i st res q c b hq hc
    exact ⟨State.lcomplete_running hq hc, State.lcomplete_full hq hc, State.lcomplete_writes hq hc⟩

end Sys2Proof.Machine
end

