-- ==== Sys2Proof/Proofs/Tenants.lean ====
section
/-!
SUPPORT. The manager's messages about instances and volumes (R452, R474, R482, R483).
-/
namespace Sys2Proof.Machine

section
variable {s u : State} {f : FuncNo} {m : Bytes} {i : Inst} {vol : Volume}

/-- The answer of a manager's message by its body. -/
theorem answer_of {k t n st d : Nat} {b : Bytes} {body : Bytes → Ans} (h : s.takeMsg k t n = .ok m) (hb : body m = some (u, st, d, b)) :
    done (s.answerMsg k t n body) = .next (u.reply k m st d b) := congrArg Host.Outcome.next (State.answerMsg_some h hb)

/-- A message names a function of the sender's port. -/
structure OwnPort (k : Nat) (m : Bytes) : Prop where
  range : mNum m 0 2 < 512
  port : portOf (mNum m 0 2) = portOf k

/-! ### Instances -/

/-- The instance that INSTANCE_CREATE asks for. -/
def newInst (m : Bytes) (asid : Nat) : Inst := {
  prec := mNum m 2 1, asid := asid, whGib := mNum m 4 2, sqMib := mNum m 6 2, carterConn := mNum m 8 4, ledgerQ := mNum m 12 2,
  cashboxCtx := mNum m 16 4, counterMask := mNum m 20 4 }

/-- A device that may make instances, and a message whose fields are in range. -/
structure MakeOk (s : State) (k : Nat) (m : Bytes) : Prop extends OwnPort k m where
  clean3 : mZero m 3 1 = true
  clean14 : mZero m 14 2 = true
  prec : mNum m 2 1 < 64
  factory : s.factory = false
  live : s.sec.fuses.decommissioned = false

theorem MakeOk.wellFormed {k : Nat} (h : MakeOk s k m) :
    ¬ ((!mZero m 3 1) = true ∨ (!mZero m 14 2) = true ∨ 512 ≤ mNum m 0 2 ∨ 64 ≤ mNum m 2 1) := by
  have hg := h.range
  have hp := h.prec
  simp only [h.clean3, h.clean14, Bool.not_true, Bool.false_eq_true, false_or]
  omega

theorem MakeOk.open {k : Nat} (h : MakeOk s k m) : ¬ (s.factory || s.sec.fuses.decommissioned) = true := by
  rw [h.factory, h.live]
  decide

/-- The function and the precinct of a message are there. -/
structure PlaceOk (s : State) (m : Bytes) : Prop where
  func : s.funcThere (mNum m 0 2) = true
  prec : (s.precinct (mNum m 2 1)).isSome = true

theorem PlaceOk.there (h : PlaceOk s m) : ¬ ((!s.funcThere (mNum m 0 2)) = true ∨ (s.precinct (mNum m 2 1)).isNone = true) := by
  rw [h.func, Option.isNone_iff_eq_none]
  intro hx
  exact hx.elim (fun hx => nomatch hx) fun hx => by simpa [hx] using h.prec

/-- The precinct lets the function bind, which has no instance. -/
theorem mayBind_ok (hi : s.inst (mNum m 0 2) = none) (hb : s.mayBind (mNum m 2 1) (mNum m 0 2) = true) :
    ¬ ((s.inst (mNum m 0 2)).isSome = true ∨ (!s.mayBind (mNum m 2 1) (mNum m 0 2)) = true) := by
  rw [hi, hb]
  decide

/-- A salt for the wrapping keys of a new instance. -/
def State.salted (s : State) (g : Nat) : State :=
  { s.useFresh 1 with cash := { (s.useFresh 1).cash with wrap := put (s.useFresh 1).cash.wrap g (Config.freeNat s.fresh, 0) } }

theorem execInstanceCreate_makes {asid : BitVec 12} (ht : s.takeMsg f.val 0x0100 24 = .ok m) (h : MakeOk s f.val m) (hp : PlaceOk s m)
    (hi : s.inst (mNum m 0 2) = none) (hb : s.mayBind (mNum m 2 1) (mNum m 0 2) = true) (hq : s.quotaOk (newInst m asid.toNat) = true)
    (hc : (newInst m asid.toNat).counterMask &&& s.classMask (mNum m 2 1) = (newInst m asid.toNat).counterMask) (ha : asid ≠ 0)
    (hnew : (s.host.funcs.any fun x => match x.2.inst with | some j => decide (j.asid = asid.toNat) | none => false) = false) :
    exec (.instanceCreate f asid) s = .next (((s.salted (mNum m 0 2)).setInst (mNum m 0 2) (newInst m asid.toNat)).reply f.val m 0 0 []) := by
  have hasid : ¬ (asid.toNat = 0 ∨
      (s.host.funcs.any fun x => match x.2.inst with | some j => decide (j.asid = asid.toNat) | none => false) = true) := by
    rw [hnew]
    exact fun hx => hx.elim (fun hx => ha (BitVec.eq_of_toNat_eq hx)) fun hx => nomatch hx
  exact answer_of ht ((if_neg h.wellFormed).trans ((if_neg (not_not_intro h.port)).trans ((if_neg h.open).trans ((if_neg hp.there).trans
    ((if_neg (mayBind_ok hi hb)).trans ((if_neg (not_waits hq)).trans ((if_neg (not_not_intro hc)).trans ((if_neg hasid).trans rfl))))))))

theorem execInstanceCreate_quota {asid : BitVec 12} (ht : s.takeMsg f.val 0x0100 24 = .ok m) (h : MakeOk s f.val m) (hp : PlaceOk s m)
    (hi : s.inst (mNum m 0 2) = none) (hb : s.mayBind (mNum m 2 1) (mNum m 0 2) = true) (hq : s.quotaOk (newInst m asid.toNat) = false) :
    exec (.instanceCreate f asid) s = .next (s.reply f.val m 4 0 []) :=
  answer_of ht ((if_neg h.wellFormed).trans ((if_neg (not_not_intro h.port)).trans ((if_neg h.open).trans ((if_neg hp.there).trans
    ((if_neg (mayBind_ok hi hb)).trans (if_pos (congrArg (!·) hq)))))))

theorem execInstanceCreate_taken {asid : BitVec 12} (ht : s.takeMsg f.val 0x0100 24 = .ok m) (h : MakeOk s f.val m) (hp : PlaceOk s m)
    (hi : s.inst (mNum m 0 2) = some i) : exec (.instanceCreate f asid) s = .next (s.reply f.val m 5 0 []) :=
  answer_of ht ((if_neg h.wellFormed).trans ((if_neg (not_not_intro h.port)).trans ((if_neg h.open).trans ((if_neg hp.there).trans
    (if_pos (.inl (by rw [hi]; rfl)))))))

theorem execInstanceCreate_malformed {asid : BitVec 12} (ht : s.takeMsg f.val 0x0100 24 = .ok m)
    (h : mZero m 3 1 = false ∨ mZero m 14 2 = false ∨ 512 ≤ mNum m 0 2 ∨ 64 ≤ mNum m 2 1) :
    exec (.instanceCreate f asid) s = .next (s.reply f.val m 1 0 []) :=
  answer_of ht (if_pos (h.imp (congrArg (!·)) (Or.imp_left (congrArg (!·)))))

theorem execInstanceDestroy_ends (ht : s.takeMsg f.val 0x0101 2 = .ok m) (h : OwnPort f.val m) (hi : s.inst (mNum m 0 2) = some i) :
    exec (.instanceDestroy f) s = .next ((s.destroyInstance (mNum m 0 2)).reply f.val m 0 0 []) :=
  answer_of ht ((if_neg (Nat.not_le.mpr h.range)).trans ((if_neg (not_not_intro h.port)).trans (if_neg (by rw [hi]; exact Bool.false_ne_true))))

theorem execInstanceDestroy_none (ht : s.takeMsg f.val 0x0101 2 = .ok m) (h : OwnPort f.val m) (hi : s.inst (mNum m 0 2) = none) :
    exec (.instanceDestroy f) s = .next (s.reply f.val m 3 0 []) :=
  answer_of ht ((if_neg (Nat.not_le.mpr h.range)).trans ((if_neg (not_not_intro h.port)).trans (if_pos (by rw [hi]; rfl))))

theorem execInstanceDestroy_denied (ht : s.takeMsg f.val 0x0101 2 = .ok m) (hg : mNum m 0 2 < 512) (hp : portOf (mNum m 0 2) ≠ portOf f.val) :
    exec (.instanceDestroy f) s = .next (s.reply f.val m 5 0 []) :=
  answer_of ht ((if_neg (Nat.not_le.mpr hg)).trans (if_pos hp))

/-- The item of an instance that INSTANCE_SET sets. -/
def Inst.withLive (i : Inst) (m : Bytes) : Inst := { i with live := put i.live (mNum m 2 2) (mNum m 4 8) }

theorem execInstanceSet_iops (ht : s.takeMsg f.val 0x0102 12 = .ok m) (h : OwnPort f.val m) (hi : s.inst (mNum m 0 2) = some i)
    (h4 : mNum m 2 2 = 4) (hv : mNum m 4 8 < 2 ^ 32) :
    exec (.instanceSet f []) s = .next ((s.setInst (mNum m 0 2) (i.withLive m)).reply f.val m 0 0 []) := by
  rw [Inst.withLive]
  refine answer_of ht ((if_neg (Nat.not_le.mpr h.range)).trans ((if_neg (not_not_intro h.port)).trans ?_))
  simp only [hi, h4, if_neg (Nat.not_le.mpr hv), OfNat.ofNat_ne_one, Nat.reduceEqDiff, if_false, if_true, State.ok]

theorem execInstanceSet_weight (ht : s.takeMsg f.val 0x0102 12 = .ok m) (h : OwnPort f.val m) (hi : s.inst (mNum m 0 2) = some i)
    (h2 : mNum m 2 2 = 2) (hv : 1 ≤ mNum m 4 8) (hv' : mNum m 4 8 ≤ 255) :
    exec (.instanceSet f []) s = .next ((s.setInst (mNum m 0 2) (i.withLive m)).reply f.val m 0 0 []) := by
  have hok : ¬ (mNum m 4 8 = 0 ∨ 255 < mNum m 4 8) := by omega
  rw [Inst.withLive]
  refine answer_of ht ((if_neg (Nat.not_le.mpr h.range)).trans ((if_neg (not_not_intro h.port)).trans ?_))
  simp only [hi, h2, if_neg hok, OfNat.ofNat_ne_one, if_false, if_true, List.any_nil, Bool.false_eq_true, List.foldl_nil, State.ok]

theorem execInstanceSet_malformed (ht : s.takeMsg f.val 0x0102 12 = .ok m) (h : OwnPort f.val m) (hi : s.inst (mNum m 0 2) = some i)
    (h1 : mNum m 2 2 = 1) (hv : mNum m 4 8 = 0 ∨ 1600000 < mNum m 4 8) :
    exec (.instanceSet f []) s = .next (s.reply f.val m 1 0 []) := by
  refine answer_of ht ((if_neg (Nat.not_le.mpr h.range)).trans ((if_neg (not_not_intro h.port)).trans ?_))
  simp only [hi, h1, if_pos hv.symm, if_true, State.no]

theorem execInstanceSet_none (ht : s.takeMsg f.val 0x0102 12 = .ok m) (h : OwnPort f.val m) (hi : s.inst (mNum m 0 2) = none) :
    exec (.instanceSet f []) s = .next (s.reply f.val m 3 0 []) := by
  refine answer_of ht ((if_neg (Nat.not_le.mpr h.range)).trans ((if_neg (not_not_intro h.port)).trans ?_))
  simp only [hi, State.no]

/-! ### Volumes -/

/-- The fields of VOLUME_CREATE are in range. -/
structure VolumeOk (m : Bytes) : Prop where
  owner : mNum m 0 2 < 512
  replicas : mNum m 2 1 = 2 ∨ mNum m 2 1 = 3
  least : 1 ≤ mNum m 3 1
  most : mNum m 3 1 ≤ mNum m 2 1
  block : mNum m 4 1 = 12 ∨ mNum m 4 1 = 14
  clean : mZero m 5 3 = true
  some : 1 ≤ mNum m 8 8
  fits : mNum m 8 8 ≤ 2 ^ 40

theorem VolumeOk.wellFormed (h : VolumeOk m) : ¬ (512 ≤ mNum m 0 2 ∨ mNum m 2 1 < 2 ∨ 3 < mNum m 2 1 ∨ mNum m 3 1 = 0 ∨
    mNum m 2 1 < mNum m 3 1 ∨ (mNum m 4 1 ≠ 12 ∧ mNum m 4 1 ≠ 14) ∨ (!mZero m 5 3) = true ∨ mNum m 8 8 = 0 ∨ 2 ^ 40 < mNum m 8 8) := by
  obtain ⟨h1, h2, h3, h4, h5, h6, h7, h8⟩ := h
  simp only [h6, Bool.not_true, Bool.false_eq_true, false_or]
  omega

/-- The volume that VOLUME_CREATE asks for. -/
def State.newVolume (s : State) (m : Bytes) : Volume := {
  owner := mNum m 0 2, blocks := mNum m 8 8, log2 := mNum m 4 1, minHealthy := mNum m 3 1, replicas := List.replicate (mNum m 2 1) {},
  key := s.freeBytes 64, store := mNum m 16 8 }

/-- A volume has been made. -/
def State.volumeMade (s : State) : State := { s with ledger := { s.ledger with created := (s.ledger.created + 1) % 2 ^ 32 } }

theorem execVolumeCreate_makes {n : Fin 4096} (ht : s.takeMsg f.val 0x0110 24 = .ok m) (h : VolumeOk m) (hn : s.ledger.volumes.length < 4096)
    (hv : s.volume n.val = none) : exec (.volumeCreate f n) s =
      .next ((((s.useFresh 64).setVolume n.val (s.newVolume m)).volumeMade).reply f.val m 0 0 (leBytes 2 n.val)) :=
  answer_of ht ((if_neg h.wellFormed).trans ((if_neg (Nat.not_le.mpr hn)).trans ((if_neg (by rw [hv]; decide)).trans rfl)))

theorem execVolumeCreate_malformed {n : Fin 4096} (ht : s.takeMsg f.val 0x0110 24 = .ok m)
    (h : ¬ (mNum m 2 1 = 2 ∨ mNum m 2 1 = 3) ∨ 512 ≤ mNum m 0 2 ∨ mNum m 3 1 = 0 ∨ mNum m 2 1 < mNum m 3 1) :
    exec (.volumeCreate f n) s = .next (s.reply f.val m 1 0 []) := by
  refine answer_of ht (if_pos ?_)
  simp only [ne_eq]
  rcases h with h | h | h | h
  · by_cases h2 : mNum m 2 1 < 2
    · exact .inr (.inl h2)
    · exact .inr (.inr (.inl (by omega)))
  · exact .inl h
  · exact .inr (.inr (.inr (.inl h)))
  · exact .inr (.inr (.inr (.inr (.inl h))))

/-- A state without a volume. -/
def State.withoutVolume (s : State) (g : Nat) : State := { s with ledger := { s.ledger with volumes := drop s.ledger.volumes g } }

theorem execVolumeDestroy_ends (ht : s.takeMsg f.val 0x0111 2 = .ok m) (hv : s.volume (mNum m 0 2) = some vol)
    (hq : (s.ledger.queues.any fun q => q.2.volume = mNum m 0 2) = false) :
    exec (.volumeDestroy f) s = .next ((s.withoutVolume (mNum m 0 2)).reply f.val m 0 0 []) :=
  answer_of ht ((if_neg (by rw [hv]; exact Bool.false_ne_true)).trans ((if_neg (ne_true_of_eq_false hq)).trans rfl))

theorem execVolumeDestroy_busy (ht : s.takeMsg f.val 0x0111 2 = .ok m) (hv : s.volume (mNum m 0 2) = some vol)
    (hq : (s.ledger.queues.any fun q => q.2.volume = mNum m 0 2) = true) : exec (.volumeDestroy f) s = .next (s.reply f.val m 2 0 []) :=
  answer_of ht ((if_neg (by rw [hv]; exact Bool.false_ne_true)).trans (if_pos hq))

theorem execVolumeDestroy_none (ht : s.takeMsg f.val 0x0111 2 = .ok m) (hv : s.volume (mNum m 0 2) = none) :
    exec (.volumeDestroy f) s = .next (s.reply f.val m 3 0 []) := answer_of ht (if_pos (by rw [hv]; rfl))

end

end Sys2Proof.Machine
end

