-- ==== Sys2Proof/Proofs/HostPorts.lean ====
section
/-!
SUPPORT. Host ports and what hosts do to functions (R288, R350, R456, R464–R473, R519).
-/
namespace Sys2Proof.Machine

/-! ### BAR2 -/

section
variable {s u w : State} {f : FuncNo} {off : BitVec 36} {d e : Bytes} {len pa lk : Nat} {po bad : Bool} {i : Inst}

/-- An access of `n` bytes reaches BAR2 of a function, and no injection meets it. -/
structure Bar2At (s : State) (k : Nat) (off : BitVec 36) (n : Nat) : Prop where
  reaches : s.hostReaches k = true
  clean : s.tlpInj (portOf k) = none
  least : 1 ≤ n
  page : off.toNat % 4096 + n ≤ 4096

theorem Bar2At.inPage {k n : Nat} (h : Bar2At s k off n) :
    ¬ (!s.hostReaches k || decide (n = 0) || decide (4096 < off.toNat % 4096 + n)) = true := by
  have h1 := h.least
  have h2 := h.page
  rw [h.reaches, decide_eq_false (by omega : ¬ n = 0), decide_eq_false (by omega : ¬ 4096 < off.toNat % 4096 + n)]
  decide

/-- The access of a host that cannot be made is counted and told to the host. -/
def State.bar2Abort (s : State) (k : Nat) : State := (s.count (hostQ (portOf k)) 57 4 1).emit (.aer k 5)

theorem execBar2Access_write (h : Bar2At s f.val off d.length) (hi : s.inst f.val = some i)
    (ht : s.translate (hostQ (portOf f.val)) ⟨funcReq f.val, i.asid, off.toNat, true⟩ = (u, .ok 0 pa lk))
    (hw : u.writeMem i.prec (funcReq f.val) i.asid pa d false = (w, bad)) :
    exec (.bar2Access f off (some d) len false) s = .next (if bad then w.bar2Abort f.val else w) := by
  rw [State.bar2Abort]
  refine (if_neg h.inPage).trans ?_
  simp only [h.clean, Option.isSome_none, Bool.false_eq_true, if_false, Bool.or_self, Bool.false_and, hi, Option.isSome_some, ht, hw,
    Option.isNone_some, done]

theorem execBar2Access_read (h : Bar2At s f.val off len) (hi : s.inst f.val = some i)
    (ht : s.translate (hostQ (portOf f.val)) ⟨funcReq f.val, i.asid, off.toNat, false⟩ = (u, .ok 0 pa lk))
    (hr : u.readMem i.prec (funcReq f.val) i.asid pa len = (w, e, false)) :
    exec (.bar2Access f off none len po) s = .next (w.emit (.hostData f.val e)) := by
  refine (if_neg h.inPage).trans ?_
  simp only [h.clean, Option.isSome_none, Bool.false_eq_true, if_false, Bool.or_false, Bool.and_false, hi, ht, hr, done]

theorem execBar2Access_denied (h : Bar2At s f.val off len) (hi : s.inst f.val = some i)
    (ht : s.translate (hostQ (portOf f.val)) ⟨funcReq f.val, i.asid, off.toNat, false⟩ = (u, .deny)) :
    exec (.bar2Access f off none len po) s = .next ((s.bar2Abort f.val).emit (.hostAbort f.val)) := by
  rw [State.bar2Abort]
  refine (if_neg h.inPage).trans ?_
  simp only [h.clean, Option.isSome_none, Bool.false_eq_true, if_false, Bool.or_false, Bool.and_false, hi, ht, Option.isNone_none, if_true,
    done]

theorem execBar2Access_noInstance (h : Bar2At s f.val off len) (hi : s.inst f.val = none) :
    exec (.bar2Access f off none len po) s = .next ((s.bar2Abort f.val).emit (.hostAbort f.val)) := by
  rw [State.bar2Abort]
  refine (if_neg h.inPage).trans ?_
  simp only [h.clean, Option.isSome_none, Bool.false_eq_true, if_false, Bool.or_false, Bool.and_false, hi, Option.isNone_none, if_true, done]

theorem execBar2Access_lost (h : s.hostReaches f.val = false) : exec (.bar2Access f off (some d) len po) s = .next s := by
  refine if_pos ?_
  rw [h]
  rfl

end

/-! ### Power states and resets -/

section
variable {s : State} {f : FuncNo} {p : Fin 2} {v : BitVec 2} {i : Inst}

theorem State.func_setPort (s : State) (p : Nat) (x : HostPort) (f : Nat) : (s.setPort p x).func f = s.func f := rfl

theorem State.port_setFunc (s : State) (f : Nat) (x : Func) (p : Nat) : (s.setFunc f x).port p = s.port p := rfl

theorem State.setPort_setFunc_regs (s : State) (p f : Nat) (y : HostPort) (x : Func) : ((s.setPort p y).setFunc f x).regs = s.regs := rfl

theorem execPfPowerStateWrite_sets (hl : (s.port p.val).linkUp = true) (h0 : v ≠ 0) (h2 : v ≠ 2) : exec (.pfPowerStateWrite p v) s =
    .next (s.setFunc (256 * p.val) { s.func (256 * p.val) with power := v.toNat }) := by
  have hlt : v.toNat < 4 := v.isLt
  have hne0 : ¬ v.toNat = 0 := fun h => h0 (BitVec.eq_of_toNat_eq h)
  have hne2 : ¬ v.toNat = 2 := fun h => h2 (BitVec.eq_of_toNat_eq h)
  have hok : ¬ (v.toNat = 2 ∨ 3 < v.toNat) := by omega
  refine congrArg Host.Outcome.next ((if_pos hl).trans ((if_neg hok).trans ?_))
  exact if_neg hne0

theorem execPfPowerStateWrite_ignored (h : (s.port p.val).linkUp = false ∨ v = 2) : exec (.pfPowerStateWrite p v) s = .next s := by
  refine congrArg Host.Outcome.next ?_
  rcases h with hl | hv
  · exact if_neg (ne_true_of_eq_false hl)
  · have hd2 : s.powerWrite p.val v.toNat = s := if_pos (.inl (by rw [hv]; rfl))
    rw [hd2, ite_self]

theorem execHqPerstAssert_power (s : State) (p : Fin 2) :
    Completes (exec (.hqPerstAssert p) s) fun t => (t.func (256 * p.val)).power = 4 :=
  ⟨_, rfl, congrArg Func.power (State.func_setFunc_same ..)⟩

theorem execHqPerstDeassert_clears (s : State) (p : Fin 2) : Completes (exec (.hqPerstDeassert p) s) fun t =>
    t.port p.val = { s.port p.val with perst := false, wake := false } ∧
    t.func (256 * p.val) = { s.func (256 * p.val) with power := 0 } ∧ t.regs = s.regs ∧ s.memSame t := by
  refine ⟨(s.setPort p.val { s.port p.val with perst := false, wake := false }).setFunc (256 * p.val) { s.func (256 * p.val) with power := 0 },
    rfl, ?_, State.func_setFunc_same .., rfl, State.memSame_of_mem rfl⟩
  exact State.port_setPort_same ..

/-- What an FLR leaves of a function's own registers. -/
theorem State.flrEffects_func (s : State) (k : Nat) : ∃ x : Func, (s.flrEffects k).func k = x ∧ x.bme = false ∧ x.msixEnable = false ∧
    x.h2d = [] ∧ x.d2h = [] ∧ x.h2dTail = 0 ∧ x.h2dHead = 0 ∧ x.d2hTail = 0 ∧ x.d2hHead = 0 ∧ x.stray = 0 :=
  ⟨_, State.func_setFunc_same .., rfl, rfl, rfl, rfl, rfl, rfl, rfl, rfl, rfl⟩

theorem execFlr_resets (h : s.funcThere f.val = true) : Completes (exec (.flr f) s) fun t => (t.func f.val).bme = false ∧
    (t.func f.val).msixEnable = false ∧ (t.func f.val).h2d = [] ∧ (t.func f.val).d2h = [] ∧ (t.func f.val).h2dTail = 0 ∧
    (t.func f.val).h2dHead = 0 ∧ (t.func f.val).d2hTail = 0 ∧ (t.func f.val).d2hHead = 0 ∧ (t.func f.val).stray = 0 := by
  obtain ⟨x, hx, hall⟩ := s.flrEffects_func f.val
  refine ⟨s.flrEffects f.val, congrArg Host.Outcome.next (if_pos h), ?_⟩
  subst hx
  exact hall

/-- A function without Bus Master Enable. -/
def Func.quiet (x : Func) : Func := { x with bme := false }

theorem State.inst_setFunc_same (s : State) (k : Nat) (x : Func) : (s.setFunc k x).inst k = x.inst :=
  congrArg Func.inst (State.func_setFunc_same ..)

theorem execBmeClear_idle (hi : s.inst f.val = none) (ho : (s.func f.val).isOpen = false) :
    exec (.bmeClear f) s = .next (s.setFunc f.val (s.func f.val).quiet) := by
  refine congrArg Host.Outcome.next (if_neg ?_)
  rw [State.inst_setFunc_same, State.func_setFunc_same]
  rw [State.inst] at hi
  simp only [hi, ho, Option.isSome_none, Bool.or_self, Bool.false_eq_true, not_false_eq_true]

theorem execBmeClear_loses (hi : s.inst f.val = some i) :
    exec (.bmeClear f) s = .next ((s.setFunc f.val (s.func f.val).quiet).driverLoss f.val 2) := by
  refine congrArg Host.Outcome.next (if_pos ?_)
  rw [State.inst_setFunc_same]
  rw [State.inst] at hi
  simp only [hi, Option.isSome_some, Bool.true_or]

/-- A fold over functions without instances destroys nothing. -/
theorem foldl_destroy_none (l : List Nat) (hl : ∀ y ∈ l, s.inst y = none) :
    l.foldl (fun s f => if (s.inst f).isSome then s.destroyInstance f else s) s = s := by
  induction l with
  | nil => rfl
  | cons y l ih =>
    rw [List.foldl_cons, hl y (List.mem_cons_self ..)]
    exact ih fun z hz => hl z (List.mem_cons_of_mem _ hz)

/-- VF Enable cleared where no VF has an instance. -/
theorem execVfEnableClear_quiet (h : ∀ y, portOf y = p.val → s.inst y = none) : Completes (exec (.vfEnableClear p) s) fun t =>
    (t.func (256 * p.val)).vfEnable = false ∧ t.regs = s.regs ∧ s.memSame t := by
  have hkeep : ∀ y, (s.setFunc (256 * p.val) { s.func (256 * p.val) with vfEnable := false }).inst y = s.inst y := by
    intro y
    by_cases hy : y = 256 * p.val
    · rw [hy, State.inst_setFunc_same, State.inst]
    · rw [State.inst, State.func_setFunc_ne _ _ hy, State.inst]
  generalize hu : s.setFunc (256 * p.val) { s.func (256 * p.val) with vfEnable := false } = u at hkeep
  have hclear : s.vfClear p.val = u := by
    refine Eq.trans ?_ (foldl_destroy_none ((u.funcsOf p.val).filter fun f => f % 256 ≠ 0) fun y hy => ?_)
    · rw [← hu]
      rfl
    · have hmem := (List.mem_filter.mp (List.mem_filter.mp hy).1).2
      rw [hkeep]
      exact h y (of_decide_eq_true hmem)
  refine ⟨u, congrArg Host.Outcome.next hclear, ?_⟩
  rw [← hu]
  exact ⟨congrArg Func.vfEnable (State.func_setFunc_same ..), rfl, State.memSame_of_mem rfl⟩

end

/-! ### Completion timeouts and links -/

section
variable {s : State} {p : Fin 2} {g : Qn} {tag c id wd rate : Nat} {b : Burst}

/-- A tag of a port has expired. -/
def State.tagExpired (s : State) (h tag asid : Nat) : State :=
  s.setPort h { s.port h with tags := drop (s.port h).tags tag, expired := put (s.port h).expired tag (s.funcOfAsid h asid) }

theorem execHostCompletionTimeout_ends (ht : look (s.port p.val).tags tag = some (c, id)) (hb : s.burst c id = some b)
    (hi : s.injAt 0x0A (qUnit (hostQ p.val) 0x18) (fun _ => true) = none) : exec (.hostCompletionTimeout p tag) s =
      .next (((((s.tagExpired p.val tag b.srcAsid).count (hostQ p.val) 57 2 1).recordErr 2 0x0A
        (precOr ((s.tagExpired p.val tag b.srcAsid).precOfChan c)) (qUnit (hostQ p.val) 0x18) 0 0 b.srcAsid false).failBurst c id 0x21 b.isFlush)) := by
  rw [State.tagExpired]
  show execHostCompletionTimeout p tag s = _
  simp only [execHostCompletionTimeout, ht, hb, hi, Option.isSome_none, Bool.false_eq_true, if_false, done]

theorem execHostCompletionTimeout_none (ht : look (s.port p.val).tags tag = none) : exec (.hostCompletionTimeout p tag) s = .next s := by
  show execHostCompletionTimeout p tag s = _
  simp only [execHostCompletionTimeout, ht, done]

theorem execHostTagRelease_releases (s : State) (p : Fin 2) (tag : Nat) : Completes (exec (.hostTagRelease p tag) s) fun t =>
    t.port p.val = { s.port p.val with expired := drop (s.port p.val).expired tag } ∧ t.regs = s.regs ∧ s.memSame t :=
  ⟨s.setPort p.val { s.port p.val with expired := drop (s.port p.val).expired tag }, rfl, State.port_setPort_same .., rfl,
    State.memSame_of_mem rfl⟩

/-- A port may come up at a width and rate. -/
structure PortReady (s : State) (h wd rate : Nat) : Prop where
  trains : s.portsTrain = true
  perst : (s.port h).perst = false
  held : s.err.held = false
  joined : hostQ h ∉ s.err.cutOff
  width : wd ∈ [1, 2, 4, 8, 16]
  least : 4 ≤ rate
  most : rate ≤ 7

theorem execHostLinkUp_up (h : PortReady s p.val wd rate) (hw : (s.port p.val).width = 0 ∨ (s.port p.val).width = wd) :
    exec (.hostLinkUp p wd rate) s = .next (s.setPort p.val { s.port p.val with linkUp := true, width := wd, rate := rate }) := by
  obtain ⟨h1, h2, h3, h4, h5, h6, h7⟩ := h
  have hcut : s.err.cutOff.contains (hostQ p.val) = false := by simpa using h4
  have hgo : ¬ (¬ s.portsTrain = true ∨ (s.port p.val).perst = true ∨ s.err.held = true ∨ s.err.cutOff.contains (hostQ p.val) = true ∨
      wd ∉ [1, 2, 4, 8, 16] ∨ rate < 4 ∨ 7 < rate) := by
    rw [h1, h2, h3, hcut]
    simp only [h5, not_true_eq_false, Bool.false_eq_true, false_or]
    omega
  exact (if_neg hgo).trans (congrArg Host.Outcome.next (if_pos hw))

theorem execHostLinkUp_down (h : s.portsTrain = false ∨ (s.port p.val).perst = true) : exec (.hostLinkUp p wd rate) s = .next s :=
  if_pos (h.elim (fun h => .inl (ne_true_of_eq_false h)) fun h => .inr (.inl h))

/-- A root port's link has come up at a width and rate. -/
def State.rpLinked (s : State) (g wd rate : Nat) : State :=
  ((((s.setLink (4 * g) { s.link (4 * g) with width := wd }).fset (grpStatusReg g) F.cwGrpStatus_WIDTH wd).fset (grpStatusReg g)
    F.cwGrpStatus_RATE rate).fset (grpStatusReg g) F.cwGrpStatus_DLL_ACTIVE 1).fset (grpStatusReg g) F.cwGrpStatus_PRSNT 1

theorem State.rpLinked_status (hw : wd < 256) (hr : rate < 16) :
    (s.rpLinked g.val wd rate).fget (grpStatusReg g.val) F.cwGrpStatus_DLL_ACTIVE = 1 ∧
    (s.rpLinked g.val wd rate).fget (grpStatusReg g.val) F.cwGrpStatus_WIDTH = wd ∧
    (s.rpLinked g.val wd rate).fget (grpStatusReg g.val) F.cwGrpStatus_RATE = rate := by
  rw [State.rpLinked]
  refine ⟨?_, ?_, ?_⟩
  · rw [State.fget_fset_apart _ _ (.inr (by decide)), State.fget_fset_same _ _ (by decide)]
    rfl
  · rw [State.fget_fset_apart _ _ (.inr (by decide)), State.fget_fset_apart _ _ (.inr (by decide)),
      State.fget_fset_apart _ _ (.inl (by decide)), State.fget_fset_same _ _ (by decide)]
    exact Nat.mod_eq_of_lt hw
  · rw [State.fget_fset_apart _ _ (.inr (by decide)), State.fget_fset_apart _ _ (.inr (by decide)),
      State.fget_fset_same _ _ (by decide)]
    exact Nat.mod_eq_of_lt hr

theorem State.rpLinked_home : (s.rpLinked g.val wd rate).home = s.home := by
  simp only [State.rpLinked, State.fset_home, State.setLink_home]

theorem execRootPortLinkUp_up (ht : s.portsTrain = true) (hrp : s.rpMode (4 * g.val) = true)
    (he : s.fbit (grpCtrlReg g.val) F.cwGrpCtrl_ENABLE = true) (hw : wd ∈ [1, 2, 4, 8, 16]) (h4 : 4 ≤ rate) (h7 : rate ≤ 7)
    (hold : (s.link (4 * g.val)).width = 0 ∨ (s.link (4 * g.val)).width = wd) :
    Completes (exec (.rootPortLinkUp g wd rate) s) fun t => t.fget (grpStatusReg g.val) F.cwGrpStatus_DLL_ACTIVE = 1 ∧
      t.fget (grpStatusReg g.val) F.cwGrpStatus_WIDTH = wd ∧ t.fget (grpStatusReg g.val) F.cwGrpStatus_RATE = rate ∧
      t.fget (grpStatusReg g.val) F.cwGrpStatus_HP_EVENT = 1 ∧ s.memSame t := by
  have hwd : wd < 256 := by
    have hall : ∀ x ∈ [1, 2, 4, 8, 16], x < 256 := by decide
    exact hall wd hw
  obtain ⟨hdll, hwidth, hrate⟩ := State.rpLinked_status (s := s) (g := g) hwd (by omega : rate < 16)
  have hup : s.rpUp g.val wd rate = ((s.rpLinked g.val wd rate).fset (grpStatusReg g.val) F.cwGrpStatus_HP_EVENT 1).raiseLine g.val 3 :=
    (if_pos ⟨ht, hrp, he, hw, h4, h7⟩).trans (if_pos hold)
  have hhome := State.rpLinked_home (s := s) (g := g) (wd := wd) (rate := rate)
  generalize s.rpLinked g.val wd rate = t at hup hdll hwidth hrate hhome
  have hregs (x : Fld) : (s.rpUp g.val wd rate).fget (grpStatusReg g.val) x =
      (t.fset (grpStatusReg g.val) F.cwGrpStatus_HP_EVENT 1).fget (grpStatusReg g.val) x := by
    rw [hup]
    rw [State.fget, State.rd_of_regs (State.raiseLine_regs ..), State.fget]
  refine ⟨s.rpUp g.val wd rate, rfl, ?_, ?_, ?_, ?_, State.memSame_of_mem (congrArg _ ?_)⟩
  · rw [hregs, State.fget_fset_apart _ _ (.inl (by decide)), hdll]
  · rw [hregs, State.fget_fset_apart _ _ (.inr (by decide)), hwidth]
  · rw [hregs, State.fget_fset_apart _ _ (.inr (by decide)), hrate]
  · rw [hregs]
    exact State.fget_fset_same _ _ (by decide)
  · rw [hup, State.raiseLine_home, State.fset_home, hhome]

theorem State.rpUp_off (h : s.rpMode (4 * g.val) = false) : s.rpUp g.val wd rate = s := if_neg fun hx => ne_true_of_eq_false h hx.2.1

end

/-! ### O50 -/

/-- Settles O50: each message by the lemma of its row, each row of a host port by its own. -/
theorem hostsAndTenancy : Obligations.HostsAndTenancy := by
  unfold Obligations.HostsAndTenancy
  constructor
  · intro s f m asid n i vol k got g p new mine ok bind u made item v live least lg vnew w fits
    have own (h : mine) : OwnPort k m := ⟨h.1, h.2⟩
    have make (h : ok) : MakeOk s k m := ⟨own h.1, h.2.1, h.2.2.1, h.2.2.2.1, h.2.2.2.2.1, h.2.2.2.2.2⟩
    exact ⟨fun ht h hb => execInstanceCreate_makes ht (make h) ⟨hb.1, hb.2.1⟩ hb.2.2.1 hb.2.2.2,
      fun ht h hb => execInstanceCreate_quota ht (make h) ⟨hb.1, hb.2.1⟩ hb.2.2.1 hb.2.2.2,
      fun ht h hf hp => execInstanceCreate_taken ht (make h) ⟨hf, hp⟩, execInstanceCreate_malformed,
      fun ht h => execInstanceDestroy_ends ht (own h), fun ht h => execInstanceDestroy_none ht (own h), execInstanceDestroy_denied,
      fun ht h => execInstanceSet_iops ht (own h), fun ht h => execInstanceSet_weight ht (own h),
      fun ht h => execInstanceSet_malformed ht (own h), fun ht h => execInstanceSet_none ht (own h),
      fun ht h1 h2 h3 h4 h5 h6 h7 h8 => execVolumeCreate_makes ht ⟨h1, h2, h3, h4, h5, h6, h7, h8⟩, execVolumeCreate_malformed,
      execVolumeDestroy_ends, execVolumeDestroy_busy, execVolumeDestroy_none⟩
  · intro s u w f p off d len pa lk tag c id wd rate po bad i b v g e k q h x pf abort at_ quiet unit
    have bar {n : Nat} (h : at_ n) : Bar2At s k off n := ⟨h.1, h.2.1, h.2.2.1, h.2.2.2⟩
    exact ⟨fun ha => execBar2Access_write (bar ha), fun ha => execBar2Access_read (bar ha), fun ha => execBar2Access_denied (bar ha),
      fun ha => execBar2Access_noInstance (bar ha), execBar2Access_lost, execPfPowerStateWrite_sets, execPfPowerStateWrite_ignored, rfl,
      execHqPerstAssert_power s p, execHqPerstDeassert_clears s p, execFlr_resets,
      fun hf => congrArg Host.Outcome.next (if_neg (ne_true_of_eq_false hf)), execBmeClear_idle, execBmeClear_loses, rfl,
      execVfEnableClear_quiet, execHostCompletionTimeout_ends, execHostCompletionTimeout_none, execHostTagRelease_releases s p tag,
      fun hl => congrArg Host.Outcome.next (if_pos hl), fun hl => congrArg Host.Outcome.next (if_neg (ne_true_of_eq_false hl)),
      fun h1 h2 h3 h4 h5 h6 h7 => execHostLinkUp_up ⟨h1, h2, h3, h4, h5, h6, h7⟩, execHostLinkUp_down, execRootPortLinkUp_up,
      fun hr => congrArg Host.Outcome.next (State.rpUp_off hr)⟩

end Sys2Proof.Machine
end

