-- ==== Sys2Proof/Proofs/Images.lean ====
section
/-!
SUPPORT. Structure images (R84, R92–R96, Table 3.10): quiesce, load and resume of a precinct.
-/
namespace Sys2Proof.Machine

/-! ### Steps of an image operation -/

section
variable {s u : State} {p t : Nat} {rq : Requester} {v : W64} {b : Option Nat}

theorem State.setPrecState_xim (s : State) (p v : Nat) : (s.setPrecState p v).xim = s.xim := State.fset_xim ..

/-- A state with another set of image operations. -/
def State.withXim (s : State) (x : XimSt) : State := { s with xim := x }

/-- A precinct begins to quiesce. -/
def State.quiesceBegun (s : State) (n : Nat) (b : Option Nat) : State :=
  (((s.setPrecState n 2).withXim { (s.setPrecState n 2).xim with quiesce := (s.setPrecState n 2).xim.quiesce ++ [(n, b)] }).fset
    ⟨.ximLoadStatus, 0, 0⟩ F.ximLoadStatus_PRECINCT n).ximSync

/-- A precinct quiesces no longer, in another state of its own. -/
def State.quiesceLeft (s : State) (p n : Nat) : State :=
  (s.setPrecState p n).withXim { (s.setPrecState p n).xim with quiesce := (s.setPrecState p n).xim.quiesce.filter fun x => x.1 ≠ p }

/-- A load begins: the precinct is LOADING. -/
def State.loadBegun (s : State) (n len : Nat) (b : Option Nat) : State :=
  (((s.setPrecState n 4).withXim { (s.setPrecState n 4).xim with
    load := some { target := n, addr := s.fget ⟨.ximLoadAddr, 0, 0⟩ F.ximLoadAddr_ADDR * 8, length := len, by_ := b } }).fset
    ⟨.ximLoadStatus, 0, 0⟩ F.ximLoadStatus_PRECINCT n).ximSync

section
variable {q : Option Requester}

theorem State.ximQuiesce_active (h : s.precState t = 1) : s.ximQuiesce q b t = s.quiesceBegun t b := by
  rw [State.quiesceBegun, State.withXim, State.setPrecState_xim]
  simp only [State.ximQuiesce, h]

theorem State.ximQuiesce_done (h : s.precState t = 0 ∨ s.precState t = 3) : s.ximQuiesce q b t = s.ximEnd t (0, 0, 0) b := by
  rcases h with h | h <;> simp only [State.ximQuiesce, h]

theorem State.ximQuiesce_busy (h : s.precState t = 2 ∨ s.precState t = 4) : s.ximQuiesce q b t = s.ximBusy q b := by
  rcases h with h | h <;> simp only [State.ximQuiesce, h]

/-- No other image operation is in progress. -/
def State.ximIdle (s : State) : Prop := s.xim.quiesce = [] ∧ s.xim.load = none

theorem State.ximLoad_begins (hi : s.ximIdle) (h : s.precState t = 0 ∨ s.precState t = 3) (len : Nat) :
    s.ximLoad q b t len = s.loadBegun t len b := by
  have hok : ¬ (s.precState t ≠ 0 ∧ s.precState t ≠ 3) := by omega
  rw [State.loadBegun, State.withXim, State.setPrecState_xim]
  simp only [State.ximLoad, hi.1, hi.2, if_neg hok, List.isEmpty_nil, Bool.not_true, Option.isSome_none, Bool.or_self, Bool.false_eq_true,
    if_false]

theorem State.ximLoad_refused (hi : s.ximIdle) (h0 : s.precState t ≠ 0) (h3 : s.precState t ≠ 3) (len : Nat) :
    s.ximLoad q b t len = s.ximEnd t (0x0A, 0, 0) b := by
  simp only [State.ximLoad, hi.1, hi.2, if_pos (And.intro h0 h3), List.isEmpty_nil, Bool.not_true, Option.isSome_none, Bool.or_self,
    Bool.false_eq_true, if_false]

theorem State.ximLoad_busy (hi : ¬ s.ximIdle) (len : Nat) : s.ximLoad q b t len = s.ximBusy q b := by
  refine if_pos ?_
  rw [Bool.or_eq_true, Bool.not_eq_true', List.isEmpty_eq_false_iff, Option.isSome_iff_ne_none]
  by_cases hq : s.xim.quiesce = []
  · exact .inr fun hl => hi ⟨hq, hl⟩
  · exact .inl hq

end

/-! ### By register -/

/-- An operation that a kernel core writes to XIM_LOAD_CTRL. -/
theorem State.ximFrom_kernel {n : Nat} (hk : rqKernel rq = true) (ho : bitsOf v F.ximLoadCtrl_OP = n) : s.ximFrom (.reg rq v) n =
    s.ximOp (some rq) none n (bitsOf v F.ximLoadCtrl_PRECINCT) (bitsOf v F.ximLoadCtrl_LENGTH) := by
  rw [← ho]
  exact (if_pos rfl).trans (if_pos hk)

theorem State.ximFrom_stray {n : Nat} (hk : rqKernel rq = false) (ho : bitsOf v F.ximLoadCtrl_OP = n) :
    s.ximFrom (.reg rq v) n = s.refuse rq ⟨.ximLoadCtrl, 0, 0⟩ := (if_pos ho).trans (if_neg (ne_true_of_eq_false hk))

/-! ### By message -/

/-- An IMAGE_OP message for operation `n` whose fields are in range. -/
structure ImageMsg (s : State) (k n : Nat) (m : Bytes) : Prop where
  got : s.takeMsg k 0x0120 16 = .ok m
  op : mNum m 0 1 = n
  prec : mNum m 1 1 < 64
  clean : mZero m 2 2 = true
  length : mNum m 4 4 < 2 ^ 24
  aligned : mNum m 8 8 % 8 = 0
  addr : mNum m 8 8 < 2 ^ 57

/-- No operation of the function's own is in progress. -/
structure NotAsked (s : State) (k : Nat) : Prop where
  quiesce : (s.xim.quiesce.any fun x => x.2 = some k) = false
  load : ∀ l, s.xim.load = some l → l.by_ ≠ some k

theorem State.ximIdle.notAsked {k : Nat} (h : s.ximIdle) : NotAsked s k :=
  ⟨by rw [h.1]; rfl, fun l hl => nomatch hl.symm.trans h.2⟩

theorem NotAsked.free {k : Nat} (h : NotAsked s k) : (s.xim.quiesce.any (fun x => x.2 = some k) ||
    (match s.xim.load with | some l => decide (l.by_ = some k) | none => false)) = false := by
  rw [h.quiesce, Bool.false_or]
  cases hl : s.xim.load with
  | none => rfl
  | some l => exact decide_eq_false (h.load l hl)

/-- The state in which a message's operation runs: a load has its address. -/
def State.ximStaged (s : State) (m : Bytes) (n : Nat) : State :=
  if n = 2 then s.fset ⟨.ximLoadAddr, 0, 0⟩ F.ximLoadAddr_ADDR (mNum m 8 8 / 8) else s

theorem ImageMsg.runs {k n : Nat} {m : Bytes} (h : ImageMsg s k n m) (hf : NotAsked s k) (h1 : 1 ≤ n) (h3 : n ≤ 3) :
    s.ximMsg k n = (s.ximStaged m n).ximOp none (some k) n (mNum m 1 1) (mNum m 4 4) := by
  obtain ⟨hgot, hop, hprec, hclean, hlen, hal, haddr⟩ := h
  have hok : ¬ (mNum m 0 1 = 0 ∨ 3 < mNum m 0 1 ∨ 64 ≤ mNum m 1 1 ∨ ¬ mZero m 2 2 = true ∨ 2 ^ 24 ≤ mNum m 4 4 ∨ mNum m 8 8 % 8 ≠ 0 ∨
      2 ^ 57 ≤ mNum m 8 8) := by
    simp only [hclean, not_true_eq_false, false_or]
    omega
  have hfree := ne_true_of_eq_false hf.free
  rw [State.ximStaged]
  simp only [State.ximMsg, hgot]
  exact (if_neg hfree).trans ((if_neg hok).trans (if_neg (not_not_intro hop)))

end

/-! ### The end of quiescing -/

section
variable {s : State} {p : PrecNo} {b : Option Nat}

theorem execXimQuiesceDone_quiet (h : s.xim.quiesce.find? (fun x => x.1 = p.val) = some (p.val, b)) (hq : s.quiet p.val = true) :
    exec (.ximQuiesceDone p) s = .next ((s.quiesceLeft p.val 3).ximEnd p.val (0, 0, 0) b) := by
  rw [State.quiesceLeft, State.withXim, State.setPrecState_xim]
  show execXimQuiesceDone p s = _
  simp only [execXimQuiesceDone, h, hq, if_true, done]

theorem execXimQuiesceDone_busy (h : s.xim.quiesce.find? (fun x => x.1 = p.val) = some (p.val, b)) (hq : s.quiet p.val = false) :
    exec (.ximQuiesceDone p) s = .next s := by
  show execXimQuiesceDone p s = _
  simp only [execXimQuiesceDone, h, hq, Bool.false_eq_true, if_false, done]

theorem execXimQuiesceTimeout_ends (h : s.xim.quiesce.find? (fun x => x.1 = p.val) = some (p.val, b)) :
    exec (.ximQuiesceTimeout p) s = .next ((s.quiesceLeft p.val 1).ximEnd p.val (0x0A, 0, 0) b) := by
  rw [State.quiesceLeft, State.withXim, State.setPrecState_xim]
  show execXimQuiesceTimeout p s = _
  simp only [execXimQuiesceTimeout, h, done]

theorem execXimQuiesce_none (h : ∀ x ∈ s.xim.quiesce, x.1 ≠ p.val) :
    exec (.ximQuiesceDone p) s = .next s ∧ exec (.ximQuiesceTimeout p) s = .next s := by
  have hnone : s.xim.quiesce.find? (fun x => x.1 = p.val) = none := by
    simpa only [List.find?_eq_none, decide_eq_true_eq] using h
  constructor
  · show execXimQuiesceDone p s = _
    simp only [execXimQuiesceDone, hnone, done]
  · show execXimQuiesceTimeout p s = _
    simp only [execXimQuiesceTimeout, hnone, done]

end

/-! ### The commit of a load -/

section
variable {s u : State} {l : XimLoad} {img : Bytes}

/-- A load leaves the configuration in force: its precinct is QUIESCED or UNUSED. -/
def State.loadBack (s : State) (l : XimLoad) (r : Xim.Fail) : State :=
  ((s.withXim { s.xim with load := none }).setPrecState l.target
    (if ((s.withXim { s.xim with load := none }).precinct l.target).isSome then 3 else 0)).ximEnd l.target r l.by_

/-- An image that fails is recorded. -/
def State.loadFails (s : State) (l : XimLoad) (r : Xim.Fail) (inj : Bool) : State := (s.loadRefused r.1 inj).loadBack l r

/-- A right image takes effect. -/
def State.loadTakes (s : State) (l : XimLoad) (img : Bytes) (c : XimConf) : State :=
  ((s.ximApply img l.target c).withXim { (s.ximApply img l.target c).xim with load := none }).ximEnd l.target (0, 0, 0) l.by_

theorem execXimLoadCommit_none (h : s.xim.load = none) : exec .ximLoadCommit s = .next s := by
  show execXimLoadCommit s = _
  simp only [execXimLoadCommit, h, done]

theorem execXimLoadCommit_aborted (h : s.xim.load = some l) (ha : l.aborted = true) :
    exec .ximLoadCommit s = .next (s.loadBack l (0x0D, 0, 0)) := by
  rw [State.loadBack, State.withXim]
  show execXimLoadCommit s = _
  simp only [execXimLoadCommit, h, ha, if_true, done]

theorem execXimLoadCommit_unread (h : s.xim.load = some l) (ha : l.aborted = false)
    (hr : s.readMem 0xFF (0x8000 + 16) 0 l.addr l.length = (u, img, true)) : exec .ximLoadCommit s = .next (u.loadFails l (1, 0, 0) false) := by
  rw [State.loadFails, State.loadBack, State.withXim]
  show execXimLoadCommit s = _
  simp only [execXimLoadCommit, h, ha, hr, Bool.false_eq_true, if_false, if_true, done]

variable {w : State} {inj : Bool} {r : Xim.Fail} {c : XimConf}

theorem execXimLoadCommit_fails (h : s.xim.load = some l) (ha : l.aborted = false)
    (hr : s.readMem 0xFF (0x8000 + 16) 0 l.addr l.length = (u, img, false)) (hv : u.ximValidate img (some l.target) = (w, inj, .error r)) :
    exec .ximLoadCommit s = .next (w.loadFails l r inj) := by
  rw [State.loadFails, State.loadBack, State.withXim]
  show execXimLoadCommit s = _
  simp only [execXimLoadCommit, h, ha, hr, hv, Bool.false_eq_true, if_false, done]

theorem execXimLoadCommit_inUse (h : s.xim.load = some l) (ha : l.aborted = false)
    (hr : s.readMem 0xFF (0x8000 + 16) 0 l.addr l.length = (u, img, false)) (hv : u.ximValidate img (some l.target) = (w, inj, .ok c))
    (hu : w.ximInUse img l.target c = true) : exec .ximLoadCommit s = .next (w.loadFails l (9, 0, 0) false) := by
  rw [State.loadFails, State.loadBack, State.withXim]
  show execXimLoadCommit s = _
  simp only [execXimLoadCommit, h, ha, hr, hv, hu, Bool.false_eq_true, if_false, if_true, done]

theorem execXimLoadCommit_takes (h : s.xim.load = some l) (ha : l.aborted = false)
    (hr : s.readMem 0xFF (0x8000 + 16) 0 l.addr l.length = (u, img, false)) (hv : u.ximValidate img (some l.target) = (w, inj, .ok c))
    (hu : w.ximInUse img l.target c = false) : exec .ximLoadCommit s = .next (w.loadTakes l img c) := by
  rw [State.loadTakes, State.withXim]
  show execXimLoadCommit s = _
  simp only [execXimLoadCommit, h, ha, hr, hv, hu, Bool.false_eq_true, if_false, done]

end

/-! ### O51 -/

/-- Settles O51: each operation by the state of its precinct, its source by what it makes of the operation. -/
theorem structureImages : Obligations.StructureImages := by
  unfold Obligations.StructureImages
  constructor
  · intro s p f m rq v b ctrl stat op t kern mt asked begun under left
    have kernel {n : Nat} (h : kern n) := State.ximFrom_kernel (s := s) h.1 h.2
    have msg {n : Nat} (h : asked n) : ImageMsg s f.val n m := ⟨h.1, h.2.1, h.2.2.1, h.2.2.2.1, h.2.2.2.2.1, h.2.2.2.2.2.1, h.2.2.2.2.2.2.1⟩
    have free {n : Nat} (h : asked n) : NotAsked s f.val := ⟨h.2.2.2.2.2.2.2.1, h.2.2.2.2.2.2.2.2⟩
    exact ⟨fun h hs => congrArg done ((kernel h).trans (State.ximQuiesce_active hs)),
      fun h hs => congrArg done ((kernel h).trans (State.ximQuiesce_done hs)),
      fun h hs => congrArg done ((kernel h).trans (State.ximQuiesce_busy hs)),
      fun ho hk => congrArg done (State.ximFrom_stray hk ho),
      fun h hs => congrArg done (((msg h).runs (free h) (by decide) (by decide)).trans (State.ximQuiesce_active hs)),
      fun h hs => congrArg done (((msg h).runs (free h) (by decide) (by decide)).trans (State.ximQuiesce_done hs)),
      execXimQuiesceDone_quiet, execXimQuiesceDone_busy, execXimQuiesceTimeout_ends, execXimQuiesce_none,
      fun h hs => congrArg done ((kernel h).trans (if_pos hs)), fun h hs => congrArg done ((kernel h).trans (if_neg hs)),
      fun h hs => congrArg done (((msg h).runs (free h) (by decide) (by decide)).trans (if_pos hs))⟩
  · intro s u f m img rq v l ctrl stat la op t mt asked idle begun back refused reads inForce
    have msg {n : Nat} (h : asked n) : ImageMsg s f.val n m := ⟨h.1, h.2.1, h.2.2.1, h.2.2.2.1, h.2.2.2.2.1, h.2.2.2.2.2.1, h.2.2.2.2.2.2⟩
    refine ⟨fun hk ho hi hs => congrArg done ((State.ximFrom_kernel hk ho).trans (State.ximLoad_begins hi hs _)),
      fun hk ho hi h0 h3 => congrArg done ((State.ximFrom_kernel hk ho).trans (State.ximLoad_refused hi h0 h3 _)),
      fun hk ho hi => congrArg done ((State.ximFrom_kernel hk ho).trans (State.ximLoad_busy hi _)),
      fun ho hk => congrArg done (State.ximFrom_stray hk ho), fun h hi hs => ?_, execXimLoadCommit_aborted,
      fun h => execXimLoadCommit_unread h.1 h.2.1 h.2.2,
      fun h => ?_, execXimLoadCommit_none⟩
    · have hi' : (s.ximStaged m 2).ximIdle := by
        rw [State.ximIdle, State.ximStaged, if_pos rfl, State.fset_xim]
        exact hi
      have hs' : (s.ximStaged m 2).precState mt = 0 ∨ (s.ximStaged m 2).precState mt = 3 := by
        rw [State.ximStaged, if_pos rfl, State.precState, State.fget_fset_ne _ _ (by simp)]
        exact hs
      exact congrArg done (((msg h).runs (State.ximIdle.notAsked hi) (by decide) (by decide)).trans (State.ximLoad_begins hi' hs' _))
    · obtain ⟨hl, ha, hr⟩ := h
      rcases hv : u.ximValidate img (some l.target) with ⟨w, inj, r | c⟩
      · exact execXimLoadCommit_fails hl ha hr hv
      · show _ = Host.Outcome.next (if w.ximInUse img l.target c then refused w (9, 0, 0) false else inForce w c)
        cases hu : w.ximInUse img l.target c with
        | true => exact execXimLoadCommit_inUse hl ha hr hv hu
        | false => exact execXimLoadCommit_takes hl ha hr hv hu

end Sys2Proof.Machine
end

