-- ==== Sys2Proof/Proofs/FwRows.lean ====
section
/-!
SUPPORT. Live activation, service modules, the kernel's periods and the precinct reset (R508–R518, R606).
-/
namespace Sys2Proof.Machine

/-! ### Activation -/

section
variable {s u w : State} {f : FuncNo} {m h b : Bytes} {a : FwAct} {addr : BitVec 57} {secs : List (Nat × Bytes)} {c : Bool} {k slot n : Nat}

/-- An activation of a slot for a function is under way. -/
def State.actUnder (s : State) (k slot : Nat) : State := { s with fw := { s.fw with act := some { by_ := some k, slot := slot } } }

/-- The slot of an activation is the other one, and no emergency is declared. -/
structure SlotOk (s : State) (slot : Nat) : Prop where
  range : slot ≤ 1
  other : slot ≠ s.running
  calm : s.fbit pwrStatus F.pwrStatus_DECLARED = false

/-- Firmware that a management controller updates or has ready holds the activation. -/
def State.fwHeld (s : State) : Prop := 1 ∈ s.side.ready ∨ ∃ x, s.side.update = some x ∧ x.comp = 1

theorem State.fwHeld_iff (s : State) :
    (s.side.ready.contains 1 || s.side.update.any fun u => decide (u.comp = 1)) = true ↔ s.fwHeld := by
  rw [Bool.or_eq_true, List.contains_iff_mem, State.fwHeld]
  cases s.side.update with
  | none => simp
  | some x => simp

theorem SlotOk.starts (h : SlotOk s slot) :
    ¬ (1 < slot ∨ slot = s.running ∨ s.fbit pwrStatus F.pwrStatus_DECLARED = true) := by
  rintro (hr | ho | hd)
  · exact Nat.not_lt.mpr h.range hr
  · exact h.other ho
  · exact ne_true_of_eq_false h.calm hd

/-- What an activation of a right slot is, by the check of its image. -/
theorem SlotOk.fwStart (h : SlotOk s slot) : s.fwStart (some k) false slot = match s.fwCheck (s.fwSlot slot) with
    | (x, 0, _) => ({ x.actUnder k slot with eth := { x.eth with missed := [] } } : State).fset fwStateReg F.fwState_PHASE 2
    | (x, st, inj) => ((x.loadRefused st inj).actUnder k slot).fwEnd 8 st := by
  have hslot : ¬ (1 < slot ∨ slot = s.running) := fun hx => h.starts (hx.imp_right .inl)
  simp only [State.fwStart, if_neg hslot, h.calm, Bool.false_eq_true, if_false, State.actUnder] <;> rfl

theorem execFwActivate_starts (ht : s.takeMsg f.val 0x0130 1 = .ok m) (h : SlotOk s (mNum m 0 1)) (hb : s.fwBusy = false)
    (hh : ¬ s.fwHeld) : exec (.fwActivate f) s = .next (s.fwStart (some f.val) false (mNum m 0 1)) := by
  have hheld := (not_congr s.fwHeld_iff).mpr hh
  have hgo : ¬ (s.fwBusy || (s.side.ready.contains 1 || s.side.update.any fun u => decide (u.comp = 1))) = true := by
    rw [hb, Bool.false_or]
    exact hheld
  show execFwActivate f s = _
  simp only [execFwActivate, ht, if_neg h.starts, if_neg hgo, done]

theorem execFwActivate_slot (ht : s.takeMsg f.val 0x0130 1 = .ok m) (h : 1 < mNum m 0 1 ∨ mNum m 0 1 = s.running) :
    exec (.fwActivate f) s = .next ((s.actUnder f.val (mNum m 0 1)).fwEnd 1 0) := by
  have hslot : 1 < mNum m 0 1 ∨ mNum m 0 1 = s.running ∨ s.fbit pwrStatus F.pwrStatus_DECLARED = true := h.imp_right .inl
  show execFwActivate f s = _
  simp only [execFwActivate, ht, if_pos hslot, done]
  exact congrArg Host.Outcome.next (if_pos h)

theorem execFwActivate_emergency (ht : s.takeMsg f.val 0x0130 1 = .ok m) (h1 : mNum m 0 1 ≤ 1) (hr : mNum m 0 1 ≠ s.running)
    (hd : s.fbit pwrStatus F.pwrStatus_DECLARED = true) :
    exec (.fwActivate f) s = .next ((s.actUnder f.val (mNum m 0 1)).fwEnd 9 0) := by
  have hslot : ¬ (1 < mNum m 0 1 ∨ mNum m 0 1 = s.running) := fun hx => hx.elim (fun hx => Nat.not_lt.mpr h1 hx) hr
  have hany : 1 < mNum m 0 1 ∨ mNum m 0 1 = s.running ∨ s.fbit pwrStatus F.pwrStatus_DECLARED = true := .inr (.inr hd)
  show execFwActivate f s = _
  simp only [execFwActivate, ht, if_pos hany, done]
  exact congrArg Host.Outcome.next ((if_neg hslot).trans (if_pos hd))

theorem execFwActivate_busy (ht : s.takeMsg f.val 0x0130 1 = .ok m) (h : SlotOk s (mNum m 0 1)) (hb : s.fwBusy = true ∨ s.fwHeld) :
    exec (.fwActivate f) s =
      .next (((s.fset fwStateReg F.fwState_LAST_STATUS 2).fset fwStateReg F.fwState_LAST_DETAIL 2).reply f.val m 2 2 []) := by
  have hgo : (s.fwBusy || (s.side.ready.contains 1 || s.side.update.any fun u => decide (u.comp = 1))) = true :=
    (Bool.or_eq_true ..).mpr (hb.imp_right s.fwHeld_iff.mpr)
  show execFwActivate f s = _
  simp only [execFwActivate, ht, if_neg h.starts, if_pos hgo, done]

/-! ### Drain, handover and commit -/

/-- An activation is under way in a phase. -/
structure InPhase (s : State) (a : FwAct) (n : Nat) : Prop where
  act : s.fw.act = some a
  phase : s.fget fwStateReg F.fwState_PHASE = n

/-- The handover record has been written at an address. -/
def State.recordAt (s : State) (a : FwAct) (addr : Nat) : State :=
  { s with fw := { s.fw with act := some { a with record := addr, written := true } } }

theorem execFwDrainDone_writes (hp : InPhase s a 2) (ha : a.aborted = false) (hd : s.fwDrained = true) (hl : secs.length = 9)
    (h8 : addr.toNat % 8 = 0) (hr : rangeInSystem addr.toNat (handover (s.fget fwStateReg F.fwState_SVN) secs).length = true)
    (hw : s.writeMem 0xFF (0x8000 + 4 * s.fwQuarter) 0 addr.toNat (handover (s.fget fwStateReg F.fwState_SVN) secs) false = (u, c)) :
    exec (.fwDrainDone addr secs) s = .next ((u.recordAt a addr.toNat).fset fwStateReg F.fwState_PHASE 3) := by
  have hgo : ¬ (s.fget fwStateReg F.fwState_PHASE ≠ 2 ∨ ¬ s.fwDrained = true ∨ secs.length ≠ 9 ∨ addr.toNat % 8 ≠ 0 ∨
      ¬ rangeInSystem addr.toNat (handover (s.fget fwStateReg F.fwState_SVN) secs).length = true) := by
    rw [hp.phase, hd, hl, h8, hr]
    decide
  rw [State.recordAt]
  show execFwDrainDone addr secs s = _
  simp only [execFwDrainDone, hp.act, ha, Bool.false_eq_true, if_false, if_neg hgo, hw, done]

theorem execFwDrainDone_waits (hp : InPhase s a 2) (ha : a.aborted = false) (hd : s.fwDrained = false) :
    exec (.fwDrainDone addr secs) s = .next s := by
  show execFwDrainDone addr secs s = _
  simp only [execFwDrainDone, hp.act, ha, Bool.false_eq_true, if_false, hd, not_false_eq_true, true_or, or_true, if_true, done]

theorem execFwDrainDone_aborted (hp : s.fw.act = some a) (ha : a.aborted = true) : exec (.fwDrainDone addr secs) s = .next (s.fwEnd 8 0x0D) := by
  show execFwDrainDone addr secs s = _
  simp only [execFwDrainDone, hp, ha, if_true, done]

/-- The modules whose kernel interface an image does not offer. -/
def State.modulesGone (s : State) (img : Bytes) : List Module := s.fw.modules.filter fun y => !Config.kapiOk img y.kapi

/-- The new image reads the handover record. -/
structure HandoverRead (s u w : State) (a : FwAct) (h b : Bytes) : Prop extends InPhase s a 3 where
  live : a.aborted = false
  header : s.readMem 0xFF (0x8000 + 4 * s.fwQuarter) 0 a.record 0x30 = (u, h, false)
  body : u.readMem 0xFF (0x8000 + 4 * s.fwQuarter) 0 a.record (leAt h 8 4) = (w, b, false)

theorem execFwHandoverAdopt_reads (hr : HandoverRead s u w a h b) : exec .fwHandoverAdopt s = .next (
    if (!handoverOk b || !Config.handoverOk (s.fwSlot a.slot) (leAt b 4 2)) = true then w.fwEnd 8 0x7F
    else ((w.modulesGone (s.fwSlot a.slot)).foldl (fun x y => x.moduleEnd y 0 true) w).fset fwStateReg F.fwState_PHASE 4) := by
  obtain ⟨⟨hact, hphase⟩, hlive, hh, hb⟩ := hr
  rw [State.modulesGone]
  show execFwHandoverAdopt s = _
  simp only [execFwHandoverAdopt, hact, hphase, ne_eq, not_true_eq_false, if_false, hlive, Bool.false_eq_true, hh, hb, Bool.false_or, done]
  split <;> rfl

theorem execFwHandoverAdopt_aborted (hp : InPhase s a 3) (ha : a.aborted = true) : exec .fwHandoverAdopt s = .next (s.fwEnd 8 0x0D) := by
  show execFwHandoverAdopt s = _
  simp only [execFwHandoverAdopt, hp.act, hp.phase, ne_eq, not_true_eq_false, if_false, ha, if_true, done]

theorem execFwHandoverTimeout_fails (hp : InPhase s a 3) :
    exec .fwHandoverTimeout s = .next (s.fwEnd 8 (if a.aborted then 0x0D else 0x7F)) := by
  show execFwHandoverTimeout s = _
  simp only [execFwHandoverTimeout, hp.act, hp.phase, if_true, done]

theorem execFwCommitDone_commits (hp : InPhase s a 4) : exec .fwCommitDone s = .next (((((
    (s.setFlash { s.sec.flash with committed := a.slot }).fset fwStateReg F.fwState_COMMITTED a.slot).fset fwStateReg F.fwState_RUNNING a.slot).fset
      fwStateReg F.fwState_SVN (fwSvn (s.fwSlot a.slot))).fsat fwStateReg F.fwState_ACTIVATIONS 1).fwEnd 0 0) := by
  show execFwCommitDone s = _
  simp only [execFwCommitDone, hp.act, hp.phase, ne_eq, not_true_eq_false, if_false, done]
  rfl

theorem exec_noActivation (h : s.fw.act = none) : exec .fwHandoverAdopt s = .next s ∧ exec .fwHandoverTimeout s = .next s ∧
    exec .fwCommitDone s = .next s ∧ exec (.fwDrainDone addr secs) s = .next s := by
  refine ⟨?_, ?_, ?_, ?_⟩
  · show execFwHandoverAdopt s = _
    simp only [execFwHandoverAdopt, h, done]
  · show execFwHandoverTimeout s = _
    simp only [execFwHandoverTimeout, h, done]
  · show execFwCommitDone s = _
    simp only [execFwCommitDone, h, done]
  · show execFwDrainDone addr secs s = _
    simp only [execFwDrainDone, h, done]

end

/-! ### Service modules -/

section
variable {s u : State} {f : FuncNo} {m b : Bytes} {asid : BitVec 12} {far : List FarAns} {i : Inst} {x : Module}

/-- A module image is refused with a status. -/
def State.moduleNo (y : State) (k : Nat) (m : Bytes) (st : Nat) (inj : Bool) : State := (y.loadRefused st inj).reply k m 8 st []

/-- The address space that the kernel gives is not free. -/
def State.asidTaken (y : State) (asid : Nat) : Bool :=
  decide (asid = 0) || y.fw.modules.any (fun z => decide (z.asid = asid)) ||
    y.host.funcs.any (fun z => match z.2.inst with | some j => decide (j.asid = asid) | none => false)

/-- The module that an image makes. -/
def State.newModule (y : State) (k asid : Nat) (b : Bytes) : Module := {
  id := y.fw.nextModule, pf := k, asid := asid, prec := leAt b 0x0A 1, kapi := leAt b 6 2, services := leAt b 0x18 8, entry := leAt b 0x14 4,
  code := slice b 64 (leAt b 0x0C 4), data := slice b (64 + leAt b 0x0C 4) (leAt b 0x10 4), body := b.take (leAt b 0x20 4) }

/-- A module has been loaded. -/
def State.moduleLoaded (y : State) (k asid : Nat) (m b : Bytes) : State :=
  ({ y with fw := { y.fw with modules := y.fw.modules ++ [y.newModule k asid b], nextModule := (y.fw.nextModule + 1) % 2 ^ 32 } } : State).reply
    k m 0 0 (leBytes 4 y.fw.nextModule)

/-- What a module image whose signature is right comes to. -/
def State.moduleSigned (s y : State) (k asid : Nat) (m b : Bytes) : State :=
  if svnStatus (leAt b 8 2) y.sec.fuses.svnModule ≠ 0 then y.moduleNo k m (svnStatus (leAt b 8 2) y.sec.fuses.svnModule) false
  else if (y.precinct (leAt b 0x0A 1)).isNone then y.moduleNo k m 3 false
  else if y.moduleRoom (leAt b 0x0A 1) < leAt b 0x0C 4 + leAt b 0x10 4 then y.moduleNo k m 5 false
  else if y.asidTaken asid then s
  else y.moduleLoaded k asid m b

/-- A message to load a module, whose image firmware reads. -/
structure ModuleMsg (s u : State) (k : Nat) (i : Inst) (m b : Bytes) (far : List FarAns) : Prop where
  got : s.takeMsg k 0x0131 12 = .ok m
  inst : s.inst k = some i
  read : s.fwRead i.asid (mNum m 0 8) (mNum m 8 4) far = (u, some (.ok b))

/-- The status of a module image but for its signature, SVN and memory. -/
def State.imageStatus (u : State) (b : Bytes) : Nat := moduleStatus b (Config.kapiOk (u.fwSlot u.running))

/-- The check of the signature of a module image. -/
def State.moduleSig (u : State) (b : Bytes) : State × Bool × Bool :=
  u.sigOk [ownerModuleKey u.owner] (b.take (leAt b 0x20 4)) (b.drop (leAt b 0x20 4))

theorem ModuleMsg.malformed (h : ModuleMsg s u f.val i m b far) (hst : u.imageStatus b ≠ 0) :
    exec (.moduleLoad f asid far) s = .next (u.moduleNo f.val m (u.imageStatus b) false) := by
  rw [State.imageStatus] at hst ⊢
  refine answer_of h.got ?_
  simp only [h.inst, h.read, if_pos hst, State.bad]

theorem ModuleMsg.unsigned (h : ModuleMsg s u f.val i m b far) (hst : u.imageStatus b = 0) {y : State} {inj : Bool}
    (hs : u.moduleSig b = (y, false, inj)) : exec (.moduleLoad f asid far) s = .next (y.moduleNo f.val m 2 inj) := by
  rw [State.imageStatus] at hst
  rw [State.moduleSig] at hs
  refine answer_of h.got ?_
  simp only [h.inst, h.read, hst, ne_eq, not_true_eq_false, if_false, hs, State.bad]

theorem ModuleMsg.signed (h : ModuleMsg s u f.val i m b far) (hst : u.imageStatus b = 0) {y : State} {inj : Bool}
    (hs : u.moduleSig b = (y, true, inj)) : exec (.moduleLoad f asid far) s = .next (s.moduleSigned y f.val asid.toNat m b) := by
  rw [State.imageStatus] at hst
  rw [State.moduleSig] at hs
  rw [State.moduleSigned]
  by_cases hsvn : svnStatus (leAt b 8 2) y.sec.fuses.svnModule ≠ 0
  · rw [if_pos hsvn]
    refine answer_of h.got ?_
    simp only [h.inst, h.read, hst, ne_eq, not_true_eq_false, if_false, hs, if_pos hsvn, State.bad]
  rw [if_neg hsvn]
  by_cases hp : (y.precinct (leAt b 0x0A 1)).isNone = true
  · rw [if_pos hp]
    refine answer_of h.got ?_
    simp only [h.inst, h.read, hst, ne_eq, not_true_eq_false, if_false, hs, if_neg hsvn, if_pos hp, State.bad]
  rw [if_neg hp]
  by_cases hr : y.moduleRoom (leAt b 0x0A 1) < leAt b 0x0C 4 + leAt b 0x10 4
  · rw [if_pos hr]
    refine answer_of h.got ?_
    simp only [h.inst, h.read, hst, ne_eq, not_true_eq_false, if_false, hs, if_neg hsvn, if_neg hp, if_pos hr, State.bad]
  rw [if_neg hr]
  have htaken : y.asidTaken asid.toNat = true ↔ asid.toNat = 0 ∨ y.fw.modules.any (fun z => decide (z.asid = asid.toNat)) = true ∨
      y.host.funcs.any (fun z => match z.2.inst with | some j => decide (j.asid = asid.toNat) | none => false) = true := by
    rw [State.asidTaken, Bool.or_eq_true, Bool.or_eq_true, decide_eq_true_eq, or_assoc]
  by_cases ha : y.asidTaken asid.toNat = true
  · rw [if_pos ha]
    refine congrArg Host.Outcome.next (State.answerMsg_none h.got ?_)
    simp only [h.inst, h.read, hst, ne_eq, not_true_eq_false, if_false, hs, if_neg hsvn, if_neg hp, if_neg hr]
    exact if_pos (htaken.mp ha)
  · rw [if_neg ha]
    refine answer_of h.got ?_
    simp only [h.inst, h.read, hst, ne_eq, not_true_eq_false, if_false, hs, if_neg hsvn, if_neg hp, if_neg hr]
    exact if_neg (mt htaken.mpr ha)

theorem execModuleLoad_unread (ht : s.takeMsg f.val 0x0131 12 = .ok m) (hi : s.inst f.val = some i) {e : Nat}
    (hr : s.fwRead i.asid (mNum m 0 8) (mNum m 8 4) far = (u, some (.error e))) :
    exec (.moduleLoad f asid far) s = .next (u.moduleNo f.val m 1 false) := by
  refine answer_of ht ?_
  simp only [hi, hr, State.bad]

theorem execModuleLoad_noInstance (ht : s.takeMsg f.val 0x0131 12 = .ok m) (hi : s.inst f.val = none) :
    exec (.moduleLoad f asid far) s = .next (s.reply f.val m 7 0 []) := by
  refine answer_of ht ?_
  simp only [hi, State.no]

theorem execModuleUnload_ends (ht : s.takeMsg f.val 0x0132 4 = .ok m) (hx : s.fw.modules.find? (fun y => y.id = mNum m 0 4) = some x) :
    exec (.moduleUnload (.msg f)) s = .next ((s.moduleEnd x 0 false).reply f.val m 0 0 []) := by
  refine answer_of ht ?_
  simp only [hx, State.ok]

theorem execModuleUnload_unknown (ht : s.takeMsg f.val 0x0132 4 = .ok m) (hx : s.fw.modules.find? (fun y => y.id = mNum m 0 4) = none) :
    exec (.moduleUnload (.msg f)) s = .next (s.reply f.val m 3 0 []) := by
  refine answer_of ht ?_
  simp only [hx, State.no]

theorem execModuleUnload_exception {id ec : BitVec 32} (hx : s.fw.modules.find? (fun y => y.id = id.toNat) = some x) :
    exec (.moduleUnload (.exception id ec)) s = .next (s.moduleEnd x ec.toNat true) := by
  show execModuleUnload (.exception id ec) s = _
  simp only [execModuleUnload, hx, done]

end

/-! ### The kernel's periods -/

section
variable {s : State} {α : Type} [DecidableEq α]

theorem look_putD_ne {d v : α} {t : Tab α} {k j : Nat} (h : j ≠ k) : look (putD d t k v) j = look t j := by
  rw [putD]
  split
  · exact look_drop_ne t h
  · exact look_put_ne t v h

/-- The shares of the precincts on a core. -/
def State.shareList (s : State) (n : Nat) : List (Nat × Nat) := s.xim.conf.precincts.map fun p => (p.id, p.share.getD n 0)

/-- The shares of one core put into the table. -/
def State.putShares (s : State) (t : Tab Nat) (n : Nat) : Tab Nat :=
  put ((s.shareList n).foldl (fun t x => putD 0 t (key2 n x.1) x.2) t) (key2 n 64) (256 - ((s.shareList n).map (·.2)).sum)

/-- The cores that run. -/
def State.coresUp (s : State) : List Nat := (List.range 16).filter fun n => !s.qFenced (n / 4)

theorem State.putShares_own (s : State) (t : Tab Nat) (c : Nat) :
    look (s.putShares t c) (key2 c 64) = some (256 - (s.xim.conf.precincts.map fun y => y.share.getD c 0).sum) := by
  rw [State.putShares, look_put_same, State.shareList, List.map_map]
  rfl

/-- The shares of a core leave those of another as they are. -/
theorem State.putShares_other (s : State) (t : Tab Nat) {n c : Nat} (h : c ≠ n) :
    look (s.putShares t n) (key2 c 64) = look t (key2 c 64) := by
  have hkey (j : Nat) : key2 c 64 ≠ key2 n j := fun he => h (Nat.pair_eq_pair.mp he).1
  rw [State.putShares, look_put_ne _ _ (hkey 64)]
  exact foldl_keeps (fun t => look t (key2 c 64)) (fun _ (x : Nat × Nat) => look_putD_ne (hkey x.1)) _ t

/-- Each core that runs has what is left for the kernel. -/
theorem State.foldl_putShares {c : Nat} (hc : c ∈ s.coresUp) : look (s.coresUp.foldl s.putShares []) (key2 c 64) =
    some (256 - (s.xim.conf.precincts.map fun y => y.share.getD c 0).sum) := by
  obtain ⟨before, after, hl⟩ := List.append_of_mem hc
  rw [hl, List.foldl_append, List.foldl_cons]
  refine foldl_inv (fun t => look t (key2 c 64) = _) (fun t n ht => ?_) after (s.putShares_own _ c)
  by_cases hn : c = n
  · rw [← hn]
    exact s.putShares_own t c
  · rw [s.putShares_other t hn, ht]

theorem execKernelPeriod_up (h : s.kernelUp = true) : exec .kernelPeriod s =
    .next { s with fw := { s.fw with shares := s.coresUp.foldl s.putShares [], periods := s.fw.periods + 1 } } := if_neg (not_waits h)

end

/-! ### O52 -/

/-- Settles O52: each row by its lemma, a module's image by its checks in order, the kernel's shares by the table that the period makes. -/
theorem firmwareRows : Obligations.FirmwareRows := by
  unfold Obligations.FirmwareRows
  constructor
  · intro s u w f m h b a addr secs c k slot got sound held under phase r req fail img gone good
    have ok (h : sound) : SlotOk s slot := ⟨h.1, h.2.1, h.2.2⟩
    have inPhase {n : Nat} (h : phase n) : InPhase s a n := ⟨h.1, h.2⟩
    refine ⟨fun ht hs hb hh => (execFwActivate_starts ht (ok hs) hb hh).trans (congrArg Host.Outcome.next ((ok hs).fwStart.trans ?_)),
      execFwActivate_slot, execFwActivate_emergency, fun ht hs hb => execFwActivate_busy ht (ok hs) hb,
      fun hp => execFwDrainDone_writes (inPhase hp), fun hp => execFwDrainDone_waits (inPhase hp), execFwDrainDone_aborted,
      fun hp => congrArg Host.Outcome.next (if_pos hp), fun hp => congrArg Host.Outcome.next (if_neg hp), fun hp ha hh hb hg => ?_,
      fun hp ha hh hb hg => ?_, fun hp => execFwHandoverAdopt_aborted (inPhase hp), fun hp => execFwHandoverTimeout_fails (inPhase hp),
      fun hp => execFwCommitDone_commits (inPhase hp), exec_noActivation⟩
    · rfl
    · refine (execFwHandoverAdopt_reads ⟨inPhase hp, ha, hh, hb⟩).trans (congrArg Host.Outcome.next ?_)
      rw [hg, Bool.not_true, Bool.false_or]
      cases Config.handoverOk img (leAt b 4 2) <;> rfl
    · refine (execFwHandoverAdopt_reads ⟨inPhase hp, ha, hh, hb⟩).trans (congrArg Host.Outcome.next (if_pos ?_))
      rw [Bool.eq_false_iff.mpr hg]
      rfl
  · intro s u f m b asid far i x id ec k load n p code data st no taken new loaded reset cores
    refine ⟨fun hl hr => ?_, fun hl e hr => execModuleLoad_unread hl.1 hl.2 hr, execModuleLoad_noInstance, execModuleUnload_ends,
      execModuleUnload_unknown, execModuleUnload_exception, fun hk => ?_, fun hk => if_pos (congrArg (!·) hk),
      fun ht h64 hp => ?_, fun ht h64 hp => ?_, fun ht h64 => answer_of ht (if_pos h64)⟩
    · have hm : ModuleMsg s u k i m b far := ⟨hl.1, hl.2, hr⟩
      show _ = Host.Outcome.next (if u.imageStatus b ≠ 0 then no u st false else _)
      by_cases hst : u.imageStatus b = 0
      · rw [if_neg (not_not_intro hst)]
        rcases hs : u.moduleSig b with ⟨y, _ | _, inj⟩
        · rw [State.moduleSig] at hs
          rw [hs]
          exact hm.unsigned hst hs
        · rw [State.moduleSig] at hs
          rw [hs]
          exact hm.signed hst hs
      · rw [if_pos hst]
        exact hm.malformed hst
    · refine ⟨_, execKernelPeriod_up hk, rfl, rfl, rfl, State.memSame_of_mem rfl, rfl, fun c hc => ?_⟩
      exact State.foldl_putShares hc
    · exact answer_of ht ((if_neg (Nat.not_le.mpr h64)).trans (if_neg (by rw [Option.isNone_iff_eq_none]; intro hn; rw [hn] at hp; exact nomatch hp)))
    · exact answer_of ht ((if_neg (Nat.not_le.mpr h64)).trans (if_pos (by rw [hp]; rfl)))

end Sys2Proof.Machine
end

