-- ==== Sys2Proof/Proofs/Checkpoints.lean ====
section
/-!
SUPPORT. Checkpoints up to their copies (R521, R523–R528, R535, Table 22.1).
-/
namespace Sys2Proof.Machine

/-! ### Operations in progress -/

section
variable {s u : State} {f : FuncNo} {k : Nat} {i : Inst} {o : InvOp} {body : Inst → InvOp → State}

/-- An operation of a function is in progress, and nothing has ended it. -/
structure InvOn (s : State) (g k : Nat) (i : Inst) (o : InvOp) : Prop where
  inst : s.inst g = some i
  op : s.invOp g k = some o
  sound : s.invBroken i o = none

theorem InvOn.onInv {g : Nat} (h : InvOn s g k i o) (body : Inst → InvOp → State) : s.onInv g k body = body i o := by
  simp only [State.onInv, h.inst, h.op, h.sound]

/-- An operation that a lost connection or stall has ended. -/
theorem State.onInv_broken {g e : Nat} (hi : s.inst g = some i) (ho : s.invOp g k = some o) (hb : s.invBroken i o = some e)
    (hr : o.restore = false) (body : Inst → InvOp → State) : s.onInv g k body = s.endInv o e o.ckpt := by
  simp only [State.onInv, hi, ho, hb, hr, Bool.false_eq_true, if_false]

end

/-! ### Requests -/

section
variable {s u : State} {f : FuncNo} {i j : Inst} {m b : Bytes} {far : List FarAns} {go : State → InvOp → Ans}

/-- The fields of INV_CHECKPOINT are in range. -/
structure CkptOk (m : Bytes) : Prop where
  clean : mZero m 10 2 = true
  step : mNum m 12 8 ≠ 0
  least : 1 ≤ mNum m 28 2
  most : mNum m 28 2 ≤ 256

/-- The condition of a malformed request for a checkpoint. -/
def ckptBad (m : Bytes) : Prop :=
  (!mZero m 10 2 || decide (mNum m 12 8 = 0)) = true ∨ mNum m 28 2 = 0 ∨ 256 < mNum m 28 2

theorem CkptOk.wellFormed (h : CkptOk m) : ¬ ckptBad m := by
  obtain ⟨hc, hs, hl, hm⟩ := h
  rw [ckptBad, hc, decide_eq_false hs]
  simp only [Bool.not_true, Bool.or_self, Bool.false_eq_true, false_or]
  omega

theorem ckptBad_of (h : mZero m 10 2 = false ∨ mNum m 12 8 = 0 ∨ mNum m 28 2 = 0 ∨ 256 < mNum m 28 2) : ckptBad m := by
  rcases h with h | h | h
  · exact .inl (by rw [h]; rfl)
  · exact .inl (by rw [decide_eq_true h, Bool.or_true])
  · exact .inr h

/-- No operation of a function is on a communicator. -/
def State.commFree (s : State) (g comm : Nat) : Prop := ∀ y ∈ s.inv.ops, y.func = g → y.comm ≠ comm

theorem State.commFree_iff (s : State) (g comm : Nat) :
    (s.inv.ops.any fun o => decide (o.func = g) && decide (o.comm = comm)) = false ↔ s.commFree g comm := by
  simp only [List.any_eq_false, Bool.and_eq_true, decide_eq_true_eq, not_and, State.commFree, ne_eq]

/-- The checkpoint operation that a request makes. -/
def State.newCkpt (u : State) (g : Nat) (m b : Bytes) : InvOp := {
  func := g, comm := mNum m 0 4, ctx := mNum m 4 4, vol := mNum m 8 2, step := mNum m 12 8, ckpt := u.inv.next, policy := mNum m 10 1
  seq := lookD 0 u.inv.seqs (key2 g (mNum m 0 4)), set := setRanges b, phase := 1, shards := setShards (setRanges b) }

/-- A checkpoint has begun. -/
def State.ckptBegun (u : State) (g : Nat) (m b : Bytes) : State :=
  ({ u with inv := { u.inv with
    ops := u.inv.ops ++ [u.newCkpt g m b], next := (u.inv.next + 1) % 2 ^ 32
    seqs := putD 0 u.inv.seqs (key2 g (mNum m 0 4)) ((u.newCkpt g m b).seq + 1) } } : State).setInv (u.newCkpt g m b)

/-- A request for a checkpoint, of a well-formed message with right references. -/
structure CkptMsg (s : State) (g : Nat) (i : Inst) (m : Bytes) : Prop extends InstMsg s g 0x0070 30 i m, CkptOk m where
  refs : s.invRefs g i (mNum m 0 4) (mNum m 4 4) (mNum m 8 2) = 0
  free : s.commFree g (mNum m 0 4)

/-- What a request that passes its checks comes to, by the read of its set. -/
theorem CkptMsg.request (h : CkptMsg s f.val i m) (go : State → InvOp → Ans)
    (hr : s.fwRead i.asid (mNum m 20 8) (16 * mNum m 28 2) far = (u, some (.ok b))) :
    s.invRequest f.val i m false far go =
      if (!setOk (setRanges b)) = true then u.no 1 else go (u.ckptBegun f.val m b) (u.newCkpt f.val m b) := by
  have hfree := (s.commFree_iff f.val (mNum m 0 4)).mpr h.free
  have hbad := h.toCkptOk.wellFormed
  rw [ckptBad] at hbad
  rw [State.ckptBegun, State.newCkpt]
  simp only [State.invRequest, Bool.false_eq_true, if_false, if_neg hbad, h.refs, ne_eq, not_true_eq_false, hfree, Bool.false_and,
    Bool.or_self, hr]

theorem State.setInv_inst (s : State) (o : InvOp) (g : Nat) : (s.setInv o).inst g = s.inst g := by
  rw [State.setInv, State.inst_fset, State.inst_fset]
  rfl

theorem execInvCheckpoint_begins (h : CkptMsg s f.val i m)
    (hr : s.fwRead i.asid (mNum m 20 8) (16 * mNum m 28 2) far = (u, some (.ok b))) (hs : setOk (setRanges b) = true)
    (hj : u.inst f.val = some j) : exec (.invCheckpoint f far) s =
      .next (((u.ckptBegun f.val m b).setInst f.val { j with stopping := true }).reply f.val m 0 0 (leBytes 4 (u.newCkpt f.val m b).ckpt)) := by
  have hinst : (u.ckptBegun f.val m b).inst f.val = some j := (State.setInv_inst ..).trans hj
  refine h.toInstMsg.answer ((h.request _ hr).trans ((if_neg (not_waits hs)).trans ?_))
  simp only [hinst, State.ok]

theorem execInvCheckpoint_badSet (h : CkptMsg s f.val i m)
    (hr : s.fwRead i.asid (mNum m 20 8) (16 * mNum m 28 2) far = (u, some (.ok b))) (hs : setOk (setRanges b) = false) :
    exec (.invCheckpoint f far) s = .next (u.reply f.val m 1 0 []) :=
  h.toInstMsg.answer ((h.request _ hr).trans (if_pos (congrArg (!·) hs)))

theorem execInvCheckpoint_malformed (h : InstMsg s f.val 0x0070 30 i m) (hb : ckptBad m) :
    exec (.invCheckpoint f far) s = .next (s.reply f.val m 1 0 []) := h.answer (if_pos hb)

theorem execInvCheckpoint_refs (h : InstMsg s f.val 0x0070 30 i m) (hok : CkptOk m)
    (hr : s.invRefs f.val i (mNum m 0 4) (mNum m 4 4) (mNum m 8 2) ≠ 0) :
    exec (.invCheckpoint f far) s = .next (s.reply f.val m (s.invRefs f.val i (mNum m 0 4) (mNum m 4 4) (mNum m 8 2)) 0 []) :=
  h.answer ((if_neg hok.wellFormed).trans (if_pos hr))

theorem execInvCheckpoint_busy (h : InstMsg s f.val 0x0070 30 i m) (hok : CkptOk m)
    (hr : s.invRefs f.val i (mNum m 0 4) (mNum m 4 4) (mNum m 8 2) = 0) (hb : ¬ s.commFree f.val (mNum m 0 4)) :
    exec (.invCheckpoint f far) s = .next (s.reply f.val m 2 0 []) := by
  have hops := Bool.not_eq_false _ ▸ (mt (s.commFree_iff f.val (mNum m 0 4)).mp hb)
  refine h.answer ((if_neg hok.wellFormed).trans ((if_neg (not_not_intro hr)).trans (if_pos ?_)))
  rw [hops, Bool.true_or]

end

/-! ### The cut -/

section
variable {s u : State} {f : FuncNo} {k : BitVec 32} {i : Inst} {o : InvOp} {far : List FarAns} {tables : List (BitVec 57)} {xs : List Shard}

/-- The parts of the shards of an operation that no mark protects, copied. -/
def State.earlyCopies (s : State) (i : Inst) (o : InvOp) (far : List FarAns) : State × Except IoStop (List Shard) :=
  (o.shards.mapM fun x => State.copyEarly i.asid x).at s far

/-- The pages of shards marked. -/
def State.shardsMarked (u : State) (i : Inst) (xs : List Shard) (tables : List (BitVec 57)) : State :=
  ((xs.flatMap fun x => (pages x.va x.len).map (·.1)).foldl (State.markPage i.asid) (u, tables.map (·.toNat))).1

/-- An operation whose cut has been made. -/
def InvOp.cutMade (o : InvOp) (xs : List Shard) : InvOp := { o with cut := true, shards := xs.map fun x => { x with marked := true } }

/-- An early copy found no staging. -/
def stagingShort (xs : List Shard) : Prop := ∃ y ∈ xs, y.staged = none ∧ y.early ≠ []

theorem stagingShort_iff (xs : List Shard) : (xs.any fun x => x.staged.isNone && !x.early.isEmpty) = true ↔ stagingShort xs := by
  simp only [List.any_eq_true, Bool.and_eq_true, Option.isNone_iff_eq_none, Bool.not_eq_true', List.isEmpty_eq_false_iff, stagingShort]

/-- The dockets have stopped at the boundary, and the cut has not been made. -/
structure CutDue (s : State) (g k : Nat) (i : Inst) (o : InvOp) : Prop extends InvOn s g k i o where
  phase : o.phase = 1
  open_ : o.cut = false
  boundary : s.atBoundary i o = true

theorem CutDue.cut (h : CutDue s f.val k.toNat i o) (he : s.earlyCopies i o far = (u, .ok xs)) : exec (.invCut f k tables far) s =
    .next (if (xs.any fun x => x.staged.isNone && !x.early.isEmpty) = true then
      ((u.shardsMarked i xs tables).setInv (o.cutMade xs)).endInv (o.cutMade xs) 0x63 o.ckpt
    else ((u.shardsMarked i xs tables).invalAsid i.asid).setInv (o.cutMade xs)) := by
  rw [State.earlyCopies] at he
  rw [State.shardsMarked, InvOp.cutMade]
  refine congrArg Host.Outcome.next ((h.onInv _).trans ?_)
  simp only [h.phase, h.open_, h.boundary, ne_eq, not_true_eq_false, if_false, Bool.not_false, if_true, Bool.not_true, Bool.false_eq_true, he]

theorem execInvCut_early (h : InvOn s f.val k.toNat i o) (hp : o.phase = 1) (hc : o.cut = false) (hb : s.atBoundary i o = false) :
    exec (.invCut f k tables far) s = .next s := by
  refine congrArg Host.Outcome.next ((h.onInv _).trans ?_)
  simp only [hp, hc, hb, ne_eq, not_true_eq_false, if_false, Bool.not_false, if_true]

theorem execInvCut_invalidating (h : InvOn s f.val k.toNat i o) (hp : o.phase = 1) (hc : o.cut = true) (hb : s.invalBusy i.asid = true) :
    exec (.invCut f k tables far) s = .next s := by
  refine congrArg Host.Outcome.next ((h.onInv _).trans ?_)
  simp only [hp, hc, hb, ne_eq, not_true_eq_false, if_false, Bool.not_true, Bool.false_eq_true, if_true]

/-- The dockets of an instance go on, unless another of its operations stops them. -/
def State.docketsGoOn (t : State) (g : Nat) (i : Inst) : State :=
  if (t.inv.ops.any fun y => decide (y.func = g) && decide (y.phase = 1)) = true then t else t.setInst g { i with stopping := false }

theorem execInvCut_done (h : InvOn s f.val k.toNat i o) (hp : o.phase = 1) (hc : o.cut = true) (hb : s.invalBusy i.asid = false) :
    exec (.invCut f k tables far) s =
      .next (((s.setInv { o with phase := 2 }).docketsGoOn f.val i).postEvent f.val 8 o.ckpt 0x100) := by
  rw [State.docketsGoOn]
  refine congrArg Host.Outcome.next ((h.onInv _).trans ?_)
  simp only [hp, hc, hb, ne_eq, not_true_eq_false, if_false, Bool.not_true, Bool.false_eq_true]
  rfl

/-! ### Copies -/

variable {x : Shard} {n : Nat} {q : Qn} {id : Fin 256} {r : FaultRec}

theorem execInvShardCopy_copies (h : InvOn s f.val k.toNat i o) (hp : o.phase = 2)
    (hx : o.shards.zipIdx.find? (fun y => y.1.data.isNone) = some (x, n)) (hc : s.copyShard i o n x far = some u) :
    exec (.invShardCopy f k far) s = .next u := by
  refine congrArg Host.Outcome.next ((h.onInv _).trans ?_)
  simp only [hp, ne_eq, not_true_eq_false, if_false, hx, hc, Option.getD_some]

/-- A held write waits for a marked shard. -/
structure WaitsFor (s : State) (q id : Nat) (r : FaultRec) (i : Inst) (o : InvOp) (n : Nat) (x : Shard) : Prop where
  record : s.cowRecord q id = some r
  shard : s.shardAt r = some (i, o, n, x)

theorem WaitsFor.found (h : WaitsFor s q.val id.val r i o n x) : (s.cowRecord q.val id.val).bind s.shardAt = some (i, o, n, x) := by
  rw [h.record]
  exact h.shard

theorem execInvCopyAhead_staged (h : WaitsFor s q.val id.val r i o n x) (hp : o.phase = 2) (hd : x.data = none) (hs : x.staged.isSome = true)
    (hc : s.copyShard i o n x far = some u) :
    exec (.invCopyAhead q id far) s = .next (u.fsat (invFn o.func) F.invFuncState_COPY_AHEAD 1) := by
  show execInvCopyAhead q id far s = _
  simp only [execInvCopyAhead, h.found, hp, hd, hs, ne_eq, not_true_eq_false, Option.isSome_none, Bool.false_eq_true, or_self, if_false,
    if_true, hc, done]

theorem execInvCopyAhead_takes {p : Nat} (h : WaitsFor s q.val id.val r i o n x) (hp : o.phase = 2) (hd : x.data = none) (hs : x.staged = none)
    (hr : s.stagingFor x.len = some p) (hc : (s.stagingTake p x.len).copyShard i o n { x with staged := some p } far = some u) :
    exec (.invCopyAhead q id far) s = .next (u.fsat (invFn o.func) F.invFuncState_COPY_AHEAD 1) := by
  show execInvCopyAhead q id far s = _
  rw [hd] at hc
  simp only [execInvCopyAhead, h.found, hp, hd, hs, hr, ne_eq, not_true_eq_false, Option.isSome_none, Bool.false_eq_true, or_self, if_false,
    Option.map_some, hc, done]

theorem execInvCopyAhead_full (h : WaitsFor s q.val id.val r i o n x) (hs : x.staged = none) (hr : s.stagingFor x.len = none) :
    exec (.invCopyAhead q id far) s = .next s := by
  show execInvCopyAhead q id far s = _
  simp only [execInvCopyAhead, h.found, hs, hr, Option.isSome_none, Bool.false_eq_true, if_false, Option.map_none, done, ite_self]

theorem exec_noRecord (h : s.cowRecord q.val id.val = none) :
    exec (.invCopyAhead q id far) s = .next s ∧ exec (.invStagingTimeout q id) s = .next s := by
  constructor
  · show execInvCopyAhead q id far s = _
    simp only [execInvCopyAhead, h, Option.bind_none, done]
  · show execInvStagingTimeout q id s = _
    simp only [execInvStagingTimeout, h, Option.bind_none, done]

theorem execInvStagingTimeout_by (h : WaitsFor s q.val id.val r i o n x) : exec (.invStagingTimeout q id) s =
    .next (if (x.staged.isNone && (s.stagingFor x.len).isNone) = true then s.endInv o 0x63 o.ckpt else s) := by
  show execInvStagingTimeout q id s = _
  simp only [execInvStagingTimeout, h.found, done]

end

end Sys2Proof.Machine
end

