-- ==== Sys2Proof/Proofs/Restores.lean ====
section
/-!
SUPPORT and PROOF. A checkpoint's store, its manifest, and restores (R529–R535).
-/
namespace Sys2Proof.Machine

/-! ### Durable shards -/

section
variable {s t w : State} {f : FuncNo} {k : BitVec 32} {i : Inst} {o : InvOp} {n : Nat} {x : Shard} {v : Volume} {c : Comm} {b z : Bytes}
  {other : Option (BitVec 16 × BitVec 48 × BitVec 32)} {lba : Option (BitVec 48)} {a : BitVec 48} {failed : Bool}

/-- An operation in progress, its store volume and its communicator. -/
structure InvStore (s : State) (g k : Nat) (i : Inst) (o : InvOp) (v : Volume) (c : Comm) : Prop extends InvOn s g k i o where
  volume : s.volume o.vol = some v
  comm : i.comm o.comm = some c

/-- A copied shard of a checkpoint that has no place yet. -/
structure Copied (s : State) (g k : Nat) (i : Inst) (o : InvOp) (v : Volume) (c : Comm) (n : Nat) (x : Shard) (b : Bytes) : Prop
    extends InvStore s g k i o v c where
  shard : o.shards[n]? = some x
  data : x.data = some b
  loose : x.durable = false
  saves : o.restore = false

/-- A shard has its place. -/
def State.shardPlaced (t : State) (o : InvOp) (n : Nat) (x : Shard) (owner lba stored : Nat) : State :=
  (t.stagingFree x).setInv (o.setShard n { x with owner := some owner, lba := lba, stored := stored, durable := true, staged := none })

theorem execInvShardDurable_present {e : MEntry} (h : Copied s f.val k.toNat i o v c n x b) (hp : v.present x.digest = some e) :
    exec (.invShardDurable f k n other lba failed) s = .next (s.shardPlaced o n x e.owner e.lba e.stored) := by
  rw [State.shardPlaced]
  refine congrArg Host.Outcome.next ((h.onInv _).trans ?_)
  simp only [h.volume, h.comm, h.shard, h.data, h.loose, h.saves, hp, Bool.or_self, Bool.false_eq_true, if_false]

theorem execInvShardDurable_earlier {y : Shard} (h : Copied s f.val k.toNat i o v c n x b) (hp : v.present x.digest = none)
    (hy : o.shards.find? (fun y => y.durable && decide (y.digest = x.digest)) = some y) :
    exec (.invShardDurable f k n other lba failed) s = .next (s.shardPlaced o n x (y.owner.getD 0) y.lba y.stored) := by
  rw [State.shardPlaced]
  refine congrArg Host.Outcome.next ((h.onInv _).trans ?_)
  simp only [h.volume, h.comm, h.shard, h.data, h.loose, h.saves, hp, hy, Bool.or_self, Bool.false_eq_true, if_false]

theorem execInvShardDurable_durable (h : InvStore s f.val k.toNat i o v c) (hx : o.shards[n]? = some x) (hb : x.data = some b)
    (hd : x.durable = true) : exec (.invShardDurable f k n other lba failed) s = .next s := by
  refine congrArg Host.Outcome.next ((h.onInv _).trans ?_)
  simp only [h.volume, h.comm, hx, hb, hd, Bool.true_or, if_true]

/-- A copied shard whose digest has no placement in the store and none by an earlier shard. -/
structure Unplaced (s : State) (g k : Nat) (i : Inst) (o : InvOp) (v : Volume) (c : Comm) (n : Nat) (x : Shard) (b : Bytes) : Prop
    extends Copied s g k i o v c n x b where
  absent : v.present x.digest = none
  first : ∀ y ∈ o.shards, y.durable = true → y.digest ≠ x.digest

theorem Unplaced.noEarlier (h : Unplaced s f.val k.toNat i o v c n x b) :
    o.shards.find? (fun y => y.durable && decide (y.digest = x.digest)) = none := by
  rw [List.find?_eq_none]
  intro y hy hd
  obtain ⟨hdur, heq⟩ := Bool.and_eq_true_iff.mp hd
  exact h.first y hy hdur (of_decide_eq_true heq)

theorem execInvShardDurable_other {r : BitVec 16} {p : BitVec 48} {q : BitVec 32} (h : Unplaced s f.val k.toNat i o v c n x b)
    (hr : r.toNat < c.rank) : exec (.invShardDurable f k n (some (r, p, q)) lba failed) s =
      .next (s.shardPlaced o n x r.toNat p.toNat q.toNat) := by
  rw [State.shardPlaced]
  refine congrArg Host.Outcome.next ((h.onInv _).trans ?_)
  simp only [h.volume, h.comm, h.shard, h.data, h.loose, h.saves, h.absent, h.noEarlier, hr, Bool.or_self, Bool.false_eq_true, if_false, if_true]

theorem execInvShardDurable_noRoom (h : Unplaced s f.val k.toNat i o v c n x b) :
    exec (.invShardDurable f k n none none failed) s = .next (s.endInv o 0x64 o.ckpt) := by
  refine congrArg Host.Outcome.next ((h.onInv _).trans ?_)
  simp only [h.volume, h.comm, h.shard, h.data, h.loose, h.saves, h.absent, h.noEarlier, Bool.or_self, Bool.false_eq_true, if_false]

/-- What a sealed shard comes to: the blocks that firmware names must be free, and the write must complete. -/
theorem execInvShardDurable_sealed (h : Unplaced s f.val k.toNat i o v c n x b) (hs : s.seal i o b = .ok (w, z)) :
    exec (.invShardDurable f k n none (some a) failed) s =
      .next (if (!s.storeFree v c.rank o.vol a.toNat (v.blocksOf z.length)) = true then s
        else if (failed || v.refuses) = true then w.endInv o 0x65 o.ckpt
        else (w.setVolume o.vol (v.store_ a.toNat z)).shardPlaced o n x c.rank a.toNat z.length) := by
  rw [State.shardPlaced]
  refine congrArg Host.Outcome.next ((h.onInv _).trans ?_)
  simp only [h.volume, h.comm, h.shard, h.data, h.loose, h.saves, h.absent, h.noEarlier, hs, Bool.or_self, Bool.false_eq_true, if_false]

/-- A test written with its branches exchanged. -/
theorem ite_not_bool {α : Type} (p : Bool) (a b : α) : (if (!p) = true then a else b) = if p = true then b else a := by
  cases p <;> rfl

theorem execInvShardDurable_written (h : Unplaced s f.val k.toNat i o v c n x b) (hs : s.seal i o b = .ok (w, z)) (hf : failed = false)
    (hr : v.refuses = false) : exec (.invShardDurable f k n none (some a) failed) s =
      .next (if s.storeFree v c.rank o.vol a.toNat (v.blocksOf z.length) = true then
        (w.setVolume o.vol (v.store_ a.toNat z)).shardPlaced o n x c.rank a.toNat z.length else s) := by
  rw [execInvShardDurable_sealed h hs, ite_not_bool, hf, hr, Bool.or_self, if_neg Bool.false_ne_true]

theorem execInvShardDurable_failed (h : Unplaced s f.val k.toNat i o v c n x b) (hs : s.seal i o b = .ok (w, z))
    (hf : failed = true ∨ v.refuses = true) : exec (.invShardDurable f k n none (some a) failed) s =
      .next (if s.storeFree v c.rank o.vol a.toNat (v.blocksOf z.length) = true then w.endInv o 0x65 o.ckpt else s) := by
  rw [execInvShardDurable_sealed h hs, ite_not_bool, if_pos ((Bool.or_eq_true _ _).mpr hf)]

/-! ### Manifests -/

variable {others : Bytes}

/-- The entries of a manifest: this member's own between those of the members of lower and of higher rank. -/
def InvOp.manifestOf (o : InvOp) (c : Comm) (others : Bytes) : List MEntry :=
  let es := (List.range (others.length / 64)).map fun n => entryOf (slice others (64 * n) 64)
  (es.filter fun e => e.rank < c.rank) ++ o.entries c.rank ++ (es.filter fun e => c.rank < e.rank)

/-- Every shard is durable and the entries are those of a manifest. -/
def InvOp.whole (o : InvOp) (c : Comm) (others : Bytes) : Prop :=
  o.phase = 3 ∧ (∀ y ∈ o.shards, y.durable = true) ∧ ascending (o.manifestOf c others) = true ∧ ∀ y ∈ o.manifestOf c others, y.rank < c.size

/-- The test by which the manifest is not written yet. -/
theorem InvOp.not_whole_iff (o : InvOp) (c : Comm) (others : Bytes) :
    (o.phase ≠ 3 ∨ (!(o.shards.all (·.durable))) = true ∨ (!ascending (o.manifestOf c others)) = true ∨
      (!((o.manifestOf c others).all fun e => decide (e.rank < c.size))) = true) ↔ ¬ o.whole c others := by
  simp only [InvOp.whole, not_and_or, Bool.not_eq_true', Bool.eq_false_iff, ne_eq, List.all_eq_true, decide_eq_true_eq]

/-- A volume with a manifest in the slot of an operation's sequence number. -/
def Volume.withManifest (v : Volume) (o : InvOp) (c : Comm) (all : List MEntry) : Volume :=
  (v.store_ (o.seq % 16 * 2 ^ 24 / 2 ^ v.log2) ((leBytes 4 0x5453_4E4D ++ leBytes 2 0x0100 ++ leBytes 2 c.size ++ leBytes 8 c.id ++
    leBytes 8 o.step ++ leBytes 4 all.length ++ leBytes 4 1 ++ sha256 (all.flatMap (·.bytes))) ++ all.flatMap (·.bytes))).discardAll c.rank
    (match v.manifest (o.seq % 16) with | some m => m.2 | none => [])

theorem execInvManifestWrite_by (h : InvStore s f.val k.toNat i o v c) : exec (.invManifestWrite f k others failed) s =
    .next (if (o.phase ≠ 3 ∨ (!(o.shards.all (·.durable))) = true ∨ (!ascending (o.manifestOf c others)) = true ∨
        (!((o.manifestOf c others).all fun e => decide (e.rank < c.size))) = true) then s
      else if 2 ^ 24 < 64 * (o.manifestOf c others).length + 64 then s.endInv o 0x64 o.ckpt
      else if (failed || v.refuses) = true then s.endInv o 0x65 o.ckpt
      else (s.setVolume o.vol (v.withManifest o c (o.manifestOf c others))).endInv o 0 o.ckpt) := by
  refine congrArg Host.Outcome.next ((h.onInv _).trans ?_)
  simp only [h.volume, h.comm]
  rfl

theorem execInvManifestWrite_early (h : InvStore s f.val k.toNat i o v c) (hw : ¬ o.whole c others) :
    exec (.invManifestWrite f k others failed) s = .next s := by
  rw [execInvManifestWrite_by h, if_pos ((o.not_whole_iff c others).mpr hw)]

theorem execInvManifestWrite_tooLong (h : InvStore s f.val k.toNat i o v c) (hw : o.whole c others)
    (hl : 2 ^ 24 < 64 * (o.manifestOf c others).length + 64) :
    exec (.invManifestWrite f k others failed) s = .next (s.endInv o 0x64 o.ckpt) := by
  rw [execInvManifestWrite_by h, if_neg (mt (o.not_whole_iff c others).mp (not_not_intro hw)), if_pos hl]

theorem execInvManifestWrite_fits (h : InvStore s f.val k.toNat i o v c) (hw : o.whole c others)
    (hl : 64 * (o.manifestOf c others).length + 64 ≤ 2 ^ 24) : exec (.invManifestWrite f k others failed) s =
      .next (if (failed || v.refuses) = true then s.endInv o 0x65 o.ckpt
        else (s.setVolume o.vol (v.withManifest o c (o.manifestOf c others))).endInv o 0 o.ckpt) := by
  rw [execInvManifestWrite_by h, if_neg (mt (o.not_whole_iff c others).mp (not_not_intro hw)), if_neg (Nat.not_lt.mpr hl)]

theorem execInvManifestWrite_written (h : InvStore s f.val k.toNat i o v c) (hw : o.whole c others)
    (hl : 64 * (o.manifestOf c others).length + 64 ≤ 2 ^ 24) (hf : failed = false) (hr : v.refuses = false) :
    exec (.invManifestWrite f k others failed) s =
      .next ((s.setVolume o.vol (v.withManifest o c (o.manifestOf c others))).endInv o 0 o.ckpt) := by
  rw [execInvManifestWrite_fits h hw hl, hf, hr, Bool.or_self, if_neg Bool.false_ne_true]

theorem execInvManifestWrite_failed (h : InvStore s f.val k.toNat i o v c) (hw : o.whole c others)
    (hl : 64 * (o.manifestOf c others).length + 64 ≤ 2 ^ 24) (hf : failed = true ∨ v.refuses = true) :
    exec (.invManifestWrite f k others failed) s = .next (s.endInv o 0x65 o.ckpt) := by
  rw [execInvManifestWrite_fits h hw hl, if_pos ((Bool.or_eq_true _ _).mpr hf)]

end

/-! ### Restores -/

section
variable {s u : State} {f : FuncNo} {k : BitVec 32} {i : Inst} {o : InvOp} {m b : Bytes} {far : List FarAns} {v : Volume} {c : Comm}
  {mf : Manifest} {fetched : List (Option Bytes)}

/-- The fields of INV_RESTORE are in range. -/
structure RestoreOk (m : Bytes) : Prop where
  policy : mNum m 10 1 ≤ 1
  clean : mZero m 11 1 = true
  end_ : mZero m 30 2 = true
  least : 1 ≤ mNum m 28 2
  most : mNum m 28 2 ≤ 256

theorem RestoreOk.wellFormed (h : RestoreOk m) : ¬ ((decide (1 < mNum m 10 1) || !mZero m 11 1 || !mZero m 30 2) = true ∨ mNum m 28 2 = 0 ∨
    256 < mNum m 28 2) := by
  obtain ⟨hp, hc, he, hl, hm⟩ := h
  rw [hc, he, decide_eq_false (Nat.not_lt.mpr hp)]
  simp only [Bool.not_true, Bool.or_self, Bool.false_eq_true, false_or]
  omega

/-- No operation of the function is on the communicator, and no docket is outstanding. -/
def State.restoreFree (s : State) (g comm : Nat) (i : Inst) : Prop := s.commFree g comm ∧ i.dockets = []

/-- The restore that a request makes. -/
def State.newRestore (u : State) (g : Nat) (m b : Bytes) : InvOp := {
  func := g, comm := mNum m 0 4, ctx := mNum m 4 4, vol := mNum m 8 2, step := mNum m 12 8, ckpt := u.inv.next, restore := true
  policy := mNum m 10 1, seq := lookD 0 u.inv.seqs (key2 g (mNum m 0 4)), resultAddr := mNum m 32 8, set := setRanges b, phase := 4 }

/-- A restore has begun. -/
def State.restoreBegun (u : State) (g : Nat) (m b : Bytes) : State :=
  ({ u with inv := { u.inv with
    ops := u.inv.ops ++ [u.newRestore g m b], next := (u.inv.next + 1) % 2 ^ 32 } } : State).setInv (u.newRestore g m b)

/-- A request for a restore, of a well-formed message with right references. -/
structure RestoreMsg (s : State) (g : Nat) (i : Inst) (m : Bytes) : Prop extends InstMsg s g 0x0071 40 i m, RestoreOk m where
  refs : s.invRefs g i (mNum m 0 4) (mNum m 4 4) (mNum m 8 2) = 0

theorem execInvRestore_busy (h : RestoreMsg s f.val i m) (hf : ¬ s.restoreFree f.val (mNum m 0 4) i) :
    exec (.invRestore f far fetched) s = .next (s.reply f.val m 2 0 []) := by
  refine h.toInstMsg.answer ((if_neg h.toRestoreOk.wellFormed).trans ((if_neg (not_not_intro h.refs)).trans (if_pos ?_)))
  rw [State.restoreFree, not_and_or, ← s.commFree_iff, Bool.not_eq_false] at hf
  rcases hf with hc | hd
  · rw [hc, Bool.true_or]
  · rw [Bool.true_and, (List.isEmpty_eq_false_iff (l := i.dockets)).mpr hd, Bool.not_false, Bool.or_true]

/-- A restore that passes its checks: its set is read, the operation is sound and its store is there. -/
structure RestoreAsked (s u : State) (g : Nat) (i : Inst) (m b : Bytes) (far : List FarAns) (v : Volume) (c : Comm) : Prop
    extends RestoreMsg s g i m where
  free : s.restoreFree g (mNum m 0 4) i
  set : s.fwRead i.asid (mNum m 20 8) (16 * mNum m 28 2) far = (u, some (.ok b))
  disjoint : setOk (setRanges b) = true
  sound : (u.restoreBegun g m b).invBroken i (u.newRestore g m b) = none
  volume : (u.restoreBegun g m b).volume (u.newRestore g m b).vol = some v
  comm : i.comm (u.newRestore g m b).comm = some c

/-- What a request that passes its checks comes to. -/
theorem RestoreAsked.request (h : RestoreAsked s u f.val i m b far v c) (go : State → InvOp → Ans) :
    s.invRequest f.val i m true far go = go (u.restoreBegun f.val m b) (u.newRestore f.val m b) := by
  obtain ⟨hcomm, hdockets⟩ := h.free
  have hfree := (s.commFree_iff f.val (mNum m 0 4)).mpr hcomm
  have hset := not_waits h.disjoint
  rw [State.restoreBegun, State.newRestore]
  simp only [State.invRequest, if_true, if_neg h.toRestoreOk.wellFormed, h.refs, ne_eq, not_true_eq_false, if_false, hfree, hdockets,
    List.isEmpty_nil, Bool.not_true, Bool.and_false, Bool.or_self, Bool.false_eq_true, h.set, if_neg hset]

/-- A restore is answered at once, with the first step tried or the operation ended. -/
theorem RestoreAsked.runs (h : RestoreAsked s u f.val i m b far v c) : exec (.invRestore f far fetched) s =
    .next ((match v.forStep (u.newRestore f.val m b).step with
      | some x => (u.restoreBegun f.val m b).tryStep i (u.newRestore f.val m b) v c.rank x fetched
      | none => (u.restoreBegun f.val m b).endInv (u.newRestore f.val m b) 0x62 (u.newRestore f.val m b).step).reply f.val m 0 0 []) := by
  refine h.toInstMsg.answer ((h.request _).trans ?_)
  simp only [h.sound, h.volume, h.comm, State.ok] <;> rfl

theorem execInvRestore_tries (h : RestoreAsked s u f.val i m b far v c) (hm : v.forStep (u.newRestore f.val m b).step = some mf) :
    exec (.invRestore f far fetched) s = .next (((u.restoreBegun f.val m b).tryStep i (u.newRestore f.val m b) v c.rank mf fetched).reply
      f.val m 0 0 []) := by
  rw [h.runs, hm]

theorem execInvRestore_missing (h : RestoreAsked s u f.val i m b far v c) (hm : v.forStep (u.newRestore f.val m b).step = none) :
    exec (.invRestore f far fetched) s = .next (((u.restoreBegun f.val m b).endInv (u.newRestore f.val m b) 0x62
      (u.newRestore f.val m b).step).reply f.val m 0 0 []) := by
  rw [h.runs, hm]

/-! ### The result of a step -/

variable {own : Nat} {ot : BitVec 8}

/-- The failures of the first step tried are written once. -/
def State.firstResult (s : State) (i : Inst) (o : InvOp) : State := match o.failing with
  | some y => if o.trying = y.1 then s.writeResult i o y else s
  | none => s.writeResult i o (o.trying, [])

/-- The failures of the first step tried are kept. -/
def InvOp.kept (o : InvOp) : InvOp := match o.failing with
  | some _ => o
  | none => { o with failing := some (o.trying, []) }

theorem InvOp.kept_same (o : InvOp) : o.kept.policy = o.policy ∧ o.kept.vol = o.vol ∧ o.kept.comm = o.comm ∧ o.kept.trying = o.trying := by
  cases hf : o.failing <;> simp only [InvOp.kept, hf, and_self]

/-- What the exchanged results of a step come to, by what was kept of them. -/
theorem InvOn.result (h : InvOn s f.val k.toNat i o) (hr : o.result = some own) : exec (.invRestoreResult f k ot fetched) s =
    .next (if own = 0 ∧ ot = 0 then s.endInv o 0 o.trying
      else if o.policy = 0 then (s.firstResult i o).endInv o.kept (if own ≠ 0 then own else ot.toNat) o.trying
      else match (s.firstResult i o).volume o.vol, i.comm o.comm with
        | some v, some c =>
          match v.older o.trying with
          | some m => (s.firstResult i o).tryStep i o.kept v c.rank m fetched
          | none => (s.firstResult i o).endInv o.kept 0x62 o.trying
        | _, _ => (s.firstResult i o).endInv o.kept 0x62 o.trying) := by
  refine congrArg Host.Outcome.next ((h.onInv _).trans ?_)
  cases hf : o.failing <;> simp only [hr, hf, State.firstResult, InvOp.kept] <;> rfl

theorem not_passed (h : own ≠ 0 ∨ ot ≠ 0) : ¬ (own = 0 ∧ ot = 0) := not_and_or.mpr h

theorem execInvRestoreResult_passed (h : InvOn s f.val k.toNat i o) (hr : o.result = some own) (ho : own = 0) (ht : ot = 0) :
    exec (.invRestoreResult f k ot fetched) s = .next (s.endInv o 0 o.trying) := by
  rw [h.result hr, if_pos ⟨ho, ht⟩]

theorem execInvRestoreResult_fails (h : InvOn s f.val k.toNat i o) (hr : o.result = some own) (hn : own ≠ 0 ∨ ot ≠ 0) (hp : o.policy = 0) :
    exec (.invRestoreResult f k ot fetched) s =
      .next ((s.firstResult i o).endInv o.kept (if own ≠ 0 then own else ot.toNat) o.trying) := by
  rw [h.result hr, if_neg (not_passed hn), if_pos hp]

theorem execInvRestoreResult_older (h : InvOn s f.val k.toNat i o) (hr : o.result = some own) (hn : own ≠ 0 ∨ ot ≠ 0) (hp : o.policy ≠ 0)
    (hv : (s.firstResult i o).volume o.vol = some v) (hc : i.comm o.comm = some c) (hm : v.older o.trying = some mf) :
    exec (.invRestoreResult f k ot fetched) s = .next ((s.firstResult i o).tryStep i o.kept v c.rank mf fetched) := by
  rw [h.result hr, if_neg (not_passed hn), if_neg hp, hv, hc]
  simp only [hm]

theorem execInvRestoreResult_noOlder (h : InvOn s f.val k.toNat i o) (hr : o.result = some own) (hn : own ≠ 0 ∨ ot ≠ 0) (hp : o.policy ≠ 0)
    (hv : (s.firstResult i o).volume o.vol = some v) (hc : i.comm o.comm = some c) (hm : v.older o.trying = none) :
    exec (.invRestoreResult f k ot fetched) s = .next ((s.firstResult i o).endInv o.kept 0x62 o.trying) := by
  rw [h.result hr, if_neg (not_passed hn), if_neg hp, hv, hc]
  simp only [hm]

theorem execInvRestoreResult_waits (h : InvOn s f.val k.toNat i o) (hr : o.result = none) :
    exec (.invRestoreResult f k ot fetched) s = .next s := by
  refine congrArg Host.Outcome.next ((h.onInv _).trans ?_)
  simp only [hr]

end

/-- Settles O53: each command of a checkpoint and of a restore, by its guards. -/
theorem inventoryRows : Obligations.InventoryRows := by
  unfold Obligations.InventoryRows
  constructor
  · intro s u f k far m b i j o tables xs n x q id r
    intro g got comm count shape refs free key new begun on broken early vas marked cut full waits t others goOn
    have ok : shape → CkptOk m := fun h => ⟨h.1, h.2.1, h.2.2.1, h.2.2.2⟩
    have msg : got → InstMsg s g 0x0070 30 i m := fun h => ⟨h.1, h.2⟩
    have run : on → InvOn s g k.toNat i o := fun h => ⟨h.1, h.2.1, h.2.2⟩
    have held : waits → WaitsFor s q.val id.val r i o n x := fun h => ⟨h.1, h.2⟩
    refine ⟨?_, ?_, ?_, ?_, ?_, ?_, ?_, ?_, ?_, ?_, ?_, ?_, ?_, ?_, ?_, ?_, ?_, ?_⟩
    · exact fun hg hs hr hf hb hok hj => execInvCheckpoint_begins ⟨msg hg, ok hs, hr, hf⟩ hb hok hj
    · exact fun hg hs hr hf hb hok => execInvCheckpoint_badSet ⟨msg hg, ok hs, hr, hf⟩ hb hok
    · exact fun hg hb => execInvCheckpoint_malformed (msg hg) (ckptBad_of hb)
    · exact fun hg hs hr => execInvCheckpoint_refs (msg hg) (ok hs) hr
    · exact fun hg hs hr hf => execInvCheckpoint_busy (msg hg) (ok hs) hr hf
    · intro h hp hc hb he hf
      exact (CutDue.cut ⟨run h, hp, hc, hb⟩ he).trans (congrArg _ (if_neg (mt (stagingShort_iff xs).mp hf)))
    · intro h hp hc hb he hf
      exact (CutDue.cut ⟨run h, hp, hc, hb⟩ he).trans (congrArg _ (if_pos ((stagingShort_iff xs).mpr hf)))
    · exact fun h hp hc hb => execInvCut_early (run h) hp hc hb
    · exact fun h hp hc hb => execInvCut_done (run h) hp hc hb
    · exact fun h hp hc hb => execInvCut_invalidating (run h) hp hc hb
    · exact fun h hp hx hc => execInvShardCopy_copies (run h) hp hx hc
    · intro e ⟨hi, ho, hb⟩ hr
      exact ⟨congrArg Host.Outcome.next (State.onInv_broken hi ho hb hr _), congrArg Host.Outcome.next (State.onInv_broken hi ho hb hr _)⟩
    · exact fun h hp hd hs hc => execInvCopyAhead_staged (held h) hp hd hs hc
    · exact fun p h hp hd hs hr hc => execInvCopyAhead_takes (held h) hp hd hs hr hc
    · exact fun h hs hr => execInvCopyAhead_full (held h) hs hr
    · exact exec_noRecord
    · intro h hs hr
      rw [execInvStagingTimeout_by (held h), hs, hr]
      rfl
    · intro h hr
      rw [execInvStagingTimeout_by (held h), if_neg]
      rw [Bool.and_eq_true, Option.isNone_iff_eq_none, Option.isNone_iff_eq_none]
      rintro ⟨hs, hn⟩
      rcases hr with hr | hr
      · rw [hs] at hr
        exact absurd hr Bool.false_ne_true
      · exact hr hn
  · intro s u w f k far m b z i o n x v c lba a other failed e others mf fetched ot own g on store copied place fresh durable es all whole slot old body head written manifest got count shape refs free new begun
      asked result first tried restored
    have run : on → InvOn s g k.toNat i o := fun h => ⟨h.1, h.2.1, h.2.2⟩
    have stored : store → InvStore s g k.toNat i o v c := fun h => ⟨run h.1, h.2.1, h.2.2⟩
    have copy : copied → Copied s g k.toNat i o v c n x b := fun h => ⟨stored h.1, h.2.1, h.2.2.1, h.2.2.2.1, h.2.2.2.2⟩
    have loose : copied → fresh → Unplaced s g k.toNat i o v c n x b := fun h hf => ⟨copy h, hf.1, hf.2⟩
    have msg : got → shape → refs → RestoreMsg s g i m :=
      fun hg hs hr => ⟨⟨hg.1, hg.2⟩, ⟨hs.1, hs.2.1, hs.2.2.1, hs.2.2.2.1, hs.2.2.2.2⟩, hr⟩
    have ask : asked → RestoreAsked s u g i m b far v c :=
      fun ⟨hg, hs, hr, hf, hb, hok, hn, hv, hc⟩ => ⟨msg hg hs hr, hf, hb, hok, hn, hv, hc⟩
    refine ⟨?_, ?_, ?_, ?_, ?_, ?_, ?_, ?_, ?_, ?_, ?_, ?_, ?_, ?_, ?_, ?_, ?_, ?_, ?_⟩
    · exact fun h hp => execInvShardDurable_present (copy h) hp
    · exact fun h hp y hy => execInvShardDurable_earlier (copy h) hp hy
    · rintro h hf r p q ho hr
      subst ho
      exact execInvShardDurable_other (loose h hf) hr
    · rintro h hf ho hl hs hfa hr
      subst ho hl
      exact execInvShardDurable_written (loose h hf) hs hfa hr
    · rintro h hf ho hl hs hfa
      subst ho hl
      exact execInvShardDurable_failed (loose h hf) hs hfa
    · rintro h hf ho hl
      subst ho hl
      exact execInvShardDurable_noRoom (loose h hf)
    · exact fun h hx hb hd => execInvShardDurable_durable (stored h) hx hb hd
    · exact fun h hw hl hf hr => execInvManifestWrite_written (stored h) hw hl hf hr
    · exact fun h hw hl hf => execInvManifestWrite_failed (stored h) hw hl hf
    · exact fun h hw hl => execInvManifestWrite_tooLong (stored h) hw hl
    · exact fun h hw => execInvManifestWrite_early (stored h) hw
    · exact fun h hm => execInvRestore_tries (ask h) hm
    · exact fun h hm => execInvRestore_missing (ask h) hm
    · exact fun hg hs hr hf => execInvRestore_busy (msg hg hs hr) hf
    · exact fun h ho ht => execInvRestoreResult_passed (run h.1) h.2 ho ht
    · exact fun h hn hp => execInvRestoreResult_fails (run h.1) h.2 hn hp
    · exact fun h hn hp hv hc hm => execInvRestoreResult_older (run h.1) h.2 hn hp hv hc hm
    · exact fun h hn hp hv hc hm => execInvRestoreResult_noOlder (run h.1) h.2 hn hp hv hc hm
    · exact fun h hr => execInvRestoreResult_waits (run h) hr

end Sys2Proof.Machine
end

