-- ==== Sys2Proof/Proofs/Errs.lean ====
section
/-!
SUPPORT and PROOF. Findings of detectors, fences, rejoins and injections (R547, R552–R564).
-/
namespace Sys2Proof.Machine

/-! ### Findings -/

section
variable {s : State} {det prec : BitVec 8} {n : Fin 3} {unit : BitVec 16} {detail : BitVec 32} {addr : BitVec 57} {asid : BitVec 12} {c : Nat}

/-- The loss of the minimum service set is its own test. -/
theorem execErrorReport_service (h : det.toNat = 0x10) : exec (.errorReport det n prec unit detail addr asid) s = .next s.checkService :=
  if_pos h

theorem execErrorReport_unlisted (h : det.toNat ≠ 0x10) (hc : classOf det.toNat n.val unit.toNat addr.toNat = none) :
    exec (.errorReport det n prec unit detail addr asid) s = .next s := by
  refine (if_neg h).trans ?_
  simp only [hc, done]

/-- A finding of a class is reported with that class; one of class 3 must name a stall. -/
theorem execErrorReport_class (h : det.toNat ≠ 0x10) (hc : classOf det.toNat n.val unit.toNat addr.toNat = some c)
    (hs : c = 3 → stallOk unit.toNat = true) : exec (.errorReport det n prec unit detail addr asid) s =
      .next (s.report c det.toNat prec.toNat unit.toNat detail.toNat addr.toNat asid.toNat false) := by
  refine (if_neg h).trans ?_
  simp only [hc, done]
  exact if_neg fun ⟨h3, hn⟩ => hn (hs h3)

/-! ### Requesters of ERR_FENCE_CTRL -/

variable {rq : Requester} {v : W64} {failing : List (BitVec 16)} {names : List Nat} {t : Nat}

/-- A kernel core and the PF may fence. -/
theorem not_mayFence_iff (rq : Requester) : (!rqKernel rq && !rqPf rq) = true ↔ ¬ (rqKernel rq = true ∨ rqPf rq = true) := by
  simp only [Bool.and_eq_true, Bool.not_eq_true', not_or, Bool.not_eq_true]

theorem State.fenceCtrlWrite_refused (h : ¬ (rqKernel rq = true ∨ rqPf rq = true)) :
    s.fenceCtrlWrite rq v names = s.refuse rq ⟨.errFenceCtrl, 0, 0⟩ := if_pos ((not_mayFence_iff rq).mpr h)

theorem State.fenceCtrlWrite_fence (h : rqKernel rq = true ∨ rqPf rq = true) (hf : bitsOf v F.errFenceCtrl_OP = 1) :
    s.fenceCtrlWrite rq v names = s.fenceOp (bitsOf v F.errFenceCtrl_TARGET) := by
  refine (if_neg (mt (not_mayFence_iff rq).mp (not_not_intro h))).trans ?_
  simp only [hf]

theorem State.fenceCtrlWrite_rejoin (h : rqKernel rq = true ∨ rqPf rq = true) (hf : bitsOf v F.errFenceCtrl_OP = 2) :
    s.fenceCtrlWrite rq v names = s.rejoinOp (bitsOf v F.errFenceCtrl_TARGET) names := by
  refine (if_neg (mt (not_mayFence_iff rq).mp (not_not_intro h))).trans ?_
  simp only [hf]

theorem execErrFence_write (hf : bitsOf v F.errFenceCtrl_OP = 1) : exec (.errFence rq v) s = .next (s.fenceCtrlWrite rq v []) :=
  congrArg Host.Outcome.next (if_pos hf)

theorem execErrRejoin_write (hf : bitsOf v F.errFenceCtrl_OP = 2) :
    exec (.errRejoin rq v failing) s = .next (s.fenceCtrlWrite rq v (failing.map (·.toNat))) := congrArg Host.Outcome.next (if_pos hf)

/-- A target names a Quarter. -/
def namesQuarter (t : Nat) : Prop := 0x8000 ≤ t ∧ t < 0x8004

/-- No Quarter's target is a stall's. -/
theorem namesQuarter.not_stall (h : namesQuarter t) : ¬ stallOk t = true := by
  intro hs
  obtain ⟨hlt, -⟩ := Bool.and_eq_true_iff.mp hs
  have := of_decide_eq_true hlt
  obtain ⟨hq, -⟩ := h
  omega

/-! ### Fences -/

theorem State.fenceOp_stall (h : stallOk t = true) : s.fenceOp t = (s.fenceStall t).fenceEnd t 0 := if_pos h

theorem State.fenceOp_quarter (h : namesQuarter t) : s.fenceOp t = ((s.fenceQuarter (t - 0x8000)).checkService).fenceEnd t 0 :=
  (if_neg h.not_stall).trans (if_pos h)

theorem State.fenceOp_unknown (h : stallOk t = false) (hq : ¬ namesQuarter t) : s.fenceOp t = s.fenceEnd t 1 :=
  (if_neg (Bool.not_eq_true _ ▸ h)).trans (if_neg hq)

/-! ### Rejoins -/

theorem State.rejoinOp_stall (h : stallOk t = true) : s.rejoinOp t names = (s.rejoinStall t names).1.fenceEnd t (s.rejoinStall t names).2 :=
  if_pos h

theorem State.rejoinOp_quarter {w : State} {st : Nat} (h : namesQuarter t) (hr : s.rejoinQuarter (t - 0x8000) names = (w, st)) :
    s.rejoinOp t names = w.fenceEnd t st := by
  refine (if_neg h.not_stall).trans ((if_pos h).trans ?_)
  rw [hr]

theorem State.rejoinStall_quarterFenced (h : s.qFenced (stallQ t) = true) : s.rejoinStall t names = (s, 2) := if_pos h

/-- A stall's Quarter is not fenced. -/
theorem State.rejoinStall_notFenced (h : s.qFenced (stallQ t) = false) (ho : s.fget ⟨.stallState, t, 0⟩ F.stallState_STATE ≠ 4) :
    s.rejoinStall t names = (s, 1) := (if_neg (Bool.not_eq_true _ ▸ h)).trans (if_pos ho)

/-- What a fenced stall's rejoin comes to: four fences are too many, and then it is its self-test's. -/
theorem State.rejoinStall_fenced (h : s.qFenced (stallQ t) = false) (ho : s.fget ⟨.stallState, t, 0⟩ F.stallState_STATE = 4) :
    s.rejoinStall t names =
      if 4 ≤ lookD 0 s.err.fenceCount t then (s, 3) else if names.contains t = true then (s, 4) else (s.resetUnit t, 0) :=
  (if_neg (Bool.not_eq_true _ ▸ h)).trans (if_neg (not_not_intro ho))

theorem State.rejoinStall_tooOften (h : s.qFenced (stallQ t) = false) (ho : s.fget ⟨.stallState, t, 0⟩ F.stallState_STATE = 4)
    (hc : 4 ≤ lookD 0 s.err.fenceCount t) : s.rejoinStall t names = (s, 3) := (State.rejoinStall_fenced h ho).trans (if_pos hc)

theorem State.rejoinStall_failing (h : s.qFenced (stallQ t) = false) (ho : s.fget ⟨.stallState, t, 0⟩ F.stallState_STATE = 4)
    (hc : lookD 0 s.err.fenceCount t < 4) (hn : t ∈ names) : s.rejoinStall t names = (s, 4) :=
  (State.rejoinStall_fenced h ho).trans ((if_neg (Nat.not_le.mpr hc)).trans (if_pos (List.contains_iff_mem.mpr hn)))

theorem State.rejoinStall_passes (h : s.qFenced (stallQ t) = false) (ho : s.fget ⟨.stallState, t, 0⟩ F.stallState_STATE = 4)
    (hc : lookD 0 s.err.fenceCount t < 4) (hn : t ∉ names) : s.rejoinStall t names = (s.resetUnit t, 0) :=
  (State.rejoinStall_fenced h ho).trans ((if_neg (Nat.not_le.mpr hc)).trans (if_neg (mt List.contains_iff_mem.mp hn)))

/-- A Quarter that is not fenced does not rejoin. -/
theorem State.rejoinQuarter_notFenced {q : Nat} (h : s.qFenced q = false) (hq : s.xim.quiesce = []) (hl : s.xim.load = none)
    (hd : s.fbit pwrStatus F.pwrStatus_DECLARED = false) : s.rejoinQuarter q names = (s, 1) := by
  refine (if_neg ?_).trans (if_pos (congrArg (!·) h))
  rw [hq, hl, hd]
  exact Bool.false_ne_true

/-! ### Injections -/

/-- The injection that ERR_INJ_CTRL and ERR_INJ_ADDR spell. -/
def State.injOf (s : State) (v : W64) : Injection := {
  sticky := decide (bitsOf v F.errInjCtrl_MODE = 2), detector := bitsOf v F.errInjCtrl_DETECTOR, unit := bitsOf v F.errInjCtrl_UNIT
  syndrome := bitsOf v F.errInjCtrl_SYNDROME, addr := s.fget ⟨.errInjAddr, 0, 0⟩ F.errInjAddr_ADDR }

/-- Its fields are those of Table 24.7. -/
def State.injRight (s : State) (v : W64) : Prop := (bitsOf v F.errInjCtrl_MODE = 1 ∨ bitsOf v F.errInjCtrl_MODE = 2) ∧
  s.injValid (s.injOf v).detector (s.injOf v).unit (s.injOf v).syndrome (s.injOf v).addr = true

/-- The test by which an armed injection is refused. -/
theorem State.not_injRight_iff (s : State) (v : W64) :
    (s.err.inj.isSome || decide (bitsOf v F.errInjCtrl_MODE = 0) || decide (bitsOf v F.errInjCtrl_MODE = 3) ||
      !s.injValid (s.injOf v).detector (s.injOf v).unit (s.injOf v).syndrome (s.injOf v).addr) = true ↔
      ¬ s.injRight v ∨ s.err.inj ≠ none := by
  have hlt : bitsOf v F.errInjCtrl_MODE < 4 := Nat.mod_lt _ (by decide)
  have hmode : (bitsOf v F.errInjCtrl_MODE = 0 ∨ bitsOf v F.errInjCtrl_MODE = 3) ↔
      ¬ (bitsOf v F.errInjCtrl_MODE = 1 ∨ bitsOf v F.errInjCtrl_MODE = 2) := by omega
  simp only [Bool.or_eq_true, decide_eq_true_eq, Bool.not_eq_true', State.injRight, Option.isSome_iff_ne_none, not_and_or, ← hmode,
    Bool.not_eq_true]
  tauto

/-- An injection armed. -/
def State.injArmed (s : State) (v : W64) : State :=
  ({ s with err := { s.err with inj := some (s.injOf v) } } : State).fset ⟨.errInjStatus, 0, 0⟩ F.errInjStatus_ARMED 1

theorem State.injCtrlWrite_arm (ha : bitsOf v F.errInjCtrl_ARM = 1) (hd : ¬ bitsOf v F.errInjCtrl_DISARM = 1) (hm : s.mayInject rq = true) :
    s.injCtrlWrite rq v =
      if (s.err.inj.isSome || decide (bitsOf v F.errInjCtrl_MODE = 0) || decide (bitsOf v F.errInjCtrl_MODE = 3) ||
        !s.injValid (s.injOf v).detector (s.injOf v).unit (s.injOf v).syndrome (s.injOf v).addr) = true then
        s.refuse rq ⟨.errInjCtrl, 0, 0⟩ else s.injArmed v := by
  refine (if_neg ?_).trans ((if_neg hd).trans (if_pos ha))
  rw [hm, decide_eq_false hd, Bool.and_false]
  exact Bool.false_ne_true

theorem State.injCtrlWrite_notMine (hm : s.mayInject rq = false) : s.injCtrlWrite rq v = s.refuse rq ⟨.errInjCtrl, 0, 0⟩ :=
  if_pos (by rw [hm]; rfl)

theorem State.injCtrlWrite_both (ha : bitsOf v F.errInjCtrl_ARM = 1) (hd : bitsOf v F.errInjCtrl_DISARM = 1) :
    s.injCtrlWrite rq v = s.refuse rq ⟨.errInjCtrl, 0, 0⟩ :=
  if_pos (by rw [decide_eq_true ha, decide_eq_true hd, Bool.and_self, Bool.or_true])

theorem State.injCtrlWrite_disarm (hd : bitsOf v F.errInjCtrl_DISARM = 1) (ha : ¬ bitsOf v F.errInjCtrl_ARM = 1) (hm : s.mayInject rq = true) :
    s.injCtrlWrite rq v = s.injDisarm := by
  refine (if_neg ?_).trans (if_pos hd)
  rw [hm, decide_eq_false ha, Bool.false_and]
  exact Bool.false_ne_true

theorem execErrInjArm_write (ha : bitsOf v F.errInjCtrl_ARM = 1) : exec (.errInjArm rq v) s = .next (s.injCtrlWrite rq v) :=
  congrArg Host.Outcome.next (if_pos ha)

theorem execErrInjDisarm_write (hd : bitsOf v F.errInjCtrl_DISARM = 1) : exec (.errInjDisarm rq v) s = .next (s.injCtrlWrite rq v) :=
  congrArg Host.Outcome.next (if_pos hd)

theorem execErrInjArm_refused (ha : bitsOf v F.errInjCtrl_ARM = 1) (hd : ¬ bitsOf v F.errInjCtrl_DISARM = 1)
    (h : s.mayInject rq = false ∨ ¬ s.injRight v ∨ s.err.inj ≠ none) : exec (.errInjArm rq v) s = .next (s.refuse rq ⟨.errInjCtrl, 0, 0⟩) := by
  rw [execErrInjArm_write ha]
  cases hm : s.mayInject rq
  · rw [State.injCtrlWrite_notMine hm]
  · have hbad := h.resolve_left (Bool.not_eq_false _ ▸ hm)
    rw [State.injCtrlWrite_arm ha hd hm, if_pos ((s.not_injRight_iff v).mpr hbad)]

end

/-- Settles O54: each command on errors, by its requester and its target. -/
theorem errorCommands : Obligations.ErrorCommands := by
  unfold Obligations.ErrorCommands
  intro s det prec n unit detail addr asid rq v failing c st w d report rec_ t may ctrl fence rejoin names quarter stays off arm disarm mode
    inj right ictl found
  have rejoins {x : State × Nat} (hm : may) (hr : rejoin) (hs : stallOk t = true) (hx : s.rejoinStall t names = x) :
      exec (.errRejoin rq v failing) s = .next (x.1.fenceEnd t x.2) := by
    rw [execErrRejoin_write hr, State.fenceCtrlWrite_rejoin hm hr, State.rejoinOp_stall hs, ← hx]
  refine ⟨?_, ?_, ?_, ?_, ?_, ?_, ?_, ?_, ?_, ?_, ?_, ?_, ?_, ?_, ?_, ?_, ?_, ?_, ?_, ?_, ?_, ?_, ?_, ?_⟩
  · rintro ⟨hd, hc⟩ (rfl | rfl)
    all_goals exact execErrorReport_class hd hc fun h => absurd h (by decide)
  · rintro ⟨hd, hc⟩ rfl hs
    exact execErrorReport_class hd hc fun _ => hs
  · rintro ⟨hd, hc⟩ rfl
    exact execErrorReport_class hd hc fun h => absurd h (by decide)
  · rintro ⟨hd, hc⟩ rfl
    exact execErrorReport_class hd hc fun h => absurd h (by decide)
  · exact execErrorReport_service
  · exact execErrorReport_unlisted
  · rfl
  · rfl
  · intro hm hf hs
    rw [execErrFence_write hf, State.fenceCtrlWrite_fence hm hf, State.fenceOp_stall hs]
  · intro hm hf hq
    rw [execErrFence_write hf, State.fenceCtrlWrite_fence hm hf, State.fenceOp_quarter hq]
  · intro hm hf hs hq
    rw [execErrFence_write hf, State.fenceCtrlWrite_fence hm hf, State.fenceOp_unknown hs hq]
  · intro hm hf
    rw [execErrFence_write hf, State.fenceCtrlWrite_refused hm]
  · exact fun hm hr hs ho hc hn => rejoins hm hr hs.1 (State.rejoinStall_passes hs.2 ho hc hn)
  · exact fun hm hr hs ho hc hn => rejoins hm hr hs.1 (State.rejoinStall_failing hs.2 ho hc hn)
  · exact fun hm hr hs ho hc => rejoins hm hr hs.1 (State.rejoinStall_tooOften hs.2 ho hc)
  · exact fun hm hr hs ho => rejoins hm hr hs.1 (State.rejoinStall_notFenced hs.2 ho)
  · exact fun hm hr hs hq => rejoins hm hr hs (State.rejoinStall_quarterFenced hq)
  · intro hm hr hq hw
    rw [execErrRejoin_write hr, State.fenceCtrlWrite_rejoin hm hr, State.rejoinOp_quarter hq hw]
  · exact fun hf hq hl hd _ => State.rejoinQuarter_notFenced hf hq hl hd
  · intro hm hr
    rw [execErrRejoin_write hr, State.fenceCtrlWrite_refused hm]
  · intro ha hd hm hr hn
    have hok : ¬ (¬ s.injRight v ∨ s.err.inj ≠ none) := not_or.mpr ⟨not_not_intro hr, not_not_intro hn⟩
    exact (execErrInjArm_write ha).trans (congrArg _ ((State.injCtrlWrite_arm ha hd hm).trans (if_neg (mt (s.not_injRight_iff v).mp hok))))
  · exact fun ha hd h => execErrInjArm_refused ha hd h
  · intro hd ha hm
    rw [execErrInjDisarm_write hd, State.injCtrlWrite_disarm hd ha hm]
  · rintro hd (ha | hm)
    · rw [execErrInjDisarm_write hd, State.injCtrlWrite_both ha hd]
    · rw [execErrInjDisarm_write hd, State.injCtrlWrite_notMine hm]

end Sys2Proof.Machine
end

