-- ==== Sys2Proof/Proofs/Trust.lean ====
section
/-!
SUPPORT and PROOF. Trust commands, presence, the seal and signing (R568, R571–R581).
-/
namespace Sys2Proof.Machine

/-! ### Trust commands -/

section
variable {s u w : State} {src : MgrSrc} {b o r : Bytes} {c : TrustCmd} {cmd st v : Nat}

/-- A TRUST_CMD message with a command and clean reserved bytes. -/
structure TrustMsg (s : State) (src : MgrSrc) (b : Bytes) (cmd : Nat) : Prop where
  body : s.mgrBody src 0x0140 16 = .ok b
  cmd : leAt b 0 1 = cmd
  clean : leAt b 1 3 = 0

/-- The answer of a trust command: a status of Table 25.6 is a DETAIL. -/
def State.trustAnswer (s : State) (src : MgrSrc) (st : Nat) : State :=
  if 0x70 ≤ st then s.mgrAnswer src 0x0140 8 st else s.mgrAnswer src 0x0140 st 0

/-- What a defined command comes to: its whole check, and what it does where that passes. -/
theorem TrustMsg.trust (h : TrustMsg s src b cmd) (hc : 1 ≤ cmd ∧ cmd ≤ 7)
    (hk : s.trustCheck cmd (leAt b 4 4) (leAt b 8 8) = (u, st, o)) : s.trust src cmd =
      if st = 0 then (u.trustStart src cmd (leAt b 4 4) (leAt b 8 8) o).1.trustAnswer src
        (u.trustStart src cmd (leAt b 4 4) (leAt b 8 8) o).2
      else u.trustAnswer src st := by
  have hdef : ¬ (cmd = 0 ∨ 7 < cmd ∨ leAt b 1 3 ≠ 0) := by
    rw [h.clean]
    omega
  simp only [State.trust, h.body, h.cmd, if_neg hdef, ne_eq, not_true_eq_false, if_false, hk, State.trustAnswer]
  split <;> rfl

/-- A command whose check fails has its status. -/
theorem TrustMsg.fails (h : TrustMsg s src b cmd) (hc : 1 ≤ cmd ∧ cmd ≤ 7)
    (hk : s.trustCheck cmd (leAt b 4 4) (leAt b 8 8) = (u, st, o)) (hs : st ≠ 0) : s.trust src cmd = u.trustAnswer src st :=
  (h.trust hc hk).trans (if_neg hs)

/-- A command whose check passes starts. -/
theorem TrustMsg.starts (h : TrustMsg s src b cmd) (hc : 1 ≤ cmd ∧ cmd ≤ 7)
    (hk : s.trustCheck cmd (leAt b 4 4) (leAt b 8 8) = (u, 0, o))
    (hs : u.trustStart src cmd (leAt b 4 4) (leAt b 8 8) o = (w, st)) : s.trust src cmd = w.trustAnswer src st := by
  rw [h.trust hc hk, if_pos rfl, hs]

/-- A window for presence has opened. -/
def State.windowOpened (x : State) (src : MgrSrc) (cmd a : Nat) (r : Bytes) : State :=
  ((({ x with sec := { x.sec with pending := some ⟨cmd, a, r, mgrBy src⟩, holding := false } } : State).fset secPresence
    F.secPresence_PENDING_CMD cmd).fset secPresence F.secPresence_WINDOW_LEFT_S 60)

/-- The commands that need presence. -/
def needsPresence (cmd : Nat) : Prop := cmd = 1 ∨ cmd = 3 ∨ cmd = 4 ∨ cmd = 5

theorem needsPresence.defined (h : needsPresence cmd) : 1 ≤ cmd ∧ cmd ≤ 7 := by
  rcases h with h | h | h | h <;> omega

theorem State.trustStart_presence {a a' : Nat} (h : needsPresence cmd) :
    s.trustStart src cmd a a' r = if s.sec.pending.isSome = true then (s, 2) else (s.windowOpened src cmd a r, 0) := by
  rcases h with rfl | rfl | rfl | rfl <;> rfl

/-- A command that needs presence and passes its check opens a window where none is open. -/
theorem TrustMsg.opens (h : TrustMsg s src b cmd) (hn : needsPresence cmd)
    (hk : s.trustCheck cmd (leAt b 4 4) (leAt b 8 8) = (u, 0, o)) (hp : u.sec.pending = none) :
    s.trust src cmd = (u.windowOpened src cmd (leAt b 4 4) o).mgrAnswer src 0x0140 0 0 := by
  refine h.starts hn.defined hk ((State.trustStart_presence hn).trans (if_neg ?_))
  rw [hp]
  exact Bool.false_ne_true

/-- One that finds a window open is busy. -/
theorem TrustMsg.busy (h : TrustMsg s src b cmd) (hn : needsPresence cmd)
    (hk : s.trustCheck cmd (leAt b 4 4) (leAt b 8 8) = (u, 0, o)) (hp : u.sec.pending ≠ none) :
    s.trust src cmd = u.mgrAnswer src 0x0140 2 0 :=
  h.starts hn.defined hk ((State.trustStart_presence hn).trans (if_pos (Option.isSome_iff_ne_none.mpr hp)))

/-! ### The checks -/

variable {a a' : Nat}

theorem State.trustCheck_debug (ha : a = 1 ∨ (a = 2 ∧ s.anyInstance = false)) (hz : a' = 0) : s.trustCheck 1 a a' = (s, 0, []) := by
  have hok : ¬ ((a ≠ 1 ∧ a ≠ 2) ∨ a' ≠ 0) := by omega
  refine (if_neg hok).trans (if_neg ?_)
  rintro ⟨h2, hi⟩
  rcases ha with h1 | ⟨-, hn⟩
  · omega
  · exact ne_true_of_eq_false hn hi

theorem State.trustCheck_debugTenants (ha : a = 2) (hz : a' = 0) (hi : s.anyInstance = true) : s.trustCheck 1 a a' = (s, 0x72, []) := by
  have hok : ¬ ((a ≠ 1 ∧ a ≠ 2) ∨ a' ≠ 0) := by omega
  exact (if_neg hok).trans (if_pos ⟨ha, hi⟩)

theorem State.trustCheck_debugBad (h : (a ≠ 1 ∧ a ≠ 2) ∨ a' ≠ 0) : s.trustCheck 1 a a' = (s, 1, []) := if_pos h

/-- A command without arguments. -/
theorem State.trustCheck_plain (hc : cmd = 2 ∨ cmd = 7) : s.trustCheck cmd a a' = if a ≠ 0 ∨ a' ≠ 0 then (s, 1, []) else (s, 0, []) := by
  rcases hc with rfl | rfl <;> rfl

theorem State.trustCheck_factory (h : a = 0 ∧ a' = 0) :
    s.trustCheck 4 a a' = if s.anyInstance = true then (s, 0x72, []) else (s, 0, []) := if_neg (by omega)

theorem State.trustCheck_decommission :
    s.trustCheck 5 a a' = if a ≠ 0x4F52455A ∨ a' ≠ 0 then (s, 1, []) else (s, 0, []) := rfl

theorem State.trustCheck_rollback : s.trustCheck 6 a a' = if 2 < a ∨ 255 < a' then (s, 1, []) else (s, 0, []) := rfl

/-- The check of an owner record, by the read of it. -/
theorem State.trustCheck_owner {p : Bool} (ha : a = 0) (hr : s.readMem 0xFF (0x8000 + 16) 0 a' 192 = (u, o, p)) : s.trustCheck 3 a a' =
    if (p || !ownerOk o) = true then (u, 1, []) else if 15 ≤ u.sec.fuses.slots.length then (u, 0x71, []) else (u, 0, o) := by
  simp only [State.trustCheck, if_neg (not_not_intro ha), hr]

/-! ### The version counters -/

theorem State.rollback_already (h : v ≤ s.sec.fuses.svnImage) : s.rollback 0 v = (s, 0) := if_pos h

theorem State.rollback_beyond (h : s.sec.fuses.svnImage < v) (hf : s.fget ⟨.ximInforce, 0, 0⟩ F.ximInforce_SVN < v) :
    s.rollback 0 v = (s, 0x74) := (if_neg (Nat.not_le.mpr h)).trans (if_pos hf)

theorem State.rollback_advances (h : s.sec.fuses.svnImage < v) (hf : v ≤ s.fget ⟨.ximInforce, 0, 0⟩ F.ximInforce_SVN) :
    s.rollback 0 v = (s.setFuses { s.sec.fuses with svnImage := v }, 0) := (if_neg (Nat.not_le.mpr h)).trans (if_neg (Nat.not_lt.mpr hf))

theorem State.trustEnd_none (h : s.sec.pending = none) : s.trustEnd st = s := by
  simp only [State.trustEnd, h]

/-! ### Presence -/

theorem execPresenceAssert_by : exec .presenceAssert s =
    .next (if s.sec.pending.isSome = true then { s with sec := { s.sec with holding := true } }
      else s.fsat secPresence F.secPresence_EDGES 1) := rfl

theorem execPresenceHoldDone_carries (hp : s.sec.pending = some c) (hh : s.sec.holding = true) :
    exec .presenceHoldDone s = .next ((s.trustDo c).trustEnd 0) := by
  show execPresenceHoldDone s = _
  simp only [execPresenceHoldDone, hp, hh, if_true, done]

theorem execPresenceHoldDone_idle (h : s.sec.pending = none ∨ s.sec.holding = false) : exec .presenceHoldDone s = .next s := by
  show execPresenceHoldDone s = _
  rcases h with h | h
  · simp only [execPresenceHoldDone, h, done]
  · cases hp : s.sec.pending <;> simp only [execPresenceHoldDone, hp, h, Bool.false_eq_true, if_false, done]

theorem State.trustDo_of (c : TrustCmd) : (c.cmd = 1 → s.trustDo c = s.setDebug c.arg) ∧ (c.cmd = 3 → s.trustDo c = s.ownerInstall c.record) ∧
    (c.cmd = 4 → s.trustDo c = s.fset secState F.secState_FACTORY 1) ∧ (c.cmd = 5 → s.trustDo c = s.decommission) := by
  refine ⟨?_, ?_, ?_, ?_⟩
  all_goals
    intro h
    simp only [State.trustDo, h]

end

/-! ### Signing -/

section
variable {s : State} {via : Fin 3} {m : Bytes} {flashOk : Bool}

/-- The device may sign: it is not decommissioned and has indices left. -/
def State.signs (s : State) : Prop := s.sec.fuses.decommissioned = false ∧ s.sec.next < 2 ^ 45

/-- The next index is reserved in flash. -/
def State.indexKept (s : State) : State :=
  if s.sec.flash.reserved ≤ s.sec.next then s.setFlash { s.sec.flash with reserved := s.sec.next + 4096 } else s

/-- The next index is taken. -/
def State.indexTaken (s : State) : State :=
  { s.indexKept with sec := { s.indexKept.sec with next := s.sec.next + 1 } }

/-- What a message to sign comes to where the device signs. -/
theorem State.signs.sign (h : s.signs) (msg : Bytes) : s.sign msg flashOk =
    if s.sec.built ≤ s.sec.next / 2 ^ 20 then (s, .wait)
    else if s.sec.flash.reserved ≤ s.sec.next ∧ ¬ flashOk = true then (s, .refused 0x75)
    else (s.indexTaken.fset secSign F.secSign_NEXT (s.sec.next + 1),
      .done (Config.hssSign (s.indexTaken.debugLevel = 2) s.sec.next msg)) := by
  obtain ⟨hd, hn⟩ := h
  exact (if_neg (Bool.not_eq_true _ ▸ hd)).trans (if_neg (Nat.not_le.mpr hn))

/-- What a CHALLENGE is answered with, by the outcome of its signature. -/
def State.challengeEnd (x : State) (via : Nat) (m : Bytes) : Signed → State
  | .refused st => x.spdmError via st
  | .wait => { x with sec := { x.sec with waiting := x.sec.waiting ++ [⟨via, .challenge m⟩] } }
  | .done sig => x.spdmSend via 0x03 (x.summary ++ sig)

/-- A CHALLENGE asks for one signature over the message and the measurement summary. -/
theorem execSpdmChallenge {x : State} {r : Signed} (h : s.sign (m ++ s.summary) flashOk = (x, r)) :
    exec (.spdmRequest via (.challenge m) flashOk) s = .next (x.challengeEnd via.val m r) := by
  refine congrArg Host.Outcome.next (?_ : s.spdm via.val (.challenge m) flashOk = _)
  simp only [State.spdm, State.spdmSigned, State.signedBody, Bool.false_eq_true, false_and, if_false, h]
  cases r with
  | refused st => rfl
  | wait => rfl
  | done sig =>
    dsimp only
    split <;> rfl

theorem execSpdmChallenge_signed (h : s.signs) (hb : s.sec.next / 2 ^ 20 < s.sec.built)
    (hf : s.sec.next < s.sec.flash.reserved ∨ flashOk = true) : exec (.spdmRequest via (.challenge m) flashOk) s =
      .next ((s.indexTaken.fset secSign F.secSign_NEXT (s.sec.next + 1)).spdmSend via.val 0x03
        ((s.indexTaken.fset secSign F.secSign_NEXT (s.sec.next + 1)).summary ++
          Config.hssSign (s.indexTaken.debugLevel = 2) s.sec.next (m ++ s.summary))) := by
  have hgo : ¬ (s.sec.flash.reserved ≤ s.sec.next ∧ ¬ flashOk = true) := by
    rintro ⟨hr, hn⟩
    exact hf.elim (fun hl => Nat.not_lt.mpr hr hl) hn
  exact execSpdmChallenge ((h.sign _).trans ((if_neg (Nat.not_le.mpr hb)).trans (if_neg hgo)))

theorem execSpdmChallenge_flash (h : s.signs) (hb : s.sec.next / 2 ^ 20 < s.sec.built) (hr : s.sec.flash.reserved ≤ s.sec.next)
    (hf : flashOk = false) : exec (.spdmRequest via (.challenge m) flashOk) s = .next (s.spdmError via.val 0x75) :=
  execSpdmChallenge ((h.sign _).trans ((if_neg (Nat.not_le.mpr hb)).trans (if_pos ⟨hr, ne_true_of_eq_false hf⟩)))

theorem execSpdmChallenge_waits (h : s.signs) (hb : ¬ s.sec.next / 2 ^ 20 < s.sec.built) :
    exec (.spdmRequest via (.challenge m) flashOk) s =
      .next { s with sec := { s.sec with waiting := s.sec.waiting ++ [⟨via.val, .challenge m⟩] } } :=
  execSpdmChallenge ((h.sign _).trans (if_pos (Nat.not_lt.mp hb)))

theorem execSpdmChallenge_decommissioned (h : s.sec.fuses.decommissioned = true) :
    exec (.spdmRequest via (.challenge m) flashOk) s = .next (s.spdmError via.val 0x73) :=
  execSpdmChallenge (if_pos h)

theorem execSpdmChallenge_exhausted (h : s.sec.fuses.decommissioned = false) (hn : 2 ^ 45 ≤ s.sec.next) :
    exec (.spdmRequest via (.challenge m) flashOk) s = .next (s.spdmError via.val 0x76) :=
  execSpdmChallenge ((if_neg (Bool.not_eq_true _ ▸ h)).trans (if_pos hn))

end

/-- Settles O55: the trust commands by their checks, and presence, the seal and signing by their guards. -/
theorem securityRows : Obligations.SecurityRows := by
  unfold Obligations.SecurityRows
  constructor
  · intro s u src b o c got a a' plain ok bad no opened free reads x
    have msg {n : Nat} : got n → TrustMsg s src b n := fun h => ⟨h.1, h.2.1, h.2.2⟩
    have failed {n st : Nat} {y : State} {r : Bytes} (h : got n) (hn : 1 ≤ n ∧ n ≤ 7) (hk : s.trustCheck n a a' = (y, st, r))
        (hs : st ≠ 0) : (.next (s.trust src n) : Host.Outcome State Fault Refusal) = .next (y.trustAnswer src st) :=
      congrArg _ ((msg h).fails hn hk hs)
    have opens {n : Nat} {y : State} {r : Bytes} (h : got n) (hn : needsPresence n) (hk : s.trustCheck n a a' = (y, 0, r))
        (hp : y.sec.pending = none) : (.next (s.trust src n) : Host.Outcome State Fault Refusal) = .next (opened y n r) :=
      congrArg _ ((msg h).opens hn hk hp)
    have starts {n st : Nat} {y z : State} {r : Bytes} (h : got n) (hn : 1 ≤ n ∧ n ≤ 7) (hk : s.trustCheck n a a' = (y, 0, r))
        (hs : y.trustStart src n a a' r = (z, st)) : (.next (s.trust src n) : Host.Outcome State Fault Refusal) = .next (z.trustAnswer src st) :=
      congrArg _ ((msg h).starts hn hk hs)
    have isPlain (h : plain) : ¬ (a ≠ 0 ∨ a' ≠ 0) := by
      rintro (hx | hx)
      · exact hx h.1
      · exact hx h.2
    refine ⟨?_, ?_, ?_, ?_, ?_, ?_, ?_, ?_, ?_, ?_, ?_, ?_, ?_, ?_, ?_, ?_, ?_, ?_, ?_, ?_⟩
    · exact fun h ha hz hf => opens h (.inl rfl) (State.trustCheck_debug ha hz) hf
    · exact fun h ha hz hi => failed h (by decide) (State.trustCheck_debugTenants ha hz hi) (by decide)
    · exact fun h ha hz hf => congrArg _ ((msg h).busy (.inl rfl) (State.trustCheck_debug (.inl ha) hz) hf)
    · exact fun h ha => failed h (by decide) (State.trustCheck_debugBad ha) (by decide)
    · exact fun h hp => starts h (by decide) ((State.trustCheck_plain (.inl rfl)).trans (if_neg (isPlain hp))) rfl
    · exact fun h hp => failed h (by decide) ((State.trustCheck_plain (.inl rfl)).trans (if_pos (by omega))) (by decide)
    · intro h ha hr ho hl hp
      have hok : ¬ ((false || !ownerOk o) = true) := by rw [ho]; decide
      exact opens h (.inr (.inl rfl)) ((State.trustCheck_owner ha hr).trans ((if_neg hok).trans (if_neg (Nat.not_le.mpr hl)))) hp
    · intro h ha hr ho hl
      have hok : ¬ ((false || !ownerOk o) = true) := by rw [ho]; decide
      exact failed h (by decide) ((State.trustCheck_owner ha hr).trans ((if_neg hok).trans (if_pos hl))) (by decide)
    · intro h ha p hr ho
      have hbad : (p || !ownerOk o) = true := by
        rcases ho with ho | ho
        · rw [ho, Bool.true_or]
        · rw [ho, Bool.not_false, Bool.or_true]
      exact failed h (by decide) ((State.trustCheck_owner ha hr).trans (if_pos hbad)) (by decide)
    · exact fun h hp hi hf => opens h (.inr (.inr (.inl rfl)))
        ((State.trustCheck_factory hp).trans (if_neg (ne_true_of_eq_false hi))) hf
    · exact fun h hp hi => failed h (by decide) ((State.trustCheck_factory hp).trans (if_pos hi)) (by decide)
    · exact fun h ha hz hf => opens h (.inr (.inr (.inr rfl))) (State.trustCheck_decommission.trans (if_neg (by omega))) hf
    · exact fun h ha => failed h (by decide) (State.trustCheck_decommission.trans (if_pos ha)) (by decide)
    · exact fun h ha hz => starts h (by decide) (State.trustCheck_rollback.trans (if_neg (by omega))) rfl
    · exact fun h ha => failed h (by decide) (State.trustCheck_rollback.trans (if_pos ha)) (by decide)
    · exact fun v => State.rollback_already
    · exact fun v => State.rollback_beyond
    · exact fun v => State.rollback_advances
    · exact fun h hp _ => starts h (by decide) ((State.trustCheck_plain (.inr rfl)).trans (if_neg (isPlain hp))) rfl
    · exact fun h hp hf => starts h (by decide) ((State.trustCheck_plain (.inr rfl)).trans (if_neg (isPlain hp)))
        (congrArg (·, 0) (State.trustEnd_none hf))
  · intro s c via m flashOk d d' e held opened v req q live built kept taken signed ask
    obtain ⟨hDebug, hOwner, hFactory, hEnd⟩ := s.trustDo_of c
    refine ⟨?_, ?_, execPresenceHoldDone_carries, execPresenceHoldDone_idle, fun _ => rfl, ?_, hDebug, hOwner, hFactory, hEnd, rfl, rfl, rfl, rfl,
      rfl, execSpdmChallenge_signed, execSpdmChallenge_flash, execSpdmChallenge_waits, execSpdmChallenge_decommissioned,
      execSpdmChallenge_exhausted, fun h => if_neg (Nat.not_le.mpr h), fun h => if_pos h⟩
    · exact fun h => execPresenceAssert_by.trans (congrArg _ (if_pos (by rw [h]; rfl)))
    · exact fun h => execPresenceAssert_by.trans (congrArg _ (if_neg (by rw [h]; exact Bool.false_ne_true)))
    · exact fun h => congrArg _ (State.trustEnd_none h)

end Sys2Proof.Machine
end

