-- ==== Sys2Proof/Proofs/Powers.lean ====
section
/-!
SUPPORT and PROOF. The operating point, emergencies and removal (R583–R598).
-/
namespace Sys2Proof.Machine

section
variable {s u : State} {rq : Requester} {v : W64} {src : MgrSrc} {b : Bytes} {r : Readings}

/-! ### The operating point -/

/-- A write of PWR_CTRL by a kernel core with both fields in range. -/
def pwrWriteOk (rq : Requester) (v : W64) : Prop :=
  rqKernel rq = true ∧ 600 ≤ bitsOf v F.pwrCtrl_CAP_W ∧ bitsOf v F.pwrCtrl_CAP_W ≤ 1650 ∧ bitsOf v F.pwrCtrl_TARGET ≠ 3

/-- The test by which a write of PWR_CTRL is refused. -/
theorem not_pwrWriteOk_iff (rq : Requester) (v : W64) : (!rqKernel rq || decide (bitsOf v F.pwrCtrl_CAP_W < 600) ||
    decide (1650 < bitsOf v F.pwrCtrl_CAP_W) || decide (bitsOf v F.pwrCtrl_TARGET = 3)) = true ↔ ¬ pwrWriteOk rq v := by
  simp only [Bool.or_eq_true, Bool.not_eq_true', decide_eq_true_eq, pwrWriteOk, not_and_or, Nat.not_le, ne_eq, not_not, Bool.not_eq_true,
    or_assoc]

theorem execPwrSet_reg (h : pwrWriteOk rq v) :
    exec (.pwrSet (.reg rq v)) s = .next (s.pwrSet (bitsOf v F.pwrCtrl_TARGET) (bitsOf v F.pwrCtrl_CAP_W)) :=
  congrArg Host.Outcome.next (if_neg (mt (not_pwrWriteOk_iff rq v).mp (not_not_intro h)))

theorem execPwrSet_refused (h : ¬ pwrWriteOk rq v) : exec (.pwrSet (.reg rq v)) s = .next (s.refuse rq pwrCtrl) :=
  congrArg Host.Outcome.next (if_pos ((not_pwrWriteOk_iff rq v).mpr h))

/-- The fields of a manager's message that sets the point are in range. -/
def pwrMsgOk (b : Bytes) : Prop := leAt b 0 1 ≤ 2 ∧ leAt b 1 1 = 0 ∧ 600 ≤ leAt b 2 2 ∧ leAt b 2 2 ≤ 1650

theorem not_pwrMsgOk_iff (b : Bytes) : (2 < leAt b 0 1 ∨ leAt b 1 1 ≠ 0 ∨ leAt b 2 2 < 600 ∨ 1650 < leAt b 2 2) ↔ ¬ pwrMsgOk b := by
  rw [pwrMsgOk]
  omega

theorem execPwrSet_mgr (hb : s.mgrBody src 0x0150 4 = .ok b) (h : pwrMsgOk b) :
    exec (.pwrSet (.mgr src)) s = .next ((s.pwrSet (leAt b 0 1) (leAt b 2 2)).mgrAnswer src 0x0150 0 0) := by
  show execPwrSet (.mgr src) s = _
  simp only [execPwrSet, hb, if_neg (mt (not_pwrMsgOk_iff b).mp (not_not_intro h)), done]

theorem execPwrSet_malformed (hb : s.mgrBody src 0x0150 4 = .ok b) (h : ¬ pwrMsgOk b) :
    exec (.pwrSet (.mgr src)) s = .next (s.mgrAnswer src 0x0150 1 0) := by
  show execPwrSet (.mgr src) s = _
  simp only [execPwrSet, hb, if_pos ((not_pwrMsgOk_iff b).mpr h), done]

/-! ### The cap governor -/

/-- A count of windows restarted, or set. -/
def State.belowSet (s : State) (n : Nat) : State := { s with pwr := { s.pwr with below := n } }

/-- The governor's own limit on the point. -/
def State.capSet (s : State) (n : Nat) : State := { s with pwr := { s.pwr with cap := n } }

/-- What a window whose mean is above the cap comes to. -/
theorem execCapGovernorWindow_above (h : (s.readSensors r).fget pwrCtrl F.pwrCtrl_CAP_W < r.mean10) : exec (.capGovernorWindow r) s =
    if (s.readSensors r).permitted = 0 then .next (((s.readSensors r).belowSet 0).fset pwrStatus F.pwrStatus_CAP_UNMET 1)
    else .next ((((s.readSensors r).belowSet 0).capSet ((s.readSensors r).permitted - 1)).repoint) := if_pos h

/-- The state after a sample in a window that meets the cap. -/
def State.capMet (s : State) (r : Readings) : State := (s.readSensors r).fset pwrStatus F.pwrStatus_CAP_UNMET 0

/-- What a window whose mean is at or below the cap comes to, by the windows well under it so far. -/
theorem execCapGovernorWindow_within {n : Nat} (h : r.mean10 ≤ (s.readSensors r).fget pwrCtrl F.pwrCtrl_CAP_W)
    (hn : (if r.mean10 + 100 < (s.readSensors r).fget pwrCtrl F.pwrCtrl_CAP_W then (s.capMet r).pwr.below + 1 else 0) = n) :
    exec (.capGovernorWindow r) s =
      if 10 ≤ n ∧ (s.capMet r).pwr.cap < (s.capMet r).fget pwrCtrl F.pwrCtrl_TARGET then
        .next (({ s.capMet r with pwr := { (s.capMet r).pwr with cap := (s.capMet r).pwr.cap + 1, below := 0 } } : State).repoint)
      else .next ((s.capMet r).belowSet (min n 10)) := by
  rw [← hn]
  exact if_neg (Nat.not_lt.mpr h)

end

/-! ### Emergencies -/

section
variable {s : State} {c : Fin 6} {r : Readings}

/-- Condition `k` has been declared, of the sample taken. -/
def State.condDeclared (u : State) (k : Nat) : State :=
  (u.fset pwrStatus F.pwrStatus_DECLARED 1).fset pwrStatus F.pwrStatus_EMERG (setBit (u.fget pwrStatus F.pwrStatus_EMERG) k)

/-- A declaration that pauses admission. -/
abbrev State.condPauses (u : State) (k : Nat) (r : Readings) : Prop :=
  k = 1 ∨ (k = 2 ∧ emergencyIn r 0 = true) ∨ (k = 0 ∧ (u.condDeclared k).emerg 2 = true)

/-- A live activation that has not stopped the old image. -/
abbrev State.actEarly (x : State) : Prop := x.activating = true ∧ x.fget fwStateReg F.fwState_PHASE ≤ 2

/-- A condition is declared once while it holds. -/
theorem execEmergencyDeclare_idle (h : emergencyIn r c.val = false ∨ (s.readSensors r).emerg c.val = true) :
    exec (.emergencyDeclare c r) s = .next (s.readSensors r) := by
  refine if_pos ?_
  rcases h with h | h
  · rw [h, Bool.not_false, Bool.true_or]
  · rw [h, Bool.or_true]

/-- What a declaration comes to, by the state `x` after a pause of admission that its row may say. -/
theorem execEmergencyDeclare_declares {x y : State} (hc : emergencyIn r c.val = true) (he : (s.readSensors r).emerg c.val = false)
    (hx : (if (s.readSensors r).condPauses c.val r then ((s.readSensors r).condDeclared c.val).fset pwrStatus F.pwrStatus_PAUSED 1
      else (s.readSensors r).condDeclared c.val) = x)
    (hy : (if x.actEarly then x.fwEnd 9 0 else x) = y) : exec (.emergencyDeclare c r) s = .next (y.repoint.pwrNotify) := by
  have hgo : ¬ (!emergencyIn r c.val || (s.readSensors r).emerg c.val) = true := by
    rw [hc, he]
    exact Bool.false_ne_true
  subst hx hy
  exact if_neg hgo

/-- A declared condition that holds in the sample. -/
def State.condMet (u : State) (r : Readings) (n : Nat) : Prop := u.emerg n = true ∧ emergencyIn r n = true

/-- The pause criterion of some declared condition is met. -/
def State.pauseMet (u : State) (r : Readings) : Prop :=
  u.condMet r 0 ∨ (u.condMet r 2 ∧ emergencyIn r 0 = true) ∨ u.condMet r 3 ∨ u.condMet r 4

theorem State.pauseMet_iff (u : State) (r : Readings) : ((u.emerg 0 && emergencyIn r 0) || (u.emerg 2 && emergencyIn r 2 && emergencyIn r 0) ||
    (u.emerg 3 && emergencyIn r 3) || (u.emerg 4 && emergencyIn r 4)) = true ↔ u.pauseMet r := by
  simp only [Bool.or_eq_true, Bool.and_eq_true, State.pauseMet, State.condMet, or_assoc]

theorem execAdmissionPause_pauses (h : (s.readSensors r).pauseMet r) (hp : ¬ (s.readSensors r).fbit pwrStatus F.pwrStatus_PAUSED = true) :
    exec (.admissionPause r) s = .next ((s.readSensors r).fset pwrStatus F.pwrStatus_PAUSED 1).pwrNotify := by
  refine congrArg Host.Outcome.next (if_pos (Bool.and_eq_true_iff.mpr ⟨(State.pauseMet_iff _ r).mpr h, ?_⟩))
  rw [Bool.eq_false_of_not_eq_true hp]
  rfl

theorem execAdmissionPause_idle (h : ¬ (s.readSensors r).pauseMet r ∨ (s.readSensors r).fbit pwrStatus F.pwrStatus_PAUSED = true) :
    exec (.admissionPause r) s = .next (s.readSensors r) := by
  refine congrArg Host.Outcome.next (if_neg fun hc => ?_)
  obtain ⟨hm, hp⟩ := Bool.and_eq_true_iff.mp hc
  rcases h with h | h
  · exact h ((State.pauseMet_iff _ r).mp hm)
  · rw [h] at hp
    exact Bool.false_ne_true hp

end

/-! ### Removal -/

section
variable {s : State} {src : MgrSrc} {b : Bytes}

theorem State.removeRequest_starts (h : s.fget pwrStatus F.pwrStatus_REMOVE = 0) (ha : s.activating = false) :
    s.removeRequest = s.setRemove 1 := (if_neg (not_not_intro h)).trans (if_neg (ne_true_of_eq_false ha))

theorem State.removeRequest_held (h : s.fget pwrStatus F.pwrStatus_REMOVE = 0) (ha : s.activating = true) :
    s.removeRequest = { s with pwr := { s.pwr with removeHeld := !s.pwr.removeHeld } } := (if_neg (not_not_intro h)).trans (if_pos ha)

theorem State.removeRequest_cancels (h : s.fget pwrStatus F.pwrStatus_REMOVE ≠ 0) : s.removeRequest = s.removeCancel := if_pos h

/-- A message that asks for a removal. -/
theorem execRemoveRequest_asks (hb : s.removeBody src = .ok b) (ho : leAt b 0 1 = 1) :
    exec (.removeRequest src) s = .next (s.removeRequest.mgrAnswer src 0x0151 0 0) := by
  refine congrArg Host.Outcome.next (?_ : s.removeMsg src 1 = _)
  simp only [State.removeMsg, hb, ho]
  rfl

/-- A message that cancels one: where none is asked for or held, there is none to cancel. -/
theorem execRemoveCancel_asks (hb : s.removeBody src = .ok b) (ho : leAt b 0 1 = 2) : exec (.removeCancel src) s =
    .next (if s.fget pwrStatus F.pwrStatus_REMOVE = 0 ∧ ¬ s.pwr.removeHeld = true then s.mgrAnswer src 0x0151 3 0
      else if s.pwr.removeHeld = true then ({ s with pwr := { s.pwr with removeHeld := false } } : State).mgrAnswer src 0x0151 0 0
      else s.removeCancel.mgrAnswer src 0x0151 0 0) := by
  refine congrArg Host.Outcome.next (?_ : s.removeMsg src 2 = _)
  simp only [State.removeMsg, hb, ho]
  rfl

end

/-- Settles O56: each command of the power chapter, by its sample and its guards. -/
theorem powerRows : Obligations.PowerRows := by
  unfold Obligations.PowerRows
  constructor
  · intro s rq v src b r target cap right set got fits slews u limit low down met window
    refine ⟨execPwrSet_reg, execPwrSet_refused, execPwrSet_mgr, execPwrSet_malformed, ?_, ?_, ?_, ?_, ?_, ?_, ?_, ?_, ?_, ?_, ?_⟩
    · exact fun h => congrArg Host.Outcome.next (if_pos h)
    · exact fun h => congrArg Host.Outcome.next (if_neg h)
    · exact fun h hp => (execCapGovernorWindow_above h).trans (if_pos hp)
    · exact fun h hp => (execCapGovernorWindow_above h).trans (if_neg hp)
    · exact fun h hw hn ht => (execCapGovernorWindow_within h (if_pos hw)).trans (if_pos ⟨Nat.succ_le_succ hn, ht⟩)
    · intro h hw hn
      have hfew : ¬ (10 ≤ met.pwr.below + 1 ∧ met.pwr.cap < met.fget pwrCtrl F.pwrCtrl_TARGET) :=
        fun hx => Nat.not_lt.mpr (Nat.le_of_succ_le_succ hx.1) hn
      have hmin : min (met.pwr.below + 1) 10 = met.pwr.below + 1 := Nat.min_eq_left (Nat.le_succ_of_le hn)
      exact (execCapGovernorWindow_within h (if_pos hw)).trans ((if_neg hfew).trans (congrArg (fun n => Host.Outcome.next (met.belowSet n)) hmin))
    · intro h hw
      exact (execCapGovernorWindow_within h (if_neg (Nat.not_lt.mpr hw))).trans (if_neg fun hx => absurd hx.1 (by decide))
    · exact fun h => congrArg Host.Outcome.next (if_pos h)
    · exact fun h => congrArg Host.Outcome.next (if_neg (Nat.not_lt.mpr h))
    · exact fun h => congrArg Host.Outcome.next (if_pos h)
    · exact fun h => congrArg Host.Outcome.next (if_neg (Nat.not_le.mpr h))
  · intro s c r q src b u k declared pauses paused act declare met meets isPaused clears remove mark cancelled got ok
    refine ⟨?_, ?_, ?_, ?_, execEmergencyDeclare_idle, ⟨rfl, rfl, rfl⟩, execAdmissionPause_pauses, execAdmissionPause_idle, ?_, ?_, ?_, ?_, ?_,
      ?_, ?_, ?_, ?_, ?_, ?_, ?_, ?_, ?_, ?_, ?_⟩
    · exact fun hc he hp ha => execEmergencyDeclare_declares hc he (if_neg hp) (if_neg ha)
    · exact fun hc he hp ha => execEmergencyDeclare_declares hc he (if_pos hp) (if_neg ha)
    · exact fun hc he hp ha => execEmergencyDeclare_declares hc he (if_neg hp) (if_pos ha)
    · exact fun hc he hp ha => execEmergencyDeclare_declares hc he (if_pos hp) (if_pos ha)
    · exact fun h => if_pos h
    · exact fun h => if_neg h
    · exact fun h => congrArg Host.Outcome.next (if_pos h)
    · exact fun h => congrArg Host.Outcome.next (if_neg (Nat.not_le.mpr h))
    · exact fun h ha => congrArg Host.Outcome.next (State.removeRequest_starts h ha)
    · exact fun h ha => congrArg Host.Outcome.next (State.removeRequest_held h ha)
    · exact fun h => congrArg Host.Outcome.next (State.removeRequest_cancels h)
    · exact fun hg h ha => (execRemoveRequest_asks hg.1 hg.2).trans (congrArg (fun x => Host.Outcome.next (ok x)) (State.removeRequest_starts h ha))
    · exact fun hg h => (execRemoveRequest_asks hg.1 hg.2).trans (congrArg (fun x => Host.Outcome.next (ok x)) (State.removeRequest_cancels h))
    · exact fun hg h hh => (execRemoveCancel_asks hg.1 hg.2).trans
        (congrArg _ ((if_neg fun hx => h hx.1).trans (if_neg (ne_true_of_eq_false hh))))
    · exact fun hg hh => (execRemoveCancel_asks hg.1 hg.2).trans (congrArg _ ((if_neg fun hx => hx.2 hh).trans (if_pos hh)))
    · exact fun hg h hh => (execRemoveCancel_asks hg.1 hg.2).trans (congrArg _ (if_pos ⟨h, ne_true_of_eq_false hh⟩))
    · exact fun h hd => congrArg Host.Outcome.next (if_pos ⟨h, hd⟩)
    · intro h
      refine congrArg Host.Outcome.next (if_neg fun ⟨h1, hd⟩ => ?_)
      exact h.elim (fun hn => hn h1) (fun hn => ne_true_of_eq_false hn hd)
    · exact fun h => congrArg Host.Outcome.next (if_pos h)
    · exact fun h => congrArg Host.Outcome.next (if_neg h)

end Sys2Proof.Machine
end

