-- ==== Sys2Proof/Proofs/Boots.lean ====
section
/-!
SUPPORT. Cold boot and the resets that lead to it (R584, R586, R596, R599–R605).
-/
namespace Sys2Proof.Machine

section
variable {s x : State} {rom flash : Bool} {r : Readings} {cores : List CoreNo} {stalls : List StallNo} {failed : List (Fin 12)}

/-! ### Cold boot -/

/-- The module cleared, as every cold boot begins. -/
def State.bootDark (s : State) : State := s.clear.emit (.pin "READY_N" false)

/-- Steps 2 to 4 of the cold boot, from its first stage. -/
def State.bootOn (s : State) : State := match (s.bootDark.setStage 1).bootFlash with
  | none => (s.bootDark.setStage 1).bootFail 3
  | some x => x.bootFrom [x.sec.flash.committed, 1 - x.sec.flash.committed]

theorem State.coldBoot_rom (h : rom = false) : s.coldBoot rom flash = s.bootDark := if_pos (congrArg (!·) h)

theorem State.coldBoot_flash (h : rom = true) (hf : flash = false) : s.coldBoot rom flash = (s.bootDark.setStage 1).bootFail 5 :=
  (if_neg (not_waits h)).trans (if_pos (congrArg (!·) hf))

theorem State.coldBoot_passes (h : rom = true) (hf : flash = true) : s.coldBoot rom flash = s.bootOn :=
  (if_neg (not_waits h)).trans (if_neg (not_waits hf))

/-- What every reset of the module leaves empty. -/
def resetCleared (t : State) : Prop :=
  t.cores = [] ∧ t.host.funcs = [] ∧ t.street = {} ∧ t.porter = {} ∧ t.bell = {} ∧ t.inv = {} ∧ t.fw = {}

theorem State.clear_cleared (s : State) (b : BootSt) : resetCleared { s.clear with boot := b } ∧ ({ s.clear with boot := b } : State).regs = [] :=
  ⟨⟨rfl, rfl, rfl, rfl, rfl, rfl, rfl⟩, rfl⟩

/-! ### From the coolant to the kernel -/

/-- The coolant that a boot waits for. -/
structure CoolantOk (s : State) (r : Readings) : Prop where
  stage : (s.readSensors r).stage = 3
  flow : 150 ≤ r.flow
  inlet : r.inlet ≤ 4500

theorem not_coolantOk_iff (s : State) (r : Readings) :
    ((s.readSensors r).stage ≠ 3 ∨ r.flow < 150 ∨ 4500 < r.inlet) ↔ ¬ CoolantOk s r := by
  constructor
  · rintro h ⟨hs, hf, hi⟩
    omega
  · intro h
    by_contra hn
    exact h ⟨by omega, by omega, by omega⟩

/-- Steps 5 and 6 of the cold boot: the Quarters and the Warehouses are up. -/
def State.unitsUp (s : State) (r : Readings) (cores : List CoreNo) (stalls : List StallNo) (failed : List (Fin 12)) : State :=
  (((s.readSensors r).fset pwrStatus F.pwrStatus_COOL_WAIT 0).bootPower cores stalls).bootWarehouses failed

/-- The load of the boot image, and what follows it. -/
def State.imageEnd : State × Bool → State
  | (x, false) => x.bootFail 2
  | (x, true) => x.bootKernel

theorem execCoolantReady_waits (h : ¬ CoolantOk s r) : exec (.coolantReady r cores stalls failed) s = .next (s.readSensors r) :=
  if_pos ((not_coolantOk_iff s r).mpr h)

theorem execCoolantReady_service (h : CoolantOk s r) (hm : (s.unitsUp r cores stalls failed).minService = false) :
    exec (.coolantReady r cores stalls failed) s = .next ((s.unitsUp r cores stalls failed).bootFail 4) :=
  (if_neg (mt (not_coolantOk_iff s r).mp (not_not_intro h))).trans (if_pos (congrArg (!·) hm))

theorem execCoolantReady_loads (h : CoolantOk s r) (hm : (s.unitsUp r cores stalls failed).minService = true) :
    exec (.coolantReady r cores stalls failed) s =
      .next (State.imageEnd (((s.unitsUp r cores stalls failed).setStage 6).ximLoadBoot)) := by
  refine (if_neg (mt (not_coolantOk_iff s r).mp (not_not_intro h))).trans ((if_neg (not_waits hm)).trans ?_)
  rw [← State.unitsUp]
  rcases ((s.unitsUp r cores stalls failed).setStage 6).ximLoadBoot with ⟨x, _ | _⟩ <;> rfl

/-- A device without cores. -/
def State.noCores (s : State) : State := { s with cores := [] }

theorem execKernelTimeout_fails (h : s.stage = 7) (hr : s.boot.retried = true) : exec .kernelTimeout s = .next (s.noCores.bootFail 6) :=
  (if_neg (not_not_intro h)).trans (if_pos hr)

/-- The boot begins again, once, without routes and without an image. -/
theorem execKernelTimeout_again {noRoutes again : State}
    (hn : noRoutes = forNat 4 s.noCores fun s q => forNat 256 s fun s n => if s.routeActive q n then s.wr (routeReg q n) 0 else s)
    (ha : again = { noRoutes with boot := { noRoutes.boot with retried := true }, xim := {} })
    (h : s.stage = 7) (hr : s.boot.retried = false) : exec .kernelTimeout s = .next (again.bootFrom [1 - again.running]) := by
  subst ha hn
  exact (if_neg (not_not_intro h)).trans (if_neg (ne_true_of_eq_false hr))

end

end Sys2Proof.Machine
end

