-- ==== Sys2Proof/Proofs/Sidebands.lean ====
section
/-!
SUPPORT and PROOF. The management sideband (R609–R613), and the proof of its obligation with the cold boot's.
-/
namespace Sys2Proof.Machine

section
variable {s x : State} {bus : Fin 3} {type : BitVec 8} {body data : Bytes} {a : BitVec 7} {id comp : BitVec 16} {p : PldmUpdate} {rom flash : Bool}

/-! ### What the Watch post hears -/

/-- The Watch post has power, and the bus is not an SMBus that I3C has replaced. -/
def State.busHeard (s : State) (bus : Fin 3) : Prop := s.boot.off = false ∧ (bus.val ≠ 1 ∨ s.side.dynamic = none)

theorem State.hears_iff (s : State) (bus : Fin 3) : s.hears bus = true ↔ s.busHeard bus := by
  simp only [State.hears, Bool.and_eq_true, Bool.not_eq_true', Bool.or_eq_true, decide_eq_true_eq, Option.isNone_iff_eq_none, State.busHeard]

theorem State.busHeard.not_deaf (h : s.busHeard bus) : ¬ (!s.hears bus) = true := not_waits ((s.hears_iff bus).mpr h)

/-- A message on a bus that is not heard does nothing. -/
theorem exec_notHeard (h : ¬ s.busHeard bus) : exec (.mctpControl bus type body) s = .next s ∧ exec (.pldmUpdateComponent bus comp data) s = .next s ∧
    exec (.pldmActivateFirmware bus rom flash) s = .next s ∧ exec (.mctpVendorOpen bus body) s = .next s ∧
    exec (.pldmGetSensorReading bus id) s = .next s ∧ exec (.pldmVerifyComplete bus) s = .next s := by
  have hdeaf : (!s.hears bus) = true := congrArg (!·) (Bool.eq_false_of_not_eq_true (mt (s.hears_iff bus).mp h))
  exact ⟨if_pos hdeaf, if_pos hdeaf, if_pos hdeaf, if_pos hdeaf, if_pos hdeaf, if_pos hdeaf⟩

/-! ### MCTP -/

/-- The answer of a control message, by its command code. -/
def State.ctlAnswer (s : State) (body : Bytes) : Nat → State
  | 0x01 => ({ s with side := { s.side with eid := leAt body 3 1 } } : State).control 1 0 [0#8, BitVec.ofNat 8 (leAt body 3 1), 0#8]
  | 0x02 => s.control 2 0 [BitVec.ofNat 8 s.side.eid, 0#8, 0#8]
  | 0x05 => s.control 5 0 [4#8, 0x00#8, 0x01#8, 0x05#8, 0x7E#8]
  | c => s.control c 5 []

theorem execMctpControl_of (h : s.busHeard bus) (ht : type = 0) {c : Nat} (hc : leAt body 1 1 = c) :
    exec (.mctpControl bus type body) s = .next (s.ctlAnswer body c) := by
  subst ht
  refine (if_neg h.not_deaf).trans ?_
  simp only [hc]
  rcases c with _ | _ | _ | _ | _ | _ | c <;> rfl

theorem execMctpControl_unknown (h : s.busHeard bus) (ht : type = 0) (h1 : leAt body 1 1 ≠ 1) (h2 : leAt body 1 1 ≠ 2)
    (h5 : leAt body 1 1 ≠ 5) : exec (.mctpControl bus type body) s = .next (s.control (leAt body 1 1) 5 []) := by
  rw [execMctpControl_of h ht rfl, State.ctlAnswer.eq_def]
  split
  · exact absurd ‹_› h1
  · exact absurd ‹_› h2
  · exact absurd ‹_› h5
  · rfl

/-- A message of a type that no binding accepts. -/
theorem execMctpControl_unbound (h : s.busHeard bus) (h0 : type ≠ 0) (h1 : type ≠ 1) (h5 : type ≠ 5) (he : type ≠ 0x7E) :
    exec (.mctpControl bus type body) s = .next (s.control (leAt body 1 1) 5 []) := by
  refine (if_neg h.not_deaf).trans ?_
  have ne (n : BitVec 8) (hn : type ≠ n) : type.toNat ≠ n.toNat := fun hx => hn (BitVec.eq_of_toNat_eq hx)
  dsimp only
  split
  · exact absurd ‹_› (ne 0 h0)
  · exact absurd ‹_› (ne 1 h1)
  · exact absurd ‹_› (ne 5 h5)
  · exact absurd ‹_› (ne 0x7E he)
  · rfl

/-! ### The vendor session -/

theorem execMctpVendorOpen_opens (h : s.busHeard bus) (hb : body = []) : exec (.mctpVendorOpen bus body) s =
    .next (({ s with side := { s.side with vendor := true } } : State).emit (.sideband 0x7E (kioskMsg 0x0001 0 0 0 []))) :=
  (if_neg h.not_deaf).trans (if_pos (List.isEmpty_iff.mpr hb))

theorem execMctpVendorOpen_malformed (h : s.busHeard bus) (hb : body ≠ []) : exec (.mctpVendorOpen bus body) s =
    .next (s.emit (.sideband 0x7E (kioskMsg 0x0001 0 1 0 []))) :=
  (if_neg h.not_deaf).trans (if_neg (mt List.isEmpty_iff.mp hb))

/-! ### Sensors -/

theorem State.sensor_none {n : Nat} (h : n = 0 ∨ 19 < n) : s.sensor n = none := by
  unfold State.sensor
  split
  case h_20 => rfl
  all_goals omega

theorem execPldmGetSensorReading_reads (h : s.busHeard bus) {v : Nat} (hv : s.sensor id.toNat = some v) :
    exec (.pldmGetSensorReading bus id) s = .next (s.pldm 0 (leBytes 4 v)) := by
  refine (if_neg h.not_deaf).trans ?_
  simp only [hv, done]

theorem execPldmGetSensorReading_none (h : s.busHeard bus) (hv : s.sensor id.toNat = none) :
    exec (.pldmGetSensorReading bus id) s = .next (s.pldm 0x80 []) := by
  refine (if_neg h.not_deaf).trans ?_
  simp only [hv, done]

/-! ### Updates -/

/-- The component exists and its bytes fit its slot. -/
def compFits (c : Nat) (data : Bytes) : Prop := (c = 1 ∨ c = 2 ∨ c = 3) ∧ data.length ≤ compMax c

/-- The test by which an update is refused. -/
theorem not_compFits_iff (s : State) (c : Nat) (data : Bytes) : (c = 0 ∨ 3 < c ∨ compMax c < data.length ∨ (c = 1 ∧ s.activating = true)) ↔
    ¬ compFits c data ∨ (c = 1 ∧ s.activating = true) := by
  have hc : (c = 0 ∨ 3 < c) ↔ ¬ (c = 1 ∨ c = 2 ∨ c = 3) := by omega
  rw [compFits, not_and_or, ← hc, Nat.not_le]
  tauto

theorem execPldmUpdateComponent_idle (h : s.busHeard bus) (hu : s.side.update = none) : exec (.pldmUpdateComponent bus comp data) s =
    if comp.toNat = 0 ∨ 3 < comp.toNat ∨ compMax comp.toNat < data.length ∨ (comp.toNat = 1 ∧ s.activating = true) then .next (s.pldm 0x02 [])
    else .next (({ s with side := { s.side with update := some ⟨comp.toNat, data⟩ } } : State).pldm 0 []) := by
  refine (if_neg h.not_deaf).trans (if_neg ?_)
  rw [hu]
  exact Bool.false_ne_true

theorem execPldmUpdateComponent_busy (h : s.busHeard bus) (hu : s.side.update = some p) :
    exec (.pldmUpdateComponent bus comp data) s = .next (s.pldm 0x81 []) := by
  refine (if_neg h.not_deaf).trans (if_pos ?_)
  rw [hu]
  rfl

/-- The update has left its place. -/
def State.updateTaken (s : State) : State := { s with side := { s.side with update := none } }

/-- A component's slot is ready for its activation. -/
def State.compReady (x : State) (c : Nat) : State :=
  { x with side := { x.side with ready := if x.side.ready.contains c then x.side.ready else c :: x.side.ready } }

/-- What the check of an update leads to. -/
def PldmUpdate.verified (p : PldmUpdate) : State × Nat × Bool → State
  | (x, 0, _) => ((x.writeComponent p.comp p.data).compReady p.comp).pldm 0 [0#8]
  | (x, st, inj) => (if p.comp = 3 then x else x.loadRefused st inj).pldm 0 [BitVec.ofNat 8 (if st = 0x7F then 0xAF else 0x90 + st)]

theorem execPldmVerifyComplete_by (h : s.busHeard bus) (hu : s.side.update = some p) :
    exec (.pldmVerifyComplete bus) s = .next (p.verified (s.updateTaken.checkComponent p.comp p.data)) := by
  refine (if_neg h.not_deaf).trans ?_
  rw [hu, ← State.updateTaken]
  dsimp only
  rcases s.updateTaken.checkComponent p.comp p.data with ⟨x, _ | st, inj⟩ <;> rfl

theorem execPldmVerifyComplete_none (h : s.busHeard bus) (hu : s.side.update = none) :
    exec (.pldmVerifyComplete bus) s = .next (s.pldm 0x84 []) := by
  refine (if_neg h.not_deaf).trans ?_
  rw [hu]

/-! ### Activation -/

/-- No component is ready any longer. -/
def State.readyTaken (s : State) : State := { s with side := { s.side with ready := [] } }

theorem execPldmActivateFirmware_none (h : s.busHeard bus) (hr : s.side.ready = []) :
    exec (.pldmActivateFirmware bus rom flash) s = .next (s.readyTaken.pldm 0x85 []) := by
  refine (if_neg h.not_deaf).trans (if_pos ?_)
  rw [hr]
  rfl

/-- What the components ready come to, by the stage of the boot and by the firmware among them. -/
theorem execPldmActivateFirmware_some (h : s.busHeard bus) (hr : s.side.ready ≠ []) : exec (.pldmActivateFirmware bus rom flash) s =
    if s.stage = 15 then .next ((s.readyTaken.pldm 0 []).coldBoot rom flash)
    else if (!s.side.ready.contains 1) = true then .next (s.readyTaken.pldm 0 [])
    else if s.readyTaken.fwBusy = true then
      .next (((s.readyTaken.fset fwStateReg F.fwState_LAST_STATUS 2).fset fwStateReg F.fwState_LAST_DETAIL 2).pldm 0x8B [])
    else .next (s.readyTaken.fwStart none true (1 - s.readyTaken.running)) :=
  (if_neg h.not_deaf).trans (if_neg (mt List.isEmpty_iff.mp hr))

end

/-- Settles O58: the boot by its stages and tests, and each message of the sideband by what it finds. -/
theorem bootAndSideband : Obligations.BootAndSideband := by
  unfold Obligations.BootAndSideband
  constructor
  · intro s rom flash r cores stalls failed dark one fail boot u cool up noCores noRoutes again cleared
    have ready : cool → CoolantOk s r := fun h => ⟨h.1, h.2.1, h.2.2⟩
    have cold {x y : State} (h : x = y) : (.next x : Host.Outcome State Fault Refusal) = .next y := congrArg _ h
    refine ⟨?_, ?_, ?_, rfl, ⟨_, rfl, ?_, rfl, rfl⟩, ?_, ?_, ?_, ?_, ?_, ?_, ?_, ?_, ?_, ?_, ?_⟩
    · exact fun h hf => (cold (State.coldBoot_passes h hf)).trans rfl
    · exact fun h hf => cold (State.coldBoot_flash h hf)
    · exact fun h => cold (State.coldBoot_rom h)
    · exact (s.clear_cleared _).1
    · exact fun h => ⟨_, cold (if_neg (ne_true_of_eq_false h)), (s.clear_cleared _).1, rfl, rfl⟩
    · exact fun h => cold (if_pos h)
    · exact fun h hr hf => cold ((if_pos h).trans (State.coldBoot_passes hr hf))
    · exact fun h => cold (if_neg (ne_true_of_eq_false h))
    · exact fun h hm => execCoolantReady_service (ready h) hm
    · exact fun h hm => execCoolantReady_loads (ready h) hm
    · exact fun h => execCoolantReady_waits fun hc => h ⟨hc.stage, hc.flow, hc.inlet⟩
    · exact fun h => cold (if_pos h)
    · exact fun h => ⟨cold (if_neg h), if_pos h⟩
    · exact execKernelTimeout_fails
    · exact execKernelTimeout_again (noRoutes := noRoutes) (again := again) rfl rfl
  · intro s bus type body data a id comp v p rom flash hears ctl c pldm control update fits taken listed none_ start
    refine ⟨?_, ?_, ?_, ?_, execMctpControl_unbound, exec_notHeard, execMctpVendorOpen_opens, execMctpVendorOpen_malformed, ?_, ?_, ?_, ?_, ⟨rfl, rfl, rfl, rfl, rfl⟩, ?_, ?_,
      execPldmUpdateComponent_busy, execPldmVerifyComplete_by, execPldmVerifyComplete_none, ?_, ?_, ?_, ?_, execPldmActivateFirmware_none⟩
    · exact fun h hc => execMctpControl_of h hc.1 hc.2
    · exact fun h hc => execMctpControl_of h hc.1 hc.2
    · exact fun h hc => execMctpControl_of h hc.1 hc.2
    · intro h ht hc
      simp only [List.mem_cons, List.not_mem_nil, or_false, not_or] at hc
      exact execMctpControl_unknown h ht hc.1 hc.2.1 hc.2.2
    · exact fun h => congrArg Host.Outcome.next (if_neg (ne_true_of_eq_false h))
    · exact fun h => congrArg Host.Outcome.next (if_pos h)
    · exact fun h hv => execPldmGetSensorReading_reads h hv
    · intro h hi
      refine execPldmGetSensorReading_none h (State.sensor_none (hi.imp_left ?_))
      exact fun hz => congrArg BitVec.toNat hz
    · intro h hu hf ha
      refine (execPldmUpdateComponent_idle h hu).trans (if_neg (mt (not_compFits_iff s _ _).mp ?_))
      rintro (hn | ⟨h1, hx⟩)
      · exact hn hf
      · exact ha.elim (fun hn => hn h1) (fun hn => ne_true_of_eq_false hn hx)
    · exact fun h hu hf => (execPldmUpdateComponent_idle h hu).trans (if_pos ((not_compFits_iff s _ _).mpr hf))
    · exact fun h hr hs => (execPldmActivateFirmware_some h hr).trans (if_pos hs)
    · exact fun h hr hs h1 hb => (execPldmActivateFirmware_some h hr).trans ((if_neg hs).trans
        ((if_neg (not_waits (List.contains_iff_mem.mpr h1))).trans (if_neg (ne_true_of_eq_false hb))))
    · exact fun h hr hs h1 hb => (execPldmActivateFirmware_some h hr).trans ((if_neg hs).trans
        ((if_neg (not_waits (List.contains_iff_mem.mpr h1))).trans (if_pos hb)))
    · intro h hr hs h1
      have hn : (!s.side.ready.contains 1) = true := congrArg (!·) (Bool.eq_false_of_not_eq_true (mt List.contains_iff_mem.mp h1))
      exact (execPldmActivateFirmware_some h hr).trans ((if_neg hs).trans (if_pos hn))

end Sys2Proof.Machine
end

