-- ==== Sys2Proof/Proofs/Registers.lean ====
section
/-!
SUPPORT and PROOF. Register writes, stray writes, group members, register timeouts and conservation checks (R57, R64–R66, R463, R549).
-/
namespace Sys2Proof.Machine

/-! ### Stray writes -/

section
variable (s : State) (c k o : Nat)

abbrev strayCount : Reg := ⟨.regspStrayCount, 0, 0⟩
abbrev strayLast : Reg := ⟨.regspStrayLast, 0, 0⟩

theorem State.rd_strayLast : (s.strayCode c k o).rd strayLast = setBits (setBits (setBits (setBits 0 F.regspStrayLast_REQ c)
    F.regspStrayLast_KIND k) F.regspStrayLast_VALID 1) F.regspStrayLast_OFFSET o := State.rd_wr_same _ _ _

theorem State.strayLast_offset : (s.strayCode c k o).fget strayLast F.regspStrayLast_OFFSET = o % 2 ^ 32 := by
  rw [State.fget, State.rd_strayLast, bitsOf_setBits_same _ _ (by decide)]
  rfl

theorem State.strayLast_valid : (s.strayCode c k o).fget strayLast F.regspStrayLast_VALID = 1 := by
  rw [State.fget, State.rd_strayLast, bitsOf_setBits_apart _ _ (.inr (by decide)), bitsOf_setBits_same _ _ (by decide)]
  rfl

theorem State.strayLast_kind : (s.strayCode c k o).fget strayLast F.regspStrayLast_KIND = k % 2 ^ 2 := by
  rw [State.fget, State.rd_strayLast, bitsOf_setBits_apart _ _ (.inr (by decide)), bitsOf_setBits_apart _ _ (.inr (by decide)),
    bitsOf_setBits_same _ _ (by decide)]
  rfl

theorem State.strayLast_req : (s.strayCode c k o).fget strayLast F.regspStrayLast_REQ = c % 2 ^ 5 := by
  rw [State.fget, State.rd_strayLast, bitsOf_setBits_apart _ _ (.inr (by decide)), bitsOf_setBits_apart _ _ (.inr (by decide)),
    bitsOf_setBits_apart _ _ (.inr (by decide)), bitsOf_setBits_same _ _ (by decide)]
  rfl

theorem State.strayCount_strayCode : (s.strayCode c k o).fget strayCount F.regspStrayCount_COUNT =
    min (s.fget strayCount F.regspStrayCount_COUNT + 1) (2 ^ F.regspStrayCount_COUNT.width - 1) := by
  rw [← State.fget_fsat 1 (show F.regspStrayCount_COUNT.hi < 64 by decide)]
  exact congrArg (bitsOf · F.regspStrayCount_COUNT) (State.rd_wr_ne _ _ (by decide))

/-- A stray write touches the stray-write registers only. -/
theorem State.strayCode_regsBut : s.regsBut (s.strayCode c k o) [strayCount, strayLast] := by
  intro r hr
  simp only [List.mem_cons, List.not_mem_nil, or_false, not_or] at hr
  exact (State.rd_wr_ne _ _ hr.2).trans (State.rd_fset_ne _ _ _ hr.1)

theorem State.strayCode_memSame : s.memSame (s.strayCode c k o) := State.memSame_of_mem (by rw [State.strayCode_home])

end

theorem rqCode_lt (rq : Requester) : rqCode rq < 2 ^ 5 := by
  cases rq <;> simp only [rqCode] <;> omega

/-! ### Writes in the register space -/

section
variable {s : State} {rq : Requester} {off : Nat} {data : Bytes} {r : Reg} {v : W64}

/-- A write of all 8 bytes at an aligned offset that names one place of a powered die. -/
structure PlaceWrite (s : State) (rq : Requester) (off : Nat) (data : Bytes) : Prop where
  aligned : off % 8 = 0
  size : data.length = 8
  unicast : s.targets rq off = none
  powered : s.offDark off = false

theorem notAnswering_nil (off : Nat) : notAnswering [] off = false := by
  rw [notAnswering]
  split <;> rfl

theorem halfOf_whole (h : off % 8 = 0) : halfOf off 8 = some (off, .all) := if_pos ⟨rfl, h⟩

/-- Such a write reaches its register, or is a stray write of KIND 0. -/
theorem PlaceWrite.spaceWrite (h : PlaceWrite s rq off data) : s.spaceWrite rq off data [] = match regAt (rqCode rq) off with
    | some r => s.regWrite rq r (BitVec.ofNat 64 (leNat data))
    | none => s.strayCode (rqCode rq) 0 off := by
  obtain ⟨ha, hs, hu, hd⟩ := h
  simp only [State.spaceWrite, hs, halfOf_whole ha, hu, notAnswering_nil, State.offWrite, hd, State.regAccess, Bool.false_eq_true, if_false,
    true_or, if_true] <;> rfl

theorem PlaceWrite.register (h : PlaceWrite s rq off data) (hr : regAt (rqCode rq) off = some r) :
    s.spaceWrite rq off data [] = s.regWrite rq r (BitVec.ofNat 64 (leNat data)) := by
  rw [h.spaceWrite, hr]

theorem PlaceWrite.undefined (h : PlaceWrite s rq off data) (hr : regAt (rqCode rq) off = none) :
    s.spaceWrite rq off data [] = s.strayCode (rqCode rq) 0 off := by
  rw [h.spaceWrite, hr]

/-- A write of a bad size or alignment is a stray write of KIND 1. -/
theorem State.spaceWrite_bad (h : halfOf off data.length = none) : s.spaceWrite rq off data [] = s.strayCode (rqCode rq) 1 off := by
  simp only [State.spaceWrite, h]

/-- Registers without a rule of their own. -/
def plainRegs : List RegName :=
  [.ximLoadAddr, .ximQuiesceLimit, .bellSnapAddr, .cwGrpRpAsid, .cwGrpBellBase, .ghStage, .tbStage, .carterStage, .ledgerStage]

theorem State.regWrite_plain (h : r.name ∈ plainRegs) : s.regWrite rq r v = s.plainWrite rq r v := by
  obtain ⟨name, i, j⟩ := r
  simp only [plainRegs, List.mem_cons, List.not_mem_nil, or_false] at h
  rcases h with rfl | rfl | rfl | rfl | rfl | rfl | rfl | rfl | rfl
  all_goals rfl

theorem State.plainWrite_kernel (h : rqKernel rq = true) : s.plainWrite rq r v = s.wr r (r.merge (s.rd r) v) := if_pos h

theorem State.plainWrite_refused (h : rqKernel rq = false) : s.plainWrite rq r v = s.refuse rq r := if_neg (ne_true_of_eq_false h)

end

/-! ### Group members -/

section
variable {s : State} {rq : Requester} {v : W64} {g m : Nat}

/-- A member names a unit: a Porter channel, or a stall where it is valid. -/
def namesUnit (v : W64) : Prop :=
  if bitsOf v F.regspGrpMember_PORTER = 1 then bitsOf v F.regspGrpMember_ID < 256
  else bitsOf v F.regspGrpMember_VALID = 1 → stallOk (bitsOf v F.regspGrpMember_ID) = true

/-- The test by which a member is refused. -/
theorem badMember_iff (v : W64) : ((decide (bitsOf v F.regspGrpMember_PORTER = 1) && decide (256 ≤ bitsOf v F.regspGrpMember_ID)) ||
    (!decide (bitsOf v F.regspGrpMember_PORTER = 1) && decide (bitsOf v F.regspGrpMember_VALID = 1) &&
      !stallOk (bitsOf v F.regspGrpMember_ID))) = true ↔ ¬ namesUnit v := by
  by_cases hp : bitsOf v F.regspGrpMember_PORTER = 1
  · simp only [namesUnit, hp, decide_true, Bool.true_and, Bool.not_true, Bool.false_and, Bool.or_false, decide_eq_true_eq, if_true, Nat.not_lt]
  · simp only [namesUnit, hp, decide_false, Bool.false_and, Bool.not_false, Bool.true_and, Bool.false_or, Bool.and_eq_true, decide_eq_true_eq,
      Bool.not_eq_true', if_false, Classical.not_imp, Bool.not_eq_true]

theorem State.grpMemberWrite_taken (hk : rqKernel rq = true) (hn : namesUnit v) :
    s.grpMemberWrite rq g m v = s.wr ⟨.regspGrpMember, g, m⟩ (Reg.merge ⟨.regspGrpMember, g, m⟩ (s.rd ⟨.regspGrpMember, g, m⟩) v) :=
  (if_pos (congrArg (!·) (Bool.eq_false_of_not_eq_true (mt (badMember_iff v).mp (not_not_intro hn))))).trans (State.plainWrite_kernel hk)

theorem State.grpMemberWrite_refused (h : rqKernel rq = false ∨ ¬ namesUnit v) :
    s.grpMemberWrite rq g m v = s.refuse rq ⟨.regspGrpMember, g, m⟩ := by
  by_cases hn : namesUnit v
  · have hk := h.resolve_right (not_not_intro hn)
    exact (if_pos (congrArg (!·) (Bool.eq_false_of_not_eq_true (mt (badMember_iff v).mp (not_not_intro hn))))).trans
      (State.plainWrite_refused hk)
  · exact if_neg (not_waits ((badMember_iff v).mpr hn))

end

/-! ### Register timeouts -/

section
variable {s : State} {off : BitVec 32} {u : Nat}

/-- The first timeout of a stall is recorded. -/
theorem execRegisterTimeout_first (hu : unitOf off.toNat = some u) (hl : u < 0x400) (hd : s.offDark off.toNat = false)
    (hn : s.err.timedOut.contains u = false) : exec (.registerTimeout off) s =
      .next (({ s with err := { s.err with timedOut := u :: s.err.timedOut } } : State).report 3 0x0A (precOr (s.precOfStall u)) u 0 0 0 false) := by
  refine congrArg Host.Outcome.next (?_ : s.unitTimeout off.toNat false = _)
  simp only [State.unitTimeout, hu, hn, hd, Bool.or_self, Bool.false_eq_true, if_false, if_pos hl]
  rfl

theorem execRegisterTimeout_again (hu : unitOf off.toNat = some u) (hn : s.err.timedOut.contains u = true) :
    exec (.registerTimeout off) s = .next s := by
  refine congrArg Host.Outcome.next (?_ : s.unitTimeout off.toNat false = _)
  simp only [State.unitTimeout, hu, hn, Bool.true_or, if_true]

end

/-! ### Conservation checks -/

section
variable {s : State} {rq : Requester} {v : W64} {n : Nat}

abbrev checkStatus : Reg := ⟨.conserveStatus, 0, 0⟩

/-- The status of the check of quantity `i`. -/
abbrev checkFld (i : Nat) : Fld := ⟨2 * i + 1, 2 * i⟩

theorem State.checkFld_set_same (x : Nat) (hn : n < 7) (hx : x < 4) : (s.fset checkStatus (checkFld n) x).fget checkStatus (checkFld n) = x := by
  have hw : (checkFld n).width = 2 := by
    simp only [Fld.width]
    omega
  rw [State.fget_fset_same _ _ (by show 2 * n + 1 < 64; omega), hw]
  exact Nat.mod_eq_of_lt hx

theorem State.checkFld_set_other {i : Nat} (x : Nat) (h : i ≠ n) :
    (s.fset checkStatus (checkFld n) x).fget checkStatus (checkFld i) = s.fget checkStatus (checkFld i) :=
  State.fget_fset_apart _ _ (by show 2 * i + 1 < 2 * n ∨ 2 * n + 1 < 2 * i; omega)

/-- The first `k` of the checks that a mask asks for are pending. -/
def State.checksPending (s : State) (mask k : Nat) : State :=
  forNat k s fun s n => if nbit mask n then s.fset checkStatus (checkFld n) 3 else s

theorem State.checksPending_succ (mask k : Nat) : s.checksPending mask (k + 1) =
    if nbit mask k then (s.checksPending mask k).fset checkStatus (checkFld k) 3 else s.checksPending mask k := by
  simp only [State.checksPending, forNat, List.range_succ, List.foldl_append, List.foldl_cons, List.foldl_nil]

/-- What the checks asked for change: their status fields alone. -/
theorem State.checksPending_status (mask : Nat) {k : Nat} (hk : k ≤ 7) : s.regsBut (s.checksPending mask k) [checkStatus] ∧
    s.checksPending mask k = { s with regs := (s.checksPending mask k).regs } ∧
    ∀ i, i < 7 → (s.checksPending mask k).fget checkStatus (checkFld i) =
      if i < k ∧ nbit mask i = true then 3 else s.fget checkStatus (checkFld i) := by
  induction k with
  | zero => exact ⟨fun _ _ => rfl, rfl, fun i _ => (if_neg fun h => Nat.not_lt_zero i h.1).symm⟩
  | succ k ih =>
    obtain ⟨hbut, honly, hfld⟩ := ih (Nat.le_of_succ_le hk)
    rw [State.checksPending_succ]
    by_cases hb : nbit mask k = true
    · rw [if_pos hb]
      refine ⟨fun r hr => ?_, State.fset_regs_only_of _ _ _ honly, fun i hi => ?_⟩
      · exact (State.rd_fset_ne _ _ _ (List.ne_of_not_mem_cons hr)).trans (hbut r hr)
      · by_cases hik : i = k
        · rw [hik, State.checkFld_set_same 3 hk (by decide), if_pos ⟨Nat.lt_succ_self k, hb⟩]
        · rw [State.checkFld_set_other 3 hik, hfld i hi]
          have hlt : i < k + 1 ↔ i < k := by omega
          simp only [hlt]
    · rw [if_neg hb]
      refine ⟨hbut, honly, fun i hi => ?_⟩
      rw [hfld i hi]
      by_cases hik : i = k
      · rw [hik, if_neg fun h => hb h.2, if_neg fun h => hb h.2]
      · have hlt : i < k + 1 ↔ i < k := by omega
        simp only [hlt]

theorem execConserveCheck_kernel (h : rqKernel rq = true) :
    exec (.conserveCheck rq v) s = .next (s.checksPending (bitsOf v F.conserveCtrl_CHECK) 7) :=
  congrArg Host.Outcome.next (if_neg (not_waits h))

/-- A check that is pending, of a quantity at a quiescent point, with no injection armed. -/
structure CheckDue (s : State) (n : Nat) : Prop where
  pending : s.fget checkStatus (checkFld n) = 3
  sound : s.injAt 0x0F 0 (fun _ => true) = none
  quiet : s.quiescent n = true

theorem CheckDue.reports {n : Fin 7} (h : CheckDue s n.val) {bad : Option Nat} (hb : bad.all (fun u => s.conserveUnit n.val u) = true) :
    exec (.conserveCheckResult n bad) s = .next (s.conserveReport n.val bad false) := by
  obtain ⟨hp, hi, hq⟩ := h
  refine (if_neg (not_not_intro hp)).trans ?_
  simp only [hi, hq, hb, and_self, if_true, done]

end

/-- Settles O13: register writes by their offset, size and requester, and the other rows of the register space. -/
theorem registerWrites : Obligations.RegisterWrites := by
  unfold Obligations.RegisterWrites
  refine ⟨?_, ?_, ?_⟩
  · intro s rq off data r ha hs hu hd hr hn v
    have hw := (PlaceWrite.mk ha hs hu hd).register hr |>.trans (State.regWrite_plain hn)
    refine ⟨fun hk => congrArg Host.Outcome.next (hw.trans (State.plainWrite_kernel hk)), fun hk => ?_⟩
    refine ⟨_, congrArg Host.Outcome.next (hw.trans (State.plainWrite_refused hk)), State.strayCount_strayCode .., State.strayLast_kind .., ?_,
      State.strayCode_regsBut _ _ _ _, State.strayCode_memSame _ _ _ _⟩
    exact (State.strayLast_req ..).trans (Nat.mod_eq_of_lt (rqCode_lt rq))
  · intro s rq off data
    have hoff : off.toNat % 2 ^ 32 = off.toNat := Nat.mod_eq_of_lt off.isLt
    constructor
    · intro hh
      refine ⟨_, congrArg Host.Outcome.next (State.spaceWrite_bad hh), State.strayLast_kind .., ?_, State.strayLast_valid ..,
        State.strayCode_regsBut _ _ _ _, State.strayCode_memSame _ _ _ _, State.strayCode_out ..⟩
      exact (State.strayLast_offset ..).trans hoff
    · intro ha hs hu hd hr
      refine ⟨_, congrArg Host.Outcome.next ((PlaceWrite.mk ha hs hu hd).undefined hr), State.strayLast_kind .., ?_,
        State.strayCode_regsBut _ _ _ _, State.strayCode_memSame _ _ _ _⟩
      exact (State.strayLast_offset ..).trans hoff
  · intro s rq g m v off n id named r st fld
    refine ⟨?_, ?_, fun u => execRegisterTimeout_first, fun u => execRegisterTimeout_again, ?_, ?_, ?_, ?_⟩
    · exact fun hk hn => congrArg Host.Outcome.next (State.grpMemberWrite_taken hk hn)
    · exact fun h => congrArg Host.Outcome.next (State.grpMemberWrite_refused h)
    · intro hk
      obtain ⟨hbut, honly, hfld⟩ := s.checksPending_status (bitsOf v F.conserveCtrl_CHECK) (Nat.le_refl 7)
      exact ⟨_, execConserveCheck_kernel hk, hbut, honly, fun i hi => (hfld i hi).trans (if_congr (and_iff_right hi) rfl rfl)⟩
    · exact fun hk => congrArg Host.Outcome.next (if_pos (congrArg (!·) hk))
    · intro hp hi hq
      refine ⟨_, (CheckDue.mk hp hi hq).reports rfl, fun x hx => ?_, rfl, fun i _ => ?_⟩
      · exact State.rd_fset_ne _ _ _ (List.ne_of_not_mem_cons hx)
      · by_cases hin : i = n.val
        · rw [if_pos hin, hin]
          exact State.checkFld_set_same 1 n.isLt (by decide)
        · rw [if_neg hin]
          exact State.checkFld_set_other 1 hin
    · exact fun u hp hi hq hu => (CheckDue.mk hp hi hq).reports hu

end Sys2Proof.Machine
end
